-- ==== Sys2Proof/Word.lean ====
section
/-! DEFINITION. The words of the machine: bytes, 32-bit instruction words, 64-bit registers (R6, R15, R144). -/

namespace Sys2Proof

/-- A byte of memory (R6). -/
abbrev Byte := BitVec 8

/-- One instruction word (R15). -/
abbrev IWord := BitVec 32

/-- A scalar register, an address, a control register (R144). -/
abbrev Word := BitVec 64

/-- The 256 bits of one element position of a slice file: 64 slices of 4 bits (R8). -/
abbrev Row := BitVec 256

/-- A mask register: one bit per element position (R95). -/
abbrev Mask := BitVec 1024

/-- A view register in the layout of R51 and R170. -/
abbrev View := BitVec 512

end Sys2Proof
end

