-- ==== Sys2Proof/Config.lean ====
section
/-! DEFINITION. What the part fixes (capacities of R1–R5 and of the pools), and the free values: opaque constants
for what the spec leaves open, so that no proof can lean on a value of them. -/

namespace Sys2Proof.Config

/-- Tiles of the device (R2). -/
def tiles : Nat := 192
/-- Hart slots of the device (R52). -/
def slots : Nat := 1536
/-- HBM bytes (R299). -/
def hbmBytes : Nat := 576000000000
/-- Bytes of one cistern (R2). -/
def cisternBytes : Nat := 2097152
/-- Contexts resident at once (R337). -/
def contexts : Nat := 64
/-- Pending-table entries per die (R76). -/
def pendingPerDie : Nat := 16384
/-- Mark-table entries per die (R76). -/
def marksPerDie : Nat := 1024
/-- Channels of the device (R210). -/
def channels : Nat := 512
/-- Held-address entries of an atomic unit (R333). -/
def heldPerUnit : Nat := 2048
/-- Updates that a held-address entry buffers before it takes an accumulator (R333). -/
def heldBuffer : Nat := 16
/-- Exact accumulators of an atomic unit (R333). -/
def accumPerUnit : Nat := 256
/-- Requests of one triple that may be unacknowledged at once (R371). -/
def remoteWindow : Nat := 1024
/-- Duplicate filters a target holds (R372). -/
def filterCount : Nat := 512

/-- FREE VALUE (log 7): what MFCR of CYCLE reads (R153); a cycle count is timing, which the model does not count. -/
opaque cycle : Nat → Word
/-- FREE VALUE (log 7): the DT field of a trace record and the count of a SYNC record (R404, R405). -/
opaque traceTime : Nat → Word
/-- FREE VALUE (log 8): whether an active element above a faulting one was performed in idempotent memory (R201). -/
opaque performedAbove : Nat → Bool
/-- FREE VALUE (log 112): which of the elements that a stop of LD, ST, LDQ, STQ or MLDB waits for is the lowest one whose reply is abandoned
(R348); a number past them all says that none is. -/
opaque lateElem : Nat → Nat
/-- FREE VALUE (log 82): whether a column at or above the one at which MLDB stopped has been loaded (R252). -/
opaque columnLoaded : Nat → Bool
/-- FREE VALUE (log 57): whether the records of one key at one port are folded into one before they join those of the ports below (R281), or each
joins them as it is popped (R279). -/
opaque foldsPorts : Bool
/-- FREE VALUE (log 22): the LOC that a use of a FAILED function records (R407, R408); the spec names no word for it. -/
opaque errorLoc : Nat → BitVec 32
/-- FREE VALUE (log 51): the slot field of TVAL in an exchange fault that has no slot to name (R295). -/
opaque faultSlot : Nat → BitVec 8
/-- FREE VALUE (log 18): the 32 bytes that a draw of the entropy source gives (R413), byte 0 lowest. -/
opaque entropy : Nat → BitVec 256
/-- FREE VALUE (log 18): the 32 bytes of randomness of a signature (R411), byte 0 lowest; all zero if the device signs deterministically. -/
opaque signRandom : Nat → BitVec 256
/-- FREE FUNCTION (log 18): the form in which ML-DSA signs a message (R411): the bytes themselves or their digest, after a context string; FIPS 204 has
both forms, and the spec names neither. -/
opaque signedForm : List Byte → List Byte
/-- FREE VALUE (log 18): the fused SHAKE256-256 digest of the Camholt public key (R412). -/
opaque fusedKey : BitVec 256
/-- FREE VALUE (log 18): byte n of what is readable at region 0 offset 0x7000: the certificate of the public key of that draw and of the
serial number, its length in bytes 0–3 (R380, R413). -/
opaque certificate : Nat → Nat → Byte

end Sys2Proof.Config
end

