-- ==== Sys2Proof/Machine/Maps.lean ====
section
/-! DEFINITION. Sparse data by key: sorted association lists. Every memory, register file and table of the machine is one.
`get` reads, `set` writes in the canonical form (no entry equal to the default), `put` and `del` serve tables of records. -/

namespace Sys2Proof.Machine

/-- Sparse data: keys rise strictly. -/
abbrev SMap (α : Type) := List (Nat × α)

namespace SMap

/-- The value at `k`, or `d` where nothing is listed. -/
def get {α : Type} (d : α) : SMap α → Nat → α
  | [], _ => d
  | (k', v) :: t, k => if k = k' then v else get d t k

/-- Lists `v` at `k`, keeping the keys sorted. -/
def put {α : Type} : SMap α → Nat → α → SMap α
  | [], k, v => [(k, v)]
  | (k', v') :: t, k, v =>
    if k < k' then (k, v) :: (k', v') :: t else if k = k' then (k, v) :: t else (k', v') :: put t k v

/-- Removes what is listed at `k`. -/
def del {α : Type} : SMap α → Nat → SMap α
  | [], _ => []
  | (k', v') :: t, k => if k = k' then del t k else (k', v') :: del t k

/-- Writes `v` at `k`; writing the default removes the entry. -/
def set {α : Type} [DecidableEq α] (d : α) (m : SMap α) (k : Nat) (v : α) : SMap α :=
  if v = d then del m k else put m k v

/-- The value at `k` where one is listed. -/
def find? {α : Type} : SMap α → Nat → Option α
  | [], _ => none
  | (k', v) :: t, k => if k = k' then some v else find? t k

/-- The keys rise strictly above `lo`. -/
def sortedFrom {α : Type} : Nat → SMap α → Bool
  | _, [] => true
  | lo, (k, _) :: t => decide (lo ≤ k) && sortedFrom (k + 1) t

/-- The canonical form: strictly rising keys, and no entry equal to what an unlisted key reads as. -/
def wf {α : Type} [DecidableEq α] (d : α) (m : SMap α) : Bool :=
  sortedFrom 0 m && m.all (fun p => decide (p.2 ≠ d))

/-- Rewrites the value at every key of lo, lo + 1, …, lo + n − 1 by `f`. -/
def mapRange {α : Type} [DecidableEq α] (d : α) (f : Nat → α → α) (lo : Nat) : Nat → SMap α → SMap α
  | 0, m => m
  | n + 1, m => mapRange d f (lo + 1) n (set d m lo (f lo (get d m lo)))

end SMap

/-- `f` at lo, lo + 1, …, lo + n − 1, in that order. -/
def foldRange {β : Type} (f : Nat → β → β) (lo : Nat) : Nat → β → β
  | 0, b => b
  | n + 1, b => foldRange f (lo + 1) n (f lo b)

/-- The first of lo, …, lo + n − 1 that `p` accepts. -/
def firstIn (p : Nat → Bool) (lo : Nat) : Nat → Option Nat
  | 0 => none
  | n + 1 => if p lo then some lo else firstIn p (lo + 1) n

/-- Is `p` true somewhere in lo, …, lo + n − 1? -/
def anyIn (p : Nat → Bool) (lo : Nat) : Nat → Bool
  | 0 => false
  | n + 1 => p lo || anyIn p (lo + 1) n

end Sys2Proof.Machine
end

