-- ==== Sys2Proof/Syntax.lean ====
section
/-! DEFINITION. The syntax of every step of the part: one constructor of `Instr` per row of the opcode table, 173
instruction rows and 81 event rows. Field names are the table's: f form, w wcode, d a b the three operand fields, p and q
the policy bits [1] and [0] (R18–R22). An event row has no encoding; its arguments say which unit moves, and carry what
the outside world supplies. -/

namespace Sys2Proof

/-- Format A with form, wcode, three fields and both policy bits (R18). -/
structure ArgsA where
  f : BitVec 2
  w : BitVec 3
  d : BitVec 6
  a : BitVec 6
  b : BitVec 6
  p : Bool
  q : Bool
  deriving DecidableEq, Repr

/-- Format A, unary classes IU and FU: b and eb are fixed at zero (R31). -/
structure ArgsU where
  f : BitVec 2
  w : BitVec 3
  d : BitVec 6
  a : BitVec 6
  p : Bool
  deriving DecidableEq, Repr

/-- Format A, classes MV and IO: a and ea are fixed at zero (R31). -/
structure ArgsM where
  f : BitVec 2
  w : BitVec 3
  d : BitVec 6
  b : BitVec 6
  q : Bool
  deriving DecidableEq, Repr

/-- Format A, class CV: `s` is the source code b[2:0] (R32). -/
structure ArgsC where
  f : BitVec 2
  w : BitVec 3
  d : BitVec 6
  a : BitVec 6
  s : BitVec 3
  p : Bool
  deriving DecidableEq, Repr

/-- Classes with one form: reductions, scans, PERM, and TLD, TST (R31, R205). -/
structure ArgsR where
  w : BitVec 3
  d : BitVec 6
  a : BitVec 6
  b : BitVec 6
  p : Bool
  q : Bool
  deriving DecidableEq, Repr

/-- Classes PK, MF and MT (R31). -/
structure ArgsP where
  w : BitVec 3
  d : BitVec 6
  a : BitVec 6
  p : Bool
  deriving DecidableEq, Repr

/-- Class NZ (R31, R139). -/
structure ArgsN where
  w : BitVec 3
  d : BitVec 6
  a : BitVec 6
  b : BitVec 6
  p : Bool
  deriving DecidableEq, Repr

/-- Three operand fields and both policy bits. -/
structure ArgsT where
  d : BitVec 6
  a : BitVec 6
  b : BitVec 6
  p : Bool
  q : Bool
  deriving DecidableEq, Repr

/-- A destination and one source. -/
structure ArgsD where
  d : BitVec 6
  a : BitVec 6
  p : Bool
  deriving DecidableEq, Repr

/-- A destination, one source and a selector (VIEWSET, PSTAT). -/
structure ArgsK where
  d : BitVec 6
  a : BitVec 6
  b : BitVec 6
  p : Bool
  deriving DecidableEq, Repr

/-- One source. -/
structure ArgsS where
  a : BitVec 6
  p : Bool
  deriving DecidableEq, Repr

/-- Two sources. -/
structure ArgsQ where
  a : BitVec 6
  b : BitVec 6
  p : Bool
  q : Bool
  deriving DecidableEq, Repr

/-- LD and ST (R197): `m` is the mode. -/
structure ArgsL where
  m : BitVec 2
  w : BitVec 3
  d : BitVec 6
  a : BitVec 6
  b : BitVec 6
  p : Bool
  q : Bool
  deriving DecidableEq, Repr

/-- The atomics (R328): `w` is bit 0 of wcode, 0 for 32 bits and 1 for 64. -/
structure ArgsG where
  m : BitVec 2
  w : Bool
  d : BitVec 6
  a : BitVec 6
  b : BitVec 6
  p : Bool
  q : Bool
  deriving DecidableEq, Repr

/-- STQ (R180). -/
structure ArgsStq where
  w : BitVec 3
  d : BitVec 6
  a : BitVec 6
  p : Bool
  q : Bool
  deriving DecidableEq, Repr

/-- ACQ and JALR (R324, R161): `w` is bit 0 of wcode, 1 for the immediate form. -/
structure ArgsJ where
  w : Bool
  d : BitVec 6
  a : BitVec 6
  b : BitVec 6
  p : Bool
  q : Bool
  deriving DecidableEq, Repr

/-- REL (R325). -/
structure ArgsRel where
  w : Bool
  a : BitVec 6
  b : BitVec 6
  p : Bool
  q : Bool
  deriving DecidableEq, Repr

/-- Format B: BR and BRS (R20). -/
structure ArgsB where
  c : BitVec 3
  a : BitVec 6
  b : BitVec 6
  o : BitVec 10
  deriving DecidableEq, Repr

/-- BRM, whose b is fixed at zero (R158). -/
structure ArgsBrm where
  c : BitVec 3
  a : BitVec 6
  o : BitVec 10
  deriving DecidableEq, Repr

/-- Format I (R21). -/
structure ArgsI where
  d : BitVec 6
  i : BitVec 19
  deriving DecidableEq, Repr

/-- MLDB and MLDB.I8: `m` names the macro (R251). -/
structure ArgsMldb where
  m : BitVec 2
  a : BitVec 6
  b : BitVec 6
  p : Bool
  q : Bool
  deriving DecidableEq, Repr

/-- MMO, MMF and MMI: `k` is the macro mask (R253). -/
structure ArgsMm where
  d : BitVec 6
  a : BitVec 6
  k : BitVec 4
  p : Bool
  deriving DecidableEq, Repr

/-- MRD: `f` format, `r` accumulator row (R257). -/
structure ArgsMrd where
  d : BitVec 6
  a : BitVec 6
  f : BitVec 2
  r : BitVec 4
  p : Bool
  deriving DecidableEq, Repr

/-- PBIND: `k` binding, `w` wcode (R234). -/
structure ArgsPb where
  d : BitVec 6
  a : BitVec 6
  k : BitVec 3
  w : BitVec 3
  p : Bool
  deriving DecidableEq, Repr

/-- MFCR: `c` is the control-register index (R156). -/
structure ArgsCr where
  d : BitVec 6
  c : BitVec 12
  deriving DecidableEq, Repr

/-- MTCR (R156). -/
structure ArgsMtcr where
  d : BitVec 6
  c : BitVec 12
  p : Bool
  deriving DecidableEq, Repr

/-- WAITF: `b` is the kind (R149). -/
structure ArgsW where
  a : BitVec 6
  b : BitVec 6
  deriving DecidableEq, Repr

/-- TRACE: `b` is the tag (R357). -/
structure ArgsTr where
  a : BitVec 6
  b : BitVec 6
  p : Bool
  deriving DecidableEq, Repr

/-- The arbiters that count budgets (R389): a pump's dispatcher, a die's egress arbiter, a fabric port. -/
inductive Arbiter where
  | pump (p : Nat)
  | egress (die : Nat)
  | port (g : Nat)
  deriving DecidableEq, Repr

/-- A firmware image as the boot ROM reads it from the package flash (R412): its bytes, the public key and the signature that it carries, its
security version, and the fused minimum that it asks for once it is verified. -/
structure BootImage where
  body : List Byte
  key : BitVec 15616
  sig : BitVec 26472
  version : Word
  raises : Word
  deriving DecidableEq, Repr

/-- One record of an exchange round: an unsigned key and its payload bytes (R269). -/
structure XRec where
  key : Nat
  pay : List Byte
  deriving DecidableEq, Repr

/-- What a fabric lane brings from a peer: nothing (the source is a tile), a record with the flags that combining it raised there, or the
lane's close (R294, R282). -/
inductive LaneInput where
  | none
  | record (r : XRec) (flags : BitVec 7)
  | close
  deriving DecidableEq, Repr

/-- The descriptor fields that two devices compare when a lane opens (R294). -/
structure LaneDesc where
  group : Nat
  flags : Nat
  psz : Nat
  comb : Nat
  ndev : Nat
  deriving DecidableEq, Repr

/-- What a memory request does: read, write, or one of the six atomics of R330. -/
inductive MemOp where
  | read
  | write
  | aadd
  | afadd
  | amax
  | amin
  | aswap
  | acas
  deriving DecidableEq, Repr

/-- A remote request as the target sees it (R369, R371). -/
structure RemoteReq where
  src : Nat
  srcCtx : Nat
  incarnation : Nat
  job : BitVec 32
  seq : BitVec 32
  acked : BitVec 32
  op : MemOp
  pa : Nat
  size : Nat
  data : Nat
  expect : Nat
  device : Bool
  deriving DecidableEq, Repr

/-- A reply as the source sees it: the fabric address of the device that answers, the source context, its incarnation and the number of the
request, refusal, and the data (R369–R371). -/
structure RemoteReply where
  peer : Nat
  ctx : Nat
  incarnation : Nat
  seq : BitVec 32
  refused : Bool
  data : Nat
  deriving DecidableEq, Repr

/-- A ticket request at the target: source fabric address and channel (R377). -/
structure TicketAsk where
  src : Nat
  chan : Nat
  deriving DecidableEq, Repr

/-- The two ends of a ticket (R377, R378): one of this device's dispenser finishes, so that SERVING advances, or the device at a
fabric address calls the ticket of a channel of this device; in a timeout, that call has lapsed. -/
inductive TicketEnd where
  | finished (number : BitVec 32)
  | called (chan peer : Nat)
  deriving DecidableEq, Repr

/-- Where an uncorrectable error lies (R416). SOFT_ERROR also says whether it is lasting, the LOC of R407, and the slot of the
hart whose access met it. -/
inductive ErrorPlace where
  | hart (slot : Nat)
  | window (w : Nat)
  | table (tile : Nat)
  | hbm (ctx : Nat) (stack : Nat)
  | channel (c : Nat)
  | round (r : Nat)
  | link (l : Nat)
  | free (function : Nat)
  | management
  deriving DecidableEq, Repr

/-- What a die measures of itself (R410): its power in watts and its junction temperature in °C. -/
structure Sensors where
  watts : Nat
  temp : Nat
  deriving DecidableEq, Repr

/-- Every step of the part: one constructor per row of spec/opcode_table.json. -/
inductive Instr where
  /-- R108: Adds two integer operands modulo 2^w, per element or on scalars. -/
  | add (x : ArgsA)
  /-- R108: Subtracts integer operands modulo 2^w. -/
  | sub (x : ArgsA)
  /-- R108: Signed saturating add, setting saturation mask bits or FFLAGS.SAT. -/
  | adds (x : ArgsA)
  /-- R108: Unsigned saturating add. -/
  | addsu (x : ArgsA)
  /-- R108: Signed saturating subtract. -/
  | subs (x : ArgsA)
  /-- R108: Unsigned saturating subtract. -/
  | subsu (x : ArgsA)
  /-- R108: Low w bits of the product. -/
  | mul (x : ArgsA)
  /-- R108: High half of the signed product. -/
  | mulh (x : ArgsA)
  /-- R108: High half of the unsigned product. -/
  | mulhu (x : ArgsA)
  /-- R108: Adds the product of the sources to the old destination, wrapping. -/
  | mac (x : ArgsA)
  /-- R109: Signed division; a zero divisor gives all ones and DZ, or traps with cause 0x09 when IDZE is set. -/
  | div (x : ArgsA)
  /-- R109: Unsigned division. -/
  | divu (x : ArgsA)
  /-- R109: Signed remainder with the sign of the dividend. -/
  | rem (x : ArgsA)
  /-- R109: Unsigned remainder. -/
  | remu (x : ArgsA)
  /-- R108: Signed minimum. -/
  | min (x : ArgsA)
  /-- R108: Unsigned minimum. -/
  | minu (x : ArgsA)
  /-- R108: Signed maximum. -/
  | max (x : ArgsA)
  /-- R108: Unsigned maximum. -/
  | maxu (x : ArgsA)
  /-- R111: Absolute value modulo 2^w. -/
  | abs (x : ArgsU)
  /-- R111: Negation modulo 2^w. -/
  | neg (x : ArgsU)
  /-- R112: Signed widening add to width 2w. -/
  | wadd (x : ArgsA)
  /-- R112: Unsigned widening add. -/
  | waddu (x : ArgsA)
  /-- R112: Signed widening multiply. -/
  | wmul (x : ArgsA)
  /-- R112: Unsigned widening multiply. -/
  | wmulu (x : ArgsA)
  /-- R112: Signed widening multiply-accumulate into the 2w destination. -/
  | wmac (x : ArgsA)
  /-- R112: Unsigned widening multiply-accumulate. -/
  | wmacu (x : ArgsA)
  /-- R113: Rounding right shift of 2w elements, saturated to signed w. -/
  | narrow (x : ArgsA)
  /-- R113: Rounding right shift, saturated to unsigned w. -/
  | narrowu (x : ArgsA)
  /-- R108: Bitwise and. -/
  | and (x : ArgsA)
  /-- R108: Bitwise or. -/
  | or (x : ArgsA)
  /-- R108: Bitwise exclusive or. -/
  | xor (x : ArgsA)
  /-- R108: A and not B. -/
  | andn (x : ArgsA)
  /-- R108: Logical left shift by a count modulo w. -/
  | sll (x : ArgsA)
  /-- R108: Logical right shift. -/
  | srl (x : ArgsA)
  /-- R108: Arithmetic right shift. -/
  | sra (x : ArgsA)
  /-- R108: Rotate right. -/
  | rotr (x : ArgsA)
  /-- R111: Counts 1 bits. -/
  | popc (x : ArgsU)
  /-- R111: Counts leading zeros. -/
  | clz (x : ArgsU)
  /-- R114: Equality compare into mask bits or a scalar. -/
  | cmpeq (x : ArgsA)
  /-- R114: Inequality compare. -/
  | cmpne (x : ArgsA)
  /-- R114: Signed less-than compare. -/
  | cmplt (x : ArgsA)
  /-- R114: Unsigned less-than compare. -/
  | cmpltu (x : ArgsA)
  /-- R114: Signed less-or-equal compare. -/
  | cmple (x : ArgsA)
  /-- R114: Unsigned less-or-equal compare. -/
  | cmpleu (x : ArgsA)
  /-- R99: Chooses a where the guard permits and b elsewhere, writing every element below VL. -/
  | sel (x : ArgsA)
  /-- R97: Copies or broadcasts a slice, scalar or immediate. -/
  | mov (x : ArgsM)
  /-- R98: Sign-extends each element or a scalar to a wider width. -/
  | sext (x : ArgsC)
  /-- R98: Zero-extends each element or a scalar. -/
  | zext (x : ArgsC)
  /-- R126: Float add, rounded once by RND. -/
  | fadd (x : ArgsA)
  /-- R126: Float subtract. -/
  | fsub (x : ArgsA)
  /-- R126: Float multiply. -/
  | fmul (x : ArgsA)
  /-- R126: Fused x × y + D with one rounding. -/
  | fma (x : ArgsA)
  /-- R126: Fused x × y − D. -/
  | fms (x : ArgsA)
  /-- R126: Fused −(x × y) + D. -/
  | fnma (x : ArgsA)
  /-- R126: Float divide, a long-latency producer. -/
  | fdiv (x : ArgsA)
  /-- R127: Correctly rounded square root. -/
  | fsqrt (x : ArgsU)
  /-- R127: Correctly rounded reciprocal square root. -/
  | frsq (x : ArgsU)
  /-- R127: Correctly rounded 2^x. -/
  | fexp2 (x : ArgsU)
  /-- R127: Correctly rounded log2 x. -/
  | flog2 (x : ArgsU)
  /-- R126: IEEE minimum with −0 below +0. -/
  | fmin (x : ArgsA)
  /-- R126: IEEE maximum. -/
  | fmax (x : ArgsA)
  /-- R129: Float equality compare. -/
  | fcmpeq (x : ArgsA)
  /-- R129: Float less-than compare. -/
  | fcmplt (x : ArgsA)
  /-- R129: Float less-or-equal compare. -/
  | fcmple (x : ArgsA)
  /-- R130: Float-to-float conversion, or decoding of narrow codes through the active view. -/
  | fcvt (x : ArgsC)
  /-- R132: Float to signed integer with clamping and NV. -/
  | fcvti (x : ArgsC)
  /-- R132: Signed integer to float with RND. -/
  | fcvtf (x : ArgsC)
  /-- R127: Clears the sign bit. -/
  | fabs (x : ArgsU)
  /-- R127: Inverts the sign bit. -/
  | fneg (x : ArgsU)
  /-- R128: Writes the class code of the stored pattern. -/
  | fclass (x : ArgsU)
  /-- R136: Tree-ordered integer sum reduction into a scalar. -/
  | rsum (x : ArgsR)
  /-- R136: Signed minimum reduction. -/
  | rmin (x : ArgsR)
  /-- R136: Unsigned minimum reduction. -/
  | rminu (x : ArgsR)
  /-- R136: Signed maximum reduction. -/
  | rmax (x : ArgsR)
  /-- R136: Unsigned maximum reduction. -/
  | rmaxu (x : ArgsR)
  /-- R136: Bitwise-and reduction. -/
  | rand (x : ArgsR)
  /-- R136: Bitwise-or reduction. -/
  | ror (x : ArgsR)
  /-- R136: Bitwise exclusive-or reduction. -/
  | rxor (x : ArgsR)
  /-- R135: Float sum reduction in the fixed tree order. -/
  | frsum (x : ArgsR)
  /-- R136: Float minimum reduction. -/
  | frmin (x : ArgsR)
  /-- R136: Float maximum reduction. -/
  | frmax (x : ArgsR)
  /-- R137: Inclusive integer prefix sums of active elements. -/
  | scan (x : ArgsR)
  /-- R137: Inclusive float prefix sums in the fixed order. -/
  | fscan (x : ArgsR)
  /-- R138: Packs active elements into a run and sets VCOUNT. -/
  | compress (x : ArgsP)
  /-- R138: Unpacks a run into active positions and sets VCOUNT. -/
  | expand (x : ArgsP)
  /-- R139: Lists indices of active non-zero elements and writes the count. -/
  | nzscan (x : ArgsN)
  /-- R140: Writes B + i into each active element. -/
  | iota (x : ArgsM)
  /-- R141: Shifts elements up by k. -/
  | slideup (x : ArgsA)
  /-- R141: Shifts elements down by k, filling with zero. -/
  | slidedn (x : ArgsA)
  /-- R142: Gathers elements of a by index. -/
  | perm (x : ArgsR)
  /-- R100: Mask and. -/
  | mlogAnd (x : ArgsT)
  /-- R100: Mask or. -/
  | mlogOr (x : ArgsT)
  /-- R100: Mask exclusive or. -/
  | mlogXor (x : ArgsT)
  /-- R100: Mask and-not. -/
  | mlogAndn (x : ArgsT)
  /-- R100: Mask inversion of active bits. -/
  | mlogNot (x : ArgsD)
  /-- R100: Mask copy. -/
  | mlogCopy (x : ArgsD)
  /-- R100: Sets active mask bits. -/
  | mlogSet (d : BitVec 6)
  /-- R100: Clears active mask bits. -/
  | mlogClr (d : BitVec 6)
  /-- R101: Counts active set bits of a mask into a scalar. -/
  | mcnt (x : ArgsD)
  /-- R101: Index of the first active set mask bit, or all ones. -/
  | mfirst (x : ArgsD)
  /-- R102: Sets mask bits from non-zero elements. -/
  | mfrom (x : ArgsP)
  /-- R102: Writes mask bits out as elements. -/
  | mto (x : ArgsP)
  /-- R199: Strided, indexed or scalar load in the captured space. -/
  | ld (x : ArgsL)
  /-- R199: Strided, indexed or scalar store. -/
  | st (x : ArgsL)
  /-- R178: Loads described blocks into narrow codes and view headers, checking format and tag. -/
  | ldq (x : ArgsD)
  /-- R182: Quantises float elements with dither into described blocks. -/
  | stq (x : ArgsStq)
  /-- R206: Loads from each element's lane table store. -/
  | tld (x : ArgsR)
  /-- R206: Stores to the shadow lane table bank, optionally flipping CUR. -/
  | tst (x : ArgsR)
  /-- R330: Atomic integer add returning the old value. -/
  | aadd (x : ArgsG)
  /-- R330: Atomic float add, held until phase close in deterministic mode. -/
  | afadd (x : ArgsG)
  /-- R330: Atomic signed maximum. -/
  | amax (x : ArgsG)
  /-- R330: Atomic signed minimum. -/
  | amin (x : ArgsG)
  /-- R330: Atomic swap. -/
  | aswap (x : ArgsG)
  /-- R330: Atomic compare and swap. -/
  | acas (x : ArgsG)
  /-- R324: Waits until a sync object reaches a target and acquires its bound regions. -/
  | acq (x : ArgsJ)
  /-- R325: Performs accesses to bound regions, then stores or adds to the object. -/
  | rel (x : ArgsRel)
  /-- R317: Performs earlier accesses at the scope's point and refreshes copies. -/
  | fence (scope : BitVec 6)
  /-- R327: Waits until up to two engine queues have completed. -/
  | qfence (x : ArgsQ)
  /-- R320: Binds a region to a sync object in the context's binding table. -/
  | bind (x : ArgsT)
  /-- R320: Releases a binding held by the hart. -/
  | unbind (x : ArgsS)
  /-- R67: Arrives at a group barrier and waits for the phase to complete. -/
  | gbar (x : ArgsD)
  /-- R157: Compares two scalars and branches. -/
  | br (x : ArgsB)
  /-- R158: Branches on mask bits below VL. -/
  | brm (x : ArgsBrm)
  /-- R159: Branches on a selected status bit. -/
  | brs (x : ArgsB)
  /-- R21: Jumps by a word offset and writes the link. -/
  | jal (x : ArgsI)
  /-- R161: Jumps through a register, trapping on a misaligned target. -/
  | jalr (x : ArgsJ)
  /-- R21: Loads a sign-extended 19-bit immediate. -/
  | li (x : ArgsI)
  /-- R21: Shifts a scalar left by 19 and adds an immediate chunk. -/
  | lis (x : ArgsI)
  /-- R96: Sets VL from a request, applying the high-water grant. -/
  | setvl (x : ArgsD)
  /-- R74: Marks a convoy boundary in deterministic mode. -/
  | convoy
  /-- R251: Loads NARROW B columns from described blocks into a macro and writes its replay record. -/
  | mldb (x : ArgsMldb)
  /-- R251: Loads INT8 B columns into a macro. -/
  | mldbI8 (x : ArgsMldb)
  /-- R255: Matrix multiply with ordered FP32 accumulation per block. -/
  | mmo (x : ArgsMm)
  /-- R255: Matrix multiply with one rounding of the exact sum. -/
  | mmf (x : ArgsMm)
  /-- R255: INT8 matrix multiply with 48-bit saturating accumulation. -/
  | mmi (x : ArgsMm)
  /-- R257: Reads accumulator cells into slices in a chosen format. -/
  | mrd (x : ArgsMrd)
  /-- R258: Clears named accumulator rows. -/
  | mclr (x : ArgsS)
  /-- R246: Claims macros and accumulator rows at once, zeroing new grants. -/
  | mclaim (x : ArgsD)
  /-- R247: Releases held macros and rows after earlier matrix work retires. -/
  | mfree (x : ArgsS)
  /-- R184: Loads a whole view from a 64-byte image. -/
  | viewld (x : ArgsD)
  /-- R184: Stores a whole view as a 64-byte image. -/
  | viewst (x : ArgsD)
  /-- R186: Writes one unit of a view from a scalar. -/
  | viewset (x : ArgsK)
  /-- R235: Opens a pump channel from a descriptor and returns a handle or status. -/
  | pgoOpen (x : ArgsD)
  /-- R235: Advances a channel's TAIL. -/
  | pgoTail (x : ArgsT)
  /-- R236: Binds a slice operand to a channel's well as a stream. -/
  | pbind (x : ArgsPb)
  /-- R236: Ends a stream binding after its readers retire. -/
  | punbind (k : BitVec 3)
  /-- R237: Releases well elements. -/
  | prel (x : ArgsQ)
  /-- R238: Waits for arrivals, END or HALT and returns ARR. -/
  | pwait (x : ArgsT)
  /-- R239: Reads one value of a channel. -/
  | pstat (x : ArgsK)
  /-- R240: Stops and closes a channel, returning ARR. -/
  | phalt (x : ArgsD)
  /-- R272: Joins the hart to an exchange round, opening a slot if needed. -/
  | xopen (x : ArgsD)
  /-- R273: Sorts a run in place on the run generator, optionally combining equal keys. -/
  | xsort (x : ArgsT)
  /-- R276: Queues a sorted run on the hart's egress stream. -/
  | xsend (x : ArgsT)
  /-- R277: Queues the close of the egress stream. -/
  | xclose (x : ArgsS)
  /-- R287: Binds the participant's receive well. -/
  | xrecv (x : ArgsQ)
  /-- R275: Writes the bucket of each active key. -/
  | xsplit (x : ArgsT)
  /-- R292: Writes the round's sample image. -/
  | xsamp (x : ArgsT)
  /-- R293: Fits new splitters to a sample image. -/
  | xrbal (x : ArgsT)
  /-- R288: Waits on a round and returns counts or status. -/
  | xwait (x : ArgsT)
  /-- R296: Ends the hart's participation once the round is complete or faulted. -/
  | xdone (x : ArgsS)
  /-- R156: Copies a control register to a scalar. -/
  | mfcr (x : ArgsCr)
  /-- R156: Copies a scalar to a control register under its write rules. -/
  | mtcr (x : ArgsMtcr)
  /-- R358: Traps with cause 0x12. -/
  | ecall (x : ArgsS)
  /-- R359: Returns from the current trap level. -/
  | tret
  /-- R59: Submits a task record to the scheduler. -/
  | taskq (x : ArgsD)
  /-- R69: Retires the running task, writing its completion number and decrementing dependents. -/
  | taskend
  /-- R71: Publishes the producer's high-water mark. -/
  | hwmpub (x : ArgsS)
  /-- R73: Leaves the core's round-robin for a number of cycles. -/
  | yield (x : ArgsS)
  /-- R149: Waits until named full/empty bits are full. -/
  | waitf (x : ArgsW)
  /-- R362: Appends a program record to the trace stream. -/
  | trace (x : ArgsTr)
  /-- R358: Traps with cause 0x13 or halts under HALTBK. -/
  | bkpt (b : BitVec 6)
  /-- R360: Kills a context with reason 2. -/
  | ckill (x : ArgsD)
  /-- R361: Writes SCODE and requests pre-emption. -/
  | savectx (x : ArgsS)
  /-- R104: The sequencer starts the next element group of the chosen hart. -/
  | elementGroup (tile : Nat) (core : Bool)
  /-- R89: A long-latency producer completes all elements and sets its FE bits full. -/
  | longLatencyProducerDone (slot k : Nat)
  /-- R256: A claim domain runs one A broadcast chosen round-robin. -/
  | aBroadcast (tile : Nat) (core : Bool)
  /-- R65: An armed slot pops an eligible ready task and starts it: a cycle of the scheduler clock at the queues of one die. -/
  | pop (die : Nat)
  /-- R61: A waiting decrementer proceeds when a credit frees. -/
  | creditFreed (ctx : Nat)
  /-- R54: Firmware replaces a slot's bind fields, or is rejected with ERR and ECODE. -/
  | slotBindWrite (slot : Nat) (v : BitVec 16)
  /-- R53: Writing 1 clears a slot entry's ERR bit. -/
  | errClear (slot : Nat)
  /-- R86: A changing write of LPART drains the tile and remaps lanes. -/
  | lpart (slot : Nat)
  /-- R86: A changing write of MAXVL drains the tile and sets VLMAX. -/
  | maxvl (slot : Nat)
  /-- R300: A write of PTBASE waits for earlier accesses and invalidates the context's translations. -/
  | ptbase (slot : Nat)
  /-- R436: A write to a management-space register with no row of its own. -/
  | registerWrite (addr : Nat) (v : Word)
  /-- R194: A window-table write that grants a window starts zeroing it. -/
  | windowGrant (window : Nat) (v : BitVec 32)
  /-- R194: A window-table write that clears VALID, RD or WR takes effect at once. -/
  | windowRevoke (window : Nat) (v : BitVec 32)
  /-- R194: The zeroing of a window ends and BUSY clears. -/
  | windowScrubEnd (window : Nat)
  /-- R204: A table-word grant zeroes both banks of every powered lane. -/
  | tableGrant (tile : Nat) (v : BitVec 32)
  /-- R204: Table-store zeroing ends and BUSY clears. -/
  | tableZeroingEnd (tile : Nat)
  /-- R310: Writing GO starts invalidation of a context's translations. -/
  | go (v : Word)
  /-- R310: The invalidation completes and BUSY clears. -/
  | invalidationEnd
  /-- R309: A page walk completes and fills the TLB or reports absent. -/
  | walk (unit ctx : Nat) (va : Word)
  /-- R339: A context is killed, its resources released and its record sent. -/
  | kill (ctx : Nat)
  /-- R337: Clearing RES ends a context normally once its slots are free. -/
  | contextEnd (ctx : Nat)
  /-- R350: Requests pre-emption of a slot. -/
  | pre (slot : Nat)
  /-- R356: Requests a halt of a slot. -/
  | halt (slot : Nat)
  /-- R350: Resumes a HALTED slot. -/
  | resume (slot : Nat)
  /-- R356: Runs a HALTED slot for one instruction and halts again. -/
  | stepSlot (slot : Nat)
  /-- R355: Restores a save image into a slot, or refuses. -/
  | restore (slot : Nat)
  /-- R350: A SAVED slot becomes FREE, keeping its image. -/
  | drop (slot : Nat)
  /-- R351: At a pre-emption point the hart drains and the save engine writes its image. -/
  | preEmption (slot : Nat)
  /-- R354: The slot's cycle count reaches its slice and requests pre-emption. -/
  | timeSliceExpiry (slot : Nat)
  /-- R348: Replies outstanding 4,096 cycles after a stop are abandoned and EIDX falls back. -/
  | abandonment (slot : Nat)
  /-- R356: A debug-port data-word access moves 8 bytes of a halted slot's state. -/
  | debugData (write : Bool) (v : Word)
  /-- R223: A pump dispatcher gives a free port to the oldest ready channel. -/
  | portGrant (pump : Nat)
  /-- R217: Moves a pattern of up to four dimensions. -/
  | copy (chan : Nat)
  /-- R218: Copies rows selected by an index list to a packed destination. -/
  | gather (chan : Nat)
  /-- R218: Copies packed rows to indexed table rows. -/
  | scatter (chan : Nat)
  /-- R219: Requantises described blocks from an old view to a new one. -/
  | requant (chan : Nat)
  /-- R220: Converts consecutive float elements between formats. -/
  | convert (chan : Nat)
  /-- R221: Holds later commands until another channel's SEQ reaches VALUE. -/
  | waitseq (chan : Nat)
  /-- R221: Decrements a task's dependence counter. -/
  | signalDecrement (chan : Nat)
  /-- R221: Stores VALUE at ADDR after earlier writes. -/
  | signalStore (chan : Nat)
  /-- R222: Repeats the command body with offsets. -/
  | loopCmd (chan : Nat)
  /-- R222: Moves the command list to a new base. -/
  | jumpCmd (chan : Nat)
  /-- R222: Ends the channel once earlier commands complete and fixes the final count. -/
  | endCmd (chan : Nat)
  /-- R215: A command completes, counting SEQ and storing it when flagged. -/
  | commandComplete (chan : Nat)
  /-- R224: Delivered elements land in a well and ARR rises. -/
  | arrival (chan : Nat)
  /-- R377: A waiting ticket is called when SERVING advances. -/
  | ticketCall (t : TicketEnd)
  /-- R378: A called ticket without a first transfer for 2^20 cycles counts as finished. -/
  | ticketTimeout (t : TicketEnd)
  /-- R390: An arbiter's budget period ends and counters carry their excess. -/
  | budgetPeriod (arbiter : Arbiter) (ctx : Nat)
  /-- R266: A round whose members have all joined becomes OPEN and reads its splitter image. -/
  | roundOpen (round : Nat)
  /-- R276: An egress sends the next record of its stream, checking key order. -/
  | egressSend (round source : Nat) (fabric : LaneInput)
  /-- R279: A switch output merges and combines the least key and emits it. -/
  | mergeEmit (round stage switch out : Nat)
  /-- R286: An endpoint writes a received record into its well, sump or region. -/
  | ingressDelivery (round endpoint : Nat)
  /-- R290: A round reaches COMPLETE and decrements NOTIFY. -/
  | roundComplete (round : Nat)
  /-- R294: Two devices compare descriptor fields when a fabric lane of a round first opens. -/
  | laneOpening (round dev : Nat) (peer : LaneDesc)
  /-- R294: A peer's fault notice faults the local round of the same RID with code 0x0A. -/
  | faultNotice (round dev : Nat)
  /-- R372: A target admits, filters and performs or refuses a remote request. -/
  | remoteRequest (reqs : List RemoteReq)
  /-- R371: A reply to a remote request arrives at the source. -/
  | remoteReply (reply : RemoteReply)
  /-- R373: A request unanswered for 2^16 cycles is resent, or traps after the fifth send. -/
  | resend (index : Nat)
  /-- R372: A duplicate filter idle for 2^20 cycles is freed. -/
  | filterFree (index : Nat)
  /-- R366: A replayed flit fails again and the link fails for good. -/
  | linkFailed (link : Nat) (loc : BitVec 32)
  /-- R385: The host advances HTAIL and the device reads the next launch record. -/
  | htail (v : BitVec 32)
  /-- R385: The host acknowledges completion records. -/
  | hack (v : BitVec 32)
  /-- R382: A kind-1 launch record is checked and the context made resident, or refused. -/
  | launch
  /-- R381: A kind-2 record ends a context normally. -/
  | endContext
  /-- R384: A completion record is written into the host ring when room allows. -/
  | completionRecord
  /-- R386: The host writes the completion-ring word, valid from the next record. -/
  | completionRingWord (v : BitVec 256)
  /-- R380: A host RDMA access reaches an HBM byte through region 0. -/
  | hbmWindow (off : Nat) (bytes : List Byte)
  /-- R414: A nonce write causes a new signed attestation report. -/
  | attestationNonce (nonce : BitVec 256)
  /-- R407: The boot ROM verifies firmware and starts the other functions. No image is one that the flash does not give. -/
  | powerOn (image : Option BootImage) (epoch : BitVec 16)
  /-- R407: A function finishes its self-test and reports READY or FAILED. -/
  | selfTestEnd (function : Nat) (passed : Bool)
  /-- R407: Firmware writes FAILED into a function's status word. -/
  | failedWrite (function : Nat)
  /-- R410: A die lowers or raises its clock by one step per 4,096 cycles, by what its sensors measure. -/
  | clockStep (die : Nat) (m : Sensors)
  /-- R410: A junction temperature of 110 °C resets the device. -/
  | thermalReset
  /-- R416: An uncorrectable error is retried and, if lasting, affects its owner. -/
  | softError (place : ErrorPlace) (lasting : Bool) (loc : BitVec 32) (hart : Option Nat)
  /-- R403: Writes out a trace unit's buffered records. -/
  | flush (unit : Nat)
  /-- R356: A slot with a requested halt reaches its stop point, drains back its dispatch queue and becomes HALTED. -/
  | haltStop (slot : Nat)
  /-- R355: After a restore resumes the hart, saved slices and masks are reloaded in increasing order, each filling its FE bits. -/
  | sliceReload (slot : Nat)
  /-- R262: A restored macro's replay record is replayed as an MLDB, ending either with the weights loaded or with a pending fault for the next matrix instruction. -/
  | macroReplay (slot mac : Nat)
  /-- R313: A hart's buffered write reaches its home and is performed there. -/
  | storePerformed (slot k : Nat)
  /-- R377: A ticket request from a pump command arrives at the target's dispenser and takes the next number. -/
  | ticketRequest (requests : List TicketAsk)
  /-- R73: A yielding hart returns to its core's round-robin after its n cycles. -/
  | yieldReturn (slot : Nat)
  deriving DecidableEq, Repr

end Sys2Proof
end

