-- ==== Sys2Proof/Machine/State.lean ====
section
/-! DEFINITION. Everything the spec gives the machine, as plain data, and the machine right after reset. Registers that
are numbered, and every table of many like things, are sparse maps whose unlisted entries hold the reset value. -/

namespace Sys2Proof.Machine

/-- How a step can stop the machine with a fault: in no way. Every failing access and every illegal use of this hardware
is an exception whose entry the spec describes (R341, R343), and a third one kills the context (R339), so the type has no
constructor (safe: nothing is left out by it). -/
inductive Fault where
  deriving DecidableEq, Repr

/-- Why a step can be refused. -/
inductive Refusal where
  /-- raised only by an arm of `exec` whose instruction has no meaning yet (safe: the machine stops by name) -/
  | notModelled (mnemonic : String)
  deriving DecidableEq, Repr

/-- Where a location has its home (R313): local HBM, a cistern (global address), host memory by host virtual address (R379), the HBM of a span device. -/
inductive Loc where
  | hbm (a : Nat)
  | cis (a : Nat)
  | host (a : Nat)
  | peer (dev a : Nat)
  deriving DecidableEq, Repr

/-- An element that an instruction in progress has translated, or performed (R203, R310, R329): its number, address, location and class,
and the value that it read, once it has been performed. -/
structure Accessed where
  i : Nat
  va : Word
  loc : Loc
  device : Bool
  value : Option Nat
  deriving DecidableEq, Repr

/-! ## Harts -/

/-- One trap bank: TCAUSEn, TEPCn, TEIDXn, TVALn, TSTATn (R342). -/
structure Bank where
  cause : BitVec 8 := 0
  epc : Word := 0
  eidx : BitVec 11 := 0
  val : Word := 0
  plvl : BitVec 2 := 0
  wlvl : BitVec 2 := 0
  abnd : Bool := false
  deriving DecidableEq, Repr

/-- A stream binding (R231, R232, R352): slice operand, channel, dispatch count D and consumed count C. -/
structure StreamBind where
  slice : Nat
  wcode : BitVec 3
  chan : Nat
  d : Nat
  c : Nat
  deriving DecidableEq, Repr

/-- MACFG (R244). -/
structure Macfg where
  mcl : BitVec 4 := 0
  acl : BitVec 16 := 0
  isat : Bool := false
  deriving DecidableEq, Repr

/-- What an instruction in flight reads and writes, as the order rules of a hart see it (R87, R88, R156, R158, R159): the slices
its sources and destinations cover, the masks it reads and writes, whether a later group of it may still read or write elements of a
group that it has passed (`spreads`), or a group of it those of a later group (`looks`), and whether it may write FFLAGS or VCOUNT or
reads a stream. -/
structure Uses where
  srcs : BitVec 64 := 0
  dsts : BitVec 64 := 0
  mreads : BitVec 8 := 0
  mwrites : BitVec 8 := 0
  spreads : Bool := false
  looks : Bool := false
  flags : Bool := false
  vcount : Bool := false
  stream : Bool := false
  deriving DecidableEq, Repr

/-- A vector or matrix instruction in flight (R89, R104, R145): the scalar registers and slices that it marked empty, the
VL it captured, the first element of the next group to start, whether it is a matrix instruction, and what it uses. -/
structure Inflight where
  scalars : BitVec 64
  slices : BitVec 64
  vl : Nat
  next : Nat
  matrix : Bool
  uses : Uses := {}
  deriving DecidableEq, Repr

/-- A PWAIT in progress (R238): the channel, and once the channel has been closed its final count (R241), or its status word where it
was FAULTED (R230). -/
structure PWaiting where
  chan : Nat
  final : Option Nat
  broke : Option Word := none
  deriving DecidableEq, Repr

/-- An instruction that its core has issued and that has not begun (R147, R344): its word, whether it is in the dispatch queue (R148) or a
scalar instruction whose result is held, the empty register that it found, which is its trap, the DETM that it was issued under (R401),
and the tails that a QFENCE found at its dispatch (R327). -/
structure Queued where
  word : IWord
  vec : Bool
  trap : Option (BitVec 6) := none
  detm : Bool := false
  tails : Option (Nat × Nat) := none
  deriving DecidableEq, Repr

/-- The per-hart state of a slot (R52). A full/empty bit of 1 is full. `replaying` names the macros
whose replay after a restore has not ended (R262) and `macroFault` the faults of replays that have not trapped yet, `hidden` holds the physical element storage that the
lane partition makes unreachable (R86), keyed lane × 32 + depth; `pendCr` an MTCR that waits for its event row (R86, R300);
`pcMark` is INSTRET at the last PC record of this hart, or at its dispatch or restore (R405), `qtail` holds the tails that
a waiting QFENCE found at its dispatch (R327). `word` is the word of the instruction in progress, which a store no longer
changes (R17), with the DETM under which it began (R401), and `mid` says that it stands inside an element group whose issued elements must end before a stop (R202, R347). `queue` lists what its core has issued
and the hart has not begun, oldest first (R147), and `want` is the turn of a hart that found the dispatch queue full. `accs` lists the elements
of the instruction in progress whose translation or value is fixed before it ends. -/
structure Hart where
  pc : Word := 0
  eidx : BitVec 11 := 0
  s : SMap Word := []
  sFE : BitVec 64 := BitVec.allOnes 64
  z : SMap Row := []
  zFE : BitVec 64 := BitVec.allOnes 64
  dirty : BitVec 64 := 0
  vlg : SMap (BitVec 5) := []
  m : SMap Mask := []
  mFE : BitVec 8 := BitVec.allOnes 8
  v : SMap View := []
  vl : BitVec 11 := 0
  vstride : Word := 0
  vmsel : BitVec 5 := 0
  vsatm : BitVec 3 := 7
  mspace : BitVec 2 := 0
  fctl : BitVec 7 := 0
  fflags : BitVec 7 := 0
  view : BitVec 6 := 0
  vcount : BitVec 11 := 0
  strmf : BitVec 16 := 0
  hwsrc : Word := 0xFFFFFFFF
  macfg : Macfg := {}
  taskid : BitVec 32 := 0xFFFFFFFF
  taskarg : Word := 0
  instret : Word := 0
  detf : Bool := false
  tlvl : BitVec 2 := 0
  tvec : BitVec 62 := 0
  bank1 : Bank := {}
  bank2 : Bank := {}
  tsave : Word := 0
  handles : SMap Nat := []
  binds : SMap StreamBind := []
  replay : SMap (BitVec 512) := []
  inflight : List Inflight := []
  passed : Nat := 0
  convoy : Bool := false
  pwait : Option PWaiting := none
  abnd : Bool := false
  macroFault : SMap (BitVec 8 × Word) := []
  replaying : BitVec 4 := 0
  hidden : SMap Row := []
  pendCr : Option (Nat × Word) := none
  pcMark : Word := 0
  qtail : Option (Nat × Nat) := none
  word : Option (IWord × Bool) := none
  mid : Bool := false
  queue : List Queued := []
  want : Option Nat := none
  accs : List Accessed := []
  deriving DecidableEq, Repr

/-- STATE of a slot-table entry (R53). -/
inductive SlotState where
  | free | armed | running | waiting | halted | saved
  deriving DecidableEq, Repr

/-- A restore in progress (R355): the slice, or 64 + the mask, that is reloaded next, the image (R436), and the VLG tags that the
image gives. -/
structure Reload where
  next : Nat
  img : Word
  vlg : SMap (BitVec 5)
  deriving DecidableEq, Repr

/-- One hart slot: its slot-table entry (R53), its switch word (R350), what the dispatch hardware keeps, and its hart.
`taskCtx` is the context of the slot's task, `ret` the state a HALTED or SAVED slot returns to (R55), `preImg` the IMG that the
requested pre-emption found (R436), `reload` a restore whose slices and masks are not all reloaded (R355). -/
structure Slot where
  mode : BitVec 2 := 0
  ctx : BitVec 6 := 0
  prio : BitVec 3 := 0
  die : BitVec 2 := 0
  once : Bool := false
  state : SlotState := .free
  err : Bool := false
  ecode : BitVec 4 := 0
  task : BitVec 32 := 0xFFFFFFFF
  ndisp : BitVec 32 := 0
  nsteal : BitVec 32 := 0
  lastctx : Option (BitVec 6) := none
  taskCtx : BitVec 6 := 0
  ret : SlotState := .running
  pre : Bool := false
  preImg : Word := 0
  halt : Bool := false
  step : Bool := false
  haltbk : Bool := false
  busy : Bool := false
  refused : Bool := false
  scode : BitVec 16 := 0
  img : Word := 0
  simg : Option Word := none
  yielded : Bool := false
  ending : Bool := false
  reload : Option Reload := none
  hart : Hart := {}
  deriving DecidableEq, Repr

/-! ## Tasks, groups, marks -/

/-- A task record as the scheduler holds it (R56). -/
structure TaskRec where
  entry : Word
  arg : Word
  deps : BitVec 32
  gids : BitVec 32
  prio : BitVec 3
  det : Bool
  aff : BitVec 2
  target : BitVec 16
  id : BitVec 32
  dep1 : BitVec 32
  dep2 : BitVec 32
  hwsrc : BitVec 32
  seq : Word
  deriving DecidableEq, Repr

/-- A held task: pending until its count is zero, then in the ready queue of its priority (R59, R62). -/
structure Held where
  ctx : BitVec 6
  die : Nat
  count : Nat
  ready : Bool
  rc : TaskRec
  deriving DecidableEq, Repr

/-- A task that has been dispatched and whose TASKEND has not retired: its record, slot, barrier arrival (R68), the number
of TASKEND's decrements already made (R61) and its completion number (R69), the STATE that a save of it found (R55), and the channels that the handles and bindings in
its save image name, while those are open (R240). -/
structure RunTask where
  ctx : BitVec 6
  slot : Nat
  rc : TaskRec
  bar : Option (Nat × BitVec 32)
  ended : Nat
  issued : Nat
  was : SlotState := .running
  kept : List Nat := []
  num : Word := 0
  deriving DecidableEq, Repr

/-- Credits for a task id that is not held (R61). -/
structure Credit where
  ctx : BitVec 6
  id : BitVec 32
  count : Nat
  deriving DecidableEq, Repr

/-- A high-water mark entry (R70). -/
structure MarkEntry where
  ctx : BitVec 6
  producer : BitVec 32
  die : Nat
  mark : BitVec 32
  ended : Bool
  refs : Nat
  deriving DecidableEq, Repr

/-- A VALID group-table entry (R66); `gone` lists the members whose TASKEND has retired (R266). -/
structure Group where
  members : List (BitVec 32)
  gone : List (BitVec 32) := []
  arrived : Nat
  ended : Nat
  phase : BitVec 32
  deriving DecidableEq, Repr

/-- A binding-table entry (R319); one that UNBIND has made not VALID keeps its fields (R320). -/
structure Binding where
  obj : Word
  base : BitVec 58
  k : BitVec 6
  space : BitVec 2
  holder : BitVec 11
  valid : Bool := true
  deriving DecidableEq, Repr

/-! ## Memory -/

/-- A write that has left its hart and has not been performed at its home (R313); `seen` once a FENCE of tile scope has
drained it to the read cache of its tile, where the harts of the tile see it (R316); `by_` is INSTRET of its hart when it was made,
which tells the writes of one instruction from those of others. -/
structure BufWrite where
  slot : Nat
  loc : Loc
  n : Nat
  v : Nat
  seen : Bool
  by_ : Word := 0
  deriving DecidableEq, Repr

/-- Who holds a read copy (R313, R17): the read cache of a tile, the remote-cistern buffer of the hart of a slot, that
hart's instruction fetch, or a load in its dispatch queue that has read before an earlier instruction has ended (log 108). -/
inductive Holder where
  | tile (t : Nat)
  | hart (k : Nat)
  | fetch (k : Nat)
  | early (k : Nat)
  deriving DecidableEq, Repr

/-- A read copy of the 64 bytes that begin at `loc`, as they stood at the home when it was made (R313, R17, log 3, 4). -/
structure Copy where
  holder : Holder
  loc : Loc
  line : BitVec 512
  deriving DecidableEq, Repr

/-- A window-table entry (R193); `waits` is the write of a grant that waits until the window's earlier scrub has ended (R194). -/
structure Window where
  ctx : BitVec 6 := 0
  rd : Bool := false
  wr : Bool := false
  valid : Bool := false
  busy : Bool := false
  waits : Option (BitVec 32) := none
  deriving DecidableEq, Repr

/-- A TLB entry (R308): the unit that holds it (tiles 0–191, pumps 192–223, egresses and ingresses of die d 224 + 2d and
225 + 2d), the context, the level of its leaf, the virtual base, and the table entry. -/
structure TlbEntry where
  unit : Nat
  ctx : BitVec 6
  level : Nat
  vbase : Nat
  entry : Word
  deriving DecidableEq, Repr

/-- A walk that a miss has asked for (R309): the die of the walker (4 is the base die), the context, va[50:15], the TLBs that wait for
it, and whether it has a walk slot. -/
structure Walk where
  die : Nat
  ctx : BitVec 6
  page : Nat
  units : List Nat
  started : Bool
  deriving DecidableEq, Repr

/-- A walk that has ended without a leaf: the unit that missed, the context, va[50:15] (R309). -/
structure Walked where
  unit : Nat
  ctx : BitVec 6
  page : Nat
  deriving DecidableEq, Repr

/-- The invalidation word (R310); `going` is the selection (context, scope, VPN) of the invalidation in progress, BUSY when
there is one. -/
structure Inval where
  ctx : BitVec 6 := 0
  scope : Bool := false
  vpn : BitVec 36 := 0
  going : Option (BitVec 6 × Bool × BitVec 36) := none
  deriving DecidableEq, Repr

/-- An update held by a deterministic AFADD (R332, R334). -/
structure HeldUpd where
  task : BitVec 32
  order : Nat
  elem : Nat
  v : Word
  deriving DecidableEq, Repr

/-- A held-address entry of an atomic unit (R333): the location, the width in bytes, the tag, the updates (newest last),
and whether it has taken an exact accumulator. -/
structure HeldAddr where
  unit : Nat
  loc : Loc
  n : Nat
  ctx : BitVec 6
  group : Nat
  phase : BitVec 32
  upds : List HeldUpd
  accum : Bool
  deriving DecidableEq, Repr

/-- A context: its context block (R337), its quota words (R76, R211, R245, R265), completion counter (R69), incarnation
(R371), submitting die (R57) and launch number (R382, R384). -/
structure Ctx where
  res : Bool := false
  sys : Bool := false
  dying : Bool := false
  lastr : BitVec 8 := 0
  ptValid : Bool := false
  ptRoot : BitVec 37 := 0
  detm : Bool := false
  slice : BitVec 32 := 0
  clamps : BitVec 32 := 0
  qtask : BitVec 17 := 0
  qslot : BitVec 11 := 0
  qmark : BitVec 13 := 0
  qcred : BitVec 7 := 0
  surplus : Word := 0
  cseq : Word := 0
  qchan : BitVec 10 := 0
  qmac : BitVec 8 := 0
  qround : BitVec 5 := 0
  incarnation : BitVec 16 := 0
  subDie : Nat := 0
  launch : Option (BitVec 32) := none
  deriving DecidableEq, Repr

/-! ## Pumps -/

/-- STATE of a channel (R229). -/
inductive ChanState where
  | queued | running | blocked | ended | halted | faulted
  deriving DecidableEq, Repr

/-- A command in progress: its index and 256 bits, the loop offsets it runs under, and what it read at its start. Of a data
command: the chunk, row, block or element it has come to and the bytes of it that are done, the row index, whether it reads
(0), delivers (1) or rewrites a header entry (2), the unit in hand (its bytes, how many it has, how many there are), and the
bytes moved. `mark` is the well position at its end, `done` says that its transfers are all issued, `tickets` the fabric addresses
of the devices asked for a ticket and whether they have called it (R376), `peeked` the row indices that a SCATTER to peer memory has read before it sends. -/
structure CmdRun where
  index : Nat
  cmd : BitVec 256
  os : Int := 0
  od : Int := 0
  aux : List (BitVec 512) := []
  pos : Nat := 0
  off : Nat := 0
  idx : Option Nat := none
  phase : Nat := 0
  buf : Nat := 0
  have_ : Nat := 0
  len : Nat := 0
  moved : Nat := 0
  mark : Nat := 0
  done : Bool := false
  tickets : List (Nat × Bool) := []
  peeked : List Nat := []
  deriving DecidableEq, Repr

/-- An open channel (R210–R230). `landed` counts bytes landed in the well, `sent` bytes delivered towards it, `loopAt` is the
index of the active loop's LOOP, `readyAt` orders channels by when they became ready (R223), `serial` tells apart channels
opened under one number, and `waitSerial` is the serial of the channel that a WAITSEQ in progress is tied to (R221). `cmds` keeps the
commands as they stood when TAIL made them available (R214, log 99); `counted` says that the command that completes next has counted
SEQ and has not stored it yet (R215). -/
structure Channel where
  ctx : BitVec 6
  lbase : Nat
  lsize : Nat
  origin : Nat
  next : Nat
  tail : Nat
  seq : Word
  seqaddr : Nat
  loopOn : Bool
  iter : Nat
  os : Int
  od : Int
  loopBase : Nat
  loopAt : Nat
  wbase : Nat
  wsize : Nat
  esz : Nat
  total : Nat
  win : Nat
  landed : Nat
  sent : Nat
  rel : Nat
  state : ChanState
  aovr : Bool
  arep : Bool
  clmp : Bool
  nv : Bool
  ovf : Bool
  nx : Bool
  fcause : BitVec 8
  fcmd : BitVec 32
  final : Option Nat
  detached : Bool
  port : Bool
  readyAt : Option Nat
  run : List CmdRun
  stall : Bool
  serial : Nat
  waitSerial : Option Nat
  cmds : SMap (BitVec 256) := []
  counted : Bool := false
  deriving DecidableEq, Repr

/-- What the model itself adds to say which order of events a run takes (log 1, 2, 3): `late` leaves long-latency results
to LONG_LATENCY_PRODUCER_DONE, `buffered` leaves stores to STORE_PERFORMED, `grouped` makes a step of an element-wise
instruction, LD, ST, LDQ or STQ perform one element group, of MLDB one column and of an atomic one element (R10, R347, R329), `walks` leaves the walks of TLB misses to WALK (R309), `abandons` is set inside
ABANDONMENT alone, which gives up the late replies of the instruction that it stops (R348). -/
structure Sched where
  late : Bool := false
  buffered : Bool := false
  grouped : Bool := false
  walks : Bool := false
  abandons : Bool := false
  deriving DecidableEq, Repr

/-- Which agent moves next (log 1): a hart slot, a core issuing the next instruction of a slot (R147), the event of an event row, the
host writing its own memory (R313), or a holder of read copies making one (R313, R17). -/
inductive Move where
  | run (slot : Nat)
  | issue (slot : Nat)
  | event (e : Instr)
  | hostStore (addr : Nat) (bytes : List Byte)
  | copy (h : Holder) (loc : Loc)
  deriving DecidableEq, Repr

/-- A tile (R2): lane partition (R84), table word (R204) and lane table stores, keyed lane × 8,192 + bank × 4,096 + offset. -/
structure Tile where
  split : Bool := false
  lim : BitVec 2 := 0
  owner : BitVec 6 := 0
  tvalid : Bool := false
  tbusy : Bool := false
  tcur : Bool := false
  tables : SMap Byte := []
  deriving DecidableEq, Repr

/-! ## Exchange rounds and trace units -/

/-- STATE of a round slot that is not FREE (R266, R289). -/
inductive RoundState where
  | joining | opened | complete | faulted
  deriving DecidableEq, Repr

/-- A participant of a round (R272): its slot and task, its run queue (cistern-global offset, records left, records read of
the run), records read, the last key, its close as queued and as read, its well (base, bytes), W and U, whether a record has
gone to the sump, the final close, whether its own stream raised code 0x06, its sampled keys and drops. -/
structure Participant where
  slot : Nat
  task : BitVec 32
  tile : Nat
  runs : List (Nat × Nat × Nat) := []
  read : Nat := 0
  last : Nat := 0
  closed : Bool := false
  closeRead : Bool := false
  well : Option (Nat × Nat) := none
  w : Nat := 0
  u : Nat := 0
  final : Bool := false
  broke : Bool := false
  sampled : List Nat := []
  dropped : Nat := 0
  left : Bool := false
  deriving DecidableEq, Repr

/-- One input of a switch of the merge network (R278): a queue for each output, the record waiting on its link with the
output it is bound for, the key it shows, and the close. -/
structure NetInput where
  q : List (List (XRec × Nat)) := [[], [], [], []]
  waiting : Option (XRec × Nat) := none
  shown : Option Nat := none
  close : Bool := false
  deriving DecidableEq, Repr

/-- One output of a switch in the middle of R279's loop: the key, the port being drained, the records combined so far of the
ports before it and of it, each with its endpoint, and whether the close has been emitted. -/
structure NetOutput where
  key : Option Nat := none
  port : Nat := 0
  acc : Option (XRec × Nat) := none
  sub : Option (XRec × Nat) := none
  closed : Bool := false
  deriving DecidableEq, Repr

/-- An endpoint's ingress (R286): records received and not yet delivered, the close, and the records of a memory endpoint
so far, and the bytes written of the record being delivered. -/
structure Ingress where
  q : List XRec := []
  close : Bool := false
  final : Bool := false
  count : Nat := 0
  at_ : Nat := 0
  deriving DecidableEq, Repr

/-- A round slot that is not FREE (R264–R291). `image` holds the pieces of the splitter image read so far, `splitters` and `map` what it gives at OPEN, `inputs` is keyed
(stage × 64 + switch) × 4 + port and `outputs` likewise by output, `lanes` lists the span devices whose lane is open,
`sentOut` what left on fabric lanes (span device, record or close), `via` the path chosen at OPEN to each other span device (R367): the
member to which it hops first; `noticed` says that a fault notice has gone to the other
devices of the span. -/
structure Round where
  ctx : BitVec 6
  desc : BitVec 512
  state : RoundState := .joining
  code : Nat := 0
  detail : Nat := 0
  fl : BitVec 7 := 0
  np : Nat := 0
  parts : List Participant := []
  image : List (BitVec 512) := []
  splitters : List Nat := []
  map : List Nat := []
  counts : SMap (BitVec 32) := []
  inputs : SMap NetInput := []
  outputs : SMap NetOutput := []
  ins : SMap Ingress := []
  lanes : List Nat := []
  laneClosed : List Nat := []
  sentOut : List (Nat × Option XRec) := []
  via : List (Nat × Nat) := []
  noticed : Bool := false
  deriving DecidableEq, Repr

/-- A trace unit (R403): its control word, the records buffered for the next 64-byte write, the records since the last SYNC,
the records dropped since the last LOST, and whether a SYNC is due. -/
structure TraceUnit where
  en : Bool := false
  all : Bool := false
  ctx : BitVec 6 := 0
  br : Bool := false
  vr : Bool := false
  wrap : Bool := false
  base : Word := 0
  size : BitVec 32 := 0
  wptr : BitVec 32 := 0
  lost : BitVec 32 := 0
  buf : List (BitVec 128) := []
  sinceSync : Nat := 0
  dropped : BitVec 32 := 0
  due : Bool := false
  deriving DecidableEq, Repr

/-! ## Fabric, host, functions -/

/-- Who waits for a remote reply: an element of the instruction at a slot, a pump channel's command, the store of a channel's SEQ, a round,
or nobody any more: the instruction of that slot and task that sent it has stopped or trapped, and the reply will be discarded (R348, R374);
a request of an engine is left under slot 1536. -/
inductive Waiter where
  | elem (slot i : Nat)
  | chan (c : Nat)
  | seq (c : Nat)
  | round (r : Nat)
  | gone (slot : Nat) (task : BitVec 32)
  deriving DecidableEq, Repr

/-- A remote request at its source (R369–R373): the span device it goes to and its fabric address, its number, the ACKED that it carries,
whether it has found a path (R367), what it does, how often it has been sent, and the reply (refused?, data) once one has come. -/
structure SentReq where
  peer : Nat
  target : Nat
  ctx : BitVec 6
  incarnation : BitVec 16
  seq : BitVec 32
  acked : BitVec 32
  routed : Bool
  who : Waiter
  op : MemOp
  pa : Nat
  size : Nat
  data : Nat
  expect : Nat
  device : Bool
  va : Word
  sends : Nat
  failed : Bool
  reply : Option (Bool × Nat)
  deriving DecidableEq, Repr

/-- The next sequence number of a triple (this device, the device at a fabric address, context) (R371). -/
structure SeqCount where
  target : Nat
  ctx : BitVec 6
  next : BitVec 32
  deriving DecidableEq, Repr

/-- A duplicate filter at a target (R372): the numbers performed from ACKED upwards, with saved reply data. -/
structure Filter where
  src : Nat
  srcCtx : Nat
  incarnation : Nat
  acked : BitVec 32
  performed : List (BitVec 32 × Option Nat)
  deriving DecidableEq, Repr

/-- A reply that a target has sent, to the incarnation of the source context and with the ACKED of its triple (R371, R372). -/
structure SentReply where
  src : Nat
  srcCtx : Nat
  incarnation : Nat
  seq : BitVec 32
  acked : BitVec 32
  refused : Bool
  data : Nat
  deriving DecidableEq, Repr

/-- A ticket that the dispenser has issued and that SERVING has not passed (R377). -/
structure Ticket where
  number : BitVec 32
  src : Nat
  chan : Nat
  finished : Bool
  deriving DecidableEq, Repr

/-- The ticket dispenser (R377). -/
structure Dispenser where
  slots : BitVec 4 := 4
  tklog : BitVec 5 := 14
  next : BitVec 32 := 0
  serving : BitVec 32 := 0
  tickets : List Ticket := []
  deriving DecidableEq, Repr

/-- The identity word (R364). -/
structure Ident where
  group : BitVec 11 := 0
  member : BitVec 5 := 0
  ng : BitVec 11 := 1
  deriving DecidableEq, Repr

/-- A budget counter: the arbiter, the context, units counted in its current period (R390). -/
structure BudgetUse where
  arb : Arbiter
  ctx : BitVec 6
  units : Nat
  deriving DecidableEq, Repr

/-- A function's status word (R407): STATE 0 OFF, 1 TESTING, 2 READY, 3 FAILED. -/
structure Func where
  state : BitVec 2 := 0
  fcode : BitVec 4 := 0
  trans : BitVec 16 := 0
  last : BitVec 8 := 0
  loc : BitVec 32 := 0
  deriving DecidableEq, Repr

/-- A die's power limit word (R410). -/
structure Power where
  plim : BitVec 12 := 520
  step : BitVec 4 := 0
  deriving DecidableEq, Repr

/-- An accepted launch whose tasks are being submitted (R382): the context and its incarnation, HSEQ, the submitting die, the physical address of
the next task record's address, how many are left, and the id of the first refused task. -/
structure Submitting where
  ctx : BitVec 6
  incarnation : BitVec 16
  hseq : BitVec 32
  die : Nat
  next : Nat
  left : Nat
  refused : Option (BitVec 32)
  deriving DecidableEq, Repr

/-- The host interface (R380–R388, R412–R414): launch ring, doorbell, queue status, completion-ring word, completion
records that wait, the launch record in hand, end records in hand (context, HSEQ), boot word, nonce and report. -/
structure HostIf where
  ring : SMap Byte := []
  htail : BitVec 32 := 0
  hack : BitVec 32 := 0
  lasth : BitVec 32 := 0
  dseq : BitVec 32 := 0
  epoch : BitVec 16 := 0
  cword : BitVec 256 := 0
  compl : List (BitVec 512) := []
  hold : Bool := false
  inHand : Option (BitVec 512) := none
  submitting : Option Submitting := none
  endings : List (BitVec 6 × BitVec 32) := []
  boot : BitVec 4 := 0
  nonce : BitVec 256 := 0
  report : Option (BitVec 28008) := none
  deriving DecidableEq, Repr

/-- What the boot ROM and the fuses keep over a reset (R412, R413): the fused minimum version, and the draw of the entropy source that made
the identity key pair, once there is one; and of the image that runs, its version and digest. -/
structure Rom where
  minVersion : Word := 0
  identity : Option Nat := none
  version : Word := 0
  digest : BitVec 512 := 0
  deriving DecidableEq, Repr

/-- The fabric and its endpoints at this device. `fab` holds the 64 fabric blocks of 1,024 bytes (R368), `down` the links of other members of
the group that have failed: (a, b) with a < b the local link between members a and b, (m, 32 + g) global port g of member m (R367). -/
structure Fabric where
  down : List (Nat × Nat) := []
  fab : SMap Byte := []
  ident : Ident := {}
  tickets : Dispenser := {}
  reqs : List SentReq := []
  seqs : List SeqCount := []
  filters : List Filter := []
  replies : List SentReply := []
  budgets : List BudgetUse := []
  deriving DecidableEq, Repr

/-- The whole device. A claim domain is numbered 2 × tile, plus 1 for core B's half of a split tile (R242); `int8` gives the
kind of macro M of domain d at 4 d + M (true for INT8), `cols` its column n at (4 d + M) × 4,096 + n (120 weights of 12 bits,
then XB), `cells` accumulator row m at (16 d + m) × 4,096 + n (48 bits, then SAT), `walks` the walks asked for, oldest first, `walked` those that found no leaf, `bcast` the slot whose broadcast the domain
ran last (R256), `owed` the NOTIFY decrements of rounds that wait for a credit, as (context, task) (R61, R290). -/
structure State where
  cur : Nat := 0
  agenda : List Move := []
  sched : Sched := {}
  fresh : Nat := 0
  slots : SMap Slot := []
  tiles : SMap Tile := []
  ctxs : SMap Ctx := []
  hbm : SMap Byte := []
  cis : SMap Byte := []
  host : SMap Byte := []
  wbuf : List BufWrite := []
  copies : List Copy := []
  windows : SMap Window := []
  tlb : List TlbEntry := []
  walks : List Walk := []
  walked : List Walked := []
  inval : Inval := {}
  held : List Held := []
  running : List RunTask := []
  credits : List Credit := []
  marks : List MarkEntry := []
  groups : SMap Group := []
  bindings : SMap Binding := []
  holds : List HeldAddr := []
  chans : SMap Channel := []
  int8 : SMap Bool := []
  cols : SMap (BitVec 1446) := []
  cells : SMap (BitVec 49) := []
  bcast : SMap Nat := []
  rounds : SMap Round := []
  owed : List (BitVec 6 × BitVec 32) := []
  trace : SMap TraceUnit := []
  net : Fabric := {}
  io : HostIf := {}
  rom : Rom := {}
  funcs : SMap Func := []
  power : SMap Power := []
  debugSlot : BitVec 11 := 0
  debugOff : BitVec 19 := 0
  deriving DecidableEq, Repr

/-- The machine right after reset. -/
def State.reset : State := {}

end Sys2Proof.Machine
end

