-- ==== Sys2Proof/Machine/Access.lean ====
section
/-! DEFINITION. One home for every register: reading and writing slots, harts, scalars, slices, masks, views, contexts,
tiles, and the small bit-field helpers that the meanings share. -/

namespace Sys2Proof.Machine

/-! ## Bit helpers -/

/-- Bit `i` of `v` set to `b`. -/
def setB {n : Nat} (v : BitVec n) (i : Nat) (b : Bool) : BitVec n :=
  if b then v ||| BitVec.twoPow n i else v &&& ~~~ (BitVec.twoPow n i)

/-- SX(x, w): the low w bits of x as a two's-complement integer (R12). -/
def sx (x w : Nat) : Int :=
  let r := x % 2 ^ w
  if 2 * r < 2 ^ w then (r : Int) else (r : Int) - (2 ^ w : Nat)

/-- ZX(x, w): the low w bits of x as an unsigned integer (R12). -/
def zx (x w : Nat) : Int := ((x % 2 ^ w : Nat) : Int)

/-- v mod 2^w, as a w-bit pattern. -/
def wrap (v : Int) (w : Nat) : Nat := (v % (2 ^ w : Nat)).toNat

/-- SATS(v, w): clamped to the signed range, and whether clamping changed it (R12). -/
def sats (v : Int) (w : Nat) : Int × Bool :=
  let hi : Int := 2 ^ (w - 1) - 1
  let lo : Int := - 2 ^ (w - 1)
  if v > hi then (hi, true) else if v < lo then (lo, true) else (v, false)

/-- SATU(v, w): clamped to the unsigned range, and whether clamping changed it (R12). -/
def satu (v : Int) (w : Nat) : Int × Bool :=
  let hi : Int := 2 ^ w - 1
  if v > hi then (hi, true) else if v < 0 then (0, true) else (v, false)

/-- The signed immediate of a 6-bit field (R28). -/
def imm6 (b : BitVec 6) : Int := b.toInt

/-- A 64-bit word from an integer, modulo 2^64. -/
def word (v : Int) : Word := BitVec.ofInt 64 v

/-- Bits lo + n − 1 down to lo of a natural number. -/
def bits (x lo n : Nat) : Nat := x / 2 ^ lo % 2 ^ n

/-- ⌈a / b⌉. -/
def ceilDiv (a b : Nat) : Nat := (a + (b - 1)) / b

/-- Is the element absent from the list before `x` is added. -/
def addNew {α : Type} [DecidableEq α] (x : α) (l : List α) : List α := if x ∈ l then l else l ++ [x]

/-! ## Little-endian bytes (R6) -/

/-- The number that the bytes at a, a + 1, …, a + n − 1 hold. -/
def bytesAt (m : SMap Byte) (a : Nat) : Nat → Nat
  | 0 => 0
  | n + 1 => (SMap.get 0 m a).toNat + 256 * bytesAt m (a + 1) n

/-- Stores the low n bytes of v at a. -/
def putBytes (m : SMap Byte) (a : Nat) : Nat → Nat → SMap Byte
  | 0, _ => m
  | n + 1, v => putBytes (SMap.set 0 m a (BitVec.ofNat 8 v)) (a + 1) n (v / 256)

/-- Zeroes n bytes from a: removes every entry with lo ≤ key < lo + n. -/
def zeroBytes (m : SMap Byte) (lo n : Nat) : SMap Byte := m.filter (fun p => p.1 < lo || lo + n ≤ p.1)

/-! ## Slots and harts -/

namespace State

/-- Slot k. -/
def slot (s : State) (k : Nat) : Slot := SMap.get {} s.slots k

/-- Replaces slot k. -/
def setSlot (s : State) (k : Nat) (v : Slot) : State := { s with slots := SMap.set {} s.slots k v }

/-- The hart that executes. -/
def hart (s : State) : Hart := (s.slot s.cur).hart

/-- Replaces the hart that executes. -/
def setHart (s : State) (h : Hart) : State := s.setSlot s.cur { s.slot s.cur with hart := h }

/-- Replaces the hart of slot k. -/
def setHartOf (s : State) (k : Nat) (h : Hart) : State := s.setSlot k { s.slot k with hart := h }

/-- CTXID of slot k (R153). -/
def ctxOf (s : State) (k : Nat) : BitVec 6 := (s.slot k).taskCtx

/-- CTXID of the executing hart. -/
def ctxid (s : State) : BitVec 6 := s.ctxOf s.cur

/-- Context c. -/
def ctx (s : State) (c : BitVec 6) : Ctx := SMap.get {} s.ctxs c.toNat

/-- Replaces context c. -/
def setCtx (s : State) (c : BitVec 6) (v : Ctx) : State := { s with ctxs := SMap.set {} s.ctxs c.toNat v }

/-- The context of the executing hart. -/
def myCtx (s : State) : Ctx := s.ctx s.ctxid

/-- DETM as the executing hart's instruction sees it: as it stood when the instruction was issued, or began (R401). -/
def detm (s : State) : Bool :=
  match s.hart.word with
  | some (_, d) => d
  | none =>
    match s.hart.queue with
    | q :: _ => q.detm
    | [] => s.myCtx.detm

/-- Tile t. -/
def tile (s : State) (t : Nat) : Tile := SMap.get {} s.tiles t

/-- Replaces tile t. -/
def setTile (s : State) (t : Nat) (v : Tile) : State := { s with tiles := SMap.set {} s.tiles t v }

/-- The tile of slot k: slot 8t + j (R52). -/
def tileOf (k : Nat) : Nat := k / 8

/-- The tile of the executing hart. -/
def myTile (s : State) : Tile := s.tile (tileOf s.cur)

/-- The die of a slot (R2). -/
def dieOf (k : Nat) : Nat := k / 8 / 48

/-- Does the slot issue on core B (R52)? -/
def coreOf (k : Nat) : Bool := decide (4 ≤ k % 8)

/-- Is slot k running a task (RUNNING, WAITING, HALTED or SAVED, R54)? -/
def occupied (s : State) (k : Nat) : Bool := (s.slot k).state != .free && (s.slot k).state != .armed

/-- The number under which a slot's fetch waits for a reply, beside those of its instruction's elements. -/
def fetchIndex : Nat := 1048576

/-- A fresh number for a free value. -/
def tick (s : State) : State := { s with fresh := s.fresh + 1 }

end State

/-- Is a pre-emption or a halt requested (R349, R356)? -/
def Slot.stopDue (v : Slot) : Bool := v.halt || v.pre

/-- VLMAX of a tile (R84, R85). -/
def Tile.vlmax (t : Tile) : Nat := if t.lim = 1 then 512 else if t.lim = 2 then 256 else 1024

/-- The mask bits below VLMAX (R95). -/
def Tile.maskBits (t : Tile) : Mask := BitVec.ofNat 1024 (2 ^ t.vlmax - 1)

/-- L, the lanes available to a hart (R9, R85). -/
def Tile.lanes (t : Tile) : Nat := t.vlmax / 32

/-- The physical lane of element i for a hart of core A (`false`) or B (`true`) (R9, R85). -/
def Tile.laneOf (t : Tile) (coreB : Bool) (i : Nat) : Nat :=
  i % t.lanes + (if t.split && coreB then 16 else 0)

/-- Is the physical lane powered (R85)? -/
def Tile.powered (t : Tile) (lane : Nat) : Bool :=
  decide (lane < t.lanes) || (t.split && decide (16 ≤ lane) && decide (lane < 16 + t.lanes))

namespace Hart

/-- Scalar register n; s0 reads as zero (R144). -/
def rs (h : Hart) (n : BitVec 6) : Word := if n = 0 then 0 else SMap.get 0 h.s n.toNat

/-- Writes scalar register n; a write to s0 is discarded (R144). -/
def ws (h : Hart) (n : BitVec 6) (v : Word) : Hart := if n = 0 then h else { h with s := SMap.set 0 h.s n.toNat v }

/-- Is scalar register n full (R144)? -/
def sFull (h : Hart) (n : BitVec 6) : Bool := n = 0 || h.sFE.getLsbD n.toNat

/-- The slice file at element position i. -/
def row (h : Hart) (i : Nat) : Row := SMap.get 0 h.z i

/-- Mask register n. -/
def rm (h : Hart) (n : Nat) : Mask := SMap.get 0 h.m n

/-- Writes mask register n. -/
def wm (h : Hart) (n : Nat) (v : Mask) : Hart := { h with m := SMap.set 0 h.m n v }

/-- View register n (R170). -/
def rv (h : Hart) (n : Nat) : View := SMap.get 0 h.v n

/-- Writes view register n. -/
def wv (h : Hart) (n : Nat) (x : View) : Hart := { h with v := SMap.set 0 h.v n x }

/-- Trap bank n. -/
def bank (h : Hart) (n : Nat) : Bank := if n = 2 then h.bank2 else h.bank1

/-- Replaces trap bank n. -/
def setBank (h : Hart) (n : Nat) (b : Bank) : Hart := if n = 2 then { h with bank2 := b } else { h with bank1 := b }

/-- Address of the handler of level n (R342). -/
def vector (h : Hart) (n : Nat) : Word := (h.tvec ++ 0#2) + BitVec.ofNat 64 (0x100 * (n - 1))

/-- VL as a number. -/
def len (h : Hart) : Nat := h.vl.toNat

/-- ACTIVE(i) for i < VL: the guard permits element i (R12, R93). -/
def permits (h : Hart) (i : Nat) : Bool :=
  !h.vmsel.getLsbD 3 || ((h.rm (h.vmsel.extractLsb' 0 3).toNat).getLsbD i != h.vmsel.getLsbD 4)

/-- ACTIVE(i) (R12). -/
def active (h : Hart) (i : Nat) : Bool := decide (i < h.len) && h.permits i

/-- Retires an instruction: PC + 4, EIDX 0, INSTRET + 1 (R15, R153). -/
def retire (h : Hart) : Hart := { h with pc := h.pc + 4, eidx := 0, instret := h.instret + 1 }

/-- Retires an instruction that continues at `pc`. -/
def retireTo (h : Hart) (pc : Word) : Hart := { h with pc := pc, eidx := 0, instret := h.instret + 1 }

/-- Is every full/empty bit full? -/
def allFull (h : Hart) : Bool := h.sFE == BitVec.allOnes 64 && h.zFE == BitVec.allOnes 64 && h.mFE == BitVec.allOnes 8

end Hart

/-! ## Outcomes of a meaning -/

/-- What executing an instruction comes to: done, a trap (cause, element index, value, walk level) in the state with the
elements below it performed, or a wait, after which the instruction is tried again from the top. -/
inductive Res where
  | ok (s : State)
  | trap (cause : Nat) (i : Nat) (v : Word) (wlvl : Nat) (s : State)
  | wait (s : State)

end Sys2Proof.Machine
end

