-- ==== Sys2Proof/Machine/Flags.lean ====
section
/-! DEFINITION. FFLAGS (R122): its bits, and how an instruction's flags are collected into it (R13). -/

namespace Sys2Proof.Machine

/-- The flag word of an instruction or an element: NX 0, UF 1, OF 2, DZ 3, NV 4, SAT 5, COORD 6 (R122). -/
abbrev Flags := BitVec 7

/-- Inexact. -/
def fNX : Flags := 0x01
/-- Underflow. -/
def fUF : Flags := 0x02
/-- Overflow. -/
def fOF : Flags := 0x04
/-- Division by zero. -/
def fDZ : Flags := 0x08
/-- Invalid operation. -/
def fNV : Flags := 0x10
/-- Saturation in a scalar form. -/
def fSAT : Flags := 0x20
/-- Coordinate-tag mismatch. -/
def fCOORD : Flags := 0x40

/-- Flags of the elements performed are ORed into FFLAGS (R13, R122, R123). -/
def Hart.orFlags (h : Hart) (f : Flags) : Hart := { h with fflags := h.fflags ||| f }

/-- Saturation of element i sets bit i of the mask that VSATM names, and leaves its other bits (R13). -/
def Hart.orSat (h : Hart) (sat : Mask) : Hart :=
  if sat = 0 then h else h.wm h.vsatm.toNat (h.rm h.vsatm.toNat ||| sat)

end Sys2Proof.Machine
end

