-- ==== Sys2Proof/Decode.lean ====
section
/-! DEFINITION. Decoding and encoding of instruction words (R18–R22, R33–R38). A word decodes to the row of the opcode
table that it fits; the value of every field the row leaves open is kept, and `Instr.wellFormed` says which values the
entry permits. Event rows have no encoding. -/

namespace Sys2Proof

/-- Why a word holds no instruction: each is cause 0x01 (R38, checks 1 and 3). -/
inductive Reject where
  /-- primary opcode 0x00, never an instruction (R34) -/
  | opcodeZero
  /-- a secondary opcode the map does not list (R37) -/
  | escape (op sub : Nat)
  /-- a bit that the instruction's class or entry fixes has another value (R30, R31, R35) -/
  | fixedBits (mnemonic : String)
  deriving DecidableEq, Repr

/-- Bits lo + n − 1 down to lo of a word (R6). -/
def fld (w : IWord) (lo n : Nat) : BitVec n := w.extractLsb' lo n

/-- Bit `lo` of a word. -/
def bit (w : IWord) (lo : Nat) : Bool := w.getLsbD lo

/-- A word from the fields of Format A; Formats M and X use the same cuts (R18, R19, R22). -/
def raw (op : BitVec 7) (f : BitVec 2) (w : BitVec 3) (d a b : BitVec 6) (p q : Bool) : IWord :=
  op ++ f ++ w ++ d ++ a ++ b ++ BitVec.ofBool p ++ BitVec.ofBool q

/-- A word of Format B (R20). -/
def packB (op : BitVec 7) (c : BitVec 3) (a b : BitVec 6) (o : BitVec 10) : IWord := op ++ c ++ a ++ b ++ o

/-- A word of Format I (R21). -/
def packI (op : BitVec 7) (d : BitVec 6) (i : BitVec 19) : IWord := op ++ d ++ i

/-- The fields of ArgsA in a word. -/
def unArgsA (w : IWord) : ArgsA := ⟨fld w 23 2, fld w 20 3, fld w 14 6, fld w 8 6, fld w 2 6, bit w 1, bit w 0⟩
/-- The fields of ArgsB in a word. -/
def unArgsB (w : IWord) : ArgsB := ⟨fld w 22 3, fld w 16 6, fld w 10 6, fld w 0 10⟩
/-- The fields of ArgsBrm in a word. -/
def unArgsBrm (w : IWord) : ArgsBrm := ⟨fld w 22 3, fld w 16 6, fld w 0 10⟩
/-- The fields of ArgsC in a word. -/
def unArgsC (w : IWord) : ArgsC := ⟨fld w 23 2, fld w 20 3, fld w 14 6, fld w 8 6, fld w 2 3, bit w 1⟩
/-- The fields of ArgsCr in a word. -/
def unArgsCr (w : IWord) : ArgsCr := ⟨fld w 14 6, fld w 2 12⟩
/-- The fields of ArgsD in a word. -/
def unArgsD (w : IWord) : ArgsD := ⟨fld w 14 6, fld w 8 6, bit w 1⟩
/-- The fields of ArgsG in a word. -/
def unArgsG (w : IWord) : ArgsG := ⟨fld w 23 2, bit w 20, fld w 14 6, fld w 8 6, fld w 2 6, bit w 1, bit w 0⟩
/-- The fields of ArgsI in a word. -/
def unArgsI (w : IWord) : ArgsI := ⟨fld w 19 6, fld w 0 19⟩
/-- The fields of ArgsJ in a word. -/
def unArgsJ (w : IWord) : ArgsJ := ⟨bit w 20, fld w 14 6, fld w 8 6, fld w 2 6, bit w 1, bit w 0⟩
/-- The fields of ArgsK in a word. -/
def unArgsK (w : IWord) : ArgsK := ⟨fld w 14 6, fld w 8 6, fld w 2 6, bit w 1⟩
/-- The fields of ArgsL in a word. -/
def unArgsL (w : IWord) : ArgsL := ⟨fld w 23 2, fld w 20 3, fld w 14 6, fld w 8 6, fld w 2 6, bit w 1, bit w 0⟩
/-- The fields of ArgsM in a word. -/
def unArgsM (w : IWord) : ArgsM := ⟨fld w 23 2, fld w 20 3, fld w 14 6, fld w 2 6, bit w 0⟩
/-- The fields of ArgsMldb in a word. -/
def unArgsMldb (w : IWord) : ArgsMldb := ⟨fld w 14 2, fld w 8 6, fld w 2 6, bit w 1, bit w 0⟩
/-- The fields of ArgsMm in a word. -/
def unArgsMm (w : IWord) : ArgsMm := ⟨fld w 14 6, fld w 8 6, fld w 2 4, bit w 1⟩
/-- The fields of ArgsMrd in a word. -/
def unArgsMrd (w : IWord) : ArgsMrd := ⟨fld w 14 6, fld w 8 6, fld w 6 2, fld w 2 4, bit w 1⟩
/-- The fields of ArgsMtcr in a word. -/
def unArgsMtcr (w : IWord) : ArgsMtcr := ⟨fld w 14 6, fld w 2 12, bit w 1⟩
/-- The fields of ArgsN in a word. -/
def unArgsN (w : IWord) : ArgsN := ⟨fld w 20 3, fld w 14 6, fld w 8 6, fld w 2 6, bit w 1⟩
/-- The fields of ArgsP in a word. -/
def unArgsP (w : IWord) : ArgsP := ⟨fld w 20 3, fld w 14 6, fld w 8 6, bit w 1⟩
/-- The fields of ArgsPb in a word. -/
def unArgsPb (w : IWord) : ArgsPb := ⟨fld w 14 6, fld w 8 6, fld w 5 3, fld w 2 3, bit w 1⟩
/-- The fields of ArgsQ in a word. -/
def unArgsQ (w : IWord) : ArgsQ := ⟨fld w 8 6, fld w 2 6, bit w 1, bit w 0⟩
/-- The fields of ArgsR in a word. -/
def unArgsR (w : IWord) : ArgsR := ⟨fld w 20 3, fld w 14 6, fld w 8 6, fld w 2 6, bit w 1, bit w 0⟩
/-- The fields of ArgsRel in a word. -/
def unArgsRel (w : IWord) : ArgsRel := ⟨bit w 20, fld w 8 6, fld w 2 6, bit w 1, bit w 0⟩
/-- The fields of ArgsS in a word. -/
def unArgsS (w : IWord) : ArgsS := ⟨fld w 8 6, bit w 1⟩
/-- The fields of ArgsStq in a word. -/
def unArgsStq (w : IWord) : ArgsStq := ⟨fld w 20 3, fld w 14 6, fld w 8 6, bit w 1, bit w 0⟩
/-- The fields of ArgsT in a word. -/
def unArgsT (w : IWord) : ArgsT := ⟨fld w 14 6, fld w 8 6, fld w 2 6, bit w 1, bit w 0⟩
/-- The fields of ArgsTr in a word. -/
def unArgsTr (w : IWord) : ArgsTr := ⟨fld w 8 6, fld w 2 6, bit w 1⟩
/-- The fields of ArgsU in a word. -/
def unArgsU (w : IWord) : ArgsU := ⟨fld w 23 2, fld w 20 3, fld w 14 6, fld w 8 6, bit w 1⟩
/-- The fields of ArgsW in a word. -/
def unArgsW (w : IWord) : ArgsW := ⟨fld w 8 6, fld w 2 6⟩

/-- MLOG, opcode 0x5B, form VV: wcode selects the operation (R33). -/
def decodeMlog (op : Nat) (w : IWord) : Except Reject Instr :=
  match op with
  | 0 => .ok (.mlogAnd (unArgsT w))
  | 1 => .ok (.mlogOr (unArgsT w))
  | 2 => .ok (.mlogXor (unArgsT w))
  | 3 => .ok (.mlogAndn (unArgsT w))
  | 4 => if fld w 0 1 = 0 ∧ fld w 2 6 = 0 then .ok (.mlogNot (unArgsD w)) else .error (.fixedBits "MLOG_NOT")
  | 5 => if fld w 0 1 = 0 ∧ fld w 2 6 = 0 then .ok (.mlogCopy (unArgsD w)) else .error (.fixedBits "MLOG_COPY")
  | 6 => if fld w 0 14 = 0 then .ok (.mlogSet (fld w 14 6)) else .error (.fixedBits "MLOG_SET")
  | _ => if fld w 0 14 = 0 then .ok (.mlogClr (fld w 14 6)) else .error (.fixedBits "MLOG_CLR")

/-- Escape opcode 0x7C (R37). -/
def decodeEsc7C (sub : Nat) (w : IWord) : Except Reject Instr :=
  match sub with
  | 0x00 => if fld w 16 4 = 0 then .ok (.mldb (unArgsMldb w)) else if fld w 16 4 = 1 then .ok (.mldbI8 (unArgsMldb w)) else .error (.fixedBits "MLDB")
  | 0x01 => if fld w 0 1 = 0 ∧ fld w 6 2 = 0 then .ok (.mmo (unArgsMm w)) else .error (.fixedBits "MMO")
  | 0x02 => if fld w 0 1 = 0 ∧ fld w 6 2 = 0 then .ok (.mmf (unArgsMm w)) else .error (.fixedBits "MMF")
  | 0x03 => if fld w 0 1 = 0 ∧ fld w 6 2 = 0 then .ok (.mmi (unArgsMm w)) else .error (.fixedBits "MMI")
  | 0x04 => if fld w 0 1 = 0 then .ok (.mrd (unArgsMrd w)) else .error (.fixedBits "MRD")
  | 0x05 => if fld w 0 1 = 0 ∧ fld w 2 6 = 0 ∧ fld w 14 6 = 0 then .ok (.mclr (unArgsS w)) else .error (.fixedBits "MCLR")
  | 0x06 => if fld w 0 1 = 0 ∧ fld w 2 6 = 0 then .ok (.mclaim (unArgsD w)) else .error (.fixedBits "MCLAIM")
  | 0x07 => if fld w 0 1 = 0 ∧ fld w 2 6 = 0 ∧ fld w 14 6 = 0 then .ok (.mfree (unArgsS w)) else .error (.fixedBits "MFREE")
  | 0x08 => if fld w 0 1 = 0 ∧ fld w 2 6 = 0 then .ok (.viewld (unArgsD w)) else .error (.fixedBits "VIEWLD")
  | 0x09 => if fld w 0 1 = 0 ∧ fld w 2 6 = 0 then .ok (.viewst (unArgsD w)) else .error (.fixedBits "VIEWST")
  | 0x0A => if fld w 0 1 = 0 then .ok (.viewset (unArgsK w)) else .error (.fixedBits "VIEWSET")
  | n => .error (.escape 0x7C n)

/-- Escape opcode 0x7D (R37). -/
def decodeEsc7D (sub : Nat) (w : IWord) : Except Reject Instr :=
  match sub with
  | 0x00 => if fld w 0 1 = 0 ∧ fld w 2 6 = 0 then .ok (.pgoOpen (unArgsD w)) else .ok (.pgoTail (unArgsT w))
  | 0x01 => if fld w 0 1 = 0 then .ok (.pbind (unArgsPb w)) else .error (.fixedBits "PBIND")
  | 0x02 => if fld w 0 5 = 0 ∧ fld w 8 12 = 0 then .ok (.punbind (fld w 5 3)) else .error (.fixedBits "PUNBIND")
  | 0x03 => if fld w 14 6 = 0 then .ok (.prel (unArgsQ w)) else .error (.fixedBits "PREL")
  | 0x04 => .ok (.pwait (unArgsT w))
  | 0x05 => if fld w 0 1 = 0 then .ok (.pstat (unArgsK w)) else .error (.fixedBits "PSTAT")
  | 0x06 => if fld w 0 1 = 0 ∧ fld w 2 6 = 0 then .ok (.phalt (unArgsD w)) else .error (.fixedBits "PHALT")
  | n => .error (.escape 0x7D n)

/-- Escape opcode 0x7E (R37). -/
def decodeEsc7E (sub : Nat) (w : IWord) : Except Reject Instr :=
  match sub with
  | 0x00 => if fld w 0 1 = 0 ∧ fld w 2 6 = 0 then .ok (.xopen (unArgsD w)) else .error (.fixedBits "XOPEN")
  | 0x01 => .ok (.xsort (unArgsT w))
  | 0x02 => .ok (.xsend (unArgsT w))
  | 0x03 => if fld w 0 1 = 0 ∧ fld w 2 6 = 0 ∧ fld w 14 6 = 0 then .ok (.xclose (unArgsS w)) else .error (.fixedBits "XCLOSE")
  | 0x04 => if fld w 14 6 = 0 then .ok (.xrecv (unArgsQ w)) else .error (.fixedBits "XRECV")
  | 0x05 => .ok (.xsplit (unArgsT w))
  | 0x06 => .ok (.xsamp (unArgsT w))
  | 0x07 => .ok (.xrbal (unArgsT w))
  | 0x08 => .ok (.xwait (unArgsT w))
  | 0x09 => if fld w 0 1 = 0 ∧ fld w 2 6 = 0 ∧ fld w 14 6 = 0 then .ok (.xdone (unArgsS w)) else .error (.fixedBits "XDONE")
  | n => .error (.escape 0x7E n)

/-- Escape opcode 0x7F (R37). -/
def decodeEsc7F (sub : Nat) (w : IWord) : Except Reject Instr :=
  match sub with
  | 0x00 => if fld w 0 2 = 0 then .ok (.mfcr (unArgsCr w)) else .error (.fixedBits "MFCR")
  | 0x01 => if fld w 0 1 = 0 then .ok (.mtcr (unArgsMtcr w)) else .error (.fixedBits "MTCR")
  | 0x02 => if fld w 0 1 = 0 ∧ fld w 2 6 = 0 ∧ fld w 14 6 = 0 then .ok (.ecall (unArgsS w)) else .error (.fixedBits "ECALL")
  | 0x03 => if fld w 0 20 = 0 then .ok .tret else .error (.fixedBits "TRET")
  | 0x04 => if fld w 0 1 = 0 ∧ fld w 2 6 = 0 then .ok (.taskq (unArgsD w)) else .error (.fixedBits "TASKQ")
  | 0x05 => if fld w 0 20 = 0 then .ok .taskend else .error (.fixedBits "TASKEND")
  | 0x06 => if fld w 0 1 = 0 ∧ fld w 2 6 = 0 ∧ fld w 14 6 = 0 then .ok (.hwmpub (unArgsS w)) else .error (.fixedBits "HWMPUB")
  | 0x07 => if fld w 0 1 = 0 ∧ fld w 2 6 = 0 ∧ fld w 14 6 = 0 then .ok (.yield (unArgsS w)) else .error (.fixedBits "YIELD")
  | 0x08 => if fld w 0 2 = 0 ∧ fld w 14 6 = 0 then .ok (.waitf (unArgsW w)) else .error (.fixedBits "WAITF")
  | 0x09 => if fld w 0 1 = 0 ∧ fld w 14 6 = 0 then .ok (.trace (unArgsTr w)) else .error (.fixedBits "TRACE")
  | 0x0A => if fld w 0 2 = 0 ∧ fld w 8 12 = 0 then .ok (.bkpt (fld w 2 6)) else .error (.fixedBits "BKPT")
  | 0x0B => if fld w 0 1 = 0 ∧ fld w 2 6 = 0 then .ok (.ckill (unArgsD w)) else .error (.fixedBits "CKILL")
  | 0x0C => if fld w 0 1 = 0 ∧ fld w 2 6 = 0 ∧ fld w 14 6 = 0 then .ok (.savectx (unArgsS w)) else .error (.fixedBits "SAVECTX")
  | n => .error (.escape 0x7F n)

/-- The instruction that a word of primary opcode `op` holds (R34–R37). -/
def decodeOp (op : Nat) (w : IWord) : Except Reject Instr :=
  match op with
  | 0x01 => .ok (.add (unArgsA w))
  | 0x02 => .ok (.sub (unArgsA w))
  | 0x03 => .ok (.adds (unArgsA w))
  | 0x04 => .ok (.addsu (unArgsA w))
  | 0x05 => .ok (.subs (unArgsA w))
  | 0x06 => .ok (.subsu (unArgsA w))
  | 0x07 => .ok (.mul (unArgsA w))
  | 0x08 => .ok (.mulh (unArgsA w))
  | 0x09 => .ok (.mulhu (unArgsA w))
  | 0x0A => .ok (.mac (unArgsA w))
  | 0x0B => .ok (.div (unArgsA w))
  | 0x0C => .ok (.divu (unArgsA w))
  | 0x0D => .ok (.rem (unArgsA w))
  | 0x0E => .ok (.remu (unArgsA w))
  | 0x0F => .ok (.min (unArgsA w))
  | 0x10 => .ok (.minu (unArgsA w))
  | 0x11 => .ok (.max (unArgsA w))
  | 0x12 => .ok (.maxu (unArgsA w))
  | 0x13 => if fld w 0 1 = 0 ∧ fld w 2 6 = 0 then .ok (.abs (unArgsU w)) else .error (.fixedBits "ABS")
  | 0x14 => if fld w 0 1 = 0 ∧ fld w 2 6 = 0 then .ok (.neg (unArgsU w)) else .error (.fixedBits "NEG")
  | 0x15 => .ok (.wadd (unArgsA w))
  | 0x16 => .ok (.waddu (unArgsA w))
  | 0x17 => .ok (.wmul (unArgsA w))
  | 0x18 => .ok (.wmulu (unArgsA w))
  | 0x19 => .ok (.wmac (unArgsA w))
  | 0x1A => .ok (.wmacu (unArgsA w))
  | 0x1B => .ok (.narrow (unArgsA w))
  | 0x1C => .ok (.narrowu (unArgsA w))
  | 0x1D => .ok (.and (unArgsA w))
  | 0x1E => .ok (.or (unArgsA w))
  | 0x1F => .ok (.xor (unArgsA w))
  | 0x20 => .ok (.andn (unArgsA w))
  | 0x21 => .ok (.sll (unArgsA w))
  | 0x22 => .ok (.srl (unArgsA w))
  | 0x23 => .ok (.sra (unArgsA w))
  | 0x24 => .ok (.rotr (unArgsA w))
  | 0x25 => if fld w 0 1 = 0 ∧ fld w 2 6 = 0 then .ok (.popc (unArgsU w)) else .error (.fixedBits "POPC")
  | 0x26 => if fld w 0 1 = 0 ∧ fld w 2 6 = 0 then .ok (.clz (unArgsU w)) else .error (.fixedBits "CLZ")
  | 0x27 => .ok (.cmpeq (unArgsA w))
  | 0x28 => .ok (.cmpne (unArgsA w))
  | 0x29 => .ok (.cmplt (unArgsA w))
  | 0x2A => .ok (.cmpltu (unArgsA w))
  | 0x2B => .ok (.cmple (unArgsA w))
  | 0x2C => .ok (.cmpleu (unArgsA w))
  | 0x2D => .ok (.sel (unArgsA w))
  | 0x2E => if fld w 1 1 = 0 ∧ fld w 8 6 = 0 then .ok (.mov (unArgsM w)) else .error (.fixedBits "MOV")
  | 0x2F => if fld w 0 1 = 0 ∧ fld w 5 3 = 0 then .ok (.sext (unArgsC w)) else .error (.fixedBits "SEXT")
  | 0x30 => if fld w 0 1 = 0 ∧ fld w 5 3 = 0 then .ok (.zext (unArgsC w)) else .error (.fixedBits "ZEXT")
  | 0x31 => .ok (.fadd (unArgsA w))
  | 0x32 => .ok (.fsub (unArgsA w))
  | 0x33 => .ok (.fmul (unArgsA w))
  | 0x34 => .ok (.fma (unArgsA w))
  | 0x35 => .ok (.fms (unArgsA w))
  | 0x36 => .ok (.fnma (unArgsA w))
  | 0x37 => .ok (.fdiv (unArgsA w))
  | 0x38 => if fld w 0 1 = 0 ∧ fld w 2 6 = 0 then .ok (.fsqrt (unArgsU w)) else .error (.fixedBits "FSQRT")
  | 0x39 => if fld w 0 1 = 0 ∧ fld w 2 6 = 0 then .ok (.frsq (unArgsU w)) else .error (.fixedBits "FRSQ")
  | 0x3A => if fld w 0 1 = 0 ∧ fld w 2 6 = 0 then .ok (.fexp2 (unArgsU w)) else .error (.fixedBits "FEXP2")
  | 0x3B => if fld w 0 1 = 0 ∧ fld w 2 6 = 0 then .ok (.flog2 (unArgsU w)) else .error (.fixedBits "FLOG2")
  | 0x3C => .ok (.fmin (unArgsA w))
  | 0x3D => .ok (.fmax (unArgsA w))
  | 0x3E => .ok (.fcmpeq (unArgsA w))
  | 0x3F => .ok (.fcmplt (unArgsA w))
  | 0x40 => .ok (.fcmple (unArgsA w))
  | 0x41 => if fld w 0 1 = 0 ∧ fld w 5 3 = 0 then .ok (.fcvt (unArgsC w)) else .error (.fixedBits "FCVT")
  | 0x42 => if fld w 0 1 = 0 ∧ fld w 5 3 = 0 then .ok (.fcvti (unArgsC w)) else .error (.fixedBits "FCVTI")
  | 0x43 => if fld w 0 1 = 0 ∧ fld w 5 3 = 0 then .ok (.fcvtf (unArgsC w)) else .error (.fixedBits "FCVTF")
  | 0x44 => if fld w 0 1 = 0 ∧ fld w 2 6 = 0 then .ok (.fabs (unArgsU w)) else .error (.fixedBits "FABS")
  | 0x45 => if fld w 0 1 = 0 ∧ fld w 2 6 = 0 then .ok (.fneg (unArgsU w)) else .error (.fixedBits "FNEG")
  | 0x46 => if fld w 0 1 = 0 ∧ fld w 2 6 = 0 then .ok (.fclass (unArgsU w)) else .error (.fixedBits "FCLASS")
  | 0x47 => if fld w 23 2 = 1 then .ok (.rsum (unArgsR w)) else .error (.fixedBits "RSUM")
  | 0x48 => if fld w 23 2 = 1 then .ok (.rmin (unArgsR w)) else .error (.fixedBits "RMIN")
  | 0x49 => if fld w 23 2 = 1 then .ok (.rminu (unArgsR w)) else .error (.fixedBits "RMINU")
  | 0x4A => if fld w 23 2 = 1 then .ok (.rmax (unArgsR w)) else .error (.fixedBits "RMAX")
  | 0x4B => if fld w 23 2 = 1 then .ok (.rmaxu (unArgsR w)) else .error (.fixedBits "RMAXU")
  | 0x4C => if fld w 23 2 = 1 then .ok (.rand (unArgsR w)) else .error (.fixedBits "RAND")
  | 0x4D => if fld w 23 2 = 1 then .ok (.ror (unArgsR w)) else .error (.fixedBits "ROR")
  | 0x4E => if fld w 23 2 = 1 then .ok (.rxor (unArgsR w)) else .error (.fixedBits "RXOR")
  | 0x4F => if fld w 23 2 = 1 then .ok (.frsum (unArgsR w)) else .error (.fixedBits "FRSUM")
  | 0x50 => if fld w 23 2 = 1 then .ok (.frmin (unArgsR w)) else .error (.fixedBits "FRMIN")
  | 0x51 => if fld w 23 2 = 1 then .ok (.frmax (unArgsR w)) else .error (.fixedBits "FRMAX")
  | 0x52 => if fld w 23 2 = 1 then .ok (.scan (unArgsR w)) else .error (.fixedBits "SCAN")
  | 0x53 => if fld w 23 2 = 1 then .ok (.fscan (unArgsR w)) else .error (.fixedBits "FSCAN")
  | 0x54 => if fld w 0 1 = 0 ∧ fld w 2 6 = 0 ∧ fld w 23 2 = 0 then .ok (.compress (unArgsP w)) else .error (.fixedBits "COMPRESS")
  | 0x55 => if fld w 0 1 = 0 ∧ fld w 2 6 = 0 ∧ fld w 23 2 = 0 then .ok (.expand (unArgsP w)) else .error (.fixedBits "EXPAND")
  | 0x56 => if fld w 0 1 = 0 ∧ fld w 23 2 = 1 then .ok (.nzscan (unArgsN w)) else .error (.fixedBits "NZSCAN")
  | 0x57 => if fld w 1 1 = 0 ∧ fld w 8 6 = 0 then .ok (.iota (unArgsM w)) else .error (.fixedBits "IOTA")
  | 0x58 => .ok (.slideup (unArgsA w))
  | 0x59 => .ok (.slidedn (unArgsA w))
  | 0x5A => if fld w 23 2 = 0 then .ok (.perm (unArgsR w)) else .error (.fixedBits "PERM")
  | 0x5C => if fld w 0 1 = 0 ∧ fld w 2 6 = 0 ∧ fld w 20 5 = 24 then .ok (.mcnt (unArgsD w)) else .error (.fixedBits "MCNT")
  | 0x5D => if fld w 0 1 = 0 ∧ fld w 2 6 = 0 ∧ fld w 20 5 = 24 then .ok (.mfirst (unArgsD w)) else .error (.fixedBits "MFIRST")
  | 0x5E => if fld w 0 1 = 0 ∧ fld w 2 6 = 0 ∧ fld w 23 2 = 0 then .ok (.mfrom (unArgsP w)) else .error (.fixedBits "MFROM")
  | 0x5F => if fld w 0 1 = 0 ∧ fld w 2 6 = 0 ∧ fld w 23 2 = 0 then .ok (.mto (unArgsP w)) else .error (.fixedBits "MTO")
  | 0x60 => .ok (.ld (unArgsL w))
  | 0x61 => .ok (.st (unArgsL w))
  | 0x62 => if fld w 0 1 = 0 ∧ fld w 2 6 = 0 ∧ fld w 20 5 = 6 then .ok (.ldq (unArgsD w)) else .error (.fixedBits "LDQ")
  | 0x63 => if fld w 2 6 = 0 ∧ fld w 23 2 = 0 then .ok (.stq (unArgsStq w)) else .error (.fixedBits "STQ")
  | 0x64 => if fld w 23 2 = 1 then .ok (.tld (unArgsR w)) else .error (.fixedBits "TLD")
  | 0x65 => if fld w 23 2 = 1 then .ok (.tst (unArgsR w)) else .error (.fixedBits "TST")
  | 0x66 => if fld w 21 2 = 2 then .ok (.aadd (unArgsG w)) else .error (.fixedBits "AADD")
  | 0x67 => if fld w 21 2 = 2 then .ok (.afadd (unArgsG w)) else .error (.fixedBits "AFADD")
  | 0x68 => if fld w 21 2 = 2 then .ok (.amax (unArgsG w)) else .error (.fixedBits "AMAX")
  | 0x69 => if fld w 21 2 = 2 then .ok (.amin (unArgsG w)) else .error (.fixedBits "AMIN")
  | 0x6A => if fld w 21 2 = 2 then .ok (.aswap (unArgsG w)) else .error (.fixedBits "ASWAP")
  | 0x6B => if fld w 21 2 = 2 then .ok (.acas (unArgsG w)) else .error (.fixedBits "ACAS")
  | 0x6C => if fld w 21 4 = 12 then .ok (.acq (unArgsJ w)) else .error (.fixedBits "ACQ")
  | 0x6D => if fld w 14 6 = 0 ∧ fld w 21 4 = 12 then .ok (.rel (unArgsRel w)) else .error (.fixedBits "REL")
  | 0x6E => if fld w 0 2 = 0 ∧ fld w 8 17 = 102400 then .ok (.fence (fld w 2 6)) else .error (.fixedBits "FENCE")
  | 0x6F => if fld w 14 11 = 1536 then .ok (.qfence (unArgsQ w)) else .error (.fixedBits "QFENCE")
  | 0x70 => if fld w 20 5 = 24 then .ok (.bind (unArgsT w)) else .error (.fixedBits "BIND")
  | 0x71 => if fld w 0 1 = 0 ∧ fld w 2 6 = 0 ∧ fld w 14 11 = 1536 then .ok (.unbind (unArgsS w)) else .error (.fixedBits "UNBIND")
  | 0x72 => if fld w 0 1 = 0 ∧ fld w 2 6 = 0 ∧ fld w 20 5 = 24 then .ok (.gbar (unArgsD w)) else .error (.fixedBits "GBAR")
  | 0x73 => .ok (.br (unArgsB w))
  | 0x74 => if fld w 10 6 = 0 then .ok (.brm (unArgsBrm w)) else .error (.fixedBits "BRM")
  | 0x75 => .ok (.brs (unArgsB w))
  | 0x76 => .ok (.jal (unArgsI w))
  | 0x77 => if fld w 21 4 = 12 then .ok (.jalr (unArgsJ w)) else .error (.fixedBits "JALR")
  | 0x78 => .ok (.li (unArgsI w))
  | 0x79 => .ok (.lis (unArgsI w))
  | 0x7A => if fld w 0 1 = 0 ∧ fld w 2 6 = 0 ∧ fld w 20 5 = 24 then .ok (.setvl (unArgsD w)) else .error (.fixedBits "SETVL")
  | 0x7B => if fld w 0 25 = 0 then .ok .convoy else .error (.fixedBits "CONVOY")
  | 0x5B => if fld w 23 2 ≠ 0 then .error (.fixedBits "MLOG") else decodeMlog (fld w 20 3).toNat w
  | 0x7C => decodeEsc7C (fld w 20 5).toNat w
  | 0x7D => decodeEsc7D (fld w 20 5).toNat w
  | 0x7E => decodeEsc7E (fld w 20 5).toNat w
  | 0x7F => decodeEsc7F (fld w 20 5).toNat w
  | _ => .error .opcodeZero

/-- The instruction a word holds (R34–R37), or the name of why it holds none (R38, checks 1 to 3). -/
def decode (w : IWord) : Except Reject Instr := decodeOp (fld w 25 7).toNat w

/-- The word of an instruction, from the encodings of R18–R37; an event row has none. -/
def encode : Instr → Option IWord
  | .add x => some (raw 0x01 x.f x.w x.d x.a x.b x.p x.q)
  | .sub x => some (raw 0x02 x.f x.w x.d x.a x.b x.p x.q)
  | .adds x => some (raw 0x03 x.f x.w x.d x.a x.b x.p x.q)
  | .addsu x => some (raw 0x04 x.f x.w x.d x.a x.b x.p x.q)
  | .subs x => some (raw 0x05 x.f x.w x.d x.a x.b x.p x.q)
  | .subsu x => some (raw 0x06 x.f x.w x.d x.a x.b x.p x.q)
  | .mul x => some (raw 0x07 x.f x.w x.d x.a x.b x.p x.q)
  | .mulh x => some (raw 0x08 x.f x.w x.d x.a x.b x.p x.q)
  | .mulhu x => some (raw 0x09 x.f x.w x.d x.a x.b x.p x.q)
  | .mac x => some (raw 0x0A x.f x.w x.d x.a x.b x.p x.q)
  | .div x => some (raw 0x0B x.f x.w x.d x.a x.b x.p x.q)
  | .divu x => some (raw 0x0C x.f x.w x.d x.a x.b x.p x.q)
  | .rem x => some (raw 0x0D x.f x.w x.d x.a x.b x.p x.q)
  | .remu x => some (raw 0x0E x.f x.w x.d x.a x.b x.p x.q)
  | .min x => some (raw 0x0F x.f x.w x.d x.a x.b x.p x.q)
  | .minu x => some (raw 0x10 x.f x.w x.d x.a x.b x.p x.q)
  | .max x => some (raw 0x11 x.f x.w x.d x.a x.b x.p x.q)
  | .maxu x => some (raw 0x12 x.f x.w x.d x.a x.b x.p x.q)
  | .abs x => some (raw 0x13 x.f x.w x.d x.a 0#6 x.p false)
  | .neg x => some (raw 0x14 x.f x.w x.d x.a 0#6 x.p false)
  | .wadd x => some (raw 0x15 x.f x.w x.d x.a x.b x.p x.q)
  | .waddu x => some (raw 0x16 x.f x.w x.d x.a x.b x.p x.q)
  | .wmul x => some (raw 0x17 x.f x.w x.d x.a x.b x.p x.q)
  | .wmulu x => some (raw 0x18 x.f x.w x.d x.a x.b x.p x.q)
  | .wmac x => some (raw 0x19 x.f x.w x.d x.a x.b x.p x.q)
  | .wmacu x => some (raw 0x1A x.f x.w x.d x.a x.b x.p x.q)
  | .narrow x => some (raw 0x1B x.f x.w x.d x.a x.b x.p x.q)
  | .narrowu x => some (raw 0x1C x.f x.w x.d x.a x.b x.p x.q)
  | .and x => some (raw 0x1D x.f x.w x.d x.a x.b x.p x.q)
  | .or x => some (raw 0x1E x.f x.w x.d x.a x.b x.p x.q)
  | .xor x => some (raw 0x1F x.f x.w x.d x.a x.b x.p x.q)
  | .andn x => some (raw 0x20 x.f x.w x.d x.a x.b x.p x.q)
  | .sll x => some (raw 0x21 x.f x.w x.d x.a x.b x.p x.q)
  | .srl x => some (raw 0x22 x.f x.w x.d x.a x.b x.p x.q)
  | .sra x => some (raw 0x23 x.f x.w x.d x.a x.b x.p x.q)
  | .rotr x => some (raw 0x24 x.f x.w x.d x.a x.b x.p x.q)
  | .popc x => some (raw 0x25 x.f x.w x.d x.a 0#6 x.p false)
  | .clz x => some (raw 0x26 x.f x.w x.d x.a 0#6 x.p false)
  | .cmpeq x => some (raw 0x27 x.f x.w x.d x.a x.b x.p x.q)
  | .cmpne x => some (raw 0x28 x.f x.w x.d x.a x.b x.p x.q)
  | .cmplt x => some (raw 0x29 x.f x.w x.d x.a x.b x.p x.q)
  | .cmpltu x => some (raw 0x2A x.f x.w x.d x.a x.b x.p x.q)
  | .cmple x => some (raw 0x2B x.f x.w x.d x.a x.b x.p x.q)
  | .cmpleu x => some (raw 0x2C x.f x.w x.d x.a x.b x.p x.q)
  | .sel x => some (raw 0x2D x.f x.w x.d x.a x.b x.p x.q)
  | .mov x => some (raw 0x2E x.f x.w x.d 0#6 x.b false x.q)
  | .sext x => some (raw 0x2F x.f x.w x.d x.a (0#3 ++ x.s) x.p false)
  | .zext x => some (raw 0x30 x.f x.w x.d x.a (0#3 ++ x.s) x.p false)
  | .fadd x => some (raw 0x31 x.f x.w x.d x.a x.b x.p x.q)
  | .fsub x => some (raw 0x32 x.f x.w x.d x.a x.b x.p x.q)
  | .fmul x => some (raw 0x33 x.f x.w x.d x.a x.b x.p x.q)
  | .fma x => some (raw 0x34 x.f x.w x.d x.a x.b x.p x.q)
  | .fms x => some (raw 0x35 x.f x.w x.d x.a x.b x.p x.q)
  | .fnma x => some (raw 0x36 x.f x.w x.d x.a x.b x.p x.q)
  | .fdiv x => some (raw 0x37 x.f x.w x.d x.a x.b x.p x.q)
  | .fsqrt x => some (raw 0x38 x.f x.w x.d x.a 0#6 x.p false)
  | .frsq x => some (raw 0x39 x.f x.w x.d x.a 0#6 x.p false)
  | .fexp2 x => some (raw 0x3A x.f x.w x.d x.a 0#6 x.p false)
  | .flog2 x => some (raw 0x3B x.f x.w x.d x.a 0#6 x.p false)
  | .fmin x => some (raw 0x3C x.f x.w x.d x.a x.b x.p x.q)
  | .fmax x => some (raw 0x3D x.f x.w x.d x.a x.b x.p x.q)
  | .fcmpeq x => some (raw 0x3E x.f x.w x.d x.a x.b x.p x.q)
  | .fcmplt x => some (raw 0x3F x.f x.w x.d x.a x.b x.p x.q)
  | .fcmple x => some (raw 0x40 x.f x.w x.d x.a x.b x.p x.q)
  | .fcvt x => some (raw 0x41 x.f x.w x.d x.a (0#3 ++ x.s) x.p false)
  | .fcvti x => some (raw 0x42 x.f x.w x.d x.a (0#3 ++ x.s) x.p false)
  | .fcvtf x => some (raw 0x43 x.f x.w x.d x.a (0#3 ++ x.s) x.p false)
  | .fabs x => some (raw 0x44 x.f x.w x.d x.a 0#6 x.p false)
  | .fneg x => some (raw 0x45 x.f x.w x.d x.a 0#6 x.p false)
  | .fclass x => some (raw 0x46 x.f x.w x.d x.a 0#6 x.p false)
  | .rsum x => some (raw 0x47 1#2 x.w x.d x.a x.b x.p x.q)
  | .rmin x => some (raw 0x48 1#2 x.w x.d x.a x.b x.p x.q)
  | .rminu x => some (raw 0x49 1#2 x.w x.d x.a x.b x.p x.q)
  | .rmax x => some (raw 0x4A 1#2 x.w x.d x.a x.b x.p x.q)
  | .rmaxu x => some (raw 0x4B 1#2 x.w x.d x.a x.b x.p x.q)
  | .rand x => some (raw 0x4C 1#2 x.w x.d x.a x.b x.p x.q)
  | .ror x => some (raw 0x4D 1#2 x.w x.d x.a x.b x.p x.q)
  | .rxor x => some (raw 0x4E 1#2 x.w x.d x.a x.b x.p x.q)
  | .frsum x => some (raw 0x4F 1#2 x.w x.d x.a x.b x.p x.q)
  | .frmin x => some (raw 0x50 1#2 x.w x.d x.a x.b x.p x.q)
  | .frmax x => some (raw 0x51 1#2 x.w x.d x.a x.b x.p x.q)
  | .scan x => some (raw 0x52 1#2 x.w x.d x.a x.b x.p x.q)
  | .fscan x => some (raw 0x53 1#2 x.w x.d x.a x.b x.p x.q)
  | .compress x => some (raw 0x54 0#2 x.w x.d x.a 0#6 x.p false)
  | .expand x => some (raw 0x55 0#2 x.w x.d x.a 0#6 x.p false)
  | .nzscan x => some (raw 0x56 1#2 x.w x.d x.a x.b x.p false)
  | .iota x => some (raw 0x57 x.f x.w x.d 0#6 x.b false x.q)
  | .slideup x => some (raw 0x58 x.f x.w x.d x.a x.b x.p x.q)
  | .slidedn x => some (raw 0x59 x.f x.w x.d x.a x.b x.p x.q)
  | .perm x => some (raw 0x5A 0#2 x.w x.d x.a x.b x.p x.q)
  | .mlogAnd x => some (raw 0x5B 0#2 0#3 x.d x.a x.b x.p x.q)
  | .mlogOr x => some (raw 0x5B 0#2 1#3 x.d x.a x.b x.p x.q)
  | .mlogXor x => some (raw 0x5B 0#2 2#3 x.d x.a x.b x.p x.q)
  | .mlogAndn x => some (raw 0x5B 0#2 3#3 x.d x.a x.b x.p x.q)
  | .mlogNot x => some (raw 0x5B 0#2 4#3 x.d x.a 0#6 x.p false)
  | .mlogCopy x => some (raw 0x5B 0#2 5#3 x.d x.a 0#6 x.p false)
  | .mlogSet d => some (raw 0x5B 0#2 6#3 d 0#6 0#6 false false)
  | .mlogClr d => some (raw 0x5B 0#2 7#3 d 0#6 0#6 false false)
  | .mcnt x => some (raw 0x5C 3#2 0#3 x.d x.a 0#6 x.p false)
  | .mfirst x => some (raw 0x5D 3#2 0#3 x.d x.a 0#6 x.p false)
  | .mfrom x => some (raw 0x5E 0#2 x.w x.d x.a 0#6 x.p false)
  | .mto x => some (raw 0x5F 0#2 x.w x.d x.a 0#6 x.p false)
  | .ld x => some (raw 0x60 x.m x.w x.d x.a x.b x.p x.q)
  | .st x => some (raw 0x61 x.m x.w x.d x.a x.b x.p x.q)
  | .ldq x => some (raw 0x62 0#2 6#3 x.d x.a 0#6 x.p false)
  | .stq x => some (raw 0x63 0#2 x.w x.d x.a 0#6 x.p x.q)
  | .tld x => some (raw 0x64 1#2 x.w x.d x.a x.b x.p x.q)
  | .tst x => some (raw 0x65 1#2 x.w x.d x.a x.b x.p x.q)
  | .aadd x => some (raw 0x66 x.m (2#2 ++ (BitVec.ofBool x.w)) x.d x.a x.b x.p x.q)
  | .afadd x => some (raw 0x67 x.m (2#2 ++ (BitVec.ofBool x.w)) x.d x.a x.b x.p x.q)
  | .amax x => some (raw 0x68 x.m (2#2 ++ (BitVec.ofBool x.w)) x.d x.a x.b x.p x.q)
  | .amin x => some (raw 0x69 x.m (2#2 ++ (BitVec.ofBool x.w)) x.d x.a x.b x.p x.q)
  | .aswap x => some (raw 0x6A x.m (2#2 ++ (BitVec.ofBool x.w)) x.d x.a x.b x.p x.q)
  | .acas x => some (raw 0x6B x.m (2#2 ++ (BitVec.ofBool x.w)) x.d x.a x.b x.p x.q)
  | .acq x => some (raw 0x6C 3#2 (0#2 ++ (BitVec.ofBool x.w)) x.d x.a x.b x.p x.q)
  | .rel x => some (raw 0x6D 3#2 (0#2 ++ (BitVec.ofBool x.w)) 0#6 x.a x.b x.p x.q)
  | .fence scope => some (raw 0x6E 3#2 1#3 0#6 0#6 scope false false)
  | .qfence x => some (raw 0x6F 3#2 0#3 0#6 x.a x.b x.p x.q)
  | .bind x => some (raw 0x70 3#2 0#3 x.d x.a x.b x.p x.q)
  | .unbind x => some (raw 0x71 3#2 0#3 0#6 x.a 0#6 x.p false)
  | .gbar x => some (raw 0x72 3#2 0#3 x.d x.a 0#6 x.p false)
  | .br x => some (packB 0x73 x.c x.a x.b x.o)
  | .brm x => some (packB 0x74 x.c x.a 0 x.o)
  | .brs x => some (packB 0x75 x.c x.a x.b x.o)
  | .jal x => some (packI 0x76 x.d x.i)
  | .jalr x => some (raw 0x77 3#2 (0#2 ++ (BitVec.ofBool x.w)) x.d x.a x.b x.p x.q)
  | .li x => some (packI 0x78 x.d x.i)
  | .lis x => some (packI 0x79 x.d x.i)
  | .setvl x => some (raw 0x7A 3#2 0#3 x.d x.a 0#6 x.p false)
  | .convoy => some (raw 0x7B 0#2 0#3 0#6 0#6 0#6 false false)
  | .mldb x => some (raw 0x7C 0#2 0#3 (0#4 ++ x.m) x.a x.b x.p x.q)
  | .mldbI8 x => some (raw 0x7C 0#2 0#3 (1#4 ++ x.m) x.a x.b x.p x.q)
  | .mmo x => some (raw 0x7C 0#2 1#3 x.d x.a (0#2 ++ x.k) x.p false)
  | .mmf x => some (raw 0x7C 0#2 2#3 x.d x.a (0#2 ++ x.k) x.p false)
  | .mmi x => some (raw 0x7C 0#2 3#3 x.d x.a (0#2 ++ x.k) x.p false)
  | .mrd x => some (raw 0x7C 0#2 4#3 x.d x.a (x.f ++ x.r) x.p false)
  | .mclr x => some (raw 0x7C 0#2 5#3 0#6 x.a 0#6 x.p false)
  | .mclaim x => some (raw 0x7C 0#2 6#3 x.d x.a 0#6 x.p false)
  | .mfree x => some (raw 0x7C 0#2 7#3 0#6 x.a 0#6 x.p false)
  | .viewld x => some (raw 0x7C 1#2 0#3 x.d x.a 0#6 x.p false)
  | .viewst x => some (raw 0x7C 1#2 1#3 x.d x.a 0#6 x.p false)
  | .viewset x => some (raw 0x7C 1#2 2#3 x.d x.a x.b x.p false)
  | .pgoOpen x => some (raw 0x7D 0#2 0#3 x.d x.a 0#6 x.p false)
  | .pgoTail x => some (raw 0x7D 0#2 0#3 x.d x.a x.b x.p x.q)
  | .pbind x => some (raw 0x7D 0#2 1#3 x.d x.a (x.k ++ x.w) x.p false)
  | .punbind k => some (raw 0x7D 0#2 2#3 0#6 0#6 (k ++ 0#3) false false)
  | .prel x => some (raw 0x7D 0#2 3#3 0#6 x.a x.b x.p x.q)
  | .pwait x => some (raw 0x7D 0#2 4#3 x.d x.a x.b x.p x.q)
  | .pstat x => some (raw 0x7D 0#2 5#3 x.d x.a x.b x.p false)
  | .phalt x => some (raw 0x7D 0#2 6#3 x.d x.a 0#6 x.p false)
  | .xopen x => some (raw 0x7E 0#2 0#3 x.d x.a 0#6 x.p false)
  | .xsort x => some (raw 0x7E 0#2 1#3 x.d x.a x.b x.p x.q)
  | .xsend x => some (raw 0x7E 0#2 2#3 x.d x.a x.b x.p x.q)
  | .xclose x => some (raw 0x7E 0#2 3#3 0#6 x.a 0#6 x.p false)
  | .xrecv x => some (raw 0x7E 0#2 4#3 0#6 x.a x.b x.p x.q)
  | .xsplit x => some (raw 0x7E 0#2 5#3 x.d x.a x.b x.p x.q)
  | .xsamp x => some (raw 0x7E 0#2 6#3 x.d x.a x.b x.p x.q)
  | .xrbal x => some (raw 0x7E 0#2 7#3 x.d x.a x.b x.p x.q)
  | .xwait x => some (raw 0x7E 1#2 0#3 x.d x.a x.b x.p x.q)
  | .xdone x => some (raw 0x7E 1#2 1#3 0#6 x.a 0#6 x.p false)
  | .mfcr x => some (raw 0x7F 0#2 0#3 x.d (x.c.extractLsb' 6 6) (x.c.extractLsb' 0 6) false false)
  | .mtcr x => some (raw 0x7F 0#2 1#3 x.d (x.c.extractLsb' 6 6) (x.c.extractLsb' 0 6) x.p false)
  | .ecall x => some (raw 0x7F 0#2 2#3 0#6 x.a 0#6 x.p false)
  | .tret => some (raw 0x7F 0#2 3#3 0#6 0#6 0#6 false false)
  | .taskq x => some (raw 0x7F 0#2 4#3 x.d x.a 0#6 x.p false)
  | .taskend => some (raw 0x7F 0#2 5#3 0#6 0#6 0#6 false false)
  | .hwmpub x => some (raw 0x7F 0#2 6#3 0#6 x.a 0#6 x.p false)
  | .yield x => some (raw 0x7F 0#2 7#3 0#6 x.a 0#6 x.p false)
  | .waitf x => some (raw 0x7F 1#2 0#3 0#6 x.a x.b false false)
  | .trace x => some (raw 0x7F 1#2 1#3 0#6 x.a x.b x.p false)
  | .bkpt b => some (raw 0x7F 1#2 2#3 0#6 0#6 b false false)
  | .ckill x => some (raw 0x7F 1#2 3#3 x.d x.a 0#6 x.p false)
  | .savectx x => some (raw 0x7F 1#2 4#3 0#6 x.a 0#6 x.p false)
  | .elementGroup _ _ => none
  | .longLatencyProducerDone _ _ => none
  | .aBroadcast _ _ => none
  | .pop _ => none
  | .creditFreed _ => none
  | .slotBindWrite _ _ => none
  | .errClear _ => none
  | .lpart _ => none
  | .maxvl _ => none
  | .ptbase _ => none
  | .registerWrite _ _ => none
  | .windowGrant _ _ => none
  | .windowRevoke _ _ => none
  | .windowScrubEnd _ => none
  | .tableGrant _ _ => none
  | .tableZeroingEnd _ => none
  | .go _ => none
  | .invalidationEnd => none
  | .walk _ _ _ => none
  | .kill _ => none
  | .contextEnd _ => none
  | .pre _ => none
  | .halt _ => none
  | .resume _ => none
  | .stepSlot _ => none
  | .restore _ => none
  | .drop _ => none
  | .preEmption _ => none
  | .timeSliceExpiry _ => none
  | .abandonment _ => none
  | .debugData _ _ => none
  | .portGrant _ => none
  | .copy _ => none
  | .gather _ => none
  | .scatter _ => none
  | .requant _ => none
  | .convert _ => none
  | .waitseq _ => none
  | .signalDecrement _ => none
  | .signalStore _ => none
  | .loopCmd _ => none
  | .jumpCmd _ => none
  | .endCmd _ => none
  | .commandComplete _ => none
  | .arrival _ => none
  | .ticketCall _ => none
  | .ticketTimeout _ => none
  | .budgetPeriod _ _ => none
  | .roundOpen _ => none
  | .egressSend _ _ _ => none
  | .mergeEmit _ _ _ _ => none
  | .ingressDelivery _ _ => none
  | .roundComplete _ => none
  | .laneOpening _ _ _ => none
  | .faultNotice _ _ => none
  | .remoteRequest _ => none
  | .remoteReply _ => none
  | .resend _ => none
  | .filterFree _ => none
  | .linkFailed _ _ => none
  | .htail _ => none
  | .hack _ => none
  | .launch => none
  | .endContext => none
  | .completionRecord => none
  | .completionRingWord _ => none
  | .hbmWindow _ _ => none
  | .attestationNonce _ => none
  | .powerOn _ _ => none
  | .selfTestEnd _ _ => none
  | .failedWrite _ => none
  | .clockStep _ _ => none
  | .thermalReset => none
  | .softError _ _ _ _ => none
  | .flush _ => none
  | .haltStop _ => none
  | .sliceReload _ => none
  | .macroReplay _ _ => none
  | .storePerformed _ _ => none
  | .ticketRequest _ => none
  | .yieldReturn _ => none

/-- The word of an instruction as TVAL receives it (R38). -/
def wordOf (i : Instr) : IWord := (encode i).getD 0

/-- A word as four bytes, least significant first (R15). -/
def wordBytes (w : IWord) : List Byte := [w.extractLsb' 0 8, w.extractLsb' 8 8, w.extractLsb' 16 8, w.extractLsb' 24 8]

/-- The word that four little-endian bytes hold. -/
def bytesWord : List Byte → IWord
  | [b0, b1, b2, b3] => b3 ++ b2 ++ b1 ++ b0
  | _ => 0

/-- Decoding from the bytes at the program counter. -/
def decodeBytes (bs : List Byte) : Except Reject Instr := decode (bytesWord bs)

/-- The instruction read from a word whose bits the opcode table numbers; every instruction is one 32-bit word (R15). -/
def decodeTableWord (_nbits w : Nat) : Option Instr :=
  match decodeBytes (wordBytes (BitVec.ofNat 32 w)) with
  | .ok i => some i
  | .error _ => none

end Sys2Proof
end

