-- ==== Sys2Proof/Machine/Mem.lean ====
section
/-! DEFINITION. Memory: pages and their walks (R299–R310), windows (R192–R194), the checks of R191, readiness of the
functions an access needs (R408), and reading and writing at a location's home (R313). -/

namespace Sys2Proof.Machine

/-- What an access does, as its checks see it (R191, R304). -/
inductive Acc where
  | read | write | atomic | fetch
  deriving DecidableEq, Repr

/-- What checking one access gives: its location (with the page's class), a trap cause with the walk level, a wait, or the
function whose failure the access meets (R408, R416). -/
inductive Chk where
  | go (loc : Loc) (device : Bool)
  | bad (cause wlvl : Nat)
  | wait
  | dead (fn : Nat)
  deriving DecidableEq, Repr

namespace State

/-- Function n's status word (R407). -/
def func (s : State) (n : Nat) : Func := SMap.get {} s.funcs n

/-- Is function n READY? -/
def fnReady (s : State) (n : Nat) : Bool := (s.func n).state == 2

/-- Is function n FAILED? -/
def fnFailed (s : State) (n : Nat) : Bool := (s.func n).state == 3

/-- The status-word number of the HBM stack of physical address p (R299, R407). -/
def stackFn (p : Nat) : Nat := 196 + p / 256 % 12

/-- A use of the functions in the list: the first that is not READY decides (R408). -/
def useFns (s : State) : List Nat → Chk → Chk
  | [], k => k
  | n :: t, k => if s.fnReady n then useFns s t k else if s.fnFailed n then .dead n else .wait

/-! ## Fabric block accessors (R368, R370, R379) -/

/-- n bytes at offset `off` of context c's fabric block. -/
def fabN (s : State) (c : BitVec 6) (off n : Nat) : Nat := bytesAt s.net.fab (c.toNat * 0x400 + off) n

/-- SELF of context c. -/
def self (s : State) (c : BitVec 6) : Nat := bits (s.fabN c 0 8) 32 5

/-- JOB of context c. -/
def job (s : State) (c : BitVec 6) : Nat := s.fabN c 0 4

/-- Device-table entry n of context c. -/
def devEntry (s : State) (c : BitVec 6) (n : Nat) : Nat := s.fabN c (0x80 + 4 * n) 4

/-- Is device-table entry n VALID? -/
def devValid (s : State) (c : BitVec 6) (n : Nat) : Bool := bits (s.devEntry c n) 16 1 == 1

/-! ## Walks (R301–R303) -/

/-- One leaf as an access sees it: the table entry, the level, and the physical address of va. -/
structure Leaf where
  entry : Word
  level : Nat
  pa : Nat
  deriving DecidableEq, Repr

/-- The outcome of a walk: a leaf, absent at a level, or a table read that must wait or meets a failed stack. -/
inductive WalkRes where
  | leaf (l : Leaf)
  | absent (level : Nat)
  | wait
  | dead (fn : Nat)
  deriving DecidableEq, Repr

/-- Bytes mapped by a leaf at level L (R301). -/
def leafSize (L : Nat) : Nat := if L = 1 then 2 ^ 39 else if L = 2 then 2 ^ 27 else 2 ^ 15

/-- A bit that R302 requires zero is 1. -/
def badEntry (e : Word) : Bool :=
  e.extractLsb' 13 2 != 0 || e.extractLsb' 52 12 != 0 ||
  (if e.getLsbD 1 then e.extractLsb' 6 2 != 2 && e.extractLsb' 8 5 != 0
   else e.extractLsb' 2 11 != 0)

/-- PA of an entry as an address. -/
def entryPA (e : Word) : Nat := (e.extractLsb' 15 37).toNat * 2 ^ 15

/-- Does the leaf name local HBM: TGT 00, or TGT 10 with PEER = SELF (R303)? -/
def leafLocal (s : State) (c : BitVec 6) (e : Word) : Bool :=
  e.extractLsb' 6 2 == 0 || (e.extractLsb' 6 2 == 2 && (e.extractLsb' 8 5).toNat == s.self c)

/-- Levels L … 3 of the walk, reading from the table at t; `fuel` counts the levels left. -/
def walkFrom (s : State) (c : BitVec 6) (va : Nat) : Nat → Nat → Nat → WalkRes
  | 0, _, _ => .absent 3
  | fuel + 1, L, t =>
    let a := t + 8 * bits va (51 - 12 * L) 12
    if a + 8 > Config.hbmBytes then .absent L
    else if !s.fnReady (stackFn a) then (if s.fnFailed (stackFn a) then .dead (stackFn a) else .wait)
    else
      let e : Word := BitVec.ofNat 64 (bytesAt s.hbm a 8)
      if !e.getLsbD 0 || badEntry e then .absent L
      else if !e.getLsbD 1 then (if L = 3 then .absent 3 else walkFrom s c va fuel (L + 1) (entryPA e))
      else
        let size := leafSize L
        let base := entryPA e
        if base % size ≠ 0 ∨ e.extractLsb' 6 2 = 3 then .absent L
        else if s.leafLocal c e && decide (base + size > Config.hbmBytes) then .absent L
        else .leaf ⟨e, L, base + va % size⟩

/-- The walk of va for context c (R303). -/
def walkVa (s : State) (c : BitVec 6) (va : Nat) : WalkRes :=
  if va ≥ 2 ^ 51 ∨ !(s.ctx c).ptValid then .absent 0
  else walkFrom s c va 3 1 ((s.ctx c).ptRoot.toNat * 2 ^ 15)

/-- A TLB entry of the unit that covers va (R308). -/
def tlbHit (s : State) (unit : Nat) (c : BitVec 6) (va : Nat) : Option TlbEntry :=
  s.tlb.find? (fun t => t.unit == unit && t.ctx == c && t.vbase == va - va % leafSize t.level)

/-- Must a miss of the unit at va go through a walker (R309)? While `sched.walks` is clear a walk ends within the access that missed, and
one that has ended without a leaf is repeated within the access it served. -/
def mustWalk (s : State) (unit : Nat) (c : BitVec 6) (va : Nat) : Bool :=
  s.sched.walks && decide (unit < 232) && decide (va < 2 ^ 51) && (s.ctx c).ptValid && (s.tlbHit unit c va).isNone &&
  !s.walked.contains ⟨unit, c, va / 2 ^ 15⟩

/-- Translation: a TLB hit gives the same result as the walk that filled it, a miss walks (R308, R309). -/
def translate (s : State) (unit : Nat) (c : BitVec 6) (va : Nat) : WalkRes :=
  match s.tlbHit unit c va with
  | some t => .leaf ⟨t.entry, t.level, entryPA t.entry + va % leafSize t.level⟩
  | none => if s.mustWalk unit c va then .wait else s.walkVa c va

/-- The die whose walker serves the unit's misses: a tile's own, the base die for pumps and exchange engines (R309). -/
def walkerOf (unit : Nat) : Nat := if unit < 192 then unit / 48 else 4

/-- A miss of the unit joins the walk of its page, or takes a slot or a place in the queue of its walker; with the queue full it asks
again (R309). -/
def noteMiss (s : State) (unit : Nat) (c : BitVec 6) (va : Nat) : State :=
  if !s.mustWalk unit c va then s
  else
    let d := walkerOf unit
    let mine : Walk → Bool := fun w => w.die == d && w.ctx == c && w.page == va / 2 ^ 15
    let busy := (s.walks.filter (fun w => w.die == d && w.started)).length
    let queued := (s.walks.filter (fun w => w.die == d && !w.started)).length
    if s.walks.any mine then
      { s with walks := s.walks.map (fun w => if mine w then { w with units := addNew unit w.units } else w) }
    else if busy < 64 then { s with walks := s.walks ++ [⟨d, c, va / 2 ^ 15, [unit], true⟩] }
    else if queued < 1024 then { s with walks := s.walks ++ [⟨d, c, va / 2 ^ 15, [unit], false⟩] }
    else s

/-- The first walks of a die that wait take its free walk slots, in arrival order (R309). -/
def startWalks (die : Nat) : Nat → List Walk → List Walk
  | _, [] => []
  | free, w :: l =>
    if w.die ≠ die ∨ w.started ∨ free = 0 then w :: startWalks die free l
    else { w with started := true } :: startWalks die (free - 1) l

/-- The walks `l` of the five dies, once those that wait have taken the free ones of the 64 slots of each (R309). -/
def refillWalks (l : List Walk) : List Walk :=
  foldRange (fun d l => startWalks d (64 - (l.filter (fun w => w.die == d && w.started)).length) l) 0 5 l

/-- The access that a walk without a leaf has served is over: a later one walks again (R309). -/
def forgetWalks (s : State) (unit : Nat) (c : BitVec 6) : State :=
  { s with walked := s.walked.filter (fun w => !(w.unit == unit && w.ctx == c)) }

/-- Does the leaf permit the access (R304)? -/
def leafPermits (e : Word) : Acc → Bool
  | .read => e.getLsbD 2
  | .write => e.getLsbD 3
  | .atomic => e.getLsbD 2 && e.getLsbD 3
  | .fetch => e.getLsbD 4

/-- The die whose mesh and walker a unit's device-virtual accesses use: a tile's own (R407); pumps and engines lie on the base die. -/
def unitFns (unit : Nat) : List Nat := if unit < 192 then [192 + unit / 48] else []

/-- The checks of R191 and R304 for device-virtual space, and where the location lies (R303, R306, R307), once the die is READY, and for host memory
the port of its region (R379, R408). -/
def checkVirtual (s : State) (unit : Nat) (c : BitVec 6) (va : Nat) (acc : Acc) (sz align : Nat) (idem : Bool) : Chk :=
  s.useFns (unitFns unit) <|
  match s.translate unit c va with
  | .absent L => .bad 0x06 L
  | .wait => .wait
  | .dead f => .dead f
  | .leaf l =>
    let dev := l.entry.getLsbD 5
    if !leafPermits l.entry acc then .bad 0x07 0
    else if idem && dev then .bad 0x08 0
    else if va % align ≠ 0 then .bad 0x05 0
    else if s.leafLocal c l.entry then s.useFns [stackFn l.pa] (.go (.hbm l.pa) dev)
    else if l.entry.extractLsb' 6 2 = 1 then
      let k := l.pa / 2 ^ 48
      let off := l.pa % 2 ^ 48
      let hlen := s.fabN c (0x200 + 32 * k + 8) 8
      if off + sz > hlen then .bad 0x15 0
      else s.useFns [320 + s.fabN c (0x200 + 32 * k + 23) 1 % 4] (.go (.host (s.fabN c (0x200 + 32 * k) 8 + off)) dev)
    else
      let p := (l.entry.extractLsb' 8 5).toNat
      if s.devValid c p then .go (.peer p l.pa) dev else .bad 0x15 0

/-- The window that covers a cistern-global address (R193). -/
def window (s : State) (a : Nat) : Window := SMap.get {} s.windows (a / 0x10000)

/-- Does the window grant the right (R194)? -/
def windowPermits (w : Window) (c : BitVec 6) : Acc → Bool
  | .read => w.valid && w.ctx == c && w.rd
  | .write => w.valid && w.ctx == c && w.wr
  | .atomic => w.valid && w.ctx == c && w.rd && w.wr
  | .fetch => false

/-- The checks of R191 for cistern-global space; an access in a window that is being scrubbed waits (R209), once its checks have passed
(log 116). -/
def checkCistern (s : State) (c : BitVec 6) (a : Nat) (acc : Acc) (align : Nat) : Chk :=
  if a ≥ 192 * 2 ^ 21 then .bad 0x06 0
  else if !windowPermits (s.window a) c acc then .bad 0x07 0
  else if a % align ≠ 0 then .bad 0x05 0
  else if (s.window a).busy then .wait
  else s.useFns [a / 2 ^ 21, 192 + a / 2 ^ 21 / 48] (.go (.cis a) false)

/-- The checks of one access of slot k in the space of MSPACE (R189–R192), over the mesh of its die (R408). -/
def checkSpace (s : State) (k : Nat) (space : BitVec 2) (a : Nat) (acc : Acc) (sz align : Nat) (idem : Bool) : Chk :=
  if space = 0 then s.checkVirtual (tileOf k) (s.ctxOf k) a acc sz align idem
  else s.useFns (unitFns (tileOf k)) <|
    if space = 1 then s.checkCistern (s.ctxOf k) a acc align
    else if a ≥ 2 ^ 21 then .bad 0x06 0
    else s.checkCistern (s.ctxOf k) (tileOf k * 2 ^ 21 + a) acc align

/-- A waiting access of slot k in the space asks for the walk it misses. -/
def noteSpace (s : State) (k : Nat) (space : BitVec 2) (a : Nat) : State :=
  if space = 0 then s.noteMiss (tileOf k) (s.ctxOf k) a else s

/-! ## Reading and writing at the home -/

/-- What the home of the location holds: n bytes, little-endian. A peer's HBM is reached by remote requests only. -/
def homeRead (s : State) (loc : Loc) (n : Nat) : Nat :=
  match loc with
  | .hbm a => bytesAt s.hbm a n
  | .cis a => bytesAt s.cis a n
  | .host a => bytesAt s.host a n
  | .peer _ _ => 0

/-- Performs a write of n bytes at the location's home. -/
def homeWrite (s : State) (loc : Loc) (n v : Nat) : State :=
  match loc with
  | .hbm a => { s with hbm := putBytes s.hbm a n v }
  | .cis a => { s with cis := putBytes s.cis a n v }
  | .host a => { s with host := putBytes s.host a n v }
  | .peer _ _ => s

/-- The byte `off` bytes above a location. -/
def locAdd : Loc → Nat → Loc
  | .hbm a, o => .hbm (a + o)
  | .cis a, o => .cis (a + o)
  | .host a, o => .host (a + o)
  | .peer d a, o => .peer d (a + o)

/-- The byte at `loc` of n bytes with the value v that begin at `base`, if they cover it. -/
def lineByte (base : Loc) (n v : Nat) (loc : Loc) : Option Nat :=
  match base, loc with
  | .hbm x, .hbm y => if x ≤ y ∧ y < x + n then some (v / 256 ^ (y - x) % 256) else none
  | .cis x, .cis y => if x ≤ y ∧ y < x + n then some (v / 256 ^ (y - x) % 256) else none
  | .host x, .host y => if x ≤ y ∧ y < x + n then some (v / 256 ^ (y - x) % 256) else none
  | _, _ => none

/-- The byte of buffered write b that covers `loc`, if it does. -/
def bufByte (b : BufWrite) (loc : Loc) : Option Nat := lineByte b.loc b.n b.v loc

/-- The byte at `loc` in a copy of that holder, if it has one. -/
def heldByte (s : State) (h : Holder) (loc : Loc) : Option Nat :=
  s.copies.findSome? (fun c => if c.holder = h then lineByte c.loc 64 c.line.toNat loc else none)

/-- The copy that may serve a read by slot k (R313): what a load of its dispatch queue has read early (log 108), else device-virtual
memory is held by the tile's read cache, the cistern of another tile by the hart's own buffer. -/
def copyByte (s : State) (k : Nat) (loc : Loc) : Option Nat :=
  match s.heldByte (.early k) loc with
  | some b => some b
  | none =>
    match loc with
    | .cis a => if a / 2 ^ 21 = tileOf k then none else s.heldByte (.hart k) loc
    | _ => s.heldByte (.tile (tileOf k)) loc

/-- Does slot k see the buffered write: its own, or one that its tile's read cache has (R316)? -/
def sees (k : Nat) (b : BufWrite) : Bool := b.slot == k || (b.seen && tileOf b.slot == tileOf k)

/-- A byte as slot k reads it: the latest buffered write that it sees, else a copy, else the home (R313, R314). -/
def readByte (s : State) (k : Nat) (loc : Loc) : Nat :=
  s.wbuf.foldl (fun acc b => if sees k b then (bufByte b loc).getD acc else acc) ((s.copyByte k loc).getD (s.homeRead loc 1))

/-- n bytes as slot k reads them. -/
def readLoc (s : State) (k : Nat) (loc : Loc) : Nat → Nat
  | 0 => 0
  | n + 1 => s.readByte k loc + 256 * readLoc s k (locAdd loc 1) n

/-- n bytes as slot k reads them from a page of the given class: no copy serves a read of device class (R202). -/
def readClass (s : State) (k : Nat) (loc : Loc) (n : Nat) (dev : Bool) : Nat :=
  (if dev then { s with copies := [] } else s).readLoc k loc n

/-- n bytes as the instruction fetch of slot k reads them: from its copy, else the home (R17). -/
def fetchLoc (s : State) (k : Nat) (loc : Loc) : Nat → Nat
  | 0 => 0
  | n + 1 => (s.heldByte (.fetch k) loc).getD (s.homeRead loc 1) + 256 * fetchLoc s k (locAdd loc 1) n

/-- Do n bytes at one location and m at another overlap? -/
def meets (x : Loc) (n : Nat) (y : Loc) (m : Nat) : Bool :=
  match x, y with
  | .hbm a, .hbm b => decide (a < b + m ∧ b < a + n)
  | .cis a, .cis b => decide (a < b + m ∧ b < a + n)
  | .host a, .host b => decide (a < b + m ∧ b < a + n)
  | _, _ => false

/-- Is the copy one that the data reads of slot k's tile are served from? -/
def nearTile (c : Copy) (k : Nat) : Bool :=
  match c.holder with
  | .tile t => t == tileOf k
  | .hart j => tileOf j == tileOf k
  | .early j => j == k
  | .fetch _ => false

/-- Drops the copies of slot k's tile that hold a byte of the n bytes at `loc`: an access of its hart has been performed there
(R314, items 1 and 2). -/
def dropCopies (s : State) (k : Nat) (loc : Loc) (n : Nat) : State :=
  { s with copies := s.copies.filter (fun c => !(nearTile c k && meets c.loc 64 loc n)) }

/-- Drops what the loads of slot k's dispatch queue have read early. -/
def dropEarly (s : State) (k : Nat) : State := { s with copies := s.copies.filter (fun c => c.holder != .early k) }

/-- Refreshes what a FENCE of scope hart refreshes (R316): the fetch and the remote-cistern buffer of slot k. -/
def refreshHart (s : State) (k : Nat) : State :=
  { (s.dropEarly k) with copies := (s.dropEarly k).copies.filter (fun c => c.holder != .hart k && c.holder != .fetch k) }

/-- Refreshes what a FENCE of scope device refreshes (R316): the read cache of slot k's tile as well. -/
def refreshTile (s : State) (k : Nat) : State :=
  { (s.refreshHart k) with copies := (s.refreshHart k).copies.filter (fun c => c.holder != .tile (tileOf k)) }

/-- Discards the remote-cistern buffer of slot k: the elements that an arrival count covers are visible (R228). -/
def refreshWell (s : State) (k : Nat) : State :=
  { (s.dropEarly k) with copies := (s.dropEarly k).copies.filter (fun c => c.holder != .hart k) }

/-- Discards every data copy of slot k, where R315 makes earlier writes visible to it (log 3). -/
def refreshData (s : State) (k : Nat) : State :=
  { (s.refreshWell k) with copies := (s.refreshWell k).copies.filter (fun c => c.holder != .tile (tileOf k)) }

/-- Performs a write of slot k at its home. -/
def performWrite (s : State) (k : Nat) (loc : Loc) (n v : Nat) : State := (s.homeWrite loc n v).dropCopies k loc n

/-- Must b be performed before c, which has left its hart later (R314): they overlap, and the hart of one wrote or sees both? -/
def tied (b c : BufWrite) : Bool := (sees c.slot b || sees b.slot c) && meets b.loc b.n c.loc c.n

/-- Which of the buffered writes are performed when those that `p` accepts are: they, and every earlier one tied to one of them. -/
def takes (p : BufWrite → Bool) : List BufWrite → List (BufWrite × Bool)
  | [] => []
  | b :: l =>
    let r := takes p l
    (b, p b || r.any (fun q => q.2 && tied b q.1)) :: r

/-- Performs every buffered write that `p` accepts, and those tied to them, oldest first. -/
def drainIf (s : State) (p : BufWrite → Bool) : State :=
  let l := takes p s.wbuf
  let t := l.foldl (fun st q => if q.2 then st.performWrite q.1.slot q.1.loc q.1.n q.1.v else st) s
  { t with wbuf := (l.filter (fun q => !q.2)).map (·.1) }

/-- Is it a write that the instruction in progress at slot k has made? -/
def ofInstr (s : State) (k : Nat) (b : BufWrite) : Bool := b.slot == k && b.by_ == (s.slot k).hart.instret

/-- Performs the writes that the instruction in progress at slot k has made: it stops there (R201, R348). -/
def performOwn (s : State) (k : Nat) : State := s.drainIf (s.ofInstr k)

/-- A write of slot k: performed at once, or left to STORE_PERFORMED while `sched.buffered` (log 3). A write to a page of
device class is performed at once, after every lower element of its instruction (R202, R305). -/
def writeLoc (s : State) (k : Nat) (loc : Loc) (n v : Nat) (dev : Bool) : State :=
  let b : BufWrite := ⟨k, loc, n, v, false, (s.slot k).hart.instret⟩
  if s.sched.buffered && !dev then { s with wbuf := s.wbuf ++ [b] }
  else (s.drainIf (fun c => tied c b || (dev && s.ofInstr k c))).performWrite k loc n v

/-- A fence of device scope by slot k: every earlier write of it is performed at its home, and its copies are refreshed (R316). -/
def fenceDevice (s : State) (k : Nat) : State := (s.drainIf (fun b => b.slot == k)).refreshTile k

/-- A fence of tile scope by slot k: its earlier writes are in its tile's read cache (R316). -/
def fenceTile (s : State) (k : Nat) : State :=
  let t : State := { s with wbuf := s.wbuf.map (fun (b : BufWrite) => if b.slot = k then { b with seen := true } else b) }
  t.refreshHart k

/-- Do n bytes at the location lie in the region of a binding (R321)? Addresses of device-virtual regions are matched before
translation, so a region of that space takes everything outside the cisterns. -/
def locInRegion (b : Binding) (loc : Loc) (n : Nat) : Bool :=
  match loc with
  | .cis a => b.space == 1 && decide (b.base.toNat ≤ a + n - 1 ∧ a < b.base.toNat + 2 ^ b.k.toNat)
  | _ => b.space == 0

/-- Does the write lie in the region of a binding (R321)? -/
def inRegion (b : Binding) (w : BufWrite) : Bool := locInRegion b w.loc w.n

end State

/-- The bytes of a buffered write overlap the location. -/
def BufWrite.overlaps (b : BufWrite) (loc : Loc) (n : Nat) : Bool :=
  State.meets b.loc b.n loc n

/-- The canonical form of the three memories: addresses rise strictly, and no listed byte is what an unlisted one reads as. -/
def Memory.wf (s : State) : Bool := SMap.wf 0 s.hbm && SMap.wf 0 s.cis && SMap.wf 0 s.host

end Sys2Proof.Machine
end

