-- ==== Sys2Proof/Machine/Release.lean ====
section
/-! DEFINITION. Releasing a context: what the end of a context and a kill free (R77, R194, R204, R212, R248, R297, R319,
R335), the kill record (R340), and the kill itself (R339). -/

namespace Sys2Proof.Machine

/-- A 64-byte record with the given (offset, bytes, value) fields, little-endian. -/
def record64 (fs : List (Nat × Nat × Nat)) : BitVec 512 :=
  BitVec.ofNat 512 (fs.foldl (fun acc f => acc + (f.2.2 % 256 ^ f.2.1) * 256 ^ f.1) 0)

/-- What a kill record says of the hart that caused the kill (R340). -/
structure KillBy where
  slot : Nat := 0xFFFF
  task : BitVec 32 := 0xFFFFFFFF
  pc : Word := 0
  eidx : Nat := 0
  cause : Nat := 0
  cause1 : BitVec 8 := 0
  cause2 : BitVec 8 := 0
  val : Word := 0
  epc1 : Word := 0
  epc2 : Word := 0

namespace State

/-- The slot stops with its context: FREE, MODE 00, and nothing of its task kept (R55, R77, R339). -/
def freeSlot (v : Slot) : Slot :=
  { v with mode := 0, state := .free, pre := false, halt := false, step := false, busy := false, yielded := false,
           ending := false, reload := none,
           hart := { v.hart with macfg := { v.hart.macfg with mcl := 0, acl := 0 }, handles := [], binds := [],
                                 inflight := [], passed := 0, pwait := none, replay := [],
                                 macroFault := [], replaying := 0, pendCr := none, qtail := none, convoy := false, word := none, mid := false, queue := [], want := none, accs := [],
                                 sFE := BitVec.allOnes 64, zFE := BitVec.allOnes 64,
                                 mFE := BitVec.allOnes 8 } }

/-- Slot k when context c ends or is killed (R77): a slot bound to c, or running a task of it, is freed, and LASTCTX never
names c any more. A slot that is bound to c and runs a task of another context only loses its MODE, and that task runs on (log 95). -/
def releaseSlot (c : BitVec 6) (occ : Bool) (v : Slot) : Slot :=
  let v1 := if (occ && v.taskCtx == c) || (v.mode != 0 && v.ctx == c && !occ) then freeSlot v
            else if v.mode != 0 && v.ctx == c then { v with mode := 0 } else v
  if v1.lastctx = some c then { v1 with lastctx := none } else v1

/-- Applies `f` to every listed entry of a sparse map. -/
def mapAll {α : Type} (f : Nat → α → α) (m : SMap α) : SMap α := m.map (fun p => (p.1, f p.1 p.2))

/-- Everything that the end or the kill of context c releases. -/
def releaseCtx (s : State) (c : BitVec 6) : State :=
  let mine : Nat → Bool := fun k => s.occupied k && s.ctxOf k == c
  { s with
    wbuf := s.wbuf.filter (fun b => !mine b.slot)
    held := s.held.filter (fun h => h.ctx != c)
    running := s.running.filter (fun r => r.ctx != c)
    credits := s.credits.filter (fun r => r.ctx != c)
    marks := s.marks.filter (fun r => r.ctx != c)
    groups := s.groups.filter (fun g => g.1 / 256 != c.toNat)
    bindings := s.bindings.filter (fun b => b.1 / 64 != c.toNat)
    holds := s.holds.filter (fun h => h.ctx != c)
    chans := s.chans.filter (fun x => x.2.ctx != c)
    rounds := s.rounds.filter (fun x => x.2.ctx != c)
    owed := s.owed.filter (fun x => x.1 != c)
    tlb := s.tlb.filter (fun t => t.ctx != c)
    walks := refillWalks (s.walks.filter (fun t => t.ctx != c))
    walked := s.walked.filter (fun t => t.ctx != c)
    windows := mapAll (fun _ w => if w.ctx = c then { w with valid := false } else w) s.windows
    tiles := mapAll (fun _ t => if t.owner = c then { t with tvalid := false } else t) s.tiles
    net := { s.net with reqs := s.net.reqs.filter (fun r => r.ctx != c), seqs := s.net.seqs.filter (fun r => r.ctx != c) }
    slots := mapAll (fun k v => releaseSlot c (s.occupied k) v) s.slots }

/-- The kill record (R340); bytes 4–7 are filled in on the host path (R384). -/
def killRecord (s : State) (c : BitVec 6) (reason : Nat) (by_ : KillBy) : BitVec 512 :=
  record64 [(0, 4, 3), (8, 1, c.toNat), (9, 1, reason), (10, 2, by_.slot), (12, 4, by_.task.toNat), (16, 8, by_.pc.toNat),
    (24, 2, by_.eidx), (26, 1, by_.cause), (27, 1, by_.cause1.toNat), (28, 1, by_.cause2.toNat), (32, 8, by_.val.toNat),
    (40, 8, by_.epc1.toNat), (48, 8, by_.epc2.toNat), (56, 8, (s.ctx c).cseq.toNat)]

/-- Queues a completion record (R384). -/
def post (s : State) (r : BitVec 512) : State := { s with io := { s.io with compl := s.io.compl ++ [r] } }

/-- A kill clears the context's export windows (R374). -/
def dropExports (s : State) (c : BitVec 6) : State :=
  { s with net := { s.net with fab := zeroBytes s.net.fab (c.toNat * 0x400 + 0x100) 0x80 } }

/-- A kill of context c (R339): release, record, then RES, DYING and LASTR. -/
def kill (s : State) (c : BitVec 6) (reason : Nat) (by_ : KillBy) : State :=
  let t := ((s.releaseCtx c).dropExports c).post (s.killRecord c reason by_)
  t.setCtx c { t.ctx c with res := false, dying := false, lastr := BitVec.ofNat 8 reason }

/-- The hart of slot k as a kill record names it. -/
def killBy (s : State) (k : Nat) : KillBy :=
  let h := (s.slot k).hart
  { slot := k, task := h.taskid, pc := h.pc, cause1 := h.bank1.cause, cause2 := h.bank2.cause,
    epc1 := h.bank1.epc, epc2 := h.bank2.epc }

/-- Function n meets a lasting error (R415, R416): LAST + 1, saturating, and LOC. -/
def countLasting (s : State) (n : Nat) (loc : BitVec 32) : State :=
  let f := s.func n
  { s with funcs := SMap.set {} s.funcs n { f with last := if f.last = 255 then 255 else f.last + 1, loc := loc } }

/-- A use of a FAILED function counts as a lasting error of it (R408); which LOC it records is free (log 22). -/
def useFailed (s : State) (n : Nat) : State := (s.countLasting n (Config.errorLoc s.fresh)).tick

/-- A lasting error of function fn that an engine of context c meets (R408, R416): the context is killed, reason 4. -/
def killFor (s : State) (c : BitVec 6) (fn : Nat) : State := (s.useFailed fn).kill c 4 { cause := 0x17 }

/-- A kill by a lasting error that slot k meets (R408, R416): reason 4, cause 0x17. -/
def killLasting (s : State) (k fn : Nat) : State :=
  let t := s.useFailed fn
  t.kill (t.ctxOf k) 4 { t.killBy k with cause := 0x17 }

end State

end Sys2Proof.Machine
end

