-- ==== Sys2Proof/WellFormed.lean ====
section
/-! DEFINITION. Which field values an instruction's class and entry permit: checks 2 to 4 of R38, all cause 0x01. Checks 5
and 6 (privilege, slice overrun) depend on the state or on the access and stand with the meanings. -/

namespace Sys2Proof

/-- A mask field selects m0–m7 (R24). -/
def isMask (x : BitVec 6) : Bool := decide (x.toNat < 8)
/-- wcode of an integer width w2–w64 (R26). -/
def isWidth (w : BitVec 3) : Bool := decide (w.toNat ≤ 5)
/-- wcode of a width w8–w64 (R26). -/
def isFloat (w : BitVec 3) : Bool := decide (2 ≤ w.toNat ∧ w.toNat ≤ 5)
/-- The width in bits that a wcode names (R26). -/
def widthOf (w : BitVec 3) : Nat := 2 ^ (w.toNat + 1)

/-- Classes IB, IM, IC and MV: an immediate reserves eb (R27–R31). -/
def legalIB (f : BitVec 2) (w : BitVec 3) (q : Bool) : Bool :=
  if f = 3 then decide (w.toNat ≤ 3) && (!w.getLsbD 0 || !q) else isWidth w && (f != 2 || !q)
/-- Class IW (R31, R107). -/
def legalIW (f : BitVec 2) (w : BitVec 3) (q : Bool) : Bool :=
  if f = 3 then w == 2 || (w == 3 && !q) else decide (w.toNat ≤ 4) && (f != 2 || !q)
/-- Class IN: forms VS and VI, the immediate count at most 2w − 1 (R107, R113). -/
def legalIN (f : BitVec 2) (w : BitVec 3) (b : BitVec 6) (q : Bool) : Bool :=
  decide (w.toNat ≤ 4) && (f == 1 || (f == 2 && !q && decide (b.toNat < 2 * widthOf w)))
/-- Class IU (R31, R107). -/
def legalIU (f : BitVec 2) (w : BitVec 3) : Bool := (f == 0 && isWidth w) || (f == 3 && (w == 0 || w == 2))
/-- SEXT and ZEXT (R98). -/
def legalExt (f : BitVec 2) (w s : BitVec 3) : Bool :=
  (f == 0 && isWidth w && decide (s.toNat < w.toNat)) || (f == 3 && w == 0 && (s == 2 || s == 3 || s == 4))
/-- Classes FB, FM, FU and FC (R125); class FU has no form VS. -/
def legalFB (f : BitVec 2) (w : BitVec 3) : Bool :=
  if f = 3 then w == 4 || w == 5 else f != 2 && isFloat w
/-- FCVT's pairs (R130). -/
def legalFcvt (f : BitVec 2) (w s : BitVec 3) : Bool :=
  (f == 0 && isFloat w && (s == 6 || (isFloat s && (s != w || s == 2 || s == 3)))) ||
  (f == 3 && ((w == 4 && s == 5) || (w == 5 && s == 4)))
/-- FCVTI's pairs, integer code `w` and float code `s`; FCVTF exchanges the two (R130). -/
def legalFcvti (f : BitVec 2) (w s : BitVec 3) : Bool :=
  (f == 0 && isWidth w && isFloat s) || (f == 3 && (w == 0 || w == 2) && (s == 4 || s == 5))
/-- The status bits that BRS can name (R159). -/
def statusBit (a b : Nat) : Bool :=
  a == 0 || (a == 1 && decide (b < 16)) || (a == 2 && decide (b < 16)) || (a == 3 && b == 0) || (a == 4 && decide (b < 7))
/-- The control-register indexes that R150 assigns. -/
def assignedCr (n : Nat) : Bool :=
  decide (n ≤ 0x00C) || decide (0x010 ≤ n ∧ n ≤ 0x016) || decide (0x020 ≤ n ∧ n ≤ 0x02B) || n == 0x030 ||
  decide (0x100 ≤ n ∧ n ≤ 0x104)
/-- The assigned indexes whose Write column is not a dash (R150, R152). -/
def writableCr (n : Nat) : Bool :=
  assignedCr n && n != 0x004 && !decide (0x010 ≤ n ∧ n ≤ 0x015) && n != 0x020

/-- The field values that the instruction's entry permits; an event row has none to check. -/
def Instr.wellFormed : Instr → Bool
  | .add x => legalIB x.f x.w x.q
  | .sub x => legalIB x.f x.w x.q
  | .adds x => legalIB x.f x.w x.q
  | .addsu x => legalIB x.f x.w x.q
  | .subs x => legalIB x.f x.w x.q
  | .subsu x => legalIB x.f x.w x.q
  | .mul x => legalIB x.f x.w x.q
  | .mulh x => legalIB x.f x.w x.q
  | .mulhu x => legalIB x.f x.w x.q
  | .mac x => legalIB x.f x.w x.q
  | .div x => legalIB x.f x.w x.q
  | .divu x => legalIB x.f x.w x.q
  | .rem x => legalIB x.f x.w x.q
  | .remu x => legalIB x.f x.w x.q
  | .min x => legalIB x.f x.w x.q
  | .minu x => legalIB x.f x.w x.q
  | .max x => legalIB x.f x.w x.q
  | .maxu x => legalIB x.f x.w x.q
  | .abs x => legalIU x.f x.w
  | .neg x => legalIU x.f x.w
  | .wadd x => legalIW x.f x.w x.q
  | .waddu x => legalIW x.f x.w x.q
  | .wmul x => legalIW x.f x.w x.q
  | .wmulu x => legalIW x.f x.w x.q
  | .wmac x => legalIW x.f x.w x.q
  | .wmacu x => legalIW x.f x.w x.q
  | .narrow x => legalIN x.f x.w x.b x.q
  | .narrowu x => legalIN x.f x.w x.b x.q
  | .and x => legalIB x.f x.w x.q
  | .or x => legalIB x.f x.w x.q
  | .xor x => legalIB x.f x.w x.q
  | .andn x => legalIB x.f x.w x.q
  | .sll x => legalIB x.f x.w x.q
  | .srl x => legalIB x.f x.w x.q
  | .sra x => legalIB x.f x.w x.q
  | .rotr x => legalIB x.f x.w x.q
  | .popc x => legalIU x.f x.w
  | .clz x => legalIU x.f x.w
  | .cmpeq x => legalIB x.f x.w x.q && (x.f == 3 || isMask x.d)
  | .cmpne x => legalIB x.f x.w x.q && (x.f == 3 || isMask x.d)
  | .cmplt x => legalIB x.f x.w x.q && (x.f == 3 || isMask x.d)
  | .cmpltu x => legalIB x.f x.w x.q && (x.f == 3 || isMask x.d)
  | .cmple x => legalIB x.f x.w x.q && (x.f == 3 || isMask x.d)
  | .cmpleu x => legalIB x.f x.w x.q && (x.f == 3 || isMask x.d)
  | .sel x => x.f != 3 && legalIB x.f x.w x.q
  | .mov x => legalIB x.f x.w x.q
  | .sext x => legalExt x.f x.w x.s
  | .zext x => legalExt x.f x.w x.s
  | .fadd x => legalFB x.f x.w
  | .fsub x => legalFB x.f x.w
  | .fmul x => legalFB x.f x.w
  | .fma x => legalFB x.f x.w
  | .fms x => legalFB x.f x.w
  | .fnma x => legalFB x.f x.w
  | .fdiv x => legalFB x.f x.w
  | .fsqrt x => x.f != 1 && legalFB x.f x.w
  | .frsq x => x.f != 1 && legalFB x.f x.w
  | .fexp2 x => x.f != 1 && legalFB x.f x.w
  | .flog2 x => x.f != 1 && legalFB x.f x.w
  | .fmin x => legalFB x.f x.w
  | .fmax x => legalFB x.f x.w
  | .fcmpeq x => legalFB x.f x.w && (x.f == 3 || isMask x.d)
  | .fcmplt x => legalFB x.f x.w && (x.f == 3 || isMask x.d)
  | .fcmple x => legalFB x.f x.w && (x.f == 3 || isMask x.d)
  | .fcvt x => legalFcvt x.f x.w x.s
  | .fcvti x => legalFcvti x.f x.w x.s
  | .fcvtf x => legalFcvti x.f x.s x.w
  | .fabs x => x.f != 1 && legalFB x.f x.w
  | .fneg x => x.f != 1 && legalFB x.f x.w
  | .fclass x => x.f != 1 && legalFB x.f x.w
  | .rsum x => isWidth x.w
  | .rmin x => isWidth x.w
  | .rminu x => isWidth x.w
  | .rmax x => isWidth x.w
  | .rmaxu x => isWidth x.w
  | .rand x => isWidth x.w
  | .ror x => isWidth x.w
  | .rxor x => isWidth x.w
  | .frsum x => isFloat x.w
  | .frmin x => isFloat x.w
  | .frmax x => isFloat x.w
  | .scan x => isWidth x.w
  | .fscan x => isFloat x.w
  | .compress x => isWidth x.w
  | .expand x => isWidth x.w
  | .nzscan x => isWidth x.w
  | .iota x => isFloat x.w && (x.f == 1 || (x.f == 2 && !x.q))
  | .slideup x => isWidth x.w && (x.f == 1 || (x.f == 2 && !x.q && decide (x.b.toNat < 32)))
  | .slidedn x => isWidth x.w && (x.f == 1 || (x.f == 2 && !x.q && decide (x.b.toNat < 32)))
  | .perm x => isWidth x.w
  | .mlogAnd x => isMask x.d && isMask x.a && isMask x.b
  | .mlogOr x => isMask x.d && isMask x.a && isMask x.b
  | .mlogXor x => isMask x.d && isMask x.a && isMask x.b
  | .mlogAndn x => isMask x.d && isMask x.a && isMask x.b
  | .mlogNot x => isMask x.d && isMask x.a
  | .mlogCopy x => isMask x.d && isMask x.a
  | .mlogSet d => isMask d
  | .mlogClr d => isMask d
  | .mcnt x => isMask x.a
  | .mfirst x => isMask x.a
  | .mfrom x => isWidth x.w && isMask x.d
  | .mto x => isWidth x.w && isMask x.a
  | .ld x => isFloat x.w && x.m != 3 && (x.m == 1 || !x.q) && (x.m != 0 || x.b == 0)
  | .st x => isFloat x.w && x.m != 3 && (x.m != 0 || x.b == 0)
  | .ldq _ => true
  | .stq x => x.w == 3 || x.w == 4
  | .tld x => decide (2 ≤ x.w.toNat ∧ x.w.toNat ≤ 4)
  | .tst x => decide (2 ≤ x.w.toNat ∧ x.w.toNat ≤ 4)
  | .aadd x => x.m == 1 || x.m == 2
  | .afadd x => x.m == 1 || x.m == 2
  | .amax x => x.m == 1 || x.m == 2
  | .amin x => x.m == 1 || x.m == 2
  | .aswap x => x.m == 1 || x.m == 2
  | .acas x => x.m == 1 || (x.m == 2 && x.d != 63)
  | .acq x => !x.w || !x.q
  | .rel x => !x.w || !x.q
  | .fence scope => decide (scope.toNat < 4)
  | .qfence _ => true
  | .bind _ => true
  | .unbind _ => true
  | .gbar _ => true
  | .br x => decide (x.c.toNat ≤ 5)
  | .brm x => decide (x.c.toNat ≤ 2) && isMask x.a
  | .brs x => decide (x.c.toNat ≤ 1) && statusBit x.a.toNat x.b.toNat
  | .jal _ => true
  | .jalr x => !x.w || !x.q
  | .li _ => true
  | .lis _ => true
  | .setvl _ => true
  | .convoy => true
  | .mldb _ => true
  | .mldbI8 _ => true
  | .mmo x => decide (x.d.toNat ≤ 15)
  | .mmf x => decide (x.d.toNat ≤ 15)
  | .mmi x => decide (x.d.toNat ≤ 15)
  | .mrd _ => true
  | .mclr _ => true
  | .mclaim _ => true
  | .mfree _ => true
  | .viewld x => decide (x.d.toNat < 4)
  | .viewst x => decide (x.d.toNat < 4)
  | .viewset x => decide (x.d.toNat < 4) && (decide (x.b.toNat ≤ 5) || decide (16 ≤ x.b.toNat ∧ x.b.toNat ≤ 31))
  | .pgoOpen _ => true
  | .pgoTail x => x.b != 0
  | .pbind x => isFloat x.w
  | .punbind _ => true
  | .prel _ => true
  | .pwait _ => true
  | .pstat x => decide (x.b.toNat ≤ 6)
  | .phalt _ => true
  | .xopen _ => true
  | .xsort _ => true
  | .xsend _ => true
  | .xclose _ => true
  | .xrecv _ => true
  | .xsplit _ => true
  | .xsamp _ => true
  | .xrbal _ => true
  | .xwait _ => true
  | .xdone _ => true
  | .mfcr x => assignedCr x.c.toNat
  | .mtcr x => writableCr x.c.toNat
  | .ecall _ => true
  | .tret => true
  | .taskq _ => true
  | .taskend => true
  | .hwmpub _ => true
  | .yield _ => true
  | .waitf x => x.b == 0 || x.b == 1 || (x.b == 2 && isMask x.a) || (x.b == 3 && x.a == 0)
  | .trace _ => true
  | .bkpt _ => true
  | .ckill _ => true
  | .savectx _ => true
  | .elementGroup _ _ => true
  | .longLatencyProducerDone _ _ => true
  | .aBroadcast _ _ => true
  | .pop _ => true
  | .creditFreed _ => true
  | .slotBindWrite _ _ => true
  | .errClear _ => true
  | .lpart _ => true
  | .maxvl _ => true
  | .ptbase _ => true
  | .registerWrite _ _ => true
  | .windowGrant _ _ => true
  | .windowRevoke _ _ => true
  | .windowScrubEnd _ => true
  | .tableGrant _ _ => true
  | .tableZeroingEnd _ => true
  | .go _ => true
  | .invalidationEnd => true
  | .walk _ _ _ => true
  | .kill _ => true
  | .contextEnd _ => true
  | .pre _ => true
  | .halt _ => true
  | .resume _ => true
  | .stepSlot _ => true
  | .restore _ => true
  | .drop _ => true
  | .preEmption _ => true
  | .timeSliceExpiry _ => true
  | .abandonment _ => true
  | .debugData _ _ => true
  | .portGrant _ => true
  | .copy _ => true
  | .gather _ => true
  | .scatter _ => true
  | .requant _ => true
  | .convert _ => true
  | .waitseq _ => true
  | .signalDecrement _ => true
  | .signalStore _ => true
  | .loopCmd _ => true
  | .jumpCmd _ => true
  | .endCmd _ => true
  | .commandComplete _ => true
  | .arrival _ => true
  | .ticketCall _ => true
  | .ticketTimeout _ => true
  | .budgetPeriod _ _ => true
  | .roundOpen _ => true
  | .egressSend _ _ _ => true
  | .mergeEmit _ _ _ _ => true
  | .ingressDelivery _ _ => true
  | .roundComplete _ => true
  | .laneOpening _ _ _ => true
  | .faultNotice _ _ => true
  | .remoteRequest _ => true
  | .remoteReply _ => true
  | .resend _ => true
  | .filterFree _ => true
  | .linkFailed _ _ => true
  | .htail _ => true
  | .hack _ => true
  | .launch => true
  | .endContext => true
  | .completionRecord => true
  | .completionRingWord _ => true
  | .hbmWindow _ _ => true
  | .attestationNonce _ => true
  | .powerOn _ _ => true
  | .selfTestEnd _ _ => true
  | .failedWrite _ => true
  | .clockStep _ _ => true
  | .thermalReset => true
  | .softError _ _ _ _ => true
  | .flush _ => true
  | .haltStop _ => true
  | .sliceReload _ => true
  | .macroReplay _ _ => true
  | .storePerformed _ _ => true
  | .ticketRequest _ => true
  | .yieldReturn _ => true

end Sys2Proof
end

