-- ==== Sys2Proof/Machine/Ops.lean ====
section
/-! DEFINITION. Taking a trap and returning from one (R343, R359), and what every instruction of a hart shares: the decode
checks, the reads of scalar registers and their full/empty bits, retiring. -/

namespace Sys2Proof.Machine
open Sys2Proof

/-- The outcome type of this machine. -/
abbrev Out := Host.Outcome State Fault Refusal

/-! ## Traps -/

namespace State

/-- Takes a trap at slot k: cause, element index, value, walk level, the PC saved (R343). At the third level the context is
killed, reason 1, and nothing else happens. -/
def takeTrap (s : State) (k cause i : Nat) (v : Word) (wlvl : Nat) (epc : Word) : State :=
  let h := (s.slot k).hart
  let n := h.tlvl.toNat + 1
  if n ≥ 3 then
    s.kill (s.ctxOf k) 1 { s.killBy k with pc := epc, eidx := i, cause := cause, val := v }
  else
    let b : Bank := { cause := BitVec.ofNat 8 cause, epc := epc, eidx := BitVec.ofNat 11 i, val := v, plvl := h.tlvl,
                      wlvl := BitVec.ofNat 2 wlvl, abnd := h.abnd }
    (s.forgetWalks (tileOf k) (s.ctxOf k)).setHartOf k
      { h.setBank n b with
        tlvl := BitVec.ofNat 2 n, eidx := 0, pc := h.vector n, abnd := false, pwait := none, qtail := none
        word := none, mid := false, queue := [], want := none, accs := [] }

/-- Returns from level n = TLVL ≥ 1 (R359): TLVL ← min(PLVL, n − 1), PC and EIDX from the bank. -/
def returnTrap (s : State) (k : Nat) : State :=
  let h := (s.slot k).hart
  let n := h.tlvl.toNat
  let b := h.bank n
  s.setHartOf k { h with pc := b.epc, eidx := b.eidx, tlvl := BitVec.ofNat 2 (min b.plvl.toNat (n - 1)),
                         instret := h.instret + 1 }

/-- The slot waits inside GBAR or SETVL (R55). -/
def setRunState (s : State) (st : SlotState) : State :=
  let v := s.slot s.cur
  if v.state = .running ∨ v.state = .waiting then s.setSlot s.cur { v with state := st } else s

end State

/-- The outcome of a meaning's result: a trap is taken at the instruction's own PC. -/
def Res.out : Res → Out
  | .ok s => .next s
  | .trap c i v wl s => .next (s.takeTrap s.cur c i v wl s.hart.pc)
  | .wait s => .next s

/-- Does the instruction run: the checks of R38 that the word alone decides (1 to 4), cause 0x01, TVAL the word. The element
index stands as it stood (R38). -/
def issue (i : Instr) (s : State) (body : State → Res) : Out :=
  if i.wellFormed then (body s).out
  else (Res.trap 0x01 s.hart.eidx.toNat ((wordOf i).zeroExtend 64) 0 s).out

/-- A decode trap other than cause 0x01 (R38, checks 5 and 6; R92): TVAL the word, EIDX as it stood. -/
def decodeTrap (cause : Nat) (i : Instr) (s : State) : Res :=
  .trap cause s.hart.eidx.toNat ((wordOf i).zeroExtend 64) 0 s

/-! ## Scalar operands (R29, R145–R147) -/

/-- The reads of scalar registers, each with its policy bit, in order: the first empty one waits (0) or traps (1). -/
def readScalars (rs : List (BitVec 6 × Bool)) (s : State) (k : State → Res) : Res :=
  match rs with
  | [] => k s
  | (r, p) :: t =>
    if s.hart.sFull r then readScalars t s k
    else if p then .trap 0x03 0 (BitVec.ofNat 64 r.toNat) 0 s
    else .wait s

/-- A scalar destination that is empty is waited for before it is written (R146). -/
def destFree (d : BitVec 6) (s : State) (k : State → Res) : Res :=
  if s.hart.sFull d then k s else .wait s

/-- Writes s[d] and retires. -/
def writeRetire (d : BitVec 6) (v : Word) (s : State) : Res := .ok (s.setHart (s.hart.ws d v).retire)

/-- Retires with no other effect. -/
def retireOnly (s : State) : Res := .ok (s.setHart s.hart.retire)

/-- The mask bit of scalar d among the full/empty bits; s0 is never marked (R144). -/
def scalarBit (d : BitVec 6) : BitVec 64 := if d = 0 then 0 else BitVec.twoPow 64 d.toNat

/-- A vector or matrix instruction that uses `u` enters the sequencer (R89, R104, R145). While `sched.late` is clear it completes within
its own step; while it is set its groups are left to ELEMENT_GROUP and its empty marks to LONG_LATENCY_PRODUCER_DONE
(log 2). Only bits that are full are marked. -/
def enter (u : Uses) (scalars slices : BitVec 64) (vl next : Nat) (matrix : Bool) (s : State) : State :=
  let h := s.hart
  if s.sched.late then
    s.setHart { h with sFE := h.sFE &&& ~~~ scalars, zFE := h.zFE &&& ~~~ slices,
                       inflight := h.inflight ++ [⟨h.sFE &&& scalars, h.zFE &&& slices, vl, next, matrix, u⟩] }
  else s

/-- Writes s[d] as a long-latency producer does (R145), and retires; `fl` says that the instruction may write FFLAGS (R156). -/
def writeLate (d : BitVec 6) (v : Word) (s : State) (fl : Bool := false) : Res :=
  .ok (enter { flags := fl } (scalarBit d) 0 0 0 false (s.setHart (s.hart.ws d v).retire))

/-- Waits while an instruction in flight is one that `p` accepts. -/
def drainedOf (p : Inflight → Bool) (s : State) (k : State → Res) : Res :=
  if s.hart.inflight.any p then .wait s else k s

/-- Every earlier instruction of the hart has completed: nothing is in flight. -/
def drained (s : State) (k : State → Res) : Res :=
  if s.hart.inflight.isEmpty then k s else .wait s

/-! ## Memory access results -/

/-- Follows a check of one access in the hart's space that is not an element of a vector: on failure the trap has EIDX `i` and value
`v`, its address. -/
def onChk (c : Chk) (i : Nat) (v : Word) (s : State) (k : Loc → Bool → Res) : Res :=
  match c with
  | .go loc dev => k loc dev
  | .bad cause wl => .trap cause i v wl s
  | .wait => .wait (s.noteSpace s.cur s.hart.mspace v.toNat)
  | .dead f => .ok (s.killLasting s.cur f)

end Sys2Proof.Machine
end

