-- ==== Sys2Proof/Machine/Operands.lean ====
section
/-! DEFINITION. The operand forms of vector instructions: slice operands (R8, R24, R25), stream-bound operands (R231–R233),
the checks made before the first element, and the loop over elements (R12, R13). -/

namespace Sys2Proof.Machine
open Sys2Proof

/-! ## Slice operands -/

/-- First bit of an operand's element within the row: a w2 field is slice × 2 + half, any other a start slice (R8, R24). -/
def bitOff (w fl : Nat) : Nat := if w = 2 then 2 * fl else 4 * fl

/-- The element of width w at field `fl` of a row (R8). -/
def elemOf (r : Row) (w fl : Nat) : Nat := r.toNat / 2 ^ bitOff w fl % 2 ^ w

/-- The row with that element replaced (R12, WRITEV). -/
def putElem (r : Row) (w fl v : Nat) : Row :=
  (r &&& ~~~ (BitVec.ofNat 256 ((2 ^ w - 1) * 2 ^ bitOff w fl))) ||| BitVec.ofNat 256 (v % 2 ^ w * 2 ^ bitOff w fl)

/-- The slices an operand covers; a w2 operand covers its whole slice (R24, R87). -/
def slicesOf (w fl : Nat) : BitVec 64 :=
  if w = 2 then BitVec.twoPow 64 (fl / 2) else BitVec.ofNat 64 ((2 ^ (w / 4) - 1) * 2 ^ fl)

/-- Does the operand overrun slice 63 (R25)? -/
def overruns (w fl : Nat) : Bool := w != 2 && decide (fl + w / 4 > 64)

/-- A slice source: width in bits, field, policy bit. -/
structure Src where
  w : Nat
  fl : Nat
  pol : Bool := false

/-- A slice destination: width in bits, field. -/
structure Dst where
  w : Nat
  fl : Nat

/-- What a vector instruction reads and writes. `reads` lists scalar operands with their policy bits, `mreads` masks;
`noOverlap` is R92's check, `cross` an instruction of R133 or one that reads its streams whole, `always` one that an entry lets act
at VL = 0, `whole` one that is not made of the elements below VL; `sats`, `flags` and `vcount` say that it may write the mask of VSATM,
FFLAGS and VCOUNT, `spreads` and `looks` which of its groups touch others (R88). -/
structure Shape where
  srcs : List Src := []
  dsts : List Dst := []
  reads : List (BitVec 6 × Bool) := []
  mreads : List (Nat × Bool) := []
  mdst : Option Nat := none
  noOverlap : Bool := false
  cross : Bool := false
  guarded : Bool := true
  always : Bool := false
  sats : Bool := false
  flags : Bool := false
  vcount : Bool := false
  spreads : Bool := false
  looks : Bool := false
  whole : Bool := false

/-- The slices of a list of destinations. -/
def dstSlices (ds : List Dst) : BitVec 64 := ds.foldl (fun acc d => acc ||| slicesOf d.w d.fl) 0

/-! ## Stream bindings -/

/-- The width of a binding's operand in bits. -/
def StreamBind.width (b : StreamBind) : Nat := widthOf b.wcode

/-- The binding that the operand reads, if it has exactly the start and width of one (R231). -/
def boundTo (h : Hart) (w fl : Nat) : Option (Nat × StreamBind) :=
  List.find? (fun p => p.2.slice == fl && p.2.width == w && w != 2) h.binds

/-- The lowest binding whose slices the operand overlaps (R87, R231). -/
def overlapsBind (h : Hart) (w fl : Nat) : Option Nat :=
  (List.find? (fun p => (slicesOf p.2.width p.2.slice &&& slicesOf w fl) != 0) h.binds).map (·.1)

/-- The binding that a source names wrongly or a destination touches (R231). -/
def bindConflict (h : Hart) (sh : Shape) : Option Nat :=
  let bad := (sh.srcs.filterMap (fun r => if (boundTo h r.w r.fl).isSome then none else overlapsBind h r.w r.fl)) ++
             sh.dsts.filterMap (fun d => overlapsBind h d.w d.fl)
  bad.head?

/-- Channel c, if it is open. -/
def State.chan (s : State) (c : Nat) : Option Channel := SMap.find? s.chans c

/-- Replaces channel c. -/
def State.setChan (s : State) (c : Nat) (x : Channel) : State := { s with chans := SMap.put s.chans c x }

/-- ARR: whole elements landed (R224), never past TOTAL (R226). -/
def Channel.arr (x : Channel) : Nat :=
  let n := x.landed / 2 ^ x.esz
  if x.total = 0 then n else min n x.total

/-- The code of STATE (R229). -/
def ChanState.code : ChanState → Nat
  | .queued => 0 | .running => 1 | .blocked => 2 | .ended => 3 | .halted => 4 | .faulted => 5

/-- The status word of channel c (R229). -/
def Channel.status (x : Channel) (c : Nat) : Word :=
  BitVec.ofNat 64 (x.state.code + x.aovr.toNat * 2 ^ 3 + x.arep.toNat * 2 ^ 4 + x.clmp.toNat * 2 ^ 5 + x.nv.toNat * 2 ^ 6 +
    x.ovf.toNat * 2 ^ 7 + x.nx.toNat * 2 ^ 8 + x.fcause.toNat * 2 ^ 16 + c * 2 ^ 32 + c / 16 * 2 ^ 41)

/-- Address of element m of a well (R224). -/
def Channel.elemAddr (x : Channel) (m : Nat) : Nat := x.wbase + m * 2 ^ x.esz % x.wsize

/-- Where a vector instruction must stop because of a stream it reads: at element `at_`, with the cause and the value of a
trap, or to wait there. -/
structure Stop where
  at_ : Nat
  trap : Option (Nat × Word)

/-- An instruction that has performed its elements below the stop: the trap, at EIDX where that is higher, or the wait. -/
def Stop.res (p : Stop) (e : Nat) (s : State) : Res :=
  match p.trap with
  | some (c, v) => .trap c (max e p.at_) v 0 s
  | none => .wait s

/-- What a stream read finds (R226, R232, R233): all that it reads has arrived, a stop, or an unreported overrun. -/
inductive StreamState where
  | ready
  | stop (p : Stop)
  | overrun (k : Nat) (arr : Nat)

/-- The state of the read of binding k by an instruction of `vl` elements: all arrived, an unreported overrun, or a stop: at the
final count, at the first group that has not arrived of a FAULTED channel, or a wait at that group. A cross-element instruction
performs nothing when it stops (R232, R233). A read of a channel that has been closed under its binding waits (log 87). -/
def streamState (s : State) (k : Nat) (b : StreamBind) (vl : Nat) (cross : Bool) : StreamState :=
  match s.chan b.chan with
  | none => .stop ⟨0, none⟩
  | some x =>
    let group := if cross then 0 else (x.arr - b.d) / 64 * 64
    if x.aovr && !x.arep then .overrun k x.arr
    else if x.arr ≥ b.d + vl then .ready
    else match x.final with
      | some f => .stop ⟨if cross then 0 else f - b.d, some (0x0F, BitVec.ofNat 64 k)⟩
      | none => .stop ⟨group, if x.state = .faulted then some (0x11, x.status b.chan) else none⟩

/-- The bindings that the sources read, each once. -/
def boundReads (h : Hart) (sh : Shape) : List (Nat × StreamBind) :=
  h.binds.filter (fun p => sh.srcs.any (fun r => p.2.slice == r.fl && p.2.width == r.w && r.w != 2))

/-- Does stop q come before stop p: at a lower element, or a trap where p waits? -/
def Stop.before (q p : Stop) : Bool := decide (q.at_ < p.at_) || (q.at_ == p.at_ && q.trap.isSome && p.trap.isNone)

/-- The state of all stream reads together: an overrun decides, else the lowest stop, a trap before a wait (log 88). -/
def streamsState (s : State) (bs : List (Nat × StreamBind)) (vl : Nat) (cross : Bool) : StreamState :=
  bs.foldl (fun acc p =>
    match acc, streamState s p.1 p.2 vl cross with
    | .overrun k a, _ => .overrun k a
    | _, .overrun k a => .overrun k a
    | .stop p, .stop q => if q.before p then .stop q else .stop p
    | .stop p, .ready => .stop p
    | .ready, t => t) .ready

/-- READV of a source as a function of the element index and the row: the slice file, or the bound well as the hart reads it, its own
earlier stores there included and no copy (R12, R228, R232, R314). -/
def fetch (s : State) (r : Src) : Nat → Row → Nat :=
  match boundTo s.hart r.w r.fl with
  | none => fun _ row => elemOf row r.w r.fl
  | some (_, b) =>
    match s.chan b.chan with
    | none => fun _ row => elemOf row r.w r.fl
    | some x => fun i _ => s.readClass s.cur (.cis (x.elemAddr (b.d + i))) (2 ^ x.esz) true

/-- READV of element i of a source (R12). -/
def readV (s : State) (r : Src) (i : Nat) : Nat := fetch s r i (s.hart.row i)

/-- Does the buffered write touch one of the elements lo … hi − 1 of the channel's well (R224)? -/
def Channel.touched (x : Channel) (lo hi : Nat) (b : BufWrite) : Bool :=
  match b.loc with
  | .cis a =>
    let cap := x.wsize / 2 ^ x.esz
    anyIn (fun o => decide (x.wbase ≤ o) && decide (o - x.wbase < x.wsize) &&
      decide (((o - x.wbase) / 2 ^ x.esz + cap - lo % cap) % cap < hi - lo)) a b.n
  | _ => false

/-- Slot k's earlier stores to the elements lo … hi − 1 of the well are performed before these are released (R228). -/
def State.beforeRelease (s : State) (k : Nat) (x : Channel) (lo hi : Nat) : State :=
  s.drainIf (fun b => b.slot == k && x.touched lo hi b)

/-- At retirement every stream read consumes VL elements: D, C ← B + VL, REL ← C, and END[k] when C = F (R232, R233); the
elements read are visible to the hart's later accesses (R228). -/
def consume (vl : Nat) (bs : List (Nat × StreamBind)) (s : State) : State :=
  if vl = 0 then s else bs.foldl (fun st p =>
    let c := p.2.d + vl
    match st.chan p.2.chan with
    | none => st
    | some x =>
      let h := st.hart
      let st1 := ((st.beforeRelease st.cur x x.rel c).refreshWell st.cur).setChan p.2.chan { x with rel := c }
      st1.setHart { h with binds := SMap.put h.binds p.1 { p.2 with d := c, c := c },
                           strmf := if x.final = some c then setB h.strmf p.1 true else h.strmf }) s

/-! ## Before the first element -/

/-- The lowest empty slice of a set. -/
def lowestEmpty (h : Hart) (m : BitVec 64) : Option Nat :=
  firstIn (fun i => m.getLsbD i && !h.zFE.getLsbD i) 0 64

/-- The slices that the sources accepted by `p` read from the slice file; bound slices' bits are ignored (R231). -/
def srcSlices (h : Hart) (rs : List Src) (p : Src → Bool) : BitVec 64 :=
  rs.foldl (fun m r => if p r && !(boundTo h r.w r.fl).isSome then m ||| slicesOf r.w r.fl else m) 0

/-- The empty-slice checks of the sources (R89): while any slice they cover is empty the instruction waits, or traps with the
lowest empty one when a source with policy 1 covers an empty one (log 89). -/
def readSlices (rs : List Src) (s : State) (k : State → Res) : Res :=
  match lowestEmpty s.hart (srcSlices s.hart rs fun _ => true) with
  | none => k s
  | some n =>
    if (lowestEmpty s.hart (srcSlices s.hart rs Src.pol)).isSome then
      .trap 0x03 s.hart.eidx.toNat (BitVec.ofNat 64 (0x40 + n)) 0 s
    else .wait s

/-- The empty-mask checks (R90). -/
def readMasks (ms : List (Nat × Bool)) (s : State) (k : State → Res) : Res :=
  match ms with
  | [] => k s
  | (n, p) :: t =>
    if s.hart.mFE.getLsbD n then readMasks t s k
    else if p then .trap 0x03 s.hart.eidx.toNat (BitVec.ofNat 64 (0x100 + n)) 0 s
    else .wait s

/-- The guard mask as a mask read (R82). -/
def guardMask (h : Hart) : List (Nat × Bool) :=
  if h.vmsel.getLsbD 3 then [((h.vmsel.extractLsb' 0 3).toNat, false)] else []

/-- A write to a slice or mask that a restore has not reloaded yet waits for it (R355). -/
def reloadBlocks (s : State) (sh : Shape) : Bool :=
  (s.slot s.cur).reload.isSome &&
  ((dstSlices sh.dsts &&& ~~~ s.hart.zFE) != 0 ||
   (match sh.mdst with | some m => !s.hart.mFE.getLsbD m | none => false) || !s.hart.mFE.getLsbD s.hart.vsatm.toNat)

/-- Under CONVOY the first vector or matrix instruction waits until the earlier ones have completed and performed (R74). -/
def convoyBlocks (s : State) : Bool :=
  s.hart.convoy && (!s.hart.inflight.isEmpty || s.wbuf.any (fun b => b.slot == s.cur))

/-- Does an instruction of this shape begin past its last element, where it performs nothing and retires (R359)? -/
def Shape.past (sh : Shape) (h : Hart) : Bool := !sh.whole && decide (0 < h.eidx.toNat) && decide (h.len ≤ h.eidx.toNat)

/-- Everything a vector instruction checks before its first element, in order: slice overrun (R25), overlap (R92), stream
conflict (R231), empty scalars at dispatch (R147), empty slices and masks (R89, R90), VL = 0 (R83; only the empty reads are
checked then), an EIDX at or above VL (R359, log 10), and the streams it reads (R232, R233); of these an unreported overrun traps here, before
the checks that the instruction's own entry names, and every other stop is left to `k` (log 88). `k` gets the state and where a stream stops it. -/
def vecPre (i : Instr) (sh : Shape) (s : State) (k : State → Option Stop → Res) : Res :=
  let h := s.hart
  if sh.srcs.any (fun r => overruns r.w r.fl) || sh.dsts.any (fun d => overruns d.w d.fl) then decodeTrap 0x04 i s
  else if sh.noOverlap && sh.srcs.any (fun r => (slicesOf r.w r.fl &&& dstSlices sh.dsts) != 0) then decodeTrap 0x04 i s
  else match (if h.len = 0 then none else bindConflict h sh) with
  | some b => .trap 0x11 h.eidx.toNat (BitVec.ofNat 64 (0x200 + b)) 0 s
  | none =>
    readScalars sh.reads s fun s => readSlices sh.srcs s fun s =>
    readMasks (sh.mreads ++ (if sh.guarded then guardMask s.hart else [])) s fun s =>
    if reloadBlocks s sh || convoyBlocks s then .wait s
    else
      let s := if s.hart.convoy then s.setHart { s.hart with convoy := false } else s
      if s.hart.len = 0 && !sh.always then retireOnly s
      else if sh.past s.hart then .ok (consume s.hart.len (boundReads s.hart sh) (s.setHart s.hart.retire))
      else match (if s.hart.len = 0 then StreamState.ready
          else streamsState s (boundReads s.hart sh) s.hart.len sh.cross) with
        | .ready => k s none
        | .stop p => k s (some p)
        | .overrun b arr =>
          let s1 := match SMap.find? s.hart.binds b with
            | some p => (match s.chan p.chan with
              | some x => s.setChan p.chan { x with arep := true }
              | none => s)
            | none => s
          .trap 0x14 (if sh.cross then 0 else s.hart.eidx.toNat) (BitVec.ofNat 64 arr) 0
            (s1.setHart { s1.hart with strmf := setB s1.hart.strmf (8 + b) true })

/-! ## The loop over elements -/

/-- What one element comes to: its row, its destination mask bit, saturation, flags. -/
structure Elem where
  row : Row
  bit : Bool := false
  sat : Bool := false
  fl : Flags := 0

/-- What the elements so far have come to. -/
structure Done where
  z : SMap Row
  bits : Mask
  sat : Mask := 0
  fl : Flags := 0
  wrote : Bool := false

/-- Elements i, …, i + n − 1 in order; a failing one stops the loop with its cause and value (R12, R13). -/
def runElems (act : Nat → Bool) (f : Nat → Row → Except (Nat × Word) Elem) :
    Nat → Nat → Done → Done × Option (Nat × Nat × Word)
  | _, 0, a => (a, none)
  | i, n + 1, a =>
    if act i then
      match f i (SMap.get 0 a.z i) with
      | .error (c, v) => (a, some (i, c, v))
      | .ok e =>
        runElems act f (i + 1) n
          { z := SMap.set 0 a.z i e.row, bits := setB a.bits i e.bit, sat := if e.sat then setB a.sat i true else a.sat,
            fl := a.fl ||| e.fl, wrote := true }
    else runElems act f (i + 1) n a

/-- The tags of written slices: DIRTY, and VLG at least ⌈VL / 64⌉ (R79). -/
def Hart.touch (h : Hart) (slices : BitVec 64) (vl : Nat) : Hart :=
  { h with dirty := h.dirty ||| slices,
           vlg := SMap.mapRange 0 (fun i (v : BitVec 5) =>
             if slices.getLsbD i ∧ v.toNat < ceilDiv vl 64 then BitVec.ofNat 5 (ceilDiv vl 64) else v) 0 64 h.vlg }

/-- The hart with the results of the elements performed. -/
def Hart.settle (h : Hart) (sh : Shape) (a : Done) : Hart :=
  let h1 := { h with z := a.z }
  let h2 := match sh.mdst with | some m => h1.wm m a.bits | none => h1
  let h3 := if a.wrote ∧ dstSlices sh.dsts ≠ 0 then h2.touch (dstSlices sh.dsts) h.len else h2
  (h3.orSat a.sat).orFlags a.fl

/-- The destination mask as it stands. -/
def oldBits (sh : Shape) (h : Hart) : Mask := match sh.mdst with | some m => h.rm m | none => 0

/-- What an instruction of this shape uses (R87, R88): its own operands, the guard, and the mask of VSATM where it may saturate. -/
def Shape.uses (sh : Shape) (h : Hart) : Uses :=
  let bit := fun (m : BitVec 8) (n : Nat) => m ||| BitVec.twoPow 8 n
  let d := match sh.mdst with | some m => bit 0 m | none => 0
  { srcs := srcSlices h sh.srcs fun _ => true, dsts := dstSlices sh.dsts
    mreads := (sh.mreads ++ (if sh.guarded then guardMask h else [])).foldl (fun m p => bit m p.1) 0
    mwrites := if sh.sats then bit d h.vsatm.toNat else d
    spreads := sh.spreads, looks := sh.looks, flags := sh.flags, vcount := sh.vcount, stream := !(boundReads h sh).isEmpty }

/-- The first element that a step from EIDX does not come to: the end of the group of EIDX while `sched.grouped`, else VL. -/
def groupEnd (s : State) : Nat :=
  if s.sched.grouped then min s.hart.len ((s.hart.eidx.toNat / 64 + 1) * 64) else s.hart.len

/-- The instruction stands at element i and is tried again from there. -/
def standAt (i : Nat) (s : State) : Res := .wait (s.setHart { s.hart with eidx := BitVec.ofNat 11 i, mid := false })

/-- An element-wise instruction: the checks, the elements from EIDX, the trap of the lowest failing element, or retirement
(R13, R91, R232). A stream stalls it at a group boundary with the lower groups performed; while `sched.grouped` it performs one
group a step (R10, R347). A group that reads a stream makes the elements below ARR visible (R228). `late` marks a long-latency
producer (R397). -/
def elementwise (i : Instr) (sh : Shape) (late : Bool) (act : Hart → Nat → Bool)
    (f : State → Nat → Row → Except (Nat × Word) Elem) (s : State) : Res :=
  vecPre i sh s fun s stop =>
    let h := s.hart
    let vl := h.len
    let e := h.eidx.toNat
    let lim := match stop with | some p => min p.at_ (groupEnd s) | none => groupEnd s
    let (a, bad) := runElems (act h) (f s) e (lim - e) { z := h.z, bits := oldBits sh h }
    let s0 := s.setHart (h.settle sh a)
    let s1 := if (boundReads h sh).isEmpty ∨ lim ≤ e then s0 else s0.refreshWell s0.cur
    match bad, stop with
    | some (j, c, v), _ => .trap c j v 0 s1
    | none, some p => if max e lim < p.at_ then standAt lim s1 else if p.trap.isSome then p.res e s1 else standAt (max e lim) s1
    | none, none =>
      if e < lim ∧ lim < vl then standAt lim s1
      else
        let s2 := consume vl (boundReads h sh) (s1.setHart s1.hart.retire)
        .ok (enter (sh.uses h) 0 (if late then dstSlices sh.dsts else 0) vl e false s2)

/-- A cross-element instruction (R133): the checks, then `f` gives the new hart (results only) and its empty marks; it
starts at element 0 always. -/
def crossElement (i : Instr) (sh : Shape) (lateScalar : BitVec 64) (f : State → Hart) (s : State) : Res :=
  vecPre i { sh with cross := true } s fun s stop =>
    match stop with
    | some p => p.res 0 s
    | none =>
      let h := s.hart
      let s2 := consume h.len (boundReads h sh) (s.setHart (f s).retire)
      .ok (enter ({ sh with cross := true }.uses h) lateScalar 0 h.len 0 false s2)

end Sys2Proof.Machine
end

