-- ==== Sys2Proof/Machine/Sequencer.lean ====
section
/-! DEFINITION. The element-group sequencers (R104) and the end of long-latency producers (R89, R145). -/

namespace Sys2Proof.Machine
open Sys2Proof

/-- The slots that a tile's sequencer serves: all eight, or those of one core while SPLIT is 1 (R104). -/
def sequencerSlots (s : State) (tile : Nat) (core : Bool) : List Nat :=
  if (s.tile tile).split then (List.range 4).map (fun j => 8 * tile + 4 * core.toNat + j)
  else (List.range 8).map (fun j => 8 * tile + j)

/-- Has the instruction a group left to start? -/
def Inflight.starts (f : Inflight) : Bool := decide (f.next < f.vl)

/-- Does an A broadcast end it: a multiplication, which writes no slice (R256)? -/
def Inflight.broadcast (f : Inflight) : Bool := f.matrix && f.uses.dsts == 0

/-- rem of R104: VL less the elements below the instruction's next canonical group. -/
def Inflight.rem (f : Inflight) : Nat := f.vl - f.next / 64 * 64

/-- Has the instruction started group g, or has it no such group? -/
def Inflight.reached (f : Inflight) (g : Nat) : Bool := decide (min f.vl (64 * (g + 1)) ≤ f.next)

/-- Do two instructions of a hart have operands that overlap so that one of them writes (R88)? -/
def Uses.conflict (i j : Uses) : Bool :=
  (i.dsts &&& j.srcs) != 0 || (i.srcs &&& j.dsts) != 0 || (i.dsts &&& j.dsts) != 0 ||
  (i.mwrites &&& j.mreads) != 0 || (i.mreads &&& j.mwrites) != 0 || (i.mwrites &&& j.mwrites) != 0

/-- May the next group of instruction j begin beside the earlier instruction i of its hart (R88, R89, R395)? It waits for i's same group,
or for all of i's groups where i spreads or j looks over groups, for the end of a long-latency producer whose marked slices it reads, and for
the broadcast of a multiplication whose A it writes (R256). -/
def Inflight.lets (i j : Inflight) : Bool :=
  !Uses.conflict i.uses j.uses ||
  ((i.slices &&& j.uses.srcs) == 0 && !(i.broadcast && (i.uses.srcs &&& j.uses.dsts) != 0) &&
   (if i.uses.spreads || j.uses.looks then !i.starts else i.reached (j.next / 64)))

/-- The place of the oldest instruction with a group that may begin, of the list that follows `pre`. -/
def currentFrom (pre : List Inflight) : List Inflight → Option (Nat × Inflight)
  | [] => none
  | f :: t => if f.starts && pre.all (fun i => i.lets f) then some (pre.length, f) else currentFrom (pre ++ [f]) t

/-- The hart's current instruction (R104): its oldest one whose next group may begin. -/
def Hart.current (h : Hart) : Option Inflight := (currentFrom [] h.inflight).map (·.2)

/-- The candidate that R104 chooses: the aged one with the lowest slot, else the one with the least rem, ties to the lower
slot. -/
def chooseHart (s : State) (ks : List Nat) : Option (Nat × Inflight) :=
  let cs := ks.filterMap (fun k => ((s.slot k).hart.current).map (fun f => (k, f)))
  match cs.find? (fun c => decide (256 ≤ (s.slot c.1).hart.passed)) with
  | some c => some c
  | none => cs.foldl (fun acc c => match acc with
      | none => some c
      | some b => if c.2.rem < b.2.rem then some c else some b) none

/-- Starts the next group of the hart's current instruction; one that marks nothing has completed with its last group. -/
def startGroup (h : Hart) : Hart :=
  match currentFrom [] h.inflight with
  | none => h
  | some (n, f) =>
    let g := { f with next := min f.vl ((f.next / 64 + 1) * 64) }
    let l := if !g.starts && g.scalars == 0 && g.slices == 0 && !g.broadcast then h.inflight.eraseIdx n else h.inflight.set n g
    { h with inflight := l, passed := 0 }

/-- ELEMENT_GROUP (R104). -/
def execElementGroup (tile : Nat) (core : Bool) (s : State) : Out :=
  let ks := sequencerSlots s tile core
  match chooseHart s ks with
  | none => .next s
  | some (k, _) =>
    .next (ks.foldl (fun st j =>
      let h := (st.slot j).hart
      if j = k then st.setHartOf j (startGroup h)
      else if h.current.isSome then st.setHartOf j { h with passed := h.passed + 1 }
      else st.setHartOf j { h with passed := 0 }) s)

/-- The instructions of a hart that can complete: all their groups have started, no broadcast ends them, and a matrix instruction
comes after the earlier ones of its hart (R326). -/
def completable (l : List Inflight) : List (Inflight × Nat) :=
  l.zipIdx.filter (fun p => !p.1.starts && !p.1.broadcast && (!p.1.matrix || (l.take p.2).all (fun f => !f.matrix)))

/-- LONG_LATENCY_PRODUCER_DONE (R89, R145): the k-th of the hart's instructions that can complete sets the bits that it marked
empty full again. -/
def execLongLatencyProducerDone (slot k : Nat) (s : State) : Out :=
  let h := (s.slot slot).hart
  match (completable h.inflight)[k]? with
  | none => .next s
  | some (f, i) =>
    .next (s.setHartOf slot { h with sFE := h.sFE ||| f.scalars, zFE := h.zFE ||| f.slices, inflight := h.inflight.eraseIdx i })

end Sys2Proof.Machine
end

