-- ==== Sys2Proof/Machine/Float.lean ====
section
/-! DEFINITION. Float formats, values and rounding (R116–R121), and the arithmetic of R126–R132 on patterns. A finite value is
a sign, a natural significand and a power of two, so every sum and product is exact before its one rounding. -/

namespace Sys2Proof.Machine

/-- A float format (R116): width, exponent bits, fraction bits, bias; `top` says that the exponent range has a top, false
for E4M3 (R117). -/
structure Fmt where
  w : Nat
  e : Nat
  f : Nat
  bias : Nat
  top : Bool
  deriving DecidableEq, Repr

/-- FP64. -/
def fp64 : Fmt := ⟨64, 11, 52, 1023, true⟩
/-- FP32. -/
def fp32 : Fmt := ⟨32, 8, 23, 127, true⟩
/-- FP16. -/
def fp16 : Fmt := ⟨16, 5, 10, 15, true⟩
/-- BF16. -/
def bf16 : Fmt := ⟨16, 8, 7, 127, true⟩
/-- E5M2. -/
def e5m2 : Fmt := ⟨8, 5, 2, 15, true⟩
/-- E4M3. -/
def e4m3 : Fmt := ⟨8, 4, 3, 7, false⟩

/-- The controls that rounding reads: rounding mode (R119) and FTZ (R120). -/
structure RCtl where
  rm : BitVec 2 := 0
  ftz : Bool := false

/-- Round to nearest even, subnormals kept (R220, R330). -/
def rneCtl : RCtl := {}

/-- What a pattern denotes (R116): a NaN (signalling?), an infinity, or ± m × 2^e. -/
inductive FV where
  | nan (sig : Bool)
  | inf (neg : Bool)
  | fin (neg : Bool) (m : Nat) (e : Int)

/-- The canonical quiet NaN (R116, R121). -/
def Fmt.nan (t : Fmt) : Nat :=
  if t.top then (2 ^ t.e - 1) * 2 ^ t.f + 2 ^ (t.f - 1) else 2 ^ (t.w - 1) - 1

/-- The sign bit of a pattern. -/
def Fmt.sign (t : Fmt) (p : Nat) : Bool := p.testBit (t.w - 1)

/-- The exponent field. -/
def Fmt.expo (t : Fmt) (p : Nat) : Nat := p / 2 ^ t.f % 2 ^ t.e

/-- The fraction field. -/
def Fmt.frac (t : Fmt) (p : Nat) : Nat := p % 2 ^ t.f

/-- The pattern of a sign on a magnitude. -/
def Fmt.signed (t : Fmt) (neg : Bool) (mag : Nat) : Nat := mag + neg.toNat * 2 ^ (t.w - 1)

/-- FV(p) without the flush of R120. -/
def Fmt.raw (t : Fmt) (p : Nat) : FV :=
  let n := t.sign p
  let x := t.expo p
  let m := t.frac p
  if x = 2 ^ t.e - 1 ∧ t.top then (if m = 0 then .inf n else .nan (!m.testBit (t.f - 1)))
  else if x = 2 ^ t.e - 1 ∧ m = 2 ^ t.f - 1 ∧ !t.top then .nan false
  else if x = 0 then .fin n m (1 - (t.bias : Int) - t.f)
  else .fin n (2 ^ t.f + m) ((x : Int) - t.bias - t.f)

/-- FV(p) (R124): with FTZ a subnormal reads as a zero of its sign (R120). -/
def Fmt.val (t : Fmt) (c : RCtl) (p : Nat) : FV :=
  if c.ftz && t.expo p == 0 then .fin (t.sign p) 0 0 else t.raw p

/-- m × 2^e rounded to a multiple of 2^q: the multiple's count, and whether it is inexact. `sticky` says that the exact
magnitude lies strictly between m and m + 1 (R119). -/
def roundAt (rm : BitVec 2) (neg : Bool) (m : Nat) (e : Int) (sticky : Bool) (q : Int) : Nat × Bool :=
  if q ≤ e then (m * 2 ^ (e - q).toNat, sticky)
  else
    let k := 2 ^ (q - e).toNat
    let r := m / k
    let t := m % k
    let inexact := t ≠ 0 ∨ sticky = true
    let up := if rm = 0 then 2 * t > k ∨ (2 * t = k ∧ (sticky = true ∨ r % 2 = 1))
      else if rm = 1 then False else if rm = 2 then neg = true ∧ inexact else neg = false ∧ inexact
    (if up then r + 1 else r, decide inexact)

/-- The largest finite magnitude (R116). -/
def Fmt.maxMag (t : Fmt) : Nat :=
  if t.top then (2 ^ t.e - 1) * 2 ^ t.f - 1 else 2 ^ (t.w - 1) - 2

/-- The magnitude and flags of an overflow: the infinity or the largest finite value that IEEE 754-2019 prescribes (R119),
or ±448 for E4M3 (R117). -/
def overflow (t : Fmt) (rm : BitVec 2) (neg : Bool) : Nat × Flags :=
  let toInf := rm = 0 ∨ (rm = 2 ∧ neg = true) ∨ (rm = 3 ∧ neg = false)
  (if t.top ∧ toInf then (2 ^ t.e - 1) * 2 ^ t.f else t.maxMag, fOF ||| fNX)

/-- RND of an exact non-zero magnitude, or of an exact zero of the sign given (R12, R119, R120). -/
def rnd (t : Fmt) (c : RCtl) (neg : Bool) (m : Nat) (e : Int) (sticky : Bool) : Nat × Flags :=
  if m = 0 ∧ !sticky then (t.signed neg 0, 0)
  else
    let E : Int := (m.log2 : Int) + e
    let emin : Int := 1 - (t.bias : Int)
    let free := roundAt c.rm neg m e sticky (E - t.f)
    let tiny := E < emin - 1 ∨ (E = emin - 1 ∧ free.1 < 2 ^ (t.f + 1))
    if tiny ∧ c.ftz then (t.signed neg 0, fUF ||| fNX)
    else
      let q : Int := max (E - t.f) (emin - t.f)
      let r := roundAt c.rm neg m e sticky q
      let mag := if q = emin - t.f then r.1 else ((q - (emin - t.f)).toNat + 1) * 2 ^ t.f + (r.1 - 2 ^ t.f)
      if mag > t.maxMag then
        let o := overflow t c.rm neg
        (t.signed neg o.1, o.2)
      else (t.signed neg mag, (if r.2 then fNX else 0) ||| (if tiny ∧ r.2 then fUF else 0))

/-- An infinite result: the infinity, or for E4M3 the canonical NaN with NV (R117). -/
def infResult (t : Fmt) (neg : Bool) : Nat × Flags :=
  if t.top then (t.signed neg ((2 ^ t.e - 1) * 2 ^ t.f), 0) else (t.nan, fNV)

/-- The canonical NaN with NV. -/
def invalid (t : Fmt) : Nat × Flags := (t.nan, fNV)

/-- NV when the source is a signalling NaN (R121). -/
def FV.sigFlag : FV → Flags
  | .nan true => fNV
  | _ => 0

/-- Is it a NaN? -/
def FV.isNan : FV → Bool
  | .nan _ => true
  | _ => false

/-- A finite value as an integer over a common power of two. -/
def scaled (neg : Bool) (m : Nat) (e lo : Int) : Int :=
  let v : Int := (m * 2 ^ (e - lo).toNat : Nat)
  if neg then -v else v

/-- RND of the exact sum of two finite values; an exact zero keeps the sign that both terms share, else it is + except
toward −∞ (R126). -/
def addFin (t : Fmt) (c : RCtl) (n1 : Bool) (m1 : Nat) (e1 : Int) (n2 : Bool) (m2 : Nat) (e2 : Int) : Nat × Flags :=
  let lo := min e1 e2
  let v := scaled n1 m1 e1 lo + scaled n2 m2 e2 lo
  if v = 0 then
    rnd t c (if m1 = 0 ∧ m2 = 0 ∧ n1 = n2 then n1 else c.rm == 2) 0 0 false
  else rnd t c (decide (v < 0)) v.natAbs lo false

/-- x + y on values (R126). -/
def addV (t : Fmt) (c : RCtl) (x y : FV) : Nat × Flags :=
  match x, y with
  | .nan _, _ | _, .nan _ => (t.nan, x.sigFlag ||| y.sigFlag)
  | .inf a, .inf b => if a = b then infResult t a else invalid t
  | .inf a, _ => infResult t a
  | _, .inf b => infResult t b
  | .fin n1 m1 e1, .fin n2 m2 e2 => addFin t c n1 m1 e1 n2 m2 e2

/-- The value with its sign inverted. -/
def FV.neg : FV → FV
  | .nan b => .nan b
  | .inf n => .inf (!n)
  | .fin n m e => .fin (!n) m e

/-- x × y, exact; none for 0 × ∞. -/
def mulExact : FV → FV → Option FV
  | .nan b, _ => some (.nan b)
  | _, .nan b => some (.nan b)
  | .inf a, .inf b => some (.inf (a != b))
  | .inf a, .fin b m _ => if m = 0 then none else some (.inf (a != b))
  | .fin b m _, .inf a => if m = 0 then none else some (.inf (a != b))
  | .fin a m e, .fin b n k => some (.fin (a != b) (m * n) (e + k))

/-- RND of one value. -/
def rndV (t : Fmt) (c : RCtl) : FV → Nat × Flags
  | .nan b => (t.nan, if b then fNV else 0)
  | .inf n => infResult t n
  | .fin n m e => rnd t c n m e false

/-- x × y (R126). -/
def mulV (t : Fmt) (c : RCtl) (x y : FV) : Nat × Flags :=
  if x.isNan || y.isNan then (t.nan, x.sigFlag ||| y.sigFlag)
  else match mulExact x y with
    | none => invalid t
    | some v => rndV t c v

/-- x × y + d, rounded once; NV for 0 × ∞ even when d is a quiet NaN (R126). -/
def fmaV (t : Fmt) (c : RCtl) (x y d : FV) : Nat × Flags :=
  let sg := x.sigFlag ||| y.sigFlag ||| d.sigFlag
  if x.isNan || y.isNan then (t.nan, sg)
  else match mulExact x y with
    | none => invalid t
    | some p => if d.isNan then (t.nan, sg) else addV t c p d

/-- x / y (R126). -/
def divV (t : Fmt) (c : RCtl) (x y : FV) : Nat × Flags :=
  match x, y with
  | .nan _, _ | _, .nan _ => (t.nan, x.sigFlag ||| y.sigFlag)
  | .inf _, .inf _ => invalid t
  | .inf a, .fin b _ _ => infResult t (a != b)
  | .fin a _ _, .inf b => (t.signed (a != b) 0, 0)
  | .fin a m e, .fin b n k =>
    if n = 0 then
      if m = 0 then invalid t
      else let r := infResult t (a != b); (r.1, r.2 ||| fDZ)
    else
      let s := t.f + 4 + n.log2
      rnd t c (a != b) (m * 2 ^ s / n) (e - k - s) (decide (m * 2 ^ s % n ≠ 0))

/-- Bits k − 1 … 0 of the integer square root of n, above the part r found so far. -/
def isqrtAux (n : Nat) : Nat → Nat → Nat
  | 0, r => r
  | k + 1, r => isqrtAux n k (if (r + 2 ^ k) * (r + 2 ^ k) ≤ n then r + 2 ^ k else r)

/-- The integer square root. -/
def isqrt (n : Nat) : Nat := isqrtAux n (n.log2 / 2 + 1) 0

/-- √x (R127). -/
def sqrtV (t : Fmt) (c : RCtl) : FV → Nat × Flags
  | .nan b => (t.nan, if b then fNV else 0)
  | .inf n => if n then invalid t else infResult t false
  | .fin n m e =>
    if m = 0 then (t.signed n 0, 0)
    else if n then invalid t
    else
      let s := 2 * (t.f + 4) + (e % 2).toNat
      let a := m * 2 ^ s
      let r := isqrt a
      rnd t c false r ((e - s) / 2) (decide (r * r ≠ a))

/-- 1/√x (R127). -/
def rsqrtV (t : Fmt) (c : RCtl) : FV → Nat × Flags
  | .nan b => (t.nan, if b then fNV else 0)
  | .inf n => if n then invalid t else (t.signed false 0, 0)
  | .fin n m e =>
    if m = 0 then let r := infResult t n; (r.1, r.2 ||| fDZ)
    else if n then invalid t
    else
      let m' := if e % 2 = 0 then m else 2 * m
      let e' := if e % 2 = 0 then e else e - 1
      let s := t.f + 4 + m'.log2
      let r := isqrt (2 ^ (2 * s) / m')
      rnd t c false r (-(s : Int) - e' / 2) (decide (r * r * m' ≠ 2 ^ (2 * s)))

/-- The number of fraction bits that FEXP2 and FLOG2 work with (log 11). -/
def workBits : Nat := 640

/-- Σ uᵏ / k from term k on, u = x / 2^workBits and p = u^(k − step + …), each term rounded down: the series of artanh. -/
def artanhSum (x2 : Nat) : Nat → Nat → Nat → Nat
  | 0, _, _ => 0
  | n + 1, p, k => p / k + artanhSum x2 n (p * x2 / 2 ^ workBits) (k + 2)

/-- 2 × artanh(a / b) × 2^workBits, rounded down termwise. -/
def artanh2 (a b : Nat) : Nat :=
  let u := a * 2 ^ workBits / b
  2 * artanhSum (u * u / 2 ^ workBits) 210 u 1

/-- ln 2 × 2^workBits. -/
def ln2 : Nat := artanh2 1 3

/-- Σ zᵏ / k! from term k on, rounded down termwise. -/
def expSum (z : Nat) : Nat → Nat → Nat → Nat
  | 0, _, _ => 0
  | n + 1, p, k => p + expSum z n (p * z / 2 ^ workBits / k) (k + 1)

/-- 2^x (R127): exact for an integer x; otherwise irrational, from 640 bits of the exponential series (log 11). An exact
result that the format cannot hold raises what RND raises, NX among it (log 107). -/
def exp2V (t : Fmt) (c : RCtl) : FV → Nat × Flags
  | .nan b => (t.nan, if b then fNV else 0)
  | .inf n => if n then (t.signed false 0, 0) else infResult t false
  | .fin n m e =>
    if m = 0 then rnd t c false 1 0 false
    else if (m.log2 : Int) + e ≥ 13 then rnd t c false 1 (if n then -8192 else 8192) true
    else
      let x := scaled n m e (min e 0)
      let d := (-(min e 0)).toNat
      if x % (2 ^ d : Nat) = 0 then rnd t c false 1 (x / (2 ^ d : Nat)) false
      else
        let X := x * 2 ^ workBits / (2 ^ d : Nat)
        let k := X / (2 ^ workBits : Nat)
        let fr := (X % (2 ^ workBits : Nat)).toNat
        rnd t c false (expSum (fr * ln2 / 2 ^ workBits) 160 (2 ^ workBits) 1) (k - workBits) true

/-- log2 x (R127): exact for a power of two; otherwise irrational, from 640 bits of the artanh series (log 11). An exact
result that the format cannot hold raises what RND raises, NX among it (log 107). -/
def log2V (t : Fmt) (c : RCtl) : FV → Nat × Flags
  | .nan b => (t.nan, if b then fNV else 0)
  | .inf n => if n then invalid t else infResult t false
  | .fin n m e =>
    if m = 0 then let r := infResult t true; (r.1, r.2 ||| fDZ)
    else if n then invalid t
    else
      let L := m.log2
      let E : Int := (L : Int) + e
      if m = 2 ^ L then rnd t c (decide (E < 0)) E.natAbs 0 false
      else
        let y := artanh2 (m - 2 ^ L) (m + 2 ^ L) * 2 ^ workBits / ln2
        let r : Int := E * (2 ^ workBits : Nat) + y
        rnd t c (decide (r < 0)) r.natAbs (-(workBits : Int)) true

/-- Order of two values that are not NaNs: is x < y, with −0 below +0 when `signed0` (R126, R129)? -/
def ltV (signed0 : Bool) : FV → FV → Bool
  | .nan _, _ | _, .nan _ => false
  | .inf a, .inf b => a && !b
  | .inf a, .fin _ _ _ => a
  | .fin _ _ _, .inf b => !b
  | .fin a m e, .fin b n k =>
    let lo := min e k
    let x := scaled a m e lo
    let y := scaled b n k lo
    decide (x < y) || (signed0 && x == 0 && y == 0 && a && !b)

/-- Equality of two values that are not NaNs, −0 equal to +0 (R129). -/
def eqV (x y : FV) : Bool := !x.isNan && !y.isNan && !ltV false x y && !ltV false y x

/-- The value a minimum or maximum returns, as RND leaves it: unchanged but for the flush of R120. -/
def pickV (t : Fmt) (c : RCtl) : FV → Nat × Flags := rndV t c

/-- FMIN (`hi` false) and FMAX (`hi` true): a NaN if either source is one; −0 below +0 (R126). -/
def minMaxV (t : Fmt) (c : RCtl) (hi : Bool) (x y : FV) : Nat × Flags :=
  if x.isNan || y.isNan then (t.nan, x.sigFlag ||| y.sigFlag)
  else pickV t c (if ltV true x y != hi then x else y)

/-- The class code of a pattern as stored (R128). -/
def classCode (t : Fmt) (p : Nat) : Nat :=
  match t.raw p with
  | .nan s => if s then 8 else 9
  | .inf n => if n then 0 else 7
  | .fin n m _ =>
    if m = 0 then (if n then 3 else 4)
    else if t.expo p = 0 then (if n then 2 else 5) else (if n then 1 else 6)

/-- A pattern with its sign bit cleared (`inv` false) or inverted; a NaN gives the canonical NaN (R127). -/
def signOp (t : Fmt) (inv : Bool) (p : Nat) : Nat × Flags :=
  match t.raw p with
  | .nan s => (t.nan, if s then fNV else 0)
  | _ => (t.signed (inv && !t.sign p) (p % 2 ^ (t.w - 1)), 0)

/-- Rounds a finite value to an integer under a mode: the integer, and whether it is inexact (R132). -/
def toIntV (rm : BitVec 2) (n : Bool) (m : Nat) (e : Int) : Int × Bool :=
  let r := roundAt rm n m e false 0
  (if n then -(r.1 : Int) else r.1, r.2)

/-- FCVTI to a signed integer of width w: the integer, the flags, and whether it clamped or met a NaN (R132). -/
def cvtInt (c : RCtl) (w : Nat) : FV → Int × Flags × Bool
  | .nan _ => (0, fNV, true)
  | .inf n => (if n then -2 ^ (w - 1) else 2 ^ (w - 1) - 1, fNV, true)
  | .fin n m e =>
    let r := toIntV c.rm n m e
    let cl := sats r.1 w
    if cl.2 then (cl.1, fNV, true) else (r.1, if r.2 then fNX else 0, false)

/-- An integer rounded into a format (R132). -/
def ofInt (t : Fmt) (c : RCtl) (v : Int) : Nat × Flags := rnd t c (decide (v < 0)) v.natAbs 0 false

end Sys2Proof.Machine
end

