-- ==== Sys2Proof/Machine/Integer.lean ====
section
/-! DEFINITION. Lanes I: the integer instructions (R103–R115). One shared frame per operand class; one value function and one
meaning per instruction. -/

namespace Sys2Proof.Machine
open Sys2Proof

/-- What an integer operation gives: the value before wrapping to the destination width, saturation, flags. -/
structure IVal where
  v : Int
  sat : Bool := false
  fl : Flags := 0

/-- The b operand as a slice source: form VV only (R106). -/
def bSrc (f : BitVec 2) (w : Nat) (b : BitVec 6) (q : Bool) : List Src := if f = 0 then [⟨w, b.toNat, q⟩] else []

/-- The b operand as a scalar read: form VS only (R28, R106). -/
def bReg (f : BitVec 2) (b : BitVec 6) (q : Bool) : List (BitVec 6 × Bool) := if f = 1 then [(b, q)] else []

/-- The immediate of a VI or SS form, reduced to w bits: ZX for the shifts, SX otherwise (R28, R106). -/
def immVal (zimm : Bool) (w : Nat) (b : BitVec 6) : Nat := if zimm then b.toNat % 2 ^ w else wrap (imm6 b) w

/-- B for element i (R106): a slice, the captured scalar, or the immediate. -/
def bVal (s : State) (f : BitVec 2) (zimm : Bool) (w : Nat) (b : BitVec 6) : Nat → Row → Nat :=
  if f = 0 then fetch s ⟨w, b.toNat, false⟩
  else if f = 1 then fun _ _ => (s.hart.rs b).toNat % 2 ^ w
  else fun _ _ => immVal zimm w b

/-- The width of an integer SS form: 64 for wcodes 000 and 001, 32 for 010 and 011 (R27). -/
def ssWidth (w : BitVec 3) : Nat := if w.getLsbD 1 then 32 else 64

/-- A scalar result of width w: whole, or sign-extended from 32 bits (R106). -/
def ssResult (w : Nat) (v : Int) : Word := if w = 32 then word (sx (wrap v 32) 32) else word v

/-- An operation on A, B and the old destination D at width w; an error is a trap with its cause and value. -/
abbrev IOp := (w : Nat) → (a b d : Nat) → Except (Nat × Word) IVal

/-- The integer instructions whose vector forms may saturate (R107, R113). -/
def saturates : Instr → Bool
  | .adds _ | .addsu _ | .subs _ | .subsu _ | .narrow _ | .narrowu _ => true
  | _ => false

/-- The vector forms of a class with sources of width w and a destination of width wd (R108, R112). -/
def intVector (i : Instr) (x : ArgsA) (w wd : Nat) (rd zimm late : Bool) (op : State → IOp) (s : State) : Res :=
  elementwise i
    { srcs := ⟨w, x.a.toNat, x.p⟩ :: bSrc x.f w x.b x.q ++ (if rd then [⟨wd, x.d.toNat, false⟩] else [])
      dsts := [⟨wd, x.d.toNat⟩]
      reads := bReg x.f x.b x.q, sats := saturates i, flags := late } late Hart.active
    (fun s i row =>
      match op s w (fetch s ⟨w, x.a.toNat, false⟩ i row) (bVal s x.f zimm w x.b i row)
        (fetch s ⟨wd, x.d.toNat, false⟩ i row) with
      | .error e => .error e
      | .ok r => .ok { row := putElem row wd x.d.toNat (wrap r.v wd), sat := r.sat, fl := r.fl }) s

/-- The SS form (R106, R108): sources at width w, the result written as `fin` says; saturation sets FFLAGS.SAT. -/
def intScalar (x : ArgsA) (w : Nat) (rd zimm late : Bool) (fin : Int → Word) (op : State → IOp) (s : State) : Res :=
  readScalars ((x.a, x.p) :: (if x.w.getLsbD 0 then [] else [(x.b, x.q)]) ++ (if rd then [(x.d, false)] else [])) s fun s =>
  destFree x.d s fun s =>
  let h := s.hart
  let b := if x.w.getLsbD 0 then immVal zimm w x.b else (h.rs x.b).toNat % 2 ^ w
  match op s w ((h.rs x.a).toNat % 2 ^ w) b (h.rs x.d).toNat with
  | .error (c, v) => .trap c 0 v 0 s
  | .ok r =>
    let h1 := ((h.ws x.d (fin r.v)).orFlags (r.fl ||| (if r.sat then fSAT else 0))).retire
    .ok (if late then enter { flags := true } (scalarBit x.d) 0 0 0 false (s.setHart h1) else s.setHart h1)

/-- Classes IB and IM (R108): one width throughout. -/
def intBinary (i : Instr) (x : ArgsA) (rd zimm late : Bool) (op : State → IOp) (s : State) : Out :=
  issue i s fun s =>
    if x.f = 3 then intScalar x (ssWidth x.w) rd zimm late (ssResult (ssWidth x.w)) op s
    else intVector i x (widthOf x.w) (widthOf x.w) rd zimm late op s

/-- Class IW (R112): destination width 2w; the SS form reads 32 bits and writes 64. -/
def intWide (i : Instr) (x : ArgsA) (rd : Bool) (op : State → IOp) (s : State) : Out :=
  issue i s fun s =>
    if x.f = 3 then intScalar x 32 rd false false word op s
    else intVector i x (widthOf x.w) (2 * widthOf x.w) rd false false op s

/-- An operation that cannot trap. -/
def pureOp (f : (w : Nat) → (a b d : Nat) → IVal) : State → IOp := fun _ w a b d => .ok (f w a b d)

/-- A saturated value and its flag. -/
def satVal (r : Int × Bool) : IVal := { v := r.1, sat := r.2 }

/-- The quotient and remainder of R109: divisor zero traps with cause 0x09 while FCTL.IDZE is set, else raises DZ; the one
overflowing quotient wraps to itself. -/
def divide (signed quot : Bool) (s : State) (w a b _d : Nat) : Except (Nat × Word) IVal :=
  let n := if signed then sx a w else zx a w
  let m := if signed then sx b w else zx b w
  if m = 0 then
    if s.hart.fctl.getLsbD 5 then .error (0x09, BitVec.ofNat 64 (a % 2 ^ w))
    else .ok { v := if quot then 2 ^ w - 1 else n, fl := fDZ }
  else .ok { v := if quot then n.tdiv m else n.tmod m }

/-- The shift count (R108). -/
def shiftCount (w b : Nat) : Nat := b % w

/-- ROTR (R108). -/
def rotr (w a b : Nat) : Nat := (a / 2 ^ shiftCount w b + a * 2 ^ (w - shiftCount w b)) % 2 ^ w

/-- The number of 1 bits among the low w bits. -/
def popCount (a : Nat) : Nat → Nat
  | 0 => 0
  | n + 1 => (a.testBit n).toNat + popCount a n

/-- CLZ: w − (index of the highest 1 bit + 1); w when none (R111). -/
def leadZeros (w a : Nat) : Nat := if a % 2 ^ w = 0 then w else w - 1 - (a % 2 ^ w).log2

/-- Class IU (R111). -/
def intUnary (i : Instr) (x : ArgsU) (f : Nat → Nat → Int) (s : State) : Out :=
  issue i s fun s =>
    if x.f = 3 then
      readScalars [(x.a, x.p)] s fun s => destFree x.d s fun s =>
      let w := ssWidth x.w
      writeRetire x.d (ssResult w (f w ((s.hart.rs x.a).toNat % 2 ^ w))) s
    else
      let w := widthOf x.w
      elementwise i { srcs := [⟨w, x.a.toNat, x.p⟩], dsts := [⟨w, x.d.toNat⟩] } false Hart.active
        (fun s i row => .ok { row := putElem row w x.d.toNat (wrap (f w (fetch s ⟨w, x.a.toNat, false⟩ i row)) w) }) s

/-- NARROW and NARROWU's rounding shift: to nearest, ties to even (R113). -/
def roundShift (n : Int) (c : Nat) : Int :=
  let q := n / (2 ^ c : Nat)
  let t := n - q * (2 ^ c : Nat)
  if c > 0 ∧ (2 * t > (2 ^ c : Nat) ∨ (2 * t = (2 ^ c : Nat) ∧ q % 2 ≠ 0)) then q + 1 else q

/-- Class IN (R113): a source of width 2w, a count from b, a destination of width w. -/
def intNarrow (i : Instr) (x : ArgsA) (signed : Bool) (s : State) : Out :=
  issue i s fun s =>
    let w := widthOf x.w
    elementwise i { srcs := [⟨2 * w, x.a.toNat, x.p⟩], dsts := [⟨w, x.d.toNat⟩], reads := bReg x.f x.b x.q, sats := true } false
      Hart.active
      (fun s i row =>
        let c := if x.f = 1 then min (s.hart.rs x.b).toNat (2 * w - 1) else x.b.toNat
        let a := fetch s ⟨2 * w, x.a.toNat, false⟩ i row
        let q := roundShift (if signed then sx a (2 * w) else zx a (2 * w)) c
        let r := if signed then sats q w else satu q w
        .ok { row := putElem row w x.d.toNat (wrap r.1 w), sat := r.2 }) s

/-- Class IC (R114): mask bits in the vector forms, 0 or 1 in the SS form. -/
def intCompare (i : Instr) (x : ArgsA) (p : Nat → Nat → Nat → Bool) (s : State) : Out :=
  issue i s fun s =>
    if x.f = 3 then
      readScalars ((x.a, x.p) :: (if x.w.getLsbD 0 then [] else [(x.b, x.q)])) s fun s => destFree x.d s fun s =>
      let w := ssWidth x.w
      let b := if x.w.getLsbD 0 then immVal false w x.b else (s.hart.rs x.b).toNat % 2 ^ w
      writeRetire x.d (if p w ((s.hart.rs x.a).toNat % 2 ^ w) b then 1 else 0) s
    else
      let w := widthOf x.w
      elementwise i { srcs := ⟨w, x.a.toNat, x.p⟩ :: bSrc x.f w x.b x.q, reads := bReg x.f x.b x.q, mdst := some x.d.toNat }
        false Hart.active
        (fun s i row => .ok { row := row, bit := p w (fetch s ⟨w, x.a.toNat, false⟩ i row) (bVal s x.f false w x.b i row) }) s

/-- ADD (R108): x + y, modulo 2^w. -/
def execAdd (x : ArgsA) (s : State) : Out :=
  intBinary (.add x) x false false false (pureOp fun w a b _d => { v := sx a w + sx b w }) s

/-- SUB (R108): x − y, modulo 2^w. -/
def execSub (x : ArgsA) (s : State) : Out :=
  intBinary (.sub x) x false false false (pureOp fun w a b _d => { v := sx a w - sx b w }) s

/-- ADDS (R108): signed saturating sum. -/
def execAdds (x : ArgsA) (s : State) : Out :=
  intBinary (.adds x) x false false false (pureOp fun w a b _d => satVal (sats (sx a w + sx b w) w)) s

/-- ADDSU (R108): unsigned saturating sum. -/
def execAddsu (x : ArgsA) (s : State) : Out :=
  intBinary (.addsu x) x false false false (pureOp fun w a b _d => satVal (satu (zx a w + zx b w) w)) s

/-- SUBS (R108): signed saturating difference. -/
def execSubs (x : ArgsA) (s : State) : Out :=
  intBinary (.subs x) x false false false (pureOp fun w a b _d => satVal (sats (sx a w - sx b w) w)) s

/-- SUBSU (R108): unsigned saturating difference. -/
def execSubsu (x : ArgsA) (s : State) : Out :=
  intBinary (.subsu x) x false false false (pureOp fun w a b _d => satVal (satu (zx a w - zx b w) w)) s

/-- MUL (R108): the low half of x × y. -/
def execMul (x : ArgsA) (s : State) : Out :=
  intBinary (.mul x) x false false false (pureOp fun w a b _d => { v := sx a w * sx b w }) s

/-- MULH (R108): the high half of the signed product. -/
def execMulh (x : ArgsA) (s : State) : Out :=
  intBinary (.mulh x) x false false false (pureOp fun w a b _d => { v := sx a w * sx b w / (2 ^ w : Nat) }) s

/-- MULHU (R108): the high half of the unsigned product. -/
def execMulhu (x : ArgsA) (s : State) : Out :=
  intBinary (.mulhu x) x false false false (pureOp fun w a b _d => { v := zx a w * zx b w / (2 ^ w : Nat) }) s

/-- MAC (R108): D + x × y, modulo 2^w; D is read with policy 0. -/
def execMac (x : ArgsA) (s : State) : Out :=
  intBinary (.mac x) x true false false (pureOp fun w a b d => { v := sx d w + sx a w * sx b w }) s

/-- DIV (R109): signed quotient, a long-latency producer. -/
def execDiv (x : ArgsA) (s : State) : Out :=
  intBinary (.div x) x false false true (divide true true) s

/-- DIVU (R109): unsigned quotient, a long-latency producer. -/
def execDivu (x : ArgsA) (s : State) : Out :=
  intBinary (.divu x) x false false true (divide false true) s

/-- REM (R109): signed remainder, a long-latency producer. -/
def execRem (x : ArgsA) (s : State) : Out :=
  intBinary (.rem x) x false false true (divide true false) s

/-- REMU (R109): unsigned remainder, a long-latency producer. -/
def execRemu (x : ArgsA) (s : State) : Out :=
  intBinary (.remu x) x false false true (divide false false) s

/-- MIN (R108): signed minimum. -/
def execMin (x : ArgsA) (s : State) : Out :=
  intBinary (.min x) x false false false (pureOp fun w a b _d => { v := min (sx a w) (sx b w) }) s

/-- MINU (R108): unsigned minimum. -/
def execMinu (x : ArgsA) (s : State) : Out :=
  intBinary (.minu x) x false false false (pureOp fun w a b _d => { v := min (zx a w) (zx b w) }) s

/-- MAX (R108): signed maximum. -/
def execMax (x : ArgsA) (s : State) : Out :=
  intBinary (.max x) x false false false (pureOp fun w a b _d => { v := max (sx a w) (sx b w) }) s

/-- MAXU (R108): unsigned maximum. -/
def execMaxu (x : ArgsA) (s : State) : Out :=
  intBinary (.maxu x) x false false false (pureOp fun w a b _d => { v := max (zx a w) (zx b w) }) s

/-- AND (R108): A and B, bit by bit. -/
def execAnd (x : ArgsA) (s : State) : Out :=
  intBinary (.and x) x false false false (pureOp fun _w a b _d => { v := (a &&& b : Nat) }) s

/-- OR (R108): A or B, bit by bit. -/
def execOr (x : ArgsA) (s : State) : Out :=
  intBinary (.or x) x false false false (pureOp fun _w a b _d => { v := (a ||| b : Nat) }) s

/-- XOR (R108): A ⊕ B. -/
def execXor (x : ArgsA) (s : State) : Out :=
  intBinary (.xor x) x false false false (pureOp fun _w a b _d => { v := (a ^^^ b : Nat) }) s

/-- ANDN (R108): A and not B. -/
def execAndn (x : ArgsA) (s : State) : Out :=
  intBinary (.andn x) x false false false (pureOp fun w a b _d => { v := (a &&& (2 ^ w - 1 - b % 2 ^ w) : Nat) }) s

/-- SLL (R108): shift left by B mod w. -/
def execSll (x : ArgsA) (s : State) : Out :=
  intBinary (.sll x) x false true false (pureOp fun w a b _d => { v := zx a w * (2 ^ shiftCount w b : Nat) }) s

/-- SRL (R108): logical shift right by B mod w. -/
def execSrl (x : ArgsA) (s : State) : Out :=
  intBinary (.srl x) x false true false (pureOp fun w a b _d => { v := zx a w / (2 ^ shiftCount w b : Nat) }) s

/-- SRA (R108): arithmetic shift right by B mod w. -/
def execSra (x : ArgsA) (s : State) : Out :=
  intBinary (.sra x) x false true false (pureOp fun w a b _d => { v := sx a w / (2 ^ shiftCount w b : Nat) }) s

/-- ROTR (R108): rotate right by B mod w. -/
def execRotr (x : ArgsA) (s : State) : Out :=
  intBinary (.rotr x) x false true false (pureOp fun w a b _d => { v := (Sys2Proof.Machine.rotr w a b : Nat) }) s

/-- ABS (R111): |x|; the most negative value yields itself. -/
def execAbs (x : ArgsU) (s : State) : Out :=
  intUnary (.abs x) x (fun w a => ((sx a w).natAbs : Int)) s

/-- NEG (R111): −x. -/
def execNeg (x : ArgsU) (s : State) : Out :=
  intUnary (.neg x) x (fun w a => - sx a w) s

/-- POPC (R111): the number of 1 bits. -/
def execPopc (x : ArgsU) (s : State) : Out :=
  intUnary (.popc x) x (fun w a => (popCount a w : Int)) s

/-- CLZ (R111): leading zeros. -/
def execClz (x : ArgsU) (s : State) : Out :=
  intUnary (.clz x) x (fun w a => (leadZeros w a : Int)) s

/-- WADD (R112): signed sum at width 2w. -/
def execWadd (x : ArgsA) (s : State) : Out :=
  intWide (.wadd x) x false (pureOp fun w a b _d => { v := sx a w + sx b w }) s

/-- WADDU (R112): unsigned sum at width 2w. -/
def execWaddu (x : ArgsA) (s : State) : Out :=
  intWide (.waddu x) x false (pureOp fun w a b _d => { v := zx a w + zx b w }) s

/-- WMUL (R112): signed product at width 2w. -/
def execWmul (x : ArgsA) (s : State) : Out :=
  intWide (.wmul x) x false (pureOp fun w a b _d => { v := sx a w * sx b w }) s

/-- WMULU (R112): unsigned product at width 2w. -/
def execWmulu (x : ArgsA) (s : State) : Out :=
  intWide (.wmulu x) x false (pureOp fun w a b _d => { v := zx a w * zx b w }) s

/-- WMAC (R112): D + signed product, modulo 2^(2w). -/
def execWmac (x : ArgsA) (s : State) : Out :=
  intWide (.wmac x) x true (pureOp fun w a b d => { v := sx d (2 * w) + sx a w * sx b w }) s

/-- WMACU (R112): D + unsigned product, modulo 2^(2w). -/
def execWmacu (x : ArgsA) (s : State) : Out :=
  intWide (.wmacu x) x true (pureOp fun w a b d => { v := zx d (2 * w) + zx a w * zx b w }) s

/-- NARROW (R113): rounding shift and signed saturation. -/
def execNarrow (x : ArgsA) (s : State) : Out := intNarrow (.narrow x) x true s

/-- NARROWU (R113): rounding shift and unsigned saturation. -/
def execNarrowu (x : ArgsA) (s : State) : Out := intNarrow (.narrowu x) x false s

/-- CMPEQ (R114): true when A = B. -/
def execCmpeq (x : ArgsA) (s : State) : Out := intCompare (.cmpeq x) x (fun _ a b => a == b) s

/-- CMPNE (R114): true when A ≠ B. -/
def execCmpne (x : ArgsA) (s : State) : Out := intCompare (.cmpne x) x (fun _ a b => a != b) s

/-- CMPLT (R114): true when x < y. -/
def execCmplt (x : ArgsA) (s : State) : Out := intCompare (.cmplt x) x (fun w a b => decide (sx a w < sx b w)) s

/-- CMPLTU (R114): true when ux < uy. -/
def execCmpltu (x : ArgsA) (s : State) : Out := intCompare (.cmpltu x) x (fun w a b => decide (zx a w < zx b w)) s

/-- CMPLE (R114): true when x ≤ y. -/
def execCmple (x : ArgsA) (s : State) : Out := intCompare (.cmple x) x (fun w a b => decide (sx a w ≤ sx b w)) s

/-- CMPLEU (R114): true when ux ≤ uy. -/
def execCmpleu (x : ArgsA) (s : State) : Out := intCompare (.cmpleu x) x (fun w a b => decide (zx a w ≤ zx b w)) s

end Sys2Proof.Machine
end

