-- ==== Sys2Proof/Machine/FloatLanes.lean ====
section
/-! DEFINITION. Lanes II, element by element: the float instructions of classes FB, FM, FU, FC and the conversions between
integers and floats (R116–R132). -/

namespace Sys2Proof.Machine
open Sys2Proof

/-- The format of a float element of width w under FCTL (R118). -/
def fmtOf (fctl : BitVec 7) (w : Nat) : Fmt :=
  if w = 64 then fp64 else if w = 32 then fp32
  else if w = 16 then (if fctl.getLsbD 2 then bf16 else fp16)
  else (if fctl.getLsbD 3 then e5m2 else e4m3)

/-- The other format of the same width (R130). -/
def otherFmt (t : Fmt) : Fmt :=
  if t = bf16 then fp16 else if t = fp16 then bf16 else if t = e5m2 then e4m3 else e5m2

/-- The rounding controls of FCTL (R119, R120, R151). -/
def rctl (fctl : BitVec 7) : RCtl := { rm := fctl.extractLsb' 0 2, ftz := fctl.getLsbD 4 }

/-- The format of a float SS form: 100 FP64, 101 FP32 (R27). -/
def ssFmt (w : BitVec 3) : Fmt := if w = 4 then fp64 else fp32

/-- An operation on patterns in one format. -/
abbrev FOp := RCtl → Fmt → (a b d : Nat) → Nat × Flags

/-- Classes FB and FM (R124–R126). -/
def floatBinary (i : Instr) (x : ArgsA) (rd late : Bool) (op : FOp) (s : State) : Out :=
  issue i s fun s =>
    if x.f = 3 then
      readScalars ([(x.a, x.p), (x.b, x.q)] ++ (if rd then [(x.d, false)] else [])) s fun s => destFree x.d s fun s =>
      let h := s.hart
      let t := ssFmt x.w
      let r := op (rctl h.fctl) t ((h.rs x.a).toNat % 2 ^ t.w) ((h.rs x.b).toNat % 2 ^ t.w) ((h.rs x.d).toNat % 2 ^ t.w)
      let h1 := ((h.ws x.d (BitVec.ofNat 64 r.1)).orFlags r.2).retire
      .ok (if late then enter { flags := true } (scalarBit x.d) 0 0 0 false (s.setHart h1) else s.setHart h1)
    else
      let w := widthOf x.w
      elementwise i
        { srcs := ⟨w, x.a.toNat, x.p⟩ :: bSrc x.f w x.b x.q ++ (if rd then [⟨w, x.d.toNat, false⟩] else [])
          dsts := [⟨w, x.d.toNat⟩], reads := bReg x.f x.b x.q, flags := true } late Hart.active
        (fun s i row =>
          let fc := s.hart.fctl
          let r := op (rctl fc) (fmtOf fc w) (fetch s ⟨w, x.a.toNat, false⟩ i row) (bVal s x.f false w x.b i row)
            (fetch s ⟨w, x.d.toNat, false⟩ i row)
          .ok { row := putElem row w x.d.toNat r.1, fl := r.2 }) s

/-- Class FU (R127, R128). -/
def floatUnary (i : Instr) (x : ArgsU) (late : Bool) (op : RCtl → Fmt → Nat → Nat × Flags) (s : State) : Out :=
  issue i s fun s =>
    if x.f = 3 then
      readScalars [(x.a, x.p)] s fun s => destFree x.d s fun s =>
      let h := s.hart
      let t := ssFmt x.w
      let r := op (rctl h.fctl) t ((h.rs x.a).toNat % 2 ^ t.w)
      let h1 := ((h.ws x.d (BitVec.ofNat 64 r.1)).orFlags r.2).retire
      .ok (if late then enter { flags := true } (scalarBit x.d) 0 0 0 false (s.setHart h1) else s.setHart h1)
    else
      let w := widthOf x.w
      elementwise i { srcs := [⟨w, x.a.toNat, x.p⟩], dsts := [⟨w, x.d.toNat⟩], flags := decide (i ≠ .fclass x) } late Hart.active
        (fun s i row =>
          let fc := s.hart.fctl
          let r := op (rctl fc) (fmtOf fc w) (fetch s ⟨w, x.a.toNat, false⟩ i row)
          .ok { row := putElem row w x.d.toNat r.1, fl := r.2 }) s

/-- Class FC (R129). -/
def floatCompare (i : Instr) (x : ArgsA) (p : FV → FV → Bool × Flags) (s : State) : Out :=
  issue i s fun s =>
    if x.f = 3 then
      readScalars [(x.a, x.p), (x.b, x.q)] s fun s => destFree x.d s fun s =>
      let h := s.hart
      let t := ssFmt x.w
      let c := rctl h.fctl
      let r := p (t.val c ((h.rs x.a).toNat % 2 ^ t.w)) (t.val c ((h.rs x.b).toNat % 2 ^ t.w))
      .ok (s.setHart ((h.ws x.d (if r.1 then 1 else 0)).orFlags r.2).retire)
    else
      let w := widthOf x.w
      elementwise i { srcs := ⟨w, x.a.toNat, x.p⟩ :: bSrc x.f w x.b x.q, reads := bReg x.f x.b x.q, mdst := some x.d.toNat
                      flags := true } false Hart.active
        (fun s i row =>
          let fc := s.hart.fctl
          let t := fmtOf fc w
          let r := p (t.val (rctl fc) (fetch s ⟨w, x.a.toNat, false⟩ i row)) (t.val (rctl fc) (bVal s x.f false w x.b i row))
          .ok { row := row, bit := r.1, fl := r.2 }) s

/-- A binary operation on values. -/
def onVals (f : Fmt → RCtl → FV → FV → Nat × Flags) : FOp := fun c t a b _ => f t c (t.val c a) (t.val c b)

/-- A multiply-add on values: the product's sign and the addend's sign as given (R126). -/
def onFma (np nd : Bool) : FOp := fun c t a b d =>
  let x := t.val c a
  let y := t.val c d
  fmaV t c (if np then x.neg else x) (t.val c b) (if nd then y.neg else y)

/-- NV for a NaN among the sources of an ordered comparison (R129). -/
def anyNan (x y : FV) : Flags := if x.isNan || y.isNan then fNV else 0

/-- FADD (R126): x + y. -/
def execFadd (x : ArgsA) (s : State) : Out := floatBinary (.fadd x) x false false (onVals addV) s

/-- FSUB (R126): x − y. -/
def execFsub (x : ArgsA) (s : State) : Out := floatBinary (.fsub x) x false false (onVals fun t c x y => addV t c x y.neg) s

/-- FMUL (R126): x × y. -/
def execFmul (x : ArgsA) (s : State) : Out := floatBinary (.fmul x) x false false (onVals mulV) s

/-- FDIV (R126): x / y, a long-latency producer. -/
def execFdiv (x : ArgsA) (s : State) : Out := floatBinary (.fdiv x) x false true (onVals divV) s

/-- FMA (R126): x × y + D. -/
def execFma (x : ArgsA) (s : State) : Out := floatBinary (.fma x) x true false (onFma false false) s

/-- FMS (R126): x × y − D. -/
def execFms (x : ArgsA) (s : State) : Out := floatBinary (.fms x) x true false (onFma false true) s

/-- FNMA (R126): −(x × y) + D. -/
def execFnma (x : ArgsA) (s : State) : Out := floatBinary (.fnma x) x true false (onFma true false) s

/-- FMIN (R126): minimum. -/
def execFmin (x : ArgsA) (s : State) : Out := floatBinary (.fmin x) x false false (onVals fun t c x y => minMaxV t c false x y) s

/-- FMAX (R126): maximum. -/
def execFmax (x : ArgsA) (s : State) : Out := floatBinary (.fmax x) x false false (onVals fun t c x y => minMaxV t c true x y) s

/-- FSQRT (R127): √x, correctly rounded. -/
def execFsqrt (x : ArgsU) (s : State) : Out := floatUnary (.fsqrt x) x true (fun c t a => sqrtV t c (t.val c a)) s

/-- FRSQ (R127): 1/√x, correctly rounded. -/
def execFrsq (x : ArgsU) (s : State) : Out := floatUnary (.frsq x) x true (fun c t a => rsqrtV t c (t.val c a)) s

/-- FEXP2 (R127): 2^x, correctly rounded. -/
def execFexp2 (x : ArgsU) (s : State) : Out := floatUnary (.fexp2 x) x true (fun c t a => exp2V t c (t.val c a)) s

/-- FLOG2 (R127): log2 x, correctly rounded. -/
def execFlog2 (x : ArgsU) (s : State) : Out := floatUnary (.flog2 x) x true (fun c t a => log2V t c (t.val c a)) s

/-- FABS (R127): sign bit cleared. -/
def execFabs (x : ArgsU) (s : State) : Out := floatUnary (.fabs x) x false (fun _ t a => signOp t false a) s

/-- FNEG (R127): sign bit inverted. -/
def execFneg (x : ArgsU) (s : State) : Out := floatUnary (.fneg x) x false (fun _ t a => signOp t true a) s

/-- FCLASS (R128): the class code of the stored pattern. -/
def execFclass (x : ArgsU) (s : State) : Out := floatUnary (.fclass x) x false (fun _ t a => (classCode t a, 0)) s

/-- FCMPEQ (R129): true when x = y. -/
def execFcmpeq (x : ArgsA) (s : State) : Out := floatCompare (.fcmpeq x) x (fun x y => (eqV x y, x.sigFlag ||| y.sigFlag)) s

/-- FCMPLT (R129): true when x < y. -/
def execFcmplt (x : ArgsA) (s : State) : Out := floatCompare (.fcmplt x) x (fun x y => (ltV false x y, anyNan x y)) s

/-- FCMPLE (R129): true when x ≤ y. -/
def execFcmple (x : ArgsA) (s : State) : Out := floatCompare (.fcmple x) x (fun x y => (ltV false x y || eqV x y, anyNan x y)) s

/-- FCVTI (R132): float to signed integer; a clamp or a NaN sets the element's saturation bit, or SAT in the SS form. -/
def execFcvti (x : ArgsC) (s : State) : Out :=
  issue (.fcvti x) s fun s =>
    if x.f = 3 then
      readScalars [(x.a, x.p)] s fun s => destFree x.d s fun s =>
      let h := s.hart
      let t := ssFmt x.s
      let w := ssWidth x.w
      let c := rctl h.fctl
      let r := cvtInt c w (t.val c ((h.rs x.a).toNat % 2 ^ t.w))
      .ok (s.setHart ((h.ws x.d (ssResult w r.1)).orFlags (r.2.1 ||| (if r.2.2 then fSAT else 0))).retire)
    else
      let w := widthOf x.w
      let ws := widthOf x.s
      elementwise (.fcvti x) { srcs := [⟨ws, x.a.toNat, x.p⟩], dsts := [⟨w, x.d.toNat⟩], sats := true, flags := true } false Hart.active
        (fun s i row =>
          let fc := s.hart.fctl
          let r := cvtInt (rctl fc) w ((fmtOf fc ws).val (rctl fc) (fetch s ⟨ws, x.a.toNat, false⟩ i row))
          .ok { row := putElem row w x.d.toNat (wrap r.1 w), sat := r.2.2, fl := r.2.1 }) s

/-- FCVTF (R132): signed integer to float. -/
def execFcvtf (x : ArgsC) (s : State) : Out :=
  issue (.fcvtf x) s fun s =>
    if x.f = 3 then
      readScalars [(x.a, x.p)] s fun s => destFree x.d s fun s =>
      let h := s.hart
      let r := ofInt (ssFmt x.w) (rctl h.fctl) (sx (h.rs x.a).toNat (ssWidth x.s))
      .ok (s.setHart ((h.ws x.d (BitVec.ofNat 64 r.1)).orFlags r.2).retire)
    else
      let w := widthOf x.w
      let ws := widthOf x.s
      elementwise (.fcvtf x) { srcs := [⟨ws, x.a.toNat, x.p⟩], dsts := [⟨w, x.d.toNat⟩], flags := true } false Hart.active
        (fun s i row =>
          let fc := s.hart.fctl
          let r := ofInt (fmtOf fc w) (rctl fc) (sx (fetch s ⟨ws, x.a.toNat, false⟩ i row) ws)
          .ok { row := putElem row w x.d.toNat r.1, fl := r.2 }) s

end Sys2Proof.Machine
end

