-- ==== Sys2Proof/Machine/Paths.lean ====
section
/-! DEFINITION. Fabric addresses, the wiring of the links, and the path of traffic to another device (R364, R365, R367, R408). -/

namespace Sys2Proof.Machine

/-- GROUP of a fabric address. -/
def addrGroup (a : Nat) : Nat := bits a 0 11

/-- MEMBER of a fabric address. -/
def addrMember (a : Nat) : Nat := bits a 11 5

/-- The place of a fabric address in the order by (G, m) (R364). -/
def addrRank (a : Nat) : Nat := addrGroup a * 32 + addrMember a

/-- The local link of member a that leads to member b (R365). -/
def localLink (a b : Nat) : Nat := (b + 63 - a) % 32

/-- Where group port x of group g leads in a system of ng groups: the group and its port, if the port is used (R365). -/
def globalPeer (ng g x : Nat) : Option (Nat × Nat) :=
  if ng ≤ 1 then none
  else
    let r := x % (ng - 1)
    let port := x / (ng - 1) * (ng - 1) + (ng - 2 - r)
    if port > 1535 then none else some ((g + 1 + r) % ng, port)

namespace State

/-- The group of this device. -/
def myGroup (s : State) : Nat := s.net.ident.group.toNat

/-- The member number of this device. -/
def myMember (s : State) : Nat := s.net.ident.member.toNat

/-- Groups of the system: NG, where 0 is taken as 1 (R364). -/
def groupCount (s : State) : Nat := max 1 s.net.ident.ng.toNat

/-- The fabric address that device-table entry n of context c names (R368). -/
def devAddr (s : State) (c : BitVec 6) (n : Nat) : Nat := bits (s.devEntry c n) 0 16

/-- Is the local link between members a and b up? A link of this device is by its status word (R407, R408), one of two others while it has
not failed. -/
def linkUp (s : State) (a b : Nat) : Bool :=
  if a = s.myMember then s.fnReady (241 + localLink a b)
  else if b = s.myMember then s.fnReady (241 + localLink b a)
  else !s.net.down.contains (min a b, max a b)

/-- Is global port g of member m up? -/
def portUp (s : State) (m g : Nat) : Bool :=
  if m = s.myMember then s.fnReady (272 + g) else !s.net.down.contains (m, 32 + g)

/-- The member to which traffic for member b of this group leaves: b itself by the direct link, else the lowest one whose links to both
ends are up (R367). -/
def hopTo (s : State) (b : Nat) : Option Nat :=
  if s.linkUp s.myMember b then some b
  else firstIn (fun i => i != s.myMember && i != b && s.linkUp s.myMember i && s.linkUp i b) 0 32

/-- The lowest global port of member m that is up and leads to group g (R365). -/
def portToGroup (s : State) (m g : Nat) : Option Nat :=
  firstIn (fun x => s.portUp m x && (globalPeer s.groupCount s.myGroup (48 * m + x)).map (·.1) == some g) 0 48

/-- The fabric port by which traffic to a fabric address leaves this device: local links 0–30, global ports 31–78; none without a path
(R367). Of several global ports and owners the lowest is taken (log 103). -/
def portOf (s : State) (addr : Nat) : Option Nat :=
  if addrGroup addr = s.myGroup then (s.hopTo (addrMember addr)).map (localLink s.myMember)
  else match s.portToGroup s.myMember (addrGroup addr) with
    | some g => some (31 + g)
    | none =>
      (firstIn (fun i => i != s.myMember && s.linkUp s.myMember i && (s.portToGroup i (addrGroup addr)).isSome) 0 32).map
        (localLink s.myMember)

end State

end Sys2Proof.Machine
end

