-- ==== Sys2Proof/Machine/Remote.lean ====
section
/-! DEFINITION. Remote requests at their source (R369–R373), the fabric budget (R390), and the access paths that a hart's
instructions share: one access, and the element loop of LD, ST and their kin with its faults and restart (R199–R203, R348). -/

namespace Sys2Proof.Machine
open Sys2Proof

namespace State

/-! ## Budgets (R389, R390) -/

/-- LIMIT of context c's budget word at fabric-block offset `off` (8 pumps, 16 exchange, 24 fabric). -/
def budgetLimit (s : State) (c : BitVec 6) (off : Nat) : Nat := s.fabN c off 4

/-- Units that the arbiter has counted for the context in the current period. -/
def budgetUsed (s : State) (a : Arbiter) (c : BitVec 6) : Nat :=
  match s.net.budgets.find? (fun u => u.arb == a && u.ctx == c) with
  | some u => u.units
  | none => 0

/-- May a transfer of the context start at the arbiter? -/
def budgetFree (s : State) (a : Arbiter) (c : BitVec 6) (off : Nat) : Bool :=
  s.budgetLimit c off == 0 || decide (s.budgetUsed a c < s.budgetLimit c off)

/-- Counts n units. -/
def budgetCount (s : State) (a : Arbiter) (c : BitVec 6) (n : Nat) : State :=
  let rest := s.net.budgets.filter (fun u => !(u.arb == a && u.ctx == c))
  { s with net := { s.net with budgets := rest ++ [⟨a, c, s.budgetUsed a c + n⟩] } }

/-! ## Requests -/

/-- The request that `who` waits for. -/
def requestOf (s : State) (who : Waiter) : Option SentReq := s.net.reqs.find? (fun r => r.who == who)

/-- The next sequence number of a triple (R371). -/
def nextSeq (s : State) (a : Nat) (c : BitVec 6) : BitVec 32 :=
  match s.net.seqs.find? (fun q => q.target == a && q.ctx == c) with
  | some q => q.next
  | none => 0

/-- Requests of the triple with the device at fabric address a that have not been acknowledged, oldest first. -/
def openRequests (s : State) (a : Nat) (c : BitVec 6) : List SentReq :=
  s.net.reqs.filter (fun r => r.target == a && r.ctx == c && r.reply.isNone && !r.failed)

/-- May n bytes of the context leave by the port, if there is one (R390)? -/
def portFree (s : State) (port : Option Nat) (c : BitVec 6) : Bool := port.all (fun g => s.budgetFree (.port g) c 24)

/-- Counts n bytes of the context at the port, if there is one (R389). -/
def portCount (s : State) (port : Option Nat) (c : BitVec 6) (n : Nat) : State :=
  match port with
  | some g => s.budgetCount (.port g) c (max 1 (ceilDiv n 64))
  | none => s

/-- Sends a request, unless the triple's window is full (R371) or the port's budget is spent (R390). One that finds no path goes
unanswered (R367, R373). -/
def sendRequest (s : State) (who : Waiter) (c : BitVec 6) (p : Nat) (op : MemOp) (pa size data expect : Nat)
    (device : Bool) (va : Word) : State :=
  let a := s.devAddr c p
  let port := s.portOf a
  let waiting := s.openRequests a c
  if waiting.length ≥ Config.remoteWindow ∨ !s.portFree port c then s
  else
    let n := s.nextSeq a c
    let r : SentReq :=
      { peer := p, target := a, ctx := c, incarnation := (s.ctx c).incarnation, seq := n, acked := (waiting.head?.map (·.seq)).getD n
        routed := port.isSome, who, op, pa, size, data, expect, device, va, sends := 1, failed := false, reply := none }
    let t := s.portCount port c size
    let rest := t.net.seqs.filter (fun q => !(q.target == a && q.ctx == c))
    { t with net := { t.net with reqs := t.net.reqs ++ [r], seqs := rest ++ [⟨a, c, n + 1⟩] } }

/-- Has the instruction of slot k sent a request? -/
def hasRequests (s : State) (k : Nat) : Bool := s.net.reqs.any (fun r => match r.who with | .elem q _ => q == k | _ => false)

/-- May the request be dropped at a stop and made again: an answered read of idempotent memory (R347, R348)? -/
def repeatable (r : SentReq) : Bool := r.op == .read && !r.device && (r.reply.isSome || r.failed)

/-- Has slot k a request that a stop must wait for? -/
def waitsRemote (s : State) (k : Nat) : Bool :=
  s.net.reqs.any (fun r => (match r.who with | .elem q _ => q == k | _ => false) && !repeatable r)

/-- A group is complete: every request of the instruction has been answered, and none is left (R347). -/
def endGroup (s : State) (k : Nat) : State :=
  { s with net := { s.net with reqs := s.net.reqs.filter (fun r => match r.who with | .elem q _ => q != k | _ => true) } }

/-- Nobody waits any more for the requests that `p` accepts: those that are not acknowledged stay, to be discarded with their reply (R348,
R371, R374), under the slot and task given. -/
def dropRequests (s : State) (p : SentReq → Bool) (k : Nat) (task : BitVec 32) : State :=
  let l := s.net.reqs.filter (fun r => !(p r && (r.reply.isSome || r.failed)))
  { s with net := { s.net with reqs := l.map (fun r => if p r then { r with who := .gone k task } else r) } }

/-- Drops the requests of slot k's instruction, when it retires, traps or is abandoned. -/
def clearRequests (s : State) (k : Nat) : State :=
  s.dropRequests (fun r => match r.who with | .elem q _ => q == k | _ => false) k (s.slot k).hart.taskid

/-- Drops requests of an engine. -/
def clearEngine (s : State) (p : SentReq → Bool) : State := s.dropRequests p Config.slots 0xFFFFFFFF

/-- Is an earlier remote write of the hart of slot k, or of its task, unacknowledged (R374)? -/
def unackedWrites (s : State) (k : Nat) : Bool :=
  s.net.reqs.any (fun r => r.op != .read && r.reply.isNone && !r.failed && (match r.who with
    | .elem q _ => q == k
    | .gone q t => q == k || (t == (s.slot k).hart.taskid && r.ctx == s.ctxOf k)
    | _ => false))

end State

/-- Whether a request has come to an answer: none yet, refused or unanswered (cause 0x15), or data. -/
inductive Answer where
  | none
  | refused
  | data (n : Nat)

/-- The answer that a request has. -/
def SentReq.answer (r : SentReq) : Answer :=
  if r.failed then .refused
  else match r.reply with
    | Option.none => .none
    | some (true, _) => .refused
    | some (false, n) => .data n

/-! ## One access of a hart -/

/-- What one access does: the operation, its bytes, the alignment, whether it needs idempotent memory, and whether elements above
a failing one may have been performed (R201). -/
structure Access where
  acc : Acc
  op : MemOp
  sz : Nat
  align : Nat
  idem : Bool := false
  above : Bool := true

/-- One access of the executing hart at `va` in `space`, numbered i among the accesses of its instruction. Its checks are
those of R191; the value read goes to `k`, which gets 0 after a write. Peer memory waits for the reply (R369); a request that has
been sent stands as it was translated (R310). -/
def oneAccess (x : Access) (i : Nat) (space : BitVec 2) (va : Word) (data : Nat) (s : State)
    (k : Nat → State → Res) : Res :=
  match s.requestOf (.elem s.cur i) with
  | some r =>
    match r.answer with
    | .none => .wait s
    | .refused => .trap 0x15 0 va 0 (s.clearRequests s.cur)
    | .data n => k (if x.acc = .write then 0 else n) s
  | none =>
    match s.checkSpace s.cur space va.toNat x.acc x.sz x.align x.idem with
    | .bad cause wl => .trap cause 0 va wl (s.clearRequests s.cur)
    | .wait => .wait (s.noteSpace s.cur space va.toNat)
    | .dead f => .ok (s.killLasting s.cur f)
    | .go (.peer p pa) dev => .wait (s.sendRequest (.elem s.cur i) s.ctxid p x.op pa x.sz data 0 dev va)
    | .go loc dev =>
      if x.acc = .write then k 0 (s.writeLoc s.cur loc x.sz data dev)
      else k (s.readClass s.cur loc x.sz dev) s

/-- The end of an instruction that made accesses: its requests are gone. -/
def doneAccess (s : State) : Res := .ok (s.clearRequests s.cur)

/-- The end of the accesses of an instruction that was not abandoned: no requests, ABND clear, inside no group. -/
def cleanEnd (s : State) : State :=
  let t := s.clearRequests s.cur
  t.setHart { t.hart with abnd := false, mid := false, accs := [] }

/-! ## The element loop -/

/-- Where the checks of an instruction's elements end: all passed, element i fails, a device-class peer element that must
wait for its turn (R202), a wait, or a failed function. -/
inductive PlanEnd where
  | all
  | fail (i cause wlvl : Nat) (v : Word)
  | turn (i : Nat)
  | wait
  | dead (fn : Nat)

/-- The checked elements with their locations and class, the lowest one whose reply is outstanding, where the checks end,
and the state with the requests sent. -/
structure Plan where
  s : State
  locs : List (Nat × Loc × Bool)
  pending : Option Nat
  end_ : PlanEnd

/-- The request that an element of the executing hart's instruction has sent to this location of a peer. -/
def State.requestAt (s : State) (q pa : Nat) : Option SentReq :=
  s.net.reqs.find? (fun r => (match r.who with | .elem k _ => k == s.cur | _ => false) && r.peer == q && r.pa == pa)

/-- Has a request that the executing hart's instruction has sent to this location of a peer not been answered? -/
def State.awaits (s : State) (q pa : Nat) : Bool :=
  s.net.reqs.any (fun r => (match r.who with | .elem k _ => k == s.cur | _ => false) && r.peer == q && r.pa == pa && r.reply.isNone && !r.failed)

/-- Element i stands on the request r: its answer, or it is pending; a device-class one waits for its turn (R202). -/
def Plan.onRequest (p : Plan) (i : Nat) (r : SentReq) (dev : Bool) : Plan :=
  let q : Plan := { p with locs := p.locs ++ [(i, .peer r.peer r.pa, dev)] }
  match r.answer with
  | .refused => { p with end_ := .fail i 0x15 0 r.va }
  | .data _ => q
  | .none => if dev then { p with end_ := .turn i } else { q with pending := some (p.pending.getD i) }

/-- Checks elements i, …, i + n − 1 in order and sends the requests of those in peer memory (R199, R201, R202). A request that has
been sent stands as it was translated (R310). Elements of a load at one location of idempotent memory share one request, and other
accesses there go one after the other (R203). A device-class element is sent once every lower element has been performed, in a step of
its own (R202, R305, R347). -/
def planElems (x : Access) (space : BitVec 2) (act : Nat → Bool) (addr : Nat → Word) (data expect : Nat → Nat)
    (ordered : Bool) : Nat → Nat → Plan → Plan
  | _, 0, p => p
  | i, n + 1, p =>
    let next := planElems x space act addr data expect ordered (i + 1) n
    match p.end_, act i with
    | .all, false => next p
    | .all, true =>
      let va := addr i
      let who := Waiter.elem p.s.cur i
      match p.s.requestOf who with
      | some r => next (p.onRequest i r (r.device && ordered))
      | none =>
        match p.s.checkSpace p.s.cur space va.toNat x.acc x.sz x.align x.idem with
        | .bad cause wl => { p with end_ := .fail i cause wl va }
        | .wait => { p with s := p.s.noteSpace p.s.cur space va.toNat, end_ := .wait }
        | .dead f => { p with end_ := .dead f }
        | .go (.peer q pa) d =>
          let dev := d && ordered
          if dev && p.pending.isSome then { p with end_ := .wait }
          else if dev && decide (p.s.hart.eidx.toNat < i) then { p with end_ := .turn i }
          else
            let own := if dev then p.s.performOwn p.s.cur else p.s
            let sent : Plan := { p with s := own.sendRequest who p.s.ctxid q x.op pa x.sz (data i) (expect i) d va }
            let at_ : List (Nat × Loc × Bool) := p.locs ++ [(i, .peer q pa, false)]
            if dev then { sent with end_ := .turn i }
            else if x.acc = .read then
              if p.s.hart.accs.any (fun a => a.loc == .peer q pa) then next { p with locs := at_ }
              else match p.s.requestAt q pa with
                | some r => next (p.onRequest i r false)
                | none => next { sent with locs := at_, pending := some (p.pending.getD i) }
            else if p.s.awaits q pa then { p with end_ := .wait }
            else next { sent with locs := at_, pending := some (p.pending.getD i) }
        | .go loc dev =>
          if dev && ordered && p.pending.isSome then { p with end_ := .wait }
          else next { p with locs := p.locs ++ [(i, loc, dev)] }
    | _, _ => p

/-- The value of a checked element of a load; elements at one location of a peer receive one value (R203). -/
def loadedValue (s : State) (sz : Nat) (loc : Loc) (dev : Bool) : Nat :=
  match loc with
  | .peer q pa =>
    match s.requestAt q pa with
    | some r => (match r.answer with | .data n => n | _ => 0)
    | none => 0
  | loc => s.readClass s.cur loc sz dev

/-- The elements above a failing one that were performed all the same: those that pass their checks, in idempotent memory
that is not a peer's, chosen freely (R201, log 8). -/
def aboveElems (x : Access) (space : BitVec 2) (act : Nat → Bool) (addr : Nat → Word) (s : State) :
    Nat → Nat → List (Nat × Loc × Bool)
  | _, 0 => []
  | i, n + 1 =>
    let rest := aboveElems x space act addr s (i + 1) n
    if act i && Config.performedAbove (s.fresh * 2048 + i) then
      match s.checkSpace s.cur space (addr i).toNat x.acc x.sz x.align x.idem with
      | .go (.peer _ _) _ => rest
      | .go loc false => (i, loc, false) :: rest
      | _ => rest
    else rest

/-- Stores elements, lowest first, so that the highest of equal addresses stands (R203). A peer's write has been performed
there. -/
def storeElems (sz : Nat) (data : Nat → Nat) (l : List (Nat × Loc × Bool)) (s : State) : State :=
  l.foldl (fun st p =>
    match p.2.1 with
    | .peer _ _ => st
    | loc => st.writeLoc st.cur loc sz (data p.1) p.2.2) s

/-- The elements below i whose replies a stop there may abandon: in idempotent memory, above every element of device class (R348). -/
def abandonable (l : List (Nat × Loc × Bool)) (i : Nat) : List Nat :=
  (l.filter (fun p => decide (p.1 < i))).foldl (fun c p => if p.2.2 then [] else c ++ [p.1]) []

/-- The lowest element below a stop at i whose reply ABANDONMENT gives up: an outstanding reply of a peer, or one that a free value names
(R348, log 112). -/
def Plan.late (p : Plan) (s : State) (i : Nat) : Option Nat :=
  if s.sched.abandons then
    let c := abandonable p.locs i
    match p.pending, (c.drop (Config.lateElem s.fresh % (c.length + 1))).head? with
    | some a, some b => some (min a b)
    | some a, none => some a
    | none, b => b
  else none

/-- The elements from j to below i that were performed although the instruction falls back to j: a load's own element j was not (R348). -/
def keptElems (x : Access) (l : List (Nat × Loc × Bool)) (s : State) (j i : Nat) : List (Nat × Loc × Bool) :=
  l.filter (fun p => (match p.2.1 with | .peer _ _ => false | _ => true) && !p.2.2 && decide (j ≤ p.1 ∧ p.1 < i) &&
    (x.acc == .write || decide (j < p.1)) && Config.performedAbove (s.fresh * 2048 + p.1))

/-- The stop of an instruction that has fallen back sets ABND (R348). -/
def fellBack (s : State) : State := s.setHart { s.hart with abnd := true }

/-- LD and ST over the elements from EIDX up to `hi`, where a step of a group ends (R199–R202, R347): `perform` performs the checked
elements in order. A stream that stops the instruction at element `p.at_` acts as a failing element there (R232). Where the
instruction stops, its writes below are performed (R201, R348), but for those that ABANDONMENT abandons: then it falls back to the lowest. -/
def memoryElems (x : Access) (space : BitVec 2) (act : Nat → Bool) (addr : Nat → Word) (data : Nat → Nat)
    (perform : List (Nat × Loc × Bool) → State → State) (stop : Option Stop) (hi : Nat) (fin : State → Res) (s : State) : Res :=
  let e := s.hart.eidx.toNat
  let vl := s.hart.len
  let lim := match stop with | some p => min p.at_ hi | none => hi
  let p := planElems x space act addr data (fun _ => 0) true e (lim - e) ⟨s, [], none, .all⟩
  let below (i : Nat) := perform (p.locs.filter (fun l => decide (l.1 < i))) p.s
  let stopped (t : State) := (t.performOwn t.cur)
  let above (i : Nat) (t : State) :=
    if x.above then (perform (aboveElems x space act addr t (i + 1) (lim - (i + 1))) t).tick else t
  let fallback (j i : Nat) :=
    let l := keptElems x p.locs s j i
    let t := if x.acc = .write then storeElems x.sz data l (below j) else perform l (below j)
    fellBack ((stopped t).tick.clearRequests s.cur)
  match p.end_ with
  | .dead f => .ok (s.killLasting s.cur f)
  | .wait => .wait p.s
  | .turn i =>
    match p.pending with
    | some _ => .wait p.s
    | none =>
      let t := below i
      let t := if e < i ∧ i % 64 = 0 then t.endGroup t.cur else t
      .wait (t.setHart { t.hart with eidx := BitVec.ofNat 11 i, mid := decide (i % 64 ≠ 0) })
  | .fail i cause wl v =>
    match p.late s i, p.pending with
    | some j, _ => .trap cause j v wl (above i (fallback j i))
    | none, some _ => .wait p.s
    | none, none => .trap cause i v wl (cleanEnd (stopped (above i (below i))))
  | .all =>
    match p.late s lim, p.pending with
    | some j, _ =>
      match stop with
      | some ⟨a, some (c, v)⟩ => if max e lim < a then standAt j (fallback j lim) else .trap c j v 0 (fallback j lim)
      | _ => standAt j (fallback j lim)
    | none, some _ => .wait p.s
    | none, none =>
      let t := perform p.locs p.s
      match stop with
      | some q => if max e lim < q.at_ ∨ q.trap.isNone then standAt (max e lim) (t.endGroup t.cur) else q.res e (cleanEnd (stopped t))
      | none => if e < lim ∧ lim < vl then standAt lim (t.endGroup t.cur) else fin (cleanEnd t)

end Sys2Proof.Machine
end

