-- ==== Sys2Proof/Machine/Memory.lean ====
section
/-! DEFINITION. LD and ST (R197–R203), the lane table stores TLD and TST (R204–R208). -/

namespace Sys2Proof.Machine
open Sys2Proof

/-- The address of element i (R199): strided (mode 00), or the base plus a signed w32 offset (mode 01). -/
def elemAddress (s : State) (x : ArgsL) (sz i : Nat) : Word :=
  let h := s.hart
  let base := h.rs x.a
  if x.m = 0 then base + BitVec.ofNat 64 i * (if h.vstride = 0 then BitVec.ofNat 64 sz else h.vstride)
  else base + word (sx (readV s ⟨32, x.b.toNat, false⟩ i) 32)

/-- The address of the scalar mode (R200). -/
def scalarAddress (s : State) (a b : BitVec 6) (sz : Nat) : Word := s.hart.rs a + word (imm6 b * sz)

/-- The value of an element that a load performs: that of an element which an earlier step of the instruction performed at its location,
else what stands there (R203). -/
def loadedOnce (s : State) (sz : Nat) (loc : Loc) (dev : Bool) : Nat :=
  match s.hart.accs.find? (fun a => a.loc == loc) with
  | some a => a.value.getD 0
  | none => loadedValue s sz loc dev

/-- Writes loaded elements into the destination, and its tags (R79, R199); while `sched.grouped` their values are kept for the later groups
(R203, log 123). -/
def loadElems (w d : Nat) (l : List (Nat × Loc × Bool)) (s : State) : State :=
  let h := s.hart
  let val := fun (p : Nat × Loc × Bool) => loadedOnce s (w / 8) p.2.1 p.2.2
  let z := l.foldl (fun z p => SMap.set 0 z p.1 (putElem (SMap.get 0 z p.1) w d (val p))) h.z
  let accs := if s.sched.grouped then h.accs ++ l.map (fun p => ⟨p.1, 0, p.2.1, p.2.2, some (val p)⟩) else h.accs
  s.setHart (if l.isEmpty then h else { h with z := z, accs := accs }.touch (slicesOf w d) h.len)

/-- What LD and ST perform of one step; the elements of a stream that it reads are visible to the hart's later accesses (R228). -/
def withStreams (sh : Shape) (perform : List (Nat × Loc × Bool) → State → State) (l : List (Nat × Loc × Bool)) (s : State) : State :=
  let t := perform l s
  if (boundReads s.hart sh).isEmpty then t else t.refreshWell t.cur

/-- The index operand of mode 01, whose policy bit is pd (R197). -/
def indexSrc (m : BitVec 2) (b : BitVec 6) (q : Bool) : List Src := if m = 1 then [⟨32, b.toNat, q⟩] else []

/-- LD: strided, indexed or scalar (R197–R202). -/
def execLd (x : ArgsL) (s : State) : Out :=
  issue (.ld x) s fun s =>
    let w := widthOf x.w
    let acc : Access := { acc := .read, op := .read, sz := w / 8, align := w / 8 }
    if x.m = 2 then
      readScalars [(x.a, x.p)] s fun s =>
      oneAccess acc 0 s.hart.mspace (scalarAddress s x.a x.b (w / 8)) 0 s fun n s =>
      writeLate x.d (BitVec.ofNat 64 (n % 2 ^ w)) (cleanEnd s)
    else
      let sh : Shape := { srcs := indexSrc x.m x.b x.q, dsts := [⟨w, x.d.toNat⟩], reads := [(x.a, x.p)] }
      vecPre (.ld x) sh s fun s stop =>
      let h := s.hart
      memoryElems acc h.mspace h.active (elemAddress s x (w / 8)) (fun _ => 0) (withStreams sh (loadElems w x.d.toNat)) stop
        (groupEnd s) (fun t =>
        .ok (enter (sh.uses h) 0 (slicesOf w x.d.toNat) h.len h.eidx.toNat false
          (consume h.len (boundReads h sh) (t.setHart t.hart.retire)))) s

/-- ST: strided, indexed or scalar (R197–R203). -/
def execSt (x : ArgsL) (s : State) : Out :=
  issue (.st x) s fun s =>
    let w := widthOf x.w
    let acc : Access := { acc := .write, op := .write, sz := w / 8, align := w / 8 }
    if x.m = 2 then
      readScalars [(x.a, x.p), (x.d, x.q)] s fun s =>
      oneAccess acc 0 s.hart.mspace (scalarAddress s x.a x.b (w / 8)) ((s.hart.rs x.d).toNat % 2 ^ w) s fun _ s =>
      retireOnly (cleanEnd s)
    else
      let sh : Shape :=
        { srcs := indexSrc x.m x.b x.q ++ [⟨w, x.d.toNat, x.m == 0 && x.q⟩], reads := [(x.a, x.p)] }
      vecPre (.st x) sh s fun s stop =>
      let h := s.hart
      let data := fun i => readV s ⟨w, x.d.toNat, false⟩ i
      memoryElems acc h.mspace h.active (elemAddress s x (w / 8)) data (withStreams sh (storeElems (w / 8) data)) stop (groupEnd s) (fun t =>
        .ok (enter (sh.uses h) 0 0 h.len h.eidx.toNat false (consume h.len (boundReads h sh) (t.setHart t.hart.retire)))) s

/-! ## Lane table stores -/

/-- The offset t of element i (R206). -/
def tableOffset (s : State) (a b : BitVec 6) (i : Nat) : Int :=
  ((s.hart.rs a).toNat % 4096 : Nat) + sx (readV s ⟨32, b.toNat, false⟩ i) 32

/-- The check of one table offset (R206). -/
def tableFault (sz : Nat) (t : Int) : Option Nat :=
  if t < 0 ∨ t > 4096 - sz then some 0x04 else if t % sz ≠ 0 then some 0x05 else none

/-- The key of the byte at offset t of a bank in element i's lane (R9, R205). -/
def tableKey (s : State) (bank : Bool) (i t : Nat) : Nat :=
  s.myTile.laneOf (State.coreOf s.cur) i * 8192 + bank.toNat * 4096 + t

/-- The lowest active element that fails its check. -/
def tableFail (s : State) (a b : BitVec 6) (sz : Nat) : Option Nat :=
  firstIn (fun i => s.hart.active i && (tableFault sz (tableOffset s a b i)).isSome) 0 s.hart.len

/-- What TLD and TST check after the operands (R204, R206, R208): the table word, BUSY, every active element. A stream that stops the
instruction, at EIDX 0 and with no element performed, is reported before a failing offset (log 90). -/
def tableChecked (a b : BitVec 6) (sz : Nat) (stop : Option Stop) (s : State) (k : State → Res) : Res :=
  let t := s.myTile
  if !t.tvalid || t.owner != s.ctxid then .trap 0x07 0 0 0 s
  else if t.tbusy then .wait s
  else match stop with
    | some p => p.res 0 s
    | none =>
      match tableFail s a b sz with
      | some i =>
        let o := tableOffset s a b i
        .trap ((tableFault sz o).getD 0x04) 0 (BitVec.ofNat 64 (i * 2 ^ 32 + wrap o 32)) 0 s
      | none => k s

/-- TLD (R205–R207). -/
def execTld (x : ArgsR) (s : State) : Out :=
  issue (.tld x) s fun s =>
    let w := widthOf x.w
    let sh : Shape := { srcs := [⟨32, x.b.toNat, x.q⟩], dsts := [⟨w, x.d.toNat⟩], reads := [(x.a, x.p)]
                        cross := true, always := true, looks := true }
    vecPre (.tld x) sh s fun s stop =>
    tableChecked x.a x.b (w / 8) stop s fun s =>
    let h := s.hart
    let bank := s.myTile.tcur != (h.rs x.a).getLsbD 12
    let load := fun i z =>
      if h.active i then
        SMap.set 0 z i (putElem (SMap.get 0 z i) w x.d.toNat
          (bytesAt s.myTile.tables (tableKey s bank i (tableOffset s x.a x.b i).toNat) (w / 8)))
      else z
    let h1 := { h with z := foldRange load 0 h.len h.z }
    let h2 := if anyIn h.active 0 h.len then h1.touch (slicesOf w x.d.toNat) h.len else h1
    .ok (enter (sh.uses h) 0 (slicesOf w x.d.toNat) h.len 0 false (consume h.len (boundReads h sh) (s.setHart h2.retire)))

/-- TST (R205–R208). -/
def execTst (x : ArgsR) (s : State) : Out :=
  issue (.tst x) s fun s =>
    let w := widthOf x.w
    let sh : Shape := { srcs := [⟨32, x.b.toNat, x.q⟩, ⟨w, x.d.toNat, false⟩], reads := [(x.a, x.p)]
                        cross := true, always := true, looks := true }
    vecPre (.tst x) sh s fun s stop =>
    tableChecked x.a x.b (w / 8) stop s fun s =>
    let h := s.hart
    let bank := !s.myTile.tcur
    let store := fun i m =>
      if h.active i then
        putBytes m (tableKey s bank i (tableOffset s x.a x.b i).toNat) (w / 8) (readV s ⟨w, x.d.toNat, false⟩ i)
      else m
    let t := s.myTile
    let flip := (h.rs x.a).getLsbD 13
    let s1 := s.setTile (State.tileOf s.cur) { t with tables := foldRange store 0 h.len t.tables
                                                      tcur := if flip then bank else t.tcur }
    .ok (enter (sh.uses h) 0 0 h.len 0 false (consume h.len (boundReads h sh) (s1.setHart s1.hart.retire)))

end Sys2Proof.Machine
end

