-- ==== Sys2Proof/Machine/Narrow.lean ====
section
/-! DEFINITION. Narrow data without the machine: positions and values of codes (R163–R169), the dither hash and the coordinate
tag (R167), view fields and quantisation coordinates (R170–R172), quantising a block (R182). Pure functions. -/

namespace Sys2Proof.Machine
open Sys2Proof

/-! ## Codes, positions, values -/

/-- The position that code n denotes under type ty (R165). -/
def codePos (ty n : Nat) : Int := if ty = 0 then sx n 4 else if n < 8 then (n : Int) else -((n : Int) - 8)

/-- The code of position q under type ty (R165). -/
def posCode (ty : Nat) (q : Int) : Nat := if ty = 0 then wrap q 4 else if q ≥ 0 then q.toNat else (8 - q).toNat

/-- Four times MAG(ty, m) (R166). -/
def mag4 (ty m : Nat) : Nat :=
  (if ty = 1 then [0, 2, 4, 6, 8, 12, 16, 24] else if ty = 2 then [0, 1, 2, 4, 8, 16, 32, 64]
   else [0, 4, 8, 12, 16, 24, 32, 48]).getD m 0

/-- Four times TOP(ty). -/
def top4 (ty : Nat) : Nat := if ty = 0 then 28 else mag4 ty 7

/-- 64 × VAL(ty, p / 16): the port value q12 (R166, R168). -/
def val64 (ty : Nat) (p : Int) : Int :=
  if ty = 0 then 4 * p
  else
    let u := p.natAbs
    let m := min (u / 16) 6
    let v : Nat := 16 * mag4 ty m + (u - 16 * m) * (mag4 ty (m + 1) - mag4 ty m)
    if p ≥ 0 then (v : Int) else -(v : Int)

/-- The greatest m ≤ 6 with MAG(ty, m) × 2^200 ≤ u. -/
def posSegment (ty u : Nat) : Nat → Nat
  | 0 => 0
  | m + 1 => if mag4 ty (m + 1) * 2 ^ 198 ≤ u then m + 1 else posSegment ty u m

/-- 2^200 × POS(ty, v / 2^200) (R166); exact for every value that arises, whose low 20 bits are zero. -/
def posScaled (ty : Nat) (v : Int) : Int :=
  if ty = 0 then v
  else
    let u := v.natAbs
    let m := posSegment ty u 6
    let p : Nat := m * 2 ^ 200 + (u - mag4 ty m * 2 ^ 198) * 4 / (mag4 ty (m + 1) - mag4 ty m)
    if v ≥ 0 then (p : Int) else -(p : Int)

/-! ## The dither hash and the tag (R167) -/

/-- DH(seed, row, col). -/
def ditherHash (seed row col : BitVec 32) : BitVec 32 :=
  let x0 := seed ^^^ (row * 0x6A5D39E3) ^^^ (col * 0xB7F21C95)
  let x1 := (x0 ^^^ (x0 >>> 16)) * 0x2C5F8A77
  let x2 := (x1 ^^^ (x1 >>> 15)) * 0x9D4B61E5
  x2 ^^^ (x2 >>> 16)

/-- 16 × DITHER(seed, row, col), from −8 to 7. -/
def dither16 (seed row col : BitVec 32) : Int := ((ditherHash seed row col >>> 28).toNat : Int) - 8

/-- TAG(seed, row, col). -/
def coordTag (seed row col : BitVec 32) : BitVec 16 :=
  (ditherHash (seed ^^^ 0x5A5A5A5A) row col).extractLsb' 8 16

/-! ## Views (R170–R172) -/

/-- SEED. -/
def vSeed (v : View) : BitVec 32 := v.extractLsb' 0 32
/-- ROW0. -/
def vRow0 (v : View) : BitVec 32 := v.extractLsb' 32 32
/-- COL0. -/
def vCol0 (v : View) : BitVec 32 := v.extractLsb' 64 32
/-- ROWLEN. -/
def vRowlen (v : View) : Nat := (v.extractLsb' 96 31).toNat
/-- TRANS. -/
def vTrans (v : View) : Bool := v.getLsbD 127
/-- HDR[k].SCALE. -/
def vScale (v : View) (k : Nat) : BitVec 8 := v.extractLsb' (128 + 24 * (k % 16)) 8
/-- HDR[k].TAG. -/
def vTag (v : View) (k : Nat) : BitVec 16 := v.extractLsb' (136 + 24 * (k % 16)) 16

/-- The view with w bits from bit lo replaced. -/
def vPut (v : View) (lo w : Nat) (x : Nat) : View :=
  (v &&& ~~~ (BitVec.ofNat 512 ((2 ^ w - 1) * 2 ^ lo))) ||| BitVec.ofNat 512 (x % 2 ^ w * 2 ^ lo)

/-- HDR[k] ← (scale, tag). -/
def vPutHdr (v : View) (k : Nat) (scale : BitVec 8) (tag : BitVec 16) : View :=
  vPut v (128 + 24 * (k % 16)) 24 (scale.toNat + tag.toNat * 256)

/-- QCO(i) (R172). -/
def qco (v : View) (i : Nat) : BitVec 32 × BitVec 32 :=
  let W := vRowlen v
  let a := if W = 0 then 0 else i / W
  let b := if W = 0 then i else i % W
  if vTrans v then (vCol0 v + BitVec.ofNat 32 a, vRow0 v + BitVec.ofNat 32 b)
  else (vRow0 v + BitVec.ofNat 32 a, vCol0 v + BitVec.ofNat 32 b)

/-- QC0 (R172). -/
def qc0 (v : View) : BitVec 32 := if vTrans v then vRow0 v else vCol0 v

/-- The tag of element i's block (R176). -/
def tagAt (v : View) (i : Nat) : BitVec 16 := coordTag (vSeed v) (qco v i).1 (qco v i).2

/-- 16 × the dither of element i. -/
def ditherAt (v : View) (i : Nat) : Int := dither16 (vSeed v) (qco v i).1 (qco v i).2

/-- The port value q12 of a code under a scale byte, at element i of a view (R168, R173). -/
def portOfCode (v : View) (scale : BitVec 8) (code i : Nat) : Int :=
  let ty := scale.toNat / 64
  val64 ty (16 * codePos ty code - ditherAt v i)

/-! ## Described blocks (R163) and quantising (R182) -/

/-- Code j of a block of 64 bytes. -/
def blockCode (blk : BitVec 512) (j : Nat) : Nat := blk.toNat / 2 ^ (32 + 4 * j) % 16

/-- The scale byte of a block. -/
def blockScale (blk : BitVec 512) : BitVec 8 := blk.extractLsb' 8 8

/-- The tag of a block. -/
def blockTag (blk : BitVec 512) : BitVec 16 := blk.extractLsb' 16 16

/-- A block from its scale byte, tag and codes. -/
def makeBlock (scale : BitVec 8) (tag : BitVec 16) (code : Nat → Nat) : BitVec 512 :=
  BitVec.ofNat 512 (foldRange (fun j acc => acc + code j % 16 * 2 ^ (32 + 4 * j)) 0 120
    (0x41 + scale.toNat * 2 ^ 8 + tag.toNat * 2 ^ 16))

/-- An element to be quantised: its exact value as a signed multiple of 2^ex, an infinity, or a NaN. -/
abbrev QVal := FV

/-- The magnitude of a finite value times 2^200. -/
def qMag : QVal → Nat
  | .fin _ m e => m * 2 ^ (e + 200).toNat
  | _ => 0

/-- Is it an infinity? -/
def isInf : QVal → Bool
  | .inf _ => true
  | _ => false

/-- The least e in 0 … 63 with M ≤ TOP(ty) × 2^(e − 32), or 63 (R182): M times 2^200, `inf` when M is infinite. -/
def leastExp (ty M : Nat) (inf : Bool) : Nat :=
  if inf then 63 else (firstIn (fun e => decide (M ≤ top4 ty * 2 ^ (166 + e))) 0 63).getD 63

/-- A real, given as y × 2^−200, rounded to the nearest integer, ties to even. -/
def nearest (y : Int) : Int :=
  let q := y / (2 ^ 200 : Nat)
  let t := y - q * (2 ^ 200 : Nat)
  if 2 * t > (2 ^ 200 : Nat) ∨ (2 * t = (2 ^ 200 : Nat) ∧ q % 2 ≠ 0) then q + 1 else q

/-- The position of one value under type ty, exponent e and 16 × dither, and whether it was clamped (R182). -/
def quantise (ty e : Nat) (d16 : Int) (x : QVal) : Int × Bool :=
  let lo : Int := if ty = 0 then -8 else -7
  match x with
  | .nan _ => let q := nearest (d16 * (2 ^ 196 : Nat)); (max lo (min q 7), false)
  | .inf n => if n then (lo, true) else (7, true)
  | .fin n m ex =>
    let mag : Nat := m * 2 ^ (ex + 232 - e).toNat
    let v : Int := if n then -(mag : Int) else (mag : Int)
    let q := nearest (posScaled ty v + d16 * (2 ^ 196 : Nat))
    (max lo (min q 7), decide (q < lo ∨ q > 7))

/-- A quantised block: its scale byte, tag, 64 bytes, and which of its elements were clamped. -/
structure QBlock where
  scale : BitVec 8
  tag : BitVec 16
  blk : BitVec 512
  clamped : Nat → Bool

/-- Quantises block k of the values x(i) under a view and the type of a header entry (R182). A NaN counts as 0. -/
def quantBlock (v : View) (ty k : Nat) (x : Nat → QVal) : QBlock :=
  let i0 := 120 * k
  let M := foldRange (fun j acc => max acc (qMag (x (i0 + j)))) 0 120 0
  let inf := anyIn (fun j => isInf (x (i0 + j))) 0 120
  let e := leastExp ty M inf
  let one := fun j => quantise ty e (ditherAt v (i0 + j)) (x (i0 + j))
  let scale := BitVec.ofNat 8 (ty * 64 + e)
  let tag := tagAt v i0
  { scale := scale, tag := tag, blk := makeBlock scale tag (fun j => posCode ty (one j).1), clamped := fun j => (one j).2 }

end Sys2Proof.Machine
end

