-- ==== Sys2Proof/Machine/Views.lean ====
section
/-! DEFINITION. Views and narrow blocks on a hart: LDQ (R177–R179), STQ (R180–R183), VIEWLD, VIEWST and VIEWSET (R184–R186), FCVT
with its narrow sources (R130, R131, R187). -/

namespace Sys2Proof.Machine
open Sys2Proof

namespace Hart

/-- VIEW.VSEL (R171). -/
def vsel (h : Hart) : Nat := (h.view.extractLsb' 0 2).toNat
/-- VIEW.HB (R171). -/
def hb (h : Hart) : Nat := (h.view.extractLsb' 2 4).toNat
/-- The active view. -/
def activeView (h : Hart) : View := h.rv h.vsel
/-- The header entry that covers element i: (HB + i div 120) mod 16. -/
def hdrOf (h : Hart) (i : Nat) : Nat := (h.hb + i / 120) % 16

end Hart

/-- PORT(z, i) for a code (R173). -/
def portValue (h : Hart) (code i : Nat) : Int := portOfCode h.activeView (vScale h.activeView (h.hdrOf i)) code i

/-- The exact value of a narrow element (R169, R187). -/
def narrowValue (h : Hart) (code i : Nat) : FV :=
  let q := portValue h code i
  .fin (decide (q < 0)) q.natAbs (((vScale h.activeView (h.hdrOf i)).toNat % 64 : Nat) - 38)

/-- FCVT (R130, R131, R187). -/
def execFcvt (x : ArgsC) (s : State) : Out :=
  issue (.fcvt x) s fun s =>
    if x.f = 3 then
      readScalars [(x.a, x.p)] s fun s => destFree x.d s fun s =>
      let h := s.hart
      let t := ssFmt x.s
      let r := rndV (ssFmt x.w) (rctl h.fctl) (t.val (rctl h.fctl) ((h.rs x.a).toNat % 2 ^ t.w))
      .ok (s.setHart ((h.ws x.d (BitVec.ofNat 64 r.1)).orFlags r.2).retire)
    else
      let w := widthOf x.w
      let nq := x.s == 6
      let ws := if nq then 4 else widthOf x.s
      elementwise (.fcvt x) { srcs := [⟨ws, x.a.toNat, x.p⟩], dsts := [⟨w, x.d.toNat⟩], flags := true } false Hart.active
        (fun s i row =>
          let h := s.hart
          let p := fetch s ⟨ws, x.a.toNat, false⟩ i row
          let t := fmtOf h.fctl w
          let r := if nq then rndV t (rctl h.fctl) (narrowValue h p i)
            else
              let src := fmtOf h.fctl ws
              rndV (if x.s = x.w then otherFmt src else t) (rctl h.fctl) (src.val (rctl h.fctl) p)
          .ok { row := putElem row w x.d.toNat r.1, fl := r.2 }) s

/-! ## LDQ -/

/-- The stride of LDQ and STQ. -/
def blockStride (h : Hart) : Word := if h.vstride = 0 then 64 else h.vstride

/-- The address of the block of element i (a multiple of 120). -/
def blockAddr (h : Hart) (a : BitVec 6) (i : Nat) : Word := h.rs a + BitVec.ofNat 64 (i / 120) * blockStride h

/-- Has the block that begins at element i an active element below VL? -/
def blockActive (h : Hart) (i : Nat) : Bool := i % 120 == 0 && anyIn h.active i (min 120 (h.len - i))

/-- The state after the blocks so far, and the first that fails its format or tag (R176, R179). -/
structure Loaded where
  s : State
  bad : Option (Nat × Nat × Word) := none
  coord : Bool := false

/-- One block of LDQ: format, tag, codes, header (R178). -/
def loadBlock (a d : BitVec 6) (acc : Loaded) (p : Nat × Loc × Bool) : Loaded :=
  match acc.bad with
  | some _ => acc
  | none =>
    let h := acc.s.hart
    let i := p.1
    let blk : BitVec 512 := BitVec.ofNat 512 (loadedValue acc.s 64 p.2.1 p.2.2)
    let v := h.activeView
    let want := tagAt v i
    if blk.extractLsb' 0 8 ≠ 0x41 then { acc with bad := some (i, 0x0D, blockAddr h a i) }
    else if blockTag blk ≠ want ∧ !h.fctl.getLsbD 6 then
      { acc with bad := some (i, 0x0C, (blockTag blk).zeroExtend 64 * 2 ^ 16 + want.zeroExtend 64) }
    else
      let put := fun j z => if h.active j then
        SMap.set 0 z j (putElem (SMap.get 0 z j) 4 d.toNat (blockCode blk (j - i))) else z
      let h1 := { h with z := foldRange put i (min 120 (h.len - i)) h.z }
      let h2 := (h1.wv h.vsel (vPutHdr v (h.hdrOf i) (blockScale blk) (blockTag blk))).touch (slicesOf 4 d.toNat) h.len
      { s := acc.s.setHart h2, bad := none, coord := acc.coord || blockTag blk != want }

/-- LDQ (R177–R179): blocks in increasing k, from the block of EIDX; a stop at a group boundary reads the block around it again. -/
def execLdq (x : ArgsD) (s : State) : Out :=
  issue (.ldq x) s fun s =>
    let sh : Shape := { dsts := [⟨4, x.d.toNat⟩], reads := [(x.a, x.p)], flags := true }
    vecPre (.ldq x) sh s fun s _ =>
    let h := s.hart
    let rl := vRowlen h.activeView
    if rl ≠ 0 ∧ rl % 120 ≠ 0 then .trap 0x0D h.eidx.toNat (BitVec.ofNat 64 rl) 0 s
    else
      let e := h.eidx.toNat / 120 * 120
      let lim := groupEnd s
      let acc : Access := { acc := .read, op := .read, sz := 64, align := 64, idem := true }
      let p := planElems acc h.mspace (blockActive h) (blockAddr h x.a) (fun _ => 0) (fun _ => 0) true e (lim - e)
        ⟨s, [], none, .all⟩
      let run := fun (l : List (Nat × Loc × Bool)) =>
        let r := l.foldl (loadBlock x.a x.d) { s := p.s }
        { r with s := r.s.setHart (if r.coord then r.s.hart.orFlags fCOORD else r.s.hart) }
      match p.end_ with
      | .dead f => .ok (s.killLasting s.cur f)
      | .wait | .turn _ => .wait p.s
      | fin =>
        let i := match fin with | .fail i _ _ _ => i | _ => lim
        match p.late s i, p.pending with
        | some j, _ =>
          let r := run (p.locs.filter (fun l => decide (l.1 < j)))
          let t := fellBack (r.s.tick.clearRequests s.cur)
          match r.bad, fin with
          | some (i, c, v), _ => .trap c i v 0 t
          | none, .fail _ c wl v => .trap c j v wl t
          | none, _ => standAt j t
        | none, some _ => .wait p.s
        | none, none =>
          let r := run p.locs
          let t := cleanEnd r.s
          match r.bad, fin with
          | some (i, c, v), _ => .trap c i v 0 t
          | none, .fail i c wl v => .trap c i v wl t
          | none, _ =>
            if h.eidx.toNat < lim ∧ lim < h.len then standAt lim t
            else .ok (enter (sh.uses h) 0 (slicesOf 4 x.d.toNat) h.len h.eidx.toNat false (t.setHart t.hart.retire))

/-! ## STQ -/

/-- The value of element i that STQ quantises: 0 when inactive or a NaN (R182). -/
def stqValue (s : State) (w : Nat) (d : BitVec 6) (i : Nat) : QVal :=
  let h := s.hart
  if !h.active i then .fin false 0 0
  else match (fmtOf h.fctl w).val (rctl h.fctl) (readV s ⟨w, d.toNat, false⟩ i) with
    | .nan _ => .fin false 0 0
    | v => v

/-- Is element i active and a NaN? -/
def stqNan (s : State) (w : Nat) (d : BitVec 6) (i : Nat) : Bool :=
  let h := s.hart
  h.active i && ((fmtOf h.fctl w).val (rctl h.fctl) (readV s ⟨w, d.toNat, false⟩ i)).isNan

/-- Block k of STQ. -/
def stqBlock (s : State) (w : Nat) (d : BitVec 6) (k : Nat) : QBlock :=
  let h := s.hart
  quantBlock h.activeView ((vScale h.activeView (h.hdrOf (120 * k))).toNat / 64) k (stqValue s w d)

/-- Writes the checked blocks: memory, header entry, mask bits, NV (R182). `s0` is the state at the start. -/
def storeBlocks (s0 : State) (w : Nat) (d : BitVec 6) (l : List (Nat × Loc × Bool)) (s : State) : State :=
  l.foldl (fun st p =>
    let i := p.1
    let b := stqBlock s0 w d (i / 120)
    let st1 := match p.2.1 with
      | .peer _ _ => st
      | loc => st.writeLoc st.cur loc 64 b.blk.toNat p.2.2
    let h := st1.hart
    let sat := foldRange (fun j (m : Mask) =>
      if s0.hart.active (i + j) && (b.clamped j || stqNan s0 w d (i + j)) then setB m (i + j) true else m) 0 120 0
    let nv := anyIn (fun j => stqNan s0 w d (i + j)) 0 120
    st1.setHart (((h.wv h.vsel (vPutHdr h.activeView (h.hdrOf i) b.scale b.tag)).orSat sat).orFlags (if nv then fNV else 0))) s

/-- STQ (R180–R183). A step of a group performs the blocks that lie below its end whole, so that no block is written twice and none after the
saturation bits of its own elements (R12, R93). -/
def execStq (x : ArgsStq) (s : State) : Out :=
  issue (.stq x) s fun s =>
    let w := widthOf x.w
    let sh : Shape := { srcs := [⟨w, x.d.toNat, x.q⟩], reads := [(x.a, x.p)], sats := true, flags := true }
    vecPre (.stq x) sh s fun s stop =>
    let h := s.hart
    let v := h.activeView
    if h.len % 120 ≠ 0 then .trap 0x0D 0 (BitVec.ofNat 64 h.len) 0 s
    else if vRowlen v ≠ 0 ∧ vRowlen v % 120 ≠ 0 then .trap 0x0D 0 (BitVec.ofNat 64 (vRowlen v)) 0 s
    else if (qc0 v).toNat % 120 ≠ 0 then .trap 0x0D 0 ((qc0 v).zeroExtend 64) 0 s
    else
      let hi := groupEnd s
      let s := s.setHart { h with eidx := BitVec.ofNat 11 (h.eidx.toNat / 120 * 120) }
      let lim := match stop with | some p => min p.at_ hi | none => hi
      let acc : Access := { acc := .write, op := .write, sz := 64, align := 64, idem := true, above := false }
      memoryElems acc h.mspace (fun i => blockActive h i && decide (i + 120 ≤ lim)) (blockAddr h x.a)
        (fun i => (stqBlock s w x.d (i / 120)).blk.toNat) (storeBlocks s w x.d) stop hi
        (fun t => .ok (enter (sh.uses h) 0 0 h.len h.eidx.toNat false (consume h.len (boundReads h sh) (t.setHart t.hart.retire)))) s

/-! ## Moving and setting views -/

/-- VIEWLD (R184, R185). -/
def execViewld (x : ArgsD) (s : State) : Out :=
  issue (.viewld x) s fun s =>
    readScalars [(x.a, x.p)] s fun s =>
    oneAccess { acc := .read, op := .read, sz := 64, align := 64 } 0 s.hart.mspace (s.hart.rs x.a) 0 s fun v s =>
    let t := cleanEnd s
    retireOnly (t.setHart (t.hart.wv x.d.toNat (BitVec.ofNat 512 v)))

/-- VIEWST (R184, R185). -/
def execViewst (x : ArgsD) (s : State) : Out :=
  issue (.viewst x) s fun s =>
    readScalars [(x.a, x.p)] s fun s =>
    oneAccess { acc := .write, op := .write, sz := 64, align := 64 } 0 s.hart.mspace (s.hart.rs x.a)
      (s.hart.rv x.d.toNat).toNat s fun _ s => retireOnly (cleanEnd s)

/-- The view after VIEWSET (R186). -/
def viewsetValue (v : View) (sel : Nat) (a : Word) : View :=
  let n := a.toNat
  if sel = 0 then vPut v 0 32 n
  else if sel = 1 then vPut v 32 32 n
  else if sel = 2 then vPut v 64 32 n
  else if sel = 3 then vPut v 96 32 n
  else if sel = 4 then vPut v 32 32 ((vRow0 v).toNat + n)
  else if sel = 5 then vPut v 64 32 ((vCol0 v).toNat + n)
  else vPut v (128 + 24 * (sel - 16)) 24 n

/-- VIEWSET (R186). -/
def execViewset (x : ArgsK) (s : State) : Out :=
  issue (.viewset x) s fun s =>
    readScalars [(x.a, x.p)] s fun s =>
    let h := s.hart
    retireOnly (s.setHart (h.wv x.d.toNat (viewsetValue (h.rv x.d.toNat) x.b.toNat (h.rs x.a))))

end Sys2Proof.Machine
end

