-- ==== Sys2Proof/Machine/Macros.lean ====
section
/-! DEFINITION. Matrix macros and accumulators: claim domains (R242–R245), MCLAIM and MFREE (R246, R247), MLDB (R251, R252),
MMO, MMF and MMI (R253–R256), MRD and MCLR (R257, R258), the replay of a restored macro (R260, R262). -/

namespace Sys2Proof.Machine
open Sys2Proof

/-! ## Claim domains -/

/-- The claim domain of slot k (R242). -/
def State.domain (s : State) (k : Nat) : Nat :=
  2 * State.tileOf k + ((s.tile (State.tileOf k)).split && State.coreOf k).toNat

/-- The slots whose harts reach a domain. -/
def State.domainSlots (s : State) (dom : Nat) : List Nat :=
  let t := dom / 2
  if (s.tile t).split then (List.range 4).map (fun j => 8 * t + 4 * (dom % 2) + j) else (List.range 8).map (fun j => 8 * t + j)

/-- NC, the columns that the hart sees (R242). -/
def State.columns (s : State) (k : Nat) : Nat := 128 * (s.tile (State.tileOf k)).lanes

/-- Key of macro M of a domain. -/
def macKey (dom M : Nat) : Nat := 4 * dom + M
/-- Key of column n of macro M. -/
def colKey (dom M n : Nat) : Nat := macKey dom M * 4096 + n
/-- Key of cell n of accumulator row m. -/
def cellKey (dom m n : Nat) : Nat := (16 * dom + m) * 4096 + n

/-- Is the macro of kind INT8? -/
def State.isInt8 (s : State) (dom M : Nat) : Bool := SMap.get false s.int8 (macKey dom M)

/-- W(M, k, n) (R243). -/
def weight (col : BitVec 1446) (k : Nat) : Int := sx (col.toNat / 2 ^ (12 * k)) 12
/-- XB(M, n). -/
def xbOf (col : BitVec 1446) : Nat := (col.extractLsb' 1440 6).toNat

/-- Zeroes a macro: weights, exponents, kind. -/
def zeroMacro (dom M : Nat) (s : State) : State :=
  { s with cols := s.cols.filter (fun e => e.1 / 4096 != macKey dom M), int8 := SMap.del s.int8 (macKey dom M) }

/-- Zeroes an accumulator row: cells and SAT. -/
def zeroRow (dom m : Nat) (s : State) : State :=
  { s with cells := s.cells.filter (fun e => e.1 / 4096 != 16 * dom + m) }

/-! ## Claiming and freeing -/

/-- The macros that a request word names. -/
def reqMacros (v : Word) : BitVec 4 := v.extractLsb' 0 4
/-- The rows that a request word names. -/
def reqRows (v : Word) : BitVec 16 := v.extractLsb' 16 16

/-- A request word from macros and rows. -/
def requestWord (mac : BitVec 4) (rows : BitVec 16) : Word := mac.zeroExtend 64 + rows.zeroExtend 64 * 2 ^ 16

/-- Ones in a bit vector. -/
def ones {n : Nat} (v : BitVec n) : Nat := foldRange (fun i acc => acc + (v.getLsbD i).toNat) 0 n 0

/-- Macros and rows that the harts of context c hold in a domain. -/
def State.held' (s : State) (dom : Nat) (c : BitVec 6) : Nat × Nat :=
  (s.domainSlots dom).foldl (fun acc k =>
    if s.occupied k && s.ctxOf k == c then
      (acc.1 + ones (s.slot k).hart.macfg.mcl, acc.2 + ones (s.slot k).hart.macfg.acl)
    else acc) (0, 0)

/-- Units of a domain held by harts other than slot k's. -/
def State.othersHold (s : State) (dom k : Nat) : BitVec 4 × BitVec 16 :=
  (s.domainSlots dom).foldl (fun acc j =>
    if j = k then acc else (acc.1 ||| (s.slot j).hart.macfg.mcl, acc.2 ||| (s.slot j).hart.macfg.acl)) (0, 0)

/-- QMAC and QACC of a context (R245). -/
def macQuota (c : Ctx) : Nat × Nat := (min 4 (c.qmac.extractLsb' 0 3).toNat, min 16 (c.qmac.extractLsb' 3 5).toNat)

/-- The status of a claim by slot k of units that it does not hold (R246). -/
def claimStatus (s : State) (k : Nat) (mac : BitVec 4) (rows : BitVec 16) : Nat :=
  let dom := s.domain k
  let have_ := s.held' dom (s.ctxOf k)
  let q := macQuota (s.ctx (s.ctxOf k))
  let o := s.othersHold dom k
  if have_.1 + ones mac > q.1 ∨ have_.2 + ones rows > q.2 then 1
  else if mac &&& o.1 ≠ 0 then 2
  else if rows &&& o.2 ≠ 0 then 3
  else 0

/-- Grants units to slot k, zeroed (R246). -/
def grantUnits (k : Nat) (mac : BitVec 4) (rows : BitVec 16) (s : State) : State :=
  let dom := s.domain k
  let s1 := foldRange (fun M st => if mac.getLsbD M then zeroMacro dom M st else st) 0 4 s
  let s2 := foldRange (fun m st => if rows.getLsbD m then zeroRow dom m st else st) 0 16 s1
  let h := (s2.slot k).hart
  s2.setHartOf k { h with macfg := { h.macfg with mcl := h.macfg.mcl ||| mac, acl := h.macfg.acl ||| rows }
                          replay := h.replay.filter (fun r => !mac.getLsbD r.1) }

/-- MCLAIM (R246). -/
def execMclaim (x : ArgsD) (s : State) : Out :=
  issue (.mclaim x) s fun s =>
    readScalars [(x.a, x.p)] s fun s => destFree x.d s fun s =>
    let h := s.hart
    let mac := reqMacros (h.rs x.a) &&& ~~~ h.macfg.mcl
    let rows := reqRows (h.rs x.a) &&& ~~~ h.macfg.acl
    let st := claimStatus s s.cur mac rows
    writeRetire x.d (BitVec.ofNat 64 st) (if st = 0 then grantUnits s.cur mac rows s else s)

/-- MFREE (R247). -/
def execMfree (x : ArgsS) (s : State) : Out :=
  issue (.mfree x) s fun s =>
    readScalars [(x.a, x.p)] s fun s => drained s fun s =>
    let h := s.hart
    let mac := reqMacros (h.rs x.a)
    let h1 := { h with macfg := { h.macfg with mcl := h.macfg.mcl &&& ~~~ mac, acl := h.macfg.acl &&& ~~~ reqRows (h.rs x.a) }
                       replay := h.replay.filter (fun r => !mac.getLsbD r.1)
                       replaying := h.replaying &&& ~~~ mac }
    .ok (s.setHart h1.retire)

/-! ## What every matrix instruction checks (R249, R250, R262) -/

/-- The macros and rows of `mac` and `rows` that the hart does not hold. -/
def notHeld (h : Hart) (mac : BitVec 4) (rows : BitVec 16) : BitVec 4 × BitVec 16 :=
  (mac &&& ~~~ h.macfg.mcl, rows &&& ~~~ h.macfg.acl)

/-- Waits for a replay, then takes the lowest macro's replay fault, then check 1 of R250. An instruction with VL = 0 has retired before it comes
here, and leaves the replay and its fault to the next (R249, log 122). -/
def matrixHeld (mac : BitVec 4) (rows : BitVec 16) (s : State) (k : State → Res) : Res :=
  let h := s.hart
  if h.replaying ≠ 0 then .wait s
  else match h.macroFault with
    | (_, c, v) :: rest => .trap c.toNat 0 v 0 (s.setHart { h with macroFault := rest })
    | [] =>
      let n := notHeld h mac rows
      if n.1 ≠ 0 ∨ n.2 ≠ 0 then .trap 0x16 0 (requestWord n.1 n.2) 0 s else k s

/-- Check 2 of R250. -/
def matrixKind (mac : BitVec 4) (int8 : Bool) (s : State) (k : State → Res) : Res :=
  if anyIn (fun M => mac.getLsbD M && s.isInt8 (s.domain s.cur) M != int8) 0 4 then
    .trap 0x0D 0 (mac.zeroExtend 64) 0 s
  else k s

/-- A stream read of a matrix instruction that stops: nothing is performed (R232, R233). -/
def matrixStream (stop : Option Stop) (s : State) (k : State → Res) : Res :=
  match stop with
  | some p => p.res 0 s
  | none => k s

/-! ## MLDB -/

/-- What an MLDB loads from (R251, R260). -/
structure MacroLoad where
  base : Word
  stride : Word
  space : BitVec 2
  nc : Nat
  int8 : Bool
  cca : Bool
  view : View

/-- The 64-byte replay record (R260); its layout is the model's own (log 29). -/
def MacroLoad.record (m : MacroLoad) : BitVec 512 :=
  BitVec.ofNat 512 (m.base.toNat + m.stride.toNat * 2 ^ 64 + m.nc % 2 ^ 16 * 2 ^ 128 + m.space.toNat * 2 ^ 144 +
    m.int8.toNat * 2 ^ 146 + m.cca.toNat * 2 ^ 147 + (m.view.toNat % 2 ^ 128) * 2 ^ 256)

/-- What a replay record holds. -/
def replayOf (r : BitVec 512) : MacroLoad :=
  { base := r.extractLsb' 0 64, stride := r.extractLsb' 64 64, nc := (r.extractLsb' 128 16).toNat
    space := r.extractLsb' 144 2, int8 := r.getLsbD 146, cca := r.getLsbD 147, view := (r.extractLsb' 256 128).zeroExtend 512 }

/-- The address of column n. -/
def MacroLoad.addr (m : MacroLoad) (n : Nat) : Word := m.base + BitVec.ofNat 64 n * m.stride

/-- A NARROW column from its block (R251). -/
def narrowColumn (m : MacroLoad) (n : Nat) (blk : BitVec 512) : BitVec 1446 :=
  let scale := blockScale blk
  BitVec.ofNat 1446 (foldRange (fun k acc =>
    acc + wrap (portOfCode m.view scale (blockCode blk k) (120 * n + k)) 12 * 2 ^ (12 * k)) 0 120
    (scale.toNat % 64 * 2 ^ 1440))

/-- An INT8 column from its 128 bytes. -/
def int8Column (rec : Nat) : BitVec 1446 :=
  BitVec.ofNat 1446 (foldRange (fun k acc => acc + wrap (sx (rec / 2 ^ (8 * k)) 8) 12 * 2 ^ (12 * k)) 0 120 0)

/-- What loading columns has come to: the state, a mismatch allowed by CCA, and the stop. -/
inductive ColumnStop where
  | fault (n cause wlvl : Nat) (v : Word)
  | wait
  | dead (fn : Nat)

/-- The columns so far. -/
structure Columns where
  s : State
  coord : Bool := false
  stop : Option ColumnStop := none

/-- Loads column n of macro M for slot k (R251, R252). DESIGN CHOICE (log 120): of an INT8 record's two halves of 64 bytes the first is checked
whole before the second. -/
def loadColumn (k dom M : Nat) (m : MacroLoad) (n : Nat) (a : Columns) : Columns :=
  match a.stop with
  | some _ => a
  | none =>
    let addr := m.addr n
    let chk := fun (v : Word) => a.s.checkSpace k m.space v.toNat .read 64 64 true
    let second := if m.int8 then chk (addr + 64) else chk addr
    match chk addr, second with
    | .bad c wl, _ => { a with stop := some (.fault n c wl addr) }
    | .wait, _ => { a with stop := some .wait }
    | .dead f, _ => { a with stop := some (.dead f) }
    | .go _ _, .bad c wl => { a with stop := some (.fault n c wl addr) }
    | .go _ _, .wait => { a with stop := some .wait }
    | .go _ _, .dead f => { a with stop := some (.dead f) }
    | .go loc _, .go loc2 _ =>
      if m.int8 then
        let rec_ := a.s.readLoc k loc 64 + a.s.readLoc k loc2 64 * 2 ^ 512
        { a with s := { a.s with cols := SMap.set 0 a.s.cols (colKey dom M n) (int8Column rec_) } }
      else
        let blk : BitVec 512 := BitVec.ofNat 512 (a.s.readLoc k loc 64)
        let want := tagAt m.view (120 * n)
        if blk.extractLsb' 0 8 ≠ 0x41 then { a with stop := some (.fault n 0x0D 0 addr) }
        else if blockTag blk ≠ want ∧ !m.cca then
          { a with stop := some (.fault n 0x0C 0 ((blockTag blk).zeroExtend 64 * 2 ^ 16 + want.zeroExtend 64)) }
        else
          { a with s := { a.s with cols := SMap.set 0 a.s.cols (colKey dom M n) (narrowColumn m n blk) }
                   coord := a.coord || blockTag blk != want }

/-- A load that stopped at column n: the columns from n up that can be read have been loaded or not, chosen freely (R252, log 82). -/
def columnsAbove (k dom M : Nat) (m : MacroLoad) (n : Nat) (s : State) : State :=
  (foldRange (fun j t =>
    if Config.columnLoaded (s.fresh * 4096 + j) then (loadColumn k dom M { m with cca := true } j { s := t }).s else t) n (m.nc - n) s).tick

/-- After the last column: the columns from nc up are zero, and the macro has its kind (R251). -/
def finishMacro (dom M : Nat) (m : MacroLoad) (s : State) : State :=
  { s with cols := s.cols.filter (fun e => !(e.1 / 4096 == macKey dom M && decide (m.nc ≤ e.1 % 4096)))
           int8 := SMap.set false s.int8 (macKey dom M) m.int8 }

/-- The lowest column below a stop at n, from column e, whose reply ABANDONMENT gives up (R348, log 112). -/
def lateColumn (s : State) (e n : Nat) : Option Nat :=
  let j := e + Config.lateElem s.fresh % (n - e + 1)
  if s.sched.abandons ∧ j < n then some j else none

/-- MLDB and MLDB.I8 (R251, R252, R260); one column a step while `sched.grouped`, so that a pre-emption stops it at a column as R347 says,
although R261 makes a pre-emption wait for a matrix instruction (log 113). -/
def macroLoad (i : Instr) (int8 : Bool) (x : ArgsMldb) (s : State) : Out :=
  issue i s fun s =>
    let mac : BitVec 4 := BitVec.twoPow 4 x.m.toNat
    vecPre i { reads := [(x.a, x.p), (x.b, x.q)], guarded := false, cross := true, whole := true } s fun s _ =>
    matrixHeld mac 0 s fun s =>
    let h := s.hart
    let base := h.rs x.a
    let nc := (h.rs x.b).toNat
    let rl := vRowlen h.activeView
    if h.mspace = 0 then .trap 0x07 0 base 0 s
    else if nc > s.columns s.cur then .trap 0x04 0 (h.rs x.b) 0 s
    else if !int8 ∧ rl ≠ 0 ∧ rl % 120 ≠ 0 then .trap 0x0D 0 (BitVec.ofNat 64 rl) 0 s
    else
      let M := x.m.toNat
      let dom := s.domain s.cur
      let stride : Word := if h.vstride = 0 then (if int8 then 128 else 64) else h.vstride
      let ld : MacroLoad :=
        { base, stride, space := h.mspace, nc, int8, cca := h.fctl.getLsbD 6, view := h.activeView }
      let saved : MacroLoad :=
        if h.mspace = 2 then { ld with base := base + BitVec.ofNat 64 (State.tileOf s.cur * 2 ^ 21), space := 1 } else ld
      let s1 := s.setHart { h with replay := SMap.put h.replay M saved.record }
      let e := h.eidx.toNat
      let hi := if s.sched.grouped ∧ e + 1 < 2048 then min nc (e + 1) else nc
      let r := foldRange (loadColumn s.cur dom M ld) e (hi - e) { s := s1 }
      let coordIn := fun (a : Columns) (t : State) => if a.coord then t.setHart (t.hart.orFlags fCOORD) else t
      let flag := coordIn r
      let fallback := fun (j : Nat) =>
        let a := foldRange (loadColumn s.cur dom M ld) e (j - e) { s := s1 }
        fellBack (coordIn a (columnsAbove s.cur dom M ld j a.s))
      match r.stop with
      | some (.fault n c wl v) =>
        (match lateColumn s e n with
        | some j => .trap c j v wl (fallback j)
        | none => .trap c n v wl (flag (columnsAbove s.cur dom M ld n r.s)))
      | some .wait => .wait s
      | some (.dead f) => .ok (s.killLasting s.cur f)
      | none =>
        match lateColumn s e hi with
        | some j => standAt j (fallback j)
        | none =>
        if hi < nc then standAt hi (flag r.s)
        else
          let t := flag (finishMacro dom M ld r.s)
          .ok (t.setHart t.hart.retire)

/-- MLDB (R251). -/
def execMldb (x : ArgsMldb) (s : State) : Out := macroLoad (.mldb x) false x s

/-- MLDB.I8 (R251). -/
def execMldbI8 (x : ArgsMldb) (s : State) : Out := macroLoad (.mldbI8 x) true x s

/-- MACRO_REPLAY (R262): a restored macro's record is replayed as an MLDB from column 0 under the recorded fields; a fault
zeroes the macro and waits for the hart's next matrix instruction. More columns than the domain has is such a fault (R251). A tag that
mismatches under the recorded CCA leaves COORD of the restored hart alone (log 121). -/
def execMacroReplay (slot mac : Nat) (s : State) : Out :=
  let h := (s.slot slot).hart
  if mac ≥ 4 ∨ !h.replaying.getLsbD mac then .next s
  else
    let done := fun (t : State) (bad : Option (BitVec 8 × Word)) =>
      let h := (t.slot slot).hart
      t.setHartOf slot { h with replaying := setB h.replaying mac false
                                macroFault := match bad with | some f => SMap.put h.macroFault mac f | none => h.macroFault }
    match SMap.find? h.replay mac with
    | none => .next (done s none)
    | some r =>
      let m := replayOf r
      let dom := s.domain slot
      let wide := decide (s.columns slot < m.nc)
      let a := foldRange (loadColumn slot dom mac m) 0 (if wide then 0 else m.nc) { s := s }
      if wide then .next (done (zeroMacro dom mac s) (some (0x04, BitVec.ofNat 64 m.nc)))
      else match a.stop with
      | none => .next (done (finishMacro dom mac m a.s) none)
      | some (.fault _ c _ v) => .next (done (zeroMacro dom mac s) (some (BitVec.ofNat 8 c, v)))
      | some .wait => .next s
      | some (.dead f) => .next (s.killLasting slot f)

/-! ## Multiplying (R253–R255) -/

/-- The k-th named macro in ascending number. -/
def namedMacro (mask : BitVec 4) (k : Nat) : Nat := (((List.range 4).filter mask.getLsbD).getD k 0)

/-- a(i) of R254. -/
def aOperand (s : State) (int8 : Bool) (a : BitVec 6) (i : Nat) : Int :=
  let h := s.hart
  if !h.active i then 0
  else if int8 then sx (readV s ⟨8, a.toNat, false⟩ i) 8
  else portValue h (readV s ⟨4, a.toNat, false⟩ i) i

/-- S(k, n) (R254) for the A values of block k. -/
def dot (as : List Int) (col : BitVec 1446) : Int := ((as.zipIdx).map (fun p => p.1 * weight col p.2)).sum

/-- The A values of block k: 120 integers. -/
def aBlock (s : State) (int8 : Bool) (a : BitVec 6) (k : Nat) : List Int :=
  (List.range 120).map (fun j => aOperand s int8 a (120 * k + j))

/-- One block of a multiplication: its A values, its macro, its exponent XA. -/
structure Block where
  as : List Int
  M : Nat
  xa : Nat

/-- The blocks k < nb of a multiplication. -/
def blocksOf (s : State) (int8 : Bool) (x : ArgsMm) : List Block :=
  let h := s.hart
  (List.range (ceilDiv h.len 120)).map (fun k =>
    { as := aBlock s int8 x.a k, M := namedMacro x.k k, xa := (vScale h.activeView (h.hb + k)).toNat % 64 })

/-- Rk,n (R254): an exact value. -/
def blockResult (s : State) (dom n : Nat) (b : Block) : FV :=
  let col := SMap.get 0 s.cols (colKey dom b.M n)
  let v := dot b.as col
  .fin (decide (v < 0)) v.natAbs ((b.xa : Int) + xbOf col - 76)

/-- A cell's low 32 bits as FP32. -/
def cellFloat (c : RCtl) (cell : BitVec 49) : FV := fp32.val c (cell.toNat % 2 ^ 32)

/-- A cell that holds an FP32 pattern; SAT is kept. -/
def floatCell (old : BitVec 49) (p : Nat) : BitVec 49 := BitVec.ofNat 49 (p + old.toNat / 2 ^ 48 * 2 ^ 48)

/-- MMO on one cell: one rounding a block, in order (R255). -/
def mmoCell (c : RCtl) (cell : BitVec 49) (rs : List FV) : BitVec 49 × Flags :=
  let r := rs.foldl (fun (acc : FV × Nat × Flags) y =>
    let p := addV fp32 c acc.1 y
    (fp32.val c p.1, p.1, acc.2.2 ||| p.2)) (cellFloat c cell, cell.toNat % 2 ^ 32, 0)
  (floatCell cell r.2.1, r.2.2)

/-- The exact sum of finite values. -/
def exactTotal (rs : List FV) : FV :=
  let lo : Int := -76
  let terms : List Int := rs.map (fun v => match v with | .fin n m e => scaled n m e lo | _ => 0)
  let t := terms.sum
  .fin (decide (t < 0)) t.natAbs lo

/-- MMF on one cell: one rounding of the exact sum (R255). -/
def mmfCell (c : RCtl) (cell : BitVec 49) (rs : List FV) : BitVec 49 × Flags :=
  let p := addV fp32 c (cellFloat c cell) (exactTotal rs)
  (floatCell cell p.1, p.2)

/-- The columns of the domain whose cell can change: those with a listed cell of the row, or with a listed column of a macro
in use. In every other column the cell and the weights are zero, and it stays zero. -/
def liveColumns (s : State) (dom d : Nat) (ms : List Nat) : List Nat :=
  let a := s.cells.filterMap (fun e => if e.1 / 4096 == 16 * dom + d then some (e.1 % 4096) else none)
  let b := s.cols.filterMap (fun e => if ms.any (fun M => e.1 / 4096 == macKey dom M) then some (e.1 % 4096) else none)
  ((a ++ b).foldl (fun (m : SMap Unit) n => SMap.put m n ()) []).map (·.1)

/-- The frame of MMO, MMF and MMI (R249, R250, R253). -/
def multiply (i : Instr) (int8 : Bool) (x : ArgsMm) (f : State → List Block → State) (s : State) : Out :=
  issue i s fun s =>
    let sh : Shape := { srcs := [⟨if int8 then 8 else 4, x.a.toNat, x.p⟩], cross := true, flags := !int8, looks := true }
    vecPre i sh s fun s stop =>
    matrixHeld x.k (BitVec.twoPow 16 x.d.toNat) s fun s =>
    matrixKind x.k int8 s fun s =>
    let h := s.hart
    if ceilDiv h.len 120 > ones x.k then .trap 0x04 0 (BitVec.ofNat 64 h.len) 0 s
    else matrixStream stop s fun s =>
      let t := f s (blocksOf s int8 x)
      .ok (enter (sh.uses h) 0 0 h.len h.len true (consume h.len (boundReads h sh) (t.setHart t.hart.retire)))

/-- MMO and MMF: every column's cell by `cell`, flags ORed (R255). -/
def floatMultiply (d : BitVec 6) (cell : RCtl → BitVec 49 → List FV → BitVec 49 × Flags) (s : State) (bs : List Block) :
    State :=
  let dom := s.domain s.cur
  let c := rctl s.hart.fctl
  let r := (liveColumns s dom d.toNat (bs.map (·.M))).foldl (fun (acc : SMap (BitVec 49) × Flags) n =>
    let key := cellKey dom d.toNat n
    let v := cell c (SMap.get 0 acc.1 key) (bs.map (blockResult s dom n))
    (SMap.set 0 acc.1 key v.1, acc.2 ||| v.2)) (s.cells, 0)
  let t : State := { s with cells := r.1 }
  t.setHart (t.hart.orFlags r.2)

/-- MMO (R255). -/
def execMmo (x : ArgsMm) (s : State) : Out := multiply (.mmo x) false x (floatMultiply x.d mmoCell) s

/-- MMF (R255). -/
def execMmf (x : ArgsMm) (s : State) : Out := multiply (.mmf x) false x (floatMultiply x.d mmfCell) s

/-- MMI's cells: 48-bit saturating sums, SAT and ISAT sticky (R255). -/
def intMultiply (d : BitVec 6) (s : State) (bs : List Block) : State :=
  let dom := s.domain s.cur
  let r := (liveColumns s dom d.toNat (bs.map (·.M))).foldl (fun (acc : SMap (BitVec 49) × Bool) n =>
    let key := cellKey dom d.toNat n
    let old := SMap.get 0 acc.1 key
    let sums := bs.map (fun b => dot b.as (SMap.get 0 s.cols (colKey dom b.M n)))
    let v := sats (sx old.toNat 48 + sums.sum) 48
    (SMap.set 0 acc.1 key (BitVec.ofNat 49 (wrap v.1 48 + (v.2 || old.getLsbD 48).toNat * 2 ^ 48)), acc.2 || v.2)) (s.cells, false)
  let t : State := { s with cells := r.1 }
  let h := t.hart
  t.setHart { h with macfg := { h.macfg with isat := h.macfg.isat || r.2 } }

/-- MMI (R255). -/
def execMmi (x : ArgsMm) (s : State) : Out := multiply (.mmi x) true x (intMultiply x.d) s

/-- Is the hart's oldest matrix instruction a multiplication that may read its A: every earlier writer of it has passed (R88, R89)? -/
def firstBroadcast (pre : List Inflight) : List Inflight → Bool
  | [] => false
  | f :: t => if f.matrix then f.broadcast && pre.all (fun i => i.lets f) else firstBroadcast (pre ++ [f]) t

/-- A_BROADCAST (R256): the domain of core A or B of a tile runs one ready broadcast, chosen in round-robin order of slot
number, and that instruction completes; a hart's matrix instructions complete in program order (R326). -/
def execABroadcast (tile : Nat) (core : Bool) (s : State) : Out :=
  let dom := 2 * tile + ((s.tile tile).split && core).toNat
  let start := SMap.get 0 s.bcast dom
  let ready := fun k => firstBroadcast [] (s.slot k).hart.inflight
  let order := (List.range 8).map (fun j => 8 * tile + (start + j) % 8)
  match order.find? (fun k => (s.domainSlots dom).contains k && ready k) with
  | none => .next s
  | some k =>
    let h := (s.slot k).hart
    let t := s.setHartOf k { h with inflight := h.inflight.eraseP Inflight.broadcast }
    .next { t with bcast := SMap.set 0 t.bcast dom ((k + 1) % 8) }

/-! ## Reading out and clearing -/

/-- The destination width of MRD (R257). -/
def mrdWidth (f : BitVec 2) : Nat := if f = 1 then 16 else if f = 3 then 64 else 32

/-- One element of MRD: its pattern, whether its VSATM bit is set, flags. -/
def mrdElem (h : Hart) (f : BitVec 2) (cell : BitVec 49) : Nat × Bool × Flags :=
  let c := rctl h.fctl
  if f = 0 then (cell.toNat % 2 ^ 32, false, 0)
  else if f = 1 then
    let r := rndV (fmtOf h.fctl 16) c (cellFloat c cell)
    (r.1, false, r.2)
  else if f = 2 then
    let v := sats (sx cell.toNat 48) 32
    (wrap v.1 32, v.2 || cell.getLsbD 48, 0)
  else (wrap (sx cell.toNat 48) 64, cell.getLsbD 48, 0)

/-- MRD (R257). -/
def execMrd (x : ArgsMrd) (s : State) : Out :=
  issue (.mrd x) s fun s =>
    let w := mrdWidth x.f
    let sh : Shape := { dsts := [⟨w, x.d.toNat⟩], reads := [(x.a, x.p)], cross := true, sats := true, flags := true }
    vecPre (.mrd x) sh s fun s _ =>
    matrixHeld 0 (BitVec.twoPow 16 x.r.toNat) s fun s =>
    let h := s.hart
    let c0 := (h.rs x.a).toNat
    if c0 + h.len > s.columns s.cur then .trap 0x04 0 (h.rs x.a) 0 s
    else
      let dom := s.domain s.cur
      let r := (runElems h.active (fun i row =>
        let v := mrdElem h x.f (SMap.get 0 s.cells (cellKey dom x.r.toNat (c0 + i)))
        .ok { row := putElem row w x.d.toNat v.1, sat := v.2.1, fl := v.2.2 }) 0 h.len { z := h.z, bits := 0 }).1
      let h1 := h.settle { dsts := [⟨w, x.d.toNat⟩] } r
      .ok (enter (sh.uses h) 0 (slicesOf w x.d.toNat) h.len 0 true (s.setHart h1.retire))

/-- MCLR (R258). -/
def execMclr (x : ArgsS) (s : State) : Out :=
  issue (.mclr x) s fun s =>
    vecPre (.mclr x) { reads := [(x.a, x.p)], guarded := false, cross := true, whole := true } s fun s _ =>
    let rows := reqRows (s.hart.rs x.a)
    matrixHeld 0 rows s fun s =>
    let dom := s.domain s.cur
    let t := foldRange (fun m st => if rows.getLsbD m then zeroRow dom m st else st) 0 16 s
    .ok (t.setHart t.hart.retire)

end Sys2Proof.Machine
end

