-- ==== Sys2Proof/Machine/Fetch.lean ====
section
/-! DEFINITION. Fetching an instruction word (R15, R16), and ABANDONMENT, which runs the stopped instruction at the PC (R348). -/

namespace Sys2Proof.Machine
open Sys2Proof

/-- What a fetch comes to: the word, or a trap, a wait or a kill before the word is decoded. -/
inductive Fetched where
  | word (w : IWord) (s : State)
  | stop (r : Res)

/-- The number by which the fetch of a slot waits for a reply. -/
def fetchWaiter (k : Nat) : Waiter := .elem k State.fetchIndex

/-- The fetch of the executing hart: the word of the instruction in progress (R17), or of the oldest one that has been dispatched (R147),
else from device-virtual space with the checks of R16, the word at its home or in its copy (log 4). A request that has been sent stands as it was translated (R310). -/
def fetchWord (s : State) : Fetched :=
  let pc := s.hart.pc
  match s.hart.word with
  | some w => .word w.1 s
  | none =>
  match s.hart.queue with
  | q :: _ => .word q.word s
  | [] =>
  match s.requestOf (fetchWaiter s.cur) with
  | some r =>
    let t := { s with net := { s.net with reqs := s.net.reqs.filter (fun q => q.who != fetchWaiter s.cur) } }
    match r.answer with
    | .none => .stop (.wait s)
    | .refused => .stop (.trap 0x15 0 pc 0 t)
    | .data n => .word (BitVec.ofNat 32 n) t
  | none =>
  match s.checkVirtual (State.tileOf s.cur) s.ctxid pc.toNat .fetch 4 4 true with
  | .bad cause wl => .stop (.trap cause 0 pc wl s)
  | .wait => .stop (.wait (s.noteSpace s.cur 0 pc.toNat))
  | .dead f => .stop (.ok (s.killLasting s.cur f))
  | .go (.peer p pa) dev => .stop (.wait (s.sendRequest (fetchWaiter s.cur) s.ctxid p .read pa 4 0 0 dev pc))
  | .go loc _ => .word (BitVec.ofNat 32 (s.fetchLoc s.cur loc 4)) s

/-- LD, ST, LDQ and STQ over elements and MLDB, run by the executing hart; nothing for any other instruction (R348). -/
def rerun (i : Instr) (s : State) : Option Out :=
  match i with
  | .ld x => if x.m = 2 then none else some (execLd x s)
  | .st x => if x.m = 2 then none else some (execSt x s)
  | .ldq x => some (execLdq x s)
  | .stq x => some (execStq x s)
  | .mldb x => some (execMldb x s)
  | .mldbI8 x => some (execMldbI8 x s)
  | _ => none

/-- A slot run by STEP asks for a halt again once its instruction has retired or trapped (R356). -/
def stepHalt (old s : State) : State :=
  let k := old.cur
  let v := s.slot k
  let h := (old.slot k).hart
  if (old.slot k).step && v.step && (v.hart.instret != h.instret || v.hart.tlvl != h.tlvl) then
    s.setSlot k { v with halt := true, busy := true, step := false }
  else s

/-- Has the instruction of slot k stopped between s and t with late replies given up: by a trap or a kill, or, asked to stop after it had begun,
where it fell back (R348)? -/
def gaveUp (k : Nat) (s t : State) : Bool :=
  let g := (t.slot k).hart
  if !t.occupied k then true
  else if g.tlvl != (s.slot k).hart.tlvl then (g.bank g.tlvl.toNat).abnd
  else (s.slot k).stopDue && (s.slot k).hart.word.isSome && g.abnd

/-- ABANDONMENT (R348): the LD, ST, LDQ, STQ or MLDB of the slot comes to a stop, and replies that it still waits for are abandoned: its
EIDX falls back. A stop is a failing element, or a requested pre-emption or halt; without one, or with nothing to abandon, nothing happens. -/
def execAbandonment (slot : Nat) (s : State) : Out :=
  let v := s.slot slot
  if !(v.state == .running || v.state == .waiting) || v.yielded || v.ending || v.hart.pendCr.isSome || !s.fnReady (State.tileOf slot) then .next s
  else
    let t : State := { s with cur := slot, sched := { s.sched with abandons := true } }
    match fetchWord t with
    | .stop _ => .next s
    | .word w t1 =>
      match decode w with
      | .error _ => .next s
      | .ok i =>
        match rerun i t1 with
        | some (.next u) =>
          .next (if gaveUp slot s u then { (stepHalt t (u.dropEarly slot)) with cur := s.cur, sched := s.sched } else s)
        | _ => .next s

end Sys2Proof.Machine
end

