-- ==== Sys2Proof/Machine/Entries.lean ====
section
/-! DEFINITION. The instructions of the dispatch queue (R147, R148): which scalar operands each reads at dispatch, and which scalar
destination it marks empty there. -/

namespace Sys2Proof.Machine
open Sys2Proof

/-- A format A scalar operand b, in every form but SS; an SS instruction runs on the scalar side. -/
def formB (f : BitVec 2) (b : BitVec 6) (q : Bool) : Option (List (BitVec 6 × Bool)) :=
  if f = 3 then none else if f = 1 then some [(b, q)] else some []

/-- A unary or conversion form, which reads no scalar unless it is SS. -/
def formU (f : BitVec 2) : Option (List (BitVec 6 × Bool)) := if f = 3 then none else some []

/-- The scalar operands that an instruction of the dispatch queue reads at dispatch (R147, R148), with their policy bits in the order in which
they are read. None for the instructions of the scalar side. -/
def dispatchReads : Instr → Option (List (BitVec 6 × Bool))
  | .add x | .sub x | .adds x | .addsu x | .subs x | .subsu x | .mul x | .mulh x | .mulhu x | .mac x | .div x | .divu x
  | .rem x | .remu x | .min x | .minu x | .max x | .maxu x | .wadd x | .waddu x | .wmul x | .wmulu x | .wmac x
  | .wmacu x | .narrow x | .narrowu x | .and x | .or x | .xor x | .andn x | .sll x | .srl x | .sra x | .rotr x
  | .cmpeq x | .cmpne x | .cmplt x | .cmpltu x | .cmple x | .cmpleu x | .sel x | .fadd x | .fsub x | .fmul x | .fma x
  | .fms x | .fnma x | .fdiv x | .fmin x | .fmax x | .fcmpeq x | .fcmplt x | .fcmple x | .slideup x | .slidedn x =>
    formB x.f x.b x.q
  | .abs x | .neg x | .popc x | .clz x | .fsqrt x | .frsq x | .fexp2 x | .flog2 x | .fabs x | .fneg x | .fclass x => formU x.f
  | .mov x | .iota x => formB x.f x.b x.q
  | .sext x | .zext x | .fcvt x | .fcvti x | .fcvtf x => formU x.f
  | .rsum x | .rmin x | .rminu x | .rmax x | .rmaxu x | .rand x | .ror x | .rxor x | .frsum x | .frmin x | .frmax x
  | .scan x | .fscan x => some [(x.b, x.q)]
  | .perm _ | .compress _ | .expand _ | .nzscan _ | .mfrom _ | .mto _ | .mcnt _ | .mfirst _ => some []
  | .mlogAnd _ | .mlogOr _ | .mlogXor _ | .mlogAndn _ | .mlogNot _ | .mlogCopy _ | .mlogSet _ | .mlogClr _ => some []
  | .ld x => some [(x.a, x.p)]
  | .st x => some (if x.m = 2 then [(x.a, x.p), (x.d, x.q)] else [(x.a, x.p)])
  | .ldq x | .viewld x | .viewst x => some [(x.a, x.p)]
  | .stq x => some [(x.a, x.p)]
  | .tld x | .tst x => some [(x.a, x.p)]
  | .viewset x => some [(x.a, x.p)]
  | .aadd x | .afadd x | .amax x | .amin x | .aswap x =>
    some (if x.m = 2 then [(x.a, x.p), (x.d, x.q)] else [(x.a, x.p)])
  | .acas x => some (if x.m = 2 then [(x.a, x.p), (x.d, x.q), (x.d + 1, false)] else [(x.a, x.p)])
  | .acq x => some ((x.a, x.p) :: (if x.w then [] else [(x.b, x.q)]))
  | .rel x => some ((x.a, x.p) :: (if x.w then [] else [(x.b, x.q)]))
  | .fence _ => some []
  | .qfence x => some [(x.a, x.p), (x.b, x.q)]
  | .bind x => some [(x.a, x.p), (x.b, x.q)]
  | .unbind x | .mclr x | .xclose x | .xdone x => some [(x.a, x.p)]
  | .mldb x | .mldbI8 x => some [(x.a, x.p), (x.b, x.q)]
  | .mmo _ | .mmf _ | .mmi _ => some []
  | .mrd x => some [(x.a, x.p)]
  | .xopen x | .ckill x => some [(x.a, x.p)]
  | .xsplit x => some [(x.b, x.q)]
  | .xsort x | .xsend x | .xsamp x | .xrbal x | .xwait x => some [(x.a, x.p), (x.b, x.q)]
  | .xrecv x => some [(x.a, x.p), (x.b, x.q)]
  | _ => none

/-- The scalar destination that an instruction of the dispatch queue marks empty as it enters (R147, R397). A held AFADD of a
deterministic phase has no destination (R332). -/
def lateDest (detm : Bool) : Instr → BitVec 64
  | .rsum x | .rmin x | .rminu x | .rmax x | .rmaxu x | .rand x | .ror x | .rxor x | .frsum x | .frmin x | .frmax x => scalarBit x.d
  | .nzscan x => scalarBit x.b
  | .ld x => if x.m = 2 then scalarBit x.d else 0
  | .aadd x | .amax x | .amin x | .aswap x | .acas x => if x.m = 2 then scalarBit x.d else 0
  | .afadd x => if x.m = 2 && !detm then scalarBit x.d else 0
  | .bind x | .xsort x | .xsend x | .xsamp x | .xrbal x | .xwait x => scalarBit x.d
  | .acq x => scalarBit x.d
  | .ckill x | .xopen x => scalarBit x.d
  | _ => 0

/-- Does the instruction write a scalar destination before its hart issues another, though it passes through the dispatch queue (R148)? -/
def writesAtOnce : Instr → Bool
  | .mcnt _ | .mfirst _ => true
  | _ => false

/-- The first empty register of the operands, in order, with its policy bit. -/
def firstEmpty (h : Hart) (rs : List (BitVec 6 × Bool)) : Option (BitVec 6 × Bool) := rs.find? (fun r => !h.sFull r.1)

/-- Has the instruction in progress, begun under DETM d, passed dispatch: it is one of the dispatch queue, its scalar operands are full, and so
is the destination that it marks empty (R147)? -/
def pastDispatch (h : Hart) (d : Bool) (i : Instr) : Bool :=
  match dispatchReads i with
  | some rs => (firstEmpty h rs).isNone && (lateDest d i &&& ~~~ h.sFE) == 0
  | none => false

end Sys2Proof.Machine
end

