-- ==== Sys2Proof/Machine/Sched.lean ====
section
/-! DEFINITION. The task scheduler's operations: records (R56), submission (R57–R59), decrements and credits (R61), ready
queues (R62), groups and phases (R66, R67, R334), high-water marks (R70, R71). -/

namespace Sys2Proof.Machine
open Sys2Proof

/-- No task (R49). -/
def noTask : BitVec 32 := 0xFFFFFFFF

/-- The record that 64 little-endian bytes hold (R56). -/
def parseRec (v : Nat) : TaskRec :=
  { entry := BitVec.ofNat 64 v, arg := BitVec.ofNat 64 (v / 2 ^ 64), deps := BitVec.ofNat 32 (v / 2 ^ 128)
    gids := BitVec.ofNat 32 (v / 2 ^ 160), prio := BitVec.ofNat 3 (v / 2 ^ 192), det := v.testBit 200
    aff := BitVec.ofNat 2 (v / 2 ^ 201), target := BitVec.ofNat 16 (v / 2 ^ 208), id := BitVec.ofNat 32 (v / 2 ^ 224)
    dep1 := BitVec.ofNat 32 (v / 2 ^ 256), dep2 := BitVec.ofNat 32 (v / 2 ^ 288), hwsrc := BitVec.ofNat 32 (v / 2 ^ 320)
    seq := BitVec.ofNat 64 (v / 2 ^ 384) }

/-- Byte k of the group ids. -/
def TaskRec.gid (r : TaskRec) (k : Nat) : Nat := bits r.gids.toNat (8 * k) 8

/-- The groups a record names (R56). -/
def TaskRec.groupList (r : TaskRec) : List Nat := ((List.range 4).map r.gid).filter (· != 0xFF)

namespace State

/-- Group g of context c, when it is VALID (R66). -/
def group (s : State) (c : BitVec 6) (g : Nat) : Option Group := SMap.find? s.groups (c.toNat * 256 + g)

/-- Replaces group g of context c. -/
def setGroup (s : State) (c : BitVec 6) (g : Nat) (v : Group) : State :=
  { s with groups := SMap.put s.groups (c.toNat * 256 + g) v }

/-- Is the task a member of the group? -/
def memberOf (s : State) (c : BitVec 6) (id : BitVec 32) (g : Nat) : Bool :=
  match s.group c g with
  | some v => v.members.contains id
  | none => false

/-- Does the record keep the rules of R56? The raw bytes are read for the fields that R56 fixes at zero. -/
def legalRec (s : State) (c : BitVec 6) (v : Nat) : Bool :=
  let r := parseRec v
  let gl := r.groupList
  r.entry.toNat % 4 == 0 && gl.Nodup && gl.all (s.memberOf c r.id) &&
  decide (bits v 192 8 ≤ 7) && bits v 203 5 == 0 &&
  (if r.aff = 0 then r.target == 0xFFFF else if r.aff = 3 then decide (r.target.toNat < 4) else decide (r.target.toNat < 192)) &&
  r.id != noTask && bits v 352 32 == 0 && r.seq.toNat % 8 == 0 && bits v 448 64 == 0

/-- Is the id held or running in the context (R58)? -/
def taskKnown (s : State) (c : BitVec 6) (id : BitVec 32) : Bool :=
  s.held.any (fun h => h.ctx == c && h.rc.id == id) || s.running.any (fun r => r.ctx == c && r.rc.id == id)

/-- The mark entry of a producer id (R70). -/
def markOf (s : State) (c : BitVec 6) (id : BitVec 32) : Option MarkEntry :=
  s.marks.find? (fun m => m.ctx == c && m.producer == id)

/-- Is there room for one more mark entry on the die (R70, R76)? -/
def markRoom (s : State) (c : BitVec 6) (die : Nat) : Bool :=
  decide ((s.marks.filter (·.ctx == c)).length < min (s.ctx c).qmark.toNat (4 * Config.marksPerDie)) &&
  decide ((s.marks.filter (·.die == die)).length < Config.marksPerDie)

/-- Applies `f` to the mark entry of a producer id. -/
def mapMark (s : State) (c : BitVec 6) (id : BitVec 32) (f : MarkEntry → MarkEntry) : State :=
  let l := s.marks.map (fun m => if m.ctx = c ∧ m.producer = id then f m else m)
  { s with marks := l.filter (fun m => !(m.ended && m.refs == 0)) }

/-- The home die of a record (R57). -/
def homeDie (r : TaskRec) (sub : Nat) : Nat :=
  if r.aff = 0 then sub else if r.aff = 3 then r.target.toNat else r.target.toNat / 48

/-- Credits that a context holds for an id. -/
def creditOf (s : State) (c : BitVec 6) (id : BitVec 32) : Nat :=
  match s.credits.find? (fun x => x.ctx == c && x.id == id) with
  | some x => x.count
  | none => 0

/-- Makes a held task ready: it goes to the end of the ready queues' order (R62). From then on it keeps the DET flag that it is queued with,
its own or the context's DETM (R75, R401). -/
def makeReady (s : State) (c : BitVec 6) (id : BitVec 32) : State :=
  match s.held.find? (fun h => h.ctx == c && h.rc.id == id) with
  | none => s
  | some h =>
    { s with held := s.held.filter (fun h => !(h.ctx == c && h.rc.id == id)) ++
               [{ h with count := 0, ready := true, rc := { h.rc with det := h.rc.det || (s.ctx c).detm } }] }

/-- Submits a record of 64 bytes for context c (R59): the status, and the state. -/
def submit (s : State) (c : BitVec 6) (sub : Nat) (v : Nat) : Nat × State :=
  let r := parseRec v
  let x := s.ctx c
  let die := homeDie r sub
  let chain := r.hwsrc != noTask
  if !s.legalRec c v then (4, s)
  else if s.taskKnown c r.id then (3, s)
  else if (s.held.filter (·.ctx == c)).length ≥ min x.qtask.toNat (4 * Config.pendingPerDie) then (1, s)
  else if chain && (s.markOf c r.hwsrc).isNone && !s.markRoom c die then (5, s)
  else if (s.held.filter (·.die == die)).length ≥ Config.pendingPerDie then (2, s)
  else
    let count := r.deps.toNat - s.creditOf c r.id
    let s1 : State :=
      { s with held := s.held ++ [⟨c, die, count, false, r⟩]
               credits := s.credits.filter (fun y => !(y.ctx == c && y.id == r.id)) }
    let s2 := if chain then
        (if (s1.markOf c r.hwsrc).isSome then s1.mapMark c r.hwsrc (fun m => { m with refs := m.refs + 1 })
         else { s1 with marks := s1.marks ++ [⟨c, r.hwsrc, die, 0, false, 1⟩] })
      else s1
    (0, if count = 0 then s2.makeReady c r.id else s2)

/-- One decrement of a task's dependence counter (R61); none while the context's credit quota is full. -/
def decrement (s : State) (c : BitVec 6) (id : BitVec 32) : Option State :=
  match s.held.find? (fun h => h.ctx == c && h.rc.id == id) with
  | some h =>
    if h.ready ∨ h.count = 0 then some (s.setCtx c { s.ctx c with surplus := (s.ctx c).surplus + 1 })
    else if h.count = 1 then some (s.makeReady c id)
    else some { s with held := s.held.map (fun x => if x.ctx = c ∧ x.rc.id = id then { x with count := x.count - 1 } else x) }
  | none =>
    if s.running.any (fun r => r.ctx == c && r.rc.id == id) then
      some (s.setCtx c { s.ctx c with surplus := (s.ctx c).surplus + 1 })
    else
      let total := ((s.credits.filter (·.ctx == c)).map (·.count)).sum
      if total ≥ min (s.ctx c).qcred.toNat 64 then none
      else if s.creditOf c id = 0 then some { s with credits := s.credits ++ [⟨c, id, 1⟩] }
      else some { s with credits := s.credits.map (fun x => if x.ctx = c ∧ x.id = id then { x with count := x.count + 1 } else x) }

/-! ## Deterministic phase close (R334) -/

/-- The format of a held location of n bytes (R330). -/
def heldFmt (n : Nat) : Fmt := if n = 8 then fp64 else fp32

/-- Is update a applied before b (R334)? -/
def updBefore (a b : HeldUpd) : Bool :=
  decide (a.task.toNat < b.task.toNat) || (a.task == b.task && (decide (a.order < b.order) ||
    (a.order == b.order && decide (a.elem < b.elem))))

/-- Inserts an update into its place in the order. -/
def insertUpd (u : HeldUpd) : List HeldUpd → List HeldUpd
  | [] => [u]
  | v :: t => if updBefore u v then u :: v :: t else v :: insertUpd u t

/-- The updates in the order of R334. -/
def sortUpds (l : List HeldUpd) : List HeldUpd := l.foldl (fun acc u => insertUpd u acc) []

/-- RNE of the exact sum of patterns: one rounding; NaN for a NaN or infinities of both signs; −0 only when every term is −0
(R334). -/
def exactSum (t : Fmt) (ps : List Nat) : Nat :=
  let vs := ps.map t.raw
  let isInf : Bool → FV → Bool := fun n v => match v with | .inf m => m == n | _ => false
  if vs.any FV.isNan ∨ (vs.any (isInf true) ∧ vs.any (isInf false)) then t.nan
  else if vs.any (isInf true) then (infResult t true).1
  else if vs.any (isInf false) then (infResult t false).1
  else
    let lo : Int := 1 - (t.bias : Int) - t.f
    let terms : List Int := vs.map (fun v => match v with | .fin n m e => scaled n m e lo | _ => 0)
    let sum := terms.sum
    let negZero : FV → Bool := fun v => match v with | .fin n m _ => n && m == 0 | _ => false
    if sum = 0 then t.signed (vs.all negZero) 0 else (rnd t rneCtl (decide (sum < 0)) sum.natAbs lo false).1

/-- The new value of a held location (R334). -/
def closeValue (e : HeldAddr) (old : Nat) : Nat :=
  let t := heldFmt e.n
  if e.accum then exactSum t (old :: e.upds.map (·.v.toNat))
  else (sortUpds e.upds).foldl (fun x u => (addV t rneCtl (t.raw x) (t.raw u.v.toNat)).1) old

/-- Applies and frees the holds of (c, g, p) (R334). -/
def closeHolds (s : State) (c : BitVec 6) (g : Nat) (p : BitVec 32) : State :=
  let mine : HeldAddr → Bool := fun e => e.ctx == c && e.group == g && e.phase == p
  let t := (s.holds.filter mine).foldl (fun st e => st.homeWrite e.loc e.n (closeValue e (st.homeRead e.loc e.n))) s
  { t with holds := s.holds.filter (fun e => !mine e) }

/-- Completes phase p of a group when ARRIVED + ENDED = MEMBERS (R67). -/
def checkPhase (s : State) (c : BitVec 6) (g : Nat) : State :=
  match s.group c g with
  | none => s
  | some v =>
    if v.arrived + v.ended = v.members.length then
      (s.closeHolds c g v.phase).setGroup c g { v with arrived := 0, phase := v.phase + 1 }
    else s

/-- The running record of slot k's task. -/
def runOf (s : State) (k : Nat) : Option RunTask :=
  s.running.find? (fun r => r.ctx == s.ctxOf k && r.rc.id == (s.slot k).hart.taskid)

/-- Replaces the running record of slot k's task. -/
def mapRun (s : State) (k : Nat) (f : RunTask → RunTask) : State :=
  { s with running := s.running.map (fun r => if r.ctx = s.ctxOf k ∧ r.rc.id = (s.slot k).hart.taskid then f r else r) }

end State

end Sys2Proof.Machine
end

