-- ==== Sys2Proof/Machine/Trace.lean ====
section
/-! DEFINITION. The trace units (R403–R406): their control words, records, rings, and what a step records. -/

namespace Sys2Proof.Machine
open Sys2Proof

namespace State

/-- The unit of slot k's core (R403). -/
def unitOf (k : Nat) : Nat := 2 * (k / 8) + k % 8 / 4

/-- Trace unit n. -/
def unit (s : State) (n : Nat) : TraceUnit := SMap.get {} s.trace n

/-- Replaces trace unit n. -/
def setUnit (s : State) (n : Nat) (u : TraceUnit) : State := { s with trace := SMap.set {} s.trace n u }

end State

/-- SIZE is a power of two from 256 to 2^24. -/
def TraceUnit.legal (u : TraceUnit) : Bool := anyIn (fun e => u.size.toNat == 2 ^ e) 8 17

/-- Is tracing on for the context on the core (R403)? -/
def TraceUnit.on (u : TraceUnit) (c : BitVec 6) : Bool := u.en && u.legal && (u.all || u.ctx == c)

/-- Writes the buffered records out at WPTR (R403, R406): without translation or windows; a place past the HBM is not
written. -/
def State.writeOut (s : State) (n : Nat) : State :=
  let u := s.unit n
  let put := fun (st : State) (p : BitVec 128 × Nat) =>
    let a := u.base.toNat + 16 * ((u.wptr.toNat + p.2) % max 1 u.size.toNat)
    if a + 16 ≤ Config.hbmBytes then { st with hbm := putBytes st.hbm a 16 p.1.toNat } else st
  let t := u.buf.zipIdx.foldl put s
  t.setUnit n { u with wptr := u.wptr + BitVec.ofNat 32 u.buf.length, buf := [] }

/-- No room for a record (R403, WRAP). -/
def TraceUnit.full (u : TraceUnit) : Bool := !u.wrap && decide (u.wptr.toNat + u.buf.length ≥ u.size.toNat)

/-- One record of 16 bytes (R404). -/
def traceRecord (kind hart tlvl dt info : Nat) (value : Word) : BitVec 128 :=
  BitVec.ofNat 128 (kind % 16 + hart % 4 * 2 ^ 4 + tlvl % 4 * 2 ^ 6 + dt % 2 ^ 24 * 2 ^ 8 + info % 2 ^ 32 * 2 ^ 32 +
    value.toNat * 2 ^ 64)

/-- DT of the next record: a free value (log 7). -/
def State.dt (s : State) : Nat := (Config.traceTime s.fresh).toNat % 2 ^ 24

/-- Appends one record, `r` of its DT, or drops it; four buffered records are written out. -/
def State.push (s : State) (n : Nat) (r : Nat → BitVec 128) : State :=
  let u := s.unit n
  if u.full then s.setUnit n { u with dropped := u.dropped + 1, lost := u.lost + 1 }
  else
    let t := s.tick.setUnit n { u with buf := u.buf ++ [r s.dt], sinceSync := u.sinceSync + 1 }
    if u.buf.length + 1 ≥ 4 then t.writeOut n else t

/-- A SYNC record: the unit's cycle count is a free value (R405). -/
def State.sync (s : State) (n : Nat) : State :=
  let t := s.tick.push n (fun dt => traceRecord 1 0 0 dt 0 (Config.traceTime s.fresh))
  t.setUnit n { t.unit n with sinceSync := 0, due := false }

/-- Records an event of slot k, for context c, when tracing is on (R403–R406). -/
def State.record (s : State) (k : Nat) (c : BitVec 6) (kind tlvl info : Nat) (value : Word) : State :=
  let n := unitOf k
  let u := s.unit n
  if !u.on c then s
  else if u.full then s.push n (fun _ => 0)
  else
    let s1 := if u.dropped ≠ 0 then
        let t := s.push n (fun dt => traceRecord 10 0 0 dt u.dropped.toNat 0)
        (t.setUnit n { t.unit n with dropped := 0 }).sync n
      else if u.due ∨ u.sinceSync ≥ 4095 then s.sync n else s
    s1.push n (fun dt => traceRecord kind k tlvl dt info value)

/-! ## What a step records -/

/-- A PC record: later records count the instructions retired since (R405). -/
def State.pcRecord (s : State) (k : Nat) (c : BitVec 6) (kind tlvl info : Nat) (value : Word) : State :=
  if (s.unit (unitOf k)).on c then
    let t := s.record k c kind tlvl info value
    t.setHartOf k { (t.slot k).hart with pcMark := (t.slot k).hart.instret }
  else s

/-- What changed at slot k between the states before and after a step, other than the end of a task: dispatch, restore,
save, kill, and a trap taken (R405). What a debugger writes into a HALTED slot is no trap. -/
def State.recordSlot (old : State) (k : Nat) (s : State) : State :=
  let a := old.slot k
  let b := s.slot k
  let was := old.occupied k
  if was && !s.occupied k then
    if (old.ctx a.taskCtx).res && !(s.ctx a.taskCtx).res then
      s.pcRecord k a.taskCtx 9 a.hart.tlvl.toNat 2 a.hart.pc
    else s
  else if !s.occupied k then s
  else if a.ndisp != b.ndisp then
    s.pcRecord k b.taskCtx 2 0 b.hart.taskid.toNat
      (BitVec.ofNat 64 (b.hart.pc.toNat % 2 ^ 51 + b.taskCtx.toNat * 2 ^ 58))
  else if b.state == .saved && a.state != .saved then s.pcRecord k b.taskCtx 9 b.hart.tlvl.toNat 0 b.hart.pc
  else if (a.state == .saved || !was) && b.state != .saved then
    s.pcRecord k b.taskCtx 9 b.hart.tlvl.toNat 1 b.hart.pc
  else if a.state != .halted && decide (a.hart.tlvl < b.hart.tlvl) then
    let n := b.hart.tlvl.toNat
    let bk := b.hart.bank n
    s.pcRecord k b.taskCtx 4 a.hart.tlvl.toNat (bk.cause.toNat + bk.eidx.toNat * 2 ^ 8 + n * 2 ^ 19) bk.epc
  else s

/-- Is the instruction a vector or matrix instruction (R148, R405)? -/
def isVectorInstr : Instr → Bool
  | .add x | .sub x | .adds x | .addsu x | .subs x | .subsu x | .mul x | .mulh x | .mulhu x | .mac x | .div x | .divu x
  | .rem x | .remu x | .min x | .minu x | .max x | .maxu x | .wadd x | .waddu x | .wmul x | .wmulu x | .wmac x
  | .wmacu x | .narrow x | .narrowu x | .and x | .or x | .xor x | .andn x | .sll x | .srl x | .sra x | .rotr x
  | .cmpeq x | .cmpne x | .cmplt x | .cmpltu x | .cmple x | .cmpleu x | .sel x | .fadd x | .fsub x | .fmul x | .fma x
  | .fms x | .fnma x | .fdiv x | .fmin x | .fmax x | .fcmpeq x | .fcmplt x | .fcmple x | .slideup x | .slidedn x => x.f != 3
  | .abs x | .neg x | .popc x | .clz x | .fsqrt x | .frsq x | .fexp2 x | .flog2 x | .fabs x | .fneg x | .fclass x => x.f != 3
  | .mov x | .iota x => x.f != 3
  | .sext x | .zext x | .fcvt x | .fcvti x | .fcvtf x => x.f != 3
  | .rsum _ | .rmin _ | .rminu _ | .rmax _ | .rmaxu _ | .rand _ | .ror _ | .rxor _ | .frsum _ | .frmin _ | .frmax _
  | .scan _ | .fscan _ | .perm _ | .tld _ | .tst _ => true
  | .compress _ | .expand _ | .nzscan _ | .mfrom _ | .mto _ => true
  | .mlogAnd _ | .mlogOr _ | .mlogXor _ | .mlogAndn _ | .mlogNot _ | .mlogCopy _ | .mlogSet _ | .mlogClr _ => true
  | .mcnt _ | .mfirst _ | .ldq _ | .stq _ | .xsplit _ => true
  | .ld x | .st x => x.m != 2
  | .aadd x | .afadd x | .amax x | .amin x | .aswap x | .acas x => x.m != 2
  | .mldb _ | .mldbI8 _ | .mmo _ | .mmf _ | .mmi _ | .mrd _ | .mclr _ => true
  | _ => false

/-- What the instruction at slot k records beyond `recordSlot`: END, TRET, a taken transfer, VRETIRE (R405). `taken` says
whether it is a taken branch or jump, and its end is a retirement when INSTRET rose. -/
def State.recordInstr (old : State) (k : Nat) (i : Instr) (taken : Bool) (s : State) : State :=
  let a := old.slot k
  let b := s.slot k
  let c := a.taskCtx
  if !s.occupied k then s
  else if b.hart.instret = a.hart.instret then s
  else
    let n := (b.hart.instret - b.hart.pcMark).toNat
    let lvl := a.hart.tlvl.toNat
    if i = .tret then s.pcRecord k c 5 lvl b.hart.eidx.toNat b.hart.pc
    else if taken then (if (s.unit (unitOf k)).br then s.pcRecord k c 3 lvl n b.hart.pc else s)
    else if isVectorInstr i && (s.unit (unitOf k)).vr then
      s.tick.record k c 7 lvl (a.hart.len + (Config.traceTime s.fresh).toNat % 2 ^ 16 * 2 ^ 16) a.hart.pc
    else s

/-- END (R405): the task of slot k has retired with its completion number, which a TASKEND that waited for credits has had since it
began. DROP of a SAVED slot ends no task. -/
def State.recordEnd (old : State) (k : Nat) (s : State) : State :=
  let a := old.slot k
  if old.occupied k && a.state != .saved && !s.occupied k && (s.ctx a.taskCtx).res then
    let n := if a.ending then ((old.running.find? (fun r => r.ctx == a.taskCtx && r.rc.id == a.hart.taskid)).map (·.num)).getD 0
      else (s.ctx a.taskCtx).cseq
    s.pcRecord k a.taskCtx 8 a.hart.tlvl.toNat ((a.hart.instret - a.hart.pcMark).toNat + 1)
      (BitVec.ofNat 64 (a.hart.taskid.toNat + n.toNat % 2 ^ 32 * 2 ^ 32))
  else s

/-- Is some unit on? -/
def State.tracing (s : State) : Bool := s.trace.any (fun p => p.2.en)

/-- The records of a step in which the hart of slot k executed i, or an event happened: every listed slot in ascending
order, the executing one also for its instruction. -/
def State.traced (old : State) (k : Nat) (i : Option Instr) (taken : Bool) (s : State) : State :=
  if !s.tracing then s
  else
    let keys := (s.slots.foldl (fun m p => SMap.put m p.1 ()) (old.slots.map (fun p => (p.1, ())))).map (·.1)
    keys.foldl (fun st j =>
      let t := (State.recordSlot old j st)
      let t := State.recordEnd old j t
      match i with
      | some x => if j = k then State.recordInstr old k x taken t else t
      | none => t) s

/-- TRACE (R362): a program record in the stream of the hart's core. -/
def execTrace (x : ArgsTr) (s : State) : Out :=
  issue (.trace x) s fun s =>
    readScalars [(x.a, x.p)] s fun s =>
    drained s fun s =>
    retireOnly (s.record s.cur s.ctxid 6 s.hart.tlvl.toNat x.b.toNat (s.hart.rs x.a))

/-- FLUSH (R403): the buffered records are written out. -/
def execFlush (unit : Nat) (s : State) : Out :=
  .next (if unit < 2 * Config.tiles then s.writeOut unit else s)

/-- The control word of unit n, `old` before, has been written: where that turns tracing on, a SYNC is written, or is due while the ring is
full (R403, R405). -/
def State.turnOn (n : Nat) (old : TraceUnit) (s : State) : State :=
  let u := s.unit n
  if u.en && u.legal && !(old.en && old.legal) then (if u.full then s.setUnit n { u with due := true } else s.sync n) else s

/-- A write of an 8-byte unit of a trace control word (R403); clearing EN writes the buffered records out. -/
def traceControl (n j : Nat) (v : Word) (s : State) : State :=
  let u := s.unit n
  if j = 0 then
    let en := v.getLsbD 0
    let u1 := { u with en := en, all := v.getLsbD 1, ctx := v.extractLsb' 2 6, br := v.getLsbD 8, vr := v.getLsbD 9
                       wrap := v.getLsbD 10 }
    let t := if u.en && !en then s.writeOut n else s
    let t1 := (t.setUnit n { u1 with buf := (t.unit n).buf, wptr := (t.unit n).wptr }).turnOn n u
    if v.getLsbD 11 then t1.writeOut n else t1
  else if j = 1 then s.setUnit n { u with base := v &&& ~~~ 0xFFF }
  else if j = 2 then (s.setUnit n { u with size := v.truncate 32 }).turnOn n u
  else s

end Sys2Proof.Machine
end

