-- ==== Sys2Proof/Machine/Control.lean ====
section
/-! DEFINITION. Control flow (R157–R162), immediates (R160), the control registers (R150–R156), the lane partition (R84–R86),
SETVL (R96), WAITF (R149), CONVOY (R74) and YIELD (R73). -/

namespace Sys2Proof.Machine
open Sys2Proof

/-! ## Branches and jumps -/

/-- The condition of BR (R36). -/
def brCond (c : BitVec 3) (a b : Word) : Bool :=
  if c = 0 then a == b else if c = 1 then a != b else if c = 2 then a.slt b else if c = 3 then b.sle a
  else if c = 4 then a.ult b else b.ule a

/-- The target of a Format B branch (R20). -/
def branchTarget (pc : Word) (o : BitVec 10) : Word := pc + word (4 * o.toInt)

/-- Goes on at the target, or at the next instruction. -/
def branchTo (taken : Bool) (o : BitVec 10) (s : State) : Res :=
  let h := s.hart
  .ok (s.setHart (if taken then h.retireTo (branchTarget h.pc o) else h.retire))

/-- Does BR branch (R157)? -/
def brTaken (x : ArgsB) (s : State) : Bool := brCond x.c (s.hart.rs x.a) (s.hart.rs x.b)

/-- BR (R157). -/
def execBr (x : ArgsB) (s : State) : Out :=
  issue (.br x) s fun s => readScalars [(x.a, false), (x.b, false)] s fun s => branchTo (brTaken x s) x.o s

/-- Does BRM branch (R36, R158)? -/
def brmTaken (x : ArgsBrm) (s : State) : Bool :=
  let h := s.hart
  let m := h.rm x.a.toNat
  if x.c = 0 then anyIn m.getLsbD 0 h.len
  else if x.c = 1 then !anyIn m.getLsbD 0 h.len
  else !anyIn (fun i => !m.getLsbD i) 0 h.len

/-- BRM (R158): waits for every earlier writer of the mask. -/
def execBrm (x : ArgsBrm) (s : State) : Out :=
  issue (.brm x) s fun s => readMasks [(x.a.toNat, false)] s fun s =>
    drainedOf (fun f => f.uses.mwrites.getLsbD x.a.toNat) s fun s => branchTo (brmTaken x s) x.o s

/-- The channel that a handle of the executing hart names. -/
def handleChan (s : State) (b : Nat) : Option Channel :=
  match SMap.find? s.hart.handles b with
  | some c => s.chan c
  | none => none

/-- The round in slot b, when it belongs to the executing hart's context (R264); of any other slot the status bit reads 0 (R159, log 101). -/
def ownRound (s : State) (b : Nat) : Option Round :=
  match SMap.find? s.rounds b with
  | some r => if r.ctx = s.ctxid then some r else none
  | none => none

/-- The status bit that BRS tests (R159). A handle that is not open and a round that is not the context's give 0 (log 101). -/
def brsBit (a b : Nat) (s : State) : Bool :=
  let h := s.hart
  if a = 0 then h.strmf.getLsbD b
  else if a = 1 then (match handleChan s b with | some x => x.state == .ended | none => false)
  else if a = 2 then (match ownRound s b with | some r => r.state == .complete | none => false)
  else if a = 3 then h.detf
  else h.fflags.getLsbD b

/-- In deterministic mode BRS with a = 1 or 2 waits until the bit can no longer change (R400). -/
def brsUnsettled (a b : Nat) (s : State) : Bool :=
  s.detm &&
  (if a = 1 then (match handleChan s b with
      | some x => x.state == .queued || x.state == .running || x.state == .blocked
      | none => false)
   else if a = 2 then (match ownRound s b with | some r => r.state == .joining || r.state == .opened | none => false)
   else false)

/-- Does BRS branch? -/
def brsTaken (x : ArgsB) (s : State) : Bool := brsBit x.a.toNat x.b.toNat s == (x.c == 0)

/-- BRS (R159, R400): on FFLAGS it waits as an MFCR of FFLAGS does (R123, log 115). -/
def execBrs (x : ArgsB) (s : State) : Out :=
  issue (.brs x) s fun s =>
    if brsUnsettled x.a.toNat x.b.toNat s then .wait s
    else if x.a = 0 then drainedOf (fun f => f.uses.stream) s fun s => branchTo (brsTaken x s) x.o s
    else if x.a = 4 then drained s fun s => branchTo (brsTaken x s) x.o s
    else branchTo (brsTaken x s) x.o s

/-- JAL (R21). -/
def execJal (x : ArgsI) (s : State) : Out :=
  issue (.jal x) s fun s => destFree x.d s fun s =>
    let h := s.hart
    .ok (s.setHart ((h.ws x.d (h.pc + 4)).retireTo (h.pc + word (4 * x.i.toInt))))

/-- The target of JALR (R161). -/
def jalrTarget (x : ArgsJ) (s : State) : Word :=
  s.hart.rs x.a + (if x.w then word (4 * imm6 x.b) else s.hart.rs x.b)

/-- JALR (R161): a target that is not a multiple of 4 traps, and s[d] is unchanged. -/
def execJalr (x : ArgsJ) (s : State) : Out :=
  issue (.jalr x) s fun s =>
    readScalars ((x.a, x.p) :: (if x.w then [] else [(x.b, x.q)])) s fun s =>
    destFree x.d s fun s =>
    let t := jalrTarget x s
    if t.extractLsb' 0 2 ≠ 0 then .trap 0x05 0 t 0 s
    else .ok (s.setHart ((s.hart.ws x.d (s.hart.pc + 4)).retireTo t))

/-- LI (R21). -/
def execLi (x : ArgsI) (s : State) : Out :=
  issue (.li x) s fun s => destFree x.d s fun s => writeRetire x.d (word x.i.toInt) s

/-- LIS (R21). -/
def execLis (x : ArgsI) (s : State) : Out :=
  issue (.lis x) s fun s => readScalars [(x.d, false)] s fun s => destFree x.d s fun s =>
    writeRetire x.d (s.hart.rs x.d <<< 19 + x.i.zeroExtend 64) s

/-! ## The lane partition (R84–R86) -/

/-- LIM and SPLIT after a write of LPART (R84, R85). -/
def lpartWrite (t : Tile) (v : Word) : Bool × BitVec 2 :=
  (v.getLsbD 0, if v.getLsbD 0 && t.lim == 0 then 1 else t.lim)

/-- LIM and SPLIT after a write of MAXVL; a write of 11 leaves LIM unchanged. -/
def maxvlWrite (t : Tile) (v : Word) : Bool × BitVec 2 :=
  let l := v.extractLsb' 0 2
  (t.split, if l = 3 then t.lim else if l = 0 ∧ t.split then 1 else l)

/-- The physical storage of a hart's slices, keyed lane × 32 + row (R9): the reachable elements and the hidden ones. -/
def physicalRows (t : Tile) (coreB : Bool) (h : Hart) : SMap Row :=
  h.z.foldl (fun m p => SMap.set 0 m (t.laneOf coreB p.1 * 32 + p.1 / t.lanes) p.2) h.hidden

/-- The hart of a tile after a change of the partition from t to u (R86). -/
def repartitionHart (t u : Tile) (coreB : Bool) (h : Hart) : Hart :=
  let phys := (physicalRows t coreB h).filter (fun p => u.powered (p.1 / 32))
  let base := if u.split && coreB then 16 else 0
  let mine : Nat → Bool := fun lane => decide (base ≤ lane) && decide (lane < base + u.lanes)
  { h with
    z := phys.foldl (fun m p =>
      if mine (p.1 / 32) then SMap.set 0 m (p.1 % 32 * u.lanes + (p.1 / 32 - base)) p.2 else m) []
    hidden := phys.filter (fun p => !mine (p.1 / 32))
    vl := BitVec.ofNat 11 (min h.len u.vlmax)
    m := SMap.mapRange 0 (fun _ (v : Mask) => v &&& u.maskBits) 0 8 h.m
    dirty := BitVec.allOnes 64
    vlg := SMap.mapRange 0 (fun _ (_ : BitVec 5) => BitVec.ofNat 5 (u.vlmax / 64)) 0 64 h.vlg
    macfg := { h.macfg with mcl := 0, acl := 0 }
    replay := [] }

/-- Does the key of `cols` or `cells`, in units of `per` per tile, belong to tile t? -/
def ofTile (per t key : Nat) : Bool := key / per == t

/-- A changing write of LPART or MAXVL at tile n: every hart, the lane tables, the macros and accumulators (R86, R248). -/
def repartition (n : Nat) (p : Bool × BitVec 2) (s : State) : State :=
  let t := s.tile n
  let u0 : Tile := { t with split := p.1, lim := p.2 }
  let u : Tile := { u0 with tables := t.tables.filter (fun e => u0.powered (e.1 / 8192)) }
  let s1 := s.setTile n u
  let s2 := foldRange (fun k st => st.setHartOf k (repartitionHart t u (State.coreOf k) (st.slot k).hart)) (8 * n) 8 s1
  { s2 with int8 := s2.int8.filter (fun e => !ofTile 8 n e.1)
            cols := s2.cols.filter (fun e => !ofTile (8 * 4096) n e.1)
            cells := s2.cells.filter (fun e => !ofTile (32 * 4096) n e.1) }

/-- Is it the word of a vector or matrix instruction that `p` accepts? -/
def vectorWord (w : IWord) (p : Instr → Bool) : Bool := match decode w with | .ok i => isVectorInstr i && p i | .error _ => false

/-- Has the hart of slot k a vector or matrix instruction that has been dispatched and not completed: in flight, in the dispatch queue, in
progress past its dispatch or between two of its groups, or waiting for a reply? -/
def vectorBusy (s : State) (k : Nat) : Bool :=
  let h := (s.slot k).hart
  !h.inflight.isEmpty || h.queue.any (fun q => q.vec && q.trap.isNone && vectorWord q.word (fun _ => true)) ||
  h.word.any (fun w => vectorWord w.1 (fun i => h.eidx != 0 || pastDispatch h w.2 i)) ||
  s.net.reqs.any (fun r => match r.who with | .elem q i => q == k && i != State.fetchIndex | _ => false)

/-- Has every vector and matrix instruction of the tile's eight harts completed (R86, step 1)? -/
def tileDrained (n : Nat) (s : State) : Bool := !anyIn (vectorBusy s) (8 * n) 8

/-! ## Control registers -/

/-- A Bool as a word. -/
def boolWord (b : Bool) : Word := if b then 1 else 0

/-- TSTATn as a word (R342). -/
def Bank.stat (b : Bank) : Word :=
  b.plvl.zeroExtend 64 + b.wlvl.zeroExtend 64 * 4 + boolWord b.abnd * 16

/-- MACFG as a word (R244). -/
def Macfg.toWord (m : Macfg) : Word :=
  m.mcl.zeroExtend 64 + m.acl.zeroExtend 64 * 16 + boolWord m.isat * 2 ^ 20

/-- One register of a trap bank, counted from TCAUSE. -/
def bankRead (b : Bank) (j : Nat) : Word :=
  if j = 0 then b.cause.zeroExtend 64 else if j = 1 then b.epc else if j = 2 then b.eidx.zeroExtend 64
  else if j = 3 then b.val else b.stat

/-- A write of one register of a trap bank (R342). -/
def bankWrite (b : Bank) (j : Nat) (v : Word) : Bank :=
  if j = 0 then { b with cause := v.truncate 8 } else if j = 1 then { b with epc := v &&& ~~~ 3 }
  else if j = 2 then { b with eidx := v.truncate 11 } else if j = 3 then { b with val := v }
  else { b with plvl := v.truncate 2, wlvl := v.extractLsb' 2 2, abnd := v.getLsbD 4 }

/-- PTBASE of a context as a word (R300). -/
def Ctx.ptWord (c : Ctx) : Word := boolWord c.ptValid + c.ptRoot.zeroExtend 64 * 2 ^ 15

/-- The register at an assigned index (R150), without the replacements of R155. -/
def crRead (s : State) (n : Nat) : Word :=
  let h := s.hart
  let t := s.myTile
  let c := s.myCtx
  if n = 0x000 then h.vl.zeroExtend 64
  else if n = 0x001 then h.vstride
  else if n = 0x002 then h.vmsel.zeroExtend 64
  else if n = 0x003 then h.mspace.zeroExtend 64
  else if n = 0x004 then 0
  else if n = 0x005 then h.fctl.zeroExtend 64
  else if n = 0x006 then h.fflags.zeroExtend 64
  else if n = 0x007 then h.vsatm.zeroExtend 64
  else if n = 0x008 then h.view.zeroExtend 64
  else if n = 0x009 then h.vcount.zeroExtend 64
  else if n = 0x00A then h.strmf.zeroExtend 64
  else if n = 0x00B then h.hwsrc
  else if n = 0x00C then h.macfg.toWord
  else if n = 0x010 then BitVec.ofNat 64 s.cur
  else if n = 0x011 then h.taskid.zeroExtend 64
  else if n = 0x012 then h.taskarg
  else if n = 0x013 then s.ctxid.zeroExtend 64
  else if n = 0x014 then Config.cycle s.fresh
  else if n = 0x015 then h.instret
  else if n = 0x016 then boolWord h.detf
  else if n = 0x020 then h.tlvl.zeroExtend 64
  else if n = 0x021 then h.tvec.zeroExtend 64 * 4
  else if n < 0x027 then bankRead h.bank1 (n - 0x022)
  else if n < 0x02C then bankRead h.bank2 (n - 0x027)
  else if n = 0x030 then h.tsave
  else if n = 0x100 then boolWord t.split
  else if n = 0x101 then t.lim.zeroExtend 64
  else if n = 0x102 then boolWord c.detm
  else if n = 0x103 then c.slice.zeroExtend 64 + c.clamps.zeroExtend 64 * 2 ^ 32
  else c.ptWord

/-- A write of a register of the hart (R94, R122, R138, R151, R153, R171, R189, R233, R244, R342). -/
def crWriteHart (s : State) (n : Nat) (v : Word) : Hart :=
  let h := s.hart
  if n = 0x000 then { h with vl := BitVec.ofNat 11 (min v.toNat s.myTile.vlmax) }
  else if n = 0x001 then { h with vstride := v }
  else if n = 0x002 then { h with vmsel := v.truncate 5 }
  else if n = 0x003 then { h with mspace := if v.extractLsb' 0 2 = 3 then h.mspace else v.truncate 2 }
  else if n = 0x005 then { h with fctl := v.truncate 7 }
  else if n = 0x006 then { h with fflags := v.truncate 7 }
  else if n = 0x007 then { h with vsatm := v.truncate 3 }
  else if n = 0x008 then { h with view := v.truncate 6 }
  else if n = 0x009 then { h with vcount := v.truncate 11 }
  else if n = 0x00A then { h with strmf := v.truncate 16 }
  else if n = 0x00B then { h with hwsrc := v }
  else if n = 0x00C then { h with macfg := { h.macfg with isat := v.getLsbD 20 } }
  else if n = 0x016 then { h with detf := v.getLsbD 0 }
  else if n = 0x021 then { h with tvec := v.extractLsb' 2 62 }
  else if n = 0x030 then { h with tsave := v }
  else if n < 0x027 then { h with bank1 := bankWrite h.bank1 (n - 0x022) v }
  else { h with bank2 := bankWrite h.bank2 (n - 0x027) v }

/-- Invalidates the translations of a context (R310, scope 0). -/
def State.dropTlb (s : State) (c : BitVec 6) : State := { s with tlb := s.tlb.filter (fun t => t.ctx != c) }

/-- A write of PTBASE by the executing hart (R300): its device-virtual writes are performed, then the root changes and the
context's translations are invalidated. -/
def writePtbase (v : Word) (s : State) : State :=
  let t := s.drainIf (fun b => State.sees s.cur b && (match b.loc with | .cis _ => false | _ => true))
  let c := t.myCtx
  (t.setCtx t.ctxid { c with ptValid := v.getLsbD 0, ptRoot := v.extractLsb' 15 37 }).dropTlb t.ctxid

/-- Does the index wait for the hart's earlier instructions (R156)? -/
def waitsFor (n : Nat) : Bool := n == 0x006 || n == 0x009 || n == 0x00A

/-- Does a read or write of the register at that index wait for the instruction in flight: one that may write VCOUNT or STRMF (R156), and of
FFLAGS every one (R123, log 115)? -/
def Inflight.writesCr (n : Nat) (f : Inflight) : Bool :=
  if n = 0x006 then true else if n = 0x009 then f.uses.vcount else f.uses.stream

/-- MFCR (R155, R156): in deterministic mode HARTID and CYCLE read 0 and set DETF.D. -/
def execMfcr (x : ArgsCr) (s : State) : Out :=
  issue (.mfcr x) s fun s =>
    destFree x.d s fun s =>
    let n := x.c.toNat
    let go := fun (s : State) =>
      if s.detm && (n == 0x010 || n == 0x014) then
        writeRetire x.d 0 (s.setHart { s.hart with detf := true })
      else writeRetire x.d (crRead s n) (if n = 0x014 then s.tick else s)
    if waitsFor n then drainedOf (Inflight.writesCr n) s go else go s

/-- The level that MTCR of a trap bank needs (R150, R152). -/
def bankLevel (n : Nat) : Nat := if 0x022 ≤ n ∧ n ≤ 0x026 then 1 else if 0x027 ≤ n ∧ n ≤ 0x02B then 2 else 0

/-- The privilege check of MTCR (R152, check 5 of R38). -/
def crDenied (s : State) (n : Nat) : Bool :=
  (decide (0x100 ≤ n) && !s.myCtx.sys) || decide (s.hart.tlvl.toNat < bankLevel n)

/-- The tile setting that an MTCR of LPART or MAXVL asks for. -/
def partitionOf (s : State) (n : Nat) (v : Word) : Bool × BitVec 2 :=
  if n = 0x100 then lpartWrite s.myTile v else maxvlWrite s.myTile v

/-- An MTCR that takes effect at an event row while `sched.late` is set (log 2): it waits with its value. -/
def postpone (n : Nat) (v : Word) (s : State) : Res :=
  .wait (if s.hart.pendCr.isSome then s else s.setHart { s.hart with pendCr := some (n, v) })

/-- MTCR (R152, R156). -/
def execMtcr (x : ArgsMtcr) (s : State) : Out :=
  issue (.mtcr x) s fun s =>
    let n := x.c.toNat
    if crDenied s n then decodeTrap 0x02 (.mtcr x) s
    else
      readScalars [(x.d, x.p)] s fun s =>
      let v := s.hart.rs x.d
      if n = 0x100 ∨ n = 0x101 then
        let p := partitionOf s n v
        if p = (s.myTile.split, s.myTile.lim) then retireOnly s
        else if s.sched.late then postpone n v s
        else if tileDrained (State.tileOf s.cur) s then retireOnly (repartition (State.tileOf s.cur) p s)
        else .wait s
      else if n = 0x102 then retireOnly (s.setCtx s.ctxid { s.myCtx with detm := v.getLsbD 0 })
      else if n = 0x103 then retireOnly (s.setCtx s.ctxid { s.myCtx with slice := v.truncate 32 })
      else if n = 0x104 then
        if s.sched.late then postpone n v s
        else if s.unackedWrites s.cur then .wait s else retireOnly (writePtbase v s)
      else if waitsFor n then drainedOf (Inflight.writesCr n) s fun s => .ok (s.setHart (crWriteHart s n v).retire)
      else .ok (s.setHart (crWriteHart s n v).retire)

/-- The value that slot k's MTCR of index n waits with. -/
def pendingCr (s : State) (k n : Nat) : Option Word :=
  match (s.slot k).hart.pendCr with
  | some (m, v) => if m = n then some v else none
  | none => none

/-- Retires the MTCR of slot k that has taken effect; a slot run by STEP asks for its halt again (R356). -/
def retirePending (k : Nat) (s : State) : State :=
  let v := s.slot k
  s.setSlot k { v with hart := { v.hart.retire with pendCr := none, word := none }, halt := v.halt || v.step
                       busy := v.busy || v.step, step := false }

/-- A changing write of LPART or MAXVL by slot k takes effect (R86). -/
def partitionEvent (k n : Nat) (s : State) : Out :=
  match pendingCr s k n with
  | none => .next s
  | some v =>
    let t := State.tileOf k
    let p := if n = 0x100 then lpartWrite (s.tile t) v else maxvlWrite (s.tile t) v
    .next (if tileDrained t s then retirePending k (repartition t p s) else s)

/-- LPART: the event of R86. -/
def execLpart (slot : Nat) (s : State) : Out := partitionEvent slot 0x100 s

/-- MAXVL: the event of R86. -/
def execMaxvl (slot : Nat) (s : State) : Out := partitionEvent slot 0x101 s

/-- PTBASE: the write waits until the hart's earlier device-virtual accesses are performed (R300). -/
def execPtbase (slot : Nat) (s : State) : Out :=
  match pendingCr s slot 0x104 with
  | none => .next s
  | some v =>
    .next (if s.unackedWrites slot then s else { retirePending slot (writePtbase v { s with cur := slot }) with cur := s.cur })

/-! ## SETVL, WAITF, CONVOY, YIELD -/

/-- What SETVL grants (R72, R96); none while it waits. -/
def grant (s : State) (n : Nat) : Option Nat :=
  let h := s.hart
  let p : BitVec 32 := h.hwsrc.truncate 32
  if p = noTask ∨ n = 0 then some n
  else
    let mark := s.markOf s.ctxid p
    let known := s.taskKnown s.ctxid p
    if mark.isNone && !known then some n
    else
      let avail := ((mark.map (·.mark.toNat)).getD 0) - (h.hwsrc.extractLsb' 32 32).toNat
      let ended := (mark.map (·.ended)).getD false
      if ended then some (min n avail)
      else if !s.detm && decide (avail > 0) then some (min n avail)
      else if s.detm && decide (avail ≥ n) then some n
      else none

/-- Does the grant advance POS (R96)? -/
def advances (s : State) (n : Nat) : Bool := s.hart.hwsrc.truncate 32 != noTask && n != 0

/-- SETVL (R96). -/
def execSetvl (x : ArgsD) (s : State) : Out :=
  issue (.setvl x) s fun s =>
    readScalars [(x.a, x.p)] s fun s => destFree x.d s fun s =>
    let n := min (s.hart.rs x.a).toNat s.myTile.vlmax
    match grant s n with
    | none => .wait (s.setRunState .waiting)
    | some g =>
      let t := (if advances s n then s.refreshData s.cur else s).setRunState .running
      let h := t.hart
      let pos := h.hwsrc.extractLsb' 32 32 + BitVec.ofNat 32 g
      let h1 := if advances s n then { h with hwsrc := pos ++ (h.hwsrc.truncate 32 : BitVec 32) } else h
      writeRetire x.d (BitVec.ofNat 64 g) (t.setHart { h1 with vl := BitVec.ofNat 11 g })

/-- Is the named bit full (R149)? -/
def waitfFull (x : ArgsW) (h : Hart) : Bool :=
  if x.b = 0 then h.sFull x.a
  else if x.b = 1 then h.zFE.getLsbD x.a.toNat
  else if x.b = 2 then h.mFE.getLsbD x.a.toNat
  else h.allFull

/-- WAITF (R149). -/
def execWaitf (x : ArgsW) (s : State) : Out :=
  issue (.waitf x) s fun s => if waitfFull x s.hart then retireOnly s else .wait s

/-- CONVOY (R74): marks the boundary while DETM is set. -/
def execConvoy (s : State) : Out :=
  issue .convoy s fun s =>
    retireOnly (if s.detm then s.setHart { s.hart with convoy := true } else s)

/-- YIELD (R73): the hart leaves the round-robin until YIELD_RETURN. -/
def execYield (x : ArgsS) (s : State) : Out :=
  issue (.yield x) s fun s =>
    readScalars [(x.a, x.p)] s fun s =>
    retireOnly (s.setSlot s.cur { s.slot s.cur with yielded := true })

/-- YIELD_RETURN (R73). -/
def execYieldReturn (slot : Nat) (s : State) : Out :=
  .next (if (s.slot slot).yielded then s.setSlot slot { s.slot slot with yielded := false } else s)

end Sys2Proof.Machine
end

