-- ==== Sys2Proof/Machine/Image.lean ====
section
/-! DEFINITION. The save-image layout (R352) as one pair of functions on the live state of a slot: what stands in 8 bytes of
it, and writing them. The save engine, the restore and the debug port all use it. -/

namespace Sys2Proof.Machine
open Sys2Proof

/-- The control registers at 0x0080, in order (R352). -/
def imageCrs : List Nat := [0x000, 0x001, 0x002, 0x003, 0x005, 0x006, 0x007, 0x008, 0x009, 0x00A, 0x00B, 0x00C, 0x015, 0x016,
  0x021, 0x030]

/-- A number from n pieces of `w` bits, the first lowest. -/
def pack (w : Nat) (f : Nat → Nat) : Nat → Nat
  | 0 => 0
  | n + 1 => f 0 % 2 ^ w + 2 ^ w * pack w (fun i => f (i + 1)) n

/-- VLG of slice i. -/
def Hart.vlgOf (h : Hart) (i : Nat) : Nat := (SMap.get 0 h.vlg i).toNat

/-- Nibble of slice sl at element i. -/
def Hart.nibble (h : Hart) (sl i : Nat) : Nat := ((h.row i).extractLsb' (4 * sl) 4).toNat

/-- Writes the nibble of slice sl at element i. -/
def Hart.putNibble (h : Hart) (sl i v : Nat) : Hart := { h with z := SMap.set 0 h.z i (putElem (h.row i) 4 sl v) }

/-- Byte b of an accumulator row's image: 6 bytes for each cell, then the SAT bits. -/
def rowByte (s : State) (dom m b : Nat) : Nat :=
  if b < 24576 then bits (SMap.get 0 s.cells (cellKey dom m (b / 6))).toNat (8 * (b % 6)) 8
  else pack 1 (fun i => ((SMap.get 0 s.cells (cellKey dom m (8 * (b - 24576) + i))).getLsbD 48).toNat) 8

/-- Writes a byte of an accumulator row's image. -/
def putRowByte (dom m b v : Nat) (s : State) : State :=
  let cell := fun (key : Nat) (f : BitVec 49 → BitVec 49) (t : State) =>
    { t with cells := SMap.set 0 t.cells key (f (SMap.get 0 t.cells key)) }
  if b < 24576 then
    cell (cellKey dom m (b / 6)) (fun c =>
      (c &&& ~~~ (BitVec.ofNat 49 (255 * 2 ^ (8 * (b % 6))))) ||| BitVec.ofNat 49 (v % 256 * 2 ^ (8 * (b % 6)))) s
  else foldRange (fun i t => cell (cellKey dom m (8 * (b - 24576) + i)) (fun c => setB c 48 (v.testBit i)) t) 0 8 s

/-- One 16-byte stream-binding entry (R352); the place of its fields is the model's own (log 29). -/
def bindWord (b : Option StreamBind) (half : Nat) : Nat :=
  match b with
  | none => if half = 0 then 0xFFFF0000 else 0
  | some x => if half = 0 then x.slice % 256 + x.wcode.toNat * 2 ^ 8 + x.chan % 2 ^ 16 * 2 ^ 16 + x.d % 2 ^ 32 * 2 ^ 32
              else x.c % 2 ^ 32 + x.d / 2 ^ 32 % 2 ^ 16 * 2 ^ 32 + x.c / 2 ^ 32 % 2 ^ 16 * 2 ^ 48

/-- Writes half of a stream-binding entry. -/
def putBindWord (k half v : Nat) (m : SMap StreamBind) : SMap StreamBind :=
  let old := SMap.find? m k
  if half = 0 then
    if bits v 16 16 = 0xFFFF then SMap.del m k
    else
      let d0 := (old.map (·.d)).getD 0
      SMap.put m k { slice := bits v 0 8 % 64, wcode := BitVec.ofNat 3 (v / 256), chan := bits v 16 16,
                     d := d0 / 2 ^ 32 * 2 ^ 32 + bits v 32 32, c := (old.map (·.c)).getD 0 }
  else match old with
    | none => m
    | some x => SMap.put m k { x with d := bits v 32 16 * 2 ^ 32 + x.d % 2 ^ 32, c := bits v 48 16 * 2 ^ 32 + bits v 0 32 }

/-- The 8 bytes at offset `off`, a multiple of 8, of slot k's live state in the layout of R352; elements at or above VLMAX are not
addressable and read 0 (R78, log 92). -/
def imageGet (s : State) (k off : Nat) : Nat :=
  let v := s.slot k
  let h := v.hart
  let dom := s.domain k
  if off = 0x00 then 1 + h.abnd.toNat * 2 ^ 8 + v.taskCtx.toNat * 2 ^ 32
  else if off = 0x08 then h.pc.toNat
  else if off = 0x10 then h.eidx.toNat + h.tlvl.toNat * 2 ^ 16
  else if off = 0x18 then h.taskid.toNat + h.hwsrc.toNat / 2 ^ 32 * 2 ^ 32
  else if off = 0x20 then h.dirty.toNat
  else if off = 0x28 then (s.ctx v.taskCtx).clamps.toNat
  else if off < 0x40 then 0
  else if off < 0x80 then pack 8 (fun i => h.vlgOf (off - 0x40 + i)) 8
  else if off < 0x100 then (crRead { s with cur := k } (imageCrs.getD ((off - 0x80) / 8) 0)).toNat
  else if off < 0x128 then (bankRead h.bank1 ((off - 0x100) / 8)).toNat
  else if off < 0x150 then (bankRead h.bank2 ((off - 0x128) / 8)).toNat
  else if off < 0x170 then pack 16 (fun i => (SMap.find? h.handles ((off - 0x150) / 2 + i)).getD 0xFFFF) 4
  else if off < 0x180 then 0
  else if off < 0x200 then bindWord (SMap.find? h.binds ((off - 0x180) / 16)) ((off - 0x180) / 8 % 2)
  else if off < 0x400 then (h.rs (BitVec.ofNat 6 ((off - 0x200) / 8))).toNat
  else if off < 0x800 then bits (h.rm ((off - 0x400) / 128)).toNat (8 * (off % 128)) 64
  else if off < 0x900 then bits (h.rv ((off - 0x800) / 64)).toNat (8 * (off % 64)) 64
  else if off < 0xA00 then bits (SMap.get 0 h.replay ((off - 0x900) / 64)).toNat (8 * (off % 64)) 64
  else if off < 0x1000 then 0
  else if off < 0x9000 then
    pack 4 (fun j =>
      let i := (off - 0x1000) % 512 * 2 + j
      if i < (s.tile (State.tileOf k)).vlmax then h.nibble ((off - 0x1000) / 512) i else 0) 16
  else if off < 0x6B000 then
    pack 8 (fun i => rowByte s dom ((off - 0x9000) / 0x6200) ((off - 0x9000) % 0x6200 + i)) 8
  else 0

/-- Bits 8b to 8b + 63 of a wide register replaced by v. -/
def putWide {n : Nat} (x : BitVec n) (b v : Nat) : BitVec n :=
  (x &&& ~~~ (BitVec.ofNat n ((2 ^ 64 - 1) * 2 ^ (8 * b)))) ||| BitVec.ofNat n (v % 2 ^ 64 * 2 ^ (8 * b))

/-- A write of a control register of the image: whole, where MTCR writes only a part of it. -/
def imagePutCr (s : State) (n : Nat) (v : Word) : Hart :=
  let h := s.hart
  if n = 0x00C then { h with macfg := { mcl := v.truncate 4, acl := v.extractLsb' 4 16, isat := v.getLsbD 20 } }
  else if n = 0x015 then { h with instret := v, pcMark := h.pcMark + (v - h.instret) }
  else crWriteHart s n v

/-- Writes the 8 bytes at offset `off` of slot k's live state. Format, ABND, context and CLAMPS are read-only (R352, R356).
Element positions at or above VLMAX are not addressable, and mask bits there read 0 (R78, R95, log 92). -/
def imagePut (k off v : Nat) (s : State) : State :=
  let h := (s.slot k).hart
  let lanes := s.tile (State.tileOf k)
  let dom := s.domain k
  let w : Word := BitVec.ofNat 64 v
  let put := fun (x : Hart) => s.setHartOf k x
  if off = 0x00 then s
  else if off = 0x08 then put { h with pc := w &&& ~~~ 3 }
  else if off = 0x10 then put { h with eidx := w.truncate 11, tlvl := if w.extractLsb' 16 2 = 3 then h.tlvl else w.extractLsb' 16 2 }
  else if off = 0x18 then
    put { h with taskid := w.truncate 32, hwsrc := w.extractLsb' 32 32 ++ (h.hwsrc.truncate 32 : BitVec 32) }
  else if off = 0x20 then put { h with dirty := w }
  else if off < 0x40 then s
  else if off < 0x80 then
    put { h with vlg := foldRange (fun i m => SMap.set 0 m (off - 0x40 + i) (BitVec.ofNat 5 (min 16 (bits v (8 * i) 8)))) 0 8 h.vlg }
  else if off < 0x100 then put (imagePutCr { s with cur := k } (imageCrs.getD ((off - 0x80) / 8) 0) w)
  else if off < 0x128 then put { h with bank1 := bankWrite h.bank1 ((off - 0x100) / 8) w }
  else if off < 0x150 then put { h with bank2 := bankWrite h.bank2 ((off - 0x128) / 8) w }
  else if off < 0x170 then
    put { h with handles := foldRange (fun i m =>
      let c := bits v (16 * i) 16
      if c < Config.channels then SMap.put m ((off - 0x150) / 2 + i) c else SMap.del m ((off - 0x150) / 2 + i)) 0 4 h.handles }
  else if off < 0x180 then s
  else if off < 0x200 then put { h with binds := putBindWord ((off - 0x180) / 16) ((off - 0x180) / 8 % 2) v h.binds }
  else if off < 0x400 then put (h.ws (BitVec.ofNat 6 ((off - 0x200) / 8)) w)
  else if off < 0x800 then put (h.wm ((off - 0x400) / 128) (putWide (h.rm ((off - 0x400) / 128)) (off % 128) v &&& lanes.maskBits))
  else if off < 0x900 then put (h.wv ((off - 0x800) / 64) (putWide (h.rv ((off - 0x800) / 64)) (off % 64) v))
  else if off < 0xA00 then
    let r := (off - 0x900) / 64
    put { h with replay := SMap.set 0 h.replay r (putWide (SMap.get 0 h.replay r) (off % 64) v) }
  else if off < 0x1000 then s
  else if off < 0x9000 then
    put (foldRange (fun j x =>
      let i := (off - 0x1000) % 512 * 2 + j
      if i < lanes.vlmax then x.putNibble ((off - 0x1000) / 512) i (bits v (4 * j) 4) else x) 0 16 h)
  else if off < 0x6B000 then
    foldRange (fun i t => putRowByte dom ((off - 0x9000) / 0x6200) ((off - 0x9000) % 0x6200 + i) (bits v (8 * i) 8) t) 0 8 s
  else s

/-! ## The image in HBM -/

/-- n bytes of HBM by physical address, without translation; a place past the HBM reads 0. -/
def physRead (s : State) (a n : Nat) : Nat := if a + n ≤ Config.hbmBytes then bytesAt s.hbm a n else 0

/-- Writes n bytes of HBM by physical address; a place past the HBM is not written. -/
def physWrite (s : State) (a n v : Nat) : State :=
  if a + n ≤ Config.hbmBytes then { s with hbm := putBytes s.hbm a n v } else s

/-- Writes n words of slot k's image from offset off on (R352). -/
def saveWords (k img off n : Nat) (s : State) : State :=
  foldRange (fun i t => physWrite t (img + off + 8 * i) 8 (imageGet t k (off + 8 * i))) 0 n s

/-- Loads n words of the image from offset off on into slot k. -/
def loadWords (k img off n : Nat) (s : State) : State :=
  foldRange (fun i t => imagePut k (off + 8 * i) (physRead t (img + off + 8 * i) 8) t) 0 n s

/-- Must slice i be written by a save into the image at `img` (R353)? -/
def mustSave (v : Slot) (img : Word) (i : Nat) : Bool :=
  decide (0 < v.hart.vlgOf i) && (v.hart.dirty.getLsbD i || v.simg != some img)

/-- COST of R353. -/
def saveCost (s : State) (k : Nat) : Nat :=
  let v := s.slot k
  let groups := foldRange (fun i acc => acc + (if mustSave v v.img i then v.hart.vlgOf i else 0)) 0 64 0
  256 + ceilDiv (4096 + 32 * groups + 25088 * ones v.hart.macfg.acl) 64

/-- The save engine's writes for slot k into the image at `at_` (R351–R353): the head, the slices that must be written, the held rows over NC
columns. -/
def writeImage (k : Nat) (at_ : Word) (s : State) : State :=
  let v := s.slot k
  let img := at_.toNat
  let t := saveWords k img 0 512 s
  let t := foldRange (fun i st =>
    if mustSave v at_ i then saveWords k img (0x1000 + 512 * i) (4 * v.hart.vlgOf i) st else st) 0 64 t
  let nc := s.columns k
  foldRange (fun m st =>
    if v.hart.macfg.acl.getLsbD m then
      saveWords k img (0x9000 + 0x6200 * m + 24576) (nc / 64) (saveWords k img (0x9000 + 0x6200 * m) (6 * nc / 8) st)
    else st) 0 16 t

end Sys2Proof.Machine
end

