-- ==== Sys2Proof/Machine/Contexts.lean ====
section
/-! DEFINITION. Trap instructions and contexts: ECALL, TRET, BKPT (R358, R359), CKILL and KILL (R339, R360), SAVECTX, PRE and the
save (R349–R353, R361), time slices (R354), the restore (R262, R355), halting and the debug port (R356). -/

namespace Sys2Proof.Machine
open Sys2Proof

/-! ## Trap instructions -/

/-- ECALL (R358): TEPC is the next instruction's address. -/
def execEcall (x : ArgsS) (s : State) : Out :=
  issue (.ecall x) s fun s =>
    readScalars [(x.a, x.p)] s fun s =>
    .ok (s.takeTrap s.cur 0x12 0 (s.hart.rs x.a) 0 (s.hart.pc + 4))

/-- TRET (R359). -/
def execTret (s : State) : Out :=
  issue .tret s fun s =>
    if s.hart.tlvl = 0 then .trap 0x01 0 ((wordOf .tret).zeroExtend 64) 0 s else .ok (s.returnTrap s.cur)

/-- The slot becomes HALTED, its state kept for the resume (R55, R356); its instruction is fetched and its requests are made again. -/
def haltSlot (k : Nat) (s : State) : State :=
  let t := (s.clearRequests k).dropEarly k
  let v := t.slot k
  t.setSlot k { v with state := .halted, ret := v.state, halt := false, step := false, busy := false
                       hart := { v.hart with word := none, queue := [], want := none, accs := [] } }

/-- BKPT (R358): a trap with its own PC, or a halt at it under HALTBK. -/
def execBkpt (b : BitVec 6) (s : State) : Out :=
  issue (.bkpt b) s fun s =>
    if (s.slot s.cur).haltbk then drained s fun s => .ok (haltSlot s.cur s)
    else .trap 0x13 0 (b.zeroExtend 64) 0 s

/-! ## Kills -/

/-- CKILL (R360). -/
def execCkill (x : ArgsD) (s : State) : Out :=
  issue (.ckill x) s fun s =>
    readScalars [(x.a, x.p)] s fun s => destFree x.d s fun s =>
    let v := s.hart.rs x.a
    let hi := v.extractLsb' 6 58
    let c : BitVec 6 := v.truncate 6
    let own := v = BitVec.allOnes 64
    if own then .ok (s.kill s.ctxid 2 (s.killBy s.cur))
    else if (hi ≠ 0 ∧ hi ≠ BitVec.allOnes 58) ∨ (c ≠ s.ctxid ∧ !s.myCtx.sys) then .trap 0x02 0 v 0 s
    else if c = s.ctxid then .ok (s.kill c 2 (s.killBy s.cur))
    else if !(s.ctx c).res ∨ (s.ctx c).dying then writeLate x.d 1 s
    else writeLate x.d 0 (s.kill c 2 (s.killBy s.cur))

/-- A write of KILL (R337, R339): a resident context is killed, reason 3. -/
def killWrite (c : BitVec 6) (s : State) : State :=
  if (s.ctx c).res ∧ !(s.ctx c).dying then s.kill c 3 {} else s

/-- KILL (R337, R339). -/
def execKill (ctx : Nat) (s : State) : Out :=
  .next (if ctx < Config.contexts then killWrite (BitVec.ofNat 6 ctx) s else s)

/-! ## Requests of the switch word -/

/-- SAVECTX (R361): the hart issues nothing before the stop that it requests. -/
def execSavectx (x : ArgsS) (s : State) : Out :=
  issue (.savectx x) s fun s =>
    readScalars [(x.a, x.p)] s fun s => drained s fun s =>
    let v := s.slot s.cur
    let t := s.setSlot s.cur
      { v with
        scode := (s.hart.rs x.a).truncate 16, pre := v.pre || v.img != 0
        preImg := if v.img = 0 then v.preImg else v.img }
    retireOnly t

/-- A write of PRE (R349, R350): ignored while BUSY is set, and for a slot whose IMG is 0; the save goes to the IMG of now (R436). -/
def preWrite (k : Nat) (s : State) : State :=
  let v := s.slot k
  if v.busy ∨ v.img = 0 ∨ !s.occupied k then s else s.setSlot k { v with pre := true, preImg := v.img }

/-- PRE (R350). -/
def execPre (slot : Nat) (s : State) : Out := .next (preWrite slot s)

/-- A write of HALT (R350, R356). -/
def haltWrite (k : Nat) (s : State) : State :=
  let v := s.slot k
  if v.state = .running ∨ v.state = .waiting then s.setSlot k { v with halt := true, busy := true } else s

/-- HALT (R350, R356). -/
def execHalt (slot : Nat) (s : State) : Out := .next (haltWrite slot s)

/-- A write of RESUME, or of STEP, after which the slot halts again after one instruction (R350, R356). -/
def resumeWrite (k : Nat) (one : Bool) (s : State) : State :=
  let v := s.slot k
  if v.state = .halted then s.setSlot k { v with state := v.ret, step := one, hart := { v.hart with abnd := false } } else s

/-- RESUME (R350, R356). -/
def execResume (slot : Nat) (s : State) : Out := .next (resumeWrite slot false s)

/-- STEP (R350, R356). -/
def execStepSlot (slot : Nat) (s : State) : Out := .next (resumeWrite slot true s)

/-- A write of DROP (R350): the image stays. -/
def dropWrite (k : Nat) (s : State) : State :=
  let v := s.slot k
  if v.busy ∨ v.state ≠ .saved then s else s.setSlot k { v with state := .free }

/-- DROP (R350). -/
def execDrop (slot : Nat) (s : State) : Out := .next (dropWrite slot s)

/-! ## Stop points -/

/-- Is the instruction in progress an MFCR or MTCR, whose waits are no stop points (R156, R349)? -/
def waitsInCr (h : Hart) : Bool :=
  match h.word.map (fun w => decode w.1) with
  | some (.ok (.mfcr _)) | some (.ok (.mtcr _)) => true
  | _ => false

/-- Is the instruction in progress an LD or LDQ over elements, which stops above the groups that it has issued (R347)? -/
def loadsGroups (h : Hart) : Bool :=
  match h.word.map (fun w => decode w.1) with
  | some (.ok (.ld x)) => x.m != 2
  | some (.ok (.ldq _)) => true
  | _ => false

/-- Is the hart of slot k inside an instruction that must go on to its next stop of R347: a reply outstanding, an element group of
device class begun, a group of a load issued, an atomic begun, a wait of MFCR or MTCR? -/
def insideInstr (s : State) (k : Nat) : Bool :=
  let h := (s.slot k).hart
  s.waitsRemote k || h.mid || waitsInCr h || (loadsGroups h && s.hasRequests k) || h.accs.any (·.value.isNone)

/-- Is the hart of slot k at a stop point of R347, R349 and R351: between instructions or element groups or in a wait, nothing
dispatched that has not retired, every FE bit full, no MTCR that waits, TASKEND not begun? -/
def stopPoint (s : State) (k : Nat) : Bool :=
  let v := s.slot k
  (v.state == .running || v.state == .waiting) && v.hart.inflight.isEmpty && v.hart.pendCr.isNone && !v.ending &&
  v.reload.isNone && !insideInstr s k

/-- The twelve HBM stacks, which every save image touches (R299, R408). -/
def allStacks : List Nat := (List.range 12).map (196 + ·)

/-- The save of slot k at its stop point (R261, R351–R353): the image, the claims released, the slot SAVED with BUSY clear; a
halt requested beside it is dropped (log 93). -/
def saveSlot (k : Nat) (s : State) : State :=
  let img := (s.slot k).preImg
  let t := writeImage k img ((s.fenceDevice k).clearRequests k)
  let v := t.slot k
  let h := v.hart
  let named := h.handles.map (·.2) ++ h.binds.map (·.2.chan)
  let t := t.mapRun k (fun r => { r with was := v.state, kept := named })
  t.setSlot k
    { v with state := .saved, ret := v.state, pre := false, halt := false, step := false, busy := false, simg := some img
             yielded := false
             hart := { h with abnd := false, dirty := 0, convoy := false, pwait := none, qtail := none, passed := 0, word := none, queue := [], want := none, accs := []
                              replaying := 0, macroFault := [], macfg := { h.macfg with mcl := 0, acl := 0 } } }

/-- PRE_EMPTION (R349–R353). -/
def execPreEmption (slot : Nat) (s : State) : Out :=
  let v := s.slot slot
  if !v.pre ∨ !stopPoint s slot then .next s
  else match s.useFns allStacks (.bad 0 0) with
    | .dead f => .next (s.killLasting slot f)
    | .wait => .next s
    | _ => .next (saveSlot slot s)

/-- HALT_STOP (R356). -/
def execHaltStop (slot : Nat) (s : State) : Out :=
  .next (if (s.slot slot).halt ∧ stopPoint s slot then
      let t := haltSlot slot s
      t.setHartOf slot { (t.slot slot).hart with pwait := none, qtail := none }
    else s)

/-- TIME_SLICE_EXPIRY (R349, R354): a slice shorter than COST was extended. DESIGN CHOICE (log 119): of several requests before the one save, by
PRE, an expiry or SAVECTX, the save uses the IMG held at the latest. -/
def execTimeSliceExpiry (slot : Nat) (s : State) : Out :=
  let v := s.slot slot
  let c := v.taskCtx
  let n := (s.ctx c).slice
  if !(v.state == .running || v.state == .waiting) ∨ n = 0 then .next s
  else
    let t := if n.toNat ≥ saveCost s slot then s else s.setCtx c { s.ctx c with clamps := (s.ctx c).clamps + 1 }
    .next (if v.img = 0 then t else t.setSlot slot { v with pre := true, preImg := v.img })

/-! ## Restoring -/

/-- The context, task and claims that an image names. -/
structure ImageHead where
  ctx : BitVec 6
  task : BitVec 32
  mac : BitVec 4
  rows : BitVec 16

/-- Reads them from the image at `img`. -/
def imageHead (s : State) (img : Nat) : ImageHead :=
  let m := physRead s (img + 0x80 + 8 * 11) 8
  { ctx := BitVec.ofNat 6 (physRead s (img + 4) 4), task := BitVec.ofNat 32 (physRead s (img + 0x18) 4)
    mac := BitVec.ofNat 4 m, rows := BitVec.ofNat 16 (m / 16) }

/-- Does the task have a participation that has not ended, on another tile than slot k's (R297)? -/
def awayFromRound (s : State) (k : Nat) (c : BitVec 6) (task : BitVec 32) : Bool :=
  s.rounds.any (fun r => r.2.ctx == c &&
    r.2.parts.any (fun p => p.task == task && !p.left && p.tile != State.tileOf k))

/-- The restored task keeps its bindings and participations, under its new slot (log 19). -/
def moveTask (k : Nat) (c : BitVec 6) (task : BitVec 32) (s : State) : State :=
  let old := match s.running.find? (fun r => r.ctx == c && r.rc.id == task) with
    | some r => r.slot
    | none => k
  let hold := fun (_ : Nat) (b : Binding) => if b.holder.toNat = old then { b with holder := BitVec.ofNat 11 k } else b
  let t : State :=
    { s with
      running := s.running.map (fun r => if r.ctx = c ∧ r.rc.id = task then { r with slot := k } else r)
      bindings := s.bindings.map (fun p => if p.1 / 64 = c.toNat then (p.1, hold p.1 p.2) else p)
      rounds := State.mapAll (fun _ r => if r.ctx = c then
        { r with parts := r.parts.map (fun p => if p.task = task ∧ !p.left then { p with slot := k } else p) } else r) s.rounds }
  if old = k then t else t.setHartOf old { (t.slot old).hart with handles := [], binds := [] }

/-- Handles and bindings of channels that have been closed meanwhile are gone, though another channel may have been opened under
the number (R240, log 19); a final count fixed meanwhile sets its END bit (R233). -/
def dropClosed (s : State) (c : BitVec 6) (task : BitVec 32) (h : Hart) : Hart :=
  let kept : Nat → Bool := fun n =>
    match s.running.find? (fun r => r.ctx == c && r.rc.id == task) with | some r => r.kept.contains n | none => true
  let live : Nat → Bool := fun n => kept n && (match s.chan n with | some x => x.ctx == c | none => false)
  let final : Nat → Option Nat := fun n => (s.chan n).bind (·.final)
  let binds := h.binds.filter (fun p => live p.2.chan)
  { h with handles := h.handles.filter (fun p => live p.2), binds := binds
           strmf := binds.foldl (fun m p => if final p.2.chan = some p.2.c then setB m p.1 true else m) h.strmf }

/-- The saved state of the task's slot: RUNNING, or WAITING (R55). -/
def savedState (s : State) (c : BitVec 6) (task : BitVec 32) : SlotState :=
  match s.running.find? (fun r => r.ctx == c && r.rc.id == task) with
  | some r => r.was
  | none => .running

/-- The restore of the image at `img` into slot k, its checks passed (R262, R355); every element that the image does not bring reads
zero, in lanes that are not available too (R79). -/
def loadImage (k img : Nat) (p : ImageHead) (s : State) : State :=
  let v := s.slot k
  let arg := match s.running.find? (fun r => r.ctx == p.ctx && r.rc.id == p.task) with
    | some r => r.rc.arg
    | none => 0
  let clean : Hart := { v.hart with z := [], hidden := [], m := [], handles := [], binds := [], replay := [], inflight := [], passed := 0
                                    convoy := false, pwait := none, macroFault := [], pendCr := none, qtail := none
                                    taskarg := arg, sFE := BitVec.allOnes 64, word := none, mid := false, queue := [], want := none, accs := []
                                    abnd := false, replaying := 0 }
  let t := s.setSlot k { v with state := savedState s p.ctx p.task, ctx := p.ctx, taskCtx := p.ctx, task := p.task
                                hart := clean, pre := false, halt := false, step := false, yielded := false, ending := false
                                lastctx := some p.ctx, simg := some v.img, refused := false, busy := true }
  let t := loadWords k img 0 512 t
  let h := (t.slot k).hart
  let zfe := foldRange (fun i (m : BitVec 64) => if h.vlgOf i = 0 then m else setB m i false) 0 64 (BitVec.allOnes 64)
  let keep := h.replay
  let t := t.setHartOf k (dropClosed t p.ctx p.task { h with pcMark := h.instret, m := [], mFE := 0, zFE := zfe, macfg := { h.macfg with mcl := 0, acl := 0 } })
  let t := grantUnits k p.mac p.rows t
  let h1 := (t.slot k).hart
  let t := t.setHartOf k { h1 with replay := keep, replaying := p.mac }
  let nc := t.columns k
  let t := foldRange (fun m st =>
    if p.rows.getLsbD m then
      loadWords k img (0x9000 + 0x6200 * m + 24576) (nc / 64) (loadWords k img (0x9000 + 0x6200 * m) (6 * nc / 8) st)
    else st) 0 16 t
  let t := t.setSlot k { t.slot k with reload := some ⟨0, v.img, h.vlg⟩ }
  moveTask k p.ctx p.task (t.refreshData k)

/-- Would the image's claims be granted to slot k (R262)? -/
def claimsFit (s : State) (k : Nat) (p : ImageHead) : Bool :=
  let v := s.slot k
  let t := s.setSlot k { v with taskCtx := p.ctx, state := .running, hart := { v.hart with macfg := {} } }
  claimStatus t k p.mac p.rows == 0

/-- A write of RESTORE (R355, R363): into a FREE slot, or one SAVED with the same image; a refusal sets REFUSED and nothing
else. A FAILED stack counts a lasting error of no context (R408, R416). DESIGN CHOICE (log 33): while a stack is not READY the write does
nothing, and firmware makes it again. -/
def restoreWrite (k : Nat) (s : State) : State :=
  let v := s.slot k
  let img := v.img.toNat
  if v.busy then s
  else match s.useFns allStacks (.bad 0 0) with
    | .wait => s
    | .dead f => s.useFailed f
    | _ =>
      let p := imageHead s img
      let fits := v.state == .free || (v.state == .saved && v.simg == some v.img)
      if img ≠ 0 ∧ fits ∧ (s.ctx p.ctx).res ∧ claimsFit s k p ∧ !awayFromRound s k p.ctx p.task ∧
          s.fnReady (State.tileOf k) then
        loadImage k img p s
      else s.setSlot k { v with refused := true }

/-- RESTORE (R355). -/
def execRestore (slot : Nat) (s : State) : Out := .next (restoreWrite slot s)

/-- One more slice or mask of the image of the restore `r` is in place; entries that hold nothing are passed over (R79, R90, R355). What the
image holds for elements at or above the VLMAX of the restoring tile is not loaded (log 92). -/
def reloadNext (k : Nat) (r : Reload) : Nat → Nat → State → State
  | _, 0, s => s
  | n, fuel + 1, s =>
    let h := (s.slot k).hart
    let img := r.img.toNat
    let step := fun (t : State) (h : Hart) =>
      let v := t.slot k
      t.setSlot k { v with hart := h, reload := if n + 1 < 72 then some { r with next := n + 1 } else none
                           busy := decide (n + 1 < 72) || v.halt }
    if n < 64 then
      let groups := (SMap.get 0 r.vlg n).toNat
      if groups = 0 then reloadNext k r (n + 1) fuel (step s h)
      else
        let t := loadWords k img (0x1000 + 512 * n) (4 * groups) s
        let h1 := (t.slot k).hart
        step t { h1 with zFE := setB h1.zFE n true }
    else
      let t := loadWords k img (0x400 + 128 * (n - 64)) 16 s
      let h1 := (t.slot k).hart
      step t { h1 with mFE := setB h1.mFE (n - 64) true }

/-- SLICE_RELOAD (R355). -/
def execSliceReload (slot : Nat) (s : State) : Out :=
  let v := s.slot slot
  match v.reload with
  | none => .next s
  | some r =>
    match s.useFns allStacks (.bad 0 0) with
    | .wait => .next s
    | .dead f => .next (s.killLasting slot f)
    | _ => .next (reloadNext slot r r.next 65 s)

/-! ## The debug port -/

/-- What a read of the debug data word gives (R356). -/
def debugRead (s : State) : Word :=
  let k := s.debugSlot.toNat
  if (s.slot k).state = .halted then BitVec.ofNat 64 (imageGet s k s.debugOff.toNat) else 0

/-- A write of the debug data word (R356). -/
def debugWrite (v : Word) (s : State) : State :=
  let k := s.debugSlot.toNat
  let off := s.debugOff.toNat
  if (s.slot k).state ≠ .halted ∨ off % 8 ≠ 0 then s
  else
    let t := imagePut k off v.toNat s
    if 0x1000 ≤ off ∧ off < 0x9000 then
      let sl := (off - 0x1000) / 512
      let h := (t.slot k).hart
      t.setHartOf k { h with dirty := setB h.dirty sl true, vlg := SMap.set 0 h.vlg sl 16 }
    else t

/-- DEBUG_DATA (R356): a read leaves the machine as it was. -/
def execDebugData (write : Bool) (v : Word) (s : State) : Out := .next (if write then debugWrite v s else s)

end Sys2Proof.Machine
end

