-- ==== Sys2Proof/Machine/Atomics.lean ====
section
/-! DEFINITION. The atomics (R328–R331) and deterministic AFADD (R332–R335). -/

namespace Sys2Proof.Machine
open Sys2Proof

/-- NEW of R330: the value stored, and its flags. `v` is the operand, `e` the expected value of ACAS. -/
def newValue (op : MemOp) (w old v e : Nat) : Nat × Flags :=
  match op with
  | .aadd => ((old + v) % 2 ^ w, 0)
  | .afadd => addV (State.heldFmt (w / 8)) rneCtl ((State.heldFmt (w / 8)).raw old) ((State.heldFmt (w / 8)).raw v)
  | .amax => (if sx old w < sx v w then v else old, 0)
  | .amin => (if sx v w < sx old w then v else old, 0)
  | .acas => (if old = e then v else old, 0)
  | _ => (v, 0)

/-- An atomic at a local home by the executing hart: the buffered writes that it sees there come first in coherence order
(R314), then the location is read and written indivisibly. -/
def atomicAt (op : MemOp) (w : Nat) (loc : Loc) (v e : Nat) (s : State) : Nat × Flags × State :=
  let t := s.drainIf (fun b => State.sees s.cur b && b.overlaps loc (w / 8))
  let old := t.homeRead loc (w / 8)
  let r := newValue op w old v e
  (old, r.2, t.performWrite s.cur loc (w / 8) r.1)

/-- What an atomic's elements have come to: the old values, flags, and the state. -/
structure AtomicsDone where
  olds : List (Nat × Nat)
  fl : Flags
  s : State

/-- One element of an atomic that has passed its checks: performed at its local home, answered by its peer, or sent there as it was translated
(R310, R329). At one location of a peer an element waits for the ones below it. -/
def atomicElem (op : MemOp) (w : Nat) (v e : Nat → Nat) (s : State) (a : Accessed) : Accessed × State :=
  if a.value.isSome then (a, s)
  else match a.loc with
    | .peer q pa =>
      match s.requestOf (.elem s.cur a.i) with
      | some r => (match r.answer with | .data n => ({ a with value := some n }, s) | _ => (a, s))
      | none =>
        if s.awaits q pa then (a, s)
        else (a, s.sendRequest (.elem s.cur a.i) s.ctxid q op pa (w / 8) (v a.i) (e a.i) a.device a.va)
    | loc =>
      let r := atomicAt op w loc (v a.i) (e a.i) s
      ({ a with value := some r.1 }, r.2.2)

/-- The elements in increasing order (R329), no more than one of them performed at a local home where `one` (log 2). -/
def atomicElems (op : MemOp) (w : Nat) (v e : Nat → Nat) (one : Bool) : List Accessed → State → List Accessed × State
  | [], s => ([], s)
  | a :: l, s =>
    let r := atomicElem op w v e s a
    if one && a.value.isNone && r.1.value.isSome then (r.1 :: l, r.2)
    else
      let t := atomicElems op w v e one l r.2
      (r.1 :: t.1, t.2)

/-- The active elements of lo, …, lo + n − 1 as translated, or the first failing one with cause and walk level; a host page fails with cause 0x15 (R331), and
so does a peer's while `held` (R332). -/
inductive AtomicCheck where
  | ok (l : List Accessed)
  | fail (v : Word) (cause wlvl : Nat)
  | wait (v : Word)
  | dead (fn : Nat)

/-- The element i, translated, before those of `r`. -/
def AtomicCheck.cons (a : Accessed) : AtomicCheck → AtomicCheck
  | .ok l => .ok (a :: l)
  | r => r

/-- Checks the elements before any is performed (R329). -/
def checkAtomics (sz : Nat) (held : Bool) (act : Nat → Bool) (addr : Nat → Word) (s : State) : Nat → Nat → AtomicCheck
  | _, 0 => .ok []
  | i, n + 1 =>
    let rest := checkAtomics sz held act addr s (i + 1) n
    if !act i then rest
    else match s.checkSpace s.cur s.hart.mspace (addr i).toNat .atomic sz sz false with
      | .bad c wl => .fail (addr i) c wl
      | .wait => .wait (addr i)
      | .dead f => .dead f
      | .go (.host _) _ => .fail (addr i) 0x15 0
      | .go (.peer q pa) dev => if held then .fail (addr i) 0x15 0 else rest.cons ⟨i, addr i, .peer q pa, dev, none⟩
      | .go loc dev => rest.cons ⟨i, addr i, loc, dev, none⟩

/-! ## Holds (R332, R333) -/

/-- The atomic unit of a local location: its tile, or 1,000 plus its stack's number (R331). -/
def atomicUnit : Loc → Nat
  | .cis a => a / 2 ^ 21
  | .hbm a => 1000 + State.stackFn a
  | _ => 0

/-- The bytes of two held locations overlap. -/
def locOverlap : Loc → Nat → Loc → Nat → Bool
  | .hbm a, n, .hbm b, m => decide (a < b + m ∧ b < a + n)
  | .cis a, n, .cis b, m => decide (a < b + m ∧ b < a + n)
  | _, _, _, _ => false

/-- Holds one update under the tag (context, group, phase), or refuses it (R333). -/
def holdUpdate (c : BitVec 6) (g : Nat) (p : BitVec 32) (loc : Loc) (n : Nat) (u : HeldUpd) (s : State) : Option State :=
  let unit := atomicUnit loc
  let mine : HeldAddr → Bool := fun e => e.loc == loc && e.n == n && e.ctx == c && e.group == g && e.phase == p
  if s.holds.any (fun e => e.n != n && locOverlap e.loc e.n loc n) then none
  else match s.holds.find? mine with
    | none =>
      if (s.holds.filter (fun e => e.unit == unit)).length ≥ Config.heldPerUnit then none
      else some { s with holds := s.holds ++ [⟨unit, loc, n, c, g, p, [u], false⟩] }
    | some e =>
      if !e.accum && decide (e.upds.length ≥ Config.heldBuffer) then
        if (s.holds.filter (fun e => e.unit == unit && e.accum)).length ≥ Config.accumPerUnit then none
        else some { s with holds := s.holds.map (fun e => if mine e then { e with upds := e.upds ++ [u], accum := true } else e) }
      else some { s with holds := s.holds.map (fun e => if mine e then { e with upds := e.upds ++ [u] } else e) }

/-- Holds elements i, …, i + n − 1; stops at the first refused one. -/
def holdElems (c : BitVec 6) (g : Nat) (p task : BitVec 32) (order sz : Nat) (act : Nat → Bool) (addr : Nat → Word)
    (v : Nat → Nat) : Nat → Nat → State → State × Option Nat
  | _, 0, s => (s, none)
  | i, n + 1, s =>
    if !act i then holdElems c g p task order sz act addr v (i + 1) n s
    else match s.checkSpace s.cur s.hart.mspace (addr i).toNat .atomic sz sz false with
      | .go loc _ =>
        match holdUpdate c g p loc sz ⟨task, order, i, BitVec.ofNat 64 (v i)⟩ s with
        | none => (s, some i)
        | some s1 => holdElems c g p task order sz act addr v (i + 1) n s1
      | _ => (s, some i)

/-- A deterministic AFADD (R332, R333): the group is byte 20 of the task's record, the phase that at issue. One that is refused has been
issued too: the next one stands behind what it holds (R334). -/
def holdAtomics (i : Instr) (sz lo hi : Nat) (act : Nat → Bool) (addr : Nat → Word) (v : Nat → Nat) (s : State)
    (fin : State → Res) : Res :=
  match s.runOf s.cur with
  | none => .trap 0x01 0 ((wordOf i).zeroExtend 64) 0 s
  | some r =>
    let g := r.rc.gid 0
    if g = 0xFF then .trap 0x01 0 ((wordOf i).zeroExtend 64) 0 s
    else
      match checkAtomics sz true act addr s lo (hi - lo) with
      | .fail va c wl => .trap c 0 va wl s
      | .wait va => .wait (s.noteSpace s.cur s.hart.mspace va.toNat)
      | .dead f => .ok (s.killLasting s.cur f)
      | .ok _ =>
        let p := ((s.group s.ctxid g).map (·.phase)).getD 0
        let counted := fun (t : State) => t.mapRun s.cur (fun r => { r with issued := r.issued + 1 })
        let (t, bad) := holdElems s.ctxid g p r.rc.id r.issued sz act addr v lo (hi - lo) s
        match bad with
        | some j => .trap 0x0E j (addr j) 0 (counted t)
        | none => fin (counted t)

/-- The lowest element whose request has been refused (R369). -/
def refusedElem (s : State) (l : List Accessed) : Option Accessed :=
  l.find? (fun a => match s.requestOf (.elem s.cur a.i) with
    | some r => (match r.answer with | .refused => true | _ => false)
    | none => false)

/-- Has the executing hart's instruction a request without an answer? -/
def State.unanswered (s : State) : Bool :=
  s.net.reqs.any (fun r => (match r.who with | .elem k _ => k == s.cur | _ => false) && r.reply.isNone && !r.failed)

/-- An atomic that updates at once (R329): every check, then the elements and the requests of those in peer memory. Until it ends it goes
by the translations of those checks (R310). -/
def runAtomics (op : MemOp) (w hi : Nat) (act : Nat → Bool) (addr : Nat → Word) (v e : Nat → Nat) (s : State)
    (fin : AtomicsDone → Res) : Res :=
  match (if s.hart.accs.isEmpty then checkAtomics (w / 8) false act addr s 0 hi else .ok s.hart.accs) with
  | .fail va c wl => .trap c 0 va wl (s.clearRequests s.cur)
  | .wait va => .wait (s.noteSpace s.cur s.hart.mspace va.toNat)
  | .dead f => .ok (s.killLasting s.cur f)
  | .ok l =>
    let (m, t) := atomicElems op w v e s.sched.grouped l s
    if m.all (·.value.isSome) then
      let olds := m.map (fun a => (a.i, a.value.getD 0))
      let u := t.clearRequests t.cur
      fin { olds := olds, fl := olds.foldl (fun f p => f ||| (newValue op w p.2 (v p.1) (e p.1)).2) 0
            s := u.setHart { u.hart with accs := [] } }
    else
      match refusedElem t m with
      | some a => if t.unanswered then .wait (t.setHart { t.hart with accs := m }) else .trap 0x15 0 a.va 0 (t.clearRequests t.cur)
      | none => .wait (t.setHart { t.hart with accs := m })

/-- The six atomics: mode 01 over elements, mode 10 on scalars (R328–R330). In mode 10 a 32-bit old value is zero-extended into s[d], as LD
does (R200, log 114). -/
def execAtomic (i : Instr) (op : MemOp) (x : ArgsG) (s : State) : Out :=
  issue i s fun s =>
    let w := if x.w then 64 else 32
    let held := op == .afadd && s.detm
    let cas := op == .acas
    if x.m = 2 then
      readScalars ([(x.a, x.p), (x.d, x.q)] ++ (if cas then [(x.d + 1, false)] else [])) s fun s =>
      let h := s.hart
      let addr := fun _ : Nat => scalarAddress s x.a x.b (w / 8)
      let opnd := (h.rs x.d).toNat % 2 ^ w
      let v := fun _ : Nat => if cas then (h.rs (x.d + 1)).toNat % 2 ^ w else opnd
      if held then holdAtomics i (w / 8) 0 1 (fun _ => true) addr v s retireOnly
      else runAtomics op w 1 (fun _ => true) addr v (fun _ => opnd) s fun r =>
        let old := (r.olds.map (·.2)).headD 0
        writeLate x.d (BitVec.ofNat 64 old) (r.s.setHart (r.s.hart.orFlags r.fl)) (op == .afadd)
    else
      let d := x.d.toNat
      let new : Src := ⟨w, d + w / 4, false⟩
      let sh : Shape :=
        { srcs := [⟨32, x.b.toNat, x.q⟩, ⟨w, d, false⟩] ++ (if cas then [new] else [])
          dsts := if held then [] else [⟨w, d⟩], reads := [(x.a, x.p)], cross := true, looks := true
          flags := op == .afadd && !held }
      vecPre i sh s fun s stop =>
      match stop with
      | some p => p.res 0 s
      | none =>
        let h := s.hart
        let addr := fun j => h.rs x.a + word (sx (readV s ⟨32, x.b.toNat, false⟩ j) 32)
        let opnd := fun j => readV s ⟨w, d, false⟩ j
        let v := fun j => if cas then readV s new j else opnd j
        let fin := fun (t : State) => Res.ok (enter (sh.uses h) 0 0 h.len 0 false (consume h.len (boundReads h sh) (t.setHart t.hart.retire)))
        if held then holdAtomics i (w / 8) h.eidx.toNat h.len h.active addr v s fin
        else runAtomics op w h.len h.active addr v opnd s fun r =>
          let h1 := r.s.hart
          let z := r.olds.foldl (fun z p => SMap.set 0 z p.1 (putElem (SMap.get 0 z p.1) w d p.2)) h1.z
          let h2 := if r.olds.isEmpty then h1 else { h1 with z := z }.touch (slicesOf w d) h.len
          let t := r.s.setHart ((h2.orFlags r.fl).retire)
          .ok (enter (sh.uses h) 0 (slicesOf w d) h.len 0 false (consume h.len (boundReads h sh) t))

/-- AADD (R330). -/
def execAadd (x : ArgsG) (s : State) : Out := execAtomic (.aadd x) .aadd x s

/-- AFADD (R330, R332). -/
def execAfadd (x : ArgsG) (s : State) : Out := execAtomic (.afadd x) .afadd x s

/-- AMAX (R330). -/
def execAmax (x : ArgsG) (s : State) : Out := execAtomic (.amax x) .amax x s

/-- AMIN (R330). -/
def execAmin (x : ArgsG) (s : State) : Out := execAtomic (.amin x) .amin x s

/-- ASWAP (R330). -/
def execAswap (x : ArgsG) (s : State) : Out := execAtomic (.aswap x) .aswap x s

/-- ACAS (R328, R330). -/
def execAcas (x : ArgsG) (s : State) : Out := execAtomic (.acas x) .acas x s

end Sys2Proof.Machine
end

