-- ==== Sys2Proof/Machine/CrossLanes.lean ====
section
/-! DEFINITION. Lanes II across elements: reductions, scans, packing, indices, slides and permutations (R133–R142). -/

namespace Sys2Proof.Machine
open Sys2Proof

/-! ## Reductions -/

/-- A value with the flags of the operations that made it. -/
abbrev FVal := Nat × Flags

/-- x ⊙ y, where an absent operand leaves the other (R135). -/
def combine (op : Nat → Nat → Nat × Flags) : Option FVal → Option FVal → Option FVal
  | none, y => y
  | some x, none => some x
  | some x, some y => let r := op x.1 y.1; some (r.1, x.2 ||| y.2 ||| r.2)

/-- Levels L = n − 1 down to 0: e[j] ← e[j] ⊙ e[j + 2^L] (R135). -/
def treeLevels (op : Nat → Nat → Nat × Flags) : Nat → List (Option FVal) → List (Option FVal)
  | 0, e => e
  | n + 1, e => treeLevels op n (List.zipWith (combine op) (e.take (2 ^ n)) (e.drop (2 ^ n)))

/-- The 64 elements of group g of a source: the active ones, else absent (R135). -/
def groupOf (s : State) (r : Src) (g : Nat) : List (Option FVal) :=
  (List.range 64).map (fun j => if s.hart.active (64 * g + j) then some (readV s r (64 * g + j), 0) else none)

/-- The reduction of R135 over groups g, …, g + n − 1. -/
def reduceGroups (op : Nat → Nat → Nat × Flags) (e : Nat → List (Option FVal)) : Nat → Nat → FVal → FVal
  | _, 0, acc => acc
  | g, n + 1, acc =>
    let r := ((treeLevels op 6 (e g)).head?).join
    reduceGroups op e (g + 1) n ((combine op (some acc) r).getD acc)

/-- Class RD (R135, R136): `pre` forms an element, `ini` the initial value, `fin` the word written to s[d]. -/
def reduction (i : Instr) (x : ArgsR) (pre : Nat → Nat → Nat) (ini : Nat → Nat) (fin : Nat → Nat → Word)
    (op : State → Nat → Nat → Nat → Nat × Flags) (s : State) : Out :=
  issue i s fun s =>
    let w := widthOf x.w
    crossElement i { srcs := [⟨w, x.a.toNat, x.p⟩], reads := [(x.b, x.q)]
                     flags := decide (i = .frsum x ∨ i = .frmin x ∨ i = .frmax x) } (scalarBit x.d)
      (fun s =>
        let h := s.hart
        let e := fun g => (groupOf s ⟨w, x.a.toNat, false⟩ g).map (Option.map (fun v => (pre w v.1, v.2)))
        let r := reduceGroups (op s w) e 0 (ceilDiv h.len 64) (ini (h.rs x.b).toNat, 0)
        (h.ws x.d (fin w r.1)).orFlags r.2) s

/-- An integer reduction on w-bit patterns, whose result is extended as `fin` says (R136). -/
def intReduction (i : Instr) (x : ArgsR) (signed : Bool) (op : Nat → Nat → Nat → Nat) (s : State) : Out :=
  reduction i x (fun w v => v % 2 ^ w) (fun v => v % 2 ^ widthOf x.w)
    (fun w v => if signed then word (sx v w) else BitVec.ofNat 64 (v % 2 ^ w)) (fun _ w a b => (op w a b, 0)) s

/-- A float reduction in the format of w (R136). Where no element is active the initial value is written as it is given, a NaN too,
and no flag is raised (log 106). -/
def floatReduction (i : Instr) (x : ArgsR) (op : Fmt → RCtl → FV → FV → Nat × Flags) (s : State) : Out :=
  reduction i x (fun _ v => v) (fun v => v % 2 ^ widthOf x.w) (fun _ v => BitVec.ofNat 64 v)
    (fun s w a b =>
      let c := rctl s.hart.fctl
      let t := fmtOf s.hart.fctl w
      op t c (t.val c a) (t.val c b)) s

/-- RSUM (R136): elements SX at width w, s[b] whole, addition modulo 2^64. -/
def execRsum (x : ArgsR) (s : State) : Out :=
  reduction (.rsum x) x (fun w v => wrap (sx v w) 64) (fun v => v) (fun _ v => BitVec.ofNat 64 v)
    (fun _ _ a b => ((a + b) % 2 ^ 64, 0)) s

/-- RMIN (R136): signed minimum. -/
def execRmin (x : ArgsR) (s : State) : Out := intReduction (.rmin x) x true (fun w a b => if sx a w ≤ sx b w then a else b) s

/-- RMINU (R136): unsigned minimum. -/
def execRminu (x : ArgsR) (s : State) : Out := intReduction (.rminu x) x false (fun _ a b => min a b) s

/-- RMAX (R136): signed maximum. -/
def execRmax (x : ArgsR) (s : State) : Out := intReduction (.rmax x) x true (fun w a b => if sx a w ≥ sx b w then a else b) s

/-- RMAXU (R136): unsigned maximum. -/
def execRmaxu (x : ArgsR) (s : State) : Out := intReduction (.rmaxu x) x false (fun _ a b => max a b) s

/-- RAND (R136): bitwise and. -/
def execRand (x : ArgsR) (s : State) : Out := intReduction (.rand x) x false (fun _ a b => a &&& b) s

/-- ROR (R136): bitwise or. -/
def execRor (x : ArgsR) (s : State) : Out := intReduction (.ror x) x false (fun _ a b => a ||| b) s

/-- RXOR (R136): bitwise exclusive or. -/
def execRxor (x : ArgsR) (s : State) : Out := intReduction (.rxor x) x false (fun _ a b => a ^^^ b) s

/-- FRSUM (R136): RND addition in the order of R135. -/
def execFrsum (x : ArgsR) (s : State) : Out := floatReduction (.frsum x) x addV s

/-- FRMIN (R136): minimum. -/
def execFrmin (x : ArgsR) (s : State) : Out := floatReduction (.frmin x) x (fun t c x y => minMaxV t c false x y) s

/-- FRMAX (R136): maximum. -/
def execFrmax (x : ArgsR) (s : State) : Out := floatReduction (.frmax x) x (fun t c x y => minMaxV t c true x y) s

/-! ## Scans -/

/-- Levels L = 0 … 5 of a scan: p[j] ← p[j − 2^L] ⊙ p[j] from the old values (R137); `fuel` levels are left. -/
def scanLevels (op : Nat → Nat → Nat × Flags) : Nat → Nat → List (Option FVal) → List (Option FVal)
  | 0, _, p => p
  | n + 1, L, p =>
    scanLevels op n (L + 1) (p.take (2 ^ L) ++ List.zipWith (combine op) p (p.drop (2 ^ L)))

/-- What the scan has come to: slice file, carry, flags. -/
structure ScanAcc where
  z : SMap Row
  carry : FVal
  fl : Flags

/-- Writes carry ⊙ p[j] into every active element of group g (R137). -/
def scanWrite (op : Nat → Nat → Nat × Flags) (h : Hart) (w d g : Nat) (carry : FVal) :
    Nat → List (Option FVal) → SMap Row × Flags → SMap Row × Flags
  | _, [], a => a
  | j, p :: t, a =>
    let fl := a.2 ||| (match p with | some v => v.2 | none => 0)
    if h.active (64 * g + j) then
      let r := (combine op (some carry) p).getD carry
      scanWrite op h w d g carry (j + 1) t
        (SMap.set 0 a.1 (64 * g + j) (putElem (SMap.get 0 a.1 (64 * g + j)) w d r.1), fl ||| r.2)
    else scanWrite op h w d g carry (j + 1) t (a.1, fl)

/-- Groups g, …, g + n − 1 of a scan (R137). -/
def scanGroups (op : Nat → Nat → Nat × Flags) (s : State) (r : Src) (d : Nat) : Nat → Nat → ScanAcc → ScanAcc
  | _, 0, a => a
  | g, n + 1, a =>
    let p := scanLevels op 6 0 (groupOf s r g)
    let o := scanWrite op s.hart r.w d g a.carry 0 p (a.z, a.fl)
    let c := (combine op (some a.carry) (p.getLast?).join).getD a.carry
    scanGroups op s r d (g + 1) n { z := o.1, carry := c, fl := o.2 ||| c.2 }

/-- Is some element below VL active? -/
def Hart.anyActive (h : Hart) : Bool := anyIn h.permits 0 h.len

/-- Class SC (R137). -/
def scanLanes (i : Instr) (x : ArgsR) (op : State → Nat → Nat → Nat → Nat × Flags) (s : State) : Out :=
  issue i s fun s =>
    let w := widthOf x.w
    crossElement i { srcs := [⟨w, x.a.toNat, x.p⟩], dsts := [⟨w, x.d.toNat⟩], reads := [(x.b, x.q)], noOverlap := true
                     flags := decide (i = .fscan x) } 0
      (fun s =>
        let h := s.hart
        let r := scanGroups (op s w) s ⟨w, x.a.toNat, false⟩ x.d.toNat 0 (ceilDiv h.len 64)
          { z := h.z, carry := ((h.rs x.b).toNat % 2 ^ w, 0), fl := 0 }
        let h1 := if h.anyActive then h.touch (slicesOf w x.d.toNat) h.len else h
        { h1 with z := r.z }.orFlags r.fl) s

/-- SCAN (R137): inclusive prefix sums modulo 2^w. -/
def execScan (x : ArgsR) (s : State) : Out := scanLanes (.scan x) x (fun _ w a b => ((a + b) % 2 ^ w, 0)) s

/-- FSCAN (R137): inclusive prefix sums in float arithmetic, in the order of R137. -/
def execFscan (x : ArgsR) (s : State) : Out :=
  scanLanes (.fscan x) x
    (fun s w a b =>
      let c := rctl s.hart.fctl
      let t := fmtOf s.hart.fctl w
      addV t c (t.val c a) (t.val c b)) s

/-! ## Packing and indices -/

/-- COMPRESS and NZSCAN: the elements that `keep` accepts, packed from position 0; `val` is what is written (R138, R139). -/
def packLoop (w d : Nat) (keep : Nat → Bool) (val : Nat → Nat) : Nat → Nat → SMap Row × Nat → SMap Row × Nat
  | _, 0, a => a
  | i, n + 1, (z, c) =>
    packLoop w d keep val (i + 1) n
      (if keep i then (SMap.set 0 z c (putElem (SMap.get 0 z c) w d (val i)), c + 1) else (z, c))

/-- EXPAND: active element i receives the next packed element (R138). -/
def expandLoop (w d : Nat) (keep : Nat → Bool) (val : Nat → Nat) : Nat → Nat → SMap Row × Nat → SMap Row × Nat
  | _, 0, a => a
  | i, n + 1, (z, c) =>
    expandLoop w d keep val (i + 1) n
      (if keep i then (SMap.set 0 z i (putElem (SMap.get 0 z i) w d (val c)), c + 1) else (z, c))

/-- The hart after c elements were packed or consumed (R138). -/
def packed (h : Hart) (w d : Nat) (r : SMap Row × Nat) : Hart :=
  let h1 := if r.2 = 0 then h else h.touch (slicesOf w d) h.len
  { h1 with z := r.1, vcount := BitVec.ofNat 11 r.2 }

/-- COMPRESS (R138). -/
def execCompress (x : ArgsP) (s : State) : Out :=
  issue (.compress x) s fun s =>
    let w := widthOf x.w
    crossElement (.compress x) { srcs := [⟨w, x.a.toNat, x.p⟩], dsts := [⟨w, x.d.toNat⟩], noOverlap := true, vcount := true, spreads := true } 0
      (fun s => packed s.hart w x.d.toNat
        (packLoop w x.d.toNat s.hart.permits (readV s ⟨w, x.a.toNat, false⟩) 0 s.hart.len (s.hart.z, 0))) s

/-- EXPAND (R138). -/
def execExpand (x : ArgsP) (s : State) : Out :=
  issue (.expand x) s fun s =>
    let w := widthOf x.w
    crossElement (.expand x) { srcs := [⟨w, x.a.toNat, x.p⟩], dsts := [⟨w, x.d.toNat⟩], noOverlap := true, vcount := true, spreads := true } 0
      (fun s => packed s.hart w x.d.toNat
        (expandLoop w x.d.toNat s.hart.permits (readV s ⟨w, x.a.toNat, false⟩) 0 s.hart.len (s.hart.z, 0))) s

/-- NZSCAN (R139): the indices of the active elements whose pattern is not zero, as w16; the count in s[b] and VCOUNT. -/
def execNzscan (x : ArgsN) (s : State) : Out :=
  issue (.nzscan x) s fun s =>
    let w := widthOf x.w
    crossElement (.nzscan x) { srcs := [⟨w, x.a.toNat, x.p⟩], dsts := [⟨16, x.d.toNat⟩], noOverlap := true
                               vcount := true, spreads := true } (scalarBit x.b)
      (fun s =>
        let r := packLoop 16 x.d.toNat (fun i => s.hart.permits i && readV s ⟨w, x.a.toNat, false⟩ i != 0) (fun i => i)
          0 s.hart.len (s.hart.z, 0)
        (packed s.hart 16 x.d.toNat r).ws x.b (BitVec.ofNat 64 r.2)) s

/-- Writes `val i` into every active element that has one (R140–R142). -/
def fillActive (h : Hart) (w d : Nat) (val : Nat → Option Nat) : Hart :=
  let z := SMap.mapRange 0 (fun i r => if h.permits i then (match val i with | some v => putElem r w d v | none => r) else r)
    0 h.len h.z
  let h1 := if anyIn (fun i => h.permits i && (val i).isSome) 0 h.len then h.touch (slicesOf w d) h.len else h
  { h1 with z := z }

/-- IOTA (R140). -/
def execIota (x : ArgsM) (s : State) : Out :=
  issue (.iota x) s fun s =>
    let w := widthOf x.w
    crossElement (.iota x) { dsts := [⟨w, x.d.toNat⟩], reads := bReg x.f x.b x.q } 0
      (fun s =>
        let b := if x.f = 1 then (s.hart.rs x.b).toNat else wrap (imm6 x.b) 64
        fillActive s.hart w x.d.toNat (fun i => some ((b + i) % 2 ^ w))) s

/-- The amount of a slide (R141). -/
def slideBy (s : State) (x : ArgsA) : Nat := if x.f = 1 then (s.hart.rs x.b).toNat else x.b.toNat

/-- Class SD (R141). -/
def slideLanes (i : Instr) (up : Bool) (x : ArgsA) (val : State → Src → Nat → Nat → Option Nat) (s : State) : Out :=
  issue i s fun s =>
    let w := widthOf x.w
    crossElement i { srcs := [⟨w, x.a.toNat, x.p⟩], dsts := [⟨w, x.d.toNat⟩], reads := bReg x.f x.b x.q, noOverlap := true
                     spreads := up, looks := !up } 0
      (fun s => fillActive s.hart w x.d.toNat (val s ⟨w, x.a.toNat, false⟩ (slideBy s x))) s

/-- SLIDEUP (R141): elements below the amount are unchanged. -/
def execSlideup (x : ArgsA) (s : State) : Out :=
  slideLanes (.slideup x) true x (fun s r k i => if i ≥ k then some (readV s r (i - k)) else none) s

/-- SLIDEDN (R141): elements past VL read as 0. -/
def execSlidedn (x : ArgsA) (s : State) : Out :=
  slideLanes (.slidedn x) false x (fun s r k i => some (if i + k < s.hart.len then readV s r (i + k) else 0)) s

/-- PERM (R142). -/
def execPerm (x : ArgsR) (s : State) : Out :=
  issue (.perm x) s fun s =>
    let w := widthOf x.w
    crossElement (.perm x)
      { srcs := [⟨w, x.a.toNat, x.p⟩, ⟨w, x.b.toNat, x.q⟩], dsts := [⟨w, x.d.toNat⟩], noOverlap := true
        spreads := true, looks := true } 0
      (fun s => fillActive s.hart w x.d.toNat (fun i =>
        let n := readV s ⟨w, x.b.toNat, false⟩ i
        some (if n < s.hart.len then readV s ⟨w, x.a.toNat, false⟩ n else 0))) s

end Sys2Proof.Machine
end

