-- ==== Sys2Proof/Machine/Sync.lean ====
section
/-! DEFINITION. Fences and sync objects: FENCE (R316–R318), BIND and UNBIND (R319, R320), ACQ and REL (R321–R325), QFENCE
(R326, R327), STORE_PERFORMED (R313); channel references (R234) and the checks of instructions that name a round (R295). -/

namespace Sys2Proof.Machine
open Sys2Proof

/-! ## References and rounds -/

/-- The open channel that a reference names (R234). -/
def resolveRef (s : State) (r : Nat) : Option Nat :=
  if r < 16 then
    match SMap.find? s.hart.handles r with
    | some c => if (s.chan c).isSome then some c else none
    | none => none
  else if 0x100 ≤ r ∧ r ≤ 0x2FF then
    match s.chan (r - 0x100) with
    | some x => if x.ctx = s.ctxid then some (r - 0x100) else none
    | none => none
  else none

/-- Resolves s[a] (R234): a bad reference traps with cause 0x11 and TVAL the value. The channel of a FAILED pump is met as a lasting error
(R408). -/
def withRef (v : Word) (s : State) (k : Nat → Channel → Res) : Res :=
  match resolveRef s v.toNat with
  | none => .trap 0x11 0 v 0 s
  | some c =>
    match s.chan c with
    | none => .trap 0x11 0 v 0 s
    | some x => if s.fnFailed (208 + c / 16) then .ok (s.killLasting s.cur (208 + c / 16)) else k c x

/-- The executing hart's participation in a round that it has not ended. -/
def Round.mine (r : Round) (s : State) : Option Participant :=
  if r.ctx = s.ctxid then r.parts.find? (fun p => p.slot == s.cur && p.task == s.hart.taskid && !p.left) else none

/-- An exchange fault that an instruction meets (R295). -/
def exchangeTrap (code slot detail : Nat) (s : State) : Res :=
  .trap 0x10 0 (BitVec.ofNat 64 (code + 256 * slot + 65536 * detail)) 0 s

/-- An exchange fault of an instruction that has no slot to name: the slot field of TVAL is a free value (log 51). -/
def slotlessTrap (code detail : Nat) (s : State) : Res := exchangeTrap code (Config.faultSlot s.fresh).toNat detail s.tick

/-- Step 1 of R295: the hart has joined the round in that slot. -/
def withRound (slot : Nat) (s : State) (k : Round → Participant → Res) : Res :=
  match SMap.find? s.rounds slot with
  | none => exchangeTrap 0x0E slot 0 s
  | some r =>
    match r.mine s with
    | none => exchangeTrap 0x0E slot 0 s
    | some p => k r p

/-- Step 3 of R295: the trap of a FAULTED round, the original code where the participant's own stream raised 0x06. -/
def faultedTrap (slot : Nat) (r : Round) (p : Participant) (s : State) : Res :=
  if p.broke then exchangeTrap r.code slot r.detail s else exchangeTrap 0x0B slot r.code s

/-! ## FENCE and STORE_PERFORMED -/

/-- FENCE (R316, R317): scope hart refreshes the hart's own copies; scope tile also drains its earlier writes to its tile's
read cache; scope device and above perform them at their homes and refresh the read cache too. Scope system waits for the hart's remote
writes as well (R374). -/
def execFence (scope : BitVec 6) (s : State) : Out :=
  issue (.fence scope) s fun s =>
    drained s fun s =>
    if scope = 3 ∧ s.unackedWrites s.cur then .wait s
    else retireOnly (if scope = 0 then s.refreshHart s.cur else if scope = 1 then s.fenceTile s.cur else s.fenceDevice s.cur)

/-- STORE_PERFORMED (R313, R314): the k-th buffered write of the slot reaches its home, unless an earlier one is tied to it. -/
def execStorePerformed (slot k : Nat) (s : State) : Out :=
  let mine := (s.wbuf.zipIdx.filter (fun p => p.1.slot == slot))
  match mine[k]? with
  | none => .next s
  | some (b, idx) =>
    if (s.wbuf.take idx).any (fun w => State.tied w b) then .next s
    else .next { s.performWrite b.slot b.loc b.n b.v with wbuf := s.wbuf.eraseIdx idx }

/-! ## Bindings -/

/-- The space stored for an object or region: 10 becomes 01 (R319). -/
def normalSpace (space : BitVec 2) : BitVec 2 := if space = 2 then 1 else space

/-- The normalised address (R192, R319). -/
def normalAddr (s : State) (space : BitVec 2) (a : Nat) : Nat :=
  if space = 2 then State.tileOf s.cur * 2 ^ 21 + a else a

/-- Key of entry j of the executing hart's context. -/
def bindKey (s : State) (j : Nat) : Nat := s.ctxid.toNat * 64 + j

/-- Entry j of the executing hart's context, if it is VALID. -/
def validBinding (s : State) (j : Nat) : Option Binding := (SMap.find? s.bindings (bindKey s j)).filter (·.valid)

/-- The lowest free binding-table entry. -/
def freeBinding (s : State) : Option Nat := firstIn (fun j => (validBinding s j).isNone) 0 64

/-- BIND (R320). -/
def execBind (x : ArgsT) (s : State) : Out :=
  issue (.bind x) s fun s =>
    readScalars [(x.a, x.p), (x.b, x.q)] s fun s =>
    let h := s.hart
    let o := h.rs x.a
    let reg := h.rs x.b
    let K := (reg.extractLsb' 58 6).toNat
    let base := (reg.extractLsb' 0 58).toNat
    if K < 6 ∨ K > 51 then .trap 0x04 0 reg 0 s
    else if o.toNat % 8 ≠ 0 then .trap 0x05 0 o 0 s
    else if base % 2 ^ K ≠ 0 then .trap 0x05 0 (BitVec.ofNat 64 base) 0 s
    else onChk (s.checkSpace s.cur h.mspace o.toNat .read 8 8 false) 0 o s fun _ _ =>
      match freeBinding s with
      | none => .trap 0x0B 0 0 0 s
      | some j =>
        let b : Binding :=
          { obj := BitVec.ofNat 64 (normalAddr s h.mspace o.toNat), base := BitVec.ofNat 58 (normalAddr s h.mspace base)
            k := BitVec.ofNat 6 K, space := normalSpace h.mspace, holder := BitVec.ofNat 11 s.cur }
        writeLate x.d (BitVec.ofNat 64 j) { s with bindings := SMap.put s.bindings (bindKey s j) b }

/-- UNBIND (R320). -/
def execUnbind (x : ArgsS) (s : State) : Out :=
  issue (.unbind x) s fun s =>
    readScalars [(x.a, x.p)] s fun s => drained s fun s =>
    let j := (s.hart.rs x.a).toNat % 64
    let t := s.fenceDevice s.cur
    match validBinding s j with
    | some b =>
      retireOnly (if b.holder.toNat = s.cur then { t with bindings := SMap.put t.bindings (bindKey s j) { b with valid := false } } else t)
    | none => retireOnly t

/-! ## ACQ and REL -/

/-- The regions bound to an object in the executing hart's context. -/
def regionsOf (s : State) (o : Nat) : List Binding :=
  (s.bindings.filter (fun p =>
    p.1 / 64 == s.ctxid.toNat && p.2.valid && p.2.space == normalSpace s.hart.mspace && p.2.obj.toNat == normalAddr s s.hart.mspace o)).map (·.2)

/-- REL's first effect (R321, R322): every earlier access of the hart to a bound region, and to the object itself, is performed,
and every write there that the hart sees. -/
def performBound (s : State) (o : Nat) (loc : Loc) : State :=
  let l := regionsOf s o
  s.drainIf (fun b => State.sees s.cur b && (b.overlaps loc 8 || l.any (fun r => State.inRegion r b)))

/-- ACQ's effect (R321): the hart's copies of the bound regions, and of the object itself, are discarded. -/
def discardBound (s : State) (o : Nat) : State :=
  let l := regionsOf s o
  let own := fun (c : Copy) => c.holder == .hart s.cur || c.holder == .early s.cur || c.holder == .tile (State.tileOf s.cur)
  { s with copies := s.copies.filter (fun c => !(own c && l.any (fun r => State.locInRegion r c.loc 64))) }

/-- The target of ACQ, or the operand of REL: an immediate or s[b] (R324, R325). -/
def syncOperand (imm : Bool) (b : BitVec 6) (s : State) : Word := if imm then b.zeroExtend 64 else s.hart.rs b

/-- The read of an object at its home (R323), after the buffered writes that the hart sees there (R314). -/
def syncRead (x : Access) (o : Word) (s : State) (k : Nat → State → Res) : Res :=
  if (s.requestOf (.elem s.cur 0)).isSome then oneAccess x 0 s.hart.mspace o 0 s k
  else match s.checkSpace s.cur s.hart.mspace o.toNat x.acc x.sz x.align x.idem with
  | .go (.peer _ _) _ => oneAccess x 0 s.hart.mspace o 0 s k
  | .go loc _ =>
    let t := (s.drainIf (fun b => State.sees s.cur b && b.overlaps loc x.sz)).dropCopies s.cur loc x.sz
    k (t.homeRead loc x.sz) t
  | _ => oneAccess x 0 s.hart.mspace o 0 s k

/-- ACQ (R324): reads the object at its home until its value reaches the target. -/
def execAcq (x : ArgsJ) (s : State) : Out :=
  issue (.acq x) s fun s =>
    readScalars ((x.a, x.p) :: (if x.w then [] else [(x.b, x.q)])) s fun s =>
    let o := s.hart.rs x.a
    let target := syncOperand x.w x.b s
    let acc : Access := { acc := .read, op := .read, sz := 8, align := 8 }
    syncRead acc o s fun v s =>
    if BitVec.ofNat 64 v < target then .wait (s.clearRequests s.cur)
    else writeLate x.d (BitVec.ofNat 64 v) (discardBound (cleanEnd s) o.toNat)

/-- REL (R321, R325): performs the bound regions' accesses, then stores or adds at the object's home. -/
def execRel (x : ArgsRel) (s : State) : Out :=
  issue (.rel x) s fun s =>
    readScalars ((x.a, x.p) :: (if x.w then [] else [(x.b, x.q)])) s fun s => drained s fun s =>
    let o := s.hart.rs x.a
    let v := syncOperand x.w x.b s
    let right : Acc := if x.w then .atomic else .write
    match s.requestOf (.elem s.cur 0) with
    | some r =>
      match r.answer with
      | .none => .wait s
      | .refused => .trap 0x15 0 o 0 (s.clearRequests s.cur)
      | .data _ => retireOnly (cleanEnd s)
    | none =>
    match s.checkSpace s.cur s.hart.mspace o.toNat right 8 8 false with
    | .go (.peer p pa) dev =>
      let t := performBound s o.toNat (.peer p pa)
      .wait (t.sendRequest (.elem s.cur 0) s.ctxid p (if x.w then .aadd else .write) pa 8 v.toNat 0 dev o)
    | .go loc _ =>
      let t := performBound s o.toNat loc
      let old := if x.w then t.homeRead loc 8 else 0
      retireOnly (t.performWrite s.cur loc 8 ((old + v.toNat) % 2 ^ 64))
    | c => onChk c 0 o s fun _ _ => .wait s

/-! ## QFENCE -/

/-- What one queue of QFENCE comes to. -/
inductive Joined where
  | done
  | wait
  | trap (r : Res)

/-- Every command below T has completed (R214, R327). -/
def Channel.completedBelow (x : Channel) (T : Nat) : Bool :=
  decide (x.next ≥ T) && x.run.all (fun c => decide (c.index ≥ T)) && (!x.loopOn || decide (x.loopBase ≥ T))

/-- One queue word (R327); `tail` is the TAIL found at dispatch. -/
def joinQueue (s : State) (q : Word) (tail : Nat) : Joined :=
  let kind := q.extractLsb' 62 2
  if kind = 0 then .done
  else if kind = 1 then (if s.hart.inflight.all (fun f => !f.matrix) then .done else .wait)
  else if kind = 2 then
    let r : Word := (q.extractLsb' 0 16).zeroExtend 64
    match resolveRef s r.toNat with
    | none => .trap (.trap 0x11 0 r 0 s)
    | some c =>
      match s.chan c with
      | none => .done
      | some y =>
        if y.state = .faulted then .trap (.trap 0x11 0 (y.status c) 0 s)
        else if y.state = .ended ∨ y.state = .halted ∨ y.completedBelow tail then .done else .wait
  else
    let k := q.toNat % 16
    match SMap.find? s.rounds k with
    | none => .trap (exchangeTrap 0x0E k 0 s)
    | some r =>
      match r.mine s with
      | none => .trap (exchangeTrap 0x0E k 0 s)
      | some p => if r.state = .faulted then .trap (faultedTrap k r p s) else if r.state = .complete then .done else .wait

/-- The TAIL of the channel that a queue word names. -/
def queueTail (s : State) (q : Word) : Nat :=
  if q.extractLsb' 62 2 = 2 then
    match resolveRef s (q.toNat % 2 ^ 16) with
    | some c => ((s.chan c).map (·.tail)).getD 0
    | none => 0
  else 0

/-- The tails that a QFENCE finds as it is dispatched with the scalar registers of h. -/
def queueTails (s : State) (h : Hart) (x : ArgsQ) : Nat × Nat := (queueTail s (h.rs x.a), queueTail s (h.rs x.b))

/-- QFENCE (R327). -/
def execQfence (x : ArgsQ) (s : State) : Out :=
  issue (.qfence x) s fun s =>
    readScalars [(x.a, x.p), (x.b, x.q)] s fun s =>
    let h := s.hart
    let tails := (h.qtail.or (h.queue.head?.bind (·.tails))).getD (queueTails s h x)
    match joinQueue s (h.rs x.a) tails.1, joinQueue s (h.rs x.b) tails.2 with
    | .trap r, _ => r
    | _, .trap r => r
    | .done, .done => .ok ((s.refreshData s.cur).setHart { h.retire with qtail := none })
    | _, _ => .wait (s.setHart { h with qtail := some tails })

end Sys2Proof.Machine
end

