-- ==== Sys2Proof/Machine/Round.lean ====
section
/-! DEFINITION. Exchange rounds without the instructions: descriptors (R267), records (R269), buckets (R274), combining (R280,
R282), where a record goes (R274, R278, R285), the status word (R289), run and well words (R271), faults of a round (R295). -/

namespace Sys2Proof.Machine
open Sys2Proof

/-! ## Descriptors (R267) -/

namespace Round

/-- n bits of the descriptor from bit lo. -/
def d (r : Round) (lo n : Nat) : Nat := bits r.desc.toNat lo n
/-- RID. -/
def rid (r : Round) : Nat := r.d 0 32
/-- GROUP. -/
def group (r : Round) : Nat := r.d 32 8
/-- FLAGS. -/
def flags (r : Round) : Nat := r.d 40 8
/-- KW: 64-bit keys. -/
def kw (r : Round) : Bool := r.desc.getLsbD 40
/-- MODE: replicated. -/
def replicated (r : Round) : Bool := r.desc.getLsbD 41
/-- P, payload bytes. -/
def P (r : Round) : Nat := 8 * r.d 48 8
/-- RS, record bytes (R267). -/
def RS (r : Round) : Nat := 8 + r.P
/-- COMB. -/
def comb (r : Round) : Nat := r.d 56 8
/-- NOTIFY. -/
def notify (r : Round) : BitVec 32 := r.desc.extractLsb' 64 32
/-- MSIZE. -/
def msize (r : Round) : Nat := r.d 96 32
/-- SPLIT. -/
def split (r : Round) : Nat := r.d 128 64
/-- SUMP. -/
def sump (r : Round) : Nat := r.d 192 64
/-- Bytes of an endpoint's sump slice (R286). -/
def slice (r : Round) : Nat := r.d 256 64 / 256
/-- MBASE. -/
def mbase (r : Round) : Nat := r.d 320 64
/-- NDEV. -/
def ndev (r : Round) : Nat := r.d 384 32

end Round

/-- Are entries 0 … n − 1 of the context's device table VALID and of this device's group (R267)? -/
def spanLocal (s : State) (c : BitVec 6) (n : Nat) : Bool :=
  (List.range n).all (fun i => s.devValid c i && bits (s.devEntry c i) 0 11 == s.net.ident.group.toNat)

/-- Does the descriptor keep R267? -/
def legalRound (s : State) (c : BitVec 6) (desc : BitVec 512) : Bool :=
  let r : Round := { ctx := c, desc := desc }
  decide (r.group ≤ 254) && decide (r.flags < 4) && decide (r.d 48 8 ≤ 31) && decide (r.comb ≤ 5) && r.msize % 64 == 0 &&
  r.split % 64 == 0 && (r.split != 0 || r.replicated) && r.sump % 64 == 0 && r.d 256 64 % 16384 == 0 &&
  decide (r.d 256 64 ≤ 2 ^ 40) && (r.sump != 0 || r.d 256 64 == 0) && r.mbase % 64 == 0 && decide (1 ≤ r.ndev) &&
  decide (r.ndev ≤ 32) && (r.ndev == 1 || spanLocal s c r.ndev) && r.d 416 96 == 0

/-- This device's number in the round's span: 0 for a round of one device. -/
def selfIn (s : State) (r : Round) : Nat := if r.ndev = 1 then 0 else s.self r.ctx

/-! ## Records, buckets, combining -/

/-- Bits of a key. -/
def Round.keyBits (r : Round) : Nat := if r.kw then 64 else 32

/-- The key of a record of RS bytes (R269). -/
def Round.keyOf (r : Round) (rec_ : Nat) : Nat := rec_ % 2 ^ r.keyBits

/-- The little-endian bytes of a number. -/
def natBytes (v : Nat) : Nat → List Byte
  | 0 => []
  | n + 1 => BitVec.ofNat 8 v :: natBytes (v / 256) n

/-- The number that a list of bytes holds. -/
def bytesNat : List Byte → Nat
  | [] => 0
  | b :: t => b.toNat + 256 * bytesNat t

/-- A record as the network carries it: bytes 4–7 are dropped with 32-bit keys (R269). -/
def Round.toXRec (r : Round) (rec_ : Nat) : XRec := { key := r.keyOf rec_, pay := natBytes (rec_ / 2 ^ 64) r.P }

/-- The RS bytes that an endpoint writes for a record. -/
def XRec.raw (x : XRec) : Nat := x.key + 2 ^ 64 * bytesNat x.pay

/-- BUCKET(k) (R274); 0 for a round without splitters. -/
def Round.bucket (r : Round) (k : Nat) : Nat := (r.splitters.filter (fun p => decide (p ≤ k))).length

/-- One combined element of w bits and its flags (R280): RNE sums, wrapping sums, maxima; subnormals are kept. -/
def combineElem (comb : Nat) (x y : Nat) : Nat × Flags :=
  if comb = 2 then addV fp32 rneCtl (fp32.raw x) (fp32.raw y)
  else if comb = 3 then addV bf16 rneCtl (bf16.raw x) (bf16.raw y)
  else if comb = 4 then ((x + y) % 2 ^ 32, 0)
  else minMaxV fp32 rneCtl true (fp32.raw x) (fp32.raw y)

/-- Combines n elements of w bits from the low end on. -/
def combineFrom (comb w : Nat) : Nat → Nat → Nat → Nat × Flags
  | 0, _, _ => (0, 0)
  | n + 1, x, y =>
    let a := combineElem comb (x % 2 ^ w) (y % 2 ^ w)
    let b := combineFrom comb w n (x / 2 ^ w) (y / 2 ^ w)
    (a.1 + 2 ^ w * b.1, a.2 ||| b.2)

/-- The combined payload of two records, the first the earlier (R280). KEEP and CONCAT keep the first. -/
def Round.combinePay (r : Round) (x y : Nat) : Nat × Flags :=
  if r.comb < 2 then (x, 0)
  else
    let w := if r.comb = 3 then 16 else 32
    combineFrom r.comb w (8 * r.P / w) x y

/-- COMBINE(x, y) (R280). -/
def Round.combine (r : Round) (x y : XRec) : XRec × Flags :=
  let v := r.combinePay (bytesNat x.pay) (bytesNat y.pay)
  ({ x with pay := natBytes v.1 r.P }, v.2)

/-! ## Where records go -/

/-- The lowest tile of the participants (R285). -/
def Round.root (r : Round) : Nat := r.parts.foldl (fun m p => min m p.tile) 255

/-- The endpoint of this device's network to which a record of key k goes (R274, R285). -/
def Round.endpoint (r : Round) (self k : Nat) : Nat :=
  if r.replicated then (if self = 0 then r.root else 224)
  else
    let m := r.map.getD (r.bucket k) 0
    if bits m 8 5 = self then bits m 0 8 else 224 + bits m 8 5

/-- The other devices of the span. -/
def Round.others (r : Round) (self : Nat) : List Nat := (List.range r.ndev).filter (· != self)

/-- Sources that a round uses on this device: its participants' tiles, and the other devices of its span (R278). In a
replicated round a device other than 0 hands what device 0 sends straight to its ingresses (R285). -/
def Round.sources (r : Round) (self : Nat) : List Nat :=
  r.parts.map (·.tile) ++
  (if r.replicated && self != 0 then [] else (r.others self).map (224 + ·))

/-- Endpoints whose final close this device's round waits for: participants, what the map names, and the lanes (R266, R285,
R294). -/
def Round.targets (r : Round) (self : Nat) : List Nat :=
  let named :=
    if r.replicated then (if self = 0 then r.root :: (r.others self).map (224 + ·) else [224])
    else r.map.map (fun m => if bits m 8 5 = self then bits m 0 8 else 224 + bits m 8 5) ++ (r.others self).map (224 + ·)
  (r.parts.map (·.tile) ++ named).foldl (fun acc e => addNew e acc) []

/-! ## Status and faults -/

/-- The code of STATE (R289). -/
def RoundState.code : RoundState → Nat
  | .joining => 1 | .opened => 2 | .complete => 3 | .faulted => 4

/-- The status word (R289). -/
def Round.status (r : Round) : Word :=
  BitVec.ofNat 64 (r.state.code + (r.fl.getLsbD 0).toNat * 2 ^ 3 + (r.fl.getLsbD 1).toNat * 2 ^ 4 +
    (r.fl.getLsbD 2).toNat * 2 ^ 5 + (r.fl.getLsbD 4).toNat * 2 ^ 6 +
    (r.parts.any (fun p => decide (p.dropped ≠ 0))).toNat * 2 ^ 7 + r.code * 2 ^ 8 + r.parts.length * 2 ^ 16 + r.rid * 2 ^ 32)

/-- Round slot k. -/
def State.round (s : State) (k : Nat) : Option Round := SMap.find? s.rounds k

/-- Replaces round slot k. -/
def State.setRound (s : State) (k : Nat) (r : Round) : State := { s with rounds := SMap.put s.rounds k r }

/-- The round in slot k becomes FAULTED by an engine (R295): what is in flight is discarded, the counts are frozen, and a fault
notice goes out to every other device of the span (R294). -/
def faultRound (k code detail : Nat) (s : State) : State :=
  match s.round k with
  | none => s
  | some r =>
    if r.state = .joining ∨ r.state = .opened then
      let t := s.clearEngine (fun q => match q.who with | .round n => n % 16 == k && decide (n < 65536) | _ => false)
      let u : State := { t with walked := t.walked.filter (fun w => !(decide (224 ≤ w.unit) && w.ctx == r.ctx)) }
      u.setRound k
        { r with
          state := .faulted, code := code, detail := detail, inputs := [], outputs := []
          ins := r.ins.map (fun p => (p.1, { p.2 with q := [], at_ := 0 }))
          noticed := r.noticed || decide (1 < r.ndev) }
    else s

/-- Replaces the participant of tile t. -/
def Round.mapPart (r : Round) (t : Nat) (f : Participant → Participant) : Round :=
  { r with parts := r.parts.map (fun p => if p.tile = t then f p else p) }

/-! ## Run and well words (R271) -/

/-- Does a range of the tile's cistern lie in windows with the right? -/
def rangeGranted (s : State) (c : BitVec 6) (tile off n : Nat) (a : Acc) : Bool :=
  n == 0 || (List.range 32).all (fun w =>
    decide (off + n ≤ w * 0x10000) || decide ((w + 1) * 0x10000 ≤ off) ||
    State.windowPermits (s.window (tile * 2 ^ 21 + w * 0x10000)) c a)

/-- Is a window of the range still being scrubbed (R209)? -/
def rangeBusy (s : State) (tile off n : Nat) : Bool :=
  n != 0 && (List.range 32).any (fun w =>
    decide (w * 0x10000 < off + n) && decide (off < (w + 1) * 0x10000) && (s.window (tile * 2 ^ 21 + w * 0x10000)).busy)

/-- The checks of R271 on a word that names n bytes at `off`: range, rights, alignment. -/
def wordCheck (v : Word) (off n align : Nat) (a : Acc) (s : State) (k : State → Res) : Res :=
  if off + n > 2 ^ 21 then .trap 0x04 0 v 0 s
  else if !rangeGranted s s.ctxid (State.tileOf s.cur) off n a then .trap 0x07 0 v 0 s
  else if off % align ≠ 0 then .trap 0x05 0 v 0 s
  else k s

/-- The offset of a run word. -/
def runOff (v : Word) : Nat := (v.extractLsb' 0 21).toNat
/-- The record count of a run word. -/
def runCount (v : Word) : Nat := (v.extractLsb' 32 12).toNat
/-- The size of a well word in bytes. -/
def wellSize (v : Word) : Nat := 64 * (v.extractLsb' 32 16).toNat

/-- The slot operand: the low 4 bits of a register (R270). -/
def slotArg (v : Word) : Nat := (v.extractLsb' 0 4).toNat

/-- Step 3 of R295. -/
def notFaulted (slot : Nat) (r : Round) (p : Participant) (s : State) (k : State → Res) : Res :=
  if r.state = .faulted then faultedTrap slot r p s else k s

end Sys2Proof.Machine
end

