-- ==== Sys2Proof/Machine/Exchange.lean ====
section
/-! DEFINITION. The exchange instructions (R270–R277, R287, R288, R292, R293, R296). -/

namespace Sys2Proof.Machine
open Sys2Proof

/-! ## Joining and leaving -/

/-- The slot of the context's round of the same RID, if there is one. -/
def sameRid (s : State) (c : BitVec 6) (desc : BitVec 512) : Option (Nat × Round) :=
  List.find? (fun p => p.2.ctx == c && p.2.desc.extractLsb' 0 32 == desc.extractLsb' 0 32) s.rounds

/-- Joins the hart to the round in slot k (R272). -/
def joinRound (d : BitVec 6) (k : Nat) (r : Round) (s : State) : Res :=
  let h := s.hart
  let t := State.tileOf s.cur
  if !s.memberOf s.ctxid h.taskid r.group ∨ r.parts.any (fun p => p.task == h.taskid || p.tile == t) then exchangeTrap 0x05 k t s
  else
    let p : Participant := { slot := s.cur, task := h.taskid, tile := t }
    writeLate d (BitVec.ofNat 64 k) (s.setRound k { r with parts := r.parts ++ [p] })

/-- XOPEN after its descriptor is read (R272). -/
def openRound (d : BitVec 6) (desc : BitVec 512) (s : State) : Res :=
  if !legalRound s s.ctxid desc then slotlessTrap 0x03 0 s
  else
    let s := s.fenceDevice s.cur
    match sameRid s s.ctxid desc with
    | some (k, r) =>
      if r.state ≠ .joining then .wait s
      else if r.desc ≠ desc then exchangeTrap 0x04 k 0 s
      else joinRound d k r s
    | none =>
      let held := (s.rounds.filter (fun p => p.2.ctx == s.ctxid)).length
      if held ≥ min 16 s.myCtx.qround.toNat then slotlessTrap 0x02 0 s
      else match firstIn (fun k => (s.round k).isNone) 0 16 with
        | none => slotlessTrap 0x01 0 s
        | some k => joinRound d k { ctx := s.ctxid, desc := desc } s

/-- XOPEN (R272, R408): it waits for the merge network. -/
def execXopen (x : ArgsD) (s : State) : Out :=
  issue (.xopen x) s fun s =>
    readScalars [(x.a, x.p)] s fun s => drained s fun s =>
    let addr := s.hart.rs x.a
    if addr.toNat % 64 ≠ 0 then .trap 0x05 0 addr 0 s
    else if s.fnFailed 240 then .ok (s.killLasting s.cur 240)
    else if !s.fnReady 240 then .wait s
    else
      oneAccess { acc := .read, op := .read, sz := 64, align := 64, idem := true } 0 0 addr 0 s fun v s =>
      openRound x.d (BitVec.ofNat 512 v) (cleanEnd s)

/-- XCLOSE (R277). -/
def execXclose (x : ArgsS) (s : State) : Out :=
  issue (.xclose x) s fun s =>
    readScalars [(x.a, x.p)] s fun s =>
    let k := slotArg (s.hart.rs x.a)
    withRound k s fun r p => notFaulted k r p s fun s =>
      retireOnly (s.setRound k (r.mapPart p.tile (fun p => { p with closed := true })))

/-- XRECV (R287). -/
def execXrecv (x : ArgsQ) (s : State) : Out :=
  issue (.xrecv x) s fun s =>
    readScalars [(x.a, x.p), (x.b, x.q)] s fun s =>
    let v := s.hart.rs x.a
    let k := slotArg (s.hart.rs x.b)
    withRound k s fun r p =>
    wordCheck v (runOff v) (wellSize v) 64 .write s fun s =>
    if p.well.isSome ∨ r.state ≠ .joining then exchangeTrap 0x0C k 0 s
    else retireOnly (s.setRound k (r.mapPart p.tile (fun p => { p with well := some (runOff v, wellSize v) })))

/-- XDONE (R296). -/
def execXdone (x : ArgsS) (s : State) : Out :=
  issue (.xdone x) s fun s =>
    readScalars [(x.a, x.p)] s fun s =>
    let k := slotArg (s.hart.rs x.a)
    withRound k s fun r p =>
    if !p.closed ∧ r.state ≠ .faulted then exchangeTrap 0x0D k 0 s
    else if r.state ≠ .complete ∧ r.state ≠ .faulted then .wait s
    else
      let s := s.refreshData s.cur
      let r1 := r.mapPart p.tile (fun p => { p with left := true })
      retireOnly (if r1.parts.all (·.left) then { s with rounds := SMap.del s.rounds k } else s.setRound k r1)

/-! ## Sorting and sending -/

/-- Inserts a record behind those of the same key (R273). -/
def insertRec (r : Round) (x : Nat) : List Nat → List Nat
  | [] => [x]
  | y :: t => if r.keyOf x < r.keyOf y then x :: y :: t else y :: insertRec r x t

/-- Folds adjacent records of equal keys (R273); the first record's key bytes stay. -/
def foldEqual (r : Round) : List Nat → Option Nat → List Nat × Flags
  | [], acc => (acc.toList, 0)
  | x :: t, none => foldEqual r t (some x)
  | x :: t, some a =>
    if r.keyOf a = r.keyOf x then
      let v := r.combinePay (a / 2 ^ 64) (x / 2 ^ 64)
      let rest := foldEqual r t (some (a % 2 ^ 64 + 2 ^ 64 * v.1))
      (rest.1, v.2 ||| rest.2)
    else
      let rest := foldEqual r t (some x)
      (a :: rest.1, rest.2)

/-- The records of a run as slot k reads them. -/
def readRun (s : State) (k base rs n : Nat) : List Nat := (List.range n).map (fun i => s.readLoc k (.cis (base + i * rs)) rs)

/-- Writes records back to back, and performs them: the hart's later accesses come after them (R273). -/
def writeRun (k base rs : Nat) (l : List Nat) (s : State) : State :=
  l.zipIdx.foldl (fun t p => t.writeLoc k (.cis (base + p.2 * rs)) rs p.1 true) s

/-- XSORT (R273, R282). -/
def execXsort (x : ArgsT) (s : State) : Out :=
  issue (.xsort x) s fun s =>
    readScalars [(x.a, x.p), (x.b, x.q)] s fun s => drained s fun s =>
    let v := s.hart.rs x.a
    let k := slotArg (s.hart.rs x.b)
    let n := runCount v
    withRound k s fun r p =>
    if n > 2048 then exchangeTrap 0x0F k n s
    else wordCheck v (runOff v) (n * r.RS) 8 .atomic s fun s => notFaulted k r p s fun s =>
      if rangeBusy s (State.tileOf s.cur) (runOff v) (n * r.RS) then .wait s else
      let base := State.tileOf s.cur * 2 ^ 21 + runOff v
      let sorted := (readRun s s.cur base r.RS n).foldl (fun acc x => insertRec r x acc) []
      let out := if (s.hart.rs x.b).getLsbD 4 ∧ r.comb ≠ 1 then foldEqual r sorted none else (sorted, 0)
      let t := ((writeRun s.cur base r.RS out.1 s).dropEarly s.cur).setRound k { r with fl := r.fl ||| out.2 }
      writeLate x.d ((v &&& ~~~ (0xFFF00000000 : Word)) ||| (BitVec.ofNat 64 out.1.length <<< 32)) t

/-- XSEND (R276). -/
def execXsend (x : ArgsT) (s : State) : Out :=
  issue (.xsend x) s fun s =>
    readScalars [(x.a, x.p), (x.b, x.q)] s fun s => drained s fun s =>
    let v := s.hart.rs x.a
    let k := slotArg (s.hart.rs x.b)
    let n := runCount v
    withRound k s fun r p =>
    wordCheck v (runOff v) (n * r.RS) 8 .read s fun s =>
    if p.closed then exchangeTrap 0x07 k 0 s
    else if n > 2048 then exchangeTrap 0x0F k n s
    else notFaulted k r p s fun s =>
      let s := s.fenceDevice s.cur
      if p.runs.length ≥ 8 then writeLate x.d 1 s
      else writeLate x.d 0 (s.setRound k (r.mapPart p.tile (fun p => { p with runs := p.runs ++ [(runOff v, n, 0)] })))

/-- XSPLIT (R275, R298). Its range trap has EIDX 0 whichever operand overruns (R275, log 91). -/
def execXsplit (x : ArgsT) (s : State) : Out :=
  issue (.xsplit x) s fun s =>
    if overruns 16 x.d.toNat then .trap 0x04 0 ((wordOf (.xsplit x)).zeroExtend 64) 0 s
    else readScalars [(x.b, x.q)] s fun s =>
    let k := slotArg (s.hart.rs x.b)
    withRound k s fun r p =>
    let wk := r.keyBits
    if overruns wk x.a.toNat then .trap 0x04 0 ((wordOf (.xsplit x)).zeroExtend 64) 0 s
    else notFaulted k r p s fun s =>
      if r.state = .joining then .wait s
      else
        elementwise (.xsplit x) { srcs := [⟨wk, x.a.toNat, x.p⟩], dsts := [⟨16, x.d.toNat⟩] } false Hart.active
          (fun s i row => .ok { row := putElem row 16 x.d.toNat (r.bucket (fetch s ⟨wk, x.a.toNat, false⟩ i row)) }) s

/-! ## Waiting -/

/-- W and U as XWAIT returns them. -/
def countsWord (w u : Nat) : Word := BitVec.ofNat 64 (w % 2 ^ 32 + u % 2 ^ 32 * 2 ^ 32)

/-- A value that deterministic mode replaces: DETF.D is set when it differs from the raw one (R400). -/
def replaced (d : BitVec 6) (raw v : Word) (s : State) : Res :=
  if s.detm then writeLate d v (s.setHart { s.hart with detf := s.hart.detf || v != raw }) else writeLate d raw s

/-- XWAIT (R288, R400). -/
def execXwait (x : ArgsT) (s : State) : Out :=
  issue (.xwait x) s fun s =>
    readScalars [(x.a, x.p), (x.b, x.q)] s fun s => destFree x.d s fun s =>
    let k := slotArg (s.hart.rs x.a)
    let v := s.hart.rs x.b
    let sel := v.extractLsb' 62 2
    let n := (v.extractLsb' 0 32).toNat
    withRound k s fun r p =>
    if sel = 3 then
      let settled := r.state == .complete || r.state == .faulted
      replaced x.d r.status (if settled then r.status else 0) s
    else notFaulted k r p s fun s =>
      let raw := countsWord p.w p.u
      if sel = 0 then
        if p.w + p.u ≥ n ∨ p.final then
          let w := min p.w n
          replaced x.d raw (countsWord w (min p.u (n - w))) (s.refreshData s.cur)
        else .wait s
      else if sel = 1 then
        if p.read ≥ n ∨ p.closeRead then replaced x.d (BitVec.ofNat 64 p.read) (BitVec.ofNat 64 (min p.read n)) (s.refreshData s.cur) else .wait s
      else if r.state = .complete then writeLate x.d raw (s.refreshData s.cur)
      else .wait s

/-! ## Samples -/

/-- The value that an earlier step of the instruction has fixed for its access number i. -/
def State.accessed (s : State) (i : Nat) : Option Nat := (s.hart.accs.find? (fun a => a.i == i)).bind (·.value)

/-- A list of 8-byte accesses in device-virtual space from `base`, numbered from `lo`: `k` gets the state and the values
read. A fault traps with EIDX 0 after the accesses below it (R292). An access that has been made is not made again while others wait (R310). -/
def wordAccesses (wr : Bool) (base lo n : Nat) (data : Nat → Nat) (s : State) (k : (Nat → Nat) → State → Res) : Res :=
  let acc : Access := if wr then { acc := .write, op := .write, sz := 8, align := 8, idem := true }
    else { acc := .read, op := .read, sz := 8, align := 8, idem := true }
  let addr := fun i => BitVec.ofNat 64 (base + 8 * (i - lo))
  let p := planElems acc 0 (fun i => (s.accessed i).isNone) addr (fun i => data (i - lo)) (fun _ => 0) true lo n ⟨s, [], none, .all⟩
  let own := p.locs.filter (fun q => match q.2.1 with | .peer _ _ => false | _ => true)
  let t := if wr then storeElems 8 (fun i => data (i - lo)) own p.s else p.s
  let got := own.map (fun q => ⟨q.1, addr q.1, q.2.1, q.2.2, some (if wr then 0 else loadedValue p.s 8 q.2.1 q.2.2)⟩)
  let u := t.setHart { t.hart with accs := t.hart.accs ++ got }
  match p.end_, p.pending with
  | .dead f, _ => .ok (s.killLasting s.cur f)
  | .wait, _ | .turn _, _ => .wait u
  | _, some _ => .wait u
  | .fail _ c wl v, none => .trap c 0 v wl (cleanEnd u)
  | .all, none =>
    k (fun j => match u.accessed (lo + j) with
      | some v => v
      | none => match p.locs.find? (fun q => q.1 == lo + j) with | some q => loadedValue p.s 8 q.2.1 q.2.2 | none => 0) u

/-- The keys kept, grouped by egress tile in ascending number (R292). -/
def sampleKeys (r : Round) : List Nat :=
  (r.parts.foldl (fun (m : SMap (List Nat)) p => SMap.put m p.tile p.sampled) []).flatMap (·.2)

/-- Word j of the sample image (R292). -/
def sampleWord (r : Round) (j : Nat) : Nat :=
  let keys := sampleKeys r
  let drops := (r.parts.map (·.dropped)).sum
  let count := fun b => (SMap.get 0 r.counts b).toNat
  if j = 0 then keys.length + r.kw.toNat * 2 ^ 32
  else if j = 1 then drops % 2 ^ 32
  else if j < 8 then 0
  else if j < 136 then count (2 * (j - 8)) + count (2 * (j - 8) + 1) * 2 ^ 32
  else keys.getD (j - 136) 0

/-- XSAMP (R292). -/
def execXsamp (x : ArgsT) (s : State) : Out :=
  issue (.xsamp x) s fun s =>
    readScalars [(x.a, x.p), (x.b, x.q)] s fun s => destFree x.d s fun s =>
    let k := slotArg (s.hart.rs x.a)
    let addr := s.hart.rs x.b
    withRound k s fun r _ =>
    if addr.toNat % 64 ≠ 0 then .trap 0x05 0 addr 0 s
    else
      let n := (sampleKeys r).length
      wordAccesses true addr.toNat 0 (136 + n) (sampleWord r) s fun _ s => writeLate x.d (BitVec.ofNat 64 n) (cleanEnd s)

/-- Inserts a number into an ascending list. -/
def insertNat (x : Nat) : List Nat → List Nat
  | [] => [x]
  | y :: t => if x ≤ y then x :: y :: t else y :: insertNat x t

/-- XRBAL (R293). -/
def execXrbal (x : ArgsT) (s : State) : Out :=
  issue (.xrbal x) s fun s =>
    readScalars [(x.a, x.p), (x.b, x.q)] s fun s => destFree x.d s fun s =>
    let src := s.hart.rs x.a
    let dst := s.hart.rs x.b
    if src.toNat % 64 ≠ 0 then .trap 0x05 0 src 0 s
    else if dst.toNat % 64 ≠ 0 then .trap 0x05 0 dst 0 s
    else
      wordAccesses false src.toNat 0 1 (fun _ => 0) s fun w s =>
      let n := w 0 % 2 ^ 32
      if n > 4096 then slotlessTrap 0x0F n (s.clearRequests s.cur)
      else if n = 0 then writeLate x.d 0 (cleanEnd s)
      else
        wordAccesses false (src.toNat + 1088) 8 n (fun _ => 0) s fun key s =>
        let keys := ((List.range n).map key).foldl (fun acc v => insertNat v acc) []
        let splitter := fun j => if j < 255 then keys.getD ((j + 1) * n / 256) 0 else 0
        wordAccesses true dst.toNat 5000 256 splitter s fun _ s => writeLate x.d (BitVec.ofNat 64 n) (cleanEnd s)

end Sys2Proof.Machine
end

