-- ==== Sys2Proof/Machine/Fabric.lean ====
section
/-! DEFINITION. Remote requests at their target (R369, R370, R372, R374), replies and resends at their source (R371, R373), and
links that fail for good (R366, R416). -/

namespace Sys2Proof.Machine
open Sys2Proof

/-! ## The target -/

/-- v is ahead of u, compared modulo 2^32 (R385). -/
def ahead (v u : BitVec 32) : Bool := v != u && decide ((v - u).toNat < 2 ^ 31)

/-- Does export window j of context c cover the range with the right (R370)? -/
def exports (s : State) (c : BitVec 6) (pa size : Nat) (wr rd : Bool) (j : Nat) : Bool :=
  let w := s.fabN c (0x100 + 8 * j) 8
  let k := bits w 8 6
  let base := bits w 15 37 * 2 ^ 15
  w.testBit 0 && decide (15 ≤ k) && decide (k ≤ 39) && base % 2 ^ k == 0 && decide (base ≤ pa) && decide (pa + size ≤ base + 2 ^ k) &&
  (!rd || w.testBit 1) && (!wr || w.testBit 2)

/-- The context whose JOB and export window admit the request (R370). -/
def admits (s : State) (q : RemoteReq) : Option (BitVec 6) :=
  let wr := q.op != .read
  let rd := q.op != .write
  (firstIn (fun n =>
    let c := BitVec.ofNat 6 n
    (s.ctx c).res && s.job c == q.job.toNat && decide (q.pa + q.size ≤ Config.hbmBytes) &&
    (List.range 16).any (exports s c q.pa q.size wr rd)) 0 Config.contexts).map (BitVec.ofNat 6)

/-- The filter of the request's triple. -/
def filterOf (s : State) (q : RemoteReq) : Option Filter :=
  s.net.filters.find? (fun f => f.src == q.src && f.srcCtx == q.srcCtx && f.incarnation == q.incarnation)

/-- Filters of older incarnations of the source context are freed (R372). -/
def dropOlder (q : RemoteReq) (l : List Filter) : List Filter :=
  l.filter (fun f => !(f.src == q.src && f.srcCtx == q.srcCtx && f.incarnation != q.incarnation &&
    decide ((q.incarnation + 2 ^ 16 - f.incarnation) % 2 ^ 16 < 2 ^ 15)))

/-- The filter with a newly received ACKED: entries below it are freed (R372). -/
def Filter.acknowledge (f : Filter) (a : BitVec 32) : Filter :=
  if ahead a f.acked then { f with acked := a, performed := f.performed.filter (fun e => !ahead a e.1) } else f

/-- Replaces the filter of the triple. -/
def putFilter (f : Filter) (l : List Filter) : List Filter :=
  l.filter (fun g => !(g.src == f.src && g.srcCtx == f.srcCtx && g.incarnation == f.incarnation)) ++ [f]

/-- The ACKED that a reply to the request carries: that of its triple (R371). -/
def ackedOf (s : State) (q : RemoteReq) : BitVec 32 := ((filterOf s q).map (·.acked)).getD q.acked

/-- Sends a reply (R371), which without a path is lost and asked for again (R367, R373); its units count in the fabric budget of the
exporting context (R389). -/
def reply (s : State) (q : RemoteReq) (c : Option (BitVec 6)) (refused : Bool) (data : Nat) : State :=
  if (s.portOf q.src).isNone then s
  else
    let r : SentReply := ⟨q.src, q.srcCtx, q.incarnation, q.seq, ackedOf s q, refused, data⟩
    let t : State := { s with net := { s.net with replies := s.net.replies ++ [r] } }
    match c with
    | none => t
    | some c => t.portCount (s.portOf q.src) c q.size

/-- May a reply of the exporting context be sent to the source of the request (R390)? -/
def replyFree (s : State) (q : RemoteReq) (c : Option (BitVec 6)) : Bool := c.all (fun c => s.portFree (s.portOf q.src) c)

/-- Performs an admitted request at its home: the state, and the reply's data (R330, R370, R374). -/
def perform (q : RemoteReq) (s : State) : State × Nat :=
  let old := s.homeRead (.hbm q.pa) q.size
  if q.op = .read then (s, old)
  else if q.op = .write then (s.homeWrite (.hbm q.pa) q.size q.data, 0)
  else (s.homeWrite (.hbm q.pa) q.size (newValue q.op (8 * q.size) old (q.data % 256 ^ q.size) (q.expect % 256 ^ q.size)).1, old)

/-- One request at the target (R370, R372): one that cannot be taken yet (no filter free, a stack not READY, a spent budget) waits at
its source and leaves the machine as it is. -/
def takeRequest (q : RemoteReq) (s : State) : State :=
  let old := dropOlder q s.net.filters
  let f0 : Option Filter := filterOf s q
  if q.size = 0 ∨ q.size > 256 ∨ (f0.isNone ∧ old.length ≥ Config.filterCount) then s
  else
    let f := (f0.getD { src := q.src, srcCtx := q.srcCtx, incarnation := q.incarnation, acked := q.acked, performed := [] }).acknowledge q.acked
    let kept : State := { s with net := { s.net with filters := putFilter f old } }
    match f.performed.find? (fun e => e.1 == q.seq) with
    | some e => if replyFree s q (admits s q) then reply kept q (admits s q) false (e.2.getD 0) else s
    | none =>
      if ahead f.acked q.seq then kept
      else match admits s q with
        | none => reply kept q none true 0
        | some c =>
          if !replyFree s q (some c) then s
          else match s.useFns [State.stackFn q.pa, State.stackFn (q.pa + q.size - 1)] (.bad 0 0) with
            | .wait => s
            | .dead fn => s.killFor c fn
            | _ =>
              let r := perform q kept
              let saved := q.op != .write && (q.op != .read || q.device)
              let g := if q.op = .read ∧ !q.device then f
                else { f with performed := f.performed ++ [(q.seq, if saved then some r.2 else none)] }
              reply { r.1 with net := { r.1.net with filters := putFilter g r.1.net.filters } } q (some c) false r.2

/-- Does request a go before b among those that arrive in one cycle (R374)? -/
def requestBefore (a b : RemoteReq) : Bool :=
  decide (addrRank a.src < addrRank b.src) || (addrRank a.src == addrRank b.src && decide (a.seq.toNat ≤ b.seq.toNat))

/-- Inserts a request into its place. -/
def insertReq (a : RemoteReq) : List RemoteReq → List RemoteReq
  | [] => [a]
  | b :: l => if requestBefore a b then a :: b :: l else b :: insertReq a l

/-- REMOTE_REQUEST (R370, R372, R374): the requests that arrive in one cycle, in ascending (source fabric address, sequence number). -/
def execRemoteRequest (reqs : List RemoteReq) (s : State) : Out :=
  .next ((reqs.foldl (fun acc a => insertReq a acc) []).foldl (fun st q => takeRequest q st) s)

/-- FILTER_FREE (R372): a filter with nothing unacknowledged is freed. -/
def execFilterFree (index : Nat) (s : State) : Out :=
  match s.net.filters[index]? with
  | none => .next s
  | some f => .next (if f.performed.isEmpty then { s with net := { s.net with filters := s.net.filters.eraseIdx index } } else s)

/-! ## The source -/

/-- Does the reply answer the request? A request that has found no path yet has no answer. -/
def answers (p : RemoteReply) (r : SentReq) : Bool :=
  r.target == p.peer && r.ctx.toNat == p.ctx && r.incarnation.toNat == p.incarnation && r.seq == p.seq && r.reply.isNone && !r.failed &&
  r.routed

/-- Does nobody wait for the request? -/
def SentReq.forgotten (r : SentReq) : Bool := match r.who with | .gone _ _ => true | _ => false

/-- REMOTE_REPLY (R371): a reply that nothing waits for is discarded. -/
def execRemoteReply (reply : RemoteReply) (s : State) : Out :=
  .next { s with net := { s.net with reqs := (s.net.reqs.filter (fun r => !(answers reply r && r.forgotten))).map (fun r =>
    if answers reply r then { r with reply := some (reply.refused, reply.data % 256 ^ r.size) } else r) } }

/-- RESEND (R373): unchanged and with the same number, over the path there is now; after the fifth send the request counts as
unanswered. -/
def execResend (index : Nat) (s : State) : Out :=
  match s.net.reqs[index]? with
  | none => .next s
  | some r =>
    let port := s.portOf r.target
    if r.reply.isSome ∨ r.failed then .next s
    else if r.sends ≥ 5 then
      .next { s with net := { s.net with reqs := if r.forgotten then s.net.reqs.eraseIdx index else s.net.reqs.set index { r with failed := true } } }
    else if !s.portFree port r.ctx then .next s
    else
      let r1 := { r with sends := r.sends + 1, routed := r.routed || port.isSome }
      .next ({ s with net := { s.net with reqs := s.net.reqs.set index r1 } }.portCount port r.ctx r.size)

/-! ## Links -/

/-- Does the path that hops to member h on its way to member b use the local link between members x and y (R367)? -/
def pathUses (s : State) (h b x y : Nat) : Bool :=
  let on := fun (p q : Nat) => (p == x && q == y) || (p == y && q == x)
  on s.myMember h || (h != b && on h b)

/-- The span device of the round to which the path chosen at OPEN uses the local link between members x and y (R294, R367). -/
def laneOver (s : State) (r : Round) (x y : Nat) : Option Nat :=
  (r.via.find? (fun v => pathUses s v.2 (addrMember (s.devAddr r.ctx v.1)) x y)).map (·.1)

/-- The rounds whose lanes use the local link between members x and y fault (R367, R416). -/
def faultLanes (x y : Nat) (s : State) : State :=
  foldRange (fun k st =>
    match st.round k with
    | none => st
    | some r => match laneOver st r x y with | some d => faultRound k 0x0A d st | none => st) 0 16 s

/-- Link j of this device (local links 0–30, global ports 31–78) fails for good (R366, R367, R416): FAILED, and the rounds on it fault. -/
def failLink (j : Nat) (loc : BitVec 32) (s : State) : State :=
  let n := 241 + j
  let t := s.countLasting n loc
  let u : State := { t with funcs := SMap.set {} t.funcs n { t.func n with state := 3, fcode := 2 } }
  if j ≥ 31 then u else faultLanes s.myMember ((s.myMember + 1 + j) % 32) u

/-- A link of other members fails: the local link between a and b, or a global port (`Fabric.down`). -/
def failOther (a b : Nat) (s : State) : State :=
  let t : State := { s with net := { s.net with down := addNew (a, b) s.net.down } }
  if b < 32 then faultLanes a b t else t

/-- LINK_FAILED (R366): one of this device's links, or, numbered 79 + 32 a + b, the local link between two other members a < b, or,
numbered 1103 + 48 m + g, global port g of another member m. -/
def execLinkFailed (link : Nat) (loc : BitVec 32) (s : State) : Out :=
  let a := (link - 79) / 32
  let b := (link - 79) % 32
  let m := (link - 1103) / 48
  .next (if link < 79 then failLink link loc s
    else if link < 1103 then (if a < b ∧ a ≠ s.myMember ∧ b ≠ s.myMember then failOther a b s else s)
    else if m < 32 ∧ m ≠ s.myMember then failOther m (32 + (link - 1103) % 48) s else s)

end Sys2Proof.Machine
end

