-- ==== Sys2Proof/Machine/Signatures.lean ====
section
/-! DEFINITION. The algorithms that R411 names: SHAKE256 of FIPS 202, and ML-DSA-65 of FIPS 204 as its internal functions give it, over lists of
bytes and of coefficients modulo q. They are taken from the standards, which the spec names and does not repeat (log 18). What the
standards or the spec leave open is free: the entropy, the randomness of a signature, and in which of its two forms a message is signed. -/

namespace Sys2Proof.Machine

/-! ## SHAKE (FIPS 202) -/

/-- A state of Keccak: lane x + 5y. -/
abbrev Lanes := List (BitVec 64)

/-- The lane at a place. -/
def Lanes.at (a : Lanes) (x y : Nat) : BitVec 64 := a.getD (x % 5 + 5 * (y % 5)) 0

/-- A state given lane by lane. -/
def lanesOf (f : Nat → Nat → BitVec 64) : Lanes := (List.range 25).map (fun i => f (i % 5) (i / 5))

/-- The rotations of the lanes, lane x + 5y. -/
def keccakTurns : List Nat :=
  [0, 1, 62, 28, 27, 36, 44, 6, 55, 20, 3, 10, 43, 25, 39, 41, 45, 15, 21, 8, 18, 2, 61, 56, 14]

/-- The constants of the 24 rounds. -/
def keccakRounds : List (BitVec 64) :=
  [0x0000000000000001, 0x0000000000008082, 0x800000000000808A, 0x8000000080008000, 0x000000000000808B, 0x0000000080000001,
   0x8000000080008081, 0x8000000000008009, 0x000000000000008A, 0x0000000000000088, 0x0000000080008009, 0x000000008000000A,
   0x000000008000808B, 0x800000000000008B, 0x8000000000008089, 0x8000000000008003, 0x8000000000008002, 0x8000000000000080,
   0x000000000000800A, 0x800000008000000A, 0x8000000080008081, 0x8000000000008080, 0x0000000080000001, 0x8000000080008008]

/-- One round: theta, rho and pi, chi, iota. -/
def keccakRound (a : Lanes) (rc : BitVec 64) : Lanes :=
  let c := (List.range 5).map (fun x => a.at x 0 ^^^ a.at x 1 ^^^ a.at x 2 ^^^ a.at x 3 ^^^ a.at x 4)
  let t := lanesOf (fun x y => a.at x y ^^^ c.getD ((x + 4) % 5) 0 ^^^ (c.getD ((x + 1) % 5) 0).rotateLeft 1)
  let b := lanesOf (fun x y => (t.at (x + 3 * y) x).rotateLeft (keccakTurns.getD ((x + 3 * y) % 5 + 5 * x) 0))
  lanesOf (fun x y => b.at x y ^^^ (~~~ b.at (x + 1) y &&& b.at (x + 2) y) ^^^ if x = 0 ∧ y = 0 then rc else 0)

/-- Keccak-f[1600]. -/
def keccak (a : Lanes) : Lanes := keccakRounds.foldl keccakRound a

/-- The state after the whole blocks of `rate` bytes that begin a message, and what is left of it. -/
def absorbBlocks (rate : Nat) : Nat → Lanes → List Byte → Lanes
  | 0, a, _ => a
  | n + 1, a, m =>
    absorbBlocks rate n (keccak (lanesOf (fun x y => a.at x y ^^^ BitVec.ofNat 64 (bytesNat (((m.take rate).drop (8 * (x + 5 * y))).take 8))))) (m.drop rate)

/-- The output of a state, block after block. -/
def squeezeBlocks (rate : Nat) : Nat → Lanes → List Byte
  | 0, _ => []
  | n + 1, a => ((a.map (fun l => natBytes l.toNat 8)).flatten.take rate) ++ squeezeBlocks rate n (keccak a)

/-- The first n bytes of SHAKE with a rate: 168 for SHAKE128, 136 for SHAKE256. -/
def shake (rate : Nat) (m : List Byte) (n : Nat) : List Byte :=
  let fill := rate - m.length % rate
  let pad : List Byte := if fill = 1 then [0x9F] else [0x1F] ++ List.replicate (fill - 2) 0 ++ [0x80]
  (squeezeBlocks rate (n / rate + 1) (absorbBlocks rate (m.length / rate + 1) (lanesOf (fun _ _ => 0)) (m ++ pad))).take n

/-- SHAKE256 with an output of m bits, byte 0 lowest (R411). -/
@[irreducible] def shake256 (m : Nat) (bytes : List Byte) : BitVec m := BitVec.ofNat m (bytesNat (shake 136 bytes (m / 8)))

/-! ## Polynomials modulo q -/

/-- The modulus q. -/
def dsaQ : Nat := 8380417

/-- A polynomial of 256 coefficients modulo q, the constant one first; or its values at the 256 roots. -/
abbrev DsaPoly := List Nat

/-- Coefficient by coefficient. -/
def DsaPoly.zip (f : Nat → Nat → Nat) (a b : DsaPoly) : DsaPoly := List.zipWith (fun x y => f x y % dsaQ) a b

/-- The sum. -/
def DsaPoly.add (a b : DsaPoly) : DsaPoly := a.zip (· + ·) b

/-- The difference. -/
def DsaPoly.sub (a b : DsaPoly) : DsaPoly := a.zip (fun x y => x + (dsaQ - y)) b

/-- The product of values at the roots. -/
def DsaPoly.mul (a b : DsaPoly) : DsaPoly := a.zip (· * ·) b

/-- The zero polynomial. -/
def DsaPoly.zero : DsaPoly := List.replicate 256 0

/-- The representative of a coefficient between −(q − 1) / 2 and (q − 1) / 2. -/
def centred (x : Nat) : Int := if 2 * x < dsaQ then x else (x : Int) - dsaQ

/-- The coefficient that an integer gives. -/
def coeff (x : Int) : Nat := (x % dsaQ).toNat

/-- The greatest magnitude of the coefficients is below n. -/
def DsaPoly.below (n : Nat) (a : DsaPoly) : Bool := a.all (fun x => (centred x).natAbs < n)

/-- The eight bits of i in reverse order. -/
def reverse8 (i : Nat) : Nat := (List.range 8).foldl (fun r k => 2 * r + i / 2 ^ k % 2) 0

/-- Root i: 1753 to the power 2 · reverse8 i + 1. -/
def dsaRoots : List Nat := (List.range 256).map (fun i => 1753 ^ (2 * reverse8 i + 1) % dsaQ)

/-- The inverses of the roots. -/
def dsaInverses : List Nat := (List.range 256).map (fun i => 1753 ^ (511 - 2 * reverse8 i) % dsaQ)

/-- NTT: the values at the roots. -/
def ntt (a : DsaPoly) : DsaPoly := dsaRoots.map (fun z => a.foldr (fun c v => (c + z * v) % dsaQ) 0)

/-- The next n coefficients of the polynomial whose values, multiplied by the powers of the inverse roots so far, are v. -/
def inverseNtt : Nat → List Nat → DsaPoly
  | 0, _ => []
  | n + 1, v => (v.sum * 8347681) % dsaQ :: inverseNtt n (DsaPoly.mul v dsaInverses)

/-- The polynomial with the values v; 8347681 is the inverse of 256. -/
def unNtt (v : DsaPoly) : DsaPoly := inverseNtt 256 v

/-- A matrix times a vector, both at the roots. -/
def dsaTimes (A : List (List DsaPoly)) (v : List DsaPoly) : List DsaPoly :=
  A.map (fun row => (List.zipWith DsaPoly.mul row v).foldl DsaPoly.add DsaPoly.zero)

/-! ## Bits and bytes -/

/-- Numbers of w bits each as bytes, the first lowest. -/
def packBits (w : Nat) (l : List Nat) : List Byte := natBytes (l.foldr (fun x v => x + 2 ^ w * v) 0) (l.length * w / 8)

/-- The first n numbers of w bits each that bytes hold. -/
def unpackBits (w n : Nat) (l : List Byte) : List Nat :=
  let v := bytesNat l
  (List.range n).map (fun k => v / 2 ^ (w * k) % 2 ^ w)

/-- The k-th piece of n bytes. -/
def piece (n k : Nat) (l : List Byte) : List Byte := (l.drop (n * k)).take n

/-! ## Sampling -/

/-- RejNTTPoly: the first 256 numbers below q of three bytes each with the highest bit dropped. Of 392 fewer than 256 are below q with a chance under 2^−256 (FIPS 204 allows a bound of 298). -/
def rejUniform (seed : List Byte) : DsaPoly :=
  (((unpackBits 24 392 (shake 168 seed 1176)).map (· % 2 ^ 23)).filter (· < dsaQ)).take 256

/-- ExpandA: row r, column s. -/
def expandA (rho : List Byte) : List (List DsaPoly) :=
  (List.range 6).map (fun r => (List.range 5).map (fun s => rejUniform (rho ++ [BitVec.ofNat 8 s, BitVec.ofNat 8 r])))

/-- RejBoundedPoly with η = 4: the first 256 half bytes below 9, of 544 bytes (FIPS 204 allows a bound of 481). -/
def rejBounded (seed : List Byte) : DsaPoly :=
  (((unpackBits 4 1088 (shake 136 seed 544)).filter (· < 9)).take 256).map (fun b => coeff (4 - b))

/-- ExpandS: s₁ and s₂. -/
def expandS (seed : List Byte) : List DsaPoly × List DsaPoly :=
  let l := (List.range 11).map (fun r => rejBounded (seed ++ natBytes r 2))
  (l.take 5, l.drop 5)

/-- BitPack with the bounds γ₁ − 1 and γ₁, for masks and for z. -/
def packMask (a : DsaPoly) : List Byte := packBits 20 (a.map (fun x => (524288 - centred x).toNat))

/-- BitUnpack with those bounds. -/
def unpackMask (l : List Byte) : DsaPoly := (unpackBits 20 256 l).map (fun v => coeff (524288 - v))

/-- ExpandMask. -/
def expandMask (seed : List Byte) (kappa : Nat) : List DsaPoly :=
  (List.range 5).map (fun r => unpackMask (shake 136 (seed ++ natBytes (kappa + r) 2) 640))

/-- SampleInBall, from place i on: the next byte that is not above i names the coefficient that moves to place i, and the next sign takes its place. -/
def ballFrom : Nat → List Bool → List Byte → DsaPoly → DsaPoly
  | _, [], _, c => c
  | i, sign :: rest, bytes, c =>
    let left := bytes.dropWhile (fun b => i < b.toNat)
    let j := (left.headD 0).toNat
    ballFrom (i + 1) rest (left.drop 1) ((c.set i (c.getD j 0)).set j (if sign then dsaQ - 1 else 1))

/-- SampleInBall with τ = 49. -/
def sampleInBall (seed : List Byte) : DsaPoly :=
  let s := shake 136 seed 272
  ballFrom 207 ((List.range 49).map (fun k => (bytesNat (s.take 8)).testBit k)) (s.drop 8) DsaPoly.zero

/-! ## Rounding and hints -/

/-- Power2Round with d = 13: the high part and the low one. -/
def power2Round (x : Nat) : Nat × Int :=
  let low : Int := if x % 8192 ≤ 4096 then (x % 8192 : Nat) else (x % 8192 : Nat) - 8192
  (((x : Int) - low).toNat / 8192, low)

/-- Decompose with γ₂ = (q − 1) / 32. -/
def decompose (x : Nat) : Nat × Int :=
  let low : Int := if x % 523776 ≤ 261888 then (x % 523776 : Nat) else (x % 523776 : Nat) - 523776
  if (x : Int) - low = dsaQ - 1 then (0, low - 1) else (((x : Int) - low).toNat / 523776, low)

/-- UseHint: the high part, moved by one towards the low part's side where the hint is set. -/
def useHint (h : Bool) (x : Nat) : Nat :=
  let (high, low) := decompose x
  if !h then high else if 0 < low then (high + 1) % 16 else (high + 15) % 16

/-- The places at which a hint is set. -/
def hintPlaces (h : List Bool) : List Nat := (List.range 256).filter (fun j => h.getD j false)

/-- HintBitPack with ω = 55: the places of all polynomials, and how many there are up to each. -/
def packHint (h : List (List Bool)) : List Byte :=
  let places := h.map hintPlaces
  let ends := (List.range 6).map (fun i => ((places.take (i + 1)).map List.length).sum)
  ((places.flatten ++ List.replicate 55 0).take 55 ++ ends).map (BitVec.ofNat 8)

/-- HintBitUnpack: nothing where the counts fall or pass ω, the places of a polynomial do not rise, or a byte after the last one is not 0. -/
def unpackHint (l : List Byte) : Option (List (List Bool)) :=
  let y := l.map BitVec.toNat
  let ends := 0 :: y.drop 55
  let places := (List.range 6).map (fun i => ((y.take 55).take (ends.getD (i + 1) 0)).drop (ends.getD i 0))
  if decide (ends.Pairwise (· ≤ ·)) && ends.all (· ≤ 55) && places.all (fun p => decide (p.Pairwise (· < ·))) &&
      ((y.take 55).drop (ends.getD 6 0)).all (· == 0)
  then some (places.map (fun p => (List.range 256).map p.contains)) else none

/-! ## Keys, signing, verifying -/

/-- What a seed gives: ρ, K, s₁, s₂ and t, and the public key ρ and t₁. -/
structure DsaKey where
  rho : List Byte
  K : List Byte
  s1 : List DsaPoly
  s2 : List DsaPoly
  t : List DsaPoly
  pub : List Byte

/-- ML-DSA.KeyGen_internal of a seed of 32 bytes. -/
@[irreducible] def dsaKeyGen (seed : List Byte) : DsaKey :=
  let h := shake 136 (seed ++ [6, 5]) 128
  let rho := h.take 32
  let (s1, s2) := expandS ((h.drop 32).take 64)
  let t := List.zipWith DsaPoly.add ((dsaTimes (expandA rho) (s1.map ntt)).map unNtt) s2
  { rho := rho, K := h.drop 96, s1 := s1, s2 := s2, t := t
    pub := rho ++ (t.map (fun p => packBits 10 (p.map (fun x => (power2Round x).1)))).flatten }

/-- The high parts, packed, that the challenge hashes. -/
def packHigh (w : List DsaPoly) : List Byte := (w.map (packBits 4)).flatten

/-- The rounds of ML-DSA.Sign_internal from κ on, until one gives a signature. A bound of 814 rounds is the least that FIPS 204 lets an implementation have. -/
def signRounds (k : DsaKey) (A : List (List DsaPoly)) (mu seed : List Byte) : Nat → Nat → List Byte
  | 0, _ => []
  | n + 1, kappa =>
    let y := expandMask seed kappa
    let w := (dsaTimes A (y.map ntt)).map unNtt
    let chall := shake 136 (mu ++ packHigh (w.map (fun p => p.map (fun x => (decompose x).1)))) 48
    let c := ntt (sampleInBall chall)
    let times : List DsaPoly → List DsaPoly := fun v => v.map (fun p => unNtt (c.mul (ntt p)))
    let z := List.zipWith DsaPoly.add y (times k.s1)
    let r := List.zipWith DsaPoly.sub w (times k.s2)
    let ct0 := times (k.t.map (fun p => p.map (fun x => coeff (power2Round x).2)))
    let hint := List.zipWith (fun p q => List.zipWith (fun x y => (decompose x).1 != (decompose y).1) p q) r (List.zipWith DsaPoly.add r ct0)
    if z.all (DsaPoly.below (524288 - 196)) && r.all (fun p => p.all (fun x => (decompose x).2.natAbs < 261888 - 196)) &&
        ct0.all (DsaPoly.below 261888) && decide ((hint.map hintPlaces).flatten.length ≤ 55)
    then chall ++ (z.map packMask).flatten ++ packHint hint
    else signRounds k A mu seed n (kappa + 5)

/-- ML-DSA.Sign_internal of a message in its signed form, with 32 bytes of randomness. -/
@[irreducible] def dsaSign (k : DsaKey) (m rnd : List Byte) : List Byte :=
  let mu := shake 136 (shake 136 k.pub 64 ++ m) 64
  signRounds k (expandA k.rho) mu (shake 136 (k.K ++ rnd ++ mu) 64) 814 0

/-- ML-DSA.Verify_internal of a message in its signed form. -/
@[irreducible] def dsaVerify (pub m sig : List Byte) : Bool :=
  let rho := pub.take 32
  let t1 := (List.range 6).map (fun i => unpackBits 10 256 (piece 320 i (pub.drop 32)))
  let chall := sig.take 48
  let z := (List.range 5).map (fun i => unpackMask (piece 640 i (sig.drop 48)))
  let mu := shake 136 (shake 136 pub 64 ++ m) 64
  let c := ntt (sampleInBall chall)
  let Az := dsaTimes (expandA rho) (z.map ntt)
  let w := List.zipWith (fun p t => unNtt (p.sub (c.mul (ntt (t.map (· * 8192 % dsaQ)))))) Az t1
  match unpackHint (sig.drop 3248) with
  | none => false
  | some h =>
    z.all (DsaPoly.below (524288 - 196)) &&
      decide (shake 136 (mu ++ packHigh (List.zipWith (fun p hs => List.zipWith useHint hs p) w h)) 48 = chall)

/-! ## The device's keys and signatures (R411–R414) -/

/-- The identity key that draw n of the entropy source gives (R413). -/
def identityKey (n : Nat) : DsaKey := dsaKeyGen (natBytes (Config.entropy n).toNat 32)

/-- The public identity key of draw n. -/
def publicKey (n : Nat) : BitVec 15616 := BitVec.ofNat 15616 (bytesNat (identityKey n).pub)

/-- Does a signature of the bytes verify against the public key (R412)? -/
def verifies (key : BitVec 15616) (body : List Byte) (sig : BitVec 26472) : Bool :=
  dsaVerify (natBytes key.toNat 1952) (Config.signedForm body) (natBytes sig.toNat 3309)

/-- A signature of the bytes with the identity key of draw n (R414), the r-th that the device makes. -/
def signature (n : Nat) (body : List Byte) (r : Nat) : BitVec 26472 :=
  BitVec.ofNat 26472 (bytesNat (dsaSign (identityKey n) (Config.signedForm body) (natBytes (Config.signRandom r).toNat 32)))

end Sys2Proof.Machine
end

