-- ==== Sys2Proof/Machine/Tasks.lean ====
section
/-! DEFINITION. Tasks on slots: TASKQ (R59, R60), HWMPUB (R71), GBAR (R67, R68), TASKEND (R69), dispatch (R63–R65), the slot
table's writes (R53, R54), freed credits (R61). -/

namespace Sys2Proof.Machine
open Sys2Proof

/-- TASKQ (R59, R60). -/
def execTaskq (x : ArgsD) (s : State) : Out :=
  issue (.taskq x) s fun s =>
    readScalars [(x.a, x.p)] s fun s => destFree x.d s fun s =>
    let addr := s.hart.rs x.a
    if addr.toNat % 64 ≠ 0 then .trap 0x05 0 addr 0 s
    else
      oneAccess { acc := .read, op := .read, sz := 64, align := 64, idem := true } 0 0 addr 0 (s.fenceDevice s.cur)
        fun v s =>
        let r := s.submit s.ctxid (State.dieOf s.cur) v
        writeRetire x.d (BitVec.ofNat 64 r.1) (cleanEnd r.2)

/-- HWMPUB's effect on the mark of the running task (R70, R71). -/
def publish (s : State) (v : BitVec 32) : State :=
  let c := s.ctxid
  let id := s.hart.taskid
  match s.markOf c id with
  | some m => if m.ended then s else s.mapMark c id (fun m => { m with mark := if m.mark < v then v else m.mark })
  | none =>
    let die := State.dieOf s.cur
    if s.markRoom c die then { s with marks := s.marks ++ [⟨c, id, die, v, false, 0⟩] } else s

/-- HWMPUB (R71). -/
def execHwmpub (x : ArgsS) (s : State) : Out :=
  issue (.hwmpub x) s fun s =>
    readScalars [(x.a, x.p)] s fun s => drained s fun s =>
    let v := min (s.hart.rs x.a).toNat 0xFFFFFFFF
    retireOnly (publish (s.fenceDevice s.cur) (BitVec.ofNat 32 v))

/-- GBAR (R67, R68): arrives once, and waits for the phase to complete. -/
def execGbar (x : ArgsD) (s : State) : Out :=
  issue (.gbar x) s fun s =>
    readScalars [(x.a, x.p)] s fun s => destFree x.d s fun s =>
    let v := s.hart.rs x.a
    let c := s.ctxid
    let finish := fun (p : BitVec 32) (t : State) =>
      writeRetire x.d (p.zeroExtend 64) (((t.refreshData t.cur).mapRun t.cur (fun r => { r with bar := none })).setRunState .running)
    match (s.runOf s.cur).bind (·.bar) with
    | some (g, p) =>
      if ((s.group c g).map (·.phase)) = some p then .wait (s.setRunState .waiting) else finish p s
    | none =>
      match (if v.toNat > 254 then none else s.group c v.toNat) with
      | none => .trap 0x01 0 v 0 s
      | some g =>
        if !g.members.contains s.hart.taskid then .trap 0x01 0 v 0 s
        else drained s fun s =>
          let t := (s.fenceDevice s.cur).setGroup c v.toNat { g with arrived := g.arrived + 1 }
          if g.arrived + 1 + g.ended = g.members.length then finish g.phase (t.checkPhase c v.toNat)
          else .wait ((t.mapRun t.cur (fun r => { r with bar := some (v.toNat, g.phase) })).setRunState .waiting)

/-! ## TASKEND -/

/-- A PWAIT that waits on channel c as it closes returns its final count (R241), or traps with its status where it is FAULTED (R230). -/
def finishWait (c : Nat) (x : Channel) (v : Slot) : Slot :=
  match v.hart.pwait with
  | some w =>
    if w.chan = c ∧ w.final.isNone ∧ w.broke.isNone then
      let done : PWaiting :=
        if x.state = .faulted then { w with broke := some (x.status c) } else { w with final := some x.arr }
      { v with hart := { v.hart with pwait := some done } }
    else v
  | none => v

/-- Removes channel c and every handle that names it, in a hart or in a save image (R212, R240). -/
def State.closeChan (s : State) (c : Nat) : State :=
  let wake := fun v => match s.chan c with | some x => finishWait c x v | none => v
  { s with chans := SMap.del s.chans c
           running := s.running.map (fun r => { r with kept := r.kept.filter (· != c) })
           slots := State.mapAll (fun _ v =>
             let w := wake v
             { w with hart := { w.hart with handles := w.hart.handles.filter (fun h => h.2 != c) } }) s.slots }

/-- TASKEND detaches the channels that the hart's handles name; an ENDED or FAULTED one is closed (R212). -/
def detachAll (k : Nat) (s : State) : State :=
  let h := (s.slot k).hart
  let t := h.handles.foldl (fun st p =>
    match st.chan p.2 with
    | none => st
    | some x => if x.state = .ended ∨ x.state = .faulted then st.closeChan p.2 else st.setChan p.2 { x with detached := true }) s
  t.setHartOf k { (t.slot k).hart with handles := [] }

/-- The dependents of a record that name a task, in ascending id (R62). -/
def TaskRec.dependents (r : TaskRec) : List (BitVec 32) :=
  (if r.dep1 ≤ r.dep2 then [r.dep1, r.dep2] else [r.dep2, r.dep1]).filter (· != noTask)

/-- Decrements the dependents from number n on, until one must wait for a credit (R61, R69). -/
def decrementFrom (c : BitVec 6) : List (BitVec 32) → Nat → State → State × Nat × Bool
  | [], n, s => (s, n, true)
  | d :: t, n, s =>
    match s.decrement c d with
    | none => (s, n, false)
    | some s1 => decrementFrom c t (n + 1) s1

/-- STATE after TASKEND (R55). Bind fields that were written with ONCE = 1 while the task ran free the slot at its TASKEND, and the model
zeroes their MODE then (log 94). -/
def endState (v : Slot) : Slot :=
  { v with state := if v.mode ≠ 0 ∧ !v.once then .armed else .free
           mode := if v.once then 0 else v.mode
           pre := false, halt := false, step := false, busy := false, yielded := false, ending := false, reload := none
           hart := { v.hart with word := none, mid := false, queue := [], want := none, accs := [] } }

/-- The rest of TASKEND of slot k: the decrements, then the slot. While one waits for a credit the slot stays RUNNING. -/
def finishTask (k : Nat) (s : State) : State :=
  match s.runOf k with
  | none => s
  | some r =>
    let c := s.ctxOf k
    let (t, n, all) := decrementFrom c (r.rc.dependents.drop r.ended) r.ended s
    if all then
      let u := detachAll k { t with running := t.running.filter (fun q => !(q.ctx == c && q.rc.id == r.rc.id)) }
      u.setSlot k (endState (u.slot k))
    else
      let u := t.mapRun k (fun q => { q with ended := n })
      u.setSlot k { u.slot k with ending := true }

/-- One more ended member of a group (R66, R67). -/
def endMember (c : BitVec 6) (id : BitVec 32) (s : State) (g : Nat) : State :=
  match s.group c g with
  | none => s
  | some v => (s.setGroup c g { v with ended := v.ended + 1, gone := addNew id v.gone }).checkPhase c g

/-- The task's mark is final, and its own source loses a reference (R70, R71). -/
def finalMarks (c : BitVec 6) (r : TaskRec) (s : State) : State :=
  let t := s.mapMark c r.id (fun m => { m with ended := true })
  if r.hwsrc = noTask then t else t.mapMark c r.hwsrc (fun m => { m with refs := m.refs - 1 })

/-- TASKEND after its completion number is written (R69). -/
def retireTask (r : RunTask) (n : Word) (s : State) : State :=
  let c := s.ctxid
  let t := finalMarks c r.rc ((s.setCtx c { s.ctx c with cseq := n }).mapRun s.cur fun r => { r with num := n })
  finishTask s.cur (r.rc.groupList.foldl (endMember c r.rc.id) t)

/-- What forbids TASKEND (R69): a claim, a bound stream, a held binding, an unended participation. -/
def taskHolds (s : State) : Bool :=
  let h := s.hart
  h.macfg.mcl != 0 || h.macfg.acl != 0 || !h.binds.isEmpty ||
  s.bindings.any (fun b => b.1 / 64 == s.ctxid.toNat && b.2.valid && b.2.holder.toNat == s.cur) ||
  s.rounds.any (fun r => r.2.ctx == s.ctxid && r.2.parts.any (fun p => p.slot == s.cur && p.task == h.taskid && !p.left))

/-- The store of a completion number by another TASKEND of the context is on its way to a span device: the numbers of a context
are in order and no two are equal, so the next number is not known yet (R69). -/
def completing (s : State) : Bool :=
  s.net.reqs.any (fun r => match r.who with
    | .elem j _ => j != s.cur && s.ctxOf j == s.ctxid && (s.slot j).hart.word.map (·.1) == some (wordOf .taskend)
    | _ => false)

/-- TASKEND (R69). The slices that a restore has not reloaded yet come first: the context's next task on the slot finds them (R65, R79). -/
def execTaskend (s : State) : Out :=
  issue .taskend s fun s =>
    if (s.slot s.cur).ending then .ok (finishTask s.cur s)
    else if s.hart.tlvl ≠ 0 ∨ taskHolds s then .trap 0x01 0 ((wordOf .taskend).zeroExtend 64) 0 s
    else if (s.slot s.cur).reload.isSome then .wait s
    else drained s fun s =>
      let s := s.fenceDevice s.cur
      if completing s then .wait s
      else match s.runOf s.cur with
      | none => .ok (s.setSlot s.cur (endState (s.slot s.cur)))
      | some r =>
        let n := s.myCtx.cseq + 1
        if r.rc.seq = 0 then .ok (retireTask r n s)
        else
          oneAccess { acc := .write, op := .write, sz := 8, align := 8, idem := true } 0 0 r.rc.seq n.toNat s fun _ s =>
          .ok (retireTask r n ((cleanEnd s).fenceDevice s.cur))

/-! ## Dispatch (R63–R65) -/

/-- Is a held task eligible for slot k popping from die d (R63)? -/
def eligible (s : State) (k d : Nat) (h : Held) : Bool :=
  h.ready && h.die == d && h.ctx == (s.slot k).ctx &&
  (h.rc.aff != 2 || h.rc.target.toNat == State.tileOf k) && (h.rc.aff != 3 || h.rc.target.toNat == State.dieOf k) &&
  (d == State.dieOf k || (!h.rc.det && (h.rc.aff == 0 || h.rc.aff == 1)))

/-- The oldest entry of die d's queue of priority q that is eligible for slot k. -/
def oldest (s : State) (k d q : Nat) : Option Held :=
  s.held.find? (fun h => h.rc.prio.toNat == q && eligible s k d h)

/-- The first queue, from PRIO down, that holds an eligible entry (MODE 10). -/
def highest (s : State) (k d : Nat) : Nat → Option Nat
  | 0 => if (oldest s k d 0).isSome then some 0 else none
  | q + 1 => if (oldest s k d (q + 1)).isSome then some (q + 1) else highest s k d q

/-- The queue that a slot's pop uses first (R63): none unless it is ARMED on a READY tile. -/
def selected (s : State) (k : Nat) : Option (Nat × Nat) :=
  let v := s.slot k
  if v.state != .armed || !s.fnReady (State.tileOf k) then none
  else if v.mode = 1 then some (v.die.toNat, v.prio.toNat)
  else if v.mode = 2 then (highest s k v.die.toNat v.prio.toNat).map (fun q => (v.die.toNat, q))
  else none

/-- The state that a first dispatch of a context on a slot zeroes (R65, R80). -/
def freshHart (h : Hart) : Hart :=
  { h with s := [], z := [], hidden := [], m := [], v := [], tvec := 0, tsave := 0, dirty := 0, vlg := [] }

/-- A task starts on slot k (R65). -/
def startTask (k d : Nat) (h : Held) (s : State) : State :=
  let v := s.slot k
  let r := h.rc
  let h0 := if v.lastctx = some h.ctx then v.hart else freshHart v.hart
  let h1 : Hart :=
    { h0 with
      pc := r.entry, eidx := 0, tlvl := 0, taskarg := r.arg, taskid := r.id, hwsrc := r.hwsrc.zeroExtend 64
      vl := 0, vstride := 0, vmsel := 0, mspace := 0, view := 0, fctl := 0, fflags := 0, vsatm := 7, detf := false
      vcount := 0, strmf := 0, macfg := { h0.macfg with isat := false }, bank1 := {}, bank2 := {}, instret := 0
      sFE := BitVec.allOnes 64, zFE := BitVec.allOnes 64, mFE := BitVec.allOnes 8, handles := [], binds := [], replay := []
      inflight := [], passed := 0, convoy := false, pwait := none, abnd := false, macroFault := [], replaying := 0, pendCr := none
      pcMark := 0, qtail := none, word := none, mid := false, queue := [], want := none, accs := [] }
  let h2 := (h1.ws 1 r.arg).ws 2 (r.id.zeroExtend 64)
  let v1 : Slot :=
    { v with state := .running, task := r.id, ndisp := v.ndisp + 1
             nsteal := if d = State.dieOf k then v.nsteal else v.nsteal + 1
             mode := if v.once then 0 else v.mode, lastctx := some h.ctx, taskCtx := h.ctx, simg := none
             pre := false, halt := false, step := false, busy := false, yielded := false, ending := false, reload := none
             hart := h2 }
  let t : State :=
    { s with held := s.held.filter (fun x => !(x.ctx == h.ctx && x.rc.id == r.id))
             running := s.running ++ [⟨h.ctx, k, r, none, 0, 0, .running, [], 0⟩] }
  (t.refreshData k).setSlot k v1

/-- Serves pops of one queue in order; the slots that found nothing. -/
def serveQueue (d q : Nat) : List Nat → State → State × List Nat
  | [], s => (s, [])
  | k :: t, s =>
    match oldest s k d q with
    | some h => serveQueue d q t (startTask k d h s)
    | none =>
      let (s1, rest) := serveQueue d q t s
      (s1, k :: rest)

/-- The order of R64: slots of the queue's own die first, then the others, each in ascending slot number. -/
def popOrder (d : Nat) (l : List Nat) : List Nat :=
  let sorted := (l.foldl (fun m k => SMap.put m k ()) []).map (·.1)
  sorted.filter (fun k => State.dieOf k == d) ++ sorted.filter (fun k => State.dieOf k != d)

/-- The queues of die d from priority q down (R64): those that selected a queue first, then those passed down to it. -/
def serveDie (s0 : State) (slots : List Nat) (d : Nat) : Nat → List Nat → State → State
  | q, passed, s =>
    let first := popOrder d (slots.filter (fun k => selected s0 k == some (d, q)))
    let (s1, left) := serveQueue d q (first ++ popOrder d passed) s
    match q with
    | 0 => s1
    | q' + 1 => serveDie s0 slots d q' (left.filter (fun k => (s0.slot k).mode == 2)) s1

/-- POP (R63–R65): one cycle of the scheduler clock at the queues of die d, in which every ARMED slot that uses them tries a pop. The
dies' queues share nothing, so that the four are served one by one. -/
def execPop (d : Nat) (s : State) : Out :=
  let l := (s.slots.map (·.1)).filter (fun k => decide (k < Config.slots) && (s.slot k).state == .armed)
  .next (if d < 4 then serveDie s l d 7 [] s else s)

/-! ## The slot table and credits -/

/-- Does slot k count against context c (R54)? -/
def boundTo' (s : State) (c : BitVec 6) (k : Nat) : Bool :=
  let v := s.slot k
  (v.mode != 0 && v.ctx == c) || (s.occupied k && v.taskCtx == c)

/-- ECODE of a write of the bind fields, 0 when it is accepted (R53, R54). A write of MODE 00 also names a context, which must be
resident; it binds the slot to none, so no quota stops it. -/
def bindError (s : State) (k : Nat) (mode : BitVec 2) (c : BitVec 6) : BitVec 4 :=
  if mode = 3 then 2
  else if !(s.ctx c).res then 3
  else if mode = 0 then 0
  else
    let n := (s.slots.filter (fun p => boundTo' s c p.1)).length
    if !boundTo' s c k && decide (n ≥ (s.ctx c).qslot.toNat) then 1 else 0

/-- A write of the bind fields (R54, R55, R408): a slot of a tile that is not READY stays FREE. -/
def bindWrite (slot : Nat) (v : BitVec 16) (s : State) : State :=
  let mode := v.extractLsb' 0 2
  let c := v.extractLsb' 2 6
  let e := bindError s slot mode c
  let w := s.slot slot
  if slot ≥ Config.slots then s
  else if e ≠ 0 then s.setSlot slot { w with err := true, ecode := e }
  else
    let st := if w.state = .free ∧ mode ≠ 0 ∧ s.fnReady (State.tileOf slot) then SlotState.armed
              else if w.state = .armed ∧ mode = 0 then .free else w.state
    s.setSlot slot { w with mode := mode, ctx := c, prio := v.extractLsb' 8 3, die := v.extractLsb' 11 2
                            once := v.getLsbD 13, err := false, ecode := 0, state := st }

/-- SLOT_BIND_WRITE (R54). -/
def execSlotBindWrite (slot : Nat) (v : BitVec 16) (s : State) : Out := .next (bindWrite slot v s)

/-- A 1 written to ERR (R53). The spec says nothing of ECODE once ERR is 0: the model keeps it here, and an accepted bind write zeroes it
(log 96). -/
def clearErr (slot : Nat) (s : State) : State :=
  if (s.slot slot).err then s.setSlot slot { s.slot slot with err := false } else s

/-- ERR_CLEAR (R53). -/
def execErrClear (slot : Nat) (s : State) : Out := .next (clearErr slot s)

/-- The decrements of context c that rounds wait to make, oldest first, until one must wait for a credit again (R61, R290). -/
def payOwed (c : BitVec 6) : List (BitVec 6 × BitVec 32) → State → State
  | [], s => s
  | o :: l, s =>
    if o.1 = c then
      match s.decrement c o.2 with
      | none => s
      | some t => payOwed c l { t with owed := t.owed.erase o }
    else payOwed c l s

/-- CREDIT_FREED (R61): the context's waiting decrementers try again: its ending tasks, its rounds, and its stalled
channels, whose SIGNAL is then performed by its own event. -/
def execCreditFreed (ctx : Nat) (s : State) : Out :=
  let c := BitVec.ofNat 6 ctx
  let ending := (s.slots.filter (fun p => p.2.ending && p.2.taskCtx == c)).map (·.1)
  let t := ending.foldl (fun st k => finishTask k st) s
  let u := payOwed c t.owed t
  .next { u with chans := State.mapAll (fun _ x => if x.ctx = c then { x with stall := false } else x) u.chans }

end Sys2Proof.Machine
end

