-- ==== Sys2Proof/Machine/Tables.lean ====
section
/-! DEFINITION. What firmware writes in the management core's address space (R436 and the tables it names): windows (R193,
R194), table words (R204), the invalidation word and walks (R308–R310), context blocks (R337), and every word without a row of
its own. -/

namespace Sys2Proof.Machine
open Sys2Proof

/-! ## Windows and table words -/

/-- The entry that a write of v leaves, BUSY apart (R193). -/
def windowOf (v : BitVec 32) (busy : Bool) : Window :=
  { ctx := v.extractLsb' 0 6, rd := v.getLsbD 6, wr := v.getLsbD 7, valid := v.getLsbD 8, busy := busy, waits := none }

/-- Does the write grant the window (R194)? -/
def grantsWindow (old new : Window) : Bool := new.valid && (!old.valid || old.ctx != new.ctx)

/-- Does the write revoke a right of the window (R194)? -/
def revokesWindow (old new : Window) : Bool :=
  (old.valid && !new.valid) || (old.rd && !new.rd) || (old.wr && !new.wr)

/-- Is the buffered write in window w? Such a write has passed its check and completes (R194). -/
def inWindow (w : Nat) (b : BufWrite) : Bool := match b.loc with | .cis a => a / 0x10000 == w | _ => false

/-- A write of v to entry w of the window table; a grant zeroes the window and sets BUSY. A grant of a window whose scrub still runs waits
for its end (R194); a later write to the entry takes its place (log 41). -/
def windowWrite (w : Nat) (v : BitVec 32) (s : State) : State :=
  let old := SMap.get {} s.windows w
  let new := windowOf v old.busy
  if grantsWindow old new then
    if old.busy then { s with windows := SMap.set {} s.windows w { old with waits := some v } } else
    let t := s.drainIf (inWindow w)
    { t with cis := zeroBytes t.cis (w * 0x10000) 0x10000, copies := t.copies.filter (fun c => !State.meets c.loc 64 (.cis (w * 0x10000)) 0x10000)
             windows := SMap.set {} t.windows w { new with busy := true } }
  else { s with windows := SMap.set {} s.windows w new }

/-- WINDOW_GRANT (R194). -/
def execWindowGrant (window : Nat) (v : BitVec 32) (s : State) : Out :=
  let old := SMap.get {} s.windows window
  let new := windowOf v old.busy
  .next (if window < 6144 ∧ grantsWindow old new then windowWrite window v s else s)

/-- WINDOW_REVOKE (R194). -/
def execWindowRevoke (window : Nat) (v : BitVec 32) (s : State) : Out :=
  let old := SMap.get {} s.windows window
  let new := windowOf v old.busy
  .next (if window < 6144 ∧ revokesWindow old new ∧ !grantsWindow old new then windowWrite window v s else s)

/-- WINDOW_SCRUB_END (R194): BUSY clears, and a grant that has waited for it is made. -/
def execWindowScrubEnd (window : Nat) (s : State) : Out :=
  let w := SMap.get {} s.windows window
  let t : State := { s with windows := SMap.set {} s.windows window { w with busy := false, waits := none } }
  .next (if w.busy then (match w.waits with | some v => windowWrite window v t | none => t) else s)

/-- Does a write of v to the tile's table word grant it, or change OWNER (R204)? -/
def grantsTable (t : Tile) (v : BitVec 32) : Bool := (v.getLsbD 8 && !t.tvalid) || v.extractLsb' 0 6 != t.owner

/-- A write of a tile's table word (R204). -/
def tableWrite (n : Nat) (v : BitVec 32) (s : State) : State :=
  let t := s.tile n
  let u := { t with owner := v.extractLsb' 0 6, tvalid := v.getLsbD 8 }
  s.setTile n (if grantsTable t v then { u with tables := [], tcur := false, tbusy := true } else u)

/-- TABLE_GRANT (R204). -/
def execTableGrant (tile : Nat) (v : BitVec 32) (s : State) : Out :=
  .next (if tile < Config.tiles ∧ grantsTable (s.tile tile) v then tableWrite tile v s else s)

/-- TABLE_ZEROING_END (R204). -/
def execTableZeroingEnd (tile : Nat) (s : State) : Out :=
  .next (if (s.tile tile).tbusy then s.setTile tile { s.tile tile with tbusy := false } else s)

/-! ## Translations -/

/-- A write of the invalidation word's first unit; GO is ignored while an invalidation is in progress (R310). -/
def invalWrite (v : Word) (s : State) : State :=
  let go := v.getLsbD 7
  if go ∧ s.inval.going.isSome then s
  else
    let c : BitVec 6 := v.extractLsb' 0 6
    let w := { s.inval with ctx := c, scope := v.getLsbD 6 }
    { s with inval := if go then { w with going := some (c, v.getLsbD 6, s.inval.vpn) } else w }

/-- GO (R310). -/
def execGo (v : Word) (s : State) : Out := .next (if v.getLsbD 7 then invalWrite v s else s)

/-- Does an invalidation of (context, scope, VPN) select the TLB entry? -/
def invalidated (c : BitVec 6) (scope : Bool) (vpn : BitVec 36) (t : TlbEntry) : Bool :=
  t.ctx == c && (!scope || t.vbase == vpn.toNat * 2 ^ 15 - vpn.toNat * 2 ^ 15 % State.leafSize t.level)

/-- INVALIDATION_END (R310). -/
def execInvalidationEnd (s : State) : Out :=
  match s.inval.going with
  | none => .next s
  | some (c, sc, vpn) =>
    .next { s with
      tlb := s.tlb.filter (fun t => !invalidated c sc vpn t)
      walked := s.walked.filter (fun w => w.ctx != c)
      inval := { s.inval with going := none } }

/-- TLB entries of a unit (R308). -/
def tlbSize (unit : Nat) : Nat := if unit < Config.tiles then 512 else 64

/-- A unit's TLB gets an entry, in place of the unit's oldest when it is full (R308). -/
def fillTlb (c : BitVec 6) (va : Nat) (l : State.Leaf) (s : State) (unit : Nat) : State :=
  if (s.tlbHit unit c va).isSome then s
  else
    let e : TlbEntry := { unit, ctx := c, level := l.level, vbase := va - va % State.leafSize l.level, entry := l.entry }
    let mine := (s.tlb.filter (fun t => t.unit == unit)).length
    let rest := if mine ≥ tlbSize unit then s.tlb.eraseP (fun t => t.unit == unit) else s.tlb
    { s with tlb := rest ++ [e] }

/-- WALK (R303, R308, R309): a walk in flight ends. With a leaf it fills an entry in every TLB that missed; one that ends absent, or meets a
failed stack, fills none, and the accesses it served find that out. The oldest that waits takes its slot. -/
def execWalk (unit ctx : Nat) (va : Word) (s : State) : Out :=
  let c := BitVec.ofNat 6 ctx
  let d := State.walkerOf unit
  let page := va.toNat / 2 ^ 15
  match s.walks.find? (fun w => w.die == d && w.ctx == c && w.page == page && w.started) with
  | none => .next s
  | some w =>
    let t : State := { s with walks := State.startWalks d 1 (s.walks.erase w) }
    match s.walkVa c (page * 2 ^ 15) with
    | .leaf l => .next (w.units.foldl (fillTlb c (page * 2 ^ 15) l) t)
    | .wait => .next s
    | _ => .next { t with walked := t.walked ++ w.units.map (fun u => ⟨u, c, page⟩) }

/-! ## Contexts -/

/-- A context becomes resident (R69, R337, R371): counters at zero, a new incarnation. -/
def makeResident (c : BitVec 6) (s : State) : State :=
  let x := s.ctx c
  s.setCtx c { x with res := true, surplus := 0, cseq := 0, incarnation := x.incarnation + 1, launch := none }

/-- A completion record of kind 1, 2 or 4 (R384). -/
def completion (kind c status : Nat) (hseq refused : BitVec 32) (cseq : Word) : BitVec 512 :=
  record64 [(0, 4, kind), (8, 1, c), (9, 1, status), (12, 4, hseq.toNat), (16, 4, refused.toNat), (56, 8, cseq.toNat)]

/-- Are all slots bound to the context FREE? -/
def slotsFree (s : State) (c : BitVec 6) : Bool := s.slots.all (fun p => !boundTo' s c p.1 || p.2.state == .free)

/-- A context ends normally (R337): the releases of R339, and a completion record of kind 4. -/
def endNormally (c : BitVec 6) (hseq : BitVec 32) (s : State) : State :=
  let r := completion 4 c.toNat 0 hseq noTask (s.ctx c).cseq
  let t := (s.releaseCtx c).post r
  t.setCtx c { t.ctx c with res := false, dying := false }

/-- A write that clears RES (R337): ignored while a slot of the context is not FREE. -/
def clearRes (c : BitVec 6) (s : State) : State := if (s.ctx c).res ∧ slotsFree s c then endNormally c 0 s else s

/-- CONTEXT_END (R337). -/
def execContextEnd (ctx : Nat) (s : State) : Out :=
  .next (if ctx < Config.contexts then clearRes (BitVec.ofNat 6 ctx) s else s)

/-- A write of a context control word (R337): KILL of a resident context, whose RES and SYS the kill decides; else RES, SYS. -/
def controlWrite (c : BitVec 6) (v : Word) (s : State) : State :=
  let x := s.ctx c
  if v.getLsbD 2 ∧ x.res then killWrite c s
  else if x.res then (if v.getLsbD 0 then s else clearRes c s)
  else
    let t := s.setCtx c { x with sys := v.getLsbD 1 }
    if v.getLsbD 0 then makeResident c t else t

/-- The scheduler quota word (R76). -/
def quotaWord (v : Word) (x : Ctx) : Ctx :=
  { x with qtask := v.extractLsb' 0 17, qslot := v.extractLsb' 17 11, qmark := v.extractLsb' 28 13, qcred := v.extractLsb' 41 7 }

/-- A write of unit j of a context block (R337). -/
def blockWrite (c : BitVec 6) (j : Nat) (v : Word) (s : State) : State :=
  let x := s.ctx c
  if j = 0 then controlWrite c v s
  else if j = 1 then s.setCtx c { x with ptValid := v.getLsbD 0, ptRoot := v.extractLsb' 15 37 }
  else if j = 2 then s.setCtx c { x with detm := v.getLsbD 0 }
  else if j = 3 then s.setCtx c { x with slice := v.truncate 32 }
  else if j = 4 then s.setCtx c (quotaWord v x)
  else s

/-! ## Every other word -/

/-- A write of unit j of a switch word (R350, R436): the actions use the IMG last written. The spec gives no order among the action bits of
one write: the model writes HALTBK first and then acts in ascending bit order (log 104). -/
def switchWrite (k j : Nat) (v : Word) (s : State) : State :=
  if j = 1 then s.setSlot k { s.slot k with img := v &&& ~~~ 0xFFFF }
  else
    let on := fun (i : Nat) (f : State → State) (t : State) => if v.getLsbD i then f t else t
    let t := s.setSlot k { s.slot k with haltbk := v.getLsbD 4 }
    on 6 (dropWrite k) (on 5 (restoreWrite k) (on 3 (resumeWrite k true) (on 2 (resumeWrite k false)
      (on 1 (haltWrite k) (on 0 (preWrite k) t)))))

/-- Firmware writes FAILED into a function's status word (R407); the rounds whose lanes use a link that fails so fault (R408, R416). -/
def failWrite (n : Nat) (s : State) : State :=
  if n < 324 then
    let t : State := { s with funcs := SMap.set {} s.funcs n { s.func n with state := 3, fcode := 3 } }
    if 241 ≤ n ∧ n < 272 then faultLanes t.myMember ((t.myMember + 1 + (n - 241)) % 32) t else t
  else s

/-- The bits of the 8 bytes at offset `off` of a fabric block that hold fields (R368, R370, R379, R389). -/
def fabricMask (off : Nat) : Word :=
  if off < 0x20 then 0x1FFFFFFFFF
  else if off < 0x80 then 0
  else if off < 0x100 then 0x0001FFFF0001FFFF
  else if off < 0x180 then 0x000FFFFFFFFFBF07
  else if off < 0x200 then 0
  else if off % 32 < 16 then BitVec.allOnes 64
  else if off % 32 < 24 then 0x03FFFFFFFFFFFFFF
  else 0

/-- The 1,024 bytes of a fabric image as a block holds them: reserved bits read 0. -/
def fabricImage (v : Nat) : Nat :=
  foldRange (fun j acc => acc + (BitVec.ofNat 64 (bits v (64 * j) 64) &&& fabricMask (8 * j)).toNat * 2 ^ (64 * j)) 0 128 0

/-- A write of 8 bytes (4 for the tables of 4-byte words) at an address of the management core's space. Read-only words and
addresses that name nothing are left as they are (R436). -/
def mgmtWrite (addr : Nat) (v : Word) (s : State) : State :=
  let at_ := fun (base n : Nat) => decide (base ≤ addr) && decide (addr < base + n)
  let q := fun (base : Nat) => BitVec.ofNat 6 ((addr - base) / 8)
  if at_ 0 0x6000 then
    if addr % 16 = 0 then
      let k := addr / 16
      bindWrite k (v.truncate 16) (if v.getLsbD 19 then clearErr k s else s)
    else s
  else if at_ 0x8000 0x6000 then
    let w := (addr - 0x8000) / 4
    windowWrite w (v.truncate 32) s
  else if at_ 0x18000 0x300 then tableWrite ((addr - 0x18000) / 4) (v.truncate 32) s
  else if at_ 0x19000 0x200 then s.setCtx (q 0x19000) { s.ctx (q 0x19000) with qchan := v.truncate 10 }
  else if at_ 0x19200 0x200 then s.setCtx (q 0x19200) { s.ctx (q 0x19200) with qmac := v.truncate 8 }
  else if at_ 0x19400 0x200 then s.setCtx (q 0x19400) { s.ctx (q 0x19400) with qround := v.truncate 5 }
  else if addr = 0x19600 then invalWrite v s
  else if addr = 0x19608 then { s with inval := { s.inval with vpn := v.truncate 36 } }
  else if at_ 0x1B000 0x1000 then blockWrite (BitVec.ofNat 6 ((addr - 0x1B000) / 64)) ((addr - 0x1B000) / 8 % 8) v s
  else if at_ 0x1C000 0x6000 then switchWrite ((addr - 0x1C000) / 16) ((addr - 0x1C000) / 8 % 2) v s
  else if addr = 0x22000 then { s with debugSlot := v.truncate 11, debugOff := v.extractLsb' 16 19 }
  else if addr = 0x22008 then debugWrite v s
  else if at_ 0x40000 0x10000 then
    let o := (addr - 0x40000) / 8 * 8
    { s with net := { s.net with fab := putBytes s.net.fab o 8 (v &&& fabricMask (o % 1024)).toNat } }
  else if addr = 0x50000 then
    let ng : BitVec 11 := v.extractLsb' 16 11
    { s with net := { s.net with ident := { group := v.truncate 11, member := v.extractLsb' 11 5, ng := ng } } }
  else if addr = 0x50010 then
    { s with net := { s.net with tickets := { s.net.tickets with slots := v.truncate 4, tklog := v.extractLsb' 4 5 } } }
  else if at_ 0x60000 0x3000 then traceControl ((addr - 0x60000) / 32) ((addr - 0x60000) / 8 % 4) v s
  else if at_ 0x70000 0xA20 then (if v.extractLsb' 0 2 = 3 then failWrite ((addr - 0x70000) / 8) s else s)
  else if at_ 0x71000 0x20 then
    let d := (addr - 0x71000) / 8
    { s with power := SMap.set {} s.power d { SMap.get {} s.power d with plim := v.truncate 12 } }
  else s

/-- REGISTER_WRITE (R436). -/
def execRegisterWrite (addr : Nat) (v : Word) (s : State) : Out := .next (mgmtWrite addr v s)

end Sys2Proof.Machine
end

