-- ==== Sys2Proof/Machine/Host.lean ====
section
/-! DEFINITION. The host's side: the doorbell and the launch ring (R381, R385, R388), launches (R382, R383), ends (R381),
completion records (R384, R386), the HBM window (R380), attestation (R414). -/

namespace Sys2Proof.Machine
open Sys2Proof

/-! ## The doorbell -/

/-- Do the host ports answer: verified firmware runs, and a port is READY (R407, R412)? -/
def hostUp (s : State) : Bool := s.io.boot == 0 && anyIn (fun n => s.fnReady n) 320 4

/-- A completion record of kind 1, 2 or 4 for the context byte c (R384). -/
def complete (kind c status : Nat) (hseq refused : BitVec 32) (s : State) : State :=
  s.post (completion kind c status hseq refused (if c < Config.contexts then (s.ctx (BitVec.ofNat 6 c)).cseq else 0))

/-- Record LASTH + 1 is read and handled as R388 lays down, while none is in hand. -/
def readRecord (s : State) : State :=
  let io := s.io
  let n := io.lasth + 1
  if io.hold ∨ io.inHand.isSome ∨ io.submitting.isSome ∨ !ahead io.htail io.lasth then s
  else
    let r := bytesAt io.ring (64 * ((n - 1).toNat % 256)) 64
    let hseq : BitVec 32 := BitVec.ofNat 32 (bits r 32 32)
    if !ahead hseq io.lasth then { s with io := { io with hold := true } }
    else if hseq ≠ n then complete 2 (bits r 64 8) 6 hseq noTask { s with io := { io with hold := true } }
    else { s with io := { io with lasth := hseq, inHand := some (BitVec.ofNat 512 r) } }

/-- HTAIL (R385, R388). -/
def execHtail (v : BitVec 32) (s : State) : Out :=
  .next (if hostUp s ∧ ahead v s.io.htail then readRecord { s with io := { s.io with htail := v, hold := false } } else s)

/-- HACK (R385): a value above DSEQ is taken as DSEQ. -/
def execHack (v : BitVec 32) (s : State) : Out :=
  .next (if hostUp s ∧ ahead v s.io.hack then
      { s with io := { s.io with hack := if ahead v s.io.dseq then s.io.dseq else v } }
    else s)

/-! ## Launch blocks (R383) -/

/-- A launch block in HBM. -/
structure LaunchBlock where
  mem : SMap Byte
  base : Nat

namespace LaunchBlock

/-- n bytes at offset `off`. -/
def f (b : LaunchBlock) (off n : Nat) : Nat := bytesAt b.mem (b.base + off) n
/-- NW. -/
def nw (b : LaunchBlock) : Nat := b.f 72 2
/-- NT. -/
def nt (b : LaunchBlock) : Nat := b.f 74 2
/-- NG. -/
def ng (b : LaunchBlock) : Nat := b.f 76 4
/-- GLEN. -/
def glen (b : LaunchBlock) : Nat := b.f 80 4
/-- NTASK. -/
def ntask (b : LaunchBlock) : Nat := b.f 84 4
/-- The submitting die. -/
def die (b : LaunchBlock) : Nat := b.f 88 1
/-- G. -/
def g (b : LaunchBlock) : Nat := ceilDiv (1152 + 4 * b.nw + 2 * b.nt) 8 * 8
/-- T. -/
def t (b : LaunchBlock) : Nat := ceilDiv (b.g + b.glen) 8 * 8
/-- Window request j. -/
def windowReq (b : LaunchBlock) (j : Nat) : Nat := b.f (1152 + 4 * j) 4
/-- The window that request j names, as its index in the window table. -/
def windowIndex (b : LaunchBlock) (j : Nat) : Nat := bits (b.windowReq j) 0 8 * 32 + bits (b.windowReq j) 8 5
/-- Table-store request j. -/
def tableReq (b : LaunchBlock) (j : Nat) : Nat := b.f (1152 + 4 * b.nw + 2 * j) 2

/-- The group list as (group, members), NG entries from offset `off` on; none unless they end at `lim` exactly. -/
def groupsFrom (b : LaunchBlock) (lim : Nat) : Nat → Nat → Option (List (Nat × List (BitVec 32)))
  | 0, off => if off = lim then some [] else none
  | n + 1, off =>
    if off + 4 > lim then none
    else
      let h := b.f off 4
      let m := bits h 8 24
      if off + 4 + 4 * m > lim then none
      else
        (b.groupsFrom lim n (off + 4 + 4 * m)).map
          ((bits h 0 8, (List.range m).map (fun i => BitVec.ofNat 32 (b.f (off + 4 + 4 * i) 4))) :: ·)

/-- The group list. -/
def groups (b : LaunchBlock) : Option (List (Nat × List (BitVec 32))) := b.groupsFrom (b.g + b.glen) b.ng b.g

end LaunchBlock

/-- Has the fabric image of the block a bit set that R368 or R379 calls zero (log 102)? -/
def fabricReserved (b : LaunchBlock) : Bool :=
  bits (b.f 128 8) 37 27 != 0 || anyIn (fun n => bits (b.f (256 + 4 * n) 4) 17 15 != 0) 0 32 ||
  anyIn (fun k => bits (b.f (128 + 0x200 + 32 * k + 16) 8) 58 6 != 0 || b.f (128 + 0x200 + 32 * k + 24) 8 != 0) 0 16

/-- Status 2 of R382: is the block malformed? -/
def malformed (b : LaunchBlock) (len : Nat) : Bool :=
  b.f 0 4 != 1 || decide (6144 < b.nw) || decide (192 < b.nt) || decide (255 < b.ng) || decide (65536 < b.ntask) ||
  decide (3 < b.die) || b.f 89 39 != 0 || b.f 4 4 != b.t + 8 * b.ntask || b.f 4 4 != len ||
  anyIn (fun j => decide (191 < bits (b.windowReq j) 0 8) || bits (b.windowReq j) 15 17 != 0) 0 b.nw ||
  anyIn (fun j => decide (191 < b.tableReq j)) 0 b.nt || b.groups.isNone || fabricReserved b

/-- Status 3: a requested window or table store is not free. -/
def notFree (s : State) (b : LaunchBlock) : Bool :=
  anyIn (fun j => (SMap.get {} s.windows (b.windowIndex j)).valid) 0 b.nw || anyIn (fun j => (s.tile (b.tableReq j)).tvalid) 0 b.nt

/-- Status 4: the group list cannot be held. -/
def groupsBad (l : List (Nat × List (BitVec 32))) : Bool :=
  l.any (fun g => decide (254 < g.1) || decide (16777215 < g.2.length)) || !(l.map (·.1)).Nodup ||
  l.any (fun g => g.2.any (fun id => decide (4 < (l.filter (fun h => h.2.contains id)).length)))

/-- Status 5: the device table breaks R368. -/
def tableBad (s : State) (b : LaunchBlock) : Bool :=
  let self := bits (b.f 128 8) 32 5
  let me := s.net.ident.group.toNat + 2048 * s.net.ident.member.toNat
  let names := fun (n : Nat) => bits (b.f (256 + 4 * n) 4) 16 1 == 1 && bits (b.f (256 + 4 * n) 4) 0 16 == me
  !names self || anyIn (fun n => n != self && names n) 0 32

/-- The status of a launch whose record is well formed (R382); 0 when it is accepted. -/
def launchStatus (s : State) (b : LaunchBlock) (len : Nat) : Nat :=
  if malformed b len then 2
  else if notFree s b then 3
  else if groupsBad (b.groups.getD []) then 4
  else if tableBad s b then 5
  else 0

/-- The accepted launch: the context is resident with what the block gives it (R382). -/
def acceptLaunch (c : BitVec 6) (hseq : BitVec 32) (b : LaunchBlock) (s : State) : State :=
  let w := fun (off : Nat) => BitVec.ofNat 64 (b.f off 8)
  let t := s.setCtx c { s.ctx c with sys := (w 8).getLsbD 1 }
  let t := [(1, 16), (2, 24), (3, 32), (4, 40)].foldl (fun st p => blockWrite c p.1 (w p.2) st) (makeResident c t)
  let t := t.setCtx c { t.ctx c with qchan := (w 48).truncate 10, qmac := (w 56).truncate 8, qround := (w 64).truncate 5
                                     subDie := b.die, launch := some hseq }
  let t : State := { t with
    net := { t.net with fab := putBytes t.net.fab (c.toNat * 0x400) 1024 (fabricImage (b.f 128 1024)) }
    io := { t.io with endings := t.io.endings.filter (fun e => e.1 != c)
                      submitting := some ⟨c, (t.ctx c).incarnation, hseq, b.die, b.base + b.t, b.ntask, none⟩ } }
  let t := foldRange (fun j st =>
    let r := b.windowReq j
    let i := b.windowIndex j
    windowWrite i (BitVec.ofNat 32 (c.toNat + (r.testBit 13).toNat * 2 ^ 6 + (r.testBit 14).toNat * 2 ^ 7 + 2 ^ 8)) st) 0 b.nw t
  let t := foldRange (fun j st => tableWrite (b.tableReq j) (BitVec.ofNat 32 (c.toNat + 256)) st) 0 b.nt t
  (b.groups.getD []).foldl (fun st g => st.setGroup c g.1 { members := g.2, arrived := 0, ended := 0, phase := 0 }) t

/-! ## Submitting the tasks -/

/-- The number by which the submission of a launch waits for a reply. -/
def submitWaiter : Waiter := .round 65536

/-- One task record of an accepted launch: submitted, refused (with its id where the record could be read), or not yet. -/
inductive Submitted where
  | done (s : State)
  | refused (id : Option (BitVec 32)) (s : State)
  | wait (s : State)
  | dead (fn : Nat)

/-- Submits the record of 64 bytes read (R59, R382). -/
def submitRead (c : BitVec 6) (die v : Nat) (s : State) : Submitted :=
  let r := s.submit c die v
  if r.1 = 0 then .done r.2 else .refused (some (parseRec v).id) s

/-- Submits the task record at a device-virtual address, as TASKQ would (R59, R382). -/
def submitAt (c : BitVec 6) (die : Nat) (a : Word) (s : State) : Submitted :=
  match s.requestOf submitWaiter with
  | some r =>
    let t : State := { s with net := { s.net with reqs := s.net.reqs.filter (fun q => q.who != submitWaiter) } }
    match r.answer with
    | .none => .wait s
    | .refused => .refused none t
    | .data v => submitRead c die v t
  | none =>
  match s.checkVirtual 1000 c a.toNat .read 64 64 true with
  | .bad _ _ => .refused none s
  | .wait => .wait s
  | .dead f => .dead f
  | .go (.peer q pa) dev => .wait (s.sendRequest submitWaiter c q .read pa 64 0 0 dev a)
  | .go loc _ => submitRead c die (s.homeRead loc 64) s

/-- The submissions of an accepted launch are over: its completion record of kind 1, and the next record is read (R382, R384, R388). -/
def endSubmit (u : Submitting) (s : State) : State :=
  readRecord (complete 1 u.ctx.toNat 0 u.hseq (u.refused.getD noTask) { s with io := { s.io with submitting := none, inHand := none } })

/-- The submissions of an accepted launch, each once the stack that holds its address in the block is READY (R408). A context that dies
meanwhile ends them, and the launch was accepted all the same. -/
def submitRest : Nat → Submitting → State → State
  | 0, u, s => endSubmit u s
  | n + 1, u, s =>
    let next := { u with next := u.next + 8, left := n }
    match s.useFns [State.stackFn u.next] (.bad 0 0) with
    | .wait => { s with io := { s.io with submitting := some u } }
    | .dead f => endSubmit u (s.killFor u.ctx f)
    | _ =>
      match submitAt u.ctx u.die (BitVec.ofNat 64 (bytesAt s.hbm u.next 8)) s with
      | .done t => submitRest n next t
      | .refused id t => submitRest n { next with refused := u.refused.orElse (fun _ => id) } t
      | .wait t => { t with io := { t.io with submitting := some u } }
      | .dead f => endSubmit u (s.killFor u.ctx f)

/-! ## Records in hand -/

/-- The record in hand is done with: the next one is read. -/
def release (s : State) : State := readRecord { s with io := { s.io with inHand := none } }

/-- Refuses the record in hand. -/
def refuse (r : BitVec 512) (status : Nat) (s : State) : State :=
  release (complete 2 (bits r.toNat 64 8) status (r.extractLsb' 32 32) noTask s)

/-- Stacks that hold bytes a … a + n − 1. -/
def stacksOf (a n : Nat) : List Nat := (List.range (min 12 (ceilDiv (a % 256 + n) 256))).map (fun i => State.stackFn (a + 256 * i))

/-- A launch record in hand, context not resident (R382). The grant of a window that is still being scrubbed makes it wait (R194). -/
def launchRecord (r : BitVec 512) (s : State) : State :=
  let v := r.toNat
  let a := bits v 128 64
  let n := bits v 192 64
  if bits v 64 8 > 63 ∨ bits v 72 56 ≠ 0 ∨ bits v 256 256 ≠ 0 ∨ a % 64 ≠ 0 ∨ n < 1152 ∨ a + n > Config.hbmBytes then refuse r 2 s
  else match s.useFns (stacksOf a n) (.bad 0 0) with
    | .wait => s
    | .dead fn => refuse r 2 (s.useFailed fn)
    | _ =>
      let b : LaunchBlock := ⟨s.hbm, a⟩
      let c := BitVec.ofNat 6 (bits v 64 8)
      let st := launchStatus s b n
      if st ≠ 0 then refuse r st s
      else if anyIn (fun j => (SMap.get {} s.windows (b.windowIndex j)).busy) 0 b.nw then s
      else
        let t := acceptLaunch c (r.extractLsb' 32 32) b s
        match t.io.submitting with
        | none => t
        | some u => submitRest u.left u t

/-- LAUNCH (R382): the launch record in hand, or one of no known kind; or the submissions that waited. -/
def execLaunch (s : State) : Out :=
  match s.io.submitting with
  | some u =>
    .next (if (s.ctx u.ctx).res ∧ (s.ctx u.ctx).incarnation = u.incarnation then submitRest u.left u s else endSubmit u s)
  | none =>
    match s.io.inHand with
    | none => .next s
    | some r =>
      let kind := bits r.toNat 0 32
      let c := bits r.toNat 64 8
      .next (if kind = 2 then s
        else if kind ≠ 1 then refuse r 2 s
        else if c < Config.contexts ∧ (s.ctx (BitVec.ofNat 6 c)).res then refuse r 1 s
        else launchRecord r s)

/-- The bind fields of a slot as a write of MODE 00 leaves them. -/
def unbound (v : Slot) : BitVec 16 := BitVec.ofNat 16
  (v.ctx.toNat * 4 + v.prio.toNat * 256 + v.die.toNat * 2048 + v.once.toNat * 8192)

/-- MODE 00 in every slot bound to the context (R381); one that runs a task of it and is bound to another by now keeps that binding (R54). -/
def unbindAll (c : BitVec 6) (s : State) : State :=
  s.slots.foldl (fun st p => if p.2.mode ≠ 0 ∧ p.2.ctx = c then bindWrite p.1 (unbound p.2) st else st) s

/-- The contexts that are ending and whose slots are all FREE end (R337, R381). -/
def finishEndings (s : State) : State :=
  let t := s.io.endings.foldl (fun st e =>
    if (st.ctx e.1).res ∧ slotsFree st e.1 then endNormally e.1 e.2 st else st) s
  { t with io := { t.io with endings := t.io.endings.filter (fun e => (t.ctx e.1).res) } }

/-- END_CONTEXT (R381, R382): the end record in hand, then the contexts whose slots have become FREE. -/
def execEndContext (s : State) : Out :=
  let t := match s.io.inHand with
    | none => s
    | some r =>
      let v := r.toNat
      let c := BitVec.ofNat 6 (bits v 64 8)
      if bits v 0 32 ≠ 2 then s
      else if bits v 64 8 > 63 ∨ bits v 72 56 ≠ 0 ∨ bits v 256 256 ≠ 0 then refuse r 2 s
      else if !(s.ctx c).res then refuse r 7 s
      else release { unbindAll c s with io := { s.io with endings := s.io.endings ++ [(c, r.extractLsb' 32 32)] } }
  .next (finishEndings t)

/-! ## Completion records -/

/-- Is the completion-ring word valid (R386)? -/
def ringValid (w : BitVec 256) : Bool := w.extractLsb' 64 64 == 65536 && w.extractLsb' 186 6 == 0 && w.extractLsb' 192 64 == 0

/-- The host port that the completion-ring word names (R386, R407). -/
def ringPort (w : BitVec 256) : Nat := 320 + (w.extractLsb' 184 2).toNat

/-- COMPLETION_RECORD (R384), once the port of the ring is READY; a FAILED one is met as a lasting error of no context (R408, R416). -/
def execCompletionRecord (s : State) : Out :=
  let n := s.io.dseq + 1
  match s.io.compl with
  | [] => .next s
  | r :: rest =>
    if !ringValid s.io.cword ∨ (n - s.io.hack).toNat > 1024 then .next s
    else if s.fnFailed (ringPort s.io.cword) then .next (s.useFailed (ringPort s.io.cword))
    else if !s.fnReady (ringPort s.io.cword) then .next s
    else
      let a := (s.io.cword.extractLsb' 0 64).toNat + 64 * ((n - 1).toNat % 1024)
      let v := r.toNat - bits r.toNat 32 32 * 2 ^ 32 + n.toNat * 2 ^ 32
      .next { s with host := putBytes s.host a 64 v, io := { s.io with dseq := n, compl := rest } }

/-- COMPLETION_RING_WORD (R386). -/
def execCompletionRingWord (v : BitVec 256) (s : State) : Out :=
  .next (if hostUp s then { s with io := { s.io with cword := v } } else s)

/-! ## The HBM window and attestation -/

/-- One byte that the host writes at an offset of region 0 (R380): the launch ring, or HBM. -/
def hostByte (off : Nat) (b : Byte) (s : State) : State :=
  let p := off - 0x100000000
  if off < 0x4000 then { s with io := { s.io with ring := SMap.set 0 s.io.ring off b } }
  else if 0x100000000 ≤ off ∧ p < Config.hbmBytes then { s with hbm := SMap.set 0 s.hbm p b }
  else s

/-- HBM_WINDOW (R380): a host write through region 0; the doorbell, the ring word and the nonce have rows of their own. HBM that
is not READY makes it wait, and a FAILED stack counts a lasting error of no context (R408, R416). -/
def execHbmWindow (off : Nat) (bytes : List Byte) (s : State) : Out :=
  let sts := if off < 0x100000000 then [] else stacksOf (off - 0x100000000) bytes.length
  if !hostUp s then .next s
  else match s.useFns sts (.bad 0 0) with
    | .wait => .next s
    | .dead fn => .next (s.useFailed fn)
    | _ => .next (bytes.zipIdx.foldl (fun st p => hostByte (off + p.2) p.1 st) s)

/-- Bytes 0–191 of the attestation report for a nonce (R414). -/
def reportBody (nonce : BitVec 256) (s : State) : BitVec 1536 :=
  let res := foldRange (fun c acc => acc + (s.ctx (BitVec.ofNat 6 c)).res.toNat * 2 ^ c) 0 Config.contexts 0
  let key := shake256 512 (natBytes (publicKey (s.rom.identity.getD 0)).toNat 1952)
  BitVec.ofNat 1536 (1 + 3501 * 256 ^ 4 + s.io.epoch.toNat * 256 ^ 8 + s.rom.version.toNat * 256 ^ 16 + s.rom.digest.toNat * 256 ^ 24 +
    key.toNat * 256 ^ 88 + nonce.toNat * 256 ^ 152 + res * 256 ^ 184)

/-- The attestation report for a nonce, signed with the identity key (R414, log 18). -/
def attestation (nonce : BitVec 256) (s : State) : BitVec 28008 :=
  let b := reportBody nonce s
  BitVec.ofNat 28008 (b.toNat + (signature (s.rom.identity.getD 0) (natBytes b.toNat 192) s.fresh).toNat * 256 ^ 192)

/-- ATTESTATION_NONCE (R414). -/
def execAttestationNonce (nonce : BitVec 256) (s : State) : Out :=
  .next (if hostUp s then { s.tick with io := { s.io with nonce := nonce, report := some (attestation nonce s) } } else s)

end Sys2Proof.Machine
end

