-- ==== Sys2Proof/Machine/Pumps.lean ====
section
/-! DEFINITION. The pump instructions (R234–R240): PGO, PBIND, PUNBIND, PREL, PWAIT, PSTAT, PHALT, with the descriptors of R213
and the replacements of R400. -/

namespace Sys2Proof.Machine
open Sys2Proof

/-! ## Opening a channel -/

/-- An address that the pump forms, exactly: one outside 64 bits lies, as any above its space, where nothing is present
(R216). -/
def pumpAddr (a : Int) : Nat := if 0 ≤ a ∧ a < 2 ^ 64 then a.toNat else 2 ^ 63

/-- The checks of R191 for an access of channel c in space 00 or 01; device-class memory is refused (R216). -/
def pumpCheck (s : State) (c : Nat) (x : Channel) (space a : Nat) (acc : Acc) (n align : Nat) : Chk :=
  if space = 0 then s.checkVirtual (192 + c / 16) x.ctx a acc n align true else s.checkCistern x.ctx a acc align

/-- The address of command n (R214). -/
def Channel.cmdAddr (x : Channel) (n : Nat) : Nat := pumpAddr ((x.lbase + 32 * ((n - x.origin) % x.lsize) : Nat) : Int)

/-- The machine with every function READY and no walk to wait for: where an address lies, whatever an access of it must wait for. -/
def State.untimed (s : State) : State :=
  { s with sched := { s.sched with walks := false }, funcs := (List.range 324).map (fun n => (n, { state := 2 })) }

/-- The channel with the commands lo … hi − 1 as their slots hold them now: what is rewritten before HEAD has passed it yields the old
command, never a mixture (R214, log 99). What lies in peer memory its device gives as the command starts, and a slot that is no legal
address now is read then. -/
def State.latch (s : State) (c lo hi : Nat) (x : Channel) : Channel :=
  foldRange (fun n y =>
    match pumpCheck s.untimed c x 0 (x.cmdAddr n) .read 32 32 with
    | .go (.peer _ _) _ => y
    | .go loc _ => { y with cmds := SMap.put y.cmds n (BitVec.ofNat 256 (s.homeRead loc 32)) }
    | _ => y) lo (hi - lo) { x with cmds := x.cmds.filter (fun p => decide (hi < p.1 + x.lsize + 1)) }

/-- Is n a power of two from 2^lo to 2^hi? -/
def pow2In (n lo hi : Nat) : Bool := anyIn (fun e => n == 2 ^ e) lo (hi - lo + 1)

/-- A channel as its descriptor opens it; the counts at their start (R213, R235). -/
def openChannel (c : BitVec 6) (d serial : Nat) : Channel :=
  { ctx := c, lbase := bits d 0 64, lsize := bits d 64 32, origin := 0, next := 0, tail := bits d 96 32
    seq := BitVec.ofNat 64 (bits d 192 64), seqaddr := bits d 128 64, loopOn := false, iter := 0, os := 0, od := 0, loopBase := 0
    loopAt := 0, wbase := bits d 256 64, wsize := bits d 320 32, esz := bits d 352 8, total := bits d 384 64
    win := bits d 448 32, landed := 0, sent := 0, rel := 0, state := .queued, aovr := false, arep := false, clmp := false
    nv := false, ovf := false, nx := false, fcause := 0, fcmd := 0, final := none, detached := false, port := false
    readyAt := none, run := [], stall := false, serial := serial, waitSerial := none }

/-- Does the descriptor keep R213? -/
def legalDescriptor (d : Nat) : Bool :=
  let x := openChannel 0 d 0
  let pump := bits d 360 8
  x.lbase % 32 == 0 && pow2In x.lsize 0 16 && decide (x.tail ≤ x.lsize) && x.seqaddr % 8 == 0 &&
  (if x.wsize = 0 then x.wbase == 0 else pow2In x.wsize 8 21 && x.wbase % x.wsize == 0) &&
  decide (x.esz ≤ 3) && (decide (pump < 32) || pump == 0xFF) && bits d 368 16 == 0 &&
  decide (x.win ≤ x.wsize / 2 ^ x.esz) && bits d 480 32 == 0

/-- The lowest free handle entry (R211). -/
def freeHandle (h : Hart) : Option Nat := firstIn (fun i => (SMap.find? h.handles i).isNone) 0 16

/-- Free channels of pump p; none while the pump is not READY (R408). -/
def freeOf (s : State) (p : Nat) : Nat :=
  if s.fnReady (208 + p) then 16 - (s.chans.filter (fun x => x.1 / 16 == p)).length else 0

/-- The pump with the most free channels, the lowest number winning a tie (R235). -/
def freestPump (s : State) : Option Nat :=
  let best := (List.range 32).foldl (fun (acc : Nat × Nat) p => if freeOf s p > acc.2 then (p, freeOf s p) else acc) (0, 0)
  if best.2 = 0 then none else some best.1

/-- The lowest free channel of the pump that the descriptor names. -/
def freeChannel (s : State) (pump : Nat) : Option Nat :=
  let p := if pump = 0xFF then freestPump s else if freeOf s pump = 0 then none else some pump
  p.bind (fun p => firstIn (fun c => (s.chan c).isNone) (16 * p) 16)

/-- Does the well lie in windows granted to the context with RD and WR (R194)? -/
def wellGranted (s : State) (c : BitVec 6) (base size : Nat) : Bool :=
  (List.range (ceilDiv size 0x10000)).all (fun i =>
    let a := base + 0x10000 * i
    decide (a < 192 * 2 ^ 21) && State.windowPermits (s.window a) c .atomic)

/-- The status of an open, or the handle entry and the channel it takes (R235). -/
def openResult (s : State) (d : Nat) : Except Nat (Nat × Nat) :=
  let x := openChannel s.ctxid d 0
  if !legalDescriptor d then .error 0x101
  else match freeHandle s.hart with
    | none => .error 0x102
    | some h =>
      if (s.chans.filter (fun p => p.2.ctx == s.ctxid)).length ≥ min s.myCtx.qchan.toNat Config.channels then .error 0x103
      else match freeChannel s (bits d 360 8) with
        | none => .error 0x104
        | some c => if wellGranted s s.ctxid x.wbase x.wsize then .ok (h, c) else .error 0x105

/-- PGO, open (R235). A named pump that is FAILED is met as a lasting error (R408). -/
def execPgoOpen (x : ArgsD) (s : State) : Out :=
  issue (.pgoOpen x) s fun s =>
    readScalars [(x.a, x.p)] s fun s => destFree x.d s fun s => drained s fun s =>
    let addr := s.hart.rs x.a
    if addr.toNat % 64 ≠ 0 then .trap 0x05 0 addr 0 s
    else
      oneAccess { acc := .read, op := .read, sz := 64, align := 64, idem := true } 0 0 addr 0 (s.fenceDevice s.cur)
        fun d s =>
        let s := cleanEnd s
        match openResult s d with
        | .error st =>
          let p := bits d 360 8
          if st = 0x104 ∧ p < 32 ∧ s.fnFailed (208 + p) then .ok (s.killLasting s.cur (208 + p))
          else writeRetire x.d (BitVec.ofNat 64 st) s
        | .ok (h, c) =>
          let ch := openChannel s.ctxid d s.fresh
          let t := (s.setChan c (s.latch c 0 ch.tail ch)).tick
          writeRetire x.d (BitVec.ofNat 64 h) (t.setHart { t.hart with handles := SMap.put t.hart.handles h c })

/-- HEAD (R214): the lowest index of a command that has not completed, of an active loop's body, or of the next one. -/
def Channel.head (x : Channel) : Nat :=
  x.run.foldl (fun m r => min m r.index) (if x.loopOn then min x.loopBase x.next else x.next)

/-- PGO, tail (R235). -/
def execPgoTail (x : ArgsT) (s : State) : Out :=
  issue (.pgoTail x) s fun s =>
    readScalars [(x.a, x.p), (x.b, x.q)] s fun s => destFree x.d s fun s => drained s fun s =>
    withRef (s.hart.rs x.a) s fun c ch =>
    let t := (s.hart.rs x.b).toNat
    let s := s.fenceDevice s.cur
    if t ≥ 2 ^ 32 ∨ t > ch.head + ch.lsize then writeRetire x.d 0x106 s
    else writeRetire x.d 0 (s.setChan c (s.latch c ch.tail t { ch with tail := max ch.tail t }))

/-! ## Streams and counts -/

/-- Every stream binding of the device: slot, binding number, binding. -/
def allBinds (s : State) : List (Nat × Nat × StreamBind) :=
  s.slots.flatMap (fun p => if s.occupied p.1 then p.2.hart.binds.map (fun b => (p.1, b.1, b.2)) else [])

/-- Is the channel's well bound to a stream? -/
def isBound (s : State) (c : Nat) : Bool := (allBinds s).any (fun b => b.2.2.chan == c)

/-- Do the rings of two wells share a byte? -/
def wellsOverlap (x y : Channel) : Bool :=
  decide (x.wsize ≠ 0) && decide (y.wsize ≠ 0) && decide (x.wbase < y.wbase + y.wsize) && decide (y.wbase < x.wbase + x.wsize)

/-- Does R236 refuse binding k to the operand and the channel? -/
def bindRefused (s : State) (k w fl c : Nat) (x : Channel) : Bool :=
  (SMap.find? s.hart.binds k).isSome || (overlapsBind s.hart w fl).isSome || x.wsize == 0 || w != 8 * 2 ^ x.esz ||
  (allBinds s).any (fun b => b.2.2.chan == c ||
    (match s.chan b.2.2.chan with | some y => wellsOverlap x y | none => false))

/-- PBIND (R236): C becomes REL, and where that is the final count already, END[k] is set (R233, R420). -/
def execPbind (x : ArgsPb) (s : State) : Out :=
  issue (.pbind x) s fun s =>
    let w := widthOf x.w
    if overruns w x.d.toNat then decodeTrap 0x04 (.pbind x) s
    else
      readScalars [(x.a, x.p)] s fun s =>
      withRef (s.hart.rs x.a) s fun c ch =>
      if bindRefused s x.k.toNat w x.d.toNat c ch then .trap 0x11 0 (BitVec.ofNat 64 (0x200 + x.k.toNat)) 0 s
      else
        let b : StreamBind := { slice := x.d.toNat, wcode := x.w, chan := c, d := ch.rel, c := ch.rel }
        let h := s.hart
        retireOnly (s.setHart { h with binds := SMap.put h.binds x.k.toNat b,
                                       strmf := if ch.final = some ch.rel then setB h.strmf x.k.toNat true else h.strmf })

/-- PUNBIND (R236). -/
def execPunbind (k : BitVec 3) (s : State) : Out :=
  issue (.punbind k) s fun s => drained s fun s =>
    let h := s.hart
    let n := k.toNat
    if (SMap.find? h.binds n).isNone then retireOnly s
    else retireOnly (s.setHart { h with binds := SMap.del h.binds n, strmf := setB (setB h.strmf n false) (8 + n) false })

/-- PREL (R237), after the hart's accesses to the elements that it releases (R228). -/
def execPrel (x : ArgsQ) (s : State) : Out :=
  issue (.prel x) s fun s =>
    readScalars [(x.a, x.p), (x.b, x.q)] s fun s =>
    withRef (s.hart.rs x.a) s fun c ch =>
    let n := ch.rel + (s.hart.rs x.b).toNat
    if n > ch.arr ∨ isBound s c then .trap 0x11 0 (ch.status c) 0 s
    else retireOnly ((s.beforeRelease s.cur ch ch.rel n).setChan c { ch with rel := n })

/-- What PWAIT returns for the count n (R238, R400): in deterministic mode the lesser of F and the target. -/
def pwaitReturn (d b : BitVec 6) (n : Nat) (s : State) : Res :=
  let s := s.refreshWell s.cur
  let h := { s.hart with pwait := none }
  let want := (h.rs b).toNat
  if s.detm then
    let v := min n want
    .ok (s.setHart (({ h with detf := h.detf || v != n }).ws d (BitVec.ofNat 64 v)).retire)
  else .ok (s.setHart (h.ws d (BitVec.ofNat 64 n)).retire)

/-- PWAIT (R238, R241, R400). -/
def execPwait (x : ArgsT) (s : State) : Out :=
  issue (.pwait x) s fun s =>
    readScalars [(x.a, x.p), (x.b, x.q)] s fun s => destFree x.d s fun s =>
    match s.hart.pwait with
    | some { broke := some w, .. } => .trap 0x11 0 w 0 s
    | some { final := some f, .. } => pwaitReturn x.d x.b f s
    | _ =>
      withRef (s.hart.rs x.a) s fun c ch =>
      if ch.state = .faulted then .trap 0x11 0 (ch.status c) 0 s
      else if ch.aovr && !ch.arep then .trap 0x14 0 (BitVec.ofNat 64 ch.arr) 0 (s.setChan c { ch with arep := true })
      else if ch.arr ≥ (s.hart.rs x.b).toNat ∨ ch.state = .ended ∨ ch.state = .halted then pwaitReturn x.d x.b ch.arr s
      else .wait (s.setHart { s.hart with pwait := some ⟨c, none, none⟩ })

/-- The value that PSTAT's selector names (R239). -/
def pstatValue (x : Channel) (c sel : Nat) : Word :=
  if sel = 0 then x.status c
  else if sel = 1 then BitVec.ofNat 64 x.arr
  else if sel = 2 then BitVec.ofNat 64 x.rel
  else if sel = 3 then x.seq
  else if sel = 4 then BitVec.ofNat 64 x.head
  else if sel = 5 then BitVec.ofNat 64 x.tail
  else x.fcmd.zeroExtend 64

/-- PSTAT (R239, R400). -/
def execPstat (x : ArgsK) (s : State) : Out :=
  issue (.pstat x) s fun s =>
    readScalars [(x.a, x.p)] s fun s => destFree x.d s fun s =>
    withRef (s.hart.rs x.a) s fun c ch =>
    let settled := ch.state == .ended || ch.state == .halted || ch.state == .faulted
    if s.detm && !settled && x.b != 6 then writeRetire x.d 0 (s.setHart { s.hart with detf := true })
    else writeRetire x.d (pstatValue ch c x.b.toNat) (if x.b = 1 then s.refreshWell s.cur else s)

/-! ## Stopping a channel -/

/-- Drops the remote requests of channel c. -/
def State.dropChanRequest (s : State) (c : Nat) : State := s.clearEngine (fun r => r.who == .chan c || r.who == .seq c)

/-- The channel as PHALT stops it (R227, R240): its issued transfers complete, and it is HALTED unless it is past its end. -/
def Channel.halt (x : Channel) : Channel :=
  { x with landed := x.sent, state := if x.state = .ended ∨ x.state = .faulted then x.state else .halted }

/-- PHALT (R227, R240). -/
def execPhalt (x : ArgsD) (s : State) : Out :=
  issue (.phalt x) s fun s =>
    readScalars [(x.a, x.p)] s fun s => destFree x.d s fun s =>
    withRef (s.hart.rs x.a) s fun c ch =>
    if isBound s c then .trap 0x11 0 (ch.status c) 0 s
    else
      writeRetire x.d (BitVec.ofNat 64 ch.halt.arr) (((s.dropChanRequest c).setChan c ch.halt).closeChan c)

end Sys2Proof.Machine
end

