-- ==== Sys2Proof/Machine/PumpCommands.lean ====
section
/-! DEFINITION. What the pumps do on their own: reading commands (R214–R216), the data commands (R217–R220), WAITSEQ and SIGNAL
(R221), LOOP, JUMP and END (R222), completion (R215), ports (R223), arrivals (R224), command faults (R230), tickets (R376–R378)
and budget periods (R390). -/

namespace Sys2Proof.Machine
open Sys2Proof

/-! ## Faults and accesses of a channel -/

/-- A command fault (R230): the issued transfers complete, and a detached channel is closed (R212). -/
def pumpFault (c code index : Nat) (s : State) : State :=
  match s.chan c with
  | none => s
  | some x =>
    let y := { x with state := .faulted, fcause := BitVec.ofNat 8 code, fcmd := BitVec.ofNat 32 index, landed := x.sent
                      port := false, readyAt := none }
    let t := ((s.setChan c y).dropChanRequest c).forgetWalks (192 + c / 16) x.ctx
    if x.detached then t.closeChan c else t

/-- A lasting error of function fn that command `index` of channel c meets: FCAUSE 0x09, then the kill of its context (R416). -/
def pumpDead (c fn index : Nat) (s : State) : State :=
  match s.chan c with
  | none => s
  | some x => (pumpFault c 9 index s).killFor x.ctx fn

/-- The FCAUSE of an access that fails with a trap cause (R216, R229, R370). What traps a hart with cause 0x15 (a device-table entry that
is not VALID, an undefined host region, a refusal) counts as a matter of permission (log 47). -/
def fcauseOf (cause : Nat) : Nat := if cause = 0x06 then 2 else if cause = 0x07 ∨ cause = 0x15 then 3 else 4

/-- What an access of a channel comes to. -/
inductive Got where
  | data (n : Nat) (s : State)
  | wait (s : State)
  | fault (f : Nat)
  | dead (fn : Nat)

/-- An action of channel c's command `index` needs its pump READY; a FAILED one is met as a lasting error (R408, R416). -/
def withPump (c index : Nat) (s : State) (k : State) : State :=
  match s.useFns [208 + c / 16] (.bad 0 0) with
  | .dead fn => pumpDead c fn index s
  | .wait => s
  | _ => k

/-- One access of channel c for `who`, performed at its home; peer memory waits for the reply (R369), and an access that has been
sent stands as it was translated (R310). -/
def pumpAccessFor (who : Waiter) (c : Nat) (x : Channel) (space a : Nat) (wr : Bool) (n align data : Nat) (s : State) : Got :=
  match s.requestOf who with
  | some r =>
    if r.failed then .fault 0x0A
    else match r.reply with
      | none => .wait s
      | some (true, _) => .fault 3
      | some (false, d) => .data d { s with net := { s.net with reqs := s.net.reqs.filter (fun r => r.who != who) } }
  | none =>
    match pumpCheck s c x space a (if wr then .write else .read) n align with
    | .bad cause _ => .fault (fcauseOf cause)
    | .wait => .wait (if space = 0 then s.noteMiss (192 + c / 16) x.ctx a else s)
    | .dead f => .dead f
    | .go (.peer q pa) dev =>
      .wait (s.sendRequest who x.ctx q (if wr then .write else .read) pa n data 0 dev (BitVec.ofNat 64 a))
    | .go loc _ => if wr then .data 0 (s.homeWrite loc n data) else .data (s.homeRead loc n) s

/-- One access of channel c's command in progress, or next to start. -/
def pumpAccess (c : Nat) (x : Channel) (space a : Nat) (wr : Bool) (n align data : Nat) (s : State) : Got :=
  pumpAccessFor (.chan c) c x space a wr n align data s

/-- Follows an access: a fault of command `index`, a wait, or the data. -/
def onGot (c index : Nat) (s : State) (g : Got) (k : Nat → State → State) : State :=
  match g with
  | .data n t => k n t
  | .wait t => t
  | .fault f => pumpFault c f index s
  | .dead fn => pumpDead c fn index s

/-! ## Reading commands -/

/-- Does an address field keep its space (R216)? -/
def addrOk (space v : Nat) : Bool := if space = 0 then decide (v < 2 ^ 51) else decide (v < 2 ^ 29)

/-- The space in which NEWV lies (R219). -/
def newvSpace (m : Nat) : Nat := if bits m 12 2 = 3 then 1 else bits m 12 2

/-- Do the fields of the command keep its entry (R217–R222)? -/
def fieldsOk (x : Channel) (m : Nat) : Bool :=
  let code := bits m 0 8
  let ssp := bits m 10 2
  let dsp := bits m 12 2
  let src := addrOk ssp (bits m 16 56)
  let dst := if dsp = 3 then bits m 72 56 == 0 else addrOk dsp (bits m 72 56)
  let rows := src && dst && addrOk ssp (bits m 128 56) && bits m 200 20 != 0 && decide (bits m 220 4 ≤ 1) && bits m 248 8 == 0
  let bare := ssp == 0 && dsp == 0
  if code = 1 then src && dst && bits m 128 20 != 0
  else if code = 2 then rows
  else if code = 3 then dsp != 3 && rows
  else if code = 4 then
    let nv := bits m 184 56
    src && dst && addrOk ssp (bits m 128 56) && addrOk (newvSpace m) nv &&
    !(dsp == 3 && decide (nv < x.wbase + x.wsize) && decide (x.wbase < nv + 64))
  else if code = 5 then src && dst && decide (bits m 160 4 ≤ 5) && decide (bits m 164 4 ≤ 5) && bits m 168 88 == 0
  else if code = 6 then bare && bits m 25 7 == 0 && bits m 32 32 == 0 && bits m 128 128 == 0
  else if code = 7 then
    ssp == 0 && bits m 18 14 == 0 && bits m 184 72 == 0 &&
    (if bits m 16 2 = 0 then dsp == 0 && bits m 128 56 == 0
     else bits m 16 2 == 1 && decide (dsp ≤ 1) && bits m 32 32 == 0 && addrOk dsp (bits m 128 56))
  else if code = 8 then bare && bits m 48 16 == 0 && bits m 192 64 == 0
  else if code = 9 then bare && addrOk 0 (bits m 16 56) && bits m 72 184 == 0
  else bare && bits m 16 240 == 0

/-- The FCAUSE of a command that its fields alone make faulty (R216, R222). -/
def cmdFault (x : Channel) (m : Nat) : Option Nat :=
  let code := bits m 0 8
  if code = 0 ∨ code > 10 ∨ bits m 14 2 ≠ 0 ∨ bits m 10 2 ≥ 2 ∨ bits m 12 2 = 2 ∨ (bits m 12 2 = 3 ∧ x.wsize = 0) then some 1
  else if !fieldsOk x m then some 1
  else if code = 8 ∧ (bits m 32 16 = 0 ∨ bits m 32 16 ≥ x.lsize) then some 7
  else if code = 9 ∧ bits m 16 56 % 32 ≠ 0 then some 7
  else none

/-- Is the channel open and not past its end? -/
def Channel.live (x : Channel) : Bool := x.state == .queued || x.state == .running || x.state == .blocked

/-- The command in progress: the last one started, while its transfers are not all issued. -/
def Channel.inProgress (x : Channel) : Option CmdRun := x.run.getLast?.filter (fun r => !r.done)

/-- Reads the command at NEXT for an event of `code` (R214–R216): one that must wait for the earlier commands is left, one that is
malformed faults the channel whatever the event, and one of another code is left. `k` gets the command. What earlier commands of the
channel have written is in place by then, so a read of it gives the new value (R215 item 3, log 97). -/
def beginCmd (c code : Nat) (needPort : Bool) (s : State) (k : Nat → Channel → State → State) : State :=
  match s.chan c with
  | none => s
  | some x =>
    if !x.live || x.inProgress.isSome || decide (x.tail ≤ x.next) || (needPort && !x.port) then s
    else withPump c x.next s <|
      onGot c x.next s (pumpAccess c x 0 (x.cmdAddr x.next) false 32 32 0 s) fun d t =>
        let m := match SMap.find? x.cmds x.next with | some v => v.toNat | none => d
        let ordered := m.testBit 9 || bits m 0 8 == 7 || bits m 0 8 == 10
        if ordered ∧ !x.run.isEmpty then t
        else match cmdFault x m with
          | some f => pumpFault c f x.next t
          | none => if bits m 0 8 ≠ code then t else k m x t

/-- The channel with the command at NEXT started (R229). -/
def Channel.started (x : Channel) (r : CmdRun) : Channel :=
  { x with state := if x.state = .queued then .running else x.state, next := x.next + 1, run := x.run ++ [r] }

/-- A command that is done as soon as it starts. -/
def Channel.at_once (x : Channel) (m : Nat) : Channel :=
  x.started { index := x.next, cmd := BitVec.ofNat 256 m, mark := x.sent, done := true }

/-- Replaces the command in progress. -/
def Channel.setRun (x : Channel) (r : CmdRun) : Channel := { x with run := x.run.dropLast ++ [r] }

/-! ## Data commands -/

/-- The format that code 0–5 names (R220). -/
def pumpFmt (n : Nat) : Fmt :=
  if n = 0 then fp64 else if n = 1 then fp32 else if n = 2 then fp16 else if n = 3 then bf16 else if n = 4 then e4m3 else e5m2

namespace CmdRun

/-- Bits lo … lo + n − 1 of the command. -/
def f (r : CmdRun) (lo n : Nat) : Nat := bits r.cmd.toNat lo n

/-- CODE. -/
def code (r : CmdRun) : Nat := r.f 0 8

/-- N1, N2 or N3 (R217). -/
def dim (r : CmdRun) (lo : Nat) : Nat := max 1 (r.f lo 12)

/-- Bytes of a chunk, row, block or element of the source. -/
def rowLen (r : CmdRun) : Nat :=
  if r.code = 1 then r.f 128 20 else if r.code = 4 then 64 else if r.code = 5 then (pumpFmt (r.f 160 4)).w / 8 else r.f 200 20

/-- Bytes of it at the destination. -/
def outLen (r : CmdRun) : Nat := if r.code = 5 then (pumpFmt (r.f 164 4)).w / 8 else r.rowLen

/-- How many there are. -/
def count (r : CmdRun) : Nat :=
  if r.code = 1 then r.dim 148 * r.dim 160 * r.dim 172
  else if r.code = 4 then r.f 240 16 else if r.code = 5 then r.f 128 32 else r.f 184 16

/-- PITCH (R218). -/
def pitch (r : CmdRun) : Nat := if r.f 224 24 = 0 then r.f 200 20 else r.f 224 24

/-- The signed source stride at bit lo. -/
def stride (r : CmdRun) (lo : Nat) : Int := sx (r.f lo 24) 24

/-- The source address of the byte that comes next. -/
def srcAddr (r : CmdRun) : Int :=
  let n1 := r.dim 148
  let base : Int := (r.f 16 56 : Int) + r.os + (r.off : Int)
  if r.code = 1 then
    base + ((r.pos % n1 : Nat) : Int) * r.stride 184 + ((r.pos / n1 % r.dim 160 : Nat) : Int) * r.stride 208 +
      ((r.pos / (n1 * r.dim 160) : Nat) : Int) * r.stride 232
  else if r.code = 2 then base + ((r.idx.getD 0 * r.pitch : Nat) : Int)
  else base + ((r.pos * r.rowLen : Nat) : Int)

/-- The destination address of the unit in hand. -/
def dstAddr (r : CmdRun) : Int :=
  let base : Int := (r.f 72 56 : Int) + r.od + (r.off : Int)
  if r.code = 3 then base + ((r.idx.getD 0 * r.pitch : Nat) : Int) else base + ((r.pos * r.outLen : Nat) : Int)

/-- The index width in bytes. -/
def idxLen (r : CmdRun) : Nat := if r.f 220 4 = 0 then 4 else 8

/-- Has the command come to its end? A REQUANT reads its two view images first (R219). -/
def finishIf (r : CmdRun) (sent : Nat) : CmdRun :=
  if r.pos ≥ r.count ∧ (r.code ≠ 4 ∨ 2 ≤ r.aux.length) then { r with done := true, mark := sent } else r

/-- The unit in hand is delivered: on to the next one. -/
def advance (r : CmdRun) (sent : Nat) : CmdRun :=
  let r1 := { r with phase := 0, buf := 0, have_ := 0, len := 0 }
  let off := if r.code ≤ 3 then r.off + r.len else r.rowLen
  (if off ≥ r.rowLen then { r1 with pos := r.pos + 1, off := 0, idx := none } else { r1 with off := off }).finishIf sent

end CmdRun

/-- W of R225. -/
def Channel.window (x : Channel) : Nat := if x.win = 0 then x.wsize / 2 ^ x.esz else x.win

/-- Bytes that may still be delivered into the well before the window holds them. -/
def Channel.room (x : Channel) : Nat := (x.rel + x.window) * 2 ^ x.esz - x.sent

/-- Are further deliveries past TOTAL (R226)? -/
def Channel.past (x : Channel) : Bool := decide (x.total ≠ 0) && decide (x.total * 2 ^ x.esz ≤ x.sent)

/-- The fabric address of the device whose memory the page of an address lies in, if it is a peer's; whatever the access itself must wait
for. -/
def peerOf (s : State) (c : Nat) (x : Channel) (space a : Nat) : Option Nat :=
  match pumpCheck s.untimed c x space a .write 1 1 with
  | .go (.peer q _) _ => some (s.devAddr x.ctx q)
  | _ => none

/-- Bytes of a packed destination that go to device q, page by page. -/
def packedBytes (s : State) (c : Nat) (x : Channel) (space base n q : Nat) : Nat :=
  foldRange (fun i acc =>
    let p := (base / 32768 + i) * 32768
    let lo := max base p
    if peerOf s c x space lo = some q then acc + (min (base + n) (p + 32768) - lo) else acc) 0
    (ceilDiv (base % 32768 + n) 32768) 0

/-- Bytes that a command sends to device q (R376); those of a SCATTER by the row indices it has read, each row page by page, and those of a
REQUANT with the three of each header entry that it rewrites. -/
def peerBytes (s : State) (c : Nat) (x : Channel) (r : CmdRun) (q : Nat) : Nat :=
  let dsp := r.f 12 2
  if r.code = 3 then
    (r.peeked.map (fun k => packedBytes s c x dsp (pumpAddr ((r.f 72 56 : Int) + r.od + ((k * r.pitch : Nat) : Int))) r.rowLen q)).sum
  else
    let headers := if r.code = 4 ∧ peerOf s c x (newvSpace r.cmd.toNat) (r.f 184 56) = some q then 3 * r.count else 0
    headers + (if dsp = 3 then 0 else packedBytes s c x dsp (pumpAddr ((r.f 72 56 : Int) + r.od)) (r.count * r.outLen) q)

/-- 2^TKLOG (R377). -/
def ticketBytes (s : State) : Nat :=
  let k := s.net.tickets.tklog.toNat
  2 ^ (if 12 ≤ k ∧ k ≤ 24 then k else 14)

/-- Must the command wait for a ticket before it sends to device q, and the tickets it has asked for then (R376)? -/
def ticketGate (s : State) (c : Nat) (x : Channel) (r : CmdRun) (q : Nat) : Option (List (Nat × Bool)) :=
  match r.tickets.find? (fun t => t.1 == q) with
  | some t => if t.2 then none else some r.tickets
  | none => if peerBytes s c x r q ≥ ticketBytes s then some (r.tickets ++ [(q, false)]) else none

/-- The unit read, as it is to be delivered, and the channel and run with what the transformation notes; none for a block
that fails its format or tag (R219, R220). -/
def transform (x : Channel) (r : CmdRun) : Option (Channel × CmdRun) :=
  let out := fun (x : Channel) (r : CmdRun) (n buf : Nat) => some (x, { r with phase := 1, have_ := 0, len := n, buf := buf })
  if r.code = 4 then
    let old : View := r.aux.getD 0 0
    let new : View := r.aux.getD 1 0
    let blk : BitVec 512 := BitVec.ofNat 512 r.buf
    let i0 := 120 * r.pos
    if blk.extractLsb' 0 8 ≠ 0x41 ∨ blockTag blk ≠ tagAt old i0 then none
    else
      let e : Int := ((blockScale blk).toNat % 64 : Nat) - 38
      let value := fun (i : Nat) =>
        let q := portOfCode old (blockScale blk) (blockCode blk (i - i0)) i
        FV.fin (decide (q < 0)) q.natAbs e
      let b := quantBlock new ((vScale new r.pos).toNat / 64) r.pos value
      out { x with clmp := x.clmp || anyIn b.clamped 0 120 } { r with aux := [old, vPutHdr new r.pos b.scale b.tag] } 64 b.blk.toNat
  else if r.code = 5 then
    let v := rndV (pumpFmt (r.f 164 4)) rneCtl ((pumpFmt (r.f 160 4)).raw r.buf)
    out { x with nv := x.nv || v.2.getLsbD 4, ovf := x.ovf || v.2.getLsbD 2, nx := x.nx || v.2.getLsbD 0 } r r.outLen v.1
  else out x r r.len r.buf

/-- n more bytes of the unit in hand are delivered: units of 64 bytes moved are counted (R389). -/
def moved (c : Nat) (x : Channel) (r : CmdRun) (n : Nat) (s : State) : State :=
  let r1 := { r with have_ := r.have_ + n, moved := r.moved + n }
  let r2 := if r1.have_ < r1.len then r1 else if r.code = 4 then { r1 with phase := 2 } else r1.advance x.sent
  (s.setChan c (x.setRun r2)).budgetCount (.pump (c / 16)) x.ctx (ceilDiv (r.moved + n) 64 - ceilDiv r.moved 64)

/-- Access of row index k of a GATHER or SCATTER. -/
def indexAccess (c : Nat) (x : Channel) (r : CmdRun) (k : Nat) (s : State) : Got :=
  pumpAccess c x (r.f 10 2) (pumpAddr ((r.f 128 56 + k * r.idxLen : Nat) : Int)) false r.idxLen r.idxLen 0 s

/-- Must a SCATTER read its other row indices before it sends this piece to a peer (R376)? -/
def CmdRun.peeks (r : CmdRun) (q : Option Nat) : Bool := r.code == 3 && q.isSome && decide (r.peeked.length < r.count)

/-- Delivers a piece of the unit in hand: into the well, within its window and TOTAL (R225, R226), or to the destination. A REQUANT
block lies on a multiple of 64 there too (R216). -/
def deliver (c : Nat) (x : Channel) (r : CmdRun) (s : State) : State :=
  let left := r.len - r.have_
  let data := r.buf / 256 ^ r.have_
  if r.f 12 2 = 3 then
    if x.past then moved c { x with sent := x.sent + left, aovr := true } r left s
    else
      let cap := if x.total = 0 then left else x.total * 2 ^ x.esz - x.sent
      let n := min (min left cap) (min x.room (64 - x.sent % 64))
      if n = 0 then s
      else if r.code = 4 ∧ r.have_ = 0 ∧ (x.wbase + x.sent % x.wsize) % 64 ≠ 0 then pumpFault c 4 r.index s
      else onGot c r.index s (pumpAccess c x 1 (x.wbase + x.sent % x.wsize) true n 1 data s) fun _ t =>
        moved c { x with sent := x.sent + n } r n t
  else
    let a := pumpAddr (r.dstAddr + (r.have_ : Int))
    let n := min left (64 - a % 64)
    let peer := peerOf s c x (r.f 12 2) a
    if r.peeks peer then
      onGot c r.index s (indexAccess c x r r.peeked.length s) fun n t => t.setChan c (x.setRun { r with peeked := r.peeked ++ [n] })
    else match peer.bind (ticketGate s c x r) with
    | some ts => s.setChan c (x.setRun { r with tickets := ts })
    | none =>
      onGot c r.index s (pumpAccess c x (r.f 12 2) a true n (if r.code = 4 then 64 else 1) data s) fun _ t => moved c x r n t

/-- The next action of a data command in progress. -/
def dataStep (c : Nat) (x : Channel) (r : CmdRun) (s : State) : State :=
  let ssp := r.f 10 2
  if r.code = 4 ∧ r.aux.length < 2 then
    let old := r.aux.isEmpty
    onGot c r.index s (pumpAccess c x (if old then ssp else newvSpace r.cmd.toNat) (r.f (if old then 128 else 184) 56) false 64 64 0 s)
      fun n t => t.setChan c (x.setRun ({ r with aux := r.aux ++ [BitVec.ofNat 512 n] }.finishIf x.sent))
  else if r.phase = 2 then
    let h := r.pos % 16
    let v := bits (r.aux.getD 1 0).toNat (128 + 24 * h) 24
    match (peerOf s c x (newvSpace r.cmd.toNat) (r.f 184 56)).bind (ticketGate s c x r) with
    | some ts => s.setChan c (x.setRun { r with tickets := ts })
    | none =>
      onGot c r.index s (pumpAccess c x (newvSpace r.cmd.toNat) (r.f 184 56 + 16 + 3 * h) true 3 1 v s)
        fun _ t => t.setChan c (x.setRun (r.advance x.sent))
  else if r.phase = 1 then deliver c x r s
  else if (r.code = 2 ∨ r.code = 3) ∧ r.idx = none then
    match r.peeked[r.pos]? with
    | some n => s.setChan c (x.setRun { r with idx := some n })
    | none => onGot c r.index s (indexAccess c x r r.pos s) fun n t => t.setChan c (x.setRun { r with idx := some n })
  else if r.have_ = 0 ∧ !s.budgetFree (.pump (c / 16)) x.ctx 8 then s
  else
    let a := pumpAddr (r.srcAddr + (r.have_ : Int))
    let unit := if r.have_ ≠ 0 then r.len else if r.code ≤ 3 then min (r.rowLen - r.off) (64 - a % 64) else r.rowLen
    let n := min (unit - r.have_) (64 - a % 64)
    onGot c r.index s (pumpAccess c x ssp a false n (if r.code = 4 then 64 else 1) 0 s) fun d t =>
      let r1 := { r with buf := r.buf + d * 256 ^ r.have_, have_ := r.have_ + n, len := unit }
      if r1.have_ < unit then t.setChan c (x.setRun r1)
      else match transform x r1 with
        | some (x1, r2) => t.setChan c (x1.setRun r2)
        | none => pumpFault c 5 r.index t

/-- An event of a data command: starts the command at NEXT, or carries on the one in progress (R217–R220). -/
def dataEvent (code c : Nat) (s : State) : State :=
  match s.chan c with
  | none => s
  | some x =>
    match x.inProgress with
    | some r => if r.code = code ∧ x.live ∧ x.port then withPump c r.index s (dataStep c x r s) else s
    | none =>
      beginCmd c code true s fun m x t =>
        let r : CmdRun := { index := x.next, cmd := BitVec.ofNat 256 m, os := x.os, od := x.od }
        t.setChan c (x.started (r.finishIf x.sent))

/-- COPY (R217). -/
def execCopy (chan : Nat) (s : State) : Out := .next (dataEvent 1 chan s)

/-- GATHER (R218). -/
def execGather (chan : Nat) (s : State) : Out := .next (dataEvent 2 chan s)

/-- SCATTER (R218). -/
def execScatter (chan : Nat) (s : State) : Out := .next (dataEvent 3 chan s)

/-- REQUANT (R219). -/
def execRequant (chan : Nat) (s : State) : Out := .next (dataEvent 4 chan s)

/-- CONVERT (R220). -/
def execConvert (chan : Nat) (s : State) : Out := .next (dataEvent 5 chan s)

/-- ARRIVAL (R224, R226): one more delivered element lands. -/
def execArrival (chan : Nat) (s : State) : Out :=
  match s.chan chan with
  | none => .next s
  | some x => .next (s.setChan chan { x with landed := min x.sent ((x.landed / 2 ^ x.esz + 1) * 2 ^ x.esz) })

/-! ## Linking channels and tasks -/

/-- Is SEQ(CH) of the channel that a WAITSEQ is tied to at VALUE yet: satisfied, still waiting, or a fault (R221)? -/
def waitseqState (s : State) (x : Channel) (m : Nat) : Option Bool :=
  match s.chan (bits m 16 9) with
  | none => none
  | some y =>
    if x.waitSerial ≠ some y.serial then none
    else if bits m 64 64 ≤ y.seq.toNat then some true
    else if y.live then some false else none

/-- WAITSEQ (R221). -/
def execWaitseq (chan : Nat) (s : State) : Out :=
  match s.chan chan with
  | none => .next s
  | some x =>
    match x.inProgress with
    | some r =>
      if r.code ≠ 6 ∨ !x.live then .next s
      else match waitseqState s x r.cmd.toNat with
        | none => .next (pumpFault chan 6 r.index s)
        | some true => .next (s.setChan chan (x.setRun { r with done := true }))
        | some false => .next s
    | none =>
      .next (beginCmd chan 6 false s fun m x t =>
        match t.chan (bits m 16 9) with
        | none => pumpFault chan 6 x.next t
        | some y =>
          let there := decide (bits m 64 64 ≤ y.seq.toNat)
          if y.ctx ≠ x.ctx ∨ (bits m 16 9 = chan ∧ !there) ∨ (!y.live ∧ !there) then pumpFault chan 6 x.next t
          else
            let r : CmdRun := { index := x.next, cmd := BitVec.ofNat 256 m, mark := x.sent, done := there }
            t.setChan chan { x.started r with waitSerial := some y.serial })

/-- SIGNAL, KIND 00 (R61, R221): stalls while the credit quota is full. -/
def execSignalDecrement (chan : Nat) (s : State) : Out :=
  .next (beginCmd chan 7 false s fun m x t =>
    if bits m 16 2 ≠ 0 ∨ x.stall then t
    else match t.decrement x.ctx (BitVec.ofNat 32 (bits m 32 32)) with
      | none => t.setChan chan { x with stall := true }
      | some u => u.setChan chan (x.at_once m))

/-- SIGNAL, KIND 01 (R221). -/
def execSignalStore (chan : Nat) (s : State) : Out :=
  .next (beginCmd chan 7 false s fun m x t =>
    if bits m 16 2 ≠ 1 then t
    else onGot chan x.next t (pumpAccess chan x (bits m 12 2) (bits m 128 56) true 8 8 (bits m 64 64) t) fun _ u =>
      u.setChan chan (x.at_once m))

/-! ## Steering the list -/

/-- LOOP (R222). -/
def execLoopCmd (chan : Nat) (s : State) : Out :=
  .next (beginCmd chan 8 false s fun m x t =>
    let n := x.next
    let back := bits m 32 16
    if (x.loopOn ∧ x.loopAt ≠ n) ∨ n < x.origin + back then pumpFault chan 7 n t
    else
      let iter := if x.loopOn then x.iter else 0
      let y := x.at_once m
      if iter < bits m 16 16 then
        t.setChan chan { y with loopOn := true, loopAt := n, loopBase := n - back, iter := iter + 1, next := n - back
                                os := (iter + 1 : Nat) * sx (bits m 64 64) 64, od := (iter + 1 : Nat) * sx (bits m 128 64) 64 }
      else t.setChan chan { y with loopOn := false, iter := iter, os := 0, od := 0 })

/-- JUMP (R222). -/
def execJumpCmd (chan : Nat) (s : State) : Out :=
  .next (beginCmd chan 9 false s fun m x t =>
    if x.loopOn then pumpFault chan 7 x.next t
    else
      let y := { x.at_once m with lbase := bits m 16 56, origin := x.next + 1, cmds := [] }
      t.setChan chan (t.latch chan (x.next + 1) x.tail y))

/-- WAITSEQs tied to channel c that its SEQ now satisfies complete (R221). -/
def satisfyWaits (c : Nat) (serial : Nat) (seq : Word) (s : State) : State :=
  { s with chans := State.mapAll (fun _ y =>
      match y.inProgress with
      | some r =>
        if r.code = 6 ∧ r.f 16 9 = c ∧ y.waitSerial = some serial ∧ r.f 64 64 ≤ seq.toNat ∧ y.live then y.setRun { r with done := true }
        else y
      | none => y) s.chans }

/-- Counts SEQ for the command `index`, then stores it at SEQADDR (R215). -/
def countSeq (c index : Nat) (x : Channel) (s : State) (k : Channel → State → State) : State :=
  let y := if x.counted then x else { x with seq := x.seq + 1, counted := true }
  let t := if x.counted then s else satisfyWaits c x.serial y.seq (s.setChan c y)
  if x.seqaddr = 0 then k { y with counted := false } t
  else onGot c index t (pumpAccessFor (.seq c) c y 0 x.seqaddr true 8 8 y.seq.toNat t) fun _ u => k { y with counted := false } u

/-- COMMAND_COMPLETE (R215): the oldest command is done and its deliveries have landed. -/
def execCommandComplete (chan : Nat) (s : State) : Out :=
  match s.chan chan with
  | none => .next s
  | some x =>
    match x.run with
    | [] => .next s
    | r :: rest =>
      if !r.done ∨ !x.live ∨ (x.wsize ≠ 0 ∧ x.landed < r.mark) then .next s
      else
        let drop := fun (y : Channel) (t : State) =>
          let z := (t.chan chan).getD y
          t.setChan chan { z with seq := y.seq, counted := false, run := rest }
        .next (if r.cmd.getLsbD 8 then countSeq chan r.index x s drop else drop x s)

/-- Bindings of the channel that have consumed its final count set their END bit (R233). -/
def markEnds (c f : Nat) (s : State) : State :=
  { s with slots := State.mapAll (fun _ v =>
      { v with hart := v.hart.binds.foldl (fun h b =>
          if b.2.chan = c ∧ b.2.c = f then { h with strmf := setB h.strmf b.1 true } else h) v.hart }) s.slots }

/-- The channel is ENDED: its final count is fixed (R227), and a detached one is closed (R212). -/
def endChannel (c : Nat) (x : Channel) (s : State) : State :=
  let f := x.arr
  let t := markEnds c f (s.setChan c { x with state := .ended, final := some f, next := x.next + 1, port := false, readyAt := none })
  if x.detached then t.closeChan c else t

/-- END (R222, R224): a remainder of an element is a fault. -/
def execEndCmd (chan : Nat) (s : State) : Out :=
  .next (beginCmd chan 10 false s fun m x t =>
    if x.sent % 2 ^ x.esz ≠ 0 then pumpFault chan 8 x.next t
    else if m.testBit 8 then countSeq chan x.next x t (fun y u => endChannel chan y u)
    else endChannel chan x t)

/-! ## Ports -/

/-- Has the channel a command to carry on or to start? A data command in progress counts though NEXT may have reached TAIL (log 20). -/
def Channel.hasWork (x : Channel) : Bool := decide (x.next < x.tail) || x.inProgress.isSome

/-- Is the next delivery of a data command, which has one still to make, held by a full window (R225)? -/
def Channel.windowHolds (x : Channel) (r : CmdRun) : Bool :=
  decide (1 ≤ r.code) && decide (r.code ≤ 5) && r.f 12 2 == 3 && decide (x.wsize ≠ 0) && !x.past && x.room == 0 &&
  decide (r.phase ≠ 2) && decide (r.pos < r.count)

/-- The command at NEXT where the channel has it already: as TAIL made it available, or as a peer's memory has given it. -/
def nextCommand (s : State) (c : Nat) (x : Channel) : Option (BitVec 256) :=
  (SMap.find? x.cmds x.next).orElse fun _ =>
    match (s.requestOf (.chan c)).bind (·.reply) with
    | some (false, d) => some (BitVec.ofNat 256 d)
    | _ => none

/-- What holds the channel's next command or the one in progress (R223, R229). -/
def held? (s : State) (c : Nat) (x : Channel) : Bool :=
  x.hasWork && (x.stall || !s.budgetFree (.pump (c / 16)) x.ctx 8 ||
    (match x.inProgress with
     | none => decide (x.next < x.tail) && (nextCommand s c x).any (fun m => x.windowHolds { index := x.next, cmd := m })
     | some r => r.code == 6 || r.tickets.any (fun t => !t.2) || x.windowHolds r))

/-- Is the channel ready (R223)? -/
def ready? (s : State) (c : Nat) (x : Channel) : Bool := x.live && x.hasWork && !held? s c x

/-- Brings STATE, readiness and ports of every channel up to date (R223, R229); the stamp orders channels by when they became
ready. DESIGN CHOICE (log 117): a channel that is held before it has started its first command stays QUEUED, though R229 gives it BLOCKED
as well. -/
def settleChans (s : State) : State :=
  let stamp := 1 + s.chans.foldl (fun m p => max m (p.2.readyAt.getD 0)) 0
  { s with chans := State.mapAll (fun c x =>
      if !x.live then x
      else
        let st := if x.state = .queued then ChanState.queued else if held? s c x then .blocked else .running
        if ready? s c x then { x with state := st, readyAt := some (x.readyAt.getD stamp) }
        else { x with state := st, readyAt := none, port := false }) s.chans }

/-- PORT_GRANT (R223): a free port of the pump goes to the channel that became ready first. -/
def execPortGrant (pump : Nat) (s : State) : Out :=
  let t := settleChans s
  let mine := t.chans.filter (fun p => p.1 / 16 == pump)
  if (mine.filter (fun p => p.2.port)).length ≥ 4 then .next t
  else
    let best := mine.foldl (fun (acc : Option (Nat × Nat)) p =>
      match p.2.readyAt, acc with
      | some r, none => if p.2.port then acc else some (r, p.1)
      | some r, some a => if !p.2.port && r < a.1 then some (r, p.1) else acc
      | none, _ => acc) none
    match best with
    | none => .next t
    | some (_, c) =>
      match t.chan c with
      | none => .next t
      | some x => .next (t.setChan c { x with port := true })

/-! ## Tickets and budgets -/

/-- SERVING passes every finished ticket (R377). -/
def passFinished : Nat → Dispenser → Dispenser
  | 0, d => d
  | n + 1, d =>
    if d.tickets.any (fun t => t.number == d.serving && t.finished) then
      passFinished n { d with tickets := d.tickets.filter (fun t => t.number != d.serving), serving := d.serving + 1 }
    else d

/-- Is ticket t called: (t − SERVING) mod 2^32 < SLOTS, 0 taken as 1? -/
def Dispenser.called (d : Dispenser) (t : BitVec 32) : Bool := decide ((t - d.serving).toNat < max 1 d.slots.toNat)

/-- Ticket n of this device's dispenser counts as finished: its last transfer has been acknowledged, or, called or not, its source context
has been killed (R377, R378). -/
def finishTicket (n : BitVec 32) (s : State) : State :=
  let d := s.net.tickets
  let d1 := { d with tickets := d.tickets.map (fun t => if t.number = n then { t with finished := true } else t) }
  { s with net := { s.net with tickets := passFinished d1.tickets.length d1 } }

/-- The command of channel c notes whether its ticket of device q is called. -/
def markTicket (c q : Nat) (called : Bool) (s : State) : State :=
  match s.chan c with
  | none => s
  | some x =>
    match x.inProgress with
    | none => s
    | some r => s.setChan c (x.setRun { r with tickets := r.tickets.map (fun t => if t.1 = q then (q, called) else t) })

/-- TICKET_CALL (R377). -/
def execTicketCall (t : TicketEnd) (s : State) : Out :=
  match t with
  | .finished n => .next (finishTicket n s)
  | .called c q => .next (markTicket c q true s)

/-- TICKET_TIMEOUT (R378): a called ticket of this device's dispenser finishes; the source of one that lapsed waits for a new one. -/
def execTicketTimeout (t : TicketEnd) (s : State) : Out :=
  match t with
  | .finished n => .next (if s.net.tickets.called n then finishTicket n s else s)
  | .called c q => .next (markTicket c q false s)

/-- Inserts a request into its place: ascending source fabric address, then channel (R377). -/
def insertAsk (a : TicketAsk) : List TicketAsk → List TicketAsk
  | [] => [a]
  | b :: t =>
    if addrRank a.src < addrRank b.src ∨ (addrRank a.src = addrRank b.src ∧ a.chan ≤ b.chan) then a :: b :: t else b :: insertAsk a t

/-- TICKET_REQUEST (R377): requests that arrive in one cycle take numbers in order. -/
def execTicketRequest (requests : List TicketAsk) (s : State) : Out :=
  let sorted := requests.foldl (fun acc a => insertAsk a acc) []
  let d := sorted.foldl (fun (d : Dispenser) a =>
    { d with next := d.next + 1, tickets := d.tickets ++ [{ number := d.next, src := a.src, chan := a.chan, finished := false }] })
    s.net.tickets
  .next { s with net := { s.net with tickets := d } }

/-- The budget word that an arbiter reads (R389). -/
def arbiterWord : Arbiter → Nat
  | .pump _ => 8
  | .egress _ => 16
  | .port _ => 24

/-- BUDGET_PERIOD (R390): the excess over LIMIT is carried into the next period. -/
def execBudgetPeriod (arbiter : Arbiter) (ctx : Nat) (s : State) : Out :=
  let c := BitVec.ofNat 6 ctx
  let left := if s.budgetLimit c (arbiterWord arbiter) = 0 then 0 else s.budgetUsed arbiter c - s.budgetLimit c (arbiterWord arbiter)
  let rest := s.net.budgets.filter (fun u => !(u.arb == arbiter && u.ctx == c))
  .next { s with net := { s.net with budgets := if left = 0 then rest else rest ++ [⟨arbiter, c, left⟩] } }

end Sys2Proof.Machine
end

