-- ==== Sys2Proof/Machine/Functions.lean ====
section
/-! DEFINITION. Bring-up, power and reliability: POWER_ON and self-tests (R407, R412), FAILED (R407), clock steps and the thermal
reset (R410), soft errors (R415, R416). -/

namespace Sys2Proof.Machine
open Sys2Proof

/-! ## Bring-up -/

/-- Functions with a status word (R407). -/
def functions : Nat := 324

/-- A device reset: every field at its reset value but the host's own memory and the agenda, which are not the device's, and the fuses, with a
new EPOCH (R388, R410). -/
def deviceReset (s : State) : State :=
  { State.reset with host := s.host, agenda := s.agenda, sched := s.sched, fresh := s.fresh, rom := s.rom
                     io := { State.reset.io with epoch := s.io.epoch + 1 } }

/-- BOOT for the image in the flash (R412): the first check that fails. -/
def bootResult (s : State) : Option BootImage → BitVec 4
  | none => 1
  | some i =>
    if shake256 256 (natBytes i.key.toNat 1952) ≠ Config.fusedKey ∨ verifies i.key i.body i.sig = false then 2
    else if i.version < s.rom.minVersion then 3
    else 0

/-- The fuses and the identity once the image is verified (R412, R413): the minimum never falls, and the first bring-up draws the key pair. -/
def verified (i : BootImage) (s : State) : State :=
  let m := if s.rom.minVersion < i.raises then i.raises else s.rom.minVersion
  let r : Rom := { minVersion := m, identity := s.rom.identity.orElse (fun _ => some s.fresh), version := i.version
                   digest := shake256 512 i.body }
  { s.tick with rom := r, funcs := SMap.mapRange {} (fun _ f => { f with state := 1 }) 0 functions s.funcs }

/-- POWER_ON (R407, R412): the boot; when the image is verified every function starts its self-test. EPOCH comes from flash, unless a reset
of this run has counted it on (log 21). -/
def execPowerOn (image : Option BootImage) (epoch : BitVec 16) (s : State) : Out :=
  if anyIn (fun n => (s.func n).state != 0) 0 functions then .next s
  else
    let b := bootResult s image
    let t : State := { s with io := { s.io with boot := b, epoch := if s.io.epoch = 0 then epoch else s.io.epoch } }
    .next (match image with
      | some i => if b = 0 then verified i t else t
      | none => t)

/-- Slots of a tile that becomes READY: a bind write made before takes effect (R408). -/
def armSlots (tile : Nat) (s : State) : State :=
  { s with slots := State.mapAll (fun k v =>
      if State.tileOf k = tile ∧ v.state = .free ∧ v.mode ≠ 0 then { v with state := .armed } else v) s.slots }

/-- SELF_TEST_END (R407). -/
def execSelfTestEnd (function : Nat) (passed : Bool) (s : State) : Out :=
  let f := s.func function
  if function ≥ functions ∨ f.state ≠ 1 then .next s
  else
    let g := if passed then { f with state := 2 } else { f with state := 3, fcode := 1 }
    let t : State := { s with funcs := SMap.set {} s.funcs function g }
    .next (if passed ∧ function < Config.tiles then armSlots function t else t)

/-- FAILED_WRITE (R407). -/
def execFailedWrite (function : Nat) (s : State) : Out := .next (failWrite function s)

/-! ## Power -/

/-- The die power limit in watts (R410). -/
def Power.limit (p : Power) : Nat := if 100 ≤ p.plim.toNat ∧ p.plim.toNat ≤ 520 then p.plim.toNat else 520

/-- CLOCK_STEP (R410): with the limit or 95 °C exceeded one step down, to at most 8; else one step up again. -/
def execClockStep (die : Nat) (m : Sensors) (s : State) : Out :=
  let p : Power := SMap.get {} s.power die
  let lower := decide (p.limit < m.watts) || decide (95 < m.temp)
  if die ≥ 4 ∨ (lower ∧ p.step.toNat ≥ 8) ∨ (!lower ∧ p.step = 0) then .next s
  else .next { s with power := SMap.set {} s.power die { p with step := if lower then p.step + 1 else p.step - 1 } }

/-- THERMAL_RESET (R410). -/
def execThermalReset (s : State) : Out := .next (deviceReset s)

/-! ## Soft errors -/

/-- The function in which the failing word lies (R407, R415); none for management-core state. -/
def ErrorPlace.fn : ErrorPlace → Option Nat
  | .hart k => some (k / 8)
  | .window w => some (w / 32)
  | .table t => some t
  | .hbm _ n => some (196 + n % 12)
  | .channel c => some (208 + c / 16)
  | .round _ => some 240
  | .link j => some (241 + j)
  | .free n => some n
  | .management => none

/-- The resident context that owns the failing word (R416), if one does. -/
def ErrorPlace.owner (s : State) (p : ErrorPlace) : Option (BitVec 6) :=
  let c : Option (BitVec 6) := match p with
    | .hart k => if s.occupied k then some (s.ctxOf k) else none
    | .window w => let v := SMap.get ({} : Window) s.windows w; if v.valid then some v.ctx else none
    | .table t => if (s.tile t).tvalid then some (s.tile t).owner else none
    | .hbm c _ => some (BitVec.ofNat 6 c)
    | .channel c => (s.chan c).map (fun x => x.ctx)
    | .round r => (s.round r).map (fun x => x.ctx)
    | _ => none
  c.filter (fun c => (s.ctx c).res && !(s.ctx c).dying)

/-- The hart that a kill record names (R340): the one whose state failed, or whose access met the error. -/
def ErrorPlace.hart? (p : ErrorPlace) (hart : Option Nat) : Option Nat := match p with | .hart k => some k | _ => hart

/-- A lasting error in the state of channel c: FCAUSE 0x09, at the command in progress or the next one (R230, R416). -/
def failedChannel (c : Nat) (s : State) : State :=
  match s.chan c with
  | none => s
  | some x => pumpFault c 9 ((x.inProgress.map (·.index)).getD x.next) s

/-- A lasting error (R415, R416). -/
def lastingError (p : ErrorPlace) (loc : BitVec 32) (hart : Option Nat) (s : State) : State :=
  match p with
  | .management => deviceReset s
  | .link j => if j < 79 then failLink j loc s else s
  | _ =>
    let t := match ErrorPlace.fn p with
      | none => s
      | some n => if n < functions then s.countLasting n loc else s
    match ErrorPlace.owner s p with
    | none => t
    | some c =>
      let u := match p with | .channel n => failedChannel n t | _ => t
      match ErrorPlace.hart? p hart with
      | some k => u.kill c 4 { u.killBy k with cause := 0x17 }
      | none => u.kill c 4 { cause := 0x17 }

/-- A transient error (R415): TRANS + 1, saturating. -/
def transientError (p : ErrorPlace) (s : State) : State :=
  match ErrorPlace.fn p with
  | none => s
  | some n =>
    if n < functions then
      let f := s.func n
      { s with funcs := SMap.set {} s.funcs n { f with trans := if f.trans = BitVec.allOnes 16 then f.trans else f.trans + 1 } }
    else s

/-- SOFT_ERROR (R415, R416). -/
def execSoftError (place : ErrorPlace) (lasting : Bool) (loc : BitVec 32) (hart : Option Nat) (s : State) : Out :=
  .next (if lasting then lastingError place loc hart s else transientError place s)

end Sys2Proof.Machine
end

