-- ==== Sys2Proof/Machine/Moves.lean ====
section
/-! DEFINITION. Moves, extensions, selection and mask instructions (R97–R102). -/

namespace Sys2Proof.Machine
open Sys2Proof

/-- MOV (R97): copies a slice operand, a scalar or an immediate. -/
def execMov (x : ArgsM) (s : State) : Out :=
  issue (.mov x) s fun s =>
    if x.f = 3 then
      readScalars (if x.w.getLsbD 0 then [] else [(x.b, x.q)]) s fun s => destFree x.d s fun s =>
      let v : Int := if x.w.getLsbD 0 then imm6 x.b else sx (s.hart.rs x.b).toNat (ssWidth x.w)
      writeRetire x.d (word v) s
    else
      let w := widthOf x.w
      elementwise (.mov x) { srcs := bSrc x.f w x.b x.q, dsts := [⟨w, x.d.toNat⟩], reads := bReg x.f x.b x.q } false Hart.active
        (fun s i row => .ok { row := putElem row w x.d.toNat (bVal s x.f false w x.b i row) }) s

/-- SEXT and ZEXT (R98): the source at width wS, extended. -/
def extend (i : Instr) (x : ArgsC) (ext : Nat → Nat → Int) (s : State) : Out :=
  issue i s fun s =>
    let ws := widthOf x.s
    if x.f = 3 then
      readScalars [(x.a, x.p)] s fun s => destFree x.d s fun s =>
      writeRetire x.d (word (ext (s.hart.rs x.a).toNat ws)) s
    else
      let w := widthOf x.w
      elementwise i { srcs := [⟨ws, x.a.toNat, x.p⟩], dsts := [⟨w, x.d.toNat⟩] } false Hart.active
        (fun s i row => .ok { row := putElem row w x.d.toNat (wrap (ext (fetch s ⟨ws, x.a.toNat, false⟩ i row) ws) w) }) s

/-- SEXT (R98): sign extension. -/
def execSext (x : ArgsC) (s : State) : Out := extend (.sext x) x sx s

/-- ZEXT (R98): zero extension. -/
def execZext (x : ArgsC) (s : State) : Out := extend (.zext x) x zx s

/-- SEL (R99): writes every element below VL, from a where the guard permits and from b elsewhere. -/
def execSel (x : ArgsA) (s : State) : Out :=
  issue (.sel x) s fun s =>
    let w := widthOf x.w
    elementwise (.sel x)
      { srcs := ⟨w, x.a.toNat, x.p⟩ :: bSrc x.f w x.b x.q, dsts := [⟨w, x.d.toNat⟩], reads := bReg x.f x.b x.q } false
      (fun _ _ => true)
      (fun s i row =>
        let v := if s.hart.active i then fetch s ⟨w, x.a.toNat, false⟩ i row else bVal s x.f false w x.b i row
        .ok { row := putElem row w x.d.toNat v }) s

/-- MLOG (R100): bit i of m[d] for every active i, from bits of m[a] and m[b]. -/
def maskLogic (i : Instr) (d a b : Nat) (reads : List (Nat × Bool)) (op : Bool → Bool → Bool) (s : State) : Out :=
  issue i s fun s =>
    elementwise i { mreads := reads, mdst := some d } false Hart.active
      (fun s i row => .ok { row := row, bit := op ((s.hart.rm a).getLsbD i) ((s.hart.rm b).getLsbD i) }) s

/-- MLOG_AND (R33, R100): x and y. -/
def execMlogAnd (x : ArgsT) (s : State) : Out :=
  maskLogic (.mlogAnd x) x.d.toNat x.a.toNat x.b.toNat [(x.a.toNat, x.p), (x.b.toNat, x.q)] (fun x y => x && y) s

/-- MLOG_OR (R33, R100): x or y. -/
def execMlogOr (x : ArgsT) (s : State) : Out :=
  maskLogic (.mlogOr x) x.d.toNat x.a.toNat x.b.toNat [(x.a.toNat, x.p), (x.b.toNat, x.q)] (fun x y => x || y) s

/-- MLOG_XOR (R33, R100): x ⊕ y. -/
def execMlogXor (x : ArgsT) (s : State) : Out :=
  maskLogic (.mlogXor x) x.d.toNat x.a.toNat x.b.toNat [(x.a.toNat, x.p), (x.b.toNat, x.q)] (fun x y => x != y) s

/-- MLOG_ANDN (R33, R100): x and not y. -/
def execMlogAndn (x : ArgsT) (s : State) : Out :=
  maskLogic (.mlogAndn x) x.d.toNat x.a.toNat x.b.toNat [(x.a.toNat, x.p), (x.b.toNat, x.q)] (fun x y => x && !y) s

/-- MLOG_NOT (R33, R100): not x. -/
def execMlogNot (x : ArgsD) (s : State) : Out :=
  maskLogic (.mlogNot x) x.d.toNat x.a.toNat 0 [(x.a.toNat, x.p)] (fun x _ => !x) s

/-- MLOG_COPY (R33, R100): x. -/
def execMlogCopy (x : ArgsD) (s : State) : Out :=
  maskLogic (.mlogCopy x) x.d.toNat x.a.toNat 0 [(x.a.toNat, x.p)] (fun x _ => x) s

/-- MLOG_SET (R33, R100). -/
def execMlogSet (d : BitVec 6) (s : State) : Out :=
  maskLogic (.mlogSet d) d.toNat 0 0 [] (fun _ _ => true) s

/-- MLOG_CLR (R33, R100). -/
def execMlogClr (d : BitVec 6) (s : State) : Out :=
  maskLogic (.mlogClr d) d.toNat 0 0 [] (fun _ _ => false) s

/-- The set S of R101 as a count and its least member. -/
def maskSet (h : Hart) (m : Nat) (i : Nat) : Bool := h.permits i && (h.rm m).getLsbD i

/-- MCNT and MFIRST (R101): the result is written before the hart issues again; with VL = 0 nothing is written (R83). -/
def maskScalar (i : Instr) (x : ArgsD) (f : Hart → Word) (s : State) : Out :=
  issue i s fun s =>
    let sh : Shape := { mreads := [(x.a.toNat, x.p)] }
    vecPre i sh s fun s _ => destFree x.d s fun s =>
    .ok (enter (sh.uses s.hart) 0 0 s.hart.len 0 false (s.setHart (s.hart.ws x.d (f s.hart)).retire))

/-- MCNT (R101): the number of set bits that the guard permits. -/
def execMcnt (x : ArgsD) (s : State) : Out :=
  maskScalar (.mcnt x) x (fun h => BitVec.ofNat 64 (foldRange (fun i n => if maskSet h x.a.toNat i then n + 1 else n) 0 h.len 0)) s

/-- MFIRST (R101): the least set bit that the guard permits, or all ones. -/
def execMfirst (x : ArgsD) (s : State) : Out :=
  maskScalar (.mfirst x) x (fun h => match firstIn (maskSet h x.a.toNat) 0 h.len with
    | some i => BitVec.ofNat 64 i
    | none => BitVec.allOnes 64) s

/-- MFROM (R102): bit i of m[d] ← element i is not zero. -/
def execMfrom (x : ArgsP) (s : State) : Out :=
  issue (.mfrom x) s fun s =>
    let w := widthOf x.w
    elementwise (.mfrom x) { srcs := [⟨w, x.a.toNat, x.p⟩], mdst := some x.d.toNat } false Hart.active
      (fun s i row => .ok { row := row, bit := fetch s ⟨w, x.a.toNat, false⟩ i row != 0 }) s

/-- MTO (R102): element i ← bit i of m[a]. -/
def execMto (x : ArgsP) (s : State) : Out :=
  issue (.mto x) s fun s =>
    let w := widthOf x.w
    elementwise (.mto x) { dsts := [⟨w, x.d.toNat⟩], mreads := [(x.a.toNat, x.p)] } false Hart.active
      (fun s i row => .ok { row := putElem row w x.d.toNat ((s.hart.rm x.a.toNat).getLsbD i).toNat }) s

end Sys2Proof.Machine
end

