-- ==== Sys2Proof/Machine/Network.lean ====
section
/-! DEFINITION. What a round does on its own: becoming OPEN (R266, R268), egresses (R276, R291), the merge network (R278–R283),
ingresses (R285, R286), COMPLETE (R290), lanes and fault notices (R294). -/

namespace Sys2Proof.Machine
open Sys2Proof

/-! ## Accesses of the engines -/

/-- What an access of a round's engine comes to. -/
inductive Engine where
  | data (n : Nat) (s : State)
  | wait (s : State)
  | fault (device : Bool)
  | dead (fn : Nat)

/-- An action of the round needs the merge network READY; a FAILED one is met as a lasting error (R408, R416). -/
def withNetwork (r : Round) (s : State) (k : State) : Out :=
  match s.useFns [240] (.bad 0 0) with
  | .dead fn => .next (s.killFor r.ctx fn)
  | .wait => .next s
  | _ => .next k

/-- An access in the device-virtual space of the round's context, in idempotent pages only (R268, R286); peer memory waits for
the reply under the number `who` (log 15), and an access that has been sent stands as it was translated (R310). -/
def engineAccess (unit who : Nat) (c : BitVec 6) (a : Nat) (wr : Bool) (n align data : Nat) (s : State) : Engine :=
  match s.requestOf (.round who) with
  | some r =>
    match r.answer with
    | .none => .wait s
    | .refused => .fault false
    | .data d => .data d { s with net := { s.net with reqs := s.net.reqs.filter (fun q => q.who != .round who) } }
  | none =>
  match s.checkVirtual unit c a (if wr then .write else .read) n align true with
  | .bad cause _ => .fault (cause == 8)
  | .wait => .wait (s.noteMiss unit c a)
  | .dead f => .dead f
  | .go (.peer q pa) dev => .wait (s.sendRequest (.round who) c q (if wr then .write else .read) pa n data 0 dev (BitVec.ofNat 64 a))
  | .go loc _ => if wr then .data 0 (s.homeWrite loc n data) else .data (s.homeRead loc n) s

/-- A cistern access of an egress or ingress: the window checks of R271, then the functions of R408. -/
def engineCistern (k : Nat) (r : Round) (tile off : Nat) (a : Acc) (s : State) (go : Nat → State) : State :=
  let base := tile * 2 ^ 21 + off
  if !rangeGranted s r.ctx tile off r.RS a then faultRound k 8 0 s
  else if (s.window base).busy || (s.window (base + r.RS - 1)).busy then s
  else match s.useFns [tile, 192 + tile / 48] (.bad 0 0) with
    | .dead f => s.killFor r.ctx f
    | .wait => s
    | _ => go base

/-! ## OPEN (R266) -/

/-- Have all members of the group joined, or ended, and bound a well or closed (R266)? -/
def allJoined (s : State) (r : Round) : Bool :=
  match s.group r.ctx r.group with
  | none => false
  | some g =>
    g.members.all (fun m => r.parts.any (fun p => p.task == m) || g.gone.contains m) &&
    r.parts.all (fun p => p.well.isSome || p.closed)

/-- Word j (8 bytes) of the splitter image. -/
def Round.imageWord (r : Round) (j : Nat) : Nat := bits (r.image.getD (j / 8) 0).toNat (64 * (j % 8)) 64

/-- Map entry b of the splitter image. -/
def Round.imageMap (r : Round) (b : Nat) : Nat := bits (r.imageWord (256 + b / 2)) (32 * (b % 2)) 32

/-- Is the list non-decreasing? -/
def ascending : List Nat → Bool
  | [] => true
  | [_] => true
  | x :: y :: t => decide (x ≤ y) && ascending (y :: t)

/-- Does a map entry name an endpoint (R272, R278)? One of this device names a participant's tile or a memory endpoint; what one of
another device names is that device's matter. -/
def namesEndpoint (r : Round) (self m : Nat) : Bool :=
  bits m 8 5 != self ||
  (decide (bits m 0 8 < 224) && (decide (192 ≤ bits m 0 8) || r.parts.any (fun p => p.tile == bits m 0 8)))

/-- The detail of code 0x03 for an illegal splitter image (R268, R295): the bucket of the first map entry that is bad, else 0;
none for a legal image. The map of a replicated round is not read (R285). -/
def imageFault (r : Round) (self : Nat) : Option Nat :=
  let sp := (List.range 255).map r.imageWord
  let mp := (List.range 256).map r.imageMap
  if !ascending sp || (!r.kw && sp.any (fun x => decide (2 ^ 32 ≤ x))) || r.imageWord 255 != 0 then some 0
  else if r.replicated then none
  else match firstIn (fun b => decide (2 ^ 13 ≤ r.imageMap b) || decide (r.ndev ≤ bits (r.imageMap b) 8 5) ||
      !namesEndpoint r self (r.imageMap b)) 0 256 with
    | some b => some b
    | none => if ascending (mp.map (fun m => bits m 8 5 * 256 + bits m 0 8)) then none else some 0

/-- The path of each lane of the round: the member to which the traffic to each other span device hops (R367). -/
def choosePaths (s : State) (r : Round) : List (Nat × Nat) :=
  (r.others (selfIn s r)).filterMap (fun d => (s.hopTo (addrMember (s.devAddr r.ctx d))).map (fun h => (d, h)))

/-- The round becomes OPEN with the image read so far; the lanes keep the paths of now (R367). -/
def becomeOpen (k : Nat) (r : Round) (s : State) : State :=
  let r1 := { r with state := .opened, np := r.parts.length, image := [], via := choosePaths s r }
  s.setRound k (if r.split = 0 then r1 else
    { r1 with splitters := (List.range 255).map r.imageWord, map := if r.replicated then [] else (List.range 256).map r.imageMap })

/-- ROUND_OPEN (R266, R268): one piece of 64 bytes of the splitter image is read, and with the last the round becomes OPEN. -/
def execRoundOpen (round : Nat) (s : State) : Out :=
  match s.round round with
  | none => .next s
  | some r =>
    if r.state ≠ .joining ∨ !allJoined s r then .next s
    else if r.split = 0 then .next (becomeOpen round r s)
    else
      match engineAccess 224 round r.ctx (r.split + 64 * r.image.length) false 64 64 0 s with
      | .wait t => .next t
      | .dead f => .next (s.killFor r.ctx f)
      | .fault dev => .next (faultRound round (if dev then 3 else 8) 0 s)
      | .data n t =>
        let r1 := { r with image := r.image ++ [BitVec.ofNat 512 n] }
        if r1.image.length < 48 then .next (t.setRound round r1)
        else match imageFault r1 (selfIn t r1) with
          | some b => .next (faultRound round 3 b t)
          | none => .next (becomeOpen round r1 t)

/-! ## The merge network (R278–R281) -/

/-- Digit t + 1 of an endpoint or source number in base 4, the most significant first (R278). -/
def digit4 (n t : Nat) : Nat := n / 4 ^ (3 - t) % 4

/-- Number of the input of switch `sw` of stage t (from 0) at port p; `fab` is set for what of it the records are that leave on fabric
lanes. A device merges its local records for another device, and waits for no inbound lane there (R284, R294, log 100). -/
def inputKey (fab : Bool) (t sw p : Nat) : Nat := fab.toNat * 1024 + (t * 64 + sw) * 4 + p

/-- The number of the other half of the same input. -/
def otherHalf (key : Nat) : Nat := if key < 1024 then key + 1024 else key - 1024

/-- An input of a switch. -/
def Round.input (r : Round) (key : Nat) : NetInput := SMap.get {} r.inputs key

/-- Replaces it. -/
def Round.setInput (r : Round) (key : Nat) (i : NetInput) : Round := { r with inputs := SMap.set {} r.inputs key i }

/-- The record waiting on the link enters its queue when that has room: four records of the two halves of the input (R278). -/
def absorb (t : Nat) (other i : NetInput) : NetInput :=
  match i.waiting with
  | none => i
  | some (x, e) =>
    let o := digit4 e t
    if (i.q.getD o []).length + (other.q.getD o []).length < 4 then
      { i with q := i.q.set o (i.q.getD o [] ++ [(x, e)]), waiting := none }
    else i

/-- A record for endpoint e comes onto the link of an input of stage t. -/
def Round.offer (r : Round) (t key : Nat) (x : XRec × Nat) : Round :=
  r.setInput key (absorb t (r.input (otherHalf key)) { r.input key with waiting := some x, shown := some x.1.key })

/-- Does source s reach the input (R278)? -/
def reaches (t sw p s : Nat) : Bool := s % 4 ^ (4 - t) == p * 4 ^ (3 - t) + sw % 4 ^ (3 - t)

/-- A record enters the network over the link of port p of a first-stage switch, and the link shows its key to every output. -/
def Round.inject (r : Round) (sw p : Nat) (x : XRec × Nat) : Round :=
  let fab := decide (224 ≤ x.2)
  let r1 := r.offer 0 (inputKey fab 0 sw p) x
  let other := inputKey (!fab) 0 sw p
  r1.setInput other { r1.input other with shown := some x.1.key }

/-- A close enters the network there. -/
def Round.injectClose (r : Round) (sw p : Nat) : Round :=
  let set := fun (r : Round) (key : Nat) => r.setInput key { r.input key with close := true }
  set (set r (inputKey false 0 sw p)) (inputKey true 0 sw p)

/-- Does a record wait on the link of an input? -/
def Round.waits (r : Round) (key : Nat) : Bool := (r.input key).waiting.isSome || (r.input (otherHalf key)).waiting.isSome

/-- Does one wait on the link of port p of a first-stage switch? -/
def Round.linkBusy (r : Round) (sw p : Nat) : Bool := r.waits (inputKey false 0 sw p)

/-- Is the input closed: nothing of the round can come over its link any more? -/
def Round.inputClosed (r : Round) (self : Nat) (fab : Bool) (t sw p : Nat) : Bool :=
  let i := r.input (inputKey fab t sw p)
  (i.close && i.waiting.isNone) || !(if fab then r.parts.map (·.tile) else r.sources self).any (reaches t sw p)

/-- The ingress of endpoint e. -/
def Round.ingress (r : Round) (e : Nat) : Ingress := SMap.get {} r.ins e

/-- Records or the close (none) reach the ingress of endpoint e. In a replicated round the root hands them to every participant
and to every lane (R285). -/
def Round.arrive (r : Round) (self e : Nat) (x : Option XRec) : Round :=
  let ends :=
    if !r.replicated then [e] else if e ≠ r.endpoint self 0 then []
    else if self = 0 then r.parts.map (·.tile) ++ (r.others self).map (224 + ·) else [e]
  { r with ins := ends.foldl (fun m e =>
      let i := SMap.get {} m e
      SMap.put m e (match x with | some v => { i with q := i.q ++ [v] } | none => { i with close := true })) r.ins }

/-- The input that output o of switch `sw` of stage t < 3 leads to (R278). -/
def nextInput (fab : Bool) (t sw o : Nat) : Nat :=
  let w := 4 ^ (2 - t)
  let p := sw / w % 4
  inputKey fab (t + 1) (sw - p * w + o * w) p

/-- Can the output emit: is the next link free? -/
def Round.linkFree (r : Round) (fab : Bool) (t sw o : Nat) : Bool := t == 3 || !r.waits (nextInput fab t sw o)

/-- Emits a record. -/
def Round.emit (r : Round) (self : Nat) (fab : Bool) (t sw o : Nat) (x : XRec × Nat) : Round :=
  if t = 3 then r.arrive self (4 * sw + o) (some x.1) else r.offer (t + 1) (nextInput fab t sw o) x

/-- Emits a close. -/
def Round.emitClose (r : Round) (self : Nat) (fab : Bool) (t sw o : Nat) : Round :=
  if t = 3 then (if fab = decide (224 ≤ 4 * sw + o) then r.arrive self (4 * sw + o) none else r)
  else r.setInput (nextInput fab t sw o) { r.input (nextInput fab t sw o) with close := true }

/-- The record at the head of an input's queue for output o. -/
def NetInput.head (i : NetInput) (o : Nat) : Option (XRec × Nat) := (i.q.getD o []).head?

/-- The round without that record of the input: what waits on the link of the input may enter the queue now. -/
def Round.pop (r : Round) (t key o : Nat) : Round :=
  let i := r.input key
  let other := r.input (otherHalf key)
  let j := absorb t other { i with q := i.q.set o (i.q.getD o []).tail }
  let r1 := r.setInput key j
  if other.waiting.isNone then r1 else r1.setInput (otherHalf key) (absorb t j other)

/-- COMBINE of an accumulator and a record, and its flags (R280). -/
def Round.fold (r : Round) (acc : Option (XRec × Nat)) (x : XRec × Nat) : (XRec × Nat) × Flags :=
  match acc with
  | none => (x, 0)
  | some a => let c := r.combine a.1 x.1; ((c.1, x.2), c.2)

/-- Pops the records of key k at the head of the queue, each folded into the accumulator. -/
def popKey (t key o k : Nat) : Nat → Round → Option (XRec × Nat) → Round × Option (XRec × Nat)
  | 0, r, acc => (r, acc)
  | n + 1, r, acc =>
    match (r.input key).head o with
    | some x =>
      if x.1.key = k then
        let c := r.fold acc x
        popKey t key o k n { r.pop t key o with fl := r.fl ||| c.2 } (some c.1)
      else (r, acc)
    | none => (r, acc)

/-- Does the input show a key above k, or its close? -/
def Round.passed (r : Round) (self : Nat) (fab : Bool) (t sw p k : Nat) : Bool :=
  (match (r.input (inputKey fab t sw p)).shown with | some y => decide (k < y) | none => false) || r.inputClosed self fab t sw p

/-- Replaces an output. -/
def Round.setOutput (r : Round) (fab : Bool) (t sw o : Nat) (v : NetOutput) : Round := { r with outputs := SMap.set {} r.outputs (inputKey fab t sw o) v }

/-- R279's loop for key k, from port v.port on: it stops at a port whose input does not show a key above k yet, or at a link
that is not free. The records of one port are combined first, as R281 has it, or each with what was popped before, as R279 has it: which, is
free (log 57). -/
def mergeFrom (self : Nat) (fab : Bool) (t sw o k : Nat) : Nat → NetOutput → Round → Round
  | 0, _, r => r
  | n + 1, v, r =>
    if v.port ≥ 4 then
      match v.acc with
      | none => r.setOutput fab t sw o { closed := v.closed }
      | some x => if r.linkFree fab t sw o then (r.emit self fab t sw o x).setOutput fab t sw o { closed := v.closed } else r.setOutput fab t sw o v
    else
      let key := inputKey fab t sw v.port
      let i := r.input key
      if r.comb = 1 then
        if (i.head o).any (fun x => x.1.key == k) then
          if r.linkFree fab t sw o then
            let r1 := (r.pop t key o).setOutput fab t sw o v
            match i.head o with
            | some x => r1.emit self fab t sw o x
            | none => r1
          else r.setOutput fab t sw o v
        else if r.passed self fab t sw v.port k then mergeFrom self fab t sw o k n { v with port := v.port + 1 } r
        else r.setOutput fab t sw o v
      else
        let c := popKey t key o k 5 r (if Config.foldsPorts then v.sub else v.acc)
        let r1 := c.1
        if !Config.foldsPorts then
          let v1 := { v with acc := c.2 }
          if r1.passed self fab t sw v.port k then mergeFrom self fab t sw o k n { v1 with port := v.port + 1 } r1
          else r1.setOutput fab t sw o v1
        else if r1.passed self fab t sw v.port k then
          match c.2 with
          | none => mergeFrom self fab t sw o k n { v with port := v.port + 1 } r1
          | some x =>
            let f := r1.fold v.acc x
            mergeFrom self fab t sw o k n { v with port := v.port + 1, acc := some f.1, sub := none } { r1 with fl := r1.fl ||| f.2 }
        else r1.setOutput fab t sw o { v with sub := c.2 }

/-- The least key at the head of a queue of output o. -/
def Round.leastKey (r : Round) (fab : Bool) (t sw o : Nat) : Option Nat :=
  foldRange (fun p acc =>
    match (r.input (inputKey fab t sw p)).head o, acc with
    | some x, some k => some (min x.1.key k)
    | some x, none => some x.1.key
    | none, _ => acc) 0 4 none

/-- Can no input bring a key below k any more (R283)? -/
def Round.settledAt (r : Round) (self : Nat) (fab : Bool) (t sw o k : Nat) : Bool :=
  (List.range 4).all (fun p =>
    ((r.input (inputKey fab t sw p)).head o).isSome || r.inputClosed self fab t sw p ||
    (match (r.input (inputKey fab t sw p)).shown with | some y => decide (k ≤ y) | none => false))

/-- One action of a switch output (R279). -/
def mergeStep (self : Nat) (fab : Bool) (t sw o : Nat) (r : Round) : Round :=
  let v := SMap.get {} r.outputs (inputKey fab t sw o)
  match v.key with
  | some k => mergeFrom self fab t sw o k 5 v r
  | none =>
    match r.leastKey fab t sw o with
    | some k => if r.settledAt self fab t sw o k then mergeFrom self fab t sw o k 5 { v with key := some k } r else r
    | none =>
      if !v.closed && (List.range 4).all (fun p => r.inputClosed self fab t sw p) then
        (r.emitClose self fab t sw o).setOutput fab t sw o { v with closed := true }
      else r

/-- MERGE_EMIT (R279): output `out` of a switch, or with 4 added its queues of records for fabric lanes. -/
def execMergeEmit (round stage switch out : Nat) (s : State) : Out :=
  match s.round round with
  | none => .next s
  | some r =>
    if r.state ≠ .opened ∨ 4 ≤ stage ∨ 64 ≤ switch ∨ 8 ≤ out then .next s
    else withNetwork r s (s.setRound round (mergeStep (selfIn s r) (decide (4 ≤ out)) stage switch (out % 4) r))

/-! ## Egresses (R276, R291) -/

/-- The sampling unit on a record of key x of the participant (R291). -/
def samplePart (r : Round) (x : Nat) (p : Participant) : Participant :=
  if p.read % 16 ≠ 0 then p
  else if p.sampled.length < 4096 / max 1 r.np then { p with sampled := p.sampled ++ [x] } else { p with dropped := p.dropped + 1 }

/-- The egress of a tile sends the next record of its stream, or its close. -/
def egressNext (k : Nat) (r : Round) (p : Participant) (s : State) : State :=
  let self := selfIn s r
  let sw := p.tile % 64
  let port := p.tile / 64
  match p.runs with
  | [] =>
    if p.closed && !p.closeRead then
      s.setRound k ((r.injectClose sw port).mapPart p.tile (fun p => { p with closeRead := true }))
    else s
  | (off, left, done) :: rest =>
    if left = 0 then s.setRound k (r.mapPart p.tile (fun p => { p with runs := rest }))
    else if r.linkBusy sw port || !s.budgetFree (.egress (p.tile / 48)) r.ctx 16 then s
    else engineCistern k r p.tile (off + done * r.RS) .read s fun a =>
      let x := r.toXRec (bytesAt s.cis a r.RS)
      if p.read ≠ 0 ∧ x.key < p.last then
        faultRound k 6 done (s.setRound k (r.mapPart p.tile (fun p => { p with broke := true })))
      else
        let b := r.bucket x.key
        let sent := fun (p : Participant) =>
          { samplePart r x.key p with read := p.read + 1, last := x.key
                                      runs := if left = 1 then rest else (off, left - 1, done + 1) :: rest }
        let r1 := (r.inject sw port (x, r.endpoint self x.key)).mapPart p.tile sent
        (s.setRound k { r1 with counts := SMap.set 0 r1.counts b (SMap.get 0 r1.counts b + 1) }).budgetCount
          (.egress (p.tile / 48)) r.ctx 1

/-- The flags that combining a record raised on the device it comes from: in a replicated round they go to each device's status word
(R282, R424, log 118). -/
def Round.withLaneFlags (r : Round) (fl : Flags) : Round :=
  if r.replicated then { r with fl := r.fl ||| (fl &&& (fNX ||| fUF ||| fOF ||| fNV)) } else r

/-- What the lane from span device d brings (R278, R285, R294); a record that breaks its key order or the record format is
none that a peer sends, and is left. -/
def laneNext (r : Round) (self d : Nat) (x : Option (XRec × Flags)) : Round :=
  let sw := (224 + d) % 64
  let i := r.input (inputKey false 0 sw 3)
  let fits := fun (v : XRec × Flags) => decide (v.1.key < 2 ^ r.keyBits) && v.1.pay.length == r.P
  let flagged := match x with | some v => r.withLaneFlags v.2 | none => r
  if !r.lanes.contains d || d == self || decide (r.ndev ≤ d) then r
  else if r.replicated && self != 0 then
    if d ≠ 0 ∨ r.parts.any (fun p => (r.ingress p.tile).close) ∨ !x.all fits then r
    else { flagged with ins := r.parts.foldl (fun m p =>
             let i := SMap.get {} m p.tile
             SMap.put m p.tile (match x with | some v => { i with q := i.q ++ [v.1] } | none => { i with close := true })) r.ins }
  else if i.close then r
  else match x with
    | none => r.injectClose sw 3
    | some v =>
      if r.linkBusy sw 3 || !fits v || (match i.shown with | some y => decide (v.1.key < y) | none => false) then r
      else flagged.inject sw 3 (v.1, r.endpoint self v.1.key)

/-- EGRESS_SEND (R276, R291, R294). A record that a lane brings goes where this device's map sends it (R274), which may be on to another
device while a local stream is open; after that, the lane to that device may have carried its close, and the round faults (log 100). -/
def execEgressSend (round source : Nat) (fabric : LaneInput) (s : State) : Out :=
  match s.round round with
  | none => .next s
  | some r =>
    if r.state ≠ .opened then .next s
    else match fabric with
      | .none =>
        match r.parts.find? (fun p => p.tile == source) with
        | none => .next s
        | some p => withNetwork r s (egressNext round r p s)
      | .record x fl =>
        let self := selfIn s r
        withNetwork r s (if source < 224 then s
          else if !r.replicated ∧ 224 ≤ r.endpoint self x.key ∧ x.key < 2 ^ r.keyBits ∧ r.parts.all (·.closeRead) then
            faultRound round 3 (r.bucket x.key) s
          else s.setRound round (laneNext r self (source - 224) (some (x, fl))))
      | .close => withNetwork r s (if source < 224 then s else s.setRound round (laneNext r (selfIn s r) (source - 224) none))

/-! ## Ingresses (R286) -/

/-- The record at the head of endpoint e's ingress is delivered. -/
def Round.taken (r : Round) (e : Nat) : Round :=
  let i := r.ingress e
  { r with ins := SMap.put r.ins e { i with q := i.q.tail, at_ := 0, count := i.count + 1 } }

/-- Writes the record of endpoint e at `base` in device-virtual memory, 8 bytes at a time from byte `off` on; `fin` is what
its last write makes of the round. -/
def ingressWrite (k e base rec_ : Nat) (fin : Round → Round) : Nat → Nat → State → State
  | 0, _, s => s
  | n + 1, off, s =>
    match s.round k with
    | none => s
    | some r =>
      match engineAccess (225 + 2 * min 3 (e / 48)) (256 * (e + 1) + k) r.ctx (base + off) true 8 8 (rec_ / 256 ^ off) s with
      | .wait t => t.setRound k { r with ins := SMap.put r.ins e { r.ingress e with at_ := off } }
      | .dead f => s.killFor r.ctx f
      | .fault _ => faultRound k 8 0 s
      | .data _ t => if off + 8 < r.RS then ingressWrite k e base rec_ fin n (off + 8) t else t.setRound k (fin r)

/-- The next record of a participant (R286). -/
def deliverTile (k : Nat) (r : Round) (p : Participant) (x : XRec) (s : State) : State :=
  let e := p.tile
  let well := p.well.getD (0, 0)
  if p.u = 0 ∧ (p.w + 1) * r.RS ≤ well.2 then
    engineCistern k r e (well.1 + p.w * r.RS) .write s fun a =>
      { s with cis := putBytes s.cis a r.RS (XRec.raw x) }.setRound k ((r.taken e).mapPart e (fun p => { p with w := p.w + 1 }))
  else if r.sump = 0 ∨ (p.u + 1) * r.RS > r.slice then faultRound k 9 e s
  else
    ingressWrite k e (r.sump + e * r.slice + p.u * r.RS) (XRec.raw x)
      (fun r => (r.taken e).mapPart e (fun p => { p with u := p.u + 1 })) 32 (r.ingress e).at_ s

/-- The final close of endpoint e. -/
def Round.finish (r : Round) (e : Nat) : Round :=
  { r with ins := SMap.put r.ins e { r.ingress e with final := true } }.mapPart e (fun p => { p with final := true })

/-- INGRESS_DELIVERY (R286, R294). -/
def execIngressDelivery (round endpoint : Nat) (s : State) : Out :=
  match s.round round with
  | none => .next s
  | some r =>
    let e := endpoint
    let i := r.ingress e
    if r.state ≠ .opened ∨ i.final then .next s
    else match s.useFns [240] (.bad 0 0) with
    | .dead fn => .next (s.killFor r.ctx fn)
    | .wait => .next s
    | _ =>
    if 224 ≤ e then
      let d := e - 224
      if !r.lanes.contains d then .next s
      else match i.q with
        | x :: _ => .next (s.setRound round { r.taken e with sentOut := r.sentOut ++ [(d, some x)] })
        | [] =>
          if i.close then
            .next (s.setRound round { r.finish e with sentOut := r.sentOut ++ [(d, none)], laneClosed := addNew d r.laneClosed })
          else .next s
    else match i.q with
      | [] => .next (if i.close then s.setRound round (r.finish e) else s)
      | x :: _ =>
        match r.parts.find? (fun p => p.tile == e) with
        | some p => .next (deliverTile round r p x s)
        | none =>
          if e < 192 then .next s
          else if (i.count + 1) * r.RS > r.msize then .next (faultRound round 9 e s)
          else .next (ingressWrite round e (r.mbase + (e - 192) * r.msize + i.count * r.RS) (XRec.raw x) (fun r => r.taken e) 32 i.at_ s)

/-! ## COMPLETE, lanes, notices -/

/-- ROUND_COMPLETE (R266, R290): every endpoint has had its final close; NOTIFY waits for a credit if it must, whatever becomes of
the round (R61). -/
def execRoundComplete (round : Nat) (s : State) : Out :=
  match s.round round with
  | none => .next s
  | some r =>
    if r.state ≠ .opened ∨ !(r.targets (selfIn s r)).all (fun e => (r.ingress e).final) then .next s
    else if r.notify = noTask then .next (s.setRound round { r with state := .complete })
    else match s.decrement r.ctx r.notify with
      | some t => .next (t.setRound round { r with state := .complete })
      | none => .next { s.setRound round { r with state := .complete } with owed := s.owed ++ [(r.ctx, r.notify)] }

/-- LANE_OPENING (R294): the peer's round of the same RID is OPEN, and its descriptor fields are compared with this one's. A lane that found
no path at OPEN stays held (log 103). -/
def execLaneOpening (round dev : Nat) (peer : LaneDesc) (s : State) : Out :=
  match s.round round with
  | none => .next s
  | some r =>
    if r.state ≠ .opened ∨ r.lanes.contains dev ∨ r.ndev ≤ dev ∨ dev = selfIn s r ∨ !r.via.any (·.1 == dev) then .next s
    else if peer = { group := r.group, flags := r.flags, psz := r.d 48 8, comb := r.comb, ndev := r.ndev } then
      .next (s.setRound round { r with lanes := r.lanes ++ [dev] })
    else .next (faultRound round 4 dev s)

/-- FAULT_NOTICE (R294). -/
def execFaultNotice (round dev : Nat) (s : State) : Out := .next (faultRound round 0x0A dev s)

end Sys2Proof.Machine
end

