-- ==== Sys2Proof/Machine/Dispatch.lean ====
section
/-! DEFINITION. One arm per constructor of `Instr`: the direct call of its meaning. -/

namespace Sys2Proof.Machine
open Sys2Proof

/-- What each step of the part does. -/
def exec (i : Instr) (s : State) : Host.Outcome State Fault Refusal :=
  match i with
  | .add x => Sys2Proof.Machine.execAdd x s
  | .sub x => Sys2Proof.Machine.execSub x s
  | .adds x => Sys2Proof.Machine.execAdds x s
  | .addsu x => Sys2Proof.Machine.execAddsu x s
  | .subs x => Sys2Proof.Machine.execSubs x s
  | .subsu x => Sys2Proof.Machine.execSubsu x s
  | .mul x => Sys2Proof.Machine.execMul x s
  | .mulh x => Sys2Proof.Machine.execMulh x s
  | .mulhu x => Sys2Proof.Machine.execMulhu x s
  | .mac x => Sys2Proof.Machine.execMac x s
  | .div x => Sys2Proof.Machine.execDiv x s
  | .divu x => Sys2Proof.Machine.execDivu x s
  | .rem x => Sys2Proof.Machine.execRem x s
  | .remu x => Sys2Proof.Machine.execRemu x s
  | .min x => Sys2Proof.Machine.execMin x s
  | .minu x => Sys2Proof.Machine.execMinu x s
  | .max x => Sys2Proof.Machine.execMax x s
  | .maxu x => Sys2Proof.Machine.execMaxu x s
  | .abs x => Sys2Proof.Machine.execAbs x s
  | .neg x => Sys2Proof.Machine.execNeg x s
  | .wadd x => Sys2Proof.Machine.execWadd x s
  | .waddu x => Sys2Proof.Machine.execWaddu x s
  | .wmul x => Sys2Proof.Machine.execWmul x s
  | .wmulu x => Sys2Proof.Machine.execWmulu x s
  | .wmac x => Sys2Proof.Machine.execWmac x s
  | .wmacu x => Sys2Proof.Machine.execWmacu x s
  | .narrow x => Sys2Proof.Machine.execNarrow x s
  | .narrowu x => Sys2Proof.Machine.execNarrowu x s
  | .and x => Sys2Proof.Machine.execAnd x s
  | .or x => Sys2Proof.Machine.execOr x s
  | .xor x => Sys2Proof.Machine.execXor x s
  | .andn x => Sys2Proof.Machine.execAndn x s
  | .sll x => Sys2Proof.Machine.execSll x s
  | .srl x => Sys2Proof.Machine.execSrl x s
  | .sra x => Sys2Proof.Machine.execSra x s
  | .rotr x => Sys2Proof.Machine.execRotr x s
  | .popc x => Sys2Proof.Machine.execPopc x s
  | .clz x => Sys2Proof.Machine.execClz x s
  | .cmpeq x => Sys2Proof.Machine.execCmpeq x s
  | .cmpne x => Sys2Proof.Machine.execCmpne x s
  | .cmplt x => Sys2Proof.Machine.execCmplt x s
  | .cmpltu x => Sys2Proof.Machine.execCmpltu x s
  | .cmple x => Sys2Proof.Machine.execCmple x s
  | .cmpleu x => Sys2Proof.Machine.execCmpleu x s
  | .sel x => Sys2Proof.Machine.execSel x s
  | .mov x => Sys2Proof.Machine.execMov x s
  | .sext x => Sys2Proof.Machine.execSext x s
  | .zext x => Sys2Proof.Machine.execZext x s
  | .fadd x => Sys2Proof.Machine.execFadd x s
  | .fsub x => Sys2Proof.Machine.execFsub x s
  | .fmul x => Sys2Proof.Machine.execFmul x s
  | .fma x => Sys2Proof.Machine.execFma x s
  | .fms x => Sys2Proof.Machine.execFms x s
  | .fnma x => Sys2Proof.Machine.execFnma x s
  | .fdiv x => Sys2Proof.Machine.execFdiv x s
  | .fsqrt x => Sys2Proof.Machine.execFsqrt x s
  | .frsq x => Sys2Proof.Machine.execFrsq x s
  | .fexp2 x => Sys2Proof.Machine.execFexp2 x s
  | .flog2 x => Sys2Proof.Machine.execFlog2 x s
  | .fmin x => Sys2Proof.Machine.execFmin x s
  | .fmax x => Sys2Proof.Machine.execFmax x s
  | .fcmpeq x => Sys2Proof.Machine.execFcmpeq x s
  | .fcmplt x => Sys2Proof.Machine.execFcmplt x s
  | .fcmple x => Sys2Proof.Machine.execFcmple x s
  | .fcvt x => Sys2Proof.Machine.execFcvt x s
  | .fcvti x => Sys2Proof.Machine.execFcvti x s
  | .fcvtf x => Sys2Proof.Machine.execFcvtf x s
  | .fabs x => Sys2Proof.Machine.execFabs x s
  | .fneg x => Sys2Proof.Machine.execFneg x s
  | .fclass x => Sys2Proof.Machine.execFclass x s
  | .rsum x => Sys2Proof.Machine.execRsum x s
  | .rmin x => Sys2Proof.Machine.execRmin x s
  | .rminu x => Sys2Proof.Machine.execRminu x s
  | .rmax x => Sys2Proof.Machine.execRmax x s
  | .rmaxu x => Sys2Proof.Machine.execRmaxu x s
  | .rand x => Sys2Proof.Machine.execRand x s
  | .ror x => Sys2Proof.Machine.execRor x s
  | .rxor x => Sys2Proof.Machine.execRxor x s
  | .frsum x => Sys2Proof.Machine.execFrsum x s
  | .frmin x => Sys2Proof.Machine.execFrmin x s
  | .frmax x => Sys2Proof.Machine.execFrmax x s
  | .scan x => Sys2Proof.Machine.execScan x s
  | .fscan x => Sys2Proof.Machine.execFscan x s
  | .compress x => Sys2Proof.Machine.execCompress x s
  | .expand x => Sys2Proof.Machine.execExpand x s
  | .nzscan x => Sys2Proof.Machine.execNzscan x s
  | .iota x => Sys2Proof.Machine.execIota x s
  | .slideup x => Sys2Proof.Machine.execSlideup x s
  | .slidedn x => Sys2Proof.Machine.execSlidedn x s
  | .perm x => Sys2Proof.Machine.execPerm x s
  | .mlogAnd x => Sys2Proof.Machine.execMlogAnd x s
  | .mlogOr x => Sys2Proof.Machine.execMlogOr x s
  | .mlogXor x => Sys2Proof.Machine.execMlogXor x s
  | .mlogAndn x => Sys2Proof.Machine.execMlogAndn x s
  | .mlogNot x => Sys2Proof.Machine.execMlogNot x s
  | .mlogCopy x => Sys2Proof.Machine.execMlogCopy x s
  | .mlogSet d => Sys2Proof.Machine.execMlogSet d s
  | .mlogClr d => Sys2Proof.Machine.execMlogClr d s
  | .mcnt x => Sys2Proof.Machine.execMcnt x s
  | .mfirst x => Sys2Proof.Machine.execMfirst x s
  | .mfrom x => Sys2Proof.Machine.execMfrom x s
  | .mto x => Sys2Proof.Machine.execMto x s
  | .ld x => Sys2Proof.Machine.execLd x s
  | .st x => Sys2Proof.Machine.execSt x s
  | .ldq x => Sys2Proof.Machine.execLdq x s
  | .stq x => Sys2Proof.Machine.execStq x s
  | .tld x => Sys2Proof.Machine.execTld x s
  | .tst x => Sys2Proof.Machine.execTst x s
  | .aadd x => Sys2Proof.Machine.execAadd x s
  | .afadd x => Sys2Proof.Machine.execAfadd x s
  | .amax x => Sys2Proof.Machine.execAmax x s
  | .amin x => Sys2Proof.Machine.execAmin x s
  | .aswap x => Sys2Proof.Machine.execAswap x s
  | .acas x => Sys2Proof.Machine.execAcas x s
  | .acq x => Sys2Proof.Machine.execAcq x s
  | .rel x => Sys2Proof.Machine.execRel x s
  | .fence scope => Sys2Proof.Machine.execFence scope s
  | .qfence x => Sys2Proof.Machine.execQfence x s
  | .bind x => Sys2Proof.Machine.execBind x s
  | .unbind x => Sys2Proof.Machine.execUnbind x s
  | .gbar x => Sys2Proof.Machine.execGbar x s
  | .br x => Sys2Proof.Machine.execBr x s
  | .brm x => Sys2Proof.Machine.execBrm x s
  | .brs x => Sys2Proof.Machine.execBrs x s
  | .jal x => Sys2Proof.Machine.execJal x s
  | .jalr x => Sys2Proof.Machine.execJalr x s
  | .li x => Sys2Proof.Machine.execLi x s
  | .lis x => Sys2Proof.Machine.execLis x s
  | .setvl x => Sys2Proof.Machine.execSetvl x s
  | .convoy => Sys2Proof.Machine.execConvoy s
  | .mldb x => Sys2Proof.Machine.execMldb x s
  | .mldbI8 x => Sys2Proof.Machine.execMldbI8 x s
  | .mmo x => Sys2Proof.Machine.execMmo x s
  | .mmf x => Sys2Proof.Machine.execMmf x s
  | .mmi x => Sys2Proof.Machine.execMmi x s
  | .mrd x => Sys2Proof.Machine.execMrd x s
  | .mclr x => Sys2Proof.Machine.execMclr x s
  | .mclaim x => Sys2Proof.Machine.execMclaim x s
  | .mfree x => Sys2Proof.Machine.execMfree x s
  | .viewld x => Sys2Proof.Machine.execViewld x s
  | .viewst x => Sys2Proof.Machine.execViewst x s
  | .viewset x => Sys2Proof.Machine.execViewset x s
  | .pgoOpen x => Sys2Proof.Machine.execPgoOpen x s
  | .pgoTail x => Sys2Proof.Machine.execPgoTail x s
  | .pbind x => Sys2Proof.Machine.execPbind x s
  | .punbind k => Sys2Proof.Machine.execPunbind k s
  | .prel x => Sys2Proof.Machine.execPrel x s
  | .pwait x => Sys2Proof.Machine.execPwait x s
  | .pstat x => Sys2Proof.Machine.execPstat x s
  | .phalt x => Sys2Proof.Machine.execPhalt x s
  | .xopen x => Sys2Proof.Machine.execXopen x s
  | .xsort x => Sys2Proof.Machine.execXsort x s
  | .xsend x => Sys2Proof.Machine.execXsend x s
  | .xclose x => Sys2Proof.Machine.execXclose x s
  | .xrecv x => Sys2Proof.Machine.execXrecv x s
  | .xsplit x => Sys2Proof.Machine.execXsplit x s
  | .xsamp x => Sys2Proof.Machine.execXsamp x s
  | .xrbal x => Sys2Proof.Machine.execXrbal x s
  | .xwait x => Sys2Proof.Machine.execXwait x s
  | .xdone x => Sys2Proof.Machine.execXdone x s
  | .mfcr x => Sys2Proof.Machine.execMfcr x s
  | .mtcr x => Sys2Proof.Machine.execMtcr x s
  | .ecall x => Sys2Proof.Machine.execEcall x s
  | .tret => Sys2Proof.Machine.execTret s
  | .taskq x => Sys2Proof.Machine.execTaskq x s
  | .taskend => Sys2Proof.Machine.execTaskend s
  | .hwmpub x => Sys2Proof.Machine.execHwmpub x s
  | .yield x => Sys2Proof.Machine.execYield x s
  | .waitf x => Sys2Proof.Machine.execWaitf x s
  | .trace x => Sys2Proof.Machine.execTrace x s
  | .bkpt b => Sys2Proof.Machine.execBkpt b s
  | .ckill x => Sys2Proof.Machine.execCkill x s
  | .savectx x => Sys2Proof.Machine.execSavectx x s
  | .elementGroup tile core => Sys2Proof.Machine.execElementGroup tile core s
  | .longLatencyProducerDone slot k => Sys2Proof.Machine.execLongLatencyProducerDone slot k s
  | .aBroadcast tile core => Sys2Proof.Machine.execABroadcast tile core s
  | .pop die => Sys2Proof.Machine.execPop die s
  | .creditFreed ctx => Sys2Proof.Machine.execCreditFreed ctx s
  | .slotBindWrite slot v => Sys2Proof.Machine.execSlotBindWrite slot v s
  | .errClear slot => Sys2Proof.Machine.execErrClear slot s
  | .lpart slot => Sys2Proof.Machine.execLpart slot s
  | .maxvl slot => Sys2Proof.Machine.execMaxvl slot s
  | .ptbase slot => Sys2Proof.Machine.execPtbase slot s
  | .registerWrite addr v => Sys2Proof.Machine.execRegisterWrite addr v s
  | .windowGrant window v => Sys2Proof.Machine.execWindowGrant window v s
  | .windowRevoke window v => Sys2Proof.Machine.execWindowRevoke window v s
  | .windowScrubEnd window => Sys2Proof.Machine.execWindowScrubEnd window s
  | .tableGrant tile v => Sys2Proof.Machine.execTableGrant tile v s
  | .tableZeroingEnd tile => Sys2Proof.Machine.execTableZeroingEnd tile s
  | .go v => Sys2Proof.Machine.execGo v s
  | .invalidationEnd => Sys2Proof.Machine.execInvalidationEnd s
  | .walk unit ctx va => Sys2Proof.Machine.execWalk unit ctx va s
  | .kill ctx => Sys2Proof.Machine.execKill ctx s
  | .contextEnd ctx => Sys2Proof.Machine.execContextEnd ctx s
  | .pre slot => Sys2Proof.Machine.execPre slot s
  | .halt slot => Sys2Proof.Machine.execHalt slot s
  | .resume slot => Sys2Proof.Machine.execResume slot s
  | .stepSlot slot => Sys2Proof.Machine.execStepSlot slot s
  | .restore slot => Sys2Proof.Machine.execRestore slot s
  | .drop slot => Sys2Proof.Machine.execDrop slot s
  | .preEmption slot => Sys2Proof.Machine.execPreEmption slot s
  | .timeSliceExpiry slot => Sys2Proof.Machine.execTimeSliceExpiry slot s
  | .abandonment slot => Sys2Proof.Machine.execAbandonment slot s
  | .debugData write v => Sys2Proof.Machine.execDebugData write v s
  | .portGrant pump => Sys2Proof.Machine.execPortGrant pump s
  | .copy chan => Sys2Proof.Machine.execCopy chan s
  | .gather chan => Sys2Proof.Machine.execGather chan s
  | .scatter chan => Sys2Proof.Machine.execScatter chan s
  | .requant chan => Sys2Proof.Machine.execRequant chan s
  | .convert chan => Sys2Proof.Machine.execConvert chan s
  | .waitseq chan => Sys2Proof.Machine.execWaitseq chan s
  | .signalDecrement chan => Sys2Proof.Machine.execSignalDecrement chan s
  | .signalStore chan => Sys2Proof.Machine.execSignalStore chan s
  | .loopCmd chan => Sys2Proof.Machine.execLoopCmd chan s
  | .jumpCmd chan => Sys2Proof.Machine.execJumpCmd chan s
  | .endCmd chan => Sys2Proof.Machine.execEndCmd chan s
  | .commandComplete chan => Sys2Proof.Machine.execCommandComplete chan s
  | .arrival chan => Sys2Proof.Machine.execArrival chan s
  | .ticketCall t => Sys2Proof.Machine.execTicketCall t s
  | .ticketTimeout t => Sys2Proof.Machine.execTicketTimeout t s
  | .budgetPeriod arbiter ctx => Sys2Proof.Machine.execBudgetPeriod arbiter ctx s
  | .roundOpen round => Sys2Proof.Machine.execRoundOpen round s
  | .egressSend round source fabric => Sys2Proof.Machine.execEgressSend round source fabric s
  | .mergeEmit round stage switch_ out => Sys2Proof.Machine.execMergeEmit round stage switch_ out s
  | .ingressDelivery round endpoint => Sys2Proof.Machine.execIngressDelivery round endpoint s
  | .roundComplete round => Sys2Proof.Machine.execRoundComplete round s
  | .laneOpening round dev peer => Sys2Proof.Machine.execLaneOpening round dev peer s
  | .faultNotice round dev => Sys2Proof.Machine.execFaultNotice round dev s
  | .remoteRequest reqs => Sys2Proof.Machine.execRemoteRequest reqs s
  | .remoteReply reply => Sys2Proof.Machine.execRemoteReply reply s
  | .resend index => Sys2Proof.Machine.execResend index s
  | .filterFree index => Sys2Proof.Machine.execFilterFree index s
  | .linkFailed link loc => Sys2Proof.Machine.execLinkFailed link loc s
  | .htail v => Sys2Proof.Machine.execHtail v s
  | .hack v => Sys2Proof.Machine.execHack v s
  | .launch => Sys2Proof.Machine.execLaunch s
  | .endContext => Sys2Proof.Machine.execEndContext s
  | .completionRecord => Sys2Proof.Machine.execCompletionRecord s
  | .completionRingWord v => Sys2Proof.Machine.execCompletionRingWord v s
  | .hbmWindow off bytes => Sys2Proof.Machine.execHbmWindow off bytes s
  | .attestationNonce nonce => Sys2Proof.Machine.execAttestationNonce nonce s
  | .powerOn image epoch => Sys2Proof.Machine.execPowerOn image epoch s
  | .selfTestEnd function passed => Sys2Proof.Machine.execSelfTestEnd function passed s
  | .failedWrite function => Sys2Proof.Machine.execFailedWrite function s
  | .clockStep die m => Sys2Proof.Machine.execClockStep die m s
  | .thermalReset => Sys2Proof.Machine.execThermalReset s
  | .softError place lasting loc hart => Sys2Proof.Machine.execSoftError place lasting loc hart s
  | .flush unit => Sys2Proof.Machine.execFlush unit s
  | .haltStop slot => Sys2Proof.Machine.execHaltStop slot s
  | .sliceReload slot => Sys2Proof.Machine.execSliceReload slot s
  | .macroReplay slot mac => Sys2Proof.Machine.execMacroReplay slot mac s
  | .storePerformed slot k => Sys2Proof.Machine.execStorePerformed slot k s
  | .ticketRequest requests => Sys2Proof.Machine.execTicketRequest requests s
  | .yieldReturn slot => Sys2Proof.Machine.execYieldReturn slot s

end Sys2Proof.Machine
end

