-- ==== Sys2Proof/Machine/Queue.lean ====
section
/-! DEFINITION. The dispatch queue of a core (R147, R148): the instructions that a core issues ahead of those that have not begun,
the scalar results that are held until every earlier instruction has settled (R344), and the turns of the harts while the queue is full. -/

namespace Sys2Proof.Machine
open Sys2Proof

/-- Does a scalar instruction read and write nothing but the scalar side of its hart, so that it may run ahead of the instructions in the
queue with its result held (R147, R344)? -/
def runsAhead : Instr → Bool
  | .add x | .sub x | .adds x | .addsu x | .subs x | .subsu x | .mul x | .mulh x | .mulhu x | .mac x | .div x | .divu x
  | .rem x | .remu x | .min x | .minu x | .max x | .maxu x | .wadd x | .waddu x | .wmul x | .wmulu x | .wmac x
  | .wmacu x | .narrow x | .narrowu x | .and x | .or x | .xor x | .andn x | .sll x | .srl x | .sra x | .rotr x
  | .cmpeq x | .cmpne x | .cmplt x | .cmpltu x | .cmple x | .cmpleu x | .fadd x | .fsub x | .fmul x | .fma x
  | .fms x | .fnma x | .fdiv x | .fmin x | .fmax x | .fcmpeq x | .fcmplt x | .fcmple x => x.f == 3
  | .abs x | .neg x | .popc x | .clz x | .fsqrt x | .frsq x | .fexp2 x | .flog2 x | .fabs x | .fneg x | .fclass x => x.f == 3
  | .mov x => x.f == 3
  | .sext x | .zext x | .fcvt x | .fcvti x | .fcvtf x => x.f == 3
  | .li _ | .lis _ | .jal _ | .jalr _ | .br _ => true
  | .mfcr x => decide (x.c.toNat < 0x100) && !waitsFor x.c.toNat && x.c != 0x010 && x.c != 0x014 && x.c != 0x015
  | .mtcr x => decide (x.c.toNat < 0x100) && !waitsFor x.c.toNat
  | .waitf x => x.b == 0
  | _ => false

/-- The state in which the scalar side of slot k stands with hart h: no word in progress and nothing queued. -/
def sideAt (s : State) (k : Nat) (h : Hart) : State :=
  { s with cur := k }.setHartOf k { h with word := none, queue := [], want := none }

/-- What an instruction leaves of the hart when it retires on the scalar side: none while it waits or if it traps. -/
def retired? (h : Hart) (k : Nat) : Out → Option Hart
  | .next t =>
    let g := (t.slot k).hart
    if g.instret = h.instret + 1 ∧ g.tlvl = h.tlvl then some g else none
  | _ => none

/-- The scalar side of a hart after an instruction that has been issued: behind one of the dispatch queue it goes on with the
next word and finds the destination empty (R147); a scalar instruction has run. -/
def after (s : State) (k : Nat) (h : Hart) (q : Queued) : Hart :=
  match decode q.word with
  | .error _ => h
  | .ok i =>
    if q.vec then
      { h with pc := h.pc + 4, eidx := 0, instret := h.instret + 1, sFE := h.sFE &&& ~~~ lateDest q.detm i }
    else (retired? h k (exec i (sideAt s k h))).getD h

/-- The scalar side of slot k's hart, which has issued everything in its queue. -/
def frontHart (s : State) (k : Nat) : Hart := (s.slot k).hart.queue.foldl (after s k) (s.slot k).hart

/-- The entries of the dispatch queue that slot k holds (R147): an instruction that has begun has left it. -/
def entriesOf (s : State) (k : Nat) : Nat :=
  let h := (s.slot k).hart
  (h.queue.filter (·.vec)).length - (if h.word.isSome && h.queue.head?.any (·.vec) then 1 else 0)

/-- The four slots of slot k's core (R2). -/
def coreSlots (k : Nat) : List Nat := (List.range 4).map (fun j => k / 4 * 4 + j)

/-- May slot k take an entry of its core's dispatch queue: there are 16, and the harts that have found it full come first, in the
order of their turns (R147)? -/
def entryFree (s : State) (k : Nat) : Bool :=
  let turn := fun j => ((s.slot j).hart).want
  let first := fun j => match turn j, turn k with
    | some a, some b => decide (a < b)
    | some _, none => true
    | none, _ => false
  decide (((coreSlots k).map (entriesOf s)).sum < 16) && (coreSlots k).all (fun j => !first j)

/-- Slot k has found the dispatch queue full: it waits for its turn behind the harts of its core that wait already. -/
def askEntry (s : State) (k : Nat) : State :=
  let h := (s.slot k).hart
  if h.want.isSome then s
  else s.setHartOf k { h with want := some ((coreSlots k).foldl (fun n j => match (s.slot j).hart.want with
    | some m => max n (m + 1)
    | none => n) 0) }

/-- Puts an instruction at the end of slot k's queue. -/
def pushQueue (s : State) (k : Nat) (q : Queued) : State :=
  let h := (s.slot k).hart
  s.setHartOf k { h with queue := h.queue ++ [q], want := if q.vec then none else h.want }

/-- The trap of an instruction on the scalar side at h, as it would be at level 0: its cause and value. -/
def sideTrap (s : State) (k : Nat) (h : Hart) (i : Instr) : Option (BitVec 8 × Word) :=
  match exec i (sideAt s k { h with tlvl := 0 }) with
  | .next t =>
    let g := (t.slot k).hart
    if g.tlvl = 1 then some (g.bank1.cause, g.bank1.val) else none
  | _ => none

/-- What the core issues where the instruction traps by an empty register, or by a check that comes before its operands are read (R38, R92):
the entry with that register as its trap, or as it stands. -/
def pushTrap (s : State) (k : Nat) (h : Hart) (i : Instr) (q : Queued) : State :=
  match sideTrap s k h i with
  | some (c, v) => if c = 0x03 then pushQueue s k { q with trap := some (BitVec.ofNat 6 v.toNat) } else if q.vec then pushQueue s k q else s
  | none => s

/-- The entry of the word w, whose instruction i is issued for slot k at h under DETM d (R401), with the tails that a QFENCE finds (R327). -/
def entryOf (s : State) (k : Nat) (h : Hart) (w : IWord) (d : Bool) (i : Instr) : Queued :=
  { word := w, vec := (dispatchReads i).isSome, detm := d
    tails := match i with | .qfence x => some (queueTails (sideAt s k h) h x) | _ => none }

/-- The core issues instruction i, the word w, for slot k, whose scalar side stands at h (R147): an instruction of the dispatch queue enters
it when its operands are full, its destination is full and there is an entry; an empty operand of policy 1 is its
trap. A scalar instruction runs ahead with its result held. -/
def issueInstr (s : State) (k : Nat) (h : Hart) (w : IWord) (i : Instr) : State :=
  let d := (s.ctx (s.ctxOf k)).detm
  let q := entryOf s k h w d i
  match dispatchReads i with
  | some rs =>
    if !entryFree s k then askEntry s k
    else match firstEmpty h rs with
      | some (_, p) => if p then pushTrap s k h i q else s
      | none => if (lateDest d i &&& ~~~ h.sFE) ≠ 0 then s else pushQueue s k q
  | none =>
    if !runsAhead i then s
    else if (retired? h k (exec i (sideAt s k h))).isSome then pushQueue s k q
    else pushTrap s k h i q

/-- Must the core issue nothing behind the entry: one that has trapped, or that writes a scalar before its hart goes on (R148)? -/
def closesQueue (q : Queued) : Bool :=
  q.trap.isSome || (match decode q.word with | .ok i => writesAtOnce i | .error _ => false)

/-- The core issues the next instruction of slot k, ahead of what the hart has begun; nothing while the hart holds 16 results (R344). An
instruction in progress stands in the queue as the oldest once it has passed dispatch; before, and while one of the scalar side waits, the
hart issues nothing (R147–R149, R156–R162). -/
def issueNext (k : Nat) (s : State) : State :=
  let v := s.slot k
  if v.hart.queue.any closesQueue ∨ (v.hart.queue.filter (fun q => !q.vec)).length ≥ 16 then s
  else match v.hart.queue, v.hart.word with
  | [], some (w, d) =>
    (match decode w with
    | .ok i => if pastDispatch v.hart d i then pushQueue s k { entryOf s k v.hart w d i with tails := none } else s
    | .error _ => s)
  | _, _ =>
    let h := frontHart s k
    match fetchWord (sideAt s k h) with
    | .stop _ => s
    | .word w _ =>
      match decode w with
      | .error _ => s
      | .ok i => if i.wellFormed then issueInstr s k h w i else s

/-- Is the instruction a load that may read before an earlier instruction of its hart has ended (log 108)? -/
def readsEarly (q : Queued) : Bool :=
  match decode q.word with
  | .ok (.ld _) | .ok (.ldq _) => q.trap.isNone
  | _ => false

/-- Has slot k a load in its queue? -/
def loadsQueued (s : State) (k : Nat) : Bool := (s.slot k).hart.queue.any readsEarly

/-- Does the instruction refresh the fetch of its hart as it ends, while others are queued behind it (R17, R316)? -/
def refetches : Instr → Bool
  | .fence _ | .unbind _ | .xopen _ | .xsend _ => true
  | _ => false

/-- The entries of slot k's queue, from where its scalar side stands at h, up to the first whose word the hart would not fetch now. -/
def sameWords (s : State) (k : Nat) : Hart → List Queued → List Queued
  | _, [] => []
  | h, q :: l =>
    match fetchWord (sideAt s k h) with
    | .word w _ => if w = q.word then q :: sameWords s k (after s k h q) l else []
    | .stop _ => []

/-- The instruction i of slot k has ended, the oldest of its queue if that has any. Behind one that refreshes the fetch, words that have
changed are fetched again; without a load left in the queue, nothing read early is kept. -/
def popQueue (s : State) (k : Nat) (i : Option Instr) : State :=
  let h := (s.slot k).hart
  let l := h.queue.drop 1
  let t := s.setHartOf k { h with queue := if i.any refetches then sameWords s k h l else l }
  if loadsQueued t k then t else t.dropEarly k

end Sys2Proof.Machine
end

