-- ==== Sys2Proof/Machine/Run.lean ====
section
/-! DEFINITION. What a step does around `exec` (log 1): fetch, decode and execution of one instruction of a hart (R15, R16, R38),
the halt after a STEP (R356), the events that an empty agenda leaves to the slot, and the host's own stores. -/

namespace Sys2Proof.Machine
open Sys2Proof

/-- Does the instruction leave for its target: a taken branch or a jump (R405)? -/
def transfers (i : Instr) (s : State) : Bool :=
  match i with
  | .br x => brTaken x s
  | .brm x => brmTaken x s
  | .brs x => brsTaken x s
  | .jal _ | .jalr _ => true
  | _ => false

/-- The word of an instruction that waits stays that of the instruction in progress (R17), with the DETM under which it was issued (R401): the hart
of slot `old.cur` still runs and has neither retired nor trapped. An instruction that did not come out of the queue has had its turn there. -/
def keepWord (old : State) (w : Option IWord) (i : Option Instr) (s : State) : State :=
  let h := (old.slot old.cur).hart
  let v := s.slot old.cur
  let waits := (v.state == .running || v.state == .waiting) && v.hart.pc == h.pc && v.hart.instret == h.instret &&
    v.hart.tlvl == h.tlvl
  let want := if h.queue.isEmpty then none else v.hart.want
  if waits then s.setHartOf old.cur { v.hart with word := w.map (fun w => (w, old.detm)), want := want }
  else popQueue (s.setHartOf old.cur { v.hart with word := none, mid := false, want := want }) old.cur i

/-- What follows the execution of one instruction by the hart of slot `old.cur`, whose word was w: STEP, then trace records. -/
def afterInstr (old : State) (w : Option IWord) (i : Option Instr) (taken : Bool) : Out → Out
  | .next s => .next (State.traced old old.cur i taken (stepHalt old (keepWord old w i s)))
  | .fault f => .fault f
  | .refused r => .refused r

/-- Must the instruction wait for an entry of its core's dispatch queue: it has none, and the queue is full (R147, R148)? -/
def needsEntry (i : Instr) (s : State) : Bool :=
  (dispatchReads i).isSome && s.hart.queue.isEmpty && s.hart.word.isNone && !entryFree s s.cur

/-- Executes the word fetched: decoding has no gap, and a word that no row has traps with cause 0x01 (R37, R38). -/
def runWord (w : IWord) (s : State) : Out :=
  match decode w with
  | .ok i => if needsEntry i s then .next (askEntry s s.cur) else afterInstr s (some w) (some i) (transfers i s) (exec i s)
  | .error _ => afterInstr s none none false (Res.trap 0x01 s.hart.eidx.toNat (w.zeroExtend 64) 0 s).out

/-- Can the hart of slot k take its next instruction? Once a pre-emption or a halt is requested it dispatches no more, and only goes
on inside the instruction it is in (R345, R349, R351). -/
def canRun (s : State) (k : Nat) : Bool :=
  let v := s.slot k
  (v.state == .running || v.state == .waiting) && !v.yielded && !v.ending && v.hart.pendCr.isNone &&
  (!v.stopDue || insideInstr s k)

/-- Trace records of what happens other than by an instruction (R405). -/
def tracedOut (old : State) : Out → Out
  | .next s => .next (State.traced old old.cur none false s)
  | .fault f => .fault f
  | .refused r => .refused r

/-- One instruction of the hart of slot `cur` (R408: its tile must be READY; a FAILED tile is a lasting error). -/
def runHart (s : State) : Out :=
  let t := State.tileOf s.cur
  if !canRun s s.cur then .next s
  else if s.fnFailed t then tracedOut s (.next (s.killLasting s.cur t))
  else if !s.fnReady t then .next s
  else match s.hart.queue.head?.bind (·.trap) with
    | some r => afterInstr s none none false (Res.trap 0x03 0 (BitVec.ofNat 64 r.toNat) 0 s).out
    | none =>
      match fetchWord s with
      | .word w u => runWord w u
      | .stop r => afterInstr s none none false r.out

/-- The lowest macro whose replay has not ended. -/
def nextReplay (h : Hart) : Nat := if h.replaying.getLsbD 0 then 0 else if h.replaying.getLsbD 1 then 1 else if h.replaying.getLsbD 2 then 2 else 3

/-- What slot `cur` does while the agenda is empty: the events of its own that are due come before its next instruction. -/
def idle (s : State) : Out :=
  let k := s.cur
  let v := s.slot k
  if v.reload.isSome then tracedOut s (execSliceReload k s)
  else if v.hart.replaying ≠ 0 then tracedOut s (execMacroReplay k (nextReplay v.hart) s)
  else if v.halt && stopPoint s k then tracedOut s (execHaltStop k s)
  else if v.pre && stopPoint s k then tracedOut s (execPreEmption k s)
  else if v.yielded then execYieldReturn k s
  else if v.ending then tracedOut s (.next (finishTask k s))
  else match v.hart.pendCr with
    | some (n, _) => tracedOut s (if n = 0x100 then execLpart k s else if n = 0x101 then execMaxvl k s else execPtbase k s)
    | none => runHart s

/-- An event of the agenda: only the rows that have no instruction word happen by themselves. -/
def runEvent (e : Instr) (s : State) : Out := if (encode e).isSome then .next s else tracedOut s (exec e s)

/-- The host's own store to its memory (R313). -/
def hostStore (addr : Nat) (bytes : List Byte) (s : State) : State :=
  { s with host := bytes.zipIdx.foldl (fun m p => SMap.set 0 m (addr + p.2) p.1) s.host }

/-- The 64 bytes around a location. -/
def lineOf : Loc → Loc
  | .hbm a => .hbm (a / 64 * 64)
  | .cis a => .cis (a / 64 * 64)
  | .host a => .host (a / 64 * 64)
  | .peer d a => .peer d (a / 64 * 64)

/-- May the holder hold a copy of the location (R313, R17): device-virtual memory of this device or the host, or the cistern of
another tile for a hart's own buffer? A load that its core has dispatched may read either early (log 108). -/
def mayHold (s : State) : Holder → Loc → Bool
  | .early _, .peer _ _ => false
  | .early k, _ => loadsQueued s k
  | .hart k, .cis a => decide (a / 2 ^ 21 ≠ State.tileOf k)
  | .hart _, _ | _, .cis _ | _, .peer _ _ => false
  | _, _ => true

/-- Does a copy by the holder take the place of copy c of the same bytes: its own, and where a queued load reads early, those that its hart
would read later (R314, item 2)? -/
def replacesCopy (h : Holder) (c : Copy) : Bool :=
  c.holder == h || (match h with | .early k => State.nearTile c k | _ => false)

/-- The holder makes a copy of the 64 bytes around the location, as they stand at the home (R313, R17, log 3, 4). -/
def makeCopy (h : Holder) (loc : Loc) (s : State) : State :=
  let l := lineOf loc
  if mayHold s h loc then
    { s with copies := ⟨h, l, BitVec.ofNat 512 (s.homeRead l 64)⟩ :: s.copies.filter (fun c => !(replacesCopy h c && c.loc == l)) }
  else s

/-- One move (log 1). -/
def runMove (m : Move) (s : State) : Out :=
  match m with
  | .run k => if k < Config.slots then runHart { s with cur := k } else .next s
  | .issue k => .next (if decide (k < Config.slots) && canRun s k && !(s.slot k).stopDue && s.fnReady (State.tileOf k) then issueNext k s else s)
  | .event e => runEvent e s
  | .hostStore a bs => .next (hostStore a bs s)
  | .copy h loc => .next (makeCopy h loc s)

/-- What ends every step: the channels' states and ports are brought up to date (R223, R229). -/
def settled : Out → Out
  | .next s => .next (settleChans s)
  | .fault f => .fault f
  | .refused r => .refused r

/-! ## Placing one instruction -/

/-- Page-table root of `placed`: HBM 2^39, above everything its one leaf maps. -/
def placedRoot : Nat := 2 ^ 39

/-- The address of the page-table entry that maps pc. -/
def placedEntry (pc : Nat) : Nat := placedRoot + 8 * (pc / 2 ^ 39 % 4096)

/-- The program counter where a word can be fetched: below 2^51 and aligned. -/
def placedPc (pc : Word) : Nat := pc.toNat % 2 ^ 51 / 4 * 4

/-- `s` with word w at the program counter of slot `cur` (log 16): the slot RUNNING with nothing of its own due, nothing in its core's
dispatch queue, its context resident with one level-1 leaf (R, W, X) at the root, the functions that the fetch uses READY, no copy held by its fetch, nothing on the agenda. -/
def placed (s : State) (w : IWord) : State :=
  let k := s.cur
  let v := s.slot k
  let pc := placedPc v.hart.pc
  let emptied := (coreSlots k).foldl (fun st j => st.setHartOf j { (st.slot j).hart with queue := [], want := none }) s
  let t := emptied.setSlot k
    { v with state := .running, halt := false, pre := false, step := false, yielded := false, ending := false, reload := none
             hart := { v.hart with pc := BitVec.ofNat 64 pc, replaying := 0, pendCr := none, word := none, queue := [], want := none } }
  let c := v.taskCtx
  let u := t.setCtx c { t.ctx c with res := true, ptValid := true, ptRoot := BitVec.ofNat 37 (placedRoot / 2 ^ 15) }
  let ready := fun (n : Nat) (m : SMap Func) => SMap.set {} m n { SMap.get {} m n with state := 2 }
  { u with
    agenda := []
    tlb := [{ unit := State.tileOf k, ctx := c, level := 1, vbase := pc - pc % 2 ^ 39, entry := 0x1F }]
    copies := u.copies.filter (fun c => c.holder != .fetch k)
    net := { u.net with reqs := u.net.reqs.filter (fun r => r.who != fetchWaiter k) }
    hbm := putBytes (putBytes u.hbm (placedEntry pc) 8 0x1F) (pc % 2 ^ 39) 4 w.toNat
    funcs := ready (State.tileOf k) (ready (192 + State.tileOf k / 48) (ready (State.stackFn (placedEntry pc)) (ready (State.stackFn (pc % 2 ^ 39)) u.funcs))) }

end Sys2Proof.Machine
end

