-- ==== Sys2Proof/Machine/Step.lean ====
section
/-! DEFINITION. One step of the machine: the next move of the agenda, or what slot `cur` does by itself (log 1). -/

namespace Sys2Proof.Machine
open Sys2Proof

/-- One step. -/
def step (s : State) : Host.Outcome State Fault Refusal :=
  match s.agenda with
  | [] => settled (idle s)
  | m :: rest => settled (runMove m { s with agenda := rest })

/-- `s` with the instruction word w where its next step fetches (log 16). -/
def State.withFetchWord (s : State) (_nbits w : Nat) : State := placed s (BitVec.ofNat 32 w)

end Sys2Proof.Machine
end

