-- ==== Sys2Proof/Laws/Maps.lean ====
section
/-! SUPPORT. Sparse maps: what a read gives after a write, and that every write keeps the canonical form. -/

namespace Sys2Proof.Machine.SMap

variable {α : Type}

@[simp] theorem get_nil (d : α) (k : Nat) : get d ([] : SMap α) k = d := rfl

theorem get_put (d : α) (m : SMap α) (k : Nat) (v : α) (j : Nat) :
    get d (put m k v) j = if j = k then v else get d m j := by
  induction m with
  | nil => simp [put, get]
  | cons p t ih =>
    simp only [put]
    split
    · simp [get]
    · split
      · next h => subst h; simp only [get]; split <;> rfl
      · next h => simp only [get, ih]; split <;> split <;> simp_all

theorem get_del (d : α) (m : SMap α) (k j : Nat) : get d (del m k) j = if j = k then d else get d m j := by
  induction m with
  | nil => simp [del]
  | cons p t ih =>
    simp only [del]
    split
    · next h => subst h; simp only [ih, get]; split <;> rfl
    · next h => simp only [get, ih]; split <;> split <;> simp_all

/-- Reading after a write: the value at the key, and what stood there at every other key. -/
theorem get_set [DecidableEq α] (d : α) (m : SMap α) (k : Nat) (v : α) (j : Nat) :
    get d (set d m k v) j = if j = k then v else get d m j := by
  unfold set
  split
  · next h => rw [get_del, h]
  · rw [get_put]

@[simp] theorem get_set_same [DecidableEq α] (d : α) (m : SMap α) (k : Nat) (v : α) : get d (set d m k v) k = v := by
  simp [get_set]

theorem get_set_other [DecidableEq α] (d : α) (m : SMap α) {k j : Nat} (v : α) (h : j ≠ k) :
    get d (set d m k v) j = get d m j := by simp [get_set, h]

theorem find?_put (m : SMap α) (k : Nat) (v : α) (j : Nat) :
    find? (put m k v) j = if j = k then some v else find? m j := by
  induction m with
  | nil => simp [put, find?]
  | cons p t ih =>
    simp only [put]
    split
    · simp [find?]
    · split
      · next h => subst h; simp only [find?]; split <;> rfl
      · next h => simp only [find?, ih]; split <;> split <;> simp_all

theorem find?_del (m : SMap α) (k j : Nat) : find? (del m k) j = if j = k then none else find? m j := by
  induction m with
  | nil => simp [del, find?]
  | cons p t ih =>
    simp only [del]
    split
    · next h => subst h; simp only [ih, find?]; split <;> rfl
    · next h => simp only [find?, ih]; split <;> split <;> simp_all

theorem sortedFrom_le {lo lo' : Nat} {m : SMap α} (h : sortedFrom lo m = true) (hl : lo' ≤ lo) :
    sortedFrom lo' m = true := by
  cases m with
  | nil => rfl
  | cons p t => simp only [sortedFrom, Bool.and_eq_true, decide_eq_true_eq] at h ⊢; exact ⟨by omega, h.2⟩

theorem sortedFrom_put {lo k : Nat} {m : SMap α} (v : α) (h : sortedFrom lo m = true) (hk : lo ≤ k) :
    sortedFrom lo (put m k v) = true := by
  induction m generalizing lo with
  | nil => simp [put, sortedFrom, hk]
  | cons p t ih =>
    simp only [sortedFrom, Bool.and_eq_true, decide_eq_true_eq] at h
    simp only [put]
    split
    · simp only [sortedFrom, Bool.and_eq_true, decide_eq_true_eq]; exact ⟨hk, by omega, h.2⟩
    · split
      · next hp => subst hp; simp only [sortedFrom, Bool.and_eq_true, decide_eq_true_eq]; exact ⟨hk, h.2⟩
      · simp only [sortedFrom, Bool.and_eq_true, decide_eq_true_eq]; exact ⟨h.1, ih h.2 (by omega)⟩

theorem sortedFrom_del {lo : Nat} {m : SMap α} (k : Nat) (h : sortedFrom lo m = true) : sortedFrom lo (del m k) = true := by
  induction m generalizing lo with
  | nil => rfl
  | cons p t ih =>
    simp only [sortedFrom, Bool.and_eq_true, decide_eq_true_eq] at h
    simp only [del]
    split
    · exact ih (sortedFrom_le h.2 (by omega))
    · simp only [sortedFrom, Bool.and_eq_true, decide_eq_true_eq]; exact ⟨h.1, ih h.2⟩

theorem sortedFrom_filter {lo : Nat} {m : SMap α} (f : Nat × α → Bool) (h : sortedFrom lo m = true) :
    sortedFrom lo (m.filter f) = true := by
  induction m generalizing lo with
  | nil => rfl
  | cons p t ih =>
    simp only [sortedFrom, Bool.and_eq_true, decide_eq_true_eq] at h
    simp only [List.filter_cons]
    split
    · simp only [sortedFrom, Bool.and_eq_true, decide_eq_true_eq]; exact ⟨h.1, ih h.2⟩
    · exact ih (sortedFrom_le h.2 (by omega))

theorem mem_put {m : SMap α} {k : Nat} {v : α} {p : Nat × α} (h : p ∈ put m k v) : p = (k, v) ∨ p ∈ m := by
  induction m with
  | nil => simpa [put] using h
  | cons q t ih =>
    simp only [put] at h
    split at h
    · simpa using h
    · split at h
      · simp only [List.mem_cons] at h ⊢; tauto
      · simp only [List.mem_cons] at h ⊢; rcases h with h | h
        · tauto
        · have := ih h; tauto

theorem mem_del {m : SMap α} {k : Nat} {p : Nat × α} (h : p ∈ del m k) : p ∈ m := by
  induction m with
  | nil => exact h
  | cons q t ih =>
    simp only [del] at h
    split at h
    · exact List.mem_cons_of_mem _ (ih h)
    · simp only [List.mem_cons] at h ⊢; rcases h with h | h
      · exact .inl h
      · exact .inr (ih h)

/-- A write keeps the canonical form. -/
theorem wf_set [DecidableEq α] {d : α} {m : SMap α} (k : Nat) (v : α) (h : wf d m = true) : wf d (set d m k v) = true := by
  simp only [wf, Bool.and_eq_true, List.all_eq_true, decide_eq_true_eq] at h ⊢
  unfold set
  split
  · exact ⟨sortedFrom_del k h.1, fun p hp => h.2 p (mem_del hp)⟩
  · next hv =>
    refine ⟨sortedFrom_put v h.1 (Nat.zero_le k), fun p hp => ?_⟩
    rcases mem_put hp with rfl | hp
    · exact hv
    · exact h.2 p hp

/-- Dropping entries keeps the canonical form. -/
theorem wf_filter [DecidableEq α] {d : α} {m : SMap α} (f : Nat × α → Bool) (h : wf d m = true) : wf d (m.filter f) = true := by
  simp only [wf, Bool.and_eq_true, List.all_eq_true, decide_eq_true_eq] at h ⊢
  exact ⟨sortedFrom_filter f h.1, fun p hp => h.2 p (List.mem_of_mem_filter hp)⟩

end Sys2Proof.Machine.SMap

namespace Sys2Proof.Machine

/-! ## Bytes -/

theorem wf_putBytes (m : SMap Byte) (a n v : Nat) (h : SMap.wf 0 m = true) : SMap.wf 0 (putBytes m a n v) = true := by
  induction n generalizing m a v with
  | zero => exact h
  | succ n ih => exact ih _ _ _ (SMap.wf_set _ _ h)

theorem wf_zeroBytes (m : SMap Byte) (lo n : Nat) (h : SMap.wf 0 m = true) : SMap.wf 0 (zeroBytes m lo n) = true :=
  SMap.wf_filter _ h

/-- A store of n bytes leaves every other address alone, and puts byte i of the value at a + i. -/
theorem get_putBytes (m : SMap Byte) (a n v x : Nat) :
    SMap.get 0 (putBytes m a n v) x =
      if a ≤ x ∧ x < a + n then BitVec.ofNat 8 (v / 256 ^ (x - a)) else SMap.get 0 m x := by
  induction n generalizing m a v with
  | zero => rw [if_neg (by omega)]; rfl
  | succ n ih =>
    simp only [putBytes, ih, SMap.get_set]
    by_cases hx : x = a
    · subst hx; simp
    · by_cases h : a ≤ x ∧ x < a + (n + 1)
      · rw [if_pos h, if_pos (by omega), Nat.div_div_eq_div_mul]
        congr 1
        rw [show x - a = (x - (a + 1)) + 1 by omega, Nat.pow_succ, Nat.mul_comm]
      · rw [if_neg h, if_neg (by omega), if_neg hx]

theorem bytesAt_congr (m m' : SMap Byte) (a n : Nat)
    (h : ∀ x, a ≤ x → x < a + n → SMap.get 0 m x = SMap.get 0 m' x) : bytesAt m a n = bytesAt m' a n := by
  induction n generalizing a with
  | zero => rfl
  | succ n ih =>
    simp only [bytesAt]
    rw [h a (by omega) (by omega), ih (a + 1) fun x h1 h2 => h x (by omega) (by omega)]

/-- Reading back what was stored. -/
theorem bytesAt_putBytes (m : SMap Byte) (a n v : Nat) : bytesAt (putBytes m a n v) a n = v % 256 ^ n := by
  induction n generalizing m a v with
  | zero => simp [bytesAt, Nat.mod_one]
  | succ n ih =>
    simp only [bytesAt, putBytes]
    rw [ih, get_putBytes, if_neg (by omega), SMap.get_set_same]
    rw [BitVec.toNat_ofNat, show 256 ^ (n + 1) = 256 * 256 ^ n from by rw [Nat.pow_succ, Nat.mul_comm], Nat.mod_mul,
      show (2 : Nat) ^ 8 = 256 from rfl]

end Sys2Proof.Machine
end

