-- ==== Sys2Proof/Laws/State.lean ====
section
/-! SUPPORT. The small laws of the state: one lemma per field per update, and what each accessor reads after each update. -/

namespace Sys2Proof.Machine
open Sys2Proof

/-! ## Fields of the state under the named updates -/

namespace State

@[simp] theorem setSlot_cur (s : State) (k : Nat) (v : Slot) : (s.setSlot k v).cur = s.cur := rfl
@[simp] theorem setSlot_agenda (s : State) (k : Nat) (v : Slot) : (s.setSlot k v).agenda = s.agenda := rfl
@[simp] theorem setSlot_sched (s : State) (k : Nat) (v : Slot) : (s.setSlot k v).sched = s.sched := rfl
@[simp] theorem setSlot_fresh (s : State) (k : Nat) (v : Slot) : (s.setSlot k v).fresh = s.fresh := rfl
@[simp] theorem setSlot_tiles (s : State) (k : Nat) (v : Slot) : (s.setSlot k v).tiles = s.tiles := rfl
@[simp] theorem setSlot_ctxs (s : State) (k : Nat) (v : Slot) : (s.setSlot k v).ctxs = s.ctxs := rfl
@[simp] theorem setSlot_hbm (s : State) (k : Nat) (v : Slot) : (s.setSlot k v).hbm = s.hbm := rfl
@[simp] theorem setSlot_cis (s : State) (k : Nat) (v : Slot) : (s.setSlot k v).cis = s.cis := rfl
@[simp] theorem setSlot_host (s : State) (k : Nat) (v : Slot) : (s.setSlot k v).host = s.host := rfl
@[simp] theorem setSlot_wbuf (s : State) (k : Nat) (v : Slot) : (s.setSlot k v).wbuf = s.wbuf := rfl
@[simp] theorem setSlot_copies (s : State) (k : Nat) (v : Slot) : (s.setSlot k v).copies = s.copies := rfl
@[simp] theorem setSlot_windows (s : State) (k : Nat) (v : Slot) : (s.setSlot k v).windows = s.windows := rfl
@[simp] theorem setSlot_tlb (s : State) (k : Nat) (v : Slot) : (s.setSlot k v).tlb = s.tlb := rfl
@[simp] theorem setSlot_inval (s : State) (k : Nat) (v : Slot) : (s.setSlot k v).inval = s.inval := rfl
@[simp] theorem setSlot_held (s : State) (k : Nat) (v : Slot) : (s.setSlot k v).held = s.held := rfl
@[simp] theorem setSlot_running (s : State) (k : Nat) (v : Slot) : (s.setSlot k v).running = s.running := rfl
@[simp] theorem setSlot_credits (s : State) (k : Nat) (v : Slot) : (s.setSlot k v).credits = s.credits := rfl
@[simp] theorem setSlot_marks (s : State) (k : Nat) (v : Slot) : (s.setSlot k v).marks = s.marks := rfl
@[simp] theorem setSlot_groups (s : State) (k : Nat) (v : Slot) : (s.setSlot k v).groups = s.groups := rfl
@[simp] theorem setSlot_bindings (s : State) (k : Nat) (v : Slot) : (s.setSlot k v).bindings = s.bindings := rfl
@[simp] theorem setSlot_holds (s : State) (k : Nat) (v : Slot) : (s.setSlot k v).holds = s.holds := rfl
@[simp] theorem setSlot_chans (s : State) (k : Nat) (v : Slot) : (s.setSlot k v).chans = s.chans := rfl
@[simp] theorem setSlot_int8 (s : State) (k : Nat) (v : Slot) : (s.setSlot k v).int8 = s.int8 := rfl
@[simp] theorem setSlot_cols (s : State) (k : Nat) (v : Slot) : (s.setSlot k v).cols = s.cols := rfl
@[simp] theorem setSlot_cells (s : State) (k : Nat) (v : Slot) : (s.setSlot k v).cells = s.cells := rfl
@[simp] theorem setSlot_bcast (s : State) (k : Nat) (v : Slot) : (s.setSlot k v).bcast = s.bcast := rfl
@[simp] theorem setSlot_rounds (s : State) (k : Nat) (v : Slot) : (s.setSlot k v).rounds = s.rounds := rfl
@[simp] theorem setSlot_trace (s : State) (k : Nat) (v : Slot) : (s.setSlot k v).trace = s.trace := rfl
@[simp] theorem setSlot_net (s : State) (k : Nat) (v : Slot) : (s.setSlot k v).net = s.net := rfl
@[simp] theorem setSlot_io (s : State) (k : Nat) (v : Slot) : (s.setSlot k v).io = s.io := rfl
@[simp] theorem setSlot_funcs (s : State) (k : Nat) (v : Slot) : (s.setSlot k v).funcs = s.funcs := rfl
@[simp] theorem setSlot_power (s : State) (k : Nat) (v : Slot) : (s.setSlot k v).power = s.power := rfl
@[simp] theorem setSlot_debugSlot (s : State) (k : Nat) (v : Slot) : (s.setSlot k v).debugSlot = s.debugSlot := rfl
@[simp] theorem setSlot_debugOff (s : State) (k : Nat) (v : Slot) : (s.setSlot k v).debugOff = s.debugOff := rfl
@[simp] theorem setSlot_walks (s : State) (k : Nat) (v : Slot) : (s.setSlot k v).walks = s.walks := rfl
@[simp] theorem setSlot_walked (s : State) (k : Nat) (v : Slot) : (s.setSlot k v).walked = s.walked := rfl
@[simp] theorem setSlot_owed (s : State) (k : Nat) (v : Slot) : (s.setSlot k v).owed = s.owed := rfl
@[simp] theorem setSlot_rom (s : State) (k : Nat) (v : Slot) : (s.setSlot k v).rom = s.rom := rfl

@[simp] theorem setHart_cur (s : State) (h : Hart) : (s.setHart h).cur = s.cur := rfl
@[simp] theorem setHart_agenda (s : State) (h : Hart) : (s.setHart h).agenda = s.agenda := rfl
@[simp] theorem setHart_sched (s : State) (h : Hart) : (s.setHart h).sched = s.sched := rfl
@[simp] theorem setHart_fresh (s : State) (h : Hart) : (s.setHart h).fresh = s.fresh := rfl
@[simp] theorem setHart_tiles (s : State) (h : Hart) : (s.setHart h).tiles = s.tiles := rfl
@[simp] theorem setHart_ctxs (s : State) (h : Hart) : (s.setHart h).ctxs = s.ctxs := rfl
@[simp] theorem setHart_hbm (s : State) (h : Hart) : (s.setHart h).hbm = s.hbm := rfl
@[simp] theorem setHart_cis (s : State) (h : Hart) : (s.setHart h).cis = s.cis := rfl
@[simp] theorem setHart_host (s : State) (h : Hart) : (s.setHart h).host = s.host := rfl
@[simp] theorem setHart_wbuf (s : State) (h : Hart) : (s.setHart h).wbuf = s.wbuf := rfl
@[simp] theorem setHart_copies (s : State) (h : Hart) : (s.setHart h).copies = s.copies := rfl
@[simp] theorem setHart_windows (s : State) (h : Hart) : (s.setHart h).windows = s.windows := rfl
@[simp] theorem setHart_tlb (s : State) (h : Hart) : (s.setHart h).tlb = s.tlb := rfl
@[simp] theorem setHart_inval (s : State) (h : Hart) : (s.setHart h).inval = s.inval := rfl
@[simp] theorem setHart_held (s : State) (h : Hart) : (s.setHart h).held = s.held := rfl
@[simp] theorem setHart_running (s : State) (h : Hart) : (s.setHart h).running = s.running := rfl
@[simp] theorem setHart_credits (s : State) (h : Hart) : (s.setHart h).credits = s.credits := rfl
@[simp] theorem setHart_marks (s : State) (h : Hart) : (s.setHart h).marks = s.marks := rfl
@[simp] theorem setHart_groups (s : State) (h : Hart) : (s.setHart h).groups = s.groups := rfl
@[simp] theorem setHart_bindings (s : State) (h : Hart) : (s.setHart h).bindings = s.bindings := rfl
@[simp] theorem setHart_holds (s : State) (h : Hart) : (s.setHart h).holds = s.holds := rfl
@[simp] theorem setHart_chans (s : State) (h : Hart) : (s.setHart h).chans = s.chans := rfl
@[simp] theorem setHart_int8 (s : State) (h : Hart) : (s.setHart h).int8 = s.int8 := rfl
@[simp] theorem setHart_cols (s : State) (h : Hart) : (s.setHart h).cols = s.cols := rfl
@[simp] theorem setHart_cells (s : State) (h : Hart) : (s.setHart h).cells = s.cells := rfl
@[simp] theorem setHart_bcast (s : State) (h : Hart) : (s.setHart h).bcast = s.bcast := rfl
@[simp] theorem setHart_rounds (s : State) (h : Hart) : (s.setHart h).rounds = s.rounds := rfl
@[simp] theorem setHart_trace (s : State) (h : Hart) : (s.setHart h).trace = s.trace := rfl
@[simp] theorem setHart_net (s : State) (h : Hart) : (s.setHart h).net = s.net := rfl
@[simp] theorem setHart_io (s : State) (h : Hart) : (s.setHart h).io = s.io := rfl
@[simp] theorem setHart_funcs (s : State) (h : Hart) : (s.setHart h).funcs = s.funcs := rfl
@[simp] theorem setHart_power (s : State) (h : Hart) : (s.setHart h).power = s.power := rfl
@[simp] theorem setHart_debugSlot (s : State) (h : Hart) : (s.setHart h).debugSlot = s.debugSlot := rfl
@[simp] theorem setHart_debugOff (s : State) (h : Hart) : (s.setHart h).debugOff = s.debugOff := rfl
@[simp] theorem setHart_walks (s : State) (h : Hart) : (s.setHart h).walks = s.walks := rfl
@[simp] theorem setHart_walked (s : State) (h : Hart) : (s.setHart h).walked = s.walked := rfl
@[simp] theorem setHart_owed (s : State) (h : Hart) : (s.setHart h).owed = s.owed := rfl
@[simp] theorem setHart_rom (s : State) (h : Hart) : (s.setHart h).rom = s.rom := rfl

@[simp] theorem setHartOf_cur (s : State) (k : Nat) (h : Hart) : (s.setHartOf k h).cur = s.cur := rfl
@[simp] theorem setHartOf_agenda (s : State) (k : Nat) (h : Hart) : (s.setHartOf k h).agenda = s.agenda := rfl
@[simp] theorem setHartOf_sched (s : State) (k : Nat) (h : Hart) : (s.setHartOf k h).sched = s.sched := rfl
@[simp] theorem setHartOf_fresh (s : State) (k : Nat) (h : Hart) : (s.setHartOf k h).fresh = s.fresh := rfl
@[simp] theorem setHartOf_tiles (s : State) (k : Nat) (h : Hart) : (s.setHartOf k h).tiles = s.tiles := rfl
@[simp] theorem setHartOf_ctxs (s : State) (k : Nat) (h : Hart) : (s.setHartOf k h).ctxs = s.ctxs := rfl
@[simp] theorem setHartOf_hbm (s : State) (k : Nat) (h : Hart) : (s.setHartOf k h).hbm = s.hbm := rfl
@[simp] theorem setHartOf_cis (s : State) (k : Nat) (h : Hart) : (s.setHartOf k h).cis = s.cis := rfl
@[simp] theorem setHartOf_host (s : State) (k : Nat) (h : Hart) : (s.setHartOf k h).host = s.host := rfl
@[simp] theorem setHartOf_wbuf (s : State) (k : Nat) (h : Hart) : (s.setHartOf k h).wbuf = s.wbuf := rfl
@[simp] theorem setHartOf_copies (s : State) (k : Nat) (h : Hart) : (s.setHartOf k h).copies = s.copies := rfl
@[simp] theorem setHartOf_windows (s : State) (k : Nat) (h : Hart) : (s.setHartOf k h).windows = s.windows := rfl
@[simp] theorem setHartOf_tlb (s : State) (k : Nat) (h : Hart) : (s.setHartOf k h).tlb = s.tlb := rfl
@[simp] theorem setHartOf_inval (s : State) (k : Nat) (h : Hart) : (s.setHartOf k h).inval = s.inval := rfl
@[simp] theorem setHartOf_held (s : State) (k : Nat) (h : Hart) : (s.setHartOf k h).held = s.held := rfl
@[simp] theorem setHartOf_running (s : State) (k : Nat) (h : Hart) : (s.setHartOf k h).running = s.running := rfl
@[simp] theorem setHartOf_credits (s : State) (k : Nat) (h : Hart) : (s.setHartOf k h).credits = s.credits := rfl
@[simp] theorem setHartOf_marks (s : State) (k : Nat) (h : Hart) : (s.setHartOf k h).marks = s.marks := rfl
@[simp] theorem setHartOf_groups (s : State) (k : Nat) (h : Hart) : (s.setHartOf k h).groups = s.groups := rfl
@[simp] theorem setHartOf_bindings (s : State) (k : Nat) (h : Hart) : (s.setHartOf k h).bindings = s.bindings := rfl
@[simp] theorem setHartOf_holds (s : State) (k : Nat) (h : Hart) : (s.setHartOf k h).holds = s.holds := rfl
@[simp] theorem setHartOf_chans (s : State) (k : Nat) (h : Hart) : (s.setHartOf k h).chans = s.chans := rfl
@[simp] theorem setHartOf_int8 (s : State) (k : Nat) (h : Hart) : (s.setHartOf k h).int8 = s.int8 := rfl
@[simp] theorem setHartOf_cols (s : State) (k : Nat) (h : Hart) : (s.setHartOf k h).cols = s.cols := rfl
@[simp] theorem setHartOf_cells (s : State) (k : Nat) (h : Hart) : (s.setHartOf k h).cells = s.cells := rfl
@[simp] theorem setHartOf_bcast (s : State) (k : Nat) (h : Hart) : (s.setHartOf k h).bcast = s.bcast := rfl
@[simp] theorem setHartOf_rounds (s : State) (k : Nat) (h : Hart) : (s.setHartOf k h).rounds = s.rounds := rfl
@[simp] theorem setHartOf_trace (s : State) (k : Nat) (h : Hart) : (s.setHartOf k h).trace = s.trace := rfl
@[simp] theorem setHartOf_net (s : State) (k : Nat) (h : Hart) : (s.setHartOf k h).net = s.net := rfl
@[simp] theorem setHartOf_io (s : State) (k : Nat) (h : Hart) : (s.setHartOf k h).io = s.io := rfl
@[simp] theorem setHartOf_funcs (s : State) (k : Nat) (h : Hart) : (s.setHartOf k h).funcs = s.funcs := rfl
@[simp] theorem setHartOf_power (s : State) (k : Nat) (h : Hart) : (s.setHartOf k h).power = s.power := rfl
@[simp] theorem setHartOf_debugSlot (s : State) (k : Nat) (h : Hart) : (s.setHartOf k h).debugSlot = s.debugSlot := rfl
@[simp] theorem setHartOf_debugOff (s : State) (k : Nat) (h : Hart) : (s.setHartOf k h).debugOff = s.debugOff := rfl
@[simp] theorem setHartOf_walks (s : State) (k : Nat) (h : Hart) : (s.setHartOf k h).walks = s.walks := rfl
@[simp] theorem setHartOf_walked (s : State) (k : Nat) (h : Hart) : (s.setHartOf k h).walked = s.walked := rfl
@[simp] theorem setHartOf_owed (s : State) (k : Nat) (h : Hart) : (s.setHartOf k h).owed = s.owed := rfl
@[simp] theorem setHartOf_rom (s : State) (k : Nat) (h : Hart) : (s.setHartOf k h).rom = s.rom := rfl

@[simp] theorem setCtx_cur (s : State) (c : BitVec 6) (v : Ctx) : (s.setCtx c v).cur = s.cur := rfl
@[simp] theorem setCtx_agenda (s : State) (c : BitVec 6) (v : Ctx) : (s.setCtx c v).agenda = s.agenda := rfl
@[simp] theorem setCtx_sched (s : State) (c : BitVec 6) (v : Ctx) : (s.setCtx c v).sched = s.sched := rfl
@[simp] theorem setCtx_fresh (s : State) (c : BitVec 6) (v : Ctx) : (s.setCtx c v).fresh = s.fresh := rfl
@[simp] theorem setCtx_slots (s : State) (c : BitVec 6) (v : Ctx) : (s.setCtx c v).slots = s.slots := rfl
@[simp] theorem setCtx_tiles (s : State) (c : BitVec 6) (v : Ctx) : (s.setCtx c v).tiles = s.tiles := rfl
@[simp] theorem setCtx_hbm (s : State) (c : BitVec 6) (v : Ctx) : (s.setCtx c v).hbm = s.hbm := rfl
@[simp] theorem setCtx_cis (s : State) (c : BitVec 6) (v : Ctx) : (s.setCtx c v).cis = s.cis := rfl
@[simp] theorem setCtx_host (s : State) (c : BitVec 6) (v : Ctx) : (s.setCtx c v).host = s.host := rfl
@[simp] theorem setCtx_wbuf (s : State) (c : BitVec 6) (v : Ctx) : (s.setCtx c v).wbuf = s.wbuf := rfl
@[simp] theorem setCtx_copies (s : State) (c : BitVec 6) (v : Ctx) : (s.setCtx c v).copies = s.copies := rfl
@[simp] theorem setCtx_windows (s : State) (c : BitVec 6) (v : Ctx) : (s.setCtx c v).windows = s.windows := rfl
@[simp] theorem setCtx_tlb (s : State) (c : BitVec 6) (v : Ctx) : (s.setCtx c v).tlb = s.tlb := rfl
@[simp] theorem setCtx_inval (s : State) (c : BitVec 6) (v : Ctx) : (s.setCtx c v).inval = s.inval := rfl
@[simp] theorem setCtx_held (s : State) (c : BitVec 6) (v : Ctx) : (s.setCtx c v).held = s.held := rfl
@[simp] theorem setCtx_running (s : State) (c : BitVec 6) (v : Ctx) : (s.setCtx c v).running = s.running := rfl
@[simp] theorem setCtx_credits (s : State) (c : BitVec 6) (v : Ctx) : (s.setCtx c v).credits = s.credits := rfl
@[simp] theorem setCtx_marks (s : State) (c : BitVec 6) (v : Ctx) : (s.setCtx c v).marks = s.marks := rfl
@[simp] theorem setCtx_groups (s : State) (c : BitVec 6) (v : Ctx) : (s.setCtx c v).groups = s.groups := rfl
@[simp] theorem setCtx_bindings (s : State) (c : BitVec 6) (v : Ctx) : (s.setCtx c v).bindings = s.bindings := rfl
@[simp] theorem setCtx_holds (s : State) (c : BitVec 6) (v : Ctx) : (s.setCtx c v).holds = s.holds := rfl
@[simp] theorem setCtx_chans (s : State) (c : BitVec 6) (v : Ctx) : (s.setCtx c v).chans = s.chans := rfl
@[simp] theorem setCtx_int8 (s : State) (c : BitVec 6) (v : Ctx) : (s.setCtx c v).int8 = s.int8 := rfl
@[simp] theorem setCtx_cols (s : State) (c : BitVec 6) (v : Ctx) : (s.setCtx c v).cols = s.cols := rfl
@[simp] theorem setCtx_cells (s : State) (c : BitVec 6) (v : Ctx) : (s.setCtx c v).cells = s.cells := rfl
@[simp] theorem setCtx_bcast (s : State) (c : BitVec 6) (v : Ctx) : (s.setCtx c v).bcast = s.bcast := rfl
@[simp] theorem setCtx_rounds (s : State) (c : BitVec 6) (v : Ctx) : (s.setCtx c v).rounds = s.rounds := rfl
@[simp] theorem setCtx_trace (s : State) (c : BitVec 6) (v : Ctx) : (s.setCtx c v).trace = s.trace := rfl
@[simp] theorem setCtx_net (s : State) (c : BitVec 6) (v : Ctx) : (s.setCtx c v).net = s.net := rfl
@[simp] theorem setCtx_io (s : State) (c : BitVec 6) (v : Ctx) : (s.setCtx c v).io = s.io := rfl
@[simp] theorem setCtx_funcs (s : State) (c : BitVec 6) (v : Ctx) : (s.setCtx c v).funcs = s.funcs := rfl
@[simp] theorem setCtx_power (s : State) (c : BitVec 6) (v : Ctx) : (s.setCtx c v).power = s.power := rfl
@[simp] theorem setCtx_debugSlot (s : State) (c : BitVec 6) (v : Ctx) : (s.setCtx c v).debugSlot = s.debugSlot := rfl
@[simp] theorem setCtx_debugOff (s : State) (c : BitVec 6) (v : Ctx) : (s.setCtx c v).debugOff = s.debugOff := rfl
@[simp] theorem setCtx_walks (s : State) (c : BitVec 6) (v : Ctx) : (s.setCtx c v).walks = s.walks := rfl
@[simp] theorem setCtx_walked (s : State) (c : BitVec 6) (v : Ctx) : (s.setCtx c v).walked = s.walked := rfl
@[simp] theorem setCtx_owed (s : State) (c : BitVec 6) (v : Ctx) : (s.setCtx c v).owed = s.owed := rfl
@[simp] theorem setCtx_rom (s : State) (c : BitVec 6) (v : Ctx) : (s.setCtx c v).rom = s.rom := rfl

@[simp] theorem setTile_cur (s : State) (k : Nat) (v : Tile) : (s.setTile k v).cur = s.cur := rfl
@[simp] theorem setTile_agenda (s : State) (k : Nat) (v : Tile) : (s.setTile k v).agenda = s.agenda := rfl
@[simp] theorem setTile_sched (s : State) (k : Nat) (v : Tile) : (s.setTile k v).sched = s.sched := rfl
@[simp] theorem setTile_fresh (s : State) (k : Nat) (v : Tile) : (s.setTile k v).fresh = s.fresh := rfl
@[simp] theorem setTile_slots (s : State) (k : Nat) (v : Tile) : (s.setTile k v).slots = s.slots := rfl
@[simp] theorem setTile_ctxs (s : State) (k : Nat) (v : Tile) : (s.setTile k v).ctxs = s.ctxs := rfl
@[simp] theorem setTile_hbm (s : State) (k : Nat) (v : Tile) : (s.setTile k v).hbm = s.hbm := rfl
@[simp] theorem setTile_cis (s : State) (k : Nat) (v : Tile) : (s.setTile k v).cis = s.cis := rfl
@[simp] theorem setTile_host (s : State) (k : Nat) (v : Tile) : (s.setTile k v).host = s.host := rfl
@[simp] theorem setTile_wbuf (s : State) (k : Nat) (v : Tile) : (s.setTile k v).wbuf = s.wbuf := rfl
@[simp] theorem setTile_copies (s : State) (k : Nat) (v : Tile) : (s.setTile k v).copies = s.copies := rfl
@[simp] theorem setTile_windows (s : State) (k : Nat) (v : Tile) : (s.setTile k v).windows = s.windows := rfl
@[simp] theorem setTile_tlb (s : State) (k : Nat) (v : Tile) : (s.setTile k v).tlb = s.tlb := rfl
@[simp] theorem setTile_inval (s : State) (k : Nat) (v : Tile) : (s.setTile k v).inval = s.inval := rfl
@[simp] theorem setTile_held (s : State) (k : Nat) (v : Tile) : (s.setTile k v).held = s.held := rfl
@[simp] theorem setTile_running (s : State) (k : Nat) (v : Tile) : (s.setTile k v).running = s.running := rfl
@[simp] theorem setTile_credits (s : State) (k : Nat) (v : Tile) : (s.setTile k v).credits = s.credits := rfl
@[simp] theorem setTile_marks (s : State) (k : Nat) (v : Tile) : (s.setTile k v).marks = s.marks := rfl
@[simp] theorem setTile_groups (s : State) (k : Nat) (v : Tile) : (s.setTile k v).groups = s.groups := rfl
@[simp] theorem setTile_bindings (s : State) (k : Nat) (v : Tile) : (s.setTile k v).bindings = s.bindings := rfl
@[simp] theorem setTile_holds (s : State) (k : Nat) (v : Tile) : (s.setTile k v).holds = s.holds := rfl
@[simp] theorem setTile_chans (s : State) (k : Nat) (v : Tile) : (s.setTile k v).chans = s.chans := rfl
@[simp] theorem setTile_int8 (s : State) (k : Nat) (v : Tile) : (s.setTile k v).int8 = s.int8 := rfl
@[simp] theorem setTile_cols (s : State) (k : Nat) (v : Tile) : (s.setTile k v).cols = s.cols := rfl
@[simp] theorem setTile_cells (s : State) (k : Nat) (v : Tile) : (s.setTile k v).cells = s.cells := rfl
@[simp] theorem setTile_bcast (s : State) (k : Nat) (v : Tile) : (s.setTile k v).bcast = s.bcast := rfl
@[simp] theorem setTile_rounds (s : State) (k : Nat) (v : Tile) : (s.setTile k v).rounds = s.rounds := rfl
@[simp] theorem setTile_trace (s : State) (k : Nat) (v : Tile) : (s.setTile k v).trace = s.trace := rfl
@[simp] theorem setTile_net (s : State) (k : Nat) (v : Tile) : (s.setTile k v).net = s.net := rfl
@[simp] theorem setTile_io (s : State) (k : Nat) (v : Tile) : (s.setTile k v).io = s.io := rfl
@[simp] theorem setTile_funcs (s : State) (k : Nat) (v : Tile) : (s.setTile k v).funcs = s.funcs := rfl
@[simp] theorem setTile_power (s : State) (k : Nat) (v : Tile) : (s.setTile k v).power = s.power := rfl
@[simp] theorem setTile_debugSlot (s : State) (k : Nat) (v : Tile) : (s.setTile k v).debugSlot = s.debugSlot := rfl
@[simp] theorem setTile_debugOff (s : State) (k : Nat) (v : Tile) : (s.setTile k v).debugOff = s.debugOff := rfl
@[simp] theorem setTile_walks (s : State) (k : Nat) (v : Tile) : (s.setTile k v).walks = s.walks := rfl
@[simp] theorem setTile_walked (s : State) (k : Nat) (v : Tile) : (s.setTile k v).walked = s.walked := rfl
@[simp] theorem setTile_owed (s : State) (k : Nat) (v : Tile) : (s.setTile k v).owed = s.owed := rfl
@[simp] theorem setTile_rom (s : State) (k : Nat) (v : Tile) : (s.setTile k v).rom = s.rom := rfl

@[simp] theorem setChan_cur (s : State) (c : Nat) (x : Channel) : (s.setChan c x).cur = s.cur := rfl
@[simp] theorem setChan_agenda (s : State) (c : Nat) (x : Channel) : (s.setChan c x).agenda = s.agenda := rfl
@[simp] theorem setChan_sched (s : State) (c : Nat) (x : Channel) : (s.setChan c x).sched = s.sched := rfl
@[simp] theorem setChan_fresh (s : State) (c : Nat) (x : Channel) : (s.setChan c x).fresh = s.fresh := rfl
@[simp] theorem setChan_slots (s : State) (c : Nat) (x : Channel) : (s.setChan c x).slots = s.slots := rfl
@[simp] theorem setChan_tiles (s : State) (c : Nat) (x : Channel) : (s.setChan c x).tiles = s.tiles := rfl
@[simp] theorem setChan_ctxs (s : State) (c : Nat) (x : Channel) : (s.setChan c x).ctxs = s.ctxs := rfl
@[simp] theorem setChan_hbm (s : State) (c : Nat) (x : Channel) : (s.setChan c x).hbm = s.hbm := rfl
@[simp] theorem setChan_cis (s : State) (c : Nat) (x : Channel) : (s.setChan c x).cis = s.cis := rfl
@[simp] theorem setChan_host (s : State) (c : Nat) (x : Channel) : (s.setChan c x).host = s.host := rfl
@[simp] theorem setChan_wbuf (s : State) (c : Nat) (x : Channel) : (s.setChan c x).wbuf = s.wbuf := rfl
@[simp] theorem setChan_copies (s : State) (c : Nat) (x : Channel) : (s.setChan c x).copies = s.copies := rfl
@[simp] theorem setChan_windows (s : State) (c : Nat) (x : Channel) : (s.setChan c x).windows = s.windows := rfl
@[simp] theorem setChan_tlb (s : State) (c : Nat) (x : Channel) : (s.setChan c x).tlb = s.tlb := rfl
@[simp] theorem setChan_inval (s : State) (c : Nat) (x : Channel) : (s.setChan c x).inval = s.inval := rfl
@[simp] theorem setChan_held (s : State) (c : Nat) (x : Channel) : (s.setChan c x).held = s.held := rfl
@[simp] theorem setChan_running (s : State) (c : Nat) (x : Channel) : (s.setChan c x).running = s.running := rfl
@[simp] theorem setChan_credits (s : State) (c : Nat) (x : Channel) : (s.setChan c x).credits = s.credits := rfl
@[simp] theorem setChan_marks (s : State) (c : Nat) (x : Channel) : (s.setChan c x).marks = s.marks := rfl
@[simp] theorem setChan_groups (s : State) (c : Nat) (x : Channel) : (s.setChan c x).groups = s.groups := rfl
@[simp] theorem setChan_bindings (s : State) (c : Nat) (x : Channel) : (s.setChan c x).bindings = s.bindings := rfl
@[simp] theorem setChan_holds (s : State) (c : Nat) (x : Channel) : (s.setChan c x).holds = s.holds := rfl
@[simp] theorem setChan_int8 (s : State) (c : Nat) (x : Channel) : (s.setChan c x).int8 = s.int8 := rfl
@[simp] theorem setChan_cols (s : State) (c : Nat) (x : Channel) : (s.setChan c x).cols = s.cols := rfl
@[simp] theorem setChan_cells (s : State) (c : Nat) (x : Channel) : (s.setChan c x).cells = s.cells := rfl
@[simp] theorem setChan_bcast (s : State) (c : Nat) (x : Channel) : (s.setChan c x).bcast = s.bcast := rfl
@[simp] theorem setChan_rounds (s : State) (c : Nat) (x : Channel) : (s.setChan c x).rounds = s.rounds := rfl
@[simp] theorem setChan_trace (s : State) (c : Nat) (x : Channel) : (s.setChan c x).trace = s.trace := rfl
@[simp] theorem setChan_net (s : State) (c : Nat) (x : Channel) : (s.setChan c x).net = s.net := rfl
@[simp] theorem setChan_io (s : State) (c : Nat) (x : Channel) : (s.setChan c x).io = s.io := rfl
@[simp] theorem setChan_funcs (s : State) (c : Nat) (x : Channel) : (s.setChan c x).funcs = s.funcs := rfl
@[simp] theorem setChan_power (s : State) (c : Nat) (x : Channel) : (s.setChan c x).power = s.power := rfl
@[simp] theorem setChan_debugSlot (s : State) (c : Nat) (x : Channel) : (s.setChan c x).debugSlot = s.debugSlot := rfl
@[simp] theorem setChan_debugOff (s : State) (c : Nat) (x : Channel) : (s.setChan c x).debugOff = s.debugOff := rfl
@[simp] theorem setChan_walks (s : State) (c : Nat) (x : Channel) : (s.setChan c x).walks = s.walks := rfl
@[simp] theorem setChan_walked (s : State) (c : Nat) (x : Channel) : (s.setChan c x).walked = s.walked := rfl
@[simp] theorem setChan_owed (s : State) (c : Nat) (x : Channel) : (s.setChan c x).owed = s.owed := rfl
@[simp] theorem setChan_rom (s : State) (c : Nat) (x : Channel) : (s.setChan c x).rom = s.rom := rfl

@[simp] theorem setRound_cur (s : State) (k : Nat) (r : Round) : (s.setRound k r).cur = s.cur := rfl
@[simp] theorem setRound_agenda (s : State) (k : Nat) (r : Round) : (s.setRound k r).agenda = s.agenda := rfl
@[simp] theorem setRound_sched (s : State) (k : Nat) (r : Round) : (s.setRound k r).sched = s.sched := rfl
@[simp] theorem setRound_fresh (s : State) (k : Nat) (r : Round) : (s.setRound k r).fresh = s.fresh := rfl
@[simp] theorem setRound_slots (s : State) (k : Nat) (r : Round) : (s.setRound k r).slots = s.slots := rfl
@[simp] theorem setRound_tiles (s : State) (k : Nat) (r : Round) : (s.setRound k r).tiles = s.tiles := rfl
@[simp] theorem setRound_ctxs (s : State) (k : Nat) (r : Round) : (s.setRound k r).ctxs = s.ctxs := rfl
@[simp] theorem setRound_hbm (s : State) (k : Nat) (r : Round) : (s.setRound k r).hbm = s.hbm := rfl
@[simp] theorem setRound_cis (s : State) (k : Nat) (r : Round) : (s.setRound k r).cis = s.cis := rfl
@[simp] theorem setRound_host (s : State) (k : Nat) (r : Round) : (s.setRound k r).host = s.host := rfl
@[simp] theorem setRound_wbuf (s : State) (k : Nat) (r : Round) : (s.setRound k r).wbuf = s.wbuf := rfl
@[simp] theorem setRound_copies (s : State) (k : Nat) (r : Round) : (s.setRound k r).copies = s.copies := rfl
@[simp] theorem setRound_windows (s : State) (k : Nat) (r : Round) : (s.setRound k r).windows = s.windows := rfl
@[simp] theorem setRound_tlb (s : State) (k : Nat) (r : Round) : (s.setRound k r).tlb = s.tlb := rfl
@[simp] theorem setRound_inval (s : State) (k : Nat) (r : Round) : (s.setRound k r).inval = s.inval := rfl
@[simp] theorem setRound_held (s : State) (k : Nat) (r : Round) : (s.setRound k r).held = s.held := rfl
@[simp] theorem setRound_running (s : State) (k : Nat) (r : Round) : (s.setRound k r).running = s.running := rfl
@[simp] theorem setRound_credits (s : State) (k : Nat) (r : Round) : (s.setRound k r).credits = s.credits := rfl
@[simp] theorem setRound_marks (s : State) (k : Nat) (r : Round) : (s.setRound k r).marks = s.marks := rfl
@[simp] theorem setRound_groups (s : State) (k : Nat) (r : Round) : (s.setRound k r).groups = s.groups := rfl
@[simp] theorem setRound_bindings (s : State) (k : Nat) (r : Round) : (s.setRound k r).bindings = s.bindings := rfl
@[simp] theorem setRound_holds (s : State) (k : Nat) (r : Round) : (s.setRound k r).holds = s.holds := rfl
@[simp] theorem setRound_chans (s : State) (k : Nat) (r : Round) : (s.setRound k r).chans = s.chans := rfl
@[simp] theorem setRound_int8 (s : State) (k : Nat) (r : Round) : (s.setRound k r).int8 = s.int8 := rfl
@[simp] theorem setRound_cols (s : State) (k : Nat) (r : Round) : (s.setRound k r).cols = s.cols := rfl
@[simp] theorem setRound_cells (s : State) (k : Nat) (r : Round) : (s.setRound k r).cells = s.cells := rfl
@[simp] theorem setRound_bcast (s : State) (k : Nat) (r : Round) : (s.setRound k r).bcast = s.bcast := rfl
@[simp] theorem setRound_trace (s : State) (k : Nat) (r : Round) : (s.setRound k r).trace = s.trace := rfl
@[simp] theorem setRound_net (s : State) (k : Nat) (r : Round) : (s.setRound k r).net = s.net := rfl
@[simp] theorem setRound_io (s : State) (k : Nat) (r : Round) : (s.setRound k r).io = s.io := rfl
@[simp] theorem setRound_funcs (s : State) (k : Nat) (r : Round) : (s.setRound k r).funcs = s.funcs := rfl
@[simp] theorem setRound_power (s : State) (k : Nat) (r : Round) : (s.setRound k r).power = s.power := rfl
@[simp] theorem setRound_debugSlot (s : State) (k : Nat) (r : Round) : (s.setRound k r).debugSlot = s.debugSlot := rfl
@[simp] theorem setRound_debugOff (s : State) (k : Nat) (r : Round) : (s.setRound k r).debugOff = s.debugOff := rfl
@[simp] theorem setRound_walks (s : State) (k : Nat) (r : Round) : (s.setRound k r).walks = s.walks := rfl
@[simp] theorem setRound_walked (s : State) (k : Nat) (r : Round) : (s.setRound k r).walked = s.walked := rfl
@[simp] theorem setRound_owed (s : State) (k : Nat) (r : Round) : (s.setRound k r).owed = s.owed := rfl
@[simp] theorem setRound_rom (s : State) (k : Nat) (r : Round) : (s.setRound k r).rom = s.rom := rfl

@[simp] theorem setGroup_cur (s : State) (c : BitVec 6) (g : Nat) (v : Group) : (s.setGroup c g v).cur = s.cur := rfl
@[simp] theorem setGroup_agenda (s : State) (c : BitVec 6) (g : Nat) (v : Group) : (s.setGroup c g v).agenda = s.agenda := rfl
@[simp] theorem setGroup_sched (s : State) (c : BitVec 6) (g : Nat) (v : Group) : (s.setGroup c g v).sched = s.sched := rfl
@[simp] theorem setGroup_fresh (s : State) (c : BitVec 6) (g : Nat) (v : Group) : (s.setGroup c g v).fresh = s.fresh := rfl
@[simp] theorem setGroup_slots (s : State) (c : BitVec 6) (g : Nat) (v : Group) : (s.setGroup c g v).slots = s.slots := rfl
@[simp] theorem setGroup_tiles (s : State) (c : BitVec 6) (g : Nat) (v : Group) : (s.setGroup c g v).tiles = s.tiles := rfl
@[simp] theorem setGroup_ctxs (s : State) (c : BitVec 6) (g : Nat) (v : Group) : (s.setGroup c g v).ctxs = s.ctxs := rfl
@[simp] theorem setGroup_hbm (s : State) (c : BitVec 6) (g : Nat) (v : Group) : (s.setGroup c g v).hbm = s.hbm := rfl
@[simp] theorem setGroup_cis (s : State) (c : BitVec 6) (g : Nat) (v : Group) : (s.setGroup c g v).cis = s.cis := rfl
@[simp] theorem setGroup_host (s : State) (c : BitVec 6) (g : Nat) (v : Group) : (s.setGroup c g v).host = s.host := rfl
@[simp] theorem setGroup_wbuf (s : State) (c : BitVec 6) (g : Nat) (v : Group) : (s.setGroup c g v).wbuf = s.wbuf := rfl
@[simp] theorem setGroup_copies (s : State) (c : BitVec 6) (g : Nat) (v : Group) : (s.setGroup c g v).copies = s.copies := rfl
@[simp] theorem setGroup_windows (s : State) (c : BitVec 6) (g : Nat) (v : Group) : (s.setGroup c g v).windows = s.windows := rfl
@[simp] theorem setGroup_tlb (s : State) (c : BitVec 6) (g : Nat) (v : Group) : (s.setGroup c g v).tlb = s.tlb := rfl
@[simp] theorem setGroup_inval (s : State) (c : BitVec 6) (g : Nat) (v : Group) : (s.setGroup c g v).inval = s.inval := rfl
@[simp] theorem setGroup_held (s : State) (c : BitVec 6) (g : Nat) (v : Group) : (s.setGroup c g v).held = s.held := rfl
@[simp] theorem setGroup_running (s : State) (c : BitVec 6) (g : Nat) (v : Group) : (s.setGroup c g v).running = s.running := rfl
@[simp] theorem setGroup_credits (s : State) (c : BitVec 6) (g : Nat) (v : Group) : (s.setGroup c g v).credits = s.credits := rfl
@[simp] theorem setGroup_marks (s : State) (c : BitVec 6) (g : Nat) (v : Group) : (s.setGroup c g v).marks = s.marks := rfl
@[simp] theorem setGroup_bindings (s : State) (c : BitVec 6) (g : Nat) (v : Group) : (s.setGroup c g v).bindings = s.bindings := rfl
@[simp] theorem setGroup_holds (s : State) (c : BitVec 6) (g : Nat) (v : Group) : (s.setGroup c g v).holds = s.holds := rfl
@[simp] theorem setGroup_chans (s : State) (c : BitVec 6) (g : Nat) (v : Group) : (s.setGroup c g v).chans = s.chans := rfl
@[simp] theorem setGroup_int8 (s : State) (c : BitVec 6) (g : Nat) (v : Group) : (s.setGroup c g v).int8 = s.int8 := rfl
@[simp] theorem setGroup_cols (s : State) (c : BitVec 6) (g : Nat) (v : Group) : (s.setGroup c g v).cols = s.cols := rfl
@[simp] theorem setGroup_cells (s : State) (c : BitVec 6) (g : Nat) (v : Group) : (s.setGroup c g v).cells = s.cells := rfl
@[simp] theorem setGroup_bcast (s : State) (c : BitVec 6) (g : Nat) (v : Group) : (s.setGroup c g v).bcast = s.bcast := rfl
@[simp] theorem setGroup_rounds (s : State) (c : BitVec 6) (g : Nat) (v : Group) : (s.setGroup c g v).rounds = s.rounds := rfl
@[simp] theorem setGroup_trace (s : State) (c : BitVec 6) (g : Nat) (v : Group) : (s.setGroup c g v).trace = s.trace := rfl
@[simp] theorem setGroup_net (s : State) (c : BitVec 6) (g : Nat) (v : Group) : (s.setGroup c g v).net = s.net := rfl
@[simp] theorem setGroup_io (s : State) (c : BitVec 6) (g : Nat) (v : Group) : (s.setGroup c g v).io = s.io := rfl
@[simp] theorem setGroup_funcs (s : State) (c : BitVec 6) (g : Nat) (v : Group) : (s.setGroup c g v).funcs = s.funcs := rfl
@[simp] theorem setGroup_power (s : State) (c : BitVec 6) (g : Nat) (v : Group) : (s.setGroup c g v).power = s.power := rfl
@[simp] theorem setGroup_debugSlot (s : State) (c : BitVec 6) (g : Nat) (v : Group) : (s.setGroup c g v).debugSlot = s.debugSlot := rfl
@[simp] theorem setGroup_debugOff (s : State) (c : BitVec 6) (g : Nat) (v : Group) : (s.setGroup c g v).debugOff = s.debugOff := rfl
@[simp] theorem setGroup_walks (s : State) (c : BitVec 6) (g : Nat) (v : Group) : (s.setGroup c g v).walks = s.walks := rfl
@[simp] theorem setGroup_walked (s : State) (c : BitVec 6) (g : Nat) (v : Group) : (s.setGroup c g v).walked = s.walked := rfl
@[simp] theorem setGroup_owed (s : State) (c : BitVec 6) (g : Nat) (v : Group) : (s.setGroup c g v).owed = s.owed := rfl
@[simp] theorem setGroup_rom (s : State) (c : BitVec 6) (g : Nat) (v : Group) : (s.setGroup c g v).rom = s.rom := rfl

@[simp] theorem tick_cur (s : State) : (s.tick).cur = s.cur := rfl
@[simp] theorem tick_agenda (s : State) : (s.tick).agenda = s.agenda := rfl
@[simp] theorem tick_sched (s : State) : (s.tick).sched = s.sched := rfl
@[simp] theorem tick_slots (s : State) : (s.tick).slots = s.slots := rfl
@[simp] theorem tick_tiles (s : State) : (s.tick).tiles = s.tiles := rfl
@[simp] theorem tick_ctxs (s : State) : (s.tick).ctxs = s.ctxs := rfl
@[simp] theorem tick_hbm (s : State) : (s.tick).hbm = s.hbm := rfl
@[simp] theorem tick_cis (s : State) : (s.tick).cis = s.cis := rfl
@[simp] theorem tick_host (s : State) : (s.tick).host = s.host := rfl
@[simp] theorem tick_wbuf (s : State) : (s.tick).wbuf = s.wbuf := rfl
@[simp] theorem tick_copies (s : State) : (s.tick).copies = s.copies := rfl
@[simp] theorem tick_windows (s : State) : (s.tick).windows = s.windows := rfl
@[simp] theorem tick_tlb (s : State) : (s.tick).tlb = s.tlb := rfl
@[simp] theorem tick_inval (s : State) : (s.tick).inval = s.inval := rfl
@[simp] theorem tick_held (s : State) : (s.tick).held = s.held := rfl
@[simp] theorem tick_running (s : State) : (s.tick).running = s.running := rfl
@[simp] theorem tick_credits (s : State) : (s.tick).credits = s.credits := rfl
@[simp] theorem tick_marks (s : State) : (s.tick).marks = s.marks := rfl
@[simp] theorem tick_groups (s : State) : (s.tick).groups = s.groups := rfl
@[simp] theorem tick_bindings (s : State) : (s.tick).bindings = s.bindings := rfl
@[simp] theorem tick_holds (s : State) : (s.tick).holds = s.holds := rfl
@[simp] theorem tick_chans (s : State) : (s.tick).chans = s.chans := rfl
@[simp] theorem tick_int8 (s : State) : (s.tick).int8 = s.int8 := rfl
@[simp] theorem tick_cols (s : State) : (s.tick).cols = s.cols := rfl
@[simp] theorem tick_cells (s : State) : (s.tick).cells = s.cells := rfl
@[simp] theorem tick_bcast (s : State) : (s.tick).bcast = s.bcast := rfl
@[simp] theorem tick_rounds (s : State) : (s.tick).rounds = s.rounds := rfl
@[simp] theorem tick_trace (s : State) : (s.tick).trace = s.trace := rfl
@[simp] theorem tick_net (s : State) : (s.tick).net = s.net := rfl
@[simp] theorem tick_io (s : State) : (s.tick).io = s.io := rfl
@[simp] theorem tick_funcs (s : State) : (s.tick).funcs = s.funcs := rfl
@[simp] theorem tick_power (s : State) : (s.tick).power = s.power := rfl
@[simp] theorem tick_debugSlot (s : State) : (s.tick).debugSlot = s.debugSlot := rfl
@[simp] theorem tick_debugOff (s : State) : (s.tick).debugOff = s.debugOff := rfl
@[simp] theorem tick_walks (s : State) : (s.tick).walks = s.walks := rfl
@[simp] theorem tick_walked (s : State) : (s.tick).walked = s.walked := rfl
@[simp] theorem tick_owed (s : State) : (s.tick).owed = s.owed := rfl
@[simp] theorem tick_rom (s : State) : (s.tick).rom = s.rom := rfl

end State

/-! ## Fields of the hart under the named updates -/

namespace Hart

@[simp] theorem retire_s (h : Hart) : (h.retire).s = h.s := rfl
@[simp] theorem retire_sFE (h : Hart) : (h.retire).sFE = h.sFE := rfl
@[simp] theorem retire_z (h : Hart) : (h.retire).z = h.z := rfl
@[simp] theorem retire_zFE (h : Hart) : (h.retire).zFE = h.zFE := rfl
@[simp] theorem retire_dirty (h : Hart) : (h.retire).dirty = h.dirty := rfl
@[simp] theorem retire_vlg (h : Hart) : (h.retire).vlg = h.vlg := rfl
@[simp] theorem retire_m (h : Hart) : (h.retire).m = h.m := rfl
@[simp] theorem retire_mFE (h : Hart) : (h.retire).mFE = h.mFE := rfl
@[simp] theorem retire_v (h : Hart) : (h.retire).v = h.v := rfl
@[simp] theorem retire_vl (h : Hart) : (h.retire).vl = h.vl := rfl
@[simp] theorem retire_vstride (h : Hart) : (h.retire).vstride = h.vstride := rfl
@[simp] theorem retire_vmsel (h : Hart) : (h.retire).vmsel = h.vmsel := rfl
@[simp] theorem retire_vsatm (h : Hart) : (h.retire).vsatm = h.vsatm := rfl
@[simp] theorem retire_mspace (h : Hart) : (h.retire).mspace = h.mspace := rfl
@[simp] theorem retire_fctl (h : Hart) : (h.retire).fctl = h.fctl := rfl
@[simp] theorem retire_fflags (h : Hart) : (h.retire).fflags = h.fflags := rfl
@[simp] theorem retire_view (h : Hart) : (h.retire).view = h.view := rfl
@[simp] theorem retire_vcount (h : Hart) : (h.retire).vcount = h.vcount := rfl
@[simp] theorem retire_strmf (h : Hart) : (h.retire).strmf = h.strmf := rfl
@[simp] theorem retire_hwsrc (h : Hart) : (h.retire).hwsrc = h.hwsrc := rfl
@[simp] theorem retire_macfg (h : Hart) : (h.retire).macfg = h.macfg := rfl
@[simp] theorem retire_taskid (h : Hart) : (h.retire).taskid = h.taskid := rfl
@[simp] theorem retire_taskarg (h : Hart) : (h.retire).taskarg = h.taskarg := rfl
@[simp] theorem retire_detf (h : Hart) : (h.retire).detf = h.detf := rfl
@[simp] theorem retire_tlvl (h : Hart) : (h.retire).tlvl = h.tlvl := rfl
@[simp] theorem retire_tvec (h : Hart) : (h.retire).tvec = h.tvec := rfl
@[simp] theorem retire_bank1 (h : Hart) : (h.retire).bank1 = h.bank1 := rfl
@[simp] theorem retire_bank2 (h : Hart) : (h.retire).bank2 = h.bank2 := rfl
@[simp] theorem retire_tsave (h : Hart) : (h.retire).tsave = h.tsave := rfl
@[simp] theorem retire_handles (h : Hart) : (h.retire).handles = h.handles := rfl
@[simp] theorem retire_binds (h : Hart) : (h.retire).binds = h.binds := rfl
@[simp] theorem retire_replay (h : Hart) : (h.retire).replay = h.replay := rfl
@[simp] theorem retire_inflight (h : Hart) : (h.retire).inflight = h.inflight := rfl
@[simp] theorem retire_passed (h : Hart) : (h.retire).passed = h.passed := rfl
@[simp] theorem retire_convoy (h : Hart) : (h.retire).convoy = h.convoy := rfl
@[simp] theorem retire_pwait (h : Hart) : (h.retire).pwait = h.pwait := rfl
@[simp] theorem retire_abnd (h : Hart) : (h.retire).abnd = h.abnd := rfl
@[simp] theorem retire_macroFault (h : Hart) : (h.retire).macroFault = h.macroFault := rfl
@[simp] theorem retire_replaying (h : Hart) : (h.retire).replaying = h.replaying := rfl
@[simp] theorem retire_hidden (h : Hart) : (h.retire).hidden = h.hidden := rfl
@[simp] theorem retire_pendCr (h : Hart) : (h.retire).pendCr = h.pendCr := rfl
@[simp] theorem retire_pcMark (h : Hart) : (h.retire).pcMark = h.pcMark := rfl
@[simp] theorem retire_qtail (h : Hart) : (h.retire).qtail = h.qtail := rfl
@[simp] theorem retire_word (h : Hart) : (h.retire).word = h.word := rfl
@[simp] theorem retire_mid (h : Hart) : (h.retire).mid = h.mid := rfl
@[simp] theorem retire_queue (h : Hart) : (h.retire).queue = h.queue := rfl
@[simp] theorem retire_want (h : Hart) : (h.retire).want = h.want := rfl
@[simp] theorem retire_accs (h : Hart) : (h.retire).accs = h.accs := rfl

@[simp] theorem retireTo_s (h : Hart) (p : Word) : (h.retireTo p).s = h.s := rfl
@[simp] theorem retireTo_sFE (h : Hart) (p : Word) : (h.retireTo p).sFE = h.sFE := rfl
@[simp] theorem retireTo_z (h : Hart) (p : Word) : (h.retireTo p).z = h.z := rfl
@[simp] theorem retireTo_zFE (h : Hart) (p : Word) : (h.retireTo p).zFE = h.zFE := rfl
@[simp] theorem retireTo_dirty (h : Hart) (p : Word) : (h.retireTo p).dirty = h.dirty := rfl
@[simp] theorem retireTo_vlg (h : Hart) (p : Word) : (h.retireTo p).vlg = h.vlg := rfl
@[simp] theorem retireTo_m (h : Hart) (p : Word) : (h.retireTo p).m = h.m := rfl
@[simp] theorem retireTo_mFE (h : Hart) (p : Word) : (h.retireTo p).mFE = h.mFE := rfl
@[simp] theorem retireTo_v (h : Hart) (p : Word) : (h.retireTo p).v = h.v := rfl
@[simp] theorem retireTo_vl (h : Hart) (p : Word) : (h.retireTo p).vl = h.vl := rfl
@[simp] theorem retireTo_vstride (h : Hart) (p : Word) : (h.retireTo p).vstride = h.vstride := rfl
@[simp] theorem retireTo_vmsel (h : Hart) (p : Word) : (h.retireTo p).vmsel = h.vmsel := rfl
@[simp] theorem retireTo_vsatm (h : Hart) (p : Word) : (h.retireTo p).vsatm = h.vsatm := rfl
@[simp] theorem retireTo_mspace (h : Hart) (p : Word) : (h.retireTo p).mspace = h.mspace := rfl
@[simp] theorem retireTo_fctl (h : Hart) (p : Word) : (h.retireTo p).fctl = h.fctl := rfl
@[simp] theorem retireTo_fflags (h : Hart) (p : Word) : (h.retireTo p).fflags = h.fflags := rfl
@[simp] theorem retireTo_view (h : Hart) (p : Word) : (h.retireTo p).view = h.view := rfl
@[simp] theorem retireTo_vcount (h : Hart) (p : Word) : (h.retireTo p).vcount = h.vcount := rfl
@[simp] theorem retireTo_strmf (h : Hart) (p : Word) : (h.retireTo p).strmf = h.strmf := rfl
@[simp] theorem retireTo_hwsrc (h : Hart) (p : Word) : (h.retireTo p).hwsrc = h.hwsrc := rfl
@[simp] theorem retireTo_macfg (h : Hart) (p : Word) : (h.retireTo p).macfg = h.macfg := rfl
@[simp] theorem retireTo_taskid (h : Hart) (p : Word) : (h.retireTo p).taskid = h.taskid := rfl
@[simp] theorem retireTo_taskarg (h : Hart) (p : Word) : (h.retireTo p).taskarg = h.taskarg := rfl
@[simp] theorem retireTo_detf (h : Hart) (p : Word) : (h.retireTo p).detf = h.detf := rfl
@[simp] theorem retireTo_tlvl (h : Hart) (p : Word) : (h.retireTo p).tlvl = h.tlvl := rfl
@[simp] theorem retireTo_tvec (h : Hart) (p : Word) : (h.retireTo p).tvec = h.tvec := rfl
@[simp] theorem retireTo_bank1 (h : Hart) (p : Word) : (h.retireTo p).bank1 = h.bank1 := rfl
@[simp] theorem retireTo_bank2 (h : Hart) (p : Word) : (h.retireTo p).bank2 = h.bank2 := rfl
@[simp] theorem retireTo_tsave (h : Hart) (p : Word) : (h.retireTo p).tsave = h.tsave := rfl
@[simp] theorem retireTo_handles (h : Hart) (p : Word) : (h.retireTo p).handles = h.handles := rfl
@[simp] theorem retireTo_binds (h : Hart) (p : Word) : (h.retireTo p).binds = h.binds := rfl
@[simp] theorem retireTo_replay (h : Hart) (p : Word) : (h.retireTo p).replay = h.replay := rfl
@[simp] theorem retireTo_inflight (h : Hart) (p : Word) : (h.retireTo p).inflight = h.inflight := rfl
@[simp] theorem retireTo_passed (h : Hart) (p : Word) : (h.retireTo p).passed = h.passed := rfl
@[simp] theorem retireTo_convoy (h : Hart) (p : Word) : (h.retireTo p).convoy = h.convoy := rfl
@[simp] theorem retireTo_pwait (h : Hart) (p : Word) : (h.retireTo p).pwait = h.pwait := rfl
@[simp] theorem retireTo_abnd (h : Hart) (p : Word) : (h.retireTo p).abnd = h.abnd := rfl
@[simp] theorem retireTo_macroFault (h : Hart) (p : Word) : (h.retireTo p).macroFault = h.macroFault := rfl
@[simp] theorem retireTo_replaying (h : Hart) (p : Word) : (h.retireTo p).replaying = h.replaying := rfl
@[simp] theorem retireTo_hidden (h : Hart) (p : Word) : (h.retireTo p).hidden = h.hidden := rfl
@[simp] theorem retireTo_pendCr (h : Hart) (p : Word) : (h.retireTo p).pendCr = h.pendCr := rfl
@[simp] theorem retireTo_pcMark (h : Hart) (p : Word) : (h.retireTo p).pcMark = h.pcMark := rfl
@[simp] theorem retireTo_qtail (h : Hart) (p : Word) : (h.retireTo p).qtail = h.qtail := rfl
@[simp] theorem retireTo_word (h : Hart) (p : Word) : (h.retireTo p).word = h.word := rfl
@[simp] theorem retireTo_mid (h : Hart) (p : Word) : (h.retireTo p).mid = h.mid := rfl
@[simp] theorem retireTo_queue (h : Hart) (p : Word) : (h.retireTo p).queue = h.queue := rfl
@[simp] theorem retireTo_want (h : Hart) (p : Word) : (h.retireTo p).want = h.want := rfl
@[simp] theorem retireTo_accs (h : Hart) (p : Word) : (h.retireTo p).accs = h.accs := rfl

@[simp] theorem ws_pc (h : Hart) (n : BitVec 6) (v : Word) : (h.ws n v).pc = h.pc := by unfold ws; split <;> rfl
@[simp] theorem ws_eidx (h : Hart) (n : BitVec 6) (v : Word) : (h.ws n v).eidx = h.eidx := by unfold ws; split <;> rfl
@[simp] theorem ws_sFE (h : Hart) (n : BitVec 6) (v : Word) : (h.ws n v).sFE = h.sFE := by unfold ws; split <;> rfl
@[simp] theorem ws_z (h : Hart) (n : BitVec 6) (v : Word) : (h.ws n v).z = h.z := by unfold ws; split <;> rfl
@[simp] theorem ws_zFE (h : Hart) (n : BitVec 6) (v : Word) : (h.ws n v).zFE = h.zFE := by unfold ws; split <;> rfl
@[simp] theorem ws_dirty (h : Hart) (n : BitVec 6) (v : Word) : (h.ws n v).dirty = h.dirty := by unfold ws; split <;> rfl
@[simp] theorem ws_vlg (h : Hart) (n : BitVec 6) (v : Word) : (h.ws n v).vlg = h.vlg := by unfold ws; split <;> rfl
@[simp] theorem ws_m (h : Hart) (n : BitVec 6) (v : Word) : (h.ws n v).m = h.m := by unfold ws; split <;> rfl
@[simp] theorem ws_mFE (h : Hart) (n : BitVec 6) (v : Word) : (h.ws n v).mFE = h.mFE := by unfold ws; split <;> rfl
@[simp] theorem ws_v (h : Hart) (n : BitVec 6) (v : Word) : (h.ws n v).v = h.v := by unfold ws; split <;> rfl
@[simp] theorem ws_vl (h : Hart) (n : BitVec 6) (v : Word) : (h.ws n v).vl = h.vl := by unfold ws; split <;> rfl
@[simp] theorem ws_vstride (h : Hart) (n : BitVec 6) (v : Word) : (h.ws n v).vstride = h.vstride := by unfold ws; split <;> rfl
@[simp] theorem ws_vmsel (h : Hart) (n : BitVec 6) (v : Word) : (h.ws n v).vmsel = h.vmsel := by unfold ws; split <;> rfl
@[simp] theorem ws_vsatm (h : Hart) (n : BitVec 6) (v : Word) : (h.ws n v).vsatm = h.vsatm := by unfold ws; split <;> rfl
@[simp] theorem ws_mspace (h : Hart) (n : BitVec 6) (v : Word) : (h.ws n v).mspace = h.mspace := by unfold ws; split <;> rfl
@[simp] theorem ws_fctl (h : Hart) (n : BitVec 6) (v : Word) : (h.ws n v).fctl = h.fctl := by unfold ws; split <;> rfl
@[simp] theorem ws_fflags (h : Hart) (n : BitVec 6) (v : Word) : (h.ws n v).fflags = h.fflags := by unfold ws; split <;> rfl
@[simp] theorem ws_view (h : Hart) (n : BitVec 6) (v : Word) : (h.ws n v).view = h.view := by unfold ws; split <;> rfl
@[simp] theorem ws_vcount (h : Hart) (n : BitVec 6) (v : Word) : (h.ws n v).vcount = h.vcount := by unfold ws; split <;> rfl
@[simp] theorem ws_strmf (h : Hart) (n : BitVec 6) (v : Word) : (h.ws n v).strmf = h.strmf := by unfold ws; split <;> rfl
@[simp] theorem ws_hwsrc (h : Hart) (n : BitVec 6) (v : Word) : (h.ws n v).hwsrc = h.hwsrc := by unfold ws; split <;> rfl
@[simp] theorem ws_macfg (h : Hart) (n : BitVec 6) (v : Word) : (h.ws n v).macfg = h.macfg := by unfold ws; split <;> rfl
@[simp] theorem ws_taskid (h : Hart) (n : BitVec 6) (v : Word) : (h.ws n v).taskid = h.taskid := by unfold ws; split <;> rfl
@[simp] theorem ws_taskarg (h : Hart) (n : BitVec 6) (v : Word) : (h.ws n v).taskarg = h.taskarg := by unfold ws; split <;> rfl
@[simp] theorem ws_instret (h : Hart) (n : BitVec 6) (v : Word) : (h.ws n v).instret = h.instret := by unfold ws; split <;> rfl
@[simp] theorem ws_detf (h : Hart) (n : BitVec 6) (v : Word) : (h.ws n v).detf = h.detf := by unfold ws; split <;> rfl
@[simp] theorem ws_tlvl (h : Hart) (n : BitVec 6) (v : Word) : (h.ws n v).tlvl = h.tlvl := by unfold ws; split <;> rfl
@[simp] theorem ws_tvec (h : Hart) (n : BitVec 6) (v : Word) : (h.ws n v).tvec = h.tvec := by unfold ws; split <;> rfl
@[simp] theorem ws_bank1 (h : Hart) (n : BitVec 6) (v : Word) : (h.ws n v).bank1 = h.bank1 := by unfold ws; split <;> rfl
@[simp] theorem ws_bank2 (h : Hart) (n : BitVec 6) (v : Word) : (h.ws n v).bank2 = h.bank2 := by unfold ws; split <;> rfl
@[simp] theorem ws_tsave (h : Hart) (n : BitVec 6) (v : Word) : (h.ws n v).tsave = h.tsave := by unfold ws; split <;> rfl
@[simp] theorem ws_handles (h : Hart) (n : BitVec 6) (v : Word) : (h.ws n v).handles = h.handles := by unfold ws; split <;> rfl
@[simp] theorem ws_binds (h : Hart) (n : BitVec 6) (v : Word) : (h.ws n v).binds = h.binds := by unfold ws; split <;> rfl
@[simp] theorem ws_replay (h : Hart) (n : BitVec 6) (v : Word) : (h.ws n v).replay = h.replay := by unfold ws; split <;> rfl
@[simp] theorem ws_inflight (h : Hart) (n : BitVec 6) (v : Word) : (h.ws n v).inflight = h.inflight := by unfold ws; split <;> rfl
@[simp] theorem ws_passed (h : Hart) (n : BitVec 6) (v : Word) : (h.ws n v).passed = h.passed := by unfold ws; split <;> rfl
@[simp] theorem ws_convoy (h : Hart) (n : BitVec 6) (v : Word) : (h.ws n v).convoy = h.convoy := by unfold ws; split <;> rfl
@[simp] theorem ws_pwait (h : Hart) (n : BitVec 6) (v : Word) : (h.ws n v).pwait = h.pwait := by unfold ws; split <;> rfl
@[simp] theorem ws_abnd (h : Hart) (n : BitVec 6) (v : Word) : (h.ws n v).abnd = h.abnd := by unfold ws; split <;> rfl
@[simp] theorem ws_macroFault (h : Hart) (n : BitVec 6) (v : Word) : (h.ws n v).macroFault = h.macroFault := by unfold ws; split <;> rfl
@[simp] theorem ws_replaying (h : Hart) (n : BitVec 6) (v : Word) : (h.ws n v).replaying = h.replaying := by unfold ws; split <;> rfl
@[simp] theorem ws_hidden (h : Hart) (n : BitVec 6) (v : Word) : (h.ws n v).hidden = h.hidden := by unfold ws; split <;> rfl
@[simp] theorem ws_pendCr (h : Hart) (n : BitVec 6) (v : Word) : (h.ws n v).pendCr = h.pendCr := by unfold ws; split <;> rfl
@[simp] theorem ws_pcMark (h : Hart) (n : BitVec 6) (v : Word) : (h.ws n v).pcMark = h.pcMark := by unfold ws; split <;> rfl
@[simp] theorem ws_qtail (h : Hart) (n : BitVec 6) (v : Word) : (h.ws n v).qtail = h.qtail := by unfold ws; split <;> rfl
@[simp] theorem ws_word (h : Hart) (n : BitVec 6) (v : Word) : (h.ws n v).word = h.word := by unfold ws; split <;> rfl
@[simp] theorem ws_mid (h : Hart) (n : BitVec 6) (v : Word) : (h.ws n v).mid = h.mid := by unfold ws; split <;> rfl
@[simp] theorem ws_queue (h : Hart) (n : BitVec 6) (v : Word) : (h.ws n v).queue = h.queue := by unfold ws; split <;> rfl
@[simp] theorem ws_want (h : Hart) (n : BitVec 6) (v : Word) : (h.ws n v).want = h.want := by unfold ws; split <;> rfl
@[simp] theorem ws_accs (h : Hart) (n : BitVec 6) (v : Word) : (h.ws n v).accs = h.accs := by unfold ws; split <;> rfl

@[simp] theorem wm_pc (h : Hart) (n : Nat) (v : Mask) : (h.wm n v).pc = h.pc := rfl
@[simp] theorem wm_eidx (h : Hart) (n : Nat) (v : Mask) : (h.wm n v).eidx = h.eidx := rfl
@[simp] theorem wm_s (h : Hart) (n : Nat) (v : Mask) : (h.wm n v).s = h.s := rfl
@[simp] theorem wm_sFE (h : Hart) (n : Nat) (v : Mask) : (h.wm n v).sFE = h.sFE := rfl
@[simp] theorem wm_z (h : Hart) (n : Nat) (v : Mask) : (h.wm n v).z = h.z := rfl
@[simp] theorem wm_zFE (h : Hart) (n : Nat) (v : Mask) : (h.wm n v).zFE = h.zFE := rfl
@[simp] theorem wm_dirty (h : Hart) (n : Nat) (v : Mask) : (h.wm n v).dirty = h.dirty := rfl
@[simp] theorem wm_vlg (h : Hart) (n : Nat) (v : Mask) : (h.wm n v).vlg = h.vlg := rfl
@[simp] theorem wm_mFE (h : Hart) (n : Nat) (v : Mask) : (h.wm n v).mFE = h.mFE := rfl
@[simp] theorem wm_v (h : Hart) (n : Nat) (v : Mask) : (h.wm n v).v = h.v := rfl
@[simp] theorem wm_vl (h : Hart) (n : Nat) (v : Mask) : (h.wm n v).vl = h.vl := rfl
@[simp] theorem wm_vstride (h : Hart) (n : Nat) (v : Mask) : (h.wm n v).vstride = h.vstride := rfl
@[simp] theorem wm_vmsel (h : Hart) (n : Nat) (v : Mask) : (h.wm n v).vmsel = h.vmsel := rfl
@[simp] theorem wm_vsatm (h : Hart) (n : Nat) (v : Mask) : (h.wm n v).vsatm = h.vsatm := rfl
@[simp] theorem wm_mspace (h : Hart) (n : Nat) (v : Mask) : (h.wm n v).mspace = h.mspace := rfl
@[simp] theorem wm_fctl (h : Hart) (n : Nat) (v : Mask) : (h.wm n v).fctl = h.fctl := rfl
@[simp] theorem wm_fflags (h : Hart) (n : Nat) (v : Mask) : (h.wm n v).fflags = h.fflags := rfl
@[simp] theorem wm_view (h : Hart) (n : Nat) (v : Mask) : (h.wm n v).view = h.view := rfl
@[simp] theorem wm_vcount (h : Hart) (n : Nat) (v : Mask) : (h.wm n v).vcount = h.vcount := rfl
@[simp] theorem wm_strmf (h : Hart) (n : Nat) (v : Mask) : (h.wm n v).strmf = h.strmf := rfl
@[simp] theorem wm_hwsrc (h : Hart) (n : Nat) (v : Mask) : (h.wm n v).hwsrc = h.hwsrc := rfl
@[simp] theorem wm_macfg (h : Hart) (n : Nat) (v : Mask) : (h.wm n v).macfg = h.macfg := rfl
@[simp] theorem wm_taskid (h : Hart) (n : Nat) (v : Mask) : (h.wm n v).taskid = h.taskid := rfl
@[simp] theorem wm_taskarg (h : Hart) (n : Nat) (v : Mask) : (h.wm n v).taskarg = h.taskarg := rfl
@[simp] theorem wm_instret (h : Hart) (n : Nat) (v : Mask) : (h.wm n v).instret = h.instret := rfl
@[simp] theorem wm_detf (h : Hart) (n : Nat) (v : Mask) : (h.wm n v).detf = h.detf := rfl
@[simp] theorem wm_tlvl (h : Hart) (n : Nat) (v : Mask) : (h.wm n v).tlvl = h.tlvl := rfl
@[simp] theorem wm_tvec (h : Hart) (n : Nat) (v : Mask) : (h.wm n v).tvec = h.tvec := rfl
@[simp] theorem wm_bank1 (h : Hart) (n : Nat) (v : Mask) : (h.wm n v).bank1 = h.bank1 := rfl
@[simp] theorem wm_bank2 (h : Hart) (n : Nat) (v : Mask) : (h.wm n v).bank2 = h.bank2 := rfl
@[simp] theorem wm_tsave (h : Hart) (n : Nat) (v : Mask) : (h.wm n v).tsave = h.tsave := rfl
@[simp] theorem wm_handles (h : Hart) (n : Nat) (v : Mask) : (h.wm n v).handles = h.handles := rfl
@[simp] theorem wm_binds (h : Hart) (n : Nat) (v : Mask) : (h.wm n v).binds = h.binds := rfl
@[simp] theorem wm_replay (h : Hart) (n : Nat) (v : Mask) : (h.wm n v).replay = h.replay := rfl
@[simp] theorem wm_inflight (h : Hart) (n : Nat) (v : Mask) : (h.wm n v).inflight = h.inflight := rfl
@[simp] theorem wm_passed (h : Hart) (n : Nat) (v : Mask) : (h.wm n v).passed = h.passed := rfl
@[simp] theorem wm_convoy (h : Hart) (n : Nat) (v : Mask) : (h.wm n v).convoy = h.convoy := rfl
@[simp] theorem wm_pwait (h : Hart) (n : Nat) (v : Mask) : (h.wm n v).pwait = h.pwait := rfl
@[simp] theorem wm_abnd (h : Hart) (n : Nat) (v : Mask) : (h.wm n v).abnd = h.abnd := rfl
@[simp] theorem wm_macroFault (h : Hart) (n : Nat) (v : Mask) : (h.wm n v).macroFault = h.macroFault := rfl
@[simp] theorem wm_replaying (h : Hart) (n : Nat) (v : Mask) : (h.wm n v).replaying = h.replaying := rfl
@[simp] theorem wm_hidden (h : Hart) (n : Nat) (v : Mask) : (h.wm n v).hidden = h.hidden := rfl
@[simp] theorem wm_pendCr (h : Hart) (n : Nat) (v : Mask) : (h.wm n v).pendCr = h.pendCr := rfl
@[simp] theorem wm_pcMark (h : Hart) (n : Nat) (v : Mask) : (h.wm n v).pcMark = h.pcMark := rfl
@[simp] theorem wm_qtail (h : Hart) (n : Nat) (v : Mask) : (h.wm n v).qtail = h.qtail := rfl
@[simp] theorem wm_word (h : Hart) (n : Nat) (v : Mask) : (h.wm n v).word = h.word := rfl
@[simp] theorem wm_mid (h : Hart) (n : Nat) (v : Mask) : (h.wm n v).mid = h.mid := rfl
@[simp] theorem wm_queue (h : Hart) (n : Nat) (v : Mask) : (h.wm n v).queue = h.queue := rfl
@[simp] theorem wm_want (h : Hart) (n : Nat) (v : Mask) : (h.wm n v).want = h.want := rfl
@[simp] theorem wm_accs (h : Hart) (n : Nat) (v : Mask) : (h.wm n v).accs = h.accs := rfl

@[simp] theorem wv_pc (h : Hart) (n : Nat) (x : View) : (h.wv n x).pc = h.pc := rfl
@[simp] theorem wv_eidx (h : Hart) (n : Nat) (x : View) : (h.wv n x).eidx = h.eidx := rfl
@[simp] theorem wv_s (h : Hart) (n : Nat) (x : View) : (h.wv n x).s = h.s := rfl
@[simp] theorem wv_sFE (h : Hart) (n : Nat) (x : View) : (h.wv n x).sFE = h.sFE := rfl
@[simp] theorem wv_z (h : Hart) (n : Nat) (x : View) : (h.wv n x).z = h.z := rfl
@[simp] theorem wv_zFE (h : Hart) (n : Nat) (x : View) : (h.wv n x).zFE = h.zFE := rfl
@[simp] theorem wv_dirty (h : Hart) (n : Nat) (x : View) : (h.wv n x).dirty = h.dirty := rfl
@[simp] theorem wv_vlg (h : Hart) (n : Nat) (x : View) : (h.wv n x).vlg = h.vlg := rfl
@[simp] theorem wv_m (h : Hart) (n : Nat) (x : View) : (h.wv n x).m = h.m := rfl
@[simp] theorem wv_mFE (h : Hart) (n : Nat) (x : View) : (h.wv n x).mFE = h.mFE := rfl
@[simp] theorem wv_vl (h : Hart) (n : Nat) (x : View) : (h.wv n x).vl = h.vl := rfl
@[simp] theorem wv_vstride (h : Hart) (n : Nat) (x : View) : (h.wv n x).vstride = h.vstride := rfl
@[simp] theorem wv_vmsel (h : Hart) (n : Nat) (x : View) : (h.wv n x).vmsel = h.vmsel := rfl
@[simp] theorem wv_vsatm (h : Hart) (n : Nat) (x : View) : (h.wv n x).vsatm = h.vsatm := rfl
@[simp] theorem wv_mspace (h : Hart) (n : Nat) (x : View) : (h.wv n x).mspace = h.mspace := rfl
@[simp] theorem wv_fctl (h : Hart) (n : Nat) (x : View) : (h.wv n x).fctl = h.fctl := rfl
@[simp] theorem wv_fflags (h : Hart) (n : Nat) (x : View) : (h.wv n x).fflags = h.fflags := rfl
@[simp] theorem wv_view (h : Hart) (n : Nat) (x : View) : (h.wv n x).view = h.view := rfl
@[simp] theorem wv_vcount (h : Hart) (n : Nat) (x : View) : (h.wv n x).vcount = h.vcount := rfl
@[simp] theorem wv_strmf (h : Hart) (n : Nat) (x : View) : (h.wv n x).strmf = h.strmf := rfl
@[simp] theorem wv_hwsrc (h : Hart) (n : Nat) (x : View) : (h.wv n x).hwsrc = h.hwsrc := rfl
@[simp] theorem wv_macfg (h : Hart) (n : Nat) (x : View) : (h.wv n x).macfg = h.macfg := rfl
@[simp] theorem wv_taskid (h : Hart) (n : Nat) (x : View) : (h.wv n x).taskid = h.taskid := rfl
@[simp] theorem wv_taskarg (h : Hart) (n : Nat) (x : View) : (h.wv n x).taskarg = h.taskarg := rfl
@[simp] theorem wv_instret (h : Hart) (n : Nat) (x : View) : (h.wv n x).instret = h.instret := rfl
@[simp] theorem wv_detf (h : Hart) (n : Nat) (x : View) : (h.wv n x).detf = h.detf := rfl
@[simp] theorem wv_tlvl (h : Hart) (n : Nat) (x : View) : (h.wv n x).tlvl = h.tlvl := rfl
@[simp] theorem wv_tvec (h : Hart) (n : Nat) (x : View) : (h.wv n x).tvec = h.tvec := rfl
@[simp] theorem wv_bank1 (h : Hart) (n : Nat) (x : View) : (h.wv n x).bank1 = h.bank1 := rfl
@[simp] theorem wv_bank2 (h : Hart) (n : Nat) (x : View) : (h.wv n x).bank2 = h.bank2 := rfl
@[simp] theorem wv_tsave (h : Hart) (n : Nat) (x : View) : (h.wv n x).tsave = h.tsave := rfl
@[simp] theorem wv_handles (h : Hart) (n : Nat) (x : View) : (h.wv n x).handles = h.handles := rfl
@[simp] theorem wv_binds (h : Hart) (n : Nat) (x : View) : (h.wv n x).binds = h.binds := rfl
@[simp] theorem wv_replay (h : Hart) (n : Nat) (x : View) : (h.wv n x).replay = h.replay := rfl
@[simp] theorem wv_inflight (h : Hart) (n : Nat) (x : View) : (h.wv n x).inflight = h.inflight := rfl
@[simp] theorem wv_passed (h : Hart) (n : Nat) (x : View) : (h.wv n x).passed = h.passed := rfl
@[simp] theorem wv_convoy (h : Hart) (n : Nat) (x : View) : (h.wv n x).convoy = h.convoy := rfl
@[simp] theorem wv_pwait (h : Hart) (n : Nat) (x : View) : (h.wv n x).pwait = h.pwait := rfl
@[simp] theorem wv_abnd (h : Hart) (n : Nat) (x : View) : (h.wv n x).abnd = h.abnd := rfl
@[simp] theorem wv_macroFault (h : Hart) (n : Nat) (x : View) : (h.wv n x).macroFault = h.macroFault := rfl
@[simp] theorem wv_replaying (h : Hart) (n : Nat) (x : View) : (h.wv n x).replaying = h.replaying := rfl
@[simp] theorem wv_hidden (h : Hart) (n : Nat) (x : View) : (h.wv n x).hidden = h.hidden := rfl
@[simp] theorem wv_pendCr (h : Hart) (n : Nat) (x : View) : (h.wv n x).pendCr = h.pendCr := rfl
@[simp] theorem wv_pcMark (h : Hart) (n : Nat) (x : View) : (h.wv n x).pcMark = h.pcMark := rfl
@[simp] theorem wv_qtail (h : Hart) (n : Nat) (x : View) : (h.wv n x).qtail = h.qtail := rfl
@[simp] theorem wv_word (h : Hart) (n : Nat) (x : View) : (h.wv n x).word = h.word := rfl
@[simp] theorem wv_mid (h : Hart) (n : Nat) (x : View) : (h.wv n x).mid = h.mid := rfl
@[simp] theorem wv_queue (h : Hart) (n : Nat) (x : View) : (h.wv n x).queue = h.queue := rfl
@[simp] theorem wv_want (h : Hart) (n : Nat) (x : View) : (h.wv n x).want = h.want := rfl
@[simp] theorem wv_accs (h : Hart) (n : Nat) (x : View) : (h.wv n x).accs = h.accs := rfl

@[simp] theorem setBank_pc (h : Hart) (n : Nat) (b : Bank) : (h.setBank n b).pc = h.pc := by unfold setBank; split <;> rfl
@[simp] theorem setBank_eidx (h : Hart) (n : Nat) (b : Bank) : (h.setBank n b).eidx = h.eidx := by unfold setBank; split <;> rfl
@[simp] theorem setBank_s (h : Hart) (n : Nat) (b : Bank) : (h.setBank n b).s = h.s := by unfold setBank; split <;> rfl
@[simp] theorem setBank_sFE (h : Hart) (n : Nat) (b : Bank) : (h.setBank n b).sFE = h.sFE := by unfold setBank; split <;> rfl
@[simp] theorem setBank_z (h : Hart) (n : Nat) (b : Bank) : (h.setBank n b).z = h.z := by unfold setBank; split <;> rfl
@[simp] theorem setBank_zFE (h : Hart) (n : Nat) (b : Bank) : (h.setBank n b).zFE = h.zFE := by unfold setBank; split <;> rfl
@[simp] theorem setBank_dirty (h : Hart) (n : Nat) (b : Bank) : (h.setBank n b).dirty = h.dirty := by unfold setBank; split <;> rfl
@[simp] theorem setBank_vlg (h : Hart) (n : Nat) (b : Bank) : (h.setBank n b).vlg = h.vlg := by unfold setBank; split <;> rfl
@[simp] theorem setBank_m (h : Hart) (n : Nat) (b : Bank) : (h.setBank n b).m = h.m := by unfold setBank; split <;> rfl
@[simp] theorem setBank_mFE (h : Hart) (n : Nat) (b : Bank) : (h.setBank n b).mFE = h.mFE := by unfold setBank; split <;> rfl
@[simp] theorem setBank_v (h : Hart) (n : Nat) (b : Bank) : (h.setBank n b).v = h.v := by unfold setBank; split <;> rfl
@[simp] theorem setBank_vl (h : Hart) (n : Nat) (b : Bank) : (h.setBank n b).vl = h.vl := by unfold setBank; split <;> rfl
@[simp] theorem setBank_vstride (h : Hart) (n : Nat) (b : Bank) : (h.setBank n b).vstride = h.vstride := by unfold setBank; split <;> rfl
@[simp] theorem setBank_vmsel (h : Hart) (n : Nat) (b : Bank) : (h.setBank n b).vmsel = h.vmsel := by unfold setBank; split <;> rfl
@[simp] theorem setBank_vsatm (h : Hart) (n : Nat) (b : Bank) : (h.setBank n b).vsatm = h.vsatm := by unfold setBank; split <;> rfl
@[simp] theorem setBank_mspace (h : Hart) (n : Nat) (b : Bank) : (h.setBank n b).mspace = h.mspace := by unfold setBank; split <;> rfl
@[simp] theorem setBank_fctl (h : Hart) (n : Nat) (b : Bank) : (h.setBank n b).fctl = h.fctl := by unfold setBank; split <;> rfl
@[simp] theorem setBank_fflags (h : Hart) (n : Nat) (b : Bank) : (h.setBank n b).fflags = h.fflags := by unfold setBank; split <;> rfl
@[simp] theorem setBank_view (h : Hart) (n : Nat) (b : Bank) : (h.setBank n b).view = h.view := by unfold setBank; split <;> rfl
@[simp] theorem setBank_vcount (h : Hart) (n : Nat) (b : Bank) : (h.setBank n b).vcount = h.vcount := by unfold setBank; split <;> rfl
@[simp] theorem setBank_strmf (h : Hart) (n : Nat) (b : Bank) : (h.setBank n b).strmf = h.strmf := by unfold setBank; split <;> rfl
@[simp] theorem setBank_hwsrc (h : Hart) (n : Nat) (b : Bank) : (h.setBank n b).hwsrc = h.hwsrc := by unfold setBank; split <;> rfl
@[simp] theorem setBank_macfg (h : Hart) (n : Nat) (b : Bank) : (h.setBank n b).macfg = h.macfg := by unfold setBank; split <;> rfl
@[simp] theorem setBank_taskid (h : Hart) (n : Nat) (b : Bank) : (h.setBank n b).taskid = h.taskid := by unfold setBank; split <;> rfl
@[simp] theorem setBank_taskarg (h : Hart) (n : Nat) (b : Bank) : (h.setBank n b).taskarg = h.taskarg := by unfold setBank; split <;> rfl
@[simp] theorem setBank_instret (h : Hart) (n : Nat) (b : Bank) : (h.setBank n b).instret = h.instret := by unfold setBank; split <;> rfl
@[simp] theorem setBank_detf (h : Hart) (n : Nat) (b : Bank) : (h.setBank n b).detf = h.detf := by unfold setBank; split <;> rfl
@[simp] theorem setBank_tlvl (h : Hart) (n : Nat) (b : Bank) : (h.setBank n b).tlvl = h.tlvl := by unfold setBank; split <;> rfl
@[simp] theorem setBank_tvec (h : Hart) (n : Nat) (b : Bank) : (h.setBank n b).tvec = h.tvec := by unfold setBank; split <;> rfl
@[simp] theorem setBank_tsave (h : Hart) (n : Nat) (b : Bank) : (h.setBank n b).tsave = h.tsave := by unfold setBank; split <;> rfl
@[simp] theorem setBank_handles (h : Hart) (n : Nat) (b : Bank) : (h.setBank n b).handles = h.handles := by unfold setBank; split <;> rfl
@[simp] theorem setBank_binds (h : Hart) (n : Nat) (b : Bank) : (h.setBank n b).binds = h.binds := by unfold setBank; split <;> rfl
@[simp] theorem setBank_replay (h : Hart) (n : Nat) (b : Bank) : (h.setBank n b).replay = h.replay := by unfold setBank; split <;> rfl
@[simp] theorem setBank_inflight (h : Hart) (n : Nat) (b : Bank) : (h.setBank n b).inflight = h.inflight := by unfold setBank; split <;> rfl
@[simp] theorem setBank_passed (h : Hart) (n : Nat) (b : Bank) : (h.setBank n b).passed = h.passed := by unfold setBank; split <;> rfl
@[simp] theorem setBank_convoy (h : Hart) (n : Nat) (b : Bank) : (h.setBank n b).convoy = h.convoy := by unfold setBank; split <;> rfl
@[simp] theorem setBank_pwait (h : Hart) (n : Nat) (b : Bank) : (h.setBank n b).pwait = h.pwait := by unfold setBank; split <;> rfl
@[simp] theorem setBank_abnd (h : Hart) (n : Nat) (b : Bank) : (h.setBank n b).abnd = h.abnd := by unfold setBank; split <;> rfl
@[simp] theorem setBank_macroFault (h : Hart) (n : Nat) (b : Bank) : (h.setBank n b).macroFault = h.macroFault := by unfold setBank; split <;> rfl
@[simp] theorem setBank_replaying (h : Hart) (n : Nat) (b : Bank) : (h.setBank n b).replaying = h.replaying := by unfold setBank; split <;> rfl
@[simp] theorem setBank_hidden (h : Hart) (n : Nat) (b : Bank) : (h.setBank n b).hidden = h.hidden := by unfold setBank; split <;> rfl
@[simp] theorem setBank_pendCr (h : Hart) (n : Nat) (b : Bank) : (h.setBank n b).pendCr = h.pendCr := by unfold setBank; split <;> rfl
@[simp] theorem setBank_pcMark (h : Hart) (n : Nat) (b : Bank) : (h.setBank n b).pcMark = h.pcMark := by unfold setBank; split <;> rfl
@[simp] theorem setBank_qtail (h : Hart) (n : Nat) (b : Bank) : (h.setBank n b).qtail = h.qtail := by unfold setBank; split <;> rfl
@[simp] theorem setBank_word (h : Hart) (n : Nat) (b : Bank) : (h.setBank n b).word = h.word := by unfold setBank; split <;> rfl
@[simp] theorem setBank_mid (h : Hart) (n : Nat) (b : Bank) : (h.setBank n b).mid = h.mid := by unfold setBank; split <;> rfl
@[simp] theorem setBank_queue (h : Hart) (n : Nat) (b : Bank) : (h.setBank n b).queue = h.queue := by unfold setBank; split <;> rfl
@[simp] theorem setBank_want (h : Hart) (n : Nat) (b : Bank) : (h.setBank n b).want = h.want := by unfold setBank; split <;> rfl
@[simp] theorem setBank_accs (h : Hart) (n : Nat) (b : Bank) : (h.setBank n b).accs = h.accs := by unfold setBank; split <;> rfl

@[simp] theorem orFlags_pc (h : Hart) (f : Flags) : (h.orFlags f).pc = h.pc := rfl
@[simp] theorem orFlags_eidx (h : Hart) (f : Flags) : (h.orFlags f).eidx = h.eidx := rfl
@[simp] theorem orFlags_s (h : Hart) (f : Flags) : (h.orFlags f).s = h.s := rfl
@[simp] theorem orFlags_sFE (h : Hart) (f : Flags) : (h.orFlags f).sFE = h.sFE := rfl
@[simp] theorem orFlags_z (h : Hart) (f : Flags) : (h.orFlags f).z = h.z := rfl
@[simp] theorem orFlags_zFE (h : Hart) (f : Flags) : (h.orFlags f).zFE = h.zFE := rfl
@[simp] theorem orFlags_dirty (h : Hart) (f : Flags) : (h.orFlags f).dirty = h.dirty := rfl
@[simp] theorem orFlags_vlg (h : Hart) (f : Flags) : (h.orFlags f).vlg = h.vlg := rfl
@[simp] theorem orFlags_m (h : Hart) (f : Flags) : (h.orFlags f).m = h.m := rfl
@[simp] theorem orFlags_mFE (h : Hart) (f : Flags) : (h.orFlags f).mFE = h.mFE := rfl
@[simp] theorem orFlags_v (h : Hart) (f : Flags) : (h.orFlags f).v = h.v := rfl
@[simp] theorem orFlags_vl (h : Hart) (f : Flags) : (h.orFlags f).vl = h.vl := rfl
@[simp] theorem orFlags_vstride (h : Hart) (f : Flags) : (h.orFlags f).vstride = h.vstride := rfl
@[simp] theorem orFlags_vmsel (h : Hart) (f : Flags) : (h.orFlags f).vmsel = h.vmsel := rfl
@[simp] theorem orFlags_vsatm (h : Hart) (f : Flags) : (h.orFlags f).vsatm = h.vsatm := rfl
@[simp] theorem orFlags_mspace (h : Hart) (f : Flags) : (h.orFlags f).mspace = h.mspace := rfl
@[simp] theorem orFlags_fctl (h : Hart) (f : Flags) : (h.orFlags f).fctl = h.fctl := rfl
@[simp] theorem orFlags_view (h : Hart) (f : Flags) : (h.orFlags f).view = h.view := rfl
@[simp] theorem orFlags_vcount (h : Hart) (f : Flags) : (h.orFlags f).vcount = h.vcount := rfl
@[simp] theorem orFlags_strmf (h : Hart) (f : Flags) : (h.orFlags f).strmf = h.strmf := rfl
@[simp] theorem orFlags_hwsrc (h : Hart) (f : Flags) : (h.orFlags f).hwsrc = h.hwsrc := rfl
@[simp] theorem orFlags_macfg (h : Hart) (f : Flags) : (h.orFlags f).macfg = h.macfg := rfl
@[simp] theorem orFlags_taskid (h : Hart) (f : Flags) : (h.orFlags f).taskid = h.taskid := rfl
@[simp] theorem orFlags_taskarg (h : Hart) (f : Flags) : (h.orFlags f).taskarg = h.taskarg := rfl
@[simp] theorem orFlags_instret (h : Hart) (f : Flags) : (h.orFlags f).instret = h.instret := rfl
@[simp] theorem orFlags_detf (h : Hart) (f : Flags) : (h.orFlags f).detf = h.detf := rfl
@[simp] theorem orFlags_tlvl (h : Hart) (f : Flags) : (h.orFlags f).tlvl = h.tlvl := rfl
@[simp] theorem orFlags_tvec (h : Hart) (f : Flags) : (h.orFlags f).tvec = h.tvec := rfl
@[simp] theorem orFlags_bank1 (h : Hart) (f : Flags) : (h.orFlags f).bank1 = h.bank1 := rfl
@[simp] theorem orFlags_bank2 (h : Hart) (f : Flags) : (h.orFlags f).bank2 = h.bank2 := rfl
@[simp] theorem orFlags_tsave (h : Hart) (f : Flags) : (h.orFlags f).tsave = h.tsave := rfl
@[simp] theorem orFlags_handles (h : Hart) (f : Flags) : (h.orFlags f).handles = h.handles := rfl
@[simp] theorem orFlags_binds (h : Hart) (f : Flags) : (h.orFlags f).binds = h.binds := rfl
@[simp] theorem orFlags_replay (h : Hart) (f : Flags) : (h.orFlags f).replay = h.replay := rfl
@[simp] theorem orFlags_inflight (h : Hart) (f : Flags) : (h.orFlags f).inflight = h.inflight := rfl
@[simp] theorem orFlags_passed (h : Hart) (f : Flags) : (h.orFlags f).passed = h.passed := rfl
@[simp] theorem orFlags_convoy (h : Hart) (f : Flags) : (h.orFlags f).convoy = h.convoy := rfl
@[simp] theorem orFlags_pwait (h : Hart) (f : Flags) : (h.orFlags f).pwait = h.pwait := rfl
@[simp] theorem orFlags_abnd (h : Hart) (f : Flags) : (h.orFlags f).abnd = h.abnd := rfl
@[simp] theorem orFlags_macroFault (h : Hart) (f : Flags) : (h.orFlags f).macroFault = h.macroFault := rfl
@[simp] theorem orFlags_replaying (h : Hart) (f : Flags) : (h.orFlags f).replaying = h.replaying := rfl
@[simp] theorem orFlags_hidden (h : Hart) (f : Flags) : (h.orFlags f).hidden = h.hidden := rfl
@[simp] theorem orFlags_pendCr (h : Hart) (f : Flags) : (h.orFlags f).pendCr = h.pendCr := rfl
@[simp] theorem orFlags_pcMark (h : Hart) (f : Flags) : (h.orFlags f).pcMark = h.pcMark := rfl
@[simp] theorem orFlags_qtail (h : Hart) (f : Flags) : (h.orFlags f).qtail = h.qtail := rfl
@[simp] theorem orFlags_word (h : Hart) (f : Flags) : (h.orFlags f).word = h.word := rfl
@[simp] theorem orFlags_mid (h : Hart) (f : Flags) : (h.orFlags f).mid = h.mid := rfl
@[simp] theorem orFlags_queue (h : Hart) (f : Flags) : (h.orFlags f).queue = h.queue := rfl
@[simp] theorem orFlags_want (h : Hart) (f : Flags) : (h.orFlags f).want = h.want := rfl
@[simp] theorem orFlags_accs (h : Hart) (f : Flags) : (h.orFlags f).accs = h.accs := rfl

@[simp] theorem touch_pc (h : Hart) (z : BitVec 64) (n : Nat) : (h.touch z n).pc = h.pc := rfl
@[simp] theorem touch_eidx (h : Hart) (z : BitVec 64) (n : Nat) : (h.touch z n).eidx = h.eidx := rfl
@[simp] theorem touch_s (h : Hart) (z : BitVec 64) (n : Nat) : (h.touch z n).s = h.s := rfl
@[simp] theorem touch_sFE (h : Hart) (z : BitVec 64) (n : Nat) : (h.touch z n).sFE = h.sFE := rfl
@[simp] theorem touch_z (h : Hart) (z : BitVec 64) (n : Nat) : (h.touch z n).z = h.z := rfl
@[simp] theorem touch_zFE (h : Hart) (z : BitVec 64) (n : Nat) : (h.touch z n).zFE = h.zFE := rfl
@[simp] theorem touch_m (h : Hart) (z : BitVec 64) (n : Nat) : (h.touch z n).m = h.m := rfl
@[simp] theorem touch_mFE (h : Hart) (z : BitVec 64) (n : Nat) : (h.touch z n).mFE = h.mFE := rfl
@[simp] theorem touch_v (h : Hart) (z : BitVec 64) (n : Nat) : (h.touch z n).v = h.v := rfl
@[simp] theorem touch_vl (h : Hart) (z : BitVec 64) (n : Nat) : (h.touch z n).vl = h.vl := rfl
@[simp] theorem touch_vstride (h : Hart) (z : BitVec 64) (n : Nat) : (h.touch z n).vstride = h.vstride := rfl
@[simp] theorem touch_vmsel (h : Hart) (z : BitVec 64) (n : Nat) : (h.touch z n).vmsel = h.vmsel := rfl
@[simp] theorem touch_vsatm (h : Hart) (z : BitVec 64) (n : Nat) : (h.touch z n).vsatm = h.vsatm := rfl
@[simp] theorem touch_mspace (h : Hart) (z : BitVec 64) (n : Nat) : (h.touch z n).mspace = h.mspace := rfl
@[simp] theorem touch_fctl (h : Hart) (z : BitVec 64) (n : Nat) : (h.touch z n).fctl = h.fctl := rfl
@[simp] theorem touch_fflags (h : Hart) (z : BitVec 64) (n : Nat) : (h.touch z n).fflags = h.fflags := rfl
@[simp] theorem touch_view (h : Hart) (z : BitVec 64) (n : Nat) : (h.touch z n).view = h.view := rfl
@[simp] theorem touch_vcount (h : Hart) (z : BitVec 64) (n : Nat) : (h.touch z n).vcount = h.vcount := rfl
@[simp] theorem touch_strmf (h : Hart) (z : BitVec 64) (n : Nat) : (h.touch z n).strmf = h.strmf := rfl
@[simp] theorem touch_hwsrc (h : Hart) (z : BitVec 64) (n : Nat) : (h.touch z n).hwsrc = h.hwsrc := rfl
@[simp] theorem touch_macfg (h : Hart) (z : BitVec 64) (n : Nat) : (h.touch z n).macfg = h.macfg := rfl
@[simp] theorem touch_taskid (h : Hart) (z : BitVec 64) (n : Nat) : (h.touch z n).taskid = h.taskid := rfl
@[simp] theorem touch_taskarg (h : Hart) (z : BitVec 64) (n : Nat) : (h.touch z n).taskarg = h.taskarg := rfl
@[simp] theorem touch_instret (h : Hart) (z : BitVec 64) (n : Nat) : (h.touch z n).instret = h.instret := rfl
@[simp] theorem touch_detf (h : Hart) (z : BitVec 64) (n : Nat) : (h.touch z n).detf = h.detf := rfl
@[simp] theorem touch_tlvl (h : Hart) (z : BitVec 64) (n : Nat) : (h.touch z n).tlvl = h.tlvl := rfl
@[simp] theorem touch_tvec (h : Hart) (z : BitVec 64) (n : Nat) : (h.touch z n).tvec = h.tvec := rfl
@[simp] theorem touch_bank1 (h : Hart) (z : BitVec 64) (n : Nat) : (h.touch z n).bank1 = h.bank1 := rfl
@[simp] theorem touch_bank2 (h : Hart) (z : BitVec 64) (n : Nat) : (h.touch z n).bank2 = h.bank2 := rfl
@[simp] theorem touch_tsave (h : Hart) (z : BitVec 64) (n : Nat) : (h.touch z n).tsave = h.tsave := rfl
@[simp] theorem touch_handles (h : Hart) (z : BitVec 64) (n : Nat) : (h.touch z n).handles = h.handles := rfl
@[simp] theorem touch_binds (h : Hart) (z : BitVec 64) (n : Nat) : (h.touch z n).binds = h.binds := rfl
@[simp] theorem touch_replay (h : Hart) (z : BitVec 64) (n : Nat) : (h.touch z n).replay = h.replay := rfl
@[simp] theorem touch_inflight (h : Hart) (z : BitVec 64) (n : Nat) : (h.touch z n).inflight = h.inflight := rfl
@[simp] theorem touch_passed (h : Hart) (z : BitVec 64) (n : Nat) : (h.touch z n).passed = h.passed := rfl
@[simp] theorem touch_convoy (h : Hart) (z : BitVec 64) (n : Nat) : (h.touch z n).convoy = h.convoy := rfl
@[simp] theorem touch_pwait (h : Hart) (z : BitVec 64) (n : Nat) : (h.touch z n).pwait = h.pwait := rfl
@[simp] theorem touch_abnd (h : Hart) (z : BitVec 64) (n : Nat) : (h.touch z n).abnd = h.abnd := rfl
@[simp] theorem touch_macroFault (h : Hart) (z : BitVec 64) (n : Nat) : (h.touch z n).macroFault = h.macroFault := rfl
@[simp] theorem touch_replaying (h : Hart) (z : BitVec 64) (n : Nat) : (h.touch z n).replaying = h.replaying := rfl
@[simp] theorem touch_hidden (h : Hart) (z : BitVec 64) (n : Nat) : (h.touch z n).hidden = h.hidden := rfl
@[simp] theorem touch_pendCr (h : Hart) (z : BitVec 64) (n : Nat) : (h.touch z n).pendCr = h.pendCr := rfl
@[simp] theorem touch_pcMark (h : Hart) (z : BitVec 64) (n : Nat) : (h.touch z n).pcMark = h.pcMark := rfl
@[simp] theorem touch_qtail (h : Hart) (z : BitVec 64) (n : Nat) : (h.touch z n).qtail = h.qtail := rfl
@[simp] theorem touch_word (h : Hart) (z : BitVec 64) (n : Nat) : (h.touch z n).word = h.word := rfl
@[simp] theorem touch_mid (h : Hart) (z : BitVec 64) (n : Nat) : (h.touch z n).mid = h.mid := rfl
@[simp] theorem touch_queue (h : Hart) (z : BitVec 64) (n : Nat) : (h.touch z n).queue = h.queue := rfl
@[simp] theorem touch_want (h : Hart) (z : BitVec 64) (n : Nat) : (h.touch z n).want = h.want := rfl
@[simp] theorem touch_accs (h : Hart) (z : BitVec 64) (n : Nat) : (h.touch z n).accs = h.accs := rfl

@[simp] theorem orSat_pc (h : Hart) (x : Mask) : (h.orSat x).pc = h.pc := by unfold orSat; split <;> rfl
@[simp] theorem orSat_eidx (h : Hart) (x : Mask) : (h.orSat x).eidx = h.eidx := by unfold orSat; split <;> rfl
@[simp] theorem orSat_s (h : Hart) (x : Mask) : (h.orSat x).s = h.s := by unfold orSat; split <;> rfl
@[simp] theorem orSat_sFE (h : Hart) (x : Mask) : (h.orSat x).sFE = h.sFE := by unfold orSat; split <;> rfl
@[simp] theorem orSat_z (h : Hart) (x : Mask) : (h.orSat x).z = h.z := by unfold orSat; split <;> rfl
@[simp] theorem orSat_zFE (h : Hart) (x : Mask) : (h.orSat x).zFE = h.zFE := by unfold orSat; split <;> rfl
@[simp] theorem orSat_dirty (h : Hart) (x : Mask) : (h.orSat x).dirty = h.dirty := by unfold orSat; split <;> rfl
@[simp] theorem orSat_vlg (h : Hart) (x : Mask) : (h.orSat x).vlg = h.vlg := by unfold orSat; split <;> rfl
@[simp] theorem orSat_mFE (h : Hart) (x : Mask) : (h.orSat x).mFE = h.mFE := by unfold orSat; split <;> rfl
@[simp] theorem orSat_v (h : Hart) (x : Mask) : (h.orSat x).v = h.v := by unfold orSat; split <;> rfl
@[simp] theorem orSat_vl (h : Hart) (x : Mask) : (h.orSat x).vl = h.vl := by unfold orSat; split <;> rfl
@[simp] theorem orSat_vstride (h : Hart) (x : Mask) : (h.orSat x).vstride = h.vstride := by unfold orSat; split <;> rfl
@[simp] theorem orSat_vmsel (h : Hart) (x : Mask) : (h.orSat x).vmsel = h.vmsel := by unfold orSat; split <;> rfl
@[simp] theorem orSat_vsatm (h : Hart) (x : Mask) : (h.orSat x).vsatm = h.vsatm := by unfold orSat; split <;> rfl
@[simp] theorem orSat_mspace (h : Hart) (x : Mask) : (h.orSat x).mspace = h.mspace := by unfold orSat; split <;> rfl
@[simp] theorem orSat_fctl (h : Hart) (x : Mask) : (h.orSat x).fctl = h.fctl := by unfold orSat; split <;> rfl
@[simp] theorem orSat_fflags (h : Hart) (x : Mask) : (h.orSat x).fflags = h.fflags := by unfold orSat; split <;> rfl
@[simp] theorem orSat_view (h : Hart) (x : Mask) : (h.orSat x).view = h.view := by unfold orSat; split <;> rfl
@[simp] theorem orSat_vcount (h : Hart) (x : Mask) : (h.orSat x).vcount = h.vcount := by unfold orSat; split <;> rfl
@[simp] theorem orSat_strmf (h : Hart) (x : Mask) : (h.orSat x).strmf = h.strmf := by unfold orSat; split <;> rfl
@[simp] theorem orSat_hwsrc (h : Hart) (x : Mask) : (h.orSat x).hwsrc = h.hwsrc := by unfold orSat; split <;> rfl
@[simp] theorem orSat_macfg (h : Hart) (x : Mask) : (h.orSat x).macfg = h.macfg := by unfold orSat; split <;> rfl
@[simp] theorem orSat_taskid (h : Hart) (x : Mask) : (h.orSat x).taskid = h.taskid := by unfold orSat; split <;> rfl
@[simp] theorem orSat_taskarg (h : Hart) (x : Mask) : (h.orSat x).taskarg = h.taskarg := by unfold orSat; split <;> rfl
@[simp] theorem orSat_instret (h : Hart) (x : Mask) : (h.orSat x).instret = h.instret := by unfold orSat; split <;> rfl
@[simp] theorem orSat_detf (h : Hart) (x : Mask) : (h.orSat x).detf = h.detf := by unfold orSat; split <;> rfl
@[simp] theorem orSat_tlvl (h : Hart) (x : Mask) : (h.orSat x).tlvl = h.tlvl := by unfold orSat; split <;> rfl
@[simp] theorem orSat_tvec (h : Hart) (x : Mask) : (h.orSat x).tvec = h.tvec := by unfold orSat; split <;> rfl
@[simp] theorem orSat_bank1 (h : Hart) (x : Mask) : (h.orSat x).bank1 = h.bank1 := by unfold orSat; split <;> rfl
@[simp] theorem orSat_bank2 (h : Hart) (x : Mask) : (h.orSat x).bank2 = h.bank2 := by unfold orSat; split <;> rfl
@[simp] theorem orSat_tsave (h : Hart) (x : Mask) : (h.orSat x).tsave = h.tsave := by unfold orSat; split <;> rfl
@[simp] theorem orSat_handles (h : Hart) (x : Mask) : (h.orSat x).handles = h.handles := by unfold orSat; split <;> rfl
@[simp] theorem orSat_binds (h : Hart) (x : Mask) : (h.orSat x).binds = h.binds := by unfold orSat; split <;> rfl
@[simp] theorem orSat_replay (h : Hart) (x : Mask) : (h.orSat x).replay = h.replay := by unfold orSat; split <;> rfl
@[simp] theorem orSat_inflight (h : Hart) (x : Mask) : (h.orSat x).inflight = h.inflight := by unfold orSat; split <;> rfl
@[simp] theorem orSat_passed (h : Hart) (x : Mask) : (h.orSat x).passed = h.passed := by unfold orSat; split <;> rfl
@[simp] theorem orSat_convoy (h : Hart) (x : Mask) : (h.orSat x).convoy = h.convoy := by unfold orSat; split <;> rfl
@[simp] theorem orSat_pwait (h : Hart) (x : Mask) : (h.orSat x).pwait = h.pwait := by unfold orSat; split <;> rfl
@[simp] theorem orSat_abnd (h : Hart) (x : Mask) : (h.orSat x).abnd = h.abnd := by unfold orSat; split <;> rfl
@[simp] theorem orSat_macroFault (h : Hart) (x : Mask) : (h.orSat x).macroFault = h.macroFault := by unfold orSat; split <;> rfl
@[simp] theorem orSat_replaying (h : Hart) (x : Mask) : (h.orSat x).replaying = h.replaying := by unfold orSat; split <;> rfl
@[simp] theorem orSat_hidden (h : Hart) (x : Mask) : (h.orSat x).hidden = h.hidden := by unfold orSat; split <;> rfl
@[simp] theorem orSat_pendCr (h : Hart) (x : Mask) : (h.orSat x).pendCr = h.pendCr := by unfold orSat; split <;> rfl
@[simp] theorem orSat_pcMark (h : Hart) (x : Mask) : (h.orSat x).pcMark = h.pcMark := by unfold orSat; split <;> rfl
@[simp] theorem orSat_qtail (h : Hart) (x : Mask) : (h.orSat x).qtail = h.qtail := by unfold orSat; split <;> rfl
@[simp] theorem orSat_word (h : Hart) (x : Mask) : (h.orSat x).word = h.word := by unfold orSat; split <;> rfl
@[simp] theorem orSat_mid (h : Hart) (x : Mask) : (h.orSat x).mid = h.mid := by unfold orSat; split <;> rfl
@[simp] theorem orSat_queue (h : Hart) (x : Mask) : (h.orSat x).queue = h.queue := by unfold orSat; split <;> rfl
@[simp] theorem orSat_want (h : Hart) (x : Mask) : (h.orSat x).want = h.want := by unfold orSat; split <;> rfl
@[simp] theorem orSat_accs (h : Hart) (x : Mask) : (h.orSat x).accs = h.accs := by unfold orSat; split <;> rfl

@[simp] theorem retire_pc (h : Hart) : h.retire.pc = h.pc + 4 := rfl
@[simp] theorem retire_eidx (h : Hart) : h.retire.eidx = 0 := rfl
@[simp] theorem retire_instret (h : Hart) : h.retire.instret = h.instret + 1 := rfl
@[simp] theorem retireTo_pc (h : Hart) (p : Word) : (h.retireTo p).pc = p := rfl
@[simp] theorem retireTo_eidx (h : Hart) (p : Word) : (h.retireTo p).eidx = 0 := rfl
@[simp] theorem retireTo_instret (h : Hart) (p : Word) : (h.retireTo p).instret = h.instret + 1 := rfl
@[simp] theorem orFlags_fflags (h : Hart) (f : Flags) : (h.orFlags f).fflags = h.fflags ||| f := rfl

/-- s0 reads as zero. -/
@[simp] theorem rs_zero (h : Hart) : h.rs 0 = 0 := rfl

/-- A scalar register after a write: s0 keeps reading as zero, the register written holds the value. -/
theorem rs_ws (h : Hart) (d r : BitVec 6) (v : Word) : (h.ws d v).rs r = if r = d ∧ d ≠ 0 then v else h.rs r := by
  have hn : d.toNat = r.toNat ↔ d = r := ⟨fun e => BitVec.eq_of_toNat_eq e, fun e => e ▸ rfl⟩
  unfold ws rs
  by_cases hd : d = 0
  · simp [hd]
  · by_cases hr : r = 0
    · rw [if_pos hr, if_pos hr, if_neg (fun (e : r = d ∧ d ≠ 0) => hd (e.1 ▸ hr))]
    · simp only [hd, hr, ↓reduceIte, SMap.get_set, ne_eq, not_false_eq_true, and_true]
      by_cases h1 : r = d
      · simp [h1]
      · rw [if_neg h1, if_neg (fun e => h1 (BitVec.eq_of_toNat_eq e))]

@[simp] theorem retire_rs (h : Hart) (r : BitVec 6) : h.retire.rs r = h.rs r := rfl
@[simp] theorem retireTo_rs (h : Hart) (p : Word) (r : BitVec 6) : (h.retireTo p).rs r = h.rs r := rfl
@[simp] theorem orFlags_rs (h : Hart) (f : Flags) (r : BitVec 6) : (h.orFlags f).rs r = h.rs r := rfl

theorem rm_wm (h : Hart) (n k : Nat) (v : Mask) : (h.wm n v).rm k = if k = n then v else h.rm k := by
  simp [wm, rm, SMap.get_set]

theorem rv_wv (h : Hart) (n k : Nat) (x : View) : (h.wv n x).rv k = if k = n then x else h.rv k := by
  simp [wv, rv, SMap.get_set]

/-- Saturation sets bits of the mask that VSATM names, and changes no other mask. -/
theorem rm_orSat (h : Hart) (x : Mask) (k : Nat) :
    (h.orSat x).rm k = if k = h.vsatm.toNat then h.rm k ||| x else h.rm k := by
  unfold orSat
  split
  · next hx => rw [show x = 0#1024 from hx, BitVec.or_zero, ite_self]
  · rw [rm_wm]; split
    · next e => rw [e]
    · rfl

end Hart

/-! ## What the accessors read after an update -/

namespace State

theorem slot_setSlot (s : State) (k j : Nat) (v : Slot) : (s.setSlot k v).slot j = if j = k then v else s.slot j := by
  simp [setSlot, slot, SMap.get_set]

@[simp] theorem slot_setSlot_same (s : State) (k : Nat) (v : Slot) : (s.setSlot k v).slot k = v := by simp [slot_setSlot]

theorem slot_setSlot_other (s : State) {k j : Nat} (v : Slot) (h : j ≠ k) : (s.setSlot k v).slot j = s.slot j := by
  simp [slot_setSlot, h]

@[simp] theorem slot_setHart (s : State) (h : Hart) : (s.setHart h).slot s.cur = { s.slot s.cur with hart := h } := by
  simp [setHart]

theorem slot_setHart_other (s : State) (h : Hart) {j : Nat} (hj : j ≠ s.cur) : (s.setHart h).slot j = s.slot j :=
  slot_setSlot_other s _ hj

@[simp] theorem hart_setHart (s : State) (h : Hart) : (s.setHart h).hart = h := by simp [hart]

@[simp] theorem slot_setHartOf (s : State) (k : Nat) (h : Hart) : (s.setHartOf k h).slot k = { s.slot k with hart := h } := by
  simp [setHartOf]

theorem slot_setHartOf_other (s : State) (k : Nat) (h : Hart) {j : Nat} (hj : j ≠ k) : (s.setHartOf k h).slot j = s.slot j :=
  slot_setSlot_other s _ hj

@[simp] theorem ctxid_setHart (s : State) (h : Hart) : (s.setHart h).ctxid = s.ctxid := by simp [ctxid, ctxOf]

theorem ctx_setCtx (s : State) (c b : BitVec 6) (v : Ctx) : (s.setCtx c v).ctx b = if b = c then v else s.ctx b := by
  simp only [setCtx, ctx, SMap.get_set]
  by_cases h : b = c
  · simp [h]
  · rw [if_neg h, if_neg (fun e => h (BitVec.eq_of_toNat_eq e))]

theorem tile_setTile (s : State) (k j : Nat) (v : Tile) : (s.setTile k v).tile j = if j = k then v else s.tile j := by
  simp [setTile, tile, SMap.get_set]

theorem chan_setChan (s : State) (c b : Nat) (x : Channel) : (s.setChan c x).chan b = if b = c then some x else s.chan b := by
  simp [setChan, chan, SMap.find?_put]

/-- Only the executing slot's hart changes. -/
theorem setHart_frame (s : State) (h : Hart) :
    { s.setHart h with slots := s.slots } = s ∧ (∀ j, j ≠ s.cur → (s.setHart h).slot j = s.slot j) ∧
    { (s.setHart h).slot s.cur with hart := s.hart } = s.slot s.cur :=
  ⟨rfl, fun _ hj => slot_setHart_other s h hj, by rw [slot_setHart]; rfl⟩

end State

end Sys2Proof.Machine
end

