-- ==== Sys2Proof/Safety.lean ====
section
/-! DEFINITION. What counts as a safe run, and the terms that statements use: an instruction that goes on, a hart that nothing
makes wait, and what a step leaves alone. -/

namespace Sys2Proof.Machine
open Sys2Proof

/-- The machine goes on from here. -/
def Goes (o : Out) : Prop := ∃ t, o = .next t

/-- Steps lead from s to t. -/
inductive Reaches (s : State) : State → Prop
  | start : Reaches s s
  | next {t u : State} : Reaches s t → step t = .next u → Reaches s u

/-- Safe: every state that steps reach from s goes on. -/
def Safe (s : State) : Prop := ∀ t, Reaches s t → Goes (step t)

/-- Nothing makes an instruction of the executing hart wait or read a stream: every full/empty bit is full, no stream is
bound, no instruction is in flight or in progress, no CONVOY is pending, no restore is reloading the hart, no read copy is
held, no reply is being abandoned, and the model's scheduler completes results, stores, groups and walks at once (log 2, 3). -/
def Ready (s : State) : Bool :=
  s.hart.allFull && s.hart.binds.isEmpty && s.hart.inflight.isEmpty && !s.hart.convoy && !s.hart.mid && s.hart.accs.isEmpty && (s.slot s.cur).reload.isNone &&
  !s.sched.late && !s.sched.buffered && !s.sched.grouped && !s.sched.walks && !s.sched.abandons && s.copies.isEmpty

/-- From s to t only the hart of the executing slot may change: no memory, table, unit or other slot does, nor the rest of
its own slot. -/
def OnlyHart (s t : State) : Prop :=
  { t with slots := s.slots } = s ∧ (∀ j, j ≠ s.cur → t.slot j = s.slot j) ∧
  { t.slot s.cur with hart := s.hart } = s.slot s.cur

/-- Element j of a vector instruction is performed: at or above EIDX, below VL, and permitted by the guard (R12, R13). -/
def performed (h : Hart) (j : Nat) : Bool := decide (h.eidx.toNat ≤ j) && h.active j

/-- From h to g an instruction retires, and beside its results only PC, EIDX and INSTRET change: `g` may differ in the scalar
registers, the slice file and its tags, the masks and FFLAGS, which the statement speaks of. -/
def RetiredWith (h g : Hart) : Prop :=
  g = { h with s := g.s, z := g.z, dirty := g.dirty, vlg := g.vlg, m := g.m, fflags := g.fflags
               pc := h.pc + 4, eidx := 0, instret := h.instret + 1 }

/-- The tags after an instruction whose destinations cover `slices` (R79): DIRTY set and VLG raised to ⌈VL / 64⌉ for each of them
when at least one element was performed, and no other tag. -/
def Tagged (h g : Hart) (slices : BitVec 64) : Prop :=
  let x := if slices ≠ 0 ∧ anyIn (performed h) 0 h.len = true then h.touch slices h.len else h
  g.dirty = x.dirty ∧ g.vlg = x.vlg

/-- A vector instruction whose destination is the elements of width w at field d: it retires; each performed element holds `val j`;
saturation sets the bits of the mask that VSATM names; flags are collected; no other row, mask bit or register changes. -/
def VectorOutcome (s t : State) (w d : Nat) (val : Nat → Nat) (sat : Nat → Bool) (fl : Nat → Flags) : Prop :=
  let h := s.hart
  OnlyHart s t ∧ RetiredWith h t.hart ∧ t.hart.s = h.s ∧ Tagged h t.hart (slicesOf w d) ∧
  (∀ j, t.hart.row j = if performed h j = true then putElem (h.row j) w d (val j) else h.row j) ∧
  (∀ n j, j < 1024 → (t.hart.rm n).getLsbD j =
    ((h.rm n).getLsbD j || decide (n = h.vsatm.toNat ∧ performed h j = true ∧ sat j = true))) ∧
  (∀ k, t.hart.fflags.getLsbD k = true ↔
    (h.fflags.getLsbD k = true ∨ ∃ j, performed h j = true ∧ (fl j).getLsbD k = true))

/-- A vector instruction whose destination is mask m: it retires; bit j of each performed element is `bit j`; flags are
collected; nothing else changes. -/
def MaskOutcome (s t : State) (m : Nat) (bit : Nat → Bool) (fl : Nat → Flags) : Prop :=
  let h := s.hart
  OnlyHart s t ∧ RetiredWith h t.hart ∧ t.hart.s = h.s ∧ t.hart.dirty = h.dirty ∧ t.hart.vlg = h.vlg ∧
  (∀ j, t.hart.row j = h.row j) ∧
  (∀ n j, j < 1024 → (t.hart.rm n).getLsbD j = if n = m ∧ performed h j = true then bit j else (h.rm n).getLsbD j) ∧
  (∀ k, t.hart.fflags.getLsbD k = true ↔
    (h.fflags.getLsbD k = true ∨ ∃ j, performed h j = true ∧ (fl j).getLsbD k = true))

/-- An instruction whose destination is scalar register d: it retires; s[d] holds v (s0 discards it); the flags `fl` are raised;
nothing else changes. -/
def ScalarOutcome (s t : State) (d : BitVec 6) (v : Word) (fl : Flags) : Prop :=
  let h := s.hart
  OnlyHart s t ∧ (∀ r, t.hart.rs r = if r = d ∧ d ≠ 0 then v else h.rs r) ∧
  t.hart = { h with s := t.hart.s, fflags := h.fflags ||| fl, pc := h.pc + 4, eidx := 0, instret := h.instret + 1 }

/-- Ready, and nothing of an earlier access is left: no abandoned element, no buffered write, no remote request of the hart. -/
def Quiet (s : State) : Bool :=
  Ready s && !s.hart.abnd && s.wbuf.isEmpty &&
  s.net.reqs.all (fun r => match r.who with | .elem k _ => k != s.cur | _ => true)

/-- The location's home is in this device or in host memory. -/
def isLocal : Loc → Bool
  | .peer _ _ => false
  | _ => true

/-- The byte of memory at a location. -/
def byteAt (s : State) : Loc → Byte
  | .hbm a => SMap.get 0 s.hbm a
  | .cis a => SMap.get 0 s.cis a
  | .host a => SMap.get 0 s.host a
  | .peer _ _ => 0

/-- From s to t only the three memories and the executing slot's hart may change. -/
def OnlyHartAndMemory (s t : State) : Prop :=
  { t with slots := s.slots, hbm := s.hbm, cis := s.cis, host := s.host } = s ∧ (∀ j, j ≠ s.cur → t.slot j = s.slot j) ∧
  { t.slot s.cur with hart := s.hart } = s.slot s.cur

/-- Between s and t the elements that `p` accepts stored `data j` in the n bytes at `loc j`: where elements share a byte the highest stands, and
every other byte of memory is unchanged. -/
def Stored (s t : State) (p : Nat → Bool) (n : Nat) (loc : Nat → Loc) (data : Nat → Nat) : Prop :=
  (∀ b, (∀ j k, p j = true → k < n → b ≠ State.locAdd (loc j) k) → byteAt t b = byteAt s b) ∧
  (∀ j k, p j = true → k < n → (∀ i m, p i = true → j < i → m < n → State.locAdd (loc i) m ≠ State.locAdd (loc j) k) →
    byteAt t (State.locAdd (loc j) k) = BitVec.ofNat 8 (data j / 256 ^ k))

end Sys2Proof.Machine
end

