-- ==== Sys2Proof/Laws/Ops.lean ====
section
/-! SUPPORT. What the operations that every instruction shares can do: the decode checks, the reads of scalar registers, traps. -/

namespace Sys2Proof.Machine
open Sys2Proof

@[simp] theorem Res.out_ok (s : State) : (Res.ok s).out = .next s := rfl
@[simp] theorem Res.out_wait (s : State) : (Res.wait s).out = .next s := rfl

/-- A well-formed instruction runs its body. -/
theorem issue_wf (i : Instr) (s : State) (body : State → Res) (h : i.wellFormed = true) : issue i s body = (body s).out := by
  simp [issue, h]

/-- Every meaning goes on: none faults and none is refused. -/
theorem Res.out_goes (r : Res) : Goes r.out := by cases r <;> exact ⟨_, rfl⟩

theorem issue_goes (i : Instr) (s : State) (body : State → Res) : Goes (issue i s body) := by
  unfold issue
  split <;> exact Res.out_goes _

/-! ## A hart that nothing makes wait -/

theorem ready_iff (s : State) : Ready s = true ↔ s.hart.allFull = true ∧ s.hart.binds = [] ∧ s.hart.inflight = [] ∧
    s.hart.convoy = false ∧ s.hart.mid = false ∧ s.hart.accs = [] ∧ (s.slot s.cur).reload = none ∧ s.sched.late = false ∧ s.sched.buffered = false ∧
    s.sched.grouped = false ∧ s.sched.walks = false ∧ s.sched.abandons = false ∧ s.copies = [] := by
  simp [Ready, and_assoc]

theorem sFull_of_allFull {h : Hart} (hf : h.allFull = true) (r : BitVec 6) : h.sFull r = true := by
  simp only [Hart.allFull, Bool.and_eq_true, beq_iff_eq] at hf
  simp only [Hart.sFull, hf.1.1, BitVec.getLsbD_allOnes, r.isLt, decide_true, Bool.or_true]

theorem readScalars_full (rs : List (BitVec 6 × Bool)) (s : State) (k : State → Res) (hf : s.hart.allFull = true) :
    readScalars rs s k = k s := by
  induction rs with
  | nil => rfl
  | cons p t ih => simp [readScalars, sFull_of_allFull hf, ih]

theorem destFree_full (d : BitVec 6) (s : State) (k : State → Res) (hf : s.hart.allFull = true) : destFree d s k = k s := by
  simp [destFree, sFull_of_allFull hf]

theorem drained_ready (s : State) (k : State → Res) (h : s.hart.inflight = []) : drained s k = k s := by
  simp [drained, h]

theorem enter_now (u : Uses) (a b : BitVec 64) (n m : Nat) (x : Bool) (s : State) (h : s.sched.late = false) :
    enter u a b n m x s = s := by
  simp [enter, h]

/-- The reads of scalar registers: all full and the instruction goes on, or the first empty one traps or waits (R146). -/
theorem readScalars_cases (rs : List (BitVec 6 × Bool)) (s : State) (k : State → Res) :
    readScalars rs s k = k s ∨ readScalars rs s k = .wait s ∨
    ∃ r, (r, true) ∈ rs ∧ s.hart.sFull r = false ∧ readScalars rs s k = .trap 0x03 0 (BitVec.ofNat 64 r.toNat) 0 s := by
  induction rs with
  | nil => exact .inl rfl
  | cons p t ih =>
    obtain ⟨r, q⟩ := p
    by_cases hr : s.hart.sFull r = true
    · simp only [readScalars, hr, ↓reduceIte]
      rcases ih with h | h | ⟨r', h1, h2, h3⟩
      · exact .inl h
      · exact .inr (.inl h)
      · exact .inr (.inr ⟨r', List.mem_cons_of_mem _ h1, h2, h3⟩)
    · cases q
      · simp [readScalars, hr]
      · right; right
        exact ⟨r, by simp, by simpa using hr, by simp [readScalars, hr]⟩

/-! ## The frame of a step that changes one hart -/

theorem onlyHart_setHart (s : State) (h : Hart) : OnlyHart s (s.setHart h) := State.setHart_frame s h

theorem onlyHart_refl (s : State) : OnlyHart s s := ⟨rfl, fun _ _ => rfl, rfl⟩

theorem onlyHart_cur {s t : State} (h : OnlyHart s t) : t.cur = s.cur := by
  have := congrArg (fun x : State => x.cur) h.1
  exact this

theorem onlyHart_trans {s t u : State} (h1 : OnlyHart s t) (h2 : OnlyHart t u) : OnlyHart s u := by
  have hc := onlyHart_cur h1
  obtain ⟨a1, b1, c1⟩ := h1
  obtain ⟨a2, b2, c2⟩ := h2
  refine ⟨?_, fun j hj => ?_, ?_⟩
  · rw [← a1]; rw [← a2]
  · rw [b2 j (hc ▸ hj), b1 j hj]
  · rw [hc] at c2
    have h3 : (u.slot s.cur) = { t.slot s.cur with hart := (u.slot s.cur).hart } := by rw [← c2]
    rw [h3]
    exact c1

/-! ## Traps -/

/-- Taking a trap from level 0 or 1 (R343): the next level's bank is written, execution continues at its vector, and nothing changes but the hart and the walks that
its access has had. -/
theorem takeTrap_of_lt (s : State) (k cause i : Nat) (v : Word) (wl : Nat) (epc : Word)
    (h : (s.slot k).hart.tlvl.toNat < 2) :
    s.takeTrap k cause i v wl epc = (s.forgetWalks (State.tileOf k) (s.ctxOf k)).setHartOf k
      { (s.slot k).hart.setBank ((s.slot k).hart.tlvl.toNat + 1)
          { cause := BitVec.ofNat 8 cause, epc := epc, eidx := BitVec.ofNat 11 i, val := v, plvl := (s.slot k).hart.tlvl,
            wlvl := BitVec.ofNat 2 wl, abnd := (s.slot k).hart.abnd } with
        tlvl := BitVec.ofNat 2 ((s.slot k).hart.tlvl.toNat + 1), eidx := 0,
        pc := (s.slot k).hart.vector ((s.slot k).hart.tlvl.toNat + 1), abnd := false, pwait := none, qtail := none
        queue := [], want := none, word := none, mid := false, accs := [] } := by
  have h' : ¬ ((s.slot k).hart.tlvl.toNat + 1 ≥ 3) := by omega
  simp only [State.takeTrap, h', ↓reduceIte]

end Sys2Proof.Machine
end

