-- ==== Sys2Proof/Laws/Operands.lean ====
section
/-! SUPPORT. What the loop over elements and the shared forms of vector instructions come to on a hart that nothing makes wait. -/

namespace Sys2Proof.Machine
open Sys2Proof

theorem getLsbD_setB {n : Nat} (v : BitVec n) (i : Nat) (b : Bool) (j : Nat) :
    (setB v i b).getLsbD j = if j = i ∧ j < n then b else v.getLsbD j := by
  unfold setB
  by_cases hj : j < n
  · have h2 : (BitVec.twoPow n i).getLsbD j = decide (j = i) := by
      rw [BitVec.getLsbD_twoPow]
      by_cases h : j = i
      · subst h; rw [decide_eq_true hj]; simp
      · rw [decide_eq_false h, decide_eq_false (Ne.symm h), Bool.and_false]
    cases b
    · simp only [Bool.false_eq_true, ↓reduceIte, BitVec.getLsbD_and, BitVec.getLsbD_not, hj, decide_true, Bool.true_and, h2,
        and_true]
      by_cases h : j = i <;> simp only [h, decide_true, decide_false, Bool.not_true, Bool.and_false, Bool.not_false,
        Bool.and_true, ↓reduceIte]
    · simp only [↓reduceIte, BitVec.getLsbD_or, h2, hj, and_true]
      by_cases h : j = i <;> simp only [h, decide_true, decide_false, Bool.or_true, Bool.or_false, ↓reduceIte]
  · cases b <;> simp [hj, BitVec.getLsbD_of_ge _ _ (Nat.le_of_not_lt hj)]

/-- What element j comes to, from the row that stood there. -/
def elemAt (f : Nat → Row → Except (Nat × Word) Elem) (z : SMap Row) (j : Nat) : Elem :=
  match f j (SMap.get 0 z j) with
  | .ok e => e
  | .error _ => { row := 0 }

/-- The loop over elements i, …, i + n − 1 when none of the active ones fails: each active element is written from its own old row,
every other row and bit stays, and the flags are collected. -/
theorem runElems_ok (act : Nat → Bool) (f : Nat → Row → Except (Nat × Word) Elem) (n : Nat) :
    ∀ (i : Nat) (a : Done),
    (∀ j, i ≤ j → j < i + n → act j = true → ∃ e, f j (SMap.get 0 a.z j) = .ok e) →
    ∃ b : Done, runElems act f i n a = (b, none) ∧
      (∀ j, SMap.get 0 b.z j = if i ≤ j ∧ j < i + n ∧ act j = true then (elemAt f a.z j).row else SMap.get 0 a.z j) ∧
      (∀ j, j < 1024 → b.bits.getLsbD j =
        if i ≤ j ∧ j < i + n ∧ act j = true then (elemAt f a.z j).bit else a.bits.getLsbD j) ∧
      (∀ j, j < 1024 → b.sat.getLsbD j =
        (a.sat.getLsbD j || decide (i ≤ j ∧ j < i + n ∧ act j = true ∧ (elemAt f a.z j).sat = true))) ∧
      (∀ k, b.fl.getLsbD k = true ↔
        (a.fl.getLsbD k = true ∨ ∃ j, i ≤ j ∧ j < i + n ∧ act j = true ∧ (elemAt f a.z j).fl.getLsbD k = true)) ∧
      (b.wrote = true ↔ (a.wrote = true ∨ ∃ j, i ≤ j ∧ j < i + n ∧ act j = true)) := by
  induction n with
  | zero =>
    intro i a _
    refine ⟨a, rfl, fun j => ?_, fun j _ => ?_, fun j _ => ?_, fun k => ?_, ?_⟩
    · rw [if_neg (by omega)]
    · rw [if_neg (by omega)]
    · have : ¬ (i ≤ j ∧ j < i + 0 ∧ act j = true ∧ (elemAt f a.z j).sat = true) := by omega
      rw [decide_eq_false this, Bool.or_false]
    · exact ⟨.inl, fun h => h.elim id fun ⟨j, h1, h2, _⟩ => by omega⟩
    · exact ⟨.inl, fun h => h.elim id fun ⟨j, h1, h2, _⟩ => by omega⟩
  | succ n ih =>
    intro i a hok
    by_cases hi : act i = true
    · obtain ⟨e, he⟩ := hok i (le_refl i) (by omega) hi
      have hee : elemAt f a.z i = e := by unfold elemAt; rw [he]
      obtain ⟨a', ha'⟩ : ∃ a' : Done, a' = ⟨SMap.set 0 a.z i e.row, setB a.bits i e.bit,
        if e.sat then setB a.sat i true else a.sat, a.fl ||| e.fl, true⟩ := ⟨_, rfl⟩
      have hz : ∀ j, j ≠ i → SMap.get 0 a'.z j = SMap.get 0 a.z j := fun j hj => by rw [ha']; exact SMap.get_set_other 0 a.z e.row hj
      have hel : ∀ j, j ≠ i → elemAt f a'.z j = elemAt f a.z j := fun j hj => by unfold elemAt; rw [hz j hj]
      obtain ⟨b, h1, h2, h3, h4, h5, h6⟩ := ih (i + 1) a' fun j hj1 hj2 hj3 => by
        rw [hz j (by omega)]; exact hok j (by omega) (by omega) hj3
      refine ⟨b, ?_, fun j => ?_, fun j hj => ?_, fun j hj => ?_, fun k => ?_, ?_⟩
      · rw [runElems, if_pos hi, he, ← h1, ha']
      · rw [h2]
        by_cases hji : j = i
        · subst hji
          rw [if_neg (by omega), if_pos ⟨le_refl _, by omega, hi⟩, hee]
          rw [ha']; exact SMap.get_set_same 0 a.z j e.row
        · rw [hel j hji, hz j hji]
          by_cases hc : i ≤ j ∧ j < i + (n + 1) ∧ act j = true
          · rw [if_pos hc, if_pos ⟨by omega, by omega, hc.2.2⟩]
          · rw [if_neg hc, if_neg (fun h => hc ⟨by omega, by omega, h.2.2⟩)]
      · rw [h3 j hj]
        by_cases hji : j = i
        · subst hji
          rw [if_neg (by omega), if_pos ⟨le_refl _, by omega, hi⟩, hee]
          rw [ha', getLsbD_setB, if_pos ⟨rfl, hj⟩]
        · rw [hel j hji]
          have hb : a'.bits.getLsbD j = a.bits.getLsbD j := by
            rw [ha', getLsbD_setB, if_neg (fun h => hji h.1)]
          rw [hb]
          by_cases hc : i ≤ j ∧ j < i + (n + 1) ∧ act j = true
          · rw [if_pos hc, if_pos ⟨by omega, by omega, hc.2.2⟩]
          · rw [if_neg hc, if_neg (fun h => hc ⟨by omega, by omega, h.2.2⟩)]
      · rw [h4 j hj]
        by_cases hji : j = i
        · subst hji
          have hn : ¬ (j + 1 ≤ j ∧ j < j + 1 + n ∧ act j = true ∧ (elemAt f a'.z j).sat = true) := by omega
          rw [decide_eq_false hn, Bool.or_false, hee, ha']
          dsimp only
          cases hs : e.sat
          · rw [decide_eq_false (fun h => Bool.false_ne_true h.2.2.2), Bool.or_false, if_neg Bool.false_ne_true]
          · rw [decide_eq_true ⟨le_refl _, by omega, hi, rfl⟩, Bool.or_true, if_pos rfl, getLsbD_setB, if_pos ⟨rfl, hj⟩]
        · have hb : a'.sat.getLsbD j = a.sat.getLsbD j := by
            rw [ha']; dsimp only
            split
            · rw [getLsbD_setB, if_neg (fun h => hji h.1)]
            · rfl
          rw [hb, hel j hji]
          congr 1
          simp only [decide_eq_decide]
          constructor
          · rintro ⟨x1, x2, x3⟩; exact ⟨by omega, by omega, x3⟩
          · rintro ⟨x1, x2, x3⟩; exact ⟨by omega, by omega, x3⟩
      · rw [h5]
        have hb : a'.fl.getLsbD k = true ↔ a.fl.getLsbD k = true ∨ e.fl.getLsbD k = true := by
          rw [ha']; simp
        rw [hb]
        constructor
        · rintro ((h | h) | ⟨j, x1, x2, x3, x4⟩)
          · exact .inl h
          · exact .inr ⟨i, le_refl _, by omega, hi, by rwa [hee]⟩
          · exact .inr ⟨j, by omega, by omega, x3, by rwa [← hel j (by omega)]⟩
        · rintro (h | ⟨j, x1, x2, x3, x4⟩)
          · exact .inl (.inl h)
          · by_cases hji : j = i
            · subst hji; rw [hee] at x4; exact .inl (.inr x4)
            · exact .inr ⟨j, by omega, by omega, x3, by rwa [hel j hji]⟩
      · rw [h6]
        constructor
        · rintro (_ | ⟨j, x1, x2, x3⟩)
          · exact .inr ⟨i, le_refl _, by omega, hi⟩
          · exact .inr ⟨j, by omega, by omega, x3⟩
        · intro _; exact .inl (by rw [ha'])
    · obtain ⟨b, h1, h2, h3, h4, h5, h6⟩ := ih (i + 1) a fun j hj1 hj2 hj3 => hok j (by omega) (by omega) hj3
      have hsplit : ∀ j, (i ≤ j ∧ j < i + (n + 1) ∧ act j = true) ↔ (i + 1 ≤ j ∧ j < i + 1 + n ∧ act j = true) := by
        intro j
        constructor
        · rintro ⟨x1, x2, x3⟩
          have : j ≠ i := fun h => hi (h ▸ x3)
          exact ⟨by omega, by omega, x3⟩
        · rintro ⟨x1, x2, x3⟩; exact ⟨by omega, by omega, x3⟩
      refine ⟨b, ?_, fun j => ?_, fun j hj => ?_, fun j hj => ?_, fun k => ?_, ?_⟩
      · rw [runElems, if_neg hi]; exact h1
      · rw [h2]; simp only [hsplit]
      · rw [h3 j hj]; simp only [hsplit]
      · rw [h4 j hj]
        congr 1
        simp only [decide_eq_decide]
        constructor
        · rintro ⟨x1, x2, x3, x4⟩; have := (hsplit j).2 ⟨x1, x2, x3⟩; exact ⟨this.1, this.2.1, x3, x4⟩
        · rintro ⟨x1, x2, x3, x4⟩; have := (hsplit j).1 ⟨x1, x2, x3⟩; exact ⟨this.1, this.2.1, x3, x4⟩
      · rw [h5]
        constructor
        · rintro (h | ⟨j, x1, x2, x3, x4⟩)
          · exact .inl h
          · have := (hsplit j).2 ⟨x1, x2, x3⟩; exact .inr ⟨j, this.1, this.2.1, x3, x4⟩
        · rintro (h | ⟨j, x1, x2, x3, x4⟩)
          · exact .inl h
          · have := (hsplit j).1 ⟨x1, x2, x3⟩; exact .inr ⟨j, this.1, this.2.1, x3, x4⟩
      · rw [h6]
        constructor
        · rintro (h | ⟨j, x1, x2, x3⟩)
          · exact .inl h
          · have := (hsplit j).2 ⟨x1, x2, x3⟩; exact .inr ⟨j, this⟩
        · rintro (h | ⟨j, x1, x2, x3⟩)
          · exact .inl h
          · have := (hsplit j).1 ⟨x1, x2, x3⟩; exact .inr ⟨j, this⟩

/-! ## Before the first element -/

theorem bindConflict_none {h : Hart} (sh : Shape) (hb : h.binds = []) : bindConflict h sh = none := by
  have h1 : ∀ w fl, overlapsBind h w fl = none := fun w fl => by simp [overlapsBind, hb]
  simp only [bindConflict, h1, ite_self]
  simp

theorem boundTo_none {h : Hart} (w fl : Nat) (hb : h.binds = []) : boundTo h w fl = none := by simp [boundTo, hb]

theorem boundReads_nil {h : Hart} (sh : Shape) (hb : h.binds = []) : boundReads h sh = [] := by simp [boundReads, hb]

theorem fetch_slice (s : State) (r : Src) (hb : s.hart.binds = []) : fetch s r = fun _ row => elemOf row r.w r.fl := by
  simp [fetch, boundTo_none r.w r.fl hb]

theorem firstIn_none (p : Nat → Bool) (lo n : Nat) (h : ∀ j, lo ≤ j → j < lo + n → p j = false) : firstIn p lo n = none := by
  induction n generalizing lo with
  | zero => rfl
  | succ n ih => simp [firstIn, h lo (le_refl _) (by omega), ih (lo + 1) fun j h1 h2 => h j (by omega) (by omega)]

theorem lowestEmpty_full {h : Hart} (m : BitVec 64) (hf : h.allFull = true) : lowestEmpty h m = none := by
  simp only [Hart.allFull, Bool.and_eq_true, beq_iff_eq] at hf
  apply firstIn_none
  intro j _ h2
  have : j < 64 := by omega
  simp only [hf.1.2, BitVec.getLsbD_allOnes, this, decide_true, Bool.not_true, Bool.and_false]

theorem readSlices_full (rs : List Src) (s : State) (k : State → Res) (hf : s.hart.allFull = true) : readSlices rs s k = k s := by
  simp [readSlices, lowestEmpty_full _ hf]

theorem readMasks_full (ms : List (Nat × Bool)) (s : State) (k : State → Res) (hf : s.hart.allFull = true)
    (hm : ∀ p ∈ ms, p.1 < 8) : readMasks ms s k = k s := by
  induction ms with
  | nil => rfl
  | cons p t ih =>
    have h8 : p.1 < 8 := hm p (by simp)
    have hf' := hf
    simp only [Hart.allFull, Bool.and_eq_true, beq_iff_eq] at hf'
    have : s.hart.mFE.getLsbD p.1 = true := by rw [hf'.2, BitVec.getLsbD_allOnes, decide_eq_true h8]
    simp [readMasks, this, ih fun q hq => hm q (by simp [hq])]

theorem guardMask_lt (h : Hart) : ∀ p ∈ guardMask h, p.1 < 8 := by
  intro p hp
  unfold guardMask at hp
  split at hp
  · simp at hp; subst hp; exact (h.vmsel.extractLsb' 0 3).isLt
  · simp at hp

/-- The operands are in range (R25), do not overlap where they must not (R92), and name masks 0–7. -/
def Shape.ok (sh : Shape) : Bool :=
  !sh.srcs.any (fun r => overruns r.w r.fl) && !sh.dsts.any (fun d => overruns d.w d.fl) &&
  !(sh.noOverlap && sh.srcs.any (fun r => (slicesOf r.w r.fl &&& dstSlices sh.dsts) != 0)) &&
  sh.mreads.all (fun p => decide (p.1 < 8))

/-- On a hart that nothing makes wait, the checks before the first element let the instruction through; with VL = 0, or EIDX past VL, it
retires. -/
theorem vecPre_ready (i : Instr) (sh : Shape) (s : State) (k : State → Option Stop → Res) (hr : Ready s = true)
    (hs : sh.ok = true) :
    vecPre i sh s k = if (s.hart.len = 0 ∧ sh.always = false) ∨ sh.past s.hart = true then retireOnly s else k s none := by
  obtain ⟨hf, hb, hi, hc, _, _, hl, _⟩ := (ready_iff s).1 hr
  simp only [Shape.ok, Bool.and_eq_true, Bool.not_eq_true', List.all_eq_true, decide_eq_true_eq] at hs
  obtain ⟨⟨⟨h1, h2⟩, h3⟩, h4⟩ := hs
  have hm : ∀ p ∈ sh.mreads ++ (if sh.guarded then guardMask s.hart else []), p.1 < 8 := by
    intro p hp
    rcases List.mem_append.1 hp with hp | hp
    · exact h4 p hp
    · split at hp
      · exact guardMask_lt _ p hp
      · simp at hp
  have hrel : reloadBlocks s sh = false := by simp [reloadBlocks, hl]
  have hcon : convoyBlocks s = false := by simp [convoyBlocks, hc]
  have hst : ∀ n x, streamsState s [] n x = .ready := fun _ _ => rfl
  simp only [vecPre, h1, h2, h3, Bool.or_self, Bool.false_eq_true, ↓reduceIte, bindConflict_none sh hb,
    readScalars_full _ _ _ hf, readSlices_full _ _ _ hf]
  rw [readMasks_full _ _ _ hf hm]
  simp only [hrel, hcon, Bool.or_self, Bool.false_eq_true, ↓reduceIte, hc, boundReads_nil sh hb, hst, ite_self]
  by_cases h0 : s.hart.len = 0 <;> cases sh.always <;> cases sh.past s.hart <;> simp [h0, retireOnly, consume]

/-- While `sched.grouped` is clear a step comes to VL. -/
theorem groupEnd_ready {s : State} (h : s.sched.grouped = false) : groupEnd s = s.hart.len := by simp [groupEnd, h]

@[simp] theorem consume_nil (vl : Nat) (s : State) : consume vl [] s = s := by simp [consume]

theorem anyIn_iff (p : Nat → Bool) (lo n : Nat) : anyIn p lo n = true ↔ ∃ j, lo ≤ j ∧ j < lo + n ∧ p j = true := by
  induction n generalizing lo with
  | zero => simp only [anyIn, Bool.false_eq_true, false_iff, not_exists]; intro j; omega
  | succ n ih =>
    simp only [anyIn, Bool.or_eq_true, ih]
    constructor
    · rintro (h | ⟨j, h1, h2, h3⟩)
      · exact ⟨lo, le_refl _, by omega, h⟩
      · exact ⟨j, by omega, by omega, h3⟩
    · rintro ⟨j, h1, h2, h3⟩
      by_cases hj : j = lo
      · exact .inl (hj ▸ h3)
      · exact .inr ⟨j, by omega, by omega, h3⟩

/-- What settling the loop's results leaves alone, and what it writes. -/
theorem settle_frame (h : Hart) (sh : Shape) (a : Done) :
    h.settle sh a = { h with z := a.z, m := (h.settle sh a).m, dirty := (h.settle sh a).dirty, vlg := (h.settle sh a).vlg,
                             fflags := h.fflags ||| a.fl } := by
  unfold Hart.settle Hart.orSat Hart.orFlags
  cases sh.mdst <;> dsimp only <;> split <;> split <;> rfl

theorem settle_rm (h : Hart) (sh : Shape) (a : Done) (n : Nat) :
    (h.settle sh a).rm n =
      if n = h.vsatm.toNat then (if sh.mdst = some n then a.bits else h.rm n) ||| a.sat
      else if sh.mdst = some n then a.bits else h.rm n := by
  unfold Hart.settle
  rw [show ∀ (g : Hart), (g.orFlags a.fl).rm n = g.rm n from fun _ => rfl, Hart.rm_orSat]
  have key : ∀ (g : Hart), (if a.wrote = true ∧ dstSlices sh.dsts ≠ 0 then g.touch (dstSlices sh.dsts) h.len else g).rm n = g.rm n := by
    intro g; split <;> rfl
  have hv : ∀ (g : Hart), (if a.wrote = true ∧ dstSlices sh.dsts ≠ 0 then g.touch (dstSlices sh.dsts) h.len else g).vsatm = g.vsatm := by
    intro g; split <;> rfl
  rw [key, hv]
  cases hm : sh.mdst with
  | none =>
    dsimp only
    rw [show ({ h with z := a.z } : Hart).rm n = h.rm n from rfl]
    simp
  | some m =>
    dsimp only
    rw [Hart.rm_wm, Hart.wm_vsatm, show ({ h with z := a.z } : Hart).rm n = h.rm n from rfl]
    by_cases e : n = m
    · subst e; simp
    · have e' : ¬ (some m = some n) := fun h => e (Option.some.inj h).symm
      simp only [if_neg e, if_neg e']

/-- An element-wise instruction on a hart that nothing makes wait, when no element fails: it retires, each performed element is
written from its own old row, and the frame. -/
theorem elementwise_ready (i : Instr) (sh : Shape) (late : Bool) (f : State → Nat → Row → Except (Nat × Word) Elem) (s : State)
    (hr : Ready s = true) (hs : sh.ok = true) (hal : sh.always = false)
    (hok : ∀ j, performed s.hart j = true → ∃ e, f s j (s.hart.row j) = .ok e) :
    ∃ t, elementwise i sh late Hart.active f s = .ok t ∧ OnlyHart s t ∧ RetiredWith s.hart t.hart ∧ t.hart.s = s.hart.s ∧
      Tagged s.hart t.hart (dstSlices sh.dsts) ∧
      (∀ j, t.hart.row j = if performed s.hart j = true then (elemAt (f s) s.hart.z j).row else s.hart.row j) ∧
      (∀ n j, j < 1024 → (t.hart.rm n).getLsbD j =
        ((if sh.mdst = some n ∧ performed s.hart j = true then (elemAt (f s) s.hart.z j).bit else (s.hart.rm n).getLsbD j) ||
          decide (n = s.hart.vsatm.toNat ∧ performed s.hart j = true ∧ (elemAt (f s) s.hart.z j).sat = true))) ∧
      (∀ k, t.hart.fflags.getLsbD k = true ↔ (s.hart.fflags.getLsbD k = true ∨
        ∃ j, performed s.hart j = true ∧ (elemAt (f s) s.hart.z j).fl.getLsbD k = true)) := by
  obtain ⟨_, hb, _, _, _, _, _, hlate, _, hgr, _⟩ := (ready_iff s).1 hr
  have hlen : ∀ j, performed s.hart j = true → s.hart.eidx.toNat ≤ j ∧ j < s.hart.len ∧ s.hart.active j = true := by
    intro j hj
    simp only [performed, Bool.and_eq_true, decide_eq_true_eq] at hj
    refine ⟨hj.1, ?_, hj.2⟩
    have := hj.2
    simp only [Hart.active, Bool.and_eq_true, decide_eq_true_eq] at this
    exact this.1
  unfold elementwise
  rw [vecPre_ready _ _ _ _ hr hs]
  by_cases h0 : (s.hart.len = 0 ∧ sh.always = false) ∨ sh.past s.hart = true
  · have hno : ∀ j, ¬ performed s.hart j = true := fun j hj => by
      have h1 := hlen j hj
      rcases h0 with h | h
      · omega
      · simp only [Shape.past, Bool.and_eq_true, decide_eq_true_eq] at h; omega
    rw [if_pos h0]
    refine ⟨_, rfl, onlyHart_setHart _ _, ?_, ?_, ?_, fun j => ?_, fun n j hj => ?_, fun k => ?_⟩
    · rw [State.hart_setHart]; rfl
    · rw [State.hart_setHart]; rfl
    · have : anyIn (performed s.hart) 0 s.hart.len = false := by
        rw [← Bool.not_eq_true, anyIn_iff]; exact fun ⟨j, _, _, hj⟩ => hno j hj
      simp only [Tagged, this, State.hart_setHart]; simp
    · rw [State.hart_setHart, if_neg (hno j)]; rfl
    · rw [State.hart_setHart, if_neg (fun h => hno j h.2), decide_eq_false (fun h => hno j h.2.1), Bool.or_false]; rfl
    · rw [State.hart_setHart]
      exact ⟨.inl, fun h => h.elim id fun ⟨j, hj, _⟩ => absurd hj (hno j)⟩
  · rw [if_neg h0]
    dsimp only
    rw [groupEnd_ready hgr]
    obtain ⟨b, h1, h2, h3, h4, h5, h6⟩ := runElems_ok s.hart.active (f s) (s.hart.len - s.hart.eidx.toNat) s.hart.eidx.toNat
      { z := s.hart.z, bits := oldBits sh s.hart } (by
        intro j hj1 hj2 hj3
        exact hok j (by simp [performed, hj1, hj3]))
    have hp : ∀ j, (s.hart.eidx.toNat ≤ j ∧ j < s.hart.eidx.toNat + (s.hart.len - s.hart.eidx.toNat) ∧ s.hart.active j = true) ↔
        performed s.hart j = true := by
      intro j
      constructor
      · rintro ⟨x1, _, x3⟩; simp [performed, x1, x3]
      · intro h; have := hlen j h; exact ⟨this.1, by omega, this.2.2⟩
    rw [h1]
    dsimp only
    rw [if_neg (fun h : _ ∧ _ => Nat.lt_irrefl _ h.2), boundReads_nil _ hb]
    simp only [List.isEmpty_nil, true_or, ↓reduceIte]
    rw [enter_now _ _ _ _ _ _ _ (by simpa using hlate)]
    rw [consume_nil]
    have hst : ((s.setHart (s.hart.settle sh b)).setHart ((s.setHart (s.hart.settle sh b)).hart.retire)).hart =
        (s.hart.settle sh b).retire := by
      rw [State.hart_setHart, State.hart_setHart]
    refine ⟨_, rfl, onlyHart_trans (onlyHart_setHart s _) (onlyHart_setHart _ _), ?_, ?_, ?_, fun j => ?_, fun n j hj => ?_, fun k => ?_⟩
    · rw [hst, settle_frame]; rfl
    · rw [hst, settle_frame]; rfl
    · rw [hst]
      have hw : b.wrote = true ↔ anyIn (performed s.hart) 0 s.hart.len = true := by
        rw [h6, anyIn_iff]
        constructor
        · rintro (h | ⟨j, x1, x2, x3⟩)
          · exact absurd h (by simp)
          · exact ⟨j, by omega, by omega, (hp j).1 ⟨x1, x2, x3⟩⟩
        · rintro ⟨j, _, _, x3⟩; exact .inr ⟨j, (hp j).2 x3⟩
      simp only [Tagged, Hart.retire_dirty, Hart.retire_vlg, Hart.settle, Hart.orFlags_dirty, Hart.orFlags_vlg, Hart.orSat_dirty,
        Hart.orSat_vlg, hw]
      by_cases hd : dstSlices sh.dsts ≠ 0 ∧ anyIn (performed s.hart) 0 s.hart.len = true
      · rw [if_pos hd, if_pos ⟨hd.2, hd.1⟩]
        cases sh.mdst <;> exact ⟨rfl, rfl⟩
      · rw [if_neg hd, if_neg (fun h => hd ⟨h.2, h.1⟩)]
        cases sh.mdst <;> exact ⟨rfl, rfl⟩
    · rw [hst, settle_frame]
      show SMap.get 0 b.z j = _
      rw [h2]; simp only [hp]; rfl
    · rw [hst]
      show ((s.hart.settle sh b).rm n).getLsbD j = _
      have hsat : b.sat.getLsbD j = decide (performed s.hart j = true ∧ (elemAt (f s) s.hart.z j).sat = true) := by
        rw [h4 j hj]
        have h0' : BitVec.getLsbD (0 : Mask) j = false := BitVec.getLsbD_zero
        dsimp only
        rw [h0', Bool.false_or, decide_eq_decide, ← hp j]; tauto
      have hbit : (if sh.mdst = some n then b.bits else s.hart.rm n).getLsbD j =
          if sh.mdst = some n ∧ performed s.hart j = true then (elemAt (f s) s.hart.z j).bit else (s.hart.rm n).getLsbD j := by
        by_cases hm : sh.mdst = some n
        · rw [if_pos hm, h3 j hj]
          simp only [hp, hm, true_and, oldBits]
        · rw [if_neg hm, if_neg (fun h => hm h.1)]
      rw [settle_rm]
      by_cases hv : n = s.hart.vsatm.toNat
      · rw [if_pos hv, BitVec.getLsbD_or, hbit, hsat]
        congr 1
        simp only [decide_eq_decide]; tauto
      · rw [if_neg hv, hbit, decide_eq_false (fun h => hv h.1), Bool.or_false]
    · rw [hst, settle_frame]
      show (s.hart.fflags ||| b.fl).getLsbD k = true ↔ _
      rw [BitVec.getLsbD_or, Bool.or_eq_true, h5]
      have h0' : BitVec.getLsbD (0 : Flags) k = false := BitVec.getLsbD_zero
      dsimp only
      rw [h0']
      constructor
      · rintro (h | h | ⟨j, x1, x2, x3, x4⟩)
        · exact .inl h
        · exact absurd h Bool.false_ne_true
        · exact .inr ⟨j, (hp j).1 ⟨x1, x2, x3⟩, x4⟩
      · rintro (h | ⟨j, x1, x2⟩)
        · exact .inl h
        · have := (hp j).2 x1; exact .inr (.inr ⟨j, this.1, this.2.1, this.2.2, x2⟩)

/-- What an element is when the meaning's function answers it. -/
theorem elemAt_ok {f : Nat → Row → Except (Nat × Word) Elem} {z : SMap Row} {j : Nat} {e : Elem}
    (h : f j (SMap.get 0 z j) = .ok e) : elemAt f z j = e := by unfold elemAt; rw [h]

/-- An element-wise instruction with one slice destination, as an outcome. -/
theorem elementwise_vector (i : Instr) (sh : Shape) (late : Bool) (f : State → Nat → Row → Except (Nat × Word) Elem) (s : State)
    (w d : Nat) (val : Nat → Nat) (sat : Nat → Bool) (fl : Nat → Flags)
    (hr : Ready s = true) (hs : sh.ok = true) (hal : sh.always = false) (hd : sh.dsts = [⟨w, d⟩]) (hm : sh.mdst = none)
    (hf : ∀ j, performed s.hart j = true → ∃ b, f s j (s.hart.row j) =
      .ok { row := putElem (s.hart.row j) w d (val j), bit := b, sat := sat j, fl := fl j }) :
    ∃ t, elementwise i sh late Hart.active f s = .ok t ∧ VectorOutcome s t w d val sat fl := by
  obtain ⟨t, h1, h2, h3, h4, h5, h6, h7, h8⟩ := elementwise_ready i sh late f s hr hs hal (fun j hj => by
    obtain ⟨b, hb⟩ := hf j hj; exact ⟨_, hb⟩)
  have hel : ∀ j, performed s.hart j = true → (elemAt (f s) s.hart.z j).row = putElem (s.hart.row j) w d (val j) ∧
      (elemAt (f s) s.hart.z j).sat = sat j ∧ (elemAt (f s) s.hart.z j).fl = fl j := by
    intro j hj
    obtain ⟨b, hb⟩ := hf j hj
    rw [elemAt_ok hb]; exact ⟨rfl, rfl, rfl⟩
  refine ⟨t, h1, h2, h3, h4, ?_, fun j => ?_, fun n j hj => ?_, fun k => ?_⟩
  · rw [hd] at h5; simpa [dstSlices] using h5
  · rw [h6]
    by_cases hp : performed s.hart j = true
    · rw [if_pos hp, if_pos hp, (hel j hp).1]
    · rw [if_neg hp, if_neg hp]
  · rw [h7 n j hj, hm]
    simp only [reduceCtorEq, false_and, ↓reduceIte]
    congr 1
    simp only [decide_eq_decide]
    constructor
    · rintro ⟨a, b, c⟩; exact ⟨a, b, by rwa [← (hel j b).2.1]⟩
    · rintro ⟨a, b, c⟩; exact ⟨a, b, by rwa [(hel j b).2.1]⟩
  · rw [h8]
    constructor
    · rintro (h | ⟨j, a, b⟩)
      · exact .inl h
      · exact .inr ⟨j, a, by rwa [← (hel j a).2.2]⟩
    · rintro (h | ⟨j, a, b⟩)
      · exact .inl h
      · exact .inr ⟨j, a, by rwa [(hel j a).2.2]⟩

/-- An element-wise instruction whose destination is a mask, as an outcome. -/
theorem elementwise_mask (i : Instr) (sh : Shape) (late : Bool) (f : State → Nat → Row → Except (Nat × Word) Elem) (s : State)
    (m : Nat) (bit : Nat → Bool) (fl : Nat → Flags)
    (hr : Ready s = true) (hs : sh.ok = true) (hal : sh.always = false) (hd : sh.dsts = []) (hm : sh.mdst = some m)
    (hf : ∀ j, performed s.hart j = true → f s j (s.hart.row j) = .ok { row := s.hart.row j, bit := bit j, fl := fl j }) :
    ∃ t, elementwise i sh late Hart.active f s = .ok t ∧ MaskOutcome s t m bit fl := by
  obtain ⟨t, h1, h2, h3, h4, h5, h6, h7, h8⟩ := elementwise_ready i sh late f s hr hs hal (fun j hj => ⟨_, hf j hj⟩)
  have hel : ∀ j, performed s.hart j = true → elemAt (f s) s.hart.z j = { row := s.hart.row j, bit := bit j, fl := fl j } :=
    fun j hj => elemAt_ok (hf j hj)
  rw [hd] at h5
  simp only [Tagged, dstSlices, List.foldl_nil, ne_eq, not_true_eq_false, false_and, ↓reduceIte] at h5
  refine ⟨t, h1, h2, h3, h4, h5.1, h5.2, fun j => ?_, fun n j hj => ?_, fun k => ?_⟩
  · rw [h6]
    by_cases hp : performed s.hart j = true
    · rw [if_pos hp, hel j hp]
    · rw [if_neg hp]
  · rw [h7 n j hj, hm]
    by_cases hp : performed s.hart j = true
    · rw [hel j hp]
      by_cases hn : n = m
      · subst hn; simp [hp]
      · have : ¬ (some m = some n) := fun h => hn (Option.some.inj h).symm
        simp [hp, hn, Ne.symm hn]
    · simp [hp]
  · rw [h8]
    constructor
    · rintro (h | ⟨j, a, b⟩)
      · exact .inl h
      · exact .inr ⟨j, a, by rwa [hel j a] at b⟩
    · rintro (h | ⟨j, a, b⟩)
      · exact .inl h
      · exact .inr ⟨j, a, by rwa [hel j a]⟩

/-- A cross-element instruction on a hart that nothing makes wait: its new hart, retired, or with EIDX past VL nothing but that. -/
theorem crossElement_ready (i : Instr) (sh : Shape) (late : BitVec 64) (f : State → Hart) (s : State) (hr : Ready s = true)
    (hs : sh.ok = true) :
    crossElement i sh late f s =
      .ok (if (s.hart.len = 0 ∧ sh.always = false) ∨ sh.past s.hart = true then s.setHart s.hart.retire
        else s.setHart (f s).retire) := by
  obtain ⟨_, hb, _, _, _, _, _, hlate, _⟩ := (ready_iff s).1 hr
  unfold crossElement
  rw [vecPre_ready _ _ _ _ hr (by simpa [Shape.ok] using hs)]
  rw [show ({ sh with cross := true } : Shape).past s.hart = sh.past s.hart from rfl]
  dsimp only
  split
  · rfl
  · rw [enter_now _ _ _ _ _ _ _ (by simpa [consume, boundReads_nil _ hb] using hlate)]
    simp [boundReads_nil _ hb]

end Sys2Proof.Machine
end

