-- ==== Sys2Proof/Machine/Readout.lean ====
section
/-! DEFINITION. What firmware reads in the management core's address space (R436 and the words it names) and what the host reads in
region 0 (R380, R387, R412–R414). A read leaves the machine as it was, but for the lasting error that one of a FAILED stack counts. -/

namespace Sys2Proof.Machine
open Sys2Proof

/-! ## The management core's address space -/

/-- A Bool at bit i. -/
def flagAt (b : Bool) (i : Nat) : Nat := b.toNat * 2 ^ i

/-- The code of STATE (R53). -/
def SlotState.code : SlotState → Nat
  | .free => 0 | .armed => 1 | .running => 2 | .waiting => 3 | .halted => 4 | .saved => 5

/-- Unit j of a slot-table entry (R53). -/
def Slot.tableUnit (v : Slot) (j : Nat) : Nat :=
  if j = 0 then
    v.mode.toNat + v.ctx.toNat * 2 ^ 2 + v.prio.toNat * 2 ^ 8 + v.die.toNat * 2 ^ 11 + flagAt v.once 13 + v.state.code * 2 ^ 16 +
      flagAt v.err 19 + v.ecode.toNat * 2 ^ 20 + v.task.toNat * 2 ^ 32
  else v.ndisp.toNat + v.nsteal.toNat * 2 ^ 32

/-- Unit j of a switch word (R350). -/
def Slot.switchUnit (v : Slot) (j : Nat) : Nat :=
  if j = 0 then flagAt v.haltbk 4 + flagAt v.busy 7 + flagAt v.refused 8 + v.scode.toNat * 2 ^ 16 else v.img.toNat

/-- A window-table entry (R193). -/
def Window.toNat (w : Window) : Nat := w.ctx.toNat + flagAt w.rd 6 + flagAt w.wr 7 + flagAt w.valid 8 + flagAt w.busy 9

/-- A tile's table word (R204). -/
def Tile.tableWord (t : Tile) : Nat := t.owner.toNat + flagAt t.tvalid 8 + flagAt t.tbusy 9 + flagAt t.tcur 10

/-- Unit j of a context block (R76, R300, R337). -/
def Ctx.blockUnit (c : Ctx) (j : Nat) : Nat :=
  if j = 0 then flagAt c.res 0 + flagAt c.sys 1 + flagAt c.dying 3 + c.lastr.toNat * 2 ^ 8
  else if j = 1 then c.ptWord.toNat
  else if j = 2 then flagAt c.detm 0
  else if j = 3 then c.slice.toNat + c.clamps.toNat * 2 ^ 32
  else if j = 4 then c.qtask.toNat + c.qslot.toNat * 2 ^ 17 + c.qmark.toNat * 2 ^ 28 + c.qcred.toNat * 2 ^ 41
  else if j = 5 then c.surplus.toNat
  else 0

/-- A binding-table entry as 256 bits (R319). -/
def Binding.toNat (b : Binding) : Nat :=
  b.obj.toNat + b.base.toNat * 2 ^ 64 + b.k.toNat * 2 ^ 122 + b.space.toNat * 2 ^ 128 + b.holder.toNat * 2 ^ 130 + flagAt b.valid 141

/-- Unit j of a trace control word (R403). -/
def TraceUnit.controlUnit (u : TraceUnit) (j : Nat) : Nat :=
  if j = 0 then
    flagAt u.en 0 + flagAt u.all 1 + u.ctx.toNat * 2 ^ 2 + flagAt u.br 8 + flagAt u.vr 9 + flagAt u.wrap 10
  else if j = 1 then u.base.toNat
  else if j = 2 then u.size.toNat + u.wptr.toNat * 2 ^ 32
  else u.lost.toNat

/-- A function's status word (R407). -/
def Func.toNat (f : Func) : Nat := f.state.toNat + f.fcode.toNat * 2 ^ 4 + f.trans.toNat * 2 ^ 8 + f.last.toNat * 2 ^ 24 + f.loc.toNat * 2 ^ 32

/-- What a read of 8 bytes (4 for the tables of 4-byte words) at an address of the management core's space gives (R436); 0 where nothing is
named (log 105). -/
def mgmtRead (s : State) (addr : Nat) : Nat :=
  let at_ := fun (base n : Nat) => decide (base ≤ addr) && decide (addr < base + n)
  let q := fun (base : Nat) => s.ctx (BitVec.ofNat 6 ((addr - base) / 8))
  if at_ 0 0x6000 then (s.slot (addr / 16)).tableUnit (addr / 8 % 2)
  else if at_ 0x8000 0x6000 then (SMap.get {} s.windows ((addr - 0x8000) / 4)).toNat
  else if at_ 0x18000 0x300 then (s.tile ((addr - 0x18000) / 4)).tableWord
  else if at_ 0x19000 0x200 then (q 0x19000).qchan.toNat
  else if at_ 0x19200 0x200 then (q 0x19200).qmac.toNat
  else if at_ 0x19400 0x200 then (q 0x19400).qround.toNat
  else if addr = 0x19600 then s.inval.ctx.toNat + flagAt s.inval.scope 6 + flagAt s.inval.going.isSome 8
  else if addr = 0x19608 then s.inval.vpn.toNat
  else if at_ 0x1B000 0x1000 then (s.ctx (BitVec.ofNat 6 ((addr - 0x1B000) / 64))).blockUnit ((addr - 0x1B000) / 8 % 8)
  else if at_ 0x1C000 0x6000 then (s.slot ((addr - 0x1C000) / 16)).switchUnit ((addr - 0x1C000) / 8 % 2)
  else if addr = 0x22000 then s.debugSlot.toNat + s.debugOff.toNat * 2 ^ 16
  else if addr = 0x22008 then (debugRead s).toNat
  else if at_ 0x40000 0x10000 then bytesAt s.net.fab ((addr - 0x40000) / 8 * 8) 8
  else if addr = 0x50000 then s.net.ident.group.toNat + s.net.ident.member.toNat * 2 ^ 11 + s.net.ident.ng.toNat * 2 ^ 16
  else if addr = 0x50010 then s.net.tickets.slots.toNat + s.net.tickets.tklog.toNat * 2 ^ 4
  else if addr = 0x50018 then s.net.tickets.next.toNat + s.net.tickets.serving.toNat * 2 ^ 32
  else if at_ 0x60000 0x3000 then (s.unit ((addr - 0x60000) / 32)).controlUnit ((addr - 0x60000) / 8 % 4)
  else if at_ 0x70000 0xA20 then (s.func ((addr - 0x70000) / 8)).toNat
  else if at_ 0x71000 0x20 then
    let w : Power := SMap.get {} s.power ((addr - 0x71000) / 8)
    w.plim.toNat + w.step.toNat * 2 ^ 12
  else if at_ 0x80000 0x20000 then
    match SMap.find? s.bindings ((addr - 0x80000) / 32) with
    | some b => bits b.toNat (64 * (addr / 8 % 4)) 64
    | none => 0
  else 0

/-! ## Region 0 -/

/-- The queue status word (R387). -/
def queueStatus (s : State) : Nat :=
  s.io.lasth.toNat + s.io.dseq.toNat * 2 ^ 32 + s.io.hack.toNat * 2 ^ 64 + s.io.epoch.toNat * 2 ^ 96

/-- Byte i of a number. -/
def byteOf (v i : Nat) : Byte := BitVec.ofNat 8 (v / 256 ^ i)

/-- The byte that a host READ of region 0 gives at an offset (R380); offsets that are not listed and those the host only writes, the
doorbell and the nonce, read zero. -/
def regionByte (s : State) (off : Nat) : Byte :=
  if off < 0x4000 then SMap.get 0 s.io.ring off
  else if off < 0x4010 then byteOf (queueStatus s) (off - 0x4000)
  else if off < 0x4018 then byteOf s.io.boot.toNat (off - 0x4010)
  else if 0x4040 ≤ off ∧ off < 0x4060 then byteOf s.io.cword.toNat (off - 0x4040)
  else if 0x6040 ≤ off ∧ off < 0x6040 + 3501 then byteOf ((s.io.report.map (·.toNat)).getD 0) (off - 0x6040)
  else if 0x7000 ≤ off ∧ off < 0x9000 then
    match s.rom.identity with
    | some n => Config.certificate n (off - 0x7000)
    | none => 0
  else if 0x100000000 ≤ off ∧ off < 0x100000000 + Config.hbmBytes then SMap.get 0 s.hbm (off - 0x100000000)
  else 0

/-- Do the host ports answer a READ of n bytes at the offset? While the boot has stopped they answer only the boot word (R412), and HBM that
is not READY makes a READ wait (R408). -/
def hostAnswers (s : State) (off n : Nat) : Bool :=
  (hostUp s && (decide (off < 0x100000000) || (stacksOf (off - 0x100000000) n).all (fun f => s.fnReady f))) ||
  (s.io.boot != 0 && decide (0x4010 ≤ off) && decide (off + n ≤ 0x4018))

/-- A host READ of n bytes (R380): none while nothing answers. -/
def hostRead (s : State) (off n : Nat) : Option (List Byte) :=
  if hostAnswers s off n then some ((List.range n).map (fun i => regionByte s (off + i))) else none

/-- What a host READ of n bytes leaves of the machine: it stays as it was, but that one which needs a FAILED stack counts a lasting error of
it, which has no context (R408, R416). -/
def afterHostRead (s : State) (off n : Nat) : State :=
  if !hostUp s ∨ off < 0x100000000 then s
  else match (stacksOf (off - 0x100000000) n).find? (fun f => s.fnFailed f) with
    | some f => s.useFailed f
    | none => s

end Sys2Proof.Machine
end

