-- ==== Sys2Proof/Certificates/Slice0/Obligations.lean ====
section
/-! DEFINITION. The statements for the provers, with the tables of the spec that they are stated by. -/

namespace Sys2Proof.Spec
end Sys2Proof.Spec

section
open Sys2Proof Sys2Proof.Machine Sys2Proof.Spec

/-! ## What a trap leaves (R343) -/

/-- R343: from s to t the executing hart takes a trap from level 0 or 1: the bank of the new level holds the cause, the PC saved, the element
index, the value, the old level, the walk level and ABND; the hart goes on at the vector of the new level with EIDX 0 and ABND 0, and what its core had issued,
or it waited for or had begun, is gone. The results of walks that it had asked for may be forgotten; nothing else changes. -/
def Sys2Proof.Spec.TrapTaken (s t : State) (cause i : Nat) (v : Word) (wl : Nat) (epc : Word) : Prop :=
  let h := s.hart
  let n := h.tlvl.toNat + 1
  OnlyHart { s with walked := t.walked } t ∧
  t.hart = { h.setBank n ⟨BitVec.ofNat 8 cause, epc, BitVec.ofNat 11 i, v, h.tlvl, BitVec.ofNat 2 wl, h.abnd⟩ with
    tlvl := BitVec.ofNat 2 n, eidx := 0, pc := (h.tvec.zeroExtend 64 <<< 2) + BitVec.ofNat 64 (0x100 * (n - 1)), abnd := false, pwait := none, qtail := none
    word := none, mid := false, queue := [], want := none, accs := [] }

/-- A trap whose saved PC is that of the instruction. -/
def Sys2Proof.Spec.TrapOutcome (s t : State) (cause i : Nat) (v : Word) (wl : Nat) : Prop := TrapTaken s t cause i v wl s.hart.pc

/-- From level 0 or 1 the instruction, which is no legal word, traps as an illegal instruction: cause 0x01, TVAL the word (R38, R343). -/
def Sys2Proof.Spec.Illegal (i : Instr) (s : State) : Prop :=
  s.hart.tlvl.toNat < 2 → ∃ t, exec i s = .next t ∧ TrapOutcome s t 0x01 s.hart.eidx.toNat ((wordOf i).zeroExtend 64) 0

/-- The tags of g are those of h after a write below VL to `slices` (R79), or, unless something was certainly written, those of h. -/
def Sys2Proof.Spec.TaggedIf (h g : Hart) (slices : BitVec 64) (must : Prop) : Prop :=
  let x := h.touch slices h.len
  (g.dirty = x.dirty ∧ g.vlg = x.vlg) ∨ (¬ must ∧ g.dirty = h.dirty ∧ g.vlg = h.vlg)

/-- R309: `m` is the misses of `l` with the free walk slots taken: of each die's misses that have none, the oldest have started, up to 64 started ones. -/
def Sys2Proof.Spec.WalksServed (l m : List Walk) : Prop :=
  m.length = l.length ∧ ∀ i, i < l.length → m[i]? = (l[i]?).map (fun y => { y with started := y.started || decide (y.die < 5 ∧
    (l.filter (fun z => z.die == y.die && z.started)).length + ((l.take i).filter (fun z => z.die == y.die && !z.started)).length < 64) })

/-- Context c is killed with a reason (R339, R340): RES clear, LASTR the reason; its slots FREE with MODE 00; its tasks, credits, marks, groups, bindings, holds, channels, rounds,
translations, windows, tables and export windows gone, and the walks and remote requests made for it, whose walk slots others take; a kill record queued; memory, the other contexts and their slots unchanged but for LASTCTX. -/
def Sys2Proof.Spec.Killed (s t : State) (c : BitVec 6) (reason : Nat) : Prop :=
  t.ctx c = { s.ctx c with res := false, dying := false, lastr := BitVec.ofNat 8 reason } ∧ (∀ d, d ≠ c → t.ctx d = s.ctx d) ∧
  t.hbm = s.hbm ∧ t.cis = s.cis ∧ t.host = s.host ∧
  (∀ k, s.occupied k = true → s.ctxOf k = c → (t.slot k).state = .free ∧ (t.slot k).mode = 0) ∧
  (∀ k, (s.occupied k = true → s.ctxOf k ≠ c) → ((s.slot k).mode ≠ 0 → (s.slot k).ctx ≠ c) → { t.slot k with lastctx := (s.slot k).lastctx } = s.slot k) ∧
  (∀ k, (t.slot k).lastctx ≠ some c) ∧
  (∀ e, e ∈ t.held ↔ e ∈ s.held ∧ e.ctx ≠ c) ∧ (∀ e, e ∈ t.running ↔ e ∈ s.running ∧ e.ctx ≠ c) ∧ (∀ e, e ∈ t.credits ↔ e ∈ s.credits ∧ e.ctx ≠ c) ∧
  (∀ e, e ∈ t.marks ↔ e ∈ s.marks ∧ e.ctx ≠ c) ∧ (∀ e, e ∈ t.holds ↔ e ∈ s.holds ∧ e.ctx ≠ c) ∧ (∀ e, e ∈ t.tlb ↔ e ∈ s.tlb ∧ e.ctx ≠ c) ∧
  (∀ e, e ∈ t.chans ↔ e ∈ s.chans ∧ e.2.ctx ≠ c) ∧ (∀ e, e ∈ t.rounds ↔ e ∈ s.rounds ∧ e.2.ctx ≠ c) ∧
  (∀ e, e ∈ t.groups ↔ e ∈ s.groups ∧ e.1 / 256 ≠ c.toNat) ∧ (∀ e, e ∈ t.bindings ↔ e ∈ s.bindings ∧ e.1 / 64 ≠ c.toNat) ∧
  (∀ e, e ∈ t.owed ↔ e ∈ s.owed ∧ e.1 ≠ c) ∧ WalksServed (s.walks.filter (fun e => e.ctx != c)) t.walks ∧ (∀ r, r ∈ t.net.reqs ↔ r ∈ s.net.reqs ∧ r.ctx ≠ c) ∧
  (∀ b, SMap.get 0 t.net.fab b = if 0x400 * c.toNat + 0x100 ≤ b ∧ b < 0x400 * c.toNat + 0x180 then 0 else SMap.get 0 s.net.fab b) ∧
  (∀ a, (t.window a) = if (s.window a).ctx = c then { s.window a with valid := false } else s.window a) ∧
  (∀ n, (t.tile n) = if (s.tile n).owner = c then { s.tile n with tvalid := false } else s.tile n) ∧
  (∃ r : BitVec 512, t.io = { s.io with compl := s.io.compl ++ [r] } ∧ r.extractLsb' 0 32 = 3 ∧ r.extractLsb' 64 8 = c.zeroExtend 8 ∧
    r.extractLsb' 72 8 = BitVec.ofNat 8 reason ∧ r.extractLsb' 448 64 = (s.ctx c).cseq)

/-! ## Integer lanes (R106–R114) -/

/-- A row of R108: its operands, the value at width w from A, B and the old destination, when it saturates, and whether it is
a shift (its immediate is zero-extended) or a division. -/
structure Sys2Proof.Spec.IntRow where
  x : ArgsA
  val : (w : Nat) → BitVec w → BitVec w → BitVec w → BitVec w
  sat : (w : Nat) → BitVec w → BitVec w → Bool := fun _ _ _ => false
  shift : Bool := false
  divides : Bool := false

/-- R108 and R109 as bit-vector arithmetic. -/
def Sys2Proof.Spec.intRow : Instr → Option IntRow
  | .add x => some { x, val := fun _ a b _ => a + b }
  | .sub x => some { x, val := fun _ a b _ => a - b }
  | .adds x => some { x, val := fun w a b _ => if a.saddOverflow b then (if a.slt 0#w then BitVec.intMin w else BitVec.intMax w) else a + b
                      sat := fun _ a b => a.saddOverflow b }
  | .addsu x => some { x, val := fun w a b _ => if a.uaddOverflow b then BitVec.allOnes w else a + b
                       sat := fun _ a b => a.uaddOverflow b }
  | .subs x => some { x, val := fun w a b _ => if a.ssubOverflow b then (if a.slt 0#w then BitVec.intMin w else BitVec.intMax w) else a - b
                      sat := fun _ a b => a.ssubOverflow b }
  | .subsu x => some { x, val := fun w a b _ => if a.usubOverflow b then 0#w else a - b
                       sat := fun _ a b => a.usubOverflow b }
  | .mul x => some { x, val := fun _ a b _ => a * b }
  | .mulh x => some { x, val := fun w a b _ => BitVec.ofInt w (a.toInt * b.toInt / (2 ^ w : Nat)) }
  | .mulhu x => some { x, val := fun w a b _ => BitVec.ofNat w (a.toNat * b.toNat / 2 ^ w) }
  | .mac x => some { x, val := fun _ a b d => d + a * b }
  | .div x => some { x, val := fun w a b _ => if b = 0#w then BitVec.allOnes w else a.sdiv b, divides := true }
  | .divu x => some { x, val := fun w a b _ => if b = 0#w then BitVec.allOnes w else a / b, divides := true }
  | .rem x => some { x, val := fun w a b _ => if b = 0#w then a else a.srem b, divides := true }
  | .remu x => some { x, val := fun w a b _ => if b = 0#w then a else a % b, divides := true }
  | .min x => some { x, val := fun _ a b _ => if a.slt b then a else b }
  | .minu x => some { x, val := fun _ a b _ => if a.ult b then a else b }
  | .max x => some { x, val := fun _ a b _ => if a.slt b then b else a }
  | .maxu x => some { x, val := fun _ a b _ => if a.ult b then b else a }
  | .and x => some { x, val := fun _ a b _ => a &&& b }
  | .or x => some { x, val := fun _ a b _ => a ||| b }
  | .xor x => some { x, val := fun _ a b _ => a ^^^ b }
  | .andn x => some { x, val := fun _ a b _ => a &&& ~~~ b }
  | .sll x => some { x, val := fun w a b _ => a <<< (b.toNat % w), shift := true }
  | .srl x => some { x, val := fun w a b _ => a >>> (b.toNat % w), shift := true }
  | .sra x => some { x, val := fun w a b _ => a.sshiftRight (b.toNat % w), shift := true }
  | .rotr x => some { x, val := fun w a b _ => a.rotateRight (b.toNat % w), shift := true }
  | _ => none

/-- The immediate at width w (R28, R106). -/
def Sys2Proof.Spec.immAt (shift : Bool) (w : Nat) (b : BitVec 6) : BitVec w := if shift then b.zeroExtend w else b.signExtend w

/-- A of element j: the slice file at width w (R8, R106). -/
def Sys2Proof.Spec.sliceAt (s : State) (w : Nat) (field : BitVec 6) (j : Nat) : BitVec w := BitVec.ofNat w (elemOf (s.hart.row j) w field.toNat)

/-- B of element j in forms VV, VS and VI (R106). -/
def Sys2Proof.Spec.secondAt (s : State) (f : BitVec 2) (shift : Bool) (w : Nat) (b : BitVec 6) (j : Nat) : BitVec w :=
  if f = 0 then sliceAt s w b j else if f = 1 then BitVec.ofNat w (s.hart.rs b).toNat else immAt shift w b

/-- B of an SS form: a register, or the immediate when wcode[0] is set (R27, R106). -/
def Sys2Proof.Spec.secondScalar (s : State) (wc : BitVec 3) (shift : Bool) (w : Nat) (b : BitVec 6) : BitVec w :=
  if wc.getLsbD 0 then immAt shift w b else BitVec.ofNat w (s.hart.rs b).toNat

/-- The width of an SS form (R27). -/
def Sys2Proof.Spec.scalarWidth (wc : BitVec 3) : Nat := if wc.getLsbD 1 then 32 else 64

/-- R106, R108, R109: the SS form of every binary integer instruction writes the value of R108 at width 64, or at width 32
sign-extended, raises SAT on saturation and DZ on a zero divisor, and changes nothing else. -/
def Obligations.IntegerScalarResult : Prop :=
  ∀ (i : Instr) (r : IntRow) (s : State), intRow i = some r → i.wellFormed = true → r.x.f = 3 → Ready s = true →
    let w := scalarWidth r.x.w
    let a : BitVec w := BitVec.ofNat w (s.hart.rs r.x.a).toNat
    let b : BitVec w := secondScalar s r.x.w r.shift w r.x.b
    let d : BitVec w := BitVec.ofNat w (s.hart.rs r.x.d).toNat
    (r.divides = true → b = 0 → s.hart.fctl.getLsbD 5 = false) →
    ∃ t, exec i s = .next t ∧ ScalarOutcome s t r.x.d ((r.val w a b d).signExtend 64)
      ((if r.sat w a b then fSAT else 0) ||| (if r.divides = true ∧ b = 0 then fDZ else 0))

/-- R106, R108, R109: the vector forms of every binary integer instruction, where no zero divisor traps, write the value of R108 at the width of wcode to each element that is performed,
set that element's bit of the mask of VSATM where it saturates, raise DZ on a zero divisor, tag the destination slices, retire, and change nothing else. -/
def Obligations.IntegerVectorResult : Prop :=
  ∀ (i : Instr) (r : IntRow) (s : State), intRow i = some r → i.wellFormed = true → r.x.f ≠ 3 → Ready s = true →
    let w := widthOf r.x.w
    overruns w r.x.d.toNat = false → overruns w r.x.a.toNat = false → (r.x.f = 0 → overruns w r.x.b.toNat = false) →
    let a := sliceAt s w r.x.a
    let b := secondAt s r.x.f r.shift w r.x.b
    let d := sliceAt s w r.x.d
    (r.divides = true → s.hart.fctl.getLsbD 5 = true → ∀ j, performed s.hart j = true → b j ≠ 0) →
    ∃ t, exec i s = .next t ∧ VectorOutcome s t w r.x.d.toNat (fun j => (r.val w (a j) (b j) (d j)).toNat)
      (fun j => r.sat w (a j) (b j)) (fun j => if r.divides = true ∧ b j = 0 then fDZ else 0)

/-- A row of R112: sources of width w, a destination of width 2w. -/
structure Sys2Proof.Spec.WideRow where
  x : ArgsA
  val : (w : Nat) → BitVec w → BitVec w → BitVec (2 * w) → BitVec (2 * w)

/-- R112 as bit-vector arithmetic. -/
def Sys2Proof.Spec.wideRow : Instr → Option WideRow
  | .wadd x => some ⟨x, fun w a b _ => a.signExtend (2 * w) + b.signExtend (2 * w)⟩
  | .waddu x => some ⟨x, fun w a b _ => a.zeroExtend (2 * w) + b.zeroExtend (2 * w)⟩
  | .wmul x => some ⟨x, fun w a b _ => a.signExtend (2 * w) * b.signExtend (2 * w)⟩
  | .wmulu x => some ⟨x, fun w a b _ => a.zeroExtend (2 * w) * b.zeroExtend (2 * w)⟩
  | .wmac x => some ⟨x, fun w a b d => d + a.signExtend (2 * w) * b.signExtend (2 * w)⟩
  | .wmacu x => some ⟨x, fun w a b d => d + a.zeroExtend (2 * w) * b.zeroExtend (2 * w)⟩
  | _ => none

/-- R112: the widening instructions, vector forms and SS form. -/
def Sys2Proof.Spec.WideningResult : Prop :=
  ∀ (i : Instr) (r : WideRow) (s : State), wideRow i = some r → i.wellFormed = true → Ready s = true →
    (r.x.f = 3 →
      ∃ t, exec i s = .next t ∧ ScalarOutcome s t r.x.d
        ((r.val 32 (BitVec.ofNat 32 (s.hart.rs r.x.a).toNat) (secondScalar s r.x.w false 32 r.x.b) (s.hart.rs r.x.d)) : BitVec 64) 0) ∧
    (let w := widthOf r.x.w
     r.x.f ≠ 3 → overruns (2 * w) r.x.d.toNat = false → overruns w r.x.a.toNat = false →
      (r.x.f = 0 → overruns w r.x.b.toNat = false) →
      ∃ t, exec i s = .next t ∧ VectorOutcome s t (2 * w) r.x.d.toNat
        (fun j => (r.val w (sliceAt s w r.x.a j) (secondAt s r.x.f false w r.x.b j) (sliceAt s (2 * w) r.x.d j)).toNat)
        (fun _ => false) (fun _ => 0))

/-- A row of R111. -/
structure Sys2Proof.Spec.UnaryRow where
  x : ArgsU
  val : (w : Nat) → BitVec w → BitVec w

/-- R111 as bit-vector arithmetic; POPC counts the bits that are 1. -/
def Sys2Proof.Spec.unaryRow : Instr → Option UnaryRow
  | .abs x => some ⟨x, fun w a => if a.slt 0#w then -a else a⟩
  | .neg x => some ⟨x, fun _ a => -a⟩
  | .popc x => some ⟨x, fun w a => BitVec.ofNat w ((List.range w).countP (fun k => a.getLsbD k))⟩
  | .clz x => some ⟨x, fun _ a => a.clz⟩
  | _ => none

/-- R111: ABS, NEG, POPC and CLZ, whose codes are those of the table, write their value: the SS form to s[d], sign-extended from its width, the vector form to each element that is performed; they raise no flag, and change
nothing else. SS forms of wcode 001 and 011 are illegal instructions. -/
def Obligations.UnaryResult : Prop :=
  (∀ x : ArgsU, let word : BitVec 7 → Option IWord := fun code => some (code ++ x.f ++ x.w ++ x.d ++ x.a ++ 0#6 ++ BitVec.ofBool x.p ++ 0#1)
    encode (.abs x) = word 0x13 ∧ encode (.neg x) = word 0x14 ∧ encode (.popc x) = word 0x25 ∧ encode (.clz x) = word 0x26) ∧
  (∀ (i : Instr) (r : UnaryRow) (s : State), unaryRow i = some r → r.x.f = 3 → (r.x.w = 1 ∨ r.x.w = 3) → Illegal i s) ∧
  ∀ (i : Instr) (r : UnaryRow) (s : State), unaryRow i = some r → i.wellFormed = true → Ready s = true →
    (let w := scalarWidth r.x.w
     r.x.f = 3 → ∃ t, exec i s = .next t ∧ ScalarOutcome s t r.x.d
      ((r.val w (BitVec.ofNat w (s.hart.rs r.x.a).toNat)).signExtend 64) 0) ∧
    (let w := widthOf r.x.w
     r.x.f ≠ 3 → overruns w r.x.d.toNat = false → overruns w r.x.a.toNat = false →
      ∃ t, exec i s = .next t ∧ VectorOutcome s t w r.x.d.toNat (fun j => (r.val w (sliceAt s w r.x.a j)).toNat)
        (fun _ => false) (fun _ => 0))

/-- A row of R114. -/
structure Sys2Proof.Spec.CompareRow where
  x : ArgsA
  test : (w : Nat) → BitVec w → BitVec w → Bool

/-- R114 as bit-vector comparison. -/
def Sys2Proof.Spec.compareRow : Instr → Option CompareRow
  | .cmpeq x => some ⟨x, fun _ a b => a == b⟩
  | .cmpne x => some ⟨x, fun _ a b => a != b⟩
  | .cmplt x => some ⟨x, fun _ a b => a.slt b⟩
  | .cmpltu x => some ⟨x, fun _ a b => a.ult b⟩
  | .cmple x => some ⟨x, fun _ a b => a.sle b⟩
  | .cmpleu x => some ⟨x, fun _ a b => a.ule b⟩
  | _ => none

/-- R114: the comparisons set the mask bits of the performed elements, or write 0 or 1 to s[d]. -/
def Sys2Proof.Spec.CompareResult : Prop :=
  ∀ (i : Instr) (r : CompareRow) (s : State), compareRow i = some r → i.wellFormed = true → Ready s = true →
    (let w := scalarWidth r.x.w
     r.x.f = 3 → ∃ t, exec i s = .next t ∧ ScalarOutcome s t r.x.d
      (if r.test w (BitVec.ofNat w (s.hart.rs r.x.a).toNat) (secondScalar s r.x.w false w r.x.b) then 1 else 0) 0) ∧
    (let w := widthOf r.x.w
     r.x.f ≠ 3 → overruns w r.x.a.toNat = false → (r.x.f = 0 → overruns w r.x.b.toNat = false) →
      ∃ t, exec i s = .next t ∧ MaskOutcome s t r.x.d.toNat
        (fun j => r.test w (sliceAt s w r.x.a j) (secondAt s r.x.f false w r.x.b j)) (fun _ => 0))

/-- R113: NARROW and NARROWU divide by 2^c, round to nearest with ties to even, clamp to the range of width w, and set the saturation
bit of each element that clamping changed. `lo` and `hi` are the bounds of the range. -/
def Sys2Proof.Spec.NarrowResult : Prop :=
  ∀ (x : ArgsA) (s : State) (signed : Bool), (if signed then Instr.narrow x else Instr.narrowu x).wellFormed = true → Ready s = true →
    let w := widthOf x.w
    let c : Nat := if x.f = 1 then min (s.hart.rs x.b).toNat (2 * w - 1) else x.b.toNat
    let lo : Int := if signed then -(2 ^ (w - 1)) else 0
    let hi : Int := if signed then 2 ^ (w - 1) - 1 else 2 ^ w - 1
    let n : Nat → Int := fun j => if signed then (sliceAt s (2 * w) x.a j).toInt else (sliceAt s (2 * w) x.a j).toNat
    overruns w x.d.toNat = false → overruns (2 * w) x.a.toNat = false →
    ∃ (t : State) (q : Nat → Int), exec (if signed then Instr.narrow x else Instr.narrowu x) s = .next t ∧
      (∀ j, 2 * |n j - q j * 2 ^ c| ≤ 2 ^ c ∧ (2 * |n j - q j * 2 ^ c| = 2 ^ c → q j % 2 = 0)) ∧
      VectorOutcome s t w x.d.toNat (fun j => (BitVec.ofInt w (max lo (min hi (q j)))).toNat)
        (fun j => decide (q j < lo ∨ hi < q j)) (fun _ => 0)



/-! ## Moves and masks (R97–R102) -/

/-- A row of R97, R98 or R102 whose destination is a slice operand or a scalar register: the width of the destination, whether its slice
operands lie in the file (R25), and the values written. -/
structure Sys2Proof.Spec.MoveRow where
  d : BitVec 6
  scalar : Bool
  w : Nat
  fits : Bool
  val : State → Nat → Nat
  word : State → Word

/-- MOV, SEXT, ZEXT and MTO. -/
def Sys2Proof.Spec.moveRow : Instr → Option MoveRow
  | .mov x => some
      { d := x.d, scalar := x.f == 3, w := widthOf x.w
        fits := !overruns (widthOf x.w) x.d.toNat && (x.f != 0 || !overruns (widthOf x.w) x.b.toNat)
        val := fun s j => (secondAt s x.f false (widthOf x.w) x.b j).toNat
        word := fun s => (secondScalar s x.w false (scalarWidth x.w) x.b).signExtend 64 }
  | .sext x => some
      { d := x.d, scalar := x.f == 3, w := widthOf x.w
        fits := !overruns (widthOf x.w) x.d.toNat && !overruns (widthOf x.s) x.a.toNat
        val := fun s j => ((sliceAt s (widthOf x.s) x.a j).signExtend (widthOf x.w)).toNat
        word := fun s => (BitVec.ofNat (widthOf x.s) (s.hart.rs x.a).toNat).signExtend 64 }
  | .zext x => some
      { d := x.d, scalar := x.f == 3, w := widthOf x.w
        fits := !overruns (widthOf x.w) x.d.toNat && !overruns (widthOf x.s) x.a.toNat
        val := fun s j => ((sliceAt s (widthOf x.s) x.a j).zeroExtend (widthOf x.w)).toNat
        word := fun s => (BitVec.ofNat (widthOf x.s) (s.hart.rs x.a).toNat).zeroExtend 64 }
  | .mto x => some
      { d := x.d, scalar := false, w := widthOf x.w
        fits := !overruns (widthOf x.w) x.d.toNat
        val := fun s j => ((s.hart.rm x.a.toNat).getLsbD j).toNat
        word := fun _ => 0 }
  | _ => none

/-- R97, R98, R99, R102: MOV, SEXT, ZEXT and MTO write the copied or extended value to each performed element, or to s[d]; SEL writes every element from
EIDX up to VL, from a where the guard permits and from b elsewhere, and no other element. -/
def Sys2Proof.Spec.MoveResult : Prop :=
  (∀ (i : Instr) (r : MoveRow) (s : State), moveRow i = some r → i.wellFormed = true → Ready s = true →
    (r.scalar = true → ∃ t, exec i s = .next t ∧ ScalarOutcome s t r.d (r.word s) 0) ∧
    (r.scalar = false → r.fits = true →
      ∃ t, exec i s = .next t ∧ VectorOutcome s t r.w r.d.toNat (r.val s) (fun _ => false) (fun _ => 0))) ∧
  (∀ (x : ArgsA) (s : State), (Instr.sel x).wellFormed = true → Ready s = true →
    let w := widthOf x.w
    overruns w x.d.toNat = false → overruns w x.a.toNat = false → (x.f = 0 → overruns w x.b.toNat = false) →
    ∃ t, exec (.sel x) s = .next t ∧ OnlyHart s t ∧ RetiredWith s.hart t.hart ∧ t.hart.s = s.hart.s ∧
      t.hart.fflags = s.hart.fflags ∧ (∀ n, t.hart.rm n = s.hart.rm n) ∧
      (∀ j, t.hart.row j =
        if s.hart.eidx.toNat ≤ j ∧ j < s.hart.len then
          putElem (s.hart.row j) w x.d.toNat
            (if s.hart.permits j then sliceAt s w x.a j else secondAt s x.f false w x.b j).toNat
        else s.hart.row j))

/-- A row of R100 or R102 whose destination is a mask. -/
structure Sys2Proof.Spec.MaskRow where
  m : BitVec 6
  fits : Bool := true
  bit : State → Nat → Bool

/-- The eight MLOG rows and MFROM. -/
def Sys2Proof.Spec.maskRow : Instr → Option MaskRow
  | .mlogAnd x => some { m := x.d, bit := fun s j => (s.hart.rm x.a.toNat).getLsbD j && (s.hart.rm x.b.toNat).getLsbD j }
  | .mlogOr x => some { m := x.d, bit := fun s j => (s.hart.rm x.a.toNat).getLsbD j || (s.hart.rm x.b.toNat).getLsbD j }
  | .mlogXor x => some { m := x.d, bit := fun s j => (s.hart.rm x.a.toNat).getLsbD j ^^ (s.hart.rm x.b.toNat).getLsbD j }
  | .mlogAndn x => some { m := x.d, bit := fun s j => (s.hart.rm x.a.toNat).getLsbD j && !(s.hart.rm x.b.toNat).getLsbD j }
  | .mlogNot x => some { m := x.d, bit := fun s j => !(s.hart.rm x.a.toNat).getLsbD j }
  | .mlogCopy x => some { m := x.d, bit := fun s j => (s.hart.rm x.a.toNat).getLsbD j }
  | .mlogSet d => some { m := d, bit := fun _ _ => true }
  | .mlogClr d => some { m := d, bit := fun _ _ => false }
  | .mfrom x => some
      { m := x.d, fits := !overruns (widthOf x.w) x.a.toNat, bit := fun s j => sliceAt s (widthOf x.w) x.a j != 0 }
  | _ => none

/-- R100, R101, R102, R83: MLOG and MFROM write bit j of m[d] for each performed element, and no other mask bit; MCNT counts and MFIRST finds the
least of the set bits below VL that the guard permits; where EIDX is not below VL, as with VL = 0, neither writes s[d] (R359). -/
def Sys2Proof.Spec.MaskResult : Prop :=
  (∀ (i : Instr) (r : MaskRow) (s : State), maskRow i = some r → i.wellFormed = true → r.fits = true → Ready s = true →
    ∃ t, exec i s = .next t ∧ MaskOutcome s t r.m.toNat (r.bit s) (fun _ => 0)) ∧
  (∀ (x : ArgsD) (s : State), isMask x.a = true → Ready s = true →
    let inS : Nat → Bool := fun j => s.hart.permits j && (s.hart.rm x.a.toNat).getLsbD j
    (s.hart.len ≤ s.hart.eidx.toNat → exec (.mcnt x) s = .next (s.setHart s.hart.retire) ∧ exec (.mfirst x) s = .next (s.setHart s.hart.retire)) ∧
    (s.hart.eidx.toNat < s.hart.len →
      (∃ t, exec (.mcnt x) s = .next t ∧ ScalarOutcome s t x.d (BitVec.ofNat 64 ((List.range s.hart.len).countP inS)) 0) ∧
      (∃ t, exec (.mfirst x) s = .next t ∧ ScalarOutcome s t x.d
        (match (List.range s.hart.len).find? inS with | some j => BitVec.ofNat 64 j | none => 0xFFFFFFFFFFFFFFFF) 0)))

/-! ## Float lanes (R116–R132) -/

/-- The float operations on patterns: FB and FM rows of R126, and the unary rows of R127 and R128, as an operation of the old destination too. -/
structure Sys2Proof.Spec.FloatRow where
  f : BitVec 2
  w : BitVec 3
  d : BitVec 6
  a : BitVec 6
  b : Option (BitVec 6)
  op : RCtl → Fmt → (x y d : Nat) → Nat × Flags

/-- R126 to R128. FV is R124's reading of a pattern and the sums, products, quotients and roots are rounded once. -/
def Sys2Proof.Spec.floatRow : Instr → Option FloatRow
  | .fadd x => some ⟨x.f, x.w, x.d, x.a, some x.b, fun c t a b _ => addV t c (t.val c a) (t.val c b)⟩
  | .fsub x => some ⟨x.f, x.w, x.d, x.a, some x.b, fun c t a b _ => addV t c (t.val c a) (t.val c b).neg⟩
  | .fmul x => some ⟨x.f, x.w, x.d, x.a, some x.b, fun c t a b _ => mulV t c (t.val c a) (t.val c b)⟩
  | .fdiv x => some ⟨x.f, x.w, x.d, x.a, some x.b, fun c t a b _ => divV t c (t.val c a) (t.val c b)⟩
  | .fma x => some ⟨x.f, x.w, x.d, x.a, some x.b, fun c t a b d => fmaV t c (t.val c a) (t.val c b) (t.val c d)⟩
  | .fms x => some ⟨x.f, x.w, x.d, x.a, some x.b, fun c t a b d => fmaV t c (t.val c a) (t.val c b) (t.val c d).neg⟩
  | .fnma x => some ⟨x.f, x.w, x.d, x.a, some x.b, fun c t a b d => fmaV t c (t.val c a).neg (t.val c b) (t.val c d)⟩
  | .fmin x => some ⟨x.f, x.w, x.d, x.a, some x.b, fun c t a b _ => minMaxV t c false (t.val c a) (t.val c b)⟩
  | .fmax x => some ⟨x.f, x.w, x.d, x.a, some x.b, fun c t a b _ => minMaxV t c true (t.val c a) (t.val c b)⟩
  | .fsqrt x => some ⟨x.f, x.w, x.d, x.a, none, fun c t a _ _ => sqrtV t c (t.val c a)⟩
  | .frsq x => some ⟨x.f, x.w, x.d, x.a, none, fun c t a _ _ => rsqrtV t c (t.val c a)⟩
  | .fexp2 x => some ⟨x.f, x.w, x.d, x.a, none, fun c t a _ _ => exp2V t c (t.val c a)⟩
  | .flog2 x => some ⟨x.f, x.w, x.d, x.a, none, fun c t a _ _ => log2V t c (t.val c a)⟩
  | .fabs x => some ⟨x.f, x.w, x.d, x.a, none, fun _ t a _ _ => signOp t false a⟩
  | .fneg x => some ⟨x.f, x.w, x.d, x.a, none, fun _ t a _ _ => signOp t true a⟩
  | .fclass x => some ⟨x.f, x.w, x.d, x.a, none, fun _ t a _ _ => (classCode t a, 0)⟩
  | _ => none

/-- The second source of element j of a float vector form (R124): a slice, the captured scalar, or none. -/
def Sys2Proof.Spec.floatSecond (s : State) (f : BitVec 2) (w : Nat) (b : Option (BitVec 6)) (j : Nat) : Nat :=
  match b with
  | none => 0
  | some b => (secondAt s f false w b j).toNat

/-- R124, R126, R127, R128: every float instruction of classes FB, FM and FU writes RND of its operation to s[d], zero-extended, or to each
performed element, and ORs the flags of what it performed into FFLAGS.
The model's own readings that it rests on: log 11. -/
def Obligations.FloatResult : Prop :=
  ∀ (i : Instr) (r : FloatRow) (s : State), floatRow i = some r → i.wellFormed = true → Ready s = true →
    (r.f = 3 →
      let t0 := ssFmt r.w
      let v := r.op (rctl s.hart.fctl) t0 ((s.hart.rs r.a).toNat % 2 ^ t0.w)
        (match r.b with | some b => (s.hart.rs b).toNat % 2 ^ t0.w | none => 0) ((s.hart.rs r.d).toNat % 2 ^ t0.w)
      ∃ t, exec i s = .next t ∧ ScalarOutcome s t r.d (BitVec.ofNat 64 v.1) v.2) ∧
    (r.f ≠ 3 →
      let w := widthOf r.w
      overruns w r.d.toNat = false → overruns w r.a.toNat = false →
      (∀ b, r.f = 0 → r.b = some b → overruns w b.toNat = false) →
      let v : Nat → Nat × Flags := fun j => r.op (rctl s.hart.fctl) (fmtOf s.hart.fctl w) (sliceAt s w r.a j).toNat
        (floatSecond s r.f w r.b j) (sliceAt s w r.d j).toNat
      ∃ t, exec i s = .next t ∧ VectorOutcome s t w r.d.toNat (fun j => (v j).1) (fun _ => false) (fun j => (v j).2))

/-- R129: FCMPEQ, FCMPLT and FCMPLE write 1 or 0, raise NV for a NaN source (FCMPEQ only for a signalling one), and are false for a NaN. -/
def Sys2Proof.Spec.FloatCompareResult : Prop :=
  ∀ (x : ArgsA) (s : State) (i : Instr) (test : FV → FV → Bool) (fl : FV → FV → Flags),
    (i = .fcmpeq x ∧ test = eqV ∧ fl = (fun a b => a.sigFlag ||| b.sigFlag)) ∨
    (i = .fcmplt x ∧ test = ltV false ∧ fl = (fun a b => if a.isNan || b.isNan then fNV else 0)) ∨
    (i = .fcmple x ∧ test = (fun a b => ltV false a b || eqV a b) ∧ fl = (fun a b => if a.isNan || b.isNan then fNV else 0)) →
    i.wellFormed = true → Ready s = true →
    let c := rctl s.hart.fctl
    (x.f = 3 →
      let t0 := ssFmt x.w
      let a := t0.val c ((s.hart.rs x.a).toNat % 2 ^ t0.w)
      let b := t0.val c ((s.hart.rs x.b).toNat % 2 ^ t0.w)
      ∃ t, exec i s = .next t ∧ ScalarOutcome s t x.d (if test a b then 1 else 0) (fl a b)) ∧
    (x.f ≠ 3 →
      let w := widthOf x.w
      overruns w x.a.toNat = false → (x.f = 0 → overruns w x.b.toNat = false) →
      let t0 := fmtOf s.hart.fctl w
      let a : Nat → FV := fun j => t0.val c (sliceAt s w x.a j).toNat
      let b : Nat → FV := fun j => t0.val c (secondAt s x.f false w x.b j).toNat
      ∃ t, exec i s = .next t ∧ MaskOutcome s t x.d.toNat (fun j => test (a j) (b j)) (fun j => fl (a j) (b j)))

/-- R130, R131, R132: the conversions FCVT between float formats, FCVTI to integers (clamped; a NaN gives 0; the element's saturation bit, or
SAT in the SS form) and FCVTF from integers. -/
def Obligations.ConversionResult : Prop :=
  ∀ (x : ArgsC) (s : State), Ready s = true →
    let c := rctl s.hart.fctl
    let fc := s.hart.fctl
    ((Instr.fcvt x).wellFormed = true → x.s ≠ 6 →
      (x.f = 3 →
        let v := rndV (ssFmt x.w) c ((ssFmt x.s).val c ((s.hart.rs x.a).toNat % 2 ^ (ssFmt x.s).w))
        ∃ t, exec (.fcvt x) s = .next t ∧ ScalarOutcome s t x.d (BitVec.ofNat 64 v.1) v.2) ∧
      (x.f = 0 → overruns (widthOf x.w) x.d.toNat = false → overruns (widthOf x.s) x.a.toNat = false →
        let src := fmtOf fc (widthOf x.s)
        let v : Nat → Nat × Flags := fun j => rndV (if x.s = x.w then otherFmt src else fmtOf fc (widthOf x.w)) c
          (src.val c (sliceAt s (widthOf x.s) x.a j).toNat)
        ∃ t, exec (.fcvt x) s = .next t ∧
          VectorOutcome s t (widthOf x.w) x.d.toNat (fun j => (v j).1) (fun _ => false) (fun j => (v j).2))) ∧
    ((Instr.fcvti x).wellFormed = true →
      (x.f = 3 →
        let w := scalarWidth x.w
        let v := cvtInt c w ((ssFmt x.s).val c ((s.hart.rs x.a).toNat % 2 ^ (ssFmt x.s).w))
        ∃ t, exec (.fcvti x) s = .next t ∧
          ScalarOutcome s t x.d ((BitVec.ofInt w v.1).signExtend 64) (v.2.1 ||| (if v.2.2 then fSAT else 0))) ∧
      (x.f = 0 → overruns (widthOf x.w) x.d.toNat = false → overruns (widthOf x.s) x.a.toNat = false →
        let v : Nat → Int × Flags × Bool := fun j => cvtInt c (widthOf x.w) ((fmtOf fc (widthOf x.s)).val c (sliceAt s (widthOf x.s) x.a j).toNat)
        ∃ t, exec (.fcvti x) s = .next t ∧ VectorOutcome s t (widthOf x.w) x.d.toNat
          (fun j => (BitVec.ofInt (widthOf x.w) (v j).1).toNat) (fun j => (v j).2.2) (fun j => (v j).2.1))) ∧
    ((Instr.fcvtf x).wellFormed = true →
      (x.f = 3 →
        let v := ofInt (ssFmt x.w) c (BitVec.ofNat (scalarWidth x.s) (s.hart.rs x.a).toNat).toInt
        ∃ t, exec (.fcvtf x) s = .next t ∧ ScalarOutcome s t x.d (BitVec.ofNat 64 v.1) v.2) ∧
      (x.f = 0 → overruns (widthOf x.w) x.d.toNat = false → overruns (widthOf x.s) x.a.toNat = false →
        let v : Nat → Nat × Flags := fun j => ofInt (fmtOf fc (widthOf x.w)) c (sliceAt s (widthOf x.s) x.a j).toInt
        ∃ t, exec (.fcvtf x) s = .next t ∧
          VectorOutcome s t (widthOf x.w) x.d.toNat (fun j => (v j).1) (fun _ => false) (fun j => (v j).2)))

/-- R116, R127: FABS clears and FNEG inverts the sign bit of a pattern that is no NaN; of a NaN both give the format's canonical NaN, with NV
when it is signalling; and RND of a NaN is that same NaN. -/
def Sys2Proof.Spec.FloatSignRules : Prop :=
  ∀ (t : Fmt) (c : RCtl) (p : Nat), t ∈ [fp64, fp32, fp16, bf16, e5m2, e4m3] → p < 2 ^ t.w →
    ((t.raw p).isNan = false →
      signOp t false p = (p % 2 ^ (t.w - 1), 0) ∧ signOp t true p = ((p + 2 ^ (t.w - 1)) % 2 ^ t.w, 0)) ∧
    ((t.raw p).isNan = true → ∀ inv, signOp t inv p = (t.nan, (t.raw p).sigFlag)) ∧
    ((t.raw p).isNan = true → rndV t c (t.raw p) = (t.nan, (t.raw p).sigFlag))

/-- R119: the four rounding modes. A magnitude m × 2^e taken to a multiple r of 2^q, q above e, with nothing lost below m: to nearest with ties to
even (00), toward zero (01), toward −∞ (10), toward +∞ (11); inexact says that the multiple is not the magnitude itself. -/
def Sys2Proof.Spec.RoundingModes : Prop :=
  ∀ (rm : BitVec 2) (neg : Bool) (m : Nat) (e q : Int), e < q →
    let k : Nat := 2 ^ (q - e).toNat
    let r := roundAt rm neg m e false q
    (r.2 = true ↔ m ≠ m / k * k) ∧
    (rm = 0 → 2 * ((r.1 * k : Nat) - (m : Int)).natAbs ≤ k ∧ (2 * ((r.1 * k : Nat) - (m : Int)).natAbs = k → r.1 % 2 = 0)) ∧
    ((rm = 1 ∨ (rm = 2 ∧ neg = false) ∨ (rm = 3 ∧ neg = true)) → r.1 * k ≤ m ∧ m < r.1 * k + k) ∧
    ((rm = 2 ∧ neg = true) ∨ (rm = 3 ∧ neg = false) → m ≤ r.1 * k ∧ r.1 * k < m + k)

/-- The magnitude of pattern k of a format whose exponent range had no top (R116, R117): a subnormal for exponent field 0, else
2^f + fraction at the field's power of two. -/
noncomputable def Sys2Proof.Spec.magnitude (t : Fmt) (k : Nat) : ℝ :=
  if k / 2 ^ t.f = 0 then (k : ℝ) * 2 ^ (1 - (t.bias : ℤ) - t.f)
  else ((2 ^ t.f + k % 2 ^ t.f : Nat) : ℝ) * 2 ^ (((k / 2 ^ t.f : Nat) : ℤ) - t.bias - t.f)

/-- Does the mode round a magnitude of that sign away from zero (R119)? -/
def Sys2Proof.Spec.away (rm : BitVec 2) (neg : Bool) : Prop := (rm = 2 ∧ neg = true) ∨ (rm = 3 ∧ neg = false)

/-- R119: pattern k is the magnitude x rounded: x itself where it is one, else one of the two that enclose it, the nearest with ties to the even
pattern (00), the upper one away from zero, the lower one toward zero. -/
def Sys2Proof.Spec.RoundedTo (t : Fmt) (rm : BitVec 2) (neg : Bool) (x : ℝ) (k : Nat) : Prop :=
  ∃ n : Nat, magnitude t n ≤ x ∧ x < magnitude t (n + 1) ∧ (k = n ∨ k = n + 1) ∧
    (x = magnitude t n → k = n) ∧
    (x ≠ magnitude t n →
      (rm = 0 → (k = n → x - magnitude t n ≤ magnitude t (n + 1) - x) ∧ (k = n + 1 → magnitude t (n + 1) - x ≤ x - magnitude t n) ∧
        (x - magnitude t n = magnitude t (n + 1) - x → k % 2 = 0)) ∧
      (rm ≠ 0 → (k = n + 1 ↔ away rm neg)))

/-- R119: the magnitude x is tiny after rounding: rounded to the fraction's width with no bottom to the exponent range, it lies below the
smallest normal magnitude b. Below b the magnitudes of that width are 2^(−f−1) × b apart. -/
def Sys2Proof.Spec.Tiny (t : Fmt) (rm : BitVec 2) (neg : Bool) (x : ℝ) : Prop :=
  let b : ℝ := 2 ^ (1 - (t.bias : ℤ))
  let u : ℝ := b / 2 ^ (t.f + 1)
  (rm = 0 → x < b - u / 2) ∧ (rm ≠ 0 → away rm neg → x ≤ b - u) ∧ (rm ≠ 0 → ¬ away rm neg → x < b)

/-- R12, R117, R119, R120: `r` is RND of the exact value of magnitude x > 0 and sign `neg`, with the flags that it raises: the rounded pattern;
past the largest finite magnitude the infinity or that magnitude, OF and NX; NX where it is inexact, and UF where it is also
tiny; with FTZ a tiny one is a zero, UF and NX. -/
def Sys2Proof.Spec.RndOf (t : Fmt) (c : RCtl) (neg : Bool) (x : ℝ) (r : Nat × Flags) : Prop :=
  ∃ k, RoundedTo t c.rm neg x k ∧
    (c.ftz = true → Tiny t c.rm neg x → r = (t.signed neg 0, fUF ||| fNX)) ∧
    (¬ (c.ftz = true ∧ Tiny t c.rm neg x) →
      (k ≤ t.maxMag →
        r.1 = t.signed neg k ∧ (x = magnitude t k → r.2 = 0) ∧ (x ≠ magnitude t k → Tiny t c.rm neg x → r.2 = (fNX ||| fUF)) ∧
        (x ≠ magnitude t k → ¬ Tiny t c.rm neg x → r.2 = fNX)) ∧
      (t.maxMag < k → r.2 = (fOF ||| fNX) ∧
        (t.top = true → c.rm = 0 ∨ away c.rm neg → r.1 = t.signed neg ((2 ^ t.e - 1) * 2 ^ t.f)) ∧
        (t.top = false ∨ ¬ (c.rm = 0 ∨ away c.rm neg) → r.1 = t.signed neg t.maxMag)))

/-- RND of an exact value v: of its magnitude and sign, or the zero of sign `zero`. -/
def Sys2Proof.Spec.RndValue (t : Fmt) (c : RCtl) (zero : Bool) (v : ℝ) (r : Nat × Flags) : Prop :=
  (v = 0 → r = (t.signed zero 0, 0)) ∧ (0 < v → RndOf t c false v r) ∧ (v < 0 → RndOf t c true (-v) r)

/-- The number that a finite value denotes. -/
noncomputable def Sys2Proof.Spec.realOf (neg : Bool) (m : Nat) (e : Int) : ℝ := (if neg then -1 else 1) * (m : ℝ) * 2 ^ e

/-- R116, R119, R120, R126, R127: sum, product, fused product and sum, quotient, root and reciprocal root of finite values, as RND of the exact
result, whatever the format and controls. An exact zero sum has sign + but toward −∞, and the sign of both terms where they are zeroes of one sign. -/
def Sys2Proof.Spec.FloatArithmeticRules : Prop :=
  ∀ (t : Fmt) (c : RCtl) (a b d : Bool) (m n p : Nat) (e k q : Int), t ∈ [fp64, fp32, fp16, bf16, e5m2, e4m3] →
    let x := realOf a m e
    let y := realOf b n k
    let z := realOf d p q
    let zeroSum : Bool → Bool → Bool → Bool := fun both a b => if both && a == b then a else c.rm == 2
    RndValue t c (zeroSum (m == 0 && n == 0) a b) (x + y) (addV t c (.fin a m e) (.fin b n k)) ∧
    RndValue t c (a != b) (x * y) (mulV t c (.fin a m e) (.fin b n k)) ∧
    RndValue t c (zeroSum ((m == 0 || n == 0) && p == 0) (a != b) d) (x * y + z) (fmaV t c (.fin a m e) (.fin b n k) (.fin d p q)) ∧
    (n ≠ 0 → RndValue t c (a != b) (x / y) (divV t c (.fin a m e) (.fin b n k))) ∧
    (n = 0 → divV t c (.fin a m e) (.fin b n k) = if m = 0 then (t.nan, fNV) else
      if t.top then (t.signed (a != b) ((2 ^ t.e - 1) * 2 ^ t.f), fDZ) else (t.nan, fNV ||| fDZ)) ∧
    (a = false ∨ m = 0 → RndValue t c a (Real.sqrt x) (sqrtV t c (.fin a m e))) ∧
    (a = true → m ≠ 0 → sqrtV t c (.fin a m e) = (t.nan, fNV) ∧ rsqrtV t c (.fin a m e) = (t.nan, fNV)) ∧
    (a = false → m ≠ 0 → RndValue t c false (1 / Real.sqrt x) (rsqrtV t c (.fin a m e)))

/-- R117, R121, R126, R127: what is not finite: a NaN source gives the canonical NaN, NV where one is signalling; ∞ − ∞, 0 × ∞ and ∞ / ∞ are invalid, 0 × ∞ in a fused form whatever it adds; an infinite result is the infinity, or for E4M3
the canonical NaN with NV; the reciprocal root and the logarithm of a zero raise DZ. -/
def Sys2Proof.Spec.FloatSpecialRules : Prop :=
  ∀ (t : Fmt) (c : RCtl) (x y : FV), t ∈ [fp64, fp32, fp16, bf16, e5m2, e4m3] →
    let inf : Bool → Nat × Flags := fun n => if t.top then (t.signed n ((2 ^ t.e - 1) * 2 ^ t.f), 0) else (t.nan, fNV)
    let bad : Nat × Flags := (t.nan, fNV)
    (x.isNan = true ∨ y.isNan = true →
      addV t c x y = (t.nan, x.sigFlag ||| y.sigFlag) ∧ mulV t c x y = (t.nan, x.sigFlag ||| y.sigFlag)) ∧
    (∀ a b, x = .inf a → y = .inf b → addV t c x y = (if a = b then inf a else bad) ∧ mulV t c x y = inf (a != b)) ∧
    (∀ a b m e, x = .inf a → y = .fin b m e →
      addV t c x y = inf a ∧ addV t c y x = inf a ∧ mulV t c x y = (if m = 0 then bad else inf (a != b)) ∧ mulV t c y x = mulV t c x y ∧
      divV t c x y = inf (a != b) ∧ divV t c y x = (t.signed (a != b) 0, 0)) ∧
    (x.isNan = true ∨ y.isNan = true → divV t c x y = (t.nan, x.sigFlag ||| y.sigFlag)) ∧
    (∀ a b, x = .inf a → y = .inf b → divV t c x y = bad) ∧
    (∀ z : FV,
      let flags := x.sigFlag ||| y.sigFlag ||| z.sigFlag
      let void := (∃ a b e, (x = .inf a ∧ y = .fin b 0 e) ∨ (x = .fin b 0 e ∧ y = .inf a))
      (x.isNan = true ∨ y.isNan = true → fmaV t c x y z = (t.nan, flags)) ∧
      (void → fmaV t c x y z = bad) ∧
      (x.isNan = false → y.isNan = false → ¬ void →
        (z.isNan = true → fmaV t c x y z = (t.nan, flags)) ∧
        (∀ p, z.isNan = false → mulExact x y = some (.inf p) → (z = .inf (!p) → fmaV t c x y z = bad) ∧ (z ≠ .inf (!p) → fmaV t c x y z = inf p)) ∧
        (∀ a b d m n e k, x = .fin a m e → y = .fin b n k → z = .inf d → fmaV t c x y z = inf d) ∧
        (∀ a b, (x = .inf a ∧ y = .inf b) ∨ (x = .inf a ∧ ∃ m e, y = .fin b m e) ∨ (y = .inf a ∧ ∃ m e, x = .fin b m e) → mulExact x y = some (.inf (a != b))))) ∧
    (x.isNan = true → ∀ f ∈ [sqrtV t c, rsqrtV t c, exp2V t c, log2V t c], f x = (t.nan, x.sigFlag)) ∧
    sqrtV t c (.inf false) = inf false ∧ sqrtV t c (.inf true) = bad ∧ rsqrtV t c (.inf false) = (t.signed false 0, 0) ∧ rsqrtV t c (.inf true) = bad ∧
    exp2V t c (.inf false) = inf false ∧ exp2V t c (.inf true) = (t.signed false 0, 0) ∧ log2V t c (.inf false) = inf false ∧ log2V t c (.inf true) = bad ∧
    ∀ a m e, rsqrtV t c (.fin a 0 e) = ((inf a).1, (inf a).2 ||| fDZ) ∧ log2V t c (.fin a 0 e) = ((inf true).1, (inf true).2 ||| fDZ) ∧ (m ≠ 0 → log2V t c (.fin true m e) = bad)

/-- IEEE 754-2019's order of two values that are no NaNs, −0 below +0 (R126). -/
def Sys2Proof.Spec.Precedes : FV → FV → Prop
  | .inf a, .inf b => a = true ∧ b = false
  | .inf a, .fin _ _ _ => a = true
  | .fin _ _ _, .inf b => b = false
  | .fin a m e, .fin b n k => realOf a m e < realOf b n k ∨ (m = 0 ∧ n = 0 ∧ a = true ∧ b = false)
  | _, _ => False

/-- R126, R128: FMIN and FMAX give the lower or the higher source, RND of it, and NaN for a NaN; FCLASS gives the code of the pattern's fields. -/
def Sys2Proof.Spec.FloatSelectRules : Prop :=
  ∀ (t : Fmt) (c : RCtl), t ∈ [fp64, fp32, fp16, bf16, e5m2, e4m3] →
    (∀ x y : FV,
      (x.isNan = true ∨ y.isNan = true → ∀ hi, minMaxV t c hi x y = (t.nan, x.sigFlag ||| y.sigFlag)) ∧
      (Precedes x y → minMaxV t c false x y = rndV t c x ∧ minMaxV t c true x y = rndV t c y ∧ minMaxV t c false y x = rndV t c x ∧ minMaxV t c true y x = rndV t c y) ∧
      (x.isNan = false → y.isNan = false → ¬ Precedes x y → ¬ Precedes y x → ∀ hi, minMaxV t c hi x y = rndV t c x ∨ minMaxV t c hi x y = rndV t c y)) ∧
    ∀ p, p < 2 ^ t.w →
      let neg := p / 2 ^ (t.w - 1) = 1
      let x := p / 2 ^ t.f % 2 ^ t.e
      let f := p % 2 ^ t.f
      let pick : Nat → Nat → Prop := fun n q => classCode t p = if neg then n else q
      (x = 0 → f = 0 → pick 3 4) ∧ (x = 0 → f ≠ 0 → pick 2 5) ∧ (0 < x → x < 2 ^ t.e - 1 → pick 1 6) ∧
      (x = 2 ^ t.e - 1 → t ≠ e4m3 → (f = 0 → pick 0 7) ∧ (f ≠ 0 → classCode t p = if 2 ^ (t.f - 1) ≤ f then 9 else 8)) ∧
      (x = 2 ^ t.e - 1 → t = e4m3 → (f = 7 → classCode t p = 9) ∧ (f ≠ 7 → pick 1 6))

/-- R119: the integer n is x rounded to an integer under the mode. -/
def Sys2Proof.Spec.IntegerOf (rm : BitVec 2) (x : ℝ) (n : Int) : Prop :=
  (rm = 0 → |x - n| ≤ 1 / 2 ∧ (|x - n| = 1 / 2 → n % 2 = 0)) ∧
  ((rm = 2 ∨ (rm = 1 ∧ 0 ≤ x)) → (n : ℝ) ≤ x ∧ x < n + 1) ∧
  ((rm = 3 ∨ (rm = 1 ∧ x < 0)) → (n : ℝ) - 1 < x ∧ x ≤ n)

/-- R117, R127, R130, R132: a conversion between float formats, and of an integer into one, is RND of the value. One to an integer of width w rounds under the mode, NX telling a difference; a value past the range or an infinity clamps with NV, and a NaN is 0 with NV.
2^x and log2 x of exact powers are RND of the exact result; of the other values the results lie strictly between those of the powers on both sides, RND of one real number there.
The model's own readings that it rests on: log 11, 107. -/
def Sys2Proof.Spec.FloatConversionRules : Prop :=
  ∀ (t : Fmt) (c : RCtl) (a : Bool) (m : Nat) (e : Int), t ∈ [fp64, fp32, fp16, bf16, e5m2, e4m3] →
    let x := realOf a m e
    RndValue t c a x (rndV t c (.fin a m e)) ∧
    (∀ n, rndV t c (.inf n) = if t.top then (t.signed n ((2 ^ t.e - 1) * 2 ^ t.f), 0) else (t.nan, fNV)) ∧
    (∀ v : Int, RndValue t c false (v : ℝ) (ofInt t c v)) ∧
    (∀ w, 0 < w →
      let lo : Int := -2 ^ (w - 1)
      let hi : Int := 2 ^ (w - 1) - 1
      (∀ b, cvtInt c w (.nan b) = (0, fNV, true)) ∧ cvtInt c w (.inf false) = (hi, fNV, true) ∧ cvtInt c w (.inf true) = (lo, fNV, true) ∧
      ∃ n : Int, IntegerOf c.rm x n ∧ (n < lo → cvtInt c w (.fin a m e) = (lo, fNV, true)) ∧ (hi < n → cvtInt c w (.fin a m e) = (hi, fNV, true)) ∧
        (lo ≤ n → n ≤ hi → ((n : ℝ) = x → cvtInt c w (.fin a m e) = (n, 0, false)) ∧ ((n : ℝ) ≠ x → cvtInt c w (.fin a m e) = (n, fNX, false)))) ∧
    (∀ n : Int, x = n → RndOf t c false ((2 : ℝ) ^ n) (exp2V t c (.fin a m e))) ∧
    (∀ n : Int, x = (2 : ℝ) ^ n → RndValue t c false (n : ℝ) (log2V t c (.fin a m e))) ∧
    (∀ p, p < 2 ^ t.w → t.raw p = .fin a m e → ∀ n : Int,
      ((n : ℝ) < x → x < n + 1 → ∃ v : ℝ, (2 : ℝ) ^ n < v ∧ v < (2 : ℝ) ^ (n + 1) ∧ RndOf t c false v (exp2V t c (.fin a m e))) ∧
      ((2 : ℝ) ^ n < x → x < (2 : ℝ) ^ (n + 1) → ∃ v : ℝ, (n : ℝ) < v ∧ v < n + 1 ∧ RndValue t c false v (log2V t c (.fin a m e))))

/-! ## Across lanes (R133–R142) -/

/-- The active elements in index order (R12). -/
def Sys2Proof.Spec.activeBelow (s : State) : List Nat := (List.range s.hart.len).filter s.hart.permits

/-- R136: the integer reductions as folds over the active elements in index order, from s[b]. -/
def Sys2Proof.Spec.reduceRow : Instr → Option (ArgsR × (State → Word))
  | .rsum x => some (x, fun s => (activeBelow s).foldl (fun acc j => acc + (sliceAt s (widthOf x.w) x.a j).signExtend 64) (s.hart.rs x.b))
  | .rmin x => some (x, fun s => ((activeBelow s).foldl (fun acc j => let e := sliceAt s (widthOf x.w) x.a j; if e.slt acc then e else acc)
      (BitVec.ofNat (widthOf x.w) (s.hart.rs x.b).toNat)).signExtend 64)
  | .rminu x => some (x, fun s => ((activeBelow s).foldl (fun acc j => let e := sliceAt s (widthOf x.w) x.a j; if e.ult acc then e else acc)
      (BitVec.ofNat (widthOf x.w) (s.hart.rs x.b).toNat)).zeroExtend 64)
  | .rmax x => some (x, fun s => ((activeBelow s).foldl (fun acc j => let e := sliceAt s (widthOf x.w) x.a j; if acc.slt e then e else acc)
      (BitVec.ofNat (widthOf x.w) (s.hart.rs x.b).toNat)).signExtend 64)
  | .rmaxu x => some (x, fun s => ((activeBelow s).foldl (fun acc j => let e := sliceAt s (widthOf x.w) x.a j; if acc.ult e then e else acc)
      (BitVec.ofNat (widthOf x.w) (s.hart.rs x.b).toNat)).zeroExtend 64)
  | .rand x => some (x, fun s => ((activeBelow s).foldl (fun acc j => acc &&& sliceAt s (widthOf x.w) x.a j)
      (BitVec.ofNat (widthOf x.w) (s.hart.rs x.b).toNat)).zeroExtend 64)
  | .ror x => some (x, fun s => ((activeBelow s).foldl (fun acc j => acc ||| sliceAt s (widthOf x.w) x.a j)
      (BitVec.ofNat (widthOf x.w) (s.hart.rs x.b).toNat)).zeroExtend 64)
  | .rxor x => some (x, fun s => ((activeBelow s).foldl (fun acc j => acc ^^^ sliceAt s (widthOf x.w) x.a j)
      (BitVec.ofNat (widthOf x.w) (s.hart.rs x.b).toNat)).zeroExtend 64)
  | _ => none

/-- R135, R136: an integer reduction writes to s[d] the fold of its operation over s[b] and the active elements, whatever the tree of R135; where
EIDX is not below VL, as with VL = 0, it retires and writes nothing (R83, R359). -/
def Obligations.ReductionResult : Prop :=
  ∀ (i : Instr) (x : ArgsR) (val : State → Word) (s : State), reduceRow i = some (x, val) → i.wellFormed = true → Ready s = true →
    overruns (widthOf x.w) x.a.toNat = false →
    (s.hart.len ≤ s.hart.eidx.toNat → exec i s = .next (s.setHart s.hart.retire)) ∧
    (s.hart.eidx.toNat < s.hart.len → ∃ t, exec i s = .next t ∧ ScalarOutcome s t x.d (val s) 0)

/-- A cross-element instruction with a slice destination: it retires; element j holds `new j` where that is given; the destination's slices are
tagged when an element was written; s[e] and VCOUNT change where given; nothing else does. -/
def Sys2Proof.Spec.CrossOutcome (s t : State) (w d : Nat) (new : Nat → Option Nat) (e : Option (BitVec 6 × Word)) (count : Option Nat) : Prop :=
  let h := s.hart
  let x := if anyIn (fun j => (new j).isSome) 0 h.len = true then h.touch (slicesOf w d) h.len else h
  OnlyHart s t ∧
  t.hart = { h with s := t.hart.s, z := t.hart.z, dirty := x.dirty, vlg := x.vlg
                    vcount := (match count with | some n => BitVec.ofNat 11 n | none => h.vcount)
                    pc := h.pc + 4, eidx := 0, instret := h.instret + 1 } ∧
  (∀ r, t.hart.rs r = match e with | some (d, v) => if r = d ∧ d ≠ 0 then v else h.rs r | none => h.rs r) ∧
  (∀ j, t.hart.row j = match new j with | some v => putElem (h.row j) w d v | none => h.row j)

/-- A row of R137–R142: the destination and its width, whether the operands lie in the file and apart (R25, R92), the new elements, the scalar
result and the count. -/
structure Sys2Proof.Spec.CrossRow where
  w : Nat
  d : BitVec 6
  fits : Bool
  new : State → Nat → Option Nat
  e : State → Option (BitVec 6 × Word) := fun _ => none
  count : State → Option Nat := fun _ => none

/-- The operands a (width wa) and d (width wd) lie in the file and share no slice. -/
def Sys2Proof.Spec.apart (wa : Nat) (a : BitVec 6) (wd : Nat) (d : BitVec 6) : Bool :=
  !overruns wa a.toNat && !overruns wd d.toNat && (slicesOf wa a.toNat &&& slicesOf wd d.toNat) == 0

/-- SCAN, COMPRESS, EXPAND, NZSCAN, IOTA, SLIDEUP, SLIDEDN and PERM. -/
def Sys2Proof.Spec.crossRow : Instr → Option CrossRow
  | .scan x => some
      { w := widthOf x.w, d := x.d, fits := apart (widthOf x.w) x.a (widthOf x.w) x.d
        new := fun s j => if s.hart.active j then
            some (((activeBelow s).filter (· ≤ j)).foldl (fun acc k => acc + sliceAt s (widthOf x.w) x.a k)
              (BitVec.ofNat (widthOf x.w) (s.hart.rs x.b).toNat)).toNat
          else none }
  | .compress x => some
      { w := widthOf x.w, d := x.d, fits := apart (widthOf x.w) x.a (widthOf x.w) x.d
        new := fun s c => ((activeBelow s)[c]?).map (fun j => (sliceAt s (widthOf x.w) x.a j).toNat)
        count := fun s => some (activeBelow s).length }
  | .expand x => some
      { w := widthOf x.w, d := x.d, fits := apart (widthOf x.w) x.a (widthOf x.w) x.d
        new := fun s j => if s.hart.active j then
            some (sliceAt s (widthOf x.w) x.a ((activeBelow s).filter (· < j)).length).toNat else none
        count := fun s => some (activeBelow s).length }
  | .nzscan x => some
      { w := 16, d := x.d, fits := apart (widthOf x.w) x.a 16 x.d
        new := fun s c => ((activeBelow s).filter (fun j => sliceAt s (widthOf x.w) x.a j != 0))[c]?
        e := fun s => some (x.b, BitVec.ofNat 64 ((activeBelow s).filter (fun j => sliceAt s (widthOf x.w) x.a j != 0)).length)
        count := fun s => some ((activeBelow s).filter (fun j => sliceAt s (widthOf x.w) x.a j != 0)).length }
  | .iota x => some
      { w := widthOf x.w, d := x.d, fits := !overruns (widthOf x.w) x.d.toNat
        new := fun s j => if s.hart.active j then
            some ((if x.f = 1 then s.hart.rs x.b else x.b.signExtend 64) + BitVec.ofNat 64 j).toNat else none }
  | .slideup x => some
      { w := widthOf x.w, d := x.d, fits := apart (widthOf x.w) x.a (widthOf x.w) x.d
        new := fun s j =>
          let k := if x.f = 1 then (s.hart.rs x.b).toNat else x.b.toNat
          if s.hart.active j = true ∧ k ≤ j then some (sliceAt s (widthOf x.w) x.a (j - k)).toNat else none }
  | .slidedn x => some
      { w := widthOf x.w, d := x.d, fits := apart (widthOf x.w) x.a (widthOf x.w) x.d
        new := fun s j =>
          let k := if x.f = 1 then (s.hart.rs x.b).toNat else x.b.toNat
          if s.hart.active j then some (if j + k < s.hart.len then (sliceAt s (widthOf x.w) x.a (j + k)).toNat else 0) else none }
  | .perm x => some
      { w := widthOf x.w, d := x.d
        fits := apart (widthOf x.w) x.a (widthOf x.w) x.d && apart (widthOf x.w) x.b (widthOf x.w) x.d
        new := fun s j =>
          let n := (sliceAt s (widthOf x.w) x.b j).toNat
          if s.hart.active j then some (if n < s.hart.len then (sliceAt s (widthOf x.w) x.a n).toNat else 0) else none }
  | _ => none

/-- R133, R137 to R142: the cross-element instructions start at element 0 whatever EIDX below VL, read every element before they write, and write what
`crossRow` lists; where EIDX is not below VL, as with VL = 0, they retire and write nothing (R83, R359).
The model's own readings that it rests on: log 10. -/
def Sys2Proof.Spec.CrossElementResult : Prop :=
  ∀ (i : Instr) (r : CrossRow) (s : State), crossRow i = some r → i.wellFormed = true → r.fits = true → Ready s = true →
    (s.hart.len ≤ s.hart.eidx.toNat → exec i s = .next (s.setHart s.hart.retire)) ∧
    (s.hart.eidx.toNat < s.hart.len → ∃ t, exec i s = .next t ∧ CrossOutcome s t r.w r.d.toNat (r.new s) (r.e s) (r.count s))

/-- x ⊙ y of two elements with the flags raised on the way to each, where an absent one leaves the other (R135). -/
def Sys2Proof.Spec.join (op : Nat → Nat → Nat × Flags) : Option (Nat × Flags) → Option (Nat × Flags) → Option (Nat × Flags)
  | none, y => y
  | x, none => x
  | some (a, f), some (b, g) => some ((op a b).1, f ||| g ||| (op a b).2)

/-- R135: e[j] once the levels 5 down to 6 − n have been done: e[j] ⊙ e[j + 2^L] of the level before. -/
def Sys2Proof.Spec.treeAt (op : Nat → Nat → Nat × Flags) (e : Nat → Option (Nat × Flags)) : Nat → Nat → Option (Nat × Flags)
  | 0, j => e j
  | n + 1, j => join op (treeAt op e n j) (treeAt op e n (j + 2 ^ (5 - n)))

/-- R137: p[j] once the levels 0 to L − 1 have been done: p[j − 2^L] ⊙ p[j] of the level before where there is a p[j − 2^L]. -/
def Sys2Proof.Spec.scanAt (op : Nat → Nat → Nat × Flags) (p : Nat → Option (Nat × Flags)) : Nat → Nat → Option (Nat × Flags)
  | 0, j => p j
  | L + 1, j => if 2 ^ L ≤ j then join op (scanAt op p L (j - 2 ^ L)) (scanAt op p L j) else scanAt op p L j

/-- Element 64g + j of slice operand a where it is active, else absent (R135, R137). -/
def Sys2Proof.Spec.groupElem (s : State) (w : Nat) (a : BitVec 6) (g j : Nat) : Option (Nat × Flags) :=
  if s.hart.active (64 * g + j) then some ((sliceAt s w a (64 * g + j)).toNat, 0) else none

/-- R135, R136: the accumulator after the first n groups, each of which its tree reduces to e[0]. -/
def Sys2Proof.Spec.accAfter (op : Nat → Nat → Nat × Flags) (e : Nat → Nat → Option (Nat × Flags)) (init : Nat) (n : Nat) : Option (Nat × Flags) :=
  (List.range n).foldl (fun acc g => join op acc (treeAt op (e g) 6 0)) (some (init, 0))

/-- R137: the carry after the first n groups. -/
def Sys2Proof.Spec.carryAfter (op : Nat → Nat → Nat × Flags) (e : Nat → Nat → Option (Nat × Flags)) (init : Nat) (n : Nat) : Option (Nat × Flags) :=
  (List.range n).foldl (fun acc g => join op acc (scanAt op (e g) 6 63)) (some (init, 0))

/-- R135, R136, R137, R83: FRSUM, FRMIN and FRMAX combine the active elements in the order of the tree of R135, group by group, starting from s[b];
FSCAN writes to each active element the carry combined with its prefix of R137; the flags of every ⊙ go to FFLAGS. Where EIDX is not below VL, as with VL = 0, they retire and write nothing (R359). -/
def Sys2Proof.Spec.FloatCrossResult : Prop :=
  (∀ (x : ArgsR) (s : State) (i : Instr) (op : Fmt → RCtl → FV → FV → Nat × Flags),
    (i = .frsum x ∧ op = addV) ∨ (i = .frmin x ∧ op = fun t c a b => minMaxV t c false a b) ∨
    (i = .frmax x ∧ op = fun t c a b => minMaxV t c true a b) →
    i.wellFormed = true → Ready s = true →
    let w := widthOf x.w
    let c := rctl s.hart.fctl
    let f := fmtOf s.hart.fctl w
    overruns w x.a.toNat = false →
    (s.hart.len ≤ s.hart.eidx.toNat → exec i s = .next (s.setHart s.hart.retire)) ∧
    (s.hart.eidx.toNat < s.hart.len → ∃ t v, exec i s = .next t ∧
      accAfter (fun a b => op f c (f.val c a) (f.val c b)) (groupElem s w x.a) ((s.hart.rs x.b).toNat % 2 ^ w) (ceilDiv s.hart.len 64) = some v ∧
      ScalarOutcome s t x.d (BitVec.ofNat 64 v.1) v.2)) ∧
  (∀ (x : ArgsR) (s : State), (Instr.fscan x).wellFormed = true → Ready s = true →
    let w := widthOf x.w
    let c := rctl s.hart.fctl
    let f := fmtOf s.hart.fctl w
    let op : Nat → Nat → Nat × Flags := fun a b => addV f c (f.val c a) (f.val c b)
    let e := groupElem s w x.a
    let n := ceilDiv s.hart.len 64
    let carry := carryAfter op e ((s.hart.rs x.b).toNat % 2 ^ w)
    let out : Nat → Option (Nat × Flags) := fun j => join op (carry (j / 64)) (scanAt op (e (j / 64)) 6 (j % 64))
    apart w x.a w x.d = true →
    (s.hart.len ≤ s.hart.eidx.toNat → exec (.fscan x) s = .next (s.setHart s.hart.retire)) ∧
    (s.hart.eidx.toNat < s.hart.len → ∃ t, exec (.fscan x) s = .next t ∧
      CrossOutcome s (t.setHart { t.hart with fflags := s.hart.fflags }) w x.d.toNat
        (fun j => if s.hart.active j then (out j).map (·.1) else none) none none ∧
      (∀ k, t.hart.fflags.getLsbD k = true ↔ (s.hart.fflags.getLsbD k = true ∨
        (∃ g v, g ≤ n ∧ carry g = some v ∧ v.2.getLsbD k = true) ∨
        (∃ g j v, g < n ∧ j < 64 ∧ scanAt op (e g) 6 j = some v ∧ v.2.getLsbD k = true) ∨
        (∃ j v, s.hart.active j = true ∧ out j = some v ∧ v.2.getLsbD k = true)))))

/-- The slice operands of an element-wise instruction and of a reduction, each with its width (R24, R134): what R25 checks. -/
def Sys2Proof.Spec.sliceOperands (i : Instr) : List (Nat × BitVec 6) :=
  let second : BitVec 2 → Nat → BitVec 6 → List (Nat × BitVec 6) := fun f w b => if f = 0 then [(w, b)] else []
  match i with
  | .add x | .sub x | .adds x | .addsu x | .subs x | .subsu x | .mul x | .mulh x | .mulhu x | .mac x | .div x | .divu x
  | .rem x | .remu x | .min x | .minu x | .max x | .maxu x | .and x | .or x | .xor x | .andn x | .sll x | .srl x | .sra x | .rotr x
  | .sel x | .fadd x | .fsub x | .fmul x | .fdiv x | .fma x | .fms x | .fnma x | .fmin x | .fmax x =>
    if x.f = 3 then [] else [(widthOf x.w, x.d), (widthOf x.w, x.a)] ++ second x.f (widthOf x.w) x.b
  | .wadd x | .waddu x | .wmul x | .wmulu x | .wmac x | .wmacu x =>
    if x.f = 3 then [] else [(2 * widthOf x.w, x.d), (widthOf x.w, x.a)] ++ second x.f (widthOf x.w) x.b
  | .narrow x | .narrowu x => [(widthOf x.w, x.d), (2 * widthOf x.w, x.a)]
  | .cmpeq x | .cmpne x | .cmplt x | .cmpltu x | .cmple x | .cmpleu x | .fcmpeq x | .fcmplt x | .fcmple x =>
    if x.f = 3 then [] else [(widthOf x.w, x.a)] ++ second x.f (widthOf x.w) x.b
  | .abs x | .neg x | .popc x | .clz x | .fsqrt x | .frsq x | .fexp2 x | .flog2 x | .fabs x | .fneg x | .fclass x =>
    if x.f = 3 then [] else [(widthOf x.w, x.d), (widthOf x.w, x.a)]
  | .mov x => if x.f = 3 then [] else [(widthOf x.w, x.d)] ++ second x.f (widthOf x.w) x.b
  | .iota x => [(widthOf x.w, x.d)]
  | .sext x | .zext x | .fcvti x | .fcvtf x => if x.f = 3 then [] else [(widthOf x.w, x.d), (widthOf x.s, x.a)]
  | .fcvt x => if x.f = 3 then [] else [(widthOf x.w, x.d), (if x.s = 6 then 4 else widthOf x.s, x.a)]
  | .mfrom x => [(widthOf x.w, x.a)]
  | .mto x => [(widthOf x.w, x.d)]
  | .rsum x | .rmin x | .rminu x | .rmax x | .rmaxu x | .rand x | .ror x | .rxor x | .frsum x | .frmin x | .frmax x => [(widthOf x.w, x.a)]
  | .ld x | .st x => if x.m = 2 then [] else [(widthOf x.w, x.d)] ++ (if x.m = 1 then [(32, x.b)] else [])
  | .ldq x => [(4, x.d)]
  | .stq x => [(widthOf x.w, x.d)]
  | .tld x | .tst x => [(widthOf x.w, x.d), (32, x.b)]
  | _ => []

/-- The slice operands of the instructions that R92 names: the destination, and the sources, each with its width. -/
def Sys2Proof.Spec.crossOperands : Instr → Option ((Nat × BitVec 6) × List (Nat × BitVec 6))
  | .scan x | .fscan x => some ((widthOf x.w, x.d), [(widthOf x.w, x.a)])
  | .compress x | .expand x => some ((widthOf x.w, x.d), [(widthOf x.w, x.a)])
  | .nzscan x => some ((16, x.d), [(widthOf x.w, x.a)])
  | .slideup x | .slidedn x => some ((widthOf x.w, x.d), [(widthOf x.w, x.a)])
  | .perm x => some ((widthOf x.w, x.d), [(widthOf x.w, x.a), (widthOf x.w, x.b)])
  | _ => none

/-- R109, R110, R92, R25: with FCTL.IDZE set a division by zero traps with cause 0x09, TVAL the dividend: in the SS form with EIDX 0 and nothing
written; in a vector form at the lowest performed element with a zero divisor, the performed elements below it written, it and
those above it not. An element-wise instruction or reduction whose slice operand runs past slice 63 (R25), and an instruction that R92 names
whose operand does or whose destination shares a slice with a source, traps with cause 0x04, TVAL the instruction word, EIDX as it stood and nothing written; an XSPLIT whose destination does traps likewise, with EIDX 0 (R275). -/
def Sys2Proof.Spec.OperandTraps : Prop :=
  (∀ (i : Instr) (r : IntRow) (s : State), intRow i = some r → r.divides = true → i.wellFormed = true → Ready s = true →
    s.hart.fctl.getLsbD 5 = true → s.hart.tlvl.toNat < 2 →
    (r.x.f = 3 → secondScalar s r.x.w false (scalarWidth r.x.w) r.x.b = 0 →
      ∃ t, exec i s = .next t ∧ TrapOutcome s t 0x09 0 (BitVec.ofNat 64 ((s.hart.rs r.x.a).toNat % 2 ^ scalarWidth r.x.w)) 0) ∧
    (let w := widthOf r.x.w
     let a := sliceAt s w r.x.a
     let b := secondAt s r.x.f false w r.x.b
     ∀ n, r.x.f ≠ 3 → overruns w r.x.d.toNat = false → overruns w r.x.a.toNat = false → (r.x.f = 0 → overruns w r.x.b.toNat = false) →
      performed s.hart n = true → b n = 0 → (∀ j, j < n → performed s.hart j = true → b j ≠ 0) →
      ∃ (t : State) (g : Hart), exec i s = .next t ∧ TrapOutcome (s.setHart g) t 0x09 n ((a n).zeroExtend 64) 0 ∧
        g = { s.hart with z := g.z, dirty := g.dirty, vlg := g.vlg } ∧
        (∀ j, g.row j = if j < n ∧ performed s.hart j = true then putElem (s.hart.row j) w r.x.d.toNat (r.val w (a j) (b j) (sliceAt s w r.x.d j)).toNat
          else s.hart.row j) ∧
        (let x := if anyIn (performed s.hart) 0 n = true then s.hart.touch (slicesOf w r.x.d.toNat) s.hart.len else s.hart
         g.dirty = x.dirty ∧ g.vlg = x.vlg))) ∧
  (∀ (i : Instr) (s : State), i.wellFormed = true → s.hart.tlvl.toNat < 2 →
    (sliceOperands i).any (fun o => overruns o.1 o.2.toNat) = true →
    ∃ t, exec i s = .next t ∧ TrapOutcome s t 0x04 s.hart.eidx.toNat ((wordOf i).zeroExtend 64) 0) ∧
  (∀ (i : Instr) (d : Nat × BitVec 6) (srcs : List (Nat × BitVec 6)) (s : State), crossOperands i = some (d, srcs) → i.wellFormed = true →
    s.hart.tlvl.toNat < 2 →
    overruns d.1 d.2.toNat = true ∨ (∃ o ∈ srcs, overruns o.1 o.2.toNat = true ∨ (slicesOf o.1 o.2.toNat &&& slicesOf d.1 d.2.toNat) ≠ 0) →
    ∃ t, exec i s = .next t ∧ TrapOutcome s t 0x04 s.hart.eidx.toNat ((wordOf i).zeroExtend 64) 0) ∧
  (∀ (x : ArgsT) (s : State), (Instr.xsplit x).wellFormed = true → s.hart.tlvl.toNat < 2 → overruns 16 x.d.toNat = true →
    ∃ t, exec (.xsplit x) s = .next t ∧ TrapOutcome s t 0x04 0 ((wordOf (.xsplit x)).zeroExtend 64) 0)

/-! ## Control flow, immediates and control registers (R144–R162) -/

/-- The hart h after an instruction that continues at `pc`. -/
def Sys2Proof.Spec.goTo (h : Hart) (pc : Word) : Hart := { h with pc := pc, eidx := 0, instret := h.instret + 1 }

/-- The branches of Format B: the offset and the condition (R36, R157, R158, R159). -/
def Sys2Proof.Spec.branchRow : Instr → Option (BitVec 10 × (State → Bool))
  | .br x => some (x.o, fun s =>
      let a := s.hart.rs x.a
      let b := s.hart.rs x.b
      match x.c.toNat with
      | 0 => a == b | 1 => a != b | 2 => a.slt b | 3 => !a.slt b | 4 => a.ult b | _ => !a.ult b)
  | .brm x => some (x.o, fun s =>
      let set : Nat → Bool := fun j => (s.hart.rm x.a.toNat).getLsbD j
      match x.c.toNat with
      | 0 => (List.range s.hart.len).any set | 1 => !(List.range s.hart.len).any set | _ => (List.range s.hart.len).all set)
  | .brs x => some (x.o, fun s => brsBit x.a.toNat x.b.toNat s == decide (x.c = 0))
  | _ => none

/-- DETM as an instruction of the executing hart sees it: as it stood when the instruction was issued, or else when it began (R401). -/
def Sys2Proof.Spec.detmSeen (s : State) : Bool :=
  match s.hart.word, s.hart.queue with
  | some w, _ => w.2
  | none, q :: _ => q.detm
  | none, [] => s.myCtx.detm

/-- R400: the status bit that a BRS tests may still change, in deterministic mode. -/
def Sys2Proof.Spec.Unsettled (x : ArgsB) (s : State) : Prop :=
  detmSeen s = true ∧
  ((x.a = 1 ∧ ∃ c ch, SMap.find? s.hart.handles x.b.toNat = some c ∧ s.chan c = some ch ∧ ch.state ∈ [.queued, .running, .blocked]) ∨
   (x.a = 2 ∧ ∃ r, SMap.find? s.rounds x.b.toNat = some r ∧ r.ctx = s.ctxid ∧ r.state ∈ [.joining, .opened]))

/-- R157, R158, R159: BR, BRM and BRS continue at PC + 4 × offset when their condition holds, else at PC + 4, and change nothing else. A BRS whose
bit may still change in deterministic mode waits, with nothing changed (R400): that of a channel that is QUEUED, RUNNING or BLOCKED, or of its context's round
that is JOINING or OPEN.
The model's own readings that it rests on: log 28, 101. -/
def Sys2Proof.Spec.BranchResult : Prop :=
  ∀ (i : Instr) (o : BitVec 10) (taken : State → Bool) (s : State), branchRow i = some (o, taken) → i.wellFormed = true → Ready s = true →
    ((∀ x, i = .brs x → ¬ Unsettled x s) →
      exec i s = .next (s.setHart (goTo s.hart (s.hart.pc + (if taken s then o.signExtend 64 * 4 else 4))))) ∧
    (∀ x, i = .brs x → Unsettled x s → exec i s = .next s)

/-- R21, R160, R161: JAL and JALR write the address of the next instruction to s[d] and continue at the target; JALR's target is read before s[d] is
written, and one that is not a multiple of 4 traps with cause 0x05, TVAL the target, s[d] unchanged. LI writes its immediate sign-extended; LIS shifts
s[d] left by 19 and fills the low bits with the immediate. -/
def Sys2Proof.Spec.JumpAndImmediateResult : Prop :=
  (∀ (s : State), Ready s = true →
    (∀ x : ArgsI, ∃ t, exec (.jal x) s = .next t ∧ OnlyHart s t ∧
      (∀ r, t.hart.rs r = if r = x.d ∧ x.d ≠ 0 then s.hart.pc + 4 else s.hart.rs r) ∧
      t.hart = { goTo s.hart (s.hart.pc + x.i.signExtend 64 * 4) with s := t.hart.s }) ∧
    (∀ x : ArgsJ, (Instr.jalr x).wellFormed = true →
      let target := s.hart.rs x.a + (if x.w then x.b.signExtend 64 * 4 else s.hart.rs x.b)
      (target.toNat % 4 = 0 → ∃ t, exec (.jalr x) s = .next t ∧ OnlyHart s t ∧
        (∀ r, t.hart.rs r = if r = x.d ∧ x.d ≠ 0 then s.hart.pc + 4 else s.hart.rs r) ∧
        t.hart = { goTo s.hart target with s := t.hart.s }) ∧
      (target.toNat % 4 ≠ 0 → s.hart.tlvl.toNat < 2 → ∃ t, exec (.jalr x) s = .next t ∧ TrapOutcome s t 0x05 0 target 0))) ∧
  (∀ (x : ArgsI) (s : State), Ready s = true →
    (∃ t, exec (.li x) s = .next t ∧ ScalarOutcome s t x.d (x.i.signExtend 64) 0) ∧
    (∃ t, exec (.lis x) s = .next t ∧ ScalarOutcome s t x.d ((s.hart.rs x.d <<< 19) ||| x.i.zeroExtend 64) 0))

/-- What MFCR reads at each assigned index but CYCLE (R150, R153, R342). -/
def Sys2Proof.Spec.controlReads : List (Nat × (State → Word)) :=
  [(0x000, fun s => s.hart.vl.zeroExtend 64), (0x001, fun s => s.hart.vstride), (0x002, fun s => s.hart.vmsel.zeroExtend 64),
   (0x003, fun s => s.hart.mspace.zeroExtend 64), (0x004, fun _ => 0), (0x005, fun s => s.hart.fctl.zeroExtend 64),
   (0x006, fun s => s.hart.fflags.zeroExtend 64), (0x007, fun s => s.hart.vsatm.zeroExtend 64), (0x008, fun s => s.hart.view.zeroExtend 64),
   (0x009, fun s => s.hart.vcount.zeroExtend 64), (0x00A, fun s => s.hart.strmf.zeroExtend 64), (0x00B, fun s => s.hart.hwsrc),
   (0x00C, fun s => s.hart.macfg.toWord), (0x010, fun s => BitVec.ofNat 64 s.cur), (0x011, fun s => s.hart.taskid.zeroExtend 64),
   (0x012, fun s => s.hart.taskarg), (0x013, fun s => s.ctxid.zeroExtend 64), (0x015, fun s => s.hart.instret),
   (0x016, fun s => if s.hart.detf then 1 else 0), (0x020, fun s => s.hart.tlvl.zeroExtend 64), (0x021, fun s => (s.hart.tvec ++ 0#2 : BitVec 64)),
   (0x022, fun s => s.hart.bank1.cause.zeroExtend 64), (0x023, fun s => s.hart.bank1.epc), (0x024, fun s => s.hart.bank1.eidx.zeroExtend 64),
   (0x025, fun s => s.hart.bank1.val), (0x026, fun s => s.hart.bank1.stat), (0x027, fun s => s.hart.bank2.cause.zeroExtend 64),
   (0x028, fun s => s.hart.bank2.epc), (0x029, fun s => s.hart.bank2.eidx.zeroExtend 64), (0x02A, fun s => s.hart.bank2.val),
   (0x02B, fun s => s.hart.bank2.stat), (0x030, fun s => s.hart.tsave), (0x100, fun s => if s.myTile.split then 1 else 0),
   (0x101, fun s => s.myTile.lim.zeroExtend 64), (0x102, fun s => if s.myCtx.detm then 1 else 0),
   (0x103, fun s => ((s.myCtx.clamps : BitVec 32) ++ (s.myCtx.slice : BitVec 32) : BitVec 64)), (0x104, fun s => s.myCtx.ptWord)]

/-- R150, R155: MFCR writes the control register to s[d]; in deterministic mode HARTID and CYCLE read as 0 and set DETF.D. -/
def Sys2Proof.Spec.ControlRegisterRead : Prop :=
  ∀ (d : BitVec 6) (n : BitVec 12) (s : State), Ready s = true →
    (∀ f, (n.toNat, f) ∈ controlReads → (detmSeen s = true → n ≠ 0x010) →
      ∃ t, exec (.mfcr ⟨d, n⟩) s = .next t ∧ ScalarOutcome s t d (f s) 0) ∧
    (detmSeen s = true → n = 0x010 ∨ n = 0x014 →
      ∃ t, exec (.mfcr ⟨d, n⟩) s = .next t ∧ OnlyHart s t ∧ t.hart.detf = true ∧
        (∀ r, t.hart.rs r = if r = d then 0 else s.hart.rs r) ∧
        t.hart = { goTo s.hart (s.hart.pc + 4) with s := t.hart.s, detf := true })

/-- The hart after MTCR of each register of the hart (R94, R122, R138, R151, R153, R171, R189, R233, R244, R342). -/
def Sys2Proof.Spec.controlWrites : List (Nat × (State → Word → Hart)) :=
  [(0x000, fun s v => { s.hart with vl := BitVec.ofNat 11 (min v.toNat s.myTile.vlmax) }),
   (0x001, fun s v => { s.hart with vstride := v }), (0x002, fun s v => { s.hart with vmsel := v.truncate 5 }),
   (0x003, fun s v => { s.hart with mspace := if v.toNat % 4 = 3 then s.hart.mspace else v.truncate 2 }),
   (0x005, fun s v => { s.hart with fctl := v.truncate 7 }), (0x006, fun s v => { s.hart with fflags := v.truncate 7 }),
   (0x007, fun s v => { s.hart with vsatm := v.truncate 3 }), (0x008, fun s v => { s.hart with view := v.truncate 6 }),
   (0x009, fun s v => { s.hart with vcount := v.truncate 11 }), (0x00A, fun s v => { s.hart with strmf := v.truncate 16 }),
   (0x00B, fun s v => { s.hart with hwsrc := v }), (0x00C, fun s v => { s.hart with macfg := { s.hart.macfg with isat := v.getLsbD 20 } }),
   (0x016, fun s v => { s.hart with detf := v.getLsbD 0 }), (0x021, fun s v => { s.hart with tvec := v.extractLsb' 2 62 }),
   (0x030, fun s v => { s.hart with tsave := v })]

/-- R150, R152, R156: MTCR writes the hart's control register from s[d] and changes nothing else. -/
def Sys2Proof.Spec.ControlRegisterWrite : Prop :=
  ∀ (x : ArgsMtcr) (s : State) (f : State → Word → Hart), (x.c.toNat, f) ∈ controlWrites → Ready s = true →
    exec (.mtcr x) s = .next (s.setHart (goTo (f s (s.hart.rs x.d)) (s.hart.pc + 4)))

/-- A trap bank after MTCR of its register j, counted from TCAUSE (R342): TEPC keeps bits 1 and 0 at zero, TSTAT holds PLVL, WLVL and ABND. -/
def Sys2Proof.Spec.bankAfter (b : Bank) (j : Nat) (v : Word) : Bank :=
  match j with
  | 0 => { b with cause := v.extractLsb' 0 8 }
  | 1 => { b with epc := BitVec.ofNat 64 (v.toNat / 4 * 4) }
  | 2 => { b with eidx := v.extractLsb' 0 11 }
  | 3 => { b with val := v }
  | _ => { b with plvl := v.extractLsb' 0 2, wlvl := v.extractLsb' 2 2, abnd := v.getLsbD 4 }

/-- R152, R38, R342: an MTCR of a system register by a context without SYS, or of a trap bank from below its level, traps with cause 0x02 and writes
nothing; from its level on it writes the register of the bank and no other; with SYS, DETM and SLICE and PTBASE of the context are written, PTBASE once no earlier write of the hart awaits its reply (R300). -/
def Sys2Proof.Spec.PrivilegedRegisters : Prop :=
  ∀ (x : ArgsMtcr) (s : State), (Instr.mtcr x).wellFormed = true → Ready s = true →
    ((0x100 ≤ x.c.toNat ∧ s.myCtx.sys = false) ∨ (0x022 ≤ x.c.toNat ∧ x.c.toNat ≤ 0x026 ∧ s.hart.tlvl.toNat < 1) ∨
      (0x027 ≤ x.c.toNat ∧ x.c.toNat ≤ 0x02B ∧ s.hart.tlvl.toNat < 2) → s.hart.tlvl.toNat < 2 →
      ∃ t, exec (.mtcr x) s = .next t ∧ TrapOutcome s t 0x02 s.hart.eidx.toNat ((wordOf (.mtcr x)).zeroExtend 64) 0) ∧
    (0x022 ≤ x.c.toNat → x.c.toNat ≤ 0x026 → 1 ≤ s.hart.tlvl.toNat →
      exec (.mtcr x) s = .next (s.setHart { goTo s.hart (s.hart.pc + 4) with
        bank1 := bankAfter s.hart.bank1 (x.c.toNat - 0x022) (s.hart.rs x.d) })) ∧
    (0x027 ≤ x.c.toNat → x.c.toNat ≤ 0x02B → 2 ≤ s.hart.tlvl.toNat →
      exec (.mtcr x) s = .next (s.setHart { goTo s.hart (s.hart.pc + 4) with
        bank2 := bankAfter s.hart.bank2 (x.c.toNat - 0x027) (s.hart.rs x.d) })) ∧
    (s.myCtx.sys = true →
      (x.c = 0x102 → ∃ t, exec (.mtcr x) s = .next t ∧ t.hart = goTo s.hart (s.hart.pc + 4) ∧
        t.ctx s.ctxid = { s.myCtx with detm := (s.hart.rs x.d).getLsbD 0 } ∧ (∀ c, c ≠ s.ctxid → t.ctx c = s.ctx c)) ∧
      (x.c = 0x103 → ∃ t, exec (.mtcr x) s = .next t ∧ t.hart = goTo s.hart (s.hart.pc + 4) ∧
        t.ctx s.ctxid = { s.myCtx with slice := (s.hart.rs x.d).truncate 32 } ∧ (∀ c, c ≠ s.ctxid → t.ctx c = s.ctx c)) ∧
      (x.c = 0x104 → s.unackedWrites s.cur = true → exec (.mtcr x) s = .next s) ∧
      (x.c = 0x104 → s.unackedWrites s.cur = false → ∃ t, exec (.mtcr x) s = .next t ∧ t.hart = goTo s.hart (s.hart.pc + 4) ∧
        (t.ctx s.ctxid).ptValid = (s.hart.rs x.d).getLsbD 0 ∧ (t.ctx s.ctxid).ptRoot = (s.hart.rs x.d).extractLsb' 15 37 ∧
        (∀ e ∈ t.tlb, e.ctx ≠ s.ctxid)))

/-- The lane partition of tile n after a changing write (R84, R85, R86): SPLIT and LIM as `p` gives them; every hart of the tile has VL at most VLMAX, all slices DIRTY with VLG VLMAX / 64 and no mask bit at or above VLMAX; no other tile's slot changes. -/
def Sys2Proof.Spec.Repartitioned (s t : State) (n : Nat) (p : Bool × BitVec 2) : Prop :=
  (t.tile n).split = p.1 ∧ (t.tile n).lim = p.2 ∧ (∀ k, State.tileOf k ≠ n → t.slot k = s.slot k) ∧
  ∀ k, State.tileOf k = n → (t.slot k).hart.len = min (s.slot k).hart.len (t.tile n).vlmax ∧ (t.slot k).hart.dirty = BitVec.allOnes 64 ∧
    (∀ i, i < 64 → (t.slot k).hart.vlgOf i = (t.tile n).vlmax / 64) ∧
    ∀ m j, m < 8 → j < 1024 → ((t.slot k).hart.rm m).getLsbD j = (((s.slot k).hart.rm m).getLsbD j && decide (j < (t.tile n).vlmax))

/-- R86, step 1: every vector and matrix instruction of tile n's harts that has been dispatched has completed: none is in flight or in the dispatch queue, none in progress has passed its dispatch or stopped between two of its
groups, and none waits for a reply. -/
def Sys2Proof.Spec.TileQuiet (s : State) (n : Nat) : Prop :=
  ∀ j, State.tileOf j = n →
    let h := (s.slot j).hart
    h.inflight = [] ∧ (∀ q ∈ h.queue, ∀ i, q.vec = true → q.trap = none → decode q.word = .ok i → isVectorInstr i = false) ∧
    (∀ w i, h.word = some w → decode w.1 = .ok i → isVectorInstr i = true → h.eidx = 0 ∧ pastDispatch h w.2 i = false) ∧
    ∀ r ∈ s.net.reqs, ∀ i, r.who = .elem j i → i = State.fetchIndex

/-- R84, R85, R86: an MTCR of LPART or MAXVL that changes the partition takes effect when no vector instruction of the tile is in flight: VLMAX
follows LIM, every hart of the tile has VL at most VLMAX, its masks keep no bit at or above VLMAX, and all its slices are dirty. A write that
changes nothing only retires.
The model's own readings that it rests on: log 2. -/
def Sys2Proof.Spec.PartitionWrite : Prop :=
  ∀ (x : ArgsMtcr) (s : State), (Instr.mtcr x).wellFormed = true → Ready s = true → s.myCtx.sys = true →
    x.c = 0x100 ∨ x.c = 0x101 →
    let v := s.hart.rs x.d
    let p := if x.c = 0x100 then lpartWrite s.myTile v else maxvlWrite s.myTile v
    let n := State.tileOf s.cur
    (p = (s.myTile.split, s.myTile.lim) → exec (.mtcr x) s = .next (s.setHart (goTo s.hart (s.hart.pc + 4)))) ∧
    (p ≠ (s.myTile.split, s.myTile.lim) → TileQuiet s n →
      ∃ t, exec (.mtcr x) s = .next t ∧ Repartitioned s t n p ∧ t.hart.pc = s.hart.pc + 4 ∧ (∀ r, t.hart.rs r = s.hart.rs r)) ∧
    (p ≠ (s.myTile.split, s.myTile.lim) → ¬ TileQuiet s n → exec (.mtcr x) s = .next s)

/-- R72, R96: SETVL without a chain sets VL to min(s[a], VLMAX) and writes it to s[d]; on a chain it grants the request whole when the producer is unknown, at most what the producer has published beyond POS when it has ended, and while the
producer runs what it has published, or in deterministic mode the whole request once all of it is published; else it waits, with nothing granted. POS advances by the grant.
The model's own readings that it rests on: log 24. -/
def Sys2Proof.Spec.SetvlResult : Prop :=
  ∀ (x : ArgsD) (s : State), Ready s = true → (s.slot s.cur).state = .running →
    let n := min (s.hart.rs x.a).toNat s.myTile.vlmax
    let p : BitVec 32 := s.hart.hwsrc.truncate 32
    let pos := (s.hart.hwsrc.extractLsb' 32 32).toNat
    let alive := (∃ y ∈ s.held, y.ctx = s.ctxid ∧ y.rc.id = p) ∨ ∃ y ∈ s.running, y.ctx = s.ctxid ∧ y.rc.id = p
    let out : State → Nat → Word → Prop := fun t g hw =>
      OnlyHart s t ∧ (∀ r, t.hart.rs r = if r = x.d ∧ x.d ≠ 0 then BitVec.ofNat 64 g else s.hart.rs r) ∧
      t.hart = { goTo s.hart (s.hart.pc + 4) with s := t.hart.s, vl := BitVec.ofNat 11 g, hwsrc := hw }
    let grants : Nat → Prop := fun g => ∃ t, exec (.setvl x) s = .next t ∧ out t g (BitVec.ofNat 64 (p.toNat + 2 ^ 32 * (pos + g)))
    (p = 0xFFFFFFFF ∨ n = 0 → ∃ t, exec (.setvl x) s = .next t ∧ out t n s.hart.hwsrc) ∧
    (p ≠ 0xFFFFFFFF → n ≠ 0 →
      (s.markOf s.ctxid p = none → ¬ alive → grants n) ∧
      (∀ m, s.markOf s.ctxid p = some m → m.ended = true → grants (min n (m.mark.toNat - pos))) ∧
      (∀ avail, (s.markOf s.ctxid p = none ∧ alive ∧ avail = 0) ∨ (∃ m, s.markOf s.ctxid p = some m ∧ m.ended = false ∧ avail = m.mark.toNat - pos) →
        (detmSeen s = false → 0 < avail → grants (min n avail)) ∧
        (detmSeen s = true → n ≤ avail → grants n) ∧
        ((detmSeen s = false ∧ avail = 0) ∨ (detmSeen s = true ∧ avail < n) → exec (.setvl x) s = .next (s.setSlot s.cur { s.slot s.cur with state := .waiting }))))

/-- R149, R74, R73: WAITF retires when the bit it names is full and else stays where it is; CONVOY retires and marks the boundary only in
deterministic mode; YIELD retires and takes the hart out of the round-robin, to which YIELD_RETURN returns it.
The model's own readings that it rests on: log 24. -/
def Sys2Proof.Spec.WaitAndYield : Prop :=
  ∀ (s : State),
    (∀ x : ArgsW, (Instr.waitf x).wellFormed = true →
      let full := match x.b.toNat with
        | 0 => s.hart.sFull x.a | 1 => s.hart.zFE.getLsbD x.a.toNat | 2 => s.hart.mFE.getLsbD x.a.toNat | _ => s.hart.allFull
      exec (.waitf x) s = .next (if full then s.setHart (goTo s.hart (s.hart.pc + 4)) else s)) ∧
    (∃ t, exec .convoy s = .next t ∧ OnlyHart s t ∧
      t.hart = { goTo s.hart (s.hart.pc + 4) with convoy := s.hart.convoy || detmSeen s }) ∧
    (∀ x : ArgsS, Ready s = true → ∃ t, exec (.yield x) s = .next t ∧ { t with slots := s.slots } = s ∧
      t.slot s.cur = { s.slot s.cur with yielded := true, hart := goTo s.hart (s.hart.pc + 4) } ∧
      (∀ k, k ≠ s.cur → t.slot k = s.slot k)) ∧
    (∀ k, ∃ t, exec (.yieldReturn k) s = .next t ∧ { t with slots := s.slots } = s ∧
      (t.slot k) = { s.slot k with yielded := false } ∧ (∀ j, j ≠ k → t.slot j = s.slot j))

/-! ## Memory (R189–R208) -/

/-- The address of element j of LD and ST (R199): strided in mode 00, the base plus a signed offset in mode 01, base plus a scaled immediate in
mode 10 (R200). -/
def Sys2Proof.Spec.accessAddr (s : State) (x : ArgsL) (j : Nat) : Word :=
  let size : Word := BitVec.ofNat 64 (widthOf x.w / 8)
  if x.m = 0 then s.hart.rs x.a + BitVec.ofNat 64 j * (if s.hart.vstride = 0 then size else s.hart.vstride)
  else if x.m = 1 then s.hart.rs x.a + (sliceAt s 32 x.b j).signExtend 64
  else s.hart.rs x.a + x.b.signExtend 64 * size

/-- The accesses of a vector: every performed element passes its checks (R191), and its location `loc j` is local. -/
def Sys2Proof.Spec.Passes (s : State) (p : Nat → Bool) (acc : Acc) (size : Nat) (idem : Bool) (addr : Nat → Word) (loc : Nat → Loc) (dev : Nat → Bool) : Prop :=
  ∀ j, p j = true → s.checkSpace s.cur s.hart.mspace (addr j).toNat acc size size idem = .go (loc j) (dev j) ∧ isLocal (loc j) = true

/-- R197 to R201: LD whose checks pass writes what stands at the home of each access to the performed elements, or zero-extended to s[d] in mode 10.
The model's own readings that it rests on: log 3, 24. -/
def Obligations.LoadResult : Prop :=
  ∀ (x : ArgsL) (s : State) (loc : Nat → Loc) (dev : Nat → Bool), (Instr.ld x).wellFormed = true → Quiet s = true →
    let w := widthOf x.w
    (x.m = 2 → Passes s (fun j => j == 0) .read (w / 8) false (accessAddr s x) loc dev →
      ∃ t, exec (.ld x) s = .next t ∧ ScalarOutcome s t x.d (BitVec.ofNat 64 (s.homeRead (loc 0) (w / 8))) 0) ∧
    (x.m ≠ 2 → overruns w x.d.toNat = false → (x.m = 1 → overruns 32 x.b.toNat = false) →
      Passes s (performed s.hart) .read (w / 8) false (accessAddr s x) loc dev →
      ∃ t, exec (.ld x) s = .next t ∧
        VectorOutcome s t w x.d.toNat (fun j => s.homeRead (loc j) (w / 8)) (fun _ => false) (fun _ => 0))

/-- R197 to R203: ST whose checks pass stores the low bytes of s[d], or of each performed element, at its location; the highest of equal addresses
stands, no other byte of memory and no register changes.
The model's own readings that it rests on: log 3, 24. -/
def Obligations.StoreResult : Prop :=
  ∀ (x : ArgsL) (s : State) (loc : Nat → Loc) (dev : Nat → Bool), (Instr.st x).wellFormed = true → Quiet s = true →
    let w := widthOf x.w
    let p : Nat → Bool := fun j => if x.m = 2 then j == 0 else performed s.hart j
    (x.m ≠ 2 → overruns w x.d.toNat = false ∧ (x.m = 1 → overruns 32 x.b.toNat = false)) →
    Passes s p .write (w / 8) false (accessAddr s x) loc dev →
    ∃ t, exec (.st x) s = .next t ∧ OnlyHartAndMemory s t ∧ t.hart = goTo s.hart (s.hart.pc + 4) ∧
      Stored s t p (w / 8) loc (fun j => if x.m = 2 then (s.hart.rs x.d).toNat else (sliceAt s w x.d j).toNat)

/-- R191, R201: a scalar LD or ST that fails its checks traps with the cause of the failing check, TVAL the address, and changes no register and no
memory. -/
def Sys2Proof.Spec.AccessTrap : Prop :=
  ∀ (x : ArgsL) (s : State) (cause wl : Nat), (Instr.ld x).wellFormed = true → x.m = 2 → Quiet s = true → s.hart.tlvl.toNat < 2 →
    let size := widthOf x.w / 8
    let addr := accessAddr s x 0
    let trapped : State → Prop := fun t => TrapOutcome s t cause 0 addr wl
    (s.checkSpace s.cur s.hart.mspace addr.toNat .read size size false = .bad cause wl → ∃ t, exec (.ld x) s = .next t ∧ trapped t) ∧
    (s.checkSpace s.cur s.hart.mspace addr.toNat .write size size false = .bad cause wl → ∃ t, exec (.st x) s = .next t ∧ trapped t)

/-- R89, R91, R191, R201: a vector LD or ST with a failing check traps at its lowest failing performed element n, with the cause of that element's check, EIDX n and TVAL its address. The performed elements below n have been performed and n has not; of those above it
that pass their checks in memory that is no device, any may have been performed, for an ST after those below.
The model's own readings that it rests on: log 3, 8, 24. -/
def Sys2Proof.Spec.VectorAccessTrap : Prop :=
  ∀ (x : ArgsL) (s : State) (n cause wl : Nat) (loc : Nat → Loc) (dev : Nat → Bool), (Instr.ld x).wellFormed = true → x.m ≠ 2 → Quiet s = true → s.hart.tlvl.toNat < 2 →
    overruns (widthOf x.w) x.d.toNat = false → (x.m = 1 → overruns 32 x.b.toNat = false) → performed s.hart n = true →
    let w := widthOf x.w
    let addr := accessAddr s x
    let check : State → Acc → Nat → Chk := fun u acc j => u.checkSpace s.cur s.hart.mspace (addr j).toNat acc (w / 8) (w / 8) false
    let fails : Acc → Prop := fun acc => check s acc n = .bad cause wl ∧ Passes s (fun j => decide (j < n) && performed s.hart j) acc (w / 8) false addr loc dev
    (fails .read → ∃ t g, exec (.ld x) s = .next t ∧ TrapOutcome ({ s with fresh := s.fresh + 1 }.setHart g) t cause n (addr n) wl ∧
      g = { s.hart with z := g.z, dirty := g.dirty, vlg := g.vlg } ∧ TaggedIf s.hart g (slicesOf w x.d.toNat) (∃ j, j < n ∧ performed s.hart j = true) ∧
      (∀ j, j < n → g.row j = if performed s.hart j = true then putElem (s.hart.row j) w x.d.toNat (s.homeRead (loc j) (w / 8)) else s.hart.row j) ∧ g.row n = s.hart.row n ∧
      ∀ j, n < j → g.row j = s.hart.row j ∨ (performed s.hart j = true ∧ ∃ l, check s .read j = .go l false ∧ isLocal l = true ∧ g.row j = putElem (s.hart.row j) w x.d.toNat (s.homeRead l (w / 8)))) ∧
    (fails .write → ∃ (t u v : State) (q : Nat → Bool) (higher : Nat → Loc), exec (.st x) s = .next t ∧ TrapOutcome u t cause n (addr n) wl ∧
      { u with hbm := s.hbm, cis := s.cis, host := s.host } = { s with fresh := s.fresh + 1 } ∧ { v with hbm := s.hbm, cis := s.cis, host := s.host } = s ∧
      Stored s v (fun j => decide (j < n) && performed s.hart j) (w / 8) loc (fun j => (sliceAt s w x.d j).toNat) ∧
      Stored v u q (w / 8) higher (fun j => (sliceAt s w x.d j).toNat) ∧
      ∀ j, q j = true → n < j ∧ performed s.hart j = true ∧ check v .write j = .go (higher j) false ∧ isLocal (higher j) = true)

/-- The scalar registers that an instruction reads, in order, and its slice sources with their widths, each with its policy bit; an old destination is read with policy 0 (R23, R29). -/
def Sys2Proof.Spec.operandReads : Instr → Option (List (BitVec 6 × Bool) × List (Nat × BitVec 6 × Bool))
  | .ld x => some ([(x.a, x.p)], if x.m = 1 then [(32, x.b, x.q)] else [])
  | .st x => if x.m = 2 then some ([(x.a, x.p), (x.d, x.q)], []) else
      some ([(x.a, x.p)], (if x.m = 1 then [(32, x.b, x.q)] else []) ++ [(widthOf x.w, x.d, x.m == 0 && x.q)])
  | .abs x | .neg x | .popc x | .clz x | .fsqrt x | .frsq x | .fexp2 x | .flog2 x | .fabs x | .fneg x | .fclass x =>
    if x.f = 3 then some ([(x.a, x.p)], []) else some ([], [(widthOf x.w, x.a, x.p)])
  | .fadd x | .fsub x | .fmul x | .fdiv x | .fmin x | .fmax x => some (binary x false false)
  | .fma x | .fms x | .fnma x => some (binary x false true)
  | .mac x => some (binary x true true)
  | i => (intRow i).map (fun r => binary r.x true false)
where
  /-- A, then B, then the old destination. -/
  binary (x : ArgsA) (int old : Bool) : List (BitVec 6 × Bool) × List (Nat × BitVec 6 × Bool) :=
    if x.f = 3 then ([(x.a, x.p)] ++ (if int && x.w.getLsbD 0 then [] else [(x.b, x.q)]) ++ (if old then [(x.d, false)] else []), [])
    else (if x.f = 1 then [(x.b, x.q)] else [],
      [(widthOf x.w, x.a, x.p)] ++ (if x.f = 0 then [(widthOf x.w, x.b, x.q)] else []) ++ (if old then [(widthOf x.w, x.d, false)] else []))

/-- R89, R145, R147: an integer or float instruction on lanes or scalars, LD or ST whose lowest-ordered empty scalar operand has policy 1 traps with cause 0x03, EIDX 0 and TVAL the register; with policy 0 it waits. With no scalar empty, it waits while a slice that its sources cover is empty,
or, where one with policy 1 covers an empty slice, traps with cause 0x03, EIDX as it stood and TVAL 0x40 + the lowest empty slice. Neither changes anything else.
The model's own readings that it rests on: log 89. -/
def Sys2Proof.Spec.EmptyOperandTraps : Prop :=
  ∀ (i : Instr) (regs : List (BitVec 6 × Bool)) (srcs : List (Nat × BitVec 6 × Bool)) (s : State), operandReads i = some (regs, srcs) → i.wellFormed = true →
    s.hart.tlvl.toNat < 2 → s.hart.binds = [] → (sliceOperands i).any (fun o => overruns o.1 o.2.toNat) = false →
    let covers : Nat × BitVec 6 × Bool → Nat → Prop := fun o k => (slicesOf o.1 o.2.1.toNat).getLsbD k = true ∧ s.hart.zFE.getLsbD k = false
    (∀ pre r p post, regs = pre ++ (r, p) :: post → (∀ e ∈ pre, s.hart.sFull e.1 = true) → s.hart.sFull r = false →
      (p = true → ∃ t, exec i s = .next t ∧ TrapOutcome s t 0x03 0 (BitVec.ofNat 64 r.toNat) 0) ∧ (p = false → exec i s = .next s)) ∧
    (∀ k, (∀ e ∈ regs, s.hart.sFull e.1 = true) → (∃ o ∈ srcs, covers o k) → (∀ m, m < k → ∀ o ∈ srcs, ¬ covers o m) →
      ((∃ o ∈ srcs, o.2.2 = true ∧ ∃ m, covers o m) → ∃ t, exec i s = .next t ∧ TrapOutcome s t 0x03 s.hart.eidx.toNat (BitVec.ofNat 64 (0x40 + k)) 0) ∧
      ((∀ o ∈ srcs, o.2.2 = true → ∀ m, ¬ covers o m) → exec i s = .next s))

/-- R204 to R208: with the tile's table word VALID for the context and no failing offset, TLD reads each active element from the bank that CUR and s[a][12]
select in the element's lane, and TST writes the active elements to the bank that is not CUR, the highest of equal keys standing, and exchanges the banks
when s[a][13] is set. Where they begin at an EIDX that is neither 0 nor below VL both retire and do nothing (R359). -/
def Obligations.LaneTableResult : Prop :=
  ∀ (x : ArgsR) (s : State), (Instr.tld x).wellFormed = true → Quiet s = true →
    let w := widthOf x.w
    let n := State.tileOf s.cur
    let key : Bool → Nat → Nat := fun bank j => tableKey s bank j (tableOffset s x.a x.b j).toNat
    overruns w x.d.toNat = false → overruns 32 x.b.toNat = false →
    (0 < s.hart.eidx.toNat → s.hart.len ≤ s.hart.eidx.toNat →
      exec (.tld x) s = .next (s.setHart s.hart.retire) ∧ exec (.tst x) s = .next (s.setHart s.hart.retire)) ∧
    (s.hart.eidx = 0 ∨ s.hart.eidx.toNat < s.hart.len →
    s.myTile.tvalid = true → s.myTile.owner = s.ctxid → s.myTile.tbusy = false →
    (∀ j, s.hart.active j = true →
      0 ≤ tableOffset s x.a x.b j ∧ tableOffset s x.a x.b j + (w / 8 : Nat) ≤ 4096 ∧ tableOffset s x.a x.b j % (w / 8 : Nat) = 0) →
    (∃ t, exec (.tld x) s = .next t ∧ CrossOutcome s t w x.d.toNat
      (fun j => if s.hart.active j then
        some (bytesAt s.myTile.tables (key (s.myTile.tcur != (s.hart.rs x.a).getLsbD 12) j) (w / 8)) else none) none none) ∧
    (∃ t, exec (.tst x) s = .next t ∧ { t with slots := s.slots, tiles := s.tiles } = s ∧ t.hart = goTo s.hart (s.hart.pc + 4) ∧
      (∀ k, k ≠ n → t.tile k = s.tile k) ∧
      { t.tile n with tables := s.myTile.tables, tcur := s.myTile.tcur } = s.myTile ∧
      (t.tile n).tcur = (s.myTile.tcur != (s.hart.rs x.a).getLsbD 13) ∧
      (∀ a, (∀ j, s.hart.active j = true → ¬ (key (!s.myTile.tcur) j ≤ a ∧ a < key (!s.myTile.tcur) j + w / 8)) →
        SMap.get 0 (t.tile n).tables a = SMap.get 0 s.myTile.tables a) ∧
      (∀ j k, s.hart.active j = true → k < w / 8 →
        (∀ i, s.hart.active i = true → j < i → key (!s.myTile.tcur) i ≠ key (!s.myTile.tcur) j) →
        SMap.get 0 (t.tile n).tables (key (!s.myTile.tcur) j + k) = BitVec.ofNat 8 ((sliceAt s w x.d j).toNat / 256 ^ k))))

/-! ## Views and narrow blocks (R163–R187) -/

/-- R184, R186: VIEWLD reads 64 bytes at s[a] into a view register and VIEWST stores one there, whatever the guard and VL are; VIEWSET replaces one field, or adds to ROW0 or COL0; nothing else
changes. A view above 3 or a selector that the table does not name is an illegal instruction. The words are those of the two tables.
An access that fails its checks traps with their cause, EIDX 0 and TVAL s[a], and changes no view and no memory. -/
def Obligations.ViewResult : Prop :=
  (∀ x : ArgsD, encode (.viewld x) = some ((0x7C#7 ++ 0x08#5 ++ x.d ++ x.a ++ 0#6 ++ BitVec.ofBool x.p ++ 0#1 : IWord)) ∧
    encode (.viewst x) = some ((0x7C#7 ++ 0x09#5 ++ x.d ++ x.a ++ 0#6 ++ BitVec.ofBool x.p ++ 0#1 : IWord))) ∧
  (∀ x : ArgsK, encode (.viewset x) = some ((0x7C#7 ++ 0x0A#5 ++ x.d ++ x.a ++ x.b ++ BitVec.ofBool x.p ++ 0#1 : IWord))) ∧
  (∀ (x : ArgsD) (s : State), 4 ≤ x.d.toNat → Illegal (.viewld x) s ∧ Illegal (.viewst x) s) ∧
  (∀ (x : ArgsK) (s : State), (4 ≤ x.d.toNat ∨ (6 ≤ x.b.toNat ∧ x.b.toNat < 16) ∨ 32 ≤ x.b.toNat) → Illegal (.viewset x) s) ∧
  (∀ (x : ArgsD) (s : State) (cause wl : Nat), x.d.toNat < 4 → Quiet s = true → s.hart.tlvl.toNat < 2 →
    let fails : Acc → Prop := fun acc => s.checkSpace s.cur s.hart.mspace (s.hart.rs x.a).toNat acc 64 64 false = .bad cause wl
    (fails .read → ∃ t, exec (.viewld x) s = .next t ∧ TrapOutcome s t cause 0 (s.hart.rs x.a) wl) ∧
    (fails .write → ∃ t, exec (.viewst x) s = .next t ∧ TrapOutcome s t cause 0 (s.hart.rs x.a) wl)) ∧
  ∀ (s : State) (loc : Nat → Loc) (dev : Nat → Bool), Quiet s = true →
    (∀ x : ArgsD, x.d.toNat < 4 → Passes s (fun j => j == 0) .read 64 false (fun _ => s.hart.rs x.a) loc dev →
      ∃ t, exec (.viewld x) s = .next t ∧ OnlyHart s t ∧ t.hart = { goTo s.hart (s.hart.pc + 4) with v := t.hart.v } ∧
        ∀ n, t.hart.rv n = if n = x.d.toNat then BitVec.ofNat 512 (s.homeRead (loc 0) 64) else s.hart.rv n) ∧
    (∀ x : ArgsD, x.d.toNat < 4 → Passes s (fun j => j == 0) .write 64 false (fun _ => s.hart.rs x.a) loc dev →
      ∃ t, exec (.viewst x) s = .next t ∧ OnlyHartAndMemory s t ∧ t.hart = goTo s.hart (s.hart.pc + 4) ∧
        Stored s t (fun j => j == 0) 64 loc (fun _ => (s.hart.rv x.d.toNat).toNat)) ∧
    (∀ x : ArgsK, x.d.toNat < 4 → (x.b.toNat < 6 ∨ (16 ≤ x.b.toNat ∧ x.b.toNat < 32)) →
      ∃ t, exec (.viewset x) s = .next t ∧ OnlyHart s t ∧ t.hart = { goTo s.hart (s.hart.pc + 4) with v := t.hart.v } ∧
        (∀ n, n ≠ x.d.toNat → t.hart.rv n = s.hart.rv n) ∧
        (let a := s.hart.rs x.a
         let old := s.hart.rv x.d.toNat
         let new := t.hart.rv x.d.toNat
         let field : Nat × Nat × Nat := match x.b.toNat with
           | 0 => (0, 32, a.toNat) | 1 => (32, 32, a.toNat) | 2 => (64, 32, a.toNat) | 3 => (96, 32, a.toNat)
           | 4 => (32, 32, (vRow0 old).toNat + a.toNat) | 5 => (64, 32, (vCol0 old).toNat + a.toNat)
           | n => (128 + 24 * (n - 16), 24, a.toNat)
         ∀ k, k < 512 → new.getLsbD k =
           if field.1 ≤ k ∧ k < field.1 + field.2.1 then field.2.2.testBit (k - field.1) else old.getLsbD k))

/-- R163, R176, R178, R130, R187: LDQ of blocks that are in place, of format 0x41 and with the expected tags writes each active element's code and each
block's header entry, and where EIDX is not below VL does nothing (R359); FCVT of a narrow source rounds the exact port value. -/
def Sys2Proof.Spec.NarrowLoadResult : Prop :=
  (∀ (x : ArgsD) (s : State) (loc : Nat → Loc) (dev : Nat → Bool), Quiet s = true → overruns 4 x.d.toNat = false →
    let h := s.hart
    let v := h.activeView
    let e := h.eidx.toNat / 120 * 120
    let block : Nat → BitVec 512 := fun i => BitVec.ofNat 512 (s.homeRead (loc i) 64)
    let p : Nat → Bool := fun i => decide (e ≤ i) && blockActive h i
    (h.len ≤ h.eidx.toNat → exec (.ldq x) s = .next (s.setHart h.retire)) ∧
    (h.eidx.toNat < h.len → vRowlen v % 120 = 0 → Passes s p .read 64 true (blockAddr h x.a) loc dev →
    (∀ i, p i = true → (block i).extractLsb' 0 8 = 0x41 ∧ blockTag (block i) = tagAt v i) →
    ∃ t, exec (.ldq x) s = .next t ∧ OnlyHart s t ∧
      t.hart = { goTo h (h.pc + 4) with z := t.hart.z, v := t.hart.v, dirty := t.hart.dirty, vlg := t.hart.vlg } ∧
      (∀ j, t.hart.row j =
        if e ≤ j ∧ h.active j = true then putElem (h.row j) 4 x.d.toNat (blockCode (block (j / 120 * 120)) (j % 120)) else h.row j) ∧
      (∀ n, n ≠ h.vsel → t.hart.rv n = h.rv n) ∧
      (∀ k, k < 16 → (∀ i, p i = true → h.hdrOf i ≠ k) → vScale t.hart.activeView k = vScale v k ∧ vTag t.hart.activeView k = vTag v k) ∧
      (∀ i, p i = true → (∀ i', p i' = true → i < i' → h.hdrOf i' ≠ h.hdrOf i) →
        vScale t.hart.activeView (h.hdrOf i) = blockScale (block i) ∧ vTag t.hart.activeView (h.hdrOf i) = blockTag (block i)))) ∧
  (∀ (x : ArgsC) (s : State), (Instr.fcvt x).wellFormed = true → x.s = 6 → Ready s = true →
    overruns (widthOf x.w) x.d.toNat = false → overruns 4 x.a.toNat = false →
    let r : Nat → Nat × Flags := fun j =>
      rndV (fmtOf s.hart.fctl (widthOf x.w)) (rctl s.hart.fctl) (narrowValue s.hart (sliceAt s 4 x.a j).toNat j)
    ∃ t, exec (.fcvt x) s = .next t ∧
      VectorOutcome s t (widthOf x.w) x.d.toNat (fun j => (r j).1) (fun _ => false) (fun j => (r j).2))

/-- MAG(ty, m) of R166. -/
noncomputable def Sys2Proof.Spec.magAt (ty m : Nat) : ℝ :=
  (if ty = 1 then [0, 1 / 2, 1, 3 / 2, 2, 3, 4, 6] else if ty = 2 then [0, 1 / 4, 1 / 2, 1, 2, 4, 8, 16] else [0, 1, 2, 3, 4, 6, 8, 12]).getD m 0

/-- VAL(ty, p) of R166; TOP(ty) is VAL(ty, 7). -/
noncomputable def Sys2Proof.Spec.valAt (ty : Nat) (p : ℝ) : ℝ :=
  let m := min ⌊|p|⌋₊ 6
  let v := magAt ty m + (|p| - m) * (magAt ty (m + 1) - magAt ty m)
  if ty = 0 then p else if 0 ≤ p then v else -v

/-- R182: q is the position to which x is quantised under the type, the exponent and the dither: POS of x over the scale, plus the dither, to the nearest integer with ties to even, clamped to the type's positions. -/
def Sys2Proof.Spec.QuantisedAs (ty e : Nat) (dither : ℝ) (x : FV) (q : Int) (clamped : Bool) : Prop :=
  let lo : Int := if ty = 0 then -8 else -7
  match x with
  | .inf n => q = (if n then lo else 7) ∧ clamped = true
  | .fin n m k => ∃ (p : ℝ) (y : Int), valAt ty p = realOf n m k / 2 ^ ((e : ℤ) - 32) ∧ IntegerOf 0 (p + dither) y ∧ q = max lo (min y 7) ∧ (clamped = true ↔ y < lo ∨ 7 < y)
  | .nan _ => False

/-- R163, R165, R182: b is the block of the 120 values X under type ty, its first element being element i of the view: the least exponent under which every value fits, or 63, the tag of the first element, and each code its value quantised under the dither of its element. -/
def Sys2Proof.Spec.BlockOf (v : View) (ty i : Nat) (X : Nat → FV) (b : QBlock) : Prop :=
  let fits : Nat → Prop := fun e => ∀ j, j < 120 → ∃ n m k, X j = .fin n m k ∧ |realOf n m k| ≤ valAt ty 7 * 2 ^ ((e : ℤ) - 32)
  let e := b.scale.toNat % 64
  b.scale.toNat / 64 = ty ∧ ((fits e ∧ ∀ e', e' < e → ¬ fits e') ∨ (e = 63 ∧ ∀ e', e' < 64 → ¬ fits e')) ∧
  b.tag = tagAt v i ∧ b.blk.extractLsb' 0 8 = 0x41 ∧ blockScale b.blk = b.scale ∧ blockTag b.blk = b.tag ∧
  ∀ j, j < 120 → ∃ q : Int, QuantisedAs ty e ((ditherAt v (i + j) : ℝ) / 16) (X j) q (b.clamped j) ∧
    blockCode b.blk j = if ty = 0 then (q % 16).toNat else if 0 ≤ q then q.toNat else (8 - q).toNat

/-- R163, R165, R166, R182: what a block of values of the formats that STQ and REQUANT quantise becomes. -/
def Sys2Proof.Spec.QuantiseRule : Prop :=
  ∀ (v : View) (ty k : Nat) (x : Nat → FV), ty < 4 → (∀ j, (x j).isNan = false ∧ ∀ n m e, x j = .fin n m e → -160 ≤ e) →
    BlockOf v ty (120 * k) (fun j => x (120 * k + j)) (quantBlock v ty k x)

/-- R180 to R183: STQ with VL, ROWLEN and the first coordinate multiples of 120 stores each block that has an active element, from EIDX's block on,
as 64 bytes that begin with format 0x41, a scale byte of the header entry's type and the least exponent that holds its values, the tag of its coordinates and the codes, each value quantised under its dither; the header entry takes the
scale and tag; saturation and NaN elements set their bits of the mask that VSATM names; a NaN raises NV. -/
def Sys2Proof.Spec.NarrowStoreResult : Prop :=
  ∀ (x : ArgsStq) (s : State) (loc : Nat → Loc) (dev : Nat → Bool), (Instr.stq x).wellFormed = true → Quiet s = true →
    let h := s.hart
    let v := h.activeView
    let w := widthOf x.w
    let e := h.eidx.toNat / 120 * 120
    let p : Nat → Bool := fun i => decide (e ≤ i) && blockActive h i
    let fv : Nat → FV := fun j => (fmtOf h.fctl w).val (rctl h.fctl) (sliceAt s w x.d j).toNat
    let isNan : Nat → Bool := fun j => h.active j && (fv j).isNan
    overruns w x.d.toNat = false → h.len % 120 = 0 → vRowlen v % 120 = 0 → (qc0 v).toNat % 120 = 0 →
    Passes s p .write 64 true (blockAddr h x.a) loc dev →
    ∃ t, exec (.stq x) s = .next t ∧ OnlyHartAndMemory s t ∧ Stored s t p 64 loc (fun i => (stqBlock s w x.d (i / 120)).blk.toNat) ∧
      t.hart = { goTo h (h.pc + 4) with v := t.hart.v, m := t.hart.m, fflags := t.hart.fflags } ∧
      (∀ i, p i = true →
        let b := stqBlock s w x.d (i / 120)
        BlockOf v ((vScale v (h.hdrOf i)).toNat / 64) i (fun j => if h.active (i + j) = false ∨ (fv (i + j)).isNan = true then .fin false 0 0 else fv (i + j)) b ∧
        ((∀ i', p i' = true → i < i' → h.hdrOf i' ≠ h.hdrOf i) →
          vScale t.hart.activeView (h.hdrOf i) = b.scale ∧ vTag t.hart.activeView (h.hdrOf i) = b.tag)) ∧
      (∀ n j, j < 1024 → (t.hart.rm n).getLsbD j = ((h.rm n).getLsbD j ||
        decide (n = h.vsatm.toNat ∧ e ≤ j ∧ h.active j = true ∧
          ((stqBlock s w x.d (j / 120)).clamped (j % 120) = true ∨ isNan j = true)))) ∧
      (∀ k, t.hart.fflags.getLsbD k = true ↔ (h.fflags.getLsbD k = true ∨
        (k = 4 ∧ ∃ j, e ≤ j ∧ isNan j = true)))

/-! ## The machine as a whole -/

/-- R18 to R37: every well-formed instruction is what its word decodes to, with every field at every value its entry admits; and a word that
decodes to a well-formed instruction is that instruction's word. -/
def Obligations.RoundTrip : Prop :=
  (∀ (i : Instr) (w : IWord), i.wellFormed = true → encode i = some w → decode w = .ok i) ∧
  (∀ (i : Instr) (w : IWord), decode w = .ok i → i.wellFormed = true → encode i = some w)

/-- Words that the spec's worked examples and encoding tables give, with the instructions they stand for. -/
def Sys2Proof.Spec.sampleWords : List (IWord × Instr) :=
  [(0x3D910540, .or ⟨3, 1, 4, 5, 16, false, false⟩), (0xF0200004, .li ⟨4, 4⟩), (0xF5814400, .setvl ⟨5, 4, false⟩),
   (0xFE800900, .waitf ⟨9, 0⟩), (0xEF903F00, .jalr ⟨true, 0, 63, 0, false, false⟩), (0xFE10C008, .mtcr ⟨3, 2, false⟩),
   (0xE64703FF, .br ⟨1, 7, 0, 0x3FF⟩)]

/-- The worked examples' words decode to their instructions, as the tables of R18 to R37 lay the fields out. -/
def Obligations.SampleWordsDecode : Prop := ∀ p ∈ sampleWords, decode p.1 = .ok p.2

/-- It is the turn of an instruction of slot `cur` that has not been fetched: the agenda is empty, nothing of the slot's own is due, it is RUNNING or WAITING, its
tile is READY, no instruction of it is in progress or in the dispatch queue, and it waits for no word of peer memory. -/
def Sys2Proof.Spec.instructionTurn (s : State) : Bool :=
  let v := s.slot s.cur
  s.agenda.isEmpty && v.reload.isNone && v.hart.replaying == 0 && !v.halt && !v.pre && !v.yielded && !v.ending && v.hart.pendCr.isNone &&
  (v.state == .running || v.state == .waiting) && s.fnReady (State.tileOf s.cur) && v.hart.word.isNone && v.hart.queue.isEmpty &&
  s.net.reqs.all (fun r => r.who != fetchWaiter s.cur)

/-- Does the hart of slot k still stand where it stood in `old`: it runs, at the same PC, INSTRET and level? -/
def Sys2Proof.Spec.stands (old s : State) (k : Nat) : Bool :=
  let h := (old.slot k).hart
  let g := (s.slot k).hart
  ((s.slot k).state == .running || (s.slot k).state == .waiting) && g.pc == h.pc && g.instret == h.instret && g.tlvl == h.tlvl

/-- R15, R16, R17, R38, R401: a step whose turn it is fetches the four bytes at the PC in device-virtual space, those of their home unless the hart's fetch holds a copy of them, and runs what they decode to: `exec` of the
instruction, then what `keepWord` keeps of it, the halt of a STEP and the trace records, then the states of the channels. With tracing off and no STEP, nothing but `keepWord` and the channels'
states is added: an instruction that waits keeps its word and the DETM under which it began, which the next step runs again without a fetch, and any other is forgotten, with
what the hart's queued loads have read early where none is left.
A word that is no row's traps with cause 0x01, TVAL the word; a fetch that fails its checks traps with their cause, TVAL the PC. An instruction of the
dispatch queue that finds it full waits for its turn (R147). -/
def Sys2Proof.Spec.StepRunsDecoded : Prop :=
  (∀ (s : State) (loc : Loc) (dev : Bool), instructionTurn s = true →
    let w : IWord := BitVec.ofNat 32 (s.fetchLoc s.cur loc 4)
    let check := s.checkVirtual (State.tileOf s.cur) s.ctxid s.hart.pc.toNat .fetch 4 4 true
    let quiet : Prop := s.tracing = false ∧ (s.slot s.cur).step = false
    ((∀ c ∈ s.copies, c.holder ≠ .fetch s.cur) → w = BitVec.ofNat 32 (s.homeRead loc 4)) ∧
    (check = .go loc dev → isLocal loc = true →
      (∀ i, decode w = .ok i →
        (needsEntry i s = true → step s = .next (settleChans (askEntry s s.cur))) ∧
        (needsEntry i s = false →
          step s = settled (afterInstr s (some w) (some i) (transfers i s) (exec i s)) ∧
          (∀ t, exec i s = .next t → (s.slot s.cur).step = false → t.tracing = false →
            let u := keepWord s (some w) (some i) t
            step s = .next (settleChans u) ∧ { settleChans u with chans := u.chans } = u))) ∧
      (∀ r, decode w = .error r → quiet →
        step s = .next (settleChans (keepWord s none none (s.takeTrap s.cur 0x01 s.hart.eidx.toNat (w.zeroExtend 64) 0 s.hart.pc))))) ∧
    (∀ cause wl, check = .bad cause wl → quiet →
      step s = .next (settleChans (keepWord s none none (s.takeTrap s.cur cause 0 s.hart.pc wl s.hart.pc))))) ∧
  (∀ (s t : State) (w : IWord) (i : Instr), s.hart.queue = [] → (t.slot s.cur).hart.queue = [] →
    let h := { (t.slot s.cur).hart with want := none }
    (stands s t s.cur = true → keepWord s (some w) (some i) t = t.setHartOf s.cur { h with word := some (w, detmSeen s) }) ∧
    (stands s t s.cur = false →
      { keepWord s (some w) (some i) t with copies := t.copies } = t.setHartOf s.cur { h with word := none, mid := false } ∧
      ∀ c, c ∈ (keepWord s (some w) (some i) t).copies ↔ c ∈ t.copies ∧ c.holder ≠ .early s.cur)) ∧
  (∀ (s : State) (w : IWord) (d : Bool) (i : Instr), instructionTurn (s.setHart { s.hart with word := none }) = true →
    s.hart.word = some (w, d) → decode w = .ok i →
    step s = settled (afterInstr s (some w) (some i) (transfers i s) (exec i s)))

/-- The model's choice (log 1): with a move on the agenda, a step is that move: an event row's `exec`, or the instruction of the slot named. Nothing
is fetched for an event row. A holder of read copies copies the 64 bytes of a line as they stand at the home (log 3, 4), in the place of its older copy, and of its
tile's where a queued load reads early (R314). A core that issues an
instruction ahead changes nothing but the queue and the turn of its hart (log 108). -/
def Sys2Proof.Spec.StepRunsAgenda : Prop :=
  ∀ (s : State) (rest : List Move),
    (∀ e, s.agenda = .event e :: rest → encode e = none →
      ∀ t, exec e { s with agenda := rest } = .next t → t.tracing = false → step s = .next (settleChans t)) ∧
    (∀ k, s.agenda = .run k :: rest → k < Config.slots →
      step s = settled (runHart { s with agenda := rest, cur := k })) ∧
    (∀ a bs, s.agenda = .hostStore a bs :: rest →
      ∃ t, step s = .next t ∧ { t with host := s.host, chans := s.chans, agenda := s.agenda } = s ∧
        (∀ x, (x < a ∨ a + bs.length ≤ x) → SMap.get 0 t.host x = SMap.get 0 s.host x) ∧
        (∀ k b, bs[k]? = some b → SMap.get 0 t.host (a + k) = b)) ∧
    (∀ h loc, s.agenda = .copy h loc :: rest → ∃ t, step s = .next t ∧ { t with copies := s.copies, chans := s.chans, agenda := s.agenda } = s ∧
      let line : Copy := ⟨h, lineOf loc, BitVec.ofNat 512 (s.homeRead (lineOf loc) 64)⟩
      let older : Copy → Prop := fun c => c.loc = lineOf loc ∧ (c.holder = h ∨ ∃ k, h = .early k ∧
        (c.holder = .tile (State.tileOf k) ∨ ∃ j, State.tileOf j = State.tileOf k ∧ c.holder = .hart j))
      ∀ c, c ∈ t.copies ↔ if mayHold s h loc = true then c = line ∨ (c ∈ s.copies ∧ ¬ older c) else c ∈ s.copies) ∧
    (∀ k, s.agenda = .issue k :: rest → ∃ t, step s = .next t ∧ { t with slots := s.slots, chans := s.chans, agenda := s.agenda } = s ∧
      (∀ j, j ≠ k → t.slot j = s.slot j) ∧
      t.slot k = { s.slot k with hart := { (s.slot k).hart with queue := (t.slot k).hart.queue, want := (t.slot k).hart.want } })

/-- Every step goes on: each failure is a trap that is taken, and a third one kills the context (R339, R341, R343); no instruction is refused. -/
def Obligations.EveryStepGoesOn : Prop := ∀ s : State, Goes (step s)

/-- R15: bits 1:0 of every hart's PC are zero, and so are those of what a PC is ever loaded from: the saved PCs of the trap banks and the entries of the held tasks. -/
def Sys2Proof.Spec.PcAligned (s : State) : Prop :=
  (∀ k, let h := (s.slot k).hart
    h.pc.extractLsb' 0 2 = 0 ∧ h.bank1.epc.extractLsb' 0 2 = 0 ∧ h.bank2.epc.extractLsb' 0 2 = 0) ∧
  ∀ e ∈ s.held, e.rc.entry.extractLsb' 0 2 = 0

/-- The reset column of the register tables: slots (R53, R350), control registers of a hart (R84, R85, R94, R138, R150, R171, R189, R233, R244,
R342), contexts (R76, R211, R245, R265, R300, R337), windows, tables, invalidation, rounds, ticket word, identity, queue status, trace, status and
power words (R193, R204, R310, R266, R377, R364, R381, R403, R407, R410); and the memories are in canonical form. -/
def Obligations.ResetState : Prop :=
  (∀ k, let v := State.reset.slot k
    v.mode = 0 ∧ v.ctx = 0 ∧ v.prio = 0 ∧ v.die = 0 ∧ v.once = false ∧ v.state = .free ∧ v.err = false ∧ v.ecode = 0 ∧ v.task = 0xFFFFFFFF ∧
    v.ndisp = 0 ∧ v.nsteal = 0 ∧ v.lastctx = none ∧ v.haltbk = false ∧ v.busy = false ∧ v.refused = false ∧ v.scode = 0 ∧ v.img = 0 ∧
    (let h := v.hart
     h.vl = 0 ∧ h.eidx = 0 ∧ h.vstride = 0 ∧ h.vmsel = 0 ∧ h.vsatm = 7 ∧ h.mspace = 0 ∧ h.fctl = 0 ∧ h.fflags = 0 ∧ h.view = 0 ∧ h.vcount = 0 ∧
     h.strmf = 0 ∧ h.macfg = {} ∧ h.taskid = 0xFFFFFFFF ∧ h.taskarg = 0 ∧ h.detf = false ∧ h.tlvl = 0 ∧ h.tvec = 0 ∧ h.bank1 = {} ∧ h.bank2 = {} ∧
     h.tsave = 0)) ∧
  (∀ t, let v := State.reset.tile t
    v.split = false ∧ v.lim = 0 ∧ v.owner = 0 ∧ v.tvalid = false ∧ v.tbusy = false ∧ v.tcur = false) ∧
  (∀ c, let v := State.reset.ctx c
    v.res = false ∧ v.sys = false ∧ v.dying = false ∧ v.lastr = 0 ∧ v.ptValid = false ∧ v.ptRoot = 0 ∧ v.detm = false ∧ v.slice = 0 ∧
    v.clamps = 0 ∧ v.qtask = 0 ∧ v.qslot = 0 ∧ v.qmark = 0 ∧ v.qcred = 0 ∧ v.qchan = 0 ∧ v.qmac = 0 ∧ v.qround = 0) ∧
  (∀ a, State.reset.window a = {}) ∧ State.reset.inval = {} ∧ State.reset.rounds = [] ∧ State.reset.bindings = [] ∧ State.reset.chans = [] ∧
  State.reset.net.tickets = { slots := 4, tklog := 14, next := 0, serving := 0, tickets := [] } ∧ State.reset.net.ident = ⟨0, 0, 1⟩ ∧
  State.reset.io.lasth = 0 ∧ State.reset.io.dseq = 0 ∧ State.reset.io.hack = 0 ∧ State.reset.io.boot = 0 ∧
  (∀ n, let u := State.reset.unit n; u.en = false ∧ u.all = false ∧ u.base = 0 ∧ u.size = 0 ∧ u.wptr = 0 ∧ u.lost = 0) ∧
  (∀ n, State.reset.func n = {}) ∧ (∀ n, SMap.get {} State.reset.power n = (⟨520, 0⟩ : Power)) ∧ Memory.wf State.reset = true ∧ PcAligned State.reset

/-- Every step keeps the memories in canonical form: addresses rise strictly, and no listed byte is zero, which an unlisted byte reads as (log 5). -/
def Obligations.MemoryStaysCanonical : Prop := ∀ (s t : State), Memory.wf s = true → step s = .next t → Memory.wf t = true

/-- Every step keeps every PC, every saved PC and every held entry a multiple of 4 (R15). -/
def Obligations.PcStaysAligned : Prop := ∀ (s t : State), PcAligned s → step s = .next t → PcAligned t

/-! ## Atomics, fences and sync objects (R313–R335) -/

/-- The location is in local HBM or in a cistern, where an atomic unit is (R331). -/
def Sys2Proof.Spec.hasUnit : Loc → Bool
  | .hbm _ => true
  | .cis _ => true
  | _ => false

/-- A row of R330: the operands, whether it is ACAS, the new value from old, v and the expected value, and the flags. -/
structure Sys2Proof.Spec.AtomicRow where
  x : ArgsG
  cas : Bool := false
  new : (w : Nat) → BitVec w → BitVec w → BitVec w → BitVec w
  fl : (w : Nat) → BitVec w → BitVec w → Flags := fun _ _ _ => 0
  float : Bool := false

/-- The sum of R330: FP32 or FP64, round to nearest even, subnormals kept. -/
def Sys2Proof.Spec.atomicSum (w : Nat) (old v : BitVec w) : Nat × Flags :=
  let t := if w = 64 then fp64 else fp32
  addV t rneCtl (t.raw old.toNat) (t.raw v.toNat)

/-- R330. -/
def Sys2Proof.Spec.atomicRow : Instr → Option AtomicRow
  | .aadd x => some { x, new := fun _ old v _ => old + v }
  | .afadd x => some { x, new := fun w old v _ => BitVec.ofNat w (atomicSum w old v).1, fl := fun w old v => (atomicSum w old v).2, float := true }
  | .amax x => some { x, new := fun _ old v _ => if old.slt v then v else old }
  | .amin x => some { x, new := fun _ old v _ => if v.slt old then v else old }
  | .aswap x => some { x, new := fun _ _ v _ => v }
  | .acas x => some { x, cas := true, new := fun _ old v e => if old = e then v else old }
  | _ => none

/-- The address of element j of an atomic (R199, R200). -/
def Sys2Proof.Spec.atomicAddr (s : State) (x : ArgsG) (j : Nat) : Word :=
  if x.m = 2 then s.hart.rs x.a + x.b.signExtend 64 * (if x.w then 8 else 4)
  else s.hart.rs x.a + (sliceAt s 32 x.b j).signExtend 64

/-- Every performed element of an atomic passes its checks, at a location that has an atomic unit. -/
def Sys2Proof.Spec.AtomicPasses (s : State) (x : ArgsG) (p : Nat → Bool) (loc : Nat → Loc) (dev : Nat → Bool) : Prop :=
  let n := if x.w then 8 else 4
  ∀ j, p j = true → s.checkSpace s.cur s.hart.mspace (atomicAddr s x j).toNat .atomic n n false = .go (loc j) (dev j) ∧ hasUnit (loc j) = true

/-- What the elements of an atomic have come to: the old values, the flags, the state of memory. -/
structure Sys2Proof.Spec.AtomicRun where
  olds : Nat → Option Nat
  fl : Flags
  mem : State

/-- One element at its home, indivisibly: old ← the location; the location ← NEW(old, v, e) (R329). -/
def Sys2Proof.Spec.atomicOne (r : AtomicRow) (w : Nat) (loc : Nat → Loc) (v e : Nat → BitVec w) (a : AtomicRun) (j : Nat) : AtomicRun :=
  let old := BitVec.ofNat w (a.mem.homeRead (loc j) (w / 8))
  { olds := fun i => if i = j then some old.toNat else a.olds i, fl := a.fl ||| r.fl w old (v j)
    mem := a.mem.homeWrite (loc j) (w / 8) (r.new w old (v j) (e j)).toNat }

/-- R328, R329, R330: outside deterministic AFADD, the atomics whose checks pass read and write each location at its home, the active elements in
increasing order, each seeing the one before; the old values go to the destination, AFADD's flags to FFLAGS. Mode 10 performs once, whatever VL and the guard, and
zero-extends a 32-bit old value, as the model chose; mode 01 does nothing where EIDX is not below VL (R359).
The model's own readings that it rests on: log 114. -/
def Sys2Proof.Spec.AtomicResult : Prop :=
  ∀ (i : Instr) (r : AtomicRow) (s : State) (loc : Nat → Loc) (dev : Nat → Bool), atomicRow i = some r → i.wellFormed = true → Quiet s = true →
    (r.float = true → detmSeen s = false) →
    let x := r.x
    let w := if x.w then 64 else 32
    let h := s.hart
    (x.m = 2 → AtomicPasses s x (fun j => j == 0) loc dev →
      let opnd := BitVec.ofNat w (h.rs x.d).toNat
      let a := atomicOne r w loc (fun _ => if r.cas then BitVec.ofNat w (h.rs (x.d + 1)).toNat else opnd) (fun _ => opnd) ⟨fun _ => none, 0, s⟩ 0
      ∃ t, exec i s = .next t ∧ OnlyHartAndMemory s t ∧ (∀ b, byteAt t b = byteAt a.mem b) ∧
        (∀ q, t.hart.rs q = if q = x.d ∧ x.d ≠ 0 then BitVec.ofNat 64 ((a.olds 0).getD 0) else h.rs q) ∧
        t.hart = { goTo h (h.pc + 4) with s := t.hart.s, fflags := h.fflags ||| a.fl }) ∧
    (x.m = 1 → overruns 32 x.b.toNat = false → overruns w x.d.toNat = false → (r.cas = true → overruns w (x.d.toNat + w / 4) = false) →
      (h.len ≤ h.eidx.toNat → exec i s = .next (s.setHart h.retire)) ∧
      (h.eidx.toNat < h.len → AtomicPasses s x h.active loc dev →
      let opnd : Nat → BitVec w := fun j => sliceAt s w x.d j
      let new : Nat → BitVec w := fun j => BitVec.ofNat w (elemOf (h.row j) w (x.d.toNat + w / 4))
      let a := (activeBelow s).foldl (atomicOne r w loc (fun j => if r.cas then new j else opnd j) opnd) ⟨fun _ => none, 0, s⟩
      ∃ t, exec i s = .next t ∧ OnlyHartAndMemory s t ∧ (∀ b, byteAt t b = byteAt a.mem b) ∧
        (∀ j, t.hart.row j = match a.olds j with | some v => putElem (h.row j) w x.d.toNat v | none => h.row j) ∧
        (let g := if anyIn h.active 0 h.len = true then h.touch (slicesOf w x.d.toNat) h.len else h
         t.hart = { goTo h (h.pc + 4) with z := t.hart.z, dirty := g.dirty, vlg := g.vlg, fflags := h.fflags ||| a.fl })))

/-- R332, R333: in deterministic mode an AFADD whose elements are accepted writes nothing to memory, to its destination or to FFLAGS: it leaves one update for each active
element at the atomic units, tagged with the context, the group of byte 20 of the task's record and its phase. With no group it traps with cause 0x01.
The model's own readings that it rests on: log 25. -/
def Sys2Proof.Spec.HeldAddResult : Prop :=
  ∀ (x : ArgsG) (s : State) (run : RunTask) (loc : Nat → Loc) (dev : Nat → Bool), (Instr.afadd x).wellFormed = true → Quiet s = true →
    detmSeen s = true → s.runOf s.cur = some run →
    let w := if x.w then 64 else 32
    let h := s.hart
    let g := run.rc.gid 0
    let p := ((s.group s.ctxid g).map (·.phase)).getD 0
    let fits : Prop := x.m = 1 → overruns 32 x.b.toNat = false ∧ overruns w x.d.toNat = false ∧ h.eidx.toNat < h.len
    let elems : List Nat := if x.m = 2 then [0] else (activeBelow s).filter (h.eidx.toNat ≤ ·)
    let v : Nat → Nat := fun j => if x.m = 2 then (h.rs x.d).toNat % 2 ^ w else (sliceAt s w x.d j).toNat
    (∀ u, g ≠ 0xFF → fits → AtomicPasses s x (fun j => elems.contains j) loc dev →
      elems.foldl (fun (o : Option State) j =>
        o.bind (holdUpdate s.ctxid g p (loc j) (w / 8) ⟨run.rc.id, run.issued, j, BitVec.ofNat 64 (v j)⟩)) (some s) = some u →
      ∃ t, exec (.afadd x) s = .next t ∧ t.holds = u.holds ∧ { t with holds := s.holds, running := s.running, slots := s.slots } = s ∧
        t.hart = goTo h (h.pc + 4) ∧ t.runOf s.cur = some { run with issued := run.issued + 1 } ∧ (∀ k, k ≠ s.cur → t.slot k = s.slot k)) ∧
    (g = 0xFF → fits → h.tlvl.toNat < 2 →
      ∃ t, exec (.afadd x) s = .next t ∧ TrapOutcome s t 0x01 0 ((wordOf (.afadd x)).zeroExtend 64) 0)

/-- From s to t the copies that serve the data reads of slot k are discarded, those read early for it among them, and no other (R315, log 3). -/
def Sys2Proof.Spec.Refreshed (s t : State) (k : Nat) : Prop :=
  ∀ c, c ∈ t.copies ↔ c ∈ s.copies ∧ c.holder ≠ .hart k ∧ c.holder ≠ .early k ∧ c.holder ≠ .tile (k / 8)

/-- R313, R314, R316, R374: every FENCE discards the hart's remote-cistern copies, those of its fetch and what its core has read early for it, and one of device or system scope the copies of its tile's read cache too. Scope tile drains
the hart's writes to the tile's read cache, where the tile's harts see them. Scope device or system leaves none of the hart's writes buffered: each byte's home then holds what the hart last wrote there.
A FENCE of system scope waits while a remote write of the hart is not acknowledged.
STORE_PERFORMED performs a buffered write unless an earlier one overlaps it that its hart sees or whose hart sees it.
The model's own readings that it rests on: log 3, 108. -/
def Obligations.FenceResult : Prop :=
  (∀ s : State, s.hart.inflight = [] → s.unackedWrites s.cur = true → exec (.fence 3) s = .next s) ∧
  (∀ (scope : BitVec 6) (s : State), scope.toNat ≤ 3 → s.hart.inflight = [] → (scope = 3 → s.unackedWrites s.cur = false) →
    ∃ t, exec (.fence scope) s = .next t ∧ t.hart = goTo s.hart (s.hart.pc + 4) ∧ (∀ k, k ≠ s.cur → t.slot k = s.slot k) ∧
      { t with slots := s.slots, hbm := s.hbm, cis := s.cis, host := s.host, wbuf := s.wbuf, copies := s.copies } = s ∧
      (∀ c ∈ t.copies, c ∈ s.copies ∧ c.holder ≠ .hart s.cur ∧ c.holder ≠ .fetch s.cur ∧ c.holder ≠ .early s.cur ∧ (2 ≤ scope.toNat → c.holder ≠ .tile (s.cur / 8))) ∧
      (scope.toNat ≤ 1 → t.hbm = s.hbm ∧ t.cis = s.cis ∧ t.host = s.host ∧ ∀ c ∈ s.copies, c.holder ≠ .hart s.cur → c.holder ≠ .fetch s.cur → c.holder ≠ .early s.cur → c ∈ t.copies) ∧
      (scope = 0 → t.wbuf = s.wbuf) ∧
      (scope = 1 → t.wbuf = s.wbuf.map (fun b => { b with seen := b.seen || b.slot == s.cur })) ∧
      (2 ≤ scope.toNat → (∀ b ∈ t.wbuf, b ∈ s.wbuf ∧ b.slot ≠ s.cur) ∧
        ((∀ b ∈ s.wbuf, b.seen = false) → t.wbuf = s.wbuf.filter (fun b => b.slot != s.cur) ∧
          ∀ b, isLocal b = true → byteAt t b = BitVec.ofNat 8 ({ s with copies := [] }.readByte s.cur b)))) ∧
  (∀ (slot k : Nat) (s : State) (pre post : List BufWrite) (b : BufWrite), s.wbuf = pre ++ b :: post → b.slot = slot →
    (pre.filter (fun w => w.slot == slot)).length = k →
    exec (.storePerformed slot k) s =
      .next (if pre.any (fun w => (w.slot == slot || ((w.seen || b.seen) && w.slot / 8 == slot / 8)) && w.overlaps b.loc b.n) then s
             else { s.homeWrite b.loc b.n b.v with
                    wbuf := pre ++ post
                    copies := s.copies.filter (fun c => !((match c.holder with | .tile n => n == slot / 8 | .hart j => j / 8 == slot / 8 | .fetch _ => false | .early j => j == slot) &&
                      State.meets c.loc 64 b.loc b.n)) }))

/-- What QFENCE waits for at one queue word (R327). -/
def Sys2Proof.Spec.queueDone (s : State) (q : Word) : Bool :=
  match (q.extractLsb' 62 2).toNat with
  | 0 => true
  | 1 => s.hart.inflight.all (fun f => !f.matrix)
  | 2 =>
    match resolveRef s (q.toNat % 65536) with
    | some c =>
      match s.chan c with
      | some y => y.state != .faulted && (y.state == .ended || y.state == .halted || y.completedBelow y.tail)
      | none => false
    | none => false
  | _ =>
    match SMap.find? s.rounds (q.toNat % 16) with
    | some r => (r.mine s).isSome && r.state == .complete
    | none => false

/-- R319 to R327: BIND fills the lowest entry of the context's table that is not VALID and writes its index, or traps on its region, its object or a full table; UNBIND clears VALID of an entry that its hart holds; ACQ writes the object's value once
it has reached the target, and else stays; REL stores or adds at the object's home, after the hart's buffered writes to the regions bound to it; QFENCE retires when
what its two words name is done.
The model's own readings that it rests on: log 3, 24, 79. -/
def Obligations.SyncObjectResult : Prop :=
  (∀ (x : ArgsT) (s : State) (loc : Loc) (dev : Bool) (j : Nat), Ready s = true →
    let h := s.hart
    let o := h.rs x.a
    let K := ((h.rs x.b).extractLsb' 58 6).toNat
    let base := ((h.rs x.b).extractLsb' 0 58).toNat
    let norm : Nat → Nat := fun a => if h.mspace = 2 then s.cur / 8 * 2 ^ 21 + a else a
    let key : Nat → Nat := fun i => s.ctxid.toNat * 64 + i
    let free : Nat → Bool := fun i => (SMap.find? s.bindings (key i)).all (fun b => !b.valid)
    (6 ≤ K → K ≤ 51 → o.toNat % 8 = 0 → base % 2 ^ K = 0 → s.checkSpace s.cur h.mspace o.toNat .read 8 8 false = .go loc dev → j < 64 →
      free j = true → (∀ i, i < j → free i = false) →
      ∃ t, exec (.bind x) s = .next t ∧ { t with bindings := s.bindings, slots := s.slots } = s ∧ (∀ k, k ≠ s.cur → t.slot k = s.slot k) ∧
        (∀ n, SMap.find? t.bindings n =
          if n = key j then some ⟨BitVec.ofNat 64 (norm o.toNat), BitVec.ofNat 58 (norm base), BitVec.ofNat 6 K, (if h.mspace = 2 then 1 else h.mspace), BitVec.ofNat 11 s.cur, true⟩
          else SMap.find? s.bindings n) ∧
        (∀ r, t.hart.rs r = if r = x.d ∧ x.d ≠ 0 then BitVec.ofNat 64 j else h.rs r) ∧ t.hart = { goTo h (h.pc + 4) with s := t.hart.s }) ∧
    (h.tlvl.toNat < 2 →
      (K < 6 ∨ 51 < K → ∃ t, exec (.bind x) s = .next t ∧ TrapOutcome s t 0x04 0 (h.rs x.b) 0) ∧
      (6 ≤ K → K ≤ 51 →
        (o.toNat % 8 ≠ 0 → ∃ t, exec (.bind x) s = .next t ∧ TrapOutcome s t 0x05 0 o 0) ∧
        (o.toNat % 8 = 0 → base % 2 ^ K ≠ 0 → ∃ t, exec (.bind x) s = .next t ∧ TrapOutcome s t 0x05 0 (BitVec.ofNat 64 base) 0) ∧
        (o.toNat % 8 = 0 → base % 2 ^ K = 0 → s.checkSpace s.cur h.mspace o.toNat .read 8 8 false = .go loc dev →
          (∀ i, i < 64 → free i = false) → ∃ t, exec (.bind x) s = .next t ∧ TrapOutcome s t 0x0B 0 0 0)))) ∧
  (∀ (x : ArgsS) (s : State), Quiet s = true →
    let key := s.ctxid.toNat * 64 + (s.hart.rs x.a).toNat % 64
    ∃ t, exec (.unbind x) s = .next t ∧ { t with bindings := s.bindings, slots := s.slots } = s ∧ (∀ k, k ≠ s.cur → t.slot k = s.slot k) ∧
      t.hart = goTo s.hart (s.hart.pc + 4) ∧
      (∀ n, n ≠ key → SMap.find? t.bindings n = SMap.find? s.bindings n) ∧
      SMap.find? t.bindings key = (SMap.find? s.bindings key).map (fun b => if b.holder.toNat = s.cur then { b with valid := false } else b)) ∧
  (∀ (x : ArgsJ) (s : State) (loc : Loc) (dev : Bool), (Instr.acq x).wellFormed = true → Quiet s = true → isLocal loc = true →
    s.checkSpace s.cur s.hart.mspace (s.hart.rs x.a).toNat .read 8 8 false = .go loc dev →
    let v : Word := BitVec.ofNat 64 (s.homeRead loc 8)
    let target := if x.w then x.b.zeroExtend 64 else s.hart.rs x.b
    (target ≤ v → ∃ t, exec (.acq x) s = .next t ∧ ScalarOutcome s t x.d v 0) ∧
    (v < target → exec (.acq x) s = .next s)) ∧
  (∀ (x : ArgsRel) (s : State) (loc : Loc) (dev : Bool), (Instr.rel x).wellFormed = true → s.hart.allFull = true → s.hart.inflight = [] →
    (∀ r ∈ s.net.reqs, r.who ≠ .elem s.cur 0) → isLocal loc = true → s.checkSpace s.cur s.hart.mspace (s.hart.rs x.a).toNat (if x.w then .atomic else .write) 8 8 false = .go loc dev →
    ∃ t, exec (.rel x) s = .next t ∧ t.hart = goTo s.hart (s.hart.pc + 4) ∧
      { t with slots := s.slots, hbm := s.hbm, cis := s.cis, host := s.host, wbuf := s.wbuf, copies := s.copies } = s ∧ (∀ k, k ≠ s.cur → t.slot k = s.slot k) ∧
      (∀ c ∈ t.copies, c ∈ s.copies) ∧ (∀ b ∈ t.wbuf, b ∈ s.wbuf) ∧
      (∀ b ∈ t.wbuf, b.slot = s.cur → b.overlaps loc 8 = false ∧ ∀ r ∈ regionsOf s (s.hart.rs x.a).toNat, State.inRegion r b = false) ∧
      ((∀ b ∈ s.wbuf, b.seen = false) → ∀ b ∈ s.wbuf, b.slot ≠ s.cur → b ∈ t.wbuf) ∧
      (s.wbuf = [] → Stored s t (fun j => j == 0) 8 (fun _ => loc) (fun _ =>
        if x.w then (s.homeRead loc 8 + x.b.toNat) % 2 ^ 64 else (s.hart.rs x.b).toNat))) ∧
  (∀ (x : ArgsQ) (s : State), Ready s = true → s.hart.qtail = none → s.hart.queue.head?.bind (·.tails) = none →
    (queueDone s (s.hart.rs x.a) = true → queueDone s (s.hart.rs x.b) = true → exec (.qfence x) s = .next (s.setHart (goTo s.hart (s.hart.pc + 4)))) ∧
    (∀ q : Word, q = s.hart.rs x.a → (q.extractLsb' 62 2).toNat = 2 → resolveRef s (q.toNat % 65536) = none → s.hart.tlvl.toNat < 2 →
      ∃ t, exec (.qfence x) s = .next t ∧ TrapOutcome s t 0x11 0 ((q.extractLsb' 0 16).zeroExtend 64) 0))

/-! ## Matrix macros and accumulators (R242–R262) -/

/-- Column n of macro M of a domain, and cell n of its row m. -/
def Sys2Proof.Spec.columnOf (s : State) (dom M n : Nat) : BitVec 1446 := SMap.get 0 s.cols (colKey dom M n)
def Sys2Proof.Spec.cellOf (s : State) (dom m n : Nat) : BitVec 49 := SMap.get 0 s.cells (cellKey dom m n)

/-- From s to t nothing changes but the slots, the macros and the accumulators; of the slots only the executing one does. -/
def Sys2Proof.Spec.OnlyMatrix (s t : State) : Prop :=
  { t with slots := s.slots, cols := s.cols, cells := s.cells, int8 := s.int8 } = s ∧ (∀ k, k ≠ s.cur → t.slot k = s.slot k) ∧
  { t.slot s.cur with hart := s.hart } = s.slot s.cur

/-- The hart holds the macros and rows, no replay is going on, and none has left a fault. -/
def Sys2Proof.Spec.holdsUnits (h : Hart) (mac : BitVec 4) (rows : BitVec 16) : Bool :=
  h.replaying == 0 && h.macroFault.isEmpty && mac &&& ~~~ h.macfg.mcl == 0 && rows &&& ~~~ h.macfg.acl == 0

/-- R246, R247, R250, R258: MCLAIM of units that the quotas allow and that no other hart of the domain holds grants them, zeroed, and writes 0; else it writes the status and changes
nothing. MFREE gives up the units it names. MCLR zeroes rows that the hart holds; a row it does not hold traps with cause 0x16. -/
def Sys2Proof.Spec.MacroClaims : Prop :=
  (∀ (x : ArgsD) (s : State), Ready s = true →
    let h := s.hart
    let dom := s.domain s.cur
    let mac := (h.rs x.a).extractLsb' 0 4 &&& ~~~ h.macfg.mcl
    let rows := (h.rs x.a).extractLsb' 16 16 &&& ~~~ h.macfg.acl
    let have_ := s.held' dom s.ctxid
    let others := s.othersHold dom s.cur
    let status : Nat :=
      if have_.1 + ones mac > min 4 (s.myCtx.qmac.toNat % 8) ∨ have_.2 + ones rows > min 16 (s.myCtx.qmac.toNat / 8) then 1
      else if mac &&& others.1 ≠ 0 then 2 else if rows &&& others.2 ≠ 0 then 3 else 0
    ∃ t, exec (.mclaim x) s = .next t ∧ OnlyMatrix s t ∧
      (∀ r, t.hart.rs r = if r = x.d ∧ x.d ≠ 0 then BitVec.ofNat 64 status else h.rs r) ∧
      (if status = 0 then
        t.hart = { goTo h (h.pc + 4) with
          s := t.hart.s, macfg := { h.macfg with mcl := h.macfg.mcl ||| mac, acl := h.macfg.acl ||| rows }
          replay := h.replay.filter (fun r => !mac.getLsbD r.1) } ∧
        (∀ d M n, M < 4 → n < 4096 → columnOf t d M n = if d = dom ∧ mac.getLsbD M = true then 0 else columnOf s d M n) ∧
        (∀ d M, M < 4 → t.isInt8 d M = if d = dom ∧ mac.getLsbD M = true then false else s.isInt8 d M) ∧
        (∀ d m n, m < 16 → n < 4096 → cellOf t d m n = if d = dom ∧ rows.getLsbD m = true then 0 else cellOf s d m n)
       else t.hart = { goTo h (h.pc + 4) with s := t.hart.s } ∧ t.cols = s.cols ∧ t.cells = s.cells ∧ t.int8 = s.int8)) ∧
  (∀ (x : ArgsS) (s : State), Ready s = true →
    let h := s.hart
    let mac : BitVec 4 := (h.rs x.a).extractLsb' 0 4
    let rows : BitVec 16 := (h.rs x.a).extractLsb' 16 16
    exec (.mfree x) s = .next (s.setHart { goTo h (h.pc + 4) with
      macfg := { h.macfg with mcl := h.macfg.mcl &&& ~~~ mac, acl := h.macfg.acl &&& ~~~ rows }
      replay := h.replay.filter (fun r => !mac.getLsbD r.1), replaying := h.replaying &&& ~~~ mac })) ∧
  (∀ (x : ArgsS) (s : State), Ready s = true → s.hart.len ≠ 0 →
    let h := s.hart
    let rows : BitVec 16 := (h.rs x.a).extractLsb' 16 16
    (holdsUnits h 0 rows = true → ∃ t, exec (.mclr x) s = .next t ∧ OnlyMatrix s t ∧ t.hart = goTo h (h.pc + 4) ∧ t.cols = s.cols ∧ t.int8 = s.int8 ∧
      (∀ d m n, m < 16 → n < 4096 → cellOf t d m n = if d = s.domain s.cur ∧ rows.getLsbD m = true then 0 else cellOf s d m n)) ∧
    (h.replaying = 0 → h.macroFault = [] → rows &&& ~~~ h.macfg.acl ≠ 0 → h.tlvl.toNat < 2 →
      ∃ t, exec (.mclr x) s = .next t ∧ TrapOutcome s t 0x16 0 ((rows &&& ~~~ h.macfg.acl).zeroExtend 64 <<< 16) 0))

/-- The columns of a load from column e up pass their checks, at local homes `loc n` (and `loc2 n` for the second half of an INT8 column), and are blocks of format 0x41 with the
expected tags. -/
def Sys2Proof.Spec.ColumnsPass (s : State) (k : Nat) (m : MacroLoad) (e : Nat) (loc loc2 : Nat → Loc) : Prop :=
  ∀ n, e ≤ n → n < m.nc →
    (∃ dev, s.checkSpace k m.space (m.base + BitVec.ofNat 64 n * m.stride).toNat .read 64 64 true = .go (loc n) dev) ∧ isLocal (loc n) = true ∧
    (m.int8 = true →
      (∃ dev, s.checkSpace k m.space (m.base + BitVec.ofNat 64 n * m.stride + 64).toNat .read 64 64 true = .go (loc2 n) dev) ∧ isLocal (loc2 n) = true) ∧
    (m.int8 = false →
      let blk : BitVec 512 := BitVec.ofNat 512 (s.homeRead (loc n) 64)
      blk.extractLsb' 0 8 = 0x41 ∧ blockTag blk = tagAt m.view (120 * n))

/-- Macro M of the domain holds in t what the load gives (R251): from column e up, the port values of the block's codes and its exponent, or the record's 120 bytes; zero from
column nc up; and the kind. Every other column and kind is as in s. -/
def Sys2Proof.Spec.Loaded (s t : State) (dom M : Nat) (m : MacroLoad) (e : Nat) (loc loc2 : Nat → Loc) : Prop :=
  (∀ n k, e ≤ n → n < m.nc → k < 120 →
    weight (columnOf t dom M n) k =
      (if m.int8 then sx (s.homeRead (if k < 64 then loc n else loc2 n) 64 / 2 ^ (8 * (k % 64))) 8
       else let blk : BitVec 512 := BitVec.ofNat 512 (s.homeRead (loc n) 64); portOfCode m.view (blockScale blk) (blockCode blk k) (120 * n + k))) ∧
  (∀ n, e ≤ n → n < m.nc → xbOf (columnOf t dom M n) =
    if m.int8 then 0 else (blockScale (BitVec.ofNat 512 (s.homeRead (loc n) 64))).toNat % 64) ∧
  (∀ n, m.nc ≤ n → n < 4096 → columnOf t dom M n = 0) ∧
  (∀ n, n < e → n < m.nc → columnOf t dom M n = columnOf s dom M n) ∧
  (∀ d N n, N < 4 → n < 4096 → ¬ (d = dom ∧ N = M) → columnOf t d N n = columnOf s d N n) ∧
  (∀ d N, N < 4 → t.isInt8 d N = if d = dom ∧ N = M then m.int8 else s.isInt8 d N)

/-- R251, R252, R260, R262: MLDB and MLDB.I8 of a macro that the hart holds, from a cistern, load its columns from EIDX up; in device-virtual space they trap with cause 0x07.
MACRO_REPLAY loads a restored macro from its record, from column 0; one of more columns than the domain has is zeroed, and its fault is kept for
the hart's next matrix instruction.
The model's own readings that it rests on: log 9, 82, 83. -/
def Obligations.MacroLoadResult : Prop :=
  (∀ (x : ArgsMldb) (int8 : Bool) (s : State) (loc loc2 : Nat → Loc), Quiet s = true → s.hart.len ≠ 0 →
    let h := s.hart
    let i := if int8 then Instr.mldbI8 x else Instr.mldb x
    let nc := (h.rs x.b).toNat
    let stride : Word := if h.vstride = 0 then (if int8 then 128 else 64) else h.vstride
    let m : MacroLoad := { base := h.rs x.a, stride, space := h.mspace, nc, int8, cca := h.fctl.getLsbD 6, view := h.activeView }
    holdsUnits h (BitVec.twoPow 4 x.m.toNat) 0 = true →
    (h.mspace ≠ 0 → nc ≤ 128 * s.myTile.lanes → (int8 = false → vRowlen h.activeView % 120 = 0) → ColumnsPass s s.cur m h.eidx.toNat loc loc2 →
      ∃ t, exec i s = .next t ∧ OnlyMatrix s t ∧ t.cells = s.cells ∧ Loaded s t (s.domain s.cur) x.m.toNat m h.eidx.toNat loc loc2 ∧
        t.hart = { goTo h (h.pc + 4) with replay := t.hart.replay } ∧ (SMap.find? t.hart.replay x.m.toNat).isSome = true ∧
        (∀ n, n ≠ x.m.toNat → SMap.find? t.hart.replay n = SMap.find? h.replay n)) ∧
    (h.tlvl.toNat < 2 →
      (h.mspace = 0 → ∃ t, exec i s = .next t ∧ TrapOutcome s t 0x07 0 (h.rs x.a) 0) ∧
      (h.mspace ≠ 0 → 128 * s.myTile.lanes < nc → ∃ t, exec i s = .next t ∧ TrapOutcome s t 0x04 0 (h.rs x.b) 0))) ∧
  (∀ (slot mac : Nat) (s : State) (r : BitVec 512) (loc loc2 : Nat → Loc), mac < 4 → s.wbuf = [] → s.copies = [] →
    let h := (s.slot slot).hart
    h.replaying.getLsbD mac = true → SMap.find? h.replay mac = some r → let dom := s.domain slot;
    ((replayOf r).nc ≤ 128 * (s.tile (slot / 8)).lanes → ColumnsPass s slot (replayOf r) 0 loc loc2 →
     ∃ t, exec (.macroReplay slot mac) s = .next t ∧ { t with slots := s.slots, cols := s.cols, int8 := s.int8 } = s ∧
      (∀ k, k ≠ slot → t.slot k = s.slot k) ∧ Loaded s t dom mac (replayOf r) 0 loc loc2 ∧
      (t.slot slot) = { s.slot slot with hart := { h with replaying := setB h.replaying mac false } }) ∧
    (128 * (s.tile (slot / 8)).lanes < (replayOf r).nc →
     ∃ t, exec (.macroReplay slot mac) s = .next t ∧ { t with slots := s.slots, cols := s.cols, int8 := s.int8 } = s ∧
      (∀ k, k ≠ slot → t.slot k = s.slot k) ∧
      (∀ d M n, M < 4 → n < 4096 → columnOf t d M n = if d = dom ∧ M = mac then 0 else columnOf s d M n) ∧
      (t.slot slot) = { s.slot slot with hart := { h with
        replaying := setB h.replaying mac false, macroFault := SMap.put h.macroFault mac (0x04, BitVec.ofNat 64 (replayOf r).nc) } }))

/-- a(i) of R254: the port value of a narrow element, or a signed byte, 0 where the element is not active. -/
def Sys2Proof.Spec.aValue (s : State) (int8 : Bool) (a : BitVec 6) (i : Nat) : Int :=
  if s.hart.active i then
    (if int8 then (sliceAt s 8 a i).toInt else portValue s.hart (sliceAt s 4 a i).toNat i) else 0

/-- S(k, n) of R254 for block k and the macro it uses. -/
def Sys2Proof.Spec.blockSum (s : State) (int8 : Bool) (x : ArgsMm) (k n : Nat) : Int :=
  ((List.range 120).map (fun j =>
    aValue s int8 x.a (120 * k + j) * weight (columnOf s (s.domain s.cur) (namedMacro x.k k) n) j)).sum

/-- Rk,n of R254, an exact value. -/
def Sys2Proof.Spec.blockExact (s : State) (x : ArgsMm) (k n : Nat) : FV :=
  let v := blockSum s false x k n
  .fin (decide (v < 0)) v.natAbs
    (((vScale s.hart.activeView ((s.hart.hb + k) % 16)).toNat % 64 : Nat) + (xbOf (columnOf s (s.domain s.cur) (namedMacro x.k k) n) : Int) - 76)

/-- What MMO leaves in a cell: one rounding for each block, in increasing order (R255). -/
def Sys2Proof.Spec.orderedSum (c : RCtl) (cell : Nat) (rs : List FV) : Nat × Flags :=
  rs.foldl (fun acc r => let p := addV fp32 c (fp32.val c acc.1) r; (p.1, acc.2 ||| p.2)) (cell, 0)

/-- R253, R254, R255: MMO, MMF and MMI of macros and a row that the hart holds, of the right kind, with enough macros for the blocks of VL, replace every cell of the row: MMO rounds
after each block, MMF once, MMI adds with saturation to 48 bits, which sets SAT and ISAT. Other rows, all columns and the slice file are unchanged. A unit not held traps with
cause 0x16, a macro of the other kind with 0x0D, and too few macros with 0x04. Where EIDX is not below VL, as with VL = 0, they retire and do nothing (R249, R359). -/
def Obligations.MultiplyResult : Prop :=
  ∀ (i : Instr) (x : ArgsMm) (s : State), i = .mmo x ∨ i = .mmf x ∨ i = .mmi x → i.wellFormed = true → Ready s = true →
    let int8 := decide (i = .mmi x)
    let h := s.hart
    let dom := s.domain s.cur
    let nb := (h.len + 119) / 120
    let c := rctl h.fctl
    overruns (if int8 then 8 else 4) x.a.toNat = false →
    (h.len ≤ h.eidx.toNat → exec i s = .next (s.setHart h.retire)) ∧
    (h.eidx.toNat < h.len → holdsUnits h x.k (BitVec.twoPow 16 x.d.toNat) = true → (∀ M, M < 4 → x.k.getLsbD M = true → s.isInt8 dom M = int8) → nb ≤ ones x.k →
      ∃ t, exec i s = .next t ∧ OnlyMatrix s t ∧ t.cols = s.cols ∧ t.int8 = s.int8 ∧
        t.hart = { goTo h (h.pc + 4) with fflags := t.hart.fflags, macfg := { h.macfg with isat := t.hart.macfg.isat } } ∧
        (∀ d m n, m < 16 → n < 4096 → ¬ (d = dom ∧ m = x.d.toNat) → cellOf t d m n = cellOf s d m n) ∧
        (i = .mmi x → t.hart.fflags = h.fflags ∧
          (∀ n, n < 4096 →
            let old := cellOf s dom x.d.toNat n
            let v := sats ((old.truncate 48 : BitVec 48).toInt + ((List.range nb).map (fun k => blockSum s true x k n)).sum) 48
            ((cellOf t dom x.d.toNat n).truncate 48 : BitVec 48).toInt = v.1 ∧ (cellOf t dom x.d.toNat n).getLsbD 48 = (old.getLsbD 48 || v.2) ∧
            (v.2 = true → t.hart.macfg.isat = true)) ∧
          (h.macfg.isat = true → t.hart.macfg.isat = true)) ∧
        (i ≠ .mmi x → t.hart.macfg.isat = h.macfg.isat ∧
          let new : Nat → Nat × Flags := fun n =>
            let cell := (cellOf s dom x.d.toNat n).toNat % 2 ^ 32
            let rs := (List.range nb).map (fun k => blockExact s x k n)
            if i = .mmo x then orderedSum c cell rs else addV fp32 c (fp32.val c cell) (exactTotal rs)
          (∀ n, n < 4096 →
            (cellOf t dom x.d.toNat n).toNat % 2 ^ 48 = (new n).1 ∧ (cellOf t dom x.d.toNat n).getLsbD 48 = (cellOf s dom x.d.toNat n).getLsbD 48) ∧
          (∀ b, t.hart.fflags.getLsbD b = true ↔ (h.fflags.getLsbD b = true ∨ ∃ n, n < 4096 ∧ (new n).2.getLsbD b = true)))) ∧
    (h.eidx.toNat < h.len → h.tlvl.toNat < 2 →
      (h.replaying = 0 → h.macroFault = [] → x.k &&& ~~~ h.macfg.mcl ≠ 0 ∨ h.macfg.acl.getLsbD x.d.toNat = false →
        ∃ t, exec i s = .next t ∧ TrapOutcome s t 0x16 0
          ((x.k &&& ~~~ h.macfg.mcl).zeroExtend 64 + ((BitVec.twoPow 16 x.d.toNat &&& ~~~ h.macfg.acl).zeroExtend 64 <<< 16)) 0) ∧
      (holdsUnits h x.k (BitVec.twoPow 16 x.d.toNat) = true →
        ((∃ M, M < 4 ∧ x.k.getLsbD M = true ∧ s.isInt8 dom M ≠ int8) → ∃ t, exec i s = .next t ∧ TrapOutcome s t 0x0D 0 (x.k.zeroExtend 64) 0) ∧
        ((∀ M, M < 4 → x.k.getLsbD M = true → s.isInt8 dom M = int8) → ones x.k < nb →
          ∃ t, exec i s = .next t ∧ TrapOutcome s t 0x04 0 (BitVec.ofNat 64 h.len) 0)))

/-- R256, R257: MRD writes each active element from the row's cell c0 + i in the format it names, whatever EIDX below VL, and leaves the row unchanged; with another EIDX it does nothing (R359); A_BROADCAST completes the broadcast of the next hart, in
round-robin order of slot number, whose oldest matrix instruction in flight is one. -/
def Sys2Proof.Spec.AccumulatorRead : Prop :=
  (∀ (x : ArgsMrd) (s : State), Ready s = true → s.hart.len ≤ s.hart.eidx.toNat → overruns (if x.f = 1 then 16 else if x.f = 3 then 64 else 32) x.d.toNat = false →
    exec (.mrd x) s = .next (s.setHart s.hart.retire)) ∧
  (∀ (x : ArgsMrd) (s : State), Ready s = true → s.hart.eidx.toNat < s.hart.len →
    let s0 := s.setHart { s.hart with eidx := 0 }
    let h := s.hart
    let w := if x.f = 1 then 16 else if x.f = 3 then 64 else 32
    let c0 := (h.rs x.a).toNat
    let cell : Nat → BitVec 49 := fun i => cellOf s (s.domain s.cur) x.r.toNat (c0 + i)
    let half : Nat → Nat × Flags := fun i => rndV (fmtOf h.fctl 16) (rctl h.fctl) (fp32.val (rctl h.fctl) ((cell i).toNat % 2 ^ 32))
    let whole : Nat → Int := fun i => ((cell i).truncate 48 : BitVec 48).toInt
    overruns w x.d.toNat = false → holdsUnits h 0 (BitVec.twoPow 16 x.r.toNat) = true → c0 + h.len ≤ 128 * s.myTile.lanes →
    ∃ t, exec (.mrd x) s = .next t ∧ VectorOutcome s0 t w x.d.toNat
      (fun i => match x.f.toNat with
        | 0 => (cell i).toNat % 2 ^ 32 | 1 => (half i).1 | 2 => (BitVec.ofInt 32 (sats (whole i) 32).1).toNat | _ => (BitVec.ofInt 64 (whole i)).toNat)
      (fun i => decide (2 ≤ x.f.toNat) && ((cell i).getLsbD 48 || (decide (x.f = 2) && (sats (whole i) 32).2)))
      (fun i => if x.f = 1 then (half i).2 else 0)) ∧
  (∀ (tile : Nat) (core : Bool) (s : State) (k j : Nat) (pre post : List Inflight) (f : Inflight),
    let dom := 2 * tile + (if (s.tile tile).split && core then 1 else 0)
    let at_ : Nat → Nat := fun i => 8 * tile + (SMap.get 0 s.bcast dom + i) % 8
    let waits : Nat → Bool := fun q => (s.domainSlots dom).contains q &&
      ((s.slot q).hart.inflight.find? (fun f => f.matrix)).any (fun f => f.slices == 0)
    j < 8 → k = at_ j → waits k = true → (∀ i, i < j → waits (at_ i) = false) →
    (s.slot k).hart.inflight = pre ++ f :: post → f.matrix = true → f.slices = 0 → (∀ g ∈ pre, g.matrix = false) →
    ∃ t, exec (.aBroadcast tile core) s = .next t ∧ { t with slots := s.slots, bcast := s.bcast } = s ∧ (∀ q, q ≠ k → t.slot q = s.slot q) ∧
      t.slot k = { s.slot k with hart := { (s.slot k).hart with inflight := pre ++ post } } ∧
      (∀ d, SMap.get 0 t.bcast d = if d = dom then (k + 1) % 8 else SMap.get 0 s.bcast d))

/-! ## Tasks (R53–R71) -/

/-- The status that TASKQ writes (R59, R60): the reasons in the order of the table. -/
def Sys2Proof.Spec.submitStatus (s : State) (v : Nat) : Nat :=
  let r := parseRec v
  let c := s.ctxid
  let die := State.homeDie r (State.dieOf s.cur)
  if s.legalRec c v = false then 4
  else if s.taskKnown c r.id = true then 3
  else if (s.held.filter (·.ctx == c)).length ≥ min s.myCtx.qtask.toNat 65536 then 1
  else if r.hwsrc ≠ 0xFFFFFFFF ∧ s.markOf c r.hwsrc = none ∧ s.markRoom c die = false then 5
  else if (s.held.filter (·.die == die)).length ≥ 16384 then 2
  else 0

/-- R56 to R60, R66 to R68, R71: TASKQ of a readable record writes its status, and on status 0 holds the task with its count less the credits; HWMPUB raises the mark of
its task, or makes one where there is room; GBAR arrives once at its group's phase, waits for it to complete, and writes the phase's number; a group that it is no member of
traps with cause 0x01. -/
def Obligations.TaskSubmission : Prop :=
  (∀ (x : ArgsD) (s : State) (loc : Loc) (dev : Bool), Quiet s = true → isLocal loc = true → (s.hart.rs x.a).toNat % 64 = 0 →
    s.checkSpace s.cur 0 (s.hart.rs x.a).toNat .read 64 64 true = .go loc dev →
    let h := s.hart
    let c := s.ctxid
    let v := s.homeRead loc 64
    let r := parseRec v
    let count := r.deps.toNat - s.creditOf c r.id
    ∃ t, exec (.taskq x) s = .next t ∧ (∀ k, k ≠ s.cur → t.slot k = s.slot k) ∧
      (∀ q, t.hart.rs q = if q = x.d ∧ x.d ≠ 0 then BitVec.ofNat 64 (submitStatus s v) else h.rs q) ∧ t.hart = { goTo h (h.pc + 4) with s := t.hart.s } ∧
      (submitStatus s v ≠ 0 → { t with slots := s.slots } = s) ∧
      (submitStatus s v = 0 → { t with slots := s.slots, held := s.held, credits := s.credits, marks := s.marks } = s ∧
        t.held = s.held ++ [⟨c, State.homeDie r (State.dieOf s.cur), count, decide (count = 0), (if count = 0 then { r with det := r.det || s.myCtx.detm } else r)⟩] ∧
        t.credits = s.credits.filter (fun y => !(y.ctx == c && y.id == r.id)) ∧
        (r.hwsrc = 0xFFFFFFFF → t.marks = s.marks) ∧
        (r.hwsrc ≠ 0xFFFFFFFF → t.markOf c r.hwsrc = match s.markOf c r.hwsrc with
          | some m => some { m with refs := m.refs + 1 }
          | none => some ⟨c, r.hwsrc, State.homeDie r (State.dieOf s.cur), 0, false, 1⟩))) ∧
  (∀ (x : ArgsS) (s : State), Quiet s = true →
    let v : BitVec 32 := BitVec.ofNat 32 (min (s.hart.rs x.a).toNat (2 ^ 32 - 1))
    let id := s.hart.taskid
    ∃ t, exec (.hwmpub x) s = .next t ∧ { t with slots := s.slots, marks := s.marks } = s ∧ (∀ k, k ≠ s.cur → t.slot k = s.slot k) ∧
      t.hart = goTo s.hart (s.hart.pc + 4) ∧
      (match s.markOf s.ctxid id with
       | some m => if m.ended then t.marks = s.marks else t.markOf s.ctxid id = some { m with mark := BitVec.ofNat 32 (max m.mark.toNat v.toNat) }
       | none => t.marks = if s.markRoom s.ctxid (State.dieOf s.cur) then s.marks ++ [⟨s.ctxid, id, State.dieOf s.cur, v, false, 0⟩] else s.marks)) ∧
  (∀ (x : ArgsD) (s : State) (run : RunTask), Quiet s = true → s.runOf s.cur = some run → (s.slot s.cur).state = .running ∨ (s.slot s.cur).state = .waiting →
    let h := s.hart
    let c := s.ctxid
    let v := (h.rs x.a).toNat
    let writes : State → BitVec 32 → Prop := fun t p =>
      (∀ q, t.hart.rs q = if q = x.d ∧ x.d ≠ 0 then p.zeroExtend 64 else h.rs q) ∧ t.hart = { goTo h (h.pc + 4) with s := t.hart.s } ∧
      (t.slot s.cur).state = .running ∧ t.runOf s.cur = some { run with bar := none }
    (∀ g, run.bar = none → v ≤ 254 → s.group c v = some g → g.members.contains h.taskid = true →
      (g.arrived + 1 + g.ended ≠ g.members.length → ∃ t, exec (.gbar x) s = .next t ∧ t.hart = h ∧ (t.slot s.cur).state = .waiting ∧
        t.group c v = some { g with arrived := g.arrived + 1 } ∧ t.runOf s.cur = some { run with bar := some (v, g.phase) } ∧
        { t with slots := s.slots, groups := s.groups, running := s.running } = s) ∧
      (g.arrived + 1 + g.ended = g.members.length → ∃ t, exec (.gbar x) s = .next t ∧ writes t g.phase ∧
        t.group c v = some { g with arrived := 0, phase := g.phase + 1 } ∧
        (let u := s.closeHolds c v g.phase
         { t with slots := s.slots, groups := s.groups, running := s.running } = u))) ∧
    (∀ g p, run.bar = some (g, p) →
      ((s.group c g).map (·.phase) ≠ some p → ∃ t, exec (.gbar x) s = .next t ∧ writes t p ∧ { t with slots := s.slots, running := s.running } = s) ∧
      ((s.group c g).map (·.phase) = some p → ∃ t, exec (.gbar x) s = .next t ∧ t.hart = h ∧ { t with slots := s.slots } = s)) ∧
    (run.bar = none → h.tlvl.toNat < 2 → (254 < v ∨ s.group c v = none ∨ ∃ g, s.group c v = some g ∧ g.members.contains h.taskid = false) →
      ∃ t, exec (.gbar x) s = .next t ∧ TrapOutcome s t 0x01 0 (h.rs x.a) 0))

/-- What the scheduler of a context holds that a decrement changes: the held tasks, the credits and the surplus count. -/
structure Sys2Proof.Spec.Counts where
  held : List Held
  credits : List Credit
  surplus : Word

/-- R61, R62, R75: one decrement of task d of context c. A pending task counts down, and at 0 stands last in the ready queues, with DET set if the context's DETM is; one for
a task that is ready or running counts in the surplus; one for any other task becomes a credit, or must wait (none) while the quota is full. -/
def Sys2Proof.Spec.decrementOnce (s : State) (c : BitVec 6) (x : Counts) (d : BitVec 32) : Option Counts :=
  let mine : Held → Bool := fun y => y.ctx == c && y.rc.id == d
  match x.held.find? mine with
  | some e =>
    some (if e.ready = true ∨ e.count = 0 then { x with surplus := x.surplus + 1 }
      else if e.count = 1 then { x with held := x.held.filter (fun y => !mine y) ++
        [{ e with count := 0, ready := true, rc := { e.rc with det := e.rc.det || (s.ctx c).detm } }] }
      else { x with held := x.held.map (fun y => if mine y = true then { y with count := y.count - 1 } else y) })
  | none =>
    if s.running.any (fun r => r.ctx == c && r.rc.id == d) = true then some { x with surplus := x.surplus + 1 }
    else if min (s.ctx c).qcred.toNat 64 ≤ ((x.credits.filter (fun y => y.ctx == c)).map (fun y => y.count)).sum then none
    else if x.credits.any (fun y => y.ctx == c && y.id == d && y.count != 0) = true then
      some { x with credits := x.credits.map (fun y => if y.ctx = c ∧ y.id = d then { y with count := y.count + 1 } else y) }
    else some { x with credits := x.credits ++ [⟨c, d, 1⟩] }

/-- A group after one more of its members has ended (R66, R67): where every member has arrived or ended its phase completes. -/
def Sys2Proof.Spec.endedMember (id : BitVec 32) (g : Group) : Group :=
  let y := { g with ended := g.ended + 1, gone := addNew id g.gone }
  if y.arrived + y.ended = y.members.length then { y with arrived := 0, phase := y.phase + 1 } else y

/-- R334, R69: the holds of the phases that the end of the task completes are applied, group by group, to the memory as `u` has it. -/
def Sys2Proof.Spec.closedPhases (s : State) (c : BitVec 6) (l : List Nat) (u : State) : State :=
  l.foldl (fun u g => match s.group c g with
    | some y => if y.arrived + (y.ended + 1) = y.members.length then u.closeHolds c g y.phase else u
    | none => u) u

/-- R55, R61, R62, R66, R67, R69, R70, R71, R212, R334: TASKEND of a task that holds nothing takes the context's next completion number, stores it at SEQ where there is one, makes the task's mark
final and gives up its reference to its source's mark, counts an ended member in each of its groups, which completes phases and applies what they hold, decrements its dependents, detaches its channels and closes
those that have ended, and frees or arms the slot. A decrement that must wait for a credit leaves the slot as it is until one is freed. While another TASKEND of the context waits for the store of its number, TASKEND waits; in a trap handler or while the task holds a claim, a
stream, a binding or a participation it traps with cause 0x01.
The model's own readings that it rests on: log 26, 94, 111. -/
def Obligations.TaskEndResult : Prop :=
  (∀ (s : State) (run : RunTask), Quiet s = true → s.runOf s.cur = some run → (s.slot s.cur).ending = false → s.hart.pwait = none →
    s.hart.tlvl = 0 → taskHolds s = false → run.rc.groupList.Nodup → run.ended = 0 →
    let h := s.hart
    let c := s.ctxid
    let n := s.myCtx.cseq + 1
    let v := s.slot s.cur
    let mine : RunTask → Bool := fun q => q.ctx == c && q.rc.id == run.rc.id
    let start : Counts := ⟨s.held, s.credits, s.myCtx.surplus⟩
    let named := (fun (o : Option Counts) d => o.bind fun x => decrementOnce s c x d)
    let closed : Nat → Bool := fun ch => h.handles.any (fun p => p.2 == ch) &&
      (s.chan ch).any (fun x => x.state == .ended || x.state == .faulted)
    let retired : State → State → Counts → Prop := fun t u x =>
      t.ctx c = { s.myCtx with cseq := n, surplus := x.surplus } ∧ (∀ d, d ≠ c → t.ctx d = s.ctx d) ∧ t.held = x.held ∧ t.credits = x.credits ∧
      t.marks = (s.marks.map (fun m =>
        let a := if m.ctx = c ∧ m.producer = run.rc.id then { m with ended := true } else m
        if run.rc.hwsrc ≠ 0xFFFFFFFF ∧ m.ctx = c ∧ m.producer = run.rc.hwsrc then { a with refs := a.refs - 1 } else a)).filter (fun m => !(m.ended && m.refs == 0)) ∧
      (∀ g, t.group c g = (s.group c g).map (fun y => if g ∈ run.rc.groupList then endedMember run.rc.id y else y)) ∧
      (let w := closedPhases s c run.rc.groupList u; t.hbm = w.hbm ∧ t.cis = w.cis ∧ t.host = w.host ∧ t.holds = w.holds)
    let ended : State → State → Prop := fun t u =>
      (∀ x, run.rc.dependents.foldl named (some start) = some x →
        retired t u x ∧ t.running = (s.running.filter (fun q => !mine q)).map (fun q => { q with kept := q.kept.filter (fun ch => !closed ch) }) ∧
        t.slot s.cur = { v with
          state := (if v.mode ≠ 0 ∧ v.once = false then .armed else .free), mode := (if v.once then 0 else v.mode)
          pre := false, halt := false, step := false, busy := false, yielded := false, ending := false, reload := none
          hart := { h with handles := [], word := none, mid := false, queue := [], want := none, accs := [] } } ∧
        (∀ k, k ≠ s.cur → t.slot k = { s.slot k with hart := { (s.slot k).hart with
          handles := (s.slot k).hart.handles.filter (fun p => !closed p.2), pwait := (t.slot k).hart.pwait } }) ∧
        (∀ ch, t.chan ch = if closed ch then none
          else if h.handles.any (fun p => p.2 == ch) then (s.chan ch).map (fun x => { x with detached := true }) else s.chan ch)) ∧
      (∀ x d e, run.rc.dependents = d ++ [e] → d.foldl named (some start) = some x → decrementOnce s c x e = none →
        retired t u x ∧ t.running = s.running.map (fun q => if mine q = true then { q with num := n, ended := d.length } else q) ∧
        t.slot s.cur = { v with ending := true } ∧ (∀ k, k ≠ s.cur → t.slot k = s.slot k) ∧ t.chans = s.chans)
    (completing s = true → ∃ t, exec .taskend s = .next t ∧ OnlyHart s t ∧ t.hart = h) ∧
    (completing s = false → run.rc.seq = 0 → ∃ t, exec .taskend s = .next t ∧ ended t s) ∧
    (∀ loc dev, completing s = false → run.rc.seq ≠ 0 → isLocal loc = true → s.checkSpace s.cur 0 run.rc.seq.toNat .write 8 8 true = .go loc dev →
      ∃ t, exec .taskend s = .next t ∧ ended t (s.homeWrite loc 8 n.toNat))) ∧
  (∀ s : State, (s.slot s.cur).ending = false → (s.hart.tlvl = 1 ∨ (s.hart.tlvl = 0 ∧ taskHolds s = true)) →
    ∃ t, exec .taskend s = .next t ∧ TrapOutcome s t 0x01 0 ((wordOf .taskend).zeroExtend 64) 0)

/-- R63: slot k, which pops from die d, may take the held task y from the queue of priority q. -/
def Sys2Proof.Spec.MayTake (s : State) (k d q : Nat) (y : Held) : Prop :=
  y.ready = true ∧ y.die = d ∧ y.rc.prio.toNat = q ∧ y.ctx = (s.slot k).ctx ∧
  (y.rc.aff = 2 → y.rc.target.toNat = k / 8) ∧ (y.rc.aff = 3 → y.rc.target.toNat = k / 384) ∧
  (d ≠ k / 384 → y.rc.det = false ∧ (y.rc.aff = 0 ∨ y.rc.aff = 1))

/-- R63: the entry that an ARMED slot's pop takes by itself: the oldest that it may take of the one queue of MODE 01, or of the first queue of MODE 10,
from PRIO down, that holds such an entry. `pre` are the older entries held. -/
def Sys2Proof.Spec.Takes (s : State) (k d : Nat) (pre : List Held) (y : Held) (post : List Held) : Prop :=
  let v := s.slot k
  s.held = pre ++ y :: post ∧ v.die.toNat = d ∧ MayTake s k d y.rc.prio.toNat y ∧ (∀ z ∈ pre, ¬ MayTake s k d y.rc.prio.toNat z) ∧
  ((v.mode = 1 ∧ y.rc.prio = v.prio) ∨
   (v.mode = 2 ∧ y.rc.prio ≤ v.prio ∧ ∀ q, y.rc.prio.toNat < q → q ≤ v.prio.toNat → ∀ z ∈ s.held, ¬ MayTake s k d q z))

/-- R65: the hart that a popped task starts with on a slot whose last context was `last`. -/
def Sys2Proof.Spec.startedHart (h : Hart) (last : Option (BitVec 6)) (y : Held) : Hart :=
  let kept : Hart := if last = some y.ctx then h else
    { h with s := [], z := [], hidden := [], m := [], v := [], tvec := 0, tsave := 0, dirty := 0, vlg := [] }
  let set : Hart :=
    { kept with
      pc := y.rc.entry, eidx := 0, tlvl := 0, taskarg := y.rc.arg, taskid := y.rc.id, hwsrc := y.rc.hwsrc.zeroExtend 64
      vl := 0, vstride := 0, vmsel := 0, mspace := 0, view := 0, fctl := 0, fflags := 0, vsatm := 7, detf := false
      vcount := 0, strmf := 0, macfg := { h.macfg with isat := false }, bank1 := {}, bank2 := {}, instret := 0
      sFE := BitVec.allOnes 64, zFE := BitVec.allOnes 64, mFE := BitVec.allOnes 8, handles := [], binds := [], replay := []
      inflight := [], passed := 0, convoy := false, pwait := none, abnd := false, macroFault := [], replaying := 0, pendCr := none
      pcMark := 0, qtail := none, word := none, mid := false, queue := [], want := none, accs := [] }
  (set.ws 1 y.rc.arg).ws 2 (y.rc.id.zeroExtend 64)

/-- R64: the slots that `p` names, in the order in which the queues of die d serve them: the slots of die d, then the others, each by slot number. -/
def Sys2Proof.Spec.inOrder (d : Nat) (p : Nat → Bool) : List Nat :=
  (List.range 1536).filter (fun k => k / 384 == d && p k) ++ (List.range 1536).filter (fun k => k / 384 != d && p k)

/-- R64: the pops of one queue in one cycle, in turn: each takes the oldest entry still left to it; the slots that found none. -/
def Sys2Proof.Spec.popsOf (d q : Nat) (l : List Nat) (s : State) : State × List Nat :=
  l.foldl (fun p k => match oldest p.1 k d q with
    | some y => (startTask k d y p.1, p.2)
    | none => (p.1, p.2 ++ [k])) (s, [])

/-- R63, R64: one cycle at the queues of die d, from priority 7 down: first the slots that selected the queue, then the MODE 10 slots passed down to it. -/
def Sys2Proof.Spec.cycleAt (d : Nat) (s : State) : State × List Nat :=
  [7, 6, 5, 4, 3, 2, 1, 0].foldl (fun p q =>
    let r := popsOf d q (inOrder d (fun k => selected s k == some (d, q)) ++ inOrder d (fun k => p.2.contains k)) p.1
    (r.1, r.2.filter (fun k => (s.slot k).mode == 2))) (s, [])

/-- R53, R54, R61 to R65: POP is one cycle at the queues of a die: an ARMED slot of a READY tile that pops alone takes the oldest eligible task of its queue, which starts with every register
as R65 says, and nothing else changes; one to which no entry is eligible stays as it is; several pop in the order of R64. A write of the bind fields is accepted, or rejected with
ERR and ECODE; ERR_CLEAR clears ERR; a freed credit lets the context's stalled channels go on.
The model's own readings that it rests on: log 3, 81, 96, 109, 110. -/
def Obligations.SlotTableResult : Prop :=
  (∀ (k d : Nat) (y : Held) (pre post : List Held) (s : State), k < 1536 → d < 4 → (s.slot k).state = .armed → (∀ j, j ≠ k → (s.slot j).state ≠ .armed) →
    s.fnReady (k / 8) = true → Takes s k d pre y post →
    let v := s.slot k
    exec (.pop d) s = .next (startTask k d y s) ∧
    (let t := startTask k d y s
     { t with slots := s.slots, held := s.held, running := s.running, copies := s.copies } = s ∧ (∀ j, j ≠ k → t.slot j = s.slot j) ∧ Refreshed s t k ∧
      t.held = s.held.filter (fun z => !(z.ctx == y.ctx && z.rc.id == y.rc.id)) ∧
      t.running = s.running ++ [{ ctx := y.ctx, slot := k, rc := y.rc, bar := none, ended := 0, issued := 0, was := .running, kept := [], num := 0 }] ∧
      t.slot k = { v with
        state := .running, task := y.rc.id, taskCtx := y.ctx, lastctx := some y.ctx, ndisp := v.ndisp + 1
        nsteal := (if d = k / 384 then v.nsteal else v.nsteal + 1), mode := (if v.once then 0 else v.mode), simg := none
        pre := false, halt := false, step := false, busy := false, yielded := false, ending := false, reload := none
        hart := startedHart v.hart v.lastctx y })) ∧
  (∀ (d : Nat) (s : State), (∀ k, k < 1536 → (s.slot k).state = .armed → s.fnReady (k / 8) = true → (s.slot k).mode ≠ 0 →
      ∀ q, q ≤ (s.slot k).prio.toNat → ∀ y ∈ s.held, ¬ MayTake s k d q y) → exec (.pop d) s = .next s) ∧
  (∀ (d : Nat) (s : State), d < 4 → exec (.pop d) s = .next (cycleAt d s).1) ∧
  (∀ (slot : Nat) (v : BitVec 16) (s : State), slot < 1536 →
    let w := s.slot slot
    let mode : BitVec 2 := v.extractLsb' 0 2
    let c : BitVec 6 := v.extractLsb' 2 6
    let n := (s.slots.filter (fun p => boundTo' s c p.1)).length
    let e : BitVec 4 := if mode = 3 then 2 else if (s.ctx c).res = false then 3
      else if mode ≠ 0 ∧ boundTo' s c slot = false ∧ (s.ctx c).qslot.toNat ≤ n then 1 else 0
    ∃ t, exec (.slotBindWrite slot v) s = .next t ∧ { t with slots := s.slots } = s ∧ (∀ j, j ≠ slot → t.slot j = s.slot j) ∧
      t.slot slot = if e ≠ 0 then { w with err := true, ecode := e }
        else { w with
          mode := mode, ctx := c, prio := v.extractLsb' 8 3, die := v.extractLsb' 11 2, once := v.getLsbD 13, err := false, ecode := 0
          state := if w.state = .free ∧ mode ≠ 0 ∧ s.fnReady (slot / 8) = true then .armed else if w.state = .armed ∧ mode = 0 then .free else w.state }) ∧
  (∀ (slot : Nat) (s : State), ∃ t, exec (.errClear slot) s = .next t ∧ { t with slots := s.slots } = s ∧ (∀ j, j ≠ slot → t.slot j = s.slot j) ∧
    t.slot slot = { s.slot slot with err := false }) ∧
  (∀ (ctx : Nat) (s : State), s.slots.all (fun p => !(p.2.ending && p.2.taskCtx == BitVec.ofNat 6 ctx)) = true →
    s.owed.all (fun o => o.1 != BitVec.ofNat 6 ctx) = true →
    ∃ t, exec (.creditFreed ctx) s = .next t ∧ { t with chans := s.chans } = s ∧
      (∀ n, t.chan n = (s.chan n).map (fun x => if x.ctx = BitVec.ofNat 6 ctx then { x with stall := false } else x)))

/-! ## Pump instructions (R210–R240) -/

/-- The status of an open, 0 when it succeeds (R235): the reasons in the order of the table. -/
def Sys2Proof.Spec.openStatus (s : State) (d : Nat) : Nat :=
  if legalDescriptor d = false then 0x101
  else if (List.range 16).all (fun i => (SMap.find? s.hart.handles i).isSome) = true then 0x102
  else if (s.chans.filter (fun p => p.2.ctx == s.ctxid)).length ≥ min s.myCtx.qchan.toNat 512 then 0x103
  else if freeChannel s (bits d 360 8) = none then 0x104
  else if wellGranted s s.ctxid (bits d 256 64) (bits d 320 32) = false then 0x105
  else 0

/-- R214: where the list of channel x holds command n; an address outside 64 bits lies where nothing is present. -/
def Sys2Proof.Spec.listAddr (x : Channel) (n : Nat) : Nat :=
  let a := x.lbase + 32 * ((n - x.origin) % x.lsize)
  if a < 2 ^ 64 then a else 2 ^ 63

/-- R214: y keeps, of channel x, the commands lo … hi − 1 as their slots in local memory hold them now, whatever an access of them must wait for, and of the others those that the list can still hold. The model's choice: log 99. -/
def Sys2Proof.Spec.Latched (s : State) (c : Nat) (x : Channel) (lo hi : Nat) (y : Channel) : Prop :=
  ∀ n, SMap.find? y.cmds n =
    let kept := if hi ≤ n + x.lsize then SMap.find? x.cmds n else none
    if lo ≤ n ∧ n < hi then
      match s.untimed.checkVirtual (192 + c / 16) x.ctx (listAddr x n) .read 32 32 true with
      | .go (.peer _ _) _ => kept
      | .go loc _ => some (BitVec.ofNat 256 (s.homeRead loc 32))
      | _ => kept
    else kept

/-- R213, R234, R235: PGO of a readable descriptor writes its status, or takes the lowest free handle and a free channel that begins at its descriptor, QUEUED, all counts 0; PGO of a tail
raises TAIL within the list, or writes 0x106. -/
def Sys2Proof.Spec.ChannelOpen : Prop :=
  (∀ (x : ArgsD) (s : State) (loc : Loc) (dev : Bool), Quiet s = true → isLocal loc = true → (s.hart.rs x.a).toNat % 64 = 0 →
    s.checkSpace s.cur 0 (s.hart.rs x.a).toNat .read 64 64 true = .go loc dev →
    let h := s.hart
    let d := s.homeRead loc 64
    (openStatus s d ≠ 0 → (bits d 360 8 < 32 → s.fnFailed (208 + bits d 360 8) = false) →
      ∃ t, exec (.pgoOpen x) s = .next t ∧ ScalarOutcome s t x.d (BitVec.ofNat 64 (openStatus s d)) 0) ∧
    (openStatus s d = 0 → ∃ t n c, exec (.pgoOpen x) s = .next t ∧ { t with slots := s.slots, chans := s.chans, fresh := s.fresh } = s ∧
      (∀ k, k ≠ s.cur → t.slot k = s.slot k) ∧
      n < 16 ∧ SMap.find? h.handles n = none ∧ (∀ i, i < n → (SMap.find? h.handles i).isSome = true) ∧ s.chan c = none ∧ c < 512 ∧
      (bits d 360 8 ≠ 0xFF → c / 16 = bits d 360 8) ∧
      (∀ q, t.hart.rs q = if q = x.d ∧ x.d ≠ 0 then BitVec.ofNat 64 n else h.rs q) ∧
      t.hart = { goTo h (h.pc + 4) with s := t.hart.s, handles := t.hart.handles } ∧
      (∀ i, SMap.find? t.hart.handles i = if i = n then some c else SMap.find? h.handles i) ∧
      (∀ i, i ≠ c → t.chan i = s.chan i) ∧
      ∃ y, t.chan c = some y ∧ y.ctx = s.ctxid ∧ y.state = .queued ∧ y.lbase = bits d 0 64 ∧ y.lsize = bits d 64 32 ∧ y.tail = bits d 96 32 ∧ y.next = 0 ∧
        y.seqaddr = bits d 128 64 ∧ y.seq = BitVec.ofNat 64 (bits d 192 64) ∧ y.wbase = bits d 256 64 ∧ y.wsize = bits d 320 32 ∧ y.esz = bits d 352 8 ∧
        y.total = bits d 384 64 ∧ y.win = bits d 448 32 ∧ y.landed = 0 ∧ y.rel = 0 ∧ y.run = [] ∧ Latched s c { y with cmds := [] } 0 y.tail y)) ∧
  (∀ (x : ArgsT) (s : State) (c : Nat) (ch : Channel), (Instr.pgoTail x).wellFormed = true → Quiet s = true →
    resolveRef s (s.hart.rs x.a).toNat = some c → s.chan c = some ch → s.fnFailed (208 + c / 16) = false → 
    let n := (s.hart.rs x.b).toNat
    let ok := n < 2 ^ 32 ∧ n ≤ ch.head + ch.lsize
    ∃ t, exec (.pgoTail x) s = .next t ∧ { t with slots := s.slots, chans := s.chans } = s ∧ (∀ k, k ≠ s.cur → t.slot k = s.slot k) ∧
      (∀ q, t.hart.rs q = if q = x.d ∧ x.d ≠ 0 then (if ok then 0 else 0x106) else s.hart.rs q) ∧
      t.hart = { goTo s.hart (s.hart.pc + 4) with s := t.hart.s } ∧
      (∀ i, i ≠ c ∨ ¬ ok → t.chan i = s.chan i) ∧
      (ok → ∃ y, t.chan c = some y ∧ y = { ch with tail := max ch.tail n, cmds := y.cmds } ∧ Latched s c ch ch.tail n y))

/-- The channel reference of a pump instruction (R234). -/
def Sys2Proof.Spec.refRow : Instr → Option (BitVec 6)
  | .pgoTail x => some x.a
  | .pbind x => some x.a
  | .prel x => some x.a
  | .pwait x => some x.a
  | .pstat x => some x.a
  | .phalt x => some x.a
  | _ => none

/-- The channel as PHALT leaves it (R227, R240): what it has issued has landed, and it is HALTED unless it is ENDED or FAULTED. -/
def Sys2Proof.Spec.halted (ch : Channel) : Channel :=
  { ch with landed := ch.sent, state := if ch.state = .ended ∨ ch.state = .faulted then ch.state else .halted }

/-- R228, R230, R233, R234, R236 to R241, R400, R420: PBIND and PUNBIND bind and unbind a stream; PREL, PWAIT and PSTAT release, wait for and read the counts and status of a channel, in deterministic mode with the
replacements of R400; PHALT closes a channel and returns its final count to itself and to the PWAITs on it, which trap instead where the channel is FAULTED. A bad reference, a refused binding, an excess release,
a bound channel and a wait on a FAULTED one trap with cause 0x11, a wait past the declared total with 0x14; the channel of a FAILED pump is a lasting error (R408).
The model's own readings that it rests on: log 3, 48. -/
def Sys2Proof.Spec.ChannelUse : Prop :=
  (∀ (i : Instr) (a : BitVec 6) (s : State), refRow i = some a → i.wellFormed = true → (∀ x, i = .pbind x → overruns (widthOf x.w) x.d.toNat = false) →
    Ready s = true → s.hart.pwait = none → resolveRef s (s.hart.rs a).toNat = none → s.hart.tlvl.toNat < 2 →
    ∃ t, exec i s = .next t ∧ TrapOutcome s t 0x11 0 (s.hart.rs a) 0) ∧
  (∀ (i : Instr) (a : BitVec 6) (s : State) (c : Nat), refRow i = some a → i.wellFormed = true → (∀ x, i = .pbind x → overruns (widthOf x.w) x.d.toNat = false) →
    Ready s = true → s.hart.pwait = none → resolveRef s (s.hart.rs a).toNat = some c → (s.chan c).isSome = true → s.fnFailed (208 + c / 16) = true →
    ∃ t, exec i s = .next t ∧ Killed { s with funcs := t.funcs, fresh := s.fresh + 1 } t s.ctxid 4) ∧
  (∀ (x : ArgsPb) (s : State) (c : Nat) (ch : Channel), (Instr.pbind x).wellFormed = true → s.hart.allFull = true → overruns (widthOf x.w) x.d.toNat = false →
    resolveRef s (s.hart.rs x.a).toNat = some c → s.chan c = some ch → s.fnFailed (208 + c / 16) = false → 
    (bindRefused s x.k.toNat (widthOf x.w) x.d.toNat c ch = false →
      ∃ t, exec (.pbind x) s = .next t ∧ OnlyHart s t ∧ t.hart = { goTo s.hart (s.hart.pc + 4) with binds := t.hart.binds, strmf := t.hart.strmf } ∧
        (∀ j, j < 16 → t.hart.strmf.getLsbD j = (s.hart.strmf.getLsbD j || decide (j = x.k.toNat ∧ ch.final = some ch.rel))) ∧
        ∀ k, SMap.find? t.hart.binds k =
          if k = x.k.toNat then some { slice := x.d.toNat, wcode := x.w, chan := c, d := ch.rel, c := ch.rel } else SMap.find? s.hart.binds k) ∧
    (bindRefused s x.k.toNat (widthOf x.w) x.d.toNat c ch = true → s.hart.tlvl.toNat < 2 →
      ∃ t, exec (.pbind x) s = .next t ∧ TrapOutcome s t 0x11 0 (BitVec.ofNat 64 (0x200 + x.k.toNat)) 0)) ∧
  (∀ (k : BitVec 3) (s : State), s.hart.inflight = [] → ∃ t, exec (.punbind k) s = .next t ∧ OnlyHart s t ∧
    t.hart = { goTo s.hart (s.hart.pc + 4) with binds := t.hart.binds, strmf := t.hart.strmf } ∧
    (∀ j, SMap.find? t.hart.binds j = if j = k.toNat then none else SMap.find? s.hart.binds j) ∧
    (∀ j, j < 16 → t.hart.strmf.getLsbD j =
      (s.hart.strmf.getLsbD j && !((SMap.find? s.hart.binds k.toNat).isSome && (j == k.toNat || j == 8 + k.toNat))))) ∧
  (∀ (x : ArgsQ) (s : State) (c : Nat) (ch : Channel), s.hart.allFull = true → resolveRef s (s.hart.rs x.a).toNat = some c → s.chan c = some ch → s.fnFailed (208 + c / 16) = false → 
    let n := ch.rel + (s.hart.rs x.b).toNat
    (n ≤ ch.arr → isBound s c = false → ∃ t, exec (.prel x) s = .next t ∧
      { t with slots := s.slots, chans := s.chans, hbm := s.hbm, cis := s.cis, host := s.host, wbuf := s.wbuf, copies := s.copies } = s ∧
      (∀ b ∈ t.wbuf, b ∈ s.wbuf ∧ ¬ (b.slot = s.cur ∧ ch.touched ch.rel n b = true)) ∧ (s.wbuf = [] → { t with slots := s.slots, chans := s.chans } = s) ∧
      (∀ k, k ≠ s.cur → t.slot k = s.slot k) ∧ t.hart = goTo s.hart (s.hart.pc + 4) ∧ (∀ i, t.chan i = if i = c then some { ch with rel := n } else s.chan i)) ∧
    (ch.arr < n ∨ isBound s c = true → s.hart.tlvl.toNat < 2 → ∃ t, exec (.prel x) s = .next t ∧ TrapOutcome s t 0x11 0 (ch.status c) 0)) ∧
  (∀ (x : ArgsT) (s : State) (c : Nat) (ch : Channel), s.hart.allFull = true → s.hart.pwait = none ∨ s.hart.pwait = some ⟨c, none, none⟩ →
    resolveRef s (s.hart.rs x.a).toNat = some c → s.chan c = some ch → s.fnFailed (208 + c / 16) = false → 
    let want := (s.hart.rs x.b).toNat
    let back := if detmSeen s then min ch.arr want else ch.arr
    let reached := want ≤ ch.arr ∨ ch.state = .ended ∨ ch.state = .halted
    (ch.state ≠ .faulted → (ch.aovr = true → ch.arep = true) → reached → ∃ t, exec (.pwait x) s = .next t ∧ OnlyHart { s with copies := t.copies } t ∧
      (∀ c, c ∈ t.copies ↔ c ∈ s.copies ∧ c.holder ≠ .hart s.cur ∧ c.holder ≠ .early s.cur) ∧
      (∀ q, t.hart.rs q = if q = x.d ∧ x.d ≠ 0 then BitVec.ofNat 64 back else s.hart.rs q) ∧
      t.hart = { goTo s.hart (s.hart.pc + 4) with s := t.hart.s, pwait := none, detf := s.hart.detf || (detmSeen s && back != ch.arr) }) ∧
    (ch.state ≠ .faulted → (ch.aovr = true → ch.arep = true) → ¬ reached → exec (.pwait x) s = .next (s.setHart { s.hart with pwait := some ⟨c, none, none⟩ })) ∧
    (ch.state = .faulted → s.hart.tlvl.toNat < 2 → ∃ t, exec (.pwait x) s = .next t ∧ TrapOutcome s t 0x11 0 (ch.status c) 0) ∧
    (ch.state ≠ .faulted → ch.aovr = true → ch.arep = false → s.hart.tlvl.toNat < 2 →
      ∃ t, exec (.pwait x) s = .next t ∧ TrapOutcome (s.setChan c { ch with arep := true }) t 0x14 0 (BitVec.ofNat 64 ch.arr) 0)) ∧
  (∀ (x : ArgsT) (s : State) (w : PWaiting), s.hart.allFull = true → s.hart.pwait = some w →
    (∀ f, w.final = some f → w.broke = none → ∃ t, exec (.pwait x) s = .next t ∧
      let back := if detmSeen s then min f (s.hart.rs x.b).toNat else f
      OnlyHart { s with copies := t.copies } t ∧ (∀ q, t.hart.rs q = if q = x.d ∧ x.d ≠ 0 then BitVec.ofNat 64 back else s.hart.rs q) ∧
      t.hart = { goTo s.hart (s.hart.pc + 4) with s := t.hart.s, pwait := none, detf := s.hart.detf || (detmSeen s && back != f) }) ∧
    (∀ v, w.broke = some v → s.hart.tlvl.toNat < 2 → ∃ t, exec (.pwait x) s = .next t ∧ TrapOutcome s t 0x11 0 v 0)) ∧
  (∀ (x : ArgsK) (s : State) (c : Nat) (ch : Channel), (Instr.pstat x).wellFormed = true → s.hart.allFull = true →
    resolveRef s (s.hart.rs x.a).toNat = some c → s.chan c = some ch → s.fnFailed (208 + c / 16) = false → 
    let hidden := detmSeen s = true ∧ x.b ≠ 6 ∧ ch.state ≠ .ended ∧ ch.state ≠ .halted ∧ ch.state ≠ .faulted
    let v : Word := match x.b.toNat with
      | 0 => ch.status c | 1 => BitVec.ofNat 64 ch.arr | 2 => BitVec.ofNat 64 ch.rel | 3 => ch.seq | 4 => BitVec.ofNat 64 ch.head
      | 5 => BitVec.ofNat 64 ch.tail | _ => ch.fcmd.zeroExtend 64
    ∃ t, exec (.pstat x) s = .next t ∧ OnlyHart { s with copies := t.copies } t ∧
      (∀ c, c ∈ t.copies ↔ c ∈ s.copies ∧ (x.b = 1 → ¬ hidden → c.holder ≠ .hart s.cur ∧ c.holder ≠ .early s.cur)) ∧
      (∀ q, t.hart.rs q = if q = x.d ∧ x.d ≠ 0 then (if hidden then 0 else v) else s.hart.rs q) ∧
      t.hart = { goTo s.hart (s.hart.pc + 4) with s := t.hart.s, detf := s.hart.detf || decide hidden }) ∧
  (∀ (x : ArgsD) (s : State) (c : Nat) (ch : Channel), s.hart.allFull = true → s.hart.pwait = none → resolveRef s (s.hart.rs x.a).toNat = some c → s.chan c = some ch → s.fnFailed (208 + c / 16) = false → 
    (isBound s c = true → s.hart.tlvl.toNat < 2 → ∃ t, exec (.phalt x) s = .next t ∧ TrapOutcome s t 0x11 0 (ch.status c) 0) ∧
    (isBound s c = false →
      let n := (halted ch).arr
      let told : PWaiting → PWaiting := fun w =>
        if w.chan = c ∧ w.final = none ∧ w.broke = none then
          (if ch.state = .faulted then { w with broke := some ((halted ch).status c) } else { w with final := some n })
        else w
      ∃ t, exec (.phalt x) s = .next t ∧ { t with slots := s.slots, chans := s.chans, net := s.net, running := s.running } = s ∧
        (∀ i, t.chan i = if i = c then none else s.chan i) ∧ t.running = s.running.map (fun r => { r with kept := r.kept.filter (fun i => i != c) }) ∧
        (∀ q, t.hart.rs q = if q = x.d ∧ x.d ≠ 0 then BitVec.ofNat 64 n else s.hart.rs q) ∧
        t.hart = { goTo s.hart (s.hart.pc + 4) with s := t.hart.s, handles := s.hart.handles.filter (fun p => p.2 != c) } ∧
        (∀ k, k ≠ s.cur → t.slot k = { s.slot k with hart := { (s.slot k).hart with
          handles := (s.slot k).hart.handles.filter (fun p => p.2 != c), pwait := (s.slot k).hart.pwait.map told } })))

/-- From h to g the performed elements below `lim` of an integer instruction hold their results, with their saturation bits, flags and tags (R79, R106, R107). -/
def Sys2Proof.Spec.PerformedBelow (h g : Hart) (w : Nat) (d : BitVec 6) (lim : Nat) (val : Nat → Nat) (sat : Nat → Bool) (fl : Nat → Flags) : Prop :=
  let done : Nat → Bool := fun j => performed h j && decide (j < lim)
  let x := if anyIn (performed h) 0 lim = true then h.touch (slicesOf w d.toNat) h.len else h
  g = { h with z := g.z, dirty := x.dirty, vlg := x.vlg, m := g.m, fflags := g.fflags } ∧
  (∀ j, g.row j = if done j = true then putElem (h.row j) w d.toNat (val j) else h.row j) ∧
  (∀ n j, j < 1024 → (g.rm n).getLsbD j = ((h.rm n).getLsbD j || decide (n = h.vsatm.toNat ∧ done j = true ∧ sat j = true))) ∧
  (∀ k, g.fflags.getLsbD k = true ↔ (h.fflags.getLsbD k = true ∨ ∃ j, done j = true ∧ (fl j).getLsbD k = true))

/-- R224, R226, R231, R232, R233: an instruction that reads A from the well of channel `ch`, as binding k, from element D of the stream on: once D + VL elements have arrived it performs all its elements, and D, C and REL become D + VL and END[k] is set at the final count. Before, an element-wise one performs the groups that have
arrived and waits at the next, or at a FAULTED channel traps there with cause 0x11; past the final count F it performs the elements below F − D and traps with cause 0x0F, EIDX F − D, TVAL k; a reduction waits, or traps with EIDX 0, with nothing performed. An unreported overrun traps with cause 0x14 and is reported. Nothing is consumed by
one that stops.
The model's own readings that it rests on: log 3, 88. -/
def Sys2Proof.Spec.StreamReadResult : Prop :=
  ∀ (k : Nat) (b : StreamBind) (ch : Channel) (s : State), s.hart.binds = [(k, b)] → Ready (s.setHart { s.hart with binds := [] }) = true → s.wbuf = [] →
    s.chan b.chan = some ch → k < 8 → 0 < s.hart.len → 8 * 2 ^ ch.esz = b.width →
    let h := s.hart
    let w := b.width
    let e := h.eidx.toNat
    let group := (ch.arr - b.d) / 64 * 64
    let elem : Nat → Nat := fun j => s.homeRead (.cis (ch.wbase + (b.d + j) * 2 ^ ch.esz % ch.wsize)) (2 ^ ch.esz)
    let reported := ch.aovr = true → ch.arep = true
    let consumed : State → State := fun u => (u.setHart { u.hart with
      binds := [(k, { b with d := b.d + h.len, c := b.d + h.len })]
      strmf := if ch.final = some (b.d + h.len) then h.strmf ||| BitVec.twoPow 16 k else h.strmf }).setChan b.chan { ch with rel := b.d + h.len }
    (∀ (i : Instr) (r : IntRow), intRow i = some r → i.wellFormed = true → r.x.f ≠ 3 → widthOf r.x.w = w → r.x.a.toNat = b.slice → overruns w r.x.a.toNat = false → overruns w r.x.d.toNat = false →
      (slicesOf w b.slice &&& slicesOf w r.x.d.toNat) = 0 → (r.x.f = 0 → overruns w r.x.b.toNat = false ∧ (slicesOf w b.slice &&& slicesOf w r.x.b.toNat) = 0) →
      let A : Nat → BitVec w := fun j => BitVec.ofNat w (elem j)
      let B : Nat → BitVec w := secondAt s r.x.f r.shift w r.x.b
      let val : Nat → Nat := fun j => (r.val w (A j) (B j) (sliceAt s w r.x.d j)).toNat
      let sat : Nat → Bool := fun j => r.sat w (A j) (B j)
      let fl : Nat → Flags := fun j => if r.divides = true ∧ B j = 0 then fDZ else 0
      let part : Hart → Nat → Prop := fun g lim => PerformedBelow h g w r.x.d lim val sat fl
      (r.divides = true → h.fctl.getLsbD 5 = true → ∀ j, performed h j = true → B j ≠ 0) → h.tlvl.toNat < 2 →
      (reported → b.d + h.len ≤ ch.arr → ∃ t u, exec i s = .next t ∧ VectorOutcome s u w r.x.d.toNat val sat fl ∧ t = consumed u) ∧
      (reported → ch.arr < b.d + h.len → e < h.len →
        (∀ f, ch.final = some f → f < b.d + h.len → ∃ t g, exec i s = .next t ∧ part g (f - b.d) ∧ TrapOutcome (s.setHart g) t 0x0F (max e (f - b.d)) (BitVec.ofNat 64 k) 0) ∧
        (ch.final = none → ch.state ≠ .faulted → ∃ g, exec i s = .next (s.setHart { g with eidx := BitVec.ofNat 11 (max e group) }) ∧ part g group) ∧
        (ch.final = none → ch.state = .faulted → ∃ t g, exec i s = .next t ∧ part g group ∧ TrapOutcome (s.setHart g) t 0x11 (max e group) (ch.status b.chan) 0)) ∧
      (¬ reported → e < h.len → ∃ t, exec i s = .next t ∧
        TrapOutcome ((s.setChan b.chan { ch with arep := true }).setHart { h with strmf := h.strmf ||| BitVec.twoPow 16 (8 + k) }) t 0x14 e (BitVec.ofNat 64 ch.arr) 0)) ∧
    (∀ (i : Instr) (x : ArgsR) (v : State → Word), reduceRow i = some (x, v) → i.wellFormed = true → widthOf x.w = w → x.a.toNat = b.slice → overruns w x.a.toNat = false →
      reported → ch.arr < b.d + h.len → e < h.len → h.tlvl.toNat < 2 →
      (∀ f, ch.final = some f → ∃ t, exec i s = .next t ∧ TrapOutcome s t 0x0F 0 (BitVec.ofNat 64 k) 0) ∧
      (ch.final = none → ch.state ≠ .faulted → exec i s = .next s) ∧
      (ch.final = none → ch.state = .faulted → ∃ t, exec i s = .next t ∧ TrapOutcome s t 0x11 0 (ch.status b.chan) 0))

/-! ## Exchange instructions (R264–R298) -/

/-- The hart has joined the round in slot k, and has not left it. -/
def Sys2Proof.Spec.InRound (s : State) (k : Nat) (r : Round) (p : Participant) : Prop := SMap.find? s.rounds k = some r ∧ r.mine s = some p

/-- From s to t only the executing hart and round slot k change; the slot then holds `r` (FREE for none). -/
def Sys2Proof.Spec.OnlyRound (s t : State) (k : Nat) (r : Option Round) : Prop :=
  { t with slots := s.slots, rounds := s.rounds } = s ∧ (∀ j, j ≠ s.cur → t.slot j = s.slot j) ∧ { t.slot s.cur with hart := s.hart } = s.slot s.cur ∧
  (∀ j, SMap.find? t.rounds j = if j = k then r else SMap.find? s.rounds j)

/-- The hart takes an exchange trap: cause 0x10, EIDX 0, TVAL the code, the slot and the detail (R295). -/
def Sys2Proof.Spec.ExchangeTrapped (s t : State) (code slot detail : Nat) : Prop :=
  TrapOutcome s t 0x10 0 (BitVec.ofNat 64 (code + 2 ^ 8 * slot + 2 ^ 16 * detail)) 0

/-- An exchange trap of an instruction that names no slot: the spec leaves the slot field of TVAL open (log 51). -/
def Sys2Proof.Spec.SlotlessTrapped (s t : State) (code detail : Nat) : Prop :=
  ∃ slot, slot < 256 ∧ ExchangeTrapped { s with fresh := s.fresh + 1 } t code slot detail

/-- R295: the trap that an instruction meets in a FAULTED round: the round's own code where the hart's stream raised 0x06, else 0x0B with that code. -/
def Sys2Proof.Spec.FaultedTrapped (s t : State) (k : Nat) (r : Round) (p : Participant) : Prop :=
  if p.broke = true then ExchangeTrapped s t r.code k r.detail else ExchangeTrapped s t 0x0B k r.code

/-- The register that names the round slot, in each instruction that has one (R270). -/
def Sys2Proof.Spec.slotRow : Instr → Option (BitVec 6)
  | .xsort x => some x.b
  | .xsend x => some x.b
  | .xclose x => some x.a
  | .xrecv x => some x.b
  | .xdone x => some x.a
  | .xsplit x => some x.b
  | .xwait x => some x.a
  | .xsamp x => some x.a
  | _ => none

/-- The hart writes v to s[d] and retires. -/
def Sys2Proof.Spec.writesTo (s t : State) (d : BitVec 6) (v : Word) : Prop :=
  (∀ q, t.hart.rs q = if q = d ∧ d ≠ 0 then v else s.hart.rs q) ∧ t.hart = { goTo s.hart (s.hart.pc + 4) with s := t.hart.s }

/-- R270 to R272, R276, R277, R287, R295, R296: XOPEN of a legal descriptor makes its round in the lowest free slot, or joins the JOINING round of that descriptor, and writes the slot's number;
while a round of that RID is in another state it waits, and its exchange faults 0x01 to 0x05 change nothing. XSEND
queues a run, XCLOSE closes the stream, XRECV binds a well, XDONE leaves a round that is COMPLETE or FAULTED, which is FREE when all have left. Every instruction that names a slot that the hart has
not joined, be it FREE or another's, traps with code 0x0E; in a FAULTED round XSORT, XSEND, XCLOSE, XSPLIT and XWAIT trap with its code or with 0x0B once their own checks have passed.
The model's own readings that it rests on: log 3, 50, 51, 56, 84. -/
def Obligations.RoundMembership : Prop :=
  (∀ (x : ArgsD) (s : State), Quiet s = true →
    let addr := s.hart.rs x.a
    (addr.toNat % 64 ≠ 0 → s.hart.tlvl.toNat < 2 → ∃ t, exec (.xopen x) s = .next t ∧ TrapOutcome s t 0x05 0 addr 0) ∧
    (addr.toNat % 64 = 0 → s.fnFailed 240 = false → s.fnReady 240 = false → exec (.xopen x) s = .next s) ∧
    (addr.toNat % 64 = 0 → s.fnReady 240 = true → ∀ cause wl, s.checkSpace s.cur 0 addr.toNat .read 64 64 true = .bad cause wl → s.hart.tlvl.toNat < 2 →
      ∃ t, exec (.xopen x) s = .next t ∧ TrapOutcome s t cause 0 addr wl)) ∧
  (∀ (x : ArgsD) (s : State) (loc : Loc) (dev : Bool), Quiet s = true → isLocal loc = true → (s.hart.rs x.a).toNat % 64 = 0 → s.fnReady 240 = true →
    s.checkSpace s.cur 0 (s.hart.rs x.a).toNat .read 64 64 true = .go loc dev →
    let desc : BitVec 512 := BitVec.ofNat 512 (s.homeRead loc 64)
    let me : Participant := { slot := s.cur, task := s.hart.taskid, tile := s.cur / 8 }
    let member := s.memberOf s.ctxid s.hart.taskid (bits desc.toNat 32 8) = true
    let quota := min 16 s.myCtx.qround.toNat ≤ (s.rounds.filter (fun p => p.2.ctx == s.ctxid)).length
    let lower := s.hart.tlvl.toNat < 2
    (legalRound s s.ctxid desc = false → lower → ∃ t, exec (.xopen x) s = .next t ∧ SlotlessTrapped s t 3 0) ∧
    (legalRound s s.ctxid desc = true →
      (sameRid s s.ctxid desc = none →
        (quota → lower → ∃ t, exec (.xopen x) s = .next t ∧ SlotlessTrapped s t 2 0) ∧
        (¬ quota → lower → (∀ j, j < 16 → (SMap.find? s.rounds j).isSome = true) → ∃ t, exec (.xopen x) s = .next t ∧ SlotlessTrapped s t 1 0) ∧
        (∀ k, ¬ quota → k < 16 → SMap.find? s.rounds k = none → (∀ j, j < k → (SMap.find? s.rounds j).isSome = true) →
          (member → ∃ t, exec (.xopen x) s = .next t ∧ OnlyRound s t k (some { ctx := s.ctxid, desc := desc, parts := [me] }) ∧ writesTo s t x.d (BitVec.ofNat 64 k)) ∧
          (¬ member → lower → ∃ t, exec (.xopen x) s = .next t ∧ ExchangeTrapped s t 5 k (s.cur / 8)))) ∧
      (∀ k r, sameRid s s.ctxid desc = some (k, r) →
        let joins := member ∧ ∀ p ∈ r.parts, p.task ≠ s.hart.taskid ∧ p.tile ≠ s.cur / 8
        (r.state ≠ .joining → exec (.xopen x) s = .next s) ∧
        (r.state = .joining → r.desc ≠ desc → lower → ∃ t, exec (.xopen x) s = .next t ∧ ExchangeTrapped s t 4 k 0) ∧
        (r.state = .joining → r.desc = desc → joins →
          ∃ t, exec (.xopen x) s = .next t ∧ OnlyRound s t k (some { r with parts := r.parts ++ [me] }) ∧ writesTo s t x.d (BitVec.ofNat 64 k)) ∧
        (r.state = .joining → r.desc = desc → ¬ joins → lower → ∃ t, exec (.xopen x) s = .next t ∧ ExchangeTrapped s t 5 k (s.cur / 8))))) ∧
  (∀ (i : Instr) (q : BitVec 6) (s : State), slotRow i = some q → i.wellFormed = true → (∀ x, i = .xsplit x → overruns 16 x.d.toNat = false) →
    s.hart.allFull = true → s.hart.inflight = [] → (¬ ∃ r p, InRound s ((s.hart.rs q).toNat % 16) r p) → s.hart.tlvl.toNat < 2 →
    ∃ t, exec i s = .next t ∧ ExchangeTrapped s t 0x0E ((s.hart.rs q).toNat % 16) 0) ∧
  (∀ (s : State) (r : Round) (p : Participant) (k : Nat), s.hart.allFull = true → s.hart.inflight = [] → InRound s k r p → r.state = .faulted → s.hart.tlvl.toNat < 2 →
    let faults : Instr → Prop := fun i => ∃ t, exec i s = .next t ∧ FaultedTrapped s t k r p
    let run : BitVec 6 → Acc → Prop := fun a acc =>
      let v := (s.hart.rs a).toNat
      let n := v / 2 ^ 32 % 2 ^ 12
      n ≤ 2048 ∧ v % 2 ^ 21 + n * r.RS ≤ 2 ^ 21 ∧ rangeGranted s s.ctxid (s.cur / 8) (v % 2 ^ 21) (n * r.RS) acc = true ∧ v % 2 ^ 21 % 8 = 0
    (∀ x : ArgsT, (s.hart.rs x.b).toNat % 16 = k → run x.a .atomic → faults (.xsort x)) ∧
    (∀ x : ArgsT, (s.hart.rs x.b).toNat % 16 = k → run x.a .read → p.closed = false → faults (.xsend x)) ∧
    (∀ x : ArgsS, (s.hart.rs x.a).toNat % 16 = k → faults (.xclose x)) ∧
    (∀ x : ArgsT, (s.hart.rs x.b).toNat % 16 = k → (Instr.xsplit x).wellFormed = true → overruns 16 x.d.toNat = false →
      overruns (if r.kw then 64 else 32) x.a.toNat = false → faults (.xsplit x)) ∧
    (∀ x : ArgsT, (s.hart.rs x.a).toNat % 16 = k → (s.hart.rs x.b).toNat / 2 ^ 62 ≠ 3 → faults (.xwait x))) ∧
  (∀ (x : ArgsT) (s : State) (r : Round) (p : Participant), Quiet s = true →
    let v := s.hart.rs x.a
    let k := (s.hart.rs x.b).toNat % 16
    let off := v.toNat % 2 ^ 21
    let n := v.toNat / 2 ^ 32 % 2 ^ 12
    InRound s k r p → off + n * r.RS ≤ 2 ^ 21 → rangeGranted s s.ctxid (s.cur / 8) off (n * r.RS) .read = true → off % 8 = 0 →
    (p.closed = false → n ≤ 2048 → r.state ≠ .faulted →
      ∃ t, exec (.xsend x) s = .next t ∧
        (if 8 ≤ p.runs.length then OnlyRound s t k (some r) ∧ writesTo s t x.d 1
         else OnlyRound s t k (some (r.mapPart p.tile (fun q => { q with runs := q.runs ++ [(off, n, 0)] }))) ∧ writesTo s t x.d 0)) ∧
    (p.closed = true → s.hart.tlvl.toNat < 2 → ∃ t, exec (.xsend x) s = .next t ∧ ExchangeTrapped s t 7 k 0) ∧
    (p.closed = false → 2048 < n → s.hart.tlvl.toNat < 2 → ∃ t, exec (.xsend x) s = .next t ∧ ExchangeTrapped s t 0x0F k n)) ∧
  (∀ (x : ArgsS) (s : State), s.hart.allFull = true →
    let k := (s.hart.rs x.a).toNat % 16
    (∀ r p, InRound s k r p → r.state ≠ .faulted →
      ∃ t, exec (.xclose x) s = .next t ∧ OnlyRound s t k (some (r.mapPart p.tile (fun q => { q with closed := true }))) ∧ t.hart = goTo s.hart (s.hart.pc + 4)) ∧
    (∀ r p, InRound s k r p → (p.closed = true ∨ r.state = .faulted) →
      (r.state = .complete ∨ r.state = .faulted →
        let r1 := r.mapPart p.tile (fun q => { q with left := true })
        ∃ t, exec (.xdone x) s = .next t ∧ Refreshed s t s.cur ∧ OnlyRound { s with copies := t.copies } t k (if r1.parts.all (·.left) then none else some r1) ∧ t.hart = goTo s.hart (s.hart.pc + 4)) ∧
      (r.state = .joining ∨ r.state = .opened → exec (.xdone x) s = .next s)) ∧
    (∀ r p, InRound s k r p → p.closed = false → r.state ≠ .faulted → s.hart.tlvl.toNat < 2 → ∃ t, exec (.xdone x) s = .next t ∧ ExchangeTrapped s t 0x0D k 0)) ∧
  (∀ (x : ArgsQ) (s : State) (r : Round) (p : Participant), s.hart.allFull = true →
    let v := s.hart.rs x.a
    let k := (s.hart.rs x.b).toNat % 16
    let off := v.toNat % 2 ^ 21
    let n := 64 * (v.toNat / 2 ^ 32 % 2 ^ 16)
    InRound s k r p → off + n ≤ 2 ^ 21 → rangeGranted s s.ctxid (s.cur / 8) off n .write = true → off % 64 = 0 →
    (p.well = none → r.state = .joining → ∃ t, exec (.xrecv x) s = .next t ∧
      OnlyRound s t k (some (r.mapPart p.tile (fun q => { q with well := some (off, n) }))) ∧ t.hart = goTo s.hart (s.hart.pc + 4)) ∧
    (p.well.isSome = true ∨ r.state ≠ .joining → s.hart.tlvl.toNat < 2 → ∃ t, exec (.xrecv x) s = .next t ∧ ExchangeTrapped s t 0x0C k 0))

/-- R271, R273 to R275, R288, R292, R293, R400: XSORT sorts a run stably by key, and folds equal keys when asked; XSPLIT writes each active key's bucket; XWAIT waits for the counts it names and returns
them, in deterministic mode with the replacements of R400; XSAMP stores the sample image; XRBAL stores 255 splitters chosen from the sorted keys.
The model's own readings that it rests on: log 3, 51, 52, 53, 84. -/
def Obligations.RoundData : Prop :=
  (∀ (x : ArgsT) (s : State) (r : Round) (p : Participant), Quiet s = true →
    let v := s.hart.rs x.a
    let k := (s.hart.rs x.b).toNat % 16
    let off := v.toNat % 2 ^ 21
    let n := v.toNat / 2 ^ 32 % 2 ^ 12
    let base := s.cur / 8 * 2 ^ 21 + off
    let recs := (List.range n).map (fun i => s.homeRead (.cis (base + i * r.RS)) r.RS)
    let ofKey : Nat → List Nat → List Nat := fun κ l => l.filter (fun y => r.keyOf y == κ)
    let folds := (s.hart.rs x.b).getLsbD 4 = true ∧ r.comb ≠ 1
    InRound s k r p → n ≤ 2048 → off + n * r.RS ≤ 2 ^ 21 → rangeGranted s s.ctxid (s.cur / 8) off (n * r.RS) .atomic = true → off % 8 = 0 → r.state ≠ .faulted →
    ∃ t out fl, exec (.xsort x) s = .next t ∧ { t with cis := s.cis, rounds := s.rounds, slots := s.slots } = s ∧ (∀ j, j ≠ s.cur → t.slot j = s.slot j) ∧
      SMap.find? t.rounds k = some { r with fl := r.fl ||| fl } ∧ (∀ j, j ≠ k → SMap.find? t.rounds j = SMap.find? s.rounds j) ∧
      writesTo s t x.d ((v &&& 0xFFFFF000FFFFFFFF) ||| (BitVec.ofNat 64 (List.length out) <<< 32)) ∧
      List.Pairwise (fun a b => r.keyOf a ≤ r.keyOf b) out ∧
      (¬ folds → fl = 0 ∧ ∀ κ, ofKey κ out = ofKey κ recs) ∧
      (folds → ∀ κ, ofKey κ out = match ofKey κ recs with
        | [] => []
        | a :: l => [l.foldl (fun acc y => acc % 2 ^ 64 + 2 ^ 64 * (r.combinePay (acc / 2 ^ 64) (y / 2 ^ 64)).1) a]) ∧
      (∀ i y, out[i]? = some y → t.homeRead (.cis (base + i * r.RS)) r.RS = y % 256 ^ r.RS) ∧
      (∀ a, (a < base ∨ base + out.length * r.RS ≤ a) → SMap.get 0 t.cis a = SMap.get 0 s.cis a)) ∧
  (∀ (x : ArgsT) (s : State) (r : Round) (p : Participant), (Instr.xsplit x).wellFormed = true → Ready s = true →
    let wk := if r.kw then 64 else 32
    InRound s ((s.hart.rs x.b).toNat % 16) r p → overruns 16 x.d.toNat = false → overruns wk x.a.toNat = false →
    (r.state = .opened ∨ r.state = .complete → ∃ t, exec (.xsplit x) s = .next t ∧
      VectorOutcome s t 16 x.d.toNat (fun j => (r.splitters.filter (fun y => decide (y ≤ (sliceAt s wk x.a j).toNat))).length) (fun _ => false) (fun _ => 0)) ∧
    (r.state = .joining → exec (.xsplit x) s = .next s)) ∧
  (∀ (x : ArgsT) (s : State) (r : Round) (p : Participant), s.hart.allFull = true → s.sched.late = false →
    let v := s.hart.rs x.b
    let n := v.toNat % 2 ^ 32
    let sel := v.toNat / 2 ^ 62
    let det := detmSeen s
    let both : Nat → Nat → Word := fun w u => BitVec.ofNat 64 (w % 2 ^ 32 + u % 2 ^ 32 * 2 ^ 32)
    let writes : State → Word → Word → Prop := fun t raw shown =>
      let y := if det then shown else raw
      OnlyHart { s with copies := t.copies } t ∧ (∀ q, t.hart.rs q = if q = x.d ∧ x.d ≠ 0 then y else s.hart.rs q) ∧
      t.hart = { goTo s.hart (s.hart.pc + 4) with s := t.hart.s, detf := s.hart.detf || (det && shown != raw) }
    InRound s ((s.hart.rs x.a).toNat % 16) r p →
    (sel = 3 → ∃ t, exec (.xwait x) s = .next t ∧ t.copies = s.copies ∧ writes t r.status (if r.state = .complete ∨ r.state = .faulted then r.status else 0)) ∧
    (r.state ≠ .faulted →
      (sel = 0 → (n ≤ p.w + p.u ∨ p.final = true) → ∃ t, exec (.xwait x) s = .next t ∧ Refreshed s t s.cur ∧
        writes t (both p.w p.u) (both (min p.w n) (min p.u (n - min p.w n)))) ∧
      (sel = 0 → p.w + p.u < n → p.final = false → exec (.xwait x) s = .next s) ∧
      (sel = 1 → (n ≤ p.read ∨ p.closeRead = true) → ∃ t, exec (.xwait x) s = .next t ∧ Refreshed s t s.cur ∧ writes t (BitVec.ofNat 64 p.read) (BitVec.ofNat 64 (min p.read n))) ∧
      (sel = 1 → p.read < n → p.closeRead = false → exec (.xwait x) s = .next s) ∧
      (sel = 2 → r.state = .complete → ∃ t, exec (.xwait x) s = .next t ∧ Refreshed s t s.cur ∧ writes t (both p.w p.u) (both p.w p.u)) ∧
      (sel = 2 → r.state ≠ .complete → exec (.xwait x) s = .next s))) ∧
  (∀ (x : ArgsT) (s : State) (r : Round) (p : Participant) (loc : Nat → Loc) (dev : Nat → Bool), Quiet s = true →
    let base := s.hart.rs x.b
    let m := 136 + (sampleKeys r).length
    InRound s ((s.hart.rs x.a).toNat % 16) r p → base.toNat % 64 = 0 → base.toNat + 8 * m ≤ 2 ^ 64 →
    (∀ j, j < m → s.checkSpace s.cur 0 (base.toNat + 8 * j) .write 8 8 true = .go (loc j) (dev j) ∧ isLocal (loc j) = true) →
    ∃ t, exec (.xsamp x) s = .next t ∧ OnlyHartAndMemory s t ∧ writesTo s t x.d (BitVec.ofNat 64 (sampleKeys r).length) ∧
      Stored s t (fun j => decide (j < m)) 8 loc (sampleWord r)) ∧
  (∀ (x : ArgsT) (s : State) (l0 : Loc) (src dst : Nat → Loc), Quiet s = true →
    let a := (s.hart.rs x.a).toNat
    let b := (s.hart.rs x.b).toNat
    let n := s.homeRead l0 8 % 2 ^ 32
    let ok : Nat → Acc → Loc → Prop := fun addr acc l => (∃ dev, s.checkSpace s.cur 0 addr acc 8 8 true = .go l dev) ∧ isLocal l = true
    a % 64 = 0 → b % 64 = 0 → a + 1088 + 8 * n < 2 ^ 64 → b + 2048 < 2 ^ 64 → ok a .read l0 → 1 ≤ n → n ≤ 4096 →
    (∀ j, j < n → ok (a + 1088 + 8 * j) .read (src j)) → (∀ j, j < 256 → ok (b + 8 * j) .write (dst j)) →
    ∃ t sorted, exec (.xrbal x) s = .next t ∧ OnlyHartAndMemory s t ∧ writesTo s t x.d (BitVec.ofNat 64 n) ∧
      List.Perm sorted ((List.range n).map (fun j => s.homeRead (src j) 8)) ∧ List.Pairwise (· ≤ ·) sorted ∧
      Stored s t (fun j => decide (j < 256)) 8 dst (fun j => if j < 255 then sorted.getD ((j + 1) * n / 256) 0 else 0))

/-! ## Traps, kills and contexts (R337–R363) -/

/-- R339, R342, R343, R358, R359: ECALL traps with cause 0x12, TVAL s[a], TEPC the next instruction; BKPT with cause 0x13, TVAL its number, TEPC its own address, or halts its slot under HALTBK; at
trap level 2 the context is killed instead, reason 1. TRET returns to min(PLVL, n − 1) with the bank's PC and EIDX; at level 0 it traps with cause 0x01.
That a slot halted at a BKPT keeps its PC there is the model's own reading: log 30. -/
def Obligations.TrapEntryAndReturn : Prop :=
  ∀ s : State, s.hart.tlvl.toNat ≤ 2 →
    (∀ x : ArgsS, s.hart.allFull = true →
      (s.hart.tlvl.toNat < 2 → ∃ t, exec (.ecall x) s = .next t ∧ TrapTaken s t 0x12 0 (s.hart.rs x.a) 0 (s.hart.pc + 4)) ∧
      (s.hart.tlvl = 2 → ∃ t, exec (.ecall x) s = .next t ∧ Killed s t s.ctxid 1)) ∧
    (∀ b : BitVec 6,
      ((s.slot s.cur).haltbk = false → s.hart.tlvl.toNat < 2 → ∃ t, exec (.bkpt b) s = .next t ∧ TrapTaken s t 0x13 0 (b.zeroExtend 64) 0 s.hart.pc) ∧
      ((s.slot s.cur).haltbk = false → s.hart.tlvl = 2 → ∃ t, exec (.bkpt b) s = .next t ∧ Killed s t s.ctxid 1) ∧
      ((s.slot s.cur).haltbk = true → s.hart.inflight = [] → (∀ r ∈ s.net.reqs, ∀ i, r.who ≠ .elem s.cur i) → ∃ t, exec (.bkpt b) s = .next t ∧ { t with slots := s.slots, copies := s.copies } = s ∧
        (∀ k, k ≠ s.cur → t.slot k = s.slot k) ∧ (∀ c, c ∈ t.copies ↔ c ∈ s.copies ∧ c.holder ≠ .early s.cur) ∧ t.slot s.cur =
          { s.slot s.cur with
            state := .halted, ret := (s.slot s.cur).state, halt := false, step := false, busy := false
            hart := { s.hart with word := none, queue := [], want := none, accs := [] } })) ∧
    (s.hart.tlvl ≠ 0 →
      let n := s.hart.tlvl.toNat
      let b := s.hart.bank n
      ∃ t, exec .tret s = .next t ∧ OnlyHart s t ∧
        t.hart = { s.hart with pc := b.epc, eidx := b.eidx, tlvl := BitVec.ofNat 2 (min b.plvl.toNat (n - 1)), instret := s.hart.instret + 1 }) ∧
    (s.hart.tlvl = 0 → ∃ t, exec .tret s = .next t ∧ TrapTaken s t 0x01 0 ((wordOf .tret).zeroExtend 64) 0 s.hart.pc)

/-- R403: the records `l` stand in the ring of unit u from its WPTR on, and every other byte of the HBM is as it was. -/
def Sys2Proof.Spec.RecordsWritten (before after : SMap Byte) (u : TraceUnit) (l : List (BitVec 128)) : Prop :=
  let at_ : Nat → Nat := fun i => u.base.toNat + 16 * ((u.wptr.toNat + i) % u.size.toNat)
  (∀ i r k, l[i]? = some r → k < 16 → SMap.get 0 after (at_ i + k) = r.extractLsb' (8 * k) 8) ∧
  (∀ b, (∀ i, i < l.length → b < at_ i ∨ at_ i + 16 ≤ b) → SMap.get 0 after b = SMap.get 0 before b)

/-- R403, R406: no record has room: the ring does not wrap and is full. -/
def Sys2Proof.Spec.ringFull (u : TraceUnit) : Prop := u.wrap = false ∧ u.size.toNat ≤ u.wptr.toNat + u.buf.length

/-- R403, R406: record r is appended to a unit that buffers three at most, from the HBM `b` and the unit u to `c` and v: it is dropped and counted where there is no room, the fourth
of a group is written out with it, and any other waits. -/
def Sys2Proof.Spec.Appends (b : SMap Byte) (u : TraceUnit) (r : BitVec 128) (c : SMap Byte) (v : TraceUnit) : Prop :=
  (ringFull u → c = b ∧ v = { u with dropped := u.dropped + 1, lost := u.lost + 1 }) ∧
  (¬ ringFull u → u.buf.length < 3 → c = b ∧ v = { u with buf := u.buf ++ [r], sinceSync := u.sinceSync + 1 }) ∧
  (¬ ringFull u → u.buf.length = 3 → RecordsWritten b c u (u.buf ++ [r]) ∧ v = { u with buf := [], wptr := u.wptr + 4, sinceSync := u.sinceSync + 1 })

/-- The fields of a record but DT (R404). -/
def Sys2Proof.Spec.recordIs (r : BitVec 128) (kind info : Nat) : Prop :=
  r.extractLsb' 0 4 = BitVec.ofNat 4 kind ∧ r.extractLsb' 32 32 = BitVec.ofNat 32 info

/-- R362, R403 to R406: TRACE retires; with its unit off for the context it does nothing else. With the unit on it appends a record of kind 6 with the hart, the level, INFO b and VALUE s[a]:
after a LOST and a SYNC where records have been dropped, after a SYNC where one is due or 4,095 records stand since the last, and not at all while the ring is full, when the record is dropped
and counted. Four records are written out together. FLUSH writes the unit's buffered records to its ring and empties the buffer.
The model's own readings that it rests on: log 7, 27. -/
def Obligations.TraceResult : Prop :=
  (∀ (x : ArgsTr) (s : State), Ready s = true →
    let n := 2 * (s.cur / 8) + s.cur % 8 / 4
    let u := s.unit n
    let program : BitVec 128 → Prop := fun r => recordIs r 6 x.b.toNat ∧ r.extractLsb' 4 2 = BitVec.ofNat 2 s.cur ∧ r.extractLsb' 6 2 = s.hart.tlvl ∧
      r.extractLsb' 64 64 = s.hart.rs x.a
    (u.on s.ctxid = false → exec (.trace x) s = .next (s.setHart (goTo s.hart (s.hart.pc + 4)))) ∧
    (u.on s.ctxid = true → u.buf.length ≤ 3 → u.base.toNat + 16 * u.size.toNat ≤ 576000000000 →
      ∃ t, exec (.trace x) s = .next t ∧ { t with slots := s.slots, trace := s.trace, fresh := s.fresh, hbm := s.hbm } = s ∧ (∀ k, k ≠ s.cur → t.slot k = s.slot k) ∧
        t.hart = goTo s.hart (s.hart.pc + 4) ∧ { t.slot s.cur with hart := s.hart } = s.slot s.cur ∧ (∀ m, m ≠ n → t.unit m = s.unit m) ∧
        (ringFull u → t.hbm = s.hbm ∧ t.unit n = { u with dropped := u.dropped + 1, lost := u.lost + 1 }) ∧
        (¬ ringFull u → u.dropped = 0 → u.due = false → u.sinceSync < 4095 → ∃ r, program r ∧ Appends s.hbm u r t.hbm (t.unit n)) ∧
        (¬ ringFull u → u.dropped = 0 → (u.due = true ∨ 4095 ≤ u.sinceSync) → ∃ r0 r b v, recordIs r0 1 0 ∧ program r ∧ Appends s.hbm u r0 b v ∧
          Appends b { v with sinceSync := 0, due := false } r t.hbm (t.unit n)) ∧
        (¬ ringFull u → u.dropped ≠ 0 → ∃ r1 r0 r a w b v, recordIs r1 10 u.dropped.toNat ∧ r1.extractLsb' 64 64 = (0 : Word) ∧ recordIs r0 1 0 ∧ program r ∧ Appends s.hbm u r1 a w ∧
          Appends a { w with dropped := 0 } r0 b v ∧ Appends b { v with sinceSync := 0, due := false } r t.hbm (t.unit n)))) ∧
  (∀ (n : Nat) (s : State), n < 384 →
    let u := s.unit n
    ∃ t, exec (.flush n) s = .next t ∧ { t with trace := s.trace, hbm := s.hbm } = s ∧ (∀ m, m ≠ n → t.unit m = s.unit m) ∧
      t.unit n = { u with buf := [], wptr := u.wptr + BitVec.ofNat 32 u.buf.length } ∧
      (u.size ≠ 0 → u.buf.length ≤ u.size.toNat → u.base.toNat + 16 * u.size.toNat ≤ 576000000000 → RecordsWritten s.hbm t.hbm u u.buf))

/-- R337, R339, R340, R350, R360: CKILL of the hart's own context kills it, reason 2; of another, with SYS, it kills a resident one and writes 0, or writes 1; without SYS it traps with cause 0x02. A
write of KILL kills a resident context, reason 3. Clearing RES ends a context whose slots are FREE and queues a record of kind 4.
The model's own readings that it rests on: log 71, 75. -/
def Sys2Proof.Spec.KillAndEndResult : Prop :=
  (∀ (x : ArgsD) (s : State), Ready s = true →
    let v := s.hart.rs x.a
    let c : BitVec 6 := v.truncate 6
    let plain := v.toNat < 64 ∨ 2 ^ 64 - 64 ≤ v.toNat
    (v = BitVec.allOnes 64 ∨ (plain ∧ c = s.ctxid) → ∃ t, exec (.ckill x) s = .next t ∧ Killed s t s.ctxid 2) ∧
    (v ≠ BitVec.allOnes 64 → plain → c ≠ s.ctxid → s.myCtx.sys = true →
      ((s.ctx c).res = true → (s.ctx c).dying = false → s.occupied s.cur = true → ∃ t u, exec (.ckill x) s = .next t ∧ Killed s u c 2 ∧
        { t with slots := u.slots } = u ∧ (∀ k, k ≠ s.cur → t.slot k = u.slot k) ∧
        (∀ q, t.hart.rs q = if q = x.d ∧ x.d ≠ 0 then 0 else s.hart.rs q) ∧ t.hart = { goTo s.hart (s.hart.pc + 4) with s := t.hart.s }) ∧
      ((s.ctx c).res = false → ∃ t, exec (.ckill x) s = .next t ∧ ScalarOutcome s t x.d 1 0)) ∧
    (v ≠ BitVec.allOnes 64 → c ≠ s.ctxid → s.myCtx.sys = false → s.hart.tlvl.toNat < 2 → ∃ t, exec (.ckill x) s = .next t ∧ TrapTaken s t 0x02 0 v 0 s.hart.pc)) ∧
  (∀ (n : Nat) (s : State), n < 64 →
    let c := BitVec.ofNat 6 n
    ((s.ctx c).res = true → (s.ctx c).dying = false → ∃ t, exec (.kill n) s = .next t ∧ Killed s t c 3) ∧
    ((s.ctx c).res = false → exec (.kill n) s = .next s ∧ exec (.contextEnd n) s = .next s) ∧
    ((s.ctx c).res = true → slotsFree s c = false → exec (.contextEnd n) s = .next s) ∧
    ((s.ctx c).res = true → slotsFree s c = true → ∃ t, exec (.contextEnd n) s = .next t ∧ t.ctx c = { s.ctx c with res := false, dying := false } ∧
      (∀ d, d ≠ c → t.ctx d = s.ctx d) ∧ t.hbm = s.hbm ∧ t.cis = s.cis ∧ t.host = s.host ∧
      (∀ k, (s.slot k).mode ≠ 0 → (s.slot k).ctx = c → (t.slot k).mode = 0 ∧ (t.slot k).state = .free) ∧
      (∀ e, e ∈ t.chans ↔ e ∈ s.chans ∧ e.2.ctx ≠ c) ∧ (∀ e, e ∈ t.rounds ↔ e ∈ s.rounds ∧ e.2.ctx ≠ c) ∧ (∀ e, e ∈ t.held ↔ e ∈ s.held ∧ e.ctx ≠ c) ∧
      (∃ r : BitVec 512, t.io = { s.io with compl := s.io.compl ++ [r] } ∧ r.extractLsb' 0 32 = 4 ∧ r.extractLsb' 64 8 = c.zeroExtend 8 ∧
        r.extractLsb' 448 64 = (s.ctx c).cseq)))

/-- R361: SAVECTX writes s[a][15:0] into SCODE and, where there is an image, requests a pre-emption with the resume point PC + 4; it waits
for the hart's earlier instructions. -/
def Obligations.SaveContextResult : Prop :=
  (∀ (x : ArgsS) (s : State), Ready s = true →
    let v := s.slot s.cur
    ∃ t, exec (.savectx x) s = .next t ∧ { t with slots := s.slots } = s ∧ (∀ k, k ≠ s.cur → t.slot k = s.slot k) ∧
      t.slot s.cur = { v with
        scode := (s.hart.rs x.a).truncate 16, pre := v.pre || v.img != 0, preImg := if v.img = 0 then v.preImg else v.img
        hart := goTo s.hart (s.hart.pc + 4) }) ∧
  (∀ (x : ArgsS) (s : State), s.hart.sFull x.a = true → s.hart.inflight ≠ [] → exec (.savectx x) s = .next s)

/-! ## The management core's tables and translations (R193–R204, R299–R310, R337, R436) -/

/-- From s to t only context c changes, to `new`. -/
def Sys2Proof.Spec.OnlyCtx (s t : State) (c : BitVec 6) (new : Ctx) : Prop :=
  { t with ctxs := s.ctxs } = s ∧ ∀ d, t.ctx d = if d = c then new else s.ctx d

/-- From s to t only slot k changes, to `new`. -/
def Sys2Proof.Spec.OnlySlot (s t : State) (k : Nat) (new : Slot) : Prop :=
  { t with slots := s.slots } = s ∧ ∀ j, t.slot j = if j = k then new else s.slot j

/-- From s to t only window w changes, to `new`. -/
def Sys2Proof.Spec.OnlyWindow (s t : State) (w : Nat) (new : Window) : Prop :=
  { t with windows := s.windows } = s ∧ ∀ u, SMap.get {} t.windows u = if u = w then new else SMap.get {} s.windows u

/-- From s to t only tile n changes, to `new`. -/
def Sys2Proof.Spec.OnlyTile (s t : State) (n : Nat) (new : Tile) : Prop :=
  { t with tiles := s.tiles } = s ∧ ∀ m, t.tile m = if m = n then new else s.tile m

/-- The window entry that a written word gives, BUSY kept (R193); a grant that waited is none any more. -/
def Sys2Proof.Spec.windowWord (v : BitVec 32) (old : Window) : Window := ⟨v.extractLsb' 0 6, v.getLsbD 6, v.getLsbD 7, v.getLsbD 8, old.busy, none⟩

/-- R194: a write of VALID 1 over VALID 0, or with another CTX. -/
def Sys2Proof.Spec.Grants (old new : Window) : Prop := new.valid = true ∧ (old.valid = false ∨ old.ctx ≠ new.ctx)

/-- R194: a write that takes a right away. -/
def Sys2Proof.Spec.Revokes (old new : Window) : Prop :=
  (old.valid = true ∧ new.valid = false) ∨ (old.rd = true ∧ new.rd = false) ∨ (old.wr = true ∧ new.wr = false)

/-- R193, R194, R204: a grant of a window zeroes its 64 KiB and sets BUSY, and while its earlier scrub runs it waits; a revocation replaces the entry at once, the end of the scrub clears BUSY and makes the grant that waits; a grant of a lane table's word, or
a change of OWNER (with VALID 0 too: log 34), zeroes the tile's tables, clears CUR and sets BUSY until the zeroing ends.
The model's own readings that it rests on: log 3, 41. -/
def Sys2Proof.Spec.ManagementTables : Prop :=
  (∀ (w : Nat) (v : BitVec 32) (s : State), w < 6144 →
    let old := SMap.get {} s.windows w
    let new := windowWord v old
    (Grants old new → old.busy = true → ∃ t, exec (.windowGrant w v) s = .next t ∧ OnlyWindow s t w { old with waits := some v }) ∧
    (Grants old new → old.busy = false → (∀ b ∈ s.wbuf, ∀ a, b.loc = .cis a → a / 65536 ≠ w) → ∃ t, exec (.windowGrant w v) s = .next t ∧
      OnlyWindow { s with cis := t.cis, copies := t.copies } t w { new with busy := true } ∧
      (∀ c ∈ t.copies, c ∈ s.copies ∧ ∀ a, c.loc = .cis a → a + 64 ≤ 65536 * w ∨ 65536 * (w + 1) ≤ a) ∧
      ∀ a, SMap.get 0 t.cis a = if a / 65536 = w then 0 else SMap.get 0 s.cis a) ∧
    (¬ Grants old new → exec (.windowGrant w v) s = .next s) ∧
    (Revokes old new → ¬ Grants old new → ∃ t, exec (.windowRevoke w v) s = .next t ∧ OnlyWindow s t w new) ∧
    (old.busy = false → exec (.windowScrubEnd w) s = .next s) ∧
    (old.busy = true → old.waits = none → ∃ t, exec (.windowScrubEnd w) s = .next t ∧ OnlyWindow s t w { old with busy := false }) ∧
    (∀ v', old.busy = true → old.waits = some v' → Grants { old with busy := false } (windowWord v' { old with busy := false }) →
      (∀ b ∈ s.wbuf, ∀ a, b.loc = .cis a → a / 65536 ≠ w) → ∃ t, exec (.windowScrubEnd w) s = .next t ∧
        OnlyWindow { s with cis := t.cis, copies := t.copies } t w (windowWord v' old) ∧ ∀ a, SMap.get 0 t.cis a = if a / 65536 = w then 0 else SMap.get 0 s.cis a)) ∧
  (∀ (n : Nat) (v : BitVec 32) (s : State), n < 192 →
    let old := s.tile n
    ((v.getLsbD 8 = true ∧ old.tvalid = false) ∨ v.extractLsb' 0 6 ≠ old.owner → ∃ t, exec (.tableGrant n v) s = .next t ∧
      OnlyTile s t n { old with owner := v.extractLsb' 0 6, tvalid := v.getLsbD 8, tables := [], tcur := false, tbusy := true }) ∧
    (∃ t, exec (.tableZeroingEnd n) s = .next t ∧ OnlyTile s t n { old with tbusy := false }))

/-- R309: the walks left when one of die d's has ended: the first of the die that waits takes its walk slot. -/
def Sys2Proof.Spec.WalksAfter (d : Nat) (l m : List Walk) : Prop :=
  ((∀ y ∈ l, y.die = d → y.started = true) → m = l) ∧
  (∀ p y q, l = p ++ y :: q → (∀ z ∈ p, z.die = d → z.started = true) → y.die = d → y.started = false → m = p ++ { y with started := true } :: q)

/-- R300, R303, R308, R309, R310: GO latches the selection and sets BUSY, and is ignored while BUSY; at the end of the invalidation every selected TLB entry is gone and BUSY is clear; a
walk in flight that ends in a leaf fills an entry that later translations of every unit that missed use, one that ends absent fills none, and the next that waits takes its walk slot; a PTBASE that took effect is the context's root, retires, and drops its TLB entries.
The model's own readings that it rests on: log 42, 80. -/
def Sys2Proof.Spec.TranslationResult : Prop :=
  (∀ (v : Word) (s : State), v.getLsbD 7 = true →
    let c : BitVec 6 := v.extractLsb' 0 6
    (s.inval.going = none → exec (.go v) s = .next { s with inval := { s.inval with ctx := c, scope := v.getLsbD 6, going := some (c, v.getLsbD 6, s.inval.vpn) } }) ∧
    (s.inval.going ≠ none → exec (.go v) s = .next s)) ∧
  (∀ s : State, (s.inval.going = none → exec .invalidationEnd s = .next s) ∧
    ∀ c sc vpn, s.inval.going = some (c, sc, vpn) → ∃ t, exec .invalidationEnd s = .next t ∧
      { t with tlb := s.tlb, inval := s.inval, walked := s.walked } = s ∧ t.inval = { s.inval with going := none } ∧ (∀ w, w ∈ t.walked ↔ w ∈ s.walked ∧ w.ctx ≠ c) ∧
      ∀ e, e ∈ t.tlb ↔ e ∈ s.tlb ∧ ¬ (e.ctx = c ∧ (sc = true → e.vbase = vpn.toNat * 2 ^ 15 - vpn.toNat * 2 ^ 15 % State.leafSize e.level))) ∧
  (∀ (unit : Nat) (va : Word) (s : State) (pre post : List Walk) (w : Walk),
    let page := va.toNat / 2 ^ 15
    let asked : Walk → Prop := fun y => y.die = State.walkerOf unit ∧ y.ctx = w.ctx ∧ y.page = page ∧ y.started = true
    s.walks = pre ++ w :: post → asked w → (∀ y ∈ pre, ¬ asked y) →
    (∀ l, s.walkVa w.ctx (page * 2 ^ 15) = .leaf l → ∃ t, exec (.walk unit w.ctx.toNat va) s = .next t ∧ { t with tlb := s.tlb, walks := s.walks } = s ∧
      WalksAfter w.die (pre ++ post) t.walks ∧ (∀ u ∈ w.units, s.tlbHit u w.ctx (page * 2 ^ 15) = none → t.translate u w.ctx (page * 2 ^ 15) = .leaf l) ∧
      (∀ e ∈ t.tlb, e ∈ s.tlb ∨ (e.unit ∈ w.units ∧ e.ctx = w.ctx)) ∧ (∀ e ∈ s.tlb, e.unit ∉ w.units → e ∈ t.tlb)) ∧
    (∀ n, s.walkVa w.ctx (page * 2 ^ 15) = .absent n → ∃ t, exec (.walk unit w.ctx.toNat va) s = .next t ∧ { t with walks := s.walks, walked := s.walked } = s ∧
      WalksAfter w.die (pre ++ post) t.walks)) ∧
  (∀ (unit ctx : Nat) (va : Word) (s : State),
    (∀ y ∈ s.walks, ¬ (y.die = State.walkerOf unit ∧ y.ctx = BitVec.ofNat 6 ctx ∧ y.page = va.toNat / 2 ^ 15 ∧ y.started = true)) → exec (.walk unit ctx va) s = .next s) ∧
  (∀ (k : Nat) (v : Word) (s : State), (s.slot k).hart.pendCr = some (0x104, v) → (s.unackedWrites k = true → exec (.ptbase k) s = .next s) ∧ (s.unackedWrites k = false → (∀ b ∈ s.wbuf, b.slot ≠ k ∧ b.seen = false) →
    let c := (s.slot k).taskCtx
    ∃ t, exec (.ptbase k) s = .next t ∧ OnlySlot { s with ctxs := t.ctxs, tlb := t.tlb } t k
        { s.slot k with hart := { goTo (s.slot k).hart ((s.slot k).hart.pc + 4) with pendCr := none, word := none }, step := false
                        halt := (s.slot k).halt || (s.slot k).step, busy := (s.slot k).busy || (s.slot k).step } ∧
      (∀ d, t.ctx d = if d = c then { s.ctx c with ptValid := v.getLsbD 0, ptRoot := v.extractLsb' 15 37 } else s.ctx d) ∧
      ∀ e, e ∈ t.tlb ↔ e ∈ s.tlb ∧ e.ctx ≠ c))

/-- The bits of the 8 bytes at an offset of a context's fabric block that hold fields: the head (R368, R379), the device table (R368), the export windows (R370), the
host regions (R306), the budgets (R389). -/
def Sys2Proof.Spec.fabricFields (off : Nat) : Word :=
  if off < 0x20 then BitVec.ofNat 64 (2 ^ 37 - 1)
  else if 0x80 ≤ off ∧ off < 0x100 then BitVec.ofNat 64 ((2 ^ 17 - 1) * (2 ^ 32 + 1))
  else if 0x100 ≤ off ∧ off < 0x180 then BitVec.ofNat 64 (2 ^ 52 - 1 - (2 ^ 8 - 2 ^ 3) - 2 ^ 14)
  else if 0x200 ≤ off ∧ off % 32 < 16 then BitVec.allOnes 64
  else if 0x200 ≤ off ∧ off % 32 < 24 then BitVec.ofNat 64 (2 ^ 58 - 1)
  else 0

/-- The events that the action bits of a switch word ask for (R350), in the order in which the model performs several of one write (log 104). -/
def Sys2Proof.Spec.switchActions (k : Nat) : List (Nat × Instr) :=
  [(0, .pre k), (1, .halt k), (2, .resume k), (3, .stepSlot k), (5, .restore k), (6, .drop k)]

/-- The state after an event, which goes on. -/
def Sys2Proof.Spec.after (i : Instr) (s : State) : State := match exec i s with
  | .next t => t
  | _ => s

/-- R403: SIZE is a power of two from 256 to 2^24. -/
def Sys2Proof.Spec.LegalSize (u : TraceUnit) : Prop := ∃ e, e < 25 ∧ 8 ≤ e ∧ u.size.toNat = 2 ^ e

/-- R403, R405: tracing is turned on at unit n, whose words then are `set`: a SYNC is appended, or is due while the ring has no room. -/
def Sys2Proof.Spec.TurnedOn (s t : State) (n : Nat) (set : TraceUnit) : Prop :=
  { t with trace := s.trace, hbm := s.hbm, fresh := s.fresh } = s ∧ (∀ m, m ≠ n → t.unit m = s.unit m) ∧
  (ringFull set → t.hbm = s.hbm ∧ t.unit n = { set with due := true }) ∧
  (¬ ringFull set → ∃ r v, recordIs r 1 0 ∧ Appends s.hbm set r t.hbm v ∧ t.unit n = { v with sinceSync := 0, due := false })

/-- R53, R54, R76, R193, R204, R211, R245, R265, R300, R310, R337, R350, R356, R364, R368, R377, R403, R407, R410, R436: what a write of each management word leaves: the quota words, the context block (KILL kills, RES makes
a context resident with its counters at zero and its incarnation advanced), window, table, slot (ERR is cleared with bit 19), invalidation (GO starts one), switch (its action bits act as the events they ask for), debug, fabric, identity, ticket,
trace control and SIZE (what turns tracing on writes a SYNC, R405), status and power words; an address past them changes nothing.
The model's own readings that it rests on: log 40, 41, 74, 102, 104, 105. -/
def Obligations.RegisterWriteResult : Prop :=
  ∀ (v : Word) (s : State),
    (∀ c : BitVec 6, let x := s.ctx c
      (∃ t, exec (.registerWrite (0x19000 + 8 * c.toNat) v) s = .next t ∧ OnlyCtx s t c { x with qchan := v.truncate 10 }) ∧
      (∃ t, exec (.registerWrite (0x19200 + 8 * c.toNat) v) s = .next t ∧ OnlyCtx s t c { x with qmac := v.truncate 8 }) ∧
      (∃ t, exec (.registerWrite (0x19400 + 8 * c.toNat) v) s = .next t ∧ OnlyCtx s t c { x with qround := v.truncate 5 }) ∧
      (v.getLsbD 2 = true → x.res = true → x.dying = false → ∃ t, exec (.registerWrite (0x1B000 + 64 * c.toNat) v) s = .next t ∧ Killed s t c 3) ∧
      (x.res = false → ∃ t, exec (.registerWrite (0x1B000 + 64 * c.toNat) v) s = .next t ∧ OnlyCtx s t c
        (if v.getLsbD 0 then { x with res := true, sys := v.getLsbD 1, surplus := 0, cseq := 0, incarnation := x.incarnation + 1, launch := none }
         else { x with sys := v.getLsbD 1 })) ∧
      (v.getLsbD 2 = false → x.res = true → exec (.registerWrite (0x1B000 + 64 * c.toNat) v) s =
        if v.getLsbD 0 then .next s else exec (.contextEnd c.toNat) s) ∧
      (∃ t, exec (.registerWrite (0x1B008 + 64 * c.toNat) v) s = .next t ∧ OnlyCtx s t c { x with ptValid := v.getLsbD 0, ptRoot := v.extractLsb' 15 37 }) ∧
      (∃ t, exec (.registerWrite (0x1B010 + 64 * c.toNat) v) s = .next t ∧ OnlyCtx s t c { x with detm := v.getLsbD 0 }) ∧
      (∃ t, exec (.registerWrite (0x1B018 + 64 * c.toNat) v) s = .next t ∧ OnlyCtx s t c { x with slice := v.truncate 32 }) ∧
      (∃ t, exec (.registerWrite (0x1B020 + 64 * c.toNat) v) s = .next t ∧ OnlyCtx s t c
        { x with qtask := v.extractLsb' 0 17, qslot := v.extractLsb' 17 11, qmark := v.extractLsb' 28 13, qcred := v.extractLsb' 41 7 }) ∧
      (∀ j, 5 ≤ j → j < 8 → exec (.registerWrite (0x1B000 + 64 * c.toNat + 8 * j) v) s = .next s)) ∧
    (∀ w, w < 6144 → let old := SMap.get {} s.windows w
      let new := windowWord (v.truncate 32) old
      (Grants old new → exec (.registerWrite (0x8000 + 4 * w) v) s = exec (.windowGrant w (v.truncate 32)) s) ∧
      (¬ Grants old new → ∃ t, exec (.registerWrite (0x8000 + 4 * w) v) s = .next t ∧ OnlyWindow s t w new)) ∧
    (∀ n, n < 192 → let old := s.tile n
      ((v.getLsbD 8 = true ∧ old.tvalid = false) ∨ v.extractLsb' 0 6 ≠ old.owner → exec (.registerWrite (0x18000 + 4 * n) v) s = exec (.tableGrant n (v.truncate 32)) s) ∧
      (¬ (v.getLsbD 8 = true ∧ old.tvalid = false) → v.extractLsb' 0 6 = old.owner → ∃ t, exec (.registerWrite (0x18000 + 4 * n) v) s = .next t ∧
        OnlyTile s t n { old with tvalid := v.getLsbD 8 })) ∧
    (∀ k, k < 1536 →
      (∃ u, OnlySlot s u k { s.slot k with err := (s.slot k).err && !v.getLsbD 19 } ∧
        exec (.registerWrite (16 * k) v) s = exec (.slotBindWrite k (v.truncate 16)) u) ∧
      exec (.registerWrite (16 * k + 8) v) s = .next s ∧
      (∃ t, exec (.registerWrite (0x1C008 + 16 * k) v) s = .next t ∧ OnlySlot s t k { s.slot k with img := v &&& ~~~ 0xFFFF }) ∧
      (∃ u, OnlySlot s u k { s.slot k with haltbk := v.getLsbD 4 } ∧
        exec (.registerWrite (0x1C000 + 16 * k) v) s = .next ((switchActions k).foldl (fun t p => if v.getLsbD p.1 then after p.2 t else t) u))) ∧
    (v.getLsbD 7 = true → exec (.registerWrite 0x19600 v) s = exec (.go v) s) ∧
    (v.getLsbD 7 = false → exec (.registerWrite 0x19600 v) s = .next { s with inval := { s.inval with ctx := v.extractLsb' 0 6, scope := v.getLsbD 6 } }) ∧
    exec (.registerWrite 0x19608 v) s = .next { s with inval := { s.inval with vpn := v.truncate 36 } } ∧
    exec (.registerWrite 0x22000 v) s = .next { s with debugSlot := v.truncate 11, debugOff := v.extractLsb' 16 19 } ∧
    exec (.registerWrite 0x22008 v) s = exec (.debugData true v) s ∧
    (∀ i, i < 8192 → ∃ t, exec (.registerWrite (0x40000 + 8 * i) v) s = .next t ∧ { t with net := { t.net with fab := s.net.fab } } = s ∧
      let kept := v &&& fabricFields (8 * (i % 128))
      ∀ b, SMap.get 0 t.net.fab b = if 8 * i ≤ b ∧ b < 8 * i + 8 then kept.extractLsb' (8 * (b - 8 * i)) 8 else SMap.get 0 s.net.fab b) ∧
    exec (.registerWrite 0x50000 v) s = .next { s with net := { s.net with ident := ⟨v.extractLsb' 0 11, v.extractLsb' 11 5, v.extractLsb' 16 11⟩ } } ∧
    exec (.registerWrite 0x50010 v) s = .next { s with net := { s.net with tickets := { s.net.tickets with slots := v.extractLsb' 0 4, tklog := v.extractLsb' 4 5 } } } ∧
    (∀ n, n < 384 →
      let u := s.unit n
      let on := v.getLsbD 0
      let out := u.en = true ∧ on = false
      let set := { u with en := on, all := v.getLsbD 1, ctx := v.extractLsb' 2 6, br := v.getLsbD 8, vr := v.getLsbD 9, wrap := v.getLsbD 10 }
      let starts := on = true ∧ u.en = false ∧ LegalSize u
      let fits : TraceUnit → Prop := fun u => u.buf.length ≤ 3 ∧ u.base.toNat + 16 * u.size.toNat ≤ 576000000000
      (v.getLsbD 11 = false → ¬ starts → ∃ t, exec (.registerWrite (0x60000 + 32 * n) v) s = .next t ∧ { t with trace := s.trace, hbm := s.hbm } = s ∧ (∀ m, m ≠ n → t.unit m = s.unit m) ∧
        t.unit n = { set with buf := if out then [] else u.buf, wptr := if out then u.wptr + BitVec.ofNat 32 u.buf.length else u.wptr } ∧
        (¬ out → t.hbm = s.hbm) ∧
        (out → u.size ≠ 0 → u.buf.length ≤ u.size.toNat → u.base.toNat + 16 * u.size.toNat ≤ 576000000000 → RecordsWritten s.hbm t.hbm u u.buf)) ∧
      (v.getLsbD 11 = false → starts → fits u → ∃ t, exec (.registerWrite (0x60000 + 32 * n) v) s = .next t ∧ TurnedOn s t n set) ∧
      (v.getLsbD 11 = true → ∃ t, exec (.registerWrite (0x60000 + 32 * n) (v &&& ~~~ 0x800)) s = .next t ∧
        exec (.registerWrite (0x60000 + 32 * n) v) s = exec (.flush n) t) ∧
      (∃ t, exec (.registerWrite (0x60008 + 32 * n) v) s = .next t ∧ { t with trace := s.trace } = s ∧
        (∀ m, t.unit m = if m = n then { u with base := v &&& ~~~ 0xFFF } else s.unit m)) ∧
      (let set := { u with size := v.truncate 32 }
       let starts := u.en = true ∧ LegalSize set ∧ ¬ LegalSize u
       (¬ starts → ∃ t, exec (.registerWrite (0x60010 + 32 * n) v) s = .next t ∧ { t with trace := s.trace } = s ∧
         (∀ m, t.unit m = if m = n then set else s.unit m)) ∧
       (starts → fits set → ∃ t, exec (.registerWrite (0x60010 + 32 * n) v) s = .next t ∧ TurnedOn s t n set)) ∧
      exec (.registerWrite (0x60018 + 32 * n) v) s = .next s) ∧
    (∀ n, n < 324 → (v.extractLsb' 0 2 = 3 → (n < 241 ∨ 272 ≤ n ∨ s.rounds = []) → ∃ t, exec (.registerWrite (0x70000 + 8 * n) v) s = .next t ∧ { t with funcs := s.funcs } = s ∧
        ∀ m, t.func m = if m = n then { s.func n with state := 3, fcode := 3 } else s.func m) ∧
      (v.extractLsb' 0 2 ≠ 3 → exec (.registerWrite (0x70000 + 8 * n) v) s = .next s)) ∧
    (∀ d, d < 4 → ∃ t, exec (.registerWrite (0x71000 + 8 * d) v) s = .next t ∧ { t with power := s.power } = s ∧
      ∀ e, SMap.get {} t.power e = if e = d then { SMap.get {} s.power d with plim := v.truncate 12 } else SMap.get {} s.power e) ∧
    (∀ a, 0x71020 ≤ a → exec (.registerWrite a v) s = .next s)

/-! ## Slots from outside: requests, saves and restores, the debug port (R53–R55, R349–R356) -/

/-- R53, R55, R350, R356: PRE requests a pre-emption of an occupied slot that is not BUSY and has an image; HALT requests a halt of a RUNNING or WAITING slot; RESUME and STEP take a HALTED slot back to its
state, STEP for one instruction; DROP frees a SAVED slot; a requested halt at a stop point makes the slot HALTED; otherwise each leaves the machine as it was.
The model's own readings that it rests on: log 32. -/
def Sys2Proof.Spec.SlotRequests : Prop :=
  ∀ (k : Nat) (s : State),
    let v := s.slot k
    (v.busy = false → v.img ≠ 0 → s.occupied k = true → ∃ t, exec (.pre k) s = .next t ∧ OnlySlot s t k { v with pre := true, preImg := v.img }) ∧
    (v.busy = true ∨ v.img = 0 ∨ s.occupied k = false → exec (.pre k) s = .next s) ∧
    (v.state = .running ∨ v.state = .waiting → ∃ t, exec (.halt k) s = .next t ∧ OnlySlot s t k { v with halt := true, busy := true }) ∧
    (v.state ≠ .running → v.state ≠ .waiting → exec (.halt k) s = .next s) ∧
    (v.state = .halted → (∃ t, exec (.resume k) s = .next t ∧ OnlySlot s t k { v with state := v.ret, step := false, hart := { v.hart with abnd := false } }) ∧
      ∃ t, exec (.stepSlot k) s = .next t ∧ OnlySlot s t k { v with state := v.ret, step := true, hart := { v.hart with abnd := false } }) ∧
    (v.state ≠ .halted → exec (.resume k) s = .next s ∧ exec (.stepSlot k) s = .next s) ∧
    (v.state = .saved → v.busy = false → ∃ t, exec (.drop k) s = .next t ∧ OnlySlot s t k { v with state := .free }) ∧
    (v.state ≠ .saved ∨ v.busy = true → exec (.drop k) s = .next s) ∧
    (v.halt = true → stopPoint s k = true → ∃ t, exec (.haltStop k) s = .next t ∧ OnlySlot { s with net := t.net, copies := t.copies } t k
      { v with
        state := .halted, ret := v.state, halt := false, step := false, busy := false
        hart := { v.hart with pwait := none, qtail := none, word := none, queue := [], want := none, accs := [] } } ∧
      (∀ c, c ∈ t.copies ↔ c ∈ s.copies ∧ c.holder ≠ .early k) ∧ t.net = { s.net with reqs := t.net.reqs } ∧ ∀ r, r ∈ t.net.reqs ↔ r ∈ s.net.reqs ∧ ∀ i, r.who ≠ .elem k i) ∧
    (v.halt = false ∨ stopPoint s k = false → exec (.haltStop k) s = .next s)

/-- R356: a read of the debug data word changes nothing, nor does a write while the selected slot is not HALTED; a write at offset 8 sets its PC with bits 1:0 zero, at 0x200 + 8n scalar register n, and in the
slices' 32 KiB it sets those of sixteen nibbles of one slice that lie below VLMAX; the slice becomes DIRTY with VLG 16.
The model's own readings that it rests on: log 37, 92. -/
def Sys2Proof.Spec.DebugPort : Prop :=
  ∀ (v : Word) (s : State),
    let k := s.debugSlot.toNat
    let off := s.debugOff.toNat
    let u := s.slot k
    exec (.debugData false v) s = .next s ∧
    (u.state ≠ .halted → exec (.debugData true v) s = .next s) ∧
    (u.state = .halted → off = 8 → ∃ t, exec (.debugData true v) s = .next t ∧ OnlySlot s t k { u with hart := { u.hart with pc := v &&& ~~~ 3 } }) ∧
    (∀ n : BitVec 6, u.state = .halted → off = 0x200 + 8 * n.toNat → ∃ t, exec (.debugData true v) s = .next t ∧
      OnlySlot s t k { u with hart := { u.hart with s := (t.slot k).hart.s } } ∧
      ∀ r, (t.slot k).hart.rs r = if r = n ∧ n ≠ 0 then v else u.hart.rs r) ∧
    (u.state = .halted → 0x1000 ≤ off → off < 0x9000 → off % 8 = 0 →
      let sl := (off - 0x1000) / 512
      let e0 := (off - 0x1000) % 512 * 2
      ∃ t, exec (.debugData true v) s = .next t ∧
        OnlySlot s t k { u with hart := { u.hart with z := (t.slot k).hart.z, dirty := u.hart.dirty ||| BitVec.twoPow 64 sl, vlg := (t.slot k).hart.vlg } } ∧
        (∀ i, (t.slot k).hart.vlgOf i = if i = sl then 16 else u.hart.vlgOf i) ∧
        ∀ i e, i < 64 → (t.slot k).hart.nibble i e = if i = sl ∧ e0 ≤ e ∧ e < e0 + 16 ∧ e < (s.tile (k / 8)).vlmax then bits v.toNat (4 * (e - e0)) 4 else u.hart.nibble i e)

/-- COST of R353: 256 + ⌈(4,096 + 32 for each group of every slice that must be written + 25,088 for each held row) / 64⌉. -/
def Sys2Proof.Spec.saveCostOf (v : Slot) : Nat :=
  let slice : Nat → Nat := fun i => if v.hart.dirty.getLsbD i = true ∨ v.simg ≠ some v.img then v.hart.vlgOf i else 0
  let rows := ((List.range 16).filter (fun m => v.hart.macfg.acl.getLsbD m)).length
  256 + (4096 + 32 * ((List.range 64).map slice).sum + 25088 * rows + 63) / 64

/-- R349, R351, R352, R353, R354, R436: the end of a slice requests a pre-emption, and counts in CLAMPS when SLICE is below COST. A requested pre-emption at a stop point writes the image that IMG named when it was requested (its PC at 8, scalar n at
0x200 + 8n, the elements below VLMAX of each slice that must be written at 0x1000 + 512 i) and nothing outside its 428 KiB, releases the claims, and leaves the slot SAVED with BUSY clear.
The model's own readings that it rests on: log 3, 35, 39, 92, 93. -/
def Sys2Proof.Spec.SaveResult : Prop :=
  ∀ (k : Nat) (s : State),
    let v := s.slot k
    let c := v.taskCtx
    let x := s.ctx c
    (v.state = .running ∨ v.state = .waiting → x.slice ≠ 0 → ∃ t, exec (.timeSliceExpiry k) s = .next t ∧
      OnlySlot { s with ctxs := t.ctxs } t k { v with pre := v.pre || v.img != 0, preImg := if v.img = 0 then v.preImg else v.img } ∧
      ∀ d, t.ctx d = if d = c ∧ x.slice.toNat < saveCostOf v then { x with clamps := x.clamps + 1 } else s.ctx d) ∧
    ((v.state ≠ .running ∧ v.state ≠ .waiting) ∨ x.slice = 0 → exec (.timeSliceExpiry k) s = .next s) ∧
    (v.pre = false ∨ stopPoint s k = false → exec (.preEmption k) s = .next s) ∧
    (v.pre = true → stopPoint s k = true → (∀ i, i < 12 → s.fnReady (196 + i) = true) → v.preImg.toNat + 0x6B000 ≤ 576000000000 → (∀ b ∈ s.wbuf, b.slot ≠ k) →
      let a := v.preImg.toNat
      let saved : Nat → Prop := fun i => v.hart.dirty.getLsbD i = true ∨ v.simg ≠ some v.preImg
      ∃ t, exec (.preEmption k) s = .next t ∧
        OnlySlot { s with hbm := t.hbm, running := t.running, copies := t.copies, net := t.net } t k
          { v with
            state := .saved, ret := v.state, pre := false, halt := false, step := false, busy := false, simg := some v.preImg, yielded := false
            hart := { v.hart with
              abnd := false, dirty := 0, convoy := false, pwait := none, qtail := none, passed := 0, replaying := 0, macroFault := []
              word := none, queue := [], want := none, accs := [], macfg := { v.hart.macfg with mcl := 0, acl := 0 } } } ∧
        t.net = { s.net with reqs := t.net.reqs } ∧ (∀ r, r ∈ t.net.reqs ↔ r ∈ s.net.reqs ∧ ∀ i, r.who ≠ .elem k i) ∧
        (∀ c, c ∈ t.copies ↔ c ∈ s.copies ∧ c.holder ≠ .hart k ∧ c.holder ≠ .fetch k ∧ c.holder ≠ .early k ∧ c.holder ≠ .tile (k / 8)) ∧
        t.running = s.running.map (fun r => if r.ctx = c ∧ r.rc.id = v.hart.taskid then
          { r with was := v.state, kept := v.hart.handles.map (fun p => p.2) ++ v.hart.binds.map (fun p => p.2.chan) } else r) ∧
        (∀ b, (b < a ∨ a + 0x6B000 ≤ b) → SMap.get 0 t.hbm b = SMap.get 0 s.hbm b) ∧
        bytesAt t.hbm (a + 4) 4 = c.toNat ∧ bytesAt t.hbm (a + 8) 8 = v.hart.pc.toNat ∧ bytesAt t.hbm (a + 0x10) 4 = v.hart.eidx.toNat + 65536 * v.hart.tlvl.toNat ∧
        (∀ n : BitVec 6, bytesAt t.hbm (a + 0x200 + 8 * n.toNat) 8 = (v.hart.rs n).toNat) ∧
        (∀ m, m < 8 → bytesAt t.hbm (a + 0x400 + 128 * m) 128 = (v.hart.rm m).toNat) ∧
        (∀ i e, i < 64 → v.hart.vlgOf i ≤ 16 → saved i → e < 64 * v.hart.vlgOf i →
          bits (SMap.get 0 t.hbm (a + 0x1000 + 512 * i + e / 2)).toNat (4 * (e % 2)) 4 = if e < (s.tile (k / 8)).vlmax then v.hart.nibble i e else 0) ∧
        (∀ i b, i < 64 → ¬ saved i → a + 0x1000 + 512 * i ≤ b → b < a + 0x1200 + 512 * i → SMap.get 0 t.hbm b = SMap.get 0 s.hbm b))

/-- R79, R262, R355, R436: RESTORE is ignored while BUSY; into a slot that is neither FREE nor SAVED with that image, of a context that is not resident, with claims that do not fit, or away from the task's round, it sets REFUSED and nothing else;
otherwise the slot holds the image's task with its PC and scalars, its slices and masks empty until SLICE_RELOAD has read them from the image that IMG named then, the groups that the image's own VLG names and no element at or above VLMAX, one after the other, and is BUSY until the last.
The model's own readings that it rests on: log 3, 19, 33, 36, 92. -/
def Sys2Proof.Spec.RestoreResult : Prop :=
  ∀ (k : Nat) (s : State),
    let v := s.slot k
    let a := v.img.toNat
    let c : BitVec 6 := BitVec.ofNat 6 (bytesAt s.hbm (a + 4) 4)
    let task : BitVec 32 := BitVec.ofNat 32 (bytesAt s.hbm (a + 0x18) 4)
    let fits := v.img ≠ 0 ∧ (v.state = .free ∨ (v.state = .saved ∧ v.simg = some v.img)) ∧ (s.ctx c).res = true ∧
      claimsFit s k (imageHead s a) = true ∧ awayFromRound s k c task = false ∧ s.fnReady (State.tileOf k) = true
    let stacksReady := ∀ i, i < 12 → s.fnReady (196 + i) = true
    let vlmax := (s.tile (k / 8)).vlmax
    (v.busy = true → exec (.restore k) s = .next s) ∧
    (v.busy = false → a + 0x6B000 ≤ 576000000000 → stacksReady → ¬ fits → ∃ t, exec (.restore k) s = .next t ∧ OnlySlot s t k { v with refused := true }) ∧
    (v.busy = false → a + 0x6B000 ≤ 576000000000 → stacksReady → fits → ∃ t, exec (.restore k) s = .next t ∧
      let u := t.slot k
      t.hbm = s.hbm ∧ t.cis = s.cis ∧ t.host = s.host ∧ t.ctxs = s.ctxs ∧ t.wbuf = s.wbuf ∧ Refreshed s t k ∧
      u.taskCtx = c ∧ u.task = task ∧ u.mode = v.mode ∧ u.refused = false ∧ u.reload = some ⟨0, v.img, u.hart.vlg⟩ ∧ u.busy = true ∧ u.lastctx = some c ∧
      u.hart.pc = BitVec.ofNat 64 (bytesAt s.hbm (a + 8) 8) &&& ~~~ 3 ∧ u.hart.eidx = BitVec.ofNat 11 (bytesAt s.hbm (a + 0x10) 4) ∧ u.hart.mFE = 0 ∧ u.hart.abnd = false ∧
      (∀ n : BitVec 6, n ≠ 0 → u.hart.rs n = BitVec.ofNat 64 (bytesAt s.hbm (a + 0x200 + 8 * n.toNat) 8)) ∧
      (∀ i e, i < 64 → u.hart.nibble i e = 0) ∧ u.hart.hidden = [] ∧
      (∀ i, i < 64 → u.hart.zFE.getLsbD i = decide (u.hart.vlgOf i = 0))) ∧
    (v.reload = none → exec (.sliceReload k) s = .next s) ∧
    (∀ r, v.reload = some r → stacksReady → r.img.toNat + 0x6B000 ≤ 576000000000 →
      let b := r.img.toNat
      let groups := (SMap.get 0 r.vlg r.next).toNat
      (r.next < 64 → 0 < groups → groups ≤ 16 → ∃ t, exec (.sliceReload k) s = .next t ∧
        OnlySlot s t k { v with
          reload := some { r with next := r.next + 1 }, busy := true
          hart := { v.hart with z := (t.slot k).hart.z, zFE := v.hart.zFE ||| BitVec.twoPow 64 r.next } } ∧
        ∀ j e, j < 64 → (t.slot k).hart.nibble j e =
          if j = r.next ∧ e < 64 * groups ∧ e < vlmax then bits (SMap.get 0 s.hbm (b + 0x1000 + 512 * r.next + e / 2)).toNat (4 * (e % 2)) 4 else v.hart.nibble j e) ∧
      (∀ m, r.next = 64 + m → m < 8 → ∃ t, exec (.sliceReload k) s = .next t ∧
        OnlySlot s t k { v with
          reload := if m < 7 then some { r with next := 65 + m } else none, busy := decide (m < 7) || v.halt
          hart := { v.hart with m := (t.slot k).hart.m, mFE := v.hart.mFE ||| BitVec.twoPow 8 m } } ∧
        ∀ j e, e < 1024 → ((t.slot k).hart.rm j).getLsbD e =
          if j = m then decide (e < vlmax) && (bytesAt s.hbm (b + 0x400 + 128 * m) 128).testBit e else (v.hart.rm j).getLsbD e))

/-! ## Sequencers, delayed control-register writes, abandonment (R86, R89, R104, R145, R348) -/

/-- R104: the slots a sequencer serves: the tile's eight, or one core's four while SPLIT is 1. -/
def Sys2Proof.Spec.servedSlots (s : State) (tile : Nat) (core : Bool) : List Nat :=
  (List.range 8).filterMap (fun j => if (s.tile tile).split = true ∧ decide (4 ≤ j) ≠ core then none else some (8 * tile + j))

/-- R104: VL less the elements below the current instruction's next group. -/
def Sys2Proof.Spec.remaining (f : Inflight) : Nat := f.vl - f.next / 64 * 64

/-- R88: the operands of two instructions overlap and one of them writes there. -/
def Sys2Proof.Spec.Meet (i j : Uses) : Prop :=
  (i.dsts &&& (j.srcs ||| j.dsts)) ≠ 0 ∨ (i.srcs &&& j.dsts) ≠ 0 ∨ (i.mwrites &&& (j.mreads ||| j.mwrites)) ≠ 0 ∨ (i.mreads &&& j.mwrites) ≠ 0

/-- R256: an A broadcast ends the instruction: a multiplication, which writes no slice. -/
def Sys2Proof.Spec.EndsByBroadcast (f : Inflight) : Prop := f.matrix = true ∧ f.uses.dsts = 0

/-- R88, R89, R256, R395: the next group of j may begin beside the earlier instruction i of its hart: their operands do not meet, or i has marked none of the slices that j reads empty, is no multiplication whose A j
writes, and has started that group, or every one of its groups where i writes elements of other groups or j reads them. -/
def Sys2Proof.Spec.MayBegin (i j : Inflight) : Prop :=
  Meet i.uses j.uses → (i.slices &&& j.uses.srcs) = 0 ∧ ¬ (EndsByBroadcast i ∧ (i.uses.srcs &&& j.uses.dsts) ≠ 0) ∧
    (if i.uses.spreads = true ∨ j.uses.looks = true then i.vl ≤ i.next else min i.vl (64 * (j.next / 64 + 1)) ≤ i.next)

/-- R104: f is the hart's current instruction, the oldest with a group left that may begin; `pre` are the earlier ones, `post` the later. -/
def Sys2Proof.Spec.IsCurrent (h : Hart) (pre : List Inflight) (f : Inflight) (post : List Inflight) : Prop :=
  h.inflight = pre ++ f :: post ∧ f.next < f.vl ∧ (∀ i ∈ pre, MayBegin i f) ∧
  ∀ p g q, pre = p ++ g :: q → g.next < g.vl → ∃ i ∈ p, ¬ MayBegin i g

/-- R89, R145, R256, R326: the instruction at place i of those in flight can complete: its groups have started, no broadcast ends it, and one of the matrix unit comes after the earlier ones. -/
def Sys2Proof.Spec.completes (l : List Inflight) (i : Nat) : Bool :=
  match l[i]? with
  | some f => decide (f.vl ≤ f.next) && !(f.matrix && f.uses.dsts == 0) && (!f.matrix || (l.take i).all (fun g => !g.matrix))
  | none => false

/-- R88, R89, R104, R145, R326: of the harts with a current instruction, the sequencer takes the lowest that has been passed over 256 times, else the one with the least work left, and of equals the lowest. It starts that
hart's next group and counts the others passed. The end of a long-latency producer sets the bits it marked empty full again.
The model's own readings that it rests on: log 2. -/
def Obligations.SequencerResult : Prop :=
  (∀ (tile : Nat) (core : Bool) (s : State),
    let ks := servedSlots s tile core
    let cur : Nat → Inflight → Prop := fun k f => ∃ pre post, IsCurrent (s.slot k).hart pre f post
    ((∀ k ∈ ks, ∀ f, ¬ cur k f) → exec (.elementGroup tile core) s = .next s) ∧
    (∀ k pre f post, k ∈ ks → IsCurrent (s.slot k).hart pre f post →
      ((256 ≤ (s.slot k).hart.passed ∧ ∀ j ∈ ks, j < k → (∃ g, cur j g) → (s.slot j).hart.passed < 256) ∨
        ((∀ j ∈ ks, (∃ g, cur j g) → (s.slot j).hart.passed < 256) ∧
          ∀ j g, j ∈ ks → cur j g → remaining f ≤ remaining g ∧ (j < k → remaining f < remaining g))) →
      let h := (s.slot k).hart
      let g := { f with next := min f.vl ((f.next / 64 + 1) * 64) }
      let left := if g.next = g.vl ∧ g.scalars = 0 ∧ g.slices = 0 ∧ (g.matrix = false ∨ g.uses.dsts ≠ 0) then post else g :: post
      ∃ t, exec (.elementGroup tile core) s = .next t ∧ { t with slots := s.slots } = s ∧ (∀ j, j ∉ ks → t.slot j = s.slot j) ∧
        t.slot k = { s.slot k with hart := { h with inflight := pre ++ left, passed := 0 } } ∧
        ∀ j ∈ ks, j ≠ k → ∃ n, t.slot j = { s.slot j with hart := { (s.slot j).hart with passed := n } } ∧
          ((∃ g, cur j g) → n = (s.slot j).hart.passed + 1) ∧ ((∀ g, ¬ cur j g) → n = 0))) ∧
  (∀ (k n i : Nat) (f : Inflight) (s : State),
    let h := (s.slot k).hart
    h.inflight[i]? = some f → completes h.inflight i = true → ((List.range i).filter (completes h.inflight)).length = n →
      ∃ t, exec (.longLatencyProducerDone k n) s = .next t ∧ OnlySlot s t k
        { s.slot k with hart := { h with sFE := h.sFE ||| f.scalars, zFE := h.zFE ||| f.slices, inflight := h.inflight.eraseIdx i } })

/-- R86, R104, R300: an MTCR of LPART or MAXVL that waits for its tile takes effect once every vector and matrix instruction of the tile's harts has completed, and then retires; until then nothing changes.
The model's own readings that it rests on: log 2. -/
def Sys2Proof.Spec.PartitionEvents : Prop :=
  ∀ (k : Nat) (v : Word) (s : State),
    let n := State.tileOf k
    let done : State → Bool × BitVec 2 → Prop := fun t p => Repartitioned s t n p ∧ (t.slot k).hart.pc = (s.slot k).hart.pc + 4 ∧
      (t.slot k).hart.pendCr = none ∧ (∀ r, (t.slot k).hart.rs r = (s.slot k).hart.rs r) ∧ t.hbm = s.hbm ∧ t.cis = s.cis ∧ t.ctxs = s.ctxs
    ((s.slot k).hart.pendCr = some (0x100, v) → TileQuiet s n → ∃ t, exec (.lpart k) s = .next t ∧ done t (lpartWrite (s.tile n) v)) ∧
    ((s.slot k).hart.pendCr = some (0x101, v) → TileQuiet s n → ∃ t, exec (.maxvl k) s = .next t ∧ done t (maxvlWrite (s.tile n) v)) ∧
    (¬ TileQuiet s n ∨ (s.slot k).hart.pendCr = none → exec (.lpart k) s = .next s ∧ exec (.maxvl k) s = .next s)

/-- R203, R348, R349: ABANDONMENT of an LD that has begun in a slot with a stop requested, whose elements have all been sent to idempotent peer memory and of which element j is the lowest without a reply, falls
back to j or to a lower element: it keeps those below, sets EIDX to that element and ABND; its answered requests are gone, and a reply that is still to come will be discarded. Of an LD in idempotent memory of the device or the host whose element n
fails its checks it takes the trap at a lower performed element, with ABND set in the bank and the elements below it loaded, while those above may have been loaded, or nothing happens. A slot that does not run is left as it was.
The model's own readings that it rests on: log 8, 38, 112. -/
def Obligations.AbandonmentResult : Prop :=
  (∀ (k : Nat) (s : State), (s.slot k).state ≠ .running → (s.slot k).state ≠ .waiting → exec (.abandonment k) s = .next s) ∧
  (∀ (x : ArgsL) (k : Nat) (iw : IWord) (d : Bool) (s : State),
    let v := s.slot k
    let h := v.hart
    let u : State := { s with cur := k }
    let w := widthOf x.w
    Ready u = true → s.wbuf = [] → h.word = some (iw, d) → decode iw = .ok (.ld x) → (Instr.ld x).wellFormed = true → x.m ≠ 2 →
    overruns w x.d.toNat = false → (x.m = 1 → overruns 32 x.b.toNat = false) →
    v.state = .running ∨ v.state = .waiting → v.yielded = false → v.ending = false → h.pendCr = none → s.fnReady (k / 8) = true →
    (∀ (j : Nat) (at_ : Nat → Nat × Nat) (ans : Nat → Option Nat), v.pre = true ∨ v.halt = true →
      (∀ i, performed h i = true → ∃ r, s.requestOf (.elem k i) = some r) →
      (∀ r ∈ s.net.reqs, ∀ i, r.who = .elem k i → performed h i = true ∧ (r.peer, r.pa) = at_ i ∧ r.op = .read ∧ r.device = false ∧ r.failed = false ∧
        r.reply = (ans i).map (fun n => (false, n))) →
      (∀ i i', performed h i = true → performed h i' = true → at_ i = at_ i' → ans i = ans i') →
      performed h j = true → ans j = none → (∀ i, performed h i = true → i < j → ans i ≠ none) →
      ∃ t, exec (.abandonment k) s = .next t ∧
        (let e := (t.slot k).hart.eidx.toNat
         let kept : Nat → Bool := fun i => performed h i && decide (i < e)
         let g := if anyIn kept 0 h.len = true then h.touch (slicesOf w x.d.toNat) h.len else h
         e ≤ j ∧ performed h e = true ∧
         OnlySlot { s with net := t.net, fresh := s.fresh + 1 } t k { v with hart := { h with eidx := (t.slot k).hart.eidx, abnd := true, z := (t.slot k).hart.z, dirty := g.dirty, vlg := g.vlg } } ∧
         t.net = { s.net with reqs := t.net.reqs } ∧
         (∀ r, r ∈ t.net.reqs ↔ (r ∈ s.net.reqs ∧ ∀ i, r.who ≠ .elem k i) ∨
           ∃ q ∈ s.net.reqs, ∃ i, q.who = .elem k i ∧ q.reply = none ∧ r = { q with who := .gone k h.taskid }) ∧
         ∀ i, (t.slot k).hart.row i = if kept i = true then putElem (h.row i) w x.d.toNat ((ans i).getD 0) else h.row i)) ∧
    (∀ (n cause wl : Nat) (loc : Nat → Loc), s.net.reqs = [] → h.abnd = false → h.tlvl.toNat < 2 → v.step = false → performed h n = true →
      u.checkSpace k h.mspace (accessAddr u x n).toNat .read (w / 8) (w / 8) false = .bad cause wl →
      Passes u (fun i => performed h i && decide (i < n)) .read (w / 8) false (accessAddr u x) loc (fun _ => false) →
      exec (.abandonment k) s = .next s ∨
      ∃ t, exec (.abandonment k) s = .next t ∧
        (let g := (t.slot k).hart
         let e := (g.bank g.tlvl.toNat).eidx.toNat
         e < n ∧ performed h e = true ∧ (g.bank g.tlvl.toNat).abnd = true ∧
         TrapOutcome ({ u with fresh := t.fresh }.setHart { h with abnd := true, z := g.z, dirty := g.dirty, vlg := g.vlg }) { t with cur := k } cause e (accessAddr u x n) wl ∧
         TaggedIf h g (slicesOf w x.d.toNat) (∃ i, i < e ∧ performed h i = true) ∧
         (∀ i, i < e → g.row i = if performed h i = true then putElem (h.row i) w x.d.toNat (u.homeRead (loc i) (w / 8)) else h.row i) ∧
         g.row e = h.row e ∧
         (∀ i, e < i → i < n → g.row i = h.row i ∨ (performed h i = true ∧ g.row i = putElem (h.row i) w x.d.toNat (u.homeRead (loc i) (w / 8)))) ∧
         (∀ i, n ≤ i → performed h i = false ∨ i = n → g.row i = h.row i))))

/-! ## Pumps on their own (R210–R230, R376–R378, R389, R390) -/

/-- From s to t only channel c changes, to `new`. -/
def Sys2Proof.Spec.OnlyChan (s t : State) (c : Nat) (new : Channel) : Prop :=
  { t with chans := s.chans } = s ∧ ∀ d, t.chan d = if d = c then some new else s.chan d

/-- Channel c of a READY pump is x, live, with no command in progress and no request out; the command at NEXT, below TAIL, lies in local idempotent memory that the context may read, and `m` is what its slot held when TAIL made it
available, or holds now where it could not be read then (R214, R216). -/
def Sys2Proof.Spec.AtCommand (s : State) (c : Nat) (x : Channel) (m : Nat) : Prop :=
  s.chan c = some x ∧ x.live = true ∧ x.inProgress = none ∧ x.next < x.tail ∧ s.fnReady (208 + c / 16) = true ∧ s.requestOf (.chan c) = none ∧
  ∃ loc dev, s.checkVirtual (192 + c / 16) x.ctx (listAddr x x.next) .read 32 32 true = .go loc dev ∧ isLocal loc = true ∧
    m = match SMap.find? x.cmds x.next with | some v => v.toNat | none => s.homeRead loc 32

/-- The channel with the command at NEXT taken and done at once (R215, R229). -/
def Sys2Proof.Spec.taken (x : Channel) (m : Nat) (nextIndex : Nat) : Channel :=
  { x with state := if x.state = .queued then .running else x.state, next := nextIndex
           run := x.run ++ [{ index := x.next, cmd := BitVec.ofNat 256 m, mark := x.sent, done := true }] }

/-- A command fault of an attached channel (R230): FAULTED with the cause and the command's index, what was sent has landed, its port is free, and of its requests no reply is looked at any more. -/
def Sys2Proof.Spec.CommandFault (s t : State) (c : Nat) (x : Channel) (cause index : Nat) : Prop :=
  OnlyChan { s with net := t.net, walked := t.walked } t c
    { x with state := .faulted, fcause := BitVec.ofNat 8 cause, fcmd := BitVec.ofNat 32 index, landed := x.sent, port := false, readyAt := none } ∧
  t.net = { s.net with reqs := t.net.reqs } ∧ ∀ r, r ∈ t.net.reqs ↔ (r ∈ s.net.reqs ∧ r.who ≠ .chan c ∧ r.who ≠ .seq c) ∨
    ∃ q ∈ s.net.reqs, (q.who = .chan c ∨ q.who = .seq c) ∧ q.reply = none ∧ q.failed = false ∧ r = { q with who := .gone 1536 0xFFFFFFFF }

/-- R216, R222, R230: LOOP with COUNT more passes to make goes back by BACK with the offsets advanced, else goes on with them at 0; JUMP moves the list to its address; a LOOP inside another's body or reaching before the list's
first command, a JUMP inside a loop, and a command with a code of 0 or above 10 are faults; a command that asks for it is read only once the earlier ones have completed; a command of another row's code is left alone.
The model's own readings that it rests on: log 43, 46, 97, 99. -/
def Obligations.PumpListResult : Prop :=
  ∀ (c : Nat) (x : Channel) (m : Nat) (s : State), AtCommand s c x m → x.detached = false →
    let code := bits m 0 8
    let n := x.next
    let count := bits m 16 16
    let back := bits m 32 16
    let so : Int := (BitVec.ofNat 64 (m / 2 ^ 64)).toInt
    let dO : Int := (BitVec.ofNat 64 (m / 2 ^ 128)).toInt
    let ordered := m.testBit 9 = true ∨ code = 7 ∨ code = 10
    let ready := cmdFault x m = none ∧ (ordered → x.run = [])
    (code = 9 → ready →
      (x.loopOn = false → ∃ t y, exec (.jumpCmd c) s = .next t ∧ OnlyChan s t c y ∧
        y = { taken x m (n + 1) with lbase := bits m 16 56, origin := n + 1, cmds := y.cmds } ∧ Latched s c { y with cmds := [] } (n + 1) x.tail y) ∧
      (x.loopOn = true → ∃ t, exec (.jumpCmd c) s = .next t ∧ CommandFault s t c x 7 n)) ∧
    (code = 8 → ready → x.origin + back ≤ n →
      (x.loopOn = false → 0 < count → ∃ t, exec (.loopCmd c) s = .next t ∧
        OnlyChan s t c { taken x m (n - back) with loopOn := true, loopAt := n, loopBase := n - back, iter := 1, os := so, od := dO }) ∧
      (x.loopOn = false → count = 0 → ∃ t, exec (.loopCmd c) s = .next t ∧ OnlyChan s t c { taken x m (n + 1) with iter := 0, os := 0, od := 0 }) ∧
      (x.loopOn = true → x.loopAt = n → x.iter < count → ∃ t, exec (.loopCmd c) s = .next t ∧
        OnlyChan s t c { taken x m (n - back) with loopBase := n - back, iter := x.iter + 1, os := (x.iter + 1 : Nat) * so, od := (x.iter + 1 : Nat) * dO }) ∧
      (x.loopOn = true → x.loopAt = n → count ≤ x.iter → ∃ t, exec (.loopCmd c) s = .next t ∧
        OnlyChan s t c { taken x m (n + 1) with loopOn := false, os := 0, od := 0 })) ∧
    (code = 8 → ready → (x.loopOn = true ∧ x.loopAt ≠ n) ∨ n < x.origin + back → ∃ t, exec (.loopCmd c) s = .next t ∧ CommandFault s t c x 7 n) ∧
    (∀ e ∈ [Instr.waitseq c, .signalDecrement c, .signalStore c, .loopCmd c, .jumpCmd c, .endCmd c],
      (ordered → x.run ≠ [] → exec e s = .next s) ∧
      ((ordered → x.run = []) → code = 0 ∨ 10 < code → ∃ t, exec e s = .next t ∧ CommandFault s t c x 1 n) ∧
      (∀ f, (ordered → x.run = []) → cmdFault x m = some f → ∃ t, exec e s = .next t ∧ CommandFault s t c x f n)) ∧
    (∀ p ∈ [(Instr.waitseq c, 6), (.signalDecrement c, 7), (.signalStore c, 7), (.loopCmd c, 8), (.jumpCmd c, 9), (.endCmd c, 10)],
      cmdFault x m = none → code ≠ p.2 → exec p.1 s = .next s)

/-- R61, R215, R221, R222, R224, R227: WAITSEQ is done when SEQ of the channel it is tied to reaches VALUE, and faults when that channel has gone, ended short of it, or is another context's; SIGNAL decrements, or stalls while the credit quota is full, or stores its
value; END fixes the count that has arrived and ends the channel, and faults on part of an element; the oldest done command retires when its bytes have landed, counting SEQ where it asks, which the WAITSEQs that it satisfies see,
and then storing it.
The model's own readings that it rests on: log 43, 45, 78, 97. -/
def Obligations.PumpSyncResult : Prop :=
  (∀ (c : Nat) (x : Channel) (m : Nat) (s : State), AtCommand s c x m → x.detached = false → cmdFault x m = none →
    let code := bits m 0 8
    let n := x.next
    (code = 6 → (m.testBit 9 = true → x.run = []) →
      let q := bits m 16 9
      (s.chan q = none → ∃ t, exec (.waitseq c) s = .next t ∧ CommandFault s t c x 6 n) ∧
      (∀ y, s.chan q = some y →
        let there := decide (bits m 64 64 ≤ y.seq.toNat)
        (y.ctx = x.ctx → (there = true ∨ (q ≠ c ∧ y.live = true)) → ∃ t, exec (.waitseq c) s = .next t ∧ OnlyChan s t c
          { x with state := if x.state = .queued then .running else x.state, next := n + 1, waitSerial := some y.serial
                   run := x.run ++ [{ index := n, cmd := BitVec.ofNat 256 m, mark := x.sent, done := there }] }) ∧
        (y.ctx ≠ x.ctx ∨ (there = false ∧ (q = c ∨ y.live = false)) → ∃ t, exec (.waitseq c) s = .next t ∧ CommandFault s t c x 6 n))) ∧
    (code = 7 → x.run = [] → bits m 16 2 = 0 → x.stall = false →
      let id := BitVec.ofNat 32 (bits m 32 32)
      (∀ u, s.decrement x.ctx id = some u → ∃ t, exec (.signalDecrement c) s = .next t ∧ OnlyChan u t c (taken x m (n + 1))) ∧
      (s.decrement x.ctx id = none → ∃ t, exec (.signalDecrement c) s = .next t ∧ OnlyChan s t c { x with stall := true })) ∧
    (∀ loc dev, code = 7 → x.run = [] → bits m 16 2 = 1 → pumpCheck s c x (bits m 12 2) (bits m 128 56) .write 8 8 = .go loc dev → isLocal loc = true →
      ∃ t, exec (.signalStore c) s = .next t ∧ OnlyChan { s with hbm := t.hbm, cis := t.cis, host := t.host } t c (taken x m (n + 1)) ∧
        Stored s t (fun j => j == 0) 8 (fun _ => loc) (fun _ => bits m 64 64)) ∧
    (code = 10 → x.run = [] →
      (x.sent % 2 ^ x.esz ≠ 0 → ∃ t, exec (.endCmd c) s = .next t ∧ CommandFault s t c x 8 n) ∧
      (x.sent % 2 ^ x.esz = 0 → m.testBit 8 = false ∨ (x.seqaddr = 0 ∧ ∀ d y, s.chan d = some y → d ≠ c → y.inProgress = none) →
        ∃ t, exec (.endCmd c) s = .next t ∧ { t with chans := s.chans, slots := s.slots } = s ∧
        (∀ d, t.chan d = if d = c then some { x with state := .ended, final := some x.arr, next := n + 1, port := false, readyAt := none, counted := x.counted && !m.testBit 8
                                                     seq := if m.testBit 8 = true ∧ x.counted = false then x.seq + 1 else x.seq } else s.chan d) ∧
        ∀ k, { t.slot k with hart := (s.slot k).hart } = s.slot k ∧ (t.slot k).hart = { (s.slot k).hart with strmf := (t.slot k).hart.strmf } ∧
          ∀ j, j < 16 → (t.slot k).hart.strmf.getLsbD j =
            ((s.slot k).hart.strmf.getLsbD j || (s.slot k).hart.binds.any (fun b => decide (b.1 = j ∧ b.2.chan = c ∧ b.2.c = x.arr)))))) ∧
  (∀ (c : Nat) (x : Channel) (pre : List CmdRun) (r : CmdRun) (s : State), s.chan c = some x → x.live = true → x.detached = false → x.run = pre ++ [r] → r.done = false → bits r.cmd.toNat 0 8 = 6 →
    let q := bits r.cmd.toNat 16 9
    (∀ y, s.chan q = some y → x.waitSerial = some y.serial → bits r.cmd.toNat 64 64 ≤ y.seq.toNat → ∃ t, exec (.waitseq c) s = .next t ∧ OnlyChan s t c { x with run := pre ++ [{ r with done := true }] }) ∧
    (∀ y, s.chan q = some y → x.waitSerial = some y.serial → y.seq.toNat < bits r.cmd.toNat 64 64 → y.live = true → exec (.waitseq c) s = .next s) ∧
    ((∀ y, s.chan q = some y → x.waitSerial ≠ some y.serial ∨ (y.seq.toNat < bits r.cmd.toNat 64 64 ∧ y.live = false)) → ∃ t, exec (.waitseq c) s = .next t ∧ CommandFault s t c x 6 r.index)) ∧
  (∀ (c : Nat) (x : Channel) (r : CmdRun) (rest : List CmdRun) (s : State), s.chan c = some x → x.live = true → x.run = r :: rest →
    (r.done = true → (x.wsize = 0 ∨ r.mark ≤ x.landed) →
      (r.cmd.getLsbD 8 = false → ∃ t, exec (.commandComplete c) s = .next t ∧ OnlyChan s t c { x with run := rest, counted := false }) ∧
      let seq := if x.counted = true then x.seq else x.seq + 1
      let others : State → Prop := fun t => ∀ d y, s.chan d = some y → d ≠ c →
        (y.inProgress = none → t.chan d = some y) ∧
        (∀ pre w, y.run = pre ++ [w] → w.done = false → t.chan d = some
          (if bits w.cmd.toNat 0 8 = 6 ∧ bits w.cmd.toNat 16 9 = c ∧ y.waitSerial = some x.serial ∧ bits w.cmd.toNat 64 64 ≤ seq.toNat ∧ y.live = true ∧ x.counted = false
           then { y with run := pre ++ [{ w with done := true }] } else y))
      (r.cmd.getLsbD 8 = true → x.seqaddr = 0 → x.inProgress = none → ∃ t, exec (.commandComplete c) s = .next t ∧
        t.chan c = some { x with run := rest, seq := seq, counted := false } ∧ { t with chans := s.chans } = s ∧ others t) ∧
      (∀ loc dev, r.cmd.getLsbD 8 = true → x.seqaddr ≠ 0 → x.inProgress = none → s.requestOf (.seq c) = none →
        s.checkVirtual (192 + c / 16) x.ctx x.seqaddr .write 8 8 true = .go loc dev → isLocal loc = true →
        ∃ t, exec (.commandComplete c) s = .next t ∧ t.chan c = some { x with run := rest, seq := seq, counted := false } ∧
          { t with chans := s.chans, hbm := s.hbm, cis := s.cis, host := s.host } = s ∧ Stored s t (fun j => j == 0) 8 (fun _ => loc) (fun _ => seq.toNat) ∧ others t)) ∧
    (r.done = false ∨ (x.wsize ≠ 0 ∧ x.landed < r.mark) → exec (.commandComplete c) s = .next s))

/-- Where a pump's read of n bytes at space and address lies, when its checks pass and it is local (R216). -/
def Sys2Proof.Spec.ReadsAt (s : State) (c : Nat) (x : Channel) (space a n align : Nat) (loc : Loc) : Prop :=
  ∃ dev, pumpCheck s c x space a .read n align = .go loc dev ∧ isLocal loc = true

/-- The units of 64 bytes that a command starts when it moves n bytes more count against the pump's budget of the context (R389, R390); nothing else of the fabric state changes. -/
def Sys2Proof.Spec.PumpCounted (s t : State) (c : Nat) (x : Channel) (r : CmdRun) (n : Nat) : Prop :=
  { t.net with budgets := s.net.budgets } = s.net ∧
  ∀ a d, t.budgetUsed a d = s.budgetUsed a d + if a = .pump (c / 16) ∧ d = x.ctx then (r.moved + n + 63) / 64 - (r.moved + 63) / 64 else 0

/-- Channel c of a READY pump holds a port and is in the middle of data command r, with no request out (R223, R229). -/
def Sys2Proof.Spec.InData (s : State) (c : Nat) (x : Channel) (pre : List CmdRun) (r : CmdRun) : Prop :=
  s.chan c = some x ∧ x.live = true ∧ x.port = true ∧ x.run = pre ++ [r] ∧ r.done = false ∧ s.fnReady (208 + c / 16) = true ∧ s.requestOf (.chan c) = none

/-- The event that carries a data command of the code on (R217–R220). -/
def Sys2Proof.Spec.dataInstr (code c : Nat) : Instr :=
  if code = 1 then .copy c else if code = 2 then .gather c else if code = 3 then .scatter c else if code = 4 then .requant c else .convert c

/-- The command after its piece has been delivered whole: a REQUANT goes on to the header entry, any other to its next piece, or its end (R217–R220). -/
def Sys2Proof.Spec.delivered (r : CmdRun) (code sent : Nat) : CmdRun :=
  let q := { r with have_ := r.len, moved := r.moved + r.len }
  if code = 4 then { q with phase := 2 } else q.advance sent

/-- R217, R218, R220, R226, R229: a data command at NEXT starts on a channel that holds a port. COPY, GATHER and SCATTER then move their bytes a piece of at most 64 bytes at a time: the piece is read at its source address (GATHER and SCATTER read
the row's index first), and delivered either at the destination or at the well's next bytes as far as window and TOTAL let it; past TOTAL bytes are dropped and AOVR set. CONVERT reads one element and rounds it to nearest even; its result and the block of a REQUANT are delivered likewise, and a REQUANT then writes the block's header entry.
A command of no rows or elements ends as it starts, but a REQUANT, which reads its two view images first.
The model's own readings that it rests on: log 12, 77. -/
def Sys2Proof.Spec.DataCommandResult : Prop :=
  (∀ (c code : Nat) (x : Channel) (m : Nat) (s : State), 1 ≤ code → code ≤ 5 → AtCommand s c x m → x.port = true → cmdFault x m = none → bits m 0 8 = code → (m.testBit 9 = true → x.run = []) →
    let r : CmdRun := { index := x.next, cmd := BitVec.ofNat 256 m, os := x.os, od := x.od }
    let r' := if r.count = 0 ∧ code ≠ 4 then { r with done := true, mark := x.sent } else r
    ∃ t, exec (dataInstr code c) s = .next t ∧ OnlyChan s t c { x with state := if x.state = .queued then .running else x.state, next := x.next + 1, run := x.run ++ [r'] }) ∧
  (∀ (c : Nat) (x : Channel) (pre : List CmdRun) (r : CmdRun) (s : State), InData s c x pre r →
    let code := bits r.cmd.toNat 0 8
    let ssp := bits r.cmd.toNat 10 2
    let step : CmdRun → Channel := fun q => { x with run := pre ++ [q] }
    (∀ loc, code = 2 ∨ code = 3 → r.phase = 0 → r.idx = none → r.peeked[r.pos]? = none →
      ReadsAt s c x ssp (bits r.cmd.toNat 128 56 + r.pos * r.idxLen) r.idxLen r.idxLen loc → bits r.cmd.toNat 128 56 + r.pos * r.idxLen < 2 ^ 64 →
      ∃ t, exec (dataInstr code c) s = .next t ∧ OnlyChan s t c (step { r with idx := some (s.homeRead loc r.idxLen) })) ∧
    (∀ loc, code = 1 ∨ (code = 2 ∨ code = 3) ∧ r.idx ≠ none → r.phase = 0 → r.have_ = 0 → r.buf = 0 → s.budgetFree (.pump (c / 16)) x.ctx 8 = true → 0 ≤ r.srcAddr → r.srcAddr < 2 ^ 64 →
      let a := r.srcAddr.toNat
      let n := min (r.rowLen - r.off) (64 - a % 64)
      0 < n → ReadsAt s c x ssp a n 1 loc →
      ∃ t, exec (dataInstr code c) s = .next t ∧ OnlyChan s t c (step { r with phase := 1, len := n, buf := s.homeRead loc n })) ∧
    (∀ loc, code = 5 → r.phase = 0 → r.have_ = 0 → r.buf = 0 → s.budgetFree (.pump (c / 16)) x.ctx 8 = true → 0 ≤ r.srcAddr → r.srcAddr < 2 ^ 64 →
      let a := r.srcAddr.toNat
      let src := pumpFmt (bits r.cmd.toNat 160 4)
      let dst := pumpFmt (bits r.cmd.toNat 164 4)
      let v := rndV dst rneCtl (src.raw (s.homeRead loc (src.w / 8)))
      src.w / 8 ≤ 64 - a % 64 → ReadsAt s c x ssp a (src.w / 8) 1 loc →
      ∃ t, exec (.convert c) s = .next t ∧ OnlyChan s t c { step { r with phase := 1, len := dst.w / 8, buf := v.1 } with
        nv := x.nv || v.2.getLsbD 4, ovf := x.ovf || v.2.getLsbD 2, nx := x.nx || v.2.getLsbD 0 }) ∧
    (∀ loc dev, 1 ≤ code → code ≤ 5 → r.phase = 1 → r.have_ = 0 → 0 < r.len → bits r.cmd.toNat 12 2 ≠ 3 → 0 ≤ r.dstAddr → r.dstAddr < 2 ^ 64 →
      let a := r.dstAddr.toNat
      (code = 4 → r.aux.length = 2) → r.len ≤ 64 - a % 64 → pumpCheck s c x (bits r.cmd.toNat 12 2) a .write r.len (if code = 4 then 64 else 1) = .go loc dev → isLocal loc = true → peerOf s c x (bits r.cmd.toNat 12 2) a = none →
      ∃ t, exec (dataInstr code c) s = .next t ∧ OnlyChan { s with hbm := t.hbm, cis := t.cis, host := t.host, net := t.net } t c
          (step (delivered r code x.sent)) ∧
        Stored s t (fun j => j == 0) r.len (fun _ => loc) (fun _ => r.buf) ∧ PumpCounted s t c x r r.len) ∧
    (∀ a, 1 ≤ code → code ≤ 5 → r.phase = 1 → r.have_ = 0 → (code = 4 → r.aux.length = 2) → bits r.cmd.toNat 12 2 = 3 →
      let cap := if x.total = 0 then r.len else x.total * 2 ^ x.esz - x.sent
      let w := if x.win = 0 then x.wsize / 2 ^ x.esz else x.win
      let room := (x.rel + w) * 2 ^ x.esz - x.sent
      (x.past = false → 0 < r.len → r.len ≤ cap → r.len ≤ room → r.len ≤ 64 - x.sent % 64 → (code = 4 → (x.wbase + x.sent % x.wsize) % 64 = 0) →
        pumpCheck s c x 1 (x.wbase + x.sent % x.wsize) .write r.len 1 = .go (.cis a) false →
        ∃ t, exec (dataInstr code c) s = .next t ∧ OnlyChan { s with cis := t.cis, net := t.net } t c
            { step (delivered r code (x.sent + r.len)) with sent := x.sent + r.len } ∧
          Stored s t (fun j => j == 0) r.len (fun _ => .cis a) (fun _ => r.buf) ∧ PumpCounted s t c x r r.len) ∧
      (x.past = true → ∃ t, exec (dataInstr code c) s = .next t ∧ t.hbm = s.hbm ∧ t.cis = s.cis ∧ t.host = s.host ∧
        t.chan c = some { step (delivered r code (x.sent + r.len)) with sent := x.sent + r.len, aovr := true }) ∧
      (x.past = false → room = 0 → exec (dataInstr code c) s = .next s)))

/-- R182, R216, R219: REQUANT reads its two view images first, and ends then where it describes no block. It reads each described block under the old view, and the new block and its header entry are those that quantising the old block's values under the new view gives; a block of another format or tag is a fault, cause 5, and one
whose place in the well is no multiple of 64 bytes a fault, cause 4; then it writes the block's entry into the new view. -/
def Sys2Proof.Spec.RequantResult : Prop :=
  (∀ (c : Nat) (x : Channel) (pre : List CmdRun) (r : CmdRun) (loc : Loc) (s : State), InData s c x pre r → bits r.cmd.toNat 0 8 = 4 →
    let first := r.aux = []
    let space := if r.aux = [] then bits r.cmd.toNat 10 2 else if bits r.cmd.toNat 12 2 = 3 then 1 else bits r.cmd.toNat 12 2
    r.aux.length < 2 → ReadsAt s c x space (if r.aux = [] then bits r.cmd.toNat 128 56 else bits r.cmd.toNat 184 56) 64 64 loc →
    let q := { r with aux := r.aux ++ [BitVec.ofNat 512 (s.homeRead loc 64)] }
    ∃ t, exec (.requant c) s = .next t ∧ OnlyChan s t c
      { x with run := pre ++ [if ¬ first ∧ bits r.cmd.toNat 240 16 ≤ r.pos then { q with done := true, mark := x.sent } else q] }) ∧
  (∀ (c : Nat) (x : Channel) (pre : List CmdRun) (r : CmdRun) (s : State), InData s c x pre r → x.detached = false → bits r.cmd.toNat 0 8 = 4 → r.aux.length = 2 →
    r.phase = 1 → r.have_ = 0 → 0 < r.len → bits r.cmd.toNat 12 2 = 3 → x.past = false → 0 < x.room → (x.total = 0 ∨ x.sent < x.total * 2 ^ x.esz) →
    (x.wbase + x.sent % x.wsize) % 64 ≠ 0 → ∃ t, exec (.requant c) s = .next t ∧ CommandFault s t c x 4 r.index) ∧
  (∀ (c : Nat) (x : Channel) (pre : List CmdRun) (r : CmdRun) (old new : View) (loc : Loc) (dev : Bool) (s : State), InData s c x pre r → bits r.cmd.toNat 0 8 = 4 →
    r.aux = [old, new] → r.phase = 2 →
    let space := if bits r.cmd.toNat 12 2 = 3 then 1 else bits r.cmd.toNat 12 2
    let h := r.pos % 16
    pumpCheck s c x space (bits r.cmd.toNat 184 56 + 16 + 3 * h) .write 3 1 = .go loc dev → isLocal loc = true → peerOf s c x space (bits r.cmd.toNat 184 56) = none →
    ∃ t, exec (.requant c) s = .next t ∧
      OnlyChan { s with hbm := t.hbm, cis := t.cis, host := t.host } t c { x with run := pre ++ [r.advance x.sent] } ∧
      Stored s t (fun j => j == 0) 3 (fun _ => loc) (fun _ => (vScale new h).toNat + 2 ^ 8 * (vTag new h).toNat)) ∧
  ∀ (c : Nat) (x : Channel) (pre : List CmdRun) (r : CmdRun) (old new : View) (loc : Loc) (s : State), InData s c x pre r → x.detached = false →
    bits r.cmd.toNat 0 8 = 4 → r.aux = [old, new] → r.phase = 0 → r.have_ = 0 → r.buf = 0 → s.budgetFree (.pump (c / 16)) x.ctx 8 = true → 0 ≤ r.srcAddr → r.srcAddr < 2 ^ 64 →
    r.srcAddr % 64 = 0 → ReadsAt s c x (bits r.cmd.toNat 10 2) r.srcAddr.toNat 64 64 loc →
    let i0 := 120 * r.pos
    let blk : BitVec 512 := BitVec.ofNat 512 (s.homeRead loc 64)
    let good := blk.extractLsb' 0 8 = 0x41 ∧ blockTag blk = tagAt old i0
    let value : Nat → FV := fun i =>
      let q := portOfCode old (blockScale blk) (blockCode blk (i - i0)) i
      .fin (decide (q < 0)) q.natAbs (((blockScale blk).toNat % 64 : Nat) - 38)
    let b := quantBlock new ((vScale new r.pos).toNat / 64) r.pos value
    (good → ∃ t, exec (.requant c) s = .next t ∧ OnlyChan s t c { x with
        clmp := x.clmp || anyIn b.clamped 0 120
        run := pre ++ [{ r with phase := 1, len := 64, buf := b.blk.toNat, aux := [old, vPutHdr new r.pos b.scale b.tag] }] }) ∧
    (¬ good → ∃ t, exec (.requant c) s = .next t ∧ CommandFault s t c x 5 r.index)

/-- R364: the order of fabric addresses: group, then member. The model holds GROUP in bits 10:0 and MEMBER above. -/
def Sys2Proof.Spec.fabricRank (a : Nat) : Nat := a % 2048 * 32 + a / 2048 % 32

/-- R223, R224, R377, R378, R390: a free port of a pump goes to its channel that became ready first, of equals the lowest; an arrival lands one more element of what was sent; requests for tickets take numbers in ascending order of source address (G, m) and channel; a
finished ticket, called or not, lets SERVING pass it, and so does a called one that times out, whose source then waits for a new ticket; a call lets the waiting command send; a budget period ends with only the excess over LIMIT still counted.
The model's own readings that it rests on: log 20, 44. -/
def Obligations.PumpServiceResult : Prop :=
  ∀ (s : State),
    (∀ (p c : Nat) (x : Channel) (n : Nat), settleChans s = s → SMap.sortedFrom 0 s.chans = true → s.chan c = some x → c / 16 = p → x.readyAt = some n → x.port = false →
      (∀ d y q, s.chan d = some y → d / 16 = p → d ≠ c → y.port = false → y.readyAt = some q → n < q ∨ (n = q ∧ c < d)) →
      ((s.chans.filter (fun e => decide (e.1 / 16 = p) && e.2.port)).length < 4 → ∃ t, exec (.portGrant p) s = .next t ∧ OnlyChan s t c { x with port := true }) ∧
      (4 ≤ (s.chans.filter (fun e => decide (e.1 / 16 = p) && e.2.port)).length → exec (.portGrant p) s = .next s)) ∧
    (∀ (c : Nat) (x : Channel), s.chan c = some x → ∃ t, exec (.arrival c) s = .next t ∧
      OnlyChan s t c { x with landed := min x.sent ((x.landed / 2 ^ x.esz + 1) * 2 ^ x.esz) }) ∧
    (∀ (asks l : List TicketAsk), asks.Perm l → l.Pairwise (fun a b => fabricRank a.src < fabricRank b.src ∨ (fabricRank a.src = fabricRank b.src ∧ a.chan ≤ b.chan)) →
      let d := s.net.tickets
      exec (.ticketRequest asks) s = .next { s with net := { s.net with tickets := { d with
        next := d.next + BitVec.ofNat 32 l.length
        tickets := d.tickets ++ l.zipIdx.map (fun e => ⟨d.next + BitVec.ofNat 32 e.2, e.1.src, e.1.chan, false⟩) } } }) ∧
    (∀ n : BitVec 32,
      let d := s.net.tickets
      let called := (n - d.serving).toNat < max 1 d.slots.toNat
      let out := (∃ t ∈ d.tickets, t.number = n)
      (¬ called → exec (.ticketTimeout (.finished n)) s = .next s) ∧
      (called → exec (.ticketTimeout (.finished n)) s = exec (.ticketCall (.finished n)) s) ∧
      (out → n = d.serving → (∀ t ∈ d.tickets, t.number = n + 1 → t.finished = false) →
        exec (.ticketCall (.finished n)) s = .next { s with net := { s.net with tickets := { d with serving := n + 1, tickets := d.tickets.filter (fun t => t.number != n) } } }) ∧
      (n ≠ d.serving → (∀ t ∈ d.tickets, t.number = d.serving → t.finished = false) →
        exec (.ticketCall (.finished n)) s = .next { s with net := { s.net with tickets := { d with
          tickets := d.tickets.map (fun t => if t.number = n then { t with finished := true } else t) } } })) ∧
    (∀ (c q : Nat) (x : Channel) (pre : List CmdRun) (r : CmdRun), s.chan c = some x → x.run = pre ++ [r] → r.done = false →
      ∀ p ∈ [(Instr.ticketCall (.called c q), true), (Instr.ticketTimeout (.called c q), false)], ∃ t, exec p.1 s = .next t ∧
        OnlyChan s t c { x with run := pre ++ [{ r with tickets := r.tickets.map (fun e => if e.1 = q then (q, p.2) else e) }] }) ∧
    (∀ (a : Arbiter) (c : BitVec 6),
      let off := match a with | .pump _ => 8 | .egress _ => 16 | .port _ => 24
      ∃ t, exec (.budgetPeriod a c.toNat) s = .next t ∧ { t with net := { t.net with budgets := s.net.budgets } } = s ∧
        ∀ b d, t.budgetUsed b d = if b = a ∧ d = c then (if s.budgetLimit c off = 0 then 0 else s.budgetUsed a c - s.budgetLimit c off) else s.budgetUsed b d)

/-! ## Rounds on their own (R264–R296) -/

/-- From s to t only round slot k changes, to `new`. -/
def Sys2Proof.Spec.OnlyRoundSlot (s t : State) (k : Nat) (new : Round) : Prop :=
  { t with rounds := s.rounds } = s ∧ ∀ j, t.round j = if j = k then some new else s.round j

/-- Round k is FAULTED by an engine (R294, R295): code and detail are recorded, the participants and counts stand, what is in flight is gone, a notice is owed to the other devices of the span; only the round and the requests and walks of its engines change. -/
def Sys2Proof.Spec.RoundFaulted (s t : State) (k : Nat) (r : Round) (code detail : Nat) : Prop :=
  { t with rounds := s.rounds, net := s.net, walked := s.walked } = s ∧ { t.net with reqs := s.net.reqs } = s.net ∧ (∀ j, j ≠ k → t.round j = s.round j) ∧
  ∃ f, t.round k = some f ∧ f.state = .faulted ∧ f.code = code ∧ f.detail = detail ∧ f.parts = r.parts ∧ f.counts = r.counts ∧ f.ctx = r.ctx ∧ f.desc = r.desc ∧
    f.inputs = [] ∧ f.outputs = [] ∧ (f.noticed = true ↔ r.noticed = true ∨ 1 < r.ndev)

/-- R266: every member of the group has joined or ended, and every participant has bound a well or closed. -/
def Sys2Proof.Spec.Joined (s : State) (r : Round) : Prop :=
  ∃ g, s.group r.ctx r.group = some g ∧ (∀ m ∈ g.members, (∃ p ∈ r.parts, p.task = m) ∨ m ∈ g.gone) ∧ ∀ p ∈ r.parts, p.well ≠ none ∨ p.closed = true

/-- Word j of an image of 64-byte pieces. -/
def Sys2Proof.Spec.pieceWord (l : List (BitVec 512)) (j : Nat) : Nat := bits (l.getD (j / 8) 0).toNat (64 * (j % 8)) 64

/-- R367: h is where traffic of this device for member b of its group goes next: b over the direct link, or, with that down, the lowest other member whose links to both ends are up. -/
def Sys2Proof.Spec.HopIs (s : State) (b h : Nat) : Prop :=
  let m := s.net.ident.member.toNat
  let fits : Nat → Prop := fun i => i < 32 ∧ i ≠ m ∧ i ≠ b ∧ s.linkUp m i = true ∧ s.linkUp i b = true
  (s.linkUp m b = true ∧ h = b) ∨ (s.linkUp m b = false ∧ fits h ∧ ∀ i, i < h → ¬ fits i)

/-- R294, R367: `via` holds, for each other span device of the round that a path leads to, the member to which it hops first. -/
def Sys2Proof.Spec.PathsOf (s : State) (r : Round) (via : List (Nat × Nat)) : Prop :=
  ∀ p, p ∈ via ↔ p.1 < r.ndev ∧ p.1 ≠ selfIn s r ∧ HopIs s (s.devAddr r.ctx p.1 / 2048 % 32) p.2

/-- R266, R268, R290, R294, R295, R367: a JOINING round opens once its group has joined: at once without splitters, else after the 48 pieces of a legal image have been read; a page that may not be read is a fault, code 3 for a device page and 8 otherwise. Its lanes keep the paths of that moment. An OPEN round is
COMPLETE when every endpoint has had its final close, and NOTIFY is decremented then, or once a credit is free. A lane with a path opens for equal descriptors and faults the round, code 4, for others; a notice faults it with code 0x0A.
The model's own readings that it rests on: log 54, 59, 60, 103. -/
def Obligations.RoundLifeResult : Prop :=
  ∀ (k : Nat) (r : Round) (s : State), s.round k = some r →
    (r.state ≠ .joining ∨ ¬ Joined s r → exec (.roundOpen k) s = .next s) ∧
    (r.state = .joining → Joined s r →
      let opens : State → Round → Prop := fun t f => ∃ via, exec (.roundOpen k) s = .next t ∧ OnlyRoundSlot s t k { f with state := .opened, np := r.parts.length, image := [], via := via } ∧ PathsOf s r via
      (r.split = 0 → ∃ t, opens t r) ∧
      (r.split ≠ 0 → s.requestOf (.round k) = none →
        let a := r.split + 64 * r.image.length
        (∀ cause wl, s.checkVirtual 224 r.ctx a .read 64 64 true = .bad cause wl → ∃ t, exec (.roundOpen k) s = .next t ∧ RoundFaulted s t k r (if cause = 8 then 3 else 8) 0) ∧
        (∀ loc dev, s.checkVirtual 224 r.ctx a .read 64 64 true = .go loc dev → isLocal loc = true →
          let l := r.image ++ [BitVec.ofNat 512 (s.homeRead loc 64)]
          (l.length < 48 → ∃ t, exec (.roundOpen k) s = .next t ∧ OnlyRoundSlot s t k { r with image := l }) ∧
          (l.length = 48 → imageFault { r with image := l } (selfIn s r) = none →
            ∃ t, opens t { r with splitters := (List.range 255).map (pieceWord l)
                                  map := if r.replicated = true then [] else (List.range 256).map (fun b => bits (pieceWord l (256 + b / 2)) (32 * (b % 2)) 32) }) ∧
          (l.length = 48 → (pieceWord l 255 ≠ 0 ∨ pieceWord l 1 < pieceWord l 0) → ∃ t, exec (.roundOpen k) s = .next t ∧ RoundFaulted s t k r 3 0)))) ∧
    (r.state = .opened →
      let final := ∀ e ∈ r.targets (selfIn s r), (r.ingress e).final = true
      (¬ final → exec (.roundComplete k) s = .next s) ∧
      (final → r.notify = 0xFFFFFFFF → ∃ t, exec (.roundComplete k) s = .next t ∧ OnlyRoundSlot s t k { r with state := .complete }) ∧
      (∀ u, final → r.notify ≠ 0xFFFFFFFF → s.decrement r.ctx r.notify = some u → ∃ t, exec (.roundComplete k) s = .next t ∧ OnlyRoundSlot u t k { r with state := .complete }) ∧
      (final → r.notify ≠ 0xFFFFFFFF → s.decrement r.ctx r.notify = none → ∃ t, exec (.roundComplete k) s = .next t ∧
        OnlyRoundSlot { s with owed := s.owed ++ [(r.ctx, r.notify)] } t k { r with state := .complete })) ∧
    (r.state ≠ .opened → exec (.roundComplete k) s = .next s) ∧
    (∀ (d : Nat) (peer : LaneDesc), r.state = .opened → d ∉ r.lanes → d < r.ndev → d ≠ selfIn s r →
      let own : LaneDesc := { group := r.group, flags := r.flags, psz := bits r.desc.toNat 48 8, comb := r.comb, ndev := r.ndev }
      let path := ∃ h, (d, h) ∈ r.via
      (path → peer = own → ∃ t, exec (.laneOpening k d peer) s = .next t ∧ OnlyRoundSlot s t k { r with lanes := r.lanes ++ [d] }) ∧
      (path → peer ≠ own → ∃ t, exec (.laneOpening k d peer) s = .next t ∧ RoundFaulted s t k r 4 d) ∧
      (¬ path → exec (.laneOpening k d peer) s = .next s)) ∧
    (∀ d, (r.state = .joining ∨ r.state = .opened → ∃ t, exec (.faultNotice k d) s = .next t ∧ RoundFaulted s t k r 0x0A d) ∧
      (r.state = .complete ∨ r.state = .faulted → exec (.faultNotice k d) s = .next s))

/-- What waits on the link of half i of an input of stage t enters the queue of its output when that queue, of which `other` is the other half, holds fewer than four records (R278). -/
def Sys2Proof.Spec.entered (t : Nat) (other i : NetInput) : NetInput :=
  match i.waiting with
  | none => i
  | some x =>
    let o := x.2 / 4 ^ (3 - t) % 4
    if (i.q.getD o []).length + (other.q.getD o []).length < 4 then { i with waiting := none, q := i.q.set o (i.q.getD o [] ++ [x]) } else i

/-- A record comes onto the link of half i of an input of stage t: the input shows its key, and the record enters the queue of its output when that holds fewer than four, else it waits (R278). -/
def Sys2Proof.Spec.offered (t : Nat) (other i : NetInput) (x : XRec × Nat) : NetInput :=
  entered t other { i with shown := some x.1.key, waiting := some x }

/-- R274, R285, R294: e is where the record of key n goes: in a replicated round the lowest participant's tile on device 0 and the lane to device 0 elsewhere, in a routed one what the map entry of its bucket names, endpoint 224 + D for another device D. -/
def Sys2Proof.Spec.GoesTo (s : State) (r : Round) (n e : Nat) : Prop :=
  let self := selfIn s r
  let m := r.map.getD (r.splitters.filter (fun p => decide (p ≤ n))).length 0
  if r.replicated = true then (if self = 0 then (∃ p ∈ r.parts, p.tile = e) ∧ ∀ p ∈ r.parts, e ≤ p.tile else e = 224)
  else e = if bits m 8 5 = self then bits m 0 8 else 224 + bits m 8 5

/-- From r to f the record x (with its endpoint) comes onto the link of port p of switch sw of the first stage, in the half for its kind of endpoint; the link shows its key to the other half too (R276, R278). The model's choice of merging the two kinds apart: log 100. -/
def Sys2Proof.Spec.Injected (r f : Round) (sw p : Nat) (x : XRec × Nat) : Prop :=
  let fab := decide (224 ≤ x.2)
  ∀ i, f.input i = if i = inputKey fab 0 sw p then offered 0 (r.input (otherHalf i)) (r.input i) x
    else if i = inputKey (!fab) 0 sw p then { r.input i with shown := some x.1.key } else r.input i

/-- The same for a close (R276). -/
def Sys2Proof.Spec.ClosedAt (r f : Round) (sw p : Nat) : Prop :=
  ∀ i, f.input i = if i = inputKey false 0 sw p ∨ i = inputKey true 0 sw p then { r.input i with close := true } else r.input i

/-- The flags of the round's status word once a lane has brought a record whose combining raised `fl`: in a replicated round those of the combiners go to each device's (R282, R424). -/
def Sys2Proof.Spec.laneFlags (r : Round) (fl : Flags) : Flags :=
  if r.replicated = true then r.fl ||| (fl &&& (fNX ||| fUF ||| fOF ||| fNV)) else r.fl

/-- R269, R274, R276, R278, R282, R285, R291, R294: an egress whose stage-0 link is free reads the next record of its run, and puts it on the link for the endpoint of its bucket, counting it for the bucket and the egress's budget, and sampling the key of every sixteenth; a key below the last one faults the round, code 6;
a stream at its end closes the link. The lane from span device d does the same for what the fabric brings, a record for another device once the local streams have closed being a fault, code 3; in a replicated round what device 0 sends goes to the ingress of every participant of another device, and the flags of what a lane brings to the status word.
The model's own readings that it rests on: log 58, 61, 100, 118. -/
def Sys2Proof.Spec.EgressResult : Prop :=
  ∀ (k : Nat) (r : Round) (s : State), s.round k = some r → r.state = .opened → s.fnReady 240 = true →
    let plain : State → Round → Prop := fun t f => { t with rounds := s.rounds, net := s.net } = s ∧ (∀ j, j ≠ k → t.round j = s.round j) ∧ t.round k = some f
    (∀ (p : Participant) (off left done : Nat) (rest : List (Nat × Nat × Nat)), r.parts.find? (fun q => q.tile == p.tile) = some p → p.runs = (off, left, done) :: rest → p.tile < 192 →
      let sw := p.tile % 64
      let port := p.tile / 64
      let a := p.tile * 2 ^ 21 + off + done * r.RS
      let x : XRec := r.toXRec (bytesAt s.cis a r.RS)
      let b := (r.splitters.filter (fun q => decide (q ≤ x.key))).length
      let free := (r.input (inputKey false 0 sw port)).waiting = none ∧ (r.input (inputKey true 0 sw port)).waiting = none
      (left = 0 → ∃ t, exec (.egressSend k p.tile .none) s = .next t ∧ OnlyRoundSlot s t k { r with parts := r.parts.map (fun q => if q.tile = p.tile then { q with runs := rest } else q) }) ∧
      (0 < left → ¬ free ∨ s.budgetFree (.egress (p.tile / 48)) r.ctx 16 = false → exec (.egressSend k p.tile .none) s = .next s) ∧
      (0 < left → free → s.budgetFree (.egress (p.tile / 48)) r.ctx 16 = true → rangeGranted s r.ctx p.tile (off + done * r.RS) r.RS .read = true →
      (s.window a).busy = false → (s.window (a + r.RS - 1)).busy = false → s.fnReady p.tile = true → s.fnReady (192 + p.tile / 48) = true →
      (∀ e, p.read = 0 ∨ p.last ≤ x.key → GoesTo s r x.key e → ∃ t f, exec (.egressSend k p.tile .none) s = .next t ∧ plain t f ∧
        { f with parts := r.parts, inputs := r.inputs, counts := r.counts } = r ∧ Injected r f sw port (x, e) ∧
        (∀ n, SMap.get 0 f.counts n = if n = b then SMap.get 0 r.counts n + 1 else SMap.get 0 r.counts n) ∧
        f.parts = r.parts.map (fun q => if q.tile ≠ p.tile then q else
          let sampling := q.read % 16 = 0
          let room := q.sampled.length < 4096 / max 1 r.np
          { q with read := q.read + 1, last := x.key, runs := if left = 1 then rest else (off, left - 1, done + 1) :: rest
                   sampled := if sampling ∧ room then q.sampled ++ [x.key] else q.sampled
                   dropped := if sampling ∧ ¬ room then q.dropped + 1 else q.dropped }) ∧
        { t.net with budgets := s.net.budgets } = s.net ∧
        ∀ arb c, t.budgetUsed arb c = s.budgetUsed arb c + if arb = .egress (p.tile / 48) ∧ c = r.ctx then 1 else 0) ∧
      (p.read ≠ 0 → x.key < p.last → ∃ t, exec (.egressSend k p.tile .none) s = .next t ∧
        RoundFaulted s t k { r with parts := r.parts.map (fun q => if q.tile = p.tile then { q with broke := true } else q) } 6 done))) ∧
    (∀ p : Participant, r.parts.find? (fun q => q.tile == p.tile) = some p → p.runs = [] →
      (p.closed = true → p.closeRead = false → p.tile < 192 → ∃ t f, exec (.egressSend k p.tile .none) s = .next t ∧ plain t f ∧ t.net = s.net ∧
        { f with parts := r.parts, inputs := r.inputs } = r ∧ ClosedAt r f (p.tile % 64) (p.tile / 64) ∧
        f.parts = r.parts.map (fun q => if q.tile = p.tile then { q with closeRead := true } else q)) ∧
      (p.closed = false ∨ p.closeRead = true → exec (.egressSend k p.tile .none) s = .next s)) ∧
    (∀ (d : Nat), d ∈ r.lanes → d < r.ndev → d ≠ selfIn s r → d < 32 → (r.replicated = false ∨ selfIn s r = 0) →
      let sw := (224 + d) % 64
      let i := r.input (inputKey false 0 sw 3)
      (∀ (x : XRec) (fl : Flags) (e : Nat), GoesTo s r x.key e → x.key < 2 ^ r.keyBits →
        (e < 224 ∨ r.replicated = true ∨ (∃ p ∈ r.parts, p.closeRead = false) → i.close = false → i.waiting = none → (r.input (inputKey true 0 sw 3)).waiting = none → x.pay.length = r.P → (∀ y, i.shown = some y → y ≤ x.key) →
          ∃ t f, exec (.egressSend k (224 + d) (.record x fl)) s = .next t ∧ plain t f ∧ t.net = s.net ∧ { f with inputs := r.inputs, fl := r.fl } = r ∧ f.fl = laneFlags r fl ∧ Injected r f sw 3 (x, e)) ∧
        (224 ≤ e → r.replicated = false → (∀ p ∈ r.parts, p.closeRead = true) → ∃ t, exec (.egressSend k (224 + d) (.record x fl)) s = .next t ∧
          RoundFaulted s t k r 3 (r.splitters.filter (fun q => decide (q ≤ x.key))).length)) ∧
      (i.close = false → ∃ t f, exec (.egressSend k (224 + d) .close) s = .next t ∧ plain t f ∧ t.net = s.net ∧ { f with inputs := r.inputs } = r ∧ ClosedAt r f sw 3)) ∧
    (0 ∈ r.lanes → 0 < r.ndev → selfIn s r ≠ 0 → r.replicated = true → (r.parts.map (·.tile)).Nodup → (∀ p ∈ r.parts, (r.ingress p.tile).close = false) →
      (∀ (x : XRec) (fl : Flags), x.key < 2 ^ r.keyBits → x.pay.length = r.P → ∃ t f, exec (.egressSend k 224 (.record x fl)) s = .next t ∧ plain t f ∧ t.net = s.net ∧ { f with ins := r.ins, fl := r.fl } = r ∧ f.fl = laneFlags r fl ∧
        ∀ e, f.ingress e = if e ∈ r.parts.map (·.tile) then { r.ingress e with q := (r.ingress e).q ++ [x] } else r.ingress e) ∧
      (∃ t f, exec (.egressSend k 224 .close) s = .next t ∧ plain t f ∧ t.net = s.net ∧ { f with ins := r.ins } = r ∧
        ∀ e, f.ingress e = if e ∈ r.parts.map (·.tile) then { r.ingress e with close := true } else r.ingress e))

/-- Port p of the output's switch has nothing for output o, and can bring no record of key k any more (R279, R283). -/
def Sys2Proof.Spec.NothingAt (r : Round) (self : Nat) (fab : Bool) (t sw o k p : Nat) : Prop :=
  (r.input (inputKey fab t sw p)).q.getD o [] = [] ∧ ((∃ y, (r.input (inputKey fab t sw p)).shown = some y ∧ k < y) ∨ r.inputClosed self fab t sw p = true)

/-- Port p has the one record x of its key for output o at the head of its queue, nothing waits on its link, and it has shown a later key or is closed (R279). -/
def Sys2Proof.Spec.OneAt (r : Round) (self : Nat) (fab : Bool) (t sw o p : Nat) (x : XRec × Nat) (rest : List (XRec × Nat)) : Prop :=
  let i := r.input (inputKey fab t sw p)
  i.q.getD o [] = x :: rest ∧ o < i.q.length ∧ i.waiting = none ∧ (∀ y, rest.head? = some y → y.1.key ≠ x.1.key) ∧ ((∃ y, i.shown = some y ∧ x.1.key < y) ∨ r.inputClosed self fab t sw p = true)

/-- R285: the endpoints that receive what leaves the network at endpoint e: e itself in a routed round; in a replicated one the root of device 0, its lowest participant, hands it to every participant and every lane, and another device's lane to device 0 takes it. -/
def Sys2Proof.Spec.Receives (s : State) (r : Round) (e d : Nat) : Prop :=
  let self := selfIn s r
  if r.replicated = false then d = e
  else if self = 0 then ((∃ p ∈ r.parts, p.tile = e) ∧ ∀ p ∈ r.parts, e ≤ p.tile) ∧ ((∃ p ∈ r.parts, p.tile = d) ∨ ∃ n, n < r.ndev ∧ n ≠ 0 ∧ d = 224 + n)
  else e = 224 ∧ d = e

/-- R278, R279, R280, R281, R283, R285: in a combining round a switch output emits, of the least key at its inputs, one record: the record itself when one port has it, the ports' records combined in ascending port order when two have it; below stage 3 onto its link's input, at stage 3
to the ingress of its endpoint, or, in a replicated round, of all that its root hands it to. When every input is closed and its queues are empty it emits its close. `fab` selects the half of the queues that holds the records for fabric lanes; a record popped makes room for one that waits in the other half.
The model's own readings that it rests on: log 57, 58, 100. -/
def Obligations.MergeResult : Prop :=
  ∀ (k t sw o : Nat) (fab : Bool) (r : Round) (s : State), s.round k = some r → r.state = .opened → s.fnReady 240 = true → t < 4 → sw < 64 → o < 4 →
    SMap.get {} r.outputs (inputKey fab t sw o) = {} → (r.parts.map (·.tile)).Nodup → (∀ p ∈ r.parts, p.tile < 192) → (r.replicated = true → selfIn s r = 0 → r.parts ≠ []) →
    let self := selfIn s r
    let e := 4 * sw + o
    let ev : Instr := .mergeEmit k t sw (o + if fab then 4 else 0)
    let only : State → Round → Prop := fun u f => { u with rounds := s.rounds } = s ∧ (∀ j, j ≠ k → u.round j = s.round j) ∧ u.round k = some f ∧
      { f with inputs := r.inputs, outputs := r.outputs, ins := r.ins, fl := r.fl } = r
    let arrived : Round → (Ingress → Ingress) → Prop := fun f g => ∀ d, (Receives s r e d → f.ingress d = g (r.ingress d)) ∧ (¬ Receives s r e d → f.ingress d = r.ingress d)
    (∀ (p : Nat) (x : XRec × Nat) (rest : List (XRec × Nat)), r.comb ≠ 1 → p < 4 → OneAt r self fab t sw o p x rest → (∀ q, q < 4 → q ≠ p → NothingAt r self fab t sw o x.1.key q) → r.linkFree fab t sw o = true →
      let key := inputKey fab t sw p
      let popped := { r.input key with q := (r.input key).q.set o rest }
      let partner := entered t popped (r.input (otherHalf key))
      ∃ u f, exec ev s = .next u ∧ only u f ∧ f.fl = r.fl ∧
        (t = 3 → (∀ i, f.input i = if i = key then popped else if i = otherHalf key then partner else r.input i) ∧ arrived f (fun i => { i with q := i.q ++ [x.1] })) ∧
        (t < 3 → (∀ i, f.input i = if i = key then popped else if i = otherHalf key then partner else if i = nextInput fab t sw o then offered (t + 1) (r.input (otherHalf i)) (r.input i) x else r.input i) ∧ ∀ d, f.ingress d = r.ingress d)) ∧
    (∀ (p q : Nat) (x y : XRec × Nat) (rest rest' : List (XRec × Nat)), r.comb ≠ 1 → p < q → q < 4 → t = 3 → x.1.key = y.1.key →
      OneAt r self fab t sw o p x rest → OneAt r self fab t sw o q y rest' → (∀ m, m < 4 → m ≠ p → m ≠ q → NothingAt r self fab t sw o x.1.key m) →
      let c := r.combine x.1 y.1
      ∃ u f, exec ev s = .next u ∧ only u f ∧ f.fl = r.fl ||| c.2 ∧ arrived f (fun i => { i with q := i.q ++ [c.1] })) ∧
    ((∀ p, p < 4 → (r.input (inputKey fab t sw p)).q.getD o [] = [] ∧ r.inputClosed self fab t sw p = true) →
      ∃ u f, exec ev s = .next u ∧ only u f ∧ f.fl = r.fl ∧ (SMap.get {} f.outputs (inputKey fab t sw o)).closed = true ∧
        (t = 3 → (∀ i, f.input i = r.input i) ∧ (fab = decide (224 ≤ e) → arrived f (fun i => { i with close := true })) ∧ (fab ≠ decide (224 ≤ e) → ∀ d, f.ingress d = r.ingress d)) ∧
        (t < 3 → (∀ d, f.ingress d = r.ingress d) ∧ ∀ i, f.input i = if i = nextInput fab t sw o then { r.input i with close := true } else r.input i))

/-- R286, R294, R295: an ingress writes the next record into its participant's well while there is room and none has gone to the sump, else, record U of the endpoint, into its slice of the sump; a memory endpoint's goes into its slice of device-virtual memory, a lane's leaves on the lane. A full slice, or a sump
that is needed and absent, is a fault, code 9, a write that its page does not allow one of code 8; after the last record the final close is recorded.
The model's own readings that it rests on: log 54. -/
def Sys2Proof.Spec.IngressResult : Prop :=
  ∀ (k e : Nat) (r : Round) (s : State), s.round k = some r → r.state = .opened → (r.ingress e).final = false → s.fnReady 240 = true →
    let i := r.ingress e
    let rest : Round → XRec → List XRec → Prop := fun f x l => i.q = x :: l ∧ ∀ d, f.ingress d = if d = e then { i with q := l, at_ := 0, count := i.count + 1 } else r.ingress d
    let unit := 225 + 2 * min 3 (e / 48)
    let open_ : Nat → (Nat → Loc) → (Nat → Bool) → Prop := fun a loc dev => s.requestOf (.round (256 * (e + 1) + k)) = none ∧
      ∀ j, j < r.RS / 8 → (s.tlbHit unit r.ctx (a + 8 * j)).isSome = true ∧ s.checkVirtual unit r.ctx (a + 8 * j) .write 8 8 true = .go (loc j) (dev j) ∧ isLocal (loc j) = true
    let bad : Nat → Prop := fun a => s.requestOf (.round (256 * (e + 1) + k)) = none ∧ ∃ cause wl, s.checkVirtual unit r.ctx a .write 8 8 true = .bad cause wl
    let wrote : State → (Nat → Loc) → XRec → Prop := fun t loc x =>
      { t with rounds := s.rounds, hbm := s.hbm, cis := s.cis, host := s.host } = s ∧ (∀ j, j ≠ k → t.round j = s.round j) ∧
      Stored s t (fun j => decide (j < r.RS / 8)) 8 loc (fun j => XRec.raw x / 256 ^ (8 * j))
    (∀ (p : Participant) (x : XRec) (l : List XRec), i.q = x :: l → r.parts.find? (fun q => q.tile == e) = some p → e < 224 →
      let well := p.well.getD (0, 0)
      let fits := p.u = 0 ∧ (p.w + 1) * r.RS ≤ well.2
      let a := e * 2 ^ 21 + (well.1 + p.w * r.RS)
      let b := r.sump + e * r.slice + p.u * r.RS
      (fits → rangeGranted s r.ctx e (well.1 + p.w * r.RS) r.RS .write = true → (s.window a).busy = false → (s.window (a + r.RS - 1)).busy = false → s.fnReady e = true → s.fnReady (192 + e / 48) = true →
        ∃ t f, exec (.ingressDelivery k e) s = .next t ∧ { t with rounds := s.rounds, cis := s.cis } = s ∧ (∀ j, j ≠ k → t.round j = s.round j) ∧ t.round k = some f ∧
          { f with ins := r.ins, parts := r.parts } = r ∧ rest f x l ∧ f.parts = r.parts.map (fun q => if q.tile = e then { q with w := q.w + 1 } else q) ∧
          Stored s t (fun j => j == 0) r.RS (fun _ => .cis a) (fun _ => XRec.raw x)) ∧
      (∀ loc dev, ¬ fits → r.sump ≠ 0 → (p.u + 1) * r.RS ≤ r.slice → i.at_ = 0 → r.RS ≤ 256 → open_ b loc dev →
        ∃ t f, exec (.ingressDelivery k e) s = .next t ∧ wrote t loc x ∧ t.round k = some f ∧ { f with ins := r.ins, parts := r.parts } = r ∧ rest f x l ∧
          f.parts = r.parts.map (fun q => if q.tile = e then { q with u := q.u + 1 } else q)) ∧
      (¬ fits → r.sump ≠ 0 → (p.u + 1) * r.RS ≤ r.slice → i.at_ = 0 → bad b → ∃ t, exec (.ingressDelivery k e) s = .next t ∧ RoundFaulted s t k r 8 0) ∧
      (¬ fits → r.sump = 0 ∨ r.slice < (p.u + 1) * r.RS → ∃ t, exec (.ingressDelivery k e) s = .next t ∧ RoundFaulted s t k r 9 e)) ∧
    (∀ (x : XRec) (l : List XRec), i.q = x :: l → 192 ≤ e → e < 224 → r.parts.find? (fun q => q.tile == e) = none →
      let a := r.mbase + (e - 192) * r.msize + i.count * r.RS
      (∀ loc dev, (i.count + 1) * r.RS ≤ r.msize → r.RS ≤ 256 → i.at_ = 0 → open_ a loc dev →
        ∃ t f, exec (.ingressDelivery k e) s = .next t ∧ wrote t loc x ∧ t.round k = some f ∧ { f with ins := r.ins } = r ∧ rest f x l) ∧
      ((i.count + 1) * r.RS ≤ r.msize → i.at_ = 0 → bad a → ∃ t, exec (.ingressDelivery k e) s = .next t ∧ RoundFaulted s t k r 8 0) ∧
      (r.msize < (i.count + 1) * r.RS → ∃ t, exec (.ingressDelivery k e) s = .next t ∧ RoundFaulted s t k r 9 e)) ∧
    (∀ (x : XRec) (l : List XRec), i.q = x :: l → 224 ≤ e → e - 224 ∈ r.lanes → ∃ t f, exec (.ingressDelivery k e) s = .next t ∧ { t with rounds := s.rounds } = s ∧ (∀ j, j ≠ k → t.round j = s.round j) ∧ t.round k = some f ∧
      { f with ins := r.ins, sentOut := r.sentOut } = r ∧ rest f x l ∧ f.sentOut = r.sentOut ++ [(e - 224, some x)]) ∧
    (i.q = [] → i.close = true → 224 ≤ e → e - 224 ∈ r.lanes → ∃ t f, exec (.ingressDelivery k e) s = .next t ∧ { t with rounds := s.rounds } = s ∧ (∀ j, j ≠ k → t.round j = s.round j) ∧ t.round k = some f ∧
      (∀ d, f.ingress d = if d = e then { i with final := true } else r.ingress d) ∧ f.sentOut = r.sentOut ++ [(e - 224, none)] ∧ e - 224 ∈ f.laneClosed) ∧
    (i.q = [] → i.close = true → e < 224 → ∃ t f, exec (.ingressDelivery k e) s = .next t ∧ { t with rounds := s.rounds } = s ∧ (∀ j, j ≠ k → t.round j = s.round j) ∧ t.round k = some f ∧
      { f with ins := r.ins, parts := r.parts } = r ∧ (∀ d, f.ingress d = if d = e then { i with final := true } else r.ingress d) ∧
      f.parts = r.parts.map (fun q => if q.tile = e then { q with final := true } else q)) ∧
    (i.q = [] → i.close = false → exec (.ingressDelivery k e) s = .next s)

/-! ## The fabric (R364–R378) -/

/-- R374: request a goes before b among those that arrive in one cycle: by fabric address (G, m), then by number. -/
def Sys2Proof.Spec.EarlierRequest (a b : RemoteReq) : Prop :=
  fabricRank a.src < fabricRank b.src ∨ (fabricRank a.src = fabricRank b.src ∧ a.seq.toNat < b.seq.toNat)

/-- R330, R370, R371, R372, R374, R390: a request that a context exports to, and whose number the filter does not hold, is performed once at its home and answered, and the filter saves its number (of a read of idempotent memory nothing); one that the filter holds is answered from it and one already acknowledged is
dropped, neither with any effect; one that no context admits is refused. A reply carries the incarnation and ACKED, counts in the exporting context's fabric budget, waits while that is spent, and is lost where no path leads back. Several that arrive together are taken in the order of (address, number).
The model's own readings that it rests on: log 62, 63, 64. -/
def Sys2Proof.Spec.RemoteRequestResult : Prop :=
  (∀ (q : RemoteReq) (s : State), 0 < q.size → q.size ≤ 256 →
    let f := ((filterOf s q).getD { src := q.src, srcCtx := q.srcCtx, incarnation := q.incarnation, acked := q.acked, performed := [] }).acknowledge q.acked
    let saved := f.performed.find? (fun e => e.1 == q.seq)
    let path := s.portOf q.src
    let replied : State → Bool → Nat → Prop := fun t no data =>
      t.net.replies = if path = none then s.net.replies else s.net.replies ++ [⟨q.src, q.srcCtx, q.incarnation, q.seq, f.acked, no, data⟩]
    let budget := ∀ c g, admits s q = some c → path = some g → s.budgetFree (.port g) c 24 = true
    let counted : State → Prop := fun t => ∀ a d, t.budgetUsed a d = s.budgetUsed a d + match admits s q, path with | some c, some g => if a = .port g ∧ d = c then max 1 ((q.size + 63) / 64) else 0 | _, _ => 0
    let old := bytesAt s.hbm q.pa q.size
    filterOf s q ≠ none ∨ (dropOlder q s.net.filters).length < 512 →
    (∀ e, saved = some e → budget → ∃ t, exec (.remoteRequest [q]) s = .next t ∧ { t with net := s.net } = s ∧ replied t false (e.2.getD 0) ∧ filterOf t q = some f) ∧
    (saved = none → ahead f.acked q.seq = true → ∃ t, exec (.remoteRequest [q]) s = .next t ∧ { t with net := s.net } = s ∧ t.net.replies = s.net.replies ∧ filterOf t q = some f) ∧
    (saved = none → ahead f.acked q.seq = false → admits s q = none → ∃ t, exec (.remoteRequest [q]) s = .next t ∧ { t with net := s.net } = s ∧ replied t true 0) ∧
    (∀ c, saved = none → ahead f.acked q.seq = false → admits s q = some c → budget →
      s.fnReady (State.stackFn q.pa) = true → s.fnReady (State.stackFn (q.pa + q.size - 1)) = true →
      ∃ t, exec (.remoteRequest [q]) s = .next t ∧ { t with net := s.net, hbm := s.hbm } = s ∧ replied t false (if q.op = .write then 0 else old) ∧ counted t ∧
        (q.op = .read → t.hbm = s.hbm ∧ filterOf t q = some (if q.device = true then { f with performed := f.performed ++ [(q.seq, some old)] } else f)) ∧
        (q.op = .write → Stored s t (fun j => j == 0) q.size (fun _ => .hbm q.pa) (fun _ => q.data) ∧ filterOf t q = some { f with performed := f.performed ++ [(q.seq, none)] }) ∧
        (q.op ≠ .read → q.op ≠ .write →
          Stored s t (fun j => j == 0) q.size (fun _ => .hbm q.pa) (fun _ => (newValue q.op (8 * q.size) old (q.data % 256 ^ q.size) (q.expect % 256 ^ q.size)).1) ∧
          filterOf t q = some { f with performed := f.performed ++ [(q.seq, some old)] })) ∧
    (∀ c g, (saved ≠ none ∨ ahead f.acked q.seq = false) → admits s q = some c → path = some g → s.budgetFree (.port g) c 24 = false → exec (.remoteRequest [q]) s = .next s) ∧
    (∀ c, admits s q = some c → (s.ctx c).res = true ∧ s.fabN c 0 4 = q.job.toNat ∧ q.pa + q.size ≤ 576000000000)) ∧
  (∀ (l rest : List RemoteReq) (q : RemoteReq) (s t : State), l.Perm (q :: rest) → (q :: rest).Pairwise EarlierRequest → exec (.remoteRequest [q]) s = .next t →
    exec (.remoteRequest l) s = exec (.remoteRequest rest) t)

/-- R364, R365, R367, R368: local link j of member m leads to member m + 1 + j mod 32 and arrives on its link 30 − j; a used global port's partner leads back to it; port 0 of group 0 of 4 leads to port 2 of group 1. Traffic within the group goes by the local link to where it hops first, traffic to
another group by the lowest port of this device that is up and leads there, else by the link to the lowest member that has one; without a path it goes nowhere.
The model's own readings that it rests on: log 103. -/
def Sys2Proof.Spec.PathResult : Prop :=
  (∀ m j, m < 32 → j < 31 → localLink m ((m + 1 + j) % 32) = j ∧ localLink ((m + 1 + j) % 32) m = 30 - j) ∧
  (∀ ng g x h y, g < ng → ng ≤ 1537 → x ≤ 1535 → globalPeer ng g x = some (h, y) → h ≠ g ∧ h < ng ∧ y ≤ 1535 ∧ globalPeer ng h y = some (g, x)) ∧
  globalPeer 4 0 0 = some (1, 2) ∧ globalPeer 4 1 2 = some (0, 0) ∧ (∀ g x, globalPeer 1 g x = none) ∧
  ∀ (s : State) (a : Nat),
    let m := s.net.ident.member.toNat
    let g := s.net.ident.group.toNat
    let ng := if s.net.ident.ng = 0 then 1 else s.net.ident.ng.toNat
    let leads : Nat → Nat → Prop := fun i x => x < 48 ∧ s.portUp i x = true ∧ ∃ y, globalPeer ng g (48 * i + x) = some (a % 2048, y)
    let owns : Nat → Prop := fun i => i < 32 ∧ i ≠ m ∧ s.linkUp m i = true ∧ ∃ x, leads i x
    (a % 2048 = g → (∀ h, HopIs s (a / 2048 % 32) h → s.portOf a = some (localLink m h)) ∧ ((∀ h, ¬ HopIs s (a / 2048 % 32) h) → s.portOf a = none)) ∧
    (a % 2048 ≠ g →
      (∀ x, leads m x → (∀ y, y < x → ¬ leads m y) → s.portOf a = some (31 + x)) ∧
      (∀ i, (∀ x, ¬ leads m x) → owns i → (∀ j, j < i → ¬ owns j) → s.portOf a = some (localLink m i)) ∧
      ((∀ x, ¬ leads m x) → (∀ i, ¬ owns i) → s.portOf a = none))

/-- R294, R367: the path chosen at OPEN to span device d of the round runs over the local link between members x and y. -/
def Sys2Proof.Spec.LaneUses (s : State) (r : Round) (x y d : Nat) : Prop :=
  let m := s.net.ident.member.toNat
  let b := s.devAddr r.ctx d / 2048 % 32
  ∃ h, (d, h) ∈ r.via ∧ ((m = x ∧ h = y) ∨ (m = y ∧ h = x) ∨ (h ≠ b ∧ ((h = x ∧ b = y) ∨ (h = y ∧ b = x))))

/-- The rounds that are JOINING or OPEN and of which a lane runs over the local link between x and y fault with code 0x0A, and the others stand (R294, R416). -/
def Sys2Proof.Spec.LanesFault (s t : State) (x y : Nat) : Prop :=
  ∀ k r, k < 16 → s.round k = some r →
    ((∀ d, ¬ LaneUses s r x y d) ∨ r.state = .complete ∨ r.state = .faulted → t.round k = some r) ∧
    (r.state = .joining ∨ r.state = .opened → (∃ d, LaneUses s r x y d) →
      ∃ f d, t.round k = some f ∧ LaneUses s r x y d ∧ f.state = .faulted ∧ f.code = 0x0A ∧ f.detail = d ∧ f.parts = r.parts)

/-- R366, R367, R371, R372, R373, R416: a reply is given to the request of its number that waits, is discarded where nobody waits for it any more, and changes no other; a request is sent again, over the path there is then, while it has been sent fewer than five times, and then fails; a filter with nothing saved
is freed; a link that fails for good is FAILED with FCODE 2, its lasting errors counted, and every round of which a lane runs over it, this device's link or another's, faults with code 0x0A.
The model's own readings that it rests on: log 65, 103. -/
def Sys2Proof.Spec.FabricResult : Prop :=
  Sys2Proof.Spec.PathResult ∧
  ∀ s : State,
    (∀ p : RemoteReply,
      let hit : SentReq → Bool := fun r => decide (r.target = p.peer ∧ r.ctx.toNat = p.ctx ∧ r.incarnation.toNat = p.incarnation ∧ r.seq = p.seq ∧ r.reply = none ∧ r.failed = false ∧ r.routed = true)
      let left : SentReq → Bool := fun r => match r.who with | .gone _ _ => true | _ => false
      ∃ t, exec (.remoteReply p) s = .next t ∧ { t with net := { t.net with reqs := s.net.reqs } } = s ∧
      t.net.reqs = (s.net.reqs.filter (fun r => !(hit r && left r))).map (fun r => if hit r = true then { r with reply := some (p.refused, p.data % 256 ^ r.size) } else r)) ∧
    (∀ (n : Nat) (r : SentReq), s.net.reqs[n]? = some r →
      let port := s.portOf r.target
      let left := ∃ k j, r.who = .gone k j
      (r.reply ≠ none ∨ r.failed = true → exec (.resend n) s = .next s) ∧
      (r.reply = none → r.failed = false → 5 ≤ r.sends → ¬ left → exec (.resend n) s = .next { s with net := { s.net with reqs := s.net.reqs.set n { r with failed := true } } }) ∧
      (r.reply = none → r.failed = false → 5 ≤ r.sends → left → exec (.resend n) s = .next { s with net := { s.net with reqs := s.net.reqs.eraseIdx n } }) ∧
      (r.reply = none → r.failed = false → r.sends < 5 → port = none → exec (.resend n) s = .next { s with net := { s.net with reqs := s.net.reqs.set n { r with sends := r.sends + 1 } } }) ∧
      (∀ g, r.reply = none → r.failed = false → r.sends < 5 → port = some g →
        (s.budgetFree (.port g) r.ctx 24 = false → exec (.resend n) s = .next s) ∧
        (s.budgetFree (.port g) r.ctx 24 = true → ∃ t, exec (.resend n) s = .next t ∧
          { t with net := { t.net with reqs := s.net.reqs, budgets := s.net.budgets } } = s ∧ t.net.reqs = s.net.reqs.set n { r with sends := r.sends + 1, routed := true } ∧
          ∀ a d, t.budgetUsed a d = s.budgetUsed a d + if a = .port g ∧ d = r.ctx then max 1 ((r.size + 63) / 64) else 0))) ∧
    (∀ (n : Nat) (f : Filter), s.net.filters[n]? = some f →
      (f.performed = [] → exec (.filterFree n) s = .next { s with net := { s.net with filters := s.net.filters.eraseIdx n } }) ∧
      (f.performed ≠ [] → exec (.filterFree n) s = .next s)) ∧
    (∀ (j : Nat) (loc : BitVec 32), j < 79 → ∃ t, exec (.linkFailed j loc) s = .next t ∧ { t with funcs := s.funcs, rounds := s.rounds, net := s.net, walked := s.walked } = s ∧
      (∀ n, t.func n = if n = 241 + j then { s.func n with state := 3, fcode := 2, last := if (s.func n).last = 255 then 255 else (s.func n).last + 1, loc := loc } else s.func n) ∧
      (31 ≤ j → t.rounds = s.rounds ∧ t.net = s.net ∧ t.walked = s.walked) ∧
      (j < 31 → LanesFault s t s.net.ident.member.toNat ((s.net.ident.member.toNat + 1 + j) % 32))) ∧
    (∀ (a b : Nat) (loc : BitVec 32), a < b → b < 32 → a ≠ s.net.ident.member.toNat → b ≠ s.net.ident.member.toNat →
      ∃ t, exec (.linkFailed (79 + 32 * a + b) loc) s = .next t ∧ { t with rounds := s.rounds, net := s.net, walked := s.walked } = s ∧
        (∀ p, p ∈ t.net.down ↔ p ∈ s.net.down ∨ p = (a, b)) ∧ LanesFault s t a b) ∧
    (∀ (m g : Nat) (loc : BitVec 32), m < 32 → g < 48 → m ≠ s.net.ident.member.toNat →
      ∃ t, exec (.linkFailed (1103 + 48 * m + g) loc) s = .next t ∧ { t with net := { t.net with down := s.net.down } } = s ∧ ∀ p, p ∈ t.net.down ↔ p ∈ s.net.down ∨ p = (m, 32 + g))

/-! ## The host (R379–R388, R412–R414) -/

/-- A completion record of the kind, context byte, status and HSEQ (R384). -/
def Sys2Proof.Spec.CompletionOf (r : BitVec 512) (kind c status : Nat) (hseq : BitVec 32) : Prop :=
  r.extractLsb' 0 32 = BitVec.ofNat 32 kind ∧ r.extractLsb' 64 8 = BitVec.ofNat 8 c ∧ r.extractLsb' 72 8 = BitVec.ofNat 8 status ∧ r.extractLsb' 96 32 = hseq

/-- R385, R388: HTAIL and HACK take only values ahead of their own, HACK none beyond DSEQ. A new HTAIL lets the launch interface read record LASTH + 1, when it has none in hand: one whose HSEQ is that number is taken in hand, one with a later number is refused with status 6, and one with an
earlier number stops the reading until HTAIL is written again.
The model's own readings that it rests on: log 66. -/
def Sys2Proof.Spec.DoorbellResult : Prop :=
  ∀ (v : BitVec 32) (s : State),
    let io := s.io
    let n := io.lasth + 1
    let r := bytesAt io.ring (64 * (io.lasth.toNat % 256)) 64
    let hseq : BitVec 32 := BitVec.ofNat 32 (bits r 32 32)
    let idle := io.inHand = none ∧ io.submitting = none ∧ ahead v io.lasth = true
    (hostUp s = false → exec (.htail v) s = .next s ∧ exec (.hack v) s = .next s) ∧
    (ahead v io.htail = false → exec (.htail v) s = .next s) ∧ (ahead v io.hack = false → exec (.hack v) s = .next s) ∧
    (hostUp s = true → ahead v io.hack = true →
      exec (.hack v) s = .next { s with io := { io with hack := if ahead v io.dseq = true then io.dseq else v } }) ∧
    (hostUp s = true → ahead v io.htail = true →
      (¬ idle → exec (.htail v) s = .next { s with io := { io with htail := v, hold := false } }) ∧
      (idle → hseq = n → exec (.htail v) s = .next { s with io := { io with htail := v, hold := false, lasth := n, inHand := some (BitVec.ofNat 512 r) } }) ∧
      (idle → ahead hseq io.lasth = false → exec (.htail v) s = .next { s with io := { io with htail := v, hold := true } }) ∧
      (idle → ahead hseq io.lasth = true → hseq ≠ n → ∃ t c, exec (.htail v) s = .next t ∧ t = { s with io := { io with htail := v, hold := true, compl := io.compl ++ [c] } } ∧
        CompletionOf c 2 (bits r 64 8) 6 hseq))

/-- R382, R383, R384: a launch record in hand of an unknown kind, with a malformed block or for a resident context is refused with its status, its completion record of kind 2 queued and the record done with. An accepted one makes its context resident with the words of the block, its fabric block, windows,
tables and groups, once no requested window is still being scrubbed, and goes on as the submission of its tasks: each record that can be submitted is, once the stack of its address in the block is READY, and after the last, or once the context has gone, a completion record of kind 1 is queued.
The model's own readings that it rests on: log 41, 68, 69, 70, 102. -/
def Sys2Proof.Spec.LaunchResult : Prop :=
  ∀ s : State, ahead s.io.htail s.io.lasth = false →
    (s.io.submitting = none → s.io.inHand = none → exec .launch s = .next s) ∧
    (∀ r : BitVec 512, s.io.submitting = none → s.io.inHand = some r →
      let kind := bits r.toNat 0 32
      let cb := bits r.toNat 64 8
      let c := BitVec.ofNat 6 cb
      let a := bits r.toNat 128 64
      let n := bits r.toNat 192 64
      let hseq : BitVec 32 := r.extractLsb' 32 32
      let b : LaunchBlock := ⟨s.hbm, a⟩
      let refused : Nat → Prop := fun st => ∃ t x, exec .launch s = .next t ∧ t = { s with io := { s.io with inHand := none, compl := s.io.compl ++ [x] } } ∧ CompletionOf x 2 cb st hseq
      let plain := cb ≤ 63 ∧ bits r.toNat 72 56 = 0 ∧ bits r.toNat 256 256 = 0 ∧ a % 64 = 0 ∧ 1152 ≤ n ∧ a + n ≤ 576000000000
      (kind = 2 → exec .launch s = .next s) ∧
      (kind ≠ 1 → kind ≠ 2 → refused 2) ∧
      (kind = 1 → cb < 64 → (s.ctx c).res = true → refused 1) ∧
      (kind = 1 → (cb < 64 → (s.ctx c).res = false) → ¬ plain → refused 2) ∧
      (kind = 1 → (s.ctx c).res = false → plain → (∀ m, m < 12 → s.fnReady (196 + m) = true) →
        (launchStatus s b n = 0 → (∃ j, j < b.nw ∧ (SMap.get {} s.windows (b.windowIndex j)).busy = true) → exec .launch s = .next s) ∧
        ((bytesAt s.hbm (a + 128) 8) / 2 ^ 37 ≠ 0 ∨ (∃ k, k < 32 ∧ bytesAt s.hbm (a + 256 + 4 * k) 4 / 2 ^ 17 ≠ 0) → refused 2) ∧
        (b.f 0 4 ≠ 1 ∨ 6144 < b.nw ∨ b.f 4 4 ≠ n → refused 2) ∧
        (launchStatus s b n ≠ 0 → refused (launchStatus s b n)) ∧
        (launchStatus s b n = 0 → s.wbuf = [] → (∀ j, j < b.nw → (SMap.get {} s.windows (b.windowIndex j)).busy = false) → ∃ u, exec .launch s = exec .launch u ∧
          u.hbm = s.hbm ∧ u.host = s.host ∧ u.slots = s.slots ∧ u.held = s.held ∧ (∀ d, d ≠ c → u.ctx d = s.ctx d) ∧
          u.io = { s.io with endings := s.io.endings.filter (fun e => e.1 != c), submitting := some ⟨c, (s.ctx c).incarnation + 1, hseq, b.die, a + b.t, b.ntask, none⟩ } ∧
          (let x := u.ctx c
           x.res = true ∧ x.sys = (bytesAt s.hbm (a + 8) 8).testBit 1 ∧ x.ptValid = (bytesAt s.hbm (a + 16) 8).testBit 0 ∧ x.ptRoot = BitVec.ofNat 37 (bytesAt s.hbm (a + 16) 8 / 2 ^ 15) ∧
           x.detm = (bytesAt s.hbm (a + 24) 8).testBit 0 ∧ x.slice = BitVec.ofNat 32 (bytesAt s.hbm (a + 32) 8) ∧ x.cseq = 0 ∧ x.surplus = 0 ∧
           x.incarnation = (s.ctx c).incarnation + 1 ∧ x.subDie = b.die ∧ x.launch = some hseq) ∧
          (∀ i, i < 128 → bytesAt u.net.fab (1024 * cb + 8 * i) 8 = (BitVec.ofNat 64 (bytesAt s.hbm (a + 128 + 8 * i) 8) &&& fabricFields (8 * i)).toNat) ∧
          (∀ j, j < b.nw → let w := SMap.get {} u.windows (b.windowIndex j); w.valid = true ∧ w.ctx = c ∧ w.busy = true) ∧
          (∀ i, (∀ j, j < b.nw → b.windowIndex j ≠ i) → SMap.get {} u.windows i = SMap.get {} s.windows i) ∧
          (∀ j, j < b.nt → let x := u.tile (b.tableReq j); x.tvalid = true ∧ x.owner = c ∧ x.tbusy = true ∧ x.tables = []) ∧
          (∀ i, (∀ j, j < b.nt → b.tableReq j ≠ i) → u.tile i = s.tile i) ∧
          ∀ g ∈ b.groups.getD [], u.group c g.1 = some { members := g.2, arrived := 0, ended := 0, phase := 0 }))) ∧
    (∀ u : Submitting, s.io.submitting = some u →
      let lives := (s.ctx u.ctx).res = true ∧ (s.ctx u.ctx).incarnation = u.incarnation
      (u.left = 0 ∨ ¬ lives → ∃ t x, exec .launch s = .next t ∧ t = { s with io := { s.io with submitting := none, inHand := none, compl := s.io.compl ++ [x] } } ∧
        CompletionOf x 1 u.ctx.toNat 0 u.hseq ∧ x.extractLsb' 128 32 = u.refused.getD 0xFFFFFFFF) ∧
      (∀ n, lives → u.left = n + 1 → s.fnReady (State.stackFn u.next) = false → s.fnFailed (State.stackFn u.next) = false → exec .launch s = .next s) ∧
      (∀ n loc dev, lives → u.left = n + 1 → s.requestOf (.round 65536) = none → s.fnReady (State.stackFn u.next) = true →
        s.checkVirtual 1000 u.ctx (bytesAt s.hbm u.next 8) .read 64 64 true = .go loc dev → isLocal loc = true →
        let v := s.homeRead loc 64
        let res := s.submit u.ctx u.die v
        let rest : Submitting := { u with next := u.next + 8, left := n }
        (res.1 = 0 → exec .launch s = exec .launch { res.2 with io := { res.2.io with submitting := some rest } }) ∧
        (res.1 ≠ 0 → exec .launch s = exec .launch { s with io := { s.io with submitting := some { rest with refused := some (u.refused.getD (parseRec v).id) } } })))

/-- R337, R381, R382: an end record in hand for a context that is not resident is refused with status 7. For a resident one MODE 00 is written into every slot bound to it; when its slots are all FREE it ends, with a completion record of kind 4 that bears the record's HSEQ, and while a slot
still runs a task it stays resident and its end is kept.
The model's own readings that it rests on: log 67, 71. -/
def Sys2Proof.Spec.EndContextResult : Prop :=
  ∀ (s : State) (r : BitVec 512), ahead s.io.htail s.io.lasth = false → s.io.submitting = none → s.io.inHand = some r → s.io.endings = [] → SMap.wf {} s.slots = true →
    let cb := bits r.toNat 64 8
    let c := BitVec.ofNat 6 cb
    let hseq : BitVec 32 := r.extractLsb' 32 32
    let bound : Nat → Prop := fun k => (s.slot k).mode ≠ 0 ∧ (s.slot k).ctx = c
    let runs : Nat → Prop := fun k => s.occupied k = true ∧ (s.slot k).taskCtx = c
    bits r.toNat 0 32 = 2 → cb ≤ 63 → bits r.toNat 72 56 = 0 → bits r.toNat 256 256 = 0 →
    ((s.ctx c).res = false → ∃ t x, exec .endContext s = .next t ∧ t = { s with io := { s.io with inHand := none, compl := s.io.compl ++ [x] } } ∧ CompletionOf x 2 cb 7 hseq) ∧
    ((s.ctx c).res = true → (∀ k, bound k → k < 1536) →
      ((∀ k, bound k → (s.slot k).state = .free ∨ (s.slot k).state = .armed) → (∀ k, ¬ runs k) → ∃ t x, exec .endContext s = .next t ∧
        t.ctx c = { s.ctx c with res := false, dying := false } ∧ (∀ d, d ≠ c → t.ctx d = s.ctx d) ∧ t.hbm = s.hbm ∧ t.host = s.host ∧
        (∀ k, bound k → (t.slot k).mode = 0 ∧ (t.slot k).state = .free) ∧ t.io = { s.io with inHand := none, compl := s.io.compl ++ [x] } ∧
        CompletionOf x 4 cb 0 hseq ∧ x.extractLsb' 448 64 = (s.ctx c).cseq) ∧
      ((∃ k, runs k) → ∃ t, exec .endContext s = .next t ∧ { t with slots := s.slots, io := s.io } = s ∧
        t.io = { s.io with inHand := none, endings := [(c, hseq)] } ∧ (∀ k, ¬ bound k → t.slot k = s.slot k) ∧
        ∀ k, bound k → t.slot k = { s.slot k with mode := 0, err := false, ecode := 0, state := if (s.slot k).state = .armed then .free else (s.slot k).state }))

/-- R380, R384, R385, R386, R387, R412, R414: the oldest waiting completion record is stored at its place in the host's ring under a valid ring word with room in it and a READY port, with DSEQ counted on; the ring word is as written; the host's writes through the HBM window reach the launch ring and HBM; a nonce gives a report that bears it,
EPOCH, the version and digest of the image and the resident contexts, signed with the identity key. None of them has an effect while the host ports are down. A host's READ gives the queue status, the boot word, the rings, the report and HBM, and zero for the doorbell, the nonce and what is not listed; while the boot
has stopped only the boot word is read.
The model's own readings that it rests on: log 18, 72. -/
def Sys2Proof.Spec.HostResult : Prop :=
  ∀ s : State,
    (∀ (r : BitVec 512) (rest : List (BitVec 512)), s.io.compl = r :: rest →
      let n := s.io.dseq + 1
      let w := s.io.cword
      let valid := w.extractLsb' 64 64 = 65536 ∧ w.extractLsb' 186 6 = 0 ∧ w.extractLsb' 192 64 = 0
      let a := (w.extractLsb' 0 64).toNat + 64 * (s.io.dseq.toNat % 1024)
      let port := 320 + (w.extractLsb' 184 2).toNat
      (valid → (n - s.io.hack).toNat ≤ 1024 → s.fnReady port = true → ∃ t, exec .completionRecord s = .next t ∧ { t with host := s.host } = { s with io := { s.io with dseq := n, compl := rest } } ∧
        bytesAt t.host a 4 = bits r.toNat 0 32 ∧ bytesAt t.host (a + 4) 4 = n.toNat ∧ bytesAt t.host (a + 8) 56 = bits r.toNat 64 448 ∧
        ∀ b, (b < a ∨ a + 64 ≤ b) → SMap.get 0 t.host b = SMap.get 0 s.host b) ∧
      (¬ valid ∨ 1024 < (n - s.io.hack).toNat ∨ (s.fnReady port = false ∧ s.fnFailed port = false) → exec .completionRecord s = .next s)) ∧
    (s.io.compl = [] → exec .completionRecord s = .next s) ∧
    (∀ v, exec (.completionRingWord v) s = .next (if hostUp s = true then { s with io := { s.io with cword := v } } else s)) ∧
    (∀ (off : Nat) (bytes : List Byte), hostUp s = true → off + bytes.length ≤ 0x4000 → ∃ t, exec (.hbmWindow off bytes) s = .next t ∧ { t with io := { t.io with ring := s.io.ring } } = s ∧
      ∀ b, SMap.get 0 t.io.ring b = if off ≤ b ∧ b < off + bytes.length then bytes.getD (b - off) 0 else SMap.get 0 s.io.ring b) ∧
    (∀ (p : Nat) (bytes : List Byte), hostUp s = true → p + bytes.length ≤ 576000000000 → (∀ m, m < 12 → s.fnReady (196 + m) = true) → ∃ t, exec (.hbmWindow (2 ^ 32 + p) bytes) s = .next t ∧
      { t with hbm := s.hbm } = s ∧ ∀ b, SMap.get 0 t.hbm b = if p ≤ b ∧ b < p + bytes.length then bytes.getD (b - p) 0 else SMap.get 0 s.hbm b) ∧
    (∀ nonce, hostUp s = true → ∃ t r, exec (.attestationNonce nonce) s = .next t ∧ { t with fresh := s.fresh } = { s with io := { s.io with nonce := nonce, report := some r } } ∧
      r.extractLsb' 0 32 = 1 ∧ r.extractLsb' 32 32 = 3501 ∧ r.extractLsb' 64 16 = s.io.epoch ∧ r.extractLsb' 80 48 = 0 ∧ r.extractLsb' 128 64 = s.rom.version ∧
      r.extractLsb' 192 512 = s.rom.digest ∧ r.extractLsb' 1216 256 = nonce ∧
      (∀ n, s.rom.identity = some n → r.extractLsb' 704 512 = shake256 512 (natBytes (publicKey n).toNat 1952) ∧
        r.extractLsb' 1536 26472 = signature n (natBytes (r.extractLsb' 0 1536).toNat 192) s.fresh) ∧
      ∀ c, c < 64 → r.getLsbD (1472 + c) = (s.ctx (BitVec.ofNat 6 c)).res) ∧
    (hostUp s = false → ∀ nonce off bytes, exec (.attestationNonce nonce) s = .next s ∧ exec (.hbmWindow off bytes) s = .next s) ∧
    let word : Nat → Nat → Nat → Prop := fun off n v => ∃ l, hostRead s off n = some l ∧ l.length = n ∧ bytesNat l = v
    (hostUp s = true → word 0x4000 4 s.io.lasth.toNat ∧ word 0x4004 4 s.io.dseq.toNat ∧ word 0x4008 4 s.io.hack.toNat ∧ word 0x400C 4 s.io.epoch.toNat ∧
      word 0x4010 8 s.io.boot.toNat ∧ word 0x4020 16 0 ∧ word 0x4040 32 s.io.cword.toNat ∧ word 0x6000 32 0 ∧ (∀ r, s.io.report = some r → word 0x6040 3501 r.toNat) ∧
      (∀ off, off + 8 ≤ 0x4000 → word off 8 (bytesAt s.io.ring off 8)) ∧ (∀ off, 0x9000 ≤ off → off + 8 ≤ 2 ^ 32 → word off 8 0) ∧
      (∀ p, p + 8 ≤ 576000000000 → (∀ m, m < 12 → s.fnReady (196 + m) = true) → word (2 ^ 32 + p) 8 (bytesAt s.hbm p 8))) ∧
    (s.io.boot ≠ 0 → word 0x4010 8 s.io.boot.toNat ∧ ∀ off n, (off < 0x4010 ∨ 0x4018 < off + n) → hostRead s off n = none)

/-! ## Bring-up, power and errors (R407–R416) -/

/-- A device reset (R388, R410): every field at its reset value, but for the host's memory, what fuses and boot ROM keep, EPOCH, which counts on, and the model's own agenda, scheduling and counter of free values. -/
def Sys2Proof.Spec.ResetFrom (s : State) : State :=
  { State.reset with host := s.host, agenda := s.agenda, sched := s.sched, fresh := s.fresh, rom := s.rom, io := { State.reset.io with epoch := s.io.epoch + 1 } }

/-- R367, R407, R408, R410, R412, R413: a boot with an image that can be read, whose key is the fused one and whose signature verifies, and whose version is not below the fused minimum sends every function into its self-test, raises the minimum and, the first time, makes the identity key; another leaves all OFF and BOOT names
the first check that failed. A passed test makes the function READY and arms the bound FREE slots of its tile, a failed one FAILED with FCODE 1; a write of FAILED gives FCODE 3, and of a local link faults the rounds over it; a clock step moves the die's step by one between 0 and 8, down while the die is over its limit or 95 °C;
a thermal reset resets the device.
The model's own readings that it rests on: log 18, 21, 81. -/
def Sys2Proof.Spec.BringUpResult : Prop :=
  ∀ s : State,
    (∀ (epoch : BitVec 16), (∀ n, n < 324 → (s.func n).state = 0) →
      let booted : BitVec 4 → State := fun b => { s with io := { s.io with boot := b, epoch := if s.io.epoch = 0 then epoch else s.io.epoch } }
      exec (.powerOn none epoch) s = .next (booted 1) ∧
      ∀ i : BootImage,
        let signed := shake256 256 (natBytes i.key.toNat 1952) = Config.fusedKey ∧ verifies i.key i.body i.sig = true
        (¬ signed → exec (.powerOn (some i) epoch) s = .next (booted 2)) ∧
        (signed → i.version.toNat < s.rom.minVersion.toNat → exec (.powerOn (some i) epoch) s = .next (booted 3)) ∧
        (signed → s.rom.minVersion.toNat ≤ i.version.toNat → ∃ t, exec (.powerOn (some i) epoch) s = .next t ∧
          { t with funcs := s.funcs, rom := s.rom, fresh := s.fresh } = booted 0 ∧
          t.rom.minVersion.toNat = max s.rom.minVersion.toNat i.raises.toNat ∧ (∃ n, t.rom.identity = some n) ∧ (∀ n, s.rom.identity = some n → t.rom.identity = some n) ∧
          t.rom.version = i.version ∧ t.rom.digest = shake256 512 i.body ∧
          ∀ n, t.func n = if n < 324 then { s.func n with state := 1 } else s.func n)) ∧
    (∀ image epoch n, n < 324 → (s.func n).state ≠ 0 → exec (.powerOn image epoch) s = .next s) ∧
    (∀ (n : Nat) (passed : Bool), n < 324 → (s.func n).state = 1 → ∃ t, exec (.selfTestEnd n passed) s = .next t ∧ { t with funcs := s.funcs, slots := s.slots } = s ∧
      (∀ m, t.func m = if m = n then (if passed = true then { s.func n with state := 2 } else { s.func n with state := 3, fcode := 1 }) else s.func m) ∧
      ∀ k, t.slot k = if passed = true ∧ n < 192 ∧ k / 8 = n ∧ (s.slot k).state = .free ∧ (s.slot k).mode ≠ 0 then { s.slot k with state := .armed } else s.slot k) ∧
    (∀ n passed, (s.func n).state ≠ 1 → exec (.selfTestEnd n passed) s = .next s) ∧
    (∀ n, n < 324 → ∃ t, exec (.failedWrite n) s = .next t ∧ { t with funcs := s.funcs, rounds := s.rounds, net := s.net, walked := s.walked } = s ∧
      (∀ m, t.func m = if m = n then { s.func n with state := 3, fcode := 3 } else s.func m) ∧
      (n < 241 ∨ 272 ≤ n → t.rounds = s.rounds ∧ t.net = s.net ∧ t.walked = s.walked) ∧
      (241 ≤ n → n < 272 → LanesFault s t s.net.ident.member.toNat ((s.net.ident.member.toNat + 1 + (n - 241)) % 32))) ∧
    (∀ (d : Nat) (m : Sensors), d < 4 →
      let p : Power := SMap.get {} s.power d
      let limit := if p.plim.toNat < 100 ∨ 520 < p.plim.toNat then 520 else p.plim.toNat
      let hot := limit < m.watts ∨ 95 < m.temp
      let moves : BitVec 4 → Prop := fun v => ∃ t, exec (.clockStep d m) s = .next t ∧ { t with power := s.power } = s ∧
        ∀ e, SMap.get {} t.power e = if e = d then { p with step := v } else SMap.get {} s.power e
      (hot → p.step.toNat < 8 → moves (p.step + 1)) ∧ (¬ hot → p.step ≠ 0 → moves (p.step - 1)) ∧
      ((hot ∧ 8 ≤ p.step.toNat) ∨ (¬ hot ∧ p.step = 0) → exec (.clockStep d m) s = .next s)) ∧
    exec .thermalReset s = .next (ResetFrom s)

/-- R415, R416: a corrected error counts in TRANS of its function; a lasting one counts in LAST and sets LOC, and kills the context that owns the failing word with reason 4; in the management core it resets the device; a channel's faults it with FCAUSE 0x09 before the kill; a link's is the link's failure.
The model's own readings that it rests on: log 22, 73. -/
def Sys2Proof.Spec.SoftErrorResult : Prop :=
  ∀ (p : ErrorPlace) (loc : BitVec 32) (hart : Option Nat) (s : State),
    (∀ n, ErrorPlace.fn p = some n → n < 324 → ∃ t, exec (.softError p false loc hart) s = .next t ∧ { t with funcs := s.funcs } = s ∧
      ∀ m, t.func m = if m = n then { s.func n with trans := if (s.func n).trans = 0xFFFF then 0xFFFF else (s.func n).trans + 1 } else s.func m) ∧
    (ErrorPlace.fn p = none → exec (.softError p false loc hart) s = .next s) ∧
    exec (.softError .management true loc hart) s = .next (ResetFrom s) ∧
    (∀ j, j < 79 → exec (.softError (.link j) true loc hart) s = exec (.linkFailed j loc) s) ∧
    (∀ n, ErrorPlace.fn p = some n → n < 324 → (∀ j, p ≠ .link j) →
      let counted : State → Prop := fun u => { u with funcs := s.funcs } = s ∧
        ∀ m, u.func m = if m = n then { s.func n with last := if (s.func n).last = 255 then 255 else (s.func n).last + 1, loc := loc } else s.func m
      (ErrorPlace.owner s p = none → ∃ u, exec (.softError p true loc hart) s = .next u ∧ counted u) ∧
      (∀ c, (∀ j, p ≠ .channel j) → ErrorPlace.owner s p = some c → ∃ u t, exec (.softError p true loc hart) s = .next t ∧ counted u ∧ Killed u t c 4) ∧
      (∀ c j x, p = .channel j → s.chan j = some x → x.detached = false → ErrorPlace.owner s p = some c → ∃ u v t, exec (.softError p true loc hart) s = .next t ∧ counted u ∧
        CommandFault u v j x 9 (match x.inProgress with | some r => r.index | none => x.next) ∧ Killed v t c 4)) ∧
    (∀ k, s.occupied k = true → (s.ctx (s.ctxOf k)).res = true → (s.ctx (s.ctxOf k)).dying = false → ErrorPlace.owner s (.hart k) = some (s.ctxOf k)) ∧
    (∀ w, (SMap.get {} s.windows w).valid = true → (s.ctx (SMap.get {} s.windows w).ctx).res = true → (s.ctx (SMap.get {} s.windows w).ctx).dying = false →
      ErrorPlace.owner s (.window w) = some (SMap.get {} s.windows w).ctx)

/-- R53, R193, R319, R350, R364, R407, R410: the layout of what firmware reads: slot-table entries, window entries, switch words, the identity word, binding-table entries, status words and power words. -/
def Sys2Proof.Spec.FirmwareReads : Prop :=
  ∀ s : State,
    let word : Nat → Word := fun a => BitVec.ofNat 64 (mgmtRead s a)
    (∀ k, k < 1536 →
      let v := s.slot k
      let w := word (16 * k)
      let w' := word (16 * k + 8)
      let x := word (0x1C000 + 16 * k)
      w.extractLsb' 0 2 = v.mode ∧ w.extractLsb' 2 6 = v.ctx ∧ w.extractLsb' 8 3 = v.prio ∧ w.extractLsb' 11 2 = v.die ∧ w.getLsbD 13 = v.once ∧ w.extractLsb' 14 2 = 0 ∧
      w.extractLsb' 16 3 = (match v.state with | .free => 0 | .armed => 1 | .running => 2 | .waiting => 3 | .halted => 4 | .saved => 5) ∧
      w.getLsbD 19 = v.err ∧ w.extractLsb' 20 4 = v.ecode ∧ w.extractLsb' 24 8 = 0 ∧ w.extractLsb' 32 32 = v.task ∧ w'.extractLsb' 0 32 = v.ndisp ∧ w'.extractLsb' 32 32 = v.nsteal ∧
      x.extractLsb' 0 4 = 0 ∧ x.getLsbD 4 = v.haltbk ∧ x.getLsbD 7 = v.busy ∧ x.getLsbD 8 = v.refused ∧ x.extractLsb' 16 16 = v.scode ∧ word (0x1C000 + 16 * k + 8) = v.img) ∧
    (∀ i, i < 6144 →
      let v : Window := SMap.get {} s.windows i
      let w := word (0x8000 + 4 * i)
      w.extractLsb' 0 6 = v.ctx ∧ w.getLsbD 6 = v.rd ∧ w.getLsbD 7 = v.wr ∧ w.getLsbD 8 = v.valid ∧ w.getLsbD 9 = v.busy ∧ w.extractLsb' 10 54 = 0) ∧
    (∀ c j b, c < 64 → j < 64 → SMap.find? s.bindings (64 * c + j) = some b →
      let e : BitVec 256 := BitVec.ofNat 256 (mgmtRead s (0x80000 + 2048 * c + 32 * j) + mgmtRead s (0x80000 + 2048 * c + 32 * j + 8) * 2 ^ 64 +
        mgmtRead s (0x80000 + 2048 * c + 32 * j + 16) * 2 ^ 128 + mgmtRead s (0x80000 + 2048 * c + 32 * j + 24) * 2 ^ 192)
      e.extractLsb' 0 64 = b.obj ∧ e.extractLsb' 64 58 = b.base ∧ e.extractLsb' 122 6 = b.k ∧ e.extractLsb' 128 2 = b.space ∧
      e.extractLsb' 130 11 = b.holder ∧ e.getLsbD 141 = b.valid ∧ e.extractLsb' 142 114 = 0) ∧
    (let w := word 0x50000
     w.extractLsb' 0 11 = s.net.ident.group ∧ w.extractLsb' 11 5 = s.net.ident.member ∧ w.extractLsb' 16 11 = s.net.ident.ng ∧ w.extractLsb' 27 37 = 0) ∧
    (∀ n, n < 324 →
      let f := s.func n
      let w := word (0x70000 + 8 * n)
      w.extractLsb' 0 2 = f.state ∧ w.extractLsb' 2 2 = 0 ∧ w.extractLsb' 4 4 = f.fcode ∧ w.extractLsb' 8 16 = f.trans ∧ w.extractLsb' 24 8 = f.last ∧ w.extractLsb' 32 32 = f.loc) ∧
    (∀ d, d < 4 →
      let p : Power := SMap.get {} s.power d
      let w := word (0x71000 + 8 * d)
      w.extractLsb' 0 12 = p.plim ∧ w.extractLsb' 12 4 = p.step ∧ w.extractLsb' 16 48 = 0)

/-! ## Statements of several families -/

/-- The widening and the narrowing integer instructions. -/
def Obligations.WidthChangeResult : Prop := Sys2Proof.Spec.WideningResult ∧ Sys2Proof.Spec.NarrowResult

/-- The sign rules of zero and NaN, the rounding modes, sums, products, quotients and roots rounded from their exact values, the special values, minimum and maximum, classes, conversions, powers and logarithms of two.
The model's own readings that it rests on: log 11, 107. -/
def Obligations.FloatRules : Prop :=
  Sys2Proof.Spec.FloatSignRules ∧ Sys2Proof.Spec.RoundingModes ∧ Sys2Proof.Spec.FloatArithmeticRules ∧ Sys2Proof.Spec.FloatSpecialRules ∧
  Sys2Proof.Spec.FloatSelectRules ∧ Sys2Proof.Spec.FloatConversionRules

/-- Integer and float comparisons into masks and scalars. -/
def Obligations.ComparisonResult : Prop := Sys2Proof.Spec.CompareResult ∧ Sys2Proof.Spec.FloatCompareResult

/-- Moves, selections and the mask instructions. -/
def Obligations.MoveAndMaskResult : Prop := Sys2Proof.Spec.MoveResult ∧ Sys2Proof.Spec.MaskResult

/-- Branches, jumps and immediates. -/
def Obligations.ControlFlowResult : Prop := Sys2Proof.Spec.BranchResult ∧ Sys2Proof.Spec.JumpAndImmediateResult

/-- What MFCR reads, what MTCR writes, and who may. -/
def Obligations.ControlRegisters : Prop := Sys2Proof.Spec.ControlRegisterRead ∧ Sys2Proof.Spec.ControlRegisterWrite ∧ Sys2Proof.Spec.PrivilegedRegisters

/-- A change of the lane partition, made at once or by its event. -/
def Obligations.LanePartition : Prop := Sys2Proof.Spec.PartitionWrite ∧ Sys2Proof.Spec.PartitionEvents

/-- SETVL, and the instructions that wait or give way. -/
def Obligations.LengthAndWaiting : Prop := Sys2Proof.Spec.SetvlResult ∧ Sys2Proof.Spec.WaitAndYield

/-- Traps of operands, those of empty ones among them, and of scalar and vector accesses. -/
def Obligations.TrapConditions : Prop := Sys2Proof.Spec.OperandTraps ∧ Sys2Proof.Spec.AccessTrap ∧ Sys2Proof.Spec.VectorAccessTrap ∧ Sys2Proof.Spec.EmptyOperandTraps

/-- A step runs the decoded instruction, or the agenda's next move. -/
def Obligations.StepRuns : Prop := Sys2Proof.Spec.StepRunsDecoded ∧ Sys2Proof.Spec.StepRunsAgenda

/-- Claims of macros and accumulator rows, and reading rows. -/
def Obligations.MacroAndAccumulatorAccess : Prop := Sys2Proof.Spec.MacroClaims ∧ Sys2Proof.Spec.AccumulatorRead

/-- Cross-element instructions on integers and floats. -/
def Obligations.CrossResult : Prop := Sys2Proof.Spec.CrossElementResult ∧ Sys2Proof.Spec.FloatCrossResult

/-- LDQ and STQ. -/
def Obligations.NarrowAccessResult : Prop := Sys2Proof.Spec.NarrowLoadResult ∧ Sys2Proof.Spec.QuantiseRule ∧ Sys2Proof.Spec.NarrowStoreResult

/-- Atomics, performed at once or held for the phase. -/
def Obligations.AtomicsResult : Prop := Sys2Proof.Spec.AtomicResult ∧ Sys2Proof.Spec.HeldAddResult

/-- Requests to a slot, and the debug port. -/
def Obligations.SlotControl : Prop := Sys2Proof.Spec.SlotRequests ∧ Sys2Proof.Spec.DebugPort

/-- Saving and restoring a slot's task. -/
def Obligations.SwitchResult : Prop := Sys2Proof.Spec.SaveResult ∧ Sys2Proof.Spec.RestoreResult

/-- The data commands of a channel. -/
def Obligations.PumpDataResult : Prop := Sys2Proof.Spec.DataCommandResult ∧ Sys2Proof.Spec.RequantResult

/-- What egresses and ingresses of a round do. -/
def Obligations.EndpointResult : Prop := Sys2Proof.Spec.EgressResult ∧ Sys2Proof.Spec.IngressResult

/-- Remote requests at their target and source, and links. -/
def Obligations.RemoteAccessResult : Prop := Sys2Proof.Spec.RemoteRequestResult ∧ Sys2Proof.Spec.FabricResult

/-- The doorbell, completion records, the HBM window and attestation. -/
def Obligations.HostInterface : Prop := Sys2Proof.Spec.DoorbellResult ∧ Sys2Proof.Spec.HostResult

/-- A context's launch, its kill, and its end by firmware or by the host. -/
def Obligations.ContextFromHost : Prop := Sys2Proof.Spec.LaunchResult ∧ Sys2Proof.Spec.KillAndEndResult ∧ Sys2Proof.Spec.EndContextResult

/-- Bring-up, power and soft errors. -/
def Obligations.PowerAndErrors : Prop := Sys2Proof.Spec.BringUpResult ∧ Sys2Proof.Spec.SoftErrorResult

/-- The instructions by which a hart opens, steers, reads and halts channels, and the reads of their streams as operands. -/
def Obligations.ChannelInstructions : Prop := Sys2Proof.Spec.ChannelOpen ∧ Sys2Proof.Spec.ChannelUse ∧ Sys2Proof.Spec.StreamReadResult

/-- Windows, lane tables and translations, and what firmware reads. -/
def Obligations.ManagementState : Prop := Sys2Proof.Spec.ManagementTables ∧ Sys2Proof.Spec.TranslationResult ∧ Sys2Proof.Spec.FirmwareReads

end
end

