-- ==== Sys2Proof/Laws/Encoding.lean ====
section
/-! SUPPORT. What the three word layouts keep of their fields: reading a field of a packed word gives the field. -/

namespace Sys2Proof.Laws
open Sys2Proof

set_option linter.unusedSimpArgs false

variable (op : BitVec 7) (f : BitVec 2) (w : BitVec 3) (d a b : BitVec 6) (p q : Bool)

theorem fld_toNat (x : IWord) (lo n : Nat) : (fld x lo n).toNat = x.toNat / 2 ^ lo % 2 ^ n := by
  simp [fld, Nat.shiftRight_eq_div_pow]

theorem bit_eq (x : IWord) (lo : Nat) : bit x lo = decide (x.toNat / 2 ^ lo % 2 = 1) := by
  simp [bit, BitVec.getLsbD, Nat.testBit_eq_decide_div_mod_eq]

theorem raw_toNat : (raw op f w d a b p q).toNat =
    op.toNat * 2 ^ 25 + f.toNat * 2 ^ 23 + w.toNat * 2 ^ 20 + d.toNat * 2 ^ 14 + a.toNat * 2 ^ 8 + b.toNat * 2 ^ 2
      + p.toNat * 2 + q.toNat := by
  have := op.isLt; have := f.isLt; have := w.isLt; have := d.isLt; have := a.isLt; have := b.isLt
  have hp : p.toNat < 2 := by cases p <;> decide
  have hq : q.toNat < 2 := by cases q <;> decide
  simp only [raw, BitVec.toNat_append, BitVec.toNat_ofBool]
  rw [← Nat.shiftLeft_add_eq_or_of_lt (by omega), ← Nat.shiftLeft_add_eq_or_of_lt (by omega),
    ← Nat.shiftLeft_add_eq_or_of_lt (by omega), ← Nat.shiftLeft_add_eq_or_of_lt (by omega),
    ← Nat.shiftLeft_add_eq_or_of_lt (by omega), ← Nat.shiftLeft_add_eq_or_of_lt (by omega),
    ← Nat.shiftLeft_add_eq_or_of_lt (by omega)]
  simp only [Nat.shiftLeft_eq]
  omega

/-- A field of a packed word, as a number. -/
theorem fld_raw (lo n : Nat) : (fld (raw op f w d a b p q) lo n).toNat =
    (op.toNat * 2 ^ 25 + f.toNat * 2 ^ 23 + w.toNat * 2 ^ 20 + d.toNat * 2 ^ 14 + a.toNat * 2 ^ 8 + b.toNat * 2 ^ 2
      + p.toNat * 2 + q.toNat) / 2 ^ lo % 2 ^ n := by
  rw [fld_toNat, raw_toNat]

theorem raw_op : fld (raw op f w d a b p q) 25 7 = op := by
  have := op.isLt; have := f.isLt; have := w.isLt; have := d.isLt; have := a.isLt; have := b.isLt
  have hp : p.toNat < 2 := by cases p <;> decide
  have hq : q.toNat < 2 := by cases q <;> decide
  apply BitVec.eq_of_toNat_eq
  rw [fld_raw]
  omega

theorem raw_f : fld (raw op f w d a b p q) 23 2 = f := by
  have := op.isLt; have := f.isLt; have := w.isLt; have := d.isLt; have := a.isLt; have := b.isLt
  have hp : p.toNat < 2 := by cases p <;> decide
  have hq : q.toNat < 2 := by cases q <;> decide
  apply BitVec.eq_of_toNat_eq
  rw [fld_raw]
  omega

theorem raw_w : fld (raw op f w d a b p q) 20 3 = w := by
  have := op.isLt; have := f.isLt; have := w.isLt; have := d.isLt; have := a.isLt; have := b.isLt
  have hp : p.toNat < 2 := by cases p <;> decide
  have hq : q.toNat < 2 := by cases q <;> decide
  apply BitVec.eq_of_toNat_eq
  rw [fld_raw]
  omega

theorem raw_d : fld (raw op f w d a b p q) 14 6 = d := by
  have := op.isLt; have := f.isLt; have := w.isLt; have := d.isLt; have := a.isLt; have := b.isLt
  have hp : p.toNat < 2 := by cases p <;> decide
  have hq : q.toNat < 2 := by cases q <;> decide
  apply BitVec.eq_of_toNat_eq
  rw [fld_raw]
  omega

theorem raw_a : fld (raw op f w d a b p q) 8 6 = a := by
  have := op.isLt; have := f.isLt; have := w.isLt; have := d.isLt; have := a.isLt; have := b.isLt
  have hp : p.toNat < 2 := by cases p <;> decide
  have hq : q.toNat < 2 := by cases q <;> decide
  apply BitVec.eq_of_toNat_eq
  rw [fld_raw]
  omega

theorem raw_b : fld (raw op f w d a b p q) 2 6 = b := by
  have := op.isLt; have := f.isLt; have := w.isLt; have := d.isLt; have := a.isLt; have := b.isLt
  have hp : p.toNat < 2 := by cases p <;> decide
  have hq : q.toNat < 2 := by cases q <;> decide
  apply BitVec.eq_of_toNat_eq
  rw [fld_raw]
  omega

/-- Any cut of a packed word is the cut of its number. -/
theorem raw_cut (lo n : Nat) : fld (raw op f w d a b p q) lo n = BitVec.ofNat n
    ((op.toNat * 2 ^ 25 + f.toNat * 2 ^ 23 + w.toNat * 2 ^ 20 + d.toNat * 2 ^ 14 + a.toNat * 2 ^ 8 + b.toNat * 2 ^ 2
      + p.toNat * 2 + q.toNat) / 2 ^ lo) := by
  apply BitVec.eq_of_toNat_eq
  rw [fld_raw, BitVec.toNat_ofNat]

theorem raw_p : bit (raw op f w d a b p q) 1 = p := by
  have hq : q.toNat < 2 := by cases q <;> decide
  rw [bit_eq, raw_toNat]
  cases p <;> simp only [Bool.toNat_true, Bool.toNat_false, decide_eq_true_eq, decide_eq_false_iff_not] <;> omega

theorem raw_q : bit (raw op f w d a b p q) 0 = q := by
  rw [bit_eq, raw_toNat]
  cases q <;> simp only [Bool.toNat_true, Bool.toNat_false, decide_eq_true_eq, decide_eq_false_iff_not] <;> omega

theorem append_toNat {m n : Nat} (x : BitVec m) (y : BitVec n) : (x ++ y).toNat = x.toNat * 2 ^ n + y.toNat := by
  rw [BitVec.toNat_append, ← Nat.shiftLeft_add_eq_or_of_lt y.isLt, Nat.shiftLeft_eq]

theorem cut_toNat {m : Nat} (x : BitVec m) (lo n : Nat) : (x.extractLsb' lo n).toNat = x.toNat / 2 ^ lo % 2 ^ n := by
  rw [BitVec.extractLsb'_toNat, Nat.shiftRight_eq_div_pow]

theorem raw_fw : fld (raw op f w d a b p q) 20 5 = f ++ w := by
  have := op.isLt; have := f.isLt; have := w.isLt; have := d.isLt; have := a.isLt; have := b.isLt
  have hp : p.toNat < 2 := by cases p <;> decide
  have hq : q.toNat < 2 := by cases q <;> decide
  apply BitVec.eq_of_toNat_eq
  rw [fld_raw]
  simp only [append_toNat, cut_toNat, BitVec.toNat_ofBool]
  omega

theorem raw_q1 : fld (raw op f w d a b p q) 0 1 = BitVec.ofBool q := by
  have := op.isLt; have := f.isLt; have := w.isLt; have := d.isLt; have := a.isLt; have := b.isLt
  have hp : p.toNat < 2 := by cases p <;> decide
  have hq : q.toNat < 2 := by cases q <;> decide
  apply BitVec.eq_of_toNat_eq
  rw [fld_raw]
  simp only [append_toNat, cut_toNat, BitVec.toNat_ofBool]
  omega

theorem raw_p1 : fld (raw op f w d a b p q) 1 1 = BitVec.ofBool p := by
  have := op.isLt; have := f.isLt; have := w.isLt; have := d.isLt; have := a.isLt; have := b.isLt
  have hp : p.toNat < 2 := by cases p <;> decide
  have hq : q.toNat < 2 := by cases q <;> decide
  apply BitVec.eq_of_toNat_eq
  rw [fld_raw]
  simp only [append_toNat, cut_toNat, BitVec.toNat_ofBool]
  omega

theorem raw_pq : fld (raw op f w d a b p q) 0 2 = BitVec.ofBool p ++ BitVec.ofBool q := by
  have := op.isLt; have := f.isLt; have := w.isLt; have := d.isLt; have := a.isLt; have := b.isLt
  have hp : p.toNat < 2 := by cases p <;> decide
  have hq : q.toNat < 2 := by cases q <;> decide
  apply BitVec.eq_of_toNat_eq
  rw [fld_raw]
  simp only [append_toNat, cut_toNat, BitVec.toNat_ofBool]
  omega

theorem raw_dhi : fld (raw op f w d a b p q) 16 4 = d.extractLsb' 2 4 := by
  have := op.isLt; have := f.isLt; have := w.isLt; have := d.isLt; have := a.isLt; have := b.isLt
  have hp : p.toNat < 2 := by cases p <;> decide
  have hq : q.toNat < 2 := by cases q <;> decide
  apply BitVec.eq_of_toNat_eq
  rw [fld_raw]
  simp only [append_toNat, cut_toNat, BitVec.toNat_ofBool]
  omega

theorem raw_dlo : fld (raw op f w d a b p q) 14 2 = d.extractLsb' 0 2 := by
  have := op.isLt; have := f.isLt; have := w.isLt; have := d.isLt; have := a.isLt; have := b.isLt
  have hp : p.toNat < 2 := by cases p <;> decide
  have hq : q.toNat < 2 := by cases q <;> decide
  apply BitVec.eq_of_toNat_eq
  rw [fld_raw]
  simp only [append_toNat, cut_toNat, BitVec.toNat_ofBool]
  omega

theorem raw_bhi2 : fld (raw op f w d a b p q) 6 2 = b.extractLsb' 4 2 := by
  have := op.isLt; have := f.isLt; have := w.isLt; have := d.isLt; have := a.isLt; have := b.isLt
  have hp : p.toNat < 2 := by cases p <;> decide
  have hq : q.toNat < 2 := by cases q <;> decide
  apply BitVec.eq_of_toNat_eq
  rw [fld_raw]
  simp only [append_toNat, cut_toNat, BitVec.toNat_ofBool]
  omega

theorem raw_blo4 : fld (raw op f w d a b p q) 2 4 = b.extractLsb' 0 4 := by
  have := op.isLt; have := f.isLt; have := w.isLt; have := d.isLt; have := a.isLt; have := b.isLt
  have hp : p.toNat < 2 := by cases p <;> decide
  have hq : q.toNat < 2 := by cases q <;> decide
  apply BitVec.eq_of_toNat_eq
  rw [fld_raw]
  simp only [append_toNat, cut_toNat, BitVec.toNat_ofBool]
  omega

theorem raw_blo3 : fld (raw op f w d a b p q) 2 3 = b.extractLsb' 0 3 := by
  have := op.isLt; have := f.isLt; have := w.isLt; have := d.isLt; have := a.isLt; have := b.isLt
  have hp : p.toNat < 2 := by cases p <;> decide
  have hq : q.toNat < 2 := by cases q <;> decide
  apply BitVec.eq_of_toNat_eq
  rw [fld_raw]
  simp only [append_toNat, cut_toNat, BitVec.toNat_ofBool]
  omega

theorem raw_bhi3 : fld (raw op f w d a b p q) 5 3 = b.extractLsb' 3 3 := by
  have := op.isLt; have := f.isLt; have := w.isLt; have := d.isLt; have := a.isLt; have := b.isLt
  have hp : p.toNat < 2 := by cases p <;> decide
  have hq : q.toNat < 2 := by cases q <;> decide
  apply BitVec.eq_of_toNat_eq
  rw [fld_raw]
  simp only [append_toNat, cut_toNat, BitVec.toNat_ofBool]
  omega

theorem raw_low5 : fld (raw op f w d a b p q) 0 5 = b.extractLsb' 0 3 ++ BitVec.ofBool p ++ BitVec.ofBool q := by
  have := op.isLt; have := f.isLt; have := w.isLt; have := d.isLt; have := a.isLt; have := b.isLt
  have hp : p.toNat < 2 := by cases p <;> decide
  have hq : q.toNat < 2 := by cases q <;> decide
  apply BitVec.eq_of_toNat_eq
  rw [fld_raw]
  simp only [append_toNat, cut_toNat, BitVec.toNat_ofBool]
  omega

theorem raw_low14 : fld (raw op f w d a b p q) 0 14 = a ++ b ++ BitVec.ofBool p ++ BitVec.ofBool q := by
  have := op.isLt; have := f.isLt; have := w.isLt; have := d.isLt; have := a.isLt; have := b.isLt
  have hp : p.toNat < 2 := by cases p <;> decide
  have hq : q.toNat < 2 := by cases q <;> decide
  apply BitVec.eq_of_toNat_eq
  rw [fld_raw]
  simp only [append_toNat, cut_toNat, BitVec.toNat_ofBool]
  omega

theorem raw_low20 : fld (raw op f w d a b p q) 0 20 = d ++ a ++ b ++ BitVec.ofBool p ++ BitVec.ofBool q := by
  have := op.isLt; have := f.isLt; have := w.isLt; have := d.isLt; have := a.isLt; have := b.isLt
  have hp : p.toNat < 2 := by cases p <;> decide
  have hq : q.toNat < 2 := by cases q <;> decide
  apply BitVec.eq_of_toNat_eq
  rw [fld_raw]
  simp only [append_toNat, cut_toNat, BitVec.toNat_ofBool]
  omega

theorem raw_low25 : fld (raw op f w d a b p q) 0 25 = f ++ w ++ d ++ a ++ b ++ BitVec.ofBool p ++ BitVec.ofBool q := by
  have := op.isLt; have := f.isLt; have := w.isLt; have := d.isLt; have := a.isLt; have := b.isLt
  have hp : p.toNat < 2 := by cases p <;> decide
  have hq : q.toNat < 2 := by cases q <;> decide
  apply BitVec.eq_of_toNat_eq
  rw [fld_raw]
  simp only [append_toNat, cut_toNat, BitVec.toNat_ofBool]
  omega

theorem raw_da : fld (raw op f w d a b p q) 8 12 = d ++ a := by
  have := op.isLt; have := f.isLt; have := w.isLt; have := d.isLt; have := a.isLt; have := b.isLt
  have hp : p.toNat < 2 := by cases p <;> decide
  have hq : q.toNat < 2 := by cases q <;> decide
  apply BitVec.eq_of_toNat_eq
  rw [fld_raw]
  simp only [append_toNat, cut_toNat, BitVec.toNat_ofBool]
  omega

theorem raw_fwda : fld (raw op f w d a b p q) 8 17 = f ++ w ++ d ++ a := by
  have := op.isLt; have := f.isLt; have := w.isLt; have := d.isLt; have := a.isLt; have := b.isLt
  have hp : p.toNat < 2 := by cases p <;> decide
  have hq : q.toNat < 2 := by cases q <;> decide
  apply BitVec.eq_of_toNat_eq
  rw [fld_raw]
  simp only [append_toNat, cut_toNat, BitVec.toNat_ofBool]
  omega

theorem raw_fwd : fld (raw op f w d a b p q) 14 11 = f ++ w ++ d := by
  have := op.isLt; have := f.isLt; have := w.isLt; have := d.isLt; have := a.isLt; have := b.isLt
  have hp : p.toNat < 2 := by cases p <;> decide
  have hq : q.toNat < 2 := by cases q <;> decide
  apply BitVec.eq_of_toNat_eq
  rw [fld_raw]
  simp only [append_toNat, cut_toNat, BitVec.toNat_ofBool]
  omega

theorem raw_fw2 : fld (raw op f w d a b p q) 21 4 = f ++ w.extractLsb' 1 2 := by
  have := op.isLt; have := f.isLt; have := w.isLt; have := d.isLt; have := a.isLt; have := b.isLt
  have hp : p.toNat < 2 := by cases p <;> decide
  have hq : q.toNat < 2 := by cases q <;> decide
  apply BitVec.eq_of_toNat_eq
  rw [fld_raw]
  simp only [append_toNat, cut_toNat, BitVec.toNat_ofBool]
  omega

theorem raw_w2 : fld (raw op f w d a b p q) 21 2 = w.extractLsb' 1 2 := by
  have := op.isLt; have := f.isLt; have := w.isLt; have := d.isLt; have := a.isLt; have := b.isLt
  have hp : p.toNat < 2 := by cases p <;> decide
  have hq : q.toNat < 2 := by cases q <;> decide
  apply BitVec.eq_of_toNat_eq
  rw [fld_raw]
  simp only [append_toNat, cut_toNat, BitVec.toNat_ofBool]
  omega

theorem raw_ab : fld (raw op f w d a b p q) 2 12 = a ++ b := by
  have := op.isLt; have := f.isLt; have := w.isLt; have := d.isLt; have := a.isLt; have := b.isLt
  have hp : p.toNat < 2 := by cases p <;> decide
  have hq : q.toNat < 2 := by cases q <;> decide
  apply BitVec.eq_of_toNat_eq
  rw [fld_raw]
  simp only [append_toNat, cut_toNat, BitVec.toNat_ofBool]
  omega

/-! Cuts of a field that is itself packed. -/

theorem cut_hi {m n : Nat} (x : BitVec m) (y : BitVec n) : (x ++ y).extractLsb' n m = x := by
  apply BitVec.eq_of_toNat_eq
  rw [cut_toNat, append_toNat, Nat.mul_comm, Nat.mul_add_div (Nat.two_pow_pos n), Nat.div_eq_of_lt y.isLt, Nat.add_zero,
    Nat.mod_eq_of_lt x.isLt]

theorem cut_lo {m n : Nat} (x : BitVec m) (y : BitVec n) : (x ++ y).extractLsb' 0 n = y := by
  apply BitVec.eq_of_toNat_eq
  rw [cut_toNat, append_toNat, Nat.pow_zero, Nat.div_one, Nat.mul_comm, Nat.mul_add_mod, Nat.mod_eq_of_lt y.isLt]

theorem bit0_ofBool {m : Nat} (x : BitVec m) (v : Bool) : (x ++ BitVec.ofBool v).getLsbD 0 = v := by
  rw [BitVec.getLsbD, append_toNat]
  cases v <;> simp [BitVec.toNat_ofBool, Nat.testBit_eq_decide_div_mod_eq]

theorem join6 (x : BitVec 12) : x.extractLsb' 6 6 ++ x.extractLsb' 0 6 = x := by
  apply BitVec.eq_of_toNat_eq
  rw [append_toNat, cut_toNat, cut_toNat]
  have := x.isLt
  omega

theorem ofBool_append_zero (v u : Bool) : (BitVec.ofBool v ++ BitVec.ofBool u : BitVec 2) = 0 ↔ v = false ∧ u = false := by
  cases v <;> cases u <;> decide

theorem raw_w0 : bit (raw op f w d a b p q) 20 = w.getLsbD 0 := by
  have hp : p.toNat < 2 := by cases p <;> decide
  have hq : q.toNat < 2 := by cases q <;> decide
  have := d.isLt; have := a.isLt; have := b.isLt
  rw [bit_eq, raw_toNat]
  simp only [BitVec.getLsbD, Nat.testBit_eq_decide_div_mod_eq]
  congr 1
  rw [eq_iff_iff]
  constructor <;> intro h <;> omega

/-! ## Formats B and I -/

variable (c : BitVec 3) (o : BitVec 10) (i : BitVec 19)

theorem packB_toNat : (packB op c a b o).toNat = op.toNat * 2 ^ 25 + c.toNat * 2 ^ 22 + a.toNat * 2 ^ 16 + b.toNat * 2 ^ 10 + o.toNat := by
  simp only [packB, append_toNat]; omega

theorem packI_toNat : (packI op d i).toNat = op.toNat * 2 ^ 25 + d.toNat * 2 ^ 19 + i.toNat := by
  simp only [packI, append_toNat]; omega

theorem packB_op : fld (packB op c a b o) 25 7 = op := by
  have := op.isLt; have := c.isLt; have := a.isLt; have := b.isLt; have := o.isLt
  apply BitVec.eq_of_toNat_eq
  rw [fld_toNat, packB_toNat]
  omega

theorem packB_c : fld (packB op c a b o) 22 3 = c := by
  have := op.isLt; have := c.isLt; have := a.isLt; have := b.isLt; have := o.isLt
  apply BitVec.eq_of_toNat_eq
  rw [fld_toNat, packB_toNat]
  omega

theorem packB_a : fld (packB op c a b o) 16 6 = a := by
  have := op.isLt; have := c.isLt; have := a.isLt; have := b.isLt; have := o.isLt
  apply BitVec.eq_of_toNat_eq
  rw [fld_toNat, packB_toNat]
  omega

theorem packB_b : fld (packB op c a b o) 10 6 = b := by
  have := op.isLt; have := c.isLt; have := a.isLt; have := b.isLt; have := o.isLt
  apply BitVec.eq_of_toNat_eq
  rw [fld_toNat, packB_toNat]
  omega

theorem packB_o : fld (packB op c a b o) 0 10 = o := by
  have := op.isLt; have := c.isLt; have := a.isLt; have := b.isLt; have := o.isLt
  apply BitVec.eq_of_toNat_eq
  rw [fld_toNat, packB_toNat]
  omega

theorem packI_op : fld (packI op d i) 25 7 = op := by
  have := op.isLt; have := d.isLt; have := i.isLt
  apply BitVec.eq_of_toNat_eq
  rw [fld_toNat, packI_toNat]
  omega

theorem packI_d : fld (packI op d i) 19 6 = d := by
  have := op.isLt; have := d.isLt; have := i.isLt
  apply BitVec.eq_of_toNat_eq
  rw [fld_toNat, packI_toNat]
  omega

theorem packI_i : fld (packI op d i) 0 19 = i := by
  have := op.isLt; have := d.isLt; have := i.isLt
  apply BitVec.eq_of_toNat_eq
  rw [fld_toNat, packI_toNat]
  omega

end Sys2Proof.Laws
end

