-- ==== Sys2Proof/Laws/Memory.lean ====
section
/-! SUPPORT. The memories keep their canonical form under every memory operation (`Memory.wf`). -/

namespace Sys2Proof.Machine.Memory
open Sys2Proof

theorem wf_iff (s : State) : Memory.wf s = true ↔ SMap.wf 0 s.hbm = true ∧ SMap.wf 0 s.cis = true ∧ SMap.wf 0 s.host = true := by
  simp [Memory.wf, and_assoc]

theorem wf_reset : Memory.wf State.reset = true := by decide

theorem wf_homeWrite (s : State) (loc : Loc) (n v : Nat) (h : Memory.wf s = true) : Memory.wf (s.homeWrite loc n v) = true := by
  rw [wf_iff] at *
  obtain ⟨h1, h2, h3⟩ := h
  cases loc <;> simp only [State.homeWrite]
  · exact ⟨wf_putBytes _ _ _ _ h1, h2, h3⟩
  · exact ⟨h1, wf_putBytes _ _ _ _ h2, h3⟩
  · exact ⟨h1, h2, wf_putBytes _ _ _ _ h3⟩
  · exact ⟨h1, h2, h3⟩

theorem wf_performWrite (s : State) (k : Nat) (loc : Loc) (n v : Nat) (h : Memory.wf s = true) :
    Memory.wf (s.performWrite k loc n v) = true := wf_homeWrite s loc n v h

theorem wf_drainIf (s : State) (p : BufWrite → Bool) (h : Memory.wf s = true) : Memory.wf (s.drainIf p) = true := by
  have key : ∀ (l : List (BufWrite × Bool)) (t : State), Memory.wf t = true →
      Memory.wf (l.foldl (fun st q => if q.2 then st.performWrite q.1.slot q.1.loc q.1.n q.1.v else st) t) = true := by
    intro l
    induction l with
    | nil => exact fun t ht => ht
    | cons q l ih =>
      intro t ht
      apply ih
      dsimp only
      split
      · exact wf_performWrite t _ _ _ _ ht
      · exact ht
  exact key (State.takes p s.wbuf) s h

theorem wf_writeLoc (s : State) (k : Nat) (loc : Loc) (n v : Nat) (dev : Bool) (h : Memory.wf s = true) :
    Memory.wf (s.writeLoc k loc n v dev) = true := by
  unfold State.writeLoc
  split
  · exact h
  · exact wf_performWrite _ _ _ _ _ (wf_drainIf s _ h)

theorem wf_fenceDevice (s : State) (k : Nat) (h : Memory.wf s = true) : Memory.wf (s.fenceDevice k) = true :=
  wf_drainIf s _ h

/-- Reading back what was written at a home: the value's low n bytes. -/
theorem homeRead_homeWrite (s : State) (loc : Loc) (n v : Nat) (hp : ∀ d a, loc ≠ .peer d a) :
    (s.homeWrite loc n v).homeRead loc n = v % 256 ^ n := by
  cases loc with
  | hbm a => exact bytesAt_putBytes s.hbm a n v
  | cis a => exact bytesAt_putBytes s.cis a n v
  | host a => exact bytesAt_putBytes s.host a n v
  | peer d a => exact absurd rfl (hp d a)

theorem homeRead_succ (s : State) (loc : Loc) (n : Nat) :
    s.homeRead loc (n + 1) = s.homeRead loc 1 + 256 * s.homeRead (State.locAdd loc 1) n := by
  cases loc <;> simp [State.homeRead, bytesAt, State.locAdd]

theorem heldByte_nil (s : State) (h : Holder) (loc : Loc) (hc : s.copies = []) : s.heldByte h loc = none := by
  simp [State.heldByte, hc]

theorem copyByte_nil (s : State) (k : Nat) (loc : Loc) (hc : s.copies = []) : s.copyByte k loc = none := by
  cases loc <;> simp [State.copyByte, heldByte_nil s _ _ hc]

/-- With no write buffered and no copy held, a hart reads what stands at the home. -/
theorem readLoc_home (s : State) (k : Nat) (loc : Loc) (n : Nat) (h : s.wbuf = []) (hc : s.copies = []) :
    s.readLoc k loc n = s.homeRead loc n := by
  induction n generalizing loc with
  | zero => cases loc <;> rfl
  | succ n ih =>
    rw [homeRead_succ, ← ih]
    simp [State.readLoc, State.readByte, h, copyByte_nil s k loc hc]

theorem readClass_home (s : State) (k : Nat) (loc : Loc) (n : Nat) (dev : Bool) (h : s.wbuf = []) (hc : s.copies = []) :
    s.readClass k loc n dev = s.homeRead loc n := by
  unfold State.readClass
  split
  · rw [readLoc_home { s with copies := [] } k loc n h rfl]
    cases loc <;> rfl
  · exact readLoc_home s k loc n h hc

/-- A fetch that holds no copy reads what stands at the home. -/
theorem fetchLoc_home (s : State) (k : Nat) (loc : Loc) (n : Nat) (hc : s.copies = []) : s.fetchLoc k loc n = s.homeRead loc n := by
  induction n generalizing loc with
  | zero => cases loc <;> rfl
  | succ n ih =>
    rw [homeRead_succ, ← ih]
    simp [State.fetchLoc, heldByte_nil s _ _ hc]

/-- With no write buffered, draining changes nothing. -/
theorem drainIf_nil (s : State) (p : BufWrite → Bool) (h : s.wbuf = []) : s.drainIf p = s := by
  cases s; simp_all [State.drainIf, State.takes]

/-- With no copy held, dropping and refreshing change nothing. -/
theorem dropCopies_nil (s : State) (k : Nat) (loc : Loc) (n : Nat) (hc : s.copies = []) : s.dropCopies k loc n = s := by
  cases s; simp_all [State.dropCopies]

theorem refreshHart_nil (s : State) (k : Nat) (hc : s.copies = []) : s.refreshHart k = s := by
  cases s; simp_all [State.refreshHart, State.dropEarly]

theorem refreshTile_nil (s : State) (k : Nat) (hc : s.copies = []) : s.refreshTile k = s := by
  cases s; simp_all [State.refreshTile, State.refreshHart, State.dropEarly]

theorem refreshWell_nil (s : State) (k : Nat) (hc : s.copies = []) : s.refreshWell k = s := by
  cases s; simp_all [State.refreshWell, State.dropEarly]

theorem refreshData_nil (s : State) (k : Nat) (hc : s.copies = []) : s.refreshData k = s := by
  rw [State.refreshData, refreshWell_nil s k hc]
  cases s; simp_all

theorem fenceDevice_nil (s : State) (k : Nat) (h : s.wbuf = []) (hc : s.copies = []) : s.fenceDevice k = s := by
  rw [State.fenceDevice, drainIf_nil s _ h, refreshTile_nil s k hc]

theorem fenceTile_nil (s : State) (k : Nat) (h : s.wbuf = []) (hc : s.copies = []) : s.fenceTile k = s := by
  cases s; simp_all [State.fenceTile, State.refreshHart, State.dropEarly]

end Sys2Proof.Machine.Memory
end

