-- ==== Sys2Proof/Laws/Numbers.lean ====
section
/-! SUPPORT. The number helpers as bit-vector operations (R12). -/

namespace Sys2Proof.Machine
open Sys2Proof

theorem zx_eq (a w : Nat) : zx a w = ((BitVec.ofNat w a).toNat : Int) := by simp [zx]

theorem sx_eq (a w : Nat) : sx a w = (BitVec.ofNat w a).toInt := by
  simp only [sx, BitVec.toInt_eq_toNat_cond, BitVec.toNat_ofNat]

theorem wrap_eq (v : Int) (w : Nat) : wrap v w = (BitVec.ofInt w v).toNat := by simp [wrap]

theorem wrap_lt (v : Int) (w : Nat) : wrap v w < 2 ^ w := by rw [wrap_eq]; exact (BitVec.ofInt w v).isLt

@[simp] theorem wrap_toNat {w : Nat} (x : BitVec w) : wrap (x.toNat : Int) w = x.toNat := by
  rw [wrap_eq]; simp

theorem word_eq (v : Int) : word v = BitVec.ofInt 64 v := rfl

/-- An SS result is the value at its width, sign-extended to 64 bits (R106). -/
theorem ssResult_eq (v : Int) (w : Nat) (hw : w = 32 ∨ w = 64) : ssResult w v = (BitVec.ofInt w v).signExtend 64 := by
  rcases hw with rfl | rfl
  · simp only [ssResult, ↓reduceIte, word, sx_eq, wrap_eq, BitVec.ofNat_toNat, BitVec.setWidth_eq]
    rfl
  · simp [ssResult, word]

theorem widthOf_cases (c : BitVec 3) : widthOf c = 2 ∨ widthOf c = 4 ∨ widthOf c = 8 ∨ widthOf c = 16 ∨ widthOf c = 32 ∨
    widthOf c = 64 ∨ widthOf c = 128 ∨ widthOf c = 256 := by revert c; decide

end Sys2Proof.Machine
end

