-- ==== Sys2Proof/Laws/PerInstr.lean ====
section
/-! SUPPORT. Per-instruction laws. RoundTrip: decoding the word of a well-formed instruction gives the instruction back. -/

namespace Sys2Proof.Laws
open Sys2Proof

/-- Decoding what `encode` writes gives the instruction, with every field at every value its entry admits (R18–R37). -/
def RoundTrip.Statement (i : Instr) : Prop := i.wellFormed = true → ∀ w, encode i = some w → decode w = .ok i

namespace RoundTrip

set_option linter.unusedSimpArgs false
set_option Elab.async false

/-- What every lemma below does: the word is packed, its fields are read back. -/
theorem of_eq {i : Instr} {w : IWord} (e : encode i = some w) (h : i.wellFormed = true → decode w = .ok i) : Statement i := by
  intro wf v hv
  rw [e] at hv
  injection hv with hv
  subst hv
  exact h wf

theorem of_none {i : Instr} (e : encode i = none) : Statement i := by
  intro _ v hv
  rw [e] at hv
  cases hv

/-- The primary opcode chooses the row. -/
theorem decode_raw (op : BitVec 7) (f : BitVec 2) (w : BitVec 3) (d a b : BitVec 6) (p q : Bool) :
    decode (raw op f w d a b p q) = decodeOp op.toNat (raw op f w d a b p q) := by rw [decode, raw_op]

theorem decode_packB (op : BitVec 7) (c : BitVec 3) (a b : BitVec 6) (o : BitVec 10) :
    decode (packB op c a b o) = decodeOp op.toNat (packB op c a b o) := by rw [decode, packB_op]

theorem decode_packI (op : BitVec 7) (d : BitVec 6) (i : BitVec 19) :
    decode (packI op d i) = decodeOp op.toNat (packI op d i) := by rw [decode, packI_op]

/-- An escape opcode's secondary opcode chooses the row. -/
theorem esc7C (f : BitVec 2) (w : BitVec 3) (d a b : BitVec 6) (p q : Bool) :
    decode (raw 0x7C f w d a b p q) = decodeEsc7C (f ++ w).toNat (raw 0x7C f w d a b p q) := by
  rw [decode_raw]; exact congrArg (fun x => decodeEsc7C (BitVec.toNat x) _) (raw_fw ..)
theorem esc7D (f : BitVec 2) (w : BitVec 3) (d a b : BitVec 6) (p q : Bool) :
    decode (raw 0x7D f w d a b p q) = decodeEsc7D (f ++ w).toNat (raw 0x7D f w d a b p q) := by
  rw [decode_raw]; exact congrArg (fun x => decodeEsc7D (BitVec.toNat x) _) (raw_fw ..)
theorem esc7E (f : BitVec 2) (w : BitVec 3) (d a b : BitVec 6) (p q : Bool) :
    decode (raw 0x7E f w d a b p q) = decodeEsc7E (f ++ w).toNat (raw 0x7E f w d a b p q) := by
  rw [decode_raw]; exact congrArg (fun x => decodeEsc7E (BitVec.toNat x) _) (raw_fw ..)
theorem esc7F (f : BitVec 2) (w : BitVec 3) (d a b : BitVec 6) (p q : Bool) :
    decode (raw 0x7F f w d a b p q) = decodeEsc7F (f ++ w).toNat (raw 0x7F f w d a b p q) := by
  rw [decode_raw]; exact congrArg (fun x => decodeEsc7F (BitVec.toNat x) _) (raw_fw ..)
theorem mlog (w : BitVec 3) (d a b : BitVec 6) (p q : Bool) :
    decode (raw 0x5B 0#2 w d a b p q) = decodeMlog w.toNat (raw 0x5B 0#2 w d a b p q) := by
  rw [decode_raw]
  show (if fld (raw 0x5B 0#2 w d a b p q) 23 2 ≠ 0 then _ else _) = _
  rw [raw_f, if_neg (fun h => h rfl), raw_w]

theorem add (x : ArgsA) : Statement (.add x) := of_eq rfl <| by
  intro _
  rw [decode_raw]
  show Except.ok _ = _
  simp only [unArgsA, raw_f, raw_w, raw_d, raw_a, raw_b, raw_p, raw_q, cut_hi, cut_lo, bit0_ofBool, join6]
theorem sub (x : ArgsA) : Statement (.sub x) := of_eq rfl <| by
  intro _
  rw [decode_raw]
  show Except.ok _ = _
  simp only [unArgsA, raw_f, raw_w, raw_d, raw_a, raw_b, raw_p, raw_q, cut_hi, cut_lo, bit0_ofBool, join6]
theorem adds (x : ArgsA) : Statement (.adds x) := of_eq rfl <| by
  intro _
  rw [decode_raw]
  show Except.ok _ = _
  simp only [unArgsA, raw_f, raw_w, raw_d, raw_a, raw_b, raw_p, raw_q, cut_hi, cut_lo, bit0_ofBool, join6]
theorem addsu (x : ArgsA) : Statement (.addsu x) := of_eq rfl <| by
  intro _
  rw [decode_raw]
  show Except.ok _ = _
  simp only [unArgsA, raw_f, raw_w, raw_d, raw_a, raw_b, raw_p, raw_q, cut_hi, cut_lo, bit0_ofBool, join6]
theorem subs (x : ArgsA) : Statement (.subs x) := of_eq rfl <| by
  intro _
  rw [decode_raw]
  show Except.ok _ = _
  simp only [unArgsA, raw_f, raw_w, raw_d, raw_a, raw_b, raw_p, raw_q, cut_hi, cut_lo, bit0_ofBool, join6]
theorem subsu (x : ArgsA) : Statement (.subsu x) := of_eq rfl <| by
  intro _
  rw [decode_raw]
  show Except.ok _ = _
  simp only [unArgsA, raw_f, raw_w, raw_d, raw_a, raw_b, raw_p, raw_q, cut_hi, cut_lo, bit0_ofBool, join6]
theorem mul (x : ArgsA) : Statement (.mul x) := of_eq rfl <| by
  intro _
  rw [decode_raw]
  show Except.ok _ = _
  simp only [unArgsA, raw_f, raw_w, raw_d, raw_a, raw_b, raw_p, raw_q, cut_hi, cut_lo, bit0_ofBool, join6]
theorem mulh (x : ArgsA) : Statement (.mulh x) := of_eq rfl <| by
  intro _
  rw [decode_raw]
  show Except.ok _ = _
  simp only [unArgsA, raw_f, raw_w, raw_d, raw_a, raw_b, raw_p, raw_q, cut_hi, cut_lo, bit0_ofBool, join6]
theorem mulhu (x : ArgsA) : Statement (.mulhu x) := of_eq rfl <| by
  intro _
  rw [decode_raw]
  show Except.ok _ = _
  simp only [unArgsA, raw_f, raw_w, raw_d, raw_a, raw_b, raw_p, raw_q, cut_hi, cut_lo, bit0_ofBool, join6]
theorem mac (x : ArgsA) : Statement (.mac x) := of_eq rfl <| by
  intro _
  rw [decode_raw]
  show Except.ok _ = _
  simp only [unArgsA, raw_f, raw_w, raw_d, raw_a, raw_b, raw_p, raw_q, cut_hi, cut_lo, bit0_ofBool, join6]
theorem div (x : ArgsA) : Statement (.div x) := of_eq rfl <| by
  intro _
  rw [decode_raw]
  show Except.ok _ = _
  simp only [unArgsA, raw_f, raw_w, raw_d, raw_a, raw_b, raw_p, raw_q, cut_hi, cut_lo, bit0_ofBool, join6]
theorem divu (x : ArgsA) : Statement (.divu x) := of_eq rfl <| by
  intro _
  rw [decode_raw]
  show Except.ok _ = _
  simp only [unArgsA, raw_f, raw_w, raw_d, raw_a, raw_b, raw_p, raw_q, cut_hi, cut_lo, bit0_ofBool, join6]
theorem rem (x : ArgsA) : Statement (.rem x) := of_eq rfl <| by
  intro _
  rw [decode_raw]
  show Except.ok _ = _
  simp only [unArgsA, raw_f, raw_w, raw_d, raw_a, raw_b, raw_p, raw_q, cut_hi, cut_lo, bit0_ofBool, join6]
theorem remu (x : ArgsA) : Statement (.remu x) := of_eq rfl <| by
  intro _
  rw [decode_raw]
  show Except.ok _ = _
  simp only [unArgsA, raw_f, raw_w, raw_d, raw_a, raw_b, raw_p, raw_q, cut_hi, cut_lo, bit0_ofBool, join6]
theorem min (x : ArgsA) : Statement (.min x) := of_eq rfl <| by
  intro _
  rw [decode_raw]
  show Except.ok _ = _
  simp only [unArgsA, raw_f, raw_w, raw_d, raw_a, raw_b, raw_p, raw_q, cut_hi, cut_lo, bit0_ofBool, join6]
theorem minu (x : ArgsA) : Statement (.minu x) := of_eq rfl <| by
  intro _
  rw [decode_raw]
  show Except.ok _ = _
  simp only [unArgsA, raw_f, raw_w, raw_d, raw_a, raw_b, raw_p, raw_q, cut_hi, cut_lo, bit0_ofBool, join6]
theorem max (x : ArgsA) : Statement (.max x) := of_eq rfl <| by
  intro _
  rw [decode_raw]
  show Except.ok _ = _
  simp only [unArgsA, raw_f, raw_w, raw_d, raw_a, raw_b, raw_p, raw_q, cut_hi, cut_lo, bit0_ofBool, join6]
theorem maxu (x : ArgsA) : Statement (.maxu x) := of_eq rfl <| by
  intro _
  rw [decode_raw]
  show Except.ok _ = _
  simp only [unArgsA, raw_f, raw_w, raw_d, raw_a, raw_b, raw_p, raw_q, cut_hi, cut_lo, bit0_ofBool, join6]
theorem abs (x : ArgsU) : Statement (.abs x) := of_eq rfl <| by
  intro _
  rw [decode_raw]
  show (if _ then _ else _) = _
  rw [if_pos (by simp only [raw_q1, raw_b, raw_f, raw_w, raw_d, raw_a, raw_p, cut_hi, cut_lo, true_and, and_true]; try decide)]
  simp only [unArgsU, raw_q1, raw_b, raw_f, raw_w, raw_d, raw_a, raw_p, cut_hi, cut_lo, bit0_ofBool, join6]
theorem neg (x : ArgsU) : Statement (.neg x) := of_eq rfl <| by
  intro _
  rw [decode_raw]
  show (if _ then _ else _) = _
  rw [if_pos (by simp only [raw_q1, raw_b, raw_f, raw_w, raw_d, raw_a, raw_p, cut_hi, cut_lo, true_and, and_true]; try decide)]
  simp only [unArgsU, raw_q1, raw_b, raw_f, raw_w, raw_d, raw_a, raw_p, cut_hi, cut_lo, bit0_ofBool, join6]
theorem wadd (x : ArgsA) : Statement (.wadd x) := of_eq rfl <| by
  intro _
  rw [decode_raw]
  show Except.ok _ = _
  simp only [unArgsA, raw_f, raw_w, raw_d, raw_a, raw_b, raw_p, raw_q, cut_hi, cut_lo, bit0_ofBool, join6]
theorem waddu (x : ArgsA) : Statement (.waddu x) := of_eq rfl <| by
  intro _
  rw [decode_raw]
  show Except.ok _ = _
  simp only [unArgsA, raw_f, raw_w, raw_d, raw_a, raw_b, raw_p, raw_q, cut_hi, cut_lo, bit0_ofBool, join6]
theorem wmul (x : ArgsA) : Statement (.wmul x) := of_eq rfl <| by
  intro _
  rw [decode_raw]
  show Except.ok _ = _
  simp only [unArgsA, raw_f, raw_w, raw_d, raw_a, raw_b, raw_p, raw_q, cut_hi, cut_lo, bit0_ofBool, join6]
theorem wmulu (x : ArgsA) : Statement (.wmulu x) := of_eq rfl <| by
  intro _
  rw [decode_raw]
  show Except.ok _ = _
  simp only [unArgsA, raw_f, raw_w, raw_d, raw_a, raw_b, raw_p, raw_q, cut_hi, cut_lo, bit0_ofBool, join6]
theorem wmac (x : ArgsA) : Statement (.wmac x) := of_eq rfl <| by
  intro _
  rw [decode_raw]
  show Except.ok _ = _
  simp only [unArgsA, raw_f, raw_w, raw_d, raw_a, raw_b, raw_p, raw_q, cut_hi, cut_lo, bit0_ofBool, join6]
theorem wmacu (x : ArgsA) : Statement (.wmacu x) := of_eq rfl <| by
  intro _
  rw [decode_raw]
  show Except.ok _ = _
  simp only [unArgsA, raw_f, raw_w, raw_d, raw_a, raw_b, raw_p, raw_q, cut_hi, cut_lo, bit0_ofBool, join6]
theorem narrow (x : ArgsA) : Statement (.narrow x) := of_eq rfl <| by
  intro _
  rw [decode_raw]
  show Except.ok _ = _
  simp only [unArgsA, raw_f, raw_w, raw_d, raw_a, raw_b, raw_p, raw_q, cut_hi, cut_lo, bit0_ofBool, join6]
theorem narrowu (x : ArgsA) : Statement (.narrowu x) := of_eq rfl <| by
  intro _
  rw [decode_raw]
  show Except.ok _ = _
  simp only [unArgsA, raw_f, raw_w, raw_d, raw_a, raw_b, raw_p, raw_q, cut_hi, cut_lo, bit0_ofBool, join6]
theorem and (x : ArgsA) : Statement (.and x) := of_eq rfl <| by
  intro _
  rw [decode_raw]
  show Except.ok _ = _
  simp only [unArgsA, raw_f, raw_w, raw_d, raw_a, raw_b, raw_p, raw_q, cut_hi, cut_lo, bit0_ofBool, join6]
theorem or (x : ArgsA) : Statement (.or x) := of_eq rfl <| by
  intro _
  rw [decode_raw]
  show Except.ok _ = _
  simp only [unArgsA, raw_f, raw_w, raw_d, raw_a, raw_b, raw_p, raw_q, cut_hi, cut_lo, bit0_ofBool, join6]
theorem xor (x : ArgsA) : Statement (.xor x) := of_eq rfl <| by
  intro _
  rw [decode_raw]
  show Except.ok _ = _
  simp only [unArgsA, raw_f, raw_w, raw_d, raw_a, raw_b, raw_p, raw_q, cut_hi, cut_lo, bit0_ofBool, join6]
theorem andn (x : ArgsA) : Statement (.andn x) := of_eq rfl <| by
  intro _
  rw [decode_raw]
  show Except.ok _ = _
  simp only [unArgsA, raw_f, raw_w, raw_d, raw_a, raw_b, raw_p, raw_q, cut_hi, cut_lo, bit0_ofBool, join6]
theorem sll (x : ArgsA) : Statement (.sll x) := of_eq rfl <| by
  intro _
  rw [decode_raw]
  show Except.ok _ = _
  simp only [unArgsA, raw_f, raw_w, raw_d, raw_a, raw_b, raw_p, raw_q, cut_hi, cut_lo, bit0_ofBool, join6]
theorem srl (x : ArgsA) : Statement (.srl x) := of_eq rfl <| by
  intro _
  rw [decode_raw]
  show Except.ok _ = _
  simp only [unArgsA, raw_f, raw_w, raw_d, raw_a, raw_b, raw_p, raw_q, cut_hi, cut_lo, bit0_ofBool, join6]
theorem sra (x : ArgsA) : Statement (.sra x) := of_eq rfl <| by
  intro _
  rw [decode_raw]
  show Except.ok _ = _
  simp only [unArgsA, raw_f, raw_w, raw_d, raw_a, raw_b, raw_p, raw_q, cut_hi, cut_lo, bit0_ofBool, join6]
theorem rotr (x : ArgsA) : Statement (.rotr x) := of_eq rfl <| by
  intro _
  rw [decode_raw]
  show Except.ok _ = _
  simp only [unArgsA, raw_f, raw_w, raw_d, raw_a, raw_b, raw_p, raw_q, cut_hi, cut_lo, bit0_ofBool, join6]
theorem popc (x : ArgsU) : Statement (.popc x) := of_eq rfl <| by
  intro _
  rw [decode_raw]
  show (if _ then _ else _) = _
  rw [if_pos (by simp only [raw_q1, raw_b, raw_f, raw_w, raw_d, raw_a, raw_p, cut_hi, cut_lo, true_and, and_true]; try decide)]
  simp only [unArgsU, raw_q1, raw_b, raw_f, raw_w, raw_d, raw_a, raw_p, cut_hi, cut_lo, bit0_ofBool, join6]
theorem clz (x : ArgsU) : Statement (.clz x) := of_eq rfl <| by
  intro _
  rw [decode_raw]
  show (if _ then _ else _) = _
  rw [if_pos (by simp only [raw_q1, raw_b, raw_f, raw_w, raw_d, raw_a, raw_p, cut_hi, cut_lo, true_and, and_true]; try decide)]
  simp only [unArgsU, raw_q1, raw_b, raw_f, raw_w, raw_d, raw_a, raw_p, cut_hi, cut_lo, bit0_ofBool, join6]
theorem cmpeq (x : ArgsA) : Statement (.cmpeq x) := of_eq rfl <| by
  intro _
  rw [decode_raw]
  show Except.ok _ = _
  simp only [unArgsA, raw_f, raw_w, raw_d, raw_a, raw_b, raw_p, raw_q, cut_hi, cut_lo, bit0_ofBool, join6]
theorem cmpne (x : ArgsA) : Statement (.cmpne x) := of_eq rfl <| by
  intro _
  rw [decode_raw]
  show Except.ok _ = _
  simp only [unArgsA, raw_f, raw_w, raw_d, raw_a, raw_b, raw_p, raw_q, cut_hi, cut_lo, bit0_ofBool, join6]
theorem cmplt (x : ArgsA) : Statement (.cmplt x) := of_eq rfl <| by
  intro _
  rw [decode_raw]
  show Except.ok _ = _
  simp only [unArgsA, raw_f, raw_w, raw_d, raw_a, raw_b, raw_p, raw_q, cut_hi, cut_lo, bit0_ofBool, join6]
theorem cmpltu (x : ArgsA) : Statement (.cmpltu x) := of_eq rfl <| by
  intro _
  rw [decode_raw]
  show Except.ok _ = _
  simp only [unArgsA, raw_f, raw_w, raw_d, raw_a, raw_b, raw_p, raw_q, cut_hi, cut_lo, bit0_ofBool, join6]
theorem cmple (x : ArgsA) : Statement (.cmple x) := of_eq rfl <| by
  intro _
  rw [decode_raw]
  show Except.ok _ = _
  simp only [unArgsA, raw_f, raw_w, raw_d, raw_a, raw_b, raw_p, raw_q, cut_hi, cut_lo, bit0_ofBool, join6]
theorem cmpleu (x : ArgsA) : Statement (.cmpleu x) := of_eq rfl <| by
  intro _
  rw [decode_raw]
  show Except.ok _ = _
  simp only [unArgsA, raw_f, raw_w, raw_d, raw_a, raw_b, raw_p, raw_q, cut_hi, cut_lo, bit0_ofBool, join6]
theorem sel (x : ArgsA) : Statement (.sel x) := of_eq rfl <| by
  intro _
  rw [decode_raw]
  show Except.ok _ = _
  simp only [unArgsA, raw_f, raw_w, raw_d, raw_a, raw_b, raw_p, raw_q, cut_hi, cut_lo, bit0_ofBool, join6]
theorem mov (x : ArgsM) : Statement (.mov x) := of_eq rfl <| by
  intro _
  rw [decode_raw]
  show (if _ then _ else _) = _
  rw [if_pos (by simp only [raw_p1, raw_a, raw_f, raw_w, raw_d, raw_b, raw_q, cut_hi, cut_lo, true_and, and_true]; try decide)]
  simp only [unArgsM, raw_p1, raw_a, raw_f, raw_w, raw_d, raw_b, raw_q, cut_hi, cut_lo, bit0_ofBool, join6]
theorem sext (x : ArgsC) : Statement (.sext x) := of_eq rfl <| by
  intro _
  rw [decode_raw]
  show (if _ then _ else _) = _
  rw [if_pos (by simp only [raw_q1, raw_bhi3, raw_f, raw_w, raw_d, raw_a, raw_blo3, raw_p, cut_hi, cut_lo, true_and, and_true]; try decide)]
  simp only [unArgsC, raw_q1, raw_bhi3, raw_f, raw_w, raw_d, raw_a, raw_blo3, raw_p, cut_hi, cut_lo, bit0_ofBool, join6]
theorem zext (x : ArgsC) : Statement (.zext x) := of_eq rfl <| by
  intro _
  rw [decode_raw]
  show (if _ then _ else _) = _
  rw [if_pos (by simp only [raw_q1, raw_bhi3, raw_f, raw_w, raw_d, raw_a, raw_blo3, raw_p, cut_hi, cut_lo, true_and, and_true]; try decide)]
  simp only [unArgsC, raw_q1, raw_bhi3, raw_f, raw_w, raw_d, raw_a, raw_blo3, raw_p, cut_hi, cut_lo, bit0_ofBool, join6]
theorem fadd (x : ArgsA) : Statement (.fadd x) := of_eq rfl <| by
  intro _
  rw [decode_raw]
  show Except.ok _ = _
  simp only [unArgsA, raw_f, raw_w, raw_d, raw_a, raw_b, raw_p, raw_q, cut_hi, cut_lo, bit0_ofBool, join6]
theorem fsub (x : ArgsA) : Statement (.fsub x) := of_eq rfl <| by
  intro _
  rw [decode_raw]
  show Except.ok _ = _
  simp only [unArgsA, raw_f, raw_w, raw_d, raw_a, raw_b, raw_p, raw_q, cut_hi, cut_lo, bit0_ofBool, join6]
theorem fmul (x : ArgsA) : Statement (.fmul x) := of_eq rfl <| by
  intro _
  rw [decode_raw]
  show Except.ok _ = _
  simp only [unArgsA, raw_f, raw_w, raw_d, raw_a, raw_b, raw_p, raw_q, cut_hi, cut_lo, bit0_ofBool, join6]
theorem fma (x : ArgsA) : Statement (.fma x) := of_eq rfl <| by
  intro _
  rw [decode_raw]
  show Except.ok _ = _
  simp only [unArgsA, raw_f, raw_w, raw_d, raw_a, raw_b, raw_p, raw_q, cut_hi, cut_lo, bit0_ofBool, join6]
theorem fms (x : ArgsA) : Statement (.fms x) := of_eq rfl <| by
  intro _
  rw [decode_raw]
  show Except.ok _ = _
  simp only [unArgsA, raw_f, raw_w, raw_d, raw_a, raw_b, raw_p, raw_q, cut_hi, cut_lo, bit0_ofBool, join6]
theorem fnma (x : ArgsA) : Statement (.fnma x) := of_eq rfl <| by
  intro _
  rw [decode_raw]
  show Except.ok _ = _
  simp only [unArgsA, raw_f, raw_w, raw_d, raw_a, raw_b, raw_p, raw_q, cut_hi, cut_lo, bit0_ofBool, join6]
theorem fdiv (x : ArgsA) : Statement (.fdiv x) := of_eq rfl <| by
  intro _
  rw [decode_raw]
  show Except.ok _ = _
  simp only [unArgsA, raw_f, raw_w, raw_d, raw_a, raw_b, raw_p, raw_q, cut_hi, cut_lo, bit0_ofBool, join6]
theorem fsqrt (x : ArgsU) : Statement (.fsqrt x) := of_eq rfl <| by
  intro _
  rw [decode_raw]
  show (if _ then _ else _) = _
  rw [if_pos (by simp only [raw_q1, raw_b, raw_f, raw_w, raw_d, raw_a, raw_p, cut_hi, cut_lo, true_and, and_true]; try decide)]
  simp only [unArgsU, raw_q1, raw_b, raw_f, raw_w, raw_d, raw_a, raw_p, cut_hi, cut_lo, bit0_ofBool, join6]
theorem frsq (x : ArgsU) : Statement (.frsq x) := of_eq rfl <| by
  intro _
  rw [decode_raw]
  show (if _ then _ else _) = _
  rw [if_pos (by simp only [raw_q1, raw_b, raw_f, raw_w, raw_d, raw_a, raw_p, cut_hi, cut_lo, true_and, and_true]; try decide)]
  simp only [unArgsU, raw_q1, raw_b, raw_f, raw_w, raw_d, raw_a, raw_p, cut_hi, cut_lo, bit0_ofBool, join6]
theorem fexp2 (x : ArgsU) : Statement (.fexp2 x) := of_eq rfl <| by
  intro _
  rw [decode_raw]
  show (if _ then _ else _) = _
  rw [if_pos (by simp only [raw_q1, raw_b, raw_f, raw_w, raw_d, raw_a, raw_p, cut_hi, cut_lo, true_and, and_true]; try decide)]
  simp only [unArgsU, raw_q1, raw_b, raw_f, raw_w, raw_d, raw_a, raw_p, cut_hi, cut_lo, bit0_ofBool, join6]
theorem flog2 (x : ArgsU) : Statement (.flog2 x) := of_eq rfl <| by
  intro _
  rw [decode_raw]
  show (if _ then _ else _) = _
  rw [if_pos (by simp only [raw_q1, raw_b, raw_f, raw_w, raw_d, raw_a, raw_p, cut_hi, cut_lo, true_and, and_true]; try decide)]
  simp only [unArgsU, raw_q1, raw_b, raw_f, raw_w, raw_d, raw_a, raw_p, cut_hi, cut_lo, bit0_ofBool, join6]
theorem fmin (x : ArgsA) : Statement (.fmin x) := of_eq rfl <| by
  intro _
  rw [decode_raw]
  show Except.ok _ = _
  simp only [unArgsA, raw_f, raw_w, raw_d, raw_a, raw_b, raw_p, raw_q, cut_hi, cut_lo, bit0_ofBool, join6]
theorem fmax (x : ArgsA) : Statement (.fmax x) := of_eq rfl <| by
  intro _
  rw [decode_raw]
  show Except.ok _ = _
  simp only [unArgsA, raw_f, raw_w, raw_d, raw_a, raw_b, raw_p, raw_q, cut_hi, cut_lo, bit0_ofBool, join6]
theorem fcmpeq (x : ArgsA) : Statement (.fcmpeq x) := of_eq rfl <| by
  intro _
  rw [decode_raw]
  show Except.ok _ = _
  simp only [unArgsA, raw_f, raw_w, raw_d, raw_a, raw_b, raw_p, raw_q, cut_hi, cut_lo, bit0_ofBool, join6]
theorem fcmplt (x : ArgsA) : Statement (.fcmplt x) := of_eq rfl <| by
  intro _
  rw [decode_raw]
  show Except.ok _ = _
  simp only [unArgsA, raw_f, raw_w, raw_d, raw_a, raw_b, raw_p, raw_q, cut_hi, cut_lo, bit0_ofBool, join6]
theorem fcmple (x : ArgsA) : Statement (.fcmple x) := of_eq rfl <| by
  intro _
  rw [decode_raw]
  show Except.ok _ = _
  simp only [unArgsA, raw_f, raw_w, raw_d, raw_a, raw_b, raw_p, raw_q, cut_hi, cut_lo, bit0_ofBool, join6]
theorem fcvt (x : ArgsC) : Statement (.fcvt x) := of_eq rfl <| by
  intro _
  rw [decode_raw]
  show (if _ then _ else _) = _
  rw [if_pos (by simp only [raw_q1, raw_bhi3, raw_f, raw_w, raw_d, raw_a, raw_blo3, raw_p, cut_hi, cut_lo, true_and, and_true]; try decide)]
  simp only [unArgsC, raw_q1, raw_bhi3, raw_f, raw_w, raw_d, raw_a, raw_blo3, raw_p, cut_hi, cut_lo, bit0_ofBool, join6]
theorem fcvti (x : ArgsC) : Statement (.fcvti x) := of_eq rfl <| by
  intro _
  rw [decode_raw]
  show (if _ then _ else _) = _
  rw [if_pos (by simp only [raw_q1, raw_bhi3, raw_f, raw_w, raw_d, raw_a, raw_blo3, raw_p, cut_hi, cut_lo, true_and, and_true]; try decide)]
  simp only [unArgsC, raw_q1, raw_bhi3, raw_f, raw_w, raw_d, raw_a, raw_blo3, raw_p, cut_hi, cut_lo, bit0_ofBool, join6]
theorem fcvtf (x : ArgsC) : Statement (.fcvtf x) := of_eq rfl <| by
  intro _
  rw [decode_raw]
  show (if _ then _ else _) = _
  rw [if_pos (by simp only [raw_q1, raw_bhi3, raw_f, raw_w, raw_d, raw_a, raw_blo3, raw_p, cut_hi, cut_lo, true_and, and_true]; try decide)]
  simp only [unArgsC, raw_q1, raw_bhi3, raw_f, raw_w, raw_d, raw_a, raw_blo3, raw_p, cut_hi, cut_lo, bit0_ofBool, join6]
theorem fabs (x : ArgsU) : Statement (.fabs x) := of_eq rfl <| by
  intro _
  rw [decode_raw]
  show (if _ then _ else _) = _
  rw [if_pos (by simp only [raw_q1, raw_b, raw_f, raw_w, raw_d, raw_a, raw_p, cut_hi, cut_lo, true_and, and_true]; try decide)]
  simp only [unArgsU, raw_q1, raw_b, raw_f, raw_w, raw_d, raw_a, raw_p, cut_hi, cut_lo, bit0_ofBool, join6]
theorem fneg (x : ArgsU) : Statement (.fneg x) := of_eq rfl <| by
  intro _
  rw [decode_raw]
  show (if _ then _ else _) = _
  rw [if_pos (by simp only [raw_q1, raw_b, raw_f, raw_w, raw_d, raw_a, raw_p, cut_hi, cut_lo, true_and, and_true]; try decide)]
  simp only [unArgsU, raw_q1, raw_b, raw_f, raw_w, raw_d, raw_a, raw_p, cut_hi, cut_lo, bit0_ofBool, join6]
theorem fclass (x : ArgsU) : Statement (.fclass x) := of_eq rfl <| by
  intro _
  rw [decode_raw]
  show (if _ then _ else _) = _
  rw [if_pos (by simp only [raw_q1, raw_b, raw_f, raw_w, raw_d, raw_a, raw_p, cut_hi, cut_lo, true_and, and_true]; try decide)]
  simp only [unArgsU, raw_q1, raw_b, raw_f, raw_w, raw_d, raw_a, raw_p, cut_hi, cut_lo, bit0_ofBool, join6]
theorem rsum (x : ArgsR) : Statement (.rsum x) := of_eq rfl <| by
  intro _
  rw [decode_raw]
  show (if _ then _ else _) = _
  rw [if_pos (by simp only [raw_f, raw_w, raw_d, raw_a, raw_b, raw_p, raw_q, cut_hi, cut_lo, true_and, and_true]; try decide)]
  simp only [unArgsR, raw_f, raw_w, raw_d, raw_a, raw_b, raw_p, raw_q, cut_hi, cut_lo, bit0_ofBool, join6]
theorem rmin (x : ArgsR) : Statement (.rmin x) := of_eq rfl <| by
  intro _
  rw [decode_raw]
  show (if _ then _ else _) = _
  rw [if_pos (by simp only [raw_f, raw_w, raw_d, raw_a, raw_b, raw_p, raw_q, cut_hi, cut_lo, true_and, and_true]; try decide)]
  simp only [unArgsR, raw_f, raw_w, raw_d, raw_a, raw_b, raw_p, raw_q, cut_hi, cut_lo, bit0_ofBool, join6]
theorem rminu (x : ArgsR) : Statement (.rminu x) := of_eq rfl <| by
  intro _
  rw [decode_raw]
  show (if _ then _ else _) = _
  rw [if_pos (by simp only [raw_f, raw_w, raw_d, raw_a, raw_b, raw_p, raw_q, cut_hi, cut_lo, true_and, and_true]; try decide)]
  simp only [unArgsR, raw_f, raw_w, raw_d, raw_a, raw_b, raw_p, raw_q, cut_hi, cut_lo, bit0_ofBool, join6]
theorem rmax (x : ArgsR) : Statement (.rmax x) := of_eq rfl <| by
  intro _
  rw [decode_raw]
  show (if _ then _ else _) = _
  rw [if_pos (by simp only [raw_f, raw_w, raw_d, raw_a, raw_b, raw_p, raw_q, cut_hi, cut_lo, true_and, and_true]; try decide)]
  simp only [unArgsR, raw_f, raw_w, raw_d, raw_a, raw_b, raw_p, raw_q, cut_hi, cut_lo, bit0_ofBool, join6]
theorem rmaxu (x : ArgsR) : Statement (.rmaxu x) := of_eq rfl <| by
  intro _
  rw [decode_raw]
  show (if _ then _ else _) = _
  rw [if_pos (by simp only [raw_f, raw_w, raw_d, raw_a, raw_b, raw_p, raw_q, cut_hi, cut_lo, true_and, and_true]; try decide)]
  simp only [unArgsR, raw_f, raw_w, raw_d, raw_a, raw_b, raw_p, raw_q, cut_hi, cut_lo, bit0_ofBool, join6]
theorem rand (x : ArgsR) : Statement (.rand x) := of_eq rfl <| by
  intro _
  rw [decode_raw]
  show (if _ then _ else _) = _
  rw [if_pos (by simp only [raw_f, raw_w, raw_d, raw_a, raw_b, raw_p, raw_q, cut_hi, cut_lo, true_and, and_true]; try decide)]
  simp only [unArgsR, raw_f, raw_w, raw_d, raw_a, raw_b, raw_p, raw_q, cut_hi, cut_lo, bit0_ofBool, join6]
theorem ror (x : ArgsR) : Statement (.ror x) := of_eq rfl <| by
  intro _
  rw [decode_raw]
  show (if _ then _ else _) = _
  rw [if_pos (by simp only [raw_f, raw_w, raw_d, raw_a, raw_b, raw_p, raw_q, cut_hi, cut_lo, true_and, and_true]; try decide)]
  simp only [unArgsR, raw_f, raw_w, raw_d, raw_a, raw_b, raw_p, raw_q, cut_hi, cut_lo, bit0_ofBool, join6]
theorem rxor (x : ArgsR) : Statement (.rxor x) := of_eq rfl <| by
  intro _
  rw [decode_raw]
  show (if _ then _ else _) = _
  rw [if_pos (by simp only [raw_f, raw_w, raw_d, raw_a, raw_b, raw_p, raw_q, cut_hi, cut_lo, true_and, and_true]; try decide)]
  simp only [unArgsR, raw_f, raw_w, raw_d, raw_a, raw_b, raw_p, raw_q, cut_hi, cut_lo, bit0_ofBool, join6]
theorem frsum (x : ArgsR) : Statement (.frsum x) := of_eq rfl <| by
  intro _
  rw [decode_raw]
  show (if _ then _ else _) = _
  rw [if_pos (by simp only [raw_f, raw_w, raw_d, raw_a, raw_b, raw_p, raw_q, cut_hi, cut_lo, true_and, and_true]; try decide)]
  simp only [unArgsR, raw_f, raw_w, raw_d, raw_a, raw_b, raw_p, raw_q, cut_hi, cut_lo, bit0_ofBool, join6]
theorem frmin (x : ArgsR) : Statement (.frmin x) := of_eq rfl <| by
  intro _
  rw [decode_raw]
  show (if _ then _ else _) = _
  rw [if_pos (by simp only [raw_f, raw_w, raw_d, raw_a, raw_b, raw_p, raw_q, cut_hi, cut_lo, true_and, and_true]; try decide)]
  simp only [unArgsR, raw_f, raw_w, raw_d, raw_a, raw_b, raw_p, raw_q, cut_hi, cut_lo, bit0_ofBool, join6]
theorem frmax (x : ArgsR) : Statement (.frmax x) := of_eq rfl <| by
  intro _
  rw [decode_raw]
  show (if _ then _ else _) = _
  rw [if_pos (by simp only [raw_f, raw_w, raw_d, raw_a, raw_b, raw_p, raw_q, cut_hi, cut_lo, true_and, and_true]; try decide)]
  simp only [unArgsR, raw_f, raw_w, raw_d, raw_a, raw_b, raw_p, raw_q, cut_hi, cut_lo, bit0_ofBool, join6]
theorem scan (x : ArgsR) : Statement (.scan x) := of_eq rfl <| by
  intro _
  rw [decode_raw]
  show (if _ then _ else _) = _
  rw [if_pos (by simp only [raw_f, raw_w, raw_d, raw_a, raw_b, raw_p, raw_q, cut_hi, cut_lo, true_and, and_true]; try decide)]
  simp only [unArgsR, raw_f, raw_w, raw_d, raw_a, raw_b, raw_p, raw_q, cut_hi, cut_lo, bit0_ofBool, join6]
theorem fscan (x : ArgsR) : Statement (.fscan x) := of_eq rfl <| by
  intro _
  rw [decode_raw]
  show (if _ then _ else _) = _
  rw [if_pos (by simp only [raw_f, raw_w, raw_d, raw_a, raw_b, raw_p, raw_q, cut_hi, cut_lo, true_and, and_true]; try decide)]
  simp only [unArgsR, raw_f, raw_w, raw_d, raw_a, raw_b, raw_p, raw_q, cut_hi, cut_lo, bit0_ofBool, join6]
theorem compress (x : ArgsP) : Statement (.compress x) := of_eq rfl <| by
  intro _
  rw [decode_raw]
  show (if _ then _ else _) = _
  rw [if_pos (by simp only [raw_q1, raw_b, raw_f, raw_w, raw_d, raw_a, raw_p, cut_hi, cut_lo, true_and, and_true]; try decide)]
  simp only [unArgsP, raw_q1, raw_b, raw_f, raw_w, raw_d, raw_a, raw_p, cut_hi, cut_lo, bit0_ofBool, join6]
theorem expand (x : ArgsP) : Statement (.expand x) := of_eq rfl <| by
  intro _
  rw [decode_raw]
  show (if _ then _ else _) = _
  rw [if_pos (by simp only [raw_q1, raw_b, raw_f, raw_w, raw_d, raw_a, raw_p, cut_hi, cut_lo, true_and, and_true]; try decide)]
  simp only [unArgsP, raw_q1, raw_b, raw_f, raw_w, raw_d, raw_a, raw_p, cut_hi, cut_lo, bit0_ofBool, join6]
theorem nzscan (x : ArgsN) : Statement (.nzscan x) := of_eq rfl <| by
  intro _
  rw [decode_raw]
  show (if _ then _ else _) = _
  rw [if_pos (by simp only [raw_q1, raw_f, raw_w, raw_d, raw_a, raw_b, raw_p, cut_hi, cut_lo, true_and, and_true]; try decide)]
  simp only [unArgsN, raw_q1, raw_f, raw_w, raw_d, raw_a, raw_b, raw_p, cut_hi, cut_lo, bit0_ofBool, join6]
theorem iota (x : ArgsM) : Statement (.iota x) := of_eq rfl <| by
  intro _
  rw [decode_raw]
  show (if _ then _ else _) = _
  rw [if_pos (by simp only [raw_p1, raw_a, raw_f, raw_w, raw_d, raw_b, raw_q, cut_hi, cut_lo, true_and, and_true]; try decide)]
  simp only [unArgsM, raw_p1, raw_a, raw_f, raw_w, raw_d, raw_b, raw_q, cut_hi, cut_lo, bit0_ofBool, join6]
theorem slideup (x : ArgsA) : Statement (.slideup x) := of_eq rfl <| by
  intro _
  rw [decode_raw]
  show Except.ok _ = _
  simp only [unArgsA, raw_f, raw_w, raw_d, raw_a, raw_b, raw_p, raw_q, cut_hi, cut_lo, bit0_ofBool, join6]
theorem slidedn (x : ArgsA) : Statement (.slidedn x) := of_eq rfl <| by
  intro _
  rw [decode_raw]
  show Except.ok _ = _
  simp only [unArgsA, raw_f, raw_w, raw_d, raw_a, raw_b, raw_p, raw_q, cut_hi, cut_lo, bit0_ofBool, join6]
theorem perm (x : ArgsR) : Statement (.perm x) := of_eq rfl <| by
  intro _
  rw [decode_raw]
  show (if _ then _ else _) = _
  rw [if_pos (by simp only [raw_f, raw_w, raw_d, raw_a, raw_b, raw_p, raw_q, cut_hi, cut_lo, true_and, and_true]; try decide)]
  simp only [unArgsR, raw_f, raw_w, raw_d, raw_a, raw_b, raw_p, raw_q, cut_hi, cut_lo, bit0_ofBool, join6]
theorem mlogAnd (x : ArgsT) : Statement (.mlogAnd x) := of_eq rfl <| by
  intro _
  rw [mlog]
  show Except.ok _ = _
  simp only [unArgsT, raw_d, raw_a, raw_b, raw_p, raw_q, cut_hi, cut_lo, bit0_ofBool, join6]
theorem mlogOr (x : ArgsT) : Statement (.mlogOr x) := of_eq rfl <| by
  intro _
  rw [mlog]
  show Except.ok _ = _
  simp only [unArgsT, raw_d, raw_a, raw_b, raw_p, raw_q, cut_hi, cut_lo, bit0_ofBool, join6]
theorem mlogXor (x : ArgsT) : Statement (.mlogXor x) := of_eq rfl <| by
  intro _
  rw [mlog]
  show Except.ok _ = _
  simp only [unArgsT, raw_d, raw_a, raw_b, raw_p, raw_q, cut_hi, cut_lo, bit0_ofBool, join6]
theorem mlogAndn (x : ArgsT) : Statement (.mlogAndn x) := of_eq rfl <| by
  intro _
  rw [mlog]
  show Except.ok _ = _
  simp only [unArgsT, raw_d, raw_a, raw_b, raw_p, raw_q, cut_hi, cut_lo, bit0_ofBool, join6]
theorem mlogNot (x : ArgsD) : Statement (.mlogNot x) := of_eq rfl <| by
  intro _
  rw [mlog]
  show (if _ then _ else _) = _
  rw [if_pos (by simp only [raw_q1, raw_b, raw_d, raw_a, raw_p, cut_hi, cut_lo, true_and, and_true]; try decide)]
  simp only [unArgsD, raw_q1, raw_b, raw_d, raw_a, raw_p, cut_hi, cut_lo, bit0_ofBool, join6]
theorem mlogCopy (x : ArgsD) : Statement (.mlogCopy x) := of_eq rfl <| by
  intro _
  rw [mlog]
  show (if _ then _ else _) = _
  rw [if_pos (by simp only [raw_q1, raw_b, raw_d, raw_a, raw_p, cut_hi, cut_lo, true_and, and_true]; try decide)]
  simp only [unArgsD, raw_q1, raw_b, raw_d, raw_a, raw_p, cut_hi, cut_lo, bit0_ofBool, join6]
theorem mlogSet (d : BitVec 6) : Statement (.mlogSet d) := of_eq rfl <| by
  intro _
  rw [mlog]
  show (if _ then _ else _) = _
  rw [if_pos (by simp only [raw_low14, raw_d, cut_hi, cut_lo, true_and, and_true]; try decide)]
  simp only [raw_low14, raw_d, cut_hi, cut_lo, bit0_ofBool, join6]
theorem mlogClr (d : BitVec 6) : Statement (.mlogClr d) := of_eq rfl <| by
  intro _
  rw [mlog]
  show (if _ then _ else _) = _
  rw [if_pos (by simp only [raw_low14, raw_d, cut_hi, cut_lo, true_and, and_true]; try decide)]
  simp only [raw_low14, raw_d, cut_hi, cut_lo, bit0_ofBool, join6]
theorem mcnt (x : ArgsD) : Statement (.mcnt x) := of_eq rfl <| by
  intro _
  rw [decode_raw]
  show (if _ then _ else _) = _
  rw [if_pos (by simp only [raw_q1, raw_b, raw_fw, raw_d, raw_a, raw_p, cut_hi, cut_lo, true_and, and_true]; try decide)]
  simp only [unArgsD, raw_q1, raw_b, raw_fw, raw_d, raw_a, raw_p, cut_hi, cut_lo, bit0_ofBool, join6]
theorem mfirst (x : ArgsD) : Statement (.mfirst x) := of_eq rfl <| by
  intro _
  rw [decode_raw]
  show (if _ then _ else _) = _
  rw [if_pos (by simp only [raw_q1, raw_b, raw_fw, raw_d, raw_a, raw_p, cut_hi, cut_lo, true_and, and_true]; try decide)]
  simp only [unArgsD, raw_q1, raw_b, raw_fw, raw_d, raw_a, raw_p, cut_hi, cut_lo, bit0_ofBool, join6]
theorem mfrom (x : ArgsP) : Statement (.mfrom x) := of_eq rfl <| by
  intro _
  rw [decode_raw]
  show (if _ then _ else _) = _
  rw [if_pos (by simp only [raw_q1, raw_b, raw_f, raw_w, raw_d, raw_a, raw_p, cut_hi, cut_lo, true_and, and_true]; try decide)]
  simp only [unArgsP, raw_q1, raw_b, raw_f, raw_w, raw_d, raw_a, raw_p, cut_hi, cut_lo, bit0_ofBool, join6]
theorem mto (x : ArgsP) : Statement (.mto x) := of_eq rfl <| by
  intro _
  rw [decode_raw]
  show (if _ then _ else _) = _
  rw [if_pos (by simp only [raw_q1, raw_b, raw_f, raw_w, raw_d, raw_a, raw_p, cut_hi, cut_lo, true_and, and_true]; try decide)]
  simp only [unArgsP, raw_q1, raw_b, raw_f, raw_w, raw_d, raw_a, raw_p, cut_hi, cut_lo, bit0_ofBool, join6]
theorem ld (x : ArgsL) : Statement (.ld x) := of_eq rfl <| by
  intro _
  rw [decode_raw]
  show Except.ok _ = _
  simp only [unArgsL, raw_f, raw_w, raw_d, raw_a, raw_b, raw_p, raw_q, cut_hi, cut_lo, bit0_ofBool, join6]
theorem st (x : ArgsL) : Statement (.st x) := of_eq rfl <| by
  intro _
  rw [decode_raw]
  show Except.ok _ = _
  simp only [unArgsL, raw_f, raw_w, raw_d, raw_a, raw_b, raw_p, raw_q, cut_hi, cut_lo, bit0_ofBool, join6]
theorem ldq (x : ArgsD) : Statement (.ldq x) := of_eq rfl <| by
  intro _
  rw [decode_raw]
  show (if _ then _ else _) = _
  rw [if_pos (by simp only [raw_q1, raw_b, raw_fw, raw_d, raw_a, raw_p, cut_hi, cut_lo, true_and, and_true]; try decide)]
  simp only [unArgsD, raw_q1, raw_b, raw_fw, raw_d, raw_a, raw_p, cut_hi, cut_lo, bit0_ofBool, join6]
theorem stq (x : ArgsStq) : Statement (.stq x) := of_eq rfl <| by
  intro _
  rw [decode_raw]
  show (if _ then _ else _) = _
  rw [if_pos (by simp only [raw_b, raw_f, raw_w, raw_d, raw_a, raw_p, raw_q, cut_hi, cut_lo, true_and, and_true]; try decide)]
  simp only [unArgsStq, raw_b, raw_f, raw_w, raw_d, raw_a, raw_p, raw_q, cut_hi, cut_lo, bit0_ofBool, join6]
theorem tld (x : ArgsR) : Statement (.tld x) := of_eq rfl <| by
  intro _
  rw [decode_raw]
  show (if _ then _ else _) = _
  rw [if_pos (by simp only [raw_f, raw_w, raw_d, raw_a, raw_b, raw_p, raw_q, cut_hi, cut_lo, true_and, and_true]; try decide)]
  simp only [unArgsR, raw_f, raw_w, raw_d, raw_a, raw_b, raw_p, raw_q, cut_hi, cut_lo, bit0_ofBool, join6]
theorem tst (x : ArgsR) : Statement (.tst x) := of_eq rfl <| by
  intro _
  rw [decode_raw]
  show (if _ then _ else _) = _
  rw [if_pos (by simp only [raw_f, raw_w, raw_d, raw_a, raw_b, raw_p, raw_q, cut_hi, cut_lo, true_and, and_true]; try decide)]
  simp only [unArgsR, raw_f, raw_w, raw_d, raw_a, raw_b, raw_p, raw_q, cut_hi, cut_lo, bit0_ofBool, join6]
theorem aadd (x : ArgsG) : Statement (.aadd x) := of_eq rfl <| by
  intro _
  rw [decode_raw]
  show (if _ then _ else _) = _
  rw [if_pos (by simp only [raw_w2, raw_f, raw_d, raw_a, raw_b, raw_p, raw_q, raw_w0, cut_hi, cut_lo, true_and, and_true]; try decide)]
  simp only [unArgsG, raw_w2, raw_f, raw_d, raw_a, raw_b, raw_p, raw_q, raw_w0, cut_hi, cut_lo, bit0_ofBool, join6]
theorem afadd (x : ArgsG) : Statement (.afadd x) := of_eq rfl <| by
  intro _
  rw [decode_raw]
  show (if _ then _ else _) = _
  rw [if_pos (by simp only [raw_w2, raw_f, raw_d, raw_a, raw_b, raw_p, raw_q, raw_w0, cut_hi, cut_lo, true_and, and_true]; try decide)]
  simp only [unArgsG, raw_w2, raw_f, raw_d, raw_a, raw_b, raw_p, raw_q, raw_w0, cut_hi, cut_lo, bit0_ofBool, join6]
theorem amax (x : ArgsG) : Statement (.amax x) := of_eq rfl <| by
  intro _
  rw [decode_raw]
  show (if _ then _ else _) = _
  rw [if_pos (by simp only [raw_w2, raw_f, raw_d, raw_a, raw_b, raw_p, raw_q, raw_w0, cut_hi, cut_lo, true_and, and_true]; try decide)]
  simp only [unArgsG, raw_w2, raw_f, raw_d, raw_a, raw_b, raw_p, raw_q, raw_w0, cut_hi, cut_lo, bit0_ofBool, join6]
theorem amin (x : ArgsG) : Statement (.amin x) := of_eq rfl <| by
  intro _
  rw [decode_raw]
  show (if _ then _ else _) = _
  rw [if_pos (by simp only [raw_w2, raw_f, raw_d, raw_a, raw_b, raw_p, raw_q, raw_w0, cut_hi, cut_lo, true_and, and_true]; try decide)]
  simp only [unArgsG, raw_w2, raw_f, raw_d, raw_a, raw_b, raw_p, raw_q, raw_w0, cut_hi, cut_lo, bit0_ofBool, join6]
theorem aswap (x : ArgsG) : Statement (.aswap x) := of_eq rfl <| by
  intro _
  rw [decode_raw]
  show (if _ then _ else _) = _
  rw [if_pos (by simp only [raw_w2, raw_f, raw_d, raw_a, raw_b, raw_p, raw_q, raw_w0, cut_hi, cut_lo, true_and, and_true]; try decide)]
  simp only [unArgsG, raw_w2, raw_f, raw_d, raw_a, raw_b, raw_p, raw_q, raw_w0, cut_hi, cut_lo, bit0_ofBool, join6]
theorem acas (x : ArgsG) : Statement (.acas x) := of_eq rfl <| by
  intro _
  rw [decode_raw]
  show (if _ then _ else _) = _
  rw [if_pos (by simp only [raw_w2, raw_f, raw_d, raw_a, raw_b, raw_p, raw_q, raw_w0, cut_hi, cut_lo, true_and, and_true]; try decide)]
  simp only [unArgsG, raw_w2, raw_f, raw_d, raw_a, raw_b, raw_p, raw_q, raw_w0, cut_hi, cut_lo, bit0_ofBool, join6]
theorem acq (x : ArgsJ) : Statement (.acq x) := of_eq rfl <| by
  intro _
  rw [decode_raw]
  show (if _ then _ else _) = _
  rw [if_pos (by simp only [raw_fw2, raw_d, raw_a, raw_b, raw_p, raw_q, raw_w0, cut_hi, cut_lo, true_and, and_true]; try decide)]
  simp only [unArgsJ, raw_fw2, raw_d, raw_a, raw_b, raw_p, raw_q, raw_w0, cut_hi, cut_lo, bit0_ofBool, join6]
theorem rel (x : ArgsRel) : Statement (.rel x) := of_eq rfl <| by
  intro _
  rw [decode_raw]
  show (if _ then _ else _) = _
  rw [if_pos (by simp only [raw_d, raw_fw2, raw_a, raw_b, raw_p, raw_q, raw_w0, cut_hi, cut_lo, true_and, and_true]; try decide)]
  simp only [unArgsRel, raw_d, raw_fw2, raw_a, raw_b, raw_p, raw_q, raw_w0, cut_hi, cut_lo, bit0_ofBool, join6]
theorem fence (scope : BitVec 6) : Statement (.fence scope) := of_eq rfl <| by
  intro _
  rw [decode_raw]
  show (if _ then _ else _) = _
  rw [if_pos (by simp only [raw_pq, raw_fwda, raw_b, cut_hi, cut_lo, true_and, and_true]; try decide)]
  simp only [raw_pq, raw_fwda, raw_b, cut_hi, cut_lo, bit0_ofBool, join6]
theorem qfence (x : ArgsQ) : Statement (.qfence x) := of_eq rfl <| by
  intro _
  rw [decode_raw]
  show (if _ then _ else _) = _
  rw [if_pos (by simp only [raw_fwd, raw_a, raw_b, raw_p, raw_q, cut_hi, cut_lo, true_and, and_true]; try decide)]
  simp only [unArgsQ, raw_fwd, raw_a, raw_b, raw_p, raw_q, cut_hi, cut_lo, bit0_ofBool, join6]
theorem bind (x : ArgsT) : Statement (.bind x) := of_eq rfl <| by
  intro _
  rw [decode_raw]
  show (if _ then _ else _) = _
  rw [if_pos (by simp only [raw_fw, raw_d, raw_a, raw_b, raw_p, raw_q, cut_hi, cut_lo, true_and, and_true]; try decide)]
  simp only [unArgsT, raw_fw, raw_d, raw_a, raw_b, raw_p, raw_q, cut_hi, cut_lo, bit0_ofBool, join6]
theorem unbind (x : ArgsS) : Statement (.unbind x) := of_eq rfl <| by
  intro _
  rw [decode_raw]
  show (if _ then _ else _) = _
  rw [if_pos (by simp only [raw_q1, raw_b, raw_fwd, raw_a, raw_p, cut_hi, cut_lo, true_and, and_true]; try decide)]
  simp only [unArgsS, raw_q1, raw_b, raw_fwd, raw_a, raw_p, cut_hi, cut_lo, bit0_ofBool, join6]
theorem gbar (x : ArgsD) : Statement (.gbar x) := of_eq rfl <| by
  intro _
  rw [decode_raw]
  show (if _ then _ else _) = _
  rw [if_pos (by simp only [raw_q1, raw_b, raw_fw, raw_d, raw_a, raw_p, cut_hi, cut_lo, true_and, and_true]; try decide)]
  simp only [unArgsD, raw_q1, raw_b, raw_fw, raw_d, raw_a, raw_p, cut_hi, cut_lo, bit0_ofBool, join6]
theorem br (x : ArgsB) : Statement (.br x) := of_eq rfl <| by
  intro _
  rw [decode_packB]
  show Except.ok _ = _
  simp only [unArgsB, packB_c, packB_a, packB_b, packB_o, cut_hi, cut_lo, bit0_ofBool, join6]
theorem brm (x : ArgsBrm) : Statement (.brm x) := of_eq rfl <| by
  intro _
  rw [decode_packB]
  show (if _ then _ else _) = _
  rw [if_pos (by simp only [packB_c, packB_a, packB_b, packB_o, cut_hi, cut_lo, true_and, and_true]; try decide)]
  simp only [unArgsBrm, packB_c, packB_a, packB_b, packB_o, cut_hi, cut_lo, bit0_ofBool, join6]
theorem brs (x : ArgsB) : Statement (.brs x) := of_eq rfl <| by
  intro _
  rw [decode_packB]
  show Except.ok _ = _
  simp only [unArgsB, packB_c, packB_a, packB_b, packB_o, cut_hi, cut_lo, bit0_ofBool, join6]
theorem jal (x : ArgsI) : Statement (.jal x) := of_eq rfl <| by
  intro _
  rw [decode_packI]
  show Except.ok _ = _
  simp only [unArgsI, packI_d, packI_i, cut_hi, cut_lo, bit0_ofBool, join6]
theorem jalr (x : ArgsJ) : Statement (.jalr x) := of_eq rfl <| by
  intro _
  rw [decode_raw]
  show (if _ then _ else _) = _
  rw [if_pos (by simp only [raw_fw2, raw_d, raw_a, raw_b, raw_p, raw_q, raw_w0, cut_hi, cut_lo, true_and, and_true]; try decide)]
  simp only [unArgsJ, raw_fw2, raw_d, raw_a, raw_b, raw_p, raw_q, raw_w0, cut_hi, cut_lo, bit0_ofBool, join6]
theorem li (x : ArgsI) : Statement (.li x) := of_eq rfl <| by
  intro _
  rw [decode_packI]
  show Except.ok _ = _
  simp only [unArgsI, packI_d, packI_i, cut_hi, cut_lo, bit0_ofBool, join6]
theorem lis (x : ArgsI) : Statement (.lis x) := of_eq rfl <| by
  intro _
  rw [decode_packI]
  show Except.ok _ = _
  simp only [unArgsI, packI_d, packI_i, cut_hi, cut_lo, bit0_ofBool, join6]
theorem setvl (x : ArgsD) : Statement (.setvl x) := of_eq rfl <| by
  intro _
  rw [decode_raw]
  show (if _ then _ else _) = _
  rw [if_pos (by simp only [raw_q1, raw_b, raw_fw, raw_d, raw_a, raw_p, cut_hi, cut_lo, true_and, and_true]; try decide)]
  simp only [unArgsD, raw_q1, raw_b, raw_fw, raw_d, raw_a, raw_p, cut_hi, cut_lo, bit0_ofBool, join6]
theorem convoy : Statement .convoy := of_eq rfl <| by
  intro _
  decide
theorem mldb (x : ArgsMldb) : Statement (.mldb x) := of_eq rfl <| by
  intro _
  rw [esc7C]
  show (if _ then _ else _) = _
  rw [if_pos (by simp only [raw_dhi, raw_dlo, raw_a, raw_b, raw_p, raw_q, cut_hi, cut_lo, true_and, and_true]; try decide)]
  simp only [unArgsMldb, raw_dhi, raw_dlo, raw_a, raw_b, raw_p, raw_q, cut_hi, cut_lo, bit0_ofBool, join6]
theorem mldbI8 (x : ArgsMldb) : Statement (.mldbI8 x) := of_eq rfl <| by
  intro _
  rw [esc7C]
  show (if _ then _ else if _ then _ else _) = _
  rw [if_neg (by rw [raw_dhi, cut_hi]; decide), if_pos (by rw [raw_dhi, cut_hi]; rfl)]
  simp only [unArgsMldb, raw_dhi, raw_dlo, raw_a, raw_b, raw_p, raw_q, cut_hi, cut_lo, bit0_ofBool, join6]
theorem mmo (x : ArgsMm) : Statement (.mmo x) := of_eq rfl <| by
  intro _
  rw [esc7C]
  show (if _ then _ else _) = _
  rw [if_pos (by simp only [raw_q1, raw_bhi2, raw_d, raw_a, raw_blo4, raw_p, cut_hi, cut_lo, true_and, and_true]; try decide)]
  simp only [unArgsMm, raw_q1, raw_bhi2, raw_d, raw_a, raw_blo4, raw_p, cut_hi, cut_lo, bit0_ofBool, join6]
theorem mmf (x : ArgsMm) : Statement (.mmf x) := of_eq rfl <| by
  intro _
  rw [esc7C]
  show (if _ then _ else _) = _
  rw [if_pos (by simp only [raw_q1, raw_bhi2, raw_d, raw_a, raw_blo4, raw_p, cut_hi, cut_lo, true_and, and_true]; try decide)]
  simp only [unArgsMm, raw_q1, raw_bhi2, raw_d, raw_a, raw_blo4, raw_p, cut_hi, cut_lo, bit0_ofBool, join6]
theorem mmi (x : ArgsMm) : Statement (.mmi x) := of_eq rfl <| by
  intro _
  rw [esc7C]
  show (if _ then _ else _) = _
  rw [if_pos (by simp only [raw_q1, raw_bhi2, raw_d, raw_a, raw_blo4, raw_p, cut_hi, cut_lo, true_and, and_true]; try decide)]
  simp only [unArgsMm, raw_q1, raw_bhi2, raw_d, raw_a, raw_blo4, raw_p, cut_hi, cut_lo, bit0_ofBool, join6]
theorem mrd (x : ArgsMrd) : Statement (.mrd x) := of_eq rfl <| by
  intro _
  rw [esc7C]
  show (if _ then _ else _) = _
  rw [if_pos (by simp only [raw_q1, raw_d, raw_a, raw_bhi2, raw_blo4, raw_p, cut_hi, cut_lo, true_and, and_true]; try decide)]
  simp only [unArgsMrd, raw_q1, raw_d, raw_a, raw_bhi2, raw_blo4, raw_p, cut_hi, cut_lo, bit0_ofBool, join6]
theorem mclr (x : ArgsS) : Statement (.mclr x) := of_eq rfl <| by
  intro _
  rw [esc7C]
  show (if _ then _ else _) = _
  rw [if_pos (by simp only [raw_q1, raw_b, raw_d, raw_a, raw_p, cut_hi, cut_lo, true_and, and_true]; try decide)]
  simp only [unArgsS, raw_q1, raw_b, raw_d, raw_a, raw_p, cut_hi, cut_lo, bit0_ofBool, join6]
theorem mclaim (x : ArgsD) : Statement (.mclaim x) := of_eq rfl <| by
  intro _
  rw [esc7C]
  show (if _ then _ else _) = _
  rw [if_pos (by simp only [raw_q1, raw_b, raw_d, raw_a, raw_p, cut_hi, cut_lo, true_and, and_true]; try decide)]
  simp only [unArgsD, raw_q1, raw_b, raw_d, raw_a, raw_p, cut_hi, cut_lo, bit0_ofBool, join6]
theorem mfree (x : ArgsS) : Statement (.mfree x) := of_eq rfl <| by
  intro _
  rw [esc7C]
  show (if _ then _ else _) = _
  rw [if_pos (by simp only [raw_q1, raw_b, raw_d, raw_a, raw_p, cut_hi, cut_lo, true_and, and_true]; try decide)]
  simp only [unArgsS, raw_q1, raw_b, raw_d, raw_a, raw_p, cut_hi, cut_lo, bit0_ofBool, join6]
theorem viewld (x : ArgsD) : Statement (.viewld x) := of_eq rfl <| by
  intro _
  rw [esc7C]
  show (if _ then _ else _) = _
  rw [if_pos (by simp only [raw_q1, raw_b, raw_d, raw_a, raw_p, cut_hi, cut_lo, true_and, and_true]; try decide)]
  simp only [unArgsD, raw_q1, raw_b, raw_d, raw_a, raw_p, cut_hi, cut_lo, bit0_ofBool, join6]
theorem viewst (x : ArgsD) : Statement (.viewst x) := of_eq rfl <| by
  intro _
  rw [esc7C]
  show (if _ then _ else _) = _
  rw [if_pos (by simp only [raw_q1, raw_b, raw_d, raw_a, raw_p, cut_hi, cut_lo, true_and, and_true]; try decide)]
  simp only [unArgsD, raw_q1, raw_b, raw_d, raw_a, raw_p, cut_hi, cut_lo, bit0_ofBool, join6]
theorem viewset (x : ArgsK) : Statement (.viewset x) := of_eq rfl <| by
  intro _
  rw [esc7C]
  show (if _ then _ else _) = _
  rw [if_pos (by simp only [raw_q1, raw_d, raw_a, raw_b, raw_p, cut_hi, cut_lo, true_and, and_true]; try decide)]
  simp only [unArgsK, raw_q1, raw_d, raw_a, raw_b, raw_p, cut_hi, cut_lo, bit0_ofBool, join6]
theorem pgoOpen (x : ArgsD) : Statement (.pgoOpen x) := of_eq rfl <| by
  intro _
  rw [esc7D]
  show (if _ then _ else _) = _
  rw [if_pos (by simp only [raw_q1, raw_b, raw_d, raw_a, raw_p, cut_hi, cut_lo, true_and, and_true]; try decide)]
  simp only [unArgsD, raw_q1, raw_b, raw_d, raw_a, raw_p, cut_hi, cut_lo, bit0_ofBool, join6]
theorem pgoTail (x : ArgsT) : Statement (.pgoTail x) := of_eq rfl <| by
  intro wf
  rw [esc7D]
  have hb : x.b ≠ 0 := by simpa [Instr.wellFormed] using wf
  show (if _ then _ else _) = _
  rw [if_neg (fun h => hb ((raw_b ..).symm.trans h.2))]
  simp only [unArgsT, raw_d, raw_a, raw_b, raw_p, raw_q]
theorem pbind (x : ArgsPb) : Statement (.pbind x) := of_eq rfl <| by
  intro _
  rw [esc7D]
  show (if _ then _ else _) = _
  rw [if_pos (by simp only [raw_q1, raw_d, raw_a, raw_bhi3, raw_blo3, raw_p, cut_hi, cut_lo, true_and, and_true]; try decide)]
  simp only [unArgsPb, raw_q1, raw_d, raw_a, raw_bhi3, raw_blo3, raw_p, cut_hi, cut_lo, bit0_ofBool, join6]
theorem punbind (k : BitVec 3) : Statement (.punbind k) := of_eq rfl <| by
  intro _
  rw [esc7D]
  show (if _ then _ else _) = _
  rw [if_pos (by simp only [raw_low5, raw_da, cut_lo]; decide), raw_bhi3, cut_hi]
theorem prel (x : ArgsQ) : Statement (.prel x) := of_eq rfl <| by
  intro _
  rw [esc7D]
  show (if _ then _ else _) = _
  rw [if_pos (by simp only [raw_d, raw_a, raw_b, raw_p, raw_q, cut_hi, cut_lo, true_and, and_true]; try decide)]
  simp only [unArgsQ, raw_d, raw_a, raw_b, raw_p, raw_q, cut_hi, cut_lo, bit0_ofBool, join6]
theorem pwait (x : ArgsT) : Statement (.pwait x) := of_eq rfl <| by
  intro _
  rw [esc7D]
  show Except.ok _ = _
  simp only [unArgsT, raw_d, raw_a, raw_b, raw_p, raw_q, cut_hi, cut_lo, bit0_ofBool, join6]
theorem pstat (x : ArgsK) : Statement (.pstat x) := of_eq rfl <| by
  intro _
  rw [esc7D]
  show (if _ then _ else _) = _
  rw [if_pos (by simp only [raw_q1, raw_d, raw_a, raw_b, raw_p, cut_hi, cut_lo, true_and, and_true]; try decide)]
  simp only [unArgsK, raw_q1, raw_d, raw_a, raw_b, raw_p, cut_hi, cut_lo, bit0_ofBool, join6]
theorem phalt (x : ArgsD) : Statement (.phalt x) := of_eq rfl <| by
  intro _
  rw [esc7D]
  show (if _ then _ else _) = _
  rw [if_pos (by simp only [raw_q1, raw_b, raw_d, raw_a, raw_p, cut_hi, cut_lo, true_and, and_true]; try decide)]
  simp only [unArgsD, raw_q1, raw_b, raw_d, raw_a, raw_p, cut_hi, cut_lo, bit0_ofBool, join6]
theorem xopen (x : ArgsD) : Statement (.xopen x) := of_eq rfl <| by
  intro _
  rw [esc7E]
  show (if _ then _ else _) = _
  rw [if_pos (by simp only [raw_q1, raw_b, raw_d, raw_a, raw_p, cut_hi, cut_lo, true_and, and_true]; try decide)]
  simp only [unArgsD, raw_q1, raw_b, raw_d, raw_a, raw_p, cut_hi, cut_lo, bit0_ofBool, join6]
theorem xsort (x : ArgsT) : Statement (.xsort x) := of_eq rfl <| by
  intro _
  rw [esc7E]
  show Except.ok _ = _
  simp only [unArgsT, raw_d, raw_a, raw_b, raw_p, raw_q, cut_hi, cut_lo, bit0_ofBool, join6]
theorem xsend (x : ArgsT) : Statement (.xsend x) := of_eq rfl <| by
  intro _
  rw [esc7E]
  show Except.ok _ = _
  simp only [unArgsT, raw_d, raw_a, raw_b, raw_p, raw_q, cut_hi, cut_lo, bit0_ofBool, join6]
theorem xclose (x : ArgsS) : Statement (.xclose x) := of_eq rfl <| by
  intro _
  rw [esc7E]
  show (if _ then _ else _) = _
  rw [if_pos (by simp only [raw_q1, raw_b, raw_d, raw_a, raw_p, cut_hi, cut_lo, true_and, and_true]; try decide)]
  simp only [unArgsS, raw_q1, raw_b, raw_d, raw_a, raw_p, cut_hi, cut_lo, bit0_ofBool, join6]
theorem xrecv (x : ArgsQ) : Statement (.xrecv x) := of_eq rfl <| by
  intro _
  rw [esc7E]
  show (if _ then _ else _) = _
  rw [if_pos (by simp only [raw_d, raw_a, raw_b, raw_p, raw_q, cut_hi, cut_lo, true_and, and_true]; try decide)]
  simp only [unArgsQ, raw_d, raw_a, raw_b, raw_p, raw_q, cut_hi, cut_lo, bit0_ofBool, join6]
theorem xsplit (x : ArgsT) : Statement (.xsplit x) := of_eq rfl <| by
  intro _
  rw [esc7E]
  show Except.ok _ = _
  simp only [unArgsT, raw_d, raw_a, raw_b, raw_p, raw_q, cut_hi, cut_lo, bit0_ofBool, join6]
theorem xsamp (x : ArgsT) : Statement (.xsamp x) := of_eq rfl <| by
  intro _
  rw [esc7E]
  show Except.ok _ = _
  simp only [unArgsT, raw_d, raw_a, raw_b, raw_p, raw_q, cut_hi, cut_lo, bit0_ofBool, join6]
theorem xrbal (x : ArgsT) : Statement (.xrbal x) := of_eq rfl <| by
  intro _
  rw [esc7E]
  show Except.ok _ = _
  simp only [unArgsT, raw_d, raw_a, raw_b, raw_p, raw_q, cut_hi, cut_lo, bit0_ofBool, join6]
theorem xwait (x : ArgsT) : Statement (.xwait x) := of_eq rfl <| by
  intro _
  rw [esc7E]
  show Except.ok _ = _
  simp only [unArgsT, raw_d, raw_a, raw_b, raw_p, raw_q, cut_hi, cut_lo, bit0_ofBool, join6]
theorem xdone (x : ArgsS) : Statement (.xdone x) := of_eq rfl <| by
  intro _
  rw [esc7E]
  show (if _ then _ else _) = _
  rw [if_pos (by simp only [raw_q1, raw_b, raw_d, raw_a, raw_p, cut_hi, cut_lo, true_and, and_true]; try decide)]
  simp only [unArgsS, raw_q1, raw_b, raw_d, raw_a, raw_p, cut_hi, cut_lo, bit0_ofBool, join6]
theorem mfcr (x : ArgsCr) : Statement (.mfcr x) := of_eq rfl <| by
  intro _
  rw [esc7F]
  show (if _ then _ else _) = _
  rw [if_pos (by simp only [raw_pq, raw_d, raw_ab, cut_hi, cut_lo, true_and, and_true]; try decide)]
  simp only [unArgsCr, raw_pq, raw_d, raw_ab, cut_hi, cut_lo, bit0_ofBool, join6]
theorem mtcr (x : ArgsMtcr) : Statement (.mtcr x) := of_eq rfl <| by
  intro _
  rw [esc7F]
  show (if _ then _ else _) = _
  rw [if_pos (by simp only [raw_q1, raw_d, raw_ab, raw_p, cut_hi, cut_lo, true_and, and_true]; try decide)]
  simp only [unArgsMtcr, raw_q1, raw_d, raw_ab, raw_p, cut_hi, cut_lo, bit0_ofBool, join6]
theorem ecall (x : ArgsS) : Statement (.ecall x) := of_eq rfl <| by
  intro _
  rw [esc7F]
  show (if _ then _ else _) = _
  rw [if_pos (by simp only [raw_q1, raw_b, raw_d, raw_a, raw_p, cut_hi, cut_lo, true_and, and_true]; try decide)]
  simp only [unArgsS, raw_q1, raw_b, raw_d, raw_a, raw_p, cut_hi, cut_lo, bit0_ofBool, join6]
theorem tret : Statement .tret := of_eq rfl <| by
  intro _
  decide
theorem taskq (x : ArgsD) : Statement (.taskq x) := of_eq rfl <| by
  intro _
  rw [esc7F]
  show (if _ then _ else _) = _
  rw [if_pos (by simp only [raw_q1, raw_b, raw_d, raw_a, raw_p, cut_hi, cut_lo, true_and, and_true]; try decide)]
  simp only [unArgsD, raw_q1, raw_b, raw_d, raw_a, raw_p, cut_hi, cut_lo, bit0_ofBool, join6]
theorem taskend : Statement .taskend := of_eq rfl <| by
  intro _
  decide
theorem hwmpub (x : ArgsS) : Statement (.hwmpub x) := of_eq rfl <| by
  intro _
  rw [esc7F]
  show (if _ then _ else _) = _
  rw [if_pos (by simp only [raw_q1, raw_b, raw_d, raw_a, raw_p, cut_hi, cut_lo, true_and, and_true]; try decide)]
  simp only [unArgsS, raw_q1, raw_b, raw_d, raw_a, raw_p, cut_hi, cut_lo, bit0_ofBool, join6]
theorem yield (x : ArgsS) : Statement (.yield x) := of_eq rfl <| by
  intro _
  rw [esc7F]
  show (if _ then _ else _) = _
  rw [if_pos (by simp only [raw_q1, raw_b, raw_d, raw_a, raw_p, cut_hi, cut_lo, true_and, and_true]; try decide)]
  simp only [unArgsS, raw_q1, raw_b, raw_d, raw_a, raw_p, cut_hi, cut_lo, bit0_ofBool, join6]
theorem waitf (x : ArgsW) : Statement (.waitf x) := of_eq rfl <| by
  intro _
  rw [esc7F]
  show (if _ then _ else _) = _
  rw [if_pos (by simp only [raw_pq, raw_d, raw_a, raw_b, cut_hi, cut_lo, true_and, and_true]; try decide)]
  simp only [unArgsW, raw_pq, raw_d, raw_a, raw_b, cut_hi, cut_lo, bit0_ofBool, join6]
theorem trace (x : ArgsTr) : Statement (.trace x) := of_eq rfl <| by
  intro _
  rw [esc7F]
  show (if _ then _ else _) = _
  rw [if_pos (by simp only [raw_q1, raw_d, raw_a, raw_b, raw_p, cut_hi, cut_lo, true_and, and_true]; try decide)]
  simp only [unArgsTr, raw_q1, raw_d, raw_a, raw_b, raw_p, cut_hi, cut_lo, bit0_ofBool, join6]
theorem bkpt (b : BitVec 6) : Statement (.bkpt b) := of_eq rfl <| by
  intro _
  rw [esc7F]
  show (if _ then _ else _) = _
  rw [if_pos (by simp only [raw_pq, raw_da, raw_b, cut_hi, cut_lo, true_and, and_true]; try decide)]
  simp only [raw_pq, raw_da, raw_b, cut_hi, cut_lo, bit0_ofBool, join6]
theorem ckill (x : ArgsD) : Statement (.ckill x) := of_eq rfl <| by
  intro _
  rw [esc7F]
  show (if _ then _ else _) = _
  rw [if_pos (by simp only [raw_q1, raw_b, raw_d, raw_a, raw_p, cut_hi, cut_lo, true_and, and_true]; try decide)]
  simp only [unArgsD, raw_q1, raw_b, raw_d, raw_a, raw_p, cut_hi, cut_lo, bit0_ofBool, join6]
theorem savectx (x : ArgsS) : Statement (.savectx x) := of_eq rfl <| by
  intro _
  rw [esc7F]
  show (if _ then _ else _) = _
  rw [if_pos (by simp only [raw_q1, raw_b, raw_d, raw_a, raw_p, cut_hi, cut_lo, true_and, and_true]; try decide)]
  simp only [unArgsS, raw_q1, raw_b, raw_d, raw_a, raw_p, cut_hi, cut_lo, bit0_ofBool, join6]
theorem elementGroup (tile : Nat) (core : Bool) : Statement (.elementGroup tile core) := of_none rfl
theorem longLatencyProducerDone (slot k : Nat) : Statement (.longLatencyProducerDone slot k) := of_none rfl
theorem aBroadcast (tile : Nat) (core : Bool) : Statement (.aBroadcast tile core) := of_none rfl
theorem pop (die : Nat) : Statement (.pop die) := of_none rfl
theorem creditFreed (ctx : Nat) : Statement (.creditFreed ctx) := of_none rfl
theorem slotBindWrite (slot : Nat) (v : BitVec 16) : Statement (.slotBindWrite slot v) := of_none rfl
theorem errClear (slot : Nat) : Statement (.errClear slot) := of_none rfl
theorem lpart (slot : Nat) : Statement (.lpart slot) := of_none rfl
theorem maxvl (slot : Nat) : Statement (.maxvl slot) := of_none rfl
theorem ptbase (slot : Nat) : Statement (.ptbase slot) := of_none rfl
theorem registerWrite (addr : Nat) (v : Word) : Statement (.registerWrite addr v) := of_none rfl
theorem windowGrant (window : Nat) (v : BitVec 32) : Statement (.windowGrant window v) := of_none rfl
theorem windowRevoke (window : Nat) (v : BitVec 32) : Statement (.windowRevoke window v) := of_none rfl
theorem windowScrubEnd (window : Nat) : Statement (.windowScrubEnd window) := of_none rfl
theorem tableGrant (tile : Nat) (v : BitVec 32) : Statement (.tableGrant tile v) := of_none rfl
theorem tableZeroingEnd (tile : Nat) : Statement (.tableZeroingEnd tile) := of_none rfl
theorem go (v : Word) : Statement (.go v) := of_none rfl
theorem invalidationEnd : Statement .invalidationEnd := of_none rfl
theorem walk (unit ctx : Nat) (va : Word) : Statement (.walk unit ctx va) := of_none rfl
theorem kill (ctx : Nat) : Statement (.kill ctx) := of_none rfl
theorem contextEnd (ctx : Nat) : Statement (.contextEnd ctx) := of_none rfl
theorem pre (slot : Nat) : Statement (.pre slot) := of_none rfl
theorem halt (slot : Nat) : Statement (.halt slot) := of_none rfl
theorem resume (slot : Nat) : Statement (.resume slot) := of_none rfl
theorem stepSlot (slot : Nat) : Statement (.stepSlot slot) := of_none rfl
theorem restore (slot : Nat) : Statement (.restore slot) := of_none rfl
theorem drop (slot : Nat) : Statement (.drop slot) := of_none rfl
theorem preEmption (slot : Nat) : Statement (.preEmption slot) := of_none rfl
theorem timeSliceExpiry (slot : Nat) : Statement (.timeSliceExpiry slot) := of_none rfl
theorem abandonment (slot : Nat) : Statement (.abandonment slot) := of_none rfl
theorem debugData (write : Bool) (v : Word) : Statement (.debugData write v) := of_none rfl
theorem portGrant (pump : Nat) : Statement (.portGrant pump) := of_none rfl
theorem copy (chan : Nat) : Statement (.copy chan) := of_none rfl
theorem gather (chan : Nat) : Statement (.gather chan) := of_none rfl
theorem scatter (chan : Nat) : Statement (.scatter chan) := of_none rfl
theorem requant (chan : Nat) : Statement (.requant chan) := of_none rfl
theorem convert (chan : Nat) : Statement (.convert chan) := of_none rfl
theorem waitseq (chan : Nat) : Statement (.waitseq chan) := of_none rfl
theorem signalDecrement (chan : Nat) : Statement (.signalDecrement chan) := of_none rfl
theorem signalStore (chan : Nat) : Statement (.signalStore chan) := of_none rfl
theorem loopCmd (chan : Nat) : Statement (.loopCmd chan) := of_none rfl
theorem jumpCmd (chan : Nat) : Statement (.jumpCmd chan) := of_none rfl
theorem endCmd (chan : Nat) : Statement (.endCmd chan) := of_none rfl
theorem commandComplete (chan : Nat) : Statement (.commandComplete chan) := of_none rfl
theorem arrival (chan : Nat) : Statement (.arrival chan) := of_none rfl
theorem ticketCall (t : TicketEnd) : Statement (.ticketCall t) := of_none rfl
theorem ticketTimeout (t : TicketEnd) : Statement (.ticketTimeout t) := of_none rfl
theorem budgetPeriod (arbiter : Arbiter) (ctx : Nat) : Statement (.budgetPeriod arbiter ctx) := of_none rfl
theorem roundOpen (round : Nat) : Statement (.roundOpen round) := of_none rfl
theorem egressSend (round source : Nat) (fabric : LaneInput) : Statement (.egressSend round source fabric) := of_none rfl
theorem mergeEmit (round stage switch out : Nat) : Statement (.mergeEmit round stage switch out) := of_none rfl
theorem ingressDelivery (round endpoint : Nat) : Statement (.ingressDelivery round endpoint) := of_none rfl
theorem roundComplete (round : Nat) : Statement (.roundComplete round) := of_none rfl
theorem laneOpening (round dev : Nat) (peer : LaneDesc) : Statement (.laneOpening round dev peer) := of_none rfl
theorem faultNotice (round dev : Nat) : Statement (.faultNotice round dev) := of_none rfl
theorem remoteRequest (reqs : List RemoteReq) : Statement (.remoteRequest reqs) := of_none rfl
theorem remoteReply (reply : RemoteReply) : Statement (.remoteReply reply) := of_none rfl
theorem resend (index : Nat) : Statement (.resend index) := of_none rfl
theorem filterFree (index : Nat) : Statement (.filterFree index) := of_none rfl
theorem linkFailed (link : Nat) (loc : BitVec 32) : Statement (.linkFailed link loc) := of_none rfl
theorem htail (v : BitVec 32) : Statement (.htail v) := of_none rfl
theorem hack (v : BitVec 32) : Statement (.hack v) := of_none rfl
theorem launch : Statement .launch := of_none rfl
theorem endContext : Statement .endContext := of_none rfl
theorem completionRecord : Statement .completionRecord := of_none rfl
theorem completionRingWord (v : BitVec 256) : Statement (.completionRingWord v) := of_none rfl
theorem hbmWindow (off : Nat) (bytes : List Byte) : Statement (.hbmWindow off bytes) := of_none rfl
theorem attestationNonce (nonce : BitVec 256) : Statement (.attestationNonce nonce) := of_none rfl
theorem powerOn (image : Option BootImage) (epoch : BitVec 16) : Statement (.powerOn image epoch) := of_none rfl
theorem selfTestEnd (function : Nat) (passed : Bool) : Statement (.selfTestEnd function passed) := of_none rfl
theorem failedWrite (function : Nat) : Statement (.failedWrite function) := of_none rfl
theorem clockStep (die : Nat) (m : Sensors) : Statement (.clockStep die m) := of_none rfl
theorem thermalReset : Statement .thermalReset := of_none rfl
theorem softError (place : ErrorPlace) (lasting : Bool) (loc : BitVec 32) (hart : Option Nat) : Statement (.softError place lasting loc hart) := of_none rfl
theorem flush (unit : Nat) : Statement (.flush unit) := of_none rfl
theorem haltStop (slot : Nat) : Statement (.haltStop slot) := of_none rfl
theorem sliceReload (slot : Nat) : Statement (.sliceReload slot) := of_none rfl
theorem macroReplay (slot mac : Nat) : Statement (.macroReplay slot mac) := of_none rfl
theorem storePerformed (slot k : Nat) : Statement (.storePerformed slot k) := of_none rfl
theorem ticketRequest (requests : List TicketAsk) : Statement (.ticketRequest requests) := of_none rfl
theorem yieldReturn (slot : Nat) : Statement (.yieldReturn slot) := of_none rfl

end RoundTrip

end Sys2Proof.Laws
end

