-- ==== Sys2Proof/Tests/Slice0.lean ====
section
/-! SUPPORT. Tests: ill-formed terms that WellFormed refuses, words of the spec that decode to the instructions they stand for, single steps, and
for each statement a concrete state and operands that meet its hypotheses together. -/

namespace Sys2Proof.Tests
open Sys2Proof Sys2Proof.Machine Sys2Proof.Spec
set_option Elab.async false

/-! ## WellFormed refuses -/

/-- Class IB: reserved width in a vector form; eb set beside an immediate; reserved SS code (R26–R31). -/
theorem test_refuses_IB : (Instr.add ⟨0, 6, 1, 2, 3, false, false⟩).wellFormed = false ∧ (Instr.add ⟨2, 5, 1, 2, 3, false, true⟩).wellFormed = false ∧
    (Instr.add ⟨3, 4, 1, 2, 3, false, false⟩).wellFormed = false ∧ (Instr.add ⟨3, 1, 1, 2, 3, false, true⟩).wellFormed = false := by decide
/-- Classes IW and IN: a source of w64; a 64-bit SS form; form VV; a count of 2w (R107, R113). -/
theorem test_refuses_width_changes : (Instr.wmul ⟨0, 5, 1, 2, 3, false, false⟩).wellFormed = false ∧ (Instr.wadd ⟨3, 0, 1, 2, 3, false, false⟩).wellFormed = false ∧
    (Instr.narrow ⟨0, 4, 1, 2, 3, false, false⟩).wellFormed = false ∧ (Instr.narrowu ⟨2, 2, 1, 2, 16, false, false⟩).wellFormed = false := by decide
/-- Unary forms, extensions that do not widen, and a comparison or MFROM into no mask (R31, R98, R24). -/
theorem test_refuses_unary_and_masks : (Instr.popc ⟨1, 3, 1, 2, false⟩).wellFormed = false ∧ (Instr.sext ⟨0, 3, 1, 2, 3, false⟩).wellFormed = false ∧
    (Instr.cmpeq ⟨0, 3, 8, 2, 3, false, false⟩).wellFormed = false ∧ (Instr.sel ⟨3, 0, 1, 2, 3, false, false⟩).wellFormed = false ∧
    (Instr.mlogAnd ⟨1, 2, 8, false, false⟩).wellFormed = false ∧ (Instr.mlogSet 8).wellFormed = false ∧ (Instr.mfrom ⟨3, 8, 1, false⟩).wellFormed = false ∧
    (Instr.mto ⟨6, 1, 1, false⟩).wellFormed = false ∧ (Instr.mcnt ⟨1, 8, false⟩).wellFormed = false := by decide
/-- Float widths and forms, and conversions of a pair that R130 does not list. -/
theorem test_refuses_floats : (Instr.fadd ⟨0, 1, 1, 2, 3, false, false⟩).wellFormed = false ∧ (Instr.fadd ⟨2, 4, 1, 2, 3, false, false⟩).wellFormed = false ∧
    (Instr.fsqrt ⟨1, 4, 1, 2, false⟩).wellFormed = false ∧ (Instr.fcvt ⟨0, 4, 1, 2, 4, false⟩).wellFormed = false ∧
    (Instr.fcvti ⟨3, 1, 1, 2, 4, false⟩).wellFormed = false ∧ (Instr.fcvtf ⟨0, 1, 1, 2, 3, false⟩).wellFormed = false := by decide
/-- Cross-lane operands: IOTA of form VV, a slide by 32, an integer reduction of code 6 (R133–R142). -/
theorem test_refuses_cross : (Instr.iota ⟨0, 3, 1, 2, false⟩).wellFormed = false ∧ (Instr.slideup ⟨2, 3, 1, 2, 32, false, false⟩).wellFormed = false ∧
    (Instr.rsum ⟨6, 1, 2, 3, false, false⟩).wellFormed = false ∧ (Instr.frsum ⟨1, 1, 2, 3, false, false⟩).wellFormed = false := by decide
/-- Memory: mode 11, a nonzero b in mode 00, a w64 table access, ACAS of s63, a fence scope of 4, STQ of w4 (R197, R205, R328, R316, R180). -/
theorem test_refuses_memory : (Instr.ld ⟨3, 4, 1, 2, 0, false, false⟩).wellFormed = false ∧ (Instr.st ⟨0, 4, 1, 2, 1, false, false⟩).wellFormed = false ∧
    (Instr.tld ⟨5, 1, 2, 3, false, false⟩).wellFormed = false ∧ (Instr.aadd ⟨0, true, 1, 2, 3, false, false⟩).wellFormed = false ∧
    (Instr.acas ⟨2, true, 63, 2, 3, false, false⟩).wellFormed = false ∧ (Instr.fence 4).wellFormed = false ∧ (Instr.stq ⟨1, 1, 2, false, false⟩).wellFormed = false ∧
    (Instr.acq ⟨true, 1, 2, 3, false, true⟩).wellFormed = false ∧ (Instr.rel ⟨true, 1, 2, false, true⟩).wellFormed = false := by decide
/-- Control: conditions, status bits, unassigned and read-only control registers, WAITF kinds, view fields, rows, PGO with b = 0 (R157–R161, R150, R149, R186, R253, R234). -/
theorem test_refuses_control : (Instr.br ⟨6, 1, 2, 3⟩).wellFormed = false ∧ (Instr.brm ⟨3, 1, 3⟩).wellFormed = false ∧ (Instr.brs ⟨0, 4, 7, 3⟩).wellFormed = false ∧
    (Instr.jalr ⟨true, 1, 2, 3, false, true⟩).wellFormed = false ∧ (Instr.mfcr ⟨1, 0x00D⟩).wellFormed = false ∧ (Instr.mtcr ⟨1, 0x010, false⟩).wellFormed = false ∧
    (Instr.waitf ⟨1, 4⟩).wellFormed = false ∧ (Instr.viewset ⟨0, 1, 6, false⟩).wellFormed = false ∧ (Instr.viewld ⟨4, 1, false⟩).wellFormed = false ∧
    (Instr.mmo ⟨16, 1, 1, false⟩).wellFormed = false ∧ (Instr.pgoTail ⟨1, 2, 0, false, false⟩).wellFormed = false ∧
    (Instr.pbind ⟨1, 2, 0, 1, false⟩).wellFormed = false ∧ (Instr.pstat ⟨1, 2, 7, false⟩).wellFormed = false := by decide

/-! ## Words written out from the encoding tables (R18–R37, and each family's own table) -/

/-- Format A (R18), opcode at 31:25, form at 24:23, wcode at 22:20, d at 19:14, a at 13:8, b at 7:2: OR s4, s5, #16; a saturating add of w8; a widening multiply;
NARROW by 4; a comparison with a scalar. -/
theorem test_decode_integer : decode 0x3D910540 = .ok (.or ⟨3, 1, 4, 5, 16, false, false⟩) ∧ decode 0x06210008 = .ok (.adds ⟨0, 2, 4, 0, 2, false, false⟩) ∧
    decode 0x2E380830 = .ok (.wmul ⟨0, 3, 32, 8, 12, false, false⟩) ∧ decode 0x37210810 = .ok (.narrow ⟨2, 2, 4, 8, 4, false, false⟩) ∧
    decode 0x52C08824 = .ok (.cmplt ⟨1, 4, 2, 8, 9, false, false⟩) ∧ decode 0x4B80C400 = .ok (.popc ⟨3, 0, 3, 4, false⟩) := by decide +kernel
/-- Moves and masks (R97–R102): MOV from s7, SEXT of w8, SEL, MLOG.AND, MCNT, MFROM, MTO. -/
theorem test_decode_moves : decode 0x5CC1001C = .ok (.mov ⟨1, 4, 4, 7, false⟩) ∧ decode 0x5E420408 = .ok (.sext ⟨0, 4, 8, 4, 2, false⟩) ∧
    decode 0x5A400420 = .ok (.sel ⟨0, 4, 0, 4, 8, false, false⟩) ∧ decode 0xB6008004 = .ok (.mlogAnd ⟨2, 0, 1, false, false⟩) ∧
    decode 0xB9818300 = .ok (.mcnt ⟨6, 3, false⟩) ∧ decode 0xBC304800 = .ok (.mfrom ⟨3, 1, 8, false⟩) ∧
    decode 0xBE250100 = .ok (.mto ⟨2, 20, 1, false⟩) := by decide +kernel
/-- Formats B and I (R20, R21) and the control family: LI, SETVL, MTCR VMSEL, WAITF s9, BRM, BR.NE −1, RET. -/
theorem test_decode_control : decode 0xF0200004 = .ok (.li ⟨4, 4⟩) ∧ decode 0xF5814400 = .ok (.setvl ⟨5, 4, false⟩) ∧ decode 0xFE10C008 = .ok (.mtcr ⟨3, 2, false⟩) ∧
    decode 0xFE800900 = .ok (.waitf ⟨9, 0⟩) ∧ decode 0xE8020003 = .ok (.brm ⟨0, 2, 3⟩) ∧ decode 0xE64703FF = .ok (.br ⟨1, 7, 0, 0x3FF⟩) ∧
    decode 0xEF903F00 = .ok (.jalr ⟨true, 0, 63, 0, false, false⟩) := by decide +kernel
/-- Memory, sync objects and atomics (R316–R331): FENCE #2, BIND, UNBIND, ACQ, both RELs, QFENCE, AADD and AFADD of w32, ACAS of w64. -/
theorem test_decode_memory : decode 0xDD900008 = .ok (.fence 2) ∧ decode 0xE181CA2C = .ok (.bind ⟨7, 10, 11, false, false⟩) ∧ decode 0xE3800700 = .ok (.unbind ⟨7, false⟩) ∧
    decode 0xD9818A14 = .ok (.acq ⟨false, 6, 10, 5, false, false⟩) ∧ decode 0xDB800A14 = .ok (.rel ⟨false, 10, 5, false, false⟩) ∧
    decode 0xDB900A04 = .ok (.rel ⟨true, 10, 1, false, false⟩) ∧ decode 0xDF800500 = .ok (.qfence ⟨5, 0, false, false⟩) ∧
    decode 0xCCC20AA0 = .ok (.aadd ⟨1, false, 8, 10, 40, false, false⟩) ∧ decode 0xCEC20AA0 = .ok (.afadd ⟨1, false, 8, 10, 40, false, false⟩) ∧
    decode 0xD7518A00 = .ok (.acas ⟨2, true, 6, 10, 0, false, false⟩) := by decide +kernel
/-- Exchange, tasks and pumps (R37, R59, R235): XSORT, XSEND, XCLOSE, XWAIT, XDONE, TASKQ, both PGOs. -/
theorem test_decode_units : decode 0xFC118B10 = .ok (.xsort ⟨6, 11, 4, false, false⟩) ∧ decode 0xFC21C614 = .ok (.xsend ⟨7, 6, 5, false, false⟩) ∧
    decode 0xFC300500 = .ok (.xclose ⟨5, false⟩) ∧ decode 0xFC820524 = .ok (.xwait ⟨8, 5, 9, false, false⟩) ∧ decode 0xFC900500 = .ok (.xdone ⟨5, false⟩) ∧
    decode 0xFE414A00 = .ok (.taskq ⟨5, 10, false⟩) ∧ decode 0xFA014A00 = .ok (.pgoOpen ⟨5, 10, false⟩) ∧
    decode 0xFA01851C = .ok (.pgoTail ⟨6, 5, 7, false, false⟩) := by decide +kernel
/-- Macros and views (R251–R257, R184): MMO of macro 0 into row 0, MRD.F32, MLDB mac0, VIEWLD V1, VIEWSET ROW0. -/
theorem test_decode_macros : decode 0xF8100404 = .ok (.mmo ⟨0, 4, 1, false⟩) ∧ decode 0xF8440900 = .ok (.mrd ⟨16, 9, 0, 0, false⟩) ∧
    decode 0xF8000C20 = .ok (.mldb ⟨0, 12, 8, false, false⟩) ∧ decode 0xF8804A00 = .ok (.viewld ⟨1, 10, false⟩) ∧
    decode 0xF8A00504 = .ok (.viewset ⟨0, 5, 1, false⟩) := by decide +kernel
/-- Primary opcode 0 and an unassigned sub5 are no instruction (R38, check 1); SEL of form SS decodes, and its form is refused (check 2). -/
theorem test_decode_refuses : (decode 0x00000000).toOption = none ∧ (decode 0xFFFFFFFF).toOption = none ∧
    (decode 0x5B900000).toOption.map Instr.wellFormed = some false := by decide +kernel

/-! ## The states of the witnesses -/

/-- A hart with a few scalars: s2 = 64, s3 = 5, s4 = 6, s5 = 0x104, s6 = 3; VL 2; cistern-global space. -/
def hart0 : Hart := { pc := 0x1000, vl := 2, mspace := 1, taskid := 7, s := [(2, 64), (3, 5), (4, 6), (5, 0x104), (6, 3)] }

/-- Slot 0 runs a task of context 0. -/
def slot0 : Slot := { mode := 2, state := .running, task := 7, ndisp := 1, hart := hart0 }

/-- Context 0, resident, with SYS and quotas. -/
def ctx0 : Ctx := { res := true, sys := true, qtask := 100, qslot := 8, qmark := 8, qcred := 8, qchan := 16, qmac := 132, qround := 4 }

/-- Every function READY, one window of tile 0, one leaf for the low HBM in the TLBs of tile 0 and pump 0. -/
def st : State :=
  { slots := [(0, slot0)], ctxs := [(0, ctx0)], funcs := (List.range 324).map (fun n => (n, { state := 2 })),
    windows := [(0, { rd := true, wr := true, valid := true })], tlb := [⟨0, 0, 1, 0, 0x1F⟩, ⟨192, 0, 1, 0, 0x1F⟩] }

/-- `st` with another hart. -/
def stH (h : Hart) : State := { st with slots := [(0, { slot0 with hart := h })] }

/-- The outcome is a next state that passes the test. -/
def yields (o : Out) (p : State → Bool) : Bool :=
  match o with
  | .next t => p t
  | _ => false

/-- What holds below VL holds of every performed element. -/
theorem of_performed {h : Hart} {Q : Nat → Prop} (hq : ∀ j < h.len, Q j) : ∀ j, performed h j = true → Q j := by
  intro j hj
  simp only [performed, Hart.active, Bool.and_eq_true, decide_eq_true_eq] at hj
  exact hq j hj.2.1

/-- What holds below VL holds of every active element. -/
theorem of_active {h : Hart} {Q : Nat → Prop} (hq : ∀ j < h.len, Q j) : ∀ j, h.active j = true → Q j := by
  intro j hj
  simp only [Hart.active, Bool.and_eq_true, decide_eq_true_eq] at hj
  exact hq j hj.1

/-- A property of element 0, as the statements on scalar accesses ask for it. -/
theorem of_zero {Q : Nat → Prop} (hq : Q 0) : ∀ j, (j == 0) = true → Q j := by
  intro j hj
  rw [eq_of_beq hj]
  exact hq

theorem st_quiet : Ready st = true ∧ Quiet st = true := by decide +kernel

/-! ## Witnesses: lanes (R92–R142) -/

/-- IntegerScalarResult: ADDS at width 32 with an immediate, and DIV by s0 = 0 with IDZE clear. -/
theorem witness_integer_scalar : (∃ r, intRow (.adds ⟨3, 3, 1, 2, 63, false, false⟩) = some r ∧ (Instr.adds ⟨3, 3, 1, 2, 63, false, false⟩).wellFormed = true ∧
      r.x.f = 3 ∧ Ready st = true ∧ r.divides = false) ∧
    (∃ r, intRow (.div ⟨3, 0, 1, 2, 0, false, false⟩) = some r ∧ (Instr.div ⟨3, 0, 1, 2, 0, false, false⟩).wellFormed = true ∧ r.x.f = 3 ∧ Ready st = true ∧
      r.divides = true ∧ secondScalar st r.x.w r.shift (scalarWidth r.x.w) r.x.b = 0 ∧ st.hart.fctl.getLsbD 5 = false) :=
  ⟨⟨_, rfl, by decide +kernel⟩, ⟨_, rfl, by decide +kernel⟩⟩

/-- IntegerVectorResult: form VV up to slice 63 at w4, and DIVU by an immediate with IDZE set. -/
theorem witness_integer_vector : (∃ r, intRow (.subsu ⟨0, 1, 63, 2, 62, false, false⟩) = some r ∧ (Instr.subsu ⟨0, 1, 63, 2, 62, false, false⟩).wellFormed = true ∧
      r.x.f ≠ 3 ∧ Ready st = true ∧ overruns 4 r.x.d.toNat = false ∧ overruns 4 r.x.a.toNat = false ∧ overruns 4 r.x.b.toNat = false ∧ r.divides = false) ∧
    (∃ r, intRow (.divu ⟨2, 5, 48, 0, 5, false, false⟩) = some r ∧ (Instr.divu ⟨2, 5, 48, 0, 5, false, false⟩).wellFormed = true ∧ r.x.f ≠ 3 ∧
      Ready (stH { hart0 with fctl := 0x20 }) = true ∧ overruns 64 r.x.d.toNat = false ∧ overruns 64 r.x.a.toNat = false ∧ r.divides = true ∧
      (stH { hart0 with fctl := 0x20 }).hart.fctl.getLsbD 5 = true ∧
      ∀ j, performed (stH { hart0 with fctl := 0x20 }).hart j = true → secondAt (stH { hart0 with fctl := 0x20 }) r.x.f r.shift 64 r.x.b j ≠ 0) := by
  refine ⟨⟨_, rfl, by decide +kernel⟩, ⟨_, rfl, by decide +kernel, by decide +kernel, by decide +kernel, by decide +kernel, by decide +kernel, rfl, by decide +kernel, ?_⟩⟩
  exact of_performed (by decide +kernel)

/-- WideningResult: the SS form, and a vector form whose 128-bit destination ends at slice 63. -/
theorem witness_widening : (∃ r, wideRow (.wmul ⟨3, 2, 1, 2, 3, false, false⟩) = some r ∧ (Instr.wmul ⟨3, 2, 1, 2, 3, false, false⟩).wellFormed = true ∧ Ready st = true ∧ r.x.f = 3) ∧
    (∃ r, wideRow (.wmacu ⟨0, 4, 48, 0, 8, false, false⟩) = some r ∧ (Instr.wmacu ⟨0, 4, 48, 0, 8, false, false⟩).wellFormed = true ∧ Ready st = true ∧ r.x.f = 0 ∧
      overruns 64 r.x.d.toNat = false ∧ overruns 32 r.x.a.toNat = false ∧ overruns 32 r.x.b.toNat = false) :=
  ⟨⟨_, rfl, by decide +kernel⟩, ⟨_, rfl, by decide +kernel⟩⟩

/-- SHAKE256 of no bytes: the standard's own value (FIPS 202). -/
theorem test_shake256 : shake 136 [] 8 = [0x46, 0xB9, 0xDD, 0x2B, 0x0B, 0xA8, 0x8D, 0x13] := by decide +kernel

/-- UnaryResult: ABS of a scalar, POPC of a vector; an SS form of wcode 3. -/
theorem witness_unary : (∃ r, unaryRow (.clz ⟨3, 3, 1, 2, false⟩) = some r ∧ r.x.f = 3 ∧ r.x.w = 3 ∧ st.hart.tlvl.toNat < 2) ∧ (∃ r, unaryRow (.abs ⟨3, 2, 1, 2, false⟩) = some r ∧ (Instr.abs ⟨3, 2, 1, 2, false⟩).wellFormed = true ∧ Ready st = true ∧ r.x.f = 3) ∧
    (∃ r, unaryRow (.popc ⟨0, 0, 63, 2, false⟩) = some r ∧ (Instr.popc ⟨0, 0, 63, 2, false⟩).wellFormed = true ∧ Ready st = true ∧ r.x.f ≠ 3 ∧
      overruns 2 r.x.d.toNat = false ∧ overruns 2 r.x.a.toNat = false) :=
  ⟨⟨_, rfl, by decide +kernel⟩, ⟨_, rfl, by decide +kernel⟩, ⟨_, rfl, by decide +kernel⟩⟩

/-- CompareResult and FloatCompareResult: into s1 and into m7. -/
theorem witness_compare : (∃ r, compareRow (.cmplt ⟨3, 0, 1, 2, 3, false, false⟩) = some r ∧ (Instr.cmplt ⟨3, 0, 1, 2, 3, false, false⟩).wellFormed = true ∧ Ready st = true ∧ r.x.f = 3) ∧
    (∃ r, compareRow (.cmpleu ⟨0, 2, 7, 2, 3, false, false⟩) = some r ∧ (Instr.cmpleu ⟨0, 2, 7, 2, 3, false, false⟩).wellFormed = true ∧ Ready st = true ∧ r.x.f = 0 ∧
      overruns 8 r.x.a.toNat = false ∧ overruns 8 r.x.b.toNat = false) ∧
    (Instr.fcmpeq ⟨3, 4, 1, 2, 3, false, false⟩).wellFormed = true ∧ (Instr.fcmple ⟨0, 3, 7, 0, 4, false, false⟩).wellFormed = true ∧
    overruns 16 0 = false ∧ overruns 16 4 = false :=
  ⟨⟨_, rfl, by decide +kernel⟩, ⟨_, rfl, by decide +kernel⟩, by decide +kernel⟩

/-- NarrowResult: form VS with a count in s3, signed, and form VI with the greatest count, unsigned. -/
theorem witness_narrow : (if true then Instr.narrow ⟨1, 2, 4, 8, 3, false, false⟩ else .narrowu ⟨1, 2, 4, 8, 3, false, false⟩).wellFormed = true ∧ Ready st = true ∧
    overruns 8 4 = false ∧ overruns 16 8 = false ∧ (if false then Instr.narrow ⟨2, 2, 4, 8, 15, false, false⟩ else .narrowu ⟨2, 2, 4, 8, 15, false, false⟩).wellFormed = true := by
  decide +kernel

/-- MoveResult: scalar and vector rows, and SEL. -/
theorem witness_move : (∃ r, moveRow (.mov ⟨3, 1, 1, 5, false⟩) = some r ∧ (Instr.mov ⟨3, 1, 1, 5, false⟩).wellFormed = true ∧ Ready st = true ∧ r.scalar = true) ∧
    (∃ r, moveRow (.zext ⟨0, 4, 56, 63, 0, false⟩) = some r ∧ (Instr.zext ⟨0, 4, 56, 63, 0, false⟩).wellFormed = true ∧ Ready st = true ∧ r.scalar = false ∧ r.fits = true) ∧
    (∃ r, moveRow (.mto ⟨5, 48, 7, false⟩) = some r ∧ (Instr.mto ⟨5, 48, 7, false⟩).wellFormed = true ∧ Ready st = true ∧ r.scalar = false ∧ r.fits = true) ∧
    ((Instr.sel ⟨0, 3, 0, 4, 8, false, false⟩).wellFormed = true ∧ overruns 16 0 = false ∧ overruns 16 4 = false ∧ overruns 16 8 = false) :=
  ⟨⟨_, rfl, by decide +kernel⟩, ⟨_, rfl, by decide +kernel⟩, ⟨_, rfl, by decide +kernel⟩, by decide +kernel⟩

/-- MaskResult: MLOG.NOT, MFROM, and MCNT and MFIRST with VL 2 and VL 0. -/
theorem witness_mask : (∃ r, maskRow (.mlogNot ⟨7, 0, false⟩) = some r ∧ (Instr.mlogNot ⟨7, 0, false⟩).wellFormed = true ∧ r.fits = true ∧ Ready st = true) ∧
    (∃ r, maskRow (.mfrom ⟨5, 0, 48, false⟩) = some r ∧ (Instr.mfrom ⟨5, 0, 48, false⟩).wellFormed = true ∧ r.fits = true ∧ Ready st = true) ∧
    (isMask (7 : BitVec 6) = true ∧ st.hart.len ≠ 0 ∧ (stH { hart0 with vl := 0 }).hart.len = 0 ∧ Ready (stH { hart0 with vl := 0 }) = true) :=
  ⟨⟨_, rfl, by decide +kernel⟩, ⟨_, rfl, by decide +kernel⟩, by decide +kernel⟩

/-- FloatResult: FMA of scalars in FP32, FADD VV, FSQRT; form VS reads a scalar. -/
theorem witness_float : (∃ r, floatRow (.fma ⟨3, 4, 1, 2, 3, false, false⟩) = some r ∧ (Instr.fma ⟨3, 4, 1, 2, 3, false, false⟩).wellFormed = true ∧ Ready st = true ∧ r.f = 3) ∧
    (∃ r, floatRow (.fadd ⟨0, 5, 0, 16, 48, false, false⟩) = some r ∧ (Instr.fadd ⟨0, 5, 0, 16, 48, false, false⟩).wellFormed = true ∧ Ready st = true ∧ r.f ≠ 3 ∧
      overruns 64 r.d.toNat = false ∧ overruns 64 r.a.toNat = false ∧ overruns 64 48 = false ∧ r.b = some 48) ∧
    (∃ r, floatRow (.fsqrt ⟨0, 2, 0, 2, false⟩) = some r ∧ (Instr.fsqrt ⟨0, 2, 0, 2, false⟩).wellFormed = true ∧ Ready st = true ∧ r.f ≠ 3 ∧
      overruns 8 r.d.toNat = false ∧ overruns 8 r.a.toNat = false ∧ r.b = none) :=
  ⟨⟨_, rfl, by decide +kernel⟩, ⟨_, rfl, by decide +kernel⟩, ⟨_, rfl, by decide +kernel⟩⟩

/-- ConversionResult: each of the three, scalar and vector. -/
theorem witness_conversion : Ready st = true ∧ (Instr.fcvt ⟨3, 4, 1, 2, 5, false⟩).wellFormed = true ∧ (Instr.fcvt ⟨0, 3, 0, 8, 4, false⟩).wellFormed = true ∧
    (Instr.fcvt ⟨0, 2, 0, 2, 2, false⟩).wellFormed = true ∧ (Instr.fcvti ⟨3, 0, 1, 2, 5, false⟩).wellFormed = true ∧ (Instr.fcvti ⟨0, 0, 0, 8, 2, false⟩).wellFormed = true ∧
    (Instr.fcvtf ⟨3, 4, 1, 2, 2, false⟩).wellFormed = true ∧ (Instr.fcvtf ⟨0, 2, 0, 8, 5, false⟩).wellFormed = true ∧ overruns 16 0 = false ∧ overruns 32 8 = false ∧
    overruns 8 0 = false ∧ overruns 8 2 = false ∧ overruns 2 0 = false ∧ overruns 8 8 = false ∧ overruns 64 8 = false := by decide +kernel

/-- FloatSignRules: +0 is no NaN, and 0x7F80_0001 of FP32 is one. RoundingModes: taking 5 × 2^0 to a multiple of 2^1. -/
theorem witness_float_rules : fp32 ∈ [fp64, fp32, fp16, bf16, e5m2, e4m3] ∧ (0 : Nat) < 2 ^ fp32.w ∧ (fp32.raw 0).isNan = false ∧ 0x7F800001 < 2 ^ fp32.w ∧
    (fp32.raw 0x7F800001).isNan = true ∧ (0 : Int) < 1 ∧ (roundAt 0 false 5 0 false 1).2 = true := by decide +kernel

/-- ReductionResult and FloatCrossResult: with VL 2 and VL 0, and FSCAN with its operands apart. -/
theorem witness_reduction : (∃ v, reduceRow (.rsum ⟨5, 1, 48, 3, false, false⟩) = some (⟨5, 1, 48, 3, false, false⟩, v) ∧ (Instr.rsum ⟨5, 1, 48, 3, false, false⟩).wellFormed = true ∧
      Ready st = true ∧ Ready (stH { hart0 with vl := 0 }) = true ∧ overruns 64 48 = false ∧ st.hart.len ≠ 0 ∧ (stH { hart0 with vl := 0 }).hart.len = 0) ∧
    (Instr.frsum ⟨4, 1, 8, 3, false, false⟩).wellFormed = true ∧ overruns 32 8 = false ∧ (Instr.fscan ⟨4, 16, 8, 3, false, false⟩).wellFormed = true ∧ apart 32 8 32 16 = true :=
  ⟨⟨_, rfl, by decide +kernel⟩, by decide +kernel⟩

/-- CrossElementResult: every row's operands can lie in the file and apart. -/
theorem witness_cross : (∀ i ∈ [Instr.scan ⟨3, 0, 4, 3, false, false⟩, .compress ⟨3, 0, 60, false⟩, .expand ⟨3, 0, 4, false⟩, .nzscan ⟨2, 0, 4, 3, false⟩, .iota ⟨1, 5, 48, 3, false⟩,
      .slideup ⟨2, 3, 0, 4, 31, false, false⟩, .slidedn ⟨1, 3, 0, 4, 3, false, false⟩, .perm ⟨3, 0, 4, 8, false, false⟩],
      i.wellFormed = true ∧ (crossRow i).map (·.fits) = some true) ∧ Ready st = true ∧ st.hart.len ≠ 0 ∧ (stH { hart0 with vl := 0 }).hart.len = 0 := by decide +kernel

/-- OperandTraps: a zero divisor with IDZE set at trap level 1; an overrun, and a shared slice. -/
theorem witness_operand_traps : (∃ r, intRow (.rem ⟨3, 1, 1, 2, 0, false, false⟩) = some r ∧ r.divides = true ∧ (Instr.rem ⟨3, 1, 1, 2, 0, false, false⟩).wellFormed = true ∧ r.x.f = 3 ∧
      Ready (stH { hart0 with fctl := 0x20, tlvl := 1 }) = true ∧ (stH { hart0 with fctl := 0x20, tlvl := 1 }).hart.fctl.getLsbD 5 = true ∧
      secondScalar (stH { hart0 with fctl := 0x20, tlvl := 1 }) r.x.w false (scalarWidth r.x.w) r.x.b = 0 ∧ (stH { hart0 with fctl := 0x20, tlvl := 1 }).hart.tlvl.toNat < 2) ∧
    (isWidth 3 = true ∧ st.hart.tlvl.toNat < 2 ∧ overruns 16 61 = true ∧ (slicesOf 16 3 &&& slicesOf 16 0) ≠ 0) :=
  ⟨⟨_, rfl, by decide +kernel⟩, by decide +kernel⟩

/-! ## Witnesses: control (R144–R162) -/

/-- BranchResult: BR and BRM are never unsettled; BRS of STRMF outside deterministic mode is settled. -/
theorem witness_branch : (∃ o t, branchRow (.br ⟨5, 3, 4, 0x200⟩) = some (o, t) ∧ (Instr.br ⟨5, 3, 4, 0x200⟩).wellFormed = true ∧ Ready st = true) ∧
    (∃ o t, branchRow (.brs ⟨1, 1, 15, 0x1FF⟩) = some (o, t) ∧ (Instr.brs ⟨1, 1, 15, 0x1FF⟩).wellFormed = true ∧ Ready st = true ∧ brsUnsettled 1 15 st = false) :=
  ⟨⟨_, _, rfl, by decide +kernel⟩, ⟨_, _, rfl, by decide +kernel⟩⟩

/-- JumpAndImmediateResult: JALR to s5 = 0x104, and to 64 + 5 = 69, which is no multiple of 4. -/
theorem witness_jump : Ready st = true ∧ (Instr.jalr ⟨true, 63, 5, 0, false, false⟩).wellFormed = true ∧ (st.hart.rs 5 + (0 : BitVec 6).signExtend 64 * 4).toNat % 4 = 0 ∧
    (Instr.jalr ⟨false, 1, 2, 3, false, false⟩).wellFormed = true ∧ (st.hart.rs 2 + st.hart.rs 3).toNat % 4 ≠ 0 ∧ st.hart.tlvl.toNat < 2 := by decide +kernel

/-- Context 0 in deterministic mode. -/
def stDet : State := { st with ctxs := [(0, { ctx0 with detm := true })] }

/-- ControlRegisterRead: VL in any mode, HARTID in deterministic mode. ControlRegisterWrite: TSAVE. -/
theorem witness_control : Ready st = true ∧ (∃ f, ((0 : BitVec 12).toNat, f) ∈ controlReads) ∧ Ready stDet = true ∧ stDet.myCtx.detm = true ∧
    ∃ f, ((0x030 : BitVec 12).toNat, f) ∈ controlWrites :=
  ⟨by decide +kernel, ⟨_, List.mem_cons_self⟩, by decide +kernel, by decide +kernel,
    ⟨_, by simp only [controlWrites, List.mem_cons, Prod.mk.injEq]; exact .inr (.inr (.inr (.inr (.inr (.inr (.inr (.inr (.inr (.inr (.inr (.inr (.inr (.inr (.inl ⟨rfl, rfl⟩))))))))))))))⟩⟩

/-- PrivilegedRegisters: DETM without SYS, bank 1 from level 0, bank 2 from level 1; DETM, SLICE and PTBASE with SYS. -/
theorem witness_privileged : [0x102, 0x103, 0x104, 0x022, 0x026, 0x027, 0x02B].all (fun c => (Instr.mtcr ⟨3, c, false⟩).wellFormed) = true ∧
    (let s : State := { st with ctxs := [(0, { ctx0 with sys := false })] }; Ready s = true ∧ s.myCtx.sys = false ∧ s.hart.tlvl.toNat < 1) ∧
    (let s := stH { hart0 with tlvl := 1 }; Ready s = true ∧ s.hart.tlvl.toNat = 1) ∧ st.myCtx.sys = true := by decide +kernel

/-- PartitionWrite: LPART 1 and MAXVL 512 change the partition, LPART 0 does not. -/
theorem witness_partition : [(0x100 : BitVec 12), 0x101].all (fun c => (Instr.mtcr ⟨3, c, false⟩).wellFormed) = true ∧ Ready st = true ∧ st.myCtx.sys = true ∧
    lpartWrite st.myTile 0 = (st.myTile.split, st.myTile.lim) ∧ (∃ v, lpartWrite st.myTile v ≠ (st.myTile.split, st.myTile.lim)) ∧
    (∃ v, maxvlWrite st.myTile v ≠ (st.myTile.split, st.myTile.lim)) ∧ tileDrained 0 st = true ∧ (st.slot st.cur).state = .running :=
  ⟨by decide +kernel, by decide +kernel, by decide +kernel, by decide +kernel, ⟨1, by decide +kernel⟩, ⟨1, by decide +kernel⟩, by decide +kernel, by decide +kernel⟩

/-- SetvlResult: HWSRC names no task; and it names task 9, whose mark is final at 6. -/
theorem witness_setvl : (Ready st = true ∧ (st.slot st.cur).state = .running ∧ st.hart.hwsrc.truncate 32 = (0xFFFFFFFF : BitVec 32)) ∧
    (let s : State := { stH { hart0 with hwsrc := 0x0000000400000009 } with marks := [⟨0, 9, 0, 6, true, 1⟩] }
     Ready s = true ∧ (s.slot s.cur).state = .running ∧ s.hart.hwsrc.truncate 32 ≠ (0xFFFFFFFF : BitVec 32) ∧ min (s.hart.rs 3).toNat s.myTile.vlmax ≠ 0 ∧
     s.markOf s.ctxid (s.hart.hwsrc.truncate 32) = some ⟨0, 9, 0, 6, true, 1⟩) := by decide +kernel

/-- WaitAndYield: every kind of WAITF. -/
theorem witness_waits : (∀ x ∈ [(⟨63, 0⟩ : ArgsW), ⟨63, 1⟩, ⟨7, 2⟩, ⟨0, 3⟩], (Instr.waitf x).wellFormed = true) ∧ Ready st = true := by decide +kernel

/-! ## Witnesses: memory (R189–R208, R313–R335) -/

/-- LoadResult and StoreResult: scalar at cistern byte 64; two elements of w32, strided. -/
theorem witness_load_store : Quiet st = true ∧ (Instr.ld ⟨2, 5, 1, 2, 0, false, false⟩).wellFormed = true ∧ (Instr.st ⟨2, 5, 1, 2, 0, false, false⟩).wellFormed = true ∧
    (Instr.ld ⟨0, 4, 56, 2, 0, false, false⟩).wellFormed = true ∧ (Instr.st ⟨1, 4, 56, 2, 8, false, false⟩).wellFormed = true ∧ overruns 32 56 = false ∧ overruns 32 8 = false ∧
    Passes st (fun j => j == 0) .read 8 false (accessAddr st ⟨2, 5, 1, 2, 0, false, false⟩) (fun _ => .cis 64) (fun _ => false) ∧
    Passes st (fun j => j == 0) .write 8 false (accessAddr st ⟨2, 5, 1, 2, 0, false, false⟩) (fun _ => .cis 64) (fun _ => false) ∧
    Passes st (performed st.hart) .read 4 false (accessAddr st ⟨0, 4, 56, 2, 0, false, false⟩) (fun j => .cis (64 + 4 * j)) (fun _ => false) ∧
    Passes st (performed st.hart) .write 4 false (accessAddr st ⟨1, 4, 56, 2, 8, false, false⟩) (fun _ => .cis 64) (fun _ => false) :=
  ⟨by decide +kernel, by decide, by decide, by decide, by decide, by decide, by decide, of_zero (by decide +kernel), of_zero (by decide +kernel),
    of_performed (by decide +kernel), of_performed (by decide +kernel)⟩

/-- AccessTrap: a misaligned address, an address past the cisterns, and a page that is absent. -/
theorem witness_access_trap : Quiet st = true ∧ st.hart.tlvl.toNat < 2 ∧ (Instr.ld ⟨2, 5, 1, 3, 0, false, false⟩).wellFormed = true ∧
    st.checkSpace st.cur st.hart.mspace (accessAddr st ⟨2, 5, 1, 3, 0, false, false⟩ 0).toNat .read 8 8 false = .bad 5 0 ∧
    (let s := stH { hart0 with s := [(3, 0x18000000)] }
     Quiet s = true ∧ s.checkSpace s.cur s.hart.mspace (accessAddr s ⟨2, 5, 1, 3, 0, false, false⟩ 0).toNat .write 8 8 false = .bad 6 0) ∧
    (let s := stH { hart0 with mspace := 0, s := [(3, 0x8000000000)] }
     Quiet s = true ∧ s.checkSpace s.cur s.hart.mspace (accessAddr s ⟨2, 5, 1, 3, 0, false, false⟩ 0).toNat .read 8 8 false = .bad 6 0) := by decide +kernel

/-- LaneTableResult: the highest offset of a w8 element, and a valid table of the context. -/
theorem witness_lane_table : let s : State := { stH { hart0 with s := [(2, 0x3FFF)] } with tiles := [(0, { tvalid := true })] }
    Quiet s = true ∧ (Instr.tld ⟨2, 1, 2, 16, false, false⟩).wellFormed = true ∧ overruns 8 1 = false ∧ overruns 32 16 = false ∧ s.myTile.tvalid = true ∧
    s.myTile.owner = s.ctxid ∧ s.myTile.tbusy = false ∧
    ∀ j, s.hart.active j = true → 0 ≤ tableOffset s 2 16 j ∧ tableOffset s 2 16 j + (8 / 8 : Nat) ≤ 4096 ∧ tableOffset s 2 16 j % (8 / 8 : Nat) = 0 :=
  ⟨by decide +kernel, by decide, by decide, by decide, by decide +kernel, by decide +kernel, by decide +kernel, of_active (by decide +kernel)⟩

/-- ViewResult: VIEWLD V3 and VIEWST at cistern byte 64, with a trap level free for their failures and those of illegal words, and both at an address that is no multiple of 64. -/
theorem witness_view : Quiet st = true ∧ st.hart.tlvl.toNat < 2 ∧ (let s := stH { hart0 with s := [(2, 65)] }
      Quiet s = true ∧ s.hart.tlvl.toNat < 2 ∧ s.checkSpace s.cur s.hart.mspace (s.hart.rs 2).toNat .read 64 64 false = .bad 0x05 0 ∧
      s.checkSpace s.cur s.hart.mspace (s.hart.rs 2).toNat .write 64 64 false = .bad 0x05 0) ∧
    Passes st (fun j => j == 0) .read 64 false (fun _ => st.hart.rs 2) (fun _ => .cis 64) (fun _ => false) ∧
    Passes st (fun j => j == 0) .write 64 false (fun _ => st.hart.rs 2) (fun _ => .cis 64) (fun _ => false) :=
  ⟨by decide +kernel, by decide, by decide +kernel, of_zero (by decide +kernel), of_zero (by decide +kernel)⟩

/-- A hart with VL 120 and a view of ROWLEN 120 over block base 0. -/
def hartQ : Hart := { hart0 with vl := 120, v := [(0, BitVec.ofNat 512 (120 * 2 ^ 96))], s := [(2, 0)] }

/-- One block of format 0x41 with the tag of coordinate (0, 0). -/
def stQ : State := { stH hartQ with cis := [(0, 0x41)] ++ (putBytes [] 2 2 (tagAt hartQ.activeView 0).toNat) }

/-- Below VL 120 only the block at element 0 can be active. -/
theorem one_block {h : Hart} (hl : h.len = 120) (i : Nat) (hb : blockActive h i = true) : i = 0 := by
  simp only [blockActive, Bool.and_eq_true, beq_iff_eq, hl] at hb
  by_contra hne
  have hi : 120 - i = 0 := by omega
  rw [hi] at hb
  exact absurd hb.2 (by simp [anyIn])

/-- NarrowLoadResult: LDQ of that block, and FCVT of a narrow source. -/
theorem witness_narrow_load : Quiet stQ = true ∧ overruns 4 63 = false ∧ vRowlen stQ.hart.activeView % 120 = 0 ∧
    Passes stQ (fun i => decide (0 ≤ i) && blockActive stQ.hart i) .read 64 true (blockAddr stQ.hart 2) (fun _ => .cis 0) (fun _ => false) ∧
    (∀ i, (decide (0 ≤ i) && blockActive stQ.hart i) = true → (BitVec.ofNat 512 (stQ.homeRead (.cis 0) 64)).extractLsb' 0 8 = 0x41 ∧
      blockTag (BitVec.ofNat 512 (stQ.homeRead (.cis 0) 64)) = tagAt stQ.hart.activeView i) ∧
    (Instr.fcvt ⟨0, 4, 56, 63, 6, false⟩).wellFormed = true ∧ overruns 32 56 = false := by
  refine ⟨by decide +kernel, by decide, by decide +kernel, ?_, ?_, by decide, by decide⟩
  · intro i hi
    obtain rfl := one_block (by decide +kernel) i (Bool.and_eq_true _ _ ▸ hi).2
    decide +kernel
  · intro i hi
    obtain rfl := one_block (by decide +kernel) i (Bool.and_eq_true _ _ ▸ hi).2
    decide +kernel

/-- NarrowStoreResult: STQ of w16 elements to the same place. -/
theorem witness_narrow_store : (Instr.stq ⟨3, 0, 2, false, false⟩).wellFormed = true ∧ Quiet stQ = true ∧ overruns 16 0 = false ∧ stQ.hart.len % 120 = 0 ∧
    vRowlen stQ.hart.activeView % 120 = 0 ∧ (qc0 stQ.hart.activeView).toNat % 120 = 0 ∧
    Passes stQ (fun i => decide (0 ≤ i) && blockActive stQ.hart i) .write 64 true (blockAddr stQ.hart 2) (fun _ => .cis 0) (fun _ => false) := by
  refine ⟨by decide, by decide +kernel, by decide, by decide +kernel, by decide +kernel, by decide +kernel, ?_⟩
  intro i hi
  obtain rfl := one_block (by decide +kernel) i (Bool.and_eq_true _ _ ▸ hi).2
  decide +kernel

/-! ## Witnesses: the machine as a whole -/

/-- RoundTrip: both directions of one word. -/
theorem witness_round_trip : (Instr.fence 2).wellFormed = true ∧ encode (.fence 2) = some 0xDD900008 ∧ decode 0xDD900008 = .ok (.fence 2) := by decide +kernel

/-- Word w at the PC of slot 0 of `st`. -/
def stFetch (w : Nat) : State := { st with hbm := putBytes [] 0x1000 4 w }

/-- StepRunsDecoded: OR s4, s5, #16 at the PC; a word that is no row's; a PC whose page is absent. -/
theorem witness_step : (instructionTurn (stFetch 0x3D910540) = true ∧
      (stFetch 0x3D910540).checkVirtual 0 (stFetch 0x3D910540).ctxid (stFetch 0x3D910540).hart.pc.toNat .fetch 4 4 true = .go (.hbm 0x1000) false ∧ isLocal (.hbm 0x1000) = true ∧
      decode (BitVec.ofNat 32 ((stFetch 0x3D910540).fetchLoc 0 (.hbm 0x1000) 4)) = .ok (.or ⟨3, 1, 4, 5, 16, false, false⟩) ∧
      (stFetch 0x3D910540).copies.all (fun c => c.holder != .fetch 0) = true ∧
      ((stFetch 0x3D910540).slot 0).step = false ∧ (stFetch 0x3D910540).tracing = false) ∧
    ((decode (BitVec.ofNat 32 ((stFetch 0xFFFFFFFF).fetchLoc 0 (.hbm 0x1000) 4))).toOption = none) ∧
    (let s := stH { hart0 with pc := 0x8000000000 }
     instructionTurn s = true ∧ s.checkVirtual 0 s.ctxid s.hart.pc.toNat .fetch 4 4 true = .bad 6 0 ∧ s.tracing = false ∧ (s.slot s.cur).step = false) := by decide +kernel

/-- That step writes s4 = s5 | 16 (R108) and goes to the next word. -/
theorem test_step_or : yields (step (stFetch 0x3D910540)) (fun t => t.hart.rs 4 == 0x114 && t.hart.pc == 0x1004) = true := by decide +kernel

/-- R17: a fetch that holds a copy of the line runs the old word, OR s4, s5, #16, though an undefined word has been stored there. -/
theorem test_step_old_word : yields (step { stFetch 0xFFFFFFFF with copies := [⟨.fetch 0, .hbm 0x1000, 0x3D910540⟩] })
    (fun t => t.hart.rs 4 == 0x114 && t.hart.pc == 0x1004) = true := by decide +kernel

/-- StepRunsAgenda: an event row, a slot, a store of the host, and a copy that may be held and one that may not. -/
theorem witness_agenda : encode (.htail 1) = none ∧ yields (exec (.htail 1) { st with agenda := [] }) (fun t => !t.tracing) = true ∧
    (7 : Nat) < Config.slots ∧ ({ st with agenda := [.hostStore 64 [1, 2]] } : State).agenda = .hostStore 64 [1, 2] :: [] ∧
    ({ st with agenda := [.copy (.tile 0) (.hbm 70)] } : State).agenda = .copy (.tile 0) (.hbm 70) :: [] ∧ mayHold st (.tile 0) (.hbm 70) = true ∧ mayHold st (.hart 0) (.cis 64) = false := by decide +kernel

/-- EveryStepGoesOn, MemoryStaysCanonical, PcStaysAligned: the reset state has both invariants, and a step of it goes on. -/
theorem witness_invariants : Memory.wf State.reset = true ∧ PcAligned State.reset ∧ yields (step State.reset) (fun _ => true) = true :=
  ⟨by decide +kernel, ⟨fun _ => ⟨rfl, rfl, rfl⟩, fun _ h => absurd h List.not_mem_nil⟩, by decide +kernel⟩

/-- The word placed at the fetch address of the reset state runs as its first instruction. -/
theorem test_first_instruction : yields (step (State.reset.withFetchWord 32 0xF0200004)) (fun t => t.hart.rs 4 == 4) = true := by decide +kernel

/-! ## Witnesses: atomics, fences, sync objects (R313–R335) -/

/-- AtomicResult: ACAS of s1 with s2 at cistern byte 64, and AFADD of two elements at one location. -/
theorem witness_atomic : (∃ r, atomicRow (.acas ⟨2, true, 1, 2, 0, false, false⟩) = some r ∧ (Instr.acas ⟨2, true, 1, 2, 0, false, false⟩).wellFormed = true ∧ Quiet st = true ∧
      r.x.m = 2 ∧ r.float = false ∧ AtomicPasses st r.x (fun j => j == 0) (fun _ => .cis 64) (fun _ => false)) ∧
    (∃ r, atomicRow (.afadd ⟨1, false, 8, 2, 16, false, false⟩) = some r ∧ (Instr.afadd ⟨1, false, 8, 2, 16, false, false⟩).wellFormed = true ∧ st.myCtx.detm = false ∧
      r.x.m = 1 ∧ overruns 32 r.x.b.toNat = false ∧ overruns 32 r.x.d.toNat = false ∧ AtomicPasses st r.x st.hart.active (fun _ => .cis 64) (fun _ => false)) :=
  ⟨⟨_, rfl, by decide, by decide +kernel, rfl, rfl, of_zero (by decide +kernel)⟩, ⟨_, rfl, by decide, by decide +kernel, rfl, by decide, by decide, of_active (by decide +kernel)⟩⟩

/-- Task 7 of context 0, in group g for its atomics and joined to group 1. -/
def rc7 (g : BitVec 8) : TaskRec := ⟨0x1000, 0, 0, (0xFFFFFF : BitVec 24) ++ g, 0, false, 0, 0xFFFF, 7, 0xFFFFFFFF, 0xFFFFFFFF, 0xFFFFFFFF, 0⟩

/-- `st` with its running task on the list, and group 1 of two members. -/
def stRun : State := { st with running := [⟨0, 0, rc7 1, none, 0, 0, .running, [], 0⟩], groups := [(1, { members := [7, 8], arrived := 0, ended := 0, phase := 0 })] }

/-- HeldAddResult: an AFADD in deterministic mode whose task is in group 1, and one whose byte 20 names no group. -/
theorem witness_held_add : let s : State := { stRun with ctxs := stDet.ctxs }
    let none_ : State := { s with running := [⟨0, 0, rc7 0xFF, none, 0, 0, .running, [], 0⟩] }
    Quiet s = true ∧ s.myCtx.detm = true ∧ s.runOf s.cur = some ⟨0, 0, rc7 1, none, 0, 0, .running, [], 0⟩ ∧ (rc7 1).gid 0 ≠ 0xFF ∧ s.hart.len ≠ 0 ∧
    overruns 32 16 = false ∧ overruns 32 8 = false ∧
    AtomicPasses s ⟨1, false, 8, 2, 16, false, false⟩ (fun j => ((activeBelow s).filter (s.hart.eidx.toNat ≤ ·)).contains j) (fun _ => .cis 64) (fun _ => false) ∧
    ((((activeBelow s).filter (s.hart.eidx.toNat ≤ ·)).foldl (fun (o : Option State) j => o.bind (holdUpdate s.ctxid 1 0 (.cis 64) 4 ⟨7, 0, j, 0⟩)) (some s)).isSome = true) ∧
    Quiet none_ = true ∧ (rc7 0xFF).gid 0 = 0xFF ∧ none_.hart.tlvl.toNat < 2 := by
  refine ⟨by decide +kernel, by decide +kernel, by decide +kernel, by decide, by decide +kernel, by decide, by decide, ?_, by decide +kernel, by decide +kernel, by decide, by decide +kernel⟩
  intro j hj
  have hl : ((activeBelow { stRun with ctxs := stDet.ctxs }).filter (({ stRun with ctxs := stDet.ctxs } : State).hart.eidx.toNat ≤ ·)) = [0, 1] := by decide +kernel
  simp only [hl, List.contains_iff_mem, List.mem_cons, List.not_mem_nil, or_false] at hj
  rcases hj with rfl | rfl <;> decide +kernel

/-- Two buffered writes of slot 0, the second apart from the first. -/
def stBuf : State := { st with wbuf := [⟨0, .cis 64, 8, 1, false, 0⟩, ⟨0, .cis 72, 8, 2, false, 0⟩] }

/-- The same with a copy of the line at 0 of HBM in tile 0's read cache, one of the line at 2^21 in the buffer of slot 0, and one in its fetch. -/
def stCopy : State :=
  { stBuf with hbm := [(0, 7)], copies := [⟨.tile 0, .hbm 0, 5⟩, ⟨.hart 0, .cis 0x200000, 6⟩, ⟨.fetch 0, .hbm 64, 9⟩] }

/-- FenceResult: scopes 0, 1 and 3, with copies of each kind; the second write of slot 0, and a first write that overlaps a second. -/
theorem witness_fence : ([0, 1, 3].all fun (scope : BitVec 6) => decide (scope.toNat ≤ 3)) = true ∧ stCopy.hart.inflight = [] ∧ stBuf.wbuf.all (fun b => b.slot == 0 || !b.seen) = true ∧
    stBuf.wbuf = [⟨0, .cis 64, 8, 1, false, 0⟩] ++ (⟨0, .cis 72, 8, 2, false, 0⟩ : BufWrite) :: [] ∧ (([⟨0, .cis 64, 8, 1, false, 0⟩] : List BufWrite).filter (fun w => w.slot == 0)).length = 1 ∧
    (⟨0, .cis 64, 8, 1, false, 0⟩ : BufWrite).overlaps (.cis 64) 4 = true ∧ (⟨0, .cis 64, 8, 1, false, 0⟩ : BufWrite).overlaps (.cis 72) 8 = false := by decide +kernel

/-- R313, R316: a copy of tile 0 serves the read of a byte, also after FENCE of scope tile; after scope device the home does. -/
theorem test_fence_refreshes : stCopy.readByte 0 (.hbm 0) = 5 ∧
    ([(1, 5), (2, 7)].all fun (e : BitVec 6 × Nat) => match exec (.fence e.1) stCopy with | .next t => t.readByte 0 (.hbm 0) == e.2 | _ => false) = true := by decide +kernel

/-- R316: after FENCE of scope tile another hart of tile 0 sees the write that slot 0 still has buffered, and a hart of tile 1 does not. -/
theorem test_fence_tile : stCopy.readByte 1 (.cis 64) = 0 ∧
    (match exec (.fence 1) stCopy with | .next t => t.readByte 1 (.cis 64) == 1 && t.readByte 8 (.cis 64) == 0 && t.wbuf.length == 2 | _ => false) = true := by decide +kernel

/-- SyncObjectResult: BIND of K = 6 with entry 0 taken and of K = 5; ACQ reached and not reached; REL; QFENCE of two words of type 0, and of a bad reference. -/
theorem witness_sync : (let s : State := { stH { hart0 with s := [(2, 64), (3, 0x1800000000000040)] } with bindings := [(0, ⟨64, 0, 6, 1, 9, true⟩)] }
      Ready s = true ∧ ((s.hart.rs 3).extractLsb' 58 6).toNat = 6 ∧ (s.hart.rs 2).toNat % 8 = 0 ∧ ((s.hart.rs 3).extractLsb' 0 58).toNat % 2 ^ 6 = 0 ∧
      s.checkSpace s.cur s.hart.mspace (s.hart.rs 2).toNat .read 8 8 false = .go (.cis 64) false ∧ SMap.find? s.bindings 1 = none ∧
      (SMap.find? s.bindings 0).isSome = true) ∧
    (let s := stH { hart0 with s := [(3, 0x1400000000000000)] }; Ready s = true ∧ ((s.hart.rs 3).extractLsb' 58 6).toNat < 6 ∧ s.hart.tlvl.toNat < 2) ∧
    (let s : State := { st with cis := [(64, 5)] }
     Quiet s = true ∧ isLocal (.cis 64) = true ∧ (Instr.acq ⟨false, 1, 2, 3, false, false⟩).wellFormed = true ∧ (Instr.acq ⟨true, 1, 2, 6, false, false⟩).wellFormed = true ∧
     s.checkSpace s.cur s.hart.mspace (s.hart.rs 2).toNat .read 8 8 false = .go (.cis 64) false ∧
     s.hart.rs 3 ≤ BitVec.ofNat 64 (s.homeRead (.cis 64) 8) ∧ BitVec.ofNat 64 (s.homeRead (.cis 64) 8) < (6 : BitVec 6).zeroExtend 64) ∧
    ((Instr.rel ⟨true, 2, 1, false, false⟩).wellFormed = true ∧ stBuf.hart.allFull = true ∧ stBuf.hart.inflight = [] ∧ st.wbuf = [] ∧
     stBuf.checkSpace stBuf.cur stBuf.hart.mspace (stBuf.hart.rs 2).toNat .atomic 8 8 false = .go (.cis 64) false) ∧
    (st.hart.qtail = none ∧ queueDone st (st.hart.rs 0) = true ∧ queueDone st (st.hart.rs 3) = true) ∧
    (let s := stH { hart0 with s := [(3, 0x8000000000000003)] }
     Ready s = true ∧ s.hart.qtail = none ∧ ((s.hart.rs 3).extractLsb' 62 2).toNat = 2 ∧ resolveRef s ((s.hart.rs 3).toNat % 65536) = none ∧ s.hart.tlvl.toNat < 2) := by decide +kernel

/-! ## Witnesses: macros (R242–R262) -/

/-- A hart that holds macro 0 and row 0. -/
def hartM : Hart := { hart0 with macfg := { mcl := 1, acl := 1 } }

/-- MacroClaims: MCLAIM needs only Ready; MCLR of row 0, held, and of rows that are not held. -/
theorem witness_claims : Ready st = true ∧ (let s := stH { hartM with s := [(2, 0x10000), (3, 0x30000)] }
    Ready s = true ∧ s.hart.len ≠ 0 ∧ holdsUnits s.hart 0 ((s.hart.rs 2).extractLsb' 16 16) = true ∧ s.hart.replaying = 0 ∧ s.hart.macroFault = [] ∧
    (s.hart.rs 3).extractLsb' 16 16 &&& ~~~ s.hart.macfg.acl ≠ 0 ∧ s.hart.tlvl.toNat < 2) := by decide +kernel

/-- A load of one INT8 column from cistern byte 64. -/
def load1 : MacroLoad := { base := 64, stride := 128, space := 1, nc := 1, int8 := true, cca := false, view := 0 }

/-- MacroLoadResult: one INT8 column of 128 bytes at cistern byte 64; device-virtual space; a replay of one column. -/
theorem witness_macro_load : (let s := stH { hartM with s := [(2, 64), (3, 1)] }
      Quiet s = true ∧ s.hart.len ≠ 0 ∧ holdsUnits s.hart (BitVec.twoPow 4 0) 0 = true ∧ s.hart.mspace ≠ 0 ∧ (s.hart.rs 3).toNat ≤ 128 * s.myTile.lanes ∧
      ColumnsPass s s.cur load1 0 (fun _ => .cis 64) (fun _ => .cis 128)) ∧
    (let s := stH { hartM with mspace := 0 }; Quiet s = true ∧ holdsUnits s.hart (BitVec.twoPow 4 0) 0 = true ∧ s.hart.mspace = 0 ∧ s.hart.tlvl.toNat < 2) ∧
    (let r := load1.record
     let s := stH { hartM with replaying := 1, replay := [(0, r)] }
     s.wbuf = [] ∧ (s.slot 0).hart.replaying.getLsbD 0 = true ∧ SMap.find? (s.slot 0).hart.replay 0 = some r ∧ (replayOf r).nc ≤ 4096 ∧
     ColumnsPass s 0 (replayOf r) 0 (fun _ => .cis 64) (fun _ => .cis 128)) := by
  refine ⟨⟨by decide +kernel, by decide +kernel, by decide +kernel, by decide +kernel, by decide +kernel, ?_⟩, by decide +kernel,
    by decide +kernel, by decide +kernel, by decide +kernel, by decide +kernel, ?_⟩
  · intro n _ hn
    obtain rfl : n = 0 := by have : n < 1 := hn; omega
    exact ⟨⟨false, by decide +kernel⟩, rfl, fun _ => ⟨⟨false, by decide +kernel⟩, rfl⟩, fun h => absurd h (by decide)⟩
  · have h1 : (replayOf load1.record).nc = 1 := by decide +kernel
    have h2 : (replayOf load1.record).int8 = true := by decide +kernel
    intro n _ hn
    rw [h1] at hn
    obtain rfl : n = 0 := by omega
    exact ⟨⟨false, by decide +kernel⟩, rfl, fun _ => ⟨⟨false, by decide +kernel⟩, rfl⟩, fun h => by rw [h2] at h; exact absurd h (by decide)⟩

/-- MultiplyResult: MMO into row 0 with macro 0, MMI with an INT8 macro, and MMF naming a macro that is not held. -/
theorem witness_multiply : (Instr.mmo ⟨0, 63, 1, false⟩).wellFormed = true ∧ (Instr.mmi ⟨0, 60, 1, false⟩).wellFormed = true ∧ (Instr.mmf ⟨15, 63, 2, false⟩).wellFormed = true ∧
    overruns 4 63 = false ∧ overruns 8 60 = false ∧ Ready (stH hartM) = true ∧ (stH hartM).hart.len ≠ 0 ∧ holdsUnits hartM 1 (BitVec.twoPow 16 0) = true ∧
    (∀ M, M < 4 → (1 : BitVec 4).getLsbD M = true → (stH hartM).isInt8 0 M = false) ∧
    (∀ M, M < 4 → (1 : BitVec 4).getLsbD M = true → ({ stH hartM with int8 := [(0, true)] } : State).isInt8 0 M = true) ∧ (2 + 119) / 120 ≤ ones (1 : BitVec 4) ∧
    hartM.replaying = 0 ∧ hartM.macroFault = [] ∧ (2 : BitVec 4) &&& ~~~ hartM.macfg.mcl ≠ 0 ∧ hartM.tlvl.toNat < 2 := by decide +kernel

/-- AccumulatorRead: MRD of the last two columns of a row; a broadcast of slot 0 ready. -/
theorem witness_accumulator : (let s := stH { hartM with s := [(2, 4094)] }
      Ready s = true ∧ s.hart.len ≠ 0 ∧ overruns 16 60 = false ∧ holdsUnits s.hart 0 (BitVec.twoPow 16 0) = true ∧ (s.hart.rs 2).toNat + s.hart.len ≤ 128 * s.myTile.lanes) ∧
    (let f : Inflight := ⟨0, 0, 120, 120, true, {}⟩
     let s := stH { hartM with inflight := [f] }
     f.broadcast = true ∧ (s.domainSlots 0).contains 0 = true ∧ (s.slot 0).hart.inflight.any Inflight.broadcast = true ∧ SMap.get 0 s.bcast 0 = 0) := by decide +kernel

/-! ## Witnesses: tasks (R53–R71) -/

/-- A task record of id 9 without groups, a target or a completion word. -/
def record9 : Nat := 0xFFFFFFFF * 2 ^ 160 + 0xFFFF * 2 ^ 208 + 9 * 2 ^ 224 + (2 ^ 96 - 1) * 2 ^ 256

/-- TaskSubmission: TASKQ of a record that is accepted and of one that is not; GBAR short of its group, the last to arrive, waiting, past its phase, and of no group. -/
theorem witness_submission : (let s : State := { st with hbm := putBytes [] 64 64 record9 }
      Quiet s = true ∧ isLocal (.hbm 64) = true ∧ (s.hart.rs 2).toNat % 64 = 0 ∧ s.checkSpace s.cur 0 (s.hart.rs 2).toNat .read 64 64 true = .go (.hbm 64) false ∧
      submitStatus s (s.homeRead (.hbm 64) 64) = 0 ∧ st.checkSpace st.cur 0 (st.hart.rs 2).toNat .read 64 64 true = .go (.hbm 64) false ∧
      submitStatus st (st.homeRead (.hbm 64) 64) ≠ 0) ∧
    (let s := { stRun with slots := [(0, { slot0 with hart := { hart0 with s := [(2, 1), (3, 2)] } })] }
     Quiet s = true ∧ s.runOf s.cur = some ⟨0, 0, rc7 1, none, 0, 0, .running, [], 0⟩ ∧ (s.slot s.cur).state = .running ∧ (s.hart.rs 2).toNat ≤ 254 ∧
     s.group s.ctxid 1 = some { members := [7, 8], arrived := 0, ended := 0, phase := 0 } ∧ 0 + 1 + 0 ≠ [(7 : BitVec 32), 8].length ∧ s.group s.ctxid 2 = none ∧ s.hart.tlvl.toNat < 2) ∧
    (let s := { stRun with groups := [(1, { members := [7, 8], arrived := 1, ended := 0, phase := 4 })] }
     Quiet s = true ∧ s.group s.ctxid 1 = some { members := [7, 8], arrived := 1, ended := 0, phase := 4 } ∧ 1 + 1 + 0 = [(7 : BitVec 32), 8].length) ∧
    (let s := { stRun with running := [⟨0, 0, rc7 1, some (1, 0), 0, 0, .running, [], 0⟩] }
     s.runOf s.cur = some ⟨0, 0, rc7 1, some (1, 0), 0, 0, .running, [], 0⟩ ∧ (s.group s.ctxid 1).map (·.phase) = some 0 ∧
     ({ s with groups := [] } : State).runOf s.cur = some ⟨0, 0, rc7 1, some (1, 0), 0, 0, .running, [], 0⟩ ∧ (({ s with groups := [] } : State).group s.ctxid 1).map (·.phase) ≠ some 0) := by decide +kernel

/-- TaskEndResult: no SEQ; SEQ at HBM 64; one dependent still waiting for two; trap level 1; a claim held. -/
theorem witness_taskend : (Quiet stRun = true ∧ stRun.runOf stRun.cur = some ⟨0, 0, rc7 1, none, 0, 0, .running, [], 0⟩ ∧ (stRun.slot stRun.cur).ending = false ∧ stRun.hart.tlvl = 0 ∧
      taskHolds stRun = false ∧ stRun.holds = [] ∧ (rc7 1).groupList.Nodup ∧ (rc7 1).dependents = [] ∧ (rc7 1).seq = 0) ∧
    (let r : TaskRec := { rc7 1 with seq := 64 }
     let s := { stRun with running := [⟨0, 0, r, none, 0, 0, .running, [], 0⟩] }
     s.runOf s.cur = some ⟨0, 0, r, none, 0, 0, .running, [], 0⟩ ∧ r.seq ≠ 0 ∧ isLocal (.hbm 64) = true ∧ s.checkSpace s.cur 0 r.seq.toNat .write 8 8 true = .go (.hbm 64) false) ∧
    (let r : TaskRec := { rc7 1 with dep1 := 9 }
     let e : Held := ⟨0, 0, 2, false, { rc7 0xFF with id := 9 }⟩
     let s := { stRun with running := [⟨0, 0, r, none, 0, 0, .running, [], 0⟩], held := [e] }
     Quiet s = true ∧ s.runOf s.cur = some ⟨0, 0, r, none, 0, 0, .running, [], 0⟩ ∧ r.dependents = [9] ∧ s.held.find? (fun y => y.ctx == s.ctxid && y.rc.id == 9) = some e ∧ 2 ≤ e.count) ∧
    (let s := { stRun with slots := [(0, { slot0 with hart := hartM })] }
     Quiet s = true ∧ s.runOf s.cur = some ⟨0, 0, rc7 1, none, 0, 0, .running, [], 0⟩ ∧ s.hart.tlvl = 0 ∧ taskHolds s = true) ∧
    (let s := { stRun with slots := [(0, { slot0 with hart := { hart0 with tlvl := 1 } })] }
     Quiet s = true ∧ s.runOf s.cur = some ⟨0, 0, rc7 1, none, 0, 0, .running, [], 0⟩ ∧ s.hart.tlvl = 1) := by decide +kernel

/-- SlotTableResult: an ARMED slot 1535 of die 3 with a ready task of priority 0; a slot that selects nothing; no task of the context ending, no round of it. -/
theorem witness_slots : (let e : Held := ⟨0, 3, 0, true, rc7 0xFF⟩
      let s : State := { st with slots := [(1535, { mode := 1, die := 3, state := .armed })], held := [e] }
      selected s 1535 = some (3, 0) ∧ oldest s 1535 3 0 = some e) ∧ selected st 0 = none ∧
    st.slots.all (fun p => !(p.2.ending && p.2.taskCtx == BitVec.ofNat 6 0)) = true ∧ st.rounds.all (fun p => p.2.ctx != BitVec.ofNat 6 0) = true := by decide +kernel

/-! ## Witnesses: pump instructions (R210–R241) -/

/-- An open channel with a well of 4 KiB of w32 elements, 10 of them landed. -/
def chan0 : Channel := { openChannel 0 0 1 with lsize := 16, tail := 3, wsize := 0x1000, esz := 2, landed := 40, sent := 40, state := .running }

/-- `st` with channel 0 as x, in handle 0 of the hart. -/
def stC (x : Channel) : State := { stH { hart0 with handles := [(0, 0)] } with chans := [(0, x)] }

/-- ChannelOpen: an illegal descriptor (LSIZE 0), a legal one, and PGO of a tail of 5. -/
theorem witness_open : Quiet st = true ∧ isLocal (.hbm 64) = true ∧ (st.hart.rs 2).toNat % 64 = 0 ∧ st.checkSpace st.cur 0 (st.hart.rs 2).toNat .read 64 64 true = .go (.hbm 64) false ∧
    openStatus st (st.homeRead (.hbm 64) 64) ≠ 0 ∧ st.fnFailed (208 + bits (st.homeRead (.hbm 64) 64) 360 8) = false ∧
    (let s : State := { st with hbm := putBytes [] 64 64 (2 ^ 64) }
     Quiet s = true ∧ s.checkSpace s.cur 0 (s.hart.rs 2).toNat .read 64 64 true = .go (.hbm 64) false ∧ openStatus s (s.homeRead (.hbm 64) 64) = 0) ∧
    (Instr.pgoTail ⟨1, 0, 3, false, false⟩).wellFormed = true ∧ Quiet (stC chan0) = true ∧ resolveRef (stC chan0) ((stC chan0).hart.rs 0).toNat = some 0 ∧ (stC chan0).chan 0 = some chan0 := by decide +kernel

/-- ChannelUse: bindings allowed and refused, releases of 5 and of 64, waits for 5 and for 64, a status, a halt, a bad reference. -/
theorem witness_channel : (Instr.pbind ⟨0, 0, 7, 4, false⟩).wellFormed = true ∧ (stC chan0).hart.allFull = true ∧ overruns 32 0 = false ∧
    resolveRef (stC chan0) ((stC chan0).hart.rs 0).toNat = some 0 ∧ (stC chan0).chan 0 = some chan0 ∧ bindRefused (stC chan0) 7 32 0 0 chan0 = false ∧
    (let x := { chan0 with wsize := 0 }; resolveRef (stC x) ((stC x).hart.rs 0).toNat = some 0 ∧ bindRefused (stC x) 7 32 0 0 x = true) ∧ (stC chan0).hart.inflight = [] ∧
    chan0.rel + ((stC chan0).hart.rs 3).toNat ≤ chan0.arr ∧ isBound (stC chan0) 0 = false ∧ chan0.arr < chan0.rel + ((stC chan0).hart.rs 2).toNat ∧ (stC chan0).hart.tlvl.toNat < 2 ∧
    (stC chan0).hart.pwait = none ∧ chan0.state ≠ .faulted ∧ chan0.aovr = false ∧ ((stC chan0).hart.rs 3).toNat ≤ chan0.arr ∧
    ¬ (((stC chan0).hart.rs 2).toNat ≤ chan0.arr ∨ chan0.state = .ended ∨ chan0.state = .halted) ∧ (Instr.pstat ⟨1, 0, 6, false⟩).wellFormed = true ∧
    resolveRef (stC chan0) ((stC chan0).hart.rs 2).toNat = none := by decide +kernel

/-! ## Witnesses: exchange instructions (R264–R298) -/

/-- RID 0, GROUP 1, replicated, one device, records of 8 bytes. -/
def desc0 : BitVec 512 := BitVec.ofNat 512 (2 ^ 32 + 2 * 2 ^ 40 + 2 ^ 384)

/-- The participant that the hart of slot 0 is. -/
def part0 : Participant := { slot := 0, task := 7, tile := 0 }

/-- A JOINING round of that descriptor. -/
def round0 : Round := { ctx := 0, desc := desc0, parts := [part0] }

/-- Round slot 0 holds r; s2 is a run or well of 2 units at 64. -/
def stR (r : Round) : State := { stRun with slots := [(0, { slot0 with hart := { hart0 with s := [(2, 0x200000040), (3, 5), (7, 4096)] } })], rounds := [(0, r)] }

/-- RoundMembership: XOPEN of an illegal descriptor, of a new round and of one to join; XSEND open and closed; XCLOSE, XDONE and XRECV in each of their cases. -/
theorem witness_membership : (Quiet st = true ∧ isLocal (.hbm 64) = true ∧ (st.hart.rs 2).toNat % 64 = 0 ∧ st.fnReady 240 = true ∧
      st.checkSpace st.cur 0 (st.hart.rs 2).toNat .read 64 64 true = .go (.hbm 64) false ∧ legalRound st st.ctxid (BitVec.ofNat 512 (st.homeRead (.hbm 64) 64)) = false ∧ st.hart.tlvl.toNat < 2) ∧
    (let s : State := { stRun with hbm := putBytes [] 64 64 desc0.toNat }
     Quiet s = true ∧ s.checkSpace s.cur 0 (s.hart.rs 2).toNat .read 64 64 true = .go (.hbm 64) false ∧ BitVec.ofNat 512 (s.homeRead (.hbm 64) 64) = desc0 ∧
     legalRound s s.ctxid desc0 = true ∧ sameRid s s.ctxid desc0 = none ∧ (s.rounds.filter (fun p => p.2.ctx == s.ctxid)).length < min 16 s.myCtx.qround.toNat ∧
     SMap.find? s.rounds 0 = none ∧ s.memberOf s.ctxid s.hart.taskid 1 = true ∧ bits desc0.toNat 32 8 = 1) ∧
    (let r : Round := { round0 with parts := [{ slot := 8, task := 8, tile := 1 }] }
     let s : State := { stRun with hbm := putBytes [] 64 64 desc0.toNat, rounds := [(3, r)] }
     Quiet s = true ∧ legalRound s s.ctxid desc0 = true ∧ sameRid s s.ctxid desc0 = some (3, r) ∧ r.state = .joining ∧ r.desc = desc0 ∧
     r.parts.all (fun p => p.task != s.hart.taskid && p.tile != s.cur / 8) = true) := by decide +kernel

/-- RoundMembership, the runs, wells and closes. -/
theorem witness_round_use : (∀ p ∈ [part0, { part0 with closed := true }, { part0 with well := some (64, 128) }],
      InRound (stR { round0 with parts := [p] }) 0 { round0 with parts := [p] } p) ∧ Quiet (stR round0) = true ∧ (stR round0).hart.allFull = true ∧
    ((stR round0).hart.rs 2).toNat % 2 ^ 21 = 64 ∧ ((stR round0).hart.rs 2).toNat / 2 ^ 32 % 2 ^ 12 = 2 ∧ ((stR round0).hart.rs 0).toNat % 16 = 0 ∧ round0.RS = 8 ∧
    rangeGranted (stR round0) 0 0 64 16 .read = true ∧ rangeGranted (stR round0) 0 0 64 128 .write = true ∧ round0.state = .joining ∧ (stR round0).hart.tlvl.toNat < 2 ∧
    InRound (stR { round0 with state := .complete, parts := [{ part0 with closed := true }] }) 0 { round0 with state := .complete, parts := [{ part0 with closed := true }] } { part0 with closed := true } ∧
    SMap.find? stRun.rounds 0 = none := by unfold InRound; decide +kernel

/-- RoundData: XSORT of a run of two records; XSPLIT in an open and a joining round; each selection of XWAIT. -/
theorem witness_round_data : InRound (stR round0) 0 round0 part0 ∧ Quiet (stR round0) = true ∧ rangeGranted (stR round0) 0 0 64 16 .atomic = true ∧
    InRound (stR { round0 with state := .opened }) 0 { round0 with state := .opened } part0 ∧ (Instr.xsplit ⟨0, 8, 0, false, false⟩).wellFormed = true ∧
    overruns 16 0 = false ∧ overruns 32 8 = false ∧ (stR round0).sched.late = false ∧ round0.kw = false ∧
    InRound (stR { round0 with state := .complete }) 0 { round0 with state := .complete } part0 ∧
    [(0xC000000000000000 : Word), 0, 0x4000000000000000, 0x8000000000000000].map (fun v => (v.toNat / 2 ^ 62, v.toNat % 2 ^ 32)) = [(3, 0), (0, 0), (1, 0), (2, 0)] ∧
    [(1 : Word), 0x4000000000000001].map (fun v => (v.toNat / 2 ^ 62, v.toNat % 2 ^ 32)) = [(0, 1), (1, 1)] ∧
    part0.w + part0.u = 0 ∧ part0.read = 0 ∧ part0.final = false ∧ part0.closeRead = false := by
  unfold InRound; decide +kernel

/-- RoundData: XSAMP to HBM 4096, XRBAL of one key at HBM 64 into HBM 4096. -/
theorem witness_samples : (sampleKeys round0).length = 0 ∧ ((stR round0).hart.rs 7).toNat % 64 = 0 ∧
    (∀ j, j < 136 → (stR round0).checkSpace 0 0 (4096 + 8 * j) .write 8 8 true = .go (.hbm (4096 + 8 * j)) false) ∧
    (let s : State := { stH { hart0 with s := [(2, 64), (7, 4096)] } with hbm := [(64, 1)] }
     Quiet s = true ∧ (s.hart.rs 2).toNat = 64 ∧ (s.hart.rs 7).toNat = 4096 ∧ s.homeRead (.hbm 64) 8 % 2 ^ 32 = 1 ∧ s.checkSpace s.cur 0 64 .read 8 8 true = .go (.hbm 64) false ∧
     s.checkSpace s.cur 0 (64 + 1088) .read 8 8 true = .go (.hbm 1152) false ∧ ∀ j, j < 256 → s.checkSpace s.cur 0 (4096 + 8 * j) .write 8 8 true = .go (.hbm (4096 + 8 * j)) false) := by decide +kernel

/-! ## Witnesses: traps, contexts, management, slots (R299–R363) -/

/-- TrapEntryAndReturn: each trap level, BKPT with and without HALTBK. -/
theorem witness_traps : ([0, 1, 2].all fun l => (stH { hart0 with tlvl := l }).hart.tlvl == l && (stH { hart0 with tlvl := l }).hart.allFull && decide (l.toNat ≤ 2)) = true ∧
    (st.slot st.cur).haltbk = false ∧
    (let s : State := { st with slots := [(0, { slot0 with haltbk := true })] }; (s.slot s.cur).haltbk = true ∧ s.hart.inflight = []) := by decide +kernel

/-- TraceResult: the unit off; on for every context with two records buffered; a FLUSH of one record by unit 383. -/
theorem witness_trace : Ready st = true ∧ (st.unit 0).on st.ctxid = false ∧
    (let u : TraceUnit := { en := true, all := true, due := false, size := 256, buf := [0, 0] }
     let s : State := { st with trace := [(0, u)] }
     Ready s = true ∧ (s.unit 0).on s.ctxid = true ∧ (s.unit 0).full = false ∧ (s.unit 0).dropped = 0 ∧ (s.unit 0).due = false ∧ (s.unit 0).sinceSync < 4095 ∧ (s.unit 0).buf.length < 3) ∧
    (let s : State := { st with trace := [(383, { base := 4096, size := 256, wptr := 255, buf := [5] })] }
     (383 : Nat) < 384 ∧ (s.unit 383).buf = [5] ∧ (s.unit 383).size ≠ 0 ∧ (s.unit 383).base.toNat + 16 * ((s.unit 383).wptr.toNat % (s.unit 383).size.toNat) + 16 ≤ 576000000000) := by decide +kernel

/-- Context 5 resident as well; s3 names it. -/
def stTwo : State := { st with ctxs := [(0, ctx0), (5, { res := true })] }

/-- KillAndEndResult: CKILL of oneself, of context 5 resident and not, without SYS; KILL and the end of context 5 and of context 0. -/
theorem witness_kill : (let s := stH { hart0 with s := [(2, 0xFFFFFFFFFFFFFFFF)] }; Ready s = true ∧ s.hart.rs 2 = BitVec.allOnes 64) ∧
    (st.hart.rs 0).toNat < 64 ∧ (st.hart.rs 0).truncate 6 = st.ctxid ∧
    (Ready stTwo = true ∧ stTwo.hart.rs 3 ≠ BitVec.allOnes 64 ∧ (stTwo.hart.rs 3).toNat < 64 ∧ (stTwo.hart.rs 3).truncate 6 ≠ stTwo.ctxid ∧ stTwo.myCtx.sys = true ∧
      (stTwo.ctx 5).res = true ∧ (stTwo.ctx 5).dying = false ∧ stTwo.occupied stTwo.cur = true) ∧ (st.ctx 5).res = false ∧
    (let s : State := { st with ctxs := [(0, { ctx0 with sys := false })] }; Ready s = true ∧ s.myCtx.sys = false ∧ s.hart.tlvl.toNat < 2) ∧
    (5 : Nat) < 64 ∧ slotsFree stTwo 5 = true ∧ (st.ctx 0).res = true ∧ slotsFree st 0 = false := by decide +kernel

/-- SaveContextResult: with nothing in flight, and with a vector instruction in flight. -/
theorem witness_savectx : Ready st = true ∧
    (let s := stH { hart0 with inflight := [⟨0, 1, 128, 64, false, {}⟩] }; s.hart.sFull 2 = true ∧ s.hart.inflight ≠ []) := by decide +kernel

/-- ManagementTables: a grant and a revocation of windows, and no grant; a grant of tile 191's table. -/
theorem witness_management : (6143 : Nat) < 6144 ∧ Grants (SMap.get {} st.windows 6143) (windowWord 0x1C0 (SMap.get {} st.windows 6143)) ∧
    ¬ Grants (SMap.get {} st.windows 0) (windowWord 0x140 (SMap.get {} st.windows 0)) ∧ Revokes (SMap.get {} st.windows 0) (windowWord 0x140 (SMap.get {} st.windows 0)) ∧
    st.wbuf = [] ∧ (0x100 : BitVec 32).getLsbD 8 = true ∧ (st.tile 191).tvalid = false := by unfold Grants Revokes; decide +kernel

/-- TranslationResult: GO with and without an invalidation in progress; a walk to a leaf and one that ends absent; a PTBASE that waits, and one behind a write to a peer. -/
theorem witness_translation : (0x80 : Word).getLsbD 7 = true ∧ st.inval.going = none ∧
    ({ st with inval := { going := some (0, true, 5) } } : State).inval.going = some (0, true, 5) ∧
    (let s := State.reset.withFetchWord 32 0
     (231 : Nat) < 232 ∧ s.tlbHit 231 0 4096 = none ∧ s.walkVa 0 4096 = .leaf ⟨0x1F, 1, 4096⟩ ∧ s.tlbHit 231 0 (2 ^ 40) = none ∧ s.walkVa 0 (2 ^ 40) = .absent 1) ∧
    (let s : State := { stH { hart0 with pendCr := some (0x104, 1) } with walks := [⟨State.walkerOf 231, 0, 0, [231], true⟩] }
     (s.slot 0).hart.pendCr = some (0x104, 1) ∧ s.wbuf = [] ∧ s.unackedWrites 0 = false ∧ s.walks = [] ++ ⟨State.walkerOf 231, 0, 0, [231], true⟩ :: [] ∧
     ({ s with net := { reqs := [⟨1, 0, 0, 0, 1, 1, true, .gone 0 7, .write, 0, 8, 1, 0, false, 0, 1, false, none⟩] } } : State).unackedWrites 0 = true) := by decide +kernel

/-- RegisterWriteResult: context words with KILL, with RES for a free context, and with RES clear for a resident one. -/
theorem witness_register_write : (4 : Word).getLsbD 2 = true ∧ (stTwo.ctx 5).res = true ∧ (stTwo.ctx 5).dying = false ∧ (3 : Word).getLsbD 2 = false ∧ (3 : Word).getLsbD 0 = true ∧
    (st.ctx 5).res = false ∧ (0 : Word).getLsbD 0 = false ∧ (0x10 : Word) &&& 0x6F = 0 ∧ (0x10 : Word).getLsbD 19 = false ∧ (3 : Word).extractLsb' 0 2 = 3 := by decide +kernel

/-- Slot 0 with image 64 KiB, as v changes it. -/
def stS (v : Slot) : State := { st with slots := [(0, { v with img := 0x10000 })] }

/-- SlotRequests: each request where it is taken. -/
theorem witness_requests : ((stS slot0).slot 0).busy = false ∧ ((stS slot0).slot 0).img ≠ 0 ∧ (stS slot0).occupied 0 = true ∧ ((stS slot0).slot 0).state = .running ∧
    ((stS { slot0 with state := .halted }).slot 0).state = .halted ∧ ((stS { slot0 with state := .saved }).slot 0).state = .saved ∧ ((stS { slot0 with state := .saved }).slot 0).busy = false ∧
    ((stS { slot0 with halt := true }).slot 0).halt = true ∧ stopPoint (stS { slot0 with halt := true }) 0 = true ∧ (st.slot 0).img = 0 := by decide +kernel

/-- DebugPort: a HALTED slot at offset 8, at s63 and at the last nibbles of slice 63. -/
theorem witness_debug : ([8, 0x3F8, 0x8FF8].all fun off =>
      let s : State := { stS { slot0 with state := .halted } with debugOff := off }
      (s.slot s.debugSlot.toNat).state == .halted && (off.toNat == 8 || off.toNat == 0x200 + 8 * 63 || (decide (0x1000 ≤ off.toNat) && decide (off.toNat < 0x9000) && off.toNat % 8 == 0))) = true ∧
    (st.slot st.debugSlot.toNat).state ≠ .halted := by decide +kernel

/-- SaveResult: a slice of 100 units; a requested pre-emption at a stop point; none requested. -/
theorem witness_save : (let s : State := { st with ctxs := [(0, { ctx0 with slice := 100 })] }; (s.slot 0).state = .running ∧ (s.ctx (s.slot 0).taskCtx).slice ≠ 0) ∧
    (let s := stS { slot0 with pre := true }
     (s.slot 0).pre = true ∧ (s.slot 0).img ≠ 0 ∧ stopPoint s 0 = true ∧ (∀ i, i < 12 → s.fnReady (196 + i) = true) ∧ (s.slot 0).img.toNat + 0x6B000 ≤ 576000000000 ∧ s.wbuf = []) ∧
    (st.slot 0).pre = false := by decide +kernel

/-- RestoreResult: into a FREE slot; into a RUNNING one; while BUSY; slice 63 and mask 7 to reload. -/
theorem witness_restore : (let s := stS { slot0 with state := .free }
      (s.slot 0).busy = false ∧ (∀ i, i < 12 → s.fnReady (196 + i) = true) ∧ (s.slot 0).img ≠ 0 ∧ (s.slot 0).state = .free ∧ (s.ctx (BitVec.ofNat 6 (bytesAt s.hbm 0x10004 4))).res = true ∧
      claimsFit s 0 (imageHead s 0x10000) = true ∧ awayFromRound s 0 (BitVec.ofNat 6 (bytesAt s.hbm 0x10004 4)) (BitVec.ofNat 32 (bytesAt s.hbm 0x10018 4)) = false ∧
      s.fnReady (State.tileOf 0) = true ∧ (s.slot 0).img.toNat + 0x6B000 ≤ 576000000000) ∧
    ((stS slot0).slot 0).busy = false ∧ ((stS slot0).slot 0).state = .running ∧ ((stS { slot0 with busy := true }).slot 0).busy = true ∧
    (let r : Reload := ⟨63, 0x10000, [(63, 16)]⟩
     ((stS { slot0 with reload := some r }).slot 0).reload = some r ∧ r.next = 63 ∧ SMap.get 0 r.vlg 63 = 16) ∧
    (let r : Reload := ⟨64 + 7, 0x10000, []⟩; ((stS { slot0 with reload := some r }).slot 0).reload = some r ∧ r.next = 64 + 7) := by decide +kernel

/-! ## Witnesses: sequencers, partition, abandonment (R86–R104, R348) -/

/-- Slot 0 with the second group of a 128-element instruction to start. -/
def stF (passed : Nat) : State := stH { hart0 with passed, inflight := [⟨0, 1, 128, 64, false, {}⟩] }

theorem not_current {h : Hart} (he : h.inflight = []) (f : Inflight) : ¬ ∃ pre post, IsCurrent h pre f post := by
  rintro ⟨p, q, h1, -⟩
  rw [he] at h1
  exact absurd h1.symm (by simp)

/-- The second group of a 128-element instruction is to start. -/
def fly0 : Inflight := ⟨0, 1, 128, 64, false, {}⟩

theorem current_stF (n : Nat) : IsCurrent ((stF n).slot 0).hart [] fly0 [] :=
  ⟨rfl, by decide, fun _ h => absurd h List.not_mem_nil, fun p g q h => absurd h.symm (by simp)⟩

/-- SequencerResult: nothing to start; a hart passed over 256 times; the only hart with work; an ended producer. -/
theorem witness_sequencer : (∀ k ∈ servedSlots st 0 false, ∀ f, ¬ ∃ pre post, IsCurrent (st.slot k).hart pre f post) ∧
    (0 ∈ servedSlots (stF 256) 0 false ∧ IsCurrent ((stF 256).slot 0).hart [] fly0 [] ∧ 256 ≤ ((stF 256).slot 0).hart.passed) ∧
    ((∀ j ∈ servedSlots (stF 0) 0 false, ((stF 0).slot j).hart.passed < 256) ∧
      ∀ j g, j ∈ servedSlots (stF 0) 0 false → (∃ pre post, IsCurrent ((stF 0).slot j).hart pre g post) → remaining fly0 ≤ remaining g ∧ (j < 0 → remaining fly0 < remaining g)) ∧
    (let l : List Inflight := [⟨0, 1, 128, 128, false, {}⟩]; l[0]? = some ⟨0, 1, 128, 128, false, {}⟩ ∧ completes l 0 = true ∧ ((List.range 0).filter (completes l)).length = 0) := by
  refine ⟨?_, ⟨by decide +kernel, current_stF 256, by decide +kernel⟩, ⟨by decide +kernel, ?_⟩, by decide +kernel⟩
  · intro k hk
    exact not_current ((show ∀ k ∈ servedSlots st 0 false, (st.slot k).hart.inflight = [] by decide +kernel) k hk)
  · rintro j g hj ⟨pre, post, hc⟩
    by_cases h0 : j = 0
    · subst h0
      have h2 : pre ++ g :: post = [fly0] := hc.1.symm
      cases pre with
      | nil => rw [List.nil_append, List.cons.injEq] at h2; rw [h2.1]; exact ⟨le_refl _, fun h => absurd h (Nat.not_lt_zero 0)⟩
      | cons a l => exact absurd h2 (by simp)
    · exact absurd ⟨pre, post, hc⟩ (not_current ((show ∀ k ∈ servedSlots (stF 0) 0 false, k ≠ 0 → ((stF 0).slot k).hart.inflight = [] by decide +kernel) j hj h0) g)

theorem quiet_tile (c : Nat) : TileQuiet (stH { hart0 with pendCr := some (c, 1) }) 0 := by
  intro j hj
  have hlt : j < 8 := by simp only [State.tileOf] at hj; omega
  refine ⟨?_, ?_, ?_, fun r hr => absurd hr List.not_mem_nil⟩
  · interval_cases j <;> rfl
  · intro q hq
    have hn : ((stH { hart0 with pendCr := some (c, 1) }).slot j).hart.queue = [] := by interval_cases j <;> rfl
    rw [hn] at hq
    exact absurd hq List.not_mem_nil
  · intro w i hw
    have hn : ((stH { hart0 with pendCr := some (c, 1) }).slot j).hart.word = none := by interval_cases j <;> rfl
    rw [hn] at hw
    exact absurd hw (by simp)

/-- PartitionEvents: LPART and MAXVL that wait on a quiet tile; a tile with an instruction in flight. -/
theorem witness_partition_events : ((stH { hart0 with pendCr := some (0x100, 1) }).slot 0).hart.pendCr = some (0x100, 1) ∧ ((stH { hart0 with pendCr := some (0x101, 1) }).slot 0).hart.pendCr = some (0x101, 1) ∧
    TileQuiet (stH { hart0 with pendCr := some (0x100, 1) }) (State.tileOf 0) ∧ TileQuiet (stH { hart0 with pendCr := some (0x101, 1) }) (State.tileOf 0) ∧ ¬ TileQuiet (stF 0) (State.tileOf 0) :=
  ⟨by decide +kernel, by decide +kernel, quiet_tile _, quiet_tile _, fun h => absurd (h 0 rfl).1 (by decide +kernel)⟩

/-- The LD of two w32 elements to slice 0, unit stride from s2. -/
def ldAb : ArgsL := ⟨0, 4, 0, 2, 0, false, false⟩

/-- Slot 0 inside that LD at `a`, with a pre-emption requested. -/
def stBegun (a : Word) : State :=
  { st with slots := [(0, { slot0 with img := 0x10000, pre := true, hart := { hart0 with mspace := 0, s := [(2, a)], word := some (wordOf (.ld ldAb), false) } })] }

/-- The same in the HBM of peer 1: element 0 has its reply, element 1 has none. -/
def stAb : State :=
  { stBegun 0x8000000000 with
    tlb := [⟨0, 0, 1, 0, 0x1F⟩, ⟨0, 0, 1, 0x8000000000, 0x19F⟩]
    net := { fab := [(0x86, 1)], reqs := [⟨1, 0, 0, 0, 1, 1, true, .elem 0 0, .read, 0, 4, 0, 0, false, 0, 1, false, some (false, 5)⟩,
      ⟨1, 0, 0, 0, 2, 1, true, .elem 0 1, .read, 4, 4, 0, 0, false, 0, 1, false, none⟩] } }

/-- What the second clause of AbandonmentResult asks of a slot, but for its elements. -/
def begun (s : State) : Bool :=
  let v := s.slot 0
  Ready { s with cur := 0 } && s.wbuf.isEmpty && v.hart.word == some (wordOf (.ld ldAb), false) && decide ((decode (wordOf (.ld ldAb))).toOption = some (.ld ldAb)) && (Instr.ld ldAb).wellFormed &&
    decide (v.state = .running) && !v.yielded && !v.ending && v.hart.pendCr.isNone && s.fnReady 0 && v.pre

/-- AbandonmentResult: that state, with j = 1; an LD whose element 1 lies past the device's pages; and a slot that does not run. -/
theorem witness_abandonment : begun stAb = true ∧ begun (stBegun 0x7FFFFFFFFC) = true ∧
    (let ans : Nat → Option Nat := fun i => if i = 0 then some 5 else none
     (∀ i, performed (stAb.slot 0).hart i = true → ∃ r, stAb.requestOf (.elem 0 i) = some r) ∧
     (∀ r ∈ stAb.net.reqs, ∀ i, r.who = .elem 0 i → performed (stAb.slot 0).hart i = true ∧ (r.peer, r.pa) = (1, 4 * i) ∧ r.op = .read ∧ r.device = false ∧ r.failed = false ∧
       r.reply = (ans i).map (fun n => (false, n))) ∧
     performed (stAb.slot 0).hart 1 = true ∧ ans 1 = none ∧ ∀ i, performed (stAb.slot 0).hart i = true → i < 1 → ans i ≠ none) ∧
    (let s := stBegun 0x7FFFFFFFFC
     s.net.reqs = [] ∧ (s.slot 0).hart.abnd = false ∧ (s.slot 0).step = false ∧ (s.slot 0).hart.tlvl.toNat < 2 ∧ performed (s.slot 0).hart 1 = true ∧
     s.checkSpace 0 0 (accessAddr s ldAb 1).toNat .read 4 4 false = .bad 6 0 ∧
     Passes s (fun i => performed (s.slot 0).hart i && decide (i < 1)) .read 4 false (accessAddr s ldAb) (fun _ => .hbm 0x7FFFFFFFFC) (fun _ => false)) ∧
    (st.slot 1).state = .free := by
  refine ⟨by decide +kernel, by decide +kernel, ⟨?_, ?_, by decide +kernel, by decide, ?_⟩,
    ⟨rfl, rfl, rfl, by decide +kernel, by decide +kernel, by decide +kernel, ?_⟩, by decide +kernel⟩
  · refine of_performed fun i hi => ?_
    have h2 : i < 2 := hi
    obtain rfl | rfl : i = 0 ∨ i = 1 := by omega
    · exact ⟨_, rfl⟩
    · exact ⟨_, rfl⟩
  · intro r hr i hi
    obtain rfl | rfl : r = _ ∨ r = _ := by simpa [stAb] using hr
    · obtain rfl : 0 = i := by simpa using hi
      decide +kernel
    · obtain rfl : 1 = i := by simpa using hi
      decide +kernel
  · intro i _ hi
    obtain rfl : i = 0 := by omega
    decide
  · intro i hi
    obtain rfl : i = 0 := by simp only [Bool.and_eq_true, decide_eq_true_eq] at hi; omega
    decide +kernel

/-! ## Witnesses: pumps on their own (R210–R230, R376–R390) -/

/-- `st` with channel 0 as x and command m where NEXT reads it. -/
def stCmd (x : Channel) (m : Nat) : State := { st with chans := [(0, x)], hbm := putBytes [] (32 * x.next) 32 m }

/-- Everything that AtCommand asks of `stCmd`, to be decided. -/
def atCmd (x : Channel) (m : Nat) : Bool :=
  x.live && x.inProgress.isNone && decide (x.next < x.tail) && x.lbase == 0 && x.origin == 0 && decide (x.next < x.lsize) && x.ctx == 0 && decide (x.next < 16) &&
  decide ((stCmd x m).checkVirtual 192 0 (32 * x.next) .read 32 32 true = .go (.hbm (32 * x.next)) false) && (stCmd x m).homeRead (.hbm (32 * x.next)) 32 == m && x.cmds.isEmpty

theorem at_command {x : Channel} {m : Nat} (h : atCmd x m = true) : AtCommand (stCmd x m) 0 x m := by
  simp only [atCmd, Bool.and_eq_true, decide_eq_true_eq, beq_iff_eq, Option.isNone_iff_eq_none] at h
  obtain ⟨⟨⟨⟨⟨⟨⟨⟨⟨⟨h1, h2⟩, h3⟩, h4⟩, h5⟩, h6⟩, h7⟩, h8⟩, h9⟩, h10⟩, h11⟩ := h
  have ha : listAddr x x.next = 32 * x.next := by
    have : x.lbase + 32 * ((x.next - x.origin) % x.lsize) = 32 * x.next := by rw [h4, h5, Nat.sub_zero, Nat.mod_eq_of_lt h6, Nat.zero_add]
    simp only [listAddr, this]
    exact if_pos (by omega)
  refine ⟨rfl, h1, h2, h3, (show st.fnReady 208 = true by decide +kernel), rfl, .hbm (32 * x.next), false, ?_, rfl, ?_⟩
  · rw [ha, h7]
    exact h9
  · rw [List.isEmpty_iff.mp h11]
    exact h10.symm

/-- The same channel at its second command, in a loop whose LOOP stands there. -/
def chanL : Channel := { chan0 with next := 1, loopOn := true, loopAt := 1, iter := 1 }

/-- PumpListResult: JUMP outside and inside a loop; LOOP starting, empty, going round and ending; a LOOP in another's body; code 11; another row's code. -/
theorem witness_pump_list : ([(chan0, 9), (chanL, 9), ({ chanL with loopOn := false }, 8 + 1 * 2 ^ 16 + 1 * 2 ^ 32), ({ chanL with loopOn := false }, 8 + 1 * 2 ^ 32), (chanL, 8 + 2 * 2 ^ 16 + 1 * 2 ^ 32),
      (chanL, 8 + 1 * 2 ^ 16 + 1 * 2 ^ 32), ({ chanL with loopAt := 2 }, 8 + 1 * 2 ^ 16 + 1 * 2 ^ 32), (chan0, 10)].all fun p =>
      atCmd p.1 p.2 && !p.1.detached && (cmdFault p.1 p.2).isNone && !p.2.testBit 9 && p.1.run.isEmpty && decide (p.1.origin + 1 ≤ 1)) = true ∧
    atCmd chan0 11 = true ∧ bits 11 0 8 > 10 ∧ (cmdFault chan0 11).isSome = true ∧
    AtCommand (stCmd chan0 9) 0 chan0 9 := ⟨by decide +kernel, by decide +kernel, by decide +kernel, by decide +kernel, at_command (by decide +kernel)⟩

/-- PumpSyncResult, starting: WAITSEQ of its own SEQ reached, of a channel that is not open; SIGNAL with a credit free and with none; SIGNAL of a store; END. -/
theorem witness_pump_sync : ([(chan0, 6), (chan0, 6 + 5 * 2 ^ 16), (chan0, 6 + 1 * 2 ^ 64), (chan0, 7 + 9 * 2 ^ 32), (chan0, 7 + 2 ^ 16 + 64 * 2 ^ 128), (chan0, 10), ({ chan0 with sent := 41 }, 10)].all fun p =>
      atCmd p.1 p.2 && !p.1.detached && (cmdFault p.1 p.2).isNone && !p.2.testBit 9 && p.1.run.isEmpty && !p.1.stall) = true ∧
    (stCmd chan0 6).chan 0 = some chan0 ∧ (stCmd chan0 6).chan 5 = none ∧ ((stCmd chan0 7).decrement 0 9).isSome = true ∧
    (({ stCmd chan0 7 with ctxs := [(0, { ctx0 with qcred := 0 })] } : State).decrement 0 9).isNone = true ∧
    pumpCheck (stCmd chan0 7) 0 chan0 0 64 .write 8 8 = .go (.hbm 64) false ∧ chan0.sent % 2 ^ chan0.esz = 0 ∧ 41 % 2 ^ chan0.esz ≠ 0 ∧ (10 : Nat).testBit 8 = false := by decide +kernel

/-- A WAITSEQ of channel 1's SEQ 3 in progress on channel 0. -/
def waitRun : CmdRun := { index := 0, cmd := BitVec.ofNat 256 (6 + 2 ^ 16 + 3 * 2 ^ 64) }
def chanW : Channel := { chan0 with run := [waitRun], waitSerial := some 4 }

/-- PumpSyncResult, going on: SEQ reached, not reached by a live channel, never to be reached; a done command whose bytes have landed, and one whose have not. -/
theorem witness_pump_wait : ([(3 : Word), 2].all fun n =>
      let s : State := { st with chans := [(0, chanW), (1, { chan0 with seq := n, serial := 4 })] }
      s.chan 0 == some chanW && chanW.live && !chanW.detached && decide (bits waitRun.cmd.toNat 0 8 = 6) && decide (bits waitRun.cmd.toNat 16 9 = 1) && s.chan 1 == some { chan0 with seq := n, serial := 4 }) = true ∧
    chanW.run = [] ++ [waitRun] ∧ waitRun.done = false ∧ bits waitRun.cmd.toNat 64 64 = 3 ∧ ({ chan0 with seq := 2, serial := 4, state := .ended } : Channel).live = false ∧
    (let r : CmdRun := { index := 0, cmd := 0x100, mark := 40, done := true }
     r.done = true ∧ r.mark ≤ chan0.landed ∧ r.cmd.getLsbD 8 = true ∧ chan0.seqaddr = 0 ∧ ({ chan0 with run := [r], seqaddr := 64 } : Channel).live = true ∧ st.checkVirtual (192 + 0 / 16) 0 64 .write 8 8 true = .go (.hbm 64) false) ∧
    chan0.wsize ≠ 0 ∧ chan0.landed < ({ index := 0, cmd := 0, mark := 44, done := true } : CmdRun).mark := by decide +kernel

/-- A COPY of 64 bytes from HBM 0 to HBM 4096, a GATHER, a CONVERT of FP32 to FP16, and a COPY into the well. -/
def copyCmd : Nat := 1 + 4096 * 2 ^ 72 + 64 * 2 ^ 128
def gatherCmd : Nat := 2 + 4096 * 2 ^ 72 + 1024 * 2 ^ 128 + 1 * 2 ^ 184 + 64 * 2 ^ 200
def convertCmd : Nat := 5 + 4096 * 2 ^ 72 + 1 * 2 ^ 128 + 1 * 2 ^ 160 + 2 * 2 ^ 164
def wellCmd : Nat := 1 + 3 * 2 ^ 12 + 64 * 2 ^ 128

/-- Channel 0 holds a port, in the middle of r. -/
def chanD (r : CmdRun) : Channel := { chan0 with port := true, run := [r] }

theorem in_data (r : CmdRun) (h : r.done = false) : InData (stC (chanD r)) 0 (chanD r) [] r :=
  ⟨rfl, rfl, rfl, rfl, h, (show st.fnReady 208 = true by decide +kernel), rfl⟩

/-- DataCommandResult: the start of each command; an index read; a piece read; an element converted; a piece stored; a piece into the well, past TOTAL, and with no room. -/
theorem witness_data : ([copyCmd, gatherCmd, convertCmd, wellCmd].all fun m => atCmd { chan0 with port := true } m && (cmdFault chan0 m).isNone && !m.testBit 9 && decide (1 ≤ bits m 0 8) && decide (bits m 0 8 ≤ 5)) = true ∧
    (let g : CmdRun := { index := 0, cmd := BitVec.ofNat 256 gatherCmd }
     let s := stC (chanD g)
     bits g.cmd.toNat 0 8 = 2 ∧ g.idx = none ∧ pumpCheck s 0 (chanD g) 0 (bits g.cmd.toNat 128 56 + g.pos * g.idxLen) .read g.idxLen g.idxLen = .go (.hbm 1024) false) ∧
    (let g : CmdRun := { index := 0, cmd := BitVec.ofNat 256 copyCmd }
     let s := stC (chanD g)
     bits g.cmd.toNat 0 8 = 1 ∧ g.phase = 0 ∧ g.have_ = 0 ∧ g.buf = 0 ∧ s.budgetFree (.pump 0) 0 8 = true ∧ g.srcAddr = 0 ∧ min (g.rowLen - g.off) (64 - 0 % 64) = 64 ∧
     pumpCheck s 0 (chanD g) 0 0 .read 64 1 = .go (.hbm 0) false) ∧
    (let g : CmdRun := { index := 0, cmd := BitVec.ofNat 256 convertCmd }
     bits g.cmd.toNat 0 8 = 5 ∧ g.srcAddr = 0 ∧ (pumpFmt (bits g.cmd.toNat 160 4)).w / 8 = 4 ∧ pumpCheck (stC (chanD g)) 0 (chanD g) 0 0 .read 4 1 = .go (.hbm 0) false) ∧
    (let g : CmdRun := { index := 0, cmd := BitVec.ofNat 256 copyCmd, phase := 1, len := 64, buf := 5 }
     let s := stC (chanD g)
     bits g.cmd.toNat 12 2 ≠ 3 ∧ g.dstAddr = 4096 ∧ g.len ≤ 64 - 4096 % 64 ∧ pumpCheck s 0 (chanD g) 0 4096 .write 64 1 = .go (.hbm 4096) false ∧ peerOf s 0 (chanD g) 0 4096 = none) ∧
    (let g : CmdRun := { index := 0, cmd := BitVec.ofNat 256 wellCmd, phase := 1, len := 24, buf := 5 }
     let x := chanD g
     bits g.cmd.toNat 12 2 = 3 ∧ x.past = false ∧ x.total = 0 ∧ g.len ≤ (x.rel + x.wsize / 2 ^ x.esz) * 2 ^ x.esz - x.sent ∧ g.len ≤ 64 - x.sent % 64 ∧
     pumpCheck (stC x) 0 x 1 (x.wbase + x.sent % x.wsize) .write g.len 1 = .go (.cis 40) false ∧ ({ x with total := 10 } : Channel).past = true ∧
     ({ x with win := 10 } : Channel).past = false ∧ (x.rel + 10) * 2 ^ x.esz - x.sent = 0) := by decide +kernel

/-- RequantResult: a block of format 0x41 with the old view's tag, and one of another format. -/
theorem witness_requant : (let r : CmdRun := { index := 0, cmd := BitVec.ofNat 256 (4 + 1 * 2 ^ 240), aux := [0, 0] }
      let s : State := { stC (chanD r) with hbm := (0, 0x41) :: putBytes [] 2 2 (tagAt 0 0).toNat }
      bits r.cmd.toNat 0 8 = 4 ∧ r.srcAddr = 0 ∧ s.budgetFree (.pump 0) 0 8 = true ∧ pumpCheck s 0 (chanD r) 0 0 .read 64 64 = .go (.hbm 0) false ∧
      (BitVec.ofNat 512 (s.homeRead (.hbm 0) 64)).extractLsb' 0 8 = 0x41 ∧ blockTag (BitVec.ofNat 512 (s.homeRead (.hbm 0) 64)) = tagAt 0 0 ∧
      (BitVec.ofNat 512 ((stC (chanD r)).homeRead (.hbm 0) 64)).extractLsb' 0 8 ≠ 0x41) := by decide +kernel

/-- Channels 3 and 5 of pump 0 wait for a port, 3 since longer; in the second, channels 0 to 2 and 4 hold the four ports. -/
def stPort (holders : Bool) : State :=
  { st with chans := (if holders then [(0, { chan0 with port := true, readyAt := some 1 }), (1, { chan0 with port := true, readyAt := some 2 }), (2, { chan0 with port := true, readyAt := some 3 })] else []) ++
      [(3, { chan0 with readyAt := some 5 })] ++ (if holders then [(4, { chan0 with port := true, readyAt := some 4 })] else []) ++ [(5, { chan0 with readyAt := some 6 })] }

theorem witness_ports (b : Bool) : settleChans (stPort b) = stPort b ∧ SMap.sortedFrom 0 (stPort b).chans = true ∧ (stPort b).chan 3 = some { chan0 with readyAt := some 5 } ∧
    ((((stPort b).chans.filter (fun e => decide (e.1 / 16 = 0) && e.2.port)).length < 4) ↔ b = false) ∧
    (∀ d y q, (stPort b).chan d = some y → d / 16 = 0 → d ≠ 3 → y.port = false → y.readyAt = some q → 5 < q ∨ (5 = q ∧ 3 < d)) := by
  refine ⟨by cases b <;> decide +kernel, by cases b <;> decide +kernel, by cases b <;> decide +kernel, by cases b <;> decide +kernel, ?_⟩
  intro d y q h hd h3 hp hr
  have hall : ∀ d < 16, ((stPort b).chan d).all (fun y => decide (d = 3) || y.port || y.readyAt == some 6) = true := by cases b <;> decide +kernel
  have := hall d (by omega)
  rw [h] at this
  simp only [Option.all_some, h3, decide_false, hp, Bool.false_or, beq_iff_eq, hr, Option.some.injEq] at this
  omega

/-- PumpServiceResult: tickets asked for, called in turn, out of turn, and unknown. -/
theorem witness_tickets : [(⟨1, 2⟩ : TicketAsk), ⟨1, 2⟩, ⟨2049, 0⟩, ⟨2, 0⟩].Pairwise (fun a b => fabricRank a.src < fabricRank b.src ∨ (fabricRank a.src = fabricRank b.src ∧ a.chan ≤ b.chan)) ∧
    (let d : Dispenser := { next := 2, tickets := [⟨0, 1, 0, false⟩, ⟨1, 1, 1, false⟩] }
     ((0 : BitVec 32) - d.serving).toNat < max 1 d.slots.toNat ∧ (∃ t ∈ d.tickets, t.number = 0) ∧ (∀ t ∈ d.tickets, t.number = 0 + 1 → t.finished = false) ∧
     ((1 : BitVec 32) - d.serving).toNat < max 1 d.slots.toNat ∧ (∃ t ∈ d.tickets, t.number = 1) ∧ (∀ t ∈ d.tickets, t.number = d.serving → t.finished = false) ∧
     ¬ (((9 : BitVec 32) - d.serving).toNat < max 1 d.slots.toNat)) ∧
    (stC chanW).chan 0 = some chanW ∧ chanW.run = [] ++ [waitRun] ∧ waitRun.done = false := by decide +kernel

/-! ## Witnesses: rounds on their own (R264–R296) -/

/-- `desc0` of MODE 0 with 64 bytes for a memory endpoint, and without NOTIFY. -/
def descM : BitVec 512 := BitVec.ofNat 512 (2 ^ 32 + (2 ^ 32 - 1) * 2 ^ 64 + 64 * 2 ^ 96 + 2 ^ 384)
/-- The same with splitters at HBM 64 KiB, and the same over a span of two devices. -/
def descS : BitVec 512 := descM ||| BitVec.ofNat 512 (0x10000 * 2 ^ 128 + 2 * 2 ^ 40)
def desc2 : BitVec 512 := BitVec.ofNat 512 (2 ^ 32 + 64 * 2 ^ 96 + 2 * 2 ^ 384)

/-- Round slot 0 holds r; the group has the one member 7; engines reach the low HBM. -/
def stO (r : Round) : State :=
  { stR r with groups := [(1, { members := [7], arrived := 0, ended := 0, phase := 0 })], tlb := [⟨224, 0, 1, 0, 0x1F⟩, ⟨225, 0, 1, 0, 0x1F⟩, ⟨231, 0, 1, 0, 0x1F⟩] }

/-- `stR` holds a round of that descriptor, with a well bound or in the state given. -/
def roundJ (d : BitVec 512) (image : List (BitVec 512)) : Round := { ctx := 0, desc := d, parts := [{ part0 with well := some (64, 128) }], image := image }
def roundO (d : BitVec 512) : Round := { roundJ d [] with state := .opened }

theorem joined_witness (d : BitVec 512) (l : List (BitVec 512)) (h : (roundJ d l).group = 1) : Joined (stO (roundJ d l)) (roundJ d l) :=
  ⟨{ members := [7], arrived := 0, ended := 0, phase := 0 }, by rw [h]; show (stO (roundJ d l)).group 0 1 = _; simp [State.group, stO, SMap.find?],
    fun m hm => .inl ⟨{ part0 with well := some (64, 128) }, List.mem_cons_self, (List.mem_singleton.mp hm).symm⟩, fun p hp => .inl (by rw [List.mem_singleton.mp hp]; decide)⟩

/-- RoundLifeResult, opening: without splitters; the first piece; the 48th of a legal image and of one that does not ascend; a page that is absent. -/
theorem witness_opening : Joined (stO (roundJ descM [])) (roundJ descM []) ∧ (stO (roundJ descM [])).round 0 = some (roundJ descM []) ∧ (roundJ descM []).split = 0 ∧
    Joined (stO (roundJ descS [])) (roundJ descS []) ∧ (roundJ descS []).split ≠ 0 ∧
    (stO (roundJ descS [])).checkVirtual 224 0 0x10000 .read 64 64 true = .go (.hbm 0x10000) false ∧ (stR (roundJ descS [])).checkVirtual 224 0 0x10000 .read 64 64 true = .bad 6 0 ∧
    Joined (stO (roundJ descS (List.replicate 47 0))) (roundJ descS (List.replicate 47 0)) ∧
    (stO (roundJ descS [])).checkVirtual 224 0 (0x10000 + 64 * 47) .read 64 64 true = .go (.hbm (0x10000 + 64 * 47)) false ∧
    imageFault (roundJ descS (List.replicate 47 0 ++ [BitVec.ofNat 512 ((stO (roundJ descS [])).homeRead (.hbm (0x10000 + 64 * 47)) 64)])) 0 = none ∧
    pieceWord (1 :: List.replicate 46 0 ++ [0]) 1 < pieceWord (1 :: List.replicate 46 0 ++ [0]) 0 ∧ Joined (stO (roundJ descS (1 :: List.replicate 46 0))) (roundJ descS (1 :: List.replicate 46 0)) :=
  ⟨joined_witness _ _ (by decide +kernel), rfl, by decide +kernel, joined_witness _ _ (by decide +kernel), by decide +kernel, by decide +kernel, by decide +kernel,
    joined_witness _ _ (by decide +kernel), by decide +kernel, by decide +kernel, by decide +kernel, joined_witness _ _ (by decide +kernel)⟩

/-- RoundLifeResult, completing and lanes: every target final, with and without NOTIFY and with no credit for it; not final; a lane of device 1. -/
theorem witness_life : (let r : Round := { roundO descM with ins := [(0, { final := true })] }
      (stO r).round 0 = some r ∧ r.state = .opened ∧ (∀ e ∈ r.targets (selfIn (stO r) r), (r.ingress e).final = true) ∧ r.notify = 0xFFFFFFFF) ∧
    (let r : Round := { roundO desc2 with desc := desc0, ins := [(0, { final := true })] }
     (∀ e ∈ r.targets (selfIn (stO r) r), (r.ingress e).final = true) ∧ r.notify ≠ 0xFFFFFFFF ∧ ((stO r).decrement r.ctx r.notify).isSome = true ∧
     (({ stO r with ctxs := [(0, { ctx0 with qcred := 0 })] } : State).decrement r.ctx r.notify).isNone = true) ∧
    ¬ (∀ e ∈ (roundO descM).targets (selfIn (stO (roundO descM)) (roundO descM)), ((roundO descM).ingress e).final = true) ∧
    (roundO desc2).lanes = [] ∧ 1 < (roundO desc2).ndev ∧ 1 ≠ selfIn (stO (roundO desc2)) (roundO desc2) := by decide +kernel

/-- A participant with a run of two records at 64; its stream read to the end; and a key below the last. -/
def partE : Participant := { part0 with runs := [(64, 2, 0)] }

/-- EgressResult: a record that ascends and one that does not; the end of a closed stream; a lane's record and close. -/
theorem witness_egress : ([partE, { partE with read := 1, last := 5 }].all fun p =>
      let r : Round := { roundO descM with parts := [p] }
      let s := stO r
      s.round 0 == some r && r.parts.find? (fun q => q.tile == p.tile) == some p && (r.input 0).waiting.isNone && s.budgetFree (.egress 0) 0 16 && rangeGranted s 0 0 64 8 .read && !(s.window 64).busy &&
      !(s.window 71).busy && s.fnReady 0 && s.fnReady 192 && (p.read == 0 || (decide ((r.toXRec (bytesAt s.cis 64 r.RS)).key < p.last)))) = true ∧
    (let p := { part0 with closed := true }; ({ roundO descM with parts := [p] } : Round).parts.find? (fun q => q.tile == p.tile) = some p ∧ p.runs = [] ∧ p.closed = true ∧ p.closeRead = false) ∧
    (let r : Round := { roundO desc2 with lanes := [1] }
     1 ∈ r.lanes ∧ 1 < r.ndev ∧ 1 ≠ selfIn (stO r) r ∧ r.replicated = false ∧ (r.input (4 * ((224 + 1) % 64) + 3)).close = false ∧ (r.input (4 * ((224 + 1) % 64) + 3)).waiting = none ∧
     ({ key := 5, pay := [] } : XRec).key < 2 ^ r.keyBits ∧ ([] : List Byte).length = r.P ∧ (r.input (4 * ((224 + 1) % 64) + 3)).shown = none) := by decide +kernel

/-- An open round whose switch 0 of stage t has a record of key 5 for output 0 at each port of `ps`, and nothing more to come. -/
def roundM (t : Nat) (ps : List Nat) : Round :=
  { roundO descM with inputs := (List.range 4).map (fun p => (inputKey false t 0 p, if ps.contains p then { q := [[({ key := 5, pay := [] }, 0)], [], [], []], shown := some 5, close := true } else { close := true })) }

/-- MergeResult: one record at stage 3 and at stage 0, two that combine, and none. -/
theorem witness_merge : ([(3, [1]), (0, [1]), (3, [1, 2]), (3, []), (0, [])].all fun e =>
      let r := roundM e.1 e.2
      (stO r).round 0 == some r && r.comb != 1 && !r.replicated && decide (SMap.get {} r.outputs (inputKey false e.1 0 0) = {}) && r.linkFree false e.1 0 0 &&
      (List.range 4).all (fun p => let i := r.input (inputKey false e.1 0 p)
        r.inputClosed 0 false e.1 0 p && i.waiting.isNone && decide (i.q.getD 0 [] = if e.2.contains p then [({ key := 5, pay := [] }, 0)] else []) && decide (0 < i.q.length))) = true ∧
    OneAt (roundM 3 [1]) 0 false 3 0 0 1 ({ key := 5, pay := [] }, 0) [] ∧ NothingAt (roundM 3 [1]) 0 false 3 0 0 5 2 := by
  refine ⟨by decide +kernel, ⟨by decide +kernel, by decide +kernel, by decide +kernel, by intro y hy; exact absurd hy (by simp), .inr (by decide +kernel)⟩, ⟨by decide +kernel, .inr (by decide +kernel)⟩⟩

/-- IngressResult: a participant's well, memory endpoint 192 with and without room, a lane, the close of each, and nothing to do. -/
theorem witness_ingress : ([0, 192, 225].all fun e =>
      let r : Round := { roundO desc2 with lanes := [1], ins := [(e, { q := [{ key := 5, pay := [] }] })] }
      let s := stO r
      s.round 0 == some r && !(r.ingress e).final && decide ((r.ingress e).q = [{ key := 5, pay := [] }]) && decide ((r.ingress e).at_ = 0)) = true ∧
    (let r := roundO desc2
     let s := stO r
     r.parts.find? (fun q => q.tile == 0) = some { part0 with well := some (64, 128) } ∧ (0 + 1) * r.RS ≤ 128 ∧ rangeGranted s 0 0 64 r.RS .write = true ∧ (s.window 64).busy = false ∧ (s.window (64 + r.RS - 1)).busy = false ∧
     s.fnReady 0 = true ∧ s.fnReady 192 = true ∧ r.parts.find? (fun q => q.tile == 192) = none ∧ (0 + 1) * r.RS ≤ r.msize ∧ r.RS = 8 ∧ (s.tlbHit 231 0 0).isSome = true ∧
     s.checkVirtual 231 0 0 .write 8 8 true = .go (.hbm 0) false ∧ r.msize < (8 + 1) * r.RS ∧ 225 - 224 ∈ ({ r with lanes := [1] } : Round).lanes ∧
     ({ r with ins := [(0, { close := true })] } : Round).ingress 0 = { close := true } ∧ r.ingress 0 = {}) := by decide +kernel

/-! ## Witnesses: fabric, host, bring-up (R364–R416) -/

/-- A write of 8 bytes at HBM 64 of job 0, and a context that exports the low 2^39 bytes. -/
def req0 (op : MemOp) : RemoteReq := ⟨5, 0, 1, 0, 3, 2, op, 64, 8, 9, 0, false⟩
def stE (perf : List (BitVec 32 × Option Nat)) (acked : BitVec 32) : State :=
  { st with net := { ident := { ng := 6 }, fab := putBytes [] 0x100 8 (7 + 39 * 2 ^ 8), filters := [⟨5, 0, 1, acked, perf⟩] } }

/-- RemoteRequestResult: saved already; acknowledged already; admitted; not admitted. -/
theorem witness_remote : 0 < (req0 .write).size ∧ (req0 .write).size ≤ 256 ∧ filterOf (stE [] 2) (req0 .write) = some ⟨5, 0, 1, 2, []⟩ ∧
    (filterOf (stE [(3, none)] 2) (req0 .write)).map (fun f => (f.acknowledge 2).performed.find? (fun e => e.1 == 3)) = some (some (3, none)) ∧
    ahead 4 3 = true ∧ ahead 2 3 = false ∧ admits (stE [] 2) (req0 .write) = some 0 ∧ admits (stE [] 2) (req0 .aadd) = some 0 ∧ admits st (req0 .read) = none ∧
    (stE [] 2).portOf 5 = some 35 ∧ (stE [] 2).budgetFree (.port 35) 0 24 = true ∧ st.portOf 5 = none ∧ [req0 .write, { req0 .read with src := 2048 }].Pairwise (fun a b => fabricRank b.src < fabricRank a.src) ∧ (stE [] 2).fnReady (State.stackFn 64) = true ∧ (stE [] 2).fnReady (State.stackFn 71) = true ∧ (dropOlder (req0 .read) []).length < 512 := by decide +kernel

/-- FabricResult: requests answered, given up, and sent again, with a path and without; filters empty and not. PathResult: a global port here, the owner of one, and none; a detour. -/
theorem witness_fabric : (let r : SentReq := ⟨1, 4096, 0, 0, 1, 1, true, .chan 0, .read, 0, 4, 0, 0, false, 0, 5, false, none⟩
      let s : State := { st with net := { reqs := [r, { r with sends := 4 }, { r with reply := some (false, 5) }], filters := [⟨5, 0, 1, 2, []⟩, ⟨5, 0, 2, 2, [(3, none)]⟩] } }
      s.net.reqs[0]? = some r ∧ r.reply = none ∧ r.failed = false ∧ 5 ≤ r.sends ∧ s.net.reqs[1]? = some { r with sends := 4 } ∧ s.portOf 4096 = some 1 ∧ s.portOf 1 = none ∧ s.budgetFree (.port 1) 0 24 = true ∧
      s.net.filters[0]? = some ⟨5, 0, 1, 2, []⟩ ∧ s.net.filters[1]? = some ⟨5, 0, 2, 2, [(3, none)]⟩) ∧
    (let s : State := { st with net := { ident := { ng := 6 } }, funcs := st.funcs.map (fun e => if 272 ≤ e.1 then (e.1, {}) else e) }
     s.portUp 0 4 = false ∧ globalPeer 6 0 4 = some (5, 0) ∧ s.portUp 1 1 = true ∧ globalPeer 6 0 49 = some (5, 45) ∧ s.linkUp 0 1 = true ∧ s.portOf 5 = some 0) ∧
    (let s : State := { st with funcs := st.funcs.map (fun e => if e.1 = 242 then (242, { state := 3 }) else e) }
     s.linkUp 0 2 = false ∧ s.linkUp 0 1 = true ∧ s.linkUp 1 2 = true ∧ s.portOf 4096 = some 0) := by decide +kernel

/-- An OPEN round whose lane to device 1, member 5, takes the direct link. -/
def stLane : State := { stO { roundO desc2 with via := [(1, 5)] } with net := { fab := putBytes [] 0x84 4 (2 ^ 16 + 5 * 2 ^ 11) } }

/-- LanesFault, PathsOf: the lane uses the link between members 0 and 5 and no other of this device's. -/
theorem witness_lane : LaneUses stLane { roundO desc2 with via := [(1, 5)] } 0 5 1 ∧ HopIs stLane 5 5 ∧ stLane.round 0 = some { roundO desc2 with via := [(1, 5)] } ∧
    ¬ LaneUses stLane { roundO desc2 with via := [(1, 5)] } 0 6 1 := by
  refine ⟨⟨5, List.mem_cons_self, .inl ⟨rfl, rfl⟩⟩, .inl ⟨by decide +kernel, rfl⟩, rfl, ?_⟩
  rintro ⟨h, hm, hu⟩
  obtain rfl : h = 5 := by simpa using hm
  revert hu
  decide +kernel

/-- DoorbellResult: the host ports down; HTAIL and HACK behind, ahead; LASTH + 1 in the ring, a later and an earlier number; a record in hand. -/
theorem witness_doorbell : hostUp State.reset = false ∧ hostUp st = true ∧ ahead 1 st.io.htail = true ∧ ahead 0 st.io.htail = false ∧ ahead 1 st.io.hack = true ∧ ahead 1 st.io.lasth = true ∧
    st.io.inHand = none ∧ st.io.submitting = none ∧ (bits (bytesAt st.io.ring 0 64) 32 32 = 0) ∧
    ([(1 : Nat), 7].all fun n => decide (bits (bytesAt (putBytes [] 4 4 n) 0 64) 32 32 = n)) = true ∧ ahead 7 st.io.lasth = true ∧ ahead 0 st.io.lasth = false := by decide +kernel

/-- A record in hand, and the low HBM. -/
def stL (r : Nat) (m : SMap Byte) : State := { st with hbm := m, io := { inHand := some (BitVec.ofNat 512 r) } }

/-- LaunchResult: nothing in hand; an unknown kind; a resident context; a context byte of 64; a malformed block; an accepted one; a submission at its end and before a task record. -/
theorem witness_launch : ahead st.io.htail st.io.lasth = false ∧ st.io.inHand = none ∧ (stL 5 []).io.inHand = some 5 ∧ (stL 1 []).io.submitting = none ∧ ((stL 1 []).ctx 0).res = true ∧
    bits (1 + 64 * 2 ^ 64 : Nat) 64 8 = 64 ∧
    (let s := stL (1 + 2 * 2 ^ 64 + 1152 * 2 ^ 192) [(0, 1), (4, 0x80), (5, 4), (258, 1)]
     (s.ctx 2).res = false ∧ (∀ m, m < 12 → s.fnReady (196 + m) = true) ∧ launchStatus s ⟨s.hbm, 0⟩ 1152 = 0 ∧ s.wbuf = [] ∧ launchStatus s ⟨[], 0⟩ 1152 = 2 ∧ (⟨[], 0⟩ : LaunchBlock).f 0 4 ≠ 1) ∧
    (let s : State := { st with io := { submitting := some ⟨0, 0, 1, 0, 64, 0, none⟩ } }; (s.ctx 0).res = true ∧ (s.ctx 0).incarnation = 0) ∧
    (let s : State := { st with io := { submitting := some ⟨0, 0, 1, 0, 64, 1, none⟩ }, tlb := [⟨1000, 0, 1, 0, 0x1F⟩] }
     s.checkVirtual 1000 0 (bytesAt s.hbm 64 8) .read 64 64 true = .go (.hbm 0) false) := by decide +kernel

/-- EndContextResult: an end record for a context that is not resident; for context 0 with its slot FREE, and RUNNING. -/
theorem witness_end : (stL (2 + 9 * 2 ^ 64) []).io.endings = [] ∧ SMap.wf {} st.slots = true ∧ ((stL (2 + 9 * 2 ^ 64) []).ctx 9).res = false ∧ ((stL 2 []).ctx 0).res = true ∧ bits (2 : Nat) 0 32 = 2 ∧
    (∀ k, ((st.slot k).mode ≠ 0 ∧ (st.slot k).ctx = 0) ∨ (st.occupied k = true ∧ (st.slot k).taskCtx = 0) → k < 1536) ∧ (∃ k, st.occupied k = true ∧ (st.slot k).taskCtx = 0) ∧
    ((stS { slot0 with state := .free }).slot 0).state = .free := by
  refine ⟨by decide +kernel, by decide +kernel, by decide +kernel, by decide +kernel, by decide, ?_, ⟨0, by decide +kernel⟩, by decide +kernel⟩
  intro k hk
  by_contra hge
  have hs : st.slot k = {} := by
    show (if k = 0 then slot0 else ({} : Slot)) = {}
    rw [if_neg (by omega)]
  rcases hk with h | h
  · rw [hs] at h; exact h.1 rfl
  · simp only [State.occupied, hs] at h; exact absurd h.1 (by decide)

/-- HostResult: a completion record with a valid ring word and room, and with none; the window's two parts; the host ports down. -/
theorem witness_host : (let s : State := { st with io := { compl := [7], cword := BitVec.ofNat 256 (4096 + 65536 * 2 ^ 64) } }
      s.io.compl = 7 :: [] ∧ s.io.cword.extractLsb' 64 64 = 65536 ∧ s.io.cword.extractLsb' 186 6 = 0 ∧ s.io.cword.extractLsb' 192 64 = 0 ∧ (s.io.dseq + 1 - s.io.hack).toNat ≤ 1024) ∧
    (1024 < ((1024 : BitVec 32) + 1 - 0).toNat) ∧ hostUp st = true ∧ (0x3FFF : Nat) + [(1 : Byte)].length ≤ 0x4000 ∧ (575999999999 : Nat) + [(1 : Byte)].length ≤ 576000000000 ∧
    (∀ m, m < 12 → st.fnReady (196 + m) = true) ∧ hostUp State.reset = false := by decide +kernel

/-- BringUpResult: power-on of a device that is OFF and of one that is not; a self-test; a clock step each way. -/
theorem witness_bringup : (3 : BitVec 4).toNat ≤ 3 ∧ (∀ n, n < 324 → (State.reset.func n).state = 0) ∧ (st.func 323).state ≠ 0 ∧
    (({ st with funcs := [(0, { state := 1 })] } : State).func 0).state = 1 ∧ (SMap.get {} st.power 3 : Power).step.toNat < 8 ∧ (SMap.get {} [(3, (⟨520, 8⟩ : Power))] 3 : Power).step ≠ 0 := by decide +kernel

/-- SoftErrorResult: a hart's, a window's and the management core's errors, a link's, and a place that no context owns. -/
theorem witness_soft_error : ((ErrorPlace.fn (.hart 0)).any (fun n => decide (n < 324)) = true) ∧ (∀ j, ErrorPlace.hart 0 ≠ .link j) ∧ ErrorPlace.owner st (.hart 0) = some 0 ∧ ErrorPlace.owner st (.hart 9) = none ∧
    st.occupied 0 = true ∧ (st.ctx (st.ctxOf 0)).res = true ∧ (st.ctx (st.ctxOf 0)).dying = false ∧ (SMap.get {} st.windows 0).valid = true ∧ (st.ctx (SMap.get {} st.windows 0).ctx).res = true :=
  ⟨by decide +kernel, fun _ h => ErrorPlace.noConfusion h, by decide +kernel⟩

/-! ## Witnesses of further clauses -/

/-- OperandTraps: a vector division by an immediate 0 with IDZE set; a slice operand past slice 63; PERM over its own source. BranchResult: a BRS of a RUNNING channel in deterministic mode. PrivilegedRegisters:
bank 2 from level 2. FloatRules: a value below a format's least and one above its greatest. -/
theorem witness_vector_traps : (let s := stH { hart0 with fctl := 0x20 }
      ∃ r, intRow (.rem ⟨2, 4, 8, 0, 0, false, false⟩) = some r ∧ r.divides = true ∧ (Instr.rem ⟨2, 4, 8, 0, 0, false, false⟩).wellFormed = true ∧ r.x.f ≠ 3 ∧ overruns 32 8 = false ∧
        overruns 32 0 = false ∧ performed s.hart 0 = true ∧ secondAt s r.x.f false 32 r.x.b 0 = 0 ∧ s.hart.tlvl.toNat < 2) ∧
    (sliceOperands (.frmax ⟨4, 1, 60, 3, false, false⟩)).any (fun o => overruns o.1 o.2.toNat) = true ∧
    crossOperands (.perm ⟨3, 0, 4, 3, false, false⟩) = some ((16, 0), [(16, 4), (16, 3)]) ∧ (slicesOf 16 3 &&& slicesOf 16 0) ≠ 0 ∧
    (let s := stH { hart0 with tlvl := 2 }; Ready s = true ∧ 2 ≤ s.hart.tlvl.toNat ∧ (Instr.mtcr ⟨3, 0x02B, false⟩).wellFormed = true) :=
  ⟨⟨_, rfl, by decide +kernel⟩, by decide +kernel⟩

theorem witness_unsettled : Unsettled ⟨1, 1, 0, 0x1FF⟩ { stC chan0 with ctxs := stDet.ctxs } ∧ Unsettled ⟨0, 2, 0, 0x1FF⟩ { stR round0 with ctxs := stDet.ctxs } :=
  ⟨⟨by decide +kernel, .inl ⟨rfl, 0, chan0, by decide +kernel, by decide +kernel, by decide⟩⟩, ⟨by decide +kernel, .inr ⟨rfl, round0, by decide +kernel, by decide +kernel, by decide⟩⟩⟩

/-- TaskEndResult: the last count of a dependent, one that is ready, a credit, and none free; a TASKEND of the context whose store waits. -/
theorem witness_counts : (let e : Held := ⟨0, 0, 1, false, { rc7 0xFF with id := 9 }⟩
      ((decrementOnce st 0 ⟨[e], [], 0⟩ 9).map (fun x => (x.held.map (fun y => (y.count, y.ready)), x.surplus))) = some ([(0, true)], 0) ∧
      ((decrementOnce st 0 ⟨[{ e with count := 0, ready := true }], [], 0⟩ 9).map (fun x => x.surplus)) = some 1 ∧ ((decrementOnce st 0 ⟨[], [], 0⟩ 9).map (fun x => x.credits)) = some [⟨0, 9, 1⟩] ∧
      (decrementOnce st 0 ⟨[], [⟨0, 8, 8⟩], 0⟩ 9).isNone = true) ∧ completing stRun = false ∧
    completing { stRun with
      slots := stRun.slots ++ [(9, { slot0 with hart := { hart0 with word := some (wordOf .taskend, false) } })]
      net := { reqs := [⟨1, 0, 0, 0, 1, 1, true, .elem 9 0, .write, 0, 8, 1, 0, false, 0, 1, false, none⟩] } } = true := by decide +kernel

/-- SlotTableResult: the slot that pops alone, and two ARMED slots of one queue; the bind writes' quota. -/
theorem witness_pop : (let e : Held := ⟨0, 3, 0, true, rc7 0xFF⟩
      let s : State := { st with slots := [(1535, { mode := 1, die := 3, state := .armed })], held := [e] }
      Takes s 1535 3 [] e [] ∧ (s.slot 1535).state = .armed ∧ s.fnReady 191 = true ∧
      ∀ j, j ≠ 1535 → (s.slot j).state ≠ .armed) ∧
    (let s : State := { st with slots := [(8, { mode := 2, prio := 3, state := .armed }), (390, { mode := 1, state := .armed })], held := [⟨0, 0, 0, true, rc7 0xFF⟩] }
     (cycleAt 0 s).1.held = [] ∧ ((cycleAt 0 s).1.slot 390).state = .armed ∧ ((cycleAt 0 s).1.slot 8).state = .running) := by
  refine ⟨⟨⟨rfl, rfl, by unfold MayTake; decide +kernel, fun z h => absurd h List.not_mem_nil, .inl ⟨rfl, by decide +kernel⟩⟩, rfl, by decide +kernel, fun j hj h => ?_⟩, by decide +kernel⟩
  have hs : (({ st with slots := [(1535, { mode := 1, die := 3, state := .armed })], held := [⟨0, 3, 0, true, rc7 0xFF⟩] } : State).slot j) = {} := by
    show (if j = 1535 then _ else ({} : Slot)) = {}
    rw [if_neg hj]
  rw [hs] at h
  exact absurd h (by decide)

/-- RoundMembership: a RID in another state, an unequal descriptor, 16 rounds, the quota; a slot not joined; a FAULTED round met by a run. RoundLifeResult and IngressResult: a path of the round, the sump, a full slice, and none. -/
theorem witness_round_traps : (let s : State := { stRun with hbm := putBytes [] 64 64 desc0.toNat, rounds := [(3, { round0 with state := .opened })] }
      sameRid s s.ctxid desc0 = some (3, { round0 with state := .opened }) ∧ sameRid s s.ctxid (desc0 ||| BitVec.ofNat 512 (2 ^ 48)) = some (3, { round0 with state := .opened })) ∧
    (let s : State := { stRun with rounds := (List.range 16).map (fun k => (k, { round0 with ctx := 5 })) }
     (∀ j, j < 16 → (SMap.find? s.rounds j).isSome = true) ∧ (s.rounds.filter (fun p => p.2.ctx == s.ctxid)).length = 0) ∧
    min 16 ({ ctx0 with qround := 0 } : Ctx).qround.toNat ≤ (st.rounds.filter (fun p => p.2.ctx == st.ctxid)).length ∧
    slotRow (.xsamp ⟨0, 3, 0, false, false⟩) = some 3 ∧ SMap.find? (stR round0).rounds (((stR round0).hart.rs 3).toNat % 16) = none ∧
    InRound (stR { round0 with state := .faulted, code := 6 }) 0 { round0 with state := .faulted, code := 6 } part0 ∧
    (let d := descM ||| BitVec.ofNat 512 (0x40000 * 2 ^ 192 + 0x4000 * 2 ^ 256)
     let r : Round := { roundO d with parts := [{ part0 with well := some (64, 0) }], ins := [(0, { q := [{ key := 5, pay := [] }] })] }
     ¬ (part0.u = 0 ∧ (part0.w + 1) * r.RS ≤ 0) ∧ r.sump = 0x40000 ∧ (0 + 1) * r.RS ≤ r.slice ∧ r.RS ≤ 256 ∧ (r.ingress 0).at_ = 0 ∧ (stO r).requestOf (.round 256) = none ∧
     (∀ j, j < r.RS / 8 → ((stO r).tlbHit 225 r.ctx (0x40000 + 8 * j)).isSome = true ∧ (stO r).checkVirtual 225 r.ctx (0x40000 + 8 * j) .write 8 8 true = .go (.hbm (0x40000 + 8 * j)) false) ∧
     (stR r).checkVirtual 225 r.ctx 0x40000 .write 8 8 true = .bad 6 0 ∧ r.slice < (8 + 1) * r.RS ∧ (roundO descM).sump = 0) := by
  refine ⟨by decide +kernel, by decide +kernel, by decide +kernel, by decide, by decide +kernel, ?_, by decide +kernel⟩
  unfold InRound
  decide +kernel

/-- EgressResult and MergeResult: where a record goes in a routed round and in a replicated one, and who receives what leaves there. -/
theorem witness_goes : GoesTo (stO (roundO descM)) (roundO descM) 5 0 ∧ Receives (stO (roundO descM)) (roundO descM) 0 0 ∧
    (let r : Round := { roundO descM with desc := desc0 ||| BitVec.ofNat 512 (2 * 2 ^ 384), np := 1 }
     r.replicated = true ∧ selfIn (stO r) r = 0 ∧ GoesTo (stO r) r 5 0 ∧ Receives (stO r) r 0 0 ∧ Receives (stO r) r 0 226 ∧ ¬ Receives (stO r) r 0 1) ∧
    (let r : Round := { roundO desc2 with lanes := [1], map := [256] }
     selfIn (stO r) r = 0 ∧ GoesTo (stO r) r 5 225 ∧ (1 : Nat) ∈ r.lanes) := by
  unfold GoesTo Receives
  refine ⟨by decide +kernel, by decide +kernel, ⟨by decide +kernel, by decide +kernel, ?_, ?_, ?_, ?_⟩, by decide +kernel, by decide +kernel, by decide⟩
  · rw [if_pos (by decide +kernel), if_pos (by decide +kernel)]
    exact ⟨⟨_, List.mem_cons_self, rfl⟩, fun p hp => by rw [List.mem_singleton.mp hp]; decide⟩
  · rw [if_neg (by decide +kernel), if_pos (by decide +kernel)]
    exact ⟨⟨⟨_, List.mem_cons_self, rfl⟩, fun p hp => by rw [List.mem_singleton.mp hp]; decide⟩, .inl ⟨_, List.mem_cons_self, rfl⟩⟩
  · rw [if_neg (by decide +kernel), if_pos (by decide +kernel)]
    exact ⟨⟨⟨_, List.mem_cons_self, rfl⟩, fun p hp => by rw [List.mem_singleton.mp hp]; decide⟩, .inr ⟨2, by decide +kernel, by decide, rfl⟩⟩
  · rw [if_neg (by decide +kernel), if_pos (by decide +kernel)]
    rintro ⟨-, ⟨p, hp, ht⟩ | ⟨n, -, -, hn⟩⟩
    · rw [List.mem_singleton.mp hp] at ht
      exact absurd ht (by decide)
    · omega

/-- TraceResult: three records buffered, SYNC due, records dropped, and the ring full. RegisterWriteResult: a unit turned off with a record buffered. -/
theorem witness_trace_rows : (let u : TraceUnit := { en := true, all := true, due := false, size := 256, buf := [0, 0, 0] }
      ({ st with trace := [(0, u)] } : State).unit 0 = u ∧ u.on st.ctxid = true ∧ u.buf.length = 3 ∧ ¬ ringFull u ∧ ¬ ringFull { u with due := true } ∧ ringFull { u with size := 3 } ∧
      ¬ ringFull { u with size := 3, wrap := true, dropped := 2 } ∧ u.base.toNat + 16 * u.size.toNat ≤ 576000000000 ∧ (u.en = true ∧ (0x800 : Word).getLsbD 0 = false) ∧ u.buf.length ≤ u.size.toNat) := by
  unfold ringFull
  decide +kernel

/-- RequantResult: a block whose well position is 40. LaunchResult: a block that asks for a window still BUSY. FirmwareReads: a binding entry. HostResult: what the host reads of the queue status and the launch ring. -/
theorem witness_readout : (let r : CmdRun := { index := 0, cmd := BitVec.ofNat 256 (4 + 3 * 2 ^ 12 + 1 * 2 ^ 240), aux := [0, 0], phase := 1, len := 64 }
      bits r.cmd.toNat 0 8 = 4 ∧ bits r.cmd.toNat 12 2 = 3 ∧ r.aux.length = 2 ∧ (chanD r).past = false ∧ 0 < (chanD r).room ∧ (chanD r).total = 0 ∧ ((chanD r).wbase + (chanD r).sent % (chanD r).wsize) % 64 ≠ 0) ∧
    (let s := stL (1 + 2 * 2 ^ 64 + 1160 * 2 ^ 192) [(0, 1), (4, 0x88), (5, 4), (72, 1), (258, 1)]
     let b : LaunchBlock := ⟨s.hbm, 0⟩
     b.nw = 1 ∧ launchStatus { s with windows := [] } b 1160 = 0 ∧ (SMap.get {} [(0, ({ busy := true } : Window))] (b.windowIndex 0)).busy = true) ∧
    (let s : State := { st with bindings := [(65, ⟨64, 7, 6, 1, 9, false⟩)] }
     SMap.find? s.bindings (64 * 1 + 1) = some ⟨64, 7, 6, 1, 9, false⟩ ∧ mgmtRead s (0x80000 + 2048 + 32) = 64 ∧ mgmtRead s (0x80000 + 2048 + 32 + 8) = 7 + 6 * 2 ^ 58 ∧ mgmtRead s (0x80000 + 2048 + 32 + 16) = 1 + 9 * 4) ∧
    hostRead { st with io := { lasth := 5 } } 0x4000 4 = some [5, 0, 0, 0] ∧ hostRead { st with io := { boot := 2 } } 0x4000 4 = none ∧ (hostRead { st with io := { boot := 2 } } 0x4010 8).map bytesNat = some 2 := by decide +kernel

/-- SetvlResult: the producer 9 is unknown; it is on the list and has published nothing, 2 or 5 beyond POS, in both modes. -/
theorem witness_chain : (let h := { hart0 with hwsrc := 0x0000000400000009 }
      let s : State := stH h
      s.markOf s.ctxid 9 = none ∧ ¬ ((∃ y ∈ s.held, y.ctx = s.ctxid ∧ y.rc.id = 9) ∨ ∃ y ∈ s.running, y.ctx = s.ctxid ∧ y.rc.id = 9) ∧
      (∃ y ∈ ({ s with held := [⟨0, 0, 1, false, { rc7 0xFF with id := 9 }⟩] } : State).held, y.ctx = s.ctxid ∧ y.rc.id = 9) ∧
      [(4 : BitVec 32), 6, 9].map (fun m => (({ s with marks := [⟨0, 9, 0, m, false, 1⟩] } : State).markOf s.ctxid 9).map (fun y => (y.ended, y.mark.toNat - 4))) =
        [some (false, 0), some (false, 2), some (false, 5)] ∧
      min (s.hart.rs 3).toNat s.myTile.vlmax = 5 ∧ detmSeen s = false ∧ detmSeen { s with ctxs := stDet.ctxs } = true) := by decide +kernel

/-- FloatSelectRules and FloatConversionRules: two zeros and two infinities in order; a pattern of each class; 3 lies between 2^1 and 2^2; 3 as an integer. QuantiseRule: elements that are 1. -/
theorem witness_select : Precedes (.fin true 0 0) (.fin false 0 5) ∧ Precedes (.inf true) (.inf false) ∧ ¬ Precedes (.inf true) (.inf true) ∧
    [(0xFF800000 : Nat), 0x80000001, 0x80000000, 1, 0x7F800000, 0x7F800001, 0x7FC00000].map (fun p => (fp32.raw p).isNan) = [false, false, false, false, false, true, true] ∧
    (match fp32.raw 0x40400000 with | .fin a m e => !a && m == 0xC00000 && e == -22 | _ => false) = true ∧ (2 : ℝ) ^ (1 : Int) < realOf false 3 0 ∧ realOf false 3 0 < (2 : ℝ) ^ ((1 : Int) + 1) ∧ IntegerOf 1 (realOf false 3 0) 3 ∧
    ((FV.fin false 1 0).isNan = false ∧ ∀ n m e, FV.fin false 1 0 = .fin n m e → -160 ≤ e) := by
  refine ⟨.inr ⟨rfl, rfl, rfl, rfl⟩, ⟨rfl, rfl⟩, fun h => absurd h.2 (by decide), by decide +kernel, by decide +kernel, by norm_num [realOf], by norm_num [realOf], ?_, rfl, ?_⟩
  · refine ⟨fun h => absurd h (by decide), fun _ => by norm_num [realOf], fun h => ?_⟩
    rcases h with h | ⟨-, h⟩
    · exact absurd h (by decide)
    · norm_num [realOf] at h
  · rintro n m e h
    rw [FV.fin.injEq] at h
    omega

/-- VectorAccessTrap: an LD and an ST of w32 whose element 1 lies in a page that is absent. -/
theorem witness_vector_access : (let s := stH { hart0 with mspace := 0, s := [(2, 0x7FFFFFFFFC)] }
    Quiet s = true ∧ (Instr.ld ldAb).wellFormed = true ∧ performed s.hart 1 = true ∧ s.hart.tlvl.toNat < 2 ∧ s.checkSpace s.cur s.hart.mspace (accessAddr s ldAb 1).toNat .read 4 4 false = .bad 6 0 ∧
    s.checkSpace s.cur s.hart.mspace (accessAddr s ldAb 1).toNat .write 4 4 false = .bad 6 0 ∧
    ∀ acc ∈ [Acc.read, .write], Passes s (fun j => decide (j < 1) && performed s.hart j) acc 4 false (accessAddr s ldAb) (fun _ => .hbm 0x7FFFFFFFFC) (fun _ => false)) := by
  refine ⟨by decide +kernel, by decide, by decide +kernel, by decide, by decide +kernel, by decide +kernel, fun acc ha j hj => ?_⟩
  obtain rfl : j = 0 := by simp only [Bool.and_eq_true, decide_eq_true_eq] at hj; omega
  obtain rfl | rfl : acc = .read ∨ acc = .write := by simpa using ha
  · decide +kernel
  · decide +kernel

/-- EmptyOperandTraps: ADD.VS whose s3 is empty, and whose slice 9 is, with each policy. OperandTraps: XSPLIT into the last slices. -/
theorem witness_empty : (let s := stH { hart0 with sFE := ~~~ 8 }
      let z := stH { hart0 with zFE := ~~~ (BitVec.twoPow 64 9) }
      ([true, false].all fun p => decide (operandReads (.add ⟨1, 4, 0, 8, 3, p, p⟩) = some ([(3, p)], [(32, 8, p)])) && (Instr.add ⟨1, 4, 0, 8, 3, p, p⟩).wellFormed) = true ∧
      s.hart.sFull 3 = false ∧ z.hart.sFull 3 = true ∧ (slicesOf 32 8).getLsbD 9 = true ∧ z.hart.zFE.getLsbD 9 = false ∧ z.hart.zFE.getLsbD 8 = true ∧ s.hart.tlvl.toNat < 2 ∧ s.hart.binds = [] ∧
      (sliceOperands (.add ⟨1, 4, 0, 8, 3, false, false⟩)).any (fun o => overruns o.1 o.2.toNat) = false) ∧
    (Instr.xsplit ⟨61, 8, 0, false, false⟩).wellFormed = true ∧ overruns 16 61 = true := by decide +kernel

/-- Binding 3 reads slice 8 at w32 from element d of channel 0, which is x. -/
def stStream (x : Channel) (d : Nat) : State := { stC x with slots := [(0, { slot0 with hart := { hart0 with handles := [(0, 0)], binds := [(3, ⟨8, 4, 0, d, d⟩)] } })] }

/-- StreamReadResult: all elements arrived; not yet, at a live, a FAULTED and a final channel; an overrun not reported; an integer row and a reduction that read the stream. -/
theorem witness_stream : ([(chan0, 0), (chan0, 8), (chan0, 9), ({ chan0 with state := .faulted }, 9), ({ chan0 with state := .ended, final := some 10 }, 9), ({ chan0 with aovr := true }, 9)].all fun e =>
      let s := stStream e.1 e.2
      Ready (s.setHart { s.hart with binds := [] }) && s.wbuf.isEmpty && s.chan 0 == some e.1 && decide (0 < s.hart.len) && decide (8 * 2 ^ e.1.esz = (⟨8, 4, 0, e.2, e.2⟩ : StreamBind).width) &&
      decide (s.hart.eidx.toNat < s.hart.len) && decide (s.hart.tlvl.toNat < 2)) = true ∧
    chan0.arr = 10 ∧ chan0.final = none ∧ ({ chan0 with state := .faulted } : Channel).final = none ∧ ({ chan0 with state := .ended, final := some 10 } : Channel).final = some 10 ∧ chan0.arep = false ∧
    (Instr.add ⟨0, 4, 16, 8, 24, false, false⟩).wellFormed = true ∧ (slicesOf 32 8 &&& slicesOf 32 16) = 0 ∧ (slicesOf 32 8 &&& slicesOf 32 24) = 0 ∧ overruns 32 8 = false ∧ overruns 32 24 = false ∧
    (∃ r, intRow (.add ⟨0, 4, 16, 8, 24, false, false⟩) = some r ∧ r.divides = false) ∧ (Instr.rsum ⟨4, 1, 8, 3, false, false⟩).wellFormed = true ∧
    (∃ v, reduceRow (.rsum ⟨4, 1, 8, 3, false, false⟩) = some (⟨4, 1, 8, 3, false, false⟩, v)) := by
  refine ⟨by decide +kernel, by decide +kernel, by decide +kernel, by decide +kernel, by decide +kernel, rfl, by decide, by decide +kernel, by decide +kernel, by decide, by decide, ⟨_, rfl, rfl⟩, by decide, ⟨_, rfl⟩⟩

/-- DataCommandResult and RequantResult: a block of REQUANT delivered at a well position that is a multiple of 64, and in memory; its header's three bytes. -/
theorem witness_requant_delivery : (let m (dsp : Nat) := BitVec.ofNat 256 (4 + dsp * 2 ^ 12 + 4096 * 2 ^ 72 + 0x2000 * 2 ^ 184 + 1 * 2 ^ 240)
      let r : CmdRun := { index := 0, cmd := m 0, aux := [0, 0], phase := 1, len := 64, buf := 0x41 }
      let w : CmdRun := { r with cmd := m 3 }
      let h : CmdRun := { r with phase := 2, have_ := 64 }
      let x : Channel := { chanD w with landed := 0, sent := 0 }
      r.dstAddr = 4096 ∧ pumpCheck (stC (chanD r)) 0 (chanD r) 0 4096 .write 64 64 = .go (.hbm 4096) false ∧ peerOf (stC (chanD r)) 0 (chanD r) 0 4096 = none ∧
      x.past = false ∧ (x.wbase + x.sent % x.wsize) % 64 = 0 ∧ w.len ≤ (x.rel + x.wsize / 2 ^ x.esz) * 2 ^ x.esz - x.sent ∧ w.len ≤ 64 - x.sent % 64 ∧
      pumpCheck (stC x) 0 x 1 (x.wbase + x.sent % x.wsize) .write 64 1 = .go (.cis 0) false ∧
      bits h.cmd.toNat 184 56 = 0x2000 ∧ pumpCheck (stC (chanD h)) 0 (chanD h) 0 (0x2000 + 16) .write 3 1 = .go (.hbm 0x2010) false ∧ peerOf (stC (chanD h)) 0 (chanD h) 0 0x2000 = none) := by decide +kernel

/-- LaunchResult and HostResult: the stack of the list, the stack of the block and the host port not READY; EgressResult: no part closed, and all; RegisterWriteResult: tracing turned on, and SIZE made legal;
SyncObjectResult and PrivilegedRegisters: no tails taken at dispatch, no write unacknowledged. -/
theorem witness_waits_on_parts : st.fnReady (State.stackFn 64) = true ∧ st.fnReady 320 = true ∧ State.reset.fnReady 320 = false ∧ State.reset.fnFailed 320 = false ∧
    State.reset.fnReady (State.stackFn 64) = false ∧ State.reset.fnFailed (State.stackFn 64) = false ∧
    (∃ p ∈ (roundO desc2).parts, p.closeRead = false) ∧ (∀ p ∈ ({ roundO desc2 with parts := [{ part0 with closed := true, closeRead := true }] } : Round).parts, p.closeRead = true) ∧
    LegalSize { size := 256 } ∧ ¬ LegalSize {} ∧ st.hart.queue.head?.bind (·.tails) = none ∧ st.unackedWrites st.cur = false := by
  refine ⟨by decide +kernel, by decide +kernel, by decide +kernel, by decide +kernel, by decide +kernel, by decide +kernel, ⟨_, List.mem_cons_self, rfl⟩, by decide +kernel,
    ⟨8, by decide, by decide, rfl⟩, ?_, rfl, by decide +kernel⟩
  rintro ⟨e, he, -, h⟩
  exact absurd h (by show (0 : Nat) ≠ 2 ^ e; positivity)

end Sys2Proof.Tests
end

section
/-! O11, O12. The encoding laws of every row, in both directions: a word is the fields its layout cuts, and what a row's decoding fixes of them
is what its encoding writes. -/

namespace Sys2Proof.Proofs
open Sys2Proof Sys2Proof.Laws

/-! ## Fields of a word -/

theorem fld_append (x : IWord) (lo m n : Nat) : fld x lo (m + n) = fld x (lo + n) m ++ fld x lo n := by
  apply BitVec.eq_of_toNat_eq
  rw [append_toNat, fld_toNat, fld_toNat, fld_toNat, Nat.add_comm m n, Nat.pow_add, Nat.mod_mul, Nat.div_div_eq_div_mul, ← Nat.pow_add]
  rw [Nat.mul_comm]
  omega

theorem fld_one (x : IWord) (lo : Nat) : fld x lo 1 = BitVec.ofBool (bit x lo) := by
  apply BitVec.eq_of_toNat_eq
  rw [fld_toNat, BitVec.toNat_ofBool, bit_eq]
  rcases Nat.mod_two_eq_zero_or_one (x.toNat / 2 ^ lo) with h | h <;> simp [h]

theorem append_eq_iff {m n : Nat} (u : BitVec m) (v : BitVec n) (c : BitVec (m + n)) :
    u ++ v = c ↔ u = c.extractLsb' n m ∧ v = c.extractLsb' 0 n := by
  constructor
  · rintro rfl
    exact ⟨(cut_hi u v).symm, (cut_lo u v).symm⟩
  · rintro ⟨rfl, rfl⟩
    apply BitVec.eq_of_toNat_eq
    have := c.isLt
    rw [append_toNat, cut_toNat, cut_toNat, Nat.pow_zero, Nat.div_one, Nat.mod_eq_of_lt (a := _ / _), Nat.div_add_mod']
    rwa [Nat.div_lt_iff_lt_mul (Nat.two_pow_pos n), ← Nat.pow_add]

theorem fld_eq_append (x : IWord) (lo m n : Nat) (c : BitVec m) : fld x lo (m + n) = c ++ fld x lo n ↔ fld x (lo + n) m = c := by
  rw [fld_append, append_eq_iff, cut_hi, cut_lo]
  simp

theorem raw_fields (x : IWord) :
    raw (fld x 25 7) (fld x 23 2) (fld x 20 3) (fld x 14 6) (fld x 8 6) (fld x 2 6) (bit x 1) (bit x 0) = x := by
  apply BitVec.eq_of_toNat_eq
  have hb : ∀ lo, (bit x lo).toNat = x.toNat / 2 ^ lo % 2 := fun lo => by
    rw [bit_eq]
    rcases Nat.mod_two_eq_zero_or_one (x.toNat / 2 ^ lo) with h | h <;> simp [h]
  rw [raw_toNat]
  simp only [fld_toNat, hb]
  have := x.isLt
  omega

@[simp] theorem raw_eq_iff (x : IWord) (op : BitVec 7) (f : BitVec 2) (w : BitVec 3) (d a b : BitVec 6) (p q : Bool) :
    raw op f w d a b p q = x ↔ fld x 25 7 = op ∧ fld x 23 2 = f ∧ fld x 20 3 = w ∧ fld x 14 6 = d ∧ fld x 8 6 = a ∧ fld x 2 6 = b ∧
      bit x 1 = p ∧ bit x 0 = q := by
  constructor
  · rintro rfl
    exact ⟨raw_op .., raw_f .., raw_w .., raw_d .., raw_a .., raw_b .., raw_p .., raw_q ..⟩
  · rintro ⟨rfl, rfl, rfl, rfl, rfl, rfl, rfl, rfl⟩
    exact raw_fields x

@[simp] theorem packB_eq_iff (x : IWord) (op : BitVec 7) (c : BitVec 3) (a b : BitVec 6) (o : BitVec 10) :
    packB op c a b o = x ↔ fld x 25 7 = op ∧ fld x 22 3 = c ∧ fld x 16 6 = a ∧ fld x 10 6 = b ∧ fld x 0 10 = o := by
  constructor
  · rintro rfl
    exact ⟨packB_op .., packB_c .., packB_a .., packB_b .., packB_o ..⟩
  · rintro ⟨rfl, rfl, rfl, rfl, rfl⟩
    apply BitVec.eq_of_toNat_eq
    rw [packB_toNat]
    simp only [fld_toNat]
    have := x.isLt
    omega

@[simp] theorem packI_eq_iff (x : IWord) (op : BitVec 7) (d : BitVec 6) (i : BitVec 19) :
    packI op d i = x ↔ fld x 25 7 = op ∧ fld x 19 6 = d ∧ fld x 0 19 = i := by
  constructor
  · rintro rfl
    exact ⟨packI_op .., packI_d .., packI_i ..⟩
  · rintro ⟨rfl, rfl, rfl⟩
    apply BitVec.eq_of_toNat_eq
    rw [packI_toNat]
    simp only [fld_toNat]
    have := x.isLt
    omega

theorem fld_eq_iff (x : IWord) (lo m n : Nat) (c : BitVec (m + n)) :
    fld x lo (m + n) = c ↔ fld x (lo + n) m = c.extractLsb' n m ∧ fld x lo n = c.extractLsb' 0 n := by
  rw [fld_append, append_eq_iff]

@[simp] theorem fld_one_eq_zero (x : IWord) (lo : Nat) : fld x lo 1 = 0#1 ↔ bit x lo = false := by
  rw [fld_one]
  cases bit x lo <;> decide

@[simp] theorem fld_0_2_eq_iff (x : IWord) (c : BitVec 2) :
    fld x 0 2 = c ↔ fld x 1 1 = c.extractLsb' 1 1 ∧ fld x 0 1 = c.extractLsb' 0 1 := fld_eq_iff x 0 1 1 c
@[simp] theorem fld_0_5_eq_iff (x : IWord) (c : BitVec 5) :
    fld x 0 5 = c ↔ fld x 2 3 = c.extractLsb' 2 3 ∧ fld x 0 2 = c.extractLsb' 0 2 := fld_eq_iff x 0 3 2 c
@[simp] theorem fld_0_14_eq_iff (x : IWord) (c : BitVec 14) :
    fld x 0 14 = c ↔ fld x 2 12 = c.extractLsb' 2 12 ∧ fld x 0 2 = c.extractLsb' 0 2 := fld_eq_iff x 0 12 2 c
@[simp] theorem fld_0_20_eq_iff (x : IWord) (c : BitVec 20) :
    fld x 0 20 = c ↔ fld x 14 6 = c.extractLsb' 14 6 ∧ fld x 0 14 = c.extractLsb' 0 14 := fld_eq_iff x 0 6 14 c
@[simp] theorem fld_0_25_eq_iff (x : IWord) (c : BitVec 25) :
    fld x 0 25 = c ↔ fld x 20 5 = c.extractLsb' 20 5 ∧ fld x 0 20 = c.extractLsb' 0 20 := fld_eq_iff x 0 5 20 c
@[simp] theorem fld_8_12_eq_iff (x : IWord) (c : BitVec 12) :
    fld x 8 12 = c ↔ fld x 14 6 = c.extractLsb' 6 6 ∧ fld x 8 6 = c.extractLsb' 0 6 := fld_eq_iff x 8 6 6 c
@[simp] theorem fld_8_17_eq_iff (x : IWord) (c : BitVec 17) :
    fld x 8 17 = c ↔ fld x 20 5 = c.extractLsb' 12 5 ∧ fld x 8 12 = c.extractLsb' 0 12 := fld_eq_iff x 8 5 12 c
@[simp] theorem fld_14_11_eq_iff (x : IWord) (c : BitVec 11) :
    fld x 14 11 = c ↔ fld x 20 5 = c.extractLsb' 6 5 ∧ fld x 14 6 = c.extractLsb' 0 6 := fld_eq_iff x 14 5 6 c
@[simp] theorem fld_20_5_eq_iff (x : IWord) (c : BitVec 5) :
    fld x 20 5 = c ↔ fld x 23 2 = c.extractLsb' 3 2 ∧ fld x 20 3 = c.extractLsb' 0 3 := fld_eq_iff x 20 2 3 c
@[simp] theorem fld_21_4_eq_iff (x : IWord) (c : BitVec 4) :
    fld x 21 4 = c ↔ fld x 23 2 = c.extractLsb' 2 2 ∧ fld x 21 2 = c.extractLsb' 0 2 := fld_eq_iff x 21 2 2 c

@[simp] theorem fld_14_6_eq_append (x : IWord) (c : BitVec 4) : fld x 14 6 = c ++ fld x 14 2 ↔ fld x 16 4 = c := fld_eq_append x 14 4 2 c
@[simp] theorem fld_2_6_eq_append2 (x : IWord) (c : BitVec 2) : fld x 2 6 = c ++ fld x 2 4 ↔ fld x 6 2 = c := fld_eq_append x 2 2 4 c
@[simp] theorem fld_2_6_eq_append3 (x : IWord) (c : BitVec 3) : fld x 2 6 = c ++ fld x 2 3 ↔ fld x 5 3 = c := fld_eq_append x 2 3 3 c
@[simp] theorem fld_2_6_append_eq (x : IWord) (c : BitVec 3) : fld x 2 6 = fld x 5 3 ++ c ↔ fld x 2 3 = c := by
  rw [fld_append x 2 3 3, append_eq_iff, cut_hi, cut_lo]
  simp
@[simp] theorem fld_20_3_eq_append (x : IWord) (c : BitVec 2) : fld x 20 3 = c ++ BitVec.ofBool (bit x 20) ↔ fld x 21 2 = c := by
  rw [← fld_one]
  exact fld_eq_append x 20 2 1 c
@[simp] theorem fld_2_12_eq_iff (x : IWord) (c : BitVec 12) :
    fld x 2 12 = c ↔ fld x 8 6 = c.extractLsb' 6 6 ∧ fld x 2 6 = c.extractLsb' 0 6 := fld_eq_iff x 2 6 6 c

@[simp] theorem fld_2_12_cut_hi (x : IWord) : (fld x 2 12).extractLsb' 6 6 = fld x 8 6 := by
  rw [fld_append x 2 6 6, cut_hi]
@[simp] theorem fld_2_12_cut_lo (x : IWord) : (fld x 2 12).extractLsb' 0 6 = fld x 2 6 := by
  rw [fld_append x 2 6 6, cut_lo]

/-! ## Encoding what a word decodes to -/

theorem encode_of_decodeEsc7C {x : IWord} {n : Nat} {i : Instr} (hop : fld x 25 7 = 0x7C#7) (hn : fld x 20 5 = BitVec.ofNat 5 n)
    (h : decodeEsc7C n x = .ok i) : encode i = some x := by
  unfold decodeEsc7C at h
  split at h
  all_goals try split_ifs at h
  all_goals cases h
  all_goals simp_all [encode, unArgsMldb, unArgsMm, unArgsMrd, unArgsS, unArgsD, unArgsK]

theorem encode_of_decodeEsc7D {x : IWord} {n : Nat} {i : Instr} (hop : fld x 25 7 = 0x7D#7) (hn : fld x 20 5 = BitVec.ofNat 5 n)
    (h : decodeEsc7D n x = .ok i) : encode i = some x := by
  unfold decodeEsc7D at h
  split at h
  all_goals try split_ifs at h
  all_goals cases h
  all_goals simp_all [encode, unArgsD, unArgsT, unArgsPb, unArgsQ, unArgsK]

theorem encode_of_decodeEsc7E {x : IWord} {n : Nat} {i : Instr} (hop : fld x 25 7 = 0x7E#7) (hn : fld x 20 5 = BitVec.ofNat 5 n)
    (h : decodeEsc7E n x = .ok i) : encode i = some x := by
  unfold decodeEsc7E at h
  split at h
  all_goals try split_ifs at h
  all_goals cases h
  all_goals simp_all [encode, unArgsD, unArgsT, unArgsS, unArgsQ]

theorem encode_of_decodeEsc7F {x : IWord} {n : Nat} {i : Instr} (hop : fld x 25 7 = 0x7F#7) (hn : fld x 20 5 = BitVec.ofNat 5 n)
    (h : decodeEsc7F n x = .ok i) : encode i = some x := by
  unfold decodeEsc7F at h
  split at h
  all_goals try split_ifs at h
  all_goals cases h
  all_goals simp_all [encode, unArgsCr, unArgsMtcr, unArgsS, unArgsD, unArgsW, unArgsTr]

theorem encode_of_decodeMlog {x : IWord} {n : Nat} {i : Instr} (hop : fld x 25 7 = 0x5B#7) (hf : fld x 23 2 = 0#2) (hlt : n < 8)
    (hn : fld x 20 3 = BitVec.ofNat 3 n) (h : decodeMlog n x = .ok i) : encode i = some x := by
  interval_cases n
  all_goals simp only [decodeMlog] at h
  all_goals try split_ifs at h
  all_goals cases h
  all_goals simp_all [encode, unArgsT, unArgsD]

theorem encode_of_decodeOp {x : IWord} {n : Nat} {i : Instr} (hop : fld x 25 7 = BitVec.ofNat 7 n)
    (h : decodeOp n x = .ok i) : encode i = some x := by
  unfold decodeOp at h
  split at h
  case h_123 =>
    split_ifs at h with hf
    exact encode_of_decodeMlog hop (not_not.mp hf) (BitVec.isLt _) (by simp) h
  case h_124 => exact encode_of_decodeEsc7C hop (by simp) h
  case h_125 => exact encode_of_decodeEsc7D hop (by simp) h
  case h_126 => exact encode_of_decodeEsc7E hop (by simp) h
  case h_127 => exact encode_of_decodeEsc7F hop (by simp) h
  all_goals try split_ifs at h
  all_goals cases h
  all_goals simp_all [encode, unArgsA, unArgsB, unArgsBrm, unArgsC, unArgsD, unArgsG, unArgsI, unArgsJ, unArgsL, unArgsM, unArgsN, unArgsP, unArgsQ, unArgsR, unArgsRel, unArgsS, unArgsStq, unArgsT, unArgsU]

theorem encode_of_decode {x : IWord} {i : Instr} (h : decode x = .ok i) : encode i = some x :=
  encode_of_decodeOp (by simp) h

/-- Every row with a word decodes back by its own law; an event row has no word. -/
theorem decode_encode (i : Instr) : RoundTrip.Statement i := by
  cases i with
  | add x => exact RoundTrip.add x
  | sub x => exact RoundTrip.sub x
  | adds x => exact RoundTrip.adds x
  | addsu x => exact RoundTrip.addsu x
  | subs x => exact RoundTrip.subs x
  | subsu x => exact RoundTrip.subsu x
  | mul x => exact RoundTrip.mul x
  | mulh x => exact RoundTrip.mulh x
  | mulhu x => exact RoundTrip.mulhu x
  | mac x => exact RoundTrip.mac x
  | div x => exact RoundTrip.div x
  | divu x => exact RoundTrip.divu x
  | rem x => exact RoundTrip.rem x
  | remu x => exact RoundTrip.remu x
  | min x => exact RoundTrip.min x
  | minu x => exact RoundTrip.minu x
  | max x => exact RoundTrip.max x
  | maxu x => exact RoundTrip.maxu x
  | abs x => exact RoundTrip.abs x
  | neg x => exact RoundTrip.neg x
  | wadd x => exact RoundTrip.wadd x
  | waddu x => exact RoundTrip.waddu x
  | wmul x => exact RoundTrip.wmul x
  | wmulu x => exact RoundTrip.wmulu x
  | wmac x => exact RoundTrip.wmac x
  | wmacu x => exact RoundTrip.wmacu x
  | narrow x => exact RoundTrip.narrow x
  | narrowu x => exact RoundTrip.narrowu x
  | and x => exact RoundTrip.and x
  | or x => exact RoundTrip.or x
  | xor x => exact RoundTrip.xor x
  | andn x => exact RoundTrip.andn x
  | sll x => exact RoundTrip.sll x
  | srl x => exact RoundTrip.srl x
  | sra x => exact RoundTrip.sra x
  | rotr x => exact RoundTrip.rotr x
  | popc x => exact RoundTrip.popc x
  | clz x => exact RoundTrip.clz x
  | cmpeq x => exact RoundTrip.cmpeq x
  | cmpne x => exact RoundTrip.cmpne x
  | cmplt x => exact RoundTrip.cmplt x
  | cmpltu x => exact RoundTrip.cmpltu x
  | cmple x => exact RoundTrip.cmple x
  | cmpleu x => exact RoundTrip.cmpleu x
  | sel x => exact RoundTrip.sel x
  | mov x => exact RoundTrip.mov x
  | sext x => exact RoundTrip.sext x
  | zext x => exact RoundTrip.zext x
  | fadd x => exact RoundTrip.fadd x
  | fsub x => exact RoundTrip.fsub x
  | fmul x => exact RoundTrip.fmul x
  | fma x => exact RoundTrip.fma x
  | fms x => exact RoundTrip.fms x
  | fnma x => exact RoundTrip.fnma x
  | fdiv x => exact RoundTrip.fdiv x
  | fsqrt x => exact RoundTrip.fsqrt x
  | frsq x => exact RoundTrip.frsq x
  | fexp2 x => exact RoundTrip.fexp2 x
  | flog2 x => exact RoundTrip.flog2 x
  | fmin x => exact RoundTrip.fmin x
  | fmax x => exact RoundTrip.fmax x
  | fcmpeq x => exact RoundTrip.fcmpeq x
  | fcmplt x => exact RoundTrip.fcmplt x
  | fcmple x => exact RoundTrip.fcmple x
  | fcvt x => exact RoundTrip.fcvt x
  | fcvti x => exact RoundTrip.fcvti x
  | fcvtf x => exact RoundTrip.fcvtf x
  | fabs x => exact RoundTrip.fabs x
  | fneg x => exact RoundTrip.fneg x
  | fclass x => exact RoundTrip.fclass x
  | rsum x => exact RoundTrip.rsum x
  | rmin x => exact RoundTrip.rmin x
  | rminu x => exact RoundTrip.rminu x
  | rmax x => exact RoundTrip.rmax x
  | rmaxu x => exact RoundTrip.rmaxu x
  | rand x => exact RoundTrip.rand x
  | ror x => exact RoundTrip.ror x
  | rxor x => exact RoundTrip.rxor x
  | frsum x => exact RoundTrip.frsum x
  | frmin x => exact RoundTrip.frmin x
  | frmax x => exact RoundTrip.frmax x
  | scan x => exact RoundTrip.scan x
  | fscan x => exact RoundTrip.fscan x
  | compress x => exact RoundTrip.compress x
  | expand x => exact RoundTrip.expand x
  | nzscan x => exact RoundTrip.nzscan x
  | iota x => exact RoundTrip.iota x
  | slideup x => exact RoundTrip.slideup x
  | slidedn x => exact RoundTrip.slidedn x
  | perm x => exact RoundTrip.perm x
  | mlogAnd x => exact RoundTrip.mlogAnd x
  | mlogOr x => exact RoundTrip.mlogOr x
  | mlogXor x => exact RoundTrip.mlogXor x
  | mlogAndn x => exact RoundTrip.mlogAndn x
  | mlogNot x => exact RoundTrip.mlogNot x
  | mlogCopy x => exact RoundTrip.mlogCopy x
  | mlogSet d => exact RoundTrip.mlogSet d
  | mlogClr d => exact RoundTrip.mlogClr d
  | mcnt x => exact RoundTrip.mcnt x
  | mfirst x => exact RoundTrip.mfirst x
  | mfrom x => exact RoundTrip.mfrom x
  | mto x => exact RoundTrip.mto x
  | ld x => exact RoundTrip.ld x
  | st x => exact RoundTrip.st x
  | ldq x => exact RoundTrip.ldq x
  | stq x => exact RoundTrip.stq x
  | tld x => exact RoundTrip.tld x
  | tst x => exact RoundTrip.tst x
  | aadd x => exact RoundTrip.aadd x
  | afadd x => exact RoundTrip.afadd x
  | amax x => exact RoundTrip.amax x
  | amin x => exact RoundTrip.amin x
  | aswap x => exact RoundTrip.aswap x
  | acas x => exact RoundTrip.acas x
  | acq x => exact RoundTrip.acq x
  | rel x => exact RoundTrip.rel x
  | fence scope => exact RoundTrip.fence scope
  | qfence x => exact RoundTrip.qfence x
  | bind x => exact RoundTrip.bind x
  | unbind x => exact RoundTrip.unbind x
  | gbar x => exact RoundTrip.gbar x
  | br x => exact RoundTrip.br x
  | brm x => exact RoundTrip.brm x
  | brs x => exact RoundTrip.brs x
  | jal x => exact RoundTrip.jal x
  | jalr x => exact RoundTrip.jalr x
  | li x => exact RoundTrip.li x
  | lis x => exact RoundTrip.lis x
  | setvl x => exact RoundTrip.setvl x
  | convoy => exact RoundTrip.convoy
  | mldb x => exact RoundTrip.mldb x
  | mldbI8 x => exact RoundTrip.mldbI8 x
  | mmo x => exact RoundTrip.mmo x
  | mmf x => exact RoundTrip.mmf x
  | mmi x => exact RoundTrip.mmi x
  | mrd x => exact RoundTrip.mrd x
  | mclr x => exact RoundTrip.mclr x
  | mclaim x => exact RoundTrip.mclaim x
  | mfree x => exact RoundTrip.mfree x
  | viewld x => exact RoundTrip.viewld x
  | viewst x => exact RoundTrip.viewst x
  | viewset x => exact RoundTrip.viewset x
  | pgoOpen x => exact RoundTrip.pgoOpen x
  | pgoTail x => exact RoundTrip.pgoTail x
  | pbind x => exact RoundTrip.pbind x
  | punbind k => exact RoundTrip.punbind k
  | prel x => exact RoundTrip.prel x
  | pwait x => exact RoundTrip.pwait x
  | pstat x => exact RoundTrip.pstat x
  | phalt x => exact RoundTrip.phalt x
  | xopen x => exact RoundTrip.xopen x
  | xsort x => exact RoundTrip.xsort x
  | xsend x => exact RoundTrip.xsend x
  | xclose x => exact RoundTrip.xclose x
  | xrecv x => exact RoundTrip.xrecv x
  | xsplit x => exact RoundTrip.xsplit x
  | xsamp x => exact RoundTrip.xsamp x
  | xrbal x => exact RoundTrip.xrbal x
  | xwait x => exact RoundTrip.xwait x
  | xdone x => exact RoundTrip.xdone x
  | mfcr x => exact RoundTrip.mfcr x
  | mtcr x => exact RoundTrip.mtcr x
  | ecall x => exact RoundTrip.ecall x
  | tret => exact RoundTrip.tret
  | taskq x => exact RoundTrip.taskq x
  | taskend => exact RoundTrip.taskend
  | hwmpub x => exact RoundTrip.hwmpub x
  | yield x => exact RoundTrip.yield x
  | waitf x => exact RoundTrip.waitf x
  | trace x => exact RoundTrip.trace x
  | bkpt b => exact RoundTrip.bkpt b
  | ckill x => exact RoundTrip.ckill x
  | savectx x => exact RoundTrip.savectx x
  | _ => exact RoundTrip.of_none rfl

/-- Settles O11: each row's own law for the one direction, and for the other the fields that a row's word fixes. -/
theorem roundTrip : Obligations.RoundTrip := by
  unfold Obligations.RoundTrip
  exact ⟨fun i w hwf hw => decode_encode i hwf w hw, fun i w hw _ => encode_of_decode hw⟩

/-- Settles O12: seven closed words, evaluated. -/
theorem sampleWordsDecode : Obligations.SampleWordsDecode := by
  unfold Obligations.SampleWordsDecode Spec.sampleWords
  decide
end Sys2Proof.Proofs
end

section
/-! O16. Every operation of the model keeps the PCs, the saved PCs and the held entries multiples of 4: one lemma per
operation, in the model's order. Only the operations that write a PC, a saved PC or an entry have an argument of their own; the proof of any
other names the lemmas of the operations that it calls, and `grind` goes through its branches. -/

namespace Sys2Proof.Proofs
open Sys2Proof Sys2Proof.Machine Sys2Proof.Spec

-- `grind` waits for the proofs of the lemmas that it is given: elaborated one after another, none waits.
set_option Elab.async false

/-! ## The invariant, part by part -/

/-- Bits 1:0 of a word are zero (R15). -/
def Aligned4 (x : Word) : Prop := x.extractLsb' 0 2 = 0

/-- The PC of a hart and its saved PCs. -/
def HartAligned (h : Hart) : Prop := Aligned4 h.pc ∧ Aligned4 h.bank1.epc ∧ Aligned4 h.bank2.epc

/-- The harts of a slot table. -/
def SlotsAligned (m : SMap Slot) : Prop := ∀ k, HartAligned (SMap.get {} m k).hart

/-- The entries of the held tasks. -/
def HeldAligned (l : List Held) : Prop := ∀ e ∈ l, Aligned4 e.rc.entry

/-- The invariant at the state that a meaning comes to. -/
def ResAligned : Res → Prop
  | .ok s | .trap _ _ _ _ s | .wait s => PcAligned s

/-- The invariant at the state that a move comes to. -/
def OutAligned : Out → Prop
  | .next s => PcAligned s
  | _ => True

theorem pcAligned_iff (s : State) : PcAligned s ↔ SlotsAligned s.slots ∧ HeldAligned s.held := Iff.rfl

@[simp] theorem resAligned_ok (s : State) : ResAligned (.ok s) ↔ PcAligned s := Iff.rfl
@[simp] theorem resAligned_trap (c i : Nat) (v : Word) (w : Nat) (s : State) : ResAligned (.trap c i v w s) ↔ PcAligned s := Iff.rfl
@[simp] theorem resAligned_wait (s : State) : ResAligned (.wait s) ↔ PcAligned s := Iff.rfl
@[simp] theorem outAligned_next (s : State) : OutAligned (.next s) ↔ PcAligned s := Iff.rfl

section
variable {s : State} {h : Hart}

theorem hartAligned_slot (hs : PcAligned s) (k : Nat) : HartAligned (s.slot k).hart := hs.1 k
theorem hartAligned_hart (hs : PcAligned s) : HartAligned s.hart := hs.1 s.cur
@[simp] theorem HartAligned.bank1 (hh : HartAligned h) : Aligned4 h.bank1.epc := hh.2.1
@[simp] theorem HartAligned.bank2 (hh : HartAligned h) : Aligned4 h.bank2.epc := hh.2.2

end

/-! ## Words -/

theorem aligned4_iff (x : Word) : Aligned4 x ↔ x.toNat % 4 = 0 := by
  rw [Aligned4, ← BitVec.toNat_inj, Laws.cut_toNat]
  simp

theorem aligned4_add {x y : Word} (hx : Aligned4 x) (hy : Aligned4 y) : Aligned4 (x + y) := by
  rw [aligned4_iff] at *
  rw [BitVec.toNat_add]
  omega

theorem aligned4_four : Aligned4 4#64 := rfl

theorem aligned4_word (v : Int) : Aligned4 (word (4 * v)) := by
  rw [aligned4_iff, word, BitVec.toNat_ofInt]
  omega

theorem aligned4_mask (x : Word) : Aligned4 (x &&& ~~~ 3) := by
  rw [Aligned4, BitVec.extractLsb'_and, show (~~~ 3 : Word).extractLsb' 0 2 = 0#2 by decide, BitVec.and_zero]
  rfl

theorem aligned4_append (x : BitVec 62) : Aligned4 (x ++ 0#2) := Laws.cut_lo x 0#2

theorem aligned4_vector (h : Hart) (n : Nat) : Aligned4 (h.vector n) := by
  refine aligned4_add (aligned4_append _) ?_
  rw [aligned4_iff, BitVec.toNat_ofNat]
  omega

/-! ## Slots and harts -/

theorem slotsAligned_set {m : SMap Slot} {k : Nat} {v : Slot} (hm : SlotsAligned m) (hv : HartAligned v.hart) :
    SlotsAligned (SMap.set {} m k v) := by
  intro j
  rw [SMap.get_set]
  split
  · exact hv
  · exact hm j

theorem pcAligned_setSlot {s : State} {k : Nat} {v : Slot} (hs : PcAligned s) (hv : HartAligned v.hart) :
    PcAligned (s.setSlot k v) := ⟨slotsAligned_set hs.1 hv, hs.2⟩

theorem pcAligned_setHart {s : State} {h : Hart} (hs : PcAligned s) (hh : HartAligned h) : PcAligned (s.setHart h) :=
  pcAligned_setSlot hs hh

theorem pcAligned_setHartOf {s : State} {k : Nat} {h : Hart} (hs : PcAligned s) (hh : HartAligned h) :
    PcAligned (s.setHartOf k h) := pcAligned_setSlot hs hh

/-! ## Choices and repetitions -/

theorem pcAligned_ite {c : Prop} [Decidable c] {s t : State} (hs : c → PcAligned s) (ht : ¬ c → PcAligned t) :
    PcAligned (if c then s else t) := by
  split
  · exact hs ‹_›
  · exact ht ‹_›

theorem outAligned_ite {c : Prop} [Decidable c] {r q : Out} (hr : c → OutAligned r) (hq : ¬ c → OutAligned q) :
    OutAligned (if c then r else q) := by
  split
  · exact hr ‹_›
  · exact hq ‹_›

theorem hartAligned_ite {c : Prop} [Decidable c] {h g : Hart} (hh : c → HartAligned h) (hg : ¬ c → HartAligned g) :
    HartAligned (if c then h else g) := by
  split
  · exact hh ‹_›
  · exact hg ‹_›

theorem foldl_keeps {α β : Type} {P : β → Prop} {f : β → α → β} (hf : ∀ b x, P b → P (f b x)) (l : List α) {b : β} (hb : P b) :
    P (l.foldl f b) := by
  induction l generalizing b with
  | nil => exact hb
  | cons x l ih => exact ih (hf b x hb)

theorem foldRange_keeps {β : Type} {P : β → Prop} {f : Nat → β → β} (hf : ∀ i b, P b → P (f i b)) (lo n : Nat) {b : β} (hb : P b) :
    P (foldRange f lo n b) := by
  induction n generalizing lo b with
  | zero => exact hb
  | succ n ih => exact ih (lo + 1) (hf lo b hb)

theorem pcAligned_foldl {α : Type} {f : State → α → State} {l : List α} {s : State} (hs : PcAligned s)
    (hf : ∀ t x, PcAligned t → PcAligned (f t x)) : PcAligned (l.foldl f s) := foldl_keeps hf l hs

theorem pcAligned_foldRange {f : Nat → State → State} {lo n : Nat} {s : State} (hs : PcAligned s)
    (hf : ∀ i t, PcAligned t → PcAligned (f i t)) : PcAligned (foldRange f lo n s) := foldRange_keeps hf lo n hs

theorem hartAligned_foldl {α : Type} {f : Hart → α → Hart} {l : List α} {h : Hart} (hh : HartAligned h)
    (hf : ∀ t x, HartAligned t → HartAligned (f t x)) : HartAligned (l.foldl f h) := foldl_keeps hf l hh

theorem heldAligned_filter {l : List Held} (p : Held → Bool) (h : HeldAligned l) : HeldAligned (l.filter p) :=
  fun e he => h e (List.mem_of_mem_filter he)

/-! ## Registers -/

theorem setCtx_aligned (s : State) (c : BitVec 6) (v : Ctx) (hs : PcAligned s) : PcAligned (State.setCtx s c v) := hs

theorem setTile_aligned (s : State) (t : Nat) (v : Tile) (hs : PcAligned s) : PcAligned (State.setTile s t v) := hs

theorem tick_aligned (s : State) (hs : PcAligned s) : PcAligned (State.tick s) := hs

theorem ws_aligned (h : Hart) (n : BitVec 6) (v : Word) (hh : HartAligned h) : HartAligned (Hart.ws h n v) :=
  hartAligned_ite (fun _ => hh) fun _ => hh

theorem wm_aligned (h : Hart) (n : Nat) (v : Mask) (hh : HartAligned h) : HartAligned (Hart.wm h n v) := hh

theorem wv_aligned (h : Hart) (n : Nat) (x : View) (hh : HartAligned h) : HartAligned (Hart.wv h n x) := hh

theorem bank_aligned (h : Hart) (n : Nat) (hh : HartAligned h) : Aligned4 (h.bank n).epc := by
  unfold Hart.bank
  split <;> simp [hh]

theorem setBank_aligned (h : Hart) (n : Nat) (b : Bank) (hh : HartAligned h) (hb : Aligned4 b.epc) : HartAligned (Hart.setBank h n b) := by
  unfold Hart.setBank
  grind [HartAligned]

theorem retire_aligned (h : Hart) (hh : HartAligned h) : HartAligned h.retire := ⟨aligned4_add hh.1 aligned4_four, hh.2⟩

theorem retireTo_aligned (h : Hart) (pc : Word) (hh : HartAligned h) (hp : Aligned4 pc) : HartAligned (h.retireTo pc) := ⟨hp, hh.2⟩

theorem orFlags_aligned (h : Hart) (f : Flags) (hh : HartAligned h) : HartAligned (Hart.orFlags h f) := hh

theorem orSat_aligned (h : Hart) (sat : Mask) (hh : HartAligned h) : HartAligned (Hart.orSat h sat) := by
  unfold Hart.orSat
  grind [wm_aligned]

/-! ## Memory and read copies -/

theorem noteMiss_aligned (s : State) (unit : Nat) (c : BitVec 6) (va : Nat) (hs : PcAligned s) :
    PcAligned (State.noteMiss s unit c va) := by
  unfold State.noteMiss
  grind [pcAligned_iff]

theorem forgetWalks_aligned (s : State) (unit : Nat) (c : BitVec 6) (hs : PcAligned s) : PcAligned (State.forgetWalks s unit c) := hs

theorem noteSpace_aligned (s : State) (k : Nat) (space : BitVec 2) (a : Nat) (hs : PcAligned s) :
    PcAligned (State.noteSpace s k space a) := by
  unfold State.noteSpace
  grind [noteMiss_aligned]

theorem homeWrite_aligned (s : State) (loc : Loc) (n v : Nat) (hs : PcAligned s) : PcAligned (State.homeWrite s loc n v) := by
  unfold State.homeWrite
  grind [pcAligned_iff]

theorem dropCopies_aligned (s : State) (k : Nat) (loc : Loc) (n : Nat) (hs : PcAligned s) : PcAligned (State.dropCopies s k loc n) := hs

theorem dropEarly_aligned (s : State) (k : Nat) (hs : PcAligned s) : PcAligned (State.dropEarly s k) := hs

theorem refreshHart_aligned (s : State) (k : Nat) (hs : PcAligned s) : PcAligned (State.refreshHart s k) := by
  unfold State.refreshHart
  grind [pcAligned_iff, dropEarly_aligned]

theorem refreshTile_aligned (s : State) (k : Nat) (hs : PcAligned s) : PcAligned (State.refreshTile s k) := by
  unfold State.refreshTile
  grind [pcAligned_iff, refreshHart_aligned]

theorem refreshWell_aligned (s : State) (k : Nat) (hs : PcAligned s) : PcAligned (State.refreshWell s k) := by
  unfold State.refreshWell
  grind [pcAligned_iff, dropEarly_aligned]

theorem refreshData_aligned (s : State) (k : Nat) (hs : PcAligned s) : PcAligned (State.refreshData s k) := by
  unfold State.refreshData
  grind [pcAligned_iff, refreshWell_aligned]

theorem performWrite_aligned (s : State) (k : Nat) (loc : Loc) (n v : Nat) (hs : PcAligned s) :
    PcAligned (State.performWrite s k loc n v) := by
  unfold State.performWrite
  grind [dropCopies_aligned, homeWrite_aligned]

theorem drainIf_aligned (s : State) (p : BufWrite → Bool) (hs : PcAligned s) : PcAligned (State.drainIf s p) := by
  unfold State.drainIf
  grind [pcAligned_iff, pcAligned_foldl, performWrite_aligned]

theorem performOwn_aligned (s : State) (k : Nat) (hs : PcAligned s) : PcAligned (State.performOwn s k) := drainIf_aligned _ _ hs

theorem writeLoc_aligned (s : State) (k : Nat) (loc : Loc) (n v : Nat) (dev : Bool) (hs : PcAligned s) :
    PcAligned (State.writeLoc s k loc n v dev) := by
  unfold State.writeLoc
  grind [pcAligned_iff, performWrite_aligned, drainIf_aligned]

theorem fenceDevice_aligned (s : State) (k : Nat) (hs : PcAligned s) : PcAligned (State.fenceDevice s k) := by
  unfold State.fenceDevice
  grind [refreshTile_aligned, drainIf_aligned]

theorem fenceTile_aligned (s : State) (k : Nat) (hs : PcAligned s) : PcAligned (State.fenceTile s k) := refreshHart_aligned _ _ hs

/-! ## The end of a context -/

theorem freeSlot_aligned (v : Slot) (hv : HartAligned v.hart) : HartAligned (State.freeSlot v).hart := hv

theorem releaseSlot_aligned (c : BitVec 6) (occ : Bool) (v : Slot) (hv : HartAligned v.hart) :
    HartAligned (State.releaseSlot c occ v).hart := by
  unfold State.releaseSlot
  grind [freeSlot_aligned]

theorem get_mapAll (f : Nat → Slot → Slot) (m : SMap Slot) (k : Nat) :
    SMap.get {} (State.mapAll f m) k = f k (SMap.get {} m k) ∨ SMap.get {} (State.mapAll f m) k = {} := by
  induction m with
  | nil => exact .inr rfl
  | cons p m ih =>
    simp only [State.mapAll, List.map_cons, SMap.get]
    split
    · exact .inl (by simp_all)
    · exact ih

theorem slotsAligned_mapAll {f : Nat → Slot → Slot} {m : SMap Slot} (hf : ∀ k v, HartAligned v.hart → HartAligned (f k v).hart)
    (hm : SlotsAligned m) : SlotsAligned (State.mapAll f m) := by
  intro k
  rcases get_mapAll f m k with h | h <;> rw [h]
  · exact hf k _ (hm k)
  · exact ⟨rfl, rfl, rfl⟩

theorem releaseCtx_aligned (s : State) (c : BitVec 6) (hs : PcAligned s) : PcAligned (s.releaseCtx c) := by
  unfold State.releaseCtx
  simp only [pcAligned_iff]
  exact ⟨slotsAligned_mapAll (fun _ v hv => releaseSlot_aligned c _ v hv) hs.1, heldAligned_filter _ hs.2⟩

theorem post_aligned (s : State) (r : BitVec 512) (hs : PcAligned s) : PcAligned (State.post s r) := hs

theorem dropExports_aligned (s : State) (c : BitVec 6) (hs : PcAligned s) : PcAligned (State.dropExports s c) := hs

theorem kill_aligned (s : State) (c : BitVec 6) (reason : Nat) (by_ : KillBy) (hs : PcAligned s) :
    PcAligned (State.kill s c reason by_) := by
  unfold State.kill
  grind [post_aligned, dropExports_aligned, releaseCtx_aligned, setCtx_aligned]

theorem countLasting_aligned (s : State) (n : Nat) (loc : BitVec 32) (hs : PcAligned s) : PcAligned (State.countLasting s n loc) := hs

theorem useFailed_aligned (s : State) (n : Nat) (hs : PcAligned s) : PcAligned (State.useFailed s n) := by
  unfold State.useFailed
  grind [tick_aligned, countLasting_aligned]

theorem killFor_aligned (s : State) (c : BitVec 6) (fn : Nat) (hs : PcAligned s) : PcAligned (State.killFor s c fn) := by
  unfold State.killFor
  grind [kill_aligned, useFailed_aligned]

theorem killLasting_aligned (s : State) (k fn : Nat) (hs : PcAligned s) : PcAligned (State.killLasting s k fn) := by
  unfold State.killLasting
  grind [useFailed_aligned, kill_aligned]

/-! ## Traps and what instructions share -/

theorem takeTrap_aligned (s : State) (k c i : Nat) (v : Word) (w : Nat) (e : Word) (hs : PcAligned s) (he : Aligned4 e) :
    PcAligned (s.takeTrap k c i v w e) := by
  unfold State.takeTrap
  grind [pcAligned_setHartOf, kill_aligned, setBank_aligned, forgetWalks_aligned, HartAligned, aligned4_vector, hartAligned_slot]

theorem returnTrap_aligned (s : State) (k : Nat) (hs : PcAligned s) : PcAligned (State.returnTrap s k) := by
  unfold State.returnTrap
  grind [HartAligned, hartAligned_slot, bank_aligned, pcAligned_setHartOf]

theorem setRunState_aligned (s : State) (st : SlotState) (hs : PcAligned s) : PcAligned (State.setRunState s st) := by
  unfold State.setRunState
  grind [hartAligned_slot, pcAligned_setSlot]

theorem out_aligned (r : Res) (hr : ResAligned r) : OutAligned r.out := by
  cases r <;> grind [Res.out, resAligned_ok, resAligned_trap, resAligned_wait, outAligned_next, takeTrap_aligned, hartAligned_hart,
    HartAligned]

theorem issue_aligned (i : Instr) (s : State) (body : State → Res) (hs : PcAligned s) (hbody : ∀ t, PcAligned t → ResAligned (body t)) :
    OutAligned (issue i s body) := by
  unfold issue
  grind [out_aligned, resAligned_trap]

theorem decodeTrap_aligned (cause : Nat) (i : Instr) (s : State) (hs : PcAligned s) : ResAligned (decodeTrap cause i s) := hs

theorem readScalars_aligned (rs : List (BitVec 6 × Bool)) (s : State) (k : State → Res) (hs : PcAligned s)
    (hk : ∀ t, PcAligned t → ResAligned (k t)) : ResAligned (readScalars rs s k) := by
  fun_induction readScalars rs s k <;> grind [resAligned_trap, resAligned_wait]

theorem destFree_aligned (d : BitVec 6) (s : State) (k : State → Res) (hs : PcAligned s) (hk : ∀ t, PcAligned t → ResAligned (k t)) :
    ResAligned (destFree d s k) := by
  unfold destFree
  grind [resAligned_wait]

theorem writeRetire_aligned (d : BitVec 6) (v : Word) (s : State) (hs : PcAligned s) : ResAligned (writeRetire d v s) := by
  unfold writeRetire
  grind [resAligned_ok, pcAligned_setHart, retire_aligned, ws_aligned, hartAligned_hart]

theorem retireOnly_aligned (s : State) (hs : PcAligned s) : ResAligned (retireOnly s) := by
  unfold retireOnly
  grind [resAligned_ok, pcAligned_setHart, retire_aligned, hartAligned_hart]

theorem enter_aligned (u : Uses) (scalars slices : BitVec 64) (vl next : Nat) (matrix : Bool) (s : State) (hs : PcAligned s) :
    PcAligned (enter u scalars slices vl next matrix s) := by
  unfold enter
  grind [HartAligned, hartAligned_hart, pcAligned_setHart]

theorem writeLate_aligned (d : BitVec 6) (v : Word) (s : State) (fl : Bool) (hs : PcAligned s) : ResAligned (writeLate d v s fl) := by
  unfold writeLate
  grind [resAligned_ok, enter_aligned, pcAligned_setHart, retire_aligned, ws_aligned, hartAligned_hart]

theorem drainedOf_aligned (p : Inflight → Bool) (s : State) (k : State → Res) (hs : PcAligned s) (hk : ∀ t, PcAligned t → ResAligned
    (k t)) :
    ResAligned (drainedOf p s k) := by
  unfold drainedOf
  grind [resAligned_wait]

theorem drained_aligned (s : State) (k : State → Res) (hs : PcAligned s) (hk : ∀ t, PcAligned t → ResAligned (k t)) :
    ResAligned (drained s k) := by
  unfold drained
  grind [resAligned_wait]

theorem onChk_aligned (c : Chk) (i : Nat) (v : Word) (s : State) (k : Loc → Bool → Res) (hs : PcAligned s) (hk : ∀ a b, ResAligned
    (k a b)) :
    ResAligned (onChk c i v s k) := by
  unfold onChk
  grind [resAligned_ok, resAligned_trap, resAligned_wait, noteSpace_aligned, killLasting_aligned]

/-! ## Operands of vector instructions -/

theorem setChan_aligned (s : State) (c : Nat) (x : Channel) (hs : PcAligned s) : PcAligned (State.setChan s c x) := hs

theorem stop_aligned (p : Stop) (e : Nat) (s : State) (hs : PcAligned s) : ResAligned (Stop.res p e s) := by
  unfold Stop.res
  grind [resAligned_trap, resAligned_wait]

theorem beforeRelease_aligned (s : State) (k : Nat) (x : Channel) (lo hi : Nat) (hs : PcAligned s) :
    PcAligned (State.beforeRelease s k x lo hi) :=
  drainIf_aligned _ _ hs

theorem consume_aligned (vl : Nat) (bs : List (Nat × StreamBind)) (s : State) (hs : PcAligned s) : PcAligned (consume vl bs s) := by
  unfold consume
  grind [HartAligned, pcAligned_foldl, hartAligned_hart, setChan_aligned, refreshWell_aligned, beforeRelease_aligned, pcAligned_setHart]

theorem readSlices_aligned (rs : List Src) (s : State) (k : State → Res) (hs : PcAligned s) (hk : ∀ t, PcAligned t → ResAligned (k t)) :
    ResAligned (readSlices rs s k) := by
  unfold readSlices
  grind [resAligned_trap, resAligned_wait]

theorem readMasks_aligned (ms : List (Nat × Bool)) (s : State) (k : State → Res) (hs : PcAligned s)
    (hk : ∀ t, PcAligned t → ResAligned (k t)) : ResAligned (readMasks ms s k) := by
  fun_induction readMasks ms s k <;> grind [resAligned_trap, resAligned_wait]

theorem vecPre_aligned (i : Instr) (sh : Shape) (s : State) (k : State → Option Stop → Res) (hs : PcAligned s)
    (hk : ∀ t p, PcAligned t → ResAligned (k t p)) : ResAligned (vecPre i sh s k) := by
  unfold vecPre
  extract_lets h
  split
  · exact decodeTrap_aligned _ _ _ hs
  split
  · exact decodeTrap_aligned _ _ _ hs
  generalize (if h.len = 0 then none else bindConflict h sh) = conflict
  cases conflict with
  | some b => exact hs
  | none =>
    refine readScalars_aligned _ _ _ hs fun s hs => readSlices_aligned _ _ _ hs fun s hs => readMasks_aligned _ _ _ hs fun s hs => ?_
    split
    · exact hs
    extract_lets _ t
    have ht : PcAligned t := pcAligned_ite (fun _ => pcAligned_setHart hs (hartAligned_hart hs)) fun _ => hs
    clear_value t
    split
    · exact retireOnly_aligned _ ht
    split
    · exact consume_aligned _ _ _ (pcAligned_setHart ht (retire_aligned _ (hartAligned_hart ht)))
    generalize (if t.hart.len = 0 then StreamState.ready else streamsState t (boundReads t.hart sh) t.hart.len sh.cross) = stream
    cases stream with
    | ready => exact hk _ _ ht
    | stop p => exact hk _ _ ht
    | overrun b arr =>
      have hset : ∀ u, PcAligned u → PcAligned (u.setHart { u.hart with strmf := setB u.hart.strmf (8 + b) true }) :=
        fun u hu => pcAligned_setHart hu (hartAligned_hart hu)
      refine hset _ ?_
      split
      · split
        · exact setChan_aligned _ _ _ ht
        · exact ht
      · exact ht

theorem touch_aligned (h : Hart) (slices : BitVec 64) (vl : Nat) (hh : HartAligned h) : HartAligned (Hart.touch h slices vl) := hh

theorem settle_aligned (h : Hart) (sh : Shape) (a : Done) (hh : HartAligned h) : HartAligned (Hart.settle h sh a) := by
  unfold Hart.settle
  grind [HartAligned, wm_aligned, touch_aligned, orFlags_aligned, orSat_aligned]

theorem standAt_aligned (i : Nat) (s : State) (hs : PcAligned s) : ResAligned (standAt i s) := pcAligned_setHart hs (hartAligned_hart hs)

theorem elementwise_aligned (i : Instr) (sh : Shape) (late : Bool) (act : Hart → Nat → Bool) (f : State → Nat → Row → Except
    (Nat × Word) Elem) (s : State) (hs : PcAligned s) :
    ResAligned (elementwise i sh late act f s) := by
  unfold elementwise
  grind [vecPre_aligned, hartAligned_hart, pcAligned_setHart, settle_aligned, refreshWell_aligned, resAligned_ok, resAligned_trap,
    standAt_aligned, stop_aligned, consume_aligned, retire_aligned, enter_aligned]

theorem crossElement_aligned (i : Instr) (sh : Shape) (lateScalar : BitVec 64) (f : State → Hart) (s : State)
    (hf : ∀ t, PcAligned t → HartAligned (f t)) (hs : PcAligned s) :
    ResAligned (crossElement i sh lateScalar f s) := by
  unfold crossElement
  grind [vecPre_aligned, stop_aligned, consume_aligned, pcAligned_setHart, retire_aligned, resAligned_ok, enter_aligned]

/-! ## Element groups -/

theorem startGroup_aligned (h : Hart) (hh : HartAligned h) : HartAligned (startGroup h) := by
  unfold startGroup
  grind [HartAligned]

theorem execElementGroup_aligned (tile : Nat) (core : Bool) (s : State) (hs : PcAligned s) : OutAligned (execElementGroup tile core s) := by
  unfold execElementGroup
  grind [HartAligned, outAligned_next, pcAligned_foldl, hartAligned_slot, pcAligned_setHartOf, startGroup_aligned]

theorem execLongLatencyProducerDone_aligned (slot k : Nat) (s : State) (hs : PcAligned s) :
    OutAligned (execLongLatencyProducerDone slot k s) := by
  unfold execLongLatencyProducerDone
  grind [HartAligned, hartAligned_slot, outAligned_next, pcAligned_setHartOf]

/-! ## Integer instructions -/

theorem intVector_aligned (i : Instr) (x : ArgsA) (w wd : Nat) (rd zimm late : Bool) (op : State → IOp) (s : State) (hs : PcAligned s) :
    ResAligned (intVector i x w wd rd zimm late op s) :=
  elementwise_aligned _ _ _ _ _ _ hs

theorem intScalar_aligned (x : ArgsA) (w : Nat) (rd zimm late : Bool) (fin : Int → Word) (op : State → IOp) (s : State)
    (hs : PcAligned s) :
    ResAligned (intScalar x w rd zimm late fin op s) := by
  unfold intScalar
  grind [readScalars_aligned, destFree_aligned, hartAligned_hart, resAligned_ok, resAligned_trap, retire_aligned, orFlags_aligned,
    ws_aligned, enter_aligned, pcAligned_setHart]

theorem intBinary_aligned (i : Instr) (x : ArgsA) (rd zimm late : Bool) (op : State → IOp) (s : State) (hs : PcAligned s) :
    OutAligned (intBinary i x rd zimm late op s) := by
  unfold intBinary
  grind [issue_aligned, intScalar_aligned, intVector_aligned]

theorem intWide_aligned (i : Instr) (x : ArgsA) (rd : Bool) (op : State → IOp) (s : State) (hs : PcAligned s) :
    OutAligned (intWide i x rd op s) := by
  unfold intWide
  grind [issue_aligned, intScalar_aligned, intVector_aligned]

theorem intUnary_aligned (i : Instr) (x : ArgsU) (f : Nat → Nat → Int) (s : State) (hs : PcAligned s) : OutAligned (intUnary i x f s) := by
  unfold intUnary
  grind [issue_aligned, readScalars_aligned, destFree_aligned, writeRetire_aligned, elementwise_aligned]

theorem intNarrow_aligned (i : Instr) (x : ArgsA) (signed : Bool) (s : State) (hs : PcAligned s) : OutAligned (intNarrow i x signed s) := by
  unfold intNarrow
  grind [issue_aligned, elementwise_aligned]

theorem intCompare_aligned (i : Instr) (x : ArgsA) (p : Nat → Nat → Nat → Bool) (s : State) (hs : PcAligned s) :
    OutAligned (intCompare i x p s) := by
  unfold intCompare
  grind [issue_aligned, readScalars_aligned, destFree_aligned, writeRetire_aligned, elementwise_aligned]

/-! ## Float instructions -/

theorem floatBinary_aligned (i : Instr) (x : ArgsA) (rd late : Bool) (op : FOp) (s : State) (hs : PcAligned s) :
    OutAligned (floatBinary i x rd late op s) := by
  unfold floatBinary
  grind [issue_aligned, readScalars_aligned, destFree_aligned, hartAligned_hart, retire_aligned, orFlags_aligned, ws_aligned,
    resAligned_ok, enter_aligned, pcAligned_setHart, elementwise_aligned]

theorem floatUnary_aligned (i : Instr) (x : ArgsU) (late : Bool) (op : RCtl → Fmt → Nat → Nat × Flags) (s : State) (hs : PcAligned s) :
    OutAligned (floatUnary i x late op s) := by
  unfold floatUnary
  grind [issue_aligned, readScalars_aligned, destFree_aligned, hartAligned_hart, retire_aligned, orFlags_aligned, ws_aligned,
    resAligned_ok, enter_aligned, pcAligned_setHart, elementwise_aligned]

theorem floatCompare_aligned (i : Instr) (x : ArgsA) (p : FV → FV → Bool × Flags) (s : State) (hs : PcAligned s) :
    OutAligned (floatCompare i x p s) := by
  unfold floatCompare
  grind [issue_aligned, readScalars_aligned, destFree_aligned, hartAligned_hart, resAligned_ok, pcAligned_setHart, retire_aligned,
    orFlags_aligned, ws_aligned, elementwise_aligned]

theorem execFcvti_aligned (x : ArgsC) (s : State) (hs : PcAligned s) : OutAligned (execFcvti x s) := by
  unfold execFcvti
  grind [issue_aligned, readScalars_aligned, destFree_aligned, hartAligned_hart, resAligned_ok, pcAligned_setHart, retire_aligned,
    orFlags_aligned, ws_aligned, elementwise_aligned]

theorem execFcvtf_aligned (x : ArgsC) (s : State) (hs : PcAligned s) : OutAligned (execFcvtf x s) := by
  unfold execFcvtf
  grind [issue_aligned, readScalars_aligned, destFree_aligned, hartAligned_hart, resAligned_ok, pcAligned_setHart, retire_aligned,
    orFlags_aligned, ws_aligned, elementwise_aligned]

/-! ## Remote requests at their source -/

theorem budgetCount_aligned (s : State) (a : Arbiter) (c : BitVec 6) (n : Nat) (hs : PcAligned s) : PcAligned (State.budgetCount s a c n) :=
  hs

theorem portCount_aligned (s : State) (port : Option Nat) (c : BitVec 6) (n : Nat) (hs : PcAligned s) :
    PcAligned (State.portCount s port c n) := by
  unfold State.portCount
  grind [budgetCount_aligned]

theorem sendRequest_aligned (s : State) (who : Waiter) (c : BitVec 6) (p : Nat) (op : MemOp) (pa size : Nat) (data expect : Nat)
    (device : Bool) (va : Word) (hs : PcAligned s) :
    PcAligned (State.sendRequest s who c p op pa size data expect device va) := by
  unfold State.sendRequest
  grind [pcAligned_iff, portCount_aligned]

theorem endGroup_aligned (s : State) (k : Nat) (hs : PcAligned s) : PcAligned (State.endGroup s k) := hs

theorem dropRequests_aligned (s : State) (p : SentReq → Bool) (k : Nat) (task : BitVec 32) (hs : PcAligned s) :
    PcAligned (State.dropRequests s p k task) :=
  hs

theorem clearRequests_aligned (s : State) (k : Nat) (hs : PcAligned s) : PcAligned (State.clearRequests s k) :=
  dropRequests_aligned _ _ _ _ hs

theorem clearEngine_aligned (s : State) (p : SentReq → Bool) (hs : PcAligned s) : PcAligned (State.clearEngine s p) :=
  dropRequests_aligned _ _ _ _ hs

theorem oneAccess_aligned (x : Access) (i : Nat) (space : BitVec 2) (va : Word) (data : Nat) (s : State) (k : Nat → State → Res)
    (hs : PcAligned s) (hk : ∀ a t, PcAligned t → ResAligned (k a t)) :
    ResAligned (oneAccess x i space va data s k) := by
  unfold oneAccess
  grind [resAligned_ok, resAligned_trap, resAligned_wait, clearRequests_aligned, noteSpace_aligned, killLasting_aligned,
    sendRequest_aligned, writeLoc_aligned]

theorem cleanEnd_aligned (s : State) (hs : PcAligned s) : PcAligned (cleanEnd s) := by
  unfold cleanEnd
  grind [HartAligned, clearRequests_aligned, pcAligned_setHart, hartAligned_hart]

theorem onRequest_s (p : Plan) (i : Nat) (r : SentReq) (dev : Bool) : (p.onRequest i r dev).s = p.s := by
  unfold Plan.onRequest
  grind

theorem planElems_aligned (x : Access) (space : BitVec 2) (act : Nat → Bool) (addr : Nat → Word) (data expect : Nat → Nat) (o : Bool)
    (i n : Nat) (p : Plan) (hp : PcAligned p.s) : PcAligned (planElems x space act addr data expect o i n p).s := by
  induction n generalizing i p with
  | zero => exact hp
  | succ n ih =>
    unfold planElems
    extract_lets next va who
    have hn : ∀ q, PcAligned q.s → PcAligned (next q).s := fun q hq => ih (i + 1) q hq
    clear_value next
    grind [onRequest_s, noteSpace_aligned, sendRequest_aligned, performOwn_aligned]

theorem storeElems_aligned (sz : Nat) (data : Nat → Nat) (l : List (Nat × Loc × Bool)) (s : State) (hs : PcAligned s) :
    PcAligned (storeElems sz data l s) := by
  unfold storeElems
  grind [pcAligned_foldl, writeLoc_aligned]

theorem fellBack_aligned (s : State) (hs : PcAligned s) : PcAligned (fellBack s) := pcAligned_setHart hs (hartAligned_hart hs)

theorem memoryElems_aligned (x : Access) (space : BitVec 2) (act : Nat → Bool) (addr : Nat → Word) (data : Nat → Nat)
    (perform : List (Nat × Loc × Bool) → State → State) (stop : Option Stop) (hi : Nat) (fin : State → Res) (s : State)
    (hperform : ∀ l t, PcAligned t → PcAligned (perform l t)) (hfin : ∀ t, PcAligned t → ResAligned (fin t)) (hs : PcAligned s) :
    ResAligned (memoryElems x space act addr data perform stop hi fin s) := by
  unfold memoryElems
  extract_lets e vl lim p below stopped above fallback
  have hp : PcAligned p.s := planElems_aligned _ _ _ _ _ _ _ _ _ _ hs
  have hbelow : ∀ i, PcAligned (below i) := fun i => hperform _ _ hp
  have hstopped : ∀ t, PcAligned t → PcAligned (stopped t) := fun t ht => performOwn_aligned _ _ ht
  have habove : ∀ i t, PcAligned t → PcAligned (above i t) := fun i t ht =>
    pcAligned_ite (fun _ => tick_aligned _ (hperform _ _ ht)) fun _ => ht
  have hfallback : ∀ j i, PcAligned (fallback j i) := fun j i =>
    fellBack_aligned _ (clearRequests_aligned _ _ (tick_aligned _ (hstopped _
      (pcAligned_ite (fun _ => storeElems_aligned _ _ _ _ (hbelow j)) fun _ => hperform _ _ (hbelow j)))))
  clear_value p below stopped above fallback lim
  grind [resAligned_ok, resAligned_trap, resAligned_wait, killLasting_aligned, endGroup_aligned, standAt_aligned, stop_aligned,
    cleanEnd_aligned, pcAligned_setHart, hartAligned_hart, HartAligned]

/-! ## Loads and stores -/

theorem loadElems_aligned (w d : Nat) (l : List (Nat × Loc × Bool)) (s : State) (hs : PcAligned s) : PcAligned (loadElems w d l s) := by
  unfold loadElems
  grind [HartAligned, hartAligned_hart, pcAligned_setHart, touch_aligned]

theorem withStreams_aligned (sh : Shape) (perform : List (Nat × Loc × Bool) → State → State) (l : List (Nat × Loc × Bool)) (s : State)
    (hperform : ∀ a t, PcAligned t → PcAligned (perform a t)) (hs : PcAligned s) :
    PcAligned (withStreams sh perform l s) := by
  unfold withStreams
  grind [refreshWell_aligned]

theorem execLd_aligned (x : ArgsL) (s : State) (hs : PcAligned s) : OutAligned (execLd x s) := by
  unfold execLd
  grind [issue_aligned, readScalars_aligned, oneAccess_aligned, hartAligned_hart, writeLate_aligned, cleanEnd_aligned, vecPre_aligned,
    memoryElems_aligned, withStreams_aligned, loadElems_aligned, resAligned_ok, enter_aligned, consume_aligned, pcAligned_setHart,
    retire_aligned]

theorem execSt_aligned (x : ArgsL) (s : State) (hs : PcAligned s) : OutAligned (execSt x s) := by
  unfold execSt
  grind [issue_aligned, readScalars_aligned, oneAccess_aligned, hartAligned_hart, retireOnly_aligned, cleanEnd_aligned, vecPre_aligned,
    memoryElems_aligned, withStreams_aligned, storeElems_aligned, resAligned_ok, enter_aligned, consume_aligned, pcAligned_setHart,
    retire_aligned]

theorem tableChecked_aligned (a b : BitVec 6) (sz : Nat) (stop : Option Stop) (s : State) (k : State → Res) (hs : PcAligned s)
    (hk : ∀ t, PcAligned t → ResAligned (k t)) :
    ResAligned (tableChecked a b sz stop s k) := by
  unfold tableChecked
  grind [resAligned_trap, resAligned_wait, stop_aligned]

theorem execTld_aligned (x : ArgsR) (s : State) (hs : PcAligned s) : OutAligned (execTld x s) := by
  unfold execTld
  grind [HartAligned, issue_aligned, vecPre_aligned, tableChecked_aligned, hartAligned_hart, touch_aligned, resAligned_ok, enter_aligned,
    consume_aligned, pcAligned_setHart, retire_aligned]

theorem execTst_aligned (x : ArgsR) (s : State) (hs : PcAligned s) : OutAligned (execTst x s) := by
  unfold execTst
  grind [issue_aligned, vecPre_aligned, tableChecked_aligned, hartAligned_hart, setTile_aligned, resAligned_ok, enter_aligned,
    consume_aligned, pcAligned_setHart, retire_aligned]

/-! ## Views and narrow blocks -/

theorem execFcvt_aligned (x : ArgsC) (s : State) (hs : PcAligned s) : OutAligned (execFcvt x s) := by
  unfold execFcvt
  grind [issue_aligned, readScalars_aligned, destFree_aligned, hartAligned_hart, resAligned_ok, pcAligned_setHart, retire_aligned,
    orFlags_aligned, ws_aligned, elementwise_aligned]

theorem loadBlock_aligned (a d : BitVec 6) (acc : Loaded) (p : Nat × Loc × Bool) (ha : PcAligned acc.s) :
    PcAligned (loadBlock a d acc p).s := by
  unfold loadBlock
  grind [pcAligned_setHart, touch_aligned, wv_aligned, hartAligned_hart, HartAligned]

theorem loadedBlocks_aligned {a d : BitVec 6} {l : List (Nat × Loc × Bool)} {acc : Loaded} (ha : PcAligned acc.s) :
    PcAligned (l.foldl (loadBlock a d) acc).s :=
  foldl_keeps (P := fun acc => PcAligned acc.s) (fun b p hb => loadBlock_aligned a d b p hb) l ha

theorem execLdq_aligned (x : ArgsD) (s : State) (hs : PcAligned s) : OutAligned (execLdq x s) := by
  unfold execLdq
  refine issue_aligned _ _ _ hs fun s hs => vecPre_aligned _ _ _ _ hs fun s stop hs => ?_
  extract_lets h rl e lim acc p run
  have hp : PcAligned p.s := planElems_aligned _ _ _ _ _ _ _ _ _ _ hs
  have hrun : ∀ l, PcAligned (run l).s := fun l => by
    have hl := loadedBlocks_aligned (a := x.a) (d := x.d) (l := l) (acc := { s := p.s }) hp
    exact pcAligned_setHart hl (hartAligned_ite (fun _ => orFlags_aligned _ _ (hartAligned_hart hl)) fun _ => hartAligned_hart hl)
  clear_value p run lim rl
  grind [resAligned_ok, resAligned_trap, resAligned_wait, killLasting_aligned, standAt_aligned, fellBack_aligned, clearRequests_aligned,
    tick_aligned, cleanEnd_aligned, enter_aligned, retire_aligned, pcAligned_setHart, hartAligned_hart]

theorem storeBlocks_aligned (s0 : State) (w : Nat) (d : BitVec 6) (l : List (Nat × Loc × Bool)) (s : State)
    (hs : PcAligned s) :
    PcAligned (storeBlocks s0 w d l s) := by
  unfold storeBlocks
  grind [pcAligned_foldl, writeLoc_aligned, hartAligned_hart, pcAligned_setHart, orFlags_aligned, orSat_aligned, wv_aligned]

theorem execStq_aligned (x : ArgsStq) (s : State) (hs : PcAligned s) : OutAligned (execStq x s) := by
  unfold execStq
  grind [HartAligned, issue_aligned, vecPre_aligned, hartAligned_hart, resAligned_ok, resAligned_trap, pcAligned_setHart,
    memoryElems_aligned, storeBlocks_aligned, enter_aligned, consume_aligned, retire_aligned]

theorem execViewld_aligned (x : ArgsD) (s : State) (hs : PcAligned s) : OutAligned (execViewld x s) := by
  unfold execViewld
  grind [issue_aligned, readScalars_aligned, oneAccess_aligned, hartAligned_hart, cleanEnd_aligned, retireOnly_aligned, pcAligned_setHart,
    wv_aligned]

theorem execViewst_aligned (x : ArgsD) (s : State) (hs : PcAligned s) : OutAligned (execViewst x s) := by
  unfold execViewst
  grind [issue_aligned, readScalars_aligned, oneAccess_aligned, retireOnly_aligned, cleanEnd_aligned]

theorem execViewset_aligned (x : ArgsK) (s : State) (hs : PcAligned s) : OutAligned (execViewset x s) := by
  unfold execViewset
  grind [issue_aligned, readScalars_aligned, hartAligned_hart, retireOnly_aligned, pcAligned_setHart, wv_aligned]

/-! ## Matrix macros -/

theorem zeroMacro_aligned (dom M : Nat) (s : State) (hs : PcAligned s) : PcAligned (zeroMacro dom M s) := hs

theorem zeroRow_aligned (dom m : Nat) (s : State) (hs : PcAligned s) : PcAligned (zeroRow dom m s) := hs

theorem grantUnits_aligned (k : Nat) (mac : BitVec 4) (rows : BitVec 16) (s : State) (hs : PcAligned s) :
    PcAligned (grantUnits k mac rows s) := by
  unfold grantUnits
  grind [HartAligned, pcAligned_foldRange, zeroMacro_aligned, zeroRow_aligned, hartAligned_slot, pcAligned_setHartOf]

theorem execMclaim_aligned (x : ArgsD) (s : State) (hs : PcAligned s) : OutAligned (execMclaim x s) := by
  unfold execMclaim
  grind [issue_aligned, readScalars_aligned, destFree_aligned, writeRetire_aligned, grantUnits_aligned]

theorem execMfree_aligned (x : ArgsS) (s : State) (hs : PcAligned s) : OutAligned (execMfree x s) := by
  unfold execMfree
  grind [HartAligned, issue_aligned, readScalars_aligned, drained_aligned, hartAligned_hart, resAligned_ok, pcAligned_setHart,
    retire_aligned]

theorem matrixHeld_aligned (mac : BitVec 4) (rows : BitVec 16) (s : State) (k : State → Res) (hs : PcAligned s)
    (hk : ∀ t, PcAligned t → ResAligned (k t)) :
    ResAligned (matrixHeld mac rows s k) := by
  unfold matrixHeld
  grind [HartAligned, hartAligned_hart, resAligned_trap, resAligned_wait, pcAligned_setHart]

theorem matrixKind_aligned (mac : BitVec 4) (int8 : Bool) (s : State) (k : State → Res) (hs : PcAligned s)
    (hk : ∀ t, PcAligned t → ResAligned (k t)) :
    ResAligned (matrixKind mac int8 s k) := by
  unfold matrixKind
  grind [resAligned_trap]

theorem matrixStream_aligned (stop : Option Stop) (s : State) (k : State → Res) (hs : PcAligned s) (hk : ∀ t, PcAligned t → ResAligned
    (k t)) :
    ResAligned (matrixStream stop s k) := by
  unfold matrixStream
  grind [stop_aligned]

theorem loadColumn_aligned (k dom M : Nat) (m : MacroLoad) (n : Nat) (a : Columns) (ha : PcAligned a.s) :
    PcAligned (loadColumn k dom M m n a).s := by
  unfold loadColumn
  grind [pcAligned_iff]

theorem loadedColumns_aligned {k dom M : Nat} {m : MacroLoad} {lo n : Nat} {a : Columns} (ha : PcAligned a.s) :
    PcAligned (foldRange (loadColumn k dom M m) lo n a).s :=
  foldRange_keeps (P := fun a => PcAligned a.s) (fun i b hb => loadColumn_aligned k dom M m i b hb) lo n ha

theorem columnsAbove_aligned (k dom M : Nat) (m : MacroLoad) (n : Nat) (s : State) (hs : PcAligned s) :
    PcAligned (columnsAbove k dom M m n s) := by
  unfold columnsAbove
  refine tick_aligned _ (foldRange_keeps (P := PcAligned) (fun j t ht => ?_) _ _ hs)
  grind [loadColumn_aligned]

theorem finishMacro_aligned (dom M : Nat) (m : MacroLoad) (s : State) (hs : PcAligned s) : PcAligned (finishMacro dom M m s) := hs

theorem macroLoad_aligned (i : Instr) (int8 : Bool) (x : ArgsMldb) (s : State) (hs : PcAligned s) : OutAligned (macroLoad i int8 x s) := by
  unfold macroLoad
  refine issue_aligned _ _ _ hs fun s hs => vecPre_aligned _ _ _ _ hs fun s stop hs => matrixHeld_aligned _ _ _ _ hs fun s hs => ?_
  extract_lets h base nc rl M dom stride ld saved s1 e hi r coordIn flag fallback
  have h1 : PcAligned s1 := pcAligned_setHart hs (hartAligned_hart hs)
  have hr : PcAligned r.s := loadedColumns_aligned h1
  have hcoord : ∀ a t, PcAligned t → PcAligned (coordIn a t) := fun a t ht =>
    pcAligned_ite (fun _ => pcAligned_setHart ht (orFlags_aligned _ _ (hartAligned_hart ht))) fun _ => ht
  have hfallback : ∀ j, PcAligned (fallback j) := fun j =>
    fellBack_aligned _ (hcoord _ _ (columnsAbove_aligned _ _ _ _ _ _ (loadedColumns_aligned h1)))
  clear_value s1 r coordIn fallback ld saved
  grind [resAligned_ok, resAligned_trap, resAligned_wait, killLasting_aligned, standAt_aligned, columnsAbove_aligned, finishMacro_aligned,
    retire_aligned, pcAligned_setHart, hartAligned_hart]

theorem execMldb_aligned (x : ArgsMldb) (s : State) (hs : PcAligned s) : OutAligned (execMldb x s) := macroLoad_aligned _ _ _ _ hs

theorem execMldbI8_aligned (x : ArgsMldb) (s : State) (hs : PcAligned s) : OutAligned (execMldbI8 x s) := macroLoad_aligned _ _ _ _ hs

theorem execMacroReplay_aligned (slot mac : Nat) (s : State) (hs : PcAligned s) : OutAligned (execMacroReplay slot mac s) := by
  unfold execMacroReplay
  extract_lets h done
  have hdone : ∀ t bad, PcAligned t → PcAligned (done t bad) := fun t bad ht => pcAligned_setHartOf ht (hartAligned_slot ht slot)
  clear_value done h
  grind [outAligned_next, killLasting_aligned, loadedColumns_aligned, finishMacro_aligned, zeroMacro_aligned]

theorem multiply_aligned (i : Instr) (int8 : Bool) (x : ArgsMm) (f : State → List Block → State) (s : State)
    (hf : ∀ t a, PcAligned t → PcAligned (f t a)) (hs : PcAligned s) :
    OutAligned (multiply i int8 x f s) := by
  unfold multiply
  grind [issue_aligned, vecPre_aligned, matrixHeld_aligned, matrixKind_aligned, hartAligned_hart, resAligned_ok, resAligned_trap,
    matrixStream_aligned, enter_aligned, consume_aligned, pcAligned_setHart, retire_aligned]

theorem floatMultiply_aligned (d : BitVec 6) (cell : RCtl → BitVec 49 → List FV → BitVec 49 × Flags) (s : State) (bs : List Block)
    (hs : PcAligned s) :
    PcAligned (floatMultiply d cell s bs) := by
  unfold floatMultiply
  grind [pcAligned_iff, hartAligned_hart, pcAligned_setHart, orFlags_aligned]

theorem execMmo_aligned (x : ArgsMm) (s : State) (hs : PcAligned s) : OutAligned (execMmo x s) := by
  unfold execMmo
  grind [multiply_aligned, floatMultiply_aligned]

theorem execMmf_aligned (x : ArgsMm) (s : State) (hs : PcAligned s) : OutAligned (execMmf x s) := by
  unfold execMmf
  grind [multiply_aligned, floatMultiply_aligned]

theorem intMultiply_aligned (d : BitVec 6) (s : State) (bs : List Block) (hs : PcAligned s) : PcAligned (intMultiply d s bs) :=
  pcAligned_setHart hs (hartAligned_hart hs)

theorem execMmi_aligned (x : ArgsMm) (s : State) (hs : PcAligned s) : OutAligned (execMmi x s) := by
  unfold execMmi
  grind [multiply_aligned, intMultiply_aligned]

theorem execABroadcast_aligned (tile : Nat) (core : Bool) (s : State) (hs : PcAligned s) : OutAligned (execABroadcast tile core s) := by
  unfold execABroadcast
  grind [pcAligned_iff, HartAligned, hartAligned_slot, outAligned_next, pcAligned_setHartOf]

theorem execMrd_aligned (x : ArgsMrd) (s : State) (hs : PcAligned s) : OutAligned (execMrd x s) := by
  unfold execMrd
  grind [issue_aligned, vecPre_aligned, matrixHeld_aligned, hartAligned_hart, resAligned_ok, resAligned_trap, settle_aligned,
    enter_aligned, pcAligned_setHart, retire_aligned]

theorem execMclr_aligned (x : ArgsS) (s : State) (hs : PcAligned s) : OutAligned (execMclr x s) := by
  unfold execMclr
  grind [issue_aligned, vecPre_aligned, hartAligned_hart, matrixHeld_aligned, pcAligned_foldRange, zeroRow_aligned, resAligned_ok,
    pcAligned_setHart, retire_aligned]

/-! ## Fetch and abandonment -/

theorem rerun_aligned (i : Instr) (s : State) (hs : PcAligned s) : ∀ t, rerun i s = some t → OutAligned t := by
  unfold rerun
  grind [execLd_aligned, execSt_aligned, execLdq_aligned, execStq_aligned, execMldb_aligned, execMldbI8_aligned]

theorem stepHalt_aligned (old s : State) (hs : PcAligned s) : PcAligned (stepHalt old s) :=
  pcAligned_ite (fun _ => pcAligned_setSlot hs (hartAligned_slot hs _)) fun _ => hs

/-- The invariant at the state that a fetch comes to. -/
def FetchedAligned : Fetched → Prop
  | .word _ s => PcAligned s
  | .stop r => ResAligned r

theorem fetchedAligned_word (w : IWord) (s : State) : FetchedAligned (.word w s) ↔ PcAligned s := Iff.rfl

theorem fetchedAligned_stop (r : Res) : FetchedAligned (.stop r) ↔ ResAligned r := Iff.rfl

theorem fetchWord_aligned (s : State) (hs : PcAligned s) : FetchedAligned (fetchWord s) := by
  unfold fetchWord
  grind [fetchedAligned_word, fetchedAligned_stop, resAligned_ok, resAligned_trap, resAligned_wait, noteSpace_aligned,
    killLasting_aligned, sendRequest_aligned, pcAligned_iff]

theorem execAbandonment_aligned (slot : Nat) (s : State) (hs : PcAligned s) : OutAligned (execAbandonment slot s) := by
  unfold execAbandonment
  have hf := fetchWord_aligned { s with cur := slot, sched := { s.sched with abandons := true } } hs
  grind [fetchedAligned_word, outAligned_next, rerun_aligned, stepHalt_aligned, dropEarly_aligned, pcAligned_iff]

/-! ## Task records -/

theorem setGroup_aligned (s : State) (c : BitVec 6) (g : Nat) (v : Group) (hs : PcAligned s) : PcAligned (State.setGroup s c g v) := hs

theorem mapMark_aligned (s : State) (c : BitVec 6) (id : BitVec 32) (f : MarkEntry → MarkEntry) (hs : PcAligned s) :
    PcAligned (State.mapMark s c id f) :=
  hs

theorem makeReady_aligned (s : State) (c : BitVec 6) (id : BitVec 32) (hs : PcAligned s) : PcAligned (s.makeReady c id) := by
  unfold State.makeReady
  split
  · exact hs
  · next h hf =>
    have hh := hs.2 h (List.mem_of_find?_eq_some hf)
    exact ⟨hs.1, List.forall_mem_append.mpr ⟨heldAligned_filter _ hs.2, by simpa using hh⟩⟩

theorem aligned4_of_legalRec {s : State} {c : BitVec 6} {v : Nat} (h : s.legalRec c v = true) : Aligned4 (parseRec v).entry := by
  rw [aligned4_iff]
  simp only [State.legalRec, Bool.and_eq_true, beq_iff_eq] at h
  grind

theorem submit_aligned (s : State) (c : BitVec 6) (sub v : Nat) (hs : PcAligned s) : PcAligned (s.submit c sub v).2 := by
  unfold State.submit
  have hl := aligned4_of_legalRec (s := s) (c := c) (v := v)
  grind [pcAligned_iff, HeldAligned, makeReady_aligned, mapMark_aligned]

theorem decrement_aligned (s : State) (c : BitVec 6) (id : BitVec 32) (hs : PcAligned s) :
    ∀ t, s.decrement c id = some t → PcAligned t := by
  unfold State.decrement
  grind [pcAligned_iff, HeldAligned, makeReady_aligned, setCtx_aligned]

theorem closeHolds_aligned (s : State) (c : BitVec 6) (g : Nat) (p : BitVec 32) (hs : PcAligned s) :
    PcAligned (State.closeHolds s c g p) := by
  unfold State.closeHolds
  grind [pcAligned_iff, pcAligned_foldl, homeWrite_aligned]

theorem checkPhase_aligned (s : State) (c : BitVec 6) (g : Nat) (hs : PcAligned s) : PcAligned (State.checkPhase s c g) := by
  unfold State.checkPhase
  grind [setGroup_aligned, closeHolds_aligned]

theorem mapRun_aligned (s : State) (k : Nat) (f : RunTask → RunTask) (hs : PcAligned s) : PcAligned (State.mapRun s k f) := hs

/-! ## Trace units -/

theorem setUnit_aligned (s : State) (n : Nat) (u : TraceUnit) (hs : PcAligned s) : PcAligned (State.setUnit s n u) := hs

theorem writeOut_aligned (s : State) (n : Nat) (hs : PcAligned s) : PcAligned (State.writeOut s n) := by
  unfold State.writeOut
  grind [pcAligned_iff, pcAligned_foldl, setUnit_aligned]

theorem push_aligned (s : State) (n : Nat) (r : Nat → BitVec 128) (hs : PcAligned s) : PcAligned (State.push s n r) := by
  unfold State.push
  grind [setUnit_aligned, tick_aligned, writeOut_aligned]

theorem sync_aligned (s : State) (n : Nat) (hs : PcAligned s) : PcAligned (State.sync s n) := by
  unfold State.sync
  grind [push_aligned, tick_aligned, setUnit_aligned]

theorem record_aligned (s : State) (k : Nat) (c : BitVec 6) (kind tlvl info : Nat) (value : Word) (hs : PcAligned s) :
    PcAligned (State.record s k c kind tlvl info value) := by
  unfold State.record
  grind [push_aligned, sync_aligned, setUnit_aligned]

theorem pcRecord_aligned (s : State) (k : Nat) (c : BitVec 6) (kind tlvl info : Nat) (value : Word) (hs : PcAligned s) :
    PcAligned (State.pcRecord s k c kind tlvl info value) := by
  unfold State.pcRecord
  grind [HartAligned, record_aligned, pcAligned_setHartOf, hartAligned_slot]

theorem recordSlot_aligned (old : State) (k : Nat) (s : State) (hs : PcAligned s) : PcAligned (State.recordSlot old k s) := by
  unfold State.recordSlot
  grind [pcRecord_aligned]

theorem recordInstr_aligned (old : State) (k : Nat) (i : Instr) (taken : Bool) (s : State) (hs : PcAligned s) :
    PcAligned (State.recordInstr old k i taken s) := by
  unfold State.recordInstr
  grind [pcRecord_aligned, record_aligned, tick_aligned]

theorem recordEnd_aligned (old : State) (k : Nat) (s : State) (hs : PcAligned s) : PcAligned (State.recordEnd old k s) := by
  unfold State.recordEnd
  grind [pcRecord_aligned]

theorem traced_aligned (old : State) (k : Nat) (i : Option Instr) (taken : Bool) (s : State) (hs : PcAligned s) :
    PcAligned (State.traced old k i taken s) := by
  unfold State.traced
  grind [pcAligned_foldl, recordSlot_aligned, recordEnd_aligned, recordInstr_aligned]

theorem execTrace_aligned (x : ArgsTr) (s : State) (hs : PcAligned s) : OutAligned (execTrace x s) := by
  unfold execTrace
  grind [issue_aligned, readScalars_aligned, drained_aligned, retireOnly_aligned, record_aligned]

theorem execFlush_aligned (unit : Nat) (s : State) (hs : PcAligned s) : OutAligned (execFlush unit s) := by
  unfold execFlush
  grind [outAligned_next, writeOut_aligned]

theorem turnOn_aligned (n : Nat) (old : TraceUnit) (s : State) (hs : PcAligned s) : PcAligned (State.turnOn n old s) := by
  unfold State.turnOn
  grind [setUnit_aligned, sync_aligned]

theorem traceControl_aligned (n j : Nat) (v : Word) (s : State) (hs : PcAligned s) : PcAligned (traceControl n j v s) := by
  unfold traceControl
  grind [writeOut_aligned, turnOn_aligned, setUnit_aligned]

theorem branchTarget_aligned (pc : Word) (o : BitVec 10) (h : Aligned4 pc) : Aligned4 (branchTarget pc o) :=
  aligned4_add h (aligned4_word _)

/-! ## Control flow and control registers -/

theorem branchTo_aligned (taken : Bool) (o : BitVec 10) (s : State) (hs : PcAligned s) : ResAligned (branchTo taken o s) := by
  have hh := hartAligned_hart hs
  refine pcAligned_setHart hs (hartAligned_ite (fun _ => ?_) fun _ => retire_aligned _ hh)
  exact retireTo_aligned _ _ hh (branchTarget_aligned _ _ hh.1)

theorem execBr_aligned (x : ArgsB) (s : State) (hs : PcAligned s) : OutAligned (execBr x s) := by
  unfold execBr
  grind [issue_aligned, readScalars_aligned, branchTo_aligned]

theorem execBrm_aligned (x : ArgsBrm) (s : State) (hs : PcAligned s) : OutAligned (execBrm x s) := by
  unfold execBrm
  grind [issue_aligned, readMasks_aligned, drainedOf_aligned, branchTo_aligned]

theorem execBrs_aligned (x : ArgsB) (s : State) (hs : PcAligned s) : OutAligned (execBrs x s) := by
  unfold execBrs
  grind [issue_aligned, resAligned_wait, drainedOf_aligned, branchTo_aligned, drained_aligned]

theorem execJal_aligned (x : ArgsI) (s : State) (hs : PcAligned s) : OutAligned (execJal x s) := by
  unfold execJal
  refine issue_aligned _ _ _ hs fun s hs => destFree_aligned _ _ _ hs fun s hs => ?_
  have hh := hartAligned_hart hs
  exact pcAligned_setHart hs (retireTo_aligned _ _ (ws_aligned _ _ _ hh) (aligned4_add hh.1 (aligned4_word _)))

theorem execJalr_aligned (x : ArgsJ) (s : State) (hs : PcAligned s) : OutAligned (execJalr x s) := by
  unfold execJalr
  refine issue_aligned _ _ _ hs fun s hs => readScalars_aligned _ _ _ hs fun s hs => destFree_aligned _ _ _ hs fun s hs => ?_
  grind [resAligned_trap, resAligned_ok, pcAligned_setHart, retireTo_aligned, ws_aligned, hartAligned_hart, Aligned4]

theorem execLi_aligned (x : ArgsI) (s : State) (hs : PcAligned s) : OutAligned (execLi x s) := by
  unfold execLi
  grind [issue_aligned, destFree_aligned, writeRetire_aligned]

theorem execLis_aligned (x : ArgsI) (s : State) (hs : PcAligned s) : OutAligned (execLis x s) := by
  unfold execLis
  grind [issue_aligned, readScalars_aligned, destFree_aligned, writeRetire_aligned]

theorem repartitionHart_aligned (t u : Tile) (coreB : Bool) (h : Hart) (hh : HartAligned h) : HartAligned (repartitionHart t u coreB h) :=
  hh

theorem repartition_aligned (n : Nat) (p : Bool × BitVec 2) (s : State) (hs : PcAligned s) : PcAligned (repartition n p s) := by
  unfold repartition
  grind [pcAligned_iff, setTile_aligned, pcAligned_foldRange, pcAligned_setHartOf, repartitionHart_aligned, hartAligned_slot]

theorem bankWrite_aligned (b : Bank) (j : Nat) (v : Word) (hb : Aligned4 b.epc) : Aligned4 (bankWrite b j v).epc := by
  unfold bankWrite
  grind [aligned4_mask]

theorem crWriteHart_aligned (s : State) (n : Nat) (v : Word) (hs : PcAligned s) : HartAligned (crWriteHart s n v) := by
  have hh := hartAligned_hart hs
  obtain ⟨hpc, h1, h2⟩ := hartAligned_hart hs
  unfold crWriteHart
  extract_lets h
  iterate 15 refine hartAligned_ite (fun _ => hh) fun _ => ?_
  exact hartAligned_ite (fun _ => ⟨hpc, bankWrite_aligned _ _ _ h1, h2⟩) fun _ => ⟨hpc, h1, bankWrite_aligned _ _ _ h2⟩

theorem dropTlb_aligned (s : State) (c : BitVec 6) (hs : PcAligned s) : PcAligned (State.dropTlb s c) := hs

theorem writePtbase_aligned (v : Word) (s : State) (hs : PcAligned s) : PcAligned (writePtbase v s) := by
  unfold writePtbase
  grind [drainIf_aligned, dropTlb_aligned, setCtx_aligned]

theorem execMfcr_aligned (x : ArgsCr) (s : State) (hs : PcAligned s) : OutAligned (execMfcr x s) := by
  unfold execMfcr
  grind [HartAligned, issue_aligned, destFree_aligned, writeRetire_aligned, pcAligned_setHart, hartAligned_hart, tick_aligned,
    drainedOf_aligned]

theorem postpone_aligned (n : Nat) (v : Word) (s : State) (hs : PcAligned s) : ResAligned (postpone n v s) := by
  unfold postpone
  grind [HartAligned, resAligned_wait, hartAligned_hart, pcAligned_setHart]

theorem execMtcr_aligned (x : ArgsMtcr) (s : State) (hs : PcAligned s) : OutAligned (execMtcr x s) := by
  unfold execMtcr
  grind [issue_aligned, decodeTrap_aligned, readScalars_aligned, retireOnly_aligned, postpone_aligned, repartition_aligned, resAligned_ok,
    resAligned_wait, setCtx_aligned, writePtbase_aligned, drainedOf_aligned, pcAligned_setHart, retire_aligned, crWriteHart_aligned]

theorem retirePending_aligned (k : Nat) (s : State) (hs : PcAligned s) : PcAligned (retirePending k s) := by
  unfold retirePending
  grind [HartAligned, hartAligned_slot, pcAligned_setSlot, retire_aligned]

theorem partitionEvent_aligned (k n : Nat) (s : State) (hs : PcAligned s) : OutAligned (partitionEvent k n s) := by
  unfold partitionEvent
  grind [outAligned_next, retirePending_aligned, repartition_aligned]

theorem execLpart_aligned (slot : Nat) (s : State) (hs : PcAligned s) : OutAligned (execLpart slot s) := partitionEvent_aligned _ _ _ hs

theorem execMaxvl_aligned (slot : Nat) (s : State) (hs : PcAligned s) : OutAligned (execMaxvl slot s) := partitionEvent_aligned _ _ _ hs

theorem execPtbase_aligned (slot : Nat) (s : State) (hs : PcAligned s) : OutAligned (execPtbase slot s) := by
  unfold execPtbase
  grind [pcAligned_iff, outAligned_next, retirePending_aligned, writePtbase_aligned]

theorem execSetvl_aligned (x : ArgsD) (s : State) (hs : PcAligned s) : OutAligned (execSetvl x s) := by
  unfold execSetvl
  grind [HartAligned, issue_aligned, readScalars_aligned, destFree_aligned, hartAligned_hart, resAligned_wait, setRunState_aligned,
    refreshData_aligned, writeRetire_aligned, pcAligned_setHart]

theorem execWaitf_aligned (x : ArgsW) (s : State) (hs : PcAligned s) : OutAligned (execWaitf x s) := by
  unfold execWaitf
  grind [issue_aligned, retireOnly_aligned, resAligned_wait]

theorem execConvoy_aligned (s : State) (hs : PcAligned s) : OutAligned (execConvoy s) := by
  unfold execConvoy
  grind [HartAligned, issue_aligned, retireOnly_aligned, pcAligned_setHart, hartAligned_hart]

theorem execYield_aligned (x : ArgsS) (s : State) (hs : PcAligned s) : OutAligned (execYield x s) := by
  unfold execYield
  grind [issue_aligned, readScalars_aligned, retireOnly_aligned, pcAligned_setSlot, hartAligned_slot]

theorem execYieldReturn_aligned (slot : Nat) (s : State) (hs : PcAligned s) : OutAligned (execYieldReturn slot s) := by
  unfold execYieldReturn
  grind [outAligned_next, hartAligned_slot, pcAligned_setSlot]

/-! ## The save image -/

theorem putNibble_aligned (h : Hart) (sl i v : Nat) (hh : HartAligned h) : HartAligned (Hart.putNibble h sl i v) := hh

theorem putRowByte_aligned (dom m : Nat) (b v : Nat) (s : State) (hs : PcAligned s) : PcAligned (putRowByte dom m b v s) := by
  unfold putRowByte
  grind [pcAligned_iff, pcAligned_foldRange]

theorem imagePutCr_aligned (s : State) (n : Nat) (v : Word) (hs : PcAligned s) : HartAligned (imagePutCr s n v) := by
  unfold imagePutCr
  grind [HartAligned, hartAligned_hart, crWriteHart_aligned]

theorem imagePut_aligned (k off v : Nat) (s : State) (hs : PcAligned s) : PcAligned (imagePut k off v s) := by
  have hh := hartAligned_slot hs k
  unfold imagePut
  extract_lets h lanes dom w put
  have hput : ∀ x, HartAligned x → PcAligned (put x) := fun x hx => pcAligned_setHartOf hs hx
  have hcr : ∀ i, HartAligned (imagePutCr { s with cur := k } i w) := fun i => imagePutCr_aligned _ _ _ hs
  clear_value put w lanes dom
  have hfold : ∀ f : Nat → Hart → Hart, (∀ i x, HartAligned x → HartAligned (f i x)) → HartAligned (foldRange f 0 16 h) :=
    fun f hf => foldRange_keeps hf 0 16 hh
  have hrow : ∀ f : Nat → State → State, (∀ i t, PcAligned t → PcAligned (f i t)) → PcAligned (foldRange f 0 8 s) :=
    fun f hf => foldRange_keeps hf 0 8 hs
  obtain ⟨hpc, h1, h2⟩ := id hh
  refine pcAligned_ite (fun _ => hs) fun _ =>
    pcAligned_ite (fun _ => hput _ ⟨aligned4_mask _, h1, h2⟩) fun _ =>
    pcAligned_ite (fun _ => hput _ hh) fun _ =>
    pcAligned_ite (fun _ => hput _ hh) fun _ =>
    pcAligned_ite (fun _ => hput _ hh) fun _ =>
    pcAligned_ite (fun _ => hs) fun _ =>
    pcAligned_ite (fun _ => hput _ hh) fun _ =>
    pcAligned_ite (fun _ => hput _ (hcr _)) fun _ =>
    pcAligned_ite (fun _ => hput _ ⟨hpc, bankWrite_aligned _ _ _ h1, h2⟩) fun _ =>
    pcAligned_ite (fun _ => hput _ ⟨hpc, h1, bankWrite_aligned _ _ _ h2⟩) fun _ =>
    pcAligned_ite (fun _ => hput _ hh) fun _ =>
    pcAligned_ite (fun _ => hs) fun _ =>
    pcAligned_ite (fun _ => hput _ hh) fun _ =>
    pcAligned_ite (fun _ => hput _ (ws_aligned _ _ _ hh)) fun _ =>
    pcAligned_ite (fun _ => hput _ (wm_aligned _ _ _ hh)) fun _ =>
    pcAligned_ite (fun _ => hput _ (wv_aligned _ _ _ hh)) fun _ =>
    pcAligned_ite (fun _ => hput _ hh) fun _ =>
    pcAligned_ite (fun _ => hs) fun _ =>
    pcAligned_ite (fun _ => hput _ (hfold _ fun i x hx => hartAligned_ite (fun _ => putNibble_aligned _ _ _ _ hx) fun _ => hx)) fun _ =>
    pcAligned_ite (fun _ => hrow _ fun i t ht => putRowByte_aligned _ _ _ _ _ ht) fun _ => hs

theorem physWrite_aligned (s : State) (a n v : Nat) (hs : PcAligned s) : PcAligned (physWrite s a n v) :=
  pcAligned_ite (fun _ => hs) fun _ => hs

theorem saveWords_aligned (k img : Nat) (off n : Nat) (s : State) (hs : PcAligned s) : PcAligned (saveWords k img off n s) := by
  unfold saveWords
  grind [pcAligned_foldRange, physWrite_aligned]

theorem loadWords_aligned (k img : Nat) (off n : Nat) (s : State) (hs : PcAligned s) : PcAligned (loadWords k img off n s) := by
  unfold loadWords
  grind [pcAligned_foldRange, imagePut_aligned]

theorem writeImage_aligned (k : Nat) (at_ : Word) (s : State) (hs : PcAligned s) : PcAligned (writeImage k at_ s) := by
  unfold writeImage
  grind [saveWords_aligned, pcAligned_foldRange]

/-! ## Trap instructions and contexts -/

theorem execEcall_aligned (x : ArgsS) (s : State) (hs : PcAligned s) : OutAligned (execEcall x s) := by
  unfold execEcall
  refine issue_aligned _ _ _ hs fun s hs => readScalars_aligned _ _ _ hs fun s hs => ?_
  exact takeTrap_aligned _ _ _ _ _ _ _ hs (aligned4_add (hartAligned_hart hs).1 aligned4_four)

theorem execTret_aligned (s : State) (hs : PcAligned s) : OutAligned (execTret s) := by
  unfold execTret
  grind [issue_aligned, resAligned_ok, resAligned_trap, returnTrap_aligned]

theorem haltSlot_aligned (k : Nat) (s : State) (hs : PcAligned s) : PcAligned (haltSlot k s) := by
  unfold haltSlot
  grind [HartAligned, dropEarly_aligned, clearRequests_aligned, hartAligned_slot, pcAligned_setSlot]

theorem execBkpt_aligned (b : BitVec 6) (s : State) (hs : PcAligned s) : OutAligned (execBkpt b s) := by
  unfold execBkpt
  grind [issue_aligned, drained_aligned, resAligned_ok, resAligned_trap, haltSlot_aligned]

theorem execCkill_aligned (x : ArgsD) (s : State) (hs : PcAligned s) : OutAligned (execCkill x s) := by
  unfold execCkill
  grind [issue_aligned, readScalars_aligned, destFree_aligned, resAligned_ok, resAligned_trap, kill_aligned, writeLate_aligned]

theorem killWrite_aligned (c : BitVec 6) (s : State) (hs : PcAligned s) : PcAligned (killWrite c s) := by
  unfold killWrite
  grind [kill_aligned]

theorem execKill_aligned (ctx : Nat) (s : State) (hs : PcAligned s) : OutAligned (execKill ctx s) := by
  unfold execKill
  grind [outAligned_next, killWrite_aligned]

theorem execSavectx_aligned (x : ArgsS) (s : State) (hs : PcAligned s) : OutAligned (execSavectx x s) := by
  unfold execSavectx
  grind [issue_aligned, readScalars_aligned, drained_aligned, hartAligned_slot, pcAligned_setSlot, retireOnly_aligned]

theorem preWrite_aligned (k : Nat) (s : State) (hs : PcAligned s) : PcAligned (preWrite k s) := by
  unfold preWrite
  grind [hartAligned_slot, pcAligned_setSlot]

theorem haltWrite_aligned (k : Nat) (s : State) (hs : PcAligned s) : PcAligned (haltWrite k s) := by
  unfold haltWrite
  grind [hartAligned_slot, pcAligned_setSlot]

theorem resumeWrite_aligned (k : Nat) (one : Bool) (s : State) (hs : PcAligned s) : PcAligned (resumeWrite k one s) := by
  unfold resumeWrite
  grind [HartAligned, hartAligned_slot, pcAligned_setSlot]

theorem dropWrite_aligned (k : Nat) (s : State) (hs : PcAligned s) : PcAligned (dropWrite k s) := by
  unfold dropWrite
  grind [hartAligned_slot, pcAligned_setSlot]

theorem saveSlot_aligned (k : Nat) (s : State) (hs : PcAligned s) : PcAligned (saveSlot k s) := by
  unfold saveSlot
  grind [HartAligned, hartAligned_slot, writeImage_aligned, clearRequests_aligned, fenceDevice_aligned, mapRun_aligned, pcAligned_setSlot]

theorem execPreEmption_aligned (slot : Nat) (s : State) (hs : PcAligned s) : OutAligned (execPreEmption slot s) := by
  unfold execPreEmption
  grind [outAligned_next, killLasting_aligned, saveSlot_aligned]

theorem execHaltStop_aligned (slot : Nat) (s : State) (hs : PcAligned s) : OutAligned (execHaltStop slot s) := by
  unfold execHaltStop
  grind [HartAligned, outAligned_next, hartAligned_slot, haltSlot_aligned, pcAligned_setHartOf]

theorem execTimeSliceExpiry_aligned (slot : Nat) (s : State) (hs : PcAligned s) : OutAligned (execTimeSliceExpiry slot s) := by
  unfold execTimeSliceExpiry
  grind [hartAligned_slot, outAligned_next, setCtx_aligned, pcAligned_setSlot]

theorem moveTask_aligned (k : Nat) (c : BitVec 6) (task : BitVec 32) (s : State) (hs : PcAligned s) : PcAligned (moveTask k c task s) := by
  unfold moveTask
  grind [pcAligned_iff, HartAligned, pcAligned_setHartOf, hartAligned_slot]

theorem dropClosed_aligned (s : State) (c : BitVec 6) (task : BitVec 32) (h : Hart) (hh : HartAligned h) :
    HartAligned (dropClosed s c task h) := by
  unfold dropClosed
  grind [HartAligned]

theorem loadImage_aligned (k img : Nat) (p : ImageHead) (s : State) (hs : PcAligned s) : PcAligned (loadImage k img p s) := by
  unfold loadImage
  grind [HartAligned, hartAligned_slot, pcAligned_setSlot, loadWords_aligned, pcAligned_foldRange, pcAligned_setHartOf,
    dropClosed_aligned, grantUnits_aligned, moveTask_aligned, refreshData_aligned]

theorem restoreWrite_aligned (k : Nat) (s : State) (hs : PcAligned s) : PcAligned (restoreWrite k s) := by
  unfold restoreWrite
  grind [hartAligned_slot, useFailed_aligned, loadImage_aligned, pcAligned_setSlot]

theorem reloadNext_aligned (k : Nat) (r : Reload) (n fuel : Nat) (s : State) (hs : PcAligned s) : PcAligned (reloadNext k r n fuel s) := by
  induction fuel generalizing n s with
  | zero => exact hs
  | succ fuel ih =>
    unfold reloadNext
    extract_lets h img step groups t h1 t' h1'
    have hstep : ∀ t g, PcAligned t → HartAligned g → PcAligned (step t g) := fun t g ht hg => pcAligned_setSlot ht hg
    have ht : PcAligned t := loadWords_aligned _ _ _ _ _ hs
    have ht' : PcAligned t' := loadWords_aligned _ _ _ _ _ hs
    clear_value step t t'
    split
    · split
      · exact ih _ _ (hstep _ _ hs (hartAligned_slot hs k))
      · exact hstep _ _ ht (hartAligned_slot ht k)
    · exact hstep _ _ ht' (hartAligned_slot ht' k)

theorem execSliceReload_aligned (slot : Nat) (s : State) (hs : PcAligned s) : OutAligned (execSliceReload slot s) := by
  unfold execSliceReload
  grind [outAligned_next, killLasting_aligned, reloadNext_aligned]

theorem debugWrite_aligned (v : Word) (s : State) (hs : PcAligned s) : PcAligned (debugWrite v s) := by
  unfold debugWrite
  grind [HartAligned, hartAligned_slot, imagePut_aligned, pcAligned_setHartOf]

theorem execDebugData_aligned (write : Bool) (v : Word) (s : State) (hs : PcAligned s) : OutAligned (execDebugData write v s) := by
  unfold execDebugData
  grind [outAligned_next, debugWrite_aligned]

/-! ## Atomics -/

theorem atomicAt_aligned (op : MemOp) (w : Nat) (loc : Loc) (v e : Nat) (s : State) (hs : PcAligned s) :
    PcAligned (atomicAt op w loc v e s).2.2 := by
  unfold atomicAt
  grind [drainIf_aligned, performWrite_aligned]

theorem atomicElem_aligned (op : MemOp) (w : Nat) (v : Nat → Nat) (e : Nat → Nat) (s : State) (a : Accessed) (hs : PcAligned s) :
    PcAligned (atomicElem op w v e s a).2 := by
  unfold atomicElem
  grind [sendRequest_aligned, atomicAt_aligned]

theorem atomicElems_aligned (op : MemOp) (w : Nat) (v e : Nat → Nat) (one : Bool) (l : List Accessed) (s : State) (hs : PcAligned s) :
    PcAligned (atomicElems op w v e one l s).2 := by
  fun_induction atomicElems op w v e one l s <;> grind [atomicElem_aligned]

theorem holdUpdate_aligned (c : BitVec 6) (g : Nat) (p : BitVec 32) (loc : Loc) (n : Nat) (u : HeldUpd) (s : State) (hs : PcAligned s) :
    ∀ t, holdUpdate c g p loc n u s = some t → PcAligned t := by
  unfold holdUpdate
  grind [pcAligned_iff]

theorem holdElems_aligned (c : BitVec 6) (g : Nat) (p task : BitVec 32) (order sz : Nat) (act : Nat → Bool) (addr : Nat → Word) (v : Nat → Nat)
    (i n : Nat) (s : State) (hs : PcAligned s) : PcAligned (holdElems c g p task order sz act addr v i n s).1 := by
  fun_induction holdElems c g p task order sz act addr v i n s <;> grind [holdUpdate_aligned]

theorem holdAtomics_aligned (i : Instr) (sz lo hi : Nat) (act : Nat → Bool) (addr : Nat → Word) (v : Nat → Nat) (s : State) (fin : State → Res)
    (hs : PcAligned s) (hfin : ∀ t, PcAligned t → ResAligned (fin t)) : ResAligned (holdAtomics i sz lo hi act addr v s fin) := by
  unfold holdAtomics
  grind [resAligned_ok, resAligned_trap, resAligned_wait, noteSpace_aligned, killLasting_aligned, holdElems_aligned, mapRun_aligned]

theorem runAtomics_aligned (op : MemOp) (w hi : Nat) (act : Nat → Bool) (addr : Nat → Word) (v e : Nat → Nat) (s : State) (fin : AtomicsDone → Res)
    (hs : PcAligned s) (hfin : ∀ r, PcAligned r.s → ResAligned (fin r)) : ResAligned (runAtomics op w hi act addr v e s fin) := by
  unfold runAtomics
  grind [resAligned_ok, resAligned_trap, resAligned_wait, noteSpace_aligned, killLasting_aligned, clearRequests_aligned,
    atomicElems_aligned, pcAligned_setHart, hartAligned_hart, HartAligned]

theorem execAtomic_aligned (i : Instr) (op : MemOp) (x : ArgsG) (s : State) (hs : PcAligned s) : OutAligned (execAtomic i op x s) := by
  unfold execAtomic
  refine issue_aligned _ _ _ hs fun s hs => ?_
  extract_lets w held cas
  split
  · refine readScalars_aligned _ _ _ hs fun s hs => ?_
    extract_lets h addr opnd v
    split
    · exact holdAtomics_aligned _ _ _ _ _ _ _ _ _ hs fun t ht => retireOnly_aligned _ ht
    · exact runAtomics_aligned _ _ _ _ _ _ _ _ _ hs fun r hr =>
        writeLate_aligned _ _ _ _ (pcAligned_setHart hr (orFlags_aligned _ _ (hartAligned_hart hr)))
  · refine vecPre_aligned _ _ _ _ hs fun s stop hs => ?_
    split
    · exact stop_aligned _ _ _ hs
    · extract_lets h addr opnd v fin
      split
      · refine holdAtomics_aligned _ _ _ _ _ _ _ _ _ hs fun t ht => ?_
        exact enter_aligned _ _ _ _ _ _ _ (consume_aligned _ _ _ (pcAligned_setHart ht (retire_aligned _ (hartAligned_hart ht))))
      · refine runAtomics_aligned _ _ _ _ _ _ _ _ _ hs fun r hr => ?_
        have hh := hartAligned_hart hr
        refine enter_aligned _ _ _ _ _ _ _ (consume_aligned _ _ _ (pcAligned_setHart hr (retire_aligned _ (orFlags_aligned _ _ ?_))))
        exact hartAligned_ite (fun _ => hh) fun _ => touch_aligned _ _ _ hh

/-! ## Instructions across elements -/

theorem reduction_aligned (i : Instr) (x : ArgsR) (pre : Nat → Nat → Nat) (ini : Nat → Nat) (fin : Nat → Nat → Word)
    (op : State → Nat → Nat → Nat → Nat × Flags) (s : State) (hs : PcAligned s) :
    OutAligned (reduction i x pre ini fin op s) := by
  unfold reduction
  grind [issue_aligned, crossElement_aligned, hartAligned_hart, orFlags_aligned, ws_aligned]

theorem intReduction_aligned (i : Instr) (x : ArgsR) (signed : Bool) (op : Nat → Nat → Nat → Nat) (s : State) (hs : PcAligned s) :
    OutAligned (intReduction i x signed op s) :=
  reduction_aligned _ _ _ _ _ _ _ hs

theorem floatReduction_aligned (i : Instr) (x : ArgsR) (op : Fmt → RCtl → FV → FV → Nat × Flags) (s : State) (hs : PcAligned s) :
    OutAligned (floatReduction i x op s) :=
  reduction_aligned _ _ _ _ _ _ _ hs

theorem scanLanes_aligned (i : Instr) (x : ArgsR) (op : State → Nat → Nat → Nat → Nat × Flags) (s : State) (hs : PcAligned s) :
    OutAligned (scanLanes i x op s) := by
  unfold scanLanes
  grind [HartAligned, issue_aligned, crossElement_aligned, hartAligned_hart, touch_aligned, orFlags_aligned]

theorem packed_aligned (h : Hart) (w d : Nat) (r : SMap Row × Nat) (hh : HartAligned h) : HartAligned (packed h w d r) := by
  unfold packed
  grind [HartAligned, touch_aligned]

theorem execCompress_aligned (x : ArgsP) (s : State) (hs : PcAligned s) : OutAligned (execCompress x s) := by
  unfold execCompress
  grind [issue_aligned, crossElement_aligned, packed_aligned, hartAligned_hart]

theorem execExpand_aligned (x : ArgsP) (s : State) (hs : PcAligned s) : OutAligned (execExpand x s) := by
  unfold execExpand
  grind [issue_aligned, crossElement_aligned, packed_aligned, hartAligned_hart]

theorem execNzscan_aligned (x : ArgsN) (s : State) (hs : PcAligned s) : OutAligned (execNzscan x s) := by
  unfold execNzscan
  grind [issue_aligned, crossElement_aligned, hartAligned_hart, ws_aligned, packed_aligned]

theorem fillActive_aligned (h : Hart) (w d : Nat) (val : Nat → Option Nat) (hh : HartAligned h) : HartAligned (fillActive h w d val) := by
  unfold fillActive
  grind [HartAligned, touch_aligned]

theorem execIota_aligned (x : ArgsM) (s : State) (hs : PcAligned s) : OutAligned (execIota x s) := by
  unfold execIota
  grind [issue_aligned, crossElement_aligned, hartAligned_hart, fillActive_aligned]

theorem slideLanes_aligned (i : Instr) (up : Bool) (x : ArgsA) (val : State → Src → Nat → Nat → Option Nat) (s : State)
    (hs : PcAligned s) :
    OutAligned (slideLanes i up x val s) := by
  unfold slideLanes
  grind [issue_aligned, crossElement_aligned, fillActive_aligned, hartAligned_hart]

theorem execPerm_aligned (x : ArgsR) (s : State) (hs : PcAligned s) : OutAligned (execPerm x s) := by
  unfold execPerm
  grind [issue_aligned, crossElement_aligned, fillActive_aligned, hartAligned_hart]

/-! ## Fences and sync objects -/

theorem withRef_aligned (v : Word) (s : State) (k : Nat → Channel → Res) (hs : PcAligned s) (hk : ∀ a b, ResAligned (k a b)) :
    ResAligned (withRef v s k) := by
  unfold withRef
  grind [resAligned_ok, resAligned_trap, killLasting_aligned]

theorem exchangeTrap_aligned (code slot detail : Nat) (s : State) (hs : PcAligned s) : ResAligned (exchangeTrap code slot detail s) := hs

theorem slotlessTrap_aligned (code detail : Nat) (s : State) (hs : PcAligned s) : ResAligned (slotlessTrap code detail s) := by
  unfold slotlessTrap
  grind [exchangeTrap_aligned, tick_aligned]

theorem withRound_aligned (slot : Nat) (s : State) (k : Round → Participant → Res) (hs : PcAligned s) (hk : ∀ a b, ResAligned (k a b)) :
    ResAligned (withRound slot s k) := by
  unfold withRound
  grind [exchangeTrap_aligned]

theorem faultedTrap_aligned (slot : Nat) (r : Round) (p : Participant) (s : State) (hs : PcAligned s) :
    ResAligned (faultedTrap slot r p s) := by
  unfold faultedTrap
  grind [exchangeTrap_aligned]

theorem execFence_aligned (scope : BitVec 6) (s : State) (hs : PcAligned s) : OutAligned (execFence scope s) := by
  unfold execFence
  grind [issue_aligned, drained_aligned, resAligned_wait, retireOnly_aligned, refreshHart_aligned, fenceTile_aligned, fenceDevice_aligned]

theorem execStorePerformed_aligned (slot k : Nat) (s : State) (hs : PcAligned s) : OutAligned (execStorePerformed slot k s) := by
  unfold execStorePerformed
  grind [pcAligned_iff, outAligned_next, performWrite_aligned]

theorem execBind_aligned (x : ArgsT) (s : State) (hs : PcAligned s) : OutAligned (execBind x s) := by
  unfold execBind
  grind [pcAligned_iff, issue_aligned, readScalars_aligned, resAligned_trap, onChk_aligned, writeLate_aligned]

theorem execUnbind_aligned (x : ArgsS) (s : State) (hs : PcAligned s) : OutAligned (execUnbind x s) := by
  unfold execUnbind
  grind [pcAligned_iff, issue_aligned, readScalars_aligned, drained_aligned, fenceDevice_aligned, retireOnly_aligned]

theorem performBound_aligned (s : State) (o : Nat) (loc : Loc) (hs : PcAligned s) : PcAligned (performBound s o loc) :=
  drainIf_aligned _ _ hs

theorem discardBound_aligned (s : State) (o : Nat) (hs : PcAligned s) : PcAligned (discardBound s o) := hs

theorem syncRead_aligned (x : Access) (o : Word) (s : State) (k : Nat → State → Res) (hs : PcAligned s)
    (hk : ∀ a t, PcAligned t → ResAligned (k a t)) :
    ResAligned (syncRead x o s k) := by
  unfold syncRead
  grind [oneAccess_aligned, dropCopies_aligned, drainIf_aligned]

theorem execAcq_aligned (x : ArgsJ) (s : State) (hs : PcAligned s) : OutAligned (execAcq x s) := by
  unfold execAcq
  grind [issue_aligned, readScalars_aligned, syncRead_aligned, resAligned_wait, clearRequests_aligned, writeLate_aligned,
    discardBound_aligned, cleanEnd_aligned]

theorem execRel_aligned (x : ArgsRel) (s : State) (hs : PcAligned s) : OutAligned (execRel x s) := by
  unfold execRel
  grind [issue_aligned, readScalars_aligned, drained_aligned, resAligned_trap, resAligned_wait, clearRequests_aligned, retireOnly_aligned,
    cleanEnd_aligned, performBound_aligned, sendRequest_aligned, performWrite_aligned, onChk_aligned]

theorem joinQueue_aligned (s : State) (q : Word) (tail : Nat) (hs : PcAligned s) : ∀ r, joinQueue s q tail = .trap r → ResAligned r := by
  unfold joinQueue
  grind [resAligned_trap, exchangeTrap_aligned, faultedTrap_aligned]

theorem execQfence_aligned (x : ArgsQ) (s : State) (hs : PcAligned s) : OutAligned (execQfence x s) := by
  unfold execQfence
  refine issue_aligned _ _ _ hs fun s hs => readScalars_aligned _ _ _ hs fun s hs => ?_
  have hj := fun q t => joinQueue_aligned s q t hs
  have hh := hartAligned_hart hs
  grind [resAligned_ok, resAligned_wait, pcAligned_setHart, refreshData_aligned, retire_aligned, HartAligned]

/-! ## Rounds -/

theorem setRound_aligned (s : State) (k : Nat) (r : Round) (hs : PcAligned s) : PcAligned (State.setRound s k r) := hs

theorem faultRound_aligned (k code detail : Nat) (s : State) (hs : PcAligned s) : PcAligned (faultRound k code detail s) := by
  unfold faultRound
  grind [pcAligned_iff, clearEngine_aligned, setRound_aligned]

theorem wordCheck_aligned (v : Word) (off n align : Nat) (a : Acc) (s : State) (k : State → Res) (hs : PcAligned s)
    (hk : ∀ t, PcAligned t → ResAligned (k t)) :
    ResAligned (wordCheck v off n align a s k) := by
  unfold wordCheck
  grind [resAligned_trap]

theorem notFaulted_aligned (slot : Nat) (r : Round) (p : Participant) (s : State) (k : State → Res) (hs : PcAligned s)
    (hk : ∀ t, PcAligned t → ResAligned (k t)) :
    ResAligned (notFaulted slot r p s k) := by
  unfold notFaulted
  grind [faultedTrap_aligned]

/-! ## Exchange instructions -/

theorem joinRound_aligned (d : BitVec 6) (k : Nat) (r : Round) (s : State) (hs : PcAligned s) : ResAligned (joinRound d k r s) := by
  unfold joinRound
  grind [exchangeTrap_aligned, writeLate_aligned, setRound_aligned]

theorem openRound_aligned (d : BitVec 6) (desc : BitVec 512) (s : State) (hs : PcAligned s) : ResAligned (openRound d desc s) := by
  unfold openRound
  grind [slotlessTrap_aligned, fenceDevice_aligned, resAligned_wait, exchangeTrap_aligned, joinRound_aligned]

theorem execXopen_aligned (x : ArgsD) (s : State) (hs : PcAligned s) : OutAligned (execXopen x s) := by
  unfold execXopen
  grind [issue_aligned, readScalars_aligned, drained_aligned, resAligned_ok, resAligned_trap, resAligned_wait, killLasting_aligned,
    oneAccess_aligned, openRound_aligned, cleanEnd_aligned]

theorem execXclose_aligned (x : ArgsS) (s : State) (hs : PcAligned s) : OutAligned (execXclose x s) := by
  unfold execXclose
  grind [issue_aligned, readScalars_aligned, withRound_aligned, notFaulted_aligned, retireOnly_aligned, setRound_aligned]

theorem execXrecv_aligned (x : ArgsQ) (s : State) (hs : PcAligned s) : OutAligned (execXrecv x s) := by
  unfold execXrecv
  grind [issue_aligned, readScalars_aligned, withRound_aligned, wordCheck_aligned, exchangeTrap_aligned, retireOnly_aligned,
    setRound_aligned]

theorem execXdone_aligned (x : ArgsS) (s : State) (hs : PcAligned s) : OutAligned (execXdone x s) := by
  unfold execXdone
  grind [pcAligned_iff, issue_aligned, readScalars_aligned, withRound_aligned, exchangeTrap_aligned, resAligned_wait, refreshData_aligned,
    retireOnly_aligned, setRound_aligned]

theorem writeRun_aligned (k base rs : Nat) (l : List Nat) (s : State) (hs : PcAligned s) : PcAligned (writeRun k base rs l s) := by
  unfold writeRun
  grind [pcAligned_foldl, writeLoc_aligned]

theorem execXsort_aligned (x : ArgsT) (s : State) (hs : PcAligned s) : OutAligned (execXsort x s) := by
  unfold execXsort
  grind [issue_aligned, readScalars_aligned, drained_aligned, withRound_aligned, exchangeTrap_aligned, wordCheck_aligned,
    notFaulted_aligned, resAligned_wait, setRound_aligned, dropEarly_aligned, writeRun_aligned, writeLate_aligned]

theorem execXsend_aligned (x : ArgsT) (s : State) (hs : PcAligned s) : OutAligned (execXsend x s) := by
  unfold execXsend
  grind [issue_aligned, readScalars_aligned, drained_aligned, withRound_aligned, wordCheck_aligned, exchangeTrap_aligned,
    notFaulted_aligned, fenceDevice_aligned, writeLate_aligned, setRound_aligned]

theorem execXsplit_aligned (x : ArgsT) (s : State) (hs : PcAligned s) : OutAligned (execXsplit x s) := by
  unfold execXsplit
  grind [issue_aligned, resAligned_trap, resAligned_wait, readScalars_aligned, withRound_aligned, notFaulted_aligned, elementwise_aligned]

theorem replaced_aligned (d : BitVec 6) (raw v : Word) (s : State) (hs : PcAligned s) : ResAligned (replaced d raw v s) := by
  unfold replaced
  grind [HartAligned, writeLate_aligned, pcAligned_setHart, hartAligned_hart]

theorem execXwait_aligned (x : ArgsT) (s : State) (hs : PcAligned s) : OutAligned (execXwait x s) := by
  unfold execXwait
  grind [issue_aligned, readScalars_aligned, destFree_aligned, withRound_aligned, replaced_aligned, notFaulted_aligned,
    refreshData_aligned, resAligned_wait, writeLate_aligned]

theorem wordAccesses_aligned (wr : Bool) (base lo n : Nat) (data : Nat → Nat) (s : State) (k : (Nat → Nat) → State → Res) (hs : PcAligned s)
    (hk : ∀ f t, PcAligned t → ResAligned (k f t)) : ResAligned (wordAccesses wr base lo n data s k) := by
  unfold wordAccesses
  extract_lets acc addr p own t got _ u
  have hp : PcAligned p.s := planElems_aligned _ _ _ _ _ _ _ _ _ _ hs
  have ht : PcAligned t := pcAligned_ite (fun _ => storeElems_aligned _ _ _ _ hp) fun _ => hp
  have hu : PcAligned u := pcAligned_setHart ht (hartAligned_hart ht)
  clear_value u p
  grind [resAligned_ok, resAligned_trap, resAligned_wait, killLasting_aligned, cleanEnd_aligned]

theorem execXsamp_aligned (x : ArgsT) (s : State) (hs : PcAligned s) : OutAligned (execXsamp x s) := by
  unfold execXsamp
  grind [issue_aligned, readScalars_aligned, destFree_aligned, withRound_aligned, resAligned_trap, wordAccesses_aligned,
    writeLate_aligned, cleanEnd_aligned]

theorem execXrbal_aligned (x : ArgsT) (s : State) (hs : PcAligned s) : OutAligned (execXrbal x s) := by
  unfold execXrbal
  grind [issue_aligned, readScalars_aligned, destFree_aligned, resAligned_trap, wordAccesses_aligned, slotlessTrap_aligned,
    clearRequests_aligned, writeLate_aligned, cleanEnd_aligned]

/-! ## Remote requests at their target -/

theorem reply_aligned (s : State) (q : RemoteReq) (c : Option (BitVec 6)) (refused : Bool) (data : Nat) (hs : PcAligned s) :
    PcAligned (reply s q c refused data) := by
  unfold reply
  grind [pcAligned_iff, portCount_aligned]

theorem perform_aligned (q : RemoteReq) (s : State) (hs : PcAligned s) : PcAligned (perform q s).1 := by
  unfold perform
  grind [homeWrite_aligned]

theorem takeRequest_aligned (q : RemoteReq) (s : State) (hs : PcAligned s) : PcAligned (takeRequest q s) := by
  unfold takeRequest
  grind [pcAligned_iff, reply_aligned, killFor_aligned, perform_aligned]

theorem execRemoteRequest_aligned (reqs : List RemoteReq) (s : State) (hs : PcAligned s) : OutAligned (execRemoteRequest reqs s) := by
  unfold execRemoteRequest
  grind [outAligned_next, pcAligned_foldl, takeRequest_aligned]

theorem execFilterFree_aligned (index : Nat) (s : State) (hs : PcAligned s) : OutAligned (execFilterFree index s) := by
  unfold execFilterFree
  grind [pcAligned_iff, outAligned_next]

theorem execRemoteReply_aligned (reply : RemoteReply) (s : State) (hs : PcAligned s) : OutAligned (execRemoteReply reply s) := hs

theorem execResend_aligned (index : Nat) (s : State) (hs : PcAligned s) : OutAligned (execResend index s) := by
  unfold execResend
  grind [pcAligned_iff, outAligned_next, portCount_aligned]

theorem faultLanes_aligned (x y : Nat) (s : State) (hs : PcAligned s) : PcAligned (faultLanes x y s) := by
  unfold faultLanes
  grind [pcAligned_foldRange, faultRound_aligned]

theorem failLink_aligned (j : Nat) (loc : BitVec 32) (s : State) (hs : PcAligned s) : PcAligned (failLink j loc s) := by
  unfold failLink
  grind [pcAligned_iff, countLasting_aligned, faultLanes_aligned]

theorem failOther_aligned (a b : Nat) (s : State) (hs : PcAligned s) : PcAligned (failOther a b s) := by
  unfold failOther
  grind [pcAligned_iff, faultLanes_aligned]

theorem execLinkFailed_aligned (link : Nat) (loc : BitVec 32) (s : State) (hs : PcAligned s) : OutAligned (execLinkFailed link loc s) := by
  unfold execLinkFailed
  grind [outAligned_next, failLink_aligned, failOther_aligned]

/-! ## Tasks on slots -/

theorem execTaskq_aligned (x : ArgsD) (s : State) (hs : PcAligned s) : OutAligned (execTaskq x s) := by
  unfold execTaskq
  grind [issue_aligned, readScalars_aligned, destFree_aligned, resAligned_trap, oneAccess_aligned, fenceDevice_aligned, submit_aligned,
    writeRetire_aligned, cleanEnd_aligned]

theorem publish_aligned (s : State) (v : BitVec 32) (hs : PcAligned s) : PcAligned (publish s v) := by
  unfold publish
  grind [pcAligned_iff, mapMark_aligned]

theorem execHwmpub_aligned (x : ArgsS) (s : State) (hs : PcAligned s) : OutAligned (execHwmpub x s) := by
  unfold execHwmpub
  grind [issue_aligned, readScalars_aligned, drained_aligned, retireOnly_aligned, publish_aligned, fenceDevice_aligned]

theorem execGbar_aligned (x : ArgsD) (s : State) (hs : PcAligned s) : OutAligned (execGbar x s) := by
  unfold execGbar
  grind [issue_aligned, readScalars_aligned, destFree_aligned, writeRetire_aligned, setRunState_aligned, mapRun_aligned,
    refreshData_aligned, resAligned_trap, resAligned_wait, drained_aligned, setGroup_aligned, fenceDevice_aligned, checkPhase_aligned]

theorem finishWait_aligned (c : Nat) (x : Channel) (v : Slot) (hv : HartAligned v.hart) : HartAligned (finishWait c x v).hart := by
  unfold finishWait
  grind [HartAligned]

theorem closeChan_aligned (s : State) (c : Nat) (hs : PcAligned s) : PcAligned (s.closeChan c) := by
  unfold State.closeChan
  simp only [pcAligned_iff]
  refine ⟨slotsAligned_mapAll (fun _ v hv => ?_) hs.1, hs.2⟩
  grind [finishWait_aligned, HartAligned]

theorem detachAll_aligned (k : Nat) (s : State) (hs : PcAligned s) : PcAligned (detachAll k s) := by
  unfold detachAll
  grind [HartAligned, hartAligned_slot, pcAligned_foldl, closeChan_aligned, setChan_aligned, pcAligned_setHartOf]

theorem decrementFrom_aligned (c : BitVec 6) (l : List (BitVec 32)) (n : Nat) (s : State) (hs : PcAligned s) :
    PcAligned (decrementFrom c l n s).1 := by
  fun_induction decrementFrom c l n s <;> grind [decrement_aligned]

theorem endState_aligned (v : Slot) (hv : HartAligned v.hart) : HartAligned (endState v).hart := hv

theorem finishTask_aligned (k : Nat) (s : State) (hs : PcAligned s) : PcAligned (finishTask k s) := by
  unfold finishTask
  split
  · exact hs
  · next r _ =>
    have hd := decrementFrom_aligned (s.ctxOf k) (r.rc.dependents.drop r.ended) r.ended s hs
    grind [detachAll_aligned, endState_aligned, mapRun_aligned, pcAligned_setSlot, hartAligned_slot, pcAligned_iff]

theorem endMember_aligned (c : BitVec 6) (id : BitVec 32) (s : State) (g : Nat) (hs : PcAligned s) : PcAligned (endMember c id s g) := by
  unfold endMember
  grind [checkPhase_aligned, setGroup_aligned]

theorem finalMarks_aligned (c : BitVec 6) (r : TaskRec) (s : State) (hs : PcAligned s) : PcAligned (finalMarks c r s) := by
  unfold finalMarks
  grind [mapMark_aligned]

theorem retireTask_aligned (r : RunTask) (n : Word) (s : State) (hs : PcAligned s) : PcAligned (retireTask r n s) := by
  unfold retireTask
  grind [finalMarks_aligned, mapRun_aligned, setCtx_aligned, finishTask_aligned, pcAligned_foldl, endMember_aligned]

theorem execTaskend_aligned (s : State) (hs : PcAligned s) : OutAligned (execTaskend s) := by
  unfold execTaskend
  grind [issue_aligned, hartAligned_slot, resAligned_ok, resAligned_trap, resAligned_wait, finishTask_aligned, drained_aligned,
    fenceDevice_aligned, pcAligned_setSlot, endState_aligned, retireTask_aligned, oneAccess_aligned, cleanEnd_aligned]

theorem startTask_aligned (k d : Nat) (h : Held) (s : State) (hh : Aligned4 h.rc.entry) (hs : PcAligned s) :
    PcAligned (startTask k d h s) := by
  unfold startTask
  extract_lets v r h0 _ h1 h2 v1 t
  have ht : PcAligned t := ⟨hs.1, heldAligned_filter _ hs.2⟩
  have h1a : HartAligned h1 := ⟨hh, rfl, rfl⟩
  exact pcAligned_setSlot (refreshData_aligned _ _ ht) (ws_aligned _ _ _ (ws_aligned _ _ _ h1a))

theorem oldest_aligned {s : State} {k d q : Nat} {h : Held} (hs : PcAligned s) (ho : oldest s k d q = some h) : Aligned4 h.rc.entry :=
  hs.2 h (List.mem_of_find?_eq_some ho)

theorem serveQueue_aligned (d q : Nat) (l : List Nat) (s : State) (hs : PcAligned s) : PcAligned (serveQueue d q l s).1 := by
  fun_induction serveQueue d q l s <;> grind [oldest_aligned, startTask_aligned]

theorem serveDie_aligned (s0 : State) (slots : List Nat) (d q : Nat) (passed : List Nat) (s : State) (hs : PcAligned s) :
    PcAligned (serveDie s0 slots d q passed s) := by
  fun_induction serveDie s0 slots d q passed s <;> grind [serveQueue_aligned]

theorem execPop_aligned (d : Nat) (s : State) (hs : PcAligned s) : OutAligned (execPop d s) := by
  unfold execPop
  grind [outAligned_next, serveDie_aligned]

theorem bindWrite_aligned (slot : Nat) (v : BitVec 16) (s : State) (hs : PcAligned s) : PcAligned (bindWrite slot v s) := by
  unfold bindWrite
  grind [hartAligned_slot, pcAligned_setSlot]

theorem clearErr_aligned (slot : Nat) (s : State) (hs : PcAligned s) : PcAligned (clearErr slot s) := by
  unfold clearErr
  grind [hartAligned_slot, pcAligned_setSlot]

theorem payOwed_aligned (c : BitVec 6) (l : List (BitVec 6 × BitVec 32)) (s : State) (hs : PcAligned s) : PcAligned (payOwed c l s) := by
  induction l generalizing s with
  | nil => exact hs
  | cons o l ih =>
    unfold payOwed
    split
    · split
      · exact hs
      · next t ht => exact ih _ (decrement_aligned _ _ _ hs t ht)
    · exact ih _ hs

theorem execCreditFreed_aligned (ctx : Nat) (s : State) (hs : PcAligned s) : OutAligned (execCreditFreed ctx s) := by
  unfold execCreditFreed
  extract_lets c ending t u
  have ht : PcAligned t := foldl_keeps (fun st k hst => finishTask_aligned k st hst) ending hs
  exact payOwed_aligned _ _ _ ht

/-! ## Tables of firmware -/

theorem windowWrite_aligned (w : Nat) (v : BitVec 32) (s : State) (hs : PcAligned s) : PcAligned (windowWrite w v s) := by
  unfold windowWrite
  grind [pcAligned_iff, drainIf_aligned]

theorem execWindowGrant_aligned (window : Nat) (v : BitVec 32) (s : State) (hs : PcAligned s) :
    OutAligned (execWindowGrant window v s) := by
  unfold execWindowGrant
  grind [outAligned_next, windowWrite_aligned]

theorem execWindowRevoke_aligned (window : Nat) (v : BitVec 32) (s : State) (hs : PcAligned s) :
    OutAligned (execWindowRevoke window v s) := by
  unfold execWindowRevoke
  grind [outAligned_next, windowWrite_aligned]

theorem execWindowScrubEnd_aligned (window : Nat) (s : State) (hs : PcAligned s) : OutAligned (execWindowScrubEnd window s) := by
  unfold execWindowScrubEnd
  grind [pcAligned_iff, outAligned_next, windowWrite_aligned]

theorem tableWrite_aligned (n : Nat) (v : BitVec 32) (s : State) (hs : PcAligned s) : PcAligned (tableWrite n v s) :=
  setTile_aligned _ _ _ hs

theorem execTableGrant_aligned (tile : Nat) (v : BitVec 32) (s : State) (hs : PcAligned s) : OutAligned (execTableGrant tile v s) := by
  unfold execTableGrant
  grind [outAligned_next, tableWrite_aligned]

theorem execTableZeroingEnd_aligned (tile : Nat) (s : State) (hs : PcAligned s) : OutAligned (execTableZeroingEnd tile s) := by
  unfold execTableZeroingEnd
  grind [outAligned_next, setTile_aligned]

theorem invalWrite_aligned (v : Word) (s : State) (hs : PcAligned s) : PcAligned (invalWrite v s) :=
  pcAligned_ite (fun _ => hs) fun _ => hs

theorem execGo_aligned (v : Word) (s : State) (hs : PcAligned s) : OutAligned (execGo v s) := by
  unfold execGo
  grind [outAligned_next, invalWrite_aligned]

theorem execInvalidationEnd_aligned (s : State) (hs : PcAligned s) : OutAligned (execInvalidationEnd s) := by
  unfold execInvalidationEnd
  grind [pcAligned_iff, outAligned_next]

theorem fillTlb_aligned (c : BitVec 6) (va : Nat) (l : State.Leaf) (s : State) (unit : Nat) (hs : PcAligned s) :
    PcAligned (fillTlb c va l s unit) :=
  pcAligned_ite (fun _ => hs) fun _ => hs

theorem execWalk_aligned (unit ctx : Nat) (va : Word) (s : State) (hs : PcAligned s) : OutAligned (execWalk unit ctx va s) := by
  unfold execWalk
  grind [pcAligned_iff, outAligned_next, pcAligned_foldl, fillTlb_aligned]

theorem makeResident_aligned (c : BitVec 6) (s : State) (hs : PcAligned s) : PcAligned (makeResident c s) := setCtx_aligned _ _ _ hs

theorem endNormally_aligned (c : BitVec 6) (hseq : BitVec 32) (s : State) (hs : PcAligned s) : PcAligned (endNormally c hseq s) := by
  unfold endNormally
  grind [post_aligned, releaseCtx_aligned, setCtx_aligned]

theorem clearRes_aligned (c : BitVec 6) (s : State) (hs : PcAligned s) : PcAligned (clearRes c s) := by
  unfold clearRes
  grind [endNormally_aligned]

theorem execContextEnd_aligned (ctx : Nat) (s : State) (hs : PcAligned s) : OutAligned (execContextEnd ctx s) := by
  unfold execContextEnd
  grind [outAligned_next, clearRes_aligned]

theorem controlWrite_aligned (c : BitVec 6) (v : Word) (s : State) (hs : PcAligned s) : PcAligned (controlWrite c v s) := by
  unfold controlWrite
  grind [killWrite_aligned, clearRes_aligned, setCtx_aligned, makeResident_aligned]

theorem blockWrite_aligned (c : BitVec 6) (j : Nat) (v : Word) (s : State) (hs : PcAligned s) : PcAligned (blockWrite c j v s) := by
  unfold blockWrite
  grind [controlWrite_aligned, setCtx_aligned]

theorem switchWrite_aligned (k j : Nat) (v : Word) (s : State) (hs : PcAligned s) : PcAligned (switchWrite k j v s) := by
  unfold switchWrite
  grind [pcAligned_setSlot, hartAligned_slot, dropWrite_aligned, restoreWrite_aligned, resumeWrite_aligned, haltWrite_aligned,
    preWrite_aligned]

theorem failWrite_aligned (n : Nat) (s : State) (hs : PcAligned s) : PcAligned (failWrite n s) := by
  unfold failWrite
  grind [pcAligned_iff, faultLanes_aligned]

theorem mgmtWrite_aligned (addr : Nat) (v : Word) (s : State) (hs : PcAligned s) : PcAligned (mgmtWrite addr v s) := by
  unfold mgmtWrite
  extract_lets at_ q
  clear_value at_ q
  refine pcAligned_ite (fun _ =>
      pcAligned_ite (fun _ => bindWrite_aligned _ _ _ (pcAligned_ite (fun _ => clearErr_aligned _ _ hs) fun _ => hs)) fun _ => hs) fun _ =>
    pcAligned_ite (fun _ => windowWrite_aligned _ _ _ hs) fun _ =>
    pcAligned_ite (fun _ => tableWrite_aligned _ _ _ hs) fun _ =>
    pcAligned_ite (fun _ => setCtx_aligned _ _ _ hs) fun _ =>
    pcAligned_ite (fun _ => setCtx_aligned _ _ _ hs) fun _ =>
    pcAligned_ite (fun _ => setCtx_aligned _ _ _ hs) fun _ =>
    pcAligned_ite (fun _ => invalWrite_aligned _ _ hs) fun _ =>
    pcAligned_ite (fun _ => hs) fun _ =>
    pcAligned_ite (fun _ => blockWrite_aligned _ _ _ _ hs) fun _ =>
    pcAligned_ite (fun _ => switchWrite_aligned _ _ _ _ hs) fun _ =>
    pcAligned_ite (fun _ => hs) fun _ =>
    pcAligned_ite (fun _ => debugWrite_aligned _ _ hs) fun _ =>
    pcAligned_ite (fun _ => hs) fun _ =>
    pcAligned_ite (fun _ => hs) fun _ =>
    pcAligned_ite (fun _ => hs) fun _ =>
    pcAligned_ite (fun _ => traceControl_aligned _ _ _ _ hs) fun _ =>
    pcAligned_ite (fun _ => pcAligned_ite (fun _ => failWrite_aligned _ _ hs) fun _ => hs) fun _ =>
    pcAligned_ite (fun _ => hs) fun _ => hs

/-! ## The host -/

theorem complete_aligned (kind c status : Nat) (hseq refused : BitVec 32) (s : State) (hs : PcAligned s) :
    PcAligned (complete kind c status hseq refused s) :=
  post_aligned _ _ hs

theorem readRecord_aligned (s : State) (hs : PcAligned s) : PcAligned (readRecord s) := by
  unfold readRecord
  grind [pcAligned_iff, complete_aligned]

theorem execHtail_aligned (v : BitVec 32) (s : State) (hs : PcAligned s) : OutAligned (execHtail v s) := by
  unfold execHtail
  grind [pcAligned_iff, outAligned_next, readRecord_aligned]

theorem execHack_aligned (v : BitVec 32) (s : State) (hs : PcAligned s) : OutAligned (execHack v s) := by
  unfold execHack
  grind [pcAligned_iff, outAligned_next]

theorem acceptLaunch_aligned (c : BitVec 6) (hseq : BitVec 32) (b : LaunchBlock) (s : State) (hs : PcAligned s) :
    PcAligned (acceptLaunch c hseq b s) := by
  unfold acceptLaunch
  grind [pcAligned_iff, setCtx_aligned, pcAligned_foldl, blockWrite_aligned, makeResident_aligned, pcAligned_foldRange,
    windowWrite_aligned, tableWrite_aligned, setGroup_aligned]

theorem endSubmit_aligned (u : Submitting) (s : State) (hs : PcAligned s) : PcAligned (endSubmit u s) := by
  unfold endSubmit
  grind [pcAligned_iff, readRecord_aligned, complete_aligned]

/-- The invariant at the state that the submission of a record comes to. -/
def SubmittedAligned : Submitted → Prop
  | .done s | .refused _ s | .wait s => PcAligned s
  | .dead _ => True

theorem submittedAligned_done (s : State) : SubmittedAligned (.done s) ↔ PcAligned s := Iff.rfl

theorem submittedAligned_refused (n : Option (BitVec 32)) (s : State) : SubmittedAligned (.refused n s) ↔ PcAligned s := Iff.rfl

theorem submittedAligned_wait (s : State) : SubmittedAligned (.wait s) ↔ PcAligned s := Iff.rfl

theorem submittedAligned_dead (f : Nat) : SubmittedAligned (.dead f) := trivial

theorem submitAt_aligned (c : BitVec 6) (die : Nat) (a : Word) (s : State) (hs : PcAligned s) : SubmittedAligned (submitAt c die a s) := by
  unfold submitAt submitRead
  grind [submittedAligned_done, submittedAligned_refused, submittedAligned_wait, submittedAligned_dead, submit_aligned,
    sendRequest_aligned, pcAligned_iff]

theorem submitRest_aligned (n : Nat) (u : Submitting) (s : State) (hs : PcAligned s) : PcAligned (submitRest n u s) := by
  fun_induction submitRest n u s <;> grind [submittedAligned_done, submittedAligned_refused, submittedAligned_wait, submitAt_aligned,
    endSubmit_aligned, killFor_aligned, pcAligned_iff]

theorem release_aligned (s : State) (hs : PcAligned s) : PcAligned (release s) := readRecord_aligned _ hs

theorem refuse_aligned (r : BitVec 512) (status : Nat) (s : State) (hs : PcAligned s) : PcAligned (refuse r status s) := by
  unfold refuse
  grind [release_aligned, complete_aligned]

theorem launchRecord_aligned (r : BitVec 512) (s : State) (hs : PcAligned s) : PcAligned (launchRecord r s) := by
  unfold launchRecord
  grind [refuse_aligned, useFailed_aligned, acceptLaunch_aligned, submitRest_aligned]

theorem execLaunch_aligned (s : State) (hs : PcAligned s) : OutAligned (execLaunch s) := by
  unfold execLaunch
  grind [outAligned_next, submitRest_aligned, endSubmit_aligned, refuse_aligned, launchRecord_aligned]

theorem unbindAll_aligned (c : BitVec 6) (s : State) (hs : PcAligned s) : PcAligned (unbindAll c s) := by
  unfold unbindAll
  grind [pcAligned_foldl, bindWrite_aligned]

theorem finishEndings_aligned (s : State) (hs : PcAligned s) : PcAligned (finishEndings s) := by
  unfold finishEndings
  grind [pcAligned_iff, pcAligned_foldl, endNormally_aligned]

theorem execEndContext_aligned (s : State) (hs : PcAligned s) : OutAligned (execEndContext s) := by
  unfold execEndContext
  grind [pcAligned_iff, refuse_aligned, release_aligned, unbindAll_aligned, outAligned_next, finishEndings_aligned]

theorem execCompletionRecord_aligned (s : State) (hs : PcAligned s) : OutAligned (execCompletionRecord s) := by
  unfold execCompletionRecord
  grind [pcAligned_iff, outAligned_next, useFailed_aligned]

theorem execCompletionRingWord_aligned (v : BitVec 256) (s : State) (hs : PcAligned s) : OutAligned (execCompletionRingWord v s) := by
  unfold execCompletionRingWord
  grind [pcAligned_iff, outAligned_next]

theorem hostByte_aligned (off : Nat) (b : Byte) (s : State) (hs : PcAligned s) : PcAligned (hostByte off b s) := by
  unfold hostByte
  grind [pcAligned_iff]

theorem execHbmWindow_aligned (off : Nat) (bytes : List Byte) (s : State) (hs : PcAligned s) : OutAligned (execHbmWindow off bytes s) := by
  unfold execHbmWindow
  grind [outAligned_next, useFailed_aligned, pcAligned_foldl, hostByte_aligned]

theorem execAttestationNonce_aligned (nonce : BitVec 256) (s : State) (hs : PcAligned s) : OutAligned (execAttestationNonce nonce s) := by
  unfold execAttestationNonce
  grind [pcAligned_iff, outAligned_next, tick_aligned]

/-! ## Pump instructions -/

theorem execPgoOpen_aligned (x : ArgsD) (s : State) (hs : PcAligned s) : OutAligned (execPgoOpen x s) := by
  unfold execPgoOpen
  refine issue_aligned _ _ _ hs fun s hs => readScalars_aligned _ _ _ hs fun s hs => ?_
  refine destFree_aligned _ _ _ hs fun s hs => drained_aligned _ _ hs fun s hs => ?_
  extract_lets addr
  split
  · exact hs
  refine oneAccess_aligned _ _ _ _ _ _ _ (fenceDevice_aligned _ _ hs) fun d s hs => ?_
  have hc := cleanEnd_aligned s hs
  grind [resAligned_ok, killLasting_aligned, writeRetire_aligned, setChan_aligned, tick_aligned, pcAligned_setHart, hartAligned_hart,
    HartAligned]

theorem execPgoTail_aligned (x : ArgsT) (s : State) (hs : PcAligned s) : OutAligned (execPgoTail x s) := by
  unfold execPgoTail
  grind [issue_aligned, readScalars_aligned, destFree_aligned, drained_aligned, withRef_aligned, fenceDevice_aligned, writeRetire_aligned,
    setChan_aligned]

theorem execPbind_aligned (x : ArgsPb) (s : State) (hs : PcAligned s) : OutAligned (execPbind x s) := by
  unfold execPbind
  grind [HartAligned, issue_aligned, decodeTrap_aligned, readScalars_aligned, withRef_aligned, hartAligned_hart, resAligned_trap,
    retireOnly_aligned, pcAligned_setHart]

theorem execPunbind_aligned (k : BitVec 3) (s : State) (hs : PcAligned s) : OutAligned (execPunbind k s) := by
  unfold execPunbind
  grind [HartAligned, issue_aligned, drained_aligned, hartAligned_hart, retireOnly_aligned, pcAligned_setHart]

theorem execPrel_aligned (x : ArgsQ) (s : State) (hs : PcAligned s) : OutAligned (execPrel x s) := by
  unfold execPrel
  grind [issue_aligned, readScalars_aligned, withRef_aligned, resAligned_trap, retireOnly_aligned, setChan_aligned, beforeRelease_aligned]

theorem pwaitReturn_aligned (d b : BitVec 6) (n : Nat) (s : State) (hs : PcAligned s) : ResAligned (pwaitReturn d b n s) := by
  unfold pwaitReturn
  grind [HartAligned, refreshWell_aligned, hartAligned_hart, resAligned_ok, pcAligned_setHart, retire_aligned, ws_aligned]

theorem execPwait_aligned (x : ArgsT) (s : State) (hs : PcAligned s) : OutAligned (execPwait x s) := by
  unfold execPwait
  grind [HartAligned, issue_aligned, readScalars_aligned, destFree_aligned, hartAligned_hart, resAligned_trap, resAligned_wait,
    pwaitReturn_aligned, withRef_aligned, setChan_aligned, pcAligned_setHart]

theorem execPstat_aligned (x : ArgsK) (s : State) (hs : PcAligned s) : OutAligned (execPstat x s) := by
  unfold execPstat
  grind [HartAligned, issue_aligned, readScalars_aligned, destFree_aligned, withRef_aligned, hartAligned_hart, writeRetire_aligned,
    pcAligned_setHart, refreshWell_aligned]

theorem dropChanRequest_aligned (s : State) (c : Nat) (hs : PcAligned s) : PcAligned (State.dropChanRequest s c) :=
  clearEngine_aligned _ _ hs

theorem execPhalt_aligned (x : ArgsD) (s : State) (hs : PcAligned s) : OutAligned (execPhalt x s) := by
  unfold execPhalt
  grind [issue_aligned, readScalars_aligned, destFree_aligned, withRef_aligned, resAligned_trap, writeRetire_aligned, closeChan_aligned,
    setChan_aligned, dropChanRequest_aligned]

/-! ## Pump commands -/

theorem pumpFault_aligned (c code index : Nat) (s : State) (hs : PcAligned s) : PcAligned (pumpFault c code index s) := by
  unfold pumpFault
  grind [forgetWalks_aligned, dropChanRequest_aligned, setChan_aligned, closeChan_aligned]

theorem pumpDead_aligned (c fn index : Nat) (s : State) (hs : PcAligned s) : PcAligned (pumpDead c fn index s) := by
  unfold pumpDead
  grind [killFor_aligned, pumpFault_aligned]

theorem withPump_aligned (c index : Nat) (s k : State) (hs : PcAligned s) (hk : PcAligned k) : PcAligned (withPump c index s k) := by
  unfold withPump
  grind [pumpDead_aligned]

/-- The invariant at the state that an access of a pump comes to. -/
def GotAligned : Got → Prop
  | .data _ s | .wait s => PcAligned s
  | .fault _ | .dead _ => True

theorem gotAligned_data (n : Nat) (s : State) : GotAligned (.data n s) ↔ PcAligned s := Iff.rfl

theorem gotAligned_wait (s : State) : GotAligned (.wait s) ↔ PcAligned s := Iff.rfl

theorem gotAligned_fault (f : Nat) : GotAligned (.fault f) := trivial

theorem gotAligned_dead (f : Nat) : GotAligned (.dead f) := trivial

theorem pumpAccessFor_aligned (who : Waiter) (c : Nat) (x : Channel) (space a : Nat) (wr : Bool) (n align data : Nat) (s : State) (hs : PcAligned s) :
    GotAligned (pumpAccessFor who c x space a wr n align data s) := by
  unfold pumpAccessFor
  grind [gotAligned_data, gotAligned_wait, gotAligned_fault, gotAligned_dead, pcAligned_iff, noteMiss_aligned, sendRequest_aligned,
    homeWrite_aligned]

theorem pumpAccess_aligned (c : Nat) (x : Channel) (space a : Nat) (wr : Bool) (n align data : Nat) (s : State) (hs : PcAligned s) :
    GotAligned (pumpAccess c x space a wr n align data s) := pumpAccessFor_aligned _ _ _ _ _ _ _ _ _ _ hs

theorem indexAccess_aligned (c : Nat) (x : Channel) (r : CmdRun) (k : Nat) (s : State) (hs : PcAligned s) :
    GotAligned (indexAccess c x r k s) := pumpAccess_aligned _ _ _ _ _ _ _ _ _ hs

theorem onGot_aligned (c index : Nat) (s : State) (g : Got) (k : Nat → State → State) (hs : PcAligned s) (hg : GotAligned g)
    (hk : ∀ n t, PcAligned t → PcAligned (k n t)) : PcAligned (onGot c index s g k) := by
  unfold onGot
  grind [gotAligned_data, gotAligned_wait, pumpFault_aligned, pumpDead_aligned]

theorem beginCmd_aligned (c code : Nat) (needPort : Bool) (s : State) (k : Nat → Channel → State → State) (hs : PcAligned s)
    (hk : ∀ a b t, PcAligned t → PcAligned (k a b t)) :
    PcAligned (beginCmd c code needPort s k) := by
  unfold beginCmd
  grind [withPump_aligned, onGot_aligned, pumpAccess_aligned, pumpFault_aligned]

theorem moved_aligned (c : Nat) (x : Channel) (r : CmdRun) (n : Nat) (s : State) (hs : PcAligned s) : PcAligned (moved c x r n s) := by
  unfold moved
  grind [budgetCount_aligned, setChan_aligned]

theorem deliver_aligned (c : Nat) (x : Channel) (r : CmdRun) (s : State) (hs : PcAligned s) : PcAligned (deliver c x r s) := by
  unfold deliver
  grind [moved_aligned, pumpFault_aligned, onGot_aligned, pumpAccess_aligned, indexAccess_aligned, setChan_aligned]

theorem dataStep_aligned (c : Nat) (x : Channel) (r : CmdRun) (s : State) (hs : PcAligned s) : PcAligned (dataStep c x r s) := by
  unfold dataStep
  grind [onGot_aligned, pumpAccess_aligned, setChan_aligned, deliver_aligned, indexAccess_aligned, pumpFault_aligned]

theorem dataEvent_aligned (code c : Nat) (s : State) (hs : PcAligned s) : PcAligned (dataEvent code c s) := by
  unfold dataEvent
  grind [withPump_aligned, dataStep_aligned, beginCmd_aligned, setChan_aligned]

theorem execArrival_aligned (chan : Nat) (s : State) (hs : PcAligned s) : OutAligned (execArrival chan s) := by
  unfold execArrival
  grind [outAligned_next, setChan_aligned]

theorem execWaitseq_aligned (chan : Nat) (s : State) (hs : PcAligned s) : OutAligned (execWaitseq chan s) := by
  unfold execWaitseq
  grind [outAligned_next, pumpFault_aligned, setChan_aligned, beginCmd_aligned]

theorem execSignalDecrement_aligned (chan : Nat) (s : State) (hs : PcAligned s) : OutAligned (execSignalDecrement chan s) := by
  unfold execSignalDecrement
  grind [outAligned_next, beginCmd_aligned, decrement_aligned, setChan_aligned]

theorem execSignalStore_aligned (chan : Nat) (s : State) (hs : PcAligned s) : OutAligned (execSignalStore chan s) := by
  unfold execSignalStore
  grind [outAligned_next, beginCmd_aligned, onGot_aligned, pumpAccess_aligned, setChan_aligned]

theorem execLoopCmd_aligned (chan : Nat) (s : State) (hs : PcAligned s) : OutAligned (execLoopCmd chan s) := by
  unfold execLoopCmd
  grind [outAligned_next, beginCmd_aligned, pumpFault_aligned, setChan_aligned]

theorem execJumpCmd_aligned (chan : Nat) (s : State) (hs : PcAligned s) : OutAligned (execJumpCmd chan s) := by
  unfold execJumpCmd
  grind [outAligned_next, beginCmd_aligned, pumpFault_aligned, setChan_aligned]

theorem satisfyWaits_aligned (c serial : Nat) (seq : Word) (s : State) (hs : PcAligned s) : PcAligned (satisfyWaits c serial seq s) := hs

theorem countSeq_aligned (c index : Nat) (x : Channel) (s : State) (k : Channel → State → State) (hs : PcAligned s)
    (hk : ∀ a t, PcAligned t → PcAligned (k a t)) :
    PcAligned (countSeq c index x s k) := by
  unfold countSeq
  grind [satisfyWaits_aligned, setChan_aligned, onGot_aligned, pumpAccessFor_aligned]

theorem execCommandComplete_aligned (chan : Nat) (s : State) (hs : PcAligned s) : OutAligned (execCommandComplete chan s) := by
  unfold execCommandComplete
  grind [outAligned_next, setChan_aligned, countSeq_aligned]

theorem markEnds_aligned (c f : Nat) (s : State) (hs : PcAligned s) : PcAligned (markEnds c f s) := by
  unfold markEnds
  simp only [pcAligned_iff]
  exact ⟨slotsAligned_mapAll (fun _ v hv => hartAligned_foldl hv fun h b hh => hartAligned_ite (fun _ => hh) fun _ => hh) hs.1, hs.2⟩

theorem endChannel_aligned (c : Nat) (x : Channel) (s : State) (hs : PcAligned s) : PcAligned (endChannel c x s) := by
  unfold endChannel
  grind [markEnds_aligned, setChan_aligned, closeChan_aligned]

theorem execEndCmd_aligned (chan : Nat) (s : State) (hs : PcAligned s) : OutAligned (execEndCmd chan s) := by
  unfold execEndCmd
  grind [outAligned_next, beginCmd_aligned, pumpFault_aligned, countSeq_aligned, endChannel_aligned]

theorem settleChans_aligned (s : State) (hs : PcAligned s) : PcAligned (settleChans s) := hs

theorem execPortGrant_aligned (pump : Nat) (s : State) (hs : PcAligned s) : OutAligned (execPortGrant pump s) := by
  unfold execPortGrant
  grind [settleChans_aligned, outAligned_next, setChan_aligned]

theorem finishTicket_aligned (n : BitVec 32) (s : State) (hs : PcAligned s) : PcAligned (finishTicket n s) := hs

theorem markTicket_aligned (c q : Nat) (called : Bool) (s : State) (hs : PcAligned s) : PcAligned (markTicket c q called s) := by
  unfold markTicket
  grind [setChan_aligned]

theorem execTicketCall_aligned (t : TicketEnd) (s : State) (hs : PcAligned s) : OutAligned (execTicketCall t s) := by
  unfold execTicketCall
  grind [outAligned_next, finishTicket_aligned, markTicket_aligned]

theorem execTicketTimeout_aligned (t : TicketEnd) (s : State) (hs : PcAligned s) : OutAligned (execTicketTimeout t s) := by
  unfold execTicketTimeout
  grind [outAligned_next, finishTicket_aligned, markTicket_aligned]

theorem execTicketRequest_aligned (requests : List TicketAsk) (s : State) (hs : PcAligned s) : OutAligned (execTicketRequest requests s) :=
  hs

theorem execBudgetPeriod_aligned (arbiter : Arbiter) (ctx : Nat) (s : State) (hs : PcAligned s) :
    OutAligned (execBudgetPeriod arbiter ctx s) :=
  hs

/-! ## Functions and errors -/

theorem deviceReset_aligned (s : State) : PcAligned (deviceReset s) := ⟨fun _ => ⟨rfl, rfl, rfl⟩, fun e he => by cases he⟩

theorem verified_aligned (i : BootImage) (s : State) (hs : PcAligned s) : PcAligned (verified i s) := tick_aligned _ hs

theorem execPowerOn_aligned (image : Option BootImage) (epoch : BitVec 16) (s : State) (hs : PcAligned s) :
    OutAligned (execPowerOn image epoch s) := by
  unfold execPowerOn
  grind [pcAligned_iff, outAligned_next, verified_aligned]

theorem armSlots_aligned (tile : Nat) (s : State) (hs : PcAligned s) : PcAligned (armSlots tile s) := by
  unfold armSlots
  simp only [pcAligned_iff]
  refine ⟨slotsAligned_mapAll (fun k v hv => ?_) hs.1, hs.2⟩
  split
  · exact hv
  · exact hv

theorem execSelfTestEnd_aligned (function : Nat) (passed : Bool) (s : State) (hs : PcAligned s) :
    OutAligned (execSelfTestEnd function passed s) := by
  unfold execSelfTestEnd
  grind [pcAligned_iff, outAligned_next, armSlots_aligned]

theorem execClockStep_aligned (die : Nat) (m : Sensors) (s : State) (hs : PcAligned s) : OutAligned (execClockStep die m s) :=
  outAligned_ite (fun _ => hs) fun _ => hs

theorem failedChannel_aligned (c : Nat) (s : State) (hs : PcAligned s) : PcAligned (failedChannel c s) := by
  unfold failedChannel
  grind [pumpFault_aligned]

theorem lastingError_aligned (p : ErrorPlace) (loc : BitVec 32) (hart : Option Nat) (s : State) (hs : PcAligned s) :
    PcAligned (lastingError p loc hart s) := by
  unfold lastingError
  split
  · exact deviceReset_aligned s
  · exact pcAligned_ite (fun _ => failLink_aligned _ _ _ hs) fun _ => hs
  · extract_lets t
    have ht : PcAligned t := by grind [countLasting_aligned]
    clear_value t
    grind [failedChannel_aligned, kill_aligned]

theorem transientError_aligned (p : ErrorPlace) (s : State) (hs : PcAligned s) : PcAligned (transientError p s) := by
  unfold transientError
  grind [pcAligned_iff]

theorem execSoftError_aligned (place : ErrorPlace) (lasting : Bool) (loc : BitVec 32) (hart : Option Nat) (s : State) (hs : PcAligned s) :
    OutAligned (execSoftError place lasting loc hart s) := by
  unfold execSoftError
  grind [outAligned_next, lastingError_aligned, transientError_aligned]

/-! ## Moves and masks -/

theorem execMov_aligned (x : ArgsM) (s : State) (hs : PcAligned s) : OutAligned (execMov x s) := by
  unfold execMov
  grind [issue_aligned, readScalars_aligned, destFree_aligned, writeRetire_aligned, elementwise_aligned]

theorem extend_aligned (i : Instr) (x : ArgsC) (ext : Nat → Nat → Int) (s : State) (hs : PcAligned s) : OutAligned (extend i x ext s) := by
  unfold extend
  grind [issue_aligned, readScalars_aligned, destFree_aligned, writeRetire_aligned, elementwise_aligned]

theorem execSel_aligned (x : ArgsA) (s : State) (hs : PcAligned s) : OutAligned (execSel x s) := by
  unfold execSel
  grind [issue_aligned, elementwise_aligned]

theorem maskLogic_aligned (i : Instr) (d a b : Nat) (reads : List (Nat × Bool)) (op : Bool → Bool → Bool) (s : State) (hs : PcAligned s) :
    OutAligned (maskLogic i d a b reads op s) := by
  unfold maskLogic
  grind [issue_aligned, elementwise_aligned]

theorem maskScalar_aligned (i : Instr) (x : ArgsD) (f : Hart → Word) (s : State) (hs : PcAligned s) : OutAligned (maskScalar i x f s) := by
  unfold maskScalar
  grind [issue_aligned, vecPre_aligned, destFree_aligned, resAligned_ok, enter_aligned, hartAligned_hart, pcAligned_setHart,
    retire_aligned, ws_aligned]

theorem execMfrom_aligned (x : ArgsP) (s : State) (hs : PcAligned s) : OutAligned (execMfrom x s) := by
  unfold execMfrom
  grind [issue_aligned, elementwise_aligned]

theorem execMto_aligned (x : ArgsP) (s : State) (hs : PcAligned s) : OutAligned (execMto x s) := by
  unfold execMto
  grind [issue_aligned, elementwise_aligned]

/-! ## What a round does on its own -/

theorem withNetwork_aligned (r : Round) (s k : State) (hs : PcAligned s) (hk : PcAligned k) : OutAligned (withNetwork r s k) := by
  unfold withNetwork
  grind [outAligned_next, killFor_aligned]

theorem engineCistern_aligned (k : Nat) (r : Round) (tile off : Nat) (a : Acc) (s : State) (go : Nat → State) (hs : PcAligned s)
    (hgo : ∀ a, PcAligned (go a)) :
    PcAligned (engineCistern k r tile off a s go) := by
  unfold engineCistern
  grind [faultRound_aligned, killFor_aligned]

theorem becomeOpen_aligned (k : Nat) (r : Round) (s : State) (hs : PcAligned s) : PcAligned (becomeOpen k r s) :=
  setRound_aligned _ _ _ hs

/-- The invariant at the state that an access of an exchange engine comes to. -/
def EngineAligned : Engine → Prop
  | .data _ s | .wait s => PcAligned s
  | .fault _ | .dead _ => True

theorem engineAligned_data (n : Nat) (s : State) : EngineAligned (.data n s) ↔ PcAligned s := Iff.rfl

theorem engineAligned_wait (s : State) : EngineAligned (.wait s) ↔ PcAligned s := Iff.rfl

theorem engineAligned_fault (f : Bool) : EngineAligned (.fault f) := trivial

theorem engineAligned_dead (f : Nat) : EngineAligned (.dead f) := trivial

theorem engineAccess_aligned (unit who : Nat) (c : BitVec 6) (a : Nat) (wr : Bool) (n align data : Nat) (s : State) (hs : PcAligned s) :
    EngineAligned (engineAccess unit who c a wr n align data s) := by
  unfold engineAccess
  grind [engineAligned_data, engineAligned_wait, engineAligned_fault, engineAligned_dead, pcAligned_iff, noteMiss_aligned,
    sendRequest_aligned, homeWrite_aligned]

theorem execRoundOpen_aligned (round : Nat) (s : State) (hs : PcAligned s) : OutAligned (execRoundOpen round s) := by
  unfold execRoundOpen
  grind [outAligned_next, engineAligned_data, engineAligned_wait, engineAccess_aligned, becomeOpen_aligned, killFor_aligned,
    faultRound_aligned, setRound_aligned]

theorem execMergeEmit_aligned (round stage : Nat) (switch out : Nat) (s : State) (hs : PcAligned s) :
    OutAligned (execMergeEmit round stage switch out s) := by
  unfold execMergeEmit
  grind [outAligned_next, withNetwork_aligned, setRound_aligned]

theorem egressNext_aligned (k : Nat) (r : Round) (p : Participant) (s : State) (hs : PcAligned s) : PcAligned (egressNext k r p s) := by
  unfold egressNext
  grind [setRound_aligned, engineCistern_aligned, faultRound_aligned, budgetCount_aligned]

theorem execEgressSend_aligned (round source : Nat) (fabric : LaneInput) (s : State) (hs : PcAligned s) :
    OutAligned (execEgressSend round source fabric s) := by
  unfold execEgressSend
  grind [outAligned_next, withNetwork_aligned, egressNext_aligned, faultRound_aligned, setRound_aligned]

theorem ingressWrite_aligned (k e base rec_ : Nat) (fin : Round → Round) (n off : Nat) (s : State) (hs : PcAligned s) :
    PcAligned (ingressWrite k e base rec_ fin n off s) := by
  fun_induction ingressWrite k e base rec_ fin n off s <;>
    grind [engineAligned_data, engineAligned_wait, engineAccess_aligned, killFor_aligned, faultRound_aligned, setRound_aligned]

theorem deliverTile_aligned (k : Nat) (r : Round) (p : Participant) (x : XRec) (s : State) (hs : PcAligned s) :
    PcAligned (deliverTile k r p x s) := by
  unfold deliverTile
  extract_lets e well
  exact pcAligned_ite
    (fun _ => engineCistern_aligned _ _ _ _ _ _ _ hs fun a => setRound_aligned _ _ _ hs)
    fun _ => pcAligned_ite (fun _ => faultRound_aligned _ _ _ _ hs) fun _ => ingressWrite_aligned _ _ _ _ _ _ _ _ hs

theorem execIngressDelivery_aligned (round endpoint : Nat) (s : State) (hs : PcAligned s) :
    OutAligned (execIngressDelivery round endpoint s) := by
  unfold execIngressDelivery
  grind [outAligned_next, killFor_aligned, setRound_aligned, deliverTile_aligned, faultRound_aligned, ingressWrite_aligned]

theorem execRoundComplete_aligned (round : Nat) (s : State) (hs : PcAligned s) : OutAligned (execRoundComplete round s) := by
  unfold execRoundComplete
  grind [pcAligned_iff, outAligned_next, setRound_aligned, decrement_aligned]

theorem execLaneOpening_aligned (round dev : Nat) (peer : LaneDesc) (s : State) (hs : PcAligned s) :
    OutAligned (execLaneOpening round dev peer s) := by
  unfold execLaneOpening
  grind [outAligned_next, setRound_aligned, faultRound_aligned]

/-! ## One arm per instruction -/

theorem exec_aligned : ∀ (i : Instr) (s : State), PcAligned s → OutAligned (exec i s)
  | .add _, _, hs => intBinary_aligned _ _ _ _ _ _ _ hs
  | .sub _, _, hs => intBinary_aligned _ _ _ _ _ _ _ hs
  | .adds _, _, hs => intBinary_aligned _ _ _ _ _ _ _ hs
  | .addsu _, _, hs => intBinary_aligned _ _ _ _ _ _ _ hs
  | .subs _, _, hs => intBinary_aligned _ _ _ _ _ _ _ hs
  | .subsu _, _, hs => intBinary_aligned _ _ _ _ _ _ _ hs
  | .mul _, _, hs => intBinary_aligned _ _ _ _ _ _ _ hs
  | .mulh _, _, hs => intBinary_aligned _ _ _ _ _ _ _ hs
  | .mulhu _, _, hs => intBinary_aligned _ _ _ _ _ _ _ hs
  | .mac _, _, hs => intBinary_aligned _ _ _ _ _ _ _ hs
  | .div _, _, hs => intBinary_aligned _ _ _ _ _ _ _ hs
  | .divu _, _, hs => intBinary_aligned _ _ _ _ _ _ _ hs
  | .rem _, _, hs => intBinary_aligned _ _ _ _ _ _ _ hs
  | .remu _, _, hs => intBinary_aligned _ _ _ _ _ _ _ hs
  | .min _, _, hs => intBinary_aligned _ _ _ _ _ _ _ hs
  | .minu _, _, hs => intBinary_aligned _ _ _ _ _ _ _ hs
  | .max _, _, hs => intBinary_aligned _ _ _ _ _ _ _ hs
  | .maxu _, _, hs => intBinary_aligned _ _ _ _ _ _ _ hs
  | .abs _, _, hs => show OutAligned (execAbs _ _) from intUnary_aligned _ _ _ _ hs
  | .neg _, _, hs => show OutAligned (execNeg _ _) from intUnary_aligned _ _ _ _ hs
  | .wadd _, _, hs => intWide_aligned _ _ _ _ _ hs
  | .waddu _, _, hs => intWide_aligned _ _ _ _ _ hs
  | .wmul _, _, hs => intWide_aligned _ _ _ _ _ hs
  | .wmulu _, _, hs => intWide_aligned _ _ _ _ _ hs
  | .wmac _, _, hs => intWide_aligned _ _ _ _ _ hs
  | .wmacu _, _, hs => intWide_aligned _ _ _ _ _ hs
  | .narrow _, _, hs => intNarrow_aligned _ _ _ _ hs
  | .narrowu _, _, hs => intNarrow_aligned _ _ _ _ hs
  | .and _, _, hs => intBinary_aligned _ _ _ _ _ _ _ hs
  | .or _, _, hs => intBinary_aligned _ _ _ _ _ _ _ hs
  | .xor _, _, hs => intBinary_aligned _ _ _ _ _ _ _ hs
  | .andn _, _, hs => intBinary_aligned _ _ _ _ _ _ _ hs
  | .sll _, _, hs => intBinary_aligned _ _ _ _ _ _ _ hs
  | .srl _, _, hs => intBinary_aligned _ _ _ _ _ _ _ hs
  | .sra _, _, hs => intBinary_aligned _ _ _ _ _ _ _ hs
  | .rotr _, _, hs => intBinary_aligned _ _ _ _ _ _ _ hs
  | .popc _, _, hs => show OutAligned (execPopc _ _) from intUnary_aligned _ _ _ _ hs
  | .clz _, _, hs => show OutAligned (execClz _ _) from intUnary_aligned _ _ _ _ hs
  | .cmpeq _, _, hs => show OutAligned (execCmpeq _ _) from intCompare_aligned _ _ _ _ hs
  | .cmpne _, _, hs => show OutAligned (execCmpne _ _) from intCompare_aligned _ _ _ _ hs
  | .cmplt _, _, hs => show OutAligned (execCmplt _ _) from intCompare_aligned _ _ _ _ hs
  | .cmpltu _, _, hs => show OutAligned (execCmpltu _ _) from intCompare_aligned _ _ _ _ hs
  | .cmple _, _, hs => show OutAligned (execCmple _ _) from intCompare_aligned _ _ _ _ hs
  | .cmpleu _, _, hs => show OutAligned (execCmpleu _ _) from intCompare_aligned _ _ _ _ hs
  | .sel _, _, hs => execSel_aligned _ _ hs
  | .mov _, _, hs => execMov_aligned _ _ hs
  | .sext _, _, hs => extend_aligned _ _ _ _ hs
  | .zext _, _, hs => extend_aligned _ _ _ _ hs
  | .fadd _, _, hs => floatBinary_aligned _ _ _ _ _ _ hs
  | .fsub _, _, hs => floatBinary_aligned _ _ _ _ _ _ hs
  | .fmul _, _, hs => floatBinary_aligned _ _ _ _ _ _ hs
  | .fma _, _, hs => floatBinary_aligned _ _ _ _ _ _ hs
  | .fms _, _, hs => floatBinary_aligned _ _ _ _ _ _ hs
  | .fnma _, _, hs => floatBinary_aligned _ _ _ _ _ _ hs
  | .fdiv _, _, hs => floatBinary_aligned _ _ _ _ _ _ hs
  | .fsqrt _, _, hs => show OutAligned (execFsqrt _ _) from floatUnary_aligned _ _ _ _ _ hs
  | .frsq _, _, hs => show OutAligned (execFrsq _ _) from floatUnary_aligned _ _ _ _ _ hs
  | .fexp2 _, _, hs => show OutAligned (execFexp2 _ _) from floatUnary_aligned _ _ _ _ _ hs
  | .flog2 _, _, hs => show OutAligned (execFlog2 _ _) from floatUnary_aligned _ _ _ _ _ hs
  | .fmin _, _, hs => floatBinary_aligned _ _ _ _ _ _ hs
  | .fmax _, _, hs => floatBinary_aligned _ _ _ _ _ _ hs
  | .fcmpeq _, _, hs => show OutAligned (execFcmpeq _ _) from floatCompare_aligned _ _ _ _ hs
  | .fcmplt _, _, hs => show OutAligned (execFcmplt _ _) from floatCompare_aligned _ _ _ _ hs
  | .fcmple _, _, hs => show OutAligned (execFcmple _ _) from floatCompare_aligned _ _ _ _ hs
  | .fcvt _, _, hs => execFcvt_aligned _ _ hs
  | .fcvti _, _, hs => execFcvti_aligned _ _ hs
  | .fcvtf _, _, hs => execFcvtf_aligned _ _ hs
  | .fabs _, _, hs => show OutAligned (execFabs _ _) from floatUnary_aligned _ _ _ _ _ hs
  | .fneg _, _, hs => show OutAligned (execFneg _ _) from floatUnary_aligned _ _ _ _ _ hs
  | .fclass _, _, hs => show OutAligned (execFclass _ _) from floatUnary_aligned _ _ _ _ _ hs
  | .rsum _, _, hs => show OutAligned (execRsum _ _) from reduction_aligned _ _ _ _ _ _ _ hs
  | .rmin _, _, hs => show OutAligned (execRmin _ _) from intReduction_aligned _ _ _ _ _ hs
  | .rminu _, _, hs => show OutAligned (execRminu _ _) from intReduction_aligned _ _ _ _ _ hs
  | .rmax _, _, hs => show OutAligned (execRmax _ _) from intReduction_aligned _ _ _ _ _ hs
  | .rmaxu _, _, hs => show OutAligned (execRmaxu _ _) from intReduction_aligned _ _ _ _ _ hs
  | .rand _, _, hs => show OutAligned (execRand _ _) from intReduction_aligned _ _ _ _ _ hs
  | .ror _, _, hs => show OutAligned (execRor _ _) from intReduction_aligned _ _ _ _ _ hs
  | .rxor _, _, hs => show OutAligned (execRxor _ _) from intReduction_aligned _ _ _ _ _ hs
  | .frsum _, _, hs => floatReduction_aligned _ _ _ _ hs
  | .frmin _, _, hs => show OutAligned (execFrmin _ _) from floatReduction_aligned _ _ _ _ hs
  | .frmax _, _, hs => show OutAligned (execFrmax _ _) from floatReduction_aligned _ _ _ _ hs
  | .scan _, _, hs => show OutAligned (execScan _ _) from scanLanes_aligned _ _ _ _ hs
  | .fscan _, _, hs => show OutAligned (execFscan _ _) from scanLanes_aligned _ _ _ _ hs
  | .compress _, _, hs => execCompress_aligned _ _ hs
  | .expand _, _, hs => execExpand_aligned _ _ hs
  | .nzscan _, _, hs => execNzscan_aligned _ _ hs
  | .iota _, _, hs => execIota_aligned _ _ hs
  | .slideup _, _, hs => show OutAligned (execSlideup _ _) from slideLanes_aligned _ _ _ _ _ hs
  | .slidedn _, _, hs => show OutAligned (execSlidedn _ _) from slideLanes_aligned _ _ _ _ _ hs
  | .perm _, _, hs => execPerm_aligned _ _ hs
  | .mlogAnd _, _, hs => maskLogic_aligned _ _ _ _ _ _ _ hs
  | .mlogOr _, _, hs => maskLogic_aligned _ _ _ _ _ _ _ hs
  | .mlogXor _, _, hs => maskLogic_aligned _ _ _ _ _ _ _ hs
  | .mlogAndn _, _, hs => show OutAligned (execMlogAndn _ _) from maskLogic_aligned _ _ _ _ _ _ _ hs
  | .mlogNot _, _, hs => show OutAligned (execMlogNot _ _) from maskLogic_aligned _ _ _ _ _ _ _ hs
  | .mlogCopy _, _, hs => show OutAligned (execMlogCopy _ _) from maskLogic_aligned _ _ _ _ _ _ _ hs
  | .mlogSet _, _, hs => show OutAligned (execMlogSet _ _) from maskLogic_aligned _ _ _ _ _ _ _ hs
  | .mlogClr _, _, hs => show OutAligned (execMlogClr _ _) from maskLogic_aligned _ _ _ _ _ _ _ hs
  | .mcnt _, _, hs => show OutAligned (execMcnt _ _) from maskScalar_aligned _ _ _ _ hs
  | .mfirst _, _, hs => show OutAligned (execMfirst _ _) from maskScalar_aligned _ _ _ _ hs
  | .mfrom _, _, hs => execMfrom_aligned _ _ hs
  | .mto _, _, hs => execMto_aligned _ _ hs
  | .ld _, _, hs => execLd_aligned _ _ hs
  | .st _, _, hs => execSt_aligned _ _ hs
  | .ldq _, _, hs => execLdq_aligned _ _ hs
  | .stq _, _, hs => execStq_aligned _ _ hs
  | .tld _, _, hs => execTld_aligned _ _ hs
  | .tst _, _, hs => execTst_aligned _ _ hs
  | .aadd _, _, hs => execAtomic_aligned _ _ _ _ hs
  | .afadd _, _, hs => execAtomic_aligned _ _ _ _ hs
  | .amax _, _, hs => execAtomic_aligned _ _ _ _ hs
  | .amin _, _, hs => execAtomic_aligned _ _ _ _ hs
  | .aswap _, _, hs => execAtomic_aligned _ _ _ _ hs
  | .acas _, _, hs => execAtomic_aligned _ _ _ _ hs
  | .acq _, _, hs => execAcq_aligned _ _ hs
  | .rel _, _, hs => execRel_aligned _ _ hs
  | .fence _, _, hs => execFence_aligned _ _ hs
  | .qfence _, _, hs => execQfence_aligned _ _ hs
  | .bind _, _, hs => execBind_aligned _ _ hs
  | .unbind _, _, hs => execUnbind_aligned _ _ hs
  | .gbar _, _, hs => execGbar_aligned _ _ hs
  | .br _, _, hs => execBr_aligned _ _ hs
  | .brm _, _, hs => execBrm_aligned _ _ hs
  | .brs _, _, hs => execBrs_aligned _ _ hs
  | .jal _, _, hs => execJal_aligned _ _ hs
  | .jalr _, _, hs => execJalr_aligned _ _ hs
  | .li _, _, hs => execLi_aligned _ _ hs
  | .lis _, _, hs => execLis_aligned _ _ hs
  | .setvl _, _, hs => execSetvl_aligned _ _ hs
  | .convoy, _, hs => execConvoy_aligned _ hs
  | .mldb _, _, hs => execMldb_aligned _ _ hs
  | .mldbI8 _, _, hs => execMldbI8_aligned _ _ hs
  | .mmo _, _, hs => execMmo_aligned _ _ hs
  | .mmf _, _, hs => execMmf_aligned _ _ hs
  | .mmi _, _, hs => execMmi_aligned _ _ hs
  | .mrd _, _, hs => execMrd_aligned _ _ hs
  | .mclr _, _, hs => execMclr_aligned _ _ hs
  | .mclaim _, _, hs => execMclaim_aligned _ _ hs
  | .mfree _, _, hs => execMfree_aligned _ _ hs
  | .viewld _, _, hs => execViewld_aligned _ _ hs
  | .viewst _, _, hs => execViewst_aligned _ _ hs
  | .viewset _, _, hs => execViewset_aligned _ _ hs
  | .pgoOpen _, _, hs => execPgoOpen_aligned _ _ hs
  | .pgoTail _, _, hs => execPgoTail_aligned _ _ hs
  | .pbind _, _, hs => execPbind_aligned _ _ hs
  | .punbind _, _, hs => execPunbind_aligned _ _ hs
  | .prel _, _, hs => execPrel_aligned _ _ hs
  | .pwait _, _, hs => execPwait_aligned _ _ hs
  | .pstat _, _, hs => execPstat_aligned _ _ hs
  | .phalt _, _, hs => execPhalt_aligned _ _ hs
  | .xopen _, _, hs => execXopen_aligned _ _ hs
  | .xsort _, _, hs => execXsort_aligned _ _ hs
  | .xsend _, _, hs => execXsend_aligned _ _ hs
  | .xclose _, _, hs => execXclose_aligned _ _ hs
  | .xrecv _, _, hs => execXrecv_aligned _ _ hs
  | .xsplit _, _, hs => execXsplit_aligned _ _ hs
  | .xsamp _, _, hs => execXsamp_aligned _ _ hs
  | .xrbal _, _, hs => execXrbal_aligned _ _ hs
  | .xwait _, _, hs => execXwait_aligned _ _ hs
  | .xdone _, _, hs => execXdone_aligned _ _ hs
  | .mfcr _, _, hs => execMfcr_aligned _ _ hs
  | .mtcr _, _, hs => execMtcr_aligned _ _ hs
  | .ecall _, _, hs => execEcall_aligned _ _ hs
  | .tret, _, hs => execTret_aligned _ hs
  | .taskq _, _, hs => execTaskq_aligned _ _ hs
  | .taskend, _, hs => execTaskend_aligned _ hs
  | .hwmpub _, _, hs => execHwmpub_aligned _ _ hs
  | .yield _, _, hs => execYield_aligned _ _ hs
  | .waitf _, _, hs => execWaitf_aligned _ _ hs
  | .trace _, _, hs => execTrace_aligned _ _ hs
  | .bkpt _, _, hs => execBkpt_aligned _ _ hs
  | .ckill _, _, hs => execCkill_aligned _ _ hs
  | .savectx _, _, hs => execSavectx_aligned _ _ hs
  | .elementGroup _ _, _, hs => execElementGroup_aligned _ _ _ hs
  | .longLatencyProducerDone _ _, _, hs => execLongLatencyProducerDone_aligned _ _ _ hs
  | .aBroadcast _ _, _, hs => execABroadcast_aligned _ _ _ hs
  | .pop _, _, hs => execPop_aligned _ _ hs
  | .creditFreed _, _, hs => execCreditFreed_aligned _ _ hs
  | .slotBindWrite _ _, _, hs => bindWrite_aligned _ _ _ hs
  | .errClear _, _, hs => clearErr_aligned _ _ hs
  | .lpart _, _, hs => execLpart_aligned _ _ hs
  | .maxvl _, _, hs => execMaxvl_aligned _ _ hs
  | .ptbase _, _, hs => execPtbase_aligned _ _ hs
  | .registerWrite _ _, _, hs => mgmtWrite_aligned _ _ _ hs
  | .windowGrant _ _, _, hs => execWindowGrant_aligned _ _ _ hs
  | .windowRevoke _ _, _, hs => execWindowRevoke_aligned _ _ _ hs
  | .windowScrubEnd _, _, hs => execWindowScrubEnd_aligned _ _ hs
  | .tableGrant _ _, _, hs => execTableGrant_aligned _ _ _ hs
  | .tableZeroingEnd _, _, hs => execTableZeroingEnd_aligned _ _ hs
  | .go _, _, hs => execGo_aligned _ _ hs
  | .invalidationEnd, _, hs => execInvalidationEnd_aligned _ hs
  | .walk _ _ _, _, hs => execWalk_aligned _ _ _ _ hs
  | .kill _, _, hs => execKill_aligned _ _ hs
  | .contextEnd _, _, hs => execContextEnd_aligned _ _ hs
  | .pre _, _, hs => preWrite_aligned _ _ hs
  | .halt _, _, hs => haltWrite_aligned _ _ hs
  | .resume _, _, hs => resumeWrite_aligned _ _ _ hs
  | .stepSlot _, _, hs => resumeWrite_aligned _ _ _ hs
  | .restore _, _, hs => restoreWrite_aligned _ _ hs
  | .drop _, _, hs => dropWrite_aligned _ _ hs
  | .preEmption _, _, hs => execPreEmption_aligned _ _ hs
  | .timeSliceExpiry _, _, hs => execTimeSliceExpiry_aligned _ _ hs
  | .abandonment _, _, hs => execAbandonment_aligned _ _ hs
  | .debugData _ _, _, hs => execDebugData_aligned _ _ _ hs
  | .portGrant _, _, hs => execPortGrant_aligned _ _ hs
  | .copy _, _, hs => dataEvent_aligned _ _ _ hs
  | .gather _, _, hs => dataEvent_aligned _ _ _ hs
  | .scatter _, _, hs => dataEvent_aligned _ _ _ hs
  | .requant _, _, hs => dataEvent_aligned _ _ _ hs
  | .convert _, _, hs => dataEvent_aligned _ _ _ hs
  | .waitseq _, _, hs => execWaitseq_aligned _ _ hs
  | .signalDecrement _, _, hs => execSignalDecrement_aligned _ _ hs
  | .signalStore _, _, hs => execSignalStore_aligned _ _ hs
  | .loopCmd _, _, hs => execLoopCmd_aligned _ _ hs
  | .jumpCmd _, _, hs => execJumpCmd_aligned _ _ hs
  | .endCmd _, _, hs => execEndCmd_aligned _ _ hs
  | .commandComplete _, _, hs => execCommandComplete_aligned _ _ hs
  | .arrival _, _, hs => execArrival_aligned _ _ hs
  | .ticketCall _, _, hs => execTicketCall_aligned _ _ hs
  | .ticketTimeout _, _, hs => execTicketTimeout_aligned _ _ hs
  | .budgetPeriod _ _, _, hs => execBudgetPeriod_aligned _ _ _ hs
  | .roundOpen _, _, hs => execRoundOpen_aligned _ _ hs
  | .egressSend _ _ _, _, hs => execEgressSend_aligned _ _ _ _ hs
  | .mergeEmit _ _ _ _, _, hs => execMergeEmit_aligned _ _ _ _ _ hs
  | .ingressDelivery _ _, _, hs => execIngressDelivery_aligned _ _ _ hs
  | .roundComplete _, _, hs => execRoundComplete_aligned _ _ hs
  | .laneOpening _ _ _, _, hs => execLaneOpening_aligned _ _ _ _ hs
  | .faultNotice _ _, _, hs => faultRound_aligned _ _ _ _ hs
  | .remoteRequest _, _, hs => execRemoteRequest_aligned _ _ hs
  | .remoteReply _, _, hs => execRemoteReply_aligned _ _ hs
  | .resend _, _, hs => execResend_aligned _ _ hs
  | .filterFree _, _, hs => execFilterFree_aligned _ _ hs
  | .linkFailed _ _, _, hs => execLinkFailed_aligned _ _ _ hs
  | .htail _, _, hs => execHtail_aligned _ _ hs
  | .hack _, _, hs => execHack_aligned _ _ hs
  | .launch, _, hs => execLaunch_aligned _ hs
  | .endContext, _, hs => execEndContext_aligned _ hs
  | .completionRecord, _, hs => execCompletionRecord_aligned _ hs
  | .completionRingWord _, _, hs => execCompletionRingWord_aligned _ _ hs
  | .hbmWindow _ _, _, hs => execHbmWindow_aligned _ _ _ hs
  | .attestationNonce _, _, hs => execAttestationNonce_aligned _ _ hs
  | .powerOn _ _, _, hs => execPowerOn_aligned _ _ _ hs
  | .selfTestEnd _ _, _, hs => execSelfTestEnd_aligned _ _ _ hs
  | .failedWrite _, _, hs => failWrite_aligned _ _ hs
  | .clockStep _ _, _, hs => execClockStep_aligned _ _ _ hs
  | .thermalReset, s, _ => deviceReset_aligned s
  | .softError _ _ _ _, _, hs => execSoftError_aligned _ _ _ _ _ hs
  | .flush _, _, hs => execFlush_aligned _ _ hs
  | .haltStop _, _, hs => execHaltStop_aligned _ _ hs
  | .sliceReload _, _, hs => execSliceReload_aligned _ _ hs
  | .macroReplay _ _, _, hs => execMacroReplay_aligned _ _ _ hs
  | .storePerformed _ _, _, hs => execStorePerformed_aligned _ _ _ hs
  | .ticketRequest _, _, hs => execTicketRequest_aligned _ _ hs
  | .yieldReturn _, _, hs => execYieldReturn_aligned _ _ hs

/-! ## The dispatch queue -/

theorem askEntry_aligned (s : State) (k : Nat) (hs : PcAligned s) : PcAligned (askEntry s k) :=
  pcAligned_ite (fun _ => hs) fun _ => pcAligned_setHartOf hs (hartAligned_slot hs k)

theorem pushQueue_aligned (s : State) (k : Nat) (q : Queued) (hs : PcAligned s) : PcAligned (pushQueue s k q) :=
  pcAligned_setHartOf hs (hartAligned_slot hs k)

theorem pushTrap_aligned (s : State) (k : Nat) (h : Hart) (i : Instr) (q : Queued) (hs : PcAligned s) : PcAligned (pushTrap s k h i q) := by
  unfold pushTrap
  grind [pushQueue_aligned]

theorem issueInstr_aligned (s : State) (k : Nat) (h : Hart) (w : IWord) (i : Instr) (hs : PcAligned s) :
    PcAligned (issueInstr s k h w i) := by
  unfold issueInstr
  grind [askEntry_aligned, pushTrap_aligned, pushQueue_aligned]

theorem issueNext_aligned (k : Nat) (s : State) (hs : PcAligned s) : PcAligned (issueNext k s) := by
  unfold issueNext
  grind [pushQueue_aligned, issueInstr_aligned]

theorem popQueue_aligned (s : State) (k : Nat) (i : Option Instr) (hs : PcAligned s) : PcAligned (popQueue s k i) := by
  have ht := fun l => pcAligned_setHartOf (k := k) hs (h := { (s.slot k).hart with queue := l }) (hartAligned_slot hs k)
  exact pcAligned_ite (fun _ => ht _) fun _ => dropEarly_aligned _ _ (ht _)

/-! ## A step -/

theorem keepWord_aligned (old : State) (w : Option IWord) (i : Option Instr) (s : State) (hs : PcAligned s) :
    PcAligned (keepWord old w i s) :=
  have hh := hartAligned_slot hs old.cur
  pcAligned_ite (fun _ => pcAligned_setHartOf hs hh) fun _ => popQueue_aligned _ _ _ (pcAligned_setHartOf hs hh)

theorem afterInstr_aligned (old : State) (w : Option IWord) (i : Option Instr) (taken : Bool) (o : Out) (ho : OutAligned o) :
    OutAligned (afterInstr old w i taken o) := by
  cases o with
  | next s => exact traced_aligned _ _ _ _ _ (stepHalt_aligned _ _ (keepWord_aligned old w i s ho))
  | fault => trivial
  | refused => trivial

theorem runWord_aligned (w : IWord) (s : State) (hs : PcAligned s) : OutAligned (runWord w s) := by
  unfold runWord
  split
  · exact outAligned_ite (fun _ => askEntry_aligned s _ hs) fun _ => afterInstr_aligned _ _ _ _ _ (exec_aligned _ s hs)
  · exact afterInstr_aligned _ _ _ _ _ (out_aligned _ hs)

theorem tracedOut_aligned (old : State) (o : Out) (ho : OutAligned o) : OutAligned (tracedOut old o) := by
  cases o with
  | next s => exact traced_aligned _ _ _ _ _ ho
  | fault => trivial
  | refused => trivial

theorem runHart_aligned (s : State) (hs : PcAligned s) : OutAligned (runHart s) := by
  unfold runHart
  have hf := fetchWord_aligned s hs
  grind [fetchedAligned_word, fetchedAligned_stop, outAligned_next, tracedOut_aligned, killLasting_aligned, afterInstr_aligned,
    out_aligned, resAligned_trap, runWord_aligned]

theorem idle_aligned (s : State) (hs : PcAligned s) : OutAligned (idle s) := by
  unfold idle
  grind [outAligned_next, tracedOut_aligned, execSliceReload_aligned, execMacroReplay_aligned, execHaltStop_aligned,
    execPreEmption_aligned, execYieldReturn_aligned, finishTask_aligned, execLpart_aligned, execMaxvl_aligned, execPtbase_aligned,
    runHart_aligned]

theorem runEvent_aligned (e : Instr) (s : State) (hs : PcAligned s) : OutAligned (runEvent e s) :=
  outAligned_ite (fun _ => hs) fun _ => tracedOut_aligned s _ (exec_aligned e s hs)

theorem makeCopy_aligned (h : Holder) (loc : Loc) (s : State) (hs : PcAligned s) : PcAligned (makeCopy h loc s) :=
  pcAligned_ite (fun _ => hs) fun _ => hs

theorem runMove_aligned (m : Move) (s : State) (hs : PcAligned s) : OutAligned (runMove m s) := by
  cases m with
  | run k => exact outAligned_ite (fun _ => runHart_aligned _ hs) fun _ => hs
  | issue k => exact pcAligned_ite (fun _ => issueNext_aligned k s hs) fun _ => hs
  | event e => exact runEvent_aligned e s hs
  | hostStore a bs => exact hs
  | copy h loc => exact makeCopy_aligned h loc s hs

theorem settled_aligned (o : Out) (ho : OutAligned o) : OutAligned (settled o) := by
  cases o with
  | next s => exact settleChans_aligned s ho
  | fault => trivial
  | refused => trivial

theorem step_aligned (s : State) (hs : PcAligned s) : OutAligned (step s) := by
  unfold step
  split
  · exact settled_aligned _ (idle_aligned s hs)
  · exact settled_aligned _ (runMove_aligned _ _ hs)

/-- Settles O16: each move keeps the PCs, the saved PCs and the held entries multiples of 4, and so do the states of the channels. -/
theorem pcStaysAligned : Obligations.PcStaysAligned := by
  unfold Obligations.PcStaysAligned
  intro s t hs hst
  have h := step_aligned s hs
  rw [hst] at h
  exact h

end Sys2Proof.Proofs
end

section
/-! O46. What a step adds around `exec`: the fetch, the word kept, the halt of a STEP, the trace records and the channels' states. -/

namespace Sys2Proof.Proofs
open Sys2Proof Sys2Proof.Machine Sys2Proof.Spec

/-! ## Maps -/

theorem smap_del_del {α : Type} (m : SMap α) (k : Nat) : SMap.del (SMap.del m k) k = SMap.del m k := by
  induction m with
  | nil => rfl
  | cons p m ih =>
    by_cases hk : k = p.1
    · simpa only [SMap.del, if_pos hk] using ih
    · simpa only [SMap.del, if_neg hk, List.cons.injEq, true_and] using ih

theorem smap_put_put {α : Type} (m : SMap α) (k : Nat) (v : α) : SMap.put (SMap.put m k v) k v = SMap.put m k v := by
  induction m with
  | nil => simp [SMap.put]
  | cons p m ih =>
    rcases Nat.lt_trichotomy k p.1 with hk | hk | hk
    · simp [SMap.put, hk]
    · simp [SMap.put, hk]
    · simp [SMap.put, Nat.lt_asymm hk, Nat.ne_of_gt hk, ih]

/-- Writing a value twice is writing it once, in a map of any form. -/
theorem smap_set_set {α : Type} [DecidableEq α] (d : α) (m : SMap α) (k : Nat) (v : α) :
    SMap.set d (SMap.set d m k v) k v = SMap.set d m k v := by
  by_cases hv : v = d
  · simp only [SMap.set, if_pos hv, smap_del_del]
  · simp only [SMap.set, if_neg hv, smap_put_put]

theorem setHartOf_setHartOf (s : State) (k : Nat) (h : Hart) : (s.setHartOf k h).setHartOf k h = s.setHartOf k h := by
  have hv : { (s.setHartOf k h).slot k with hart := h } = { s.slot k with hart := h } := by rw [State.slot_setHartOf]
  simp only [State.setHartOf, State.setSlot] at hv ⊢
  rw [hv, smap_set_set]

/-! ## The fetch -/

theorem heldByte_none {s : State} {h : Holder} (hc : ∀ c ∈ s.copies, c.holder ≠ h) (loc : Loc) : s.heldByte h loc = none := by
  rw [State.heldByte, List.findSome?_eq_none_iff]
  exact fun c hm => if_neg (hc c hm)

/-- A fetch whose hart holds no copy for it reads what stands at the home. -/
theorem fetchLoc_eq_homeRead {s : State} {k : Nat} (hc : ∀ c ∈ s.copies, c.holder ≠ .fetch k) (loc : Loc) (n : Nat) :
    s.fetchLoc k loc n = s.homeRead loc n := by
  induction n generalizing loc with
  | zero => cases loc <;> rfl
  | succ n ih => rw [Memory.homeRead_succ, ← ih, State.fetchLoc, heldByte_none hc, Option.getD_none]

/-- The parts of `instructionTurn`, with what the fetch asks of the requests sent. -/
structure Turn (s : State) : Prop where
  agenda : s.agenda = []
  reload : (s.slot s.cur).reload = none
  replaying : (s.slot s.cur).hart.replaying = 0
  halt : (s.slot s.cur).halt = false
  pre : (s.slot s.cur).pre = false
  yielded : (s.slot s.cur).yielded = false
  ending : (s.slot s.cur).ending = false
  pendCr : (s.slot s.cur).hart.pendCr = none
  running : ((s.slot s.cur).state == .running || (s.slot s.cur).state == .waiting) = true
  ready : s.fnReady (State.tileOf s.cur) = true
  queue : (s.slot s.cur).hart.queue = []

theorem Turn.of_instructionTurn {s : State} (h : instructionTurn s = true) :
    Turn s ∧ s.hart.word = none ∧ s.requestOf (fetchWaiter s.cur) = none := by
  simp only [instructionTurn, Bool.and_eq_true, List.isEmpty_iff, Option.isNone_iff_eq_none, Bool.not_eq_true', beq_iff_eq] at h
  obtain ⟨⟨⟨⟨⟨⟨⟨⟨⟨⟨⟨⟨agenda, reload⟩, replaying⟩, halt⟩, pre⟩, yielded⟩, ending⟩, pendCr⟩, running⟩, ready⟩, word⟩, queue⟩, reqs⟩ := h
  refine ⟨⟨agenda, reload, replaying, halt, pre, yielded, ending, pendCr, running, ready, queue⟩, word, ?_⟩
  rw [State.requestOf, List.find?_eq_none]
  intro r hr
  simpa using List.all_eq_true.mp reqs r hr

/-- The turn of a slot with a word in progress is that of the slot without it. -/
theorem Turn.of_setHart {s : State} (h : Turn (s.setHart { s.hart with word := none })) : Turn s := by
  obtain ⟨agenda, reload, replaying, halt, pre, yielded, ending, pendCr, running, ready, queue⟩ := h
  simp only [State.setHart_cur, State.slot_setHart] at reload replaying halt pre yielded ending pendCr running queue
  exact ⟨agenda, reload, replaying, halt, pre, yielded, ending, pendCr, running, ready, queue⟩

/-- Where it is the slot's turn, a step runs its hart. -/
theorem Turn.step_eq {s : State} (h : Turn s) : step s = settled (runHart s) := by
  have hi : idle s = runHart s := by
    simp [idle, h.reload, h.replaying, h.halt, h.pre, h.yielded, h.ending, h.pendCr]
  rw [step, h.agenda, ← hi]

theorem Turn.canRun {s : State} (h : Turn s) : canRun s s.cur = true := by
  simp only [Machine.canRun, h.running, h.yielded, h.ending, h.pendCr, Slot.stopDue, h.halt, h.pre]
  rfl

theorem Turn.not_fnFailed {s : State} (h : Turn s) : s.fnFailed (State.tileOf s.cur) = false := by
  have hr := h.ready
  rw [State.fnReady, beq_iff_eq] at hr
  rw [State.fnFailed, hr]
  rfl

theorem Turn.runHart_of_word {s u : State} {w : IWord} (h : Turn s) (hf : fetchWord s = .word w u) : runHart s = runWord w u := by
  simp [runHart, h.canRun, h.not_fnFailed, h.ready, State.hart, h.queue, hf]

theorem Turn.runHart_of_stop {s : State} {r : Res} (h : Turn s) (hf : fetchWord s = .stop r) :
    runHart s = afterInstr s none none false r.out := by
  simp [runHart, h.canRun, h.not_fnFailed, h.ready, State.hart, h.queue, hf]

/-- Without a word in progress, a queue and a request sent, the fetch is the check of the address at the PC. -/
theorem fetchWord_of_check {s : State} (hw : s.hart.word = none) (hq : s.hart.queue = [])
    (hr : s.requestOf (fetchWaiter s.cur) = none) {loc : Loc} {dev : Bool} (hl : isLocal loc = true)
    (hc : s.checkVirtual (State.tileOf s.cur) s.ctxid s.hart.pc.toNat .fetch 4 4 true = .go loc dev) :
    fetchWord s = .word (BitVec.ofNat 32 (s.fetchLoc s.cur loc 4)) s := by
  cases loc with
  | peer => cases hl
  | hbm | cis | host => simp [fetchWord, hw, hq, hr, hc]

theorem fetchWord_of_bad {s : State} (hw : s.hart.word = none) (hq : s.hart.queue = [])
    (hr : s.requestOf (fetchWaiter s.cur) = none) {cause wl : Nat}
    (hc : s.checkVirtual (State.tileOf s.cur) s.ctxid s.hart.pc.toNat .fetch 4 4 true = .bad cause wl) :
    fetchWord s = .stop (.trap cause 0 s.hart.pc wl s) := by
  simp [fetchWord, hw, hq, hr, hc]

theorem fetchWord_of_word {s : State} {w : IWord} {d : Bool} (h : s.hart.word = some (w, d)) : fetchWord s = .word w s := by
  simp [fetchWord, h]

/-! ## What follows the execution -/

theorem stepHalt_of_no_step {old : State} (h : (old.slot old.cur).step = false) (s : State) : stepHalt old s = s := by
  simp [stepHalt, h]

theorem traced_of_not_tracing {s : State} (h : s.tracing = false) (old : State) (k : Nat) (i : Option Instr) (taken : Bool) :
    State.traced old k i taken s = s := by
  simp [State.traced, h]

@[simp] theorem popQueue_trace (s : State) (k : Nat) (i : Option Instr) : (popQueue s k i).trace = s.trace := by
  unfold popQueue
  extract_lets h l t
  split <;> rfl

@[simp] theorem keepWord_trace (old : State) (w : Option IWord) (i : Option Instr) (s : State) : (keepWord old w i s).trace = s.trace := by
  unfold keepWord
  extract_lets h v waits want
  split
  · rfl
  · exact popQueue_trace _ _ i

@[simp] theorem takeTrap_trace (s : State) (k cause i : Nat) (v : Word) (wl : Nat) (epc : Word) :
    (s.takeTrap k cause i v wl epc).trace = s.trace := by
  unfold State.takeTrap
  extract_lets
  split <;> rfl

/-- With no STEP and tracing off, only `keepWord` is added to what an instruction leaves. -/
theorem afterInstr_quiet {old s : State} (hs : (old.slot old.cur).step = false) (ht : s.tracing = false) (w : Option IWord)
    (i : Option Instr) (taken : Bool) : afterInstr old w i taken (.next s) = .next (keepWord old w i s) := by
  have hk : (keepWord old w i s).tracing = false := by rwa [State.tracing, keepWord_trace]
  rw [afterInstr, stepHalt_of_no_step hs, traced_of_not_tracing hk]

/-- The same for a trap before `exec`. -/
theorem afterInstr_trap_quiet {s : State} (hs : (s.slot s.cur).step = false) (ht : s.tracing = false) (cause i : Nat) (v : Word) (wl : Nat) :
    afterInstr s none none false (Res.trap cause i v wl s).out = .next (keepWord s none none (s.takeTrap s.cur cause i v wl s.hart.pc)) :=
  afterInstr_quiet hs (by rwa [State.tracing, takeTrap_trace]) none none false

/-! ## The word kept -/

theorem detm_eq_detmSeen (s : State) : s.detm = detmSeen s := by
  unfold State.detm detmSeen
  split <;> rename_i hw <;> rw [hw] 
  split <;> rename_i hq <;> rw [hq]

theorem keepWord_of_stands {s t : State} (hq : s.hart.queue = []) (h : stands s t s.cur = true) (w : IWord) (i : Option Instr) :
    keepWord s (some w) i t =
      t.setHartOf s.cur { (t.slot s.cur).hart with want := none, word := some (w, detmSeen s) } := by
  have hq' : (s.slot s.cur).hart.queue.isEmpty = true := by rw [List.isEmpty_iff]; exact hq
  simp only [stands] at h
  simp only [keepWord, h, hq', if_true, Option.map_some, detm_eq_detmSeen]

/-- Without a queue, the end of an instruction forgets what the hart's loads have read early. -/
theorem popQueue_of_empty (s : State) (k : Nat) (h : Hart) (i : Option Instr) (hq : h.queue = []) :
    popQueue (s.setHartOf k h) k i = (s.setHartOf k h).dropEarly k := by
  have hl : { h with queue := [] } = h := by rw [← hq]
  simp only [popQueue, State.slot_setHartOf, hq, List.drop_nil, sameWords, ite_self, hl, setHartOf_setHartOf]
  simp [loadsQueued, hq]

theorem keepWord_of_not_stands {s t : State} (hq : s.hart.queue = []) (hqt : (t.slot s.cur).hart.queue = [])
    (h : stands s t s.cur = false) (w : Option IWord) (i : Option Instr) :
    keepWord s w i t =
      (t.setHartOf s.cur { (t.slot s.cur).hart with want := none, word := none, mid := false }).dropEarly s.cur := by
  have hq' : (s.slot s.cur).hart.queue.isEmpty = true := by rw [List.isEmpty_iff]; exact hq
  simp only [stands] at h
  simp only [keepWord, h, hq', if_true, Bool.false_eq_true, if_false]
  exact popQueue_of_empty _ _ _ i hqt

/-! ## The parts of a step whose turn it is -/

theorem turn_step_of_local {s : State} (h : instructionTurn s = true) {loc : Loc} {dev : Bool} (hl : isLocal loc = true)
    (hc : s.checkVirtual (State.tileOf s.cur) s.ctxid s.hart.pc.toNat .fetch 4 4 true = .go loc dev) :
    step s = settled (runWord (BitVec.ofNat 32 (s.fetchLoc s.cur loc 4)) s) := by
  obtain ⟨turn, hw, hr⟩ := Turn.of_instructionTurn h
  rw [turn.step_eq, turn.runHart_of_word (fetchWord_of_check hw turn.queue hr hl hc)]

theorem turn_step_of_bad {s : State} (h : instructionTurn s = true) {cause wl : Nat}
    (hc : s.checkVirtual (State.tileOf s.cur) s.ctxid s.hart.pc.toNat .fetch 4 4 true = .bad cause wl) :
    step s = settled (afterInstr s none none false (Res.trap cause 0 s.hart.pc wl s).out) := by
  obtain ⟨turn, hw, hr⟩ := Turn.of_instructionTurn h
  rw [turn.step_eq, turn.runHart_of_stop (fetchWord_of_bad hw turn.queue hr hc)]

theorem turn_step_of_word {s : State} (h : instructionTurn (s.setHart { s.hart with word := none }) = true) {w : IWord} {d : Bool}
    (hw : s.hart.word = some (w, d)) : step s = settled (runWord w s) := by
  have turn := Turn.of_setHart (Turn.of_instructionTurn h).1
  rw [turn.step_eq, turn.runHart_of_word (fetchWord_of_word hw)]

theorem runWord_of_needsEntry {s : State} {w : IWord} {i : Instr} (hi : decode w = .ok i) (hn : needsEntry i s = true) :
    runWord w s = .next (askEntry s s.cur) := by
  simp [runWord, hi, hn]

theorem runWord_of_ok {s : State} {w : IWord} {i : Instr} (hi : decode w = .ok i) (hn : needsEntry i s = false) :
    runWord w s = afterInstr s (some w) (some i) (transfers i s) (exec i s) := by
  simp [runWord, hi, hn]

theorem needsEntry_of_word {s : State} {p : IWord × Bool} (h : s.hart.word = some p) (i : Instr) : needsEntry i s = false := by
  simp [needsEntry, h]

theorem stepRunsDecoded : StepRunsDecoded := by
  refine ⟨fun s loc dev turn => ?_, fun s t w i hq hqt => ?_, fun s w d i turn hw hi => ?_⟩
  · refine ⟨fun hc => by rw [fetchLoc_eq_homeRead hc], fun hc hl => ?_, fun cause wl hc ⟨htr, hst⟩ => ?_⟩
    · rw [turn_step_of_local turn hl hc]
      refine ⟨fun i hi => ⟨fun hn => ?_, fun hn => ⟨?_, fun t ht hst htr => ⟨?_, rfl⟩⟩⟩, fun r hr ⟨htr, hst⟩ => ?_⟩
      · rw [runWord_of_needsEntry hi hn]
        rfl
      · rw [runWord_of_ok hi hn]
      · rw [runWord_of_ok hi hn, ht, afterInstr_quiet hst htr]
        rfl
      · rw [runWord, hr]
        exact congrArg settled (afterInstr_trap_quiet hst htr _ _ _ _)
    · rw [turn_step_of_bad turn hc, afterInstr_trap_quiet hst htr]
      rfl
  · refine ⟨fun h => keepWord_of_stands hq h w i, fun h => ?_⟩
    rw [keepWord_of_not_stands hq hqt h]
    exact ⟨rfl, fun c => by simp [State.dropEarly]⟩
  · rw [turn_step_of_word turn hw, runWord_of_ok hi (needsEntry_of_word hw i)]

/-! ## The moves of the agenda -/

theorem step_of_move {s : State} {m : Move} {rest : List Move} (h : s.agenda = m :: rest) :
    step s = settled (runMove m { s with agenda := rest }) := by
  rw [step, h]

/-- A store of bytes leaves the addresses outside of them. -/
theorem get_storeBytes_other (a : Nat) (l : List Byte) (n : Nat) (m : SMap Byte) {x : Nat} (hx : x < a + n ∨ a + n + l.length ≤ x) :
    SMap.get 0 ((l.zipIdx n).foldl (fun m p => SMap.set 0 m (a + p.2) p.1) m) x = SMap.get 0 m x := by
  induction l generalizing n m with
  | nil => rfl
  | cons b l ih =>
    rw [List.length_cons] at hx
    rw [List.zipIdx_cons, List.foldl_cons, ih _ _ (by omega), SMap.get_set_other _ _ _ (by omega)]

/-- A store of bytes writes each at its place. -/
theorem get_storeBytes (a : Nat) (l : List Byte) (n : Nat) (m : SMap Byte) {k : Nat} {b : Byte} (hb : l[k]? = some b) :
    SMap.get 0 ((l.zipIdx n).foldl (fun m p => SMap.set 0 m (a + p.2) p.1) m) (a + n + k) = b := by
  induction l generalizing n m k with
  | nil => cases hb
  | cons c l ih =>
    rw [List.zipIdx_cons, List.foldl_cons]
    cases k with
    | zero =>
      rw [get_storeBytes_other _ _ _ _ (by omega)]
      rw [List.getElem?_cons_zero, Option.some.injEq] at hb
      rw [Nat.add_zero, SMap.get_set_same, hb]
    | succ k =>
      rw [List.getElem?_cons_succ] at hb
      have := ih (n + 1) (SMap.set 0 m (a + n) c) hb
      rwa [show a + (n + 1) + k = a + n + (k + 1) by omega] at this

theorem replacesCopy_iff (h : Holder) (c : Copy) :
    replacesCopy h c = true ↔ c.holder = h ∨ ∃ k, h = .early k ∧
      (c.holder = .tile (State.tileOf k) ∨ ∃ j, State.tileOf j = State.tileOf k ∧ c.holder = .hart j) := by
  cases h with
  | early k => cases hc : c.holder <;> simp [replacesCopy, State.nearTile, hc]
  | _ => simp [replacesCopy]

theorem makeCopy_eq (h : Holder) (loc : Loc) (s : State) : ∃ l, makeCopy h loc s = { s with copies := l } := by
  unfold makeCopy
  split
  · exact ⟨_, rfl⟩
  · exact ⟨s.copies, rfl⟩

/-- What is listed after a copy has been made. -/
theorem mem_makeCopy (h : Holder) (loc : Loc) (s : State) (c : Copy) :
    c ∈ (makeCopy h loc s).copies ↔ if mayHold s h loc = true
      then c = ⟨h, lineOf loc, BitVec.ofNat 512 (s.homeRead (lineOf loc) 64)⟩ ∨ (c ∈ s.copies ∧ ¬ (c.loc = lineOf loc ∧ replacesCopy h c = true))
      else c ∈ s.copies := by
  unfold makeCopy
  extract_lets l
  split
  · simp [l, or_comm, imp_iff_not_or]
  · rfl

/-- An issue ahead changes at most the queue and the turn of one hart. -/
def QueueOnly (k : Nat) (s t : State) : Prop :=
  t = s ∨ ∃ queue want, t = s.setHartOf k { (s.slot k).hart with queue := queue, want := want }

theorem queueOnly_refl (k : Nat) (s : State) : QueueOnly k s s := .inl rfl

theorem queueOnly_askEntry (s : State) (k : Nat) : QueueOnly k s (askEntry s k) := by
  unfold askEntry
  extract_lets h
  split
  · exact queueOnly_refl k s
  · exact .inr ⟨h.queue, _, rfl⟩

theorem queueOnly_pushQueue (s : State) (k : Nat) (q : Queued) : QueueOnly k s (pushQueue s k q) := .inr ⟨_, _, rfl⟩

theorem queueOnly_pushTrap (s : State) (k : Nat) (h : Hart) (i : Instr) (q : Queued) : QueueOnly k s (pushTrap s k h i q) := by
  unfold pushTrap
  grind [queueOnly_refl, queueOnly_pushQueue]

theorem queueOnly_issueInstr (s : State) (k : Nat) (h : Hart) (w : IWord) (i : Instr) : QueueOnly k s (issueInstr s k h w i) := by
  unfold issueInstr
  grind [queueOnly_refl, queueOnly_askEntry, queueOnly_pushQueue, queueOnly_pushTrap]

theorem queueOnly_issueNext (k : Nat) (s : State) : QueueOnly k s (issueNext k s) := by
  unfold issueNext
  grind [queueOnly_refl, queueOnly_pushQueue, queueOnly_issueInstr]

theorem runMove_issue (k : Nat) (s : State) : ∃ t, runMove (.issue k) s = .next t ∧ QueueOnly k s t := by
  refine ⟨_, rfl, ?_⟩
  split
  · exact queueOnly_issueNext k s
  · exact queueOnly_refl k s

/-- What a move leaves that changes at most the queue and the turn of one hart. -/
theorem QueueOnly.frame {k : Nat} {s t : State} (h : QueueOnly k s t) :
    { t with slots := s.slots } = s ∧ (∀ j, j ≠ k → t.slot j = s.slot j) ∧
    t.slot k = { s.slot k with hart := { (s.slot k).hart with queue := (t.slot k).hart.queue, want := (t.slot k).hart.want } } := by
  rcases h with rfl | ⟨queue, want, rfl⟩
  · exact ⟨rfl, fun _ _ => rfl, rfl⟩
  · exact ⟨rfl, fun j hj => State.slot_setHartOf_other s k _ hj, by rw [State.slot_setHartOf]⟩

theorem stepRunsAgenda : StepRunsAgenda := by
  intro s rest
  refine ⟨fun e ha he t ht htr => ?_, fun k ha hk => ?_, fun a bs ha => ?_, fun h loc ha => ?_, fun k ha => ?_⟩
  · rw [step_of_move ha, runMove, runEvent, he, ht]
    simp [tracedOut, traced_of_not_tracing htr, settled]
  · rw [step_of_move ha, runMove, if_pos hk]
  · refine ⟨_, step_of_move ha, rfl, fun x hx => get_storeBytes_other a bs 0 s.host (by omega), fun k b hb => ?_⟩
    exact get_storeBytes a bs 0 s.host hb
  · obtain ⟨l, hl⟩ := makeCopy_eq h loc { s with agenda := rest }
    have hm := mem_makeCopy h loc { s with agenda := rest }
    simp only [hl, replacesCopy_iff] at hm
    refine ⟨settleChans { s with agenda := rest, copies := l }, ?_, rfl, hm⟩
    rw [step_of_move ha, runMove, hl, settled]
  · obtain ⟨u, hu, hq⟩ := runMove_issue k { s with agenda := rest }
    obtain ⟨hframe, hother, hslot⟩ := hq.frame
    refine ⟨settleChans u, by rw [step_of_move ha, hu, settled], ?_, hother, hslot⟩
    exact congrArg (fun t => { t with chans := s.chans, agenda := s.agenda }) hframe

/-- Settles O46: a step is the fetch and the run of the decoded word, or the move that the agenda names. -/
theorem stepRuns : Obligations.StepRuns := ⟨stepRunsDecoded, stepRunsAgenda⟩

end Sys2Proof.Proofs
end

section
/-! O14. The reset column of the register tables. -/

namespace Sys2Proof.Proofs
open Sys2Proof Sys2Proof.Machine Sys2Proof.Spec

/-! ## Every table is empty at reset, so that each entry reads as its default -/

theorem slot_reset (k : Nat) : State.reset.slot k = {} := rfl
theorem tile_reset (t : Nat) : State.reset.tile t = {} := rfl
theorem ctx_reset (c : BitVec 6) : State.reset.ctx c = {} := rfl
theorem window_reset (a : Nat) : State.reset.window a = {} := rfl
theorem unit_reset (n : Nat) : State.reset.unit n = {} := rfl
theorem func_reset (n : Nat) : State.reset.func n = {} := rfl
theorem power_reset (n : Nat) : SMap.get {} State.reset.power n = ({} : Power) := rfl

theorem pcAligned_reset : PcAligned State.reset := by
  refine ⟨fun k => ?_, fun e he => absurd he List.not_mem_nil⟩
  rw [slot_reset]
  decide

/-- Settles O14: the tables are empty, and the defaults of their entries are the values of the reset columns. -/
theorem resetState : Obligations.ResetState := by
  unfold Obligations.ResetState
  refine ⟨fun k => ?_, fun t => ?_, fun c => ?_, window_reset, rfl, rfl, rfl, rfl, rfl, rfl, rfl, rfl, rfl, rfl, fun n => ?_,
    func_reset, power_reset, Memory.wf_reset, pcAligned_reset⟩
  · rw [slot_reset]
    decide
  · rw [tile_reset]
    decide
  · rw [ctx_reset]
    decide
  · rw [unit_reset]
    decide

end Sys2Proof.Proofs
end

section
/-! The frames that the statements about slots, channels and engines share: one slot or channel written, and which of the requests sent
are left when an instruction or an engine no longer waits for them. -/

namespace Sys2Proof.Proofs
open Sys2Proof Sys2Proof.Machine Sys2Proof.Spec

/-! ## One slot, one channel -/

theorem onlySlot_setSlot (s : State) (k : Nat) (v : Slot) : OnlySlot s (s.setSlot k v) k v := ⟨rfl, fun j => s.slot_setSlot k j v⟩

theorem onlySlot_setHartOf (s : State) (k : Nat) (h : Hart) : OnlySlot s (s.setHartOf k h) k { s.slot k with hart := h } :=
  onlySlot_setSlot s k _

theorem onlyChan_setChan (s : State) (c : Nat) (x : Channel) : OnlyChan s (s.setChan c x) c x := ⟨rfl, fun d => s.chan_setChan c d x⟩

/-- The latest of two writes of one slot stands. -/
theorem onlySlot_again {s t : State} {k : Nat} {u : Slot} (h : OnlySlot s t k u) (v : Slot) : OnlySlot s (t.setSlot k v) k v := by
  obtain ⟨hframe, hslot⟩ := h
  refine ⟨hframe, fun j => ?_⟩
  rw [State.slot_setSlot]
  split
  · rfl
  · rw [hslot, if_neg ‹_›]

/-! ## The requests that are left -/

/-- The request was sent for an element of the instruction of slot k. -/
def sentFor (k : Nat) (r : SentReq) : Bool := match r.who with | .elem q _ => q == k | _ => false

theorem sentFor_iff (k : Nat) (r : SentReq) : sentFor k r = true ↔ ∃ i, r.who = .elem k i := by
  cases hw : r.who <;> simp [sentFor, hw]

theorem clearRequests_eq (s : State) (k : Nat) : s.clearRequests k = s.dropRequests (sentFor k) k (s.slot k).hart.taskid := rfl

/-- Of the requests dropped those without an answer stay, for nobody; the others are as they were. -/
theorem mem_dropRequests (s : State) (p : SentReq → Bool) (k : Nat) (task : BitVec 32) (r : SentReq) :
    r ∈ (s.dropRequests p k task).net.reqs ↔ (r ∈ s.net.reqs ∧ p r = false) ∨
      ∃ q ∈ s.net.reqs, p q = true ∧ q.reply = none ∧ q.failed = false ∧ r = { q with who := .gone k task } := by
  simp only [State.dropRequests, List.mem_map, List.mem_filter]
  constructor
  · rintro ⟨q, ⟨hq, hk⟩, rfl⟩
    cases hp : p q
    · simp [hp, hq]
    · refine .inr ⟨q, hq, hp, ?_⟩
      simpa [hp] using hk
  · rintro (⟨hr, hp⟩ | ⟨q, hq, hp, hreply, hfailed, rfl⟩)
    · exact ⟨r, ⟨hr, by simp [hp]⟩, by simp [hp]⟩
    · exact ⟨q, ⟨hq, by simp [hreply, hfailed]⟩, by simp [hp]⟩

/-- Dropping requests that nobody has sent changes nothing. -/
theorem dropRequests_of_none (s : State) (p : SentReq → Bool) (k : Nat) (task : BitVec 32) (h : ∀ r ∈ s.net.reqs, p r = false) :
    s.dropRequests p k task = s := by
  have hf : s.net.reqs.filter (fun r => !(p r && (r.reply.isSome || r.failed))) = s.net.reqs :=
    List.filter_eq_self.mpr fun r hr => by simp [h r hr]
  have hm : s.net.reqs.map (fun r => if p r = true then { r with who := .gone k task } else r) = s.net.reqs :=
    (List.map_congr_left fun r hr => if_neg (by simp [h r hr])).trans (List.map_id' _)
  simp only [State.dropRequests, hf, hm]

end Sys2Proof.Proofs
end

section
/-! O51. Requests to a slot, the halt of a slot, and the debug port. -/

namespace Sys2Proof.Proofs
open Sys2Proof Sys2Proof.Machine Sys2Proof.Spec

/-! ## Requests -/

theorem preWrite_of_open {s : State} {k : Nat} (hb : (s.slot k).busy = false) (hi : (s.slot k).img ≠ 0) (ho : s.occupied k = true) :
    preWrite k s = s.setSlot k { s.slot k with pre := true, preImg := (s.slot k).img } :=
  if_neg (by rintro (h | h | h) <;> simp_all)

theorem preWrite_of_closed {s : State} {k : Nat} (h : (s.slot k).busy = true ∨ (s.slot k).img = 0 ∨ s.occupied k = false) :
    preWrite k s = s := if_pos (by simpa using h)

theorem haltWrite_of_live {s : State} {k : Nat} (h : (s.slot k).state = .running ∨ (s.slot k).state = .waiting) :
    haltWrite k s = s.setSlot k { s.slot k with halt := true, busy := true } := if_pos h

theorem haltWrite_of_not_live {s : State} {k : Nat} (hr : (s.slot k).state ≠ .running) (hw : (s.slot k).state ≠ .waiting) :
    haltWrite k s = s := if_neg (not_or.mpr ⟨hr, hw⟩)

theorem resumeWrite_of_halted {s : State} {k : Nat} (h : (s.slot k).state = .halted) (one : Bool) :
    resumeWrite k one s =
      s.setSlot k { s.slot k with state := (s.slot k).ret, step := one, hart := { (s.slot k).hart with abnd := false } } := if_pos h

theorem resumeWrite_of_not_halted {s : State} {k : Nat} (h : (s.slot k).state ≠ .halted) (one : Bool) : resumeWrite k one s = s := if_neg h

theorem dropWrite_of_saved {s : State} {k : Nat} (h : (s.slot k).state = .saved) (hb : (s.slot k).busy = false) :
    dropWrite k s = s.setSlot k { s.slot k with state := .free } := if_neg (by simp [h, hb])

theorem dropWrite_of_not_saved {s : State} {k : Nat} (h : (s.slot k).state ≠ .saved ∨ (s.slot k).busy = true) : dropWrite k s = s :=
  if_pos (by tauto)

/-! ## The halt at a stop point -/

theorem waitsRemote_eq (s : State) (k : Nat) : s.waitsRemote k = s.net.reqs.any (fun r => sentFor k r && !State.repeatable r) := rfl

/-- At a stop point every request of the slot's instruction has had its answer. -/
theorem answered_of_stopPoint {s : State} {k : Nat} (h : stopPoint s k = true) {r : SentReq} (hr : r ∈ s.net.reqs)
    (hk : sentFor k r = true) : r.reply.isSome = true ∨ r.failed = true := by
  have hw : s.waitsRemote k = false := by
    simp only [stopPoint, insideInstr, Bool.and_eq_true, Bool.not_eq_true', Bool.or_eq_false_iff] at h
    exact h.2.1.1.1.1
  rw [waitsRemote_eq, List.any_eq_false] at hw
  have hrep : State.repeatable r = true := by simpa [hk] using hw r hr
  simp only [State.repeatable, Bool.and_eq_true, Bool.or_eq_true] at hrep
  exact hrep.2

/-- At a stop point the slot's instruction leaves no request behind. -/
theorem mem_clearRequests_of_stopPoint {s : State} {k : Nat} (h : stopPoint s k = true) (r : SentReq) :
    r ∈ (s.clearRequests k).net.reqs ↔ r ∈ s.net.reqs ∧ ∀ i, r.who ≠ .elem k i := by
  have hp : sentFor k r = false ↔ ∀ i, r.who ≠ .elem k i := by
    rw [← Bool.not_eq_true, sentFor_iff, not_exists]
  rw [clearRequests_eq, mem_dropRequests, ← hp, or_iff_left]
  rintro ⟨q, hq, hqk, hreply, hfailed, -⟩
  simpa [hreply, hfailed] using answered_of_stopPoint h hq hqk

/-- The slot as a halt leaves it (R55, R356). -/
def haltedSlot (v : Slot) : Slot :=
  { v with
    state := .halted, ret := v.state, halt := false, step := false, busy := false
    hart := { v.hart with pwait := none, qtail := none, word := none, queue := [], want := none, accs := [] } }

theorem onlySlot_haltSlot (s : State) (k : Nat) :
    OnlySlot ((s.clearRequests k).dropEarly k) (haltSlot k s) k
      { s.slot k with
        state := .halted, ret := (s.slot k).state, halt := false, step := false, busy := false
        hart := { (s.slot k).hart with word := none, queue := [], want := none, accs := [] } } :=
  onlySlot_setSlot _ k _

theorem execHaltStop_of_stop {s : State} {k : Nat} (hh : (s.slot k).halt = true) (hp : stopPoint s k = true) :
    ∃ t, execHaltStop k s = .next t ∧ OnlySlot { s with net := t.net, copies := t.copies } t k (haltedSlot (s.slot k)) ∧
      t.copies = (s.dropEarly k).copies ∧ t.net = (s.clearRequests k).net := by
  have hk := (onlySlot_haltSlot s k).2 k
  rw [if_pos rfl] at hk
  have hslot := onlySlot_again (onlySlot_haltSlot s k)
    { (haltSlot k s).slot k with hart := { ((haltSlot k s).slot k).hart with pwait := none, qtail := none } }
  rw [hk] at hslot
  refine ⟨_, congrArg Host.Outcome.next (if_pos ⟨hh, hp⟩), ?_, rfl, rfl⟩
  rw [State.setHartOf, hk]
  exact hslot

theorem execHaltStop_of_not_stop {s : State} {k : Nat} (h : (s.slot k).halt = false ∨ stopPoint s k = false) :
    execHaltStop k s = .next s := by
  have hn : ¬ ((s.slot k).halt = true ∧ stopPoint s k = true) := by
    rintro ⟨hh, hp⟩
    rcases h with h | h
    · exact Bool.false_ne_true (h.symm.trans hh)
    · exact Bool.false_ne_true (h.symm.trans hp)
  exact congrArg Host.Outcome.next (if_neg hn)

theorem mem_dropEarly (s : State) (k : Nat) (c : Copy) : c ∈ (s.dropEarly k).copies ↔ c ∈ s.copies ∧ c.holder ≠ .early k := by
  simp [State.dropEarly]

theorem slotRequests : SlotRequests := by
  intro k s v
  refine ⟨fun hb hi ho => ?_, fun h => ?_, fun h => ?_, fun hr hw => ?_, fun h => ⟨?_, ?_⟩, fun h => ⟨?_, ?_⟩, fun h hb => ?_, fun h => ?_,
    fun hh hp => ?_, fun h => execHaltStop_of_not_stop h⟩
  · exact ⟨_, congrArg Host.Outcome.next (preWrite_of_open hb hi ho), onlySlot_setSlot s k _⟩
  · exact congrArg Host.Outcome.next (preWrite_of_closed h)
  · exact ⟨_, congrArg Host.Outcome.next (haltWrite_of_live h), onlySlot_setSlot s k _⟩
  · exact congrArg Host.Outcome.next (haltWrite_of_not_live hr hw)
  · exact ⟨_, congrArg Host.Outcome.next (resumeWrite_of_halted h false), onlySlot_setSlot s k _⟩
  · exact ⟨_, congrArg Host.Outcome.next (resumeWrite_of_halted h true), onlySlot_setSlot s k _⟩
  · exact congrArg Host.Outcome.next (resumeWrite_of_not_halted h false)
  · exact congrArg Host.Outcome.next (resumeWrite_of_not_halted h true)
  · exact ⟨_, congrArg Host.Outcome.next (dropWrite_of_saved h hb), onlySlot_setSlot s k _⟩
  · exact congrArg Host.Outcome.next (dropWrite_of_not_saved h)
  · obtain ⟨t, ht, hslot, hcopies, hnet⟩ := execHaltStop_of_stop hh hp
    refine ⟨t, ht, hslot, fun c => ?_, ?_, fun r => ?_⟩
    · rw [hcopies, mem_dropEarly]
    · rw [hnet]
      rfl
    · rw [hnet, mem_clearRequests_of_stopPoint hp]

/-! ## Nibbles of the slice file -/

theorem extract_putElem (r : Row) (sl v i : Nat) (hi : i < 64) :
    (putElem r 4 sl v).extractLsb' (4 * i) 4 = if i = sl then BitVec.ofNat 4 v else r.extractLsb' (4 * i) 4 := by
  apply BitVec.eq_of_getLsbD_eq
  intro j hj
  have hlt : 4 * i + j < 256 := by omega
  have hmask : (BitVec.ofNat 256 ((2 ^ 4 - 1) * 2 ^ (4 * sl))).getLsbD (4 * i + j) = decide (i = sl) := by
    rw [BitVec.getLsbD_ofNat, Nat.testBit_mul_two_pow, Nat.testBit_two_pow_sub_one]
    simp only [hlt, decide_true, Bool.true_and]
    rw [← Bool.decide_and, decide_eq_decide]
    omega
  have hval : (BitVec.ofNat 256 (v % 2 ^ 4 * 2 ^ (4 * sl))).getLsbD (4 * i + j) = (decide (i = sl) && v.testBit j) := by
    rw [BitVec.getLsbD_ofNat, Nat.testBit_mul_two_pow, Nat.testBit_mod_two_pow]
    simp only [hlt, decide_true, Bool.true_and]
    by_cases h : i = sl
    · subst h
      simp [hj]
    · rw [decide_eq_false h, Bool.false_and]
      by_cases hle : 4 * sl ≤ 4 * i + j
      · rw [decide_eq_false (show ¬ 4 * i + j - 4 * sl < 4 by omega), Bool.false_and, Bool.and_false]
      · rw [decide_eq_false hle, Bool.false_and]
  rw [putElem, bitOff, if_neg (by decide), BitVec.getLsbD_extractLsb', BitVec.getLsbD_or, BitVec.getLsbD_and, BitVec.getLsbD_not, hmask,
    hval]
  have hv : (BitVec.ofNat 4 v).getLsbD j = v.testBit j := by rw [BitVec.getLsbD_ofNat, decide_eq_true hj, Bool.true_and]
  by_cases h : i = sl
  · simp [h, hj, ← hv]
  · simp [h, hj, hlt]

theorem nibble_putNibble (h : Hart) (sl e v i j : Nat) (hi : i < 64) :
    (h.putNibble sl e v).nibble i j = if i = sl ∧ j = e then v % 16 else h.nibble i j := by
  simp only [Hart.nibble, Hart.putNibble, Hart.row, SMap.get_set]
  by_cases hj : j = e
  · rw [if_pos hj, extract_putElem _ _ _ _ hi]
    by_cases hs : i = sl
    · rw [if_pos hs, if_pos ⟨hs, hj⟩, BitVec.toNat_ofNat]
    · rw [if_neg hs, if_neg (fun h => hs h.1), hj]
  · rw [if_neg hj, if_neg (fun h => hj h.2)]

/-- Nibbles lo … lo + n − 1 of the number v, written into slice sl from element e0 on where they lie below VLMAX. -/
def putNibbles (sl e0 vlmax v lo n : Nat) (h : Hart) : Hart :=
  foldRange (fun j x => if e0 + j < vlmax then x.putNibble sl (e0 + j) (bits v (4 * j) 4) else x) lo n h

theorem putNibbles_succ (sl e0 vlmax v lo n : Nat) (h : Hart) : putNibbles sl e0 vlmax v lo (n + 1) h =
    putNibbles sl e0 vlmax v (lo + 1) n (if e0 + lo < vlmax then h.putNibble sl (e0 + lo) (bits v (4 * lo) 4) else h) := rfl

/-- Only the slice file changes. -/
theorem putNibbles_frame (sl e0 vlmax v lo n : Nat) (h : Hart) :
    putNibbles sl e0 vlmax v lo n h = { h with z := (putNibbles sl e0 vlmax v lo n h).z } := by
  induction n generalizing lo h with
  | zero => rfl
  | succ n ih =>
    rw [putNibbles_succ, ih]
    split <;> rfl

theorem nibble_putNibbles (sl e0 vlmax v lo n : Nat) (h : Hart) (i e : Nat) (hi : i < 64) :
    (putNibbles sl e0 vlmax v lo n h).nibble i e =
      if i = sl ∧ e0 + lo ≤ e ∧ e < e0 + lo + n ∧ e < vlmax then bits v (4 * (e - e0)) 4 else h.nibble i e := by
  induction n generalizing lo h with
  | zero =>
    rw [if_neg (by omega)]
    rfl
  | succ n ih =>
    have hfirst : (if e0 + lo < vlmax then h.putNibble sl (e0 + lo) (bits v (4 * lo) 4) else h).nibble i e =
        if i = sl ∧ e = e0 + lo ∧ e < vlmax then bits v (4 * (e - e0)) 4 else h.nibble i e := by
      split
      · rw [nibble_putNibble _ _ _ _ _ _ hi]
        by_cases he : i = sl ∧ e = e0 + lo
        · obtain ⟨rfl, rfl⟩ := he
          rw [if_pos ⟨rfl, rfl⟩, if_pos ⟨rfl, rfl, by assumption⟩, Nat.add_sub_cancel_left]
          exact Nat.mod_eq_of_lt (Nat.mod_lt _ (by decide))
        · rw [if_neg he, if_neg (fun hc => he ⟨hc.1, hc.2.1⟩)]
      · rw [if_neg (by omega)]
    rw [putNibbles_succ, ih, hfirst]
    by_cases hc : i = sl ∧ e0 + lo ≤ e ∧ e < e0 + lo + (n + 1) ∧ e < vlmax
    · rw [if_pos hc]
      by_cases he : e = e0 + lo
      · rw [if_neg (by omega), if_pos ⟨hc.1, he, hc.2.2.2⟩]
      · rw [if_pos (by omega)]
    · rw [if_neg hc, if_neg (by omega), if_neg (by omega)]

/-! ## The debug data word -/

theorem imagePut_pc (k v : Nat) (s : State) :
    imagePut k 8 v s = s.setHartOf k { (s.slot k).hart with pc := BitVec.ofNat 64 v &&& ~~~ 3 } := rfl

theorem imagePut_scalar (k v : Nat) (n : BitVec 6) (s : State) :
    imagePut k (0x200 + 8 * n.toNat) v s = s.setHartOf k ((s.slot k).hart.ws n (BitVec.ofNat 64 v)) := by
  have hn := n.isLt
  have hreg : BitVec.ofNat 6 ((0x200 + 8 * n.toNat - 0x200) / 8) = n := by
    rw [show (0x200 + 8 * n.toNat - 0x200) / 8 = n.toNat by omega, BitVec.ofNat_toNat, BitVec.setWidth_eq]
  unfold imagePut
  iterate 13 rw [if_neg (by omega)]
  rw [if_pos (by omega), hreg]

theorem imagePut_slice (k off v : Nat) (s : State) (hlo : 0x1000 ≤ off) (hhi : off < 0x9000) :
    imagePut k off v s = s.setHartOf k
      (putNibbles ((off - 0x1000) / 512) ((off - 0x1000) % 512 * 2) (s.tile (k / 8)).vlmax v 0 16 (s.slot k).hart) := by
  unfold imagePut
  iterate 18 rw [if_neg (by omega)]
  rw [if_pos hhi]
  rfl

theorem debugWrite_of_not_halted {s : State} (h : (s.slot s.debugSlot.toNat).state ≠ .halted) (v : Word) : debugWrite v s = s :=
  if_pos (.inl h)

/-- A write of the debug data word outside the slices is a write of the image. -/
theorem debugWrite_of_lt {s : State} (h : (s.slot s.debugSlot.toNat).state = .halted) (ha : s.debugOff.toNat % 8 = 0)
    (hlt : s.debugOff.toNat < 0x1000) (v : Word) :
    debugWrite v s = imagePut s.debugSlot.toNat s.debugOff.toNat v.toNat s := by
  unfold debugWrite
  rw [if_neg (by simp [h, ha]), if_neg (by omega)]

/-- The hart after a write of the debug data word into slice sl. -/
def debugSlice (h : Hart) (sl e0 vlmax v : Nat) : Hart :=
  let x := putNibbles sl e0 vlmax v 0 16 h
  { x with dirty := setB x.dirty sl true, vlg := SMap.set 0 x.vlg sl 16 }

theorem debugSlice_frame (h : Hart) (sl e0 vlmax v : Nat) : debugSlice h sl e0 vlmax v =
    { h with z := (debugSlice h sl e0 vlmax v).z, dirty := h.dirty ||| BitVec.twoPow 64 sl, vlg := (debugSlice h sl e0 vlmax v).vlg } := by
  simp only [debugSlice]
  rw [putNibbles_frame]
  rfl

theorem vlgOf_debugSlice (h : Hart) (sl e0 vlmax v i : Nat) :
    (debugSlice h sl e0 vlmax v).vlgOf i = if i = sl then 16 else h.vlgOf i := by
  simp only [debugSlice, Hart.vlgOf, SMap.get_set]
  split
  · rfl
  · rw [putNibbles_frame]

theorem nibble_debugSlice (h : Hart) (sl e0 vlmax v i e : Nat) (hi : i < 64) :
    (debugSlice h sl e0 vlmax v).nibble i e =
      if i = sl ∧ e0 ≤ e ∧ e < e0 + 16 ∧ e < vlmax then bits v (4 * (e - e0)) 4 else h.nibble i e :=
  nibble_putNibbles sl e0 vlmax v 0 16 h i e hi

theorem debugWrite_of_slice {s : State} (h : (s.slot s.debugSlot.toNat).state = .halted) (ha : s.debugOff.toNat % 8 = 0)
    (hlo : 0x1000 ≤ s.debugOff.toNat) (hhi : s.debugOff.toNat < 0x9000) (v : Word) :
    OnlySlot s (debugWrite v s) s.debugSlot.toNat { s.slot s.debugSlot.toNat with
      hart := debugSlice (s.slot s.debugSlot.toNat).hart ((s.debugOff.toNat - 0x1000) / 512) ((s.debugOff.toNat - 0x1000) % 512 * 2)
        (s.tile (s.debugSlot.toNat / 8)).vlmax v.toNat } := by
  unfold debugWrite
  rw [if_neg (by simp [h, ha]), if_pos ⟨hlo, hhi⟩, imagePut_slice _ _ _ _ hlo hhi]
  have hset := (onlySlot_setHartOf s s.debugSlot.toNat (putNibbles ((s.debugOff.toNat - 0x1000) / 512)
    ((s.debugOff.toNat - 0x1000) % 512 * 2) (s.tile (s.debugSlot.toNat / 8)).vlmax v.toNat 0 16 (s.slot s.debugSlot.toNat).hart))
  have hslot := hset.2 s.debugSlot.toNat
  rw [if_pos rfl] at hslot
  dsimp only
  rw [State.setHartOf, hslot]
  exact onlySlot_again hset _

theorem debugPort : DebugPort := by
  intro v s k off u
  have hv : BitVec.ofNat 64 v.toNat = v := by rw [BitVec.ofNat_toNat, BitVec.setWidth_eq]
  refine ⟨rfl, fun h => congrArg Host.Outcome.next (debugWrite_of_not_halted h v), fun h hoff => ?_, fun n h hoff => ?_, fun h hlo hhi ha => ?_⟩
  · have hw := debugWrite_of_lt h (show off % 8 = 0 by omega) (show off < 0x1000 by omega) v
    rw [show s.debugOff.toNat = 8 from hoff, imagePut_pc, hv] at hw
    exact ⟨_, congrArg Host.Outcome.next hw, onlySlot_setHartOf s k _⟩
  · have hn := n.isLt
    have hw := debugWrite_of_lt h (show off % 8 = 0 by omega) (show off < 0x1000 by omega) v
    rw [show s.debugOff.toNat = 0x200 + 8 * n.toNat from hoff, imagePut_scalar, hv] at hw
    refine ⟨_, congrArg Host.Outcome.next hw, ?_, fun r => ?_⟩
    · rw [State.slot_setHartOf]
      have hframe : { u.hart with s := (u.hart.ws n v).s } = u.hart.ws n v := by
        unfold Hart.ws
        split <;> rfl
      rw [hframe]
      exact onlySlot_setHartOf s k _
    · rw [State.slot_setHartOf, Hart.rs_ws]
  · have hset := debugWrite_of_slice h ha hlo hhi v
    have hslot := hset.2 k
    rw [if_pos rfl] at hslot
    refine ⟨debugWrite v s, rfl, ?_, fun i => ?_, fun i e hi => ?_⟩
    · rw [hslot]
      rw [debugSlice_frame] at hset
      exact hset
    · rw [hslot, vlgOf_debugSlice]
    · rw [hslot, nibble_debugSlice _ _ _ _ _ _ _ hi]

/-- Settles O51: each request writes one slot or nothing, and the debug port writes what the image layout names. -/
theorem slotControl : Obligations.SlotControl := ⟨slotRequests, debugPort⟩

end Sys2Proof.Proofs
end

section
/-! O33. WAITSEQ, SIGNAL, END and the completion of a command: what the model's pump operations come to on a channel that is at its next
command, and the tables that they rewrite as a whole. -/

namespace Sys2Proof.Proofs
open Sys2Proof Sys2Proof.Machine Sys2Proof.Spec

/-! ## Tables rewritten entry by entry -/

theorem find?_mapAll {α : Type} (f : Nat → α → α) (m : SMap α) (k : Nat) :
    SMap.find? (State.mapAll f m) k = (SMap.find? m k).map (f k) := by
  induction m with
  | nil => rfl
  | cons p m ih =>
    by_cases hk : k = p.1
    · subst hk
      simp [State.mapAll, SMap.find?]
    · simpa [State.mapAll, SMap.find?, hk] using ih

/-- Where `f` keeps the default, an entry that is not listed is rewritten like the others. -/
theorem get_mapAll_of_default {α : Type} (d : α) (f : Nat → α → α) (m : SMap α) (k : Nat) (hd : f k d = d) :
    SMap.get d (State.mapAll f m) k = f k (SMap.get d m k) := by
  induction m with
  | nil => exact hd.symm
  | cons p m ih =>
    by_cases hk : k = p.1
    · subst hk
      simp [State.mapAll, SMap.get]
    · simpa [State.mapAll, SMap.get, hk] using ih

/-! ## The command at NEXT -/

theorem cmdAddr_eq_listAddr (x : Channel) (n : Nat) : x.cmdAddr n = listAddr x n := by
  simp only [Channel.cmdAddr, pumpAddr, listAddr]
  by_cases h : x.lbase + 32 * ((n - x.origin) % x.lsize) < 2 ^ 64
  · rw [if_pos h, if_pos (by omega), Int.toNat_natCast]
  · rw [if_neg h, if_neg (by omega)]

theorem withPump_of_ready {s : State} {c : Nat} (h : s.fnReady (208 + c / 16) = true) (i : Nat) (t : State) : withPump c i s t = t := by
  simp [withPump, State.useFns, h]

theorem pumpAccess_read {s : State} {c : Nat} {x : Channel} {space a n align : Nat} {loc : Loc} {dev : Bool}
    (hr : s.requestOf (.chan c) = none) (hc : pumpCheck s c x space a .read n align = .go loc dev) (hl : isLocal loc = true) :
    pumpAccess c x space a false n align 0 s = .data (s.homeRead loc n) s := by
  cases loc with
  | peer => cases hl
  | hbm | cis | host => simp [pumpAccess, pumpAccessFor, hr, hc]

theorem pumpAccessFor_write {s : State} {who : Waiter} {c : Nat} {x : Channel} {space a n align : Nat} {loc : Loc} {dev : Bool}
    (hr : s.requestOf who = none) (hc : pumpCheck s c x space a .write n align = .go loc dev) (hl : isLocal loc = true) (v : Nat) :
    pumpAccessFor who c x space a true n align v s = .data 0 (s.homeWrite loc n v) := by
  cases loc with
  | peer => cases hl
  | hbm | cis | host => simp [pumpAccessFor, hr, hc]

/-- An event of the command's own code runs its meaning, on the state as it stands. -/
theorem beginCmd_of_atCommand {s : State} {c : Nat} {x : Channel} {m : Nat} (h : AtCommand s c x m) {code : Nat}
    (hf : cmdFault x m = none) (hcode : bits m 0 8 = code)
    (hord : m.testBit 9 = true ∨ code = 7 ∨ code = 10 → x.run = []) (k : Nat → Channel → State → State) :
    beginCmd c code false s k = k m x s := by
  obtain ⟨hx, hlive, hprog, hnext, hready, hreq, loc, dev, hcheck, hl, hm⟩ := h
  have hcheck' : pumpCheck s c x 0 (x.cmdAddr x.next) .read 32 32 = .go loc dev := by
    rw [cmdAddr_eq_listAddr]
    exact hcheck
  have hread := pumpAccess_read hreq hcheck' hl
  have hnot : (!x.live || x.inProgress.isSome || decide (x.tail ≤ x.next) || (false && !x.port)) = false := by
    simp [hlive, hprog, hnext]
  have hwait : ¬ ((m.testBit 9 || bits m 0 8 == 7 || bits m 0 8 == 10) = true ∧ (!x.run.isEmpty) = true) := by
    rintro ⟨ho, hr⟩
    rw [hord (by simpa [hcode, or_assoc] using ho)] at hr
    exact Bool.false_ne_true hr
  rw [hcode] at hwait
  simp only [beginCmd, hx, hnot, withPump_of_ready hready, hread, onGot, ← hm, if_neg hwait, hf, hcode, ne_eq, not_true_eq_false, if_false,
    Bool.false_eq_true]

/-! ## Command faults -/

theorem pumpFault_eq {s : State} {c : Nat} {x : Channel} (hx : s.chan c = some x) (hd : x.detached = false) (code index : Nat) :
    pumpFault c code index s = ((s.setChan c { x with
      state := .faulted, fcause := BitVec.ofNat 8 code, fcmd := BitVec.ofNat 32 index, landed := x.sent, port := false, readyAt := none
      }).dropChanRequest c).forgetWalks (192 + c / 16) x.ctx := by
  simp [pumpFault, hx, hd]

/-- A fault of an attached channel is the command fault of R230. -/
theorem commandFault_pumpFault {s : State} {c : Nat} {x : Channel} (hx : s.chan c = some x) (hd : x.detached = false) (code index : Nat) :
    CommandFault s (pumpFault c code index s) c x code index := by
  rw [pumpFault_eq hx hd]
  refine ⟨⟨rfl, fun d => s.chan_setChan c d _⟩, rfl, fun r => ?_⟩
  refine (mem_dropRequests (s.setChan c _) (fun r => r.who == .chan c || r.who == .seq c) _ _ r).trans ?_
  simp [Config.slots]

/-! ## The command in progress -/

theorem inProgress_of_run {x : Channel} {pre : List CmdRun} {r : CmdRun} (h : x.run = pre ++ [r]) (hd : r.done = false) :
    x.inProgress = some r := by
  simp [Channel.inProgress, h, hd, Option.filter]

theorem setRun_of_run {x : Channel} {pre : List CmdRun} {r : CmdRun} (h : x.run = pre ++ [r]) (q : CmdRun) :
    x.setRun q = { x with run := pre ++ [q] } := by
  simp [Channel.setRun, h]

theorem at_once_eq_taken (x : Channel) (m : Nat) : x.at_once m = taken x m (x.next + 1) := rfl

/-! ## WAITSEQ -/

section
variable {s : State} {c : Nat} {x : Channel} {m : Nat} (h : AtCommand s c x m) (hf : cmdFault x m = none) (hcode : bits m 0 8 = 6)
  (hord : m.testBit 9 = true → x.run = [])
include h hf hcode hord

/-- A WAITSEQ that names no open channel is a fault (R221). -/
theorem execWaitseq_of_gone (hq : s.chan (bits m 16 9) = none) : execWaitseq c s = .next (pumpFault c 6 x.next s) := by
  have hbegin := fun k => beginCmd_of_atCommand h hf hcode (by simpa using hord) k
  obtain ⟨hx, -, hp, -⟩ := h
  simp only [execWaitseq, hx, hp, hbegin, hq]

/-- A WAITSEQ that names an open channel is tied to it, unless it could never be done (R221). -/
theorem execWaitseq_of_chan {y : Channel} (hq : s.chan (bits m 16 9) = some y) {there : Bool}
    (ht : decide (bits m 64 64 ≤ y.seq.toNat) = there) :
    execWaitseq c s = .next
      (if y.ctx ≠ x.ctx ∨ (bits m 16 9 = c ∧ (!there) = true) ∨ ((!y.live) = true ∧ (!there) = true) then pumpFault c 6 x.next s
      else s.setChan c
        { x.started { index := x.next, cmd := BitVec.ofNat 256 m, mark := x.sent, done := there } with waitSerial := some y.serial }) := by
  have hbegin := fun k => beginCmd_of_atCommand h hf hcode (by simpa using hord) k
  obtain ⟨hx, -, hp, -⟩ := h
  simp only [execWaitseq, hx, hp, hbegin, hq, ht]

end

/-- A WAITSEQ in progress ends as the state of what it waits for says (R221). -/
theorem execWaitseq_progress {s : State} {c : Nat} {x : Channel} {pre : List CmdRun} {r : CmdRun} (hx : s.chan c = some x)
    (hl : x.live = true) (hr : x.run = pre ++ [r]) (hd : r.done = false) (hcode : bits r.cmd.toNat 0 8 = 6) :
    execWaitseq c s = .next (match waitseqState s x r.cmd.toNat with
      | none => pumpFault c 6 r.index s
      | some true => s.setChan c { x with run := pre ++ [{ r with done := true }] }
      | some false => s) := by
  have hc : r.code = 6 := hcode
  simp only [execWaitseq, hx, inProgress_of_run hr hd, hc, hl, setRun_of_run hr]
  cases waitseqState s x r.cmd.toNat with
  | none => rfl
  | some b => cases b <;> rfl

theorem waitseqState_of_gone {s : State} {x : Channel} {m : Nat} (h : s.chan (bits m 16 9) = none) : waitseqState s x m = none := by
  simp only [waitseqState, h]

theorem waitseqState_of_chan {s : State} {x y : Channel} {m : Nat} (h : s.chan (bits m 16 9) = some y) :
    waitseqState s x m = if x.waitSerial ≠ some y.serial then none
      else if bits m 64 64 ≤ y.seq.toNat then some true else if y.live then some false else none := by
  simp only [waitseqState, h]

/-! ## The tables after an END -/

/-- The END bits of the bindings in a list that have consumed the final count f of channel c. -/
def markBinds (c f : Nat) (l : List (Nat × StreamBind)) (h : Hart) : Hart :=
  l.foldl (fun h b => if b.2.chan = c ∧ b.2.c = f then { h with strmf := setB h.strmf b.1 true } else h) h

theorem markBinds_frame (c f : Nat) (l : List (Nat × StreamBind)) (h : Hart) :
    markBinds c f l h = { h with strmf := (markBinds c f l h).strmf } := by
  induction l generalizing h with
  | nil => rfl
  | cons b l ih =>
    have hs : markBinds c f (b :: l) h =
        markBinds c f l (if b.2.chan = c ∧ b.2.c = f then { h with strmf := setB h.strmf b.1 true } else h) := rfl
    rw [hs, ih]
    split <;> rfl

theorem strmf_markBinds (c f : Nat) (l : List (Nat × StreamBind)) (h : Hart) (j : Nat) (hj : j < 16) :
    (markBinds c f l h).strmf.getLsbD j =
      (h.strmf.getLsbD j || l.any (fun b => decide (b.1 = j ∧ b.2.chan = c ∧ b.2.c = f))) := by
  induction l generalizing h with
  | nil => simp [markBinds]
  | cons b l ih =>
    have hs : markBinds c f (b :: l) h =
        markBinds c f l (if b.2.chan = c ∧ b.2.c = f then { h with strmf := setB h.strmf b.1 true } else h) := rfl
    rw [hs, ih, List.any_cons, ← Bool.or_assoc]
    congr 1
    by_cases hb : b.2.chan = c ∧ b.2.c = f
    · rw [if_pos hb, getLsbD_setB]
      by_cases hj' : b.1 = j
      · simp [hj', hb, hj]
      · simp [hj', Ne.symm hj']
    · rw [if_neg hb, decide_eq_false (fun h => hb h.2), Bool.or_false]

theorem slot_markEnds (c f : Nat) (s : State) (k : Nat) :
    (markEnds c f s).slot k = { s.slot k with hart := markBinds c f (s.slot k).hart.binds (s.slot k).hart } :=
  get_mapAll_of_default (α := Slot) {} (fun _ v => { v with hart := markBinds c f v.hart.binds v.hart }) s.slots k rfl

/-- An attached channel that ends keeps its place in the table; the bindings that have consumed its final count see it (R227, R233). -/
theorem endChannel_eq {x : Channel} (hd : x.detached = false) (c : Nat) (s : State) : endChannel c x s =
    markEnds c x.arr (s.setChan c
      { x with state := .ended, final := some x.arr, next := x.next + 1, port := false, readyAt := none }) := by
  simp [endChannel, hd]

/-! ## Counting SEQ -/

/-- The channel with its completion counted once (R215). -/
def countedOnce (x : Channel) : Channel := if x.counted then x else { x with seq := x.seq + 1, counted := true }

/-- The state in which SEQ of channel c has been counted, and the WAITSEQs tied to it have seen it. -/
def afterCount (c : Nat) (x : Channel) (s : State) : State :=
  if x.counted then s else satisfyWaits c x.serial (countedOnce x).seq (s.setChan c (countedOnce x))

theorem countSeq_of_no_addr {x : Channel} (h : x.seqaddr = 0) (c i : Nat) (s : State) (k : Channel → State → State) :
    countSeq c i x s k = k { countedOnce x with counted := false } (afterCount c x s) := if_pos h

theorem countSeq_of_addr {x : Channel} (h : x.seqaddr ≠ 0) (c i : Nat) (s : State) (k : Channel → State → State) :
    countSeq c i x s k = onGot c i (afterCount c x s)
      (pumpAccessFor (.seq c) c (countedOnce x) 0 x.seqaddr true 8 8 (countedOnce x).seq.toNat (afterCount c x s))
      fun _ u => k { countedOnce x with counted := false } u := if_neg h

/-- What SEQ going to `seq` makes of a channel whose WAITSEQ may be tied to it (R221). -/
def satisfied (c serial : Nat) (seq : Word) (y : Channel) : Channel :=
  match y.inProgress with
  | some r =>
    if r.code = 6 ∧ r.f 16 9 = c ∧ y.waitSerial = some serial ∧ r.f 64 64 ≤ seq.toNat ∧ y.live then y.setRun { r with done := true } else y
  | none => y

theorem satisfied_of_idle {y : Channel} (h : y.inProgress = none) (c serial : Nat) (seq : Word) : satisfied c serial seq y = y := by
  simp [satisfied, h]

theorem chan_satisfyWaits (c serial : Nat) (seq : Word) (s : State) (d : Nat) :
    (satisfyWaits c serial seq s).chan d = (s.chan d).map (satisfied c serial seq) := find?_mapAll (fun _ => satisfied c serial seq) s.chans d

theorem afterCount_frame (c : Nat) (x : Channel) (s : State) : { afterCount c x s with chans := s.chans } = s := by
  unfold afterCount
  split <;> rfl

theorem inProgress_countedOnce (x : Channel) : (countedOnce x).inProgress = x.inProgress := by
  unfold countedOnce
  split <;> rfl

theorem chan_afterCount_self {s : State} {c : Nat} {x : Channel} (hx : s.chan c = some x) (hp : x.inProgress = none) :
    (afterCount c x s).chan c = some (countedOnce x) := by
  have hp' := (inProgress_countedOnce x).trans hp
  unfold afterCount
  split
  · rw [hx, countedOnce, if_pos ‹_›]
  · rw [chan_satisfyWaits, State.chan_setChan, if_pos rfl, Option.map_some, satisfied_of_idle hp']

theorem chan_afterCount_other {s : State} {c d : Nat} {x : Channel} (hd : d ≠ c) : (afterCount c x s).chan d =
    if x.counted then s.chan d else (s.chan d).map (satisfied c x.serial (countedOnce x).seq) := by
  unfold afterCount
  split
  · rfl
  · rw [chan_satisfyWaits, State.chan_setChan, if_neg hd]

theorem seq_countedOnce (x : Channel) : (countedOnce x).seq = if x.counted = true then x.seq else x.seq + 1 := by
  unfold countedOnce
  split <;> rfl

/-! ## An access does not look at the channels -/

section
variable (s : State) (l : SMap Channel)

theorem useFns_chans (fns : List Nat) (k : Chk) : ({ s with chans := l } : State).useFns fns k = s.useFns fns k := by
  induction fns with
  | nil => rfl
  | cons n fns ih => rw [State.useFns, State.useFns, ih]; rfl

theorem walkFrom_chans (c : BitVec 6) (va fuel L t : Nat) :
    ({ s with chans := l } : State).walkFrom c va fuel L t = s.walkFrom c va fuel L t := by
  induction fuel generalizing L t with
  | zero => rfl
  | succ fuel ih => simp only [State.walkFrom, ih]; rfl

theorem translate_chans (unit : Nat) (c : BitVec 6) (va : Nat) :
    ({ s with chans := l } : State).translate unit c va = s.translate unit c va := by
  simp only [State.translate, State.walkVa, walkFrom_chans]
  rfl

theorem checkVirtual_chans (unit : Nat) (c : BitVec 6) (va : Nat) (acc : Acc) (sz align : Nat) (idem : Bool) :
    ({ s with chans := l } : State).checkVirtual unit c va acc sz align idem = s.checkVirtual unit c va acc sz align idem := by
  simp only [State.checkVirtual, translate_chans, useFns_chans]
  rfl

end

/-! ## A store at a home, byte by byte -/

theorem byteAt_homeWrite_same (s : State) {loc : Loc} (hl : isLocal loc = true) (n v : Nat) {k : Nat} (hk : k < n) :
    byteAt (s.homeWrite loc n v) (State.locAdd loc k) = BitVec.ofNat 8 (v / 256 ^ k) := by
  cases loc with
  | peer => cases hl
  | hbm a | cis a | host a => simp only [byteAt, State.homeWrite, State.locAdd, get_putBytes]; rw [if_pos (by omega), Nat.add_sub_cancel_left]

theorem get_putBytes_other {m : SMap Byte} {a n v x : Nat} (h : ∀ k < n, x ≠ a + k) :
    SMap.get 0 (putBytes m a n v) x = SMap.get 0 m x :=
  (get_putBytes m a n v x).trans (if_neg fun hx => h (x - a) (by omega) (by omega))

theorem byteAt_homeWrite_other (s : State) {loc b : Loc} (n v : Nat) (h : ∀ k < n, b ≠ State.locAdd loc k) :
    byteAt (s.homeWrite loc n v) b = byteAt s b := by
  cases loc with
  | peer => rfl
  | hbm a =>
    cases b with
    | hbm x => exact get_putBytes_other fun k hk hx => h k hk (congrArg Loc.hbm hx)
    | cis | host | peer => rfl
  | cis a =>
    cases b with
    | cis x => exact get_putBytes_other fun k hk hx => h k hk (congrArg Loc.cis hx)
    | hbm | host | peer => rfl
  | host a =>
    cases b with
    | host x => exact get_putBytes_other fun k hk hx => h k hk (congrArg Loc.host hx)
    | hbm | cis | peer => rfl

/-- A store of n bytes at one location, and nothing else (`Stored`). -/
theorem stored_of_homeWrite {s t : State} {loc : Loc} (hl : isLocal loc = true) {n v : Nat}
    (ht : ∀ b, byteAt t b = byteAt (s.homeWrite loc n v) b) : Stored s t (fun j => j == 0) n (fun _ => loc) (fun _ => v) := by
  refine ⟨fun b hb => ?_, fun j k _ hk _ => ?_⟩
  · rw [ht, byteAt_homeWrite_other s n v fun k hk => hb 0 k rfl hk]
  · rw [ht, byteAt_homeWrite_same s hl n v hk]

/-! ## SIGNAL -/

section
variable {s : State} {c : Nat} {x : Channel} {m : Nat} (h : AtCommand s c x m) (hf : cmdFault x m = none) (hcode : bits m 0 8 = 7)
  (hrun : x.run = [])
include h hf hcode hrun

theorem execSignalDecrement_of_some (hk : bits m 16 2 = 0) (hs : x.stall = false) {u : State}
    (hd : s.decrement x.ctx (BitVec.ofNat 32 (bits m 32 32)) = some u) :
    execSignalDecrement c s = .next (u.setChan c (taken x m (x.next + 1))) := by
  have hbegin := fun k => beginCmd_of_atCommand h hf hcode (fun _ => hrun) k
  simp [execSignalDecrement, hbegin, hk, hs, hd, at_once_eq_taken]

theorem execSignalDecrement_of_none (hk : bits m 16 2 = 0) (hs : x.stall = false)
    (hd : s.decrement x.ctx (BitVec.ofNat 32 (bits m 32 32)) = none) :
    execSignalDecrement c s = .next (s.setChan c { x with stall := true }) := by
  have hbegin := fun k => beginCmd_of_atCommand h hf hcode (fun _ => hrun) k
  simp [execSignalDecrement, hbegin, hk, hs, hd]

theorem execSignalStore_of_local (hk : bits m 16 2 = 1) {loc : Loc} {dev : Bool}
    (hc : pumpCheck s c x (bits m 12 2) (bits m 128 56) .write 8 8 = .go loc dev) (hl : isLocal loc = true) :
    execSignalStore c s = .next ((s.homeWrite loc 8 (bits m 64 64)).setChan c (taken x m (x.next + 1))) := by
  have hbegin := fun k => beginCmd_of_atCommand h hf hcode (fun _ => hrun) k
  obtain ⟨-, -, -, -, -, hreq, -⟩ := h
  simp [execSignalStore, hbegin, hk, pumpAccess, pumpAccessFor_write hreq hc hl, onGot, at_once_eq_taken]

end

/-! ## END -/

theorem execEndCmd_of_atCommand {s : State} {c : Nat} {x : Channel} {m : Nat} (h : AtCommand s c x m) (hf : cmdFault x m = none)
    (hcode : bits m 0 8 = 10) (hrun : x.run = []) :
    execEndCmd c s = .next (if x.sent % 2 ^ x.esz ≠ 0 then pumpFault c 8 x.next s
      else if m.testBit 8 then countSeq c x.next x s (fun y u => endChannel c y u) else endChannel c x s) := by
  simp only [execEndCmd, beginCmd_of_atCommand h hf hcode (fun _ => hrun)]

/-- The end of channel c, which stands as y in a state that differs from s in this channel only (R227, R233). -/
theorem endChannel_outcome {s u : State} {c : Nat} {y : Channel} (hd : y.detached = false) (hframe : { u with chans := s.chans } = s)
    (hchan : ∀ d, d ≠ c → u.chan d = s.chan d) :
    { endChannel c y u with chans := s.chans, slots := s.slots } = s ∧
    (∀ d, (endChannel c y u).chan d = if d = c then
      some { y with state := .ended, final := some y.arr, next := y.next + 1, port := false, readyAt := none } else s.chan d) ∧
    ∀ k, (endChannel c y u).slot k = { s.slot k with hart := markBinds c y.arr (s.slot k).hart.binds (s.slot k).hart } := by
  rw [endChannel_eq hd]
  have hslot (k : Nat) : u.slot k = s.slot k := by
    have hk := congrArg (fun v : State => v.slot k) hframe
    exact hk
  refine ⟨congrArg (fun v : State => { v with slots := s.slots }) hframe, fun d => ?_, fun k => ?_⟩
  · refine (State.chan_setChan u c d _).trans ?_
    split
    · rfl
    · exact hchan d ‹_›
  · rw [slot_markEnds, ← hslot k]
    rfl

/-! ## Completion -/

/-- The oldest command of channel c leaves: what follows it stays in progress, and SEQ is y's (R215). -/
def dropFirst (c : Nat) (rest : List CmdRun) (y : Channel) (t : State) : State :=
  t.setChan c { (t.chan c).getD y with seq := y.seq, counted := false, run := rest }

theorem execCommandComplete_of_done {s : State} {c : Nat} {x : Channel} {r : CmdRun} {rest : List CmdRun} (hx : s.chan c = some x)
    (hl : x.live = true) (hrun : x.run = r :: rest) (hd : r.done = true) (hland : x.wsize = 0 ∨ r.mark ≤ x.landed) :
    execCommandComplete c s = .next
      (if r.cmd.getLsbD 8 then countSeq c r.index x s (dropFirst c rest) else dropFirst c rest x s) := by
  have hn : ¬ ((!r.done) = true ∨ (!x.live) = true ∨ (x.wsize ≠ 0 ∧ x.landed < r.mark)) := by
    simp only [hd, hl]
    rintro (h | h | ⟨h, h'⟩)
    · cases h
    · cases h
    · omega
  unfold execCommandComplete
  rw [hx]
  dsimp only
  rw [hrun]
  exact if_neg hn

theorem execCommandComplete_of_waiting {s : State} {c : Nat} {x : Channel} {r : CmdRun} {rest : List CmdRun} (hx : s.chan c = some x)
    (hrun : x.run = r :: rest) (h : r.done = false ∨ (x.wsize ≠ 0 ∧ x.landed < r.mark)) : execCommandComplete c s = .next s := by
  simp only [execCommandComplete, hx, hrun]
  refine if_pos ?_
  rcases h with h | h
  · exact .inl (by rw [h]; rfl)
  · exact .inr (.inr h)

end Sys2Proof.Proofs
end

section
/-! O33. The clauses of `PumpSyncResult`, one lemma for each command, and the statement from them. -/

namespace Sys2Proof.Proofs
open Sys2Proof Sys2Proof.Machine Sys2Proof.Spec

/-! ## WAITSEQ -/

/-- A WAITSEQ that starts (R221). -/
theorem waitseq_starts {s : State} {c : Nat} {x : Channel} {m : Nat} (h : AtCommand s c x m) (hdet : x.detached = false)
    (hf : cmdFault x m = none) (hcode : bits m 0 8 = 6) (hord : m.testBit 9 = true → x.run = []) :
    (s.chan (bits m 16 9) = none → ∃ t, exec (.waitseq c) s = .next t ∧ CommandFault s t c x 6 x.next) ∧
    ∀ y, s.chan (bits m 16 9) = some y →
      let there := decide (bits m 64 64 ≤ y.seq.toNat)
      (y.ctx = x.ctx → (there = true ∨ (bits m 16 9 ≠ c ∧ y.live = true)) → ∃ t, exec (.waitseq c) s = .next t ∧ OnlyChan s t c
        { x with state := if x.state = .queued then .running else x.state, next := x.next + 1, waitSerial := some y.serial
                 run := x.run ++ [{ index := x.next, cmd := BitVec.ofNat 256 m, mark := x.sent, done := there }] }) ∧
      (y.ctx ≠ x.ctx ∨ (there = false ∧ (bits m 16 9 = c ∨ y.live = false)) →
        ∃ t, exec (.waitseq c) s = .next t ∧ CommandFault s t c x 6 x.next) := by
  have hx : s.chan c = some x := h.1
  refine ⟨fun hq => ⟨_, execWaitseq_of_gone h hf hcode hord hq, commandFault_pumpFault hx hdet 6 x.next⟩, fun y hq => ?_⟩
  intro there
  have hexec := execWaitseq_of_chan h hf hcode hord hq (there := there) rfl
  refine ⟨fun hctx hok => ⟨_, hexec.trans (congrArg _ (if_neg ?_)), onlyChan_setChan s c _⟩,
    fun hbad => ⟨_, hexec.trans (congrArg _ (if_pos ?_)), commandFault_pumpFault hx hdet 6 x.next⟩⟩
  · rintro (hc | ⟨hq', ht⟩ | ⟨hy, ht⟩)
    · exact hc hctx
    · rcases hok with ht' | ⟨hne, -⟩
      · simp [ht'] at ht
      · exact hne hq'
    · rcases hok with ht' | ⟨-, hy'⟩
      · simp [ht'] at ht
      · simp [hy'] at hy
  · rcases hbad with hc | ⟨ht, hq' | hy⟩
    · exact .inl hc
    · exact .inr (.inl ⟨hq', by rw [ht]; rfl⟩)
    · exact .inr (.inr ⟨by rw [hy]; rfl, by rw [ht]; rfl⟩)

/-- A WAITSEQ in progress (R221). -/
theorem waitseq_goes_on {s : State} {c : Nat} {x : Channel} {pre : List CmdRun} {r : CmdRun} (hx : s.chan c = some x)
    (hl : x.live = true) (hdet : x.detached = false) (hrun : x.run = pre ++ [r]) (hd : r.done = false)
    (hcode : bits r.cmd.toNat 0 8 = 6) :
    (∀ y, s.chan (bits r.cmd.toNat 16 9) = some y → x.waitSerial = some y.serial → bits r.cmd.toNat 64 64 ≤ y.seq.toNat →
      ∃ t, exec (.waitseq c) s = .next t ∧ OnlyChan s t c { x with run := pre ++ [{ r with done := true }] }) ∧
    (∀ y, s.chan (bits r.cmd.toNat 16 9) = some y → x.waitSerial = some y.serial → y.seq.toNat < bits r.cmd.toNat 64 64 →
      y.live = true → exec (.waitseq c) s = .next s) ∧
    ((∀ y, s.chan (bits r.cmd.toNat 16 9) = some y → x.waitSerial ≠ some y.serial ∨ (y.seq.toNat < bits r.cmd.toNat 64 64 ∧ y.live = false)) →
      ∃ t, exec (.waitseq c) s = .next t ∧ CommandFault s t c x 6 r.index) := by
  have hexec : execWaitseq c s = .next _ := execWaitseq_progress hx hl hrun hd hcode
  refine ⟨fun y hq hser hle => ⟨_, hexec.trans ?_, onlyChan_setChan s c _⟩, fun y hq hser hlt hlive => hexec.trans ?_,
    fun hall => ⟨_, hexec.trans ?_, commandFault_pumpFault hx hdet 6 r.index⟩⟩
  · rw [waitseqState_of_chan hq, if_neg (by simp [hser]), if_pos hle]
  · rw [waitseqState_of_chan hq, if_neg (by simp [hser]), if_neg (by omega), hlive]
    rfl
  · have hnone : waitseqState s x r.cmd.toNat = none := by
      cases hq : s.chan (bits r.cmd.toNat 16 9) with
      | none => exact waitseqState_of_gone hq
      | some y =>
        rw [waitseqState_of_chan hq]
        rcases hall y hq with hser | ⟨hlt, hy⟩
        · exact if_pos hser
        · rw [if_neg (show ¬ bits r.cmd.toNat 64 64 ≤ y.seq.toNat by omega), hy]
          split <;> rfl
    rw [hnone]

/-! ## SIGNAL -/

/-- The store of a SIGNAL, and its command taken (R222). -/
theorem signal_stores {s : State} {c : Nat} {x : Channel} {m : Nat} (h : AtCommand s c x m) (hf : cmdFault x m = none)
    (hcode : bits m 0 8 = 7) (hrun : x.run = []) (hk : bits m 16 2 = 1) {loc : Loc} {dev : Bool}
    (hc : pumpCheck s c x (bits m 12 2) (bits m 128 56) .write 8 8 = .go loc dev) (hl : isLocal loc = true) :
    ∃ t, exec (.signalStore c) s = .next t ∧
      OnlyChan { s with hbm := t.hbm, cis := t.cis, host := t.host } t c (taken x m (x.next + 1)) ∧
      Stored s t (fun j => j == 0) 8 (fun _ => loc) (fun _ => bits m 64 64) := by
  refine ⟨_, execSignalStore_of_local h hf hcode hrun hk hc hl, ?_, stored_of_homeWrite hl fun b => ?_⟩
  · cases loc with
    | peer => cases hl
    | hbm | cis | host => exact onlyChan_setChan (s.homeWrite _ 8 (bits m 64 64)) c _
  · cases b <;> rfl

/-! ## END -/

/-- An END that is at a whole element (R227), where no WAITSEQ in progress can be tied to the channel. -/
theorem endCmd_ends {s : State} {c : Nat} {x : Channel} {m : Nat} (h : AtCommand s c x m) (hdet : x.detached = false)
    (hf : cmdFault x m = none) (hcode : bits m 0 8 = 10) (hrun : x.run = []) (hrem : x.sent % 2 ^ x.esz = 0)
    (hseq : m.testBit 8 = false ∨ (x.seqaddr = 0 ∧ ∀ d y, s.chan d = some y → d ≠ c → y.inProgress = none)) :
    ∃ t, exec (.endCmd c) s = .next t ∧ { t with chans := s.chans, slots := s.slots } = s ∧
      (∀ d, t.chan d = if d = c then some { x with state := .ended, final := some x.arr, next := x.next + 1, port := false, readyAt := none, counted := x.counted && !m.testBit 8
                                                   seq := if m.testBit 8 = true ∧ x.counted = false then x.seq + 1 else x.seq } else s.chan d) ∧
      ∀ k, t.slot k = { s.slot k with hart := markBinds c x.arr (s.slot k).hart.binds (s.slot k).hart } := by
  have hexec := execEndCmd_of_atCommand h hf hcode hrun
  rw [if_neg (by simpa using hrem)] at hexec
  cases hbit : m.testBit 8 with
  | false =>
    rw [hbit, if_neg Bool.false_ne_true] at hexec
    obtain ⟨hframe, hchan, hslot⟩ := endChannel_outcome (s := s) (u := s) (c := c) hdet rfl fun _ _ => rfl
    refine ⟨_, hexec, hframe, fun d => ?_, hslot⟩
    rw [hchan d]
    simp
  | true =>
    obtain ⟨haddr, hidle⟩ := hseq.resolve_left (by simp [hbit])
    rw [hbit, if_pos rfl, countSeq_of_no_addr haddr] at hexec
    have hother (d : Nat) (hd : d ≠ c) : (afterCount c x s).chan d = s.chan d := by
      rw [chan_afterCount_other hd]
      split
      · rfl
      · cases hy : s.chan d with
        | none => rfl
        | some y => exact congrArg some (satisfied_of_idle (hidle d y hy hd) c x.serial _)
    have hdet' : ({ countedOnce x with counted := false } : Channel).detached = false := by
      unfold countedOnce
      split <;> exact hdet
    obtain ⟨hframe, hchan, hslot⟩ := endChannel_outcome hdet' (afterCount_frame c x s) hother
    have harr : ({ countedOnce x with counted := false } : Channel).arr = x.arr := by
      unfold countedOnce
      split <;> rfl
    refine ⟨_, hexec, hframe, fun d => ?_, fun k => ?_⟩
    · rw [hchan d, harr]
      unfold countedOnce
      cases hc : x.counted <;> simp
    · rw [hslot k, harr]

/-! ## Completion -/

/-- What the WAITSEQs of the other channels see of a completion that counts SEQ of channel c (R221). -/
theorem others_of_afterCount {s t : State} {c : Nat} {x : Channel} (ht : ∀ d, d ≠ c → t.chan d = (afterCount c x s).chan d)
    (d : Nat) (y : Channel) (hy : s.chan d = some y) (hd : d ≠ c) :
    (y.inProgress = none → t.chan d = some y) ∧
    ∀ pre w, y.run = pre ++ [w] → w.done = false → t.chan d = some
      (if bits w.cmd.toNat 0 8 = 6 ∧ bits w.cmd.toNat 16 9 = c ∧ y.waitSerial = some x.serial ∧
          bits w.cmd.toNat 64 64 ≤ (if x.counted = true then x.seq else x.seq + 1).toNat ∧ y.live = true ∧ x.counted = false
       then { y with run := pre ++ [{ w with done := true }] } else y) := by
  rw [ht d hd, chan_afterCount_other hd, hy, ← seq_countedOnce]
  cases hc : x.counted with
  | true => exact ⟨fun _ => rfl, fun pre w _ _ => by simp⟩
  | false =>
    refine ⟨fun hp => congrArg some (satisfied_of_idle hp c x.serial _), fun pre w hr hw => congrArg some ?_⟩
    have hsat : satisfied c x.serial (countedOnce x).seq y = if w.code = 6 ∧ w.f 16 9 = c ∧ y.waitSerial = some x.serial ∧
        w.f 64 64 ≤ (countedOnce x).seq.toNat ∧ y.live = true then { y with run := pre ++ [{ w with done := true }] } else y := by
      simp only [satisfied, inProgress_of_run hr hw, setRun_of_run hr]
    exact hsat.trans (if_congr (by rw [and_iff_left rfl]; rfl) rfl rfl)

/-- The oldest command leaves channel c of a state that differs from s in memory and in what counting SEQ changes. -/
theorem chan_dropFirst {s u : State} {c : Nat} {x : Channel} (hx : s.chan c = some x) (hp : x.inProgress = none)
    (hu : ∀ d, u.chan d = (afterCount c x s).chan d) (rest : List CmdRun) :
    (dropFirst c rest { countedOnce x with counted := false } u).chan c =
      some { x with run := rest, seq := if x.counted = true then x.seq else x.seq + 1, counted := false } ∧
    ∀ d, d ≠ c → (dropFirst c rest { countedOnce x with counted := false } u).chan d = (afterCount c x s).chan d := by
  have hself := (hu c).trans (chan_afterCount_self hx hp)
  refine ⟨?_, fun d hd => ?_⟩
  · rw [dropFirst, State.chan_setChan, if_pos rfl, hself]
    unfold countedOnce
    split <;> rfl
  · rw [dropFirst, State.chan_setChan, if_neg hd, hu d]

/-- The store of SEQ at SEQADDR, on the state that counting SEQ leaves (R215). -/
theorem pumpAccessFor_seq {s : State} {c : Nat} {x : Channel} (hr : s.requestOf (.seq c) = none) {loc : Loc} {dev : Bool}
    (hcheck : s.checkVirtual (192 + c / 16) x.ctx x.seqaddr .write 8 8 true = .go loc dev) (hl : isLocal loc = true) (v : Nat) :
    pumpAccessFor (.seq c) c (countedOnce x) 0 x.seqaddr true 8 8 v (afterCount c x s) = .data 0 ((afterCount c x s).homeWrite loc 8 v) := by
  have hu : afterCount c x s = { s with chans := (afterCount c x s).chans } := by
    unfold afterCount
    split <;> rfl
  have hctx : (countedOnce x).ctx = x.ctx := by
    unfold countedOnce
    split <;> rfl
  have hr' : (afterCount c x s).requestOf (.seq c) = none := by
    rw [hu]
    exact hr
  have hcheck' : pumpCheck (afterCount c x s) c (countedOnce x) 0 x.seqaddr .write 8 8 = .go loc dev := by
    rw [hu, pumpCheck, if_pos rfl, hctx, checkVirtual_chans, hcheck]
  exact pumpAccessFor_write hr' hcheck' hl v

/-- Settles O33: each clause by the lemma of its command. -/
theorem pumpSyncResult : Obligations.PumpSyncResult := by
  unfold Obligations.PumpSyncResult
  refine ⟨fun c x m s h hdet hf => ?_, fun c x pre r s hx hl hdet hrun hd hcode => waitseq_goes_on hx hl hdet hrun hd hcode,
    fun c x r rest s hx hl hrun => ?_⟩
  · refine ⟨fun hcode hord => waitseq_starts h hdet hf hcode hord,
      fun hcode hrun hk hs => ⟨fun u hu => ⟨_, execSignalDecrement_of_some h hf hcode hrun hk hs hu, onlyChan_setChan u c _⟩,
        fun hn => ⟨_, execSignalDecrement_of_none h hf hcode hrun hk hs hn, onlyChan_setChan s c _⟩⟩,
      fun loc dev hcode hrun hk hc hl => signal_stores h hf hcode hrun hk hc hl, fun hcode hrun => ⟨fun hrem => ?_, fun hrem hseq => ?_⟩⟩
    · exact ⟨_, (execEndCmd_of_atCommand h hf hcode hrun).trans (congrArg _ (if_pos hrem)), commandFault_pumpFault h.1 hdet 8 x.next⟩
    · obtain ⟨t, hexec, hframe, hchan, hslot⟩ := endCmd_ends h hdet hf hcode hrun hrem hseq
      refine ⟨t, hexec, hframe, hchan, fun k => ?_⟩
      rw [hslot k]
      exact ⟨rfl, markBinds_frame c x.arr _ _, fun j hj => strmf_markBinds c x.arr _ _ j hj⟩
  · refine ⟨fun hd hland => ?_, fun hw => execCommandComplete_of_waiting hx hrun hw⟩
    have hexec := execCommandComplete_of_done hx hl hrun hd hland
    refine ⟨fun hbit => ⟨_, hexec, ?_⟩, fun hbit haddr hp => ?_, fun loc dev hbit haddr hp hr hcheck hloc => ?_⟩
    · rw [hbit, if_neg Bool.false_ne_true, dropFirst, hx]
      exact onlyChan_setChan s c _
    · rw [hbit, if_pos rfl, countSeq_of_no_addr haddr] at hexec
      obtain ⟨hself, hother⟩ := chan_dropFirst hx hp (fun _ => rfl) rest
      exact ⟨_, hexec, hself, afterCount_frame c x s, others_of_afterCount hother⟩
    · rw [hbit, if_pos rfl, countSeq_of_addr haddr, pumpAccessFor_seq hr hcheck hloc] at hexec
      have hchans (d : Nat) : ((afterCount c x s).homeWrite loc 8 (countedOnce x).seq.toNat).chan d = (afterCount c x s).chan d := by
        cases loc <;> rfl
      obtain ⟨hself, hother⟩ := chan_dropFirst hx hp hchans rest
      refine ⟨_, hexec, hself, ?_, ?_, others_of_afterCount hother⟩
      · have hframe := congrArg (fun v : State => { v with hbm := s.hbm, cis := s.cis, host := s.host }) (afterCount_frame c x s)
        cases loc <;> exact hframe
      · rw [← seq_countedOnce]
        refine stored_of_homeWrite hloc fun b => ?_
        have hbyte := congrArg (fun v : State => byteAt (v.homeWrite loc 8 (countedOnce x).seq.toNat) b) (afterCount_frame c x s)
        cases loc <;> cases b <;> exact hbyte

end Sys2Proof.Proofs
end

section
/-! O23. The cycle of the scheduler clock at the queues of a die, and the slot table's writes. -/

namespace Sys2Proof.Proofs
open Sys2Proof Sys2Proof.Machine Sys2Proof.Spec

/-! ## The order of a cycle's pops (R64) -/

theorem mem_keys_put {α : Type} (m : SMap α) (k : Nat) (v : α) (j : Nat) :
    j ∈ (SMap.put m k v).map (·.1) ↔ j = k ∨ j ∈ m.map (·.1) := by
  induction m with
  | nil => simp [SMap.put]
  | cons p m ih =>
    rw [SMap.put]
    by_cases hlt : k < p.1
    · rw [if_pos hlt]
      simp
    · rw [if_neg hlt]
      by_cases heq : k = p.1
      · rw [if_pos heq]
        simp [heq]
      · rw [if_neg heq, List.map_cons, List.mem_cons, ih]
        simp only [List.map_cons, List.mem_cons]
        tauto

theorem keys_of_sortedFrom {α : Type} {lo : Nat} {m : SMap α} (h : SMap.sortedFrom lo m = true) :
    (m.map (·.1)).Pairwise (· < ·) ∧ ∀ j ∈ m.map (·.1), lo ≤ j := by
  induction m generalizing lo with
  | nil => simp
  | cons p m ih =>
    simp only [SMap.sortedFrom, Bool.and_eq_true, decide_eq_true_eq] at h
    obtain ⟨hpair, hle⟩ := ih h.2
    refine ⟨List.pairwise_cons.mpr ⟨fun j hj => hle j hj, hpair⟩, fun j hj => ?_⟩
    rcases List.mem_cons.mp hj with rfl | hj
    · exact h.1
    · exact (Nat.le_succ_of_le h.1).trans (hle j hj)

theorem keys_foldl_put (l : List Nat) (m : SMap Unit) (h : SMap.sortedFrom 0 m = true) :
    SMap.sortedFrom 0 (l.foldl (fun m k => SMap.put m k ()) m) = true ∧
    ∀ j, j ∈ (l.foldl (fun m k => SMap.put m k ()) m).map (·.1) ↔ j ∈ l ∨ j ∈ m.map (·.1) := by
  induction l generalizing m with
  | nil => simpa using h
  | cons k l ih =>
    obtain ⟨hs, hm⟩ := ih (SMap.put m k ()) (SMap.sortedFrom_put () h (Nat.zero_le k))
    refine ⟨hs, fun j => ?_⟩
    rw [List.foldl_cons, hm, mem_keys_put, List.mem_cons]
    tauto

/-- The model sorts a list of slots by listing them as keys; the result is the slots of the list, in ascending order and each once. -/
theorem popOrder_eq_inOrder {d : Nat} {l : List Nat} {p : Nat → Bool} (hp : ∀ k, k < 1536 → (p k = true ↔ k ∈ l)) (hl : ∀ k ∈ l, k < 1536) :
    popOrder d l = inOrder d p := by
  obtain ⟨hs, hm⟩ := keys_foldl_put l [] rfl
  have hsorted : (l.foldl (fun m k => SMap.put m k ()) []).map (·.1) = (List.range 1536).filter p := by
    refine (keys_of_sortedFrom hs).1.eq_of_mem_iff (List.pairwise_lt_range.filter p) fun k => ?_
    rw [hm, List.mem_filter, List.mem_range]
    constructor
    · intro h
      have hk := h.resolve_right List.not_mem_nil
      exact ⟨hl k hk, (hp k (hl k hk)).mpr hk⟩
    · rintro ⟨hlt, hk⟩
      exact .inl ((hp k hlt).mp hk)
  have hdie (k : Nat) : State.dieOf k = k / 384 := Nat.div_div_eq_div_mul k 8 48
  simp only [popOrder, inOrder, hsorted, List.filter_filter, hdie]

theorem mem_inOrder {d k : Nat} {p : Nat → Bool} : k ∈ inOrder d p ↔ k < 1536 ∧ p k = true := by
  simp only [inOrder, List.mem_append, List.mem_filter, List.mem_range, Bool.and_eq_true, bne_iff_ne, beq_iff_eq]
  tauto

theorem inOrder_none (d : Nat) {p : Nat → Bool} (h : ∀ k, k < 1536 → p k = false) : inOrder d p = [] := by
  rw [List.eq_nil_iff_forall_not_mem]
  intro k hk
  obtain ⟨hlt, hp⟩ := mem_inOrder.mp hk
  rw [h k hlt] at hp
  exact Bool.false_ne_true hp

/-- A list without repetitions whose only member is k. -/
theorem inOrder_single (d : Nat) {p : Nat → Bool} {k : Nat} (hk : k < 1536) (h : ∀ j, p j = true ↔ j = k) : inOrder d p = [k] := by
  rw [← popOrder_eq_inOrder (d := d) (l := [k]) (fun j _ => (h j).trans List.mem_singleton.symm)
    (fun j hj => List.mem_singleton.mp hj ▸ hk)]
  by_cases hd : State.dieOf k = d <;> simp [popOrder, SMap.put, hd]

theorem inOrder_nil (d : Nat) : inOrder d (fun k => ([] : List Nat).contains k) = [] :=
  inOrder_none d (p := fun k => ([] : List Nat).contains k) fun _ _ => List.contains_nil

/-! ## One queue (R63) -/

theorem eligible_iff (s : State) (k d q : Nat) (y : Held) : (y.rc.prio.toNat == q && eligible s k d y) = true ↔ MayTake s k d q y := by
  have hdie : State.dieOf k = k / 384 := Nat.div_div_eq_div_mul k 8 48
  simp only [eligible, MayTake, hdie, State.tileOf, Bool.and_eq_true, Bool.or_eq_true, beq_iff_eq, bne_iff_ne, Bool.not_eq_true']
  tauto

theorem oldest_eq_none {s : State} {k d q : Nat} : oldest s k d q = none ↔ ∀ y ∈ s.held, ¬ MayTake s k d q y := by
  simp only [oldest, List.find?_eq_none, eligible_iff]

theorem oldest_eq_some {s : State} {k d q : Nat} {y : Held} {pre post : List Held} (hs : s.held = pre ++ y :: post) (hy : MayTake s k d q y)
    (hpre : ∀ z ∈ pre, ¬ MayTake s k d q z) : oldest s k d q = some y := by
  rw [oldest, List.find?_eq_some_iff_append]
  refine ⟨(eligible_iff s k d q y).mpr hy, pre, post, hs, fun z hz => ?_⟩
  rw [Bool.not_eq_true', Bool.eq_false_iff]
  exact fun h => hpre z hz ((eligible_iff s k d q z).mp h)

theorem highest_eq_some {s : State} {k d n q : Nat} :
    highest s k d n = some q ↔ q ≤ n ∧ (oldest s k d q).isSome = true ∧ ∀ r, q < r → r ≤ n → oldest s k d r = none := by
  induction n with
  | zero =>
    rw [highest]
    constructor
    · intro h
      split at h
      · cases h
        exact ⟨le_rfl, ‹_›, fun r h0 h1 => absurd h1 (by omega)⟩
      · cases h
    · rintro ⟨hq, hs, -⟩
      obtain rfl : q = 0 := by omega
      exact if_pos hs
  | succ n ih =>
    rw [highest]
    by_cases hn : (oldest s k d (n + 1)).isSome = true
    · rw [if_pos hn]
      constructor
      · intro h
        cases h
        exact ⟨le_rfl, hn, fun r h0 h1 => absurd h1 (by omega)⟩
      · rintro ⟨hq, -, hr⟩
        by_cases hlt : q < n + 1
        · rw [hr (n + 1) hlt le_rfl] at hn
          cases hn
        · exact congrArg some (by omega)
    · rw [if_neg hn, ih]
      have hnone : oldest s k d (n + 1) = none := Option.not_isSome_iff_eq_none.mp hn
      constructor
      · rintro ⟨hq, hs, hr⟩
        refine ⟨by omega, hs, fun r h0 h1 => ?_⟩
        by_cases hrn : r = n + 1
        · exact hrn ▸ hnone
        · exact hr r h0 (by omega)
      · rintro ⟨hq, hs, hr⟩
        have hne : q ≠ n + 1 := by
          rintro rfl
          exact hn hs
        exact ⟨by omega, hs, fun r h0 h1 => hr r h0 (by omega)⟩

/-! ## The queues of one die -/

/-- One pop of `popsOf`. -/
def popStep (d q : Nat) (p : State × List Nat) (k : Nat) : State × List Nat :=
  match oldest p.1 k d q with
  | some y => (startTask k d y p.1, p.2)
  | none => (p.1, p.2 ++ [k])

theorem popsOf_eq (d q : Nat) (l : List Nat) (s : State) : popsOf d q l s = l.foldl (popStep d q) (s, []) := rfl

theorem foldl_popStep (d q : Nat) (l : List Nat) (s : State) (a : List Nat) :
    l.foldl (popStep d q) (s, a) = ((popsOf d q l s).1, a ++ (popsOf d q l s).2) := by
  induction l generalizing s a with
  | nil => simp [popsOf]
  | cons k l ih =>
    rw [popsOf_eq, List.foldl_cons, List.foldl_cons]
    cases hk : oldest s k d q with
    | some y => simp only [popStep, hk, ih, List.nil_append]
    | none => simp only [popStep, hk, ih, List.nil_append, List.append_assoc]

theorem popsOf_cons (d q k : Nat) (l : List Nat) (s : State) : popsOf d q (k :: l) s =
    match oldest s k d q with
    | some y => popsOf d q l (startTask k d y s)
    | none => ((popsOf d q l s).1, k :: (popsOf d q l s).2) := by
  rw [popsOf_eq, List.foldl_cons]
  cases hk : oldest s k d q with
  | some y => simp only [popStep, hk, foldl_popStep, List.nil_append]
  | none => simp only [popStep, hk, foldl_popStep, List.nil_append, List.singleton_append]

theorem serveQueue_eq_popsOf (d q : Nat) (l : List Nat) (s : State) : serveQueue d q l s = popsOf d q l s := by
  induction l generalizing s with
  | nil => rfl
  | cons k l ih =>
    rw [serveQueue, popsOf_cons]
    cases oldest s k d q with
    | some y => exact ih _
    | none => simp only [ih]

theorem mem_of_mem_popsOf {d q : Nat} {l : List Nat} {s : State} {k : Nat} (h : k ∈ (popsOf d q l s).2) : k ∈ l := by
  induction l generalizing s with
  | nil => exact h
  | cons j l ih =>
    rw [popsOf_cons] at h
    cases hj : oldest s j d q with
    | some y =>
      rw [hj] at h
      exact .tail _ (ih h)
    | none =>
      rw [hj] at h
      rcases List.mem_cons.mp h with rfl | h
      · exact .head _
      · exact .tail _ (ih h)

/-- Where the queue holds nothing for any of them, pops take nothing and all are left. -/
theorem popsOf_of_none {d q : Nat} {l : List Nat} {s : State} (h : ∀ k ∈ l, oldest s k d q = none) : popsOf d q l s = (s, l) := by
  induction l with
  | nil => rfl
  | cons k l ih =>
    rw [popsOf_cons, h k (.head _), ih fun j hj => h j (.tail _ hj)]

/-- One priority's queue in a cycle: the step of `cycleAt`. -/
def queueStep (s0 : State) (d : Nat) (p : State × List Nat) (q : Nat) : State × List Nat :=
  let r := popsOf d q (inOrder d (fun k => selected s0 k == some (d, q)) ++ inOrder d (fun k => p.2.contains k)) p.1
  (r.1, r.2.filter (fun k => (s0.slot k).mode == 2))

theorem cycleAt_eq (d : Nat) (s : State) : cycleAt d s = [7, 6, 5, 4, 3, 2, 1, 0].foldl (queueStep s d) (s, []) := rfl

theorem queueStep_lt {s0 : State} {d q : Nat} {p : State × List Nat} {k : Nat} (h : k ∈ (queueStep s0 d p q).2) : k < 1536 := by
  simp only [queueStep] at h
  have hk := mem_of_mem_popsOf (List.mem_of_mem_filter h)
  rcases List.mem_append.mp hk with hk | hk
  · exact (mem_inOrder.mp hk).1
  · exact (mem_inOrder.mp hk).1

/-- Where nothing can be taken of a queue by the slots that selected it, and they are not MODE 10, the cycle goes on as it came to it. -/
theorem queueStep_of_none {s0 : State} {d q : Nat} (u : State)
    (h : ∀ k, k < 1536 → selected s0 k = some (d, q) → oldest u k d q = none ∧ (s0.slot k).mode ≠ 2) :
    queueStep s0 d (u, []) q = (u, []) := by
  have hsel (k : Nat) (hk : k ∈ inOrder d (fun k => selected s0 k == some (d, q))) : oldest u k d q = none ∧ (s0.slot k).mode ≠ 2 := by
    obtain ⟨hlt, hk⟩ := mem_inOrder.mp hk
    exact h k hlt (beq_iff_eq.mp hk)
  simp only [queueStep, inOrder_nil, List.append_nil, popsOf_of_none fun k hk => (hsel k hk).1, Prod.mk.injEq, true_and,
    List.filter_eq_nil_iff, beq_iff_eq]
  exact fun k hk => (hsel k hk).2

/-- Where one slot selects the queue and its pop finds an entry there, that pop is all. -/
theorem queueStep_of_single {s0 : State} {d q k : Nat} {y : Held} (u : State) (hk : k < 1536)
    (hsel : ∀ j, selected s0 j = some (d, q) ↔ j = k) (hy : oldest u k d q = some y) :
    queueStep s0 d (u, []) q = (startTask k d y u, []) := by
  have hone : inOrder d (fun k => selected s0 k == some (d, q)) = [k] :=
    inOrder_single d (p := fun k => selected s0 k == some (d, q)) hk fun j => beq_iff_eq.trans (hsel j)
  simp only [queueStep, inOrder_nil, hone, List.append_nil, popsOf_cons, hy]
  rfl

/-! ## The cycle of POP -/

theorem selected_armed {s : State} {k : Nat} {p : Nat × Nat} (h : selected s k = some p) :
    (s.slot k).state = .armed ∧ s.fnReady (k / 8) = true := by
  simp only [selected] at h
  split at h
  · cases h
  · next hn =>
    rw [State.tileOf] at hn
    simpa using hn

theorem selected_of_armed {s : State} {k : Nat} (ha : (s.slot k).state = .armed) (hr : s.fnReady (k / 8) = true) :
    selected s k = if (s.slot k).mode = 1 then some ((s.slot k).die.toNat, (s.slot k).prio.toNat)
      else if (s.slot k).mode = 2 then
        (highest s k (s.slot k).die.toNat (s.slot k).prio.toNat).map (fun q => ((s.slot k).die.toNat, q))
      else none := by
  have hn : ¬ (((s.slot k).state != .armed || !s.fnReady (State.tileOf k)) = true) := by
    rw [State.tileOf]
    simp [ha, hr]
  simp only [selected, if_neg hn]

/-- What a slot's selection says of it: MODE 01 names the queue of PRIO, MODE 10 the first from PRIO down that holds an entry for it. -/
theorem selected_eq_some {s : State} {k d q : Nat} (h : selected s k = some (d, q)) :
    ((s.slot k).mode = 1 ∧ (s.slot k).die.toNat = d ∧ q = (s.slot k).prio.toNat) ∨
    ((s.slot k).mode = 2 ∧ (s.slot k).die.toNat = d ∧ q ≤ (s.slot k).prio.toNat ∧ (oldest s k d q).isSome = true) := by
  obtain ⟨ha, hr⟩ := selected_armed h
  rw [selected_of_armed ha hr] at h
  split at h
  · cases h
    exact .inl ⟨‹_›, rfl, rfl⟩
  · split at h
    · obtain ⟨r, hr, hp⟩ := Option.map_eq_some_iff.mp h
      cases hp
      obtain ⟨hq, ho, -⟩ := highest_eq_some.mp hr
      exact .inr ⟨‹_›, rfl, hq, ho⟩
    · cases h

/-- A slot that is not listed is as at reset, so it is not ARMED. -/
theorem listed_of_armed {s : State} {k : Nat} (h : (s.slot k).state = .armed) : k ∈ s.slots.map (·.1) := by
  have hget (m : SMap Slot) (hk : k ∉ m.map (·.1)) : SMap.get {} m k = {} := by
    induction m with
    | nil => rfl
    | cons p m ih =>
      rw [List.map_cons, List.mem_cons, not_or] at hk
      rw [SMap.get, if_neg hk.1, ih hk.2]
  by_contra hk
  rw [State.slot, hget s.slots hk] at h
  cases h

theorem serveDie_zero (s0 : State) (l : List Nat) (d : Nat) (passed : List Nat) (s : State) : serveDie s0 l d 0 passed s =
    (serveQueue d 0 (popOrder d (l.filter (fun k => selected s0 k == some (d, 0))) ++ popOrder d passed) s).1 := rfl

theorem serveDie_succ (s0 : State) (l : List Nat) (d q : Nat) (passed : List Nat) (s : State) :
    serveDie s0 l d (q + 1) passed s =
      (let r := serveQueue d (q + 1) (popOrder d (l.filter (fun k => selected s0 k == some (d, q + 1))) ++ popOrder d passed) s
       serveDie s0 l d q (r.2.filter (fun k => (s0.slot k).mode == 2)) r.1) := rfl

/-- The queues of priorities q … 0 of a die, as the model serves them. -/
theorem serveDie_eq_foldl {s0 : State} {l : List Nat} {d : Nat} (hl : ∀ k, k ∈ l ↔ k < 1536 ∧ (s0.slot k).state = .armed) (q : Nat)
    (p : State × List Nat) (hp : ∀ k ∈ p.2, k < 1536) :
    serveDie s0 l d q p.2 p.1 = ((List.range (q + 1)).reverse.foldl (queueStep s0 d) p).1 := by
  have hstep (q : Nat) (p : State × List Nat) (hp : ∀ k ∈ p.2, k < 1536) :
      serveQueue d q (popOrder d (l.filter (fun k => selected s0 k == some (d, q))) ++ popOrder d p.2) p.1 =
        popsOf d q (inOrder d (fun k => selected s0 k == some (d, q)) ++ inOrder d (fun k => p.2.contains k)) p.1 := by
    have hlt (k : Nat) (hk : k ∈ l.filter (fun k => selected s0 k == some (d, q))) : k < 1536 :=
      ((hl k).mp (List.mem_of_mem_filter hk)).1
    have hsel (k : Nat) (hk : k < 1536) :
        (selected s0 k == some (d, q)) = true ↔ k ∈ l.filter (fun k => selected s0 k == some (d, q)) := by
      rw [List.mem_filter, hl]
      exact ⟨fun h => ⟨⟨hk, (selected_armed (beq_iff_eq.mp h)).1⟩, h⟩, fun h => h.2⟩
    rw [serveQueue_eq_popsOf, popOrder_eq_inOrder hsel hlt,
      popOrder_eq_inOrder (p := fun k => p.2.contains k) (fun k _ => List.contains_iff_mem) hp]
  induction q generalizing p with
  | zero =>
    simp only [serveDie_zero, hstep 0 p hp, zero_add, List.range_one, List.reverse_singleton, List.foldl_cons, List.foldl_nil, queueStep]
  | succ q ih =>
    have hrest := ih (queueStep s0 d p (q + 1)) fun k hk => queueStep_lt hk
    rw [List.range_succ, List.reverse_append, List.reverse_singleton, List.singleton_append, List.foldl_cons, ← hrest]
    simp only [serveDie_succ, hstep (q + 1) p hp, queueStep]

/-- POP is the cycle of R63 and R64. -/
theorem execPop_eq {d : Nat} (hd : d < 4) (s : State) : execPop d s = .next (cycleAt d s).1 := by
  have hl (k : Nat) : k ∈ (s.slots.map (·.1)).filter (fun k => decide (k < Config.slots) && (s.slot k).state == .armed) ↔
      k < 1536 ∧ (s.slot k).state = .armed := by
    rw [List.mem_filter, Bool.and_eq_true, decide_eq_true_eq, beq_iff_eq]
    exact ⟨fun h => h.2, fun h => ⟨listed_of_armed h.2, h⟩⟩
  rw [execPop, if_pos hd]
  exact congrArg Host.Outcome.next (serveDie_eq_foldl hl 7 (s, []) fun k hk => absurd hk List.not_mem_nil)

/-- A cycle in which no ARMED slot may take an entry changes nothing. -/
theorem cycleAt_of_none {d : Nat} {s : State} (h : ∀ k, k < 1536 → (s.slot k).state = .armed → s.fnReady (k / 8) = true →
    (s.slot k).mode ≠ 0 → ∀ q, q ≤ (s.slot k).prio.toNat → ∀ y ∈ s.held, ¬ MayTake s k d q y) : (cycleAt d s).1 = s := by
  have hnone (q k : Nat) (hk : k < 1536) (hs : selected s k = some (d, q)) : oldest s k d q = none ∧ (s.slot k).mode ≠ 2 := by
    obtain ⟨ha, hr⟩ := selected_armed hs
    rcases selected_eq_some hs with ⟨hm, -, rfl⟩ | ⟨hm, -, hq, ho⟩
    · exact ⟨oldest_eq_none.mpr (h k hk ha hr (by simp [hm]) _ le_rfl), by simp [hm]⟩
    · rw [oldest_eq_none.mpr (h k hk ha hr (by simp [hm]) q hq)] at ho
      cases ho
  have hall (l : List Nat) : l.foldl (queueStep s d) (s, []) = (s, []) := by
    induction l with
    | nil => rfl
    | cons q l ih => rw [List.foldl_cons, queueStep_of_none s (hnone q), ih]
  rw [cycleAt_eq, hall]

/-- A fold in which only member p acts, and only once. -/
theorem foldl_acts_once {α β : Type} {f : β → α → β} {a b : β} {p : α} {l : List α} (hn : l.Nodup) (hp : p ∈ l) (hact : f a p = b)
    (hbefore : ∀ q, q ≠ p → f a q = a) (hafter : ∀ q, q ≠ p → f b q = b) : l.foldl f a = b := by
  obtain ⟨l1, l2, rfl⟩ := List.append_of_mem hp
  have hstay {u : β} {l : List α} (h : ∀ q ∈ l, f u q = u) : l.foldl f u = u := by
    induction l with
    | nil => rfl
    | cons q l ih => rw [List.foldl_cons, h q (.head _), ih fun r hr => h r (.tail _ hr)]
  obtain ⟨-, hn2, hdisj⟩ := List.nodup_append.mp hn
  rw [List.foldl_append, hstay fun q hq => hbefore q (hdisj q hq p (.head _)), List.foldl_cons, hact]
  exact hstay fun q hq => hafter q fun h => (List.nodup_cons.mp hn2).1 (h ▸ hq)

/-- The cycle of a slot that pops alone: it takes the entry that `Takes` names. -/
theorem cycleAt_of_takes {s : State} {k d : Nat} {y : Held} {pre post : List Held} (hk : k < 1536) (ha : (s.slot k).state = .armed)
    (hone : ∀ j, j ≠ k → (s.slot j).state ≠ .armed) (hr : s.fnReady (k / 8) = true) (ht : Takes s k d pre y post) :
    (cycleAt d s).1 = startTask k d y s := by
  obtain ⟨hheld, hdie, hy, hpre, hmode⟩ := ht
  have hold : oldest s k d y.rc.prio.toNat = some y := oldest_eq_some hheld hy hpre
  have hself : selected s k = some (d, y.rc.prio.toNat) := by
    rw [selected_of_armed ha hr]
    rcases hmode with ⟨hm, hp⟩ | ⟨hm, hp, hnone⟩
    · rw [if_pos hm, hdie, hp]
    · have hhigh : highest s k d (s.slot k).prio.toNat = some y.rc.prio.toNat :=
        highest_eq_some.mpr ⟨hp, by rw [hold]; rfl, fun r h0 h1 => oldest_eq_none.mpr (hnone r h0 h1)⟩
      rw [if_neg (by simp [hm]), if_pos hm, hdie, hhigh]
      rfl
  have hsel (j q : Nat) : selected s j = some (d, q) ↔ j = k ∧ q = y.rc.prio.toNat := by
    constructor
    · intro h
      have hj : j = k := by
        by_contra hne
        exact hone j hne (selected_armed h).1
      subst hj
      rw [hself] at h
      cases h
      exact ⟨rfl, rfl⟩
    · rintro ⟨rfl, rfl⟩
      exact hself
  have hskip (u : State) (q : Nat) (hq : q ≠ y.rc.prio.toNat) : queueStep s d (u, []) q = (u, []) :=
    queueStep_of_none u fun j _ hj => absurd ((hsel j q).mp hj).2 hq
  have hmem : y.rc.prio.toNat ∈ [7, 6, 5, 4, 3, 2, 1, 0] := by
    have hlt := y.rc.prio.isLt
    simp only [List.mem_cons, List.not_mem_nil, or_false]
    omega
  rw [cycleAt_eq, foldl_acts_once (by decide) hmem
    (queueStep_of_single s hk (fun j => (hsel j _).trans (and_iff_left rfl)) hold) (fun q hq => hskip _ q hq) fun q hq => hskip _ q hq]

end Sys2Proof.Proofs
end

section
/-! O23. The task that a pop starts, the writes of the slot table, a freed credit, and the statement from them. -/

namespace Sys2Proof.Proofs
open Sys2Proof Sys2Proof.Machine Sys2Proof.Spec

/-- A change of one slot, as the statements write it out. -/
theorem onlySlot_split {s t : State} {k : Nat} {v : Slot} (h : OnlySlot s t k v) :
    { t with slots := s.slots } = s ∧ (∀ j, j ≠ k → t.slot j = s.slot j) ∧ t.slot k = v :=
  ⟨h.1, fun j hj => (h.2 j).trans (if_neg hj), (h.2 k).trans (if_pos rfl)⟩

/-! ## Data copies discarded -/

theorem mem_copies_refreshData (s : State) (k : Nat) (c : Copy) :
    c ∈ (s.refreshData k).copies ↔ c ∈ s.copies ∧ c.holder ≠ .hart k ∧ c.holder ≠ .early k ∧ c.holder ≠ .tile (k / 8) := by
  simp only [State.refreshData, State.refreshWell, State.dropEarly, State.tileOf, List.mem_filter, bne_iff_ne]
  tauto

/-! ## The start of a task (R65) -/

/-- The slot as a task starts on it. -/
def startedSlot (k d : Nat) (y : Held) (v : Slot) : Slot :=
  { v with
    state := .running, task := y.rc.id, taskCtx := y.ctx, lastctx := some y.ctx, ndisp := v.ndisp + 1
    nsteal := (if d = k / 384 then v.nsteal else v.nsteal + 1), mode := (if v.once then 0 else v.mode), simg := none
    pre := false, halt := false, step := false, busy := false, yielded := false, ending := false, reload := none
    hart := startedHart v.hart v.lastctx y }

/-- The task taken from the ready queues and listed as running on slot k, with the slot's data copies discarded. -/
def taskTaken (k : Nat) (y : Held) (s : State) : State :=
  State.refreshData
    { s with held := s.held.filter (fun z => !(z.ctx == y.ctx && z.rc.id == y.rc.id))
             running := s.running ++ [{ ctx := y.ctx, slot := k, rc := y.rc, bar := none, ended := 0, issued := 0, was := .running, kept := [], num := 0 }] } k

theorem startTask_eq (k d : Nat) (y : Held) (s : State) : startTask k d y s = (taskTaken k y s).setSlot k (startedSlot k d y (s.slot k)) := by
  have hdie : State.dieOf k = k / 384 := Nat.div_div_eq_div_mul k 8 48
  by_cases hc : (s.slot k).lastctx = some y.ctx
  · simp only [startTask, startedSlot, startedHart, if_pos hc, hdie]
    rfl
  · simp only [startTask, startedSlot, startedHart, if_neg hc, hdie]
    rfl

theorem slots_taskTaken (k : Nat) (y : Held) (s : State) : (taskTaken k y s).slots = s.slots := rfl

theorem slot_taskTaken (k : Nat) (y : Held) (s : State) (j : Nat) : (taskTaken k y s).slot j = s.slot j := by
  rw [State.slot, State.slot, slots_taskTaken]

theorem taskTaken_frame (k : Nat) (y : Held) (s : State) (v : Slot) :
    { (taskTaken k y s).setSlot k v with slots := s.slots, held := s.held, running := s.running, copies := s.copies } = s := by
  simp only [State.setSlot, taskTaken, State.refreshData, State.refreshWell, State.dropEarly]

/-- What a pop changes (R65). -/
theorem startTask_outcome (k d : Nat) (y : Held) (s : State) :
    { startTask k d y s with slots := s.slots, held := s.held, running := s.running, copies := s.copies } = s ∧
    (∀ j, j ≠ k → (startTask k d y s).slot j = s.slot j) ∧
    Refreshed s (startTask k d y s) k ∧ (startTask k d y s).held = s.held.filter (fun z => !(z.ctx == y.ctx && z.rc.id == y.rc.id)) ∧
    (startTask k d y s).running =
      s.running ++ [{ ctx := y.ctx, slot := k, rc := y.rc, bar := none, ended := 0, issued := 0, was := .running, kept := [], num := 0 }] ∧
    (startTask k d y s).slot k = startedSlot k d y (s.slot k) := by
  rw [startTask_eq]
  obtain ⟨-, hother, hself⟩ := onlySlot_split (onlySlot_setSlot (taskTaken k y s) k (startedSlot k d y (s.slot k)))
  refine ⟨taskTaken_frame k y s _, fun j hj => (hother j hj).trans (slot_taskTaken k y s j), fun c => ?_, rfl, rfl, hself⟩
  exact mem_copies_refreshData _ k c

/-! ## The writes of the slot table (R53, R54) -/

theorem bindError_eq (s : State) (k : Nat) (mode : BitVec 2) (c : BitVec 6) :
    bindError s k mode c = if mode = 3 then 2 else if (s.ctx c).res = false then 3
      else if mode ≠ 0 ∧ boundTo' s c k = false ∧ (s.ctx c).qslot.toNat ≤ (s.slots.filter (fun p => boundTo' s c p.1)).length then 1 else 0 := by
  rw [bindError]
  by_cases h3 : mode = 3
  · rw [if_pos h3, if_pos h3]
  rw [if_neg h3, if_neg h3]
  cases hr : (s.ctx c).res with
  | false => rfl
  | true =>
    by_cases h0 : mode = 0
    · simp [h0]
    · rw [if_neg h0]
      simp only [ge_iff_le, Bool.and_eq_true, Bool.not_eq_true', decide_eq_true_eq, ne_eq, h0, not_false_eq_true, true_and, Bool.not_true,
        Bool.false_eq_true, Bool.true_eq_false, if_false]

/-- A write of the bind fields changes its slot only, as its error code says. -/
theorem bindWrite_eq {slot : Nat} (hs : slot < 1536) (v : BitVec 16) (s : State) :
    bindWrite slot v s =
      (let e := bindError s slot (v.extractLsb' 0 2) (v.extractLsb' 2 6)
       let w := s.slot slot
       s.setSlot slot (if e ≠ 0 then { w with err := true, ecode := e }
         else { w with
           mode := v.extractLsb' 0 2, ctx := v.extractLsb' 2 6, prio := v.extractLsb' 8 3, die := v.extractLsb' 11 2, once := v.getLsbD 13
           err := false, ecode := 0
           state := if w.state = .free ∧ v.extractLsb' 0 2 ≠ 0 ∧ s.fnReady (slot / 8) = true then .armed
             else if w.state = .armed ∧ v.extractLsb' 0 2 = 0 then .free else w.state })) := by
  have hcfg : ¬ slot ≥ Config.slots := by
    rw [Config.slots]
    omega
  simp only [bindWrite, if_neg hcfg, State.tileOf]
  split <;> rfl

/-- ERR cleared (R53); the rest of the slot, ECODE too, stays. -/
theorem clearErr_eq (slot : Nat) (s : State) : { clearErr slot s with slots := s.slots } = s ∧
    (∀ j, j ≠ slot → (clearErr slot s).slot j = s.slot j) ∧ (clearErr slot s).slot slot = { s.slot slot with err := false } := by
  rw [clearErr]
  cases he : (s.slot slot).err with
  | true => exact onlySlot_split (onlySlot_setSlot s slot { s.slot slot with err := false })
  | false =>
    rw [if_neg Bool.false_ne_true, ← he]
    exact ⟨rfl, fun _ _ => rfl, rfl⟩

/-! ## A freed credit (R61) -/

theorem payOwed_of_none {c : BitVec 6} {l : List (BitVec 6 × BitVec 32)} (h : ∀ o ∈ l, o.1 ≠ c) (s : State) : payOwed c l s = s := by
  induction l with
  | nil => rfl
  | cons o l ih => rw [payOwed, if_neg (h o (.head _)), ih fun p hp => h p (.tail _ hp)]

/-- With no ending task and no round of the context that waits for a credit, a freed credit concerns its channels only. -/
theorem execCreditFreed_of_none {ctx : Nat} {s : State} (he : s.slots.all (fun p => !(p.2.ending && p.2.taskCtx == BitVec.ofNat 6 ctx)) = true)
    (ho : s.owed.all (fun o => o.1 != BitVec.ofNat 6 ctx) = true) :
    execCreditFreed ctx s = .next { s with
      chans := State.mapAll (fun _ x => if x.ctx = BitVec.ofNat 6 ctx then { x with stall := false } else x) s.chans } := by
  have hend : s.slots.filter (fun p => p.2.ending && p.2.taskCtx == BitVec.ofNat 6 ctx) = [] := by
    rw [List.filter_eq_nil_iff]
    intro p hp
    exact Bool.eq_false_iff.mp ((Bool.not_eq_true' _).mp (List.all_eq_true.mp he p hp))
  have hpay : payOwed (BitVec.ofNat 6 ctx) s.owed s = s :=
    payOwed_of_none (fun o hm => by simpa using List.all_eq_true.mp ho o hm) s
  simp only [execCreditFreed, hend, List.map_nil, List.foldl_nil, hpay]

/-- Settles O23: the cycle by `execPop_eq`, a pop alone by `cycleAt_of_takes`, the slot's writes by an equation each. -/
theorem slotTableResult : Obligations.SlotTableResult := by
  unfold Obligations.SlotTableResult
  refine ⟨fun k d y pre post s hk hd ha hone hr ht => ⟨?_, startTask_outcome k d y s⟩, fun d s hnone => ?_, fun d s hd => execPop_eq hd s,
    fun slot v s hs => ?_, fun slot s => ⟨_, rfl, clearErr_eq slot s⟩, fun ctx s he ho => ⟨_, execCreditFreed_of_none he ho, rfl, fun n => ?_⟩⟩
  · rw [← cycleAt_of_takes hk ha hone hr ht]
    exact execPop_eq hd s
  · by_cases hd : d < 4
    · exact (execPop_eq hd s).trans (congrArg _ (cycleAt_of_none hnone))
    · exact congrArg Host.Outcome.next (if_neg hd)
  · intro w mode c n e
    refine ⟨_, congrArg Host.Outcome.next (bindWrite_eq hs v s), ?_⟩
    have he : bindError s slot mode c = e := bindError_eq s slot mode c
    obtain ⟨hframe, hother, hself⟩ := onlySlot_split (onlySlot_setSlot s slot _)
    refine ⟨hframe, hother, hself.trans ?_⟩
    rw [← he]
  · exact find?_mapAll (fun _ x => if x.ctx = BitVec.ofNat 6 ctx then { x with stall := false } else x) s.chans n

end Sys2Proof.Proofs
end

section
/-! O22 fails. The model gives a decrement to the first credit of the id; the statement raises every credit of the id with a count. Where
two credits of one id are held and the first has no count, the two differ. -/

namespace Sys2Proof.Proofs
open Sys2Proof Sys2Proof.Machine Sys2Proof.Spec

/-- A task with one dependent, task 9, that is in no group, has no source and asks for no store of its number. -/
def taskWithDependent : TaskRec :=
  { entry := 0, arg := 0, deps := 0, gids := 0xFFFFFFFF, prio := 0, det := false, aff := 0, target := 0xFFFF, id := 7, dep1 := 9,
    dep2 := noTask, hwsrc := noTask, seq := 0 }

/-- The task runs on slot 0; its context holds two credits for task 9, the first with count 0. -/
def twoCredits : State :=
  { slots := [(0, { state := .running, task := 7, hart := { taskid := 7 } })], ctxs := [(0, { res := true, qcred := 8 })]
    running := [⟨0, 0, taskWithDependent, none, 0, 0, .running, [], 0⟩], credits := [⟨0, 9, 0⟩, ⟨0, 9, 1⟩] }

/-- The credits that an outcome leaves. -/
def creditsAfter : Out → List Credit
  | .next t => t.credits
  | _ => []

/-- As the model has it, the decrement finds the credit without a count and makes a third. -/
theorem creditsAfter_taskend : creditsAfter (exec .taskend twoCredits) = [⟨0, 9, 0⟩, ⟨0, 9, 1⟩, ⟨0, 9, 1⟩] := by decide +kernel

/-- As the statement has it, the decrement raises both credits. -/
theorem credits_decrementOnce : (taskWithDependent.dependents.foldl (fun (o : Option Counts) d => o.bind fun x => decrementOnce twoCredits 0 x d)
    (some ⟨twoCredits.held, twoCredits.credits, twoCredits.myCtx.surplus⟩)).map (·.credits) = some [⟨0, 9, 1⟩, ⟨0, 9, 2⟩] := by decide +kernel

/-- Refutes O22: TASKEND of `twoCredits`, a state that its first clause admits, leaves other credits than `decrementOnce` gives. -/
theorem not_taskEndResult : ¬ Obligations.TaskEndResult := by
  unfold Obligations.TaskEndResult
  rintro ⟨hend, -⟩
  have hmine : twoCredits.runOf twoCredits.cur = some ⟨0, 0, taskWithDependent, none, 0, 0, .running, [], 0⟩ := by decide +kernel
  obtain ⟨-, hstore, -⟩ := hend twoCredits _ (by decide +kernel) hmine (by decide +kernel) (by decide +kernel) (by decide +kernel)
    (by decide +kernel) (by decide +kernel) rfl
  obtain ⟨t, ht, hended, -⟩ := hstore (by decide +kernel) rfl
  obtain ⟨x, hx, hcredits⟩ := Option.map_eq_some_iff.mp credits_decrementOnce
  obtain ⟨⟨-, -, -, hsame, -⟩, -⟩ := hended x hx
  have hmodel := creditsAfter_taskend
  rw [ht, creditsAfter, hsame, hcredits] at hmodel
  exact absurd hmodel (by decide)

end Sys2Proof.Proofs
end

section
/-! O21. The task scheduler's instructions on a hart that nothing makes wait: TASKQ, HWMPUB and GBAR. -/

namespace Sys2Proof.Proofs
open Sys2Proof Sys2Proof.Machine Sys2Proof.Spec

/-! ## A quiet hart -/

/-- What `Quiet` says, part by part. -/
theorem quiet_iff (s : State) : Quiet s = true ↔ Ready s = true ∧ s.hart.abnd = false ∧ s.wbuf = [] ∧
    ∀ r ∈ s.net.reqs, ∀ i, r.who ≠ .elem s.cur i := by
  simp only [Quiet, Bool.and_eq_true, Bool.not_eq_true', List.isEmpty_iff, List.all_eq_true, and_assoc]
  refine and_congr_right fun _ => and_congr_right fun _ => and_congr_right fun _ => forall₂_congr fun r _ => ?_
  cases hw : r.who with
  | elem k i => simp
  | _ => simp

theorem quiet_ready {s : State} (h : Quiet s = true) : Ready s = true := ((quiet_iff s).mp h).1

theorem quiet_allFull {s : State} (h : Quiet s = true) : s.hart.allFull = true := ((ready_iff s).mp (quiet_ready h)).1

theorem quiet_inflight {s : State} (h : Quiet s = true) : s.hart.inflight = [] := by
  obtain ⟨-, -, hi, -⟩ := (ready_iff s).mp (quiet_ready h)
  exact hi

theorem quiet_copies {s : State} (h : Quiet s = true) : s.copies = [] := by
  obtain ⟨-, -, -, -, -, -, -, -, -, -, -, -, hc⟩ := (ready_iff s).mp (quiet_ready h)
  exact hc

theorem quiet_wbuf {s : State} (h : Quiet s = true) : s.wbuf = [] := by
  obtain ⟨-, -, hw, -⟩ := (quiet_iff s).mp h
  exact hw

theorem quiet_requestOf {s : State} (h : Quiet s = true) (i : Nat) : s.requestOf (.elem s.cur i) = none := by
  obtain ⟨-, -, -, hr⟩ := (quiet_iff s).mp h
  rw [State.requestOf, List.find?_eq_none]
  exact fun r hm he => hr r hm i (beq_iff_eq.mp he)

theorem quiet_fenceDevice {s : State} (h : Quiet s = true) (k : Nat) : s.fenceDevice k = s :=
  Memory.fenceDevice_nil s k (quiet_wbuf h) (quiet_copies h)

/-- With no request of its hart out, none is dropped. -/
theorem clearRequests_of_none {s : State} {k : Nat} (h : ∀ r ∈ s.net.reqs, ∀ i, r.who ≠ .elem k i) : s.clearRequests k = s := by
  refine dropRequests_of_none s _ k _ fun r hr => ?_
  cases hw : r.who with
  | elem q i =>
    have hq : q ≠ k := by
      rintro rfl
      exact h r hr i hw
    simpa using hq
  | _ => rfl

/-- A read that passes its checks, on a quiet hart, gives what stands at the home. -/
theorem oneAccess_read_of_local {s : State} (h : Quiet s = true) {x : Access} {space : BitVec 2} {va : Word} {loc : Loc} {dev : Bool}
    (hacc : x.acc = .read) (hc : s.checkSpace s.cur space va.toNat .read x.sz x.align x.idem = .go loc dev) (hl : isLocal loc = true)
    (data : Nat) (k : Nat → State → Res) : oneAccess x 0 space va data s k = k (s.homeRead loc x.sz) s := by
  have hread := Memory.readClass_home s s.cur loc x.sz dev (quiet_wbuf h) (quiet_copies h)
  cases loc with
  | peer => cases hl
  | hbm | cis | host => simp [oneAccess, quiet_requestOf h, hacc, hc, hread]

theorem vector_eq (h : Hart) (n : Nat) : h.vector n = (h.tvec.zeroExtend 64 <<< 2) + BitVec.ofNat 64 (0x100 * (n - 1)) := by
  have htvec : h.tvec ++ 0#2 = h.tvec.zeroExtend 64 <<< 2 := by
    apply BitVec.eq_of_toNat_eq
    have hlt := h.tvec.isLt
    rw [BitVec.toNat_append, BitVec.toNat_shiftLeft, BitVec.toNat_setWidth]
    simp only [BitVec.toNat_ofNat, Nat.zero_mod, Nat.or_zero, Nat.shiftLeft_eq]
    omega
  rw [Hart.vector, htvec]

/-- A trap from level 0 or 1, at the instruction's own PC. -/
theorem trapOutcome_of_trap {s : State} (h : s.hart.tlvl.toNat < 2) (cause i : Nat) (v : Word) (wl : Nat) :
    ∃ t, (Res.trap cause i v wl s).out = .next t ∧ TrapOutcome s t cause i v wl := by
  refine ⟨_, congrArg Host.Outcome.next (takeTrap_of_lt s s.cur cause i v wl s.hart.pc h), ?_, ?_⟩
  · exact onlyHart_setHart (s.forgetWalks (State.tileOf s.cur) (s.ctxOf s.cur)) _
  · refine (State.hart_setHart (s.forgetWalks (State.tileOf s.cur) (s.ctxOf s.cur)) _).trans ?_
    rw [vector_eq]
    rfl

end Sys2Proof.Proofs
end

section
/-! O21. TASKQ and HWMPUB: the record that a submission accepts, and the marks. -/

namespace Sys2Proof.Proofs
open Sys2Proof Sys2Proof.Machine Sys2Proof.Spec

/-! ## Retiring with a scalar result -/

theorem retire_ws (h : Hart) (d : BitVec 6) (v : Word) : (h.ws d v).retire = { goTo h (h.pc + 4) with s := (h.ws d v).s } := by
  unfold Hart.ws
  split <;> rfl

/-- What the register file and the rest of the hart are after `writeRetire`. -/
theorem hart_writeRetire (h : Hart) (d : BitVec 6) (v : Word) :
    (∀ q, (h.ws d v).retire.rs q = if q = d ∧ d ≠ 0 then v else h.rs q) ∧
    (h.ws d v).retire = { goTo h (h.pc + 4) with s := (h.ws d v).retire.s } :=
  ⟨fun q => Hart.rs_ws h d q v, retire_ws h d v⟩

theorem hart_clean {h : Hart} (ha : h.abnd = false) (hm : h.mid = false) (hc : h.accs = []) :
    { h with abnd := false, mid := false, accs := [] } = h := by
  cases h
  simp_all

theorem hart_congr {s u : State} (hslots : u.slots = s.slots) (hcur : u.cur = s.cur) : u.hart = s.hart := by
  rw [State.hart, State.hart, State.slot, State.slot, hslots, hcur]

/-- The end of a quiet hart's access finds nothing to clear. -/
theorem cleanEnd_of_quiet {s u : State} (hq : Quiet s = true) (hslots : u.slots = s.slots) (hcur : u.cur = s.cur) (hnet : u.net = s.net) :
    cleanEnd u = u.setHart s.hart := by
  obtain ⟨hready, habnd, -, hreqs⟩ := (quiet_iff s).mp hq
  obtain ⟨-, -, -, -, hmid, haccs, -⟩ := (ready_iff s).mp hready
  have hclear : u.clearRequests u.cur = u := clearRequests_of_none (by rw [hnet, hcur]; exact hreqs)
  rw [cleanEnd, hclear, hart_congr hslots hcur, hart_clean habnd hmid haccs]

/-- An access's instruction that retires with a scalar result, on a state that differs from a quiet one in tables only. -/
theorem writeRetire_cleanEnd {s u : State} (hq : Quiet s = true) (hslots : u.slots = s.slots) (hcur : u.cur = s.cur) (hnet : u.net = s.net)
    (d : BitVec 6) (v : Word) : ∃ t, writeRetire d v (cleanEnd u) = .ok t ∧ { t with slots := u.slots } = u ∧
      (∀ k, k ≠ s.cur → t.slot k = s.slot k) ∧ (∀ q, t.hart.rs q = if q = d ∧ d ≠ 0 then v else s.hart.rs q) ∧
      t.hart = { goTo s.hart (s.hart.pc + 4) with s := t.hart.s } := by
  obtain ⟨hrs, hrest⟩ := hart_writeRetire s.hart d v
  have honly := onlyHart_trans (onlyHart_setHart u s.hart) (onlyHart_setHart (u.setHart s.hart) (s.hart.ws d v).retire)
  obtain ⟨hframe, hother, -⟩ := honly
  have hhart : ((u.setHart s.hart).setHart (s.hart.ws d v).retire).hart = (s.hart.ws d v).retire := State.hart_setHart _ _
  refine ⟨_, by rw [writeRetire, cleanEnd_of_quiet hq hslots hcur hnet, State.hart_setHart], hframe, fun k hk => ?_, ?_, ?_⟩
  · rw [hother k (hcur ▸ hk), State.slot, State.slot, hslots]
  · rw [hhart]
    exact hrs
  · rw [hhart]
    exact hrest

/-! ## Marks (R70) -/

theorem find?_and {α : Type} {p q : α → Bool} {l : List α} {m : α} (h : l.find? p = some m) (hq : q m = true) :
    l.find? (fun a => decide (q a = true ∧ p a = true)) = some m := by
  obtain ⟨hp, pre, post, rfl, hpre⟩ := List.find?_eq_some_iff_append.mp h
  refine List.find?_eq_some_iff_append.mpr ⟨decide_eq_true ⟨hq, hp⟩, pre, post, rfl, fun a ha => ?_⟩
  have hn := hpre a ha
  rw [Bool.not_eq_true'] at hn ⊢
  exact decide_eq_false fun h => Bool.eq_false_iff.mp hn h.2

/-- The entry of a producer after it has been changed, where it does not go: the changed one. -/
theorem markOf_mapMark {s : State} {c : BitVec 6} {id : BitVec 32} {m : MarkEntry} {f : MarkEntry → MarkEntry} (hm : s.markOf c id = some m)
    (hkey : ∀ m, (f m).ctx = m.ctx ∧ (f m).producer = m.producer) (hstay : ((f m).ended && (f m).refs == 0) = false) :
    (s.mapMark c id f).markOf c id = some (f m) := by
  have hpm : (m.ctx == c && m.producer == id) = true :=
    List.find?_some (p := fun m : MarkEntry => m.ctx == c && m.producer == id) hm
  have hfm : (if m.ctx = c ∧ m.producer = id then f m else m) = f m := if_pos (by simpa using hpm)
  have hp (a : MarkEntry) : ((if a.ctx = c ∧ a.producer = id then f a else a).ctx == c &&
      (if a.ctx = c ∧ a.producer = id then f a else a).producer == id) = (a.ctx == c && a.producer == id) := by
    split
    · rw [(hkey a).1, (hkey a).2]
    · rfl
  rw [State.markOf, State.mapMark]
  simp only [List.find?_filter, List.find?_map, Function.comp_def, hp]
  rw [find?_and hm (q := fun a => !((if a.ctx = c ∧ a.producer = id then f a else a).ended &&
    (if a.ctx = c ∧ a.producer = id then f a else a).refs == 0)) (by rw [hfm, hstay]; rfl), Option.map_some, hfm]

/-! ## Submission (R59) -/

/-- The entry that a submission holds. -/
def submitted (s : State) (c : BitVec 6) (sub v : Nat) : Held :=
  let r := parseRec v
  let count := r.deps.toNat - s.creditOf c r.id
  ⟨c, State.homeDie r sub, count, decide (count = 0), (if count = 0 then { r with det := r.det || (s.ctx c).detm } else r)⟩

/-- The marks after the source of a submitted task has gained a reference. -/
def sourceMarks (s : State) (c : BitVec 6) (sub v : Nat) : List MarkEntry :=
  let r := parseRec v
  if r.hwsrc != noTask then
    (if (s.markOf c r.hwsrc).isSome then (s.mapMark c r.hwsrc (fun m => { m with refs := m.refs + 1 })).marks
     else s.marks ++ [⟨c, r.hwsrc, State.homeDie r sub, 0, false, 1⟩])
  else s.marks

/-- The state after a record has been accepted. -/
def accepted (s : State) (c : BitVec 6) (sub v : Nat) : State :=
  { s with held := s.held ++ [submitted s c sub v]
           credits := s.credits.filter (fun y => !(y.ctx == c && y.id == (parseRec v).id))
           marks := sourceMarks s c sub v }

/-- A task that is known nowhere is made ready in its place at the end. -/
theorem makeReady_of_last {s : State} {c : BitVec 6} {l : List Held} {e : Held} (hl : s.held = l ++ [e]) (hctx : e.ctx = c)
    (hnew : l.any (fun h => h.ctx == c && h.rc.id == e.rc.id) = false) :
    s.makeReady c e.rc.id = { s with held := l ++ [{ e with count := 0, ready := true, rc := { e.rc with det := e.rc.det || (s.ctx c).detm } }] } := by
  have hnone (h : Held) (hh : h ∈ l) : (h.ctx == c && h.rc.id == e.rc.id) = false := Bool.eq_false_iff.mpr (List.any_eq_false.mp hnew h hh)
  have hself : (e.ctx == c && e.rc.id == e.rc.id) = true := by simp [hctx]
  have hfind : s.held.find? (fun h => h.ctx == c && h.rc.id == e.rc.id) = some e := by
    rw [hl, List.find?_append, List.find?_eq_none.mpr fun h hh => Bool.eq_false_iff.mp (hnone h hh), Option.none_or, List.find?_cons, hself]
  have hfilter : s.held.filter (fun h => !(h.ctx == c && h.rc.id == e.rc.id)) = l := by
    rw [hl, List.filter_append, List.filter_eq_self.mpr fun h hh => by rw [hnone h hh]; rfl, List.filter_cons_of_neg (by rw [hself]; simp),
      List.filter_nil, List.append_nil]
  rw [State.makeReady, hfind]
  simp only [hfilter]

/-- The entry that a submission adds before it is known whether the task is ready. -/
def queued (s : State) (c : BitVec 6) (sub v : Nat) : Held :=
  ⟨c, State.homeDie (parseRec v) sub, (parseRec v).deps.toNat - s.creditOf c (parseRec v).id, false, parseRec v⟩

/-- The state after a record has been listed, before a task without dependences is made ready. -/
def listed (s : State) (c : BitVec 6) (sub v : Nat) : State :=
  { accepted s c sub v with held := s.held ++ [queued s c sub v] }

theorem accepted_of_listed {s : State} {c : BitVec 6} {sub v : Nat} (hnew : s.taskKnown c (parseRec v).id = false) :
    (if (parseRec v).deps.toNat - s.creditOf c (parseRec v).id = 0 then (listed s c sub v).makeReady c (parseRec v).id else listed s c sub v) =
      accepted s c sub v := by
  have hheld : s.held.any (fun h => h.ctx == c && h.rc.id == (queued s c sub v).rc.id) = false := (Bool.or_eq_false_iff.mp hnew).1
  split
  · have hready : (listed s c sub v).makeReady c (parseRec v).id = _ :=
      makeReady_of_last (s := listed s c sub v) (l := s.held) (e := queued s c sub v) rfl rfl hheld
    rw [hready]
    simp only [listed, queued, accepted, submitted, ‹_ = 0›, decide_true, if_true]
    rfl
  · simp only [listed, queued, accepted, submitted, if_neg ‹¬ _›, decide_eq_false ‹¬ _›]

/-- The marks of a submission, as the model lists them beside the entry and the credits. -/
theorem listed_eq (s : State) (c : BitVec 6) (sub v : Nat) :
    (let r := parseRec v
     let s1 : State :=
       { s with held := s.held ++ [⟨c, State.homeDie r sub, r.deps.toNat - s.creditOf c r.id, false, r⟩]
                credits := s.credits.filter (fun y => !(y.ctx == c && y.id == r.id)) }
     if r.hwsrc != noTask then
       (if (s1.markOf c r.hwsrc).isSome then s1.mapMark c r.hwsrc (fun m => { m with refs := m.refs + 1 })
        else { s1 with marks := s1.marks ++ [⟨c, r.hwsrc, State.homeDie r sub, 0, false, 1⟩] })
     else s1) = listed s c sub v := by
  have hmark (l : List Held) (k : List Credit) : ({ s with held := l, credits := k } : State).markOf c (parseRec v).hwsrc =
      s.markOf c (parseRec v).hwsrc := rfl
  simp only [listed, accepted, sourceMarks, queued, hmark]
  by_cases hc : ((parseRec v).hwsrc != noTask) = true
  · rw [if_pos hc, if_pos hc]
    split <;> rfl
  · rw [if_neg hc, if_neg hc]

/-- R59: a record is accepted, or changes nothing and its status says why. -/
theorem submit_eq (s : State) (v : Nat) : s.submit s.ctxid (State.dieOf s.cur) v =
    (submitStatus s v, if submitStatus s v = 0 then accepted s s.ctxid (State.dieOf s.cur) v else s) := by
  have hlisted := listed_eq s s.ctxid (State.dieOf s.cur) v
  simp only at hlisted
  have hfail (n : Nat) (hn : n ≠ 0) (h : submitStatus s v = n) :
      (n, s) = (submitStatus s v, if submitStatus s v = 0 then accepted s s.ctxid (State.dieOf s.cur) v else s) := by
    rw [h, if_neg hn]
  simp only [State.submit, hlisted]
  by_cases h4 : s.legalRec s.ctxid v = false
  · rw [if_pos (by rw [h4]; rfl)]
    exact hfail 4 (by decide) (if_pos h4)
  rw [if_neg (by simpa using h4)]
  by_cases h3 : s.taskKnown s.ctxid (parseRec v).id = true
  · rw [if_pos h3]
    exact hfail 3 (by decide) ((if_neg h4).trans (if_pos h3))
  rw [if_neg h3]
  by_cases h1 : (s.held.filter (·.ctx == s.ctxid)).length ≥ min (s.ctx s.ctxid).qtask.toNat (4 * Config.pendingPerDie)
  · rw [if_pos h1]
    exact hfail 1 (by decide) ((if_neg h4).trans ((if_neg h3).trans (if_pos h1)))
  rw [if_neg h1]
  by_cases h5 : (parseRec v).hwsrc ≠ 0xFFFFFFFF ∧ s.markOf s.ctxid (parseRec v).hwsrc = none ∧
      s.markRoom s.ctxid (State.homeDie (parseRec v) (State.dieOf s.cur)) = false
  · rw [if_pos (by simpa [noTask, and_assoc] using h5)]
    exact hfail 5 (by decide) ((if_neg h4).trans ((if_neg h3).trans ((if_neg h1).trans (if_pos h5))))
  rw [if_neg (by simpa [noTask, and_assoc] using h5)]
  by_cases h2 : (s.held.filter (·.die == State.homeDie (parseRec v) (State.dieOf s.cur))).length ≥ Config.pendingPerDie
  · rw [if_pos h2]
    exact hfail 2 (by decide) ((if_neg h4).trans ((if_neg h3).trans ((if_neg h1).trans ((if_neg h5).trans (if_pos h2)))))
  rw [if_neg h2, accepted_of_listed (by simpa using h3)]
  have h0 : submitStatus s v = 0 := (if_neg h4).trans ((if_neg h3).trans ((if_neg h1).trans ((if_neg h5).trans (if_neg h2))))
  rw [h0, if_pos rfl]

end Sys2Proof.Proofs
end

section
/-! O21. The clauses of TASKQ and HWMPUB. -/

namespace Sys2Proof.Proofs
open Sys2Proof Sys2Proof.Machine Sys2Proof.Spec

/-! ## TASKQ (R59, R60) -/

theorem execTaskq_of_quiet {x : ArgsD} {s : State} {loc : Loc} {dev : Bool} (hq : Quiet s = true) (hl : isLocal loc = true)
    (ha : (s.hart.rs x.a).toNat % 64 = 0) (hc : s.checkSpace s.cur 0 (s.hart.rs x.a).toNat .read 64 64 true = .go loc dev) :
    execTaskq x s = (writeRetire x.d (BitVec.ofNat 64 (submitStatus s (s.homeRead loc 64)))
      (cleanEnd (if submitStatus s (s.homeRead loc 64) = 0 then accepted s s.ctxid (State.dieOf s.cur) (s.homeRead loc 64) else s))).out := by
  have hfull := quiet_allFull hq
  rw [execTaskq, issue_wf _ _ _ rfl, readScalars_full _ _ _ hfull, destFree_full _ _ _ hfull]
  simp only [ne_eq, ha, not_true_eq_false, if_false, quiet_fenceDevice hq]
  rw [oneAccess_read_of_local hq (x := { acc := .read, op := .read, sz := 64, align := 64, idem := true }) rfl hc hl]
  simp only [submit_eq]

/-- What a record that names a source does to the source's mark (R71). -/
theorem markOf_accepted {s : State} {c : BitVec 6} {sub v : Nat} (h : (parseRec v).hwsrc ≠ 0xFFFFFFFF) :
    (accepted s c sub v).markOf c (parseRec v).hwsrc = match s.markOf c (parseRec v).hwsrc with
      | some m => some { m with refs := m.refs + 1 }
      | none => some ⟨c, (parseRec v).hwsrc, State.homeDie (parseRec v) sub, 0, false, 1⟩ := by
  have hsource : ((parseRec v).hwsrc != noTask) = true := bne_iff_ne.mpr h
  have hmarks : (accepted s c sub v).marks = sourceMarks s c sub v := rfl
  rw [State.markOf, hmarks, sourceMarks]
  simp only [hsource, if_true]
  cases hm : s.markOf c (parseRec v).hwsrc with
  | some m => exact markOf_mapMark hm (fun _ => ⟨rfl, rfl⟩) (by simp)
  | none =>
    rw [State.markOf] at hm
    simp [hm]

theorem taskq_submits {x : ArgsD} {s : State} {loc : Loc} {dev : Bool} (hq : Quiet s = true) (hl : isLocal loc = true)
    (ha : (s.hart.rs x.a).toNat % 64 = 0) (hc : s.checkSpace s.cur 0 (s.hart.rs x.a).toNat .read 64 64 true = .go loc dev) :
    ∃ t, exec (.taskq x) s = .next t ∧ (∀ k, k ≠ s.cur → t.slot k = s.slot k) ∧
      (∀ q, t.hart.rs q = if q = x.d ∧ x.d ≠ 0 then BitVec.ofNat 64 (submitStatus s (s.homeRead loc 64)) else s.hart.rs q) ∧
      t.hart = { goTo s.hart (s.hart.pc + 4) with s := t.hart.s } ∧
      (submitStatus s (s.homeRead loc 64) ≠ 0 → { t with slots := s.slots } = s) ∧
      (submitStatus s (s.homeRead loc 64) = 0 →
        { t with slots := s.slots } = accepted s s.ctxid (State.dieOf s.cur) (s.homeRead loc 64)) := by
  have hexec := execTaskq_of_quiet hq hl ha hc
  by_cases h0 : submitStatus s (s.homeRead loc 64) = 0
  · rw [if_pos h0] at hexec
    obtain ⟨t, ht, hframe, hother, hrs, hhart⟩ :=
      writeRetire_cleanEnd (u := accepted s s.ctxid (State.dieOf s.cur) (s.homeRead loc 64)) hq rfl rfl rfl x.d
        (BitVec.ofNat 64 (submitStatus s (s.homeRead loc 64)))
    rw [ht] at hexec
    exact ⟨t, hexec, hother, hrs, hhart, fun h => absurd h0 h, fun _ => hframe⟩
  · rw [if_neg h0] at hexec
    obtain ⟨t, ht, hframe, hother, hrs, hhart⟩ :=
      writeRetire_cleanEnd (u := s) hq rfl rfl rfl x.d (BitVec.ofNat 64 (submitStatus s (s.homeRead loc 64)))
    rw [ht] at hexec
    exact ⟨t, hexec, hother, hrs, hhart, fun _ => hframe, fun h => absurd h h0⟩

/-! ## HWMPUB (R71) -/

theorem execHwmpub_of_quiet {x : ArgsS} {s : State} (hq : Quiet s = true) {v : BitVec 32}
    (hv : v = BitVec.ofNat 32 (min (s.hart.rs x.a).toNat (2 ^ 32 - 1))) :
    execHwmpub x s = .next ((publish s v).setHart (publish s v).hart.retire) := by
  rw [execHwmpub, issue_wf _ _ _ rfl, readScalars_full _ _ _ (quiet_allFull hq), drained_ready _ _ (quiet_inflight hq),
    quiet_fenceDevice hq, hv]
  rfl

/-- A mark raised to a value. -/
def raised (v : BitVec 32) (m : MarkEntry) : MarkEntry := { m with mark := if m.mark < v then v else m.mark }

theorem raised_eq (v : BitVec 32) (m : MarkEntry) : raised v m = { m with mark := BitVec.ofNat 32 (max m.mark.toNat v.toNat) } := by
  have hmax : (if m.mark < v then v else m.mark) = BitVec.ofNat 32 (max m.mark.toNat v.toNat) := by
    by_cases h : m.mark < v
    · rw [if_pos h, max_eq_right (BitVec.lt_def.mp h).le, BitVec.ofNat_toNat, BitVec.setWidth_eq]
    · rw [if_neg h, max_eq_left (not_lt.mp fun hlt => h (BitVec.lt_def.mpr hlt)), BitVec.ofNat_toNat, BitVec.setWidth_eq]
  rw [raised, hmax]

theorem publish_of_some {s : State} {m : MarkEntry} (h : s.markOf s.ctxid s.hart.taskid = some m) (v : BitVec 32) :
    publish s v = if m.ended then s else s.mapMark s.ctxid s.hart.taskid (raised v) := by
  simp only [publish, h]
  rfl

theorem publish_of_none {s : State} (h : s.markOf s.ctxid s.hart.taskid = none) (v : BitVec 32) :
    publish s v = if s.markRoom s.ctxid (State.dieOf s.cur)
      then { s with marks := s.marks ++ [⟨s.ctxid, s.hart.taskid, State.dieOf s.cur, v, false, 0⟩] } else s := by
  simp only [publish, h]

/-- A publication changes the marks only. -/
theorem publish_frame (s : State) (v : BitVec 32) : publish s v = { s with marks := (publish s v).marks } := by
  cases hm : s.markOf s.ctxid s.hart.taskid with
  | some m =>
    rw [publish_of_some hm]
    split <;> rfl
  | none =>
    rw [publish_of_none hm]
    split <;> rfl

/-- A publication raises the mark of the running task, or makes one where there is room (R70, R71). -/
theorem marks_publish (s : State) (v : BitVec 32) : match s.markOf s.ctxid s.hart.taskid with
    | some m => if m.ended then (publish s v).marks = s.marks
        else (publish s v).markOf s.ctxid s.hart.taskid = some { m with mark := BitVec.ofNat 32 (max m.mark.toNat v.toNat) }
    | none => (publish s v).marks = if s.markRoom s.ctxid (State.dieOf s.cur)
        then s.marks ++ [⟨s.ctxid, s.hart.taskid, State.dieOf s.cur, v, false, 0⟩] else s.marks := by
  cases hm : s.markOf s.ctxid s.hart.taskid with
  | some m =>
    simp only [publish_of_some hm]
    by_cases he : m.ended = true
    · rw [if_pos he, if_pos he]
    · have hstay : ((raised v m).ended && (raised v m).refs == 0) = false := by simp [raised, he]
      rw [if_neg he, if_neg he, markOf_mapMark (f := raised v) hm (fun _ => ⟨rfl, rfl⟩) hstay, raised_eq]
  | none =>
    simp only [publish_of_none hm]
    split <;> rfl

theorem hwmpub_publishes (x : ArgsS) {s : State} (hq : Quiet s = true) {v : BitVec 32}
    (hv : v = BitVec.ofNat 32 (min (s.hart.rs x.a).toNat (2 ^ 32 - 1))) :
    ∃ t, exec (.hwmpub x) s = .next t ∧ { t with slots := s.slots, marks := s.marks } = s ∧ (∀ k, k ≠ s.cur → t.slot k = s.slot k) ∧
      t.hart = goTo s.hart (s.hart.pc + 4) ∧ t.marks = (publish s v).marks := by
  have hframe := publish_frame s v
  have hslots : (publish s v).slots = s.slots := by rw [hframe]
  have hcur : (publish s v).cur = s.cur := by rw [hframe]
  refine ⟨_, execHwmpub_of_quiet hq hv, ?_, fun k hk => ?_, ?_, rfl⟩
  · rw [hframe]
    rfl
  · rw [State.slot_setHart_other _ _ (hcur ▸ hk), State.slot, State.slot, hslots]
  · rw [State.hart_setHart, hart_congr hslots hcur]
    rfl

/-- The statement on HWMPUB looks for the mark in the state after it has retired. -/
theorem markOf_congr {s t : State} (h : t.marks = s.marks) (c : BitVec 6) (id : BitVec 32) : t.markOf c id = s.markOf c id := by
  rw [State.markOf, State.markOf, h]

end Sys2Proof.Proofs
end

section
/-! O21. GBAR, and the statement from the clauses. -/

namespace Sys2Proof.Proofs
open Sys2Proof Sys2Proof.Machine Sys2Proof.Spec

/-! ## The running record and STATE -/

theorem runOf_congr {s t : State} {k : Nat} (hrunning : t.running = s.running) (hctx : (t.slot k).taskCtx = (s.slot k).taskCtx)
    (htask : (t.slot k).hart.taskid = (s.slot k).hart.taskid) : t.runOf k = s.runOf k := by
  rw [State.runOf, State.runOf, State.ctxOf, State.ctxOf, hrunning, hctx, htask]

theorem runOf_mapRun {s : State} {k : Nat} {run : RunTask} {f : RunTask → RunTask} (h : s.runOf k = some run)
    (hkey : ∀ r, (f r).ctx = r.ctx ∧ (f r).rc = r.rc) : (s.mapRun k f).runOf k = some (f run) := by
  have hp (r : RunTask) : ((if r.ctx = s.ctxOf k ∧ r.rc.id = (s.slot k).hart.taskid then f r else r).ctx == s.ctxOf k &&
      (if r.ctx = s.ctxOf k ∧ r.rc.id = (s.slot k).hart.taskid then f r else r).rc.id == (s.slot k).hart.taskid) =
      (r.ctx == s.ctxOf k && r.rc.id == (s.slot k).hart.taskid) := by
    split
    · rw [(hkey r).1, (hkey r).2]
    · rfl
  have hrun : s.running.find? (fun r => r.ctx == s.ctxOf k && r.rc.id == (s.slot k).hart.taskid) = some run := h
  have hself : run.ctx = s.ctxOf k ∧ run.rc.id = (s.slot k).hart.taskid := by
    simpa using List.find?_some (p := fun r : RunTask => r.ctx == s.ctxOf k && r.rc.id == (s.slot k).hart.taskid) hrun
  have hfind : (s.mapRun k f).runOf k = (s.mapRun k f).running.find? (fun r => r.ctx == s.ctxOf k && r.rc.id == (s.slot k).hart.taskid) := rfl
  rw [hfind, State.mapRun]
  simp only [List.find?_map, Function.comp_def, hp, hrun, Option.map_some, if_pos hself]

theorem setRunState_of_live {s : State} (h : (s.slot s.cur).state = .running ∨ (s.slot s.cur).state = .waiting) (st : SlotState) :
    s.setRunState st = s.setSlot s.cur { s.slot s.cur with state := st } := if_pos h

/-! ## Groups and the holds of a phase (R66, R67, R334) -/

theorem group_setGroup (s : State) (c : BitVec 6) (g : Nat) (y : Group) : (s.setGroup c g y).group c g = some y := by
  rw [State.group, State.setGroup, SMap.find?_put, if_pos rfl]

theorem checkPhase_of_complete {s : State} {c : BitVec 6} {g : Nat} {y : Group} (h : s.group c g = some y)
    (hc : y.arrived + y.ended = y.members.length) :
    s.checkPhase c g = (s.closeHolds c g y.phase).setGroup c g { y with arrived := 0, phase := y.phase + 1 } := by
  simp only [State.checkPhase, h, if_pos hc]

/-- Two states that differ in memory and held updates only. -/
def SameButMemory (s t : State) : Prop := { t with hbm := s.hbm, cis := s.cis, host := s.host, holds := s.holds } = s

theorem sameButMemory_homeWrite {s t : State} (h : SameButMemory s t) (loc : Loc) (n v : Nat) : SameButMemory s (t.homeWrite loc n v) := by
  cases loc <;> exact h

theorem sameButMemory_closeHolds (s : State) (c : BitVec 6) (g : Nat) (p : BitVec 32) : SameButMemory s (s.closeHolds c g p) := by
  have hfold (l : List HeldAddr) (t : State) (h : SameButMemory s t) :
      SameButMemory s (l.foldl (fun st e => st.homeWrite e.loc e.n (State.closeValue e (st.homeRead e.loc e.n))) t) := by
    induction l generalizing t with
    | nil => exact h
    | cons e l ih => exact ih _ (sameButMemory_homeWrite h _ _ _)
  exact hfold _ s rfl

/-- Applying the holds of a phase does not look at the groups. -/
theorem closeHolds_groups (s : State) (l : SMap Group) (c : BitVec 6) (g : Nat) (p : BitVec 32) :
    ({ s with groups := l } : State).closeHolds c g p = { s.closeHolds c g p with groups := l } := by
  have hwrite (t : State) (loc : Loc) (n v : Nat) :
      ({ t with groups := l } : State).homeWrite loc n v = { t.homeWrite loc n v with groups := l } := by
    cases loc <;> rfl
  have hread (t : State) (loc : Loc) (n : Nat) : ({ t with groups := l } : State).homeRead loc n = t.homeRead loc n := by
    cases loc <;> rfl
  have hfold (es : List HeldAddr) (t : State) :
      es.foldl (fun st e => st.homeWrite e.loc e.n (State.closeValue e (st.homeRead e.loc e.n))) { t with groups := l } =
        { es.foldl (fun st e => st.homeWrite e.loc e.n (State.closeValue e (st.homeRead e.loc e.n))) t with groups := l } := by
    induction es generalizing t with
    | nil => rfl
    | cons e es ih => rw [List.foldl_cons, List.foldl_cons, hread, hwrite, ih]
  simp only [State.closeHolds, hfold]

/-- The arrival that completes a phase: the holds are applied, and the next phase begins with no arrivals. -/
theorem checkPhase_of_last_arrival {s : State} {c : BitVec 6} {v : Nat} {g : Group} (hc : g.arrived + 1 + g.ended = g.members.length) :
    (∃ l, (s.setGroup c v { g with arrived := g.arrived + 1 }).checkPhase c v = { s.closeHolds c v g.phase with groups := l }) ∧
    ((s.setGroup c v { g with arrived := g.arrived + 1 }).checkPhase c v).group c v = some { g with arrived := 0, phase := g.phase + 1 } := by
  have hclose : (s.setGroup c v { g with arrived := g.arrived + 1 }).closeHolds c v g.phase =
      { s.closeHolds c v g.phase with groups := SMap.put s.groups (c.toNat * 256 + v) { g with arrived := g.arrived + 1 } } :=
    closeHolds_groups s _ c v g.phase
  rw [checkPhase_of_complete (group_setGroup s c v _) hc]
  refine ⟨⟨_, (congrArg (fun u : State => u.setGroup c v { g with arrived := 0, phase := g.phase + 1 }) hclose).trans rfl⟩, ?_⟩
  exact group_setGroup _ c v _

/-! ## The end of GBAR -/

/-- The state after GBAR has passed phase p: the hart's data copies discarded, no arrival recorded, the slot RUNNING, the number written. -/
def barrierPassed (d : BitVec 6) (p : BitVec 32) (t : State) : State :=
  let u := ((t.refreshData t.cur).mapRun t.cur (fun r => { r with bar := none })).setRunState .running
  u.setHart (u.hart.ws d (p.zeroExtend 64)).retire

/-- A state that has the slots, the running records and the copies of a quiet one. -/
structure SameTasks (s b : State) : Prop where
  cur : b.cur = s.cur
  slots : b.slots = s.slots
  running : b.running = s.running
  copies : b.copies = []

section
variable {s b : State} (hb : SameTasks s b) {run : RunTask} (hrun : s.runOf s.cur = some run)
  (hstate : (s.slot s.cur).state = .running ∨ (s.slot s.cur).state = .waiting)
include hb hrun hstate

/-- A new record for the running task and a new STATE, on a state that has a quiet one's slots and records. -/
theorem setRunState_mapRun (f : RunTask → RunTask) (hkey : ∀ r, (f r).ctx = r.ctx ∧ (f r).rc = r.rc) (st : SlotState) :
    let u := (b.mapRun b.cur f).setRunState st
    u.cur = s.cur ∧ { u with slots := s.slots, running := s.running } = b ∧ u.slot s.cur = { s.slot s.cur with state := st } ∧
    u.runOf s.cur = some (f run) := by
  obtain ⟨hcur, hslots, hrunning, -⟩ := hb
  have hslot : (b.mapRun b.cur f).slot b.cur = s.slot s.cur := by
    rw [State.slot, State.slot, ← hslots, ← hcur]
    rfl
  have hu : (b.mapRun b.cur f).setRunState st = (b.mapRun b.cur f).setSlot b.cur { s.slot s.cur with state := st } := by
    rw [← hslot]
    exact setRunState_of_live (by rw [show (b.mapRun b.cur f).cur = b.cur from rfl, hslot]; exact hstate) st
  have hself : ((b.mapRun b.cur f).setSlot b.cur { s.slot s.cur with state := st }).slot s.cur = { s.slot s.cur with state := st } := by
    rw [← hcur, State.slot_setSlot_same]
  have hbrun : b.runOf b.cur = some run := by
    rw [hcur, ← hrun]
    exact runOf_congr hrunning (by rw [State.slot, State.slot, hslots]) (by rw [State.slot, State.slot, hslots])
  rw [hu]
  refine ⟨hcur, ?_, hself, ?_⟩
  · rw [← hslots, ← hrunning]
    rfl
  · rw [← runOf_mapRun hbrun hkey, hcur]
    have hslot' : (b.mapRun s.cur f).slot s.cur = s.slot s.cur := hcur ▸ hslot
    rw [hcur] at hself
    exact runOf_congr rfl (by rw [hself, hslot']) (by rw [hself, hslot'])

theorem barrierPassed_outcome (d : BitVec 6) (p : BitVec 32) :
    let t := barrierPassed d p b
    { t with slots := s.slots, running := s.running } = b ∧
    (∀ q, t.hart.rs q = if q = d ∧ d ≠ 0 then p.zeroExtend 64 else s.hart.rs q) ∧ t.hart = { goTo s.hart (s.hart.pc + 4) with s := t.hart.s } ∧
    (t.slot s.cur).state = .running ∧ t.runOf s.cur = some { run with bar := none } := by
  have hdata : b.refreshData b.cur = b := Memory.refreshData_nil b b.cur hb.copies
  obtain ⟨hcur, hframe, hslot, hrun'⟩ := setRunState_mapRun hb hrun hstate (fun r => { r with bar := none }) (fun _ => ⟨rfl, rfl⟩) .running
  intro t
  have ht : t = _ := congrArg (fun u : State =>
    let w := (u.mapRun u.cur (fun r => { r with bar := none })).setRunState .running
    w.setHart (w.hart.ws d (p.zeroExtend 64)).retire) hdata
  simp only at ht
  generalize (b.mapRun b.cur (fun r => { r with bar := none })).setRunState .running = u at hcur hframe hslot hrun' ht
  have hhart : u.hart = s.hart := by
    rw [State.hart, hcur, hslot]
    rfl
  obtain ⟨hrs, hrest⟩ := hart_writeRetire s.hart d (p.zeroExtend 64)
  rw [hhart] at ht
  have hthart : t.hart = (s.hart.ws d (p.zeroExtend 64)).retire := by rw [ht, State.hart_setHart]
  have htslot : t.slot s.cur = { u.slot s.cur with hart := (s.hart.ws d (p.zeroExtend 64)).retire } := by
    rw [ht, ← hcur, State.slot_setHart]
  refine ⟨?_, by rw [hthart]; exact hrs, by rw [hthart]; exact hrest, by rw [htslot, hslot], ?_⟩
  · rw [ht]
    exact hframe
  · rw [← hrun']
    refine runOf_congr (by rw [ht]; rfl) (by rw [htslot]) ?_
    rw [htslot, hslot, hrest]
    rfl

end

end Sys2Proof.Proofs
end

section
/-! O21. The clauses of GBAR, and the statement. -/

namespace Sys2Proof.Proofs
open Sys2Proof Sys2Proof.Machine Sys2Proof.Spec

section
variable {x : ArgsD} {s : State} {run : RunTask} (hq : Quiet s = true) (hrun : s.runOf s.cur = some run)
include hq hrun

/-! ## What GBAR does (R67, R68) -/

/-- A GBAR that has arrived before: it waits while the phase of its arrival is the group's, and ends once it is past. -/
theorem execGbar_of_arrived {g : Nat} {p : BitVec 32} (hbar : run.bar = some (g, p)) :
    execGbar x s = .next (if (s.group s.ctxid g).map (·.phase) = some p then s.setRunState .waiting else barrierPassed x.d p s) := by
  rw [execGbar, issue_wf _ _ _ rfl, readScalars_full _ _ _ (quiet_allFull hq), destFree_full _ _ _ (quiet_allFull hq)]
  simp only [hrun, Option.bind_some, hbar]
  split <;> rfl

theorem execGbar_of_no_group (hbar : run.bar = none) (h : 254 < (s.hart.rs x.a).toNat ∨ s.group s.ctxid (s.hart.rs x.a).toNat = none) :
    execGbar x s = (Res.trap 0x01 0 (s.hart.rs x.a) 0 s).out := by
  have hnone : (if (s.hart.rs x.a).toNat > 254 then none else s.group s.ctxid (s.hart.rs x.a).toNat) = none := by
    split
    · rfl
    · exact h.resolve_left ‹_›
  rw [execGbar, issue_wf _ _ _ rfl, readScalars_full _ _ _ (quiet_allFull hq), destFree_full _ _ _ (quiet_allFull hq)]
  simp only [hrun, Option.bind_some, hbar, hnone]

section
variable (hbar : run.bar = none) (hv : (s.hart.rs x.a).toNat ≤ 254) {g : Group} (hg : s.group s.ctxid (s.hart.rs x.a).toNat = some g)
include hbar hv hg

theorem execGbar_of_stranger (hm : g.members.contains s.hart.taskid = false) :
    execGbar x s = (Res.trap 0x01 0 (s.hart.rs x.a) 0 s).out := by
  have hgroup : (if (s.hart.rs x.a).toNat > 254 then none else s.group s.ctxid (s.hart.rs x.a).toNat) = some g :=
    (if_neg (by omega)).trans hg
  rw [execGbar, issue_wf _ _ _ rfl, readScalars_full _ _ _ (quiet_allFull hq), destFree_full _ _ _ (quiet_allFull hq)]
  simp only [hrun, Option.bind_some, hbar, hgroup, hm, Bool.not_false, if_true]

/-- A member's arrival: the last one passes at once, another waits. -/
theorem execGbar_of_member (hm : g.members.contains s.hart.taskid = true) : execGbar x s = .next
    (let t := s.setGroup s.ctxid (s.hart.rs x.a).toNat { g with arrived := g.arrived + 1 }
     if g.arrived + 1 + g.ended = g.members.length then barrierPassed x.d g.phase (t.checkPhase s.ctxid (s.hart.rs x.a).toNat)
     else (t.mapRun t.cur (fun r => { r with bar := some ((s.hart.rs x.a).toNat, g.phase) })).setRunState .waiting) := by
  have hgroup : (if (s.hart.rs x.a).toNat > 254 then none else s.group s.ctxid (s.hart.rs x.a).toNat) = some g :=
    (if_neg (by omega)).trans hg
  rw [execGbar, issue_wf _ _ _ rfl, readScalars_full _ _ _ (quiet_allFull hq), destFree_full _ _ _ (quiet_allFull hq)]
  simp only [hrun, Option.bind_some, hbar, hgroup, hm, Bool.not_true, Bool.false_eq_true, if_false, drained_ready _ _ (quiet_inflight hq),
    quiet_fenceDevice hq]
  split <;> rfl

end
end

/-! ## The tasks that a closed phase leaves -/

theorem sameTasks_refl {s : State} (hq : Quiet s = true) : SameTasks s s := ⟨rfl, rfl, rfl, quiet_copies hq⟩

theorem sameTasks_setGroup {s : State} (hq : Quiet s = true) (c : BitVec 6) (g : Nat) (y : Group) : SameTasks s (s.setGroup c g y) :=
  ⟨rfl, rfl, rfl, quiet_copies hq⟩

theorem sameTasks_closeHolds {s : State} (hq : Quiet s = true) (c : BitVec 6) (g : Nat) (p : BitVec 32) (l : SMap Group) :
    SameTasks s { s.closeHolds c g p with groups := l } := by
  have h : ({ s.closeHolds c g p with hbm := s.hbm, cis := s.cis, host := s.host, holds := s.holds } : State) = s := sameButMemory_closeHolds s c g p
  have hcur := congrArg State.cur h
  have hslots := congrArg State.slots h
  have hrunning := congrArg State.running h
  have hcopies := congrArg State.copies h
  exact ⟨hcur, hslots, hrunning, hcopies.trans (quiet_copies hq)⟩

theorem groups_closeHolds (s : State) (c : BitVec 6) (g : Nat) (p : BitVec 32) : (s.closeHolds c g p).groups = s.groups := by
  have h : ({ s.closeHolds c g p with hbm := s.hbm, cis := s.cis, host := s.host, holds := s.holds } : State) = s := sameButMemory_closeHolds s c g p
  have hgroups := congrArg State.groups h
  exact hgroups

theorem group_congr {s t : State} (h : t.groups = s.groups) (c : BitVec 6) (g : Nat) : t.group c g = s.group c g := by
  rw [State.group, State.group, h]

/-! ## The clauses of GBAR -/

section
variable {x : ArgsD} {s : State} {run : RunTask} (hq : Quiet s = true) (hrun : s.runOf s.cur = some run)
  (hstate : (s.slot s.cur).state = .running ∨ (s.slot s.cur).state = .waiting)
include hq hrun hstate

/-- The arrival of a member that is not the last. -/
theorem gbar_waits (hbar : run.bar = none) (hv : (s.hart.rs x.a).toNat ≤ 254) {g : Group}
    (hg : s.group s.ctxid (s.hart.rs x.a).toNat = some g) (hm : g.members.contains s.hart.taskid = true)
    (hmore : g.arrived + 1 + g.ended ≠ g.members.length) :
    ∃ t, exec (.gbar x) s = .next t ∧ t.hart = s.hart ∧ (t.slot s.cur).state = .waiting ∧
      t.group s.ctxid (s.hart.rs x.a).toNat = some { g with arrived := g.arrived + 1 } ∧
      t.runOf s.cur = some { run with bar := some ((s.hart.rs x.a).toNat, g.phase) } ∧
      { t with slots := s.slots, groups := s.groups, running := s.running } = s := by
  have hexec := execGbar_of_member hq hrun hbar hv hg hm
  rw [if_neg hmore] at hexec
  obtain ⟨hcur, hframe, hslot, hrec⟩ := setRunState_mapRun
    (sameTasks_setGroup hq s.ctxid (s.hart.rs x.a).toNat { g with arrived := g.arrived + 1 }) hrun hstate
    (fun r => { r with bar := some ((s.hart.rs x.a).toNat, g.phase) }) (fun _ => ⟨rfl, rfl⟩) .waiting
  refine ⟨_, hexec, ?_, by rw [hslot], ?_, hrec, ?_⟩
  · rw [State.hart, hcur, hslot]
    rfl
  · have hgroups := congrArg State.groups hframe
    rw [← group_setGroup s s.ctxid (s.hart.rs x.a).toNat { g with arrived := g.arrived + 1 }]
    exact group_congr hgroups _ _
  · have h := congrArg (fun u : State => { u with groups := s.groups }) hframe
    exact h

/-- The arrival that completes the phase. -/
theorem gbar_completes (hbar : run.bar = none) (hv : (s.hart.rs x.a).toNat ≤ 254) {g : Group}
    (hg : s.group s.ctxid (s.hart.rs x.a).toNat = some g) (hm : g.members.contains s.hart.taskid = true)
    (hlast : g.arrived + 1 + g.ended = g.members.length) :
    ∃ t, exec (.gbar x) s = .next t ∧
      ((∀ q, t.hart.rs q = if q = x.d ∧ x.d ≠ 0 then g.phase.zeroExtend 64 else s.hart.rs q) ∧
        t.hart = { goTo s.hart (s.hart.pc + 4) with s := t.hart.s } ∧ (t.slot s.cur).state = .running ∧
        t.runOf s.cur = some { run with bar := none }) ∧
      t.group s.ctxid (s.hart.rs x.a).toNat = some { g with arrived := 0, phase := g.phase + 1 } ∧
      { t with slots := s.slots, groups := s.groups, running := s.running } = s.closeHolds s.ctxid (s.hart.rs x.a).toNat g.phase := by
  have hexec := execGbar_of_member hq hrun hbar hv hg hm
  rw [if_pos hlast] at hexec
  obtain ⟨⟨l, hl⟩, hgroup⟩ := checkPhase_of_last_arrival (s := s) (c := s.ctxid) (v := (s.hart.rs x.a).toNat) hlast
  rw [hl] at hexec hgroup
  obtain ⟨hframe, hrs, hrest, hrunning, hrec⟩ := barrierPassed_outcome
    (sameTasks_closeHolds hq s.ctxid (s.hart.rs x.a).toNat g.phase l) hrun hstate x.d g.phase
  refine ⟨_, hexec, ⟨hrs, hrest, hrunning, hrec⟩, ?_, ?_⟩
  · have hgroups := congrArg State.groups hframe
    rw [← hgroup]
    exact group_congr hgroups _ _
  · have h := congrArg (fun u : State => { u with groups := (s.closeHolds s.ctxid (s.hart.rs x.a).toNat g.phase).groups }) hframe
    rw [← groups_closeHolds s s.ctxid (s.hart.rs x.a).toNat g.phase]
    exact h

end

/-- GBAR of a group that is none, or that the task is no member of. -/
theorem gbar_traps {x : ArgsD} {s : State} {run : RunTask} (hq : Quiet s = true) (hrun : s.runOf s.cur = some run) (hbar : run.bar = none)
    (htlvl : s.hart.tlvl.toNat < 2) (hbad : 254 < (s.hart.rs x.a).toNat ∨ s.group s.ctxid (s.hart.rs x.a).toNat = none ∨
      ∃ g, s.group s.ctxid (s.hart.rs x.a).toNat = some g ∧ g.members.contains s.hart.taskid = false) :
    ∃ t, exec (.gbar x) s = .next t ∧ TrapOutcome s t 0x01 0 (s.hart.rs x.a) 0 := by
  have hexec : exec (.gbar x) s = (Res.trap 0x01 0 (s.hart.rs x.a) 0 s).out := by
    rcases Nat.lt_or_ge 254 (s.hart.rs x.a).toNat with hv | hv
    · exact execGbar_of_no_group hq hrun hbar (.inl hv)
    · rcases hbad with h | h | ⟨g, hg, hm⟩
      · omega
      · exact execGbar_of_no_group hq hrun hbar (.inr h)
      · exact execGbar_of_stranger hq hrun hbar hv hg hm
  rw [hexec]
  exact trapOutcome_of_trap htlvl 0x01 0 (s.hart.rs x.a) 0

/-- Settles O21: TASKQ by `taskq_submits`, HWMPUB by `hwmpub_publishes`, GBAR case by case. -/
theorem taskSubmission : Obligations.TaskSubmission := by
  unfold Obligations.TaskSubmission
  refine ⟨fun x s loc dev hq hl ha hc => ?_, fun x s hq => ?_, fun x s run hq hrun hstate => ?_⟩
  · obtain ⟨t, hexec, hother, hrs, hhart, hfail, hok⟩ := taskq_submits hq hl ha hc
    refine ⟨t, hexec, hother, hrs, hhart, hfail, fun h0 => ?_⟩
    have ht := hok h0
    have hheld := congrArg State.held ht
    have hcredits := congrArg State.credits ht
    have hmarks := congrArg State.marks ht
    refine ⟨?_, hheld, hcredits, fun hs => hmarks.trans ?_, fun hs => ?_⟩
    · have hframe := congrArg (fun u : State => { u with held := s.held, credits := s.credits, marks := s.marks }) ht
      exact hframe
    · simp only [accepted, sourceMarks, hs, noTask, bne_self_eq_false, Bool.false_eq_true, if_false]
    · exact (markOf_congr hmarks _ _).trans (markOf_accepted hs)
  · obtain ⟨t, hexec, hframe, hother, hhart, hmarks⟩ := hwmpub_publishes x hq rfl
    refine ⟨t, hexec, hframe, hother, hhart, ?_⟩
    have hpub := marks_publish s (BitVec.ofNat 32 (min (s.hart.rs x.a).toNat (2 ^ 32 - 1)))
    cases hm : s.markOf s.ctxid s.hart.taskid with
    | some m =>
      rw [hm] at hpub
      simp only [hmarks, markOf_congr hmarks]
      exact hpub
    | none =>
      rw [hm] at hpub
      exact hmarks.trans hpub
  · refine ⟨fun g hbar hv hg hm => ⟨gbar_waits hq hrun hstate hbar hv hg hm, gbar_completes hq hrun hstate hbar hv hg hm⟩,
      fun g p hbar => ⟨fun hpast => ?_, fun hwait => ?_⟩, fun hbar htlvl hbad => gbar_traps hq hrun hbar htlvl hbad⟩
    · have hexec := execGbar_of_arrived (x := x) hq hrun hbar
      rw [if_neg hpast] at hexec
      obtain ⟨hframe, hrs, hrest, hrunning, hrec⟩ := barrierPassed_outcome (sameTasks_refl hq) hrun hstate x.d p
      exact ⟨_, hexec, ⟨hrs, hrest, hrunning, hrec⟩, hframe⟩
    · have hexec := execGbar_of_arrived (x := x) hq hrun hbar
      rw [if_pos hwait, setRunState_of_live hstate] at hexec
      refine ⟨_, hexec, ?_, rfl⟩
      have hhart := congrArg Slot.hart (s.slot_setSlot_same s.cur { s.slot s.cur with state := .waiting })
      exact hhart

end Sys2Proof.Proofs
end

section
/-! O44. SETVL on a hart that nothing makes wait, and the instructions that wait or give way. -/

namespace Sys2Proof.Proofs
open Sys2Proof Sys2Proof.Machine Sys2Proof.Spec

/-! ## A ready hart -/

theorem ready_allFull {s : State} (h : Ready s = true) : s.hart.allFull = true := ((ready_iff s).mp h).1

theorem ready_late {s : State} (h : Ready s = true) : s.sched.late = false := by
  obtain ⟨-, -, -, -, -, -, -, hlate, -⟩ := (ready_iff s).mp h
  exact hlate

theorem ready_copies {s : State} (h : Ready s = true) : s.copies = [] := by
  obtain ⟨-, -, -, -, -, -, -, -, -, -, -, -, hc⟩ := (ready_iff s).mp h
  exact hc

/-! ## What SETVL grants (R72, R96) -/

theorem taskKnown_iff (s : State) (c : BitVec 6) (id : BitVec 32) : s.taskKnown c id = true ↔
    (∃ y ∈ s.held, y.ctx = c ∧ y.rc.id = id) ∨ ∃ y ∈ s.running, y.ctx = c ∧ y.rc.id = id := by
  simp [State.taskKnown]

theorem grant_of_unchained {s : State} {n : Nat} (h : s.hart.hwsrc.truncate 32 = noTask ∨ n = 0) : grant s n = some n := if_pos h

section
variable {s : State} {n : Nat} (hp : s.hart.hwsrc.truncate 32 ≠ noTask) (hn : n ≠ 0)
include hp hn

theorem grant_of_unknown (hm : s.markOf s.ctxid (s.hart.hwsrc.truncate 32) = none)
    (hk : s.taskKnown s.ctxid (s.hart.hwsrc.truncate 32) = false) : grant s n = some n := by
  simp only [grant, hp, hn, or_self, ↓reduceIte, hm, hk, Option.isNone_none, Bool.not_false, Bool.and_self]

theorem grant_of_ended {m : MarkEntry} (hm : s.markOf s.ctxid (s.hart.hwsrc.truncate 32) = some m) (he : m.ended = true) :
    grant s n = some (min n (m.mark.toNat - (s.hart.hwsrc.extractLsb' 32 32).toNat)) := by
  simp only [grant, hp, hn, or_self, ↓reduceIte, hm, he, Option.isNone_some, Bool.false_and, Bool.false_eq_true, Option.map_some,
    Option.getD_some]

/-- While the producer runs, `avail` is what it has published beyond POS. -/
theorem grant_of_running {avail : Nat}
    (h : (s.markOf s.ctxid (s.hart.hwsrc.truncate 32) = none ∧ s.taskKnown s.ctxid (s.hart.hwsrc.truncate 32) = true ∧ avail = 0) ∨
      ∃ m, s.markOf s.ctxid (s.hart.hwsrc.truncate 32) = some m ∧ m.ended = false ∧
        avail = m.mark.toNat - (s.hart.hwsrc.extractLsb' 32 32).toNat) :
    grant s n = if detmSeen s = true then (if n ≤ avail then some n else none) else if 0 < avail then some (min n avail) else none := by
  rw [← detm_eq_detmSeen]
  obtain ⟨hm, hk, rfl⟩ | ⟨m, hm, he, rfl⟩ := h
  · cases hd : s.detm <;> simp [grant, hp, hn, hm, hk, hd]
  · cases hd : s.detm <;> simp [grant, hp, hn, hm, he, hd]

end

/-! ## SETVL -/

/-- HWSRC with POS raised by g (R96). -/
theorem raised_hwsrc (v : Word) (g : Nat) : (v.extractLsb' 32 32 + BitVec.ofNat 32 g) ++ (v.truncate 32 : BitVec 32) =
    BitVec.ofNat 64 ((v.truncate 32 : BitVec 32).toNat + 2 ^ 32 * ((v.extractLsb' 32 32).toNat + g)) := by
  have hlt := (v.truncate 32 : BitVec 32).isLt
  apply BitVec.eq_of_toNat_eq
  rw [BitVec.toNat_append, ← Nat.shiftLeft_add_eq_or_of_lt hlt, Nat.shiftLeft_eq, BitVec.toNat_add, BitVec.toNat_ofNat, BitVec.toNat_ofNat]
  omega

/-- From s to t a SETVL that writes s[d] grants g and leaves `hw` in HWSRC. -/
def LengthGranted (s t : State) (d : BitVec 6) (g : Nat) (hw : Word) : Prop :=
  OnlyHart s t ∧ (∀ r, t.hart.rs r = if r = d ∧ d ≠ 0 then BitVec.ofNat 64 g else s.hart.rs r) ∧
  t.hart = { goTo s.hart (s.hart.pc + 4) with s := t.hart.s, vl := BitVec.ofNat 11 g, hwsrc := hw }

theorem lengthGranted_setHart (s : State) (d : BitVec 6) (g : Nat) (hw : Word) :
    let h := { s.hart with vl := BitVec.ofNat 11 g, hwsrc := hw }
    LengthGranted s (((s.setHart s.hart).setHart h).setHart (h.ws d (BitVec.ofNat 64 g)).retire) d g hw := by
  intro h
  obtain ⟨hrs, hrest⟩ := hart_writeRetire h d (BitVec.ofNat 64 g)
  refine ⟨onlyHart_trans (onlyHart_trans (onlyHart_setHart _ _) (onlyHart_setHart _ _)) (onlyHart_setHart _ _), ?_, ?_⟩
  · rw [State.hart_setHart]
    exact hrs
  · rw [State.hart_setHart]
    exact hrest

section
variable {x : ArgsD} {s : State} (hr : Ready s = true) (hrun : (s.slot s.cur).state = .running)
include hr hrun

theorem setvl_of_no_grant (h : grant s (min (s.hart.rs x.a).toNat s.myTile.vlmax) = none) :
    exec (.setvl x) s = .next (s.setSlot s.cur { s.slot s.cur with state := .waiting }) := by
  have hf := ready_allFull hr
  show execSetvl x s = _
  rw [execSetvl, issue_wf _ _ _ rfl, readScalars_full _ _ _ hf, destFree_full _ _ _ hf]
  simp only [h, Res.out_wait, setRunState_of_live (.inl hrun)]

theorem setvl_of_grant {g : Nat} {hw : Word} (h : grant s (min (s.hart.rs x.a).toNat s.myTile.vlmax) = some g)
    (hhw : hw = if advances s (min (s.hart.rs x.a).toNat s.myTile.vlmax) = true then
      (s.hart.hwsrc.extractLsb' 32 32 + BitVec.ofNat 32 g) ++ (s.hart.hwsrc.truncate 32 : BitVec 32) else s.hart.hwsrc) :
    ∃ t, exec (.setvl x) s = .next t ∧ LengthGranted s t x.d g hw := by
  have hf := ready_allFull hr
  have hself : s.setRunState .running = s.setHart s.hart := by
    rw [setRunState_of_live (.inl hrun), ← hrun]
    rfl
  refine ⟨_, ?_, lengthGranted_setHart s x.d g hw⟩
  show execSetvl x s = _
  rw [execSetvl, issue_wf _ _ _ rfl, readScalars_full _ _ _ hf, destFree_full _ _ _ hf]
  simp only [h, Memory.refreshData_nil s _ (ready_copies hr), ite_self, hself, State.hart_setHart, hhw]
  cases advances s (min (s.hart.rs x.a).toNat s.myTile.vlmax) <;> simp [writeRetire]

end

theorem setvlResult : SetvlResult := by
  intro x s hr hrun n p pos alive out grants
  have hgrant : ∀ g, p ≠ noTask → n ≠ 0 → grant s n = some g → grants g := by
    intro g hp hn hg
    have ha : advances s n = true := by simpa [advances] using ⟨hp, hn⟩
    refine setvl_of_grant hr hrun hg ?_
    rw [if_pos ha]
    exact (raised_hwsrc s.hart.hwsrc g).symm
  refine ⟨fun h => ?_, fun hp hn => ⟨fun hm hk => ?_, fun m hm he => ?_, fun avail ha => ?_⟩⟩
  · have ha : ¬ advances s n = true := by
      simp only [advances, Bool.and_eq_true, bne_iff_ne]
      exact fun ⟨hp, hn⟩ => h.elim hp hn
    exact setvl_of_grant hr hrun (grant_of_unchained h) (if_neg ha).symm
  · have hk' : s.taskKnown s.ctxid p = false := Bool.eq_false_iff.mpr fun h => hk ((taskKnown_iff s _ p).mp h)
    exact hgrant n hp hn (grant_of_unknown hp hn hm hk')
  · exact hgrant _ hp hn (grant_of_ended hp hn hm he)
  · have hknown : s.taskKnown s.ctxid p = true ↔ alive := taskKnown_iff s _ p
    rw [← hknown] at ha
    have hg := grant_of_running hp hn ha
    refine ⟨fun hd h0 => hgrant _ hp hn ?_, fun hd hle => hgrant _ hp hn ?_, fun h => setvl_of_no_grant hr hrun ?_⟩
    · simpa [hd, h0] using hg
    · simpa [hd, hle] using hg
    · obtain ⟨hd, h0⟩ | ⟨hd, hlt⟩ := h
      · simpa [hd, h0] using hg
      · simpa [hd, Nat.not_le.mpr hlt] using hg

/-! ## WAITF, CONVOY, YIELD (R149, R74, R73) -/

theorem waitfFull_eq (x : ArgsW) (h : Hart) : waitfFull x h = match x.b.toNat with
    | 0 => h.sFull x.a | 1 => h.zFE.getLsbD x.a.toNat | 2 => h.mFE.getLsbD x.a.toNat | _ => h.allFull := by
  simp only [waitfFull, BitVec.toNat_eq]
  generalize x.b.toNat = n
  match n with
  | 0 | 1 | 2 => rfl
  | n + 3 => simp

theorem waitf_result (x : ArgsW) (s : State) (hw : (Instr.waitf x).wellFormed = true) :
    exec (.waitf x) s = .next (if waitfFull x s.hart = true then s.setHart (goTo s.hart (s.hart.pc + 4)) else s) := by
  show execWaitf x s = _
  rw [execWaitf, issue_wf _ _ _ hw]
  cases waitfFull x s.hart <;> rfl

theorem convoy_result (s : State) : ∃ t, exec .convoy s = .next t ∧ OnlyHart s t ∧
    t.hart = { goTo s.hart (s.hart.pc + 4) with convoy := s.hart.convoy || detmSeen s } := by
  rw [← detm_eq_detmSeen]
  show ∃ t, execConvoy s = _ ∧ _
  rw [execConvoy, issue_wf _ _ _ rfl]
  cases hd : s.detm with
  | false =>
    refine ⟨_, rfl, onlyHart_setHart _ _, ?_⟩
    simp only [Bool.or_false]
    exact State.hart_setHart _ _
  | true =>
    refine ⟨_, rfl, onlyHart_trans (onlyHart_setHart _ _) (onlyHart_setHart _ _), ?_⟩
    simp only [Bool.or_true, if_pos, State.hart_setHart]
    rfl

theorem yield_result (x : ArgsS) {s : State} (hr : Ready s = true) : ∃ t, exec (.yield x) s = .next t ∧ { t with slots := s.slots } = s ∧
    t.slot s.cur = { s.slot s.cur with yielded := true, hart := goTo s.hart (s.hart.pc + 4) } ∧
    (∀ k, k ≠ s.cur → t.slot k = s.slot k) := by
  have hexec : exec (.yield x) s = (retireOnly (s.setSlot s.cur { s.slot s.cur with yielded := true })).out := by
    show execYield x s = _
    rw [execYield, issue_wf _ _ _ rfl, readScalars_full _ _ _ (ready_allFull hr)]
  have hslot := State.slot_setHart (s.setSlot s.cur { s.slot s.cur with yielded := true })
    (s.setSlot s.cur { s.slot s.cur with yielded := true }).hart.retire
  refine ⟨_, hexec, rfl, ?_, fun k hk => ?_⟩
  · refine hslot.trans ?_
    simp only [State.setSlot_cur, State.slot_setSlot_same, State.hart]
    rfl
  · exact (State.slot_setHart_other (s.setSlot s.cur _) _ hk).trans (State.slot_setSlot_other s _ hk)

theorem yieldReturn_result (k : Nat) (s : State) : ∃ t, exec (.yieldReturn k) s = .next t ∧ { t with slots := s.slots } = s ∧
    t.slot k = { s.slot k with yielded := false } ∧ ∀ j, j ≠ k → t.slot j = s.slot j := by
  show ∃ t, execYieldReturn k s = _ ∧ _
  rw [execYieldReturn]
  cases hy : (s.slot k).yielded with
  | false =>
    refine ⟨s, rfl, rfl, ?_, fun _ _ => rfl⟩
    rw [← hy]
  | true => exact ⟨_, rfl, onlySlot_split (onlySlot_setSlot s k _) |>.imp_right fun h => ⟨h.2, h.1⟩⟩

theorem waitAndYield : WaitAndYield := by
  intro s
  refine ⟨?_, convoy_result s, fun x hr => yield_result x hr, fun k => yieldReturn_result k s⟩
  intro x hw full
  have hfull : waitfFull x s.hart = full := waitfFull_eq x s.hart
  rw [← hfull]
  exact waitf_result x s hw

/-- Settles O44: SETVL by what `grant` answers in each case of the chain, the other four by an equation each. -/
theorem lengthAndWaiting : Obligations.LengthAndWaiting := ⟨setvlResult, waitAndYield⟩

end Sys2Proof.Proofs
end

section
/-! O30. The element-group sequencers: a hart's current instruction, the hart that starts a group, and the end of a producer. -/

namespace Sys2Proof.Proofs
open Sys2Proof Sys2Proof.Machine Sys2Proof.Spec

/-! ## The harts of several slots, each rewritten once -/

section
variable (g : Nat → Hart → Hart) (l : List Nat)

theorem slot_foldl_setHartOf (hl : l.Nodup) (s : State) (j : Nat) :
    (l.foldl (fun st i => st.setHartOf i (g i (st.slot i).hart)) s).slot j =
      if j ∈ l then { s.slot j with hart := g j (s.slot j).hart } else s.slot j := by
  induction l generalizing s with
  | nil => rfl
  | cons i l ih =>
    obtain ⟨hi, hl⟩ := List.nodup_cons.mp hl
    rw [List.foldl_cons, ih hl]
    by_cases hj : j = i
    · subst hj
      rw [if_neg hi, if_pos List.mem_cons_self, State.slot_setHartOf]
    · simp only [State.slot_setHartOf_other _ _ _ hj, List.mem_cons, hj, false_or]

theorem foldl_setHartOf_frame (s : State) :
    { l.foldl (fun st i => st.setHartOf i (g i (st.slot i).hart)) s with slots := s.slots } = s := by
  induction l generalizing s with
  | nil => rfl
  | cons i l ih =>
    exact congrArg (fun t : State => { t with slots := s.slots }) (ih (s.setHartOf i (g i (s.slot i).hart)))

end

/-! ## A hart's current instruction (R88, R104) -/

theorem conflict_iff (i j : Uses) : Uses.conflict i j = true ↔ Meet i j := by
  simp only [Uses.conflict, Meet, Bool.or_eq_true, bne_iff_ne, BitVec.and_or_distrib_left, ne_eq, BitVec.ofNat_eq_ofNat,
    BitVec.or_eq_zero_iff]
  tauto

theorem broadcast_iff (f : Inflight) : f.broadcast = true ↔ EndsByBroadcast f := by
  simp [Inflight.broadcast, EndsByBroadcast]

theorem lets_iff (i j : Inflight) : i.lets j = true ↔ MayBegin i j := by
  simp only [Inflight.lets, MayBegin, ← conflict_iff, ← broadcast_iff, Inflight.starts, Inflight.reached]
  cases Uses.conflict i.uses j.uses with
  | false => simp
  | true =>
    by_cases h : i.uses.spreads = true ∨ j.uses.looks = true
    · cases i.broadcast <;> simp [h, and_assoc]
    · cases i.broadcast <;> simp [h, and_assoc]

/-- The next group of g may begin beside the instructions of `pre`. -/
def begins (pre : List Inflight) (g : Inflight) : Bool := g.starts && pre.all (fun i => i.lets g)

theorem begins_iff (pre : List Inflight) (g : Inflight) : begins pre g = true ↔ g.next < g.vl ∧ ∀ i ∈ pre, MayBegin i g := by
  simp [begins, Inflight.starts, lets_iff]

theorem currentFrom_cons (pre : List Inflight) (f : Inflight) (t : List Inflight) :
    currentFrom pre (f :: t) = if begins pre f = true then some (pre.length, f) else currentFrom (pre ++ [f]) t := rfl

theorem currentFrom_of_first {mid : List Inflight} {f : Inflight} (post : List Inflight) :
    ∀ {pre : List Inflight}, begins (pre ++ mid) f = true → (∀ p g q, mid = p ++ g :: q → begins (pre ++ p) g = false) →
      currentFrom pre (mid ++ f :: post) = some ((pre ++ mid).length, f) := by
  induction mid with
  | nil =>
    intro pre hf _
    rw [List.append_nil] at hf ⊢
    rw [List.nil_append, currentFrom_cons, if_pos hf]
  | cons a mid ih =>
    intro pre hf hmid
    have ha : begins pre a = false := by simpa using hmid [] a mid rfl
    have hassoc (l : List Inflight) : pre ++ a :: l = pre ++ [a] ++ l := by simp
    rw [List.cons_append, currentFrom_cons, if_neg (by rw [ha]; exact Bool.false_ne_true), hassoc mid]
    rw [hassoc mid] at hf
    refine ih hf fun p g q h => ?_
    rw [← hassoc p]
    exact hmid (a :: p) g q (by rw [h]; rfl)

theorem first_of_currentFrom {n : Nat} {f : Inflight} {l : List Inflight} :
    ∀ {pre : List Inflight}, currentFrom pre l = some (n, f) → ∃ mid post, l = mid ++ f :: post ∧ begins (pre ++ mid) f = true ∧
      ∀ p g q, mid = p ++ g :: q → begins (pre ++ p) g = false := by
  induction l with
  | nil => exact fun h => nomatch h
  | cons a t ih =>
    intro pre h
    rw [currentFrom_cons] at h
    by_cases ha : begins pre a = true
    · rw [if_pos ha] at h
      obtain ⟨-, rfl⟩ := Prod.mk.inj (Option.some.inj h)
      exact ⟨[], t, rfl, by rwa [List.append_nil], fun p g q hp => by simp at hp⟩
    · rw [if_neg ha] at h
      obtain ⟨mid, post, rfl, hf, hmid⟩ := ih h
      refine ⟨a :: mid, post, rfl, by simpa using hf, fun p g q hp => ?_⟩
      obtain ⟨rfl, hg⟩ | ⟨p', rfl, hmid'⟩ := List.cons_eq_append_iff.mp hp
      · obtain ⟨rfl, -⟩ := List.cons.inj hg
        rw [List.append_nil]
        exact Bool.eq_false_iff.mpr ha
      · simpa using hmid p' g q hmid'

theorem isCurrent_iff (h : Hart) (pre : List Inflight) (f : Inflight) (post : List Inflight) : IsCurrent h pre f post ↔
    h.inflight = pre ++ f :: post ∧ begins pre f = true ∧ ∀ p g q, pre = p ++ g :: q → begins p g = false := by
  simp only [IsCurrent, begins_iff, ← Bool.not_eq_true, not_and, not_forall, exists_prop, and_assoc]

theorem currentFrom_of_isCurrent {h : Hart} {pre : List Inflight} {f : Inflight} {post : List Inflight} (hc : IsCurrent h pre f post) :
    currentFrom [] h.inflight = some (pre.length, f) := by
  obtain ⟨hl, hf, hpre⟩ := (isCurrent_iff h pre f post).mp hc
  rw [hl]
  exact currentFrom_of_first post hf hpre

theorem current_eq_some_iff (h : Hart) (f : Inflight) : h.current = some f ↔ ∃ pre post, IsCurrent h pre f post := by
  constructor
  · intro hc
    obtain ⟨⟨n, g⟩, hn, rfl⟩ := Option.map_eq_some_iff.mp hc
    obtain ⟨pre, post, hl, hf, hpre⟩ := first_of_currentFrom hn
    exact ⟨pre, post, (isCurrent_iff h pre g post).mpr ⟨hl, hf, hpre⟩⟩
  · rintro ⟨pre, post, hc⟩
    rw [Hart.current, currentFrom_of_isCurrent hc]
    rfl

/-! ## The hart that starts a group (R104) -/

theorem sequencerSlots_eq (s : State) (tile : Nat) (core : Bool) : sequencerSlots s tile core = servedSlots s tile core := by
  unfold sequencerSlots servedSlots
  cases (s.tile tile).split <;> cases core <;> rfl

theorem sequencerSlots_pairwise (s : State) (tile : Nat) (core : Bool) : (sequencerSlots s tile core).Pairwise (· < ·) := by
  unfold sequencerSlots
  split <;> exact List.pairwise_map.mpr (List.pairwise_lt_range.imp fun h => Nat.add_lt_add_left h _)

/-- The slots with a current instruction, each with it. -/
def candidates (s : State) (ks : List Nat) : List (Nat × Inflight) :=
  ks.filterMap (fun k => ((s.slot k).hart.current).map (fun f => (k, f)))

/-- Has the candidate been passed over 256 times? -/
def aged (s : State) (c : Nat × Inflight) : Bool := decide (256 ≤ (s.slot c.1).hart.passed)

/-- The earlier choice, unless the new candidate has less work left. -/
def lessWork : Option (Nat × Inflight) → Nat × Inflight → Option (Nat × Inflight)
  | none, c => some c
  | some b, c => if c.2.rem < b.2.rem then some c else some b

theorem chooseHart_eq (s : State) (ks : List Nat) :
    chooseHart s ks = ((candidates s ks).find? (aged s)).or ((candidates s ks).foldl lessWork none) := by
  have hless : lessWork = fun acc c => match acc with
      | none => some c
      | some b => if c.2.rem < b.2.rem then some c else some b := by
    funext acc c
    cases acc <;> rfl
  rw [hless]
  show (match (candidates s ks).find? (aged s) with | some c => some c | none => _) = _
  cases (candidates s ks).find? (aged s) <;> rfl

theorem mem_candidates {s : State} {ks : List Nat} {c : Nat × Inflight} :
    c ∈ candidates s ks ↔ c.1 ∈ ks ∧ (s.slot c.1).hart.current = some c.2 := by
  obtain ⟨k, f⟩ := c
  simp only [candidates, List.mem_filterMap, Option.map_eq_some_iff, Prod.mk.injEq]
  constructor
  · rintro ⟨j, hj, g, hg, rfl, rfl⟩
    exact ⟨hj, hg⟩
  · rintro ⟨hk, hf⟩
    exact ⟨k, hk, f, hf, rfl, rfl⟩

theorem candidates_pairwise {s : State} {ks : List Nat} (h : ks.Pairwise (· < ·)) : (candidates s ks).Pairwise (fun b c => b.1 < c.1) := by
  refine h.filterMap _ fun i j hij b hb c hc => ?_
  obtain ⟨-, -, rfl⟩ := Option.map_eq_some_iff.mp hb
  obtain ⟨-, -, rfl⟩ := Option.map_eq_some_iff.mp hc
  exact hij

theorem foldl_lessWork_keeps {c : Nat × Inflight} {l : List (Nat × Inflight)} (h : ∀ b ∈ l, c.2.rem ≤ b.2.rem) :
    l.foldl lessWork (some c) = some c := by
  induction l with
  | nil => rfl
  | cons b l ih =>
    have hb : lessWork (some c) b = some c := if_neg (Nat.not_lt.mpr (h b List.mem_cons_self))
    rw [List.foldl_cons, hb]
    exact ih fun d hd => h d (List.mem_cons_of_mem b hd)

theorem foldl_lessWork_of_least {c : Nat × Inflight} {l₁ l₂ : List (Nat × Inflight)} (h₁ : ∀ b ∈ l₁, c.2.rem < b.2.rem)
    (h₂ : ∀ b ∈ l₂, c.2.rem ≤ b.2.rem) : ∀ acc : Option (Nat × Inflight), (∀ b ∈ acc, c.2.rem < b.2.rem) →
      (l₁ ++ c :: l₂).foldl lessWork acc = some c := by
  induction l₁ with
  | nil =>
    intro acc hacc
    have hc : lessWork acc c = some c := by
      cases acc with
      | none => rfl
      | some b => exact if_pos (hacc b rfl)
    rw [List.nil_append, List.foldl_cons, hc]
    exact foldl_lessWork_keeps h₂
  | cons a l₁ ih =>
    intro acc hacc
    refine ih (fun b hb => h₁ b (List.mem_cons_of_mem a hb)) (lessWork acc a) fun b hb => ?_
    have hmem : b = a ∨ b ∈ acc := by
      cases acc with
      | none => exact .inl (Option.some.inj hb).symm
      | some d =>
        rw [lessWork] at hb
        split at hb
        · exact .inl (Option.some.inj hb).symm
        · exact .inr hb
    rcases hmem with rfl | hb
    · exact h₁ b List.mem_cons_self
    · exact hacc b hb

section
variable {s : State} {ks : List Nat} (hks : ks.Pairwise (· < ·)) {k : Nat} {f : Inflight} (hk : k ∈ ks)
  (hf : (s.slot k).hart.current = some f)
include hks hk hf

/-- A candidate parts the list of them into those of lower and those of higher slots. -/
theorem candidates_split : ∃ l₁ l₂, candidates s ks = l₁ ++ (k, f) :: l₂ ∧ (∀ b ∈ l₁, b ∈ candidates s ks ∧ b.1 < k) ∧
    ∀ b ∈ l₂, b ∈ candidates s ks := by
  obtain ⟨l₁, l₂, h⟩ := List.append_of_mem (mem_candidates (c := (k, f)) |>.mpr ⟨hk, hf⟩)
  have hp := candidates_pairwise (s := s) hks
  rw [h] at hp ⊢
  refine ⟨l₁, l₂, rfl, fun b hb => ⟨List.mem_append_left _ hb, ?_⟩, fun b hb => List.mem_append_right _ (List.mem_cons_of_mem _ hb)⟩
  exact (List.pairwise_append.mp hp).2.2 b hb (k, f) List.mem_cons_self

theorem chooseHart_of_aged (hage : 256 ≤ (s.slot k).hart.passed)
    (hlow : ∀ j ∈ ks, j < k → (s.slot j).hart.current.isSome = true → (s.slot j).hart.passed < 256) : chooseHart s ks = some (k, f) := by
  obtain ⟨l₁, l₂, h, hl₁, -⟩ := candidates_split hks hk hf
  have hfind : (candidates s ks).find? (aged s) = some (k, f) := by
    rw [List.find?_eq_some_iff_append]
    refine ⟨decide_eq_true hage, l₁, l₂, h, fun b hb => ?_⟩
    obtain ⟨hmem, hlt⟩ := hl₁ b hb
    obtain ⟨hj, hcur⟩ := mem_candidates.mp hmem
    have := hlow b.1 hj hlt (by rw [hcur]; rfl)
    simpa [aged] using this
  rw [chooseHart_eq, hfind]
  rfl

theorem chooseHart_of_least (hage : ∀ j ∈ ks, (s.slot j).hart.current.isSome = true → (s.slot j).hart.passed < 256)
    (hleast : ∀ j g, j ∈ ks → (s.slot j).hart.current = some g → f.rem ≤ g.rem ∧ (j < k → f.rem < g.rem)) :
    chooseHart s ks = some (k, f) := by
  obtain ⟨l₁, l₂, h, hl₁, hl₂⟩ := candidates_split hks hk hf
  have hfind : (candidates s ks).find? (aged s) = none := by
    rw [List.find?_eq_none]
    intro b hb
    obtain ⟨hj, hcur⟩ := mem_candidates.mp hb
    have := hage b.1 hj (by rw [hcur]; rfl)
    simpa [aged] using this
  rw [chooseHart_eq, hfind, Option.none_or, h]
  refine foldl_lessWork_of_least (fun b hb => ?_) (fun b hb => ?_) none (fun b hb => nomatch hb)
  · obtain ⟨hmem, hlt⟩ := hl₁ b hb
    obtain ⟨hj, hcur⟩ := mem_candidates.mp hmem
    exact (hleast b.1 b.2 hj hcur).2 hlt
  · obtain ⟨hj, hcur⟩ := mem_candidates.mp (hl₂ b hb)
    exact (hleast b.1 b.2 hj hcur).1

end

theorem chooseHart_of_none {s : State} {ks : List Nat} (h : ∀ k ∈ ks, (s.slot k).hart.current = none) : chooseHart s ks = none := by
  have hc : candidates s ks = [] := by
    rw [List.eq_nil_iff_forall_not_mem]
    intro c hc
    obtain ⟨hk, hf⟩ := mem_candidates.mp hc
    rw [h c.1 hk] at hf
    exact nomatch hf
  rw [chooseHart_eq, hc]
  rfl

/-! ## ELEMENT_GROUP (R104) -/

/-- The instruction f with its next group started. -/
def groupStarted (f : Inflight) : Inflight := { f with next := min f.vl ((f.next / 64 + 1) * 64) }

theorem groupStarted_ends_iff (f : Inflight) :
    (!(groupStarted f).starts && (groupStarted f).scalars == 0 && (groupStarted f).slices == 0 && !(groupStarted f).broadcast) = true ↔
      (groupStarted f).next = (groupStarted f).vl ∧ (groupStarted f).scalars = 0 ∧ (groupStarted f).slices = 0 ∧
        ((groupStarted f).matrix = false ∨ (groupStarted f).uses.dsts ≠ 0) := by
  have hle : (groupStarted f).next ≤ (groupStarted f).vl := Nat.min_le_left _ _
  simp only [Inflight.starts, Inflight.broadcast, Bool.and_eq_true, Bool.not_eq_true', decide_eq_false_iff_not, beq_iff_eq,
    Bool.and_eq_false_iff, beq_eq_false_iff_ne, and_assoc, Nat.not_lt]
  rw [show (groupStarted f).vl ≤ (groupStarted f).next ↔ (groupStarted f).next = (groupStarted f).vl by omega]

theorem startGroup_of_isCurrent {h : Hart} {pre : List Inflight} {f : Inflight} {post : List Inflight} (hc : IsCurrent h pre f post) :
    let g := groupStarted f
    startGroup h = { h with
      inflight := pre ++ (if g.next = g.vl ∧ g.scalars = 0 ∧ g.slices = 0 ∧ (g.matrix = false ∨ g.uses.dsts ≠ 0) then post else g :: post)
      passed := 0 } := by
  intro g
  have hl : h.inflight = pre ++ f :: post := hc.1
  have hlist : (if (!g.starts && g.scalars == 0 && g.slices == 0 && !g.broadcast) = true then h.inflight.eraseIdx pre.length
      else h.inflight.set pre.length g) =
      pre ++ (if g.next = g.vl ∧ g.scalars = 0 ∧ g.slices = 0 ∧ (g.matrix = false ∨ g.uses.dsts ≠ 0) then post else g :: post) := by
    rw [if_congr (groupStarted_ends_iff f) rfl rfl, hl, List.eraseIdx_append_of_length_le le_rfl, List.set_append_right _ _ le_rfl,
      Nat.sub_self]
    split <;> rfl
  rw [startGroup, currentFrom_of_isCurrent hc]
  exact congrArg (fun l => { h with inflight := l, passed := 0 }) hlist

/-- The hart of slot j once the sequencer has started a group of the hart of slot k. -/
def servedHart (k j : Nat) (h : Hart) : Hart :=
  if j = k then startGroup h else { h with passed := if h.current.isSome then h.passed + 1 else 0 }

/-- The state once the sequencer of the slots ks has started a group of the hart of slot k. -/
def served (ks : List Nat) (k : Nat) (s : State) : State := ks.foldl (fun st j => st.setHartOf j (servedHart k j (st.slot j).hart)) s

theorem execElementGroup_of_none {s : State} {tile : Nat} {core : Bool} (h : chooseHart s (sequencerSlots s tile core) = none) :
    execElementGroup tile core s = .next s := by
  simp only [execElementGroup, h]

theorem execElementGroup_of_some {s : State} {tile : Nat} {core : Bool} {k : Nat} {f : Inflight}
    (h : chooseHart s (sequencerSlots s tile core) = some (k, f)) :
    execElementGroup tile core s = .next (served (sequencerSlots s tile core) k s) := by
  simp only [execElementGroup, h, served]
  congr 2
  funext st j
  unfold servedHart
  split
  · rfl
  · split <;> rfl

theorem slot_served {ks : List Nat} (hks : ks.Pairwise (· < ·)) (k : Nat) (s : State) (j : Nat) : (served ks k s).slot j =
    if j ∈ ks then { s.slot j with hart := servedHart k j (s.slot j).hart } else s.slot j :=
  slot_foldl_setHartOf (servedHart k) ks (hks.imp Nat.ne_of_lt) s j

theorem served_frame (ks : List Nat) (k : Nat) (s : State) : { served ks k s with slots := s.slots } = s :=
  foldl_setHartOf_frame (servedHart k) ks s

/-! ## LONG_LATENCY_PRODUCER_DONE (R89, R145) -/

theorem completes_iff {l : List Inflight} {i : Nat} {f : Inflight} (h : l[i]? = some f) :
    completes l i = (!f.starts && !f.broadcast && (!f.matrix || (l.take i).all (fun g => !g.matrix))) := by
  simp only [completes, h, Inflight.starts, Inflight.broadcast, ← decide_not, Nat.not_lt]

theorem getElem?_filter_of_getElem? {α : Type} {p : α → Bool} {l : List α} {i : Nat} {a : α} (h : l[i]? = some a) (hp : p a = true) :
    (l.filter p)[((l.take i).filter p).length]? = some a := by
  obtain ⟨hi, rfl⟩ := List.getElem?_eq_some_iff.mp h
  conv_lhs => rw [← List.take_append_drop i l, List.drop_eq_getElem_cons hi, List.filter_append, List.filter_cons_of_pos hp]
  rw [List.take_left' (List.length_take_of_le hi.le), List.getElem?_append_right le_rfl, Nat.sub_self]
  rfl

/-- Of the instructions before place i as many can complete as places before i name one that can. -/
theorem length_completable_take {l : List Inflight} {i : Nat} (hi : i ≤ l.length) :
    ((l.zipIdx.take i).filter (fun p => !p.1.starts && !p.1.broadcast && (!p.1.matrix || (l.take p.2).all (fun f => !f.matrix)))).length =
      ((List.range i).filter (completes l)).length := by
  have hrange : (l.zipIdx.take i).map Prod.snd = List.range i := by
    rw [List.map_take, List.zipIdx_map_snd, ← List.range_eq_range', List.take_range, Nat.min_eq_left hi]
  rw [← hrange, List.filter_map, List.length_map]
  refine congrArg List.length (List.filter_congr fun q hq => ?_)
  exact (completes_iff (List.mem_zipIdx_iff_getElem?.mp (List.mem_of_mem_take hq))).symm

theorem completable_getElem {l : List Inflight} {i : Nat} {f : Inflight} (h : l[i]? = some f) (hc : completes l i = true) :
    (completable l)[((List.range i).filter (completes l)).length]? = some (f, i) := by
  have hz : l.zipIdx[i]? = some (f, i) := by
    rw [List.getElem?_zipIdx, h, Nat.zero_add]
    rfl
  have hi : i ≤ l.length := (List.getElem?_eq_some_iff.mp h).1.le
  rw [← length_completable_take hi]
  exact getElem?_filter_of_getElem? hz ((completes_iff h).symm.trans hc)

/-- Settles O30: the choice by `chooseHart_of_aged` and `chooseHart_of_least`, the group by `startGroup_of_isCurrent`, the end of a producer by
`completable_getElem`. -/
theorem sequencerResult : Obligations.SequencerResult := by
  constructor
  · intro tile core s ks cur
    have hks : sequencerSlots s tile core = ks := sequencerSlots_eq s tile core
    have hsort : ks.Pairwise (· < ·) := hks ▸ sequencerSlots_pairwise s tile core
    have hcur (k : Nat) (f : Inflight) : (s.slot k).hart.current = some f ↔ cur k f := current_eq_some_iff _ f
    have hsome (k : Nat) : (s.slot k).hart.current.isSome = true ↔ ∃ f, cur k f := by
      rw [Option.isSome_iff_exists]
      exact exists_congr (hcur k)
    constructor
    · intro hnone
      refine execElementGroup_of_none ?_
      rw [hks]
      exact chooseHart_of_none fun k hk => Option.eq_none_iff_forall_ne_some.mpr fun f hf => hnone k hk f ((hcur k f).mp hf)
    · intro k pre f post hk hf hchoice h g left
      have hkf : (s.slot k).hart.current = some f := (hcur k f).mpr ⟨pre, post, hf⟩
      have hchosen : chooseHart s ks = some (k, f) := by
        rcases hchoice with ⟨hage, hlow⟩ | ⟨hage, hleast⟩
        · exact chooseHart_of_aged hsort hk hkf hage fun j hj hlt hc => hlow j hj hlt ((hsome j).mp hc)
        · exact chooseHart_of_least hsort hk hkf (fun j hj hc => hage j hj ((hsome j).mp hc))
            fun j g hj hg => hleast j g hj ((hcur j g).mp hg)
      rw [← hks] at hchosen
      have hexec := execElementGroup_of_some hchosen
      rw [hks] at hexec
      refine ⟨_, hexec, served_frame ks k s, fun j hj => ?_, ?_, fun j hj hjk => ?_⟩
      · rw [slot_served hsort, if_neg hj]
      · rw [slot_served hsort, if_pos hk, servedHart, if_pos rfl, startGroup_of_isCurrent hf]
        rfl
      · rw [slot_served hsort, if_pos hj, servedHart, if_neg hjk]
        refine ⟨_, rfl, fun he => if_pos ((hsome j).mpr he), fun hno => if_neg fun hc => ?_⟩
        obtain ⟨g, hg⟩ := (hsome j).mp hc
        exact hno g hg
  · intro k n i f s h hi hc hn
    have hdone : (completable h.inflight)[n]? = some (f, i) := hn ▸ completable_getElem hi hc
    refine ⟨_, ?_, onlySlot_setHartOf s k _⟩
    show execLongLatencyProducerDone k n s = _
    simp only [execLongLatencyProducerDone]
    rw [show (completable (s.slot k).hart.inflight)[n]? = some (f, i) from hdone]

end Sys2Proof.Proofs
end

section
/-! O43. A change of the lane partition: when the tile is quiet, what each hart of it becomes, and the two ways it takes effect. -/

namespace Sys2Proof.Proofs
open Sys2Proof Sys2Proof.Machine Sys2Proof.Spec

/-! ## A quiet tile (R86) -/

theorem vectorWord_iff (w : IWord) (p : Instr → Bool) :
    vectorWord w p = true ↔ ∃ i, decode w = .ok i ∧ isVectorInstr i = true ∧ p i = true := by
  unfold vectorWord
  cases decode w <;> simp

theorem vectorBusy_eq_false_iff (s : State) (k : Nat) :
    let h := (s.slot k).hart
    vectorBusy s k = false ↔
      h.inflight = [] ∧ (∀ q ∈ h.queue, ∀ i, q.vec = true → q.trap = none → decode q.word = .ok i → isVectorInstr i = false) ∧
      (∀ w i, h.word = some w → decode w.1 = .ok i → isVectorInstr i = true → h.eidx = 0 ∧ pastDispatch h w.2 i = false) ∧
      ∀ r ∈ s.net.reqs, ∀ i, r.who = .elem k i → i = State.fetchIndex := by
  intro h
  have hqueue (q : Queued) : (q.vec && q.trap.isNone && vectorWord q.word (fun _ => true)) = false ↔
      ∀ i, q.vec = true → q.trap = none → decode q.word = .ok i → isVectorInstr i = false := by
    rw [← Bool.not_eq_true, Bool.and_eq_true, Bool.and_eq_true, vectorWord_iff, Option.isNone_iff_eq_none]
    simp only [and_true, not_and, not_exists, Bool.not_eq_true]
    tauto
  have hword : h.word.any (fun w => vectorWord w.1 (fun i => h.eidx != 0 || pastDispatch h w.2 i)) = false ↔
      ∀ w i, h.word = some w → decode w.1 = .ok i → isVectorInstr i = true → h.eidx = 0 ∧ pastDispatch h w.2 i = false := by
    rw [← Bool.not_eq_true, Option.any_eq_true]
    simp only [vectorWord_iff, Bool.or_eq_true, bne_iff_ne, not_exists, not_and, not_or, Bool.not_eq_true, not_not]
    exact ⟨fun h1 w i hw hi hv => h1 w hw i hi hv, fun h1 w hw i hi hv => h1 w i hw hi hv⟩
  have hreq (r : SentReq) : (match r.who with | .elem q i => q == k && i != State.fetchIndex | _ => false) = false ↔
      ∀ i, r.who = .elem k i → i = State.fetchIndex := by
    cases r.who <;> simp
  have hinflight : (!h.inflight.isEmpty) = false ↔ h.inflight = [] := by
    rw [Bool.not_eq_false', List.isEmpty_iff]
  have hany {α : Type} (l : List α) (f : α → Bool) : l.any f = false ↔ ∀ a ∈ l, f a = false := by
    simp only [List.any_eq_false, Bool.not_eq_true]
  rw [vectorBusy, Bool.or_eq_false_iff, Bool.or_eq_false_iff, Bool.or_eq_false_iff, hany, hany, and_assoc, and_assoc, hinflight, hword]
  exact and_congr Iff.rfl (and_congr (forall₂_congr fun q _ => hqueue q) (and_congr Iff.rfl (forall₂_congr fun r _ => hreq r)))

theorem tileDrained_iff (n : Nat) (s : State) : tileDrained n s = true ↔ TileQuiet s n := by
  have htile (j : Nat) : State.tileOf j = n ↔ 8 * n ≤ j ∧ j < 8 * n + 8 := by
    rw [State.tileOf]
    omega
  have hbusy : tileDrained n s = true ↔ ∀ j, State.tileOf j = n → vectorBusy s j = false := by
    rw [tileDrained, Bool.not_eq_true', ← Bool.not_eq_true, anyIn_iff]
    simp only [htile, not_exists, not_and, Bool.not_eq_true, and_imp]
  simp only [hbusy, vectorBusy_eq_false_iff, TileQuiet]

/-! ## Ranges -/

theorem foldRange_eq_foldl {β : Type} (f : Nat → β → β) (lo n : Nat) (b : β) :
    foldRange f lo n b = (List.range' lo n).foldl (fun b i => f i b) b := by
  induction n generalizing lo b with
  | zero => rfl
  | succ n ih => exact ih (lo + 1) (f lo b)

theorem get_mapRange {α : Type} [DecidableEq α] (d : α) (f : Nat → α → α) (n : Nat) : ∀ (lo : Nat) (m : SMap α) (k : Nat),
    SMap.get d (SMap.mapRange d f lo n m) k = if lo ≤ k ∧ k < lo + n then f k (SMap.get d m k) else SMap.get d m k := by
  induction n with
  | zero => exact fun lo m k => (if_neg (by omega)).symm
  | succ n ih =>
    intro lo m k
    rw [SMap.mapRange, ih]
    by_cases hk : k = lo
    · subst hk
      rw [if_neg (by omega), if_pos (by omega), SMap.get_set_same]
    · rw [SMap.get_set_other d m _ hk]
      exact if_congr (by omega) rfl rfl

/-! ## A tile and its harts after the change (R84, R85, R86) -/

/-- The tile with SPLIT and LIM as `p` gives them; the lane tables of lanes without power are gone. -/
def tileAfter (t : Tile) (p : Bool × BitVec 2) : Tile :=
  let u : Tile := { t with split := p.1, lim := p.2 }
  { u with tables := t.tables.filter (fun e => u.powered (e.1 / 8192)) }

theorem vlmax_cases (t : Tile) : t.vlmax = 256 ∨ t.vlmax = 512 ∨ t.vlmax = 1024 := by
  unfold Tile.vlmax
  split
  · exact .inr (.inl rfl)
  · split
    · exact .inl rfl
    · exact .inr (.inr rfl)

theorem getLsbD_maskBits (t : Tile) {j : Nat} (hj : j < 1024) : t.maskBits.getLsbD j = decide (j < t.vlmax) := by
  rw [Tile.maskBits, BitVec.getLsbD_ofNat, decide_eq_true hj, Bool.true_and, Nat.testBit_two_pow_sub_one]

section
variable (t u : Tile) (b : Bool) (h : Hart)

theorem repartitionHart_len : (repartitionHart t u b h).len = min h.len u.vlmax := by
  have hlt : min h.len u.vlmax < 2 ^ 11 := (Nat.min_le_left _ _).trans_lt h.vl.isLt
  exact (BitVec.toNat_ofNat _ _).trans (Nat.mod_eq_of_lt hlt)

theorem repartitionHart_vlgOf {i : Nat} (hi : i < 64) : (repartitionHart t u b h).vlgOf i = u.vlmax / 64 := by
  have hvlg : SMap.get 0 (repartitionHart t u b h).vlg i = BitVec.ofNat 5 (u.vlmax / 64) :=
    (get_mapRange 0 (fun _ _ => BitVec.ofNat 5 (u.vlmax / 64)) 64 0 h.vlg i).trans (if_pos (by omega))
  rw [Hart.vlgOf, hvlg]
  obtain hv | hv | hv := vlmax_cases u <;> rw [hv] <;> rfl

theorem repartitionHart_rm {m j : Nat} (hm : m < 8) (hj : j < 1024) :
    ((repartitionHart t u b h).rm m).getLsbD j = ((h.rm m).getLsbD j && decide (j < u.vlmax)) := by
  have hrm : (repartitionHart t u b h).rm m = h.rm m &&& u.maskBits :=
    (get_mapRange 0 (fun _ v => v &&& u.maskBits) 8 0 h.m m).trans (if_pos (by omega))
  rw [hrm, BitVec.getLsbD_and, getLsbD_maskBits u hj]

end

/-! ## The state after the change -/

/-- The tile n and its harts rewritten for the new partition; the matrix storage is still as it was. -/
def hartsAfter (n : Nat) (p : Bool × BitVec 2) (s : State) : State :=
  (List.range' (8 * n) 8).foldl (fun st k => st.setHartOf k
    (repartitionHart (s.tile n) (tileAfter (s.tile n) p) (State.coreOf k) (st.slot k).hart)) (s.setTile n (tileAfter (s.tile n) p))

theorem repartition_eq (n : Nat) (p : Bool × BitVec 2) (s : State) : repartition n p s =
    { hartsAfter n p s with
      int8 := (hartsAfter n p s).int8.filter (fun e => !ofTile 8 n e.1)
      cols := (hartsAfter n p s).cols.filter (fun e => !ofTile (8 * 4096) n e.1)
      cells := (hartsAfter n p s).cells.filter (fun e => !ofTile (32 * 4096) n e.1) } := by
  rw [hartsAfter, ← foldRange_eq_foldl]
  rfl

theorem hartsAfter_frame (n : Nat) (p : Bool × BitVec 2) (s : State) :
    { hartsAfter n p s with slots := s.slots } = s.setTile n (tileAfter (s.tile n) p) := by
  rw [hartsAfter]
  exact foldl_setHartOf_frame (fun k h => repartitionHart (s.tile n) (tileAfter (s.tile n) p) (State.coreOf k) h) (List.range' (8 * n) 8)
    (s.setTile n (tileAfter (s.tile n) p))

theorem slot_hartsAfter (n : Nat) (p : Bool × BitVec 2) (s : State) (k : Nat) : (hartsAfter n p s).slot k =
    if State.tileOf k = n then
      { s.slot k with hart := repartitionHart (s.tile n) (tileAfter (s.tile n) p) (State.coreOf k) (s.slot k).hart }
    else s.slot k := by
  have hmem : k ∈ List.range' (8 * n) 8 ↔ State.tileOf k = n := by
    rw [List.mem_range'_1, State.tileOf]
    omega
  rw [hartsAfter, ← if_congr hmem rfl rfl]
  exact slot_foldl_setHartOf (fun k h => repartitionHart (s.tile n) (tileAfter (s.tile n) p) (State.coreOf k) h) (List.range' (8 * n) 8)
    List.nodup_range' (s.setTile n (tileAfter (s.tile n) p)) k

theorem repartition_frame (n : Nat) (p : Bool × BitVec 2) (s : State) :
    { repartition n p s with slots := s.slots, int8 := s.int8, cols := s.cols, cells := s.cells } =
      s.setTile n (tileAfter (s.tile n) p) := by
  have h := hartsAfter_frame n p s
  rw [repartition_eq]
  generalize hartsAfter n p s = r at h ⊢
  exact congrArg (fun t : State => { t with int8 := s.int8, cols := s.cols, cells := s.cells }) h

/-- What the change at tile n makes of s: the tile, its harts, and what every clause of R86 leaves alone. -/
structure TileChanged (s r : State) (n : Nat) (p : Bool × BitVec 2) : Prop where
  tile : r.tile n = tileAfter (s.tile n) p
  slot : ∀ k, r.slot k =
    if State.tileOf k = n then
      { s.slot k with hart := repartitionHart (s.tile n) (tileAfter (s.tile n) p) (State.coreOf k) (s.slot k).hart }
    else s.slot k
  cur : r.cur = s.cur
  hbm : r.hbm = s.hbm
  cis : r.cis = s.cis
  ctxs : r.ctxs = s.ctxs

theorem tileChanged_of_frame {s r : State} {n : Nat} {p : Bool × BitVec 2}
    (h : { r with slots := s.slots, int8 := s.int8, cols := s.cols, cells := s.cells } = s.setTile n (tileAfter (s.tile n) p))
    (hslot : ∀ k, r.slot k = (hartsAfter n p s).slot k) : TileChanged s r n p := by
  have h' := congrArg (fun t : State => (t.cur, t.hbm, t.cis, t.ctxs, t.tiles)) h
  simp only [Prod.mk.injEq] at h'
  obtain ⟨hcur, hhbm, hcis, hctxs, htiles⟩ := h'
  refine ⟨?_, fun k => (hslot k).trans (slot_hartsAfter n p s k), hcur, hhbm, hcis, hctxs⟩
  rw [State.tile, htiles]
  exact (s.tile_setTile n n _).trans (if_pos rfl)

theorem tileChanged_repartition (n : Nat) (p : Bool × BitVec 2) (s : State) : TileChanged s (repartition n p s) n p := by
  refine tileChanged_of_frame (repartition_frame n p s) fun k => ?_
  rw [repartition_eq]
  generalize hartsAfter n p s = r
  rfl

section
variable {s r : State} {n : Nat} {p : Bool × BitVec 2} (hr : TileChanged s r n p) {k : Nat} (hk : State.tileOf k = n)
include hr hk

theorem tileChanged_hart : (r.slot k).hart = repartitionHart (s.tile n) (tileAfter (s.tile n) p) (State.coreOf k) (s.slot k).hart := by
  rw [hr.slot, if_pos hk]

/-- After a rewrite of one of its slots that keeps VL, the tags and the masks, the tile is as the change left it. -/
theorem repartitioned_setSlot {v : Slot} (hvl : v.hart.vl = (r.slot k).hart.vl) (hdirty : v.hart.dirty = (r.slot k).hart.dirty)
    (hvlg : v.hart.vlg = (r.slot k).hart.vlg) (hm : v.hart.m = (r.slot k).hart.m) : Repartitioned s (r.setSlot k v) n p := by
  have htile : (r.setSlot k v).tile n = tileAfter (s.tile n) p := hr.tile
  have hsame (j : Nat) : let g := ((r.setSlot k v).slot j).hart
      let h := (r.slot j).hart
      g.vl = h.vl ∧ g.dirty = h.dirty ∧ g.vlg = h.vlg ∧ g.m = h.m := by
    rw [State.slot_setSlot]
    split
    · next hj => exact hj ▸ ⟨hvl, hdirty, hvlg, hm⟩
    · exact ⟨rfl, rfl, rfl, rfl⟩
  refine ⟨by rw [htile]; rfl, by rw [htile]; rfl, fun j hj => ?_, fun j hj => ?_⟩
  · have hjk : j ≠ k := fun h => hj (h ▸ hk)
    rw [State.slot_setSlot_other _ _ hjk, hr.slot, if_neg hj]
  · obtain ⟨hvl, hdirty, hvlg, hm⟩ := hsame j
    rw [tileChanged_hart hr hj] at hvl hdirty hvlg hm
    rw [htile]
    refine ⟨?_, hdirty, fun i hi => ?_, fun m i hmlt hi => ?_⟩
    · exact (congrArg BitVec.toNat hvl).trans (repartitionHart_len _ _ _ _)
    · rw [Hart.vlgOf, hvlg]
      exact repartitionHart_vlgOf _ _ _ _ hi
    · rw [Hart.rm, hm]
      exact repartitionHart_rm _ _ _ _ hmlt hi

end

/-! ## MTCR of LPART and MAXVL (R84, R85, R86) -/

theorem partitionOf_eq (x : ArgsMtcr) (s : State) (v : Word) :
    partitionOf s x.c.toNat v = if x.c = 0x100 then lpartWrite s.myTile v else maxvlWrite s.myTile v :=
  if_congr (by rw [BitVec.toNat_eq]; rfl) rfl rfl

theorem mtcr_partition {x : ArgsMtcr} {s : State} (hw : (Instr.mtcr x).wellFormed = true) (hr : Ready s = true) (hsys : s.myCtx.sys = true)
    (hc : x.c = 0x100 ∨ x.c = 0x101) {p : Bool × BitVec 2} (hp : partitionOf s x.c.toNat (s.hart.rs x.d) = p) :
    exec (.mtcr x) s = (if p = (s.myTile.split, s.myTile.lim) then retireOnly s
      else if tileDrained (State.tileOf s.cur) s = true then retireOnly (repartition (State.tileOf s.cur) p s) else .wait s).out := by
  have hn : x.c.toNat = 0x100 ∨ x.c.toNat = 0x101 := hc.imp (congrArg BitVec.toNat) (congrArg BitVec.toNat)
  have hdenied : crDenied s x.c.toNat = false := by
    rcases hn with hn | hn <;> simp [crDenied, bankLevel, hn, hsys]
  show execMtcr x s = _
  rw [execMtcr, issue_wf _ _ _ hw]
  simp only [hdenied, Bool.false_eq_true, ↓reduceIte, readScalars_full _ _ _ (ready_allFull hr), hn, hp, ready_late hr]

/-- The hart that has changed the partition retires. -/
theorem retire_of_tileChanged {s r : State} {p : Bool × BitVec 2} (hr : TileChanged s r (State.tileOf s.cur) p) :
    let t := r.setHart r.hart.retire
    Repartitioned s t (State.tileOf s.cur) p ∧ t.hart.pc = s.hart.pc + 4 ∧ ∀ q, t.hart.rs q = s.hart.rs q := by
  have hhart : r.hart = repartitionHart (s.tile (State.tileOf s.cur)) (tileAfter (s.tile (State.tileOf s.cur)) p) (State.coreOf s.cur) s.hart := by
    rw [State.hart, hr.cur]
    exact tileChanged_hart hr rfl
  refine ⟨repartitioned_setSlot hr (congrArg State.tileOf hr.cur) rfl rfl rfl rfl, ?_, fun q => ?_⟩
  · rw [State.hart_setHart, hhart]
    rfl
  · rw [State.hart_setHart, hhart]
    rfl

theorem partitionWrite : PartitionWrite := by
  intro x s hw hr hsys hc v p n
  have hexec := mtcr_partition hw hr hsys hc (partitionOf_eq x s v)
  refine ⟨fun hp => ?_, fun hp hq => ?_, fun hp hq => ?_⟩
  · rw [hexec, if_pos hp]
    rfl
  · have hdrained : tileDrained n s = true := (tileDrained_iff n s).mpr hq
    rw [if_neg hp, if_pos hdrained] at hexec
    exact ⟨_, hexec, retire_of_tileChanged (tileChanged_repartition n p s)⟩
  · rw [hexec, if_neg hp, if_neg (mt (tileDrained_iff n s).mp hq)]
    rfl

/-! ## The events LPART and MAXVL (R86, R300) -/

theorem retirePending_keeps (k : Nat) (s : State) : let t := retirePending k s
    t.hbm = s.hbm ∧ t.cis = s.cis ∧ t.ctxs = s.ctxs ∧ (t.slot k).hart = { (s.slot k).hart.retire with pendCr := none, word := none } :=
  ⟨rfl, rfl, rfl, by rw [retirePending, State.slot_setSlot_same]⟩

theorem partitionEvent_of_none {k : Nat} {s : State} (h : (s.slot k).hart.pendCr = none) (n : Nat) : partitionEvent k n s = .next s := by
  simp only [partitionEvent, pendingCr, h]

theorem partitionEvent_of_busy {k : Nat} {s : State} (h : ¬ TileQuiet s (State.tileOf k)) (n : Nat) : partitionEvent k n s = .next s := by
  have hbusy : tileDrained (State.tileOf k) s = false := Bool.eq_false_iff.mpr (mt (tileDrained_iff _ s).mp h)
  rw [partitionEvent]
  split
  · rfl
  · simp only [hbusy, Bool.false_eq_true, ↓reduceIte]

theorem retirePending_of_tileChanged {s r : State} {k : Nat} {p : Bool × BitVec 2} (hr : TileChanged s r (State.tileOf k) p) :
    let t := retirePending k r
    Repartitioned s t (State.tileOf k) p ∧ (t.slot k).hart.pc = (s.slot k).hart.pc + 4 ∧ (t.slot k).hart.pendCr = none ∧
      (∀ q, (t.slot k).hart.rs q = (s.slot k).hart.rs q) ∧ t.hbm = s.hbm ∧ t.cis = s.cis ∧ t.ctxs = s.ctxs := by
  obtain ⟨hhbm, hcis, hctxs, hhart⟩ := retirePending_keeps k r
  refine ⟨repartitioned_setSlot hr rfl rfl rfl rfl rfl, ?_⟩
  rw [hhart, tileChanged_hart hr rfl, hhbm, hcis, hctxs]
  exact ⟨rfl, rfl, fun _ => rfl, hr.hbm, hr.cis, hr.ctxs⟩

theorem partitionEvent_of_quiet {k n : Nat} {v : Word} {s : State} (h : (s.slot k).hart.pendCr = some (n, v)) (hq : TileQuiet s (State.tileOf k))
    {p : Bool × BitVec 2} (hp : (if n = 0x100 then lpartWrite (s.tile (State.tileOf k)) v else maxvlWrite (s.tile (State.tileOf k)) v) = p) :
    ∃ r, partitionEvent k n s = .next (retirePending k r) ∧ TileChanged s r (State.tileOf k) p := by
  have hdrained : tileDrained (State.tileOf k) s = true := (tileDrained_iff _ s).mpr hq
  refine ⟨repartition (State.tileOf k) p s, ?_, tileChanged_repartition _ p s⟩
  simp only [partitionEvent, pendingCr, h, ↓reduceIte, hdrained, hp]

theorem partitionEvents : PartitionEvents := by
  intro k v s n done
  refine ⟨fun h hq => ?_, fun h hq => ?_, fun h => ?_⟩
  · obtain ⟨r, hexec, hr⟩ := partitionEvent_of_quiet h hq (if_pos rfl)
    exact ⟨_, hexec, retirePending_of_tileChanged hr⟩
  · obtain ⟨r, hexec, hr⟩ := partitionEvent_of_quiet h hq (if_neg (by decide))
    exact ⟨_, hexec, retirePending_of_tileChanged hr⟩
  · rcases h with h | h
    · exact ⟨partitionEvent_of_busy h 0x100, partitionEvent_of_busy h 0x101⟩
    · exact ⟨partitionEvent_of_none h 0x100, partitionEvent_of_none h 0x101⟩

/-- Settles O43: the write by `mtcr_partition`, the events by `partitionEvent_of_quiet`, both on `tileChanged_repartition`. -/
theorem lanePartition : Obligations.LanePartition := ⟨partitionWrite, partitionEvents⟩

end Sys2Proof.Proofs
end

section
/-! O40. Moves, SEL and the mask instructions on a hart that nothing makes wait. -/

namespace Sys2Proof.Proofs
open Sys2Proof Sys2Proof.Machine Sys2Proof.Spec

/-! ## Operands (R8, R106) -/

theorem ready_binds {s : State} (h : Ready s = true) : s.hart.binds = [] := by
  obtain ⟨-, hb, -⟩ := (ready_iff s).mp h
  exact hb

theorem toNat_sliceAt (s : State) (w : Nat) (fl : BitVec 6) (j : Nat) : (sliceAt s w fl j).toNat = elemOf (s.hart.row j) w fl.toNat := by
  rw [sliceAt, BitVec.toNat_ofNat, elemOf, Nat.mod_mod]

theorem fetch_ready {s : State} (hr : Ready s = true) (w : Nat) (fl : BitVec 6) (q : Bool) (j : Nat) :
    fetch s ⟨w, fl.toNat, q⟩ j (s.hart.row j) = (sliceAt s w fl j).toNat := by
  rw [toNat_sliceAt, fetch_slice s _ (ready_binds hr)]

theorem toNat_secondAt {s : State} (hr : Ready s = true) (f : BitVec 2) (w : Nat) (b : BitVec 6) (j : Nat) :
    (secondAt s f false w b j).toNat = bVal s f false w b j (s.hart.row j) := by
  unfold secondAt bVal
  split
  · exact (fetch_ready hr w b false j).symm
  · split
    · exact BitVec.toNat_ofNat _ _
    · rw [immAt, if_neg Bool.false_ne_true, immVal, if_neg Bool.false_ne_true, wrap_eq]
      rfl

theorem bSrc_fits {f : BitVec 2} {w : Nat} {b : BitVec 6} (h : f = 0 → overruns w b.toNat = false) (q : Bool) :
    (bSrc f w b q).any (fun r => overruns r.w r.fl) = false := by
  unfold bSrc
  split
  · next hf => rw [List.any_cons, h hf]; rfl
  · rfl

/-! ## Scalar results -/

/-- An instruction that writes s[d] and retires. -/
theorem scalarOutcome_retire (s : State) (d : BitVec 6) (v : Word) : ScalarOutcome s (s.setHart (s.hart.ws d v).retire) d v 0 := by
  obtain ⟨hrs, hrest⟩ := hart_writeRetire s.hart d v
  refine ⟨onlyHart_setHart _ _, ?_, ?_⟩
  · rw [State.hart_setHart]
    exact hrs
  · have hfl : s.hart.fflags ||| 0 = s.hart.fflags := BitVec.or_zero
    rw [State.hart_setHart, hfl]
    exact hrest

/-! ## MOV, SEXT, ZEXT and MTO (R97, R98, R102) -/

theorem mov_word (x : ArgsM) (s : State) :
    word (if x.w.getLsbD 0 then imm6 x.b else sx (s.hart.rs x.b).toNat (ssWidth x.w)) =
      (secondScalar s x.w false (scalarWidth x.w) x.b).signExtend 64 := by
  rw [secondScalar]
  split
  · have hw : 6 ≤ scalarWidth x.w := by
      unfold scalarWidth
      split <;> decide
    rw [immAt, if_neg Bool.false_ne_true, BitVec.signExtend, BitVec.toInt_signExtend_of_le hw]
    rfl
  · rw [word_eq, sx_eq]
    rfl

theorem mov_scalar {x : ArgsM} {s : State} (hw : (Instr.mov x).wellFormed = true) (hr : Ready s = true) (hf : x.f = 3) :
    ∃ t, exec (.mov x) s = .next t ∧ ScalarOutcome s t x.d ((secondScalar s x.w false (scalarWidth x.w) x.b).signExtend 64) 0 := by
  have hfull := ready_allFull hr
  refine ⟨_, ?_, scalarOutcome_retire s x.d _⟩
  show execMov x s = _
  rw [execMov, issue_wf _ _ _ hw]
  simp only [hf, ↓reduceIte, readScalars_full _ _ _ hfull, destFree_full _ _ _ hfull, mov_word]
  rfl

theorem mov_vector {x : ArgsM} {s : State} (hw : (Instr.mov x).wellFormed = true) (hr : Ready s = true) (hf : x.f ≠ 3)
    (hd : overruns (widthOf x.w) x.d.toNat = false) (hb : x.f = 0 → overruns (widthOf x.w) x.b.toNat = false) :
    ∃ t, exec (.mov x) s = .next t ∧ VectorOutcome s t (widthOf x.w) x.d.toNat
      (fun j => (secondAt s x.f false (widthOf x.w) x.b j).toNat) (fun _ => false) (fun _ => 0) := by
  obtain ⟨t, ht, hout⟩ := elementwise_vector (.mov x)
    { srcs := bSrc x.f (widthOf x.w) x.b x.q, dsts := [⟨widthOf x.w, x.d.toNat⟩], reads := bReg x.f x.b x.q } false
    (fun s i row => .ok { row := putElem row (widthOf x.w) x.d.toNat (bVal s x.f false (widthOf x.w) x.b i row) }) s
    (widthOf x.w) x.d.toNat (fun j => (secondAt s x.f false (widthOf x.w) x.b j).toNat) (fun _ => false) (fun _ => 0) hr
    (by simp only [Shape.ok, bSrc_fits hb, hd, List.any_cons, List.any_nil, List.all_nil]; rfl) rfl rfl rfl
    (fun j _ => ⟨false, by rw [toNat_secondAt hr]⟩)
  refine ⟨t, ?_, hout⟩
  show execMov x s = _
  rw [execMov, issue_wf _ _ _ hw]
  simp only [hf, ↓reduceIte]
  rw [ht]
  rfl

section
variable {i : Instr} {x : ArgsC} {ext : Nat → Nat → Int} {s : State} (hw : i.wellFormed = true) (hr : Ready s = true)
include hw hr

theorem extend_scalar (hf : x.f = 3) {v : Word} (hv : word (ext (s.hart.rs x.a).toNat (widthOf x.s)) = v) :
    ∃ t, extend i x ext s = .next t ∧ ScalarOutcome s t x.d v 0 := by
  have hfull := ready_allFull hr
  refine ⟨_, ?_, scalarOutcome_retire s x.d _⟩
  rw [extend, issue_wf _ _ _ hw]
  simp only [hf, ↓reduceIte, readScalars_full _ _ _ hfull, destFree_full _ _ _ hfull, hv]
  rfl

theorem extend_vector (hf : x.f ≠ 3) (hd : overruns (widthOf x.w) x.d.toNat = false) (ha : overruns (widthOf x.s) x.a.toNat = false)
    {g : BitVec (widthOf x.s) → BitVec (widthOf x.w)}
    (hg : ∀ v : BitVec (widthOf x.s), wrap (ext v.toNat (widthOf x.s)) (widthOf x.w) = (g v).toNat) :
    ∃ t, extend i x ext s = .next t ∧ VectorOutcome s t (widthOf x.w) x.d.toNat
      (fun j => (g (sliceAt s (widthOf x.s) x.a j)).toNat) (fun _ => false) (fun _ => 0) := by
  obtain ⟨t, ht, hout⟩ := elementwise_vector i
    { srcs := [⟨widthOf x.s, x.a.toNat, x.p⟩], dsts := [⟨widthOf x.w, x.d.toNat⟩] } false
    (fun s i row =>
      let v := wrap (ext (fetch s ⟨widthOf x.s, x.a.toNat, false⟩ i row) (widthOf x.s)) (widthOf x.w)
      .ok { row := putElem row (widthOf x.w) x.d.toNat v }) s
    (widthOf x.w) x.d.toNat (fun j => (g (sliceAt s (widthOf x.s) x.a j)).toNat) (fun _ => false) (fun _ => 0) hr
    (by simp [Shape.ok, hd, ha]) rfl rfl rfl
    (fun j _ => ⟨false, by rw [← hg, fetch_ready hr]⟩)
  refine ⟨t, ?_, hout⟩
  rw [extend, issue_wf _ _ _ hw]
  simp only [hf, ↓reduceIte]
  rw [ht]
  rfl

end

theorem word_sx (n w : Nat) : word (sx n w) = (BitVec.ofNat w n).signExtend 64 := by
  rw [word_eq, sx_eq]
  rfl

theorem word_zx (n w : Nat) : word (zx n w) = (BitVec.ofNat w n).zeroExtend 64 := by
  rw [word_eq, zx_eq, BitVec.ofInt_natCast, BitVec.ofNat_toNat]

theorem wrap_sx {w : Nat} (v : BitVec w) (u : Nat) : wrap (sx v.toNat w) u = (v.signExtend u).toNat := by
  rw [sx_eq, wrap_eq, BitVec.ofNat_toNat, BitVec.setWidth_eq]
  rfl

theorem wrap_zx {w : Nat} (v : BitVec w) (u : Nat) : wrap (zx v.toNat w) u = (v.zeroExtend u).toNat := by
  rw [zx_eq, wrap_eq, BitVec.ofNat_toNat, BitVec.setWidth_eq, BitVec.ofInt_natCast, BitVec.ofNat_toNat]

theorem mto_vector {x : ArgsP} {s : State} (hw : (Instr.mto x).wellFormed = true) (hr : Ready s = true)
    (hd : overruns (widthOf x.w) x.d.toNat = false) :
    ∃ t, exec (.mto x) s = .next t ∧ VectorOutcome s t (widthOf x.w) x.d.toNat
      (fun j => ((s.hart.rm x.a.toNat).getLsbD j).toNat) (fun _ => false) (fun _ => 0) := by
  have hmask : x.a.toNat < 8 := by simpa [Instr.wellFormed, isMask] using (Bool.and_eq_true_iff.mp hw).2
  obtain ⟨t, ht, hout⟩ := elementwise_vector (.mto x) { dsts := [⟨widthOf x.w, x.d.toNat⟩], mreads := [(x.a.toNat, x.p)] } false
    (fun s i row => .ok { row := putElem row (widthOf x.w) x.d.toNat ((s.hart.rm x.a.toNat).getLsbD i).toNat }) s
    (widthOf x.w) x.d.toNat (fun j => ((s.hart.rm x.a.toNat).getLsbD j).toNat) (fun _ => false) (fun _ => 0) hr
    (by simp [Shape.ok, hd, hmask]) rfl rfl rfl (fun _ _ => ⟨false, rfl⟩)
  refine ⟨t, ?_, hout⟩
  show execMto x s = _
  rw [execMto, issue_wf _ _ _ hw]
  exact congrArg Res.out ht

/-! ## SEL (R99) -/

/-- On a ready hart whose loop over the elements fails nowhere, the results are settled and the instruction retires. -/
theorem elementwise_of_runElems {i : Instr} {sh : Shape} {late : Bool} {act : Hart → Nat → Bool}
    {f : State → Nat → Row → Except (Nat × Word) Elem} {s : State} {b : Done} (hr : Ready s = true) (hs : sh.ok = true)
    (hlen : s.hart.eidx.toNat < s.hart.len)
    (hrun : runElems (act s.hart) (f s) s.hart.eidx.toNat (s.hart.len - s.hart.eidx.toNat) { z := s.hart.z, bits := oldBits sh s.hart } =
      (b, none)) :
    elementwise i sh late act f s = .ok ((s.setHart (s.hart.settle sh b)).setHart (s.hart.settle sh b).retire) := by
  obtain ⟨-, hb, -, -, -, -, -, hlate, -, hgrouped, -⟩ := (ready_iff s).mp hr
  have hgo : ¬ ((s.hart.len = 0 ∧ sh.always = false) ∨ sh.past s.hart = true) := by
    simp only [Shape.past, Bool.and_eq_true, decide_eq_true_eq]
    omega
  unfold elementwise
  rw [vecPre_ready _ _ _ _ hr hs, if_neg hgo]
  dsimp only
  rw [groupEnd_ready hgrouped, hrun]
  dsimp only
  rw [if_neg (fun h : _ ∧ _ => Nat.lt_irrefl _ h.2), boundReads_nil _ hb]
  simp only [List.isEmpty_nil, true_or, ↓reduceIte]
  rw [enter_now _ _ _ _ _ _ _ (by simpa using hlate), consume_nil, State.hart_setHart]

theorem elementwise_of_past {i : Instr} {sh : Shape} {late : Bool} {act : Hart → Nat → Bool}
    {f : State → Nat → Row → Except (Nat × Word) Elem} {s : State} (hr : Ready s = true) (hs : sh.ok = true)
    (hlen : s.hart.len ≤ s.hart.eidx.toNat) (halways : sh.always = false) (hwhole : sh.whole = false) :
    elementwise i sh late act f s = .ok (s.setHart s.hart.retire) := by
  have hpast : (s.hart.len = 0 ∧ sh.always = false) ∨ sh.past s.hart = true := by
    simp only [Shape.past, halways, hwhole, Bool.not_false, Bool.true_and, Bool.and_eq_true, decide_eq_true_eq, and_true]
    omega
  unfold elementwise
  rw [vecPre_ready _ _ _ _ hr hs, if_pos hpast]
  rfl

/-- SEL's kind of loop: every element from EIDX up to VL is written, guard or not, and nothing but rows and tags. -/
theorem elementwise_all {i : Instr} {sh : Shape} {late : Bool} {f : State → Nat → Row → Except (Nat × Word) Elem} {s : State}
    (hr : Ready s = true) (hs : sh.ok = true) (halways : sh.always = false) (hwhole : sh.whole = false) (hm : sh.mdst = none)
    {row : Nat → Row} (hf : ∀ j, f s j (s.hart.row j) = .ok { row := row j }) :
    ∃ t, elementwise i sh late (fun _ _ => true) f s = .ok t ∧ OnlyHart s t ∧ RetiredWith s.hart t.hart ∧ t.hart.s = s.hart.s ∧
      t.hart.fflags = s.hart.fflags ∧ (∀ n, t.hart.rm n = s.hart.rm n) ∧
      ∀ j, t.hart.row j = if s.hart.eidx.toNat ≤ j ∧ j < s.hart.len then row j else s.hart.row j := by
  by_cases hlen : s.hart.eidx.toNat < s.hart.len
  · obtain ⟨b, hrun, hz, -, hsat, hfl, -⟩ := runElems_ok (fun _ => true) (f s) (s.hart.len - s.hart.eidx.toNat) s.hart.eidx.toNat
      { z := s.hart.z, bits := oldBits sh s.hart } (fun j _ _ _ => ⟨_, hf j⟩)
    have helem (j : Nat) : elemAt (f s) s.hart.z j = { row := row j } := elemAt_ok (hf j)
    have hsat0 : b.sat = 0 := BitVec.eq_of_getLsbD_eq fun j hj => by
      rw [hsat j hj]
      simp [helem]
    have hfl0 : b.fl = 0 := BitVec.eq_of_getLsbD_eq fun j _ => by
      rw [Bool.eq_iff_iff, hfl j]
      simp [helem]
    refine ⟨_, elementwise_of_runElems hr hs hlen hrun, onlyHart_trans (onlyHart_setHart _ _) (onlyHart_setHart _ _), ?_⟩
    rw [State.hart_setHart]
    refine ⟨?_, ?_, ?_, fun n => ?_, fun j => ?_⟩
    · rw [settle_frame]
      rfl
    · rw [settle_frame]
      rfl
    · rw [settle_frame, hfl0]
      exact BitVec.or_zero
    · show (s.hart.settle sh b).rm n = _
      rw [settle_rm, hm, hsat0, if_neg (show ¬ (none : Option Nat) = some n from nofun),
        show s.hart.rm n ||| (0 : Mask) = s.hart.rm n from BitVec.or_zero, ite_self]
    · rw [settle_frame]
      refine (hz j).trans ?_
      rw [helem]
      exact if_congr ⟨fun h => ⟨h.1, by omega⟩, fun h => ⟨h.1, by omega, rfl⟩⟩ rfl rfl
  · refine ⟨_, elementwise_of_past hr hs (Nat.le_of_not_lt hlen) halways hwhole, onlyHart_setHart _ _, ?_⟩
    rw [State.hart_setHart]
    refine ⟨rfl, rfl, rfl, fun _ => rfl, fun j => (if_neg ?_).symm⟩
    omega

theorem sel_result {x : ArgsA} {s : State} (hw : (Instr.sel x).wellFormed = true) (hr : Ready s = true)
    (hd : overruns (widthOf x.w) x.d.toNat = false) (ha : overruns (widthOf x.w) x.a.toNat = false)
    (hb : x.f = 0 → overruns (widthOf x.w) x.b.toNat = false) :
    ∃ t, exec (.sel x) s = .next t ∧ OnlyHart s t ∧ RetiredWith s.hart t.hart ∧ t.hart.s = s.hart.s ∧
      t.hart.fflags = s.hart.fflags ∧ (∀ n, t.hart.rm n = s.hart.rm n) ∧
      ∀ j, t.hart.row j = if s.hart.eidx.toNat ≤ j ∧ j < s.hart.len then
        putElem (s.hart.row j) (widthOf x.w) x.d.toNat
          (if s.hart.permits j then sliceAt s (widthOf x.w) x.a j else secondAt s x.f false (widthOf x.w) x.b j).toNat
        else s.hart.row j := by
  obtain ⟨t, ht, hframe, hretired, hs, hfl, hrm, hrow⟩ := elementwise_all (i := .sel x) (late := false)
    (sh := { srcs := ⟨widthOf x.w, x.a.toNat, x.p⟩ :: bSrc x.f (widthOf x.w) x.b x.q, dsts := [⟨widthOf x.w, x.d.toNat⟩]
             reads := bReg x.f x.b x.q })
    (f := fun s i row =>
      let v := if s.hart.active i then fetch s ⟨widthOf x.w, x.a.toNat, false⟩ i row else bVal s x.f false (widthOf x.w) x.b i row
      .ok { row := putElem row (widthOf x.w) x.d.toNat v }) hr
    (by simp only [Shape.ok, bSrc_fits hb, ha, hd, List.any_cons, List.any_nil, List.all_nil]; rfl) rfl rfl rfl (fun _ => rfl)
  refine ⟨t, ?_, hframe, hretired, hs, hfl, hrm, fun j => (hrow j).trans ?_⟩
  · show execSel x s = _
    rw [execSel, issue_wf _ _ _ hw]
    exact congrArg Res.out ht
  · split
    · next hj =>
      have hactive : s.hart.active j = s.hart.permits j := by
        rw [Hart.active, decide_eq_true hj.2, Bool.true_and]
      rw [hactive, fetch_ready hr, ← toNat_secondAt hr]
      split <;> rfl
    · rfl

/-! ## MLOG and MFROM (R100, R102) -/

theorem maskLogic_result {i : Instr} {d a b : Nat} {reads : List (Nat × Bool)} {op : Bool → Bool → Bool} {s : State}
    (hw : i.wellFormed = true) (hr : Ready s = true) (hreads : ∀ p ∈ reads, p.1 < 8) :
    ∃ t, maskLogic i d a b reads op s = .next t ∧
      MaskOutcome s t d (fun j => op ((s.hart.rm a).getLsbD j) ((s.hart.rm b).getLsbD j)) (fun _ => 0) := by
  obtain ⟨t, ht, hout⟩ := elementwise_mask i { mreads := reads, mdst := some d } false
    (fun s i row => .ok { row := row, bit := op ((s.hart.rm a).getLsbD i) ((s.hart.rm b).getLsbD i) }) s d
    (fun j => op ((s.hart.rm a).getLsbD j) ((s.hart.rm b).getLsbD j)) (fun _ => 0) hr
    (by simpa [Shape.ok] using hreads) rfl rfl rfl (fun _ _ => rfl)
  refine ⟨t, ?_, hout⟩
  rw [maskLogic, issue_wf _ _ _ hw]
  exact congrArg Res.out ht

theorem maskLogic_of_two {i : Instr} {x : ArgsT} {s : State} (op : Bool → Bool → Bool) (hw : i.wellFormed = true) (hr : Ready s = true)
    (hi : i.wellFormed = (isMask x.d && isMask x.a && isMask x.b)) :
    ∃ t, maskLogic i x.d.toNat x.a.toNat x.b.toNat [(x.a.toNat, x.p), (x.b.toNat, x.q)] op s = .next t ∧
      MaskOutcome s t x.d.toNat (fun j => op ((s.hart.rm x.a.toNat).getLsbD j) ((s.hart.rm x.b.toNat).getLsbD j)) (fun _ => 0) := by
  refine maskLogic_result hw hr ?_
  simp only [hi, isMask, Bool.and_eq_true, decide_eq_true_eq] at hw
  simp [hw]

theorem maskLogic_of_one {i : Instr} {x : ArgsD} {s : State} (op : Bool → Bool → Bool) (hw : i.wellFormed = true) (hr : Ready s = true)
    (hi : i.wellFormed = (isMask x.d && isMask x.a)) :
    ∃ t, maskLogic i x.d.toNat x.a.toNat 0 [(x.a.toNat, x.p)] op s = .next t ∧
      MaskOutcome s t x.d.toNat (fun j => op ((s.hart.rm x.a.toNat).getLsbD j) ((s.hart.rm 0).getLsbD j)) (fun _ => 0) := by
  refine maskLogic_result hw hr ?_
  simp only [hi, isMask, Bool.and_eq_true, decide_eq_true_eq] at hw
  simp [hw]

theorem mfrom_result {x : ArgsP} {s : State} (hw : (Instr.mfrom x).wellFormed = true) (hr : Ready s = true)
    (ha : overruns (widthOf x.w) x.a.toNat = false) :
    ∃ t, exec (.mfrom x) s = .next t ∧ MaskOutcome s t x.d.toNat (fun j => sliceAt s (widthOf x.w) x.a j != 0) (fun _ => 0) := by
  have hbit (j : Nat) : (fetch s ⟨widthOf x.w, x.a.toNat, false⟩ j (s.hart.row j) != 0) = (sliceAt s (widthOf x.w) x.a j != 0) := by
    rw [fetch_ready hr, Bool.eq_iff_iff]
    simp [BitVec.toNat_eq]
  obtain ⟨t, ht, hout⟩ := elementwise_mask (.mfrom x) { srcs := [⟨widthOf x.w, x.a.toNat, x.p⟩], mdst := some x.d.toNat } false
    (fun s i row => .ok { row := row, bit := fetch s ⟨widthOf x.w, x.a.toNat, false⟩ i row != 0 }) s x.d.toNat
    (fun j => sliceAt s (widthOf x.w) x.a j != 0) (fun _ => 0) hr
    (by simp [Shape.ok, ha]) rfl rfl rfl (fun j _ => by rw [hbit])
  refine ⟨t, ?_, hout⟩
  show execMfrom x s = _
  rw [execMfrom, issue_wf _ _ _ hw]
  exact congrArg Res.out ht

/-! ## MCNT and MFIRST (R101, R83) -/

theorem foldRange_count (p : Nat → Bool) (lo n c : Nat) :
    foldRange (fun i n => if p i then n + 1 else n) lo n c = c + (List.range' lo n).countP p := by
  induction n generalizing lo c with
  | zero => rfl
  | succ n ih =>
    rw [foldRange, ih, List.range'_succ, List.countP_cons]
    split <;> omega

theorem firstIn_eq_find? (p : Nat → Bool) (lo n : Nat) : firstIn p lo n = (List.range' lo n).find? p := by
  induction n generalizing lo with
  | zero => rfl
  | succ n ih =>
    rw [firstIn, ih, List.range'_succ, List.find?_cons]
    cases p lo <;> rfl

section
variable {i : Instr} {x : ArgsD} {f : Hart → Word} {s : State} (hw : i.wellFormed = true) (ha : isMask x.a = true) (hr : Ready s = true)
include hw ha hr

theorem maskScalar_eq : maskScalar i x f s = .next (s.setHart (if s.hart.len ≤ s.hart.eidx.toNat then s.hart.retire
    else (s.hart.ws x.d (f s.hart)).retire)) := by
  have hok : ({ mreads := [(x.a.toNat, x.p)] } : Shape).ok = true := by simpa [Shape.ok, isMask] using ha
  have hpast : ((s.hart.len = 0 ∧ ({ mreads := [(x.a.toNat, x.p)] } : Shape).always = false) ∨
      ({ mreads := [(x.a.toNat, x.p)] } : Shape).past s.hart = true) ↔ s.hart.len ≤ s.hart.eidx.toNat := by
    simp only [Shape.past, Bool.not_false, Bool.true_and, Bool.and_eq_true, decide_eq_true_eq, and_true]
    omega
  rw [maskScalar, issue_wf _ _ _ hw]
  dsimp only
  rw [vecPre_ready _ _ _ _ hr hok, if_congr hpast rfl rfl, destFree_full _ _ _ (ready_allFull hr), enter_now]
  · split <;> rfl
  · exact show s.sched.late = false from ready_late hr

theorem maskScalar_of_past (hlen : s.hart.len ≤ s.hart.eidx.toNat) : maskScalar i x f s = .next (s.setHart s.hart.retire) := by
  rw [maskScalar_eq hw ha hr, if_pos hlen]

theorem maskScalar_result (hlen : s.hart.eidx.toNat < s.hart.len) :
    ∃ t, maskScalar i x f s = .next t ∧ ScalarOutcome s t x.d (f s.hart) 0 := by
  refine ⟨_, ?_, scalarOutcome_retire s x.d (f s.hart)⟩
  rw [maskScalar_eq hw ha hr, if_neg (Nat.not_le.mpr hlen)]

end

theorem exec_mcnt (x : ArgsD) (s : State) : exec (.mcnt x) s =
    maskScalar (.mcnt x) x (fun h => BitVec.ofNat 64 ((List.range h.len).countP (maskSet h x.a.toNat))) s := by
  show execMcnt x s = _
  rw [execMcnt]
  congr 1
  funext h
  rw [foldRange_count, Nat.zero_add, List.range_eq_range']

theorem exec_mfirst (x : ArgsD) (s : State) : exec (.mfirst x) s = maskScalar (.mfirst x) x
    (fun h => ((List.range h.len).find? (maskSet h x.a.toNat)).elim (BitVec.allOnes 64) (BitVec.ofNat 64)) s := by
  show execMfirst x s = _
  rw [execMfirst]
  congr 1
  funext h
  rw [firstIn_eq_find?, List.range_eq_range']
  cases (List.range' 0 h.len).find? (maskSet h x.a.toNat) <;> rfl

/-! ## The statement -/

theorem moveRow_result {i : Instr} {r : MoveRow} {s : State} (hrow : moveRow i = some r) (hw : i.wellFormed = true) (hr : Ready s = true) :
    (r.scalar = true → ∃ t, exec i s = .next t ∧ ScalarOutcome s t r.d (r.word s) 0) ∧
    (r.scalar = false → r.fits = true →
      ∃ t, exec i s = .next t ∧ VectorOutcome s t r.w r.d.toNat (r.val s) (fun _ => false) (fun _ => 0)) := by
  cases i with
  | mov x =>
    obtain rfl := Option.some.inj hrow
    refine ⟨fun hf => mov_scalar hw hr (beq_iff_eq.mp hf), fun hf hfits => ?_⟩
    simp only [Bool.and_eq_true, Bool.not_eq_true', Bool.or_eq_true, bne_iff_ne] at hfits
    exact mov_vector hw hr (beq_eq_false_iff_ne.mp hf) hfits.1 fun h0 => hfits.2.resolve_left (not_not_intro h0)
  | sext x =>
    obtain rfl := Option.some.inj hrow
    refine ⟨fun hf => ?_, fun hf hfits => ?_⟩
    · exact extend_scalar hw hr (beq_iff_eq.mp hf) (word_sx _ _)
    · simp only [Bool.and_eq_true, Bool.not_eq_true'] at hfits
      exact extend_vector hw hr (beq_eq_false_iff_ne.mp hf) hfits.1 hfits.2 (fun v => wrap_sx v _)
  | zext x =>
    obtain rfl := Option.some.inj hrow
    refine ⟨fun hf => ?_, fun hf hfits => ?_⟩
    · exact extend_scalar hw hr (beq_iff_eq.mp hf) (word_zx _ _)
    · simp only [Bool.and_eq_true, Bool.not_eq_true'] at hfits
      exact extend_vector hw hr (beq_eq_false_iff_ne.mp hf) hfits.1 hfits.2 (fun v => wrap_zx v _)
  | mto x =>
    obtain rfl := Option.some.inj hrow
    exact ⟨fun hf => absurd hf Bool.false_ne_true, fun _ hfits => mto_vector hw hr (by simpa using hfits)⟩
  | _ => exact nomatch hrow

theorem maskRow_result {i : Instr} {r : MaskRow} {s : State} (hrow : maskRow i = some r) (hw : i.wellFormed = true) (hfits : r.fits = true)
    (hr : Ready s = true) : ∃ t, exec i s = .next t ∧ MaskOutcome s t r.m.toNat (r.bit s) (fun _ => 0) := by
  cases i with
  | mlogAnd x =>
    obtain rfl := Option.some.inj hrow
    exact maskLogic_of_two (i := .mlogAnd x) (fun a b => a && b) hw hr rfl
  | mlogOr x =>
    obtain rfl := Option.some.inj hrow
    exact maskLogic_of_two (i := .mlogOr x) (fun a b => a || b) hw hr rfl
  | mlogXor x =>
    obtain rfl := Option.some.inj hrow
    exact maskLogic_of_two (i := .mlogXor x) (fun a b => a != b) hw hr rfl
  | mlogAndn x =>
    obtain rfl := Option.some.inj hrow
    exact maskLogic_of_two (i := .mlogAndn x) (fun a b => a && !b) hw hr rfl
  | mlogNot x =>
    obtain rfl := Option.some.inj hrow
    exact maskLogic_of_one (i := .mlogNot x) (fun a _ => !a) hw hr rfl
  | mlogCopy x =>
    obtain rfl := Option.some.inj hrow
    exact maskLogic_of_one (i := .mlogCopy x) (fun a _ => a) hw hr rfl
  | mlogSet d =>
    obtain rfl := Option.some.inj hrow
    exact maskLogic_result (i := .mlogSet d) (a := 0) (b := 0) (op := fun _ _ => true) hw hr (fun p hp => nomatch hp)
  | mlogClr d =>
    obtain rfl := Option.some.inj hrow
    exact maskLogic_result (i := .mlogClr d) (a := 0) (b := 0) (op := fun _ _ => false) hw hr (fun p hp => nomatch hp)
  | mfrom x =>
    obtain rfl := Option.some.inj hrow
    exact mfrom_result hw hr (by simpa using hfits)
  | _ => exact nomatch hrow

/-- Settles O40: the rows by `moveRow_result` and `maskRow_result`, SEL by `sel_result`, MCNT and MFIRST by `maskScalar_result`. -/
theorem moveAndMaskResult : Obligations.MoveAndMaskResult := by
  refine ⟨⟨fun i r s => moveRow_result, fun x s => sel_result⟩, fun i r s => maskRow_result, ?_⟩
  intro x s ha hr inS
  rw [exec_mcnt, exec_mfirst]
  refine ⟨fun hlen => ⟨maskScalar_of_past ha ha hr hlen, maskScalar_of_past ha ha hr hlen⟩, fun hlen => ⟨?_, ?_⟩⟩
  · exact maskScalar_result ha ha hr hlen
  · obtain ⟨t, ht, hout⟩ := maskScalar_result (i := .mfirst x) (f := fun h => ((List.range h.len).find? (maskSet h x.a.toNat)).elim
      (BitVec.allOnes 64) (BitVec.ofNat 64)) ha ha hr hlen
    refine ⟨t, ht, (congrArg (fun v => ScalarOutcome s t x.d v 0) ?_).mpr hout⟩
    show _ = ((List.range s.hart.len).find? inS).elim (BitVec.allOnes 64) (BitVec.ofNat 64)
    cases (List.range s.hart.len).find? inS <;> rfl

end Sys2Proof.Proofs
end

section
/-! O1, O2. The integer operations of R108 and R109 as bit-vector arithmetic. -/

namespace Sys2Proof.Proofs
open Sys2Proof Sys2Proof.Machine Sys2Proof.Spec

/-! ## Saturation (R12) -/

theorem sx_toNat {w : Nat} (a : BitVec w) : sx a.toNat w = a.toInt := by
  rw [sx_eq, BitVec.ofNat_toNat, BitVec.setWidth_eq]

theorem zx_toNat {w : Nat} (a : BitVec w) : zx a.toNat w = a.toNat := by
  rw [zx_eq, BitVec.ofNat_toNat, BitVec.setWidth_eq]

theorem ofInt_intMax (w : Nat) : BitVec.ofInt w (2 ^ (w - 1) - 1) = BitVec.intMax w := by
  rw [← BitVec.toInt_intMax, BitVec.ofInt_toInt]

theorem ofInt_intMin {w : Nat} (hw : 0 < w) : BitVec.ofInt w (- 2 ^ (w - 1)) = BitVec.intMin w := by
  have hlt : 2 ^ (w - 1) < 2 ^ w := Nat.pow_lt_pow_right (by decide) (by omega)
  have h : (- 2 ^ (w - 1) : Int) = (BitVec.intMin w).toInt := by
    rw [BitVec.toInt_intMin, Nat.mod_eq_of_lt hlt]
    norm_cast
  rw [h, BitVec.ofInt_toInt]

theorem ofInt_allOnes (w : Nat) : BitVec.ofInt w (2 ^ w - 1) = BitVec.allOnes w := by
  have h : (2 ^ w - 1 : Int) = ((2 ^ w - 1 : Nat) : Int) := by
    rw [Nat.cast_sub Nat.one_le_two_pow]
    norm_cast
  rw [h, BitVec.ofInt_natCast]
  apply BitVec.eq_of_toNat_eq
  rw [BitVec.toNat_ofNat, BitVec.toNat_allOnes, Nat.mod_eq_of_lt (Nat.sub_one_lt (by positivity))]

/-- A signed saturating sum or difference of value `v`, which is negative when it overflows downwards (`n`). -/
theorem sats_spec {w : Nat} (hw : 0 < w) {v : Int} {x : BitVec w} {o n : Bool} (hx : BitVec.ofInt w v = x)
    (ho : o = (decide (v ≥ 2 ^ (w - 1)) || decide (v < - 2 ^ (w - 1)))) (hn : o = true → (n = true ↔ v < 0)) :
    BitVec.ofInt w (sats v w).1 = (if o then (if n then BitVec.intMin w else BitVec.intMax w) else x) ∧ (sats v w).2 = o := by
  have hpos : (0 : Int) < 2 ^ (w - 1) := by positivity
  simp only [sats]
  by_cases hhi : v ≥ 2 ^ (w - 1)
  · have hv : v > 2 ^ (w - 1) - 1 := by omega
    obtain rfl : o = true := by simpa [hhi] using ho
    have hn' : n = false := by simpa [show ¬ v < 0 by omega] using hn rfl
    simp [hv, hn', ofInt_intMax]
  · have hv : ¬ v > 2 ^ (w - 1) - 1 := by omega
    by_cases hlo : v < - 2 ^ (w - 1)
    · obtain rfl : o = true := by simpa [hlo] using ho
      have hn' : n = true := (hn rfl).mpr (by omega)
      simp only [hv, hlo, hn', ↓reduceIte, ofInt_intMin hw, and_self]
    · obtain rfl : o = false := by simpa [hhi, hlo] using ho
      simp only [hv, hlo, ↓reduceIte, hx, Bool.false_eq_true, and_self]

theorem satu_spec (v : Int) (w : Nat) :
    BitVec.ofInt w (satu v w).1 = (if v ≥ 2 ^ w then BitVec.allOnes w else if v < 0 then 0#w else BitVec.ofInt w v) ∧
      (satu v w).2 = (decide (v ≥ 2 ^ w) || decide (v < 0)) := by
  have hpos : (0 : Int) < 2 ^ w := by positivity
  simp only [satu]
  by_cases hhi : v ≥ 2 ^ w
  · have hv : v > 2 ^ w - 1 := by omega
    simp [hv, hhi, ofInt_allOnes]
  · have hv : ¬ v > 2 ^ w - 1 := by omega
    by_cases hlo : v < 0 <;> simp [hv, hhi, hlo]

/-! ## The value functions of the model -/

section
variable {w : Nat} (a b : BitVec w)

theorem slt_zero_iff : (a.slt 0#w = true) ↔ a.toInt < 0 := by
  rw [BitVec.slt_iff_toInt_lt, BitVec.toInt_zero]

theorem ofInt_toInt_sub : BitVec.ofInt w (a.toInt - b.toInt) = a - b := by
  rw [Int.sub_eq_add_neg, BitVec.ofInt_add, BitVec.ofInt_neg, BitVec.ofInt_toInt, BitVec.ofInt_toInt, ← BitVec.sub_eq_add_neg]

theorem satSum_spec (hw : 0 < w) : BitVec.ofInt w (sats (a.toInt + b.toInt) w).1 =
      (if a.saddOverflow b then (if a.slt 0#w then BitVec.intMin w else BitVec.intMax w) else a + b) ∧
    (sats (a.toInt + b.toInt) w).2 = a.saddOverflow b := by
  refine sats_spec hw (by rw [BitVec.ofInt_add, BitVec.ofInt_toInt, BitVec.ofInt_toInt]) rfl fun ho => ?_
  have hb := BitVec.le_toInt b
  have hb' := BitVec.toInt_lt (x := b)
  simp only [BitVec.saddOverflow, Bool.or_eq_true, decide_eq_true_eq] at ho
  rw [slt_zero_iff]
  omega

theorem satDifference_spec (hw : 0 < w) : BitVec.ofInt w (sats (a.toInt - b.toInt) w).1 =
      (if a.ssubOverflow b then (if a.slt 0#w then BitVec.intMin w else BitVec.intMax w) else a - b) ∧
    (sats (a.toInt - b.toInt) w).2 = a.ssubOverflow b := by
  refine sats_spec hw (ofInt_toInt_sub a b) rfl fun ho => ?_
  have hb := BitVec.le_toInt b
  have hb' := BitVec.toInt_lt (x := b)
  simp only [BitVec.ssubOverflow, Bool.or_eq_true, decide_eq_true_eq] at ho
  rw [slt_zero_iff]
  omega

theorem satuSum_spec : BitVec.ofInt w (satu (a.toNat + b.toNat) w).1 = (if a.uaddOverflow b then BitVec.allOnes w else a + b) ∧
    (satu (a.toNat + b.toNat) w).2 = a.uaddOverflow b := by
  have hiff : ((a.toNat + b.toNat : Int) ≥ 2 ^ w) ↔ a.uaddOverflow b = true := by
    simp only [BitVec.uaddOverflow, decide_eq_true_eq]
    norm_cast
  have hpos : ¬ ((a.toNat + b.toNat : Int) < 0) := by omega
  obtain ⟨hval, hsat⟩ := satu_spec (a.toNat + b.toNat) w
  rw [hval, hsat]
  simp [hiff, hpos, BitVec.ofInt_add]

theorem satuDifference_spec : BitVec.ofInt w (satu (a.toNat - b.toNat) w).1 = (if a.usubOverflow b then 0#w else a - b) ∧
    (satu (a.toNat - b.toNat) w).2 = a.usubOverflow b := by
  have hlt : ¬ ((a.toNat - b.toNat : Int) ≥ 2 ^ w) := by
    have := a.isLt
    zify at this
    omega
  have hneg : ((a.toNat - b.toNat : Int) < 0) ↔ a.usubOverflow b = true := by
    simp only [BitVec.usubOverflow, decide_eq_true_eq]
    omega
  obtain ⟨hval, hsat⟩ := satu_spec (a.toNat - b.toNat) w
  have hsub : BitVec.ofInt w (a.toNat - b.toNat) = a - b := by
    rw [Int.sub_eq_add_neg, BitVec.ofInt_add, BitVec.ofInt_neg, BitVec.ofInt_natCast, BitVec.ofInt_natCast, ← BitVec.sub_eq_add_neg]
    simp
  rw [hval, hsat]
  simp [hlt, hneg, hsub]

theorem ofInt_min : BitVec.ofInt w (min a.toInt b.toInt) = if a.slt b then a else b := by
  rw [BitVec.slt_eq_decide]
  by_cases h : a.toInt < b.toInt
  · simp [h, min_eq_left h.le]
  · simp [h, min_eq_right (not_lt.mp h)]

theorem ofInt_max : BitVec.ofInt w (max a.toInt b.toInt) = if a.slt b then b else a := by
  rw [BitVec.slt_eq_decide]
  by_cases h : a.toInt < b.toInt
  · simp [h, max_eq_right h.le]
  · simp [h, max_eq_left (not_lt.mp h)]

theorem ofInt_minu : BitVec.ofInt w (min (a.toNat : Int) b.toNat) = if a.ult b then a else b := by
  rw [BitVec.ult_eq_decide]
  by_cases h : a.toNat < b.toNat
  · simp [h, min_eq_left (show (a.toNat : Int) ≤ b.toNat by omega)]
  · simp [h, min_eq_right (show (b.toNat : Int) ≤ a.toNat by omega)]

theorem ofInt_maxu : BitVec.ofInt w (max (a.toNat : Int) b.toNat) = if a.ult b then b else a := by
  rw [BitVec.ult_eq_decide]
  by_cases h : a.toNat < b.toNat
  · simp [h, max_eq_right (show (a.toNat : Int) ≤ b.toNat by omega)]
  · simp [h, max_eq_left (show (b.toNat : Int) ≤ a.toNat by omega)]

theorem ofInt_andn : BitVec.ofInt w ((a.toNat &&& (2 ^ w - 1 - b.toNat % 2 ^ w) : Nat) : Int) = a &&& ~~~ b := by
  rw [Nat.mod_eq_of_lt b.isLt, ← BitVec.toNat_not, ← BitVec.toNat_and, BitVec.ofInt_natCast, BitVec.ofNat_toNat, BitVec.setWidth_eq]

theorem ofInt_shiftLeft (k : Nat) : BitVec.ofInt w (a.toNat * (2 ^ k : Nat)) = a <<< k := by
  apply BitVec.eq_of_toNat_eq
  rw [← Int.natCast_mul, BitVec.ofInt_natCast, BitVec.toNat_ofNat, BitVec.toNat_shiftLeft, Nat.shiftLeft_eq]

theorem ofInt_shiftRight (k : Nat) : BitVec.ofInt w (a.toNat / (2 ^ k : Nat)) = a >>> k := by
  apply BitVec.eq_of_toNat_eq
  rw [← Int.natCast_ediv, BitVec.ofInt_natCast, BitVec.toNat_ofNat, BitVec.toNat_ushiftRight, Nat.shiftRight_eq_div_pow,
    Nat.mod_eq_of_lt (lt_of_le_of_lt (Nat.div_le_self _ _) a.isLt)]

theorem ofInt_sshiftRight (k : Nat) : BitVec.ofInt w (a.toInt / (2 ^ k : Nat)) = a.sshiftRight k := by
  rw [← Int.shiftRight_eq_div_pow, ← BitVec.toInt_sshiftRight, BitVec.ofInt_toInt]

theorem ofInt_rotr (hw : 0 < w) : BitVec.ofInt w (Machine.rotr w a.toNat b.toNat) = a.rotateRight (b.toNat % w) := by
  apply BitVec.eq_of_toNat_eq
  have hk : b.toNat % w < w := Nat.mod_lt _ hw
  rw [BitVec.ofInt_natCast, BitVec.toNat_ofNat, Machine.rotr, shiftCount, BitVec.toNat_rotateRight, Nat.mod_mod, Nat.mod_mod]
  generalize b.toNat % w = k at hk
  have hw2 : 2 ^ w = 2 ^ (w - k) * 2 ^ k := by rw [← Nat.pow_add]; congr 1; omega
  have hlow : a.toNat / 2 ^ k < 2 ^ (w - k) := Nat.div_lt_of_lt_mul (by rw [Nat.mul_comm, ← hw2]; exact a.isLt)
  have hhigh : a.toNat * 2 ^ (w - k) % 2 ^ w = 2 ^ (w - k) * (a.toNat % 2 ^ k) := by
    rw [hw2, Nat.mul_comm a.toNat, Nat.mul_mod_mul_left]
  rw [Nat.shiftRight_eq_div_pow, Nat.shiftLeft_eq, hhigh, Nat.or_comm, ← Nat.two_pow_add_eq_or_of_lt hlow, ← hhigh, Nat.add_mod,
    Nat.mod_eq_of_lt (lt_of_le_of_lt (Nat.div_le_self _ _) a.isLt), Nat.add_comm]
  refine Nat.mod_eq_of_lt ?_
  rw [hhigh]
  calc 2 ^ (w - k) * (a.toNat % 2 ^ k) + a.toNat / 2 ^ k < 2 ^ (w - k) * (a.toNat % 2 ^ k + 1) := by rw [Nat.mul_succ]; omega
    _ ≤ 2 ^ w := by rw [hw2]; exact Nat.mul_le_mul_left _ (Nat.mod_lt _ (by positivity))

theorem ofInt_tdiv : BitVec.ofInt w (a.toInt.tdiv b.toInt) = a.sdiv b := by
  apply BitVec.eq_of_toInt_eq
  rw [BitVec.toInt_ofInt, BitVec.toInt_sdiv]

theorem ofInt_udiv : BitVec.ofInt w (a.toNat / b.toNat) = a / b := by
  rw [← Int.natCast_ediv, ← BitVec.toNat_udiv, BitVec.ofInt_natCast, BitVec.ofNat_toNat, BitVec.setWidth_eq]

theorem ofInt_umod : BitVec.ofInt w (a.toNat % b.toNat) = a % b := by
  rw [← Int.natCast_emod, ← BitVec.toNat_umod, BitVec.ofInt_natCast, BitVec.ofNat_toNat, BitVec.setWidth_eq]

theorem ofInt_tmod : BitVec.ofInt w (a.toInt.tmod b.toInt) = a.srem b := by
  rw [← BitVec.toInt_srem, BitVec.ofInt_toInt]

end

/-! ## The rows of R108 and R109 -/

/-- An operation of the model answers as a row says: the trap of R109, or the row's value, saturation and flag. -/
def Answers (op : State → IOp) (r : IntRow) : Prop :=
  ∀ (s : State) (w : Nat), 0 < w → ∀ (a b : BitVec w) (d : Nat),
    (r.divides = true → b = 0 → s.hart.fctl.getLsbD 5 = true → op s w a.toNat b.toNat d = .error (0x09, BitVec.ofNat 64 a.toNat)) ∧
    ((r.divides = true → b = 0 → s.hart.fctl.getLsbD 5 = false) → ∃ v : IVal, op s w a.toNat b.toNat d = .ok v ∧
      BitVec.ofInt w v.v = r.val w a b (BitVec.ofNat w d) ∧ v.sat = r.sat w a b ∧ v.fl = if r.divides = true ∧ b = 0 then fDZ else 0)

theorem answers_of_pure {f : (w : Nat) → (a b d : Nat) → IVal} {r : IntRow} (hdiv : r.divides = false)
    (hv : ∀ (w : Nat), 0 < w → ∀ (a b : BitVec w) (d : Nat),
      BitVec.ofInt w (f w a.toNat b.toNat d).v = r.val w a b (BitVec.ofNat w d) ∧ (f w a.toNat b.toNat d).sat = r.sat w a b ∧
      (f w a.toNat b.toNat d).fl = 0) : Answers (pureOp f) r := by
  intro s w hw a b d
  obtain ⟨hval, hsat, hfl⟩ := hv w hw a b d
  refine ⟨fun h => absurd h (by simp [hdiv]), fun _ => ⟨_, rfl, hval, hsat, ?_⟩⟩
  simp [hfl, hdiv]

theorem divisor_eq_zero_iff {w : Nat} (signed : Bool) (b : BitVec w) :
    (if signed then sx b.toNat w else zx b.toNat w) = 0 ↔ b = 0#w := by
  cases signed
  · simp [zx_toNat, BitVec.toNat_eq]
  · simp [sx_toNat, ← BitVec.toInt_inj]

section
variable {w : Nat} {signed quot : Bool} {s : State} {a b : BitVec w} {d : Nat}

theorem divide_trap (hb : b = 0#w) (hz : s.hart.fctl.getLsbD 5 = true) :
    divide signed quot s w a.toNat b.toNat d = .error (0x09, BitVec.ofNat 64 a.toNat) := by
  rw [divide, if_pos ((divisor_eq_zero_iff signed b).mpr hb), if_pos hz, Nat.mod_eq_of_lt a.isLt]

theorem divide_by_zero (hb : b = 0#w) (hz : s.hart.fctl.getLsbD 5 = false) : divide signed quot s w a.toNat b.toNat d =
    .ok { v := if quot then 2 ^ w - 1 else if signed then a.toInt else a.toNat, fl := fDZ } := by
  rw [divide, if_pos ((divisor_eq_zero_iff signed b).mpr hb), if_neg (by simp only [hz, Bool.false_eq_true, not_false_eq_true]), sx_toNat, zx_toNat]

theorem divide_by_nonzero (hb : b ≠ 0#w) : divide signed quot s w a.toNat b.toNat d =
    .ok { v := if quot then (if signed then a.toInt.tdiv b.toInt else a.toNat / b.toNat)
      else if signed then a.toInt.tmod b.toInt else a.toNat % b.toNat } := by
  rw [divide, if_neg (mt (divisor_eq_zero_iff signed b).mp hb)]
  cases signed
  · simp [zx_toNat, Int.tdiv_eq_ediv_of_nonneg, Int.tmod_eq_emod_of_nonneg]
  · simp only [sx_toNat, ↓reduceIte]

end

/-- A quotient or remainder, whose value for a zero divisor and for every other one is that of the row. -/
theorem answers_divide {signed quot : Bool} {r : IntRow} (hdiv : r.divides = true) (hsat : ∀ w a b, r.sat w a b = false)
    (hzero : ∀ (w : Nat) (a d : BitVec w), r.val w a 0#w d = if quot then BitVec.allOnes w else a)
    (hne : ∀ (w : Nat) (a b d : BitVec w), b ≠ 0#w → r.val w a b d = BitVec.ofInt w
      (if quot then (if signed then a.toInt.tdiv b.toInt else a.toNat / b.toNat) else if signed then a.toInt.tmod b.toInt else a.toNat % b.toNat)) :
    Answers (divide signed quot) r := by
  intro s w hw a b d
  refine ⟨fun _ hb hz => divide_trap hb hz, fun h => ?_⟩
  by_cases hb : b = 0#w
  · refine ⟨_, divide_by_zero hb (h hdiv hb), ?_, (hsat w a b).symm, (if_pos ⟨hdiv, hb⟩).symm⟩
    rw [hb, hzero]
    cases quot
    · cases signed <;> simp
    · exact ofInt_allOnes w
  · exact ⟨_, divide_by_nonzero hb, (hne w a b _ hb).symm, (hsat w a b).symm, (if_neg fun h => hb h.2).symm⟩

/-- Each row of R108 and R109 is the shared form `intBinary` of an operation that answers as the row says. -/
theorem exec_intRow {i : Instr} {r : IntRow} (hrow : intRow i = some r) :
    ∃ (rd late : Bool) (op : State → IOp), (∀ s, exec i s = intBinary i r.x rd r.shift late op s) ∧ Answers op r := by
  cases i with
  | add x =>
    obtain rfl := Option.some.inj hrow
    refine ⟨_, _, _, fun _ => rfl, answers_of_pure rfl fun w hw a b d => ⟨?_, rfl, rfl⟩⟩
    simp [sx_toNat, BitVec.ofInt_add]
  | sub x =>
    obtain rfl := Option.some.inj hrow
    refine ⟨_, _, _, fun _ => rfl, answers_of_pure rfl fun w hw a b d => ⟨?_, rfl, rfl⟩⟩
    simp [sx_toNat, ofInt_toInt_sub]
  | adds x =>
    obtain rfl := Option.some.inj hrow
    refine ⟨_, _, _, fun _ => rfl, answers_of_pure rfl fun w hw a b d => ?_⟩
    simpa [satVal, sx_toNat] using satSum_spec a b hw
  | addsu x =>
    obtain rfl := Option.some.inj hrow
    refine ⟨_, _, _, fun _ => rfl, answers_of_pure rfl fun w hw a b d => ?_⟩
    simpa [satVal, zx_toNat] using satuSum_spec a b
  | subs x =>
    obtain rfl := Option.some.inj hrow
    refine ⟨_, _, _, fun _ => rfl, answers_of_pure rfl fun w hw a b d => ?_⟩
    simpa [satVal, sx_toNat] using satDifference_spec a b hw
  | subsu x =>
    obtain rfl := Option.some.inj hrow
    refine ⟨_, _, _, fun _ => rfl, answers_of_pure rfl fun w hw a b d => ?_⟩
    simpa [satVal, zx_toNat] using satuDifference_spec a b
  | mul x =>
    obtain rfl := Option.some.inj hrow
    refine ⟨_, _, _, fun _ => rfl, answers_of_pure rfl fun w hw a b d => ⟨?_, rfl, rfl⟩⟩
    simp [sx_toNat, BitVec.ofInt_mul]
  | mulh x =>
    obtain rfl := Option.some.inj hrow
    refine ⟨_, _, _, fun _ => rfl, answers_of_pure rfl fun w hw a b d => ⟨?_, rfl, rfl⟩⟩
    simp only [sx_toNat]
  | mulhu x =>
    obtain rfl := Option.some.inj hrow
    refine ⟨_, _, _, fun _ => rfl, answers_of_pure rfl fun w hw a b d => ⟨?_, rfl, rfl⟩⟩
    simp only [zx_toNat]
    rw [← Int.natCast_mul, ← Int.natCast_ediv, BitVec.ofInt_natCast]
  | mac x =>
    obtain rfl := Option.some.inj hrow
    refine ⟨_, _, _, fun _ => rfl, answers_of_pure rfl fun w hw a b d => ⟨?_, rfl, rfl⟩⟩
    simp [sx_eq, BitVec.ofInt_add, BitVec.ofInt_mul]
  | div x =>
    obtain rfl := Option.some.inj hrow
    refine ⟨_, _, _, fun _ => rfl, answers_divide rfl (fun _ _ _ => rfl) (fun w a d => by simp) fun w a b d hb => ?_⟩
    simp [hb, ofInt_tdiv]
  | divu x =>
    obtain rfl := Option.some.inj hrow
    refine ⟨_, _, _, fun _ => rfl, answers_divide rfl (fun _ _ _ => rfl) (fun w a d => by simp) fun w a b d hb => ?_⟩
    simp [hb, ofInt_udiv]
  | rem x =>
    obtain rfl := Option.some.inj hrow
    refine ⟨_, _, _, fun _ => rfl, answers_divide rfl (fun _ _ _ => rfl) (fun w a d => by simp) fun w a b d hb => ?_⟩
    simp [hb, ofInt_tmod]
  | remu x =>
    obtain rfl := Option.some.inj hrow
    refine ⟨_, _, _, fun _ => rfl, answers_divide rfl (fun _ _ _ => rfl) (fun w a d => by simp) fun w a b d hb => ?_⟩
    simp [hb, ofInt_umod]
  | min x =>
    obtain rfl := Option.some.inj hrow
    refine ⟨_, _, _, fun _ => rfl, answers_of_pure rfl fun w hw a b d => ⟨?_, rfl, rfl⟩⟩
    simp only [sx_toNat, ofInt_min]
  | minu x =>
    obtain rfl := Option.some.inj hrow
    refine ⟨_, _, _, fun _ => rfl, answers_of_pure rfl fun w hw a b d => ⟨?_, rfl, rfl⟩⟩
    simp only [zx_toNat, ofInt_minu]
  | max x =>
    obtain rfl := Option.some.inj hrow
    refine ⟨_, _, _, fun _ => rfl, answers_of_pure rfl fun w hw a b d => ⟨?_, rfl, rfl⟩⟩
    simp only [sx_toNat, ofInt_max]
  | maxu x =>
    obtain rfl := Option.some.inj hrow
    refine ⟨_, _, _, fun _ => rfl, answers_of_pure rfl fun w hw a b d => ⟨?_, rfl, rfl⟩⟩
    simp only [zx_toNat, ofInt_maxu]
  | and x =>
    obtain rfl := Option.some.inj hrow
    refine ⟨_, _, _, fun _ => rfl, answers_of_pure rfl fun w hw a b d => ⟨?_, rfl, rfl⟩⟩
    simp [← BitVec.toNat_and]
  | or x =>
    obtain rfl := Option.some.inj hrow
    refine ⟨_, _, _, fun _ => rfl, answers_of_pure rfl fun w hw a b d => ⟨?_, rfl, rfl⟩⟩
    simp [← BitVec.toNat_or]
  | xor x =>
    obtain rfl := Option.some.inj hrow
    refine ⟨_, _, _, fun _ => rfl, answers_of_pure rfl fun w hw a b d => ⟨?_, rfl, rfl⟩⟩
    simp [← BitVec.toNat_xor]
  | andn x =>
    obtain rfl := Option.some.inj hrow
    exact ⟨_, _, _, fun _ => rfl, answers_of_pure rfl fun w hw a b d => ⟨ofInt_andn a b, rfl, rfl⟩⟩
  | sll x =>
    obtain rfl := Option.some.inj hrow
    refine ⟨_, _, _, fun _ => rfl, answers_of_pure rfl fun w hw a b d => ⟨?_, rfl, rfl⟩⟩
    simp only [zx_toNat, shiftCount, ofInt_shiftLeft]
  | srl x =>
    obtain rfl := Option.some.inj hrow
    refine ⟨_, _, _, fun _ => rfl, answers_of_pure rfl fun w hw a b d => ⟨?_, rfl, rfl⟩⟩
    simp only [zx_toNat, shiftCount, ofInt_shiftRight]
  | sra x =>
    obtain rfl := Option.some.inj hrow
    refine ⟨_, _, _, fun _ => rfl, answers_of_pure rfl fun w hw a b d => ⟨?_, rfl, rfl⟩⟩
    simp only [sx_toNat, shiftCount, ofInt_sshiftRight]
  | rotr x =>
    obtain rfl := Option.some.inj hrow
    exact ⟨_, _, _, fun _ => rfl, answers_of_pure rfl fun w hw a b d => ⟨ofInt_rotr a b hw, rfl, rfl⟩⟩
  | _ => exact nomatch hrow

end Sys2Proof.Proofs
end

section
/-! O1, O2. The SS and vector forms of the integer instructions on a hart that nothing makes wait. -/

namespace Sys2Proof.Proofs
open Sys2Proof Sys2Proof.Machine Sys2Proof.Spec

/-! ## Operands (R27, R28, R106) -/

theorem toNat_immAt (z : Bool) (w : Nat) (b : BitVec 6) : (immAt z w b).toNat = immVal z w b := by
  cases z
  · rw [immAt, if_neg Bool.false_ne_true, immVal, if_neg Bool.false_ne_true, wrap_eq]
    rfl
  · rw [immAt, if_pos rfl, immVal, if_pos rfl, BitVec.toNat_setWidth]

theorem toNat_secondScalar (s : State) (wc : BitVec 3) (z : Bool) (w : Nat) (b : BitVec 6) :
    (secondScalar s wc z w b).toNat = if wc.getLsbD 0 then immVal z w b else (s.hart.rs b).toNat % 2 ^ w := by
  unfold secondScalar
  split
  · exact toNat_immAt z w b
  · exact BitVec.toNat_ofNat _ _

theorem bVal_ready {s : State} (hr : Ready s = true) (f : BitVec 2) (z : Bool) (w : Nat) (b : BitVec 6) (j : Nat) :
    bVal s f z w b j (s.hart.row j) = (secondAt s f z w b j).toNat := by
  unfold bVal secondAt
  split
  · exact fetch_ready hr w b false j
  · split
    · exact (BitVec.toNat_ofNat _ _).symm
    · exact (toNat_immAt z w b).symm

theorem scalarWidth_cases (wc : BitVec 3) : scalarWidth wc = 32 ∨ scalarWidth wc = 64 := by
  unfold scalarWidth
  split
  · exact .inl rfl
  · exact .inr rfl

theorem scalarWidth_pos (wc : BitVec 3) : 0 < scalarWidth wc := by
  rcases scalarWidth_cases wc with h | h <;> rw [h] <;> decide

theorem widthOf_pos (wc : BitVec 3) : 0 < widthOf wc := Nat.two_pow_pos _

/-! ## The SS form -/

/-- An instruction that writes s[d], raises flags and retires. -/
theorem scalarOutcome_flags (s : State) (d : BitVec 6) (v : Word) (fl : Flags) :
    ScalarOutcome s (s.setHart ((s.hart.ws d v).orFlags fl).retire) d v fl := by
  obtain ⟨hrs, hrest⟩ := hart_writeRetire s.hart d v
  refine ⟨onlyHart_setHart _ _, ?_, ?_⟩
  · rw [State.hart_setHart]
    exact hrs
  · rw [State.hart_setHart]
    unfold Hart.ws
    split <;> rfl

section
variable {x : ArgsA} {w : Nat} {rd z late : Bool} {fin : Int → Word} {op : State → IOp} {s : State} (hr : Ready s = true)
include hr

theorem intScalar_of_ok {v : IVal} (hv : op s w (BitVec.ofNat w (s.hart.rs x.a).toNat).toNat (secondScalar s x.w z w x.b).toNat
    (s.hart.rs x.d).toNat = .ok v) : ∃ t, intScalar x w rd z late fin op s = .ok t ∧
      ScalarOutcome s t x.d (fin v.v) (v.fl ||| if v.sat then fSAT else 0) := by
  refine ⟨_, ?_, scalarOutcome_flags s x.d _ _⟩
  rw [BitVec.toNat_ofNat, toNat_secondScalar] at hv
  have hfull := ready_allFull hr
  rw [intScalar, readScalars_full _ _ _ hfull, destFree_full _ _ _ hfull]
  simp only [hv]
  cases late
  · rfl
  · exact congrArg Res.ok (enter_now _ _ _ _ _ _ _ (show s.sched.late = false from ready_late hr))

theorem intScalar_of_error {c : Nat} {v : Word} (hv : op s w (BitVec.ofNat w (s.hart.rs x.a).toNat).toNat
    (secondScalar s x.w z w x.b).toNat (s.hart.rs x.d).toNat = .error (c, v)) : intScalar x w rd z late fin op s = .trap c 0 v 0 s := by
  rw [BitVec.toNat_ofNat, toNat_secondScalar] at hv
  have hfull := ready_allFull hr
  rw [intScalar, readScalars_full _ _ _ hfull, destFree_full _ _ _ hfull]
  simp only [hv]

end

theorem intBinary_scalar {i : Instr} {x : ArgsA} (hw : i.wellFormed = true) (hf : x.f = 3) (rd z late : Bool) (op : State → IOp) (s : State) :
    intBinary i x rd z late op s = (intScalar x (scalarWidth x.w) rd z late (ssResult (scalarWidth x.w)) op s).out := by
  rw [intBinary, issue_wf _ _ _ hw, if_pos hf]
  rfl

theorem intBinary_vector {i : Instr} {x : ArgsA} (hw : i.wellFormed = true) (hf : x.f ≠ 3) (rd z late : Bool) (op : State → IOp) (s : State) :
    intBinary i x rd z late op s = (intVector i x (widthOf x.w) (widthOf x.w) rd z late op s).out := by
  rw [intBinary, issue_wf _ _ _ hw, if_neg hf]

/-- Settles O1: each row is `intBinary` of an operation that answers as the row says. -/
theorem integerScalarResult : Obligations.IntegerScalarResult := by
  intro i r s hrow hw hf hr
  dsimp only
  intro hz
  obtain ⟨rd, late, op, hexec, hop⟩ := exec_intRow hrow
  obtain ⟨v, hv, hval, hsat, hfl⟩ := (hop s _ (scalarWidth_pos r.x.w) (BitVec.ofNat _ (s.hart.rs r.x.a).toNat)
    (secondScalar s r.x.w r.shift (scalarWidth r.x.w) r.x.b) (s.hart.rs r.x.d).toNat).2 hz
  obtain ⟨t, ht, hout⟩ := intScalar_of_ok (rd := rd) (late := late) (fin := ssResult (scalarWidth r.x.w)) hr hv
  rw [ssResult_eq _ _ (scalarWidth_cases r.x.w), hval, hsat, hfl, BitVec.or_comm] at hout
  refine ⟨t, ?_, hout⟩
  rw [hexec, intBinary_scalar hw hf, ht]
  rfl

/-! ## The vector forms -/

section
variable {i : Instr} {x : ArgsA} {w wd : Nat} {rd z late : Bool} {op : State → IOp} {s : State} (hr : Ready s = true)
include hr

/-- The vector forms of the classes IB, IM and IW, where the operation answers a value for every performed element. -/
theorem intVector_result (hd : overruns wd x.d.toNat = false) (ha : overruns w x.a.toNat = false)
    (hb : x.f = 0 → overruns w x.b.toNat = false) {val : Nat → BitVec wd} {sat : Nat → Bool} {fl : Nat → Flags}
    (hop : ∀ j, performed s.hart j = true → ∃ v : IVal,
      op s w (sliceAt s w x.a j).toNat (secondAt s x.f z w x.b j).toNat (sliceAt s wd x.d j).toNat = .ok v ∧
      BitVec.ofInt wd v.v = val j ∧ v.sat = sat j ∧ v.fl = fl j) :
    ∃ t, intVector i x w wd rd z late op s = .ok t ∧ VectorOutcome s t wd x.d.toNat (fun j => (val j).toNat) sat fl := by
  refine elementwise_vector i _ late _ s wd x.d.toNat _ sat fl hr ?_ rfl rfl rfl fun j hj => ⟨false, ?_⟩
  · cases rd <;> simp [Shape.ok, hd, ha, bSrc_fits hb]
  · obtain ⟨v, hv, hval, hsat, hfl⟩ := hop j hj
    rw [fetch_ready hr, fetch_ready hr, bVal_ready hr, hv]
    dsimp only
    rw [wrap_eq, hval, hsat, hfl]

end

/-- Settles O2: each row is `intBinary` of an operation that answers as the row says. -/
theorem integerVectorResult : Obligations.IntegerVectorResult := by
  intro i r s hrow hw hf hr
  dsimp only
  intro hd ha hb hz
  obtain ⟨rd, late, op, hexec, hop⟩ := exec_intRow hrow
  obtain ⟨t, ht, hout⟩ := intVector_result (i := i) (rd := rd) (z := r.shift) (late := late) (op := op) hr hd ha hb
    (val := fun j => r.val _ (sliceAt s _ r.x.a j) (secondAt s r.x.f r.shift _ r.x.b j) (sliceAt s _ r.x.d j))
    (sat := fun j => r.sat _ (sliceAt s _ r.x.a j) (secondAt s r.x.f r.shift _ r.x.b j))
    (fl := fun j => if r.divides = true ∧ secondAt s r.x.f r.shift _ r.x.b j = 0 then fDZ else 0) fun j hj => by
      obtain ⟨v, hv, hval, hrest⟩ := (hop s _ (widthOf_pos r.x.w) (sliceAt s _ r.x.a j) (secondAt s r.x.f r.shift _ r.x.b j)
        (sliceAt s (widthOf r.x.w) r.x.d j).toNat).2 fun h1 h2 => Bool.eq_false_iff.mpr fun h3 => hz h1 h3 j hj h2
      rw [BitVec.ofNat_toNat, BitVec.setWidth_eq] at hval
      exact ⟨v, hv, hval, hrest⟩
  refine ⟨t, ?_, hout⟩
  rw [hexec, intBinary_vector hw hf, ht]
  rfl

end Sys2Proof.Proofs
end


section
/-! O3. ABS, NEG, POPC and CLZ (R111). -/

namespace Sys2Proof.Proofs
open Sys2Proof Sys2Proof.Machine Sys2Proof.Spec

/-! ## The values -/

section
variable {w : Nat} (a : BitVec w)

theorem ofInt_natAbs : BitVec.ofInt w a.toInt.natAbs = if a.slt 0#w then -a else a := by
  by_cases h : a.toInt < 0
  · rw [if_pos ((slt_zero_iff a).mpr h), Int.ofNat_natAbs_of_nonpos h.le, BitVec.ofInt_neg, BitVec.ofInt_toInt]
  · rw [if_neg (mt (slt_zero_iff a).mp h), Int.natAbs_of_nonneg (not_lt.mp h), BitVec.ofInt_toInt]

theorem popCount_eq_countP (n : Nat) : popCount a.toNat n = (List.range n).countP (fun k => a.getLsbD k) := by
  induction n with
  | zero => rfl
  | succ n ih =>
    rw [popCount, ih, List.range_succ, List.countP_append, List.countP_singleton, BitVec.testBit_toNat, Nat.add_comm]
    cases a.getLsbD n <;> rfl

theorem ofNat_leadZeros : BitVec.ofNat w (leadZeros w a.toNat) = a.clz := by
  rw [leadZeros, Nat.mod_eq_of_lt a.isLt]
  split
  · next h => exact (BitVec.clz_eq_iff_eq_zero.mpr (BitVec.eq_of_toNat_eq (by simpa using h))).symm
  · next h =>
    have hne : a ≠ 0#w := fun he => h (by rw [he]; simp)
    have hw : 0 < w := Nat.pos_of_ne_zero fun h0 => by
      subst h0
      exact hne (Subsingleton.elim _ _)
    have hclz : a.clz.toNat < w := by
      have hlt := BitVec.lt_def.mp (BitVec.clz_lt_iff_ne_zero.mpr hne)
      exact lt_of_lt_of_le hlt ((BitVec.toNat_ofNat w w).le.trans (Nat.mod_le _ _))
    have hlog : a.toNat.log2 = w - 1 - a.clz.toNat := by
      refine (Nat.log2_eq_iff h).mpr ⟨BitVec.two_pow_sub_clz_le_toNat_of_ne_zero hw hne, ?_⟩
      rw [show w - 1 - a.clz.toNat + 1 = w - a.clz.toNat by omega]
      exact BitVec.toNat_lt_two_pow_sub_clz
    rw [hlog, show w - 1 - (w - 1 - a.clz.toNat) = a.clz.toNat by omega, BitVec.ofNat_toNat, BitVec.setWidth_eq]

end

/-- Each row of R111 is the shared form `intUnary` of a value function that gives the row's value. -/
theorem exec_unaryRow {i : Instr} {r : UnaryRow} (hrow : unaryRow i = some r) :
    ∃ f : Nat → Nat → Int, (∀ s, exec i s = intUnary i r.x f s) ∧ ∀ (w : Nat) (a : BitVec w), BitVec.ofInt w (f w a.toNat) = r.val w a := by
  cases i with
  | abs x =>
    obtain rfl := Option.some.inj hrow
    refine ⟨fun w a => (sx a w).natAbs, fun _ => rfl, fun w a => ?_⟩
    simp only [sx_toNat, ofInt_natAbs]
  | neg x =>
    obtain rfl := Option.some.inj hrow
    refine ⟨fun w a => - sx a w, fun _ => rfl, fun w a => ?_⟩
    simp only [sx_toNat, BitVec.ofInt_neg, BitVec.ofInt_toInt]
  | popc x =>
    obtain rfl := Option.some.inj hrow
    refine ⟨fun w a => popCount a w, fun _ => rfl, fun w a => ?_⟩
    simp only [BitVec.ofInt_natCast, popCount_eq_countP]
  | clz x =>
    obtain rfl := Option.some.inj hrow
    refine ⟨fun w a => leadZeros w a, fun _ => rfl, fun w a => ?_⟩
    simp only [BitVec.ofInt_natCast, ofNat_leadZeros]
  | _ => exact nomatch hrow

/-! ## The forms -/

theorem unary_wellFormed {i : Instr} {r : UnaryRow} (hrow : unaryRow i = some r) : i.wellFormed = legalIU r.x.f r.x.w := by
  cases i with
  | abs | neg | popc | clz =>
    obtain rfl := Option.some.inj hrow
    rfl
  | _ => exact nomatch hrow

/-- An instruction whose meaning begins with the checks of R38 and that fails them is illegal. -/
theorem illegal_of_issue {i : Instr} {s : State} {body : State → Res} (hexec : exec i s = issue i s body) (hw : i.wellFormed = false) :
    Illegal i s := by
  intro htlvl
  obtain ⟨t, ht, hout⟩ := trapOutcome_of_trap htlvl 0x01 s.hart.eidx.toNat ((wordOf i).zeroExtend 64) 0
  refine ⟨t, ?_, hout⟩
  rw [hexec, issue, if_neg (by simp only [hw, Bool.false_eq_true, not_false_eq_true]), ht]

theorem intUnary_scalar {i : Instr} {x : ArgsU} {f : Nat → Nat → Int} {s : State} (hw : i.wellFormed = true) (hr : Ready s = true)
    (hf : x.f = 3) : ∃ t, intUnary i x f s = .next t ∧ ScalarOutcome s t x.d
      ((BitVec.ofInt (scalarWidth x.w) (f (scalarWidth x.w) (BitVec.ofNat (scalarWidth x.w) (s.hart.rs x.a).toNat).toNat)).signExtend 64) 0 := by
  have hfull := ready_allFull hr
  refine ⟨_, ?_, scalarOutcome_retire s x.d _⟩
  rw [intUnary, issue_wf _ _ _ hw, if_pos hf, readScalars_full _ _ _ hfull, destFree_full _ _ _ hfull,
    ← ssResult_eq _ _ (scalarWidth_cases x.w), BitVec.toNat_ofNat]
  rfl

theorem intUnary_vector {i : Instr} {x : ArgsU} {f : Nat → Nat → Int} {s : State} (hw : i.wellFormed = true) (hr : Ready s = true)
    (hf : x.f ≠ 3) (hd : overruns (widthOf x.w) x.d.toNat = false) (ha : overruns (widthOf x.w) x.a.toNat = false) :
    ∃ t, intUnary i x f s = .next t ∧ VectorOutcome s t (widthOf x.w) x.d.toNat
      (fun j => (BitVec.ofInt (widthOf x.w) (f (widthOf x.w) (sliceAt s (widthOf x.w) x.a j).toNat)).toNat) (fun _ => false) (fun _ => 0) := by
  obtain ⟨t, ht, hout⟩ := elementwise_vector i { srcs := [⟨widthOf x.w, x.a.toNat, x.p⟩], dsts := [⟨widthOf x.w, x.d.toNat⟩] } false
    (fun s i row =>
      let v := wrap (f (widthOf x.w) (fetch s ⟨widthOf x.w, x.a.toNat, false⟩ i row)) (widthOf x.w)
      .ok { row := putElem row (widthOf x.w) x.d.toNat v }) s
    (widthOf x.w) x.d.toNat (fun j => (BitVec.ofInt (widthOf x.w) (f (widthOf x.w) (sliceAt s (widthOf x.w) x.a j).toNat)).toNat)
    (fun _ => false) (fun _ => 0) hr (by simp [Shape.ok, hd, ha]) rfl rfl rfl
    (fun j _ => ⟨false, by rw [fetch_ready hr, wrap_eq]⟩)
  refine ⟨t, ?_, hout⟩
  rw [intUnary, issue_wf _ _ _ hw, if_neg hf]
  exact congrArg Res.out ht

/-- Settles O3: the codes by computation, the illegal forms by `unary_wellFormed`, the values by `exec_unaryRow`. -/
theorem unaryResult : Obligations.UnaryResult := by
  refine ⟨fun x => ⟨rfl, rfl, rfl, rfl⟩, fun i r s hrow hf hwc => ?_, fun i r s hrow hw hr => ⟨?_, ?_⟩⟩
  · obtain ⟨f, hexec, -⟩ := exec_unaryRow hrow
    refine illegal_of_issue (hexec s) ?_
    rw [unary_wellFormed hrow, hf]
    rcases hwc with h | h <;> rw [h] <;> decide
  · obtain ⟨f, hexec, hval⟩ := exec_unaryRow hrow
    dsimp only
    intro hf
    rw [hexec, ← hval]
    exact intUnary_scalar hw hr hf
  · obtain ⟨f, hexec, hval⟩ := exec_unaryRow hrow
    dsimp only
    intro hf hd ha
    simp only [hexec, ← hval]
    exact intUnary_vector hw hr hf hd ha

end Sys2Proof.Proofs
end

section
/-! O37. The widening instructions (R112), and NARROW and NARROWU (R113). -/

namespace Sys2Proof.Proofs
open Sys2Proof Sys2Proof.Machine Sys2Proof.Spec

/-! ## Widening -/

/-- Each row of R112 is the shared form `intWide` of an operation that gives the row's value. -/
theorem exec_wideRow {i : Instr} {r : WideRow} (hrow : wideRow i = some r) :
    ∃ (rd : Bool) (f : (w : Nat) → (a b d : Nat) → Int), (∀ s, exec i s = intWide i r.x rd (pureOp fun w a b d => { v := f w a b d }) s) ∧
      ∀ (w : Nat) (a b : BitVec w) (d : Nat), BitVec.ofInt (2 * w) (f w a.toNat b.toNat d) = r.val w a b (BitVec.ofNat (2 * w) d) := by
  cases i with
  | wadd x =>
    obtain rfl := Option.some.inj hrow
    refine ⟨_, _, fun _ => rfl, fun w a b d => ?_⟩
    rw [sx_toNat, sx_toNat, BitVec.ofInt_add]
    rfl
  | waddu x =>
    obtain rfl := Option.some.inj hrow
    refine ⟨_, _, fun _ => rfl, fun w a b d => ?_⟩
    rw [zx_toNat, zx_toNat, BitVec.ofInt_add, BitVec.ofInt_natCast, BitVec.ofInt_natCast, BitVec.ofNat_toNat, BitVec.ofNat_toNat]
  | wmul x =>
    obtain rfl := Option.some.inj hrow
    refine ⟨_, _, fun _ => rfl, fun w a b d => ?_⟩
    rw [sx_toNat, sx_toNat, BitVec.ofInt_mul]
    rfl
  | wmulu x =>
    obtain rfl := Option.some.inj hrow
    refine ⟨_, _, fun _ => rfl, fun w a b d => ?_⟩
    rw [zx_toNat, zx_toNat, BitVec.ofInt_mul, BitVec.ofInt_natCast, BitVec.ofInt_natCast, BitVec.ofNat_toNat, BitVec.ofNat_toNat]
  | wmac x =>
    obtain rfl := Option.some.inj hrow
    refine ⟨_, _, fun _ => rfl, fun w a b d => ?_⟩
    rw [sx_toNat, sx_toNat, BitVec.ofInt_add, BitVec.ofInt_mul, sx_eq, BitVec.ofInt_toInt]
    rfl
  | wmacu x =>
    obtain rfl := Option.some.inj hrow
    refine ⟨_, _, fun _ => rfl, fun w a b d => ?_⟩
    rw [zx_toNat, zx_toNat, BitVec.ofInt_add, BitVec.ofInt_mul, zx_eq, BitVec.ofInt_natCast, BitVec.ofInt_natCast, BitVec.ofInt_natCast,
      BitVec.ofNat_toNat, BitVec.ofNat_toNat, BitVec.ofNat_toNat, BitVec.setWidth_eq]
  | _ => exact nomatch hrow

theorem wideningResult : Spec.WideningResult := by
  intro i r s hrow hw hr
  obtain ⟨rd, f, hexec, hval⟩ := exec_wideRow hrow
  refine ⟨fun hf => ?_, ?_⟩
  · have hd : BitVec.ofNat (2 * 32) (s.hart.rs r.x.d).toNat = s.hart.rs r.x.d := by rw [BitVec.ofNat_toNat, BitVec.setWidth_eq]
    have hfl : (0 : Flags) ||| (if false = true then fSAT else 0) = 0 := by decide
    obtain ⟨t, ht, hout⟩ := intScalar_of_ok (x := r.x) (w := 32) (z := false) (rd := rd) (late := false) (fin := word)
      (op := pureOp fun w a b d => { v := f w a b d }) hr rfl
    refine ⟨t, ?_, ?_⟩
    · rw [hexec, intWide, issue_wf _ _ _ hw, if_pos hf, ht]
      rfl
    · rw [← hd, ← hval, ← hfl]
      exact hout
  · dsimp only
    intro hf hd ha hb
    obtain ⟨t, ht, hout⟩ := intVector_result (i := i) (rd := rd) (z := false) (late := false)
      (op := pureOp fun w a b d => { v := f w a b d }) hr hd ha hb
      (val := fun j => r.val _ (sliceAt s _ r.x.a j) (secondAt s r.x.f false _ r.x.b j) (sliceAt s _ r.x.d j))
      (sat := fun _ => false) (fl := fun _ => 0) fun j _ => by
        refine ⟨_, rfl, ?_, rfl, rfl⟩
        rw [hval, BitVec.ofNat_toNat, BitVec.setWidth_eq]
    refine ⟨t, ?_, hout⟩
    rw [hexec, intWide, issue_wf _ _ _ hw, if_neg hf, ht]
    rfl

/-! ## Narrowing -/

/-- The rounding shift of R113: to nearest, and to the even one of two that are equally near. -/
theorem roundShift_nearest (n : Int) (c : Nat) : 2 * |n - roundShift n c * 2 ^ c| ≤ 2 ^ c ∧
    (2 * |n - roundShift n c * 2 ^ c| = 2 ^ c → roundShift n c % 2 = 0) := by
  obtain ⟨p, hp⟩ : ∃ p : Int, p = 2 ^ c := ⟨_, rfl⟩
  have hcast : ((2 ^ c : Nat) : Int) = p := by rw [hp]; norm_cast
  have hpos : 0 < p := by rw [hp]; positivity
  have hlow := Int.emod_nonneg n hpos.ne'
  have hhigh := Int.emod_lt_of_pos n hpos
  have hdiv : n - n / p * p = n % p := by rw [Int.emod_def, Int.mul_comm]
  have hzero : c = 0 → p = 1 := fun h => by rw [hp, h, pow_zero]
  simp only [roundShift, hcast, ← hp]
  split
  · next h =>
    have hneg : n - (n / p + 1) * p = - (p - n % p) := by rw [← hdiv]; ring
    rw [hneg, abs_neg, abs_of_nonneg (by omega)]
    omega
  · next h =>
    rw [hdiv, abs_of_nonneg hlow]
    by_cases hc : c = 0
    · have := hzero hc
      omega
    · omega

theorem sats_clamp (q : Int) (w : Nat) : (sats q w).1 = max (-(2 ^ (w - 1))) (min (2 ^ (w - 1) - 1) q) ∧
    (sats q w).2 = decide (q < -(2 ^ (w - 1)) ∨ 2 ^ (w - 1) - 1 < q) := by
  have hpos : (0 : Int) < 2 ^ (w - 1) := by positivity
  simp only [sats]
  split
  · refine ⟨by omega, (decide_eq_true (by omega)).symm⟩
  · split
    · refine ⟨by omega, (decide_eq_true (by omega)).symm⟩
    · refine ⟨by omega, (decide_eq_false (by omega)).symm⟩

theorem satu_clamp (q : Int) (w : Nat) : (satu q w).1 = max 0 (min (2 ^ w - 1) q) ∧ (satu q w).2 = decide (q < 0 ∨ 2 ^ w - 1 < q) := by
  have hpos : (0 : Int) < 2 ^ w := by positivity
  simp only [satu]
  split
  · refine ⟨by omega, (decide_eq_true (by omega)).symm⟩
  · split
    · refine ⟨by omega, (decide_eq_true (by omega)).symm⟩
    · refine ⟨by omega, (decide_eq_false (by omega)).symm⟩

/-- The clamp of NARROW (signed) and NARROWU, and whether it changed the value. -/
def clamped (signed : Bool) (q : Int) (w : Nat) : Int × Bool := if signed then sats q w else satu q w

theorem clamped_eq (signed : Bool) (q : Int) (w : Nat) :
    (clamped signed q w).1 = max (if signed then -(2 ^ (w - 1)) else 0) (min (if signed then 2 ^ (w - 1) - 1 else 2 ^ w - 1) q) ∧
    (clamped signed q w).2 = decide (q < (if signed then -(2 ^ (w - 1)) else 0) ∨ (if signed then 2 ^ (w - 1) - 1 else 2 ^ w - 1) < q) := by
  cases signed
  · exact satu_clamp q w
  · exact sats_clamp q w

/-- The count of R113: a scalar, at most 2w − 1, or the immediate. -/
def narrowCount (s : State) (x : ArgsA) : Nat := if x.f = 1 then min (s.hart.rs x.b).toNat (2 * widthOf x.w - 1) else x.b.toNat

/-- Element j of the source as NARROW (signed) and NARROWU read it. -/
def narrowSource (s : State) (x : ArgsA) (signed : Bool) (j : Nat) : Int :=
  if signed then (sliceAt s (2 * widthOf x.w) x.a j).toInt else (sliceAt s (2 * widthOf x.w) x.a j).toNat

theorem intNarrow_result {i : Instr} {x : ArgsA} {signed : Bool} {s : State} (hw : i.wellFormed = true) (hr : Ready s = true)
    (hd : overruns (widthOf x.w) x.d.toNat = false) (ha : overruns (2 * widthOf x.w) x.a.toNat = false) :
    ∃ t, intNarrow i x signed s = .next t ∧ VectorOutcome s t (widthOf x.w) x.d.toNat
      (fun j => (BitVec.ofInt (widthOf x.w) (clamped signed (roundShift (narrowSource s x signed j) (narrowCount s x)) (widthOf x.w)).1).toNat)
      (fun j => (clamped signed (roundShift (narrowSource s x signed j) (narrowCount s x)) (widthOf x.w)).2) (fun _ => 0) := by
  obtain ⟨t, ht, hout⟩ := elementwise_vector i
    { srcs := [⟨2 * widthOf x.w, x.a.toNat, x.p⟩], dsts := [⟨widthOf x.w, x.d.toNat⟩], reads := bReg x.f x.b x.q, sats := true } false
    (fun s i row =>
      let c := if x.f = 1 then min (s.hart.rs x.b).toNat (2 * widthOf x.w - 1) else x.b.toNat
      let a := fetch s ⟨2 * widthOf x.w, x.a.toNat, false⟩ i row
      let q := roundShift (if signed then sx a (2 * widthOf x.w) else zx a (2 * widthOf x.w)) c
      let r := if signed then sats q (widthOf x.w) else satu q (widthOf x.w)
      .ok { row := putElem row (widthOf x.w) x.d.toNat (wrap r.1 (widthOf x.w)), sat := r.2 }) s
    (widthOf x.w) x.d.toNat
    (fun j => (BitVec.ofInt (widthOf x.w) (clamped signed (roundShift (narrowSource s x signed j) (narrowCount s x)) (widthOf x.w)).1).toNat)
    (fun j => (clamped signed (roundShift (narrowSource s x signed j) (narrowCount s x)) (widthOf x.w)).2) (fun _ => 0)
    hr (by simp [Shape.ok, hd, ha]) rfl rfl rfl fun j _ => ⟨false, by
      dsimp only
      rw [fetch_ready hr, sx_toNat, zx_toNat, wrap_eq]
      rfl⟩
  refine ⟨t, ?_, hout⟩
  rw [intNarrow, issue_wf _ _ _ hw]
  exact congrArg Res.out ht

theorem narrowResult : Spec.NarrowResult := by
  intro x s signed hw hr
  dsimp only
  intro hd ha
  obtain ⟨t, ht, hout⟩ := intNarrow_result (signed := signed) hw hr hd ha
  simp only [clamped_eq] at hout
  refine ⟨t, fun j => roundShift (narrowSource s x signed j) (narrowCount s x), ?_, fun j => ?_, hout⟩
  · rw [← ht]
    cases signed <;> rfl
  · exact roundShift_nearest (narrowSource s x signed j) (narrowCount s x)

/-- Settles O37: the rows of R112 by `exec_wideRow`, and R113 by the nearest quotient `roundShift` and its clamp. -/
theorem widthChangeResult : Obligations.WidthChangeResult := ⟨wideningResult, narrowResult⟩

end Sys2Proof.Proofs
end


section
/-! O39. The integer comparisons (R114) and the float comparisons (R129). -/

namespace Sys2Proof.Proofs
open Sys2Proof Sys2Proof.Machine Sys2Proof.Spec

/-! ## Integers (R114) -/

/-- Each row of R114 is the shared form `intCompare` of the row's test. -/
theorem exec_compareRow {i : Instr} {r : CompareRow} (hrow : compareRow i = some r) :
    ∃ p : Nat → Nat → Nat → Bool, (∀ s, exec i s = intCompare i r.x p s) ∧
      ∀ (w : Nat) (a b : BitVec w), p w a.toNat b.toNat = r.test w a b := by
  cases i with
  | cmpeq x =>
    obtain rfl := Option.some.inj hrow
    refine ⟨fun _ a b => a == b, fun _ => rfl, fun w a b => ?_⟩
    rw [Bool.eq_iff_iff]
    simp [BitVec.toNat_eq]
  | cmpne x =>
    obtain rfl := Option.some.inj hrow
    refine ⟨fun _ a b => a != b, fun _ => rfl, fun w a b => ?_⟩
    rw [Bool.eq_iff_iff]
    simp [BitVec.toNat_eq]
  | cmplt x =>
    obtain rfl := Option.some.inj hrow
    refine ⟨fun w a b => decide (sx a w < sx b w), fun _ => rfl, fun w a b => ?_⟩
    simp only [sx_toNat, BitVec.slt_eq_decide]
  | cmpltu x =>
    obtain rfl := Option.some.inj hrow
    refine ⟨fun w a b => decide (zx a w < zx b w), fun _ => rfl, fun w a b => ?_⟩
    simp only [zx_toNat, BitVec.ult_eq_decide, Int.ofNat_lt]
  | cmple x =>
    obtain rfl := Option.some.inj hrow
    refine ⟨fun w a b => decide (sx a w ≤ sx b w), fun _ => rfl, fun w a b => ?_⟩
    simp only [sx_toNat, BitVec.sle_eq_decide]
  | cmpleu x =>
    obtain rfl := Option.some.inj hrow
    refine ⟨fun w a b => decide (zx a w ≤ zx b w), fun _ => rfl, fun w a b => ?_⟩
    simp only [zx_toNat, BitVec.ule_eq_decide, Int.ofNat_le]
  | _ => exact nomatch hrow

section
variable {i : Instr} {x : ArgsA} {p : Nat → Nat → Nat → Bool} {s : State} (hw : i.wellFormed = true) (hr : Ready s = true)
include hw hr

theorem intCompare_scalar (hf : x.f = 3) : ∃ t, intCompare i x p s = .next t ∧ ScalarOutcome s t x.d
    (if p (scalarWidth x.w) (BitVec.ofNat (scalarWidth x.w) (s.hart.rs x.a).toNat).toNat
      (secondScalar s x.w false (scalarWidth x.w) x.b).toNat then 1 else 0) 0 := by
  have hfull := ready_allFull hr
  refine ⟨_, ?_, scalarOutcome_retire s x.d _⟩
  rw [intCompare, issue_wf _ _ _ hw, if_pos hf, readScalars_full _ _ _ hfull, destFree_full _ _ _ hfull, BitVec.toNat_ofNat,
    toNat_secondScalar]
  rfl

theorem intCompare_vector (hf : x.f ≠ 3) (ha : overruns (widthOf x.w) x.a.toNat = false) (hb : x.f = 0 → overruns (widthOf x.w) x.b.toNat = false) :
    ∃ t, intCompare i x p s = .next t ∧ MaskOutcome s t x.d.toNat
      (fun j => p (widthOf x.w) (sliceAt s (widthOf x.w) x.a j).toNat (secondAt s x.f false (widthOf x.w) x.b j).toNat) (fun _ => 0) := by
  obtain ⟨t, ht, hout⟩ := elementwise_mask i
    { srcs := ⟨widthOf x.w, x.a.toNat, x.p⟩ :: bSrc x.f (widthOf x.w) x.b x.q, reads := bReg x.f x.b x.q, mdst := some x.d.toNat } false
    (fun s i row =>
      let b := p (widthOf x.w) (fetch s ⟨widthOf x.w, x.a.toNat, false⟩ i row) (bVal s x.f false (widthOf x.w) x.b i row)
      .ok { row := row, bit := b }) s x.d.toNat
    (fun j => p (widthOf x.w) (sliceAt s (widthOf x.w) x.a j).toNat (secondAt s x.f false (widthOf x.w) x.b j).toNat) (fun _ => 0) hr
    (by simp [Shape.ok, ha, bSrc_fits hb]) rfl rfl rfl (fun j _ => by rw [fetch_ready hr, bVal_ready hr])
  refine ⟨t, ?_, hout⟩
  rw [intCompare, issue_wf _ _ _ hw, if_neg hf]
  exact congrArg Res.out ht

end

theorem compareResult : Spec.CompareResult := by
  intro i r s hrow hw hr
  obtain ⟨p, hexec, hp⟩ := exec_compareRow hrow
  dsimp only
  simp only [hexec, ← hp]
  exact ⟨fun hf => intCompare_scalar hw hr hf, fun hf ha hb => intCompare_vector hw hr hf ha hb⟩

/-! ## Floats (R129) -/

section
variable {i : Instr} {x : ArgsA} {p : FV → FV → Bool × Flags} {s : State} (hw : i.wellFormed = true) (hr : Ready s = true)
include hw hr

theorem floatCompare_scalar (hf : x.f = 3) :
    let r := p ((ssFmt x.w).val (rctl s.hart.fctl) ((s.hart.rs x.a).toNat % 2 ^ (ssFmt x.w).w))
      ((ssFmt x.w).val (rctl s.hart.fctl) ((s.hart.rs x.b).toNat % 2 ^ (ssFmt x.w).w))
    ∃ t, floatCompare i x p s = .next t ∧ ScalarOutcome s t x.d (if r.1 then 1 else 0) r.2 := by
  have hfull := ready_allFull hr
  refine ⟨_, ?_, scalarOutcome_flags s x.d _ _⟩
  rw [floatCompare, issue_wf _ _ _ hw, if_pos hf, readScalars_full _ _ _ hfull, destFree_full _ _ _ hfull]
  rfl

theorem floatCompare_vector (hf : x.f ≠ 3) (ha : overruns (widthOf x.w) x.a.toNat = false)
    (hb : x.f = 0 → overruns (widthOf x.w) x.b.toNat = false) :
    let f := fmtOf s.hart.fctl (widthOf x.w)
    let r : Nat → Bool × Flags := fun j => p (f.val (rctl s.hart.fctl) (sliceAt s (widthOf x.w) x.a j).toNat)
      (f.val (rctl s.hart.fctl) (secondAt s x.f false (widthOf x.w) x.b j).toNat)
    ∃ t, floatCompare i x p s = .next t ∧ MaskOutcome s t x.d.toNat (fun j => (r j).1) (fun j => (r j).2) := by
  intro f r
  obtain ⟨t, ht, hout⟩ := elementwise_mask i
    { srcs := ⟨widthOf x.w, x.a.toNat, x.p⟩ :: bSrc x.f (widthOf x.w) x.b x.q, reads := bReg x.f x.b x.q, mdst := some x.d.toNat
      flags := true } false
    (fun s i row =>
      let fc := s.hart.fctl
      let t := fmtOf fc (widthOf x.w)
      let r := p (t.val (rctl fc) (fetch s ⟨widthOf x.w, x.a.toNat, false⟩ i row)) (t.val (rctl fc) (bVal s x.f false (widthOf x.w) x.b i row))
      .ok { row := row, bit := r.1, fl := r.2 }) s x.d.toNat (fun j => (r j).1) (fun j => (r j).2) hr
    (by simp [Shape.ok, ha, bSrc_fits hb]) rfl rfl rfl (fun j _ => by rw [fetch_ready hr, bVal_ready hr])
  refine ⟨t, ?_, hout⟩
  rw [floatCompare, issue_wf _ _ _ hw, if_neg hf]
  exact congrArg Res.out ht

theorem floatCompare_result (hexec : exec i s = floatCompare i x p s) :
    let c := rctl s.hart.fctl
    (x.f = 3 →
      let a := (ssFmt x.w).val c ((s.hart.rs x.a).toNat % 2 ^ (ssFmt x.w).w)
      let b := (ssFmt x.w).val c ((s.hart.rs x.b).toNat % 2 ^ (ssFmt x.w).w)
      ∃ t, exec i s = .next t ∧ ScalarOutcome s t x.d (if (p a b).1 then 1 else 0) (p a b).2) ∧
    (x.f ≠ 3 → overruns (widthOf x.w) x.a.toNat = false → (x.f = 0 → overruns (widthOf x.w) x.b.toNat = false) →
      let f := fmtOf s.hart.fctl (widthOf x.w)
      let a : Nat → FV := fun j => f.val c (sliceAt s (widthOf x.w) x.a j).toNat
      let b : Nat → FV := fun j => f.val c (secondAt s x.f false (widthOf x.w) x.b j).toNat
      ∃ t, exec i s = .next t ∧ MaskOutcome s t x.d.toNat (fun j => (p (a j) (b j)).1) (fun j => (p (a j) (b j)).2)) := by
  rw [hexec]
  exact ⟨floatCompare_scalar hw hr, floatCompare_vector hw hr⟩

end

theorem floatCompareResult : Spec.FloatCompareResult := by
  rintro x s i test fl (⟨rfl, rfl, rfl⟩ | ⟨rfl, rfl, rfl⟩ | ⟨rfl, rfl, rfl⟩) hw hr
  · exact floatCompare_result (p := fun a b => (eqV a b, a.sigFlag ||| b.sigFlag)) hw hr rfl
  · exact floatCompare_result (p := fun a b => (ltV false a b, anyNan a b)) hw hr rfl
  · exact floatCompare_result (p := fun a b => (ltV false a b || eqV a b, anyNan a b)) hw hr rfl

/-- Settles O39: the rows of R114 by `exec_compareRow`, the three of R129 by `floatCompare_result`. -/
theorem comparisonResult : Obligations.ComparisonResult := ⟨compareResult, floatCompareResult⟩

end Sys2Proof.Proofs
end


section
/-! O45. What a vector instruction checks before its operands (R25, R92), and what it reads first (R89, R145, R147). -/

namespace Sys2Proof.Proofs
open Sys2Proof Sys2Proof.Machine Sys2Proof.Spec

/-! ## The checks of a shape -/

/-- A meaning that opens with the checks of a vector instruction of that shape. -/
def Opens (o : Out) (i : Instr) (sh : Shape) (s : State) : Prop := ∃ k, o = (vecPre i sh s k).out

theorem opens_elementwise (i : Instr) (sh : Shape) (late : Bool) (act : Hart → Nat → Bool) (f : State → Nat → Row → Except (Nat × Word) Elem)
    (s : State) : Opens (elementwise i sh late act f s).out i sh s := ⟨_, rfl⟩

theorem opens_crossElement (i : Instr) (sh : Shape) (late : BitVec 64) (f : State → Hart) (s : State) :
    Opens (crossElement i sh late f s).out i { sh with cross := true } s := ⟨_, rfl⟩

/-- The slice operands of a shape: width and field of each. -/
def operandsOf (sh : Shape) : List (Nat × Nat) := sh.srcs.map (fun r => (r.w, r.fl)) ++ sh.dsts.map (fun d => (d.w, d.fl))

/-- A slice operand as a shape has it. -/
def asField (o : Nat × BitVec 6) : Nat × Nat := (o.1, o.2.toNat)

/-- The trap of R25 and R92: cause 0x04, TVAL the word, EIDX as it stood. -/
def OperandTrap (o : Out) (i : Instr) (s : State) : Prop :=
  ∃ t, o = .next t ∧ TrapOutcome s t 0x04 s.hart.eidx.toNat ((wordOf i).zeroExtend 64) 0

theorem any_overruns_eq (sh : Shape) : (sh.srcs.any (fun r => overruns r.w r.fl) || sh.dsts.any (fun d => overruns d.w d.fl)) =
    (operandsOf sh).any (fun p => overruns p.1 p.2) := by
  simp only [operandsOf, List.any_append, List.any_map, Function.comp_def]

section
variable {o : Out} {i : Instr} {sh : Shape} {s : State} (hopens : Opens o i sh s) (htlvl : s.hart.tlvl.toNat < 2)
include hopens htlvl

/-- An operand past slice 63 traps before anything is read (R25). -/
theorem operandTrap_of_overruns {p : Nat × Nat} (hp : p ∈ operandsOf sh) (h : overruns p.1 p.2 = true) : OperandTrap o i s := by
  obtain ⟨k, rfl⟩ := hopens
  have hany : (operandsOf sh).any (fun p => overruns p.1 p.2) = true := List.any_eq_true.mpr ⟨p, hp, h⟩
  rw [vecPre, any_overruns_eq, if_pos hany]
  exact trapOutcome_of_trap htlvl _ _ _ _

theorem operandTrap_of_any {l : List (Nat × BitVec 6)} (hl : ∀ p ∈ l, asField p ∈ operandsOf sh)
    (h : l.any (fun o => overruns o.1 o.2.toNat) = true) : OperandTrap o i s := by
  obtain ⟨p, hp, hover⟩ := List.any_eq_true.mp h
  exact operandTrap_of_overruns hopens htlvl (hl p hp) hover

/-- A source that shares a slice with the destination traps where R92 forbids it. -/
theorem operandTrap_of_overlap (hno : sh.noOverlap = true) {r : Src} (hr : r ∈ sh.srcs) (h : (slicesOf r.w r.fl &&& dstSlices sh.dsts) ≠ 0) :
    OperandTrap o i s := by
  by_cases hover : (operandsOf sh).any (fun p => overruns p.1 p.2) = true
  · obtain ⟨p, hp, hpover⟩ := List.any_eq_true.mp hover
    exact operandTrap_of_overruns hopens htlvl hp hpover
  · obtain ⟨k, rfl⟩ := hopens
    have hany : (sh.noOverlap && sh.srcs.any (fun r => (slicesOf r.w r.fl &&& dstSlices sh.dsts) != 0)) = true := by
      rw [hno, Bool.true_and, List.any_eq_true]
      exact ⟨r, hr, bne_iff_ne.mpr h⟩
    rw [vecPre, any_overruns_eq, if_neg hover, if_pos hany]
    exact trapOutcome_of_trap htlvl _ _ _ _

end

/-- The operands that an SS form leaves out: where one of the listed ones overruns, the form is a vector form. -/
theorem any_of_ite {c : Prop} [Decidable c] {α : Type} {l : List α} {p : α → Bool} (h : (if c then [] else l).any p = true) :
    ¬ c ∧ l.any p = true := by
  by_cases hc : c
  · rw [if_pos hc] at h
    exact absurd h (by simp)
  · rw [if_neg hc] at h
    exact ⟨hc, h⟩

/-! ## The shapes of the shared vector forms -/

/-- Two sources and a destination, the old destination read too where `rd` says so. -/
def binaryShape (x : ArgsA) (w wd : Nat) (rd sats flags : Bool) : Shape where
  srcs := ⟨w, x.a.toNat, x.p⟩ :: bSrc x.f w x.b x.q ++ (if rd then [⟨wd, x.d.toNat, false⟩] else [])
  dsts := [⟨wd, x.d.toNat⟩]
  reads := bReg x.f x.b x.q
  sats := sats
  flags := flags

/-- One source and a destination. -/
def unaryShape (x : ArgsU) (flags : Bool) : Shape where
  srcs := [⟨widthOf x.w, x.a.toNat, x.p⟩]
  dsts := [⟨widthOf x.w, x.d.toNat⟩]
  flags := flags

/-- Two sources and a mask. -/
def compareShape (x : ArgsA) (flags : Bool) : Shape where
  srcs := ⟨widthOf x.w, x.a.toNat, x.p⟩ :: bSrc x.f (widthOf x.w) x.b x.q
  reads := bReg x.f x.b x.q
  mdst := some x.d.toNat
  flags := flags

theorem mem_bSrc {f : BitVec 2} {w : Nat} {b : BitVec 6} (q : Bool) (hf : f = 0) : (⟨w, b.toNat, q⟩ : Src) ∈ bSrc f w b q := by
  rw [bSrc, if_pos hf]
  exact List.mem_singleton_self _

theorem second_subset {sh : Shape} {f : BitVec 2} {w : Nat} {b : BitVec 6} {q : Bool} (hsub : ∀ r ∈ bSrc f w b q, r ∈ sh.srcs) :
    ∀ p ∈ (if f = 0 then [(w, b)] else []), asField p ∈ operandsOf sh := by
  intro p hp
  split at hp
  · next hf =>
    obtain rfl := List.mem_singleton.mp hp
    exact List.mem_append_left _ (List.mem_map.mpr ⟨_, hsub _ (mem_bSrc q hf), rfl⟩)
  · exact absurd hp List.not_mem_nil

theorem binaryShape_operands (x : ArgsA) (w wd : Nat) (rd sats flags : Bool) :
    ∀ p ∈ [(wd, x.d), (w, x.a)] ++ (if x.f = 0 then [(w, x.b)] else []), asField p ∈ operandsOf (binaryShape x w wd rd sats flags) := by
  intro p hp
  rcases List.mem_append.mp hp with hp | hp
  · rcases List.mem_pair.mp hp with rfl | rfl <;> simp [operandsOf, binaryShape, asField]
  · exact second_subset (fun r hr => List.mem_cons_of_mem _ (List.mem_append_left _ hr)) p hp

theorem compareShape_operands (x : ArgsA) (flags : Bool) :
    ∀ p ∈ [(widthOf x.w, x.a)] ++ (if x.f = 0 then [(widthOf x.w, x.b)] else []), asField p ∈ operandsOf (compareShape x flags) := by
  intro p hp
  rcases List.mem_append.mp hp with hp | hp
  · obtain rfl := List.mem_singleton.mp hp
    simp [operandsOf, compareShape, asField]
  · exact second_subset (fun r hr => List.mem_cons_of_mem _ hr) p hp

theorem unaryShape_operands (x : ArgsU) (flags : Bool) :
    ∀ p ∈ [(widthOf x.w, x.d), (widthOf x.w, x.a)], asField p ∈ operandsOf (unaryShape x flags) := by
  intro p hp
  rcases List.mem_pair.mp hp with rfl | rfl <;> simp [operandsOf, unaryShape, asField]

section
variable {i : Instr} (hw : i.wellFormed = true) (s : State)
include hw

theorem opens_intBinary {x : ArgsA} (hf : x.f ≠ 3) (rd z late : Bool) (op : State → IOp) :
    Opens (intBinary i x rd z late op s) i (binaryShape x (widthOf x.w) (widthOf x.w) rd (saturates i) late) s := by
  rw [intBinary, issue_wf _ _ _ hw, if_neg hf]
  exact opens_elementwise _ _ _ _ _ _

theorem opens_intWide {x : ArgsA} (hf : x.f ≠ 3) (rd : Bool) (op : State → IOp) :
    Opens (intWide i x rd op s) i (binaryShape x (widthOf x.w) (2 * widthOf x.w) rd (saturates i) false) s := by
  rw [intWide, issue_wf _ _ _ hw, if_neg hf]
  exact opens_elementwise _ _ _ _ _ _

theorem opens_floatBinary {x : ArgsA} (hf : x.f ≠ 3) (rd late : Bool) (op : FOp) :
    Opens (floatBinary i x rd late op s) i (binaryShape x (widthOf x.w) (widthOf x.w) rd false true) s := by
  rw [floatBinary, issue_wf _ _ _ hw, if_neg hf]
  exact opens_elementwise _ _ _ _ _ _

theorem opens_intUnary {x : ArgsU} (hf : x.f ≠ 3) (f : Nat → Nat → Int) : Opens (intUnary i x f s) i (unaryShape x false) s := by
  rw [intUnary, issue_wf _ _ _ hw, if_neg hf]
  exact opens_elementwise _ _ _ _ _ _

theorem opens_floatUnary {x : ArgsU} (hf : x.f ≠ 3) (late : Bool) (op : RCtl → Fmt → Nat → Nat × Flags) :
    Opens (floatUnary i x late op s) i (unaryShape x (decide (i ≠ .fclass x))) s := by
  rw [floatUnary, issue_wf _ _ _ hw, if_neg hf]
  exact opens_elementwise _ _ _ _ _ _

theorem opens_intCompare {x : ArgsA} (hf : x.f ≠ 3) (p : Nat → Nat → Nat → Bool) : Opens (intCompare i x p s) i (compareShape x false) s := by
  rw [intCompare, issue_wf _ _ _ hw, if_neg hf]
  exact opens_elementwise _ _ _ _ _ _

theorem opens_floatCompare {x : ArgsA} (hf : x.f ≠ 3) (p : FV → FV → Bool × Flags) :
    Opens (floatCompare i x p s) i (compareShape x true) s := by
  rw [floatCompare, issue_wf _ _ _ hw, if_neg hf]
  exact opens_elementwise _ _ _ _ _ _

end

/-! ## Operands past slice 63 (R25) -/

section
variable {i : Instr} {s : State} (hw : i.wellFormed = true) (htlvl : s.hart.tlvl.toNat < 2)
include hw htlvl

theorem intBinary_overruns {x : ArgsA} {rd z late : Bool} {op : State → IOp}
    (h : (if x.f = 3 then [] else [(widthOf x.w, x.d), (widthOf x.w, x.a)] ++ if x.f = 0 then [(widthOf x.w, x.b)] else []).any
      (fun o => overruns o.1 o.2.toNat) = true) : OperandTrap (intBinary i x rd z late op s) i s := by
  obtain ⟨hf, hany⟩ := any_of_ite h
  exact operandTrap_of_any (opens_intBinary hw s hf rd z late op) htlvl (binaryShape_operands x _ _ _ _ _) hany

theorem intWide_overruns {x : ArgsA} {rd : Bool} {op : State → IOp}
    (h : (if x.f = 3 then [] else [(2 * widthOf x.w, x.d), (widthOf x.w, x.a)] ++ if x.f = 0 then [(widthOf x.w, x.b)] else []).any
      (fun o => overruns o.1 o.2.toNat) = true) : OperandTrap (intWide i x rd op s) i s := by
  obtain ⟨hf, hany⟩ := any_of_ite h
  exact operandTrap_of_any (opens_intWide hw s hf rd op) htlvl (binaryShape_operands x _ _ _ _ _) hany

theorem floatBinary_overruns {x : ArgsA} {rd late : Bool} {op : FOp}
    (h : (if x.f = 3 then [] else [(widthOf x.w, x.d), (widthOf x.w, x.a)] ++ if x.f = 0 then [(widthOf x.w, x.b)] else []).any
      (fun o => overruns o.1 o.2.toNat) = true) : OperandTrap (floatBinary i x rd late op s) i s := by
  obtain ⟨hf, hany⟩ := any_of_ite h
  exact operandTrap_of_any (opens_floatBinary hw s hf rd late op) htlvl (binaryShape_operands x _ _ _ _ _) hany

theorem intUnary_overruns {x : ArgsU} {f : Nat → Nat → Int}
    (h : (if x.f = 3 then [] else [(widthOf x.w, x.d), (widthOf x.w, x.a)]).any (fun o => overruns o.1 o.2.toNat) = true) :
    OperandTrap (intUnary i x f s) i s := by
  obtain ⟨hf, hany⟩ := any_of_ite h
  exact operandTrap_of_any (opens_intUnary hw s hf f) htlvl (unaryShape_operands x _) hany

theorem floatUnary_overruns {x : ArgsU} {late : Bool} {op : RCtl → Fmt → Nat → Nat × Flags}
    (h : (if x.f = 3 then [] else [(widthOf x.w, x.d), (widthOf x.w, x.a)]).any (fun o => overruns o.1 o.2.toNat) = true) :
    OperandTrap (floatUnary i x late op s) i s := by
  obtain ⟨hf, hany⟩ := any_of_ite h
  exact operandTrap_of_any (opens_floatUnary hw s hf late op) htlvl (unaryShape_operands x _) hany

theorem intCompare_overruns {x : ArgsA} {p : Nat → Nat → Nat → Bool}
    (h : (if x.f = 3 then [] else [(widthOf x.w, x.a)] ++ if x.f = 0 then [(widthOf x.w, x.b)] else []).any
      (fun o => overruns o.1 o.2.toNat) = true) : OperandTrap (intCompare i x p s) i s := by
  obtain ⟨hf, hany⟩ := any_of_ite h
  exact operandTrap_of_any (opens_intCompare hw s hf p) htlvl (compareShape_operands x _) hany

theorem floatCompare_overruns {x : ArgsA} {p : FV → FV → Bool × Flags}
    (h : (if x.f = 3 then [] else [(widthOf x.w, x.a)] ++ if x.f = 0 then [(widthOf x.w, x.b)] else []).any
      (fun o => overruns o.1 o.2.toNat) = true) : OperandTrap (floatCompare i x p s) i s := by
  obtain ⟨hf, hany⟩ := any_of_ite h
  exact operandTrap_of_any (opens_floatCompare hw s hf p) htlvl (compareShape_operands x _) hany

theorem intNarrow_overruns {x : ArgsA} {signed : Bool}
    (h : [(widthOf x.w, x.d), (2 * widthOf x.w, x.a)].any (fun o => overruns o.1 o.2.toNat) = true) : OperandTrap (intNarrow i x signed s) i s := by
  rw [intNarrow, issue_wf _ _ _ hw]
  exact operandTrap_of_any (opens_elementwise _ _ _ _ _ _) htlvl (by simp [operandsOf, asField]) h

theorem extend_overruns {x : ArgsC} {ext : Nat → Nat → Int}
    (h : (if x.f = 3 then [] else [(widthOf x.w, x.d), (widthOf x.s, x.a)]).any (fun o => overruns o.1 o.2.toNat) = true) :
    OperandTrap (extend i x ext s) i s := by
  obtain ⟨hf, hany⟩ := any_of_ite h
  rw [extend, issue_wf _ _ _ hw]
  simp only [if_neg hf]
  exact operandTrap_of_any (opens_elementwise _ _ _ _ _ _) htlvl (by simp [operandsOf, asField]) hany

theorem reduction_overruns {x : ArgsR} {pre : Nat → Nat → Nat} {ini : Nat → Nat} {fin : Nat → Nat → Word}
    {op : State → Nat → Nat → Nat → Nat × Flags} (h : [(widthOf x.w, x.a)].any (fun o => overruns o.1 o.2.toNat) = true) :
    OperandTrap (reduction i x pre ini fin op s) i s := by
  rw [reduction, issue_wf _ _ _ hw]
  exact operandTrap_of_any (opens_crossElement _ _ _ _ _) htlvl (by simp [operandsOf, asField]) h

theorem intReduction_overruns {x : ArgsR} {signed : Bool} {op : Nat → Nat → Nat → Nat}
    (h : [(widthOf x.w, x.a)].any (fun o => overruns o.1 o.2.toNat) = true) : OperandTrap (intReduction i x signed op s) i s :=
  reduction_overruns hw htlvl h

theorem floatReduction_overruns {x : ArgsR} {op : Fmt → RCtl → FV → FV → Nat × Flags}
    (h : [(widthOf x.w, x.a)].any (fun o => overruns o.1 o.2.toNat) = true) : OperandTrap (floatReduction i x op s) i s :=
  reduction_overruns hw htlvl h

end

/-- The operands of MOV's kind: a destination, and a second source in form VV. -/
theorem second_operands {sh : Shape} {f : BitVec 2} {w : Nat} {b : BitVec 6} {q : Bool} {l : List (Nat × BitVec 6)}
    (hl : ∀ p ∈ l, asField p ∈ operandsOf sh) (hsub : ∀ r ∈ bSrc f w b q, r ∈ sh.srcs) :
    ∀ p ∈ l ++ (if f = 0 then [(w, b)] else []), asField p ∈ operandsOf sh := by
  intro p hp
  rcases List.mem_append.mp hp with hp | hp
  · exact hl p hp
  · exact second_subset hsub p hp

section
variable {s : State} (htlvl : s.hart.tlvl.toNat < 2)
include htlvl

theorem sel_overruns {x : ArgsA} (hw : (Instr.sel x).wellFormed = true)
    (h : (sliceOperands (.sel x)).any (fun o => overruns o.1 o.2.toNat) = true) : OperandTrap (execSel x s) (.sel x) s := by
  obtain ⟨-, hany⟩ := any_of_ite h
  rw [execSel, issue_wf _ _ _ hw]
  refine operandTrap_of_any (opens_elementwise _ _ _ _ _ _) htlvl (second_operands (q := x.q) ?_ ?_) hany
  · simp [operandsOf, asField]
  · exact fun r hr => List.mem_cons_of_mem _ hr

theorem mov_overruns {x : ArgsM} (hw : (Instr.mov x).wellFormed = true)
    (h : (sliceOperands (.mov x)).any (fun o => overruns o.1 o.2.toNat) = true) : OperandTrap (execMov x s) (.mov x) s := by
  obtain ⟨hf, hany⟩ := any_of_ite h
  rw [execMov, issue_wf _ _ _ hw, if_neg hf]
  refine operandTrap_of_any (opens_elementwise _ _ _ _ _ _) htlvl (second_operands (q := x.q) ?_ ?_) hany
  · simp [operandsOf, asField]
  · exact fun r hr => hr

theorem iota_overruns {x : ArgsM} (hw : (Instr.iota x).wellFormed = true)
    (h : (sliceOperands (.iota x)).any (fun o => overruns o.1 o.2.toNat) = true) : OperandTrap (execIota x s) (.iota x) s := by
  rw [execIota, issue_wf _ _ _ hw]
  exact operandTrap_of_any (opens_crossElement _ _ _ _ _) htlvl (by simp [sliceOperands, operandsOf, asField]) h

theorem mfrom_overruns {x : ArgsP} (hw : (Instr.mfrom x).wellFormed = true)
    (h : (sliceOperands (.mfrom x)).any (fun o => overruns o.1 o.2.toNat) = true) : OperandTrap (execMfrom x s) (.mfrom x) s := by
  rw [execMfrom, issue_wf _ _ _ hw]
  exact operandTrap_of_any (opens_elementwise _ _ _ _ _ _) htlvl (by simp [sliceOperands, operandsOf, asField]) h

theorem mto_overruns {x : ArgsP} (hw : (Instr.mto x).wellFormed = true)
    (h : (sliceOperands (.mto x)).any (fun o => overruns o.1 o.2.toNat) = true) : OperandTrap (execMto x s) (.mto x) s := by
  rw [execMto, issue_wf _ _ _ hw]
  exact operandTrap_of_any (opens_elementwise _ _ _ _ _ _) htlvl (by simp [sliceOperands, operandsOf, asField]) h

theorem fcvti_overruns {x : ArgsC} (hw : (Instr.fcvti x).wellFormed = true)
    (h : (sliceOperands (.fcvti x)).any (fun o => overruns o.1 o.2.toNat) = true) : OperandTrap (execFcvti x s) (.fcvti x) s := by
  obtain ⟨hf, hany⟩ := any_of_ite h
  rw [execFcvti, issue_wf _ _ _ hw, if_neg hf]
  exact operandTrap_of_any (opens_elementwise _ _ _ _ _ _) htlvl (by simp [operandsOf, asField]) hany

theorem fcvtf_overruns {x : ArgsC} (hw : (Instr.fcvtf x).wellFormed = true)
    (h : (sliceOperands (.fcvtf x)).any (fun o => overruns o.1 o.2.toNat) = true) : OperandTrap (execFcvtf x s) (.fcvtf x) s := by
  obtain ⟨hf, hany⟩ := any_of_ite h
  rw [execFcvtf, issue_wf _ _ _ hw, if_neg hf]
  exact operandTrap_of_any (opens_elementwise _ _ _ _ _ _) htlvl (by simp [operandsOf, asField]) hany

theorem fcvt_overruns {x : ArgsC} (hw : (Instr.fcvt x).wellFormed = true)
    (h : (sliceOperands (.fcvt x)).any (fun o => overruns o.1 o.2.toNat) = true) : OperandTrap (execFcvt x s) (.fcvt x) s := by
  obtain ⟨hf, hany⟩ := any_of_ite h
  rw [execFcvt, issue_wf _ _ _ hw, if_neg hf]
  exact operandTrap_of_any (opens_elementwise _ _ _ _ _ _) htlvl (by simp [operandsOf, asField]) hany

/-- The shape of LD in its vector modes. -/
def loadShape (x : ArgsL) : Shape where
  srcs := indexSrc x.m x.b x.q
  dsts := [⟨widthOf x.w, x.d.toNat⟩]
  reads := [(x.a, x.p)]

/-- The shape of ST in its vector modes. -/
def storeShape (x : ArgsL) : Shape where
  srcs := indexSrc x.m x.b x.q ++ [⟨widthOf x.w, x.d.toNat, x.m == 0 && x.q⟩]
  reads := [(x.a, x.p)]

omit htlvl in
theorem opens_ld {x : ArgsL} (hw : (Instr.ld x).wellFormed = true) (hm : x.m ≠ 2) : Opens (execLd x s) (.ld x) (loadShape x) s := by
  rw [execLd, issue_wf _ _ _ hw, if_neg hm]
  exact ⟨_, rfl⟩

omit htlvl in
theorem opens_st {x : ArgsL} (hw : (Instr.st x).wellFormed = true) (hm : x.m ≠ 2) : Opens (execSt x s) (.st x) (storeShape x) s := by
  rw [execSt, issue_wf _ _ _ hw, if_neg hm]
  exact ⟨_, rfl⟩

theorem ld_overruns {x : ArgsL} (hw : (Instr.ld x).wellFormed = true)
    (h : (sliceOperands (.ld x)).any (fun o => overruns o.1 o.2.toNat) = true) : OperandTrap (execLd x s) (.ld x) s := by
  obtain ⟨hm, hany⟩ := any_of_ite h
  refine operandTrap_of_any (opens_ld hw hm) htlvl ?_ hany
  simp only [operandsOf, loadShape, indexSrc, asField]
  split <;> simp

theorem st_overruns {x : ArgsL} (hw : (Instr.st x).wellFormed = true)
    (h : (sliceOperands (.st x)).any (fun o => overruns o.1 o.2.toNat) = true) : OperandTrap (execSt x s) (.st x) s := by
  obtain ⟨hm, hany⟩ := any_of_ite h
  refine operandTrap_of_any (opens_st hw hm) htlvl ?_ hany
  simp only [operandsOf, storeShape, indexSrc, asField]
  split <;> simp

theorem ldq_overruns {x : ArgsD} (hw : (Instr.ldq x).wellFormed = true)
    (h : (sliceOperands (.ldq x)).any (fun o => overruns o.1 o.2.toNat) = true) : OperandTrap (execLdq x s) (.ldq x) s := by
  rw [execLdq, issue_wf _ _ _ hw]
  exact operandTrap_of_any ⟨_, rfl⟩ htlvl (by simp [sliceOperands, operandsOf, asField]) h

theorem stq_overruns {x : ArgsStq} (hw : (Instr.stq x).wellFormed = true)
    (h : (sliceOperands (.stq x)).any (fun o => overruns o.1 o.2.toNat) = true) : OperandTrap (execStq x s) (.stq x) s := by
  rw [execStq, issue_wf _ _ _ hw]
  exact operandTrap_of_any ⟨_, rfl⟩ htlvl (by simp [sliceOperands, operandsOf, asField]) h

theorem tld_overruns {x : ArgsR} (hw : (Instr.tld x).wellFormed = true)
    (h : (sliceOperands (.tld x)).any (fun o => overruns o.1 o.2.toNat) = true) : OperandTrap (execTld x s) (.tld x) s := by
  rw [execTld, issue_wf _ _ _ hw]
  exact operandTrap_of_any ⟨_, rfl⟩ htlvl (by simp [sliceOperands, operandsOf, asField]) h

theorem tst_overruns {x : ArgsR} (hw : (Instr.tst x).wellFormed = true)
    (h : (sliceOperands (.tst x)).any (fun o => overruns o.1 o.2.toNat) = true) : OperandTrap (execTst x s) (.tst x) s := by
  rw [execTst, issue_wf _ _ _ hw]
  exact operandTrap_of_any ⟨_, rfl⟩ htlvl (by simp [sliceOperands, operandsOf, asField]) h

end

/-- R25 for every element-wise instruction and reduction. -/
theorem exec_overruns (i : Instr) {s : State} (hw : i.wellFormed = true) (htlvl : s.hart.tlvl.toNat < 2)
    (h : (sliceOperands i).any (fun o => overruns o.1 o.2.toNat) = true) : OperandTrap (exec i s) i s := by
  cases i with
  | add | sub | adds | addsu | subs | subsu | mul | mulh | mulhu | mac | div | divu | rem | remu | min | minu | max | maxu | and | or | xor
  | andn | sll | srl | sra | rotr =>
    dsimp only [exec]
    exact intBinary_overruns hw htlvl h
  | wadd | waddu | wmul | wmulu | wmac | wmacu =>
    dsimp only [exec]
    exact intWide_overruns hw htlvl h
  | narrow | narrowu =>
    dsimp only [exec]
    exact intNarrow_overruns hw htlvl h
  | cmpeq | cmpne | cmplt | cmpltu | cmple | cmpleu =>
    dsimp only [exec]
    exact intCompare_overruns hw htlvl h
  | fcmpeq | fcmplt | fcmple =>
    dsimp only [exec]
    exact floatCompare_overruns hw htlvl h
  | abs | neg | popc | clz =>
    dsimp only [exec]
    exact intUnary_overruns hw htlvl h
  | fsqrt | frsq | fexp2 | flog2 | fabs | fneg | fclass =>
    dsimp only [exec]
    exact floatUnary_overruns hw htlvl h
  | fadd | fsub | fmul | fdiv | fma | fms | fnma | fmin | fmax =>
    dsimp only [exec]
    exact floatBinary_overruns hw htlvl h
  | sext | zext =>
    dsimp only [exec]
    exact extend_overruns hw htlvl h
  | rsum =>
    dsimp only [exec]
    exact reduction_overruns hw htlvl h
  | rmin | rminu | rmax | rmaxu | rand | ror | rxor =>
    dsimp only [exec]
    exact intReduction_overruns hw htlvl h
  | frsum | frmin | frmax =>
    dsimp only [exec]
    exact floatReduction_overruns hw htlvl h
  | sel => exact sel_overruns htlvl hw h
  | mov => exact mov_overruns htlvl hw h
  | iota => exact iota_overruns htlvl hw h
  | fcvti => exact fcvti_overruns htlvl hw h
  | fcvtf => exact fcvtf_overruns htlvl hw h
  | fcvt => exact fcvt_overruns htlvl hw h
  | mfrom => exact mfrom_overruns htlvl hw h
  | mto => exact mto_overruns htlvl hw h
  | ld => exact ld_overruns htlvl hw h
  | st => exact st_overruns htlvl hw h
  | ldq => exact ldq_overruns htlvl hw h
  | stq => exact stq_overruns htlvl hw h
  | tld => exact tld_overruns htlvl hw h
  | tst => exact tst_overruns htlvl hw h
  | _ => exact absurd h Bool.false_ne_true

end Sys2Proof.Proofs
end


section
/-! O45. The instructions that R92 names, XSPLIT's destination, and the empty operands. -/

namespace Sys2Proof.Proofs
open Sys2Proof Sys2Proof.Machine Sys2Proof.Spec

/-! ## Shared slices (R92) -/

theorem operandTrap_of_cross {o : Out} {i : Instr} {sh : Shape} {s : State} {d : Nat × BitVec 6} {srcs : List (Nat × BitVec 6)}
    (hopens : Opens o i sh s) (htlvl : s.hart.tlvl.toNat < 2) (hno : sh.noOverlap = true) (hd : sh.dsts = [⟨d.1, d.2.toNat⟩])
    (hs : ∀ p ∈ srcs, ∃ q, ⟨p.1, p.2.toNat, q⟩ ∈ sh.srcs)
    (h : overruns d.1 d.2.toNat = true ∨
      ∃ p ∈ srcs, overruns p.1 p.2.toNat = true ∨ (slicesOf p.1 p.2.toNat &&& slicesOf d.1 d.2.toNat) ≠ 0) : OperandTrap o i s := by
  have hsrc {p : Nat × BitVec 6} (hp : p ∈ srcs) : asField p ∈ operandsOf sh := by
    obtain ⟨q, hq⟩ := hs p hp
    exact List.mem_append_left _ (List.mem_map.mpr ⟨_, hq, rfl⟩)
  have hdst : dstSlices sh.dsts = slicesOf d.1 d.2.toNat := by
    rw [hd]
    exact BitVec.zero_or
  rcases h with h | ⟨p, hp, h | h⟩
  · refine operandTrap_of_overruns hopens htlvl (p := asField d) ?_ h
    rw [operandsOf, hd]
    exact List.mem_append_right _ (List.mem_singleton_self _)
  · exact operandTrap_of_overruns hopens htlvl (hsrc hp) h
  · obtain ⟨q, hq⟩ := hs p hp
    exact operandTrap_of_overlap hopens htlvl hno hq (by rwa [hdst])

section
variable {i : Instr} (hw : i.wellFormed = true) (s : State)
include hw

theorem opens_scanLanes (x : ArgsR) (op : State → Nat → Nat → Nat → Nat × Flags) : ∃ fl, Opens (scanLanes i x op s) i
    { srcs := [⟨widthOf x.w, x.a.toNat, x.p⟩], dsts := [⟨widthOf x.w, x.d.toNat⟩], reads := [(x.b, x.q)], noOverlap := true
      flags := fl, cross := true } s := by
  rw [scanLanes, issue_wf _ _ _ hw]
  exact ⟨_, opens_crossElement _ _ _ _ _⟩

theorem opens_slideLanes (up : Bool) (x : ArgsA) (val : State → Src → Nat → Nat → Option Nat) : Opens (slideLanes i up x val s) i
    { srcs := [⟨widthOf x.w, x.a.toNat, x.p⟩], dsts := [⟨widthOf x.w, x.d.toNat⟩], reads := bReg x.f x.b x.q, noOverlap := true
      spreads := up, looks := !up, cross := true } s := by
  rw [slideLanes, issue_wf _ _ _ hw]
  exact opens_crossElement _ _ _ _ _

end

/-- R92, and R25 for the instructions that R92 names. -/
theorem exec_cross_traps {i : Instr} {d : Nat × BitVec 6} {srcs : List (Nat × BitVec 6)} {s : State} (hcross : crossOperands i = some (d, srcs))
    (hw : i.wellFormed = true) (htlvl : s.hart.tlvl.toNat < 2)
    (h : overruns d.1 d.2.toNat = true ∨
      ∃ p ∈ srcs, overruns p.1 p.2.toNat = true ∨ (slicesOf p.1 p.2.toNat &&& slicesOf d.1 d.2.toNat) ≠ 0) : OperandTrap (exec i s) i s := by
  cases i with
  | scan x | fscan x =>
    obtain ⟨rfl, rfl⟩ := Prod.mk.inj (Option.some.inj hcross)
    dsimp only [exec]
    obtain ⟨fl, hopens⟩ := opens_scanLanes hw s x _
    exact operandTrap_of_cross hopens htlvl rfl rfl (by simp) h
  | compress x =>
    obtain ⟨rfl, rfl⟩ := Prod.mk.inj (Option.some.inj hcross)
    dsimp only [exec]
    rw [execCompress, issue_wf _ _ _ hw]
    exact operandTrap_of_cross (opens_crossElement _ _ _ _ _) htlvl rfl rfl (by simp) h
  | expand x =>
    obtain ⟨rfl, rfl⟩ := Prod.mk.inj (Option.some.inj hcross)
    dsimp only [exec]
    rw [execExpand, issue_wf _ _ _ hw]
    exact operandTrap_of_cross (opens_crossElement _ _ _ _ _) htlvl rfl rfl (by simp) h
  | nzscan x =>
    obtain ⟨rfl, rfl⟩ := Prod.mk.inj (Option.some.inj hcross)
    dsimp only [exec]
    rw [execNzscan, issue_wf _ _ _ hw]
    exact operandTrap_of_cross (opens_crossElement _ _ _ _ _) htlvl rfl rfl (by simp) h
  | slideup x | slidedn x =>
    obtain ⟨rfl, rfl⟩ := Prod.mk.inj (Option.some.inj hcross)
    dsimp only [exec]
    exact operandTrap_of_cross (opens_slideLanes hw s _ x _) htlvl rfl rfl (by simp) h
  | perm x =>
    obtain ⟨rfl, rfl⟩ := Prod.mk.inj (Option.some.inj hcross)
    dsimp only [exec]
    rw [execPerm, issue_wf _ _ _ hw]
    refine operandTrap_of_cross (opens_crossElement _ _ _ _ _) htlvl rfl rfl (fun p hp => ?_) h
    rcases List.mem_pair.mp hp with rfl | rfl
    · exact ⟨x.p, List.mem_cons_self⟩
    · exact ⟨x.q, List.mem_cons_of_mem _ (List.mem_singleton_self _)⟩
  | _ => exact nomatch hcross

/-- R275: the range trap of XSPLIT's destination. -/
theorem xsplit_overruns {x : ArgsT} {s : State} (hw : (Instr.xsplit x).wellFormed = true) (htlvl : s.hart.tlvl.toNat < 2)
    (h : overruns 16 x.d.toNat = true) :
    ∃ t, exec (.xsplit x) s = .next t ∧ TrapOutcome s t 0x04 0 ((wordOf (.xsplit x)).zeroExtend 64) 0 := by
  dsimp only [exec]
  rw [execXsplit, issue_wf _ _ _ hw, if_pos h]
  exact trapOutcome_of_trap htlvl _ _ _ _

/-! ## Empty operands (R89, R145, R147) -/

/-- A meaning that first reads these scalar registers and then these slices. -/
def ReadsFirst (o : Out) (regs : List (BitVec 6 × Bool)) (srcs : List Src) (s : State) : Prop :=
  ∃ k, o = (readScalars regs s fun s => readSlices srcs s k).out

/-- A slice source as a shape has it. -/
def asSrc (o : Nat × BitVec 6 × Bool) : Src := ⟨o.1, o.2.1.toNat, o.2.2⟩

theorem readsFirst_of_opens {o : Out} {i : Instr} {sh : Shape} {s : State} (hopens : Opens o i sh s) (hb : s.hart.binds = [])
    (hfits : (operandsOf sh).any (fun p => overruns p.1 p.2) = false) (hno : sh.noOverlap = false) : ReadsFirst o sh.reads sh.srcs s := by
  obtain ⟨k, rfl⟩ := hopens
  rw [vecPre, any_overruns_eq, hfits, hno, bindConflict_none sh hb, ite_self]
  exact ⟨_, rfl⟩

theorem readSlices_nil (s : State) (k : State → Res) : readSlices [] s k = k s := by
  have hnone : lowestEmpty s.hart (srcSlices s.hart [] fun _ => true) = none :=
    firstIn_none _ _ _ fun j _ _ => by simp [srcSlices]
  rw [readSlices, hnone]

theorem readsFirst_scalars (regs : List (BitVec 6 × Bool)) (s : State) (k : State → Res) : ReadsFirst (readScalars regs s k).out regs [] s :=
  ⟨k, by simp only [readSlices_nil]⟩

theorem readScalars_append {pre post : List (BitVec 6 × Bool)} {r : BitVec 6} {p : Bool} {s : State} (k : State → Res)
    (hpre : ∀ e ∈ pre, s.hart.sFull e.1 = true) (hr : s.hart.sFull r = false) :
    readScalars (pre ++ (r, p) :: post) s k = if p then .trap 0x03 0 (BitVec.ofNat 64 r.toNat) 0 s else .wait s := by
  induction pre with
  | nil => rw [List.nil_append, readScalars, hr, if_neg Bool.false_ne_true]
  | cons e pre ih =>
    rw [List.cons_append, readScalars, if_pos (hpre e List.mem_cons_self), ih fun e he => hpre e (List.mem_cons_of_mem _ he)]

theorem readScalars_of_full {regs : List (BitVec 6 × Bool)} {s : State} (k : State → Res) (h : ∀ e ∈ regs, s.hart.sFull e.1 = true) :
    readScalars regs s k = k s := by
  induction regs with
  | nil => rfl
  | cons e regs ih => rw [readScalars, if_pos (h e List.mem_cons_self), ih fun e he => h e (List.mem_cons_of_mem _ he)]

/-- The slices that the accepted sources cover, where no stream is bound. -/
theorem getLsbD_srcSlices {h : Hart} (hb : h.binds = []) (rs : List Src) (p : Src → Bool) (k : Nat) :
    (srcSlices h rs p).getLsbD k = true ↔ ∃ r ∈ rs, p r = true ∧ (slicesOf r.w r.fl).getLsbD k = true := by
  have hfold (m : BitVec 64) : (rs.foldl (fun m r => if p r && !(boundTo h r.w r.fl).isSome then m ||| slicesOf r.w r.fl else m) m).getLsbD k
      = true ↔ m.getLsbD k = true ∨ ∃ r ∈ rs, p r = true ∧ (slicesOf r.w r.fl).getLsbD k = true := by
    induction rs generalizing m with
    | nil => simp
    | cons r rs ih =>
      rw [List.foldl_cons, ih, boundTo_none _ _ hb]
      by_cases hp : p r = true <;> simp [hp, or_assoc]
  rw [srcSlices, hfold]
  simp

theorem firstIn_eq_some {p : Nat → Bool} {k n : Nat} (hk : k < n) (hp : p k = true) (hlow : ∀ m, m < k → p m = false) :
    firstIn p 0 n = some k := by
  rw [firstIn_eq_find?, ← List.range_eq_range', List.find?_range_eq_some]
  exact ⟨hp, List.mem_range.mpr hk, fun m hm => by simp [hlow m hm]⟩

theorem firstIn_isSome {p : Nat → Bool} {n : Nat} : (firstIn p 0 n).isSome = true ↔ ∃ m, m < n ∧ p m = true := by
  rw [firstIn_eq_find?, ← List.range_eq_range', List.find?_isSome]
  simp

section
variable {s : State} {rs : List Src} (hb : s.hart.binds = [])
include hb

/-- Slice k is the lowest empty one that the sources cover. -/
theorem lowestEmpty_eq_some {k : Nat} (hk : ∃ r ∈ rs, (slicesOf r.w r.fl).getLsbD k = true ∧ s.hart.zFE.getLsbD k = false)
    (hlow : ∀ m, m < k → ∀ r ∈ rs, ¬ ((slicesOf r.w r.fl).getLsbD m = true ∧ s.hart.zFE.getLsbD m = false)) :
    lowestEmpty s.hart (srcSlices s.hart rs fun _ => true) = some k := by
  obtain ⟨r, hr, hcov, hempty⟩ := hk
  refine firstIn_eq_some (BitVec.lt_of_getLsbD hcov) ?_ fun m hm => ?_
  · rw [(getLsbD_srcSlices hb rs _ k).mpr ⟨r, hr, rfl, hcov⟩, hempty]
    rfl
  · rw [Bool.eq_false_iff]
    intro h
    obtain ⟨hc, he⟩ := Bool.and_eq_true_iff.mp h
    obtain ⟨r, hr, -, hcov⟩ := (getLsbD_srcSlices hb rs _ m).mp hc
    exact hlow m hm r hr ⟨hcov, Bool.not_eq_true' _ ▸ he⟩

theorem lowestEmpty_pol_isSome : (lowestEmpty s.hart (srcSlices s.hart rs Src.pol)).isSome = true ↔
    ∃ r ∈ rs, r.pol = true ∧ ∃ m, (slicesOf r.w r.fl).getLsbD m = true ∧ s.hart.zFE.getLsbD m = false := by
  rw [lowestEmpty, firstIn_isSome]
  simp only [Bool.and_eq_true, Bool.not_eq_true', getLsbD_srcSlices hb]
  constructor
  · rintro ⟨m, -, ⟨r, hr, hpol, hcov⟩, hempty⟩
    exact ⟨r, hr, hpol, m, hcov, hempty⟩
  · rintro ⟨r, hr, hpol, m, hcov, hempty⟩
    exact ⟨m, BitVec.lt_of_getLsbD hcov, ⟨r, hr, hpol, hcov⟩, hempty⟩

theorem readSlices_of_empty (k : State → Res) {n : Nat}
    (hn : ∃ r ∈ rs, (slicesOf r.w r.fl).getLsbD n = true ∧ s.hart.zFE.getLsbD n = false)
    (hlow : ∀ m, m < n → ∀ r ∈ rs, ¬ ((slicesOf r.w r.fl).getLsbD m = true ∧ s.hart.zFE.getLsbD m = false)) :
    readSlices rs s k = if (lowestEmpty s.hart (srcSlices s.hart rs Src.pol)).isSome then
      .trap 0x03 s.hart.eidx.toNat (BitVec.ofNat 64 (0x40 + n)) 0 s else .wait s := by
  rw [readSlices, lowestEmpty_eq_some hb hn hlow]

end

/-- What an instruction that first reads `regs` and `srcs` does where one of them is empty. -/
theorem emptyOperands_of_readsFirst {o : Out} {regs : List (BitVec 6 × Bool)} {srcs : List (Nat × BitVec 6 × Bool)} {s : State}
    (ho : ReadsFirst o regs (srcs.map asSrc) s) (htlvl : s.hart.tlvl.toNat < 2) (hb : s.hart.binds = []) :
    let covers : Nat × BitVec 6 × Bool → Nat → Prop := fun o k => (slicesOf o.1 o.2.1.toNat).getLsbD k = true ∧ s.hart.zFE.getLsbD k = false
    (∀ pre r p post, regs = pre ++ (r, p) :: post → (∀ e ∈ pre, s.hart.sFull e.1 = true) → s.hart.sFull r = false →
      (p = true → ∃ t, o = .next t ∧ TrapOutcome s t 0x03 0 (BitVec.ofNat 64 r.toNat) 0) ∧ (p = false → o = .next s)) ∧
    (∀ k, (∀ e ∈ regs, s.hart.sFull e.1 = true) → (∃ o ∈ srcs, covers o k) → (∀ m, m < k → ∀ o ∈ srcs, ¬ covers o m) →
      ((∃ o ∈ srcs, o.2.2 = true ∧ ∃ m, covers o m) →
        ∃ t, o = .next t ∧ TrapOutcome s t 0x03 s.hart.eidx.toNat (BitVec.ofNat 64 (0x40 + k)) 0) ∧
      ((∀ o ∈ srcs, o.2.2 = true → ∀ m, ¬ covers o m) → o = .next s)) := by
  intro covers
  obtain ⟨k, rfl⟩ := ho
  refine ⟨?_, fun n hfull hn hlow => ?_⟩
  · rintro pre r p post rfl hpre hr
    rw [readScalars_append _ hpre hr]
    refine ⟨?_, ?_⟩
    · rintro rfl
      exact trapOutcome_of_trap htlvl _ _ _ _
    · rintro rfl
      rfl
  · obtain ⟨o, ho, hcov⟩ := hn
    have hmem : asSrc o ∈ srcs.map asSrc := List.mem_map_of_mem ho
    have hempty := readSlices_of_empty hb k ⟨asSrc o, hmem, hcov⟩ fun m hm r hr => by
      obtain ⟨o, ho, rfl⟩ := List.mem_map.mp hr
      exact hlow m hm o ho
    have hpol : (lowestEmpty s.hart (srcSlices s.hart (srcs.map asSrc) Src.pol)).isSome = true ↔ ∃ o ∈ srcs, o.2.2 = true ∧ ∃ m, covers o m := by
      rw [lowestEmpty_pol_isSome hb]
      refine ⟨fun ⟨r, hr, h⟩ => ?_, fun ⟨o, ho, h⟩ => ⟨_, List.mem_map_of_mem ho, h⟩⟩
      obtain ⟨o, ho, rfl⟩ := List.mem_map.mp hr
      exact ⟨o, ho, h⟩
    rw [readScalars_of_full _ hfull, hempty]
    refine ⟨fun h => ?_, fun h => ?_⟩
    · rw [if_pos (hpol.mpr h)]
      exact trapOutcome_of_trap htlvl _ _ _ _
    · rw [if_neg (mt hpol.mp fun ⟨o, ho, hp, m, hm⟩ => h o ho hp m hm)]
      rfl

/-! ## What each form reads first -/

theorem any_binaryShape {x : ArgsA} {w : Nat} {rd sats flags : Bool} (hf : x.f ≠ 3)
    (hfits : (if x.f = 3 then [] else [(w, x.d), (w, x.a)] ++ if x.f = 0 then [(w, x.b)] else []).any (fun o => overruns o.1 o.2.toNat) = false) :
    (operandsOf (binaryShape x w w rd sats flags)).any (fun p => overruns p.1 p.2) = false := by
  rw [if_neg hf] at hfits
  by_cases h0 : x.f = 0 <;> cases rd <;> simp_all [operandsOf, binaryShape, bSrc]

theorem binaryShape_srcs (x : ArgsA) (w : Nat) (rd sats flags : Bool) : (binaryShape x w w rd sats flags).srcs =
    ([(w, x.a, x.p)] ++ (if x.f = 0 then [(w, x.b, x.q)] else []) ++ (if rd then [(w, x.d, false)] else [])).map asSrc := by
  unfold binaryShape bSrc
  split <;> cases rd <;> rfl

section
variable {i : Instr} {s : State} (hw : i.wellFormed = true) (hb : s.hart.binds = [])
include hw hb

theorem intBinary_readsFirst {x : ArgsA} {rd z late : Bool} {op : State → IOp} {regs : List (BitVec 6 × Bool)}
    {srcs : List (Nat × BitVec 6 × Bool)} (hread : operandReads.binary x true rd = (regs, srcs))
    (hfits : (if x.f = 3 then [] else [(widthOf x.w, x.d), (widthOf x.w, x.a)] ++ if x.f = 0 then [(widthOf x.w, x.b)] else []).any
      (fun o => overruns o.1 o.2.toNat) = false) : ReadsFirst (intBinary i x rd z late op s) regs (srcs.map asSrc) s := by
  unfold operandReads.binary at hread
  by_cases hf : x.f = 3
  · rw [if_pos hf, Bool.true_and] at hread
    obtain ⟨rfl, rfl⟩ := Prod.mk.inj hread
    rw [intBinary, issue_wf _ _ _ hw, if_pos hf]
    exact readsFirst_scalars _ _ _
  · rw [if_neg hf] at hread
    obtain ⟨rfl, rfl⟩ := Prod.mk.inj hread
    rw [← binaryShape_srcs x (widthOf x.w) rd (saturates i) late]
    exact readsFirst_of_opens (opens_intBinary hw s hf rd z late op) hb (any_binaryShape hf hfits) rfl

theorem floatBinary_readsFirst {x : ArgsA} {rd late : Bool} {op : FOp} {regs : List (BitVec 6 × Bool)}
    {srcs : List (Nat × BitVec 6 × Bool)} (hread : operandReads.binary x false rd = (regs, srcs))
    (hfits : (if x.f = 3 then [] else [(widthOf x.w, x.d), (widthOf x.w, x.a)] ++ if x.f = 0 then [(widthOf x.w, x.b)] else []).any
      (fun o => overruns o.1 o.2.toNat) = false) : ReadsFirst (floatBinary i x rd late op s) regs (srcs.map asSrc) s := by
  unfold operandReads.binary at hread
  by_cases hf : x.f = 3
  · rw [if_pos hf, Bool.false_and] at hread
    obtain ⟨rfl, rfl⟩ := Prod.mk.inj hread
    rw [floatBinary, issue_wf _ _ _ hw, if_pos hf]
    exact readsFirst_scalars _ _ _
  · rw [if_neg hf] at hread
    obtain ⟨rfl, rfl⟩ := Prod.mk.inj hread
    rw [← binaryShape_srcs x (widthOf x.w) rd false true]
    exact readsFirst_of_opens (opens_floatBinary hw s hf rd late op) hb (any_binaryShape hf hfits) rfl

theorem intUnary_readsFirst {x : ArgsU} {f : Nat → Nat → Int} {regs : List (BitVec 6 × Bool)} {srcs : List (Nat × BitVec 6 × Bool)}
    (hread : (if x.f = 3 then some ([(x.a, x.p)], []) else some ([], [(widthOf x.w, x.a, x.p)])) = some (regs, srcs))
    (hfits : (if x.f = 3 then [] else [(widthOf x.w, x.d), (widthOf x.w, x.a)]).any (fun o => overruns o.1 o.2.toNat) = false) :
    ReadsFirst (intUnary i x f s) regs (srcs.map asSrc) s := by
  by_cases hf : x.f = 3
  · rw [if_pos hf] at hread
    obtain ⟨rfl, rfl⟩ := Prod.mk.inj (Option.some.inj hread)
    rw [intUnary, issue_wf _ _ _ hw, if_pos hf]
    exact readsFirst_scalars _ _ _
  · rw [if_neg hf] at hread hfits
    obtain ⟨rfl, rfl⟩ := Prod.mk.inj (Option.some.inj hread)
    exact readsFirst_of_opens (opens_intUnary hw s hf f) hb (by simp_all [operandsOf, unaryShape]) rfl

theorem floatUnary_readsFirst {x : ArgsU} {late : Bool} {op : RCtl → Fmt → Nat → Nat × Flags} {regs : List (BitVec 6 × Bool)}
    {srcs : List (Nat × BitVec 6 × Bool)}
    (hread : (if x.f = 3 then some ([(x.a, x.p)], []) else some ([], [(widthOf x.w, x.a, x.p)])) = some (regs, srcs))
    (hfits : (if x.f = 3 then [] else [(widthOf x.w, x.d), (widthOf x.w, x.a)]).any (fun o => overruns o.1 o.2.toNat) = false) :
    ReadsFirst (floatUnary i x late op s) regs (srcs.map asSrc) s := by
  by_cases hf : x.f = 3
  · rw [if_pos hf] at hread
    obtain ⟨rfl, rfl⟩ := Prod.mk.inj (Option.some.inj hread)
    rw [floatUnary, issue_wf _ _ _ hw, if_pos hf]
    exact readsFirst_scalars _ _ _
  · rw [if_neg hf] at hread hfits
    obtain ⟨rfl, rfl⟩ := Prod.mk.inj (Option.some.inj hread)
    exact readsFirst_of_opens (opens_floatUnary hw s hf late op) hb (by simp_all [operandsOf, unaryShape]) rfl

end

section
variable {x : ArgsL} {s : State} {regs : List (BitVec 6 × Bool)} {srcs : List (Nat × BitVec 6 × Bool)} (hb : s.hart.binds = [])
include hb

theorem ld_readsFirst (hw : (Instr.ld x).wellFormed = true) (hread : operandReads (.ld x) = some (regs, srcs))
    (hfits : (sliceOperands (.ld x)).any (fun o => overruns o.1 o.2.toNat) = false) : ReadsFirst (execLd x s) regs (srcs.map asSrc) s := by
  obtain ⟨rfl, rfl⟩ := Prod.mk.inj (Option.some.inj hread)
  by_cases hm : x.m = 2
  · rw [execLd, issue_wf _ _ _ hw, if_pos hm, if_neg (by rw [hm]; decide)]
    exact readsFirst_scalars _ _ _
  · have hsrcs : (loadShape x).srcs = (if x.m = 1 then [(32, x.b, x.q)] else []).map asSrc := by
      unfold loadShape indexSrc
      split <;> rfl
    rw [sliceOperands, if_neg hm] at hfits
    rw [← hsrcs]
    clear hsrcs
    refine readsFirst_of_opens (opens_ld hw hm) hb ?_ rfl
    by_cases h1 : x.m = 1 <;> simp_all [operandsOf, loadShape, indexSrc]

theorem st_readsFirst (hw : (Instr.st x).wellFormed = true) (hread : operandReads (.st x) = some (regs, srcs))
    (hfits : (sliceOperands (.st x)).any (fun o => overruns o.1 o.2.toNat) = false) : ReadsFirst (execSt x s) regs (srcs.map asSrc) s := by
  rw [operandReads] at hread
  by_cases hm : x.m = 2
  · rw [if_pos hm] at hread
    obtain ⟨rfl, rfl⟩ := Prod.mk.inj (Option.some.inj hread)
    rw [execSt, issue_wf _ _ _ hw, if_pos hm]
    exact readsFirst_scalars _ _ _
  · rw [if_neg hm] at hread
    obtain ⟨rfl, rfl⟩ := Prod.mk.inj (Option.some.inj hread)
    have hsrcs : (storeShape x).srcs =
        ((if x.m = 1 then [(32, x.b, x.q)] else []) ++ [(widthOf x.w, x.d, x.m == 0 && x.q)]).map asSrc := by
      unfold storeShape indexSrc
      split <;> rfl
    rw [sliceOperands, if_neg hm] at hfits
    rw [← hsrcs]
    clear hsrcs
    refine readsFirst_of_opens (opens_st hw hm) hb ?_ rfl
    by_cases h1 : x.m = 1 <;> simp_all [operandsOf, storeShape, indexSrc]

end

theorem exec_readsFirst {i : Instr} {regs : List (BitVec 6 × Bool)} {srcs : List (Nat × BitVec 6 × Bool)} {s : State}
    (hread : operandReads i = some (regs, srcs)) (hw : i.wellFormed = true) (hb : s.hart.binds = [])
    (hfits : (sliceOperands i).any (fun o => overruns o.1 o.2.toNat) = false) : ReadsFirst (exec i s) regs (srcs.map asSrc) s := by
  cases i with
  | add | sub | adds | addsu | subs | subsu | mul | mulh | mulhu | mac | div | divu | rem | remu | min | minu | max | maxu | and | or | xor
  | andn | sll | srl | sra | rotr =>
    dsimp only [exec]
    exact intBinary_readsFirst hw hb (Option.some.inj hread) hfits
  | abs | neg | popc | clz =>
    dsimp only [exec]
    exact intUnary_readsFirst hw hb hread hfits
  | fsqrt | frsq | fexp2 | flog2 | fabs | fneg | fclass =>
    dsimp only [exec]
    exact floatUnary_readsFirst hw hb hread hfits
  | fadd | fsub | fmul | fdiv | fma | fms | fnma | fmin | fmax =>
    dsimp only [exec]
    exact floatBinary_readsFirst hw hb (Option.some.inj hread) hfits
  | ld => exact ld_readsFirst hb hw hread hfits
  | st => exact st_readsFirst hb hw hread hfits
  | _ => exact nomatch hread

theorem emptyOperandTraps : Spec.EmptyOperandTraps := fun _ _ _ _ hread hw htlvl hb hfits =>
  emptyOperands_of_readsFirst (exec_readsFirst hread hw hb hfits) htlvl hb

end Sys2Proof.Proofs
end


section
/-! O45. Divisions by zero with IDZE set (R109, R110). -/

namespace Sys2Proof.Proofs
open Sys2Proof Sys2Proof.Machine Sys2Proof.Spec

/-! ## An element-wise instruction that stops at an element (R13, R91) -/

theorem runElems_append {act : Nat → Bool} {f : Nat → Row → Except (Nat × Word) Elem} {k : Nat} (m : Nat) {i : Nat} {a b : Done}
    (h : runElems act f i k a = (b, none)) : runElems act f i (k + m) a = runElems act f (i + k) m b := by
  induction k generalizing i a with
  | zero =>
    obtain rfl := (Prod.mk.inj h).1
    rw [Nat.zero_add, Nat.add_zero]
  | succ k ih =>
    rw [show k + 1 + m = (k + m) + 1 by omega, show i + (k + 1) = i + 1 + k by omega]
    rw [runElems] at h ⊢
    by_cases hi : act i = true
    · rw [if_pos hi] at h ⊢
      cases he : f i (SMap.get 0 a.z i) with
      | error e =>
        rw [he] at h
        exact nomatch (Prod.mk.inj h).2
      | ok e =>
        rw [he] at h
        exact ih h
    · rw [if_neg hi] at h ⊢
      exact ih h

/-- The elements below n succeed and n, which is active, fails. -/
theorem runElems_stops {act : Nat → Bool} {f : Nat → Row → Except (Nat × Word) Elem} {k m : Nat} {i c : Nat} {v : Word} {a b : Done}
    (h : runElems act f i k a = (b, none)) (hact : act (i + k) = true) (hbad : f (i + k) (SMap.get 0 b.z (i + k)) = .error (c, v)) :
    runElems act f i (k + (m + 1)) a = (b, some (i + k, c, v)) := by
  rw [runElems_append _ h, runElems, if_pos hact, hbad]

theorem performed_iff (h : Hart) (j : Nat) : performed h j = true ↔ h.eidx.toNat ≤ j ∧ j < h.len ∧ h.active j = true := by
  simp only [performed, Bool.and_eq_true, decide_eq_true_eq, Hart.active]
  tauto

section
variable {i : Instr} {sh : Shape} {late : Bool} {f : State → Nat → Row → Except (Nat × Word) Elem} {s : State}

/-- An element-wise instruction whose performed element n fails, and none below it: it traps there, with the elements below it performed. -/
theorem elementwise_traps (hr : Ready s = true) (hs : sh.ok = true) {n c : Nat} {v : Word} (hn : performed s.hart n = true)
    (hbelow : ∀ j, j < n → performed s.hart j = true → ∃ e, f s j (s.hart.row j) = .ok e) (hbad : f s n (s.hart.row n) = .error (c, v)) :
    ∃ b : Done, elementwise i sh late Hart.active f s = .trap c n v 0 (s.setHart (s.hart.settle sh b)) ∧
      (∀ j, SMap.get 0 b.z j = if j < n ∧ performed s.hart j = true then (elemAt (f s) s.hart.z j).row else s.hart.row j) ∧
      (∀ j, j < 1024 → b.sat.getLsbD j = decide (j < n ∧ performed s.hart j = true ∧ (elemAt (f s) s.hart.z j).sat = true)) ∧
      (∀ k, b.fl.getLsbD k = true ↔ ∃ j, j < n ∧ performed s.hart j = true ∧ (elemAt (f s) s.hart.z j).fl.getLsbD k = true) ∧
      (b.wrote = true ↔ anyIn (performed s.hart) 0 n = true) := by
  obtain ⟨-, hb, -, -, -, -, -, -, -, hgrouped, -⟩ := (ready_iff s).mp hr
  obtain ⟨hle, hlen, hact⟩ := (performed_iff _ _).mp hn
  have hp (j : Nat) : (s.hart.eidx.toNat ≤ j ∧ j < s.hart.eidx.toNat + (n - s.hart.eidx.toNat) ∧ s.hart.active j = true) ↔
      (j < n ∧ performed s.hart j = true) := by
    rw [performed_iff]
    constructor
    · rintro ⟨h1, h2, h3⟩
      exact ⟨by omega, h1, by omega, h3⟩
    · rintro ⟨h1, h2, -, h3⟩
      exact ⟨h2, by omega, h3⟩
  obtain ⟨b, hrun, hz, -, hsat, hfl, hwrote⟩ := runElems_ok s.hart.active (f s) (n - s.hart.eidx.toNat) s.hart.eidx.toNat
    { z := s.hart.z, bits := oldBits sh s.hart } fun j h1 h2 h3 =>
      hbelow j ((hp j).mp ⟨h1, h2, h3⟩).1 ((hp j).mp ⟨h1, h2, h3⟩).2
  have hto : s.hart.eidx.toNat + (n - s.hart.eidx.toNat) = n := by omega
  have hstop : runElems s.hart.active (f s) s.hart.eidx.toNat (s.hart.len - s.hart.eidx.toNat)
      { z := s.hart.z, bits := oldBits sh s.hart } = (b, some (n, c, v)) := by
    rw [show s.hart.len - s.hart.eidx.toNat = (n - s.hart.eidx.toNat) + ((s.hart.len - n - 1) + 1) by omega]
    have hrow : SMap.get 0 b.z n = s.hart.row n := by
      rw [hz n, if_neg (by omega)]
      rfl
    rw [runElems_stops hrun (by rw [hto]; exact hact) (by rw [hto, hrow]; exact hbad), hto]
  refine ⟨b, ?_, fun j => ?_, fun j hj => ?_, fun k => ?_, ?_⟩
  · have hgo : ¬ ((s.hart.len = 0 ∧ sh.always = false) ∨ sh.past s.hart = true) := by
      simp only [Shape.past, Bool.and_eq_true, decide_eq_true_eq]
      omega
    unfold elementwise
    rw [vecPre_ready _ _ _ _ hr hs, if_neg hgo]
    dsimp only
    rw [groupEnd_ready hgrouped, hstop, boundReads_nil _ hb]
    rfl
  · rw [hz j]
    exact if_congr (hp j) rfl rfl
  · have hzero : BitVec.getLsbD (0 : Mask) j = false := BitVec.getLsbD_zero
    have hj' := hp j
    rw [hsat j hj, hzero, Bool.false_or, decide_eq_decide]
    tauto
  · have hzero : BitVec.getLsbD (0 : Flags) k = false := BitVec.getLsbD_zero
    rw [hfl k, hzero]
    simp only [Bool.false_eq_true, false_or]
    refine exists_congr fun j => ?_
    have hj' := hp j
    tauto
  · rw [hwrote, anyIn_iff]
    simp only [Bool.false_eq_true, false_or, hp]
    exact ⟨fun ⟨j, h1, h2⟩ => ⟨j, Nat.zero_le j, by omega, h2⟩, fun ⟨j, _, h1, h2⟩ => ⟨j, by omega, h2⟩⟩

end

/-- Results without saturation or flags change rows and tags only. -/
theorem settle_of_clean {h : Hart} {sh : Shape} {b : Done} (hm : sh.mdst = none) (hsat : b.sat = 0) (hfl : b.fl = 0) :
    h.settle sh b = { (if b.wrote ∧ dstSlices sh.dsts ≠ 0 then h.touch (dstSlices sh.dsts) h.len else h) with z := b.z } := by
  have hflags (g : Hart) : g.orFlags 0 = g := by
    have hzero : g.fflags ||| 0 = g.fflags := BitVec.or_zero
    rw [Hart.orFlags, hzero]
  have hsats (g : Hart) : g.orSat 0 = g := if_pos rfl
  unfold Hart.settle
  rw [hm, hsat, hfl]
  dsimp only
  rw [hsats, hflags]
  split <;> rfl

/-- An operand within the file covers its own first slice (R24). -/
theorem slicesOf_ne_zero (wc : BitVec 3) (fl : BitVec 6) : slicesOf (widthOf wc) fl.toNat ≠ 0 := by
  intro h
  have hfl := fl.isLt
  by_cases h2 : widthOf wc = 2
  · have hbit : (slicesOf (widthOf wc) fl.toNat).getLsbD (fl.toNat / 2) = true := by
      rw [slicesOf, if_pos h2, BitVec.getLsbD_twoPow]
      simp
      omega
    rw [h] at hbit
    exact absurd hbit (by simp)
  · have hpos : 0 < widthOf wc / 4 := by
      rcases widthOf_cases wc with h | h | h | h | h | h | h | h <;> rw [h] at h2 ⊢ <;> simp_all
    have hbit : (slicesOf (widthOf wc) fl.toNat).getLsbD fl.toNat = true := by
      rw [slicesOf, if_neg h2, BitVec.getLsbD_ofNat, Nat.testBit_mul_two_pow]
      simp [hpos]
      omega
    rw [h] at hbit
    exact absurd hbit (by simp)

/-- As `elementwise_traps`, where the elements below n only write `val` at width w to field d. -/
theorem elementwise_traps_clean {i : Instr} {sh : Shape} {late : Bool} {f : State → Nat → Row → Except (Nat × Word) Elem} {s : State}
    {n c : Nat} {v : Word} {wc : BitVec 3} {d : BitVec 6} {val : Nat → Nat} (hr : Ready s = true) (hs : sh.ok = true)
    (hd : sh.dsts = [⟨widthOf wc, d.toNat⟩]) (hm : sh.mdst = none) (hn : performed s.hart n = true)
    (hbelow : ∀ j, j < n → performed s.hart j = true → f s j (s.hart.row j) = .ok { row := putElem (s.hart.row j) (widthOf wc) d.toNat (val j) })
    (hbad : f s n (s.hart.row n) = .error (c, v)) :
    ∃ g : Hart, elementwise i sh late Hart.active f s = .trap c n v 0 (s.setHart g) ∧ g = { s.hart with z := g.z, dirty := g.dirty, vlg := g.vlg } ∧
      (∀ j, g.row j = if j < n ∧ performed s.hart j = true then putElem (s.hart.row j) (widthOf wc) d.toNat (val j) else s.hart.row j) ∧
      (let x := if anyIn (performed s.hart) 0 n = true then s.hart.touch (slicesOf (widthOf wc) d.toNat) s.hart.len else s.hart
       g.dirty = x.dirty ∧ g.vlg = x.vlg) := by
  obtain ⟨b, hout, hz, hsat, hfl, hwrote⟩ := elementwise_traps (i := i) (late := late) hr hs hn (fun j h1 h2 => ⟨_, hbelow j h1 h2⟩) hbad
  have helem {j : Nat} (h1 : j < n) (h2 : performed s.hart j = true) : elemAt (f s) s.hart.z j = _ := elemAt_ok (hbelow j h1 h2)
  have hsat0 : b.sat = 0 := BitVec.eq_of_getLsbD_eq fun j hj => by
    rw [hsat j hj, BitVec.ofNat_eq_ofNat, BitVec.getLsbD_zero, decide_eq_false_iff_not]
    rintro ⟨h1, h2, h3⟩
    rw [helem h1 h2] at h3
    exact absurd h3 Bool.false_ne_true
  have hfl0 : b.fl = 0 := BitVec.eq_of_getLsbD_eq fun k _ => by
    rw [BitVec.ofNat_eq_ofNat, BitVec.getLsbD_zero, Bool.eq_false_iff, Ne, hfl k]
    rintro ⟨j, h1, h2, h3⟩
    rw [helem h1 h2] at h3
    simp at h3
  have hslices : dstSlices sh.dsts = slicesOf (widthOf wc) d.toNat := by
    rw [hd]
    exact BitVec.zero_or
  have hset := settle_of_clean (h := s.hart) hm hsat0 hfl0
  rw [hslices, if_congr ((and_iff_left (slicesOf_ne_zero wc d)).trans hwrote) rfl rfl] at hset
  refine ⟨_, hout, ?_, fun j => ?_, ?_⟩
  · rw [hset]
    split <;> rfl
  · rw [hset]
    refine (hz j).trans (ite_congr rfl (fun h => ?_) fun _ => rfl)
    rw [helem h.1 h.2]
  · rw [hset]
    exact ⟨rfl, rfl⟩

/-! ## Divisions -/

theorem shift_of_divides {i : Instr} {r : IntRow} (hrow : intRow i = some r) (hdiv : r.divides = true) : r.shift = false := by
  cases i with
  | div | divu | rem | remu =>
    obtain rfl := Option.some.inj hrow
    rfl
  | add | sub | adds | addsu | subs | subsu | mul | mulh | mulhu | mac | min | minu | max | maxu | and | or | xor | andn | sll | srl | sra | rotr =>
    obtain rfl := Option.some.inj hrow
    exact absurd hdiv Bool.false_ne_true
  | _ => exact nomatch hrow

theorem sat_of_divides {i : Instr} {r : IntRow} (hrow : intRow i = some r) (hdiv : r.divides = true) (w : Nat) (a b : BitVec w) :
    r.sat w a b = false := by
  cases i with
  | div | divu | rem | remu =>
    obtain rfl := Option.some.inj hrow
    rfl
  | add | sub | adds | addsu | subs | subsu | mul | mulh | mulhu | mac | min | minu | max | maxu | and | or | xor | andn | sll | srl | sra | rotr =>
    obtain rfl := Option.some.inj hrow
    exact absurd hdiv Bool.false_ne_true
  | _ => exact nomatch hrow

/-- What an operation's answer comes to in a row: its value at width w in field d. -/
def answerElem (w d : Nat) (row : Row) : Except (Nat × Word) IVal → Except (Nat × Word) Elem
  | .error e => .error e
  | .ok v => .ok { row := putElem row w d (wrap v.v w), sat := v.sat, fl := v.fl }

/-- What an element of the vector forms of class IB comes to. -/
def intElem (x : ArgsA) (op : State → IOp) (s : State) (j : Nat) (row : Row) : Except (Nat × Word) Elem :=
  answerElem (widthOf x.w) x.d.toNat row (op s (widthOf x.w) (fetch s ⟨widthOf x.w, x.a.toNat, false⟩ j row)
    (bVal s x.f false (widthOf x.w) x.b j row) (fetch s ⟨widthOf x.w, x.d.toNat, false⟩ j row))

theorem intVector_eq (i : Instr) (x : ArgsA) (rd late : Bool) (op : State → IOp) (s : State) :
    intVector i x (widthOf x.w) (widthOf x.w) rd false late op s =
      elementwise i (binaryShape x (widthOf x.w) (widthOf x.w) rd (saturates i) late) late Hart.active (intElem x op) s := rfl

theorem intElem_ready {s : State} (hr : Ready s = true) (x : ArgsA) (op : State → IOp) (j : Nat) :
    intElem x op s j (s.hart.row j) = answerElem (widthOf x.w) x.d.toNat (s.hart.row j) (op s (widthOf x.w)
      (sliceAt s (widthOf x.w) x.a j).toNat (secondAt s x.f false (widthOf x.w) x.b j).toNat (sliceAt s (widthOf x.w) x.d j).toNat) := by
  rw [intElem, fetch_ready hr, fetch_ready hr, bVal_ready hr]

section
variable {i : Instr} {r : IntRow} {s : State} (hrow : intRow i = some r) (hdiv : r.divides = true) (hw : i.wellFormed = true)
  (hr : Ready s = true) (hz : s.hart.fctl.getLsbD 5 = true) (htlvl : s.hart.tlvl.toNat < 2)
include hrow hdiv hw hr hz htlvl

theorem scalarDivision_traps (hf : r.x.f = 3) (hb : secondScalar s r.x.w false (scalarWidth r.x.w) r.x.b = 0) :
    ∃ t, exec i s = .next t ∧ TrapOutcome s t 0x09 0 (BitVec.ofNat 64 ((s.hart.rs r.x.a).toNat % 2 ^ scalarWidth r.x.w)) 0 := by
  obtain ⟨rd, late, op, hexec, hop⟩ := exec_intRow hrow
  have hbad := (hop s _ (scalarWidth_pos r.x.w) (BitVec.ofNat _ (s.hart.rs r.x.a).toNat) (secondScalar s r.x.w false _ r.x.b)
    (s.hart.rs r.x.d).toNat).1 hdiv hb hz
  rw [hexec, intBinary_scalar hw hf, shift_of_divides hrow hdiv, intScalar_of_error hr hbad, BitVec.toNat_ofNat]
  exact trapOutcome_of_trap htlvl _ _ _ _

theorem vectorDivision_traps {n : Nat} (hf : r.x.f ≠ 3) (hd : overruns (widthOf r.x.w) r.x.d.toNat = false)
    (ha : overruns (widthOf r.x.w) r.x.a.toNat = false) (hb : r.x.f = 0 → overruns (widthOf r.x.w) r.x.b.toNat = false)
    (hn : performed s.hart n = true) (hzero : secondAt s r.x.f false (widthOf r.x.w) r.x.b n = 0)
    (hlow : ∀ j, j < n → performed s.hart j = true → secondAt s r.x.f false (widthOf r.x.w) r.x.b j ≠ 0) :
    ∃ (t : State) (g : Hart), exec i s = .next t ∧
      TrapOutcome (s.setHart g) t 0x09 n ((sliceAt s (widthOf r.x.w) r.x.a n).zeroExtend 64) 0 ∧
      g = { s.hart with z := g.z, dirty := g.dirty, vlg := g.vlg } ∧
      (∀ j, g.row j = if j < n ∧ performed s.hart j = true then putElem (s.hart.row j) (widthOf r.x.w) r.x.d.toNat
        (r.val _ (sliceAt s _ r.x.a j) (secondAt s r.x.f false _ r.x.b j) (sliceAt s (widthOf r.x.w) r.x.d j)).toNat else s.hart.row j) ∧
      (let x := if anyIn (performed s.hart) 0 n = true then s.hart.touch (slicesOf (widthOf r.x.w) r.x.d.toNat) s.hart.len else s.hart
       g.dirty = x.dirty ∧ g.vlg = x.vlg) := by
  obtain ⟨rd, late, op, hexec, hop⟩ := exec_intRow hrow
  have hat (j : Nat) := hop s _ (widthOf_pos r.x.w) (sliceAt s _ r.x.a j) (secondAt s r.x.f false _ r.x.b j) (sliceAt s (widthOf r.x.w) r.x.d j).toNat
  obtain ⟨g, hout, hframe, hrows, htags⟩ := elementwise_traps_clean (i := i) (late := late) (wc := r.x.w) (d := r.x.d) (n := n) (c := 0x09)
    (v := (sliceAt s (widthOf r.x.w) r.x.a n).zeroExtend 64) (sh := binaryShape r.x (widthOf r.x.w) (widthOf r.x.w) rd (saturates i) late)
    (val := fun j => (r.val _ (sliceAt s _ r.x.a j) (secondAt s r.x.f false _ r.x.b j) (sliceAt s (widthOf r.x.w) r.x.d j)).toNat)
    (f := intElem r.x op) hr (by cases rd <;> simp [binaryShape, Shape.ok, hd, ha, bSrc_fits hb]) rfl rfl hn
    (fun j h1 h2 => by
      have hne := hlow j h1 h2
      obtain ⟨v, hv, hval, hsat, hfl⟩ := (hat j).2 fun _ h0 => absurd h0 hne
      rw [BitVec.ofNat_toNat, BitVec.setWidth_eq] at hval
      rw [sat_of_divides hrow hdiv] at hsat
      rw [if_neg fun h => hne h.2] at hfl
      rw [intElem_ready hr, hv, answerElem, wrap_eq, hval, hsat, hfl])
    (by rw [intElem_ready hr, (hat n).1 hdiv hzero hz, BitVec.ofNat_toNat]; rfl)
  obtain ⟨t, ht, htrap⟩ := trapOutcome_of_trap (s := s.setHart g) (by rw [State.hart_setHart, hframe]; exact htlvl) 0x09 n
    ((sliceAt s (widthOf r.x.w) r.x.a n).zeroExtend 64) 0
  refine ⟨t, g, ?_, htrap, hframe, hrows, htags⟩
  rw [hexec, intBinary_vector hw hf, shift_of_divides hrow hdiv, intVector_eq, hout, ht]

end

theorem operandTraps : Spec.OperandTraps :=
  ⟨fun _ _ _ hrow hdiv hw hr hz htlvl => ⟨scalarDivision_traps hrow hdiv hw hr hz htlvl,
      fun _ => vectorDivision_traps hrow hdiv hw hr hz htlvl⟩,
    fun i _ hw htlvl h => exec_overruns i hw htlvl h, fun _ _ _ _ hcross hw htlvl h => exec_cross_traps hcross hw htlvl h,
    fun _ _ hw htlvl h => xsplit_overruns hw htlvl h⟩

end Sys2Proof.Proofs
end


section
/-! O45. A scalar LD or ST that fails its checks (R191, R200, R201). -/

namespace Sys2Proof.Proofs
open Sys2Proof Sys2Proof.Machine Sys2Proof.Spec

/-! ## The operands of LD and ST -/

theorem st_wellFormed {x : ArgsL} (hw : (Instr.ld x).wellFormed = true) : (Instr.st x).wellFormed = true := by
  simp only [Instr.wellFormed, Bool.and_eq_true] at hw ⊢
  obtain ⟨⟨⟨hfloat, hm⟩, -⟩, hb⟩ := hw
  exact ⟨⟨hfloat, hm⟩, hb⟩

theorem mode_cases {x : ArgsL} (hw : (Instr.ld x).wellFormed = true) (hm : x.m ≠ 2) : x.m = 0 ∨ x.m = 1 := by
  simp only [Instr.wellFormed, Bool.and_eq_true, bne_iff_ne] at hw
  obtain ⟨⟨⟨-, h3⟩, -⟩, -⟩ := hw
  generalize x.m = m at hm h3
  bv_omega

theorem scalarAddress_eq {x : ArgsL} (s : State) (hm : x.m = 2) : scalarAddress s x.a x.b (widthOf x.w / 8) = accessAddr s x 0 := by
  rw [accessAddr, if_neg (by rw [hm]; decide), if_neg (by rw [hm]; decide), scalarAddress, word_eq, BitVec.ofInt_mul, BitVec.ofInt_natCast]
  rfl

theorem elemAddress_eq {x : ArgsL} {s : State} (hr : Ready s = true) (hm : x.m = 0 ∨ x.m = 1) :
    elemAddress s x (widthOf x.w / 8) = accessAddr s x := by
  funext j
  rcases hm with hm | hm
  · rw [elemAddress, accessAddr, if_pos hm, if_pos hm]
  · have h0 : x.m ≠ 0 := by rw [hm]; decide
    rw [elemAddress, accessAddr, if_neg h0, if_neg h0, if_pos hm, readV, fetch_ready hr, word_sx, BitVec.ofNat_toNat, BitVec.setWidth_eq]

/-! ## One access -/

/-- An access that fails its checks, on a quiet hart. -/
theorem oneAccess_of_bad {s : State} (h : Quiet s = true) {x : Access} {space : BitVec 2} {va : Word} {cause wl : Nat}
    (hc : s.checkSpace s.cur space va.toNat x.acc x.sz x.align x.idem = .bad cause wl) (data : Nat) (k : Nat → State → Res) :
    oneAccess x 0 space va data s k = .trap cause 0 va wl s := by
  obtain ⟨-, -, -, hreqs⟩ := (quiet_iff s).mp h
  simp only [oneAccess, quiet_requestOf h, hc, clearRequests_of_none hreqs]

theorem accessTrap : Spec.AccessTrap := by
  intro x s cause wl hw hm hq htlvl
  dsimp only
  have hfull := quiet_allFull hq
  refine ⟨fun hc => ?_, fun hc => ?_⟩
  · dsimp only [exec]
    rw [execLd, issue_wf _ _ _ hw, if_pos hm, readScalars_full _ _ _ hfull, scalarAddress_eq s hm, oneAccess_of_bad hq hc]
    exact trapOutcome_of_trap htlvl _ _ _ _
  · dsimp only [exec]
    rw [execSt, issue_wf _ _ _ (st_wellFormed hw), if_pos hm, readScalars_full _ _ _ hfull, scalarAddress_eq s hm, oneAccess_of_bad hq hc]
    exact trapOutcome_of_trap htlvl _ _ _ _

end Sys2Proof.Proofs
end


section
/-! O45. The checks of a vector access up to its lowest failing element, and what stands after the stop (R91, R191, R201). -/

namespace Sys2Proof.Proofs
open Sys2Proof Sys2Proof.Machine Sys2Proof.Spec

/-! ## States that differ in the hart of the executing slot only -/

theorem onlyHart_symm {s t : State} (h : OnlyHart s t) : OnlyHart t s := by
  have hcur := onlyHart_cur h
  obtain ⟨hrest, hother, hown⟩ := h
  have hhart : t.hart = (t.slot s.cur).hart := by rw [State.hart, hcur]
  refine ⟨?_, fun j hj => (hother j (hcur ▸ hj)).symm, ?_⟩
  · rw [← hrest]
  · rw [hcur, ← hown, hhart]

theorem onlyHart_walked {s t : State} (h : OnlyHart s t) (l : List Walked) : OnlyHart { s with walked := l } { t with walked := l } := by
  obtain ⟨hrest, hother, hown⟩ := h
  exact ⟨congrArg (fun u : State => { u with walked := l }) hrest, hother, hown⟩

/-- A trap as seen from another state with the same hart. -/
theorem trapOutcome_of_onlyHart {s u t : State} (h : OnlyHart s u) (hh : u.hart = s.hart) {cause i : Nat} {v : Word} {wl : Nat}
    (ht : TrapOutcome u t cause i v wl) : TrapOutcome s t cause i v wl := by
  obtain ⟨honly, hhart⟩ := ht
  rw [hh] at hhart
  exact ⟨onlyHart_trans (onlyHart_walked h _) honly, hhart⟩

/-! ## The checks of the elements -/

/-- Performed elements among i, …, i + c − 1 with their locations and classes. -/
def passed (act : Nat → Bool) (loc : Nat → Loc) (dev : Nat → Bool) (i c : Nat) : List (Nat × Loc × Bool) :=
  ((List.range' i c).filter act).map fun j => (j, loc j, dev j)

theorem mem_passed {act : Nat → Bool} {loc : Nat → Loc} {dev : Nat → Bool} {i c : Nat} {p : Nat × Loc × Bool} :
    p ∈ passed act loc dev i c ↔ (i ≤ p.1 ∧ p.1 < i + c) ∧ act p.1 = true ∧ p.2 = (loc p.1, dev p.1) := by
  simp only [passed, List.mem_map, List.mem_filter, List.mem_range'_1]
  constructor
  · rintro ⟨j, ⟨hj, ha⟩, rfl⟩
    exact ⟨hj, ha, rfl⟩
  · rintro ⟨hj, ha, h⟩
    exact ⟨p.1, ⟨hj, ha⟩, by rw [← h]⟩

theorem sorted_passed (act : Nat → Bool) (loc : Nat → Loc) (dev : Nat → Bool) (i c : Nat) :
    (passed act loc dev i c).Pairwise fun p q => p.1 < q.1 := by
  rw [passed, List.pairwise_map]
  exact (List.pairwise_lt_range').filter _

theorem passed_succ (act : Nat → Bool) (loc : Nat → Loc) (dev : Nat → Bool) (i c : Nat) : passed act loc dev i (c + 1) =
    (if act i = true then [(i, loc i, dev i)] else []) ++ passed act loc dev (i + 1) c := by
  by_cases h : act i = true <;> simp [passed, List.range'_succ, h]

section
variable {x : Access} {space : BitVec 2} {act : Nat → Bool} {addr : Nat → Word} {loc : Nat → Loc} {dev : Nat → Bool} {s : State}
  {cause wl : Nat} (hreq : ∀ i, s.requestOf (.elem s.cur i) = none)
include hreq

/-- The plan stops at the lowest element that fails, with those below it checked and nothing sent. -/
theorem planElems_of_bad (data expect : Nat → Nat) (ordered : Bool) (c m : Nat) {i : Nat} {l : List (Nat × Loc × Bool)}
    (hgo : ∀ j, i ≤ j → j < i + c → act j = true → s.checkSpace s.cur space (addr j).toNat x.acc x.sz x.align x.idem = .go (loc j) (dev j) ∧ isLocal (loc j) = true)
    (hact : act (i + c) = true) (hbad : s.checkSpace s.cur space (addr (i + c)).toNat x.acc x.sz x.align x.idem = .bad cause wl) :
    planElems x space act addr data expect ordered i (c + (m + 1)) ⟨s, l, none, .all⟩ =
      ⟨s, l ++ passed act loc dev i c, none, .fail (i + c) cause wl (addr (i + c))⟩ := by
  induction c generalizing i l with
  | zero =>
    rw [Nat.add_zero] at hact hbad ⊢
    rw [Nat.zero_add, planElems]
    simp only [hact, hreq, hbad]
    simp [passed]
  | succ c ih =>
    rw [show i + (c + 1) = i + 1 + c by omega] at hact hbad hgo ⊢
    have ih' (l : List (Nat × Loc × Bool)) := ih (i := i + 1) (l := l) (fun j h1 h2 => hgo j (by omega) h2) hact hbad
    rw [show c + 1 + (m + 1) = (c + (m + 1)) + 1 by omega, planElems, passed_succ]
    by_cases hi : act i = true
    · obtain ⟨hc, hl⟩ := hgo i (le_refl i) (by omega) hi
      simp only [hi, hreq, hc, if_true]
      cases hloc : loc i with
      | peer => rw [hloc] at hl; cases hl
      | hbm | cis | host => simp [ih']
    · simp only [Bool.not_eq_true] at hi
      simp only [hi, Bool.false_eq_true, if_false, List.nil_append]
      exact ih' l

end

/-- Element j above a stop, where it is performed all the same (R201). -/
def aboveAt (x : Access) (space : BitVec 2) (act : Nat → Bool) (addr : Nat → Word) (s : State) (j : Nat) : Option (Nat × Loc × Bool) :=
  if act j && Config.performedAbove (s.fresh * 2048 + j) then
    match s.checkSpace s.cur space (addr j).toNat x.acc x.sz x.align x.idem with
    | .go (.peer _ _) _ => none
    | .go loc false => some (j, loc, false)
    | _ => none
  else none

section
variable {x : Access} {space : BitVec 2} {act : Nat → Bool} {addr : Nat → Word} {s : State}

theorem aboveElems_eq (i c : Nat) : aboveElems x space act addr s i c = (List.range' i c).filterMap (aboveAt x space act addr s) := by
  induction c generalizing i with
  | zero => rfl
  | succ c ih =>
    rw [aboveElems, List.range'_succ, List.filterMap_cons, aboveAt, ih]
    split
    · split <;> simp_all
    · rfl

/-- What an element above a stop that is performed has: it is active and passes its check in local memory that is no device. -/
theorem of_aboveAt {j : Nat} {p : Nat × Loc × Bool} (h : aboveAt x space act addr s j = some p) : p.1 = j ∧ act j = true ∧ isLocal p.2.1 = true ∧
    s.checkSpace s.cur space (addr j).toNat x.acc x.sz x.align x.idem = .go p.2.1 false := by
  unfold aboveAt at h
  split at h
  · next hi =>
    split at h
    · exact nomatch h
    · next l hnp hc =>
      obtain rfl := Option.some.inj h
      refine ⟨rfl, (Bool.and_eq_true_iff.mp hi).1, ?_, hc⟩
      cases l with
      | peer q pa => exact absurd rfl (hnp q pa)
      | hbm | cis | host => rfl
    · exact nomatch h
  · exact nomatch h

theorem mem_aboveElems {c i : Nat} {p : Nat × Loc × Bool} (hp : p ∈ aboveElems x space act addr s i c) :
    i ≤ p.1 ∧ act p.1 = true ∧ isLocal p.2.1 = true ∧ s.checkSpace s.cur space (addr p.1).toNat x.acc x.sz x.align x.idem = .go p.2.1 false := by
  rw [aboveElems_eq, List.mem_filterMap] at hp
  obtain ⟨j, hj, h⟩ := hp
  obtain ⟨rfl, hrest⟩ := of_aboveAt h
  exact ⟨(List.mem_range'_1.mp hj).1, hrest⟩

theorem sorted_aboveElems (i c : Nat) : (aboveElems x space act addr s i c).Pairwise fun p q => p.1 < q.1 := by
  rw [aboveElems_eq, List.pairwise_filterMap]
  refine List.Pairwise.imp (fun hlt p hp q hq => ?_) List.pairwise_lt_range'
  rwa [(of_aboveAt hp).1, (of_aboveAt hq).1]

end

/-! ## The stop -/

section
variable {x : Access} {space : BitVec 2} {addr : Nat → Word} {data : Nat → Nat} {perform : List (Nat × Loc × Bool) → State → State}
  {fin : State → Res} {loc : Nat → Loc} {dev : Nat → Bool} {s : State} {n cause wl : Nat}

/-- The state after the elements below n. -/
def belowStop (perform : List (Nat × Loc × Bool) → State → State) (loc : Nat → Loc) (dev : Nat → Bool) (n : Nat) (s : State) : State :=
  perform (passed s.hart.active loc dev s.hart.eidx.toNat (n - s.hart.eidx.toNat)) s

/-- The elements above n that are performed in the state `v`, with the active elements of `h`. -/
def aboveStop (x : Access) (addr : Nat → Word) (n : Nat) (h : Hart) (v : State) : List (Nat × Loc × Bool) :=
  aboveElems x h.mspace h.active addr v (n + 1) (h.len - (n + 1))

/-- The state after the elements below n and those above it that are performed. -/
def afterStop (x : Access) (addr : Nat → Word) (perform : List (Nat × Loc × Bool) → State → State) (loc : Nat → Loc) (dev : Nat → Bool) (n : Nat)
    (s : State) : State :=
  (perform (aboveStop x addr n s.hart (belowStop perform loc dev n s)) (belowStop perform loc dev n s)).tick

/-- An access whose performed element n is the lowest that fails its checks: those below n are performed, then some above it, and it traps at n. -/
theorem memoryElems_of_bad (hq : Quiet s = true) (habove : x.above = true) (hn : performed s.hart n = true)
    (hpass : ∀ j, j < n → performed s.hart j = true →
      s.checkSpace s.cur s.hart.mspace (addr j).toNat x.acc x.sz x.align x.idem = .go (loc j) (dev j) ∧ isLocal (loc j) = true)
    (hbad : s.checkSpace s.cur s.hart.mspace (addr n).toNat x.acc x.sz x.align x.idem = .bad cause wl)
    (hwbuf : (afterStop x addr perform loc dev n s).wbuf = []) :
    memoryElems x s.hart.mspace s.hart.active addr data perform none (groupEnd s) fin s =
      .trap cause n (addr n) wl (cleanEnd (afterStop x addr perform loc dev n s)) := by
  obtain ⟨-, -, -, -, -, -, -, -, -, hgrouped, -, habandons, -⟩ := (ready_iff s).mp (quiet_ready hq)
  obtain ⟨hle, hlen, hact⟩ := (performed_iff _ _).mp hn
  have hplan := planElems_of_bad (x := x) (space := s.hart.mspace) (act := s.hart.active) (addr := addr) (loc := loc) (dev := dev)
    (quiet_requestOf hq) data (fun _ => 0) true (n - s.hart.eidx.toNat) (s.hart.len - n - 1) (i := s.hart.eidx.toNat) (l := [])
    (fun j h1 h2 h3 => hpass j (by omega) ((performed_iff _ _).mpr ⟨h1, by omega, h3⟩))
    (by rwa [Nat.add_sub_cancel' hle]) (by rwa [Nat.add_sub_cancel' hle])
  rw [show n - s.hart.eidx.toNat + (s.hart.len - n - 1 + 1) = s.hart.len - s.hart.eidx.toNat by omega, Nat.add_sub_cancel' hle, List.nil_append] at hplan
  have hfilter : (passed s.hart.active loc dev s.hart.eidx.toNat (n - s.hart.eidx.toNat)).filter (fun l => decide (l.1 < n)) =
      passed s.hart.active loc dev s.hart.eidx.toNat (n - s.hart.eidx.toNat) :=
    List.filter_eq_self.mpr fun p hp => decide_eq_true (by have := (mem_passed.mp hp).1; omega)
  simp only [memoryElems, groupEnd_ready hgrouped, hplan, Plan.late, habandons, habove, hfilter, Bool.false_eq_true, if_false, if_true]
  exact congrArg (fun t => Res.trap cause n (addr n) wl (cleanEnd t)) (Memory.drainIf_nil (afterStop x addr perform loc dev n s) _ hwbuf)

end

end Sys2Proof.Proofs
end


section
/-! O45. A vector LD with a failing check (R79, R89, R91, R191, R201). -/

namespace Sys2Proof.Proofs
open Sys2Proof Sys2Proof.Machine Sys2Proof.Spec

/-! ## Writing what stands at a key, in a map of any form -/

section
variable {α : Type} {m : SMap α} {j k : Nat} {v x : α}

theorem smap_put_put_fixed (h : SMap.put m k x = m) (hjk : j ≠ k) : SMap.put (SMap.put m j v) k x = SMap.put m j v := by
  induction m with
  | nil => simp [SMap.put] at h
  | cons p m ih => grind [SMap.put]

theorem smap_put_del_fixed (h : SMap.put m k x = m) (hjk : j ≠ k) : SMap.put (SMap.del m j) k x = SMap.del m j := by
  induction m with
  | nil => simp [SMap.put] at h
  | cons p m ih => grind [SMap.put, SMap.del]

theorem smap_del_eq_filter (m : SMap α) (k : Nat) : SMap.del m k = m.filter fun p => decide (p.1 ≠ k) := by
  induction m with
  | nil => rfl
  | cons p m ih =>
    by_cases h : k = p.1
    · rw [SMap.del, if_pos h, ih, List.filter_cons_of_neg (by simp [h])]
    · rw [SMap.del, if_neg h, ih, List.filter_cons_of_pos (by simpa using Ne.symm h)]

theorem mem_smap_put {p : Nat × α} (h : p ∈ SMap.put m j v) : p = (j, v) ∨ p ∈ m := by
  induction m with
  | nil => simpa [SMap.put] using h
  | cons q m ih => grind [SMap.put]

theorem smap_del_fixed_iff : SMap.del m k = m ↔ ∀ p ∈ m, p.1 ≠ k := by
  rw [smap_del_eq_filter, List.filter_eq_self]
  simp only [decide_eq_true_eq]

/-- Writing at k what stands there leaves the map as it is. -/
def Settled [DecidableEq α] (d : α) (m : SMap α) (k : Nat) : Prop := SMap.set d m k (SMap.get d m k) = m

theorem settled_set_same [DecidableEq α] (d : α) (m : SMap α) (k : Nat) (v : α) : Settled d (SMap.set d m k v) k := by
  rw [Settled, SMap.get_set_same, smap_set_set]

theorem settled_set_other [DecidableEq α] {d : α} (h : Settled d m k) (hjk : j ≠ k) : Settled d (SMap.set d m j v) k := by
  rw [Settled] at h ⊢
  rw [SMap.get_set_other d m v hjk.symm]
  by_cases hx : SMap.get d m k = d
  · rw [SMap.set, if_pos hx, smap_del_fixed_iff] at h
    rw [SMap.set, if_pos hx, smap_del_fixed_iff, SMap.set]
    split
    · rw [smap_del_eq_filter]
      exact fun p hp => h p (List.mem_of_mem_filter hp)
    · intro p hp
      rcases mem_smap_put hp with rfl | hp
      · exact hjk
      · exact h p hp
  · rw [SMap.set, if_neg hx] at h
    rw [SMap.set, if_neg hx, SMap.set]
    split
    · exact smap_put_del_fixed h hjk
    · exact smap_put_put_fixed h hjk

theorem settled_mapRange_of [DecidableEq α] {d : α} {f : Nat → α → α} {n lo : Nat} (h : Settled d m k) :
    Settled d (SMap.mapRange d f lo n m) k := by
  induction n generalizing lo m with
  | zero => exact h
  | succ n ih =>
    refine ih ?_
    by_cases hk : lo = k
    · subst hk
      exact settled_set_same d m lo _
    · exact settled_set_other h hk

theorem settled_mapRange [DecidableEq α] {d : α} {f : Nat → α → α} {n lo : Nat} (hlo : lo ≤ k) (hk : k < lo + n) :
    Settled d (SMap.mapRange d f lo n m) k := by
  induction n generalizing lo m with
  | zero => omega
  | succ n ih =>
    by_cases he : lo = k
    · subst he
      rw [SMap.mapRange]
      exact settled_mapRange_of (settled_set_same d m lo _)
    · exact ih (by omega) (by omega)

theorem mapRange_eq_self [DecidableEq α] {d : α} {f : Nat → α → α} {n lo : Nat}
    (h : ∀ k, lo ≤ k → k < lo + n → Settled d m k ∧ f k (SMap.get d m k) = SMap.get d m k) : SMap.mapRange d f lo n m = m := by
  induction n generalizing lo with
  | zero => rfl
  | succ n ih =>
    obtain ⟨hset, hf⟩ := h lo (le_refl lo) (by omega)
    rw [SMap.mapRange, hf, hset]
    exact ih fun k h1 h2 => h k (by omega) (by omega)

end

/-- The level of slice i after its tag has been raised (R79). -/
def raisedLevel (slices : BitVec 64) (vl i : Nat) (v : BitVec 5) : BitVec 5 :=
  if slices.getLsbD i ∧ v.toNat < ceilDiv vl 64 then BitVec.ofNat 5 (ceilDiv vl 64) else v

theorem touch_eq (h : Hart) (slices : BitVec 64) (vl : Nat) :
    h.touch slices vl = { h with dirty := h.dirty ||| slices, vlg := SMap.mapRange 0 (raisedLevel slices vl) 0 64 h.vlg } := rfl

theorem raisedLevel_raisedLevel (slices : BitVec 64) (vl i : Nat) (v : BitVec 5) : raisedLevel slices vl i (raisedLevel slices vl i v) = raisedLevel slices vl i v := by
  unfold raisedLevel
  split_ifs <;> rfl

/-- Tagging slices twice is tagging them once. -/
theorem touch_touch (h : Hart) (slices : BitVec 64) (vl : Nat) : (h.touch slices vl).touch slices vl = h.touch slices vl := by
  have hvlg : SMap.mapRange 0 (raisedLevel slices vl) 0 64 (SMap.mapRange 0 (raisedLevel slices vl) 0 64 h.vlg) =
      SMap.mapRange 0 (raisedLevel slices vl) 0 64 h.vlg :=
    mapRange_eq_self fun k h1 h2 => ⟨settled_mapRange h1 h2, by rw [get_mapRange, if_pos ⟨h1, h2⟩, raisedLevel_raisedLevel]⟩
  have hdirty : h.dirty ||| slices ||| slices = h.dirty ||| slices := by rw [BitVec.or_assoc, BitVec.or_self]
  simp only [touch_eq, hvlg, hdirty]

/-! ## The elements that LD performs -/

/-- The rows after the listed elements have been loaded with the values `val`. -/
def loadedRows (z : SMap Row) (w d : Nat) (l : List (Nat × Loc × Bool)) (val : Nat × Loc × Bool → Nat) : SMap Row :=
  l.foldl (fun z p => SMap.set 0 z p.1 (putElem (SMap.get 0 z p.1) w d (val p))) z

/-- The hart after the listed elements have been loaded with the values `val`. -/
def loaded (h : Hart) (w d : Nat) (l : List (Nat × Loc × Bool)) (val : Nat × Loc × Bool → Nat) : Hart :=
  if l.isEmpty then h
  else { h with z := loadedRows h.z w d l val }.touch (slicesOf w d) h.len

section
variable {w d : Nat} {h : Hart} {l : List (Nat × Loc × Bool)} {val : Nat × Loc × Bool → Nat}

theorem loaded_frame : loaded h w d l val = { h with z := (loaded h w d l val).z, dirty := (loaded h w d l val).dirty, vlg := (loaded h w d l val).vlg } := by
  unfold loaded
  split <;> rfl

theorem loaded_z : (loaded h w d l val).z = loadedRows h.z w d l val := by
  unfold loaded
  split
  · next he =>
    rw [List.isEmpty_iff.mp he]
    rfl
  · rfl

/-- A row that no listed element names stays. -/
theorem get_loadedRows_other {z : SMap Row} {j : Nat} (hj : ∀ p ∈ l, p.1 ≠ j) : SMap.get 0 (loadedRows z w d l val) j = SMap.get 0 z j := by
  induction l generalizing z with
  | nil => rfl
  | cons p l ih =>
    rw [loadedRows, List.foldl_cons, ← loadedRows, ih fun q hq => hj q (List.mem_cons_of_mem _ hq)]
    exact SMap.get_set_other 0 z _ (hj p List.mem_cons_self).symm

/-- The row of a listed element receives its value, where no element is listed twice. -/
theorem get_loadedRows {z : SMap Row} {p : Nat × Loc × Bool} (hl : l.Pairwise fun p q => p.1 < q.1) (hp : p ∈ l) :
    SMap.get 0 (loadedRows z w d l val) p.1 = putElem (SMap.get 0 z p.1) w d (val p) := by
  induction l generalizing z with
  | nil => exact absurd hp List.not_mem_nil
  | cons q l ih =>
    obtain ⟨hq, hrest⟩ := List.pairwise_cons.mp hl
    rw [loadedRows, List.foldl_cons, ← loadedRows]
    rcases List.mem_cons.mp hp with rfl | hp
    · rw [get_loadedRows_other fun r hr => (hq r hr).ne', SMap.get_set_same]
    · rw [ih hrest hp, SMap.get_set_other 0 z _ (hq p hp).ne']

theorem row_loaded_other {j : Nat} (hj : ∀ p ∈ l, p.1 ≠ j) : (loaded h w d l val).row j = h.row j := by
  rw [Hart.row, loaded_z, get_loadedRows_other hj]
  rfl

theorem row_loaded {p : Nat × Loc × Bool} (hl : l.Pairwise fun p q => p.1 < q.1) (hp : p ∈ l) :
    (loaded h w d l val).row p.1 = putElem (h.row p.1) w d (val p) := by
  rw [Hart.row, loaded_z, get_loadedRows hl hp]
  rfl

end

/-- On a state with nothing buffered, copied or kept, LD loads what stands at the homes. -/
theorem loadElems_eq {s : State} (hwbuf : s.wbuf = []) (hcopies : s.copies = []) (haccs : s.hart.accs = []) (hgrouped : s.sched.grouped = false)
    (w d : Nat) {l : List (Nat × Loc × Bool)} (hl : ∀ p ∈ l, isLocal p.2.1 = true) :
    loadElems w d l s = s.setHart (loaded s.hart w d l fun p => s.homeRead p.2.1 (w / 8)) := by
  have hval (p : Nat × Loc × Bool) (hp : p ∈ l) : loadedOnce s (w / 8) p.2.1 p.2.2 = s.homeRead p.2.1 (w / 8) := by
    have hread := Memory.readClass_home s s.cur p.2.1 (w / 8) p.2.2 hwbuf hcopies
    have hlocal := hl p hp
    simp only [loadedOnce, haccs, List.find?_nil]
    cases hloc : p.2.1 with
    | peer => rw [hloc] at hlocal; cases hlocal
    | hbm | cis | host => rw [hloc] at hread; exact hread
  have hrows : l.foldl (fun z p => SMap.set 0 z p.1 (putElem (SMap.get 0 z p.1) w d (loadedOnce s (w / 8) p.2.1 p.2.2))) s.hart.z =
      loadedRows s.hart.z w d l fun p => s.homeRead p.2.1 (w / 8) :=
    List.foldl_ext _ _ _ fun z p hp => by rw [hval p hp]
  simp only [loadElems, hgrouped, Bool.false_eq_true, if_false, hrows, loaded]

/-- The tags after elements have been loaded twice. -/
theorem taggedIf_loaded {h : Hart} {w d : Nat} {l m : List (Nat × Loc × Bool)} {val val' : Nat × Loc × Bool → Nat} {must : Prop} (hmust : must → l ≠ []) :
    TaggedIf h (loaded (loaded h w d l val) w d m val') (slicesOf w d) must := by
  by_cases hl : l = []
  · have hnone : loaded h w d l val = h := by rw [loaded, hl]; rfl
    rw [hnone]
    by_cases hm : m = []
    · exact .inr ⟨fun h => hmust h hl, by rw [loaded, hm]; exact ⟨rfl, rfl⟩⟩
    · rw [loaded, if_neg (by rwa [List.isEmpty_iff])]
      exact .inl ⟨rfl, rfl⟩
  · left
    have hsome : loaded h w d l val = { h with z := loadedRows h.z w d l val }.touch (slicesOf w d) h.len :=
      if_neg (by rwa [List.isEmpty_iff])
    by_cases hm : m = []
    · have hnone : loaded (loaded h w d l val) w d m val' = loaded h w d l val := by rw [loaded, hm]; rfl
      rw [hnone, hsome]
      exact ⟨rfl, rfl⟩
    · have htwice (z : SMap Row) : { ({ h with z := loadedRows h.z w d l val }.touch (slicesOf w d) h.len) with z := z }.touch (slicesOf w d) h.len =
          { h with z := z }.touch (slicesOf w d) h.len := touch_touch { h with z := z } _ _
      rw [hsome, loaded, if_neg (by rwa [List.isEmpty_iff])]
      refine ⟨?_, ?_⟩
      · exact (congrArg Hart.dirty (htwice _)).trans rfl
      · exact (congrArg Hart.vlg (htwice _)).trans rfl

/-! ## An access does not look at the hart -/

section
variable (s : State) (h : Hart)

theorem useFns_setHart (fns : List Nat) (k : Chk) : (s.setHart h).useFns fns k = s.useFns fns k := by
  induction fns with
  | nil => rfl
  | cons n fns ih => rw [State.useFns, State.useFns, ih]; rfl

theorem walkFrom_setHart (c : BitVec 6) (va fuel L t : Nat) : (s.setHart h).walkFrom c va fuel L t = s.walkFrom c va fuel L t := by
  induction fuel generalizing L t with
  | zero => rfl
  | succ fuel ih => simp only [State.walkFrom, ih]; rfl

theorem translate_setHart (unit : Nat) (c : BitVec 6) (va : Nat) : (s.setHart h).translate unit c va = s.translate unit c va := by
  simp only [State.translate, State.walkVa, walkFrom_setHart]
  rfl

theorem checkVirtual_setHart (unit : Nat) (c : BitVec 6) (va : Nat) (acc : Acc) (sz align : Nat) (idem : Bool) :
    (s.setHart h).checkVirtual unit c va acc sz align idem = s.checkVirtual unit c va acc sz align idem := by
  simp only [State.checkVirtual, translate_setHart, useFns_setHart]
  rfl

theorem ctxOf_setHart (k : Nat) : (s.setHart h).ctxOf k = s.ctxOf k := by
  by_cases hk : k = s.cur
  · subst hk
    rw [State.ctxOf, State.slot_setHart]
    rfl
  · rw [State.ctxOf, State.slot_setHart_other s h hk]
    rfl

theorem checkCistern_setHart (c : BitVec 6) (a : Nat) (acc : Acc) (align : Nat) :
    (s.setHart h).checkCistern c a acc align = s.checkCistern c a acc align := by
  simp only [State.checkCistern, useFns_setHart]
  rfl

theorem checkSpace_setHart (k : Nat) (space : BitVec 2) (a : Nat) (acc : Acc) (sz align : Nat) (idem : Bool) :
    (s.setHart h).checkSpace k space a acc sz align idem = s.checkSpace k space a acc sz align idem := by
  simp only [State.checkSpace, ctxOf_setHart, useFns_setHart, checkVirtual_setHart, checkCistern_setHart]

theorem homeRead_setHart (loc : Loc) (n : Nat) : (s.setHart h).homeRead loc n = s.homeRead loc n := by
  cases loc <;> rfl

end

/-! ## The trap -/

/-- The end of an access whose hart has no request, no abandoned element and no group. -/
theorem cleanEnd_of_clean {u : State} (hreqs : ∀ r ∈ u.net.reqs, ∀ i, r.who ≠ .elem u.cur i) (ha : u.hart.abnd = false) (hm : u.hart.mid = false)
    (hc : u.hart.accs = []) : cleanEnd u = u.setHart u.hart := by
  rw [cleanEnd, clearRequests_of_none hreqs, hart_clean ha hm hc]

/-- A trap after such an access. -/
theorem trapOutcome_cleanEnd {u : State} (hreqs : ∀ r ∈ u.net.reqs, ∀ i, r.who ≠ .elem u.cur i) (ha : u.hart.abnd = false)
    (hm : u.hart.mid = false) (hc : u.hart.accs = []) (htlvl : u.hart.tlvl.toNat < 2) (cause i : Nat) (v : Word) (wl : Nat) :
    ∃ t, (Res.trap cause i v wl (cleanEnd u)).out = .next t ∧ TrapOutcome u t cause i v wl := by
  rw [cleanEnd_of_clean hreqs ha hm hc]
  obtain ⟨t, ht, hout⟩ := trapOutcome_of_trap (s := u.setHart u.hart) (by rwa [State.hart_setHart]) cause i v wl
  exact ⟨t, ht, trapOutcome_of_onlyHart (onlyHart_setHart u u.hart) (State.hart_setHart _ _) hout⟩

theorem withStreams_of_unbound {s : State} (hb : s.hart.binds = []) (sh : Shape) (perform : List (Nat × Loc × Bool) → State → State)
    (l : List (Nat × Loc × Bool)) : withStreams sh perform l s = perform l s := by
  rw [withStreams, boundReads_nil sh hb]
  rfl

end Sys2Proof.Proofs
end


section
/-! O45. The vector LD that traps, element by element (R199, R201). -/

namespace Sys2Proof.Proofs
open Sys2Proof Sys2Proof.Machine Sys2Proof.Spec

/-- The access of LD's elements. -/
def ldAccess (x : ArgsL) : Access := { acc := .read, op := .read, sz := widthOf x.w / 8, align := widthOf x.w / 8 }

/-- What LD performs of the elements listed. -/
def ldPerform (x : ArgsL) : List (Nat × Loc × Bool) → State → State := withStreams (loadShape x) (loadElems (widthOf x.w) x.d.toNat)

/-- Before its elements a vector access lets a quiet hart through, where one element is performed. -/
theorem vecPre_performed {i : Instr} {sh : Shape} {s : State} (k : State → Option Stop → Res) (hr : Ready s = true) (hs : sh.ok = true)
    {n : Nat} (hn : performed s.hart n = true) : vecPre i sh s k = k s none := by
  obtain ⟨hle, hlen, -⟩ := (performed_iff _ _).mp hn
  rw [vecPre_ready _ _ _ _ hr hs, if_neg]
  simp only [Shape.past, Bool.and_eq_true, decide_eq_true_eq]
  omega

theorem indexSrc_fits {x : ArgsL} (hb : x.m = 1 → overruns 32 x.b.toNat = false) :
    (indexSrc x.m x.b x.q).any (fun r => overruns r.w r.fl) = false := by
  unfold indexSrc
  split
  · next hm => rw [List.any_cons, hb hm]; rfl
  · rfl

section
variable {x : ArgsL} {s : State} {n cause wl : Nat} {loc : Nat → Loc} {dev : Nat → Bool} (hw : (Instr.ld x).wellFormed = true) (hm : x.m ≠ 2)
  (hq : Quiet s = true) (hd : overruns (widthOf x.w) x.d.toNat = false)
  (hb : x.m = 1 → overruns 32 x.b.toNat = false) (hn : performed s.hart n = true)
include hw hm hq hd hb hn

/-- LD over the elements of a quiet hart. -/
theorem execLd_vector : ∃ fin, execLd x s = (memoryElems (ldAccess x) s.hart.mspace s.hart.active (accessAddr s x) (fun _ => 0) (ldPerform x) none
    (groupEnd s) fin s).out := by
  have hok : (loadShape x).ok = true := by
    simp [Shape.ok, loadShape, indexSrc_fits hb, hd]
  rw [execLd, issue_wf _ _ _ hw, if_neg hm, ← elemAddress_eq (quiet_ready hq) (mode_cases hw hm)]
  exact ⟨_, congrArg Res.out (vecPre_performed (i := .ld x) (sh := loadShape x) _ (quiet_ready hq) hok hn)⟩

end

/-- The elements that a check of `s` lets through above n: performed ones in rising order, in local memory that is no device. -/
def Above (s : State) (x : Access) (addr : Nat → Word) (h : Hart) (n : Nat) (l : List (Nat × Loc × Bool)) : Prop :=
  (l.Pairwise fun p q => p.1 < q.1) ∧ ∀ p ∈ l, n < p.1 ∧ performed h p.1 = true ∧ isLocal p.2.1 = true ∧
    s.checkSpace s.cur h.mspace (addr p.1).toNat x.acc x.sz x.align x.idem = .go p.2.1 false

theorem local_of_above {s : State} {x : Access} {addr : Nat → Word} {h : Hart} {n : Nat} {l : List (Nat × Loc × Bool)} (ha : Above s x addr h n l)
    {p : Nat × Loc × Bool} (hp : p ∈ l) : isLocal p.2.1 = true := by
  obtain ⟨-, hall⟩ := ha
  obtain ⟨-, -, hlocal, -⟩ := hall p hp
  exact hlocal

theorem above_aboveStop {x : Access} {addr : Nat → Word} {h : Hart} {n : Nat} (hn : performed h n = true) (v : State) :
    Above v x addr h n (aboveStop x addr n h v) := by
  obtain ⟨hle, -, -⟩ := (performed_iff _ _).mp hn
  refine ⟨sorted_aboveElems _ _, fun p hp => ?_⟩
  obtain ⟨hlt, hact, hlocal, hcheck⟩ := mem_aboveElems hp
  have hperf : performed h p.1 = true := by
    rw [performed, hact, decide_eq_true (by omega)]
    rfl
  exact ⟨hlt, hperf, hlocal, hcheck⟩

/-- The elements below n, each with what its check gave. -/
def belowElems (h : Hart) (loc : Nat → Loc) (dev : Nat → Bool) (n : Nat) : List (Nat × Loc × Bool) :=
  passed h.active loc dev h.eidx.toNat (n - h.eidx.toNat)

theorem mem_belowElems {h : Hart} {loc : Nat → Loc} {dev : Nat → Bool} {n : Nat} (hn : performed h n = true) {p : Nat × Loc × Bool} :
    p ∈ belowElems h loc dev n ↔ p.1 < n ∧ performed h p.1 = true ∧ p.2 = (loc p.1, dev p.1) := by
  obtain ⟨hle, hlen, -⟩ := (performed_iff _ _).mp hn
  rw [belowElems, mem_passed, performed_iff]
  constructor
  · rintro ⟨⟨h1, h2⟩, h3, h4⟩
    exact ⟨by omega, ⟨h1, by omega, h3⟩, h4⟩
  · rintro ⟨h1, ⟨h2, -, h3⟩, h4⟩
    exact ⟨⟨h2, by omega⟩, h3, h4⟩

section
variable {x : ArgsL} {s : State} {n : Nat} {loc : Nat → Loc} {dev : Nat → Bool}

/-- The hart after the listed elements have been loaded from their homes. -/
def ldHart (x : ArgsL) (s : State) (h : Hart) (l : List (Nat × Loc × Bool)) : Hart :=
  loaded h (widthOf x.w) x.d.toNat l fun p => s.homeRead p.2.1 (widthOf x.w / 8)

theorem ldHart_frame (h : Hart) (l : List (Nat × Loc × Bool)) :
    ldHart x s h l = { h with z := (ldHart x s h l).z, dirty := (ldHart x s h l).dirty, vlg := (ldHart x s h l).vlg } := loaded_frame

theorem ldHart_setHart (g h : Hart) (l : List (Nat × Loc × Bool)) : ldHart x (s.setHart g) h l = ldHart x s h l := by
  simp only [ldHart, homeRead_setHart]

/-- Nothing is buffered, copied, bound or kept: a load reads the homes. -/
def Plain (s : State) : Prop := s.wbuf = [] ∧ s.copies = [] ∧ s.hart.binds = [] ∧ s.hart.accs = [] ∧ s.sched.grouped = false

theorem plain_of_quiet (hq : Quiet s = true) : Plain s := by
  obtain ⟨-, hbinds, -, -, -, haccs, -, -, -, hgrouped, -⟩ := (ready_iff s).mp (quiet_ready hq)
  exact ⟨quiet_wbuf hq, quiet_copies hq, hbinds, haccs, hgrouped⟩

theorem plain_setHart (hp : Plain s) {h : Hart} (hbinds : h.binds = s.hart.binds) (haccs : h.accs = s.hart.accs) : Plain (s.setHart h) := by
  obtain ⟨hwbuf, hcopies, hb, ha, hgrouped⟩ := hp
  refine ⟨hwbuf, hcopies, ?_, ?_, hgrouped⟩
  · rw [State.hart_setHart, hbinds, hb]
  · rw [State.hart_setHart, haccs, ha]

theorem ldPerform_eq (hp : Plain s) {l : List (Nat × Loc × Bool)} (hl : ∀ p ∈ l, isLocal p.2.1 = true) :
    ldPerform x l s = s.setHart (ldHart x s s.hart l) := by
  obtain ⟨hwbuf, hcopies, hbinds, haccs, hgrouped⟩ := hp
  rw [ldPerform, withStreams_of_unbound hbinds, loadElems_eq hwbuf hcopies haccs hgrouped _ _ hl]
  rfl

/-- What a load has performed when it stops at n: the elements below, then some above. -/
theorem afterStop_ld (hq : Quiet s = true) (hn : performed s.hart n = true)
    (hlocal : ∀ j, j < n → performed s.hart j = true → isLocal (loc j) = true) :
    ∃ l, Above s (ldAccess x) (accessAddr s x) s.hart n l ∧
      afterStop (ldAccess x) (accessAddr s x) (ldPerform x) loc dev n s =
        ((s.setHart (ldHart x s s.hart (belowElems s.hart loc dev n))).setHart
          (ldHart x s (ldHart x s s.hart (belowElems s.hart loc dev n)) l)).tick := by
  have hbelow : belowStop (ldPerform x) loc dev n s = s.setHart (ldHart x s s.hart (belowElems s.hart loc dev n)) :=
    ldPerform_eq (plain_of_quiet hq) fun p hp => by
      obtain ⟨hlt, hperf, heq⟩ := (mem_belowElems hn).mp hp
      rw [heq]
      exact hlocal _ hlt hperf
  have habove := above_aboveStop (x := ldAccess x) (addr := accessAddr s x) hn (belowStop (ldPerform x) loc dev n s)
  refine ⟨aboveStop (ldAccess x) (accessAddr s x) n s.hart (belowStop (ldPerform x) loc dev n s), ?_, ?_⟩
  · obtain ⟨hsorted, hall⟩ := habove
    refine ⟨hsorted, fun p hp => ?_⟩
    obtain ⟨hlt, hperf, hloc, hcheck⟩ := hall p hp
    rw [hbelow, checkSpace_setHart] at hcheck
    exact ⟨hlt, hperf, hloc, hcheck⟩
  · have hplain : Plain (belowStop (ldPerform x) loc dev n s) := by
      rw [hbelow, ldHart_frame]
      exact plain_setHart (plain_of_quiet hq) rfl rfl
    rw [afterStop, ldPerform_eq hplain fun p hp => local_of_above habove hp, hbelow, State.hart_setHart, ldHart_setHart]

/-- The hart g where the performed elements below n have been loaded, and n has not; of those above that pass their checks in memory that is no
device, any may have been (R201). -/
def LoadedAround (x : ArgsL) (s : State) (n : Nat) (loc : Nat → Loc) (g : Hart) : Prop :=
  let w := widthOf x.w
  g = { s.hart with z := g.z, dirty := g.dirty, vlg := g.vlg } ∧ TaggedIf s.hart g (slicesOf w x.d.toNat) (∃ j, j < n ∧ performed s.hart j = true) ∧
  (∀ j, j < n → g.row j = if performed s.hart j = true then putElem (s.hart.row j) w x.d.toNat (s.homeRead (loc j) (w / 8)) else s.hart.row j) ∧
  g.row n = s.hart.row n ∧
  ∀ j, n < j → g.row j = s.hart.row j ∨ (performed s.hart j = true ∧ ∃ l,
    s.checkSpace s.cur s.hart.mspace (accessAddr s x j).toNat .read (w / 8) (w / 8) false = .go l false ∧ isLocal l = true ∧
    g.row j = putElem (s.hart.row j) w x.d.toNat (s.homeRead l (w / 8)))

theorem ldHart_stop (hn : performed s.hart n = true) {l : List (Nat × Loc × Bool)} (hl : Above s (ldAccess x) (accessAddr s x) s.hart n l) :
    let g := ldHart x s (ldHart x s s.hart (belowElems s.hart loc dev n)) l
    LoadedAround x s n loc g := by
  intro g
  obtain ⟨hsorted, habove⟩ := hl
  have hbelowRow (j : Nat) (hj : ¬ (j < n ∧ performed s.hart j = true)) : (ldHart x s s.hart (belowElems s.hart loc dev n)).row j = s.hart.row j :=
    row_loaded_other fun p hp he => by
      obtain ⟨h1, h2, -⟩ := (mem_belowElems hn).mp hp
      exact hj ⟨he ▸ h1, he ▸ h2⟩
  have hkeep (j : Nat) (hj : ∀ p ∈ l, p.1 ≠ j) : g.row j = (ldHart x s s.hart (belowElems s.hart loc dev n)).row j := row_loaded_other hj
  have hlow (j : Nat) (hj : j ≤ n) : g.row j = (ldHart x s s.hart (belowElems s.hart loc dev n)).row j :=
    hkeep j fun p hp he => by have := (habove p hp).1; omega
  refine ⟨?_, taggedIf_loaded ?_, fun j hj => ?_, ?_, fun j hj => ?_⟩
  · rw [show g = _ from ldHart_frame _ _, ldHart_frame]
  · rintro ⟨j, hj, hp⟩ hnil
    have hmem := (mem_belowElems (loc := loc) (dev := dev) hn (p := (j, loc j, dev j))).mpr ⟨hj, hp, rfl⟩
    rw [hnil] at hmem
    exact List.not_mem_nil hmem
  · rw [hlow j hj.le]
    by_cases hp : performed s.hart j = true
    · rw [if_pos hp]
      exact row_loaded (p := (j, loc j, dev j)) (sorted_passed _ _ _ _ _) ((mem_belowElems hn).mpr ⟨hj, hp, rfl⟩)
    · rw [if_neg hp, hbelowRow j fun h => hp h.2]
  · rw [hlow n (le_refl n), hbelowRow n (by omega)]
  · by_cases hmem : ∃ p ∈ l, p.1 = j
    · obtain ⟨p, hp, rfl⟩ := hmem
      obtain ⟨-, hperf, hlocal, hcheck⟩ := habove p hp
      refine .inr ⟨hperf, p.2.1, hcheck, hlocal, ?_⟩
      rw [← hbelowRow p.1 (by omega)]
      exact row_loaded hsorted hp
    · left
      rw [hkeep j fun p hp he => hmem ⟨p, hp, he⟩, hbelowRow j (by omega)]

end

theorem vectorLd_traps {x : ArgsL} {s : State} {n cause wl : Nat} {loc : Nat → Loc} {dev : Nat → Bool} (hw : (Instr.ld x).wellFormed = true)
    (hm : x.m ≠ 2) (hq : Quiet s = true) (htlvl : s.hart.tlvl.toNat < 2) (hd : overruns (widthOf x.w) x.d.toNat = false)
    (hb : x.m = 1 → overruns 32 x.b.toNat = false) (hn : performed s.hart n = true)
    (hbad : s.checkSpace s.cur s.hart.mspace (accessAddr s x n).toNat .read (widthOf x.w / 8) (widthOf x.w / 8) false = .bad cause wl)
    (hpass : Passes s (fun j => decide (j < n) && performed s.hart j) .read (widthOf x.w / 8) false (accessAddr s x) loc dev) :
    ∃ t g, exec (.ld x) s = .next t ∧ TrapOutcome ({ s with fresh := s.fresh + 1 }.setHart g) t cause n (accessAddr s x n) wl ∧
      LoadedAround x s n loc g := by
  have hpass' (j : Nat) (h1 : j < n) (h2 : performed s.hart j = true) := hpass j (Bool.and_eq_true_iff.mpr ⟨decide_eq_true h1, h2⟩)
  obtain ⟨-, habnd, hwbuf, hreqs⟩ := (quiet_iff s).mp hq
  obtain ⟨-, -, -, -, hmid, haccs, -⟩ := (ready_iff s).mp (quiet_ready hq)
  obtain ⟨l, hl, hafter⟩ := afterStop_ld (x := x) (dev := dev) hq hn fun j h1 h2 => (hpass' j h1 h2).2
  have hstop := ldHart_stop (loc := loc) (dev := dev) hn hl
  obtain ⟨fin, hexec⟩ := execLd_vector hw hm hq hd hb hn
  generalize hg1 : ldHart x s s.hart (belowElems s.hart loc dev n) = g1 at hafter hstop
  generalize hg : ldHart x s g1 l = g at hafter hstop
  have hhart : ((s.setHart g1).setHart g).tick.hart = g := State.hart_setHart _ _
  obtain ⟨hframe, -⟩ := id hstop
  have htrap := trapOutcome_cleanEnd (u := ((s.setHart g1).setHart g).tick) hreqs (by rw [hhart, hframe]; exact habnd)
    (by rw [hhart, hframe]; exact hmid) (by rw [hhart, hframe]; exact haccs) (by rw [hhart, hframe]; exact htlvl) cause n (accessAddr s x n) wl
  obtain ⟨t, ht, hout⟩ := htrap
  refine ⟨t, g, ?_, trapOutcome_of_onlyHart ?_ (hhart.trans (State.hart_setHart _ _).symm) hout, hstop⟩
  · dsimp only [exec]
    rw [hexec, memoryElems_of_bad (loc := loc) (dev := dev) hq rfl hn hpass' hbad (by rw [hafter]; exact hwbuf), hafter, ht]
  · exact onlyHart_trans (onlyHart_symm (onlyHart_setHart s.tick g))
      (onlyHart_trans (onlyHart_setHart s.tick g1) (onlyHart_setHart (s.tick.setHart g1) g))

end Sys2Proof.Proofs
end


section
/-! O45. A vector ST with a failing check (R199, R201, R203). -/

namespace Sys2Proof.Proofs
open Sys2Proof Sys2Proof.Machine Sys2Proof.Spec

/-! ## The elements that ST performs -/

/-- The listed elements stored at their homes, in order. -/
def stores (n : Nat) (data : Nat → Nat) (l : List (Nat × Loc × Bool)) (s : State) : State := l.foldl (fun t p => t.homeWrite p.2.1 n (data p.1)) s

section
variable {n : Nat} {data : Nat → Nat} {l : List (Nat × Loc × Bool)} {s : State}

theorem stores_cons (p : Nat × Loc × Bool) : stores n data (p :: l) s = stores n data l (s.homeWrite p.2.1 n (data p.1)) := rfl

theorem homeWrite_frame (s : State) (loc : Loc) (n v : Nat) : { s.homeWrite loc n v with hbm := s.hbm, cis := s.cis, host := s.host } = s := by
  cases loc <;> rfl

theorem stores_frame : { stores n data l s with hbm := s.hbm, cis := s.cis, host := s.host } = s := by
  induction l generalizing s with
  | nil => rfl
  | cons p l ih =>
    have hrest := congrArg (fun t : State => { t with hbm := s.hbm, cis := s.cis, host := s.host }) (ih (s := s.homeWrite p.2.1 n (data p.1)))
    exact hrest.trans (homeWrite_frame s p.2.1 n (data p.1))

theorem writeLoc_eq (hbuf : s.sched.buffered = false) (hwbuf : s.wbuf = []) (hcopies : s.copies = []) (k : Nat) (loc : Loc) (v : Nat) (dev : Bool) :
    s.writeLoc k loc n v dev = s.homeWrite loc n v := by
  have hc : (s.homeWrite loc n v).copies = [] := by cases loc <;> exact hcopies
  rw [State.writeLoc, hbuf, Bool.false_and, if_neg Bool.false_ne_true, Memory.drainIf_nil _ _ hwbuf, State.performWrite,
    Memory.dropCopies_nil _ _ _ _ hc]

theorem storeElems_eq (hbuf : s.sched.buffered = false) (hwbuf : s.wbuf = []) (hcopies : s.copies = []) (hl : ∀ p ∈ l, isLocal p.2.1 = true) :
    storeElems n data l s = stores n data l s := by
  induction l generalizing s with
  | nil => rfl
  | cons p l ih =>
    obtain ⟨i, loc, dev⟩ := p
    have hlocal := hl _ List.mem_cons_self
    have hfirst := writeLoc_eq (n := n) hbuf hwbuf hcopies s.cur loc (data i) dev
    have hrest := ih (s := s.homeWrite loc n (data i)) (by cases loc <;> exact hbuf) (by cases loc <;> exact hwbuf) (by cases loc <;> exact hcopies)
      fun q hq => hl q (List.mem_cons_of_mem _ hq)
    rw [stores_cons, ← hrest, ← hfirst]
    cases loc with
    | peer => cases hlocal
    | hbm | cis | host => rfl

/-- A byte that no listed element covers. -/
theorem byteAt_stores_other {b : Loc} (h : ∀ p ∈ l, ∀ k < n, b ≠ State.locAdd p.2.1 k) : byteAt (stores n data l s) b = byteAt s b := by
  induction l generalizing s with
  | nil => rfl
  | cons p l ih =>
    rw [stores_cons, ih fun q hq => h q (List.mem_cons_of_mem _ hq), byteAt_homeWrite_other _ _ _ (h p List.mem_cons_self)]

/-- A byte of a listed element that none with a higher index covers. -/
theorem byteAt_stores {p : Nat × Loc × Bool} {k : Nat} (hsorted : l.Pairwise fun p q => p.1 < q.1) (hp : p ∈ l) (hlocal : isLocal p.2.1 = true)
    (hk : k < n) (hhigh : ∀ q ∈ l, p.1 < q.1 → ∀ m < n, State.locAdd q.2.1 m ≠ State.locAdd p.2.1 k) :
    byteAt (stores n data l s) (State.locAdd p.2.1 k) = BitVec.ofNat 8 (data p.1 / 256 ^ k) := by
  induction l generalizing s with
  | nil => exact absurd hp List.not_mem_nil
  | cons q l ih =>
    obtain ⟨hq, hrest⟩ := List.pairwise_cons.mp hsorted
    rw [stores_cons]
    rcases List.mem_cons.mp hp with rfl | hp
    · rw [byteAt_stores_other fun r hr m hm => (hhigh r (List.mem_cons_of_mem _ hr) (hq r hr) m hm).symm, byteAt_homeWrite_same _ hlocal _ _ hk]
    · exact ih hrest hp fun r hr => hhigh r (List.mem_cons_of_mem _ hr)

/-- Elements stored in rising order (`Stored`). -/
theorem stored_of_stores {t : State} {p : Nat → Bool} {loc : Nat → Loc} (hsorted : l.Pairwise fun p q => p.1 < q.1)
    (hmem : ∀ j, p j = true → ∃ e ∈ l, e.1 = j) (hl : ∀ e ∈ l, p e.1 = true ∧ e.2.1 = loc e.1 ∧ isLocal e.2.1 = true)
    (ht : ∀ b, byteAt t b = byteAt (stores n data l s) b) : Stored s t p n loc data := by
  refine ⟨fun b hb => ?_, fun j k hj hk hhigh => ?_⟩
  · rw [ht]
    refine byteAt_stores_other fun e he k hk => ?_
    obtain ⟨hp, hloc, -⟩ := hl e he
    rw [hloc]
    exact hb e.1 k hp hk
  · obtain ⟨e, he, rfl⟩ := hmem j hj
    obtain ⟨-, hloc, hlocal⟩ := hl e he
    rw [ht, ← hloc]
    refine byteAt_stores hsorted he hlocal hk fun q hq hlt m hm => ?_
    obtain ⟨hp, hqloc, -⟩ := hl q hq
    rw [hqloc, hloc]
    exact hhigh q.1 m hp hlt hm

end

/-! ## The vector ST that traps -/

/-- The access of ST's elements. -/
def stAccess (x : ArgsL) : Access := { acc := .write, op := .write, sz := widthOf x.w / 8, align := widthOf x.w / 8 }

/-- What ST stores of element j. -/
def stData (x : ArgsL) (s : State) (j : Nat) : Nat := (sliceAt s (widthOf x.w) x.d j).toNat

/-- What ST performs of the elements listed. -/
def stPerform (x : ArgsL) (s : State) : List (Nat × Loc × Bool) → State → State :=
  withStreams (storeShape x) (storeElems (widthOf x.w / 8) (stData x s))

/-- ST over the elements of a quiet hart. -/
theorem execSt_vector {x : ArgsL} {s : State} {n : Nat} (hw : (Instr.ld x).wellFormed = true) (hm : x.m ≠ 2) (hq : Quiet s = true)
    (hd : overruns (widthOf x.w) x.d.toNat = false) (hb : x.m = 1 → overruns 32 x.b.toNat = false) (hn : performed s.hart n = true) :
    ∃ fin, execSt x s = (memoryElems (stAccess x) s.hart.mspace s.hart.active (accessAddr s x) (stData x s) (stPerform x s) none
      (groupEnd s) fin s).out := by
  have hok : (storeShape x).ok = true := by
    simp [Shape.ok, storeShape, indexSrc_fits hb, hd]
  have hdata : (fun i => readV s ⟨widthOf x.w, x.d.toNat, false⟩ i) = stData x s := funext fun j => fetch_ready (quiet_ready hq) _ _ _ j
  rw [execSt, issue_wf _ _ _ (st_wellFormed hw), if_neg hm, ← elemAddress_eq (quiet_ready hq) (mode_cases hw hm), stPerform, ← hdata]
  exact ⟨_, congrArg Res.out (vecPre_performed (i := .st x) (sh := storeShape x) _ (quiet_ready hq) hok hn)⟩

theorem stPerform_eq {x : ArgsL} {s u : State} {l : List (Nat × Loc × Bool)} (hbinds : u.hart.binds = []) (hbuf : u.sched.buffered = false)
    (hwbuf : u.wbuf = []) (hcopies : u.copies = []) (hl : ∀ p ∈ l, isLocal p.2.1 = true) :
    stPerform x s l u = stores (widthOf x.w / 8) (stData x s) l u := by
  rw [stPerform, withStreams_of_unbound hbinds, storeElems_eq hbuf hwbuf hcopies hl]

/-- From s to t only the three memories change. -/
def OnlyMemory (s t : State) : Prop := { t with hbm := s.hbm, cis := s.cis, host := s.host } = s

theorem onlyMemory_stores (n : Nat) (data : Nat → Nat) (l : List (Nat × Loc × Bool)) (s : State) : OnlyMemory s (stores n data l s) := stores_frame

theorem onlyMemory_trans {s t u : State} (h : OnlyMemory s t) (h' : OnlyMemory t u) : OnlyMemory s u := by
  have hrest := congrArg (fun t : State => { t with hbm := s.hbm, cis := s.cis, host := s.host }) h'
  exact hrest.trans h

section
variable {s t : State} (h : OnlyMemory s t)
include h

theorem cur_of_onlyMemory : t.cur = s.cur := by
  rw [← h]

theorem wbuf_of_onlyMemory : t.wbuf = s.wbuf := by
  rw [← h]

theorem copies_of_onlyMemory : t.copies = s.copies := by
  rw [← h]

theorem sched_of_onlyMemory : t.sched = s.sched := by
  rw [← h]

theorem net_of_onlyMemory : t.net = s.net := by
  rw [← h]

theorem hart_of_onlyMemory : t.hart = s.hart := by
  rw [← h]
  rfl

end

/-- The location that a check gives. -/
def locOf : Chk → Loc
  | .go l _ => l
  | _ => .hbm 0

/-- The elements above a stop as they are stored after it. -/
theorem stored_of_above {v t : State} {a : Access} {addr : Nat → Word} {h : Hart} {n : Nat} {data : Nat → Nat} {l : List (Nat × Loc × Bool)}
    (hl : Above v a addr h n l) (ht : ∀ b, byteAt t b = byteAt (stores a.sz data l v) b) :
    ∃ (q : Nat → Bool) (higher : Nat → Loc), Stored v t q a.sz higher data ∧
      ∀ j, q j = true → n < j ∧ performed h j = true ∧
        v.checkSpace v.cur h.mspace (addr j).toNat a.acc a.sz a.align a.idem = .go (higher j) false ∧ isLocal (higher j) = true := by
  obtain ⟨hsorted, habove⟩ := hl
  have hloc (e : Nat × Loc × Bool) (he : e ∈ l) :
      e.2.1 = locOf (v.checkSpace v.cur h.mspace (addr e.1).toNat a.acc a.sz a.align a.idem) := by
    obtain ⟨-, -, -, hcheck⟩ := habove e he
    rw [hcheck, locOf]
  refine ⟨fun j => l.any fun e => e.1 == j, fun j => locOf (v.checkSpace v.cur h.mspace (addr j).toNat a.acc a.sz a.align a.idem),
    stored_of_stores hsorted (fun j hj => by simpa using hj) (fun e he => ?_) ht, fun j hj => ?_⟩
  · obtain ⟨-, -, hlocal, -⟩ := habove e he
    exact ⟨List.any_eq_true.mpr ⟨e, he, beq_self_eq_true _⟩, hloc e he, hlocal⟩
  · obtain ⟨e, he, hej⟩ := List.any_eq_true.mp hj
    obtain rfl := eq_of_beq hej
    obtain ⟨hlt, hperf, hlocal, hcheck⟩ := habove e he
    dsimp only
    rw [← hloc e he]
    exact ⟨hlt, hperf, hcheck, hlocal⟩

section
variable {x : ArgsL} {s : State} {n : Nat} {loc : Nat → Loc} {dev : Nat → Bool} (hq : Quiet s = true) (hn : performed s.hart n = true)
  (hlocal : ∀ j, j < n → performed s.hart j = true → isLocal (loc j) = true)
include hq hn hlocal

/-- What a store has performed when it stops at n: the elements below, then some above. -/
theorem afterStop_st : ∃ v l, OnlyMemory s v ∧
    Stored s v (fun j => decide (j < n) && performed s.hart j) (widthOf x.w / 8) loc (stData x s) ∧
    Above v (stAccess x) (accessAddr s x) s.hart n l ∧
    afterStop (stAccess x) (accessAddr s x) (stPerform x s) loc dev n s = (stores (widthOf x.w / 8) (stData x s) l v).tick := by
  obtain ⟨-, hbinds, -, -, -, -, -, -, hbuf, -⟩ := (ready_iff s).mp (quiet_ready hq)
  have hlow (e : Nat × Loc × Bool) (he : e ∈ belowElems s.hart loc dev n) :
      (decide (e.1 < n) && performed s.hart e.1) = true ∧ e.2.1 = loc e.1 ∧ isLocal e.2.1 = true := by
    obtain ⟨h1, h2, h3⟩ := (mem_belowElems hn).mp he
    rw [h3]
    exact ⟨Bool.and_eq_true_iff.mpr ⟨decide_eq_true h1, h2⟩, rfl, hlocal _ h1 h2⟩
  have hbelow : belowStop (stPerform x s) loc dev n s = stores (widthOf x.w / 8) (stData x s) (belowElems s.hart loc dev n) s :=
    stPerform_eq hbinds hbuf (quiet_wbuf hq) (quiet_copies hq) fun p hp => (hlow p hp).2.2
  have hv := onlyMemory_stores (widthOf x.w / 8) (stData x s) (belowElems s.hart loc dev n) s
  have habove := above_aboveStop (x := stAccess x) (addr := accessAddr s x) hn (belowStop (stPerform x s) loc dev n s)
  rw [← hbelow] at hv
  refine ⟨_, _, hv, stored_of_stores (sorted_passed _ _ _ _ _) (fun j hj => ?_) hlow fun b => by rw [hbelow]; rfl, habove, ?_⟩
  · obtain ⟨h1, h2⟩ := Bool.and_eq_true_iff.mp hj
    exact ⟨(j, loc j, dev j), (mem_belowElems hn).mpr ⟨of_decide_eq_true h1, h2, rfl⟩, rfl⟩
  · rw [afterStop, stPerform_eq (by rw [hart_of_onlyMemory hv, hbinds]) (by rw [sched_of_onlyMemory hv, hbuf])
      (by rw [wbuf_of_onlyMemory hv, quiet_wbuf hq]) (by rw [copies_of_onlyMemory hv, quiet_copies hq]) fun p hp => local_of_above habove hp]

end

theorem vectorSt_traps {x : ArgsL} {s : State} {n cause wl : Nat} {loc : Nat → Loc} {dev : Nat → Bool} (hw : (Instr.ld x).wellFormed = true)
    (hm : x.m ≠ 2) (hq : Quiet s = true) (htlvl : s.hart.tlvl.toNat < 2) (hd : overruns (widthOf x.w) x.d.toNat = false)
    (hb : x.m = 1 → overruns 32 x.b.toNat = false) (hn : performed s.hart n = true)
    (hbad : s.checkSpace s.cur s.hart.mspace (accessAddr s x n).toNat .write (widthOf x.w / 8) (widthOf x.w / 8) false = .bad cause wl)
    (hpass : Passes s (fun j => decide (j < n) && performed s.hart j) .write (widthOf x.w / 8) false (accessAddr s x) loc dev) :
    ∃ (t u v : State) (q : Nat → Bool) (higher : Nat → Loc), exec (.st x) s = .next t ∧ TrapOutcome u t cause n (accessAddr s x n) wl ∧
      OnlyMemory { s with fresh := s.fresh + 1 } u ∧ OnlyMemory s v ∧
      Stored s v (fun j => decide (j < n) && performed s.hart j) (widthOf x.w / 8) loc (stData x s) ∧
      Stored v u q (widthOf x.w / 8) higher (stData x s) ∧
      ∀ j, q j = true → n < j ∧ performed s.hart j = true ∧
        v.checkSpace s.cur s.hart.mspace (accessAddr s x j).toNat .write (widthOf x.w / 8) (widthOf x.w / 8) false = .go (higher j) false ∧
        isLocal (higher j) = true := by
  have hpass' (j : Nat) (h1 : j < n) (h2 : performed s.hart j = true) := hpass j (Bool.and_eq_true_iff.mpr ⟨decide_eq_true h1, h2⟩)
  obtain ⟨-, habnd, hwbuf, hreqs⟩ := (quiet_iff s).mp hq
  obtain ⟨-, -, -, -, hmid, haccs, -⟩ := (ready_iff s).mp (quiet_ready hq)
  obtain ⟨v, l, hv, hbelow, habove, hafter⟩ := afterStop_st (x := x) (dev := dev) hq hn fun j h1 h2 => (hpass' j h1 h2).2
  have hu : OnlyMemory s.tick (stores (widthOf x.w / 8) (stData x s) l v).tick :=
    congrArg State.tick (onlyMemory_trans hv (onlyMemory_stores (widthOf x.w / 8) (stData x s) l v))
  obtain ⟨q, higher, hstored, hhigher⟩ := stored_of_above (t := (stores (widthOf x.w / 8) (stData x s) l v).tick) (data := stData x s) habove
    fun b => by cases b <;> rfl
  rw [cur_of_onlyMemory hv] at hhigher
  generalize (stores (widthOf x.w / 8) (stData x s) l v).tick = u at hu hafter hstored
  have hhart : u.hart = s.hart := (hart_of_onlyMemory hu).trans rfl
  obtain ⟨t, ht, hout⟩ := trapOutcome_cleanEnd (u := u) (by rw [net_of_onlyMemory hu, cur_of_onlyMemory hu]; exact hreqs)
    (by rw [hhart, habnd]) (by rw [hhart, hmid]) (by rw [hhart, haccs]) (by rw [hhart]; exact htlvl) cause n (accessAddr s x n) wl
  obtain ⟨fin, hexec⟩ := execSt_vector hw hm hq hd hb hn
  refine ⟨t, u, v, q, higher, ?_, hout, hu, hv, hbelow, hstored, hhigher⟩
  dsimp only [exec]
  rw [hexec, memoryElems_of_bad (loc := loc) (dev := dev) hq rfl hn hpass' hbad (by rw [hafter, wbuf_of_onlyMemory hu]; exact hwbuf), hafter, ht]

theorem vectorAccessTrap : Spec.VectorAccessTrap := fun _ _ _ _ _ _ _ hw hm hq htlvl hd hb hn =>
  ⟨fun ⟨hbad, hpass⟩ => vectorLd_traps hw hm hq htlvl hd hb hn hbad hpass, fun ⟨hbad, hpass⟩ => vectorSt_traps hw hm hq htlvl hd hb hn hbad hpass⟩

/-- Settles O45: element-wise operations stop at the lowest zero divisor (`elementwise_traps`), a shape's checks and reads come before its elements
(`vecPre`), and the plan of a vector access stops at its lowest failing element (`planElems_of_bad`). -/
theorem trapConditions : Obligations.TrapConditions := ⟨operandTraps, accessTrap, vectorAccessTrap, emptyOperandTraps⟩

end Sys2Proof.Proofs
end

section
/-! O4, O5. The float instructions of classes FB, FM and FU, and the conversions, on a hart that nothing makes wait. -/

namespace Sys2Proof.Proofs
open Sys2Proof Sys2Proof.Machine Sys2Proof.Spec

/-! ## The SS form -/

/-- The step of a scalar float form, a long-latency producer or not: on a ready hart it writes s[d], raises the flags and retires. -/
theorem scalarStep_late {s : State} (hr : Ready s = true) (d : BitVec 6) (r : Nat × Flags) (late : Bool) :
    (if late then enter { flags := true } (scalarBit d) 0 0 0 false (s.setHart ((s.hart.ws d (BitVec.ofNat 64 r.1)).orFlags r.2).retire)
      else s.setHart ((s.hart.ws d (BitVec.ofNat 64 r.1)).orFlags r.2).retire) =
    s.setHart ((s.hart.ws d (BitVec.ofNat 64 r.1)).orFlags r.2).retire := by
  rw [enter_now _ _ _ _ _ _ (s.setHart _) (show s.sched.late = false from ready_late hr), ite_self]

section
variable {i : Instr} {s : State} (hw : i.wellFormed = true) (hr : Ready s = true)
include hw hr

theorem floatBinary_scalar {x : ArgsA} {rd late : Bool} {op : FOp} (hf : x.f = 3) :
    let v := op (rctl s.hart.fctl) (ssFmt x.w) ((s.hart.rs x.a).toNat % 2 ^ (ssFmt x.w).w) ((s.hart.rs x.b).toNat % 2 ^ (ssFmt x.w).w)
      ((s.hart.rs x.d).toNat % 2 ^ (ssFmt x.w).w)
    ∃ t, floatBinary i x rd late op s = .next t ∧ ScalarOutcome s t x.d (BitVec.ofNat 64 v.1) v.2 := by
  have hfull := ready_allFull hr
  refine ⟨_, ?_, scalarOutcome_flags s x.d _ _⟩
  rw [floatBinary, issue_wf _ _ _ hw, if_pos hf, readScalars_full _ _ _ hfull, destFree_full _ _ _ hfull]
  exact congrArg Host.Outcome.next (scalarStep_late hr x.d _ late)

theorem floatUnary_scalar {x : ArgsU} {late : Bool} {op : RCtl → Fmt → Nat → Nat × Flags} (hf : x.f = 3) :
    let v := op (rctl s.hart.fctl) (ssFmt x.w) ((s.hart.rs x.a).toNat % 2 ^ (ssFmt x.w).w)
    ∃ t, floatUnary i x late op s = .next t ∧ ScalarOutcome s t x.d (BitVec.ofNat 64 v.1) v.2 := by
  have hfull := ready_allFull hr
  refine ⟨_, ?_, scalarOutcome_flags s x.d _ _⟩
  rw [floatUnary, issue_wf _ _ _ hw, if_pos hf, readScalars_full _ _ _ hfull, destFree_full _ _ _ hfull]
  exact congrArg Host.Outcome.next (scalarStep_late hr x.d _ late)

/-! ## The vector forms -/

theorem floatBinary_vector {x : ArgsA} {rd late : Bool} {op : FOp} (hf : x.f ≠ 3) (hd : overruns (widthOf x.w) x.d.toNat = false)
    (ha : overruns (widthOf x.w) x.a.toNat = false) (hb : x.f = 0 → overruns (widthOf x.w) x.b.toNat = false) :
    let v : Nat → Nat × Flags := fun j => op (rctl s.hart.fctl) (fmtOf s.hart.fctl (widthOf x.w)) (sliceAt s (widthOf x.w) x.a j).toNat
      (secondAt s x.f false (widthOf x.w) x.b j).toNat (sliceAt s (widthOf x.w) x.d j).toNat
    ∃ t, floatBinary i x rd late op s = .next t ∧
      VectorOutcome s t (widthOf x.w) x.d.toNat (fun j => (v j).1) (fun _ => false) (fun j => (v j).2) := by
  intro v
  obtain ⟨t, ht, hout⟩ := elementwise_vector i (binaryShape x (widthOf x.w) (widthOf x.w) rd false true) late
    (fun s i row =>
      let fc := s.hart.fctl
      let r := op (rctl fc) (fmtOf fc (widthOf x.w)) (fetch s ⟨widthOf x.w, x.a.toNat, false⟩ i row)
        (bVal s x.f false (widthOf x.w) x.b i row) (fetch s ⟨widthOf x.w, x.d.toNat, false⟩ i row)
      .ok { row := putElem row (widthOf x.w) x.d.toNat r.1, fl := r.2 }) s
    (widthOf x.w) x.d.toNat (fun j => (v j).1) (fun _ => false) (fun j => (v j).2) hr
    (by cases rd <;> simp [binaryShape, Shape.ok, hd, ha, bSrc_fits hb]) rfl rfl rfl
    (fun j _ => ⟨false, by rw [fetch_ready hr, fetch_ready hr, bVal_ready hr]⟩)
  refine ⟨t, ?_, hout⟩
  rw [floatBinary, issue_wf _ _ _ hw, if_neg hf]
  exact congrArg Res.out ht

theorem floatUnary_vector {x : ArgsU} {late : Bool} {op : RCtl → Fmt → Nat → Nat × Flags} (hf : x.f ≠ 3)
    (hd : overruns (widthOf x.w) x.d.toNat = false) (ha : overruns (widthOf x.w) x.a.toNat = false) :
    let v : Nat → Nat × Flags := fun j => op (rctl s.hart.fctl) (fmtOf s.hart.fctl (widthOf x.w)) (sliceAt s (widthOf x.w) x.a j).toNat
    ∃ t, floatUnary i x late op s = .next t ∧
      VectorOutcome s t (widthOf x.w) x.d.toNat (fun j => (v j).1) (fun _ => false) (fun j => (v j).2) := by
  intro v
  obtain ⟨t, ht, hout⟩ := elementwise_vector i (unaryShape x (decide (i ≠ .fclass x))) late
    (fun s i row =>
      let fc := s.hart.fctl
      let r := op (rctl fc) (fmtOf fc (widthOf x.w)) (fetch s ⟨widthOf x.w, x.a.toNat, false⟩ i row)
      .ok { row := putElem row (widthOf x.w) x.d.toNat r.1, fl := r.2 }) s
    (widthOf x.w) x.d.toNat (fun j => (v j).1) (fun _ => false) (fun j => (v j).2) hr
    (by simp [unaryShape, Shape.ok, hd, ha]) rfl rfl rfl (fun j _ => ⟨false, by rw [fetch_ready hr]⟩)
  refine ⟨t, ?_, hout⟩
  rw [floatUnary, issue_wf _ _ _ hw, if_neg hf]
  exact congrArg Res.out ht

end

/-! ## The rows of R126, R127 and R128 -/

/-- The row of a binary class: two sources. -/
def binaryRow (x : ArgsA) (op : FOp) : FloatRow := ⟨x.f, x.w, x.d, x.a, some x.b, op⟩

/-- The row of class FU: one source. -/
def unaryFloatRow (x : ArgsU) (op : RCtl → Fmt → Nat → Nat × Flags) : FloatRow := ⟨x.f, x.w, x.d, x.a, none, fun c t a _ _ => op c t a⟩

/-- Each row of R126 to R128 is the shared form `floatBinary` or `floatUnary` of the row's operation. -/
theorem exec_floatRow {i : Instr} {r : FloatRow} (hrow : floatRow i = some r) :
    (∃ x rd late op, r = binaryRow x op ∧ ∀ s, exec i s = floatBinary i x rd late op s) ∨
    (∃ x late op, r = unaryFloatRow x op ∧ ∀ s, exec i s = floatUnary i x late op s) := by
  cases i with
  | fadd | fsub | fmul | fdiv | fma | fms | fnma | fmin | fmax =>
    obtain rfl := Option.some.inj hrow
    exact .inl ⟨_, _, _, _, rfl, fun _ => rfl⟩
  | fsqrt | frsq | fexp2 | flog2 | fabs | fneg | fclass =>
    obtain rfl := Option.some.inj hrow
    exact .inr ⟨_, _, _, rfl, fun _ => rfl⟩
  | _ => exact nomatch hrow

/-- Settles O4: each row is `floatBinary` or `floatUnary` of its operation, in the SS form and in the vector forms. -/
theorem floatResult : Obligations.FloatResult := by
  intro i r s hrow hw hr
  obtain ⟨x, rd, late, op, rfl, hexec⟩ | ⟨x, late, op, rfl, hexec⟩ := exec_floatRow hrow
  · refine ⟨fun hf => ?_, ?_⟩
    · rw [hexec]
      exact floatBinary_scalar hw hr hf
    · dsimp only
      intro hf hd ha hb
      rw [hexec]
      exact floatBinary_vector hw hr hf hd ha fun h0 => hb x.b h0 rfl
  · refine ⟨fun hf => ?_, ?_⟩
    · rw [hexec]
      exact floatUnary_scalar hw hr hf
    · dsimp only
      intro hf hd ha _
      rw [hexec]
      exact floatUnary_vector hw hr hf hd ha

/-! ## Conversions (R130, R131, R132) -/

/-- What a conversion gives for an element: the value, whether it saturates, and the flags. -/
abbrev Converted := Nat × Bool × Flags

/-- The SS form of a conversion: s[a] is read, s[d] written. -/
def convertScalar (x : ArgsC) (v : State → Word) (fl : State → Flags) (s : State) : Res :=
  readScalars [(x.a, x.p)] s fun s => destFree x.d s fun s => .ok (s.setHart ((s.hart.ws x.d (v s)).orFlags (fl s)).retire)

/-- The shape of a conversion's vector form, whose source has width ws. -/
def convertShape (x : ArgsC) (ws : Nat) (sats : Bool) : Shape where
  srcs := [⟨ws, x.a.toNat, x.p⟩]
  dsts := [⟨widthOf x.w, x.d.toNat⟩]
  sats := sats
  flags := true

/-- An element of a conversion's vector form. -/
def convertElem (x : ArgsC) (ws : Nat) (val : State → Nat → Converted) (s : State) (i : Nat) (row : Row) : Except (Nat × Word) Elem :=
  let r := val s (fetch s ⟨ws, x.a.toNat, false⟩ i row)
  .ok { row := putElem row (widthOf x.w) x.d.toNat r.1, sat := r.2.1, fl := r.2.2 }

section
variable {x : ArgsC} {s : State} (hr : Ready s = true)
include hr

theorem convertScalar_result (v : State → Word) (fl : State → Flags) :
    ∃ t, (convertScalar x v fl s).out = .next t ∧ ScalarOutcome s t x.d (v s) (fl s) := by
  have hfull := ready_allFull hr
  refine ⟨_, ?_, scalarOutcome_flags s x.d _ _⟩
  rw [convertScalar, readScalars_full _ _ _ hfull, destFree_full _ _ _ hfull]
  rfl

theorem convertVector_result (i : Instr) {ws : Nat} (sats : Bool) (val : State → Nat → Converted)
    (hd : overruns (widthOf x.w) x.d.toNat = false) (ha : overruns ws x.a.toNat = false) :
    let v : Nat → Converted := fun j => val s (sliceAt s ws x.a j).toNat
    ∃ t, (elementwise i (convertShape x ws sats) false Hart.active (convertElem x ws val) s).out = .next t ∧
      VectorOutcome s t (widthOf x.w) x.d.toNat (fun j => (v j).1) (fun j => (v j).2.1) (fun j => (v j).2.2) := by
  intro v
  obtain ⟨t, ht, hout⟩ := elementwise_vector i (convertShape x ws sats) false (convertElem x ws val) s (widthOf x.w) x.d.toNat
    (fun j => (v j).1) (fun j => (v j).2.1) (fun j => (v j).2.2) hr (by simp [convertShape, Shape.ok, hd, ha]) rfl rfl rfl
    (fun j _ => ⟨false, by rw [convertElem, fetch_ready hr]⟩)
  exact ⟨t, congrArg Res.out ht, hout⟩

/-! ### FCVT -/

theorem fcvt_scalar (hw : (Instr.fcvt x).wellFormed = true) (hf : x.f = 3) :
    let v := rndV (ssFmt x.w) (rctl s.hart.fctl) ((ssFmt x.s).val (rctl s.hart.fctl) ((s.hart.rs x.a).toNat % 2 ^ (ssFmt x.s).w))
    ∃ t, exec (.fcvt x) s = .next t ∧ ScalarOutcome s t x.d (BitVec.ofNat 64 v.1) v.2 := by
  intro v
  show ∃ t, execFcvt x s = .next t ∧ _
  rw [execFcvt, issue_wf _ _ _ hw, if_pos hf]
  exact convertScalar_result hr _ _

theorem fcvt_vector (hw : (Instr.fcvt x).wellFormed = true) (hf : x.f = 0) (hs : x.s ≠ 6)
    (hd : overruns (widthOf x.w) x.d.toNat = false) (ha : overruns (widthOf x.s) x.a.toNat = false) :
    let src := fmtOf s.hart.fctl (widthOf x.s)
    let v : Nat → Nat × Flags := fun j => rndV (if x.s = x.w then otherFmt src else fmtOf s.hart.fctl (widthOf x.w)) (rctl s.hart.fctl)
      (src.val (rctl s.hart.fctl) (sliceAt s (widthOf x.s) x.a j).toNat)
    ∃ t, exec (.fcvt x) s = .next t ∧
      VectorOutcome s t (widthOf x.w) x.d.toNat (fun j => (v j).1) (fun _ => false) (fun j => (v j).2) := by
  have hnq : (x.s == 6) = false := beq_eq_false_iff_ne.mpr hs
  have hexec : exec (.fcvt x) s = (elementwise (.fcvt x) (convertShape x (widthOf x.s) false) false Hart.active
      (convertElem x (widthOf x.s) fun s p =>
        let src := fmtOf s.hart.fctl (widthOf x.s)
        let r := rndV (if x.s = x.w then otherFmt src else fmtOf s.hart.fctl (widthOf x.w)) (rctl s.hart.fctl) (src.val (rctl s.hart.fctl) p)
        (r.1, false, r.2)) s).out := by
    show execFcvt x s = _
    rw [execFcvt, issue_wf _ _ _ hw, if_neg (by rw [hf]; decide)]
    simp only [hnq, Bool.false_eq_true, ↓reduceIte]
    rfl
  rw [hexec]
  exact convertVector_result hr _ _ _ hd ha

/-! ### FCVTI -/

theorem fcvti_scalar (hw : (Instr.fcvti x).wellFormed = true) (hf : x.f = 3) :
    let v := cvtInt (rctl s.hart.fctl) (scalarWidth x.w)
      ((ssFmt x.s).val (rctl s.hart.fctl) ((s.hart.rs x.a).toNat % 2 ^ (ssFmt x.s).w))
    ∃ t, exec (.fcvti x) s = .next t ∧
      ScalarOutcome s t x.d ((BitVec.ofInt (scalarWidth x.w) v.1).signExtend 64) (v.2.1 ||| (if v.2.2 then fSAT else 0)) := by
  intro v
  show ∃ t, execFcvti x s = .next t ∧ _
  rw [execFcvti, issue_wf _ _ _ hw, if_pos hf, ← ssResult_eq _ _ (scalarWidth_cases x.w)]
  exact convertScalar_result hr _ _

theorem fcvti_vector (hw : (Instr.fcvti x).wellFormed = true) (hf : x.f = 0)
    (hd : overruns (widthOf x.w) x.d.toNat = false) (ha : overruns (widthOf x.s) x.a.toNat = false) :
    let v : Nat → Int × Flags × Bool := fun j => cvtInt (rctl s.hart.fctl) (widthOf x.w)
      ((fmtOf s.hart.fctl (widthOf x.s)).val (rctl s.hart.fctl) (sliceAt s (widthOf x.s) x.a j).toNat)
    ∃ t, exec (.fcvti x) s = .next t ∧ VectorOutcome s t (widthOf x.w) x.d.toNat
      (fun j => (BitVec.ofInt (widthOf x.w) (v j).1).toNat) (fun j => (v j).2.2) (fun j => (v j).2.1) := by
  have hexec : exec (.fcvti x) s = (elementwise (.fcvti x) (convertShape x (widthOf x.s) true) false Hart.active
      (convertElem x (widthOf x.s) fun s p =>
        let r := cvtInt (rctl s.hart.fctl) (widthOf x.w) ((fmtOf s.hart.fctl (widthOf x.s)).val (rctl s.hart.fctl) p)
        (wrap r.1 (widthOf x.w), r.2.2, r.2.1)) s).out := by
    show execFcvti x s = _
    rw [execFcvti, issue_wf _ _ _ hw, if_neg (by rw [hf]; decide)]
    rfl
  simp only [hexec, ← wrap_eq]
  exact convertVector_result hr _ _ _ hd ha

/-! ### FCVTF -/

theorem fcvtf_scalar (hw : (Instr.fcvtf x).wellFormed = true) (hf : x.f = 3) :
    let v := ofInt (ssFmt x.w) (rctl s.hart.fctl) (BitVec.ofNat (scalarWidth x.s) (s.hart.rs x.a).toNat).toInt
    ∃ t, exec (.fcvtf x) s = .next t ∧ ScalarOutcome s t x.d (BitVec.ofNat 64 v.1) v.2 := by
  show ∃ t, execFcvtf x s = .next t ∧ _
  rw [execFcvtf, issue_wf _ _ _ hw, if_pos hf, ← sx_eq]
  exact convertScalar_result hr _ _

theorem fcvtf_vector (hw : (Instr.fcvtf x).wellFormed = true) (hf : x.f = 0)
    (hd : overruns (widthOf x.w) x.d.toNat = false) (ha : overruns (widthOf x.s) x.a.toNat = false) :
    let v : Nat → Nat × Flags := fun j => ofInt (fmtOf s.hart.fctl (widthOf x.w)) (rctl s.hart.fctl) (sliceAt s (widthOf x.s) x.a j).toInt
    ∃ t, exec (.fcvtf x) s = .next t ∧
      VectorOutcome s t (widthOf x.w) x.d.toNat (fun j => (v j).1) (fun _ => false) (fun j => (v j).2) := by
  have hexec : exec (.fcvtf x) s = (elementwise (.fcvtf x) (convertShape x (widthOf x.s) false) false Hart.active
      (convertElem x (widthOf x.s) fun s p =>
        let r := ofInt (fmtOf s.hart.fctl (widthOf x.w)) (rctl s.hart.fctl) (sx p (widthOf x.s))
        (r.1, false, r.2)) s).out := by
    show execFcvtf x s = _
    rw [execFcvtf, issue_wf _ _ _ hw, if_neg (by rw [hf]; decide)]
    rfl
  simp only [hexec, ← sx_toNat]
  exact convertVector_result hr _ _ _ hd ha

end

/-- Settles O5: each conversion in its SS form and its vector form. -/
theorem conversionResult : Obligations.ConversionResult := fun _ _ hr =>
  ⟨fun hw hs => ⟨fcvt_scalar hr hw, fun hf hd ha => fcvt_vector hr hw hf hs hd ha⟩,
    fun hw => ⟨fcvti_scalar hr hw, fcvti_vector hr hw⟩, fun hw => ⟨fcvtf_scalar hr hw, fcvtf_vector hr hw⟩⟩

end Sys2Proof.Proofs
end

section
/-! O6, O48. The tree of R135 and the prefixes of R137: what the model's lists hold, and what they come to where the operation is associative. -/

namespace Sys2Proof.Proofs
open Sys2Proof Sys2Proof.Machine Sys2Proof.Spec

/-! ## The model's lists, element by element -/

section
variable (op : Nat → Nat → Nat × Flags)

theorem combine_eq_join (x y : Option FVal) : combine op x y = join op x y := by
  cases x <;> cases y <;> rfl

theorem combine_some_getD (x : FVal) (y : Option FVal) : some ((combine op (some x) y).getD x) = join op (some x) y := by
  cases y <;> rfl

theorem getElem?_join {l m : List (Option FVal)} {j k : Nat} {x y : Option FVal} (hx : l[j]? = some x) (hy : m[k]? = some y) (hjk : j = k) :
    (List.zipWith (combine op) l m)[j]? = some (join op x y) := by
  subst hjk
  rw [List.getElem?_zipWith, hx, hy]
  exact congrArg some (combine_eq_join op x y)

/-- The levels that are left of a tree of 64 elements: 2^n of them stand, each the tree of the levels done. -/
theorem head_treeLevels {e : Nat → Option FVal} {n : Nat} {l : List (Option FVal)} (hn : n ≤ 6) (hlen : l.length = 2 ^ n)
    (hl : ∀ j, j < 2 ^ n → l[j]? = some (treeAt op e (6 - n) j)) : (treeLevels op n l).head?.join = treeAt op e 6 0 := by
  induction n generalizing l with
  | zero => rw [treeLevels, List.head?_eq_getElem?, hl 0 (by decide)]; rfl
  | succ n ih =>
    have hpow : 2 ^ (n + 1) = 2 ^ n + 2 ^ n := by rw [Nat.pow_succ]; omega
    refine ih (by omega) (by rw [List.length_zipWith, List.length_take, List.length_drop]; omega) fun j hj => ?_
    have hstep : 6 - n = (6 - (n + 1)) + 1 := by omega
    rw [hstep, treeAt, show 5 - (6 - (n + 1)) = n by omega]
    refine getElem?_join op ?_ ?_ rfl
    · rw [List.getElem?_take, if_pos hj]
      exact hl j (by omega)
    · rw [List.getElem?_drop, Nat.add_comm]
      exact hl (j + 2 ^ n) (by omega)

/-- The levels that are left of a scan of 64 elements. -/
theorem getElem?_scanLevels {p : Nat → Option FVal} {n L : Nat} {l : List (Option FVal)} (hlen : l.length = 64) (hL : n + L ≤ 6)
    (hl : ∀ j, j < 64 → l[j]? = some (scanAt op p L j)) :
    (scanLevels op n L l).length = 64 ∧ ∀ j, j < 64 → (scanLevels op n L l)[j]? = some (scanAt op p (L + n) j) := by
  induction n generalizing L l with
  | zero => exact ⟨hlen, hl⟩
  | succ n ih =>
    obtain ⟨k, hk⟩ : ∃ k, k = 2 ^ L := ⟨_, rfl⟩
    have hpow : k ≤ 64 := hk ▸ Nat.pow_le_pow_right (by decide) (show L ≤ 6 by omega)
    rw [scanLevels, ← hk, show L + (n + 1) = L + 1 + n by omega]
    refine ih ?_ (by omega) fun j hj => ?_
    · rw [List.length_append, List.length_take, List.length_zipWith, List.length_drop, hlen]
      omega
    · rw [scanAt, ← hk, List.getElem?_append, List.length_take, hlen, Nat.min_eq_left hpow]
      by_cases hjL : k ≤ j
      · rw [if_neg (by omega), if_pos hjL]
        refine getElem?_join op (hl _ (by omega)) ?_ rfl
        rw [List.getElem?_drop, show k + (j - k) = j by omega]
        exact hl j hj
      · rw [if_pos (by omega), if_neg hjL, List.getElem?_take, if_pos (by omega)]
        exact hl j hj

/-- The groups of a reduction, each by its tree (R135). -/
theorem reduceGroups_eq {e : Nat → Nat → Option FVal} {lists : Nat → List (Option FVal)}
    (hlists : ∀ g, lists g = (List.range 64).map (e g)) (n g : Nat) (acc : FVal) :
    some (reduceGroups op lists g n acc) = (List.range' g n).foldl (fun acc g => join op acc (treeAt op (e g) 6 0)) (some acc) := by
  induction n generalizing g acc with
  | zero => rfl
  | succ n ih =>
    have htree : (treeLevels op 6 (lists g)).head?.join = treeAt op (e g) 6 0 := by
      refine head_treeLevels op (e := e g) (Nat.le_refl 6) (by simp [hlists]) fun j hj => ?_
      rw [hlists, List.getElem?_map, List.getElem?_range (show j < 64 from hj)]
      rfl
    rw [reduceGroups, ih, htree, combine_some_getD, List.range'_succ, List.foldl_cons]

end

/-! ## Joins of an operation on words -/

section
variable {α : Type} (g : α → α → α)

/-- All of a list of elements that may be absent, taken together. -/
def mergeAll (l : List (Option α)) : Option α := l.foldl (Option.merge g) none

/-- The tree of R135 on elements of any kind. -/
def mergeTree (E : Nat → Option α) : Nat → Nat → Option α
  | 0, j => E j
  | n + 1, j => Option.merge g (mergeTree E n j) (mergeTree E n (j + 2 ^ (5 - n)))

theorem mergeAll_nil : mergeAll g [] = none := rfl

section
variable {op : Nat → Nat → Nat × Flags} {φ : α → FVal} (hop : ∀ a b, op (φ a).1 (φ b).1 = φ (g a b)) (hfl : ∀ a, (φ a).2 = 0)
include hop hfl

/-- An operation that raises no flag joins values as it merges what they stand for. -/
theorem join_map (x y : Option α) : join op (x.map φ) (y.map φ) = (Option.merge g x y).map φ := by
  cases x with
  | none => cases y <;> rfl
  | some a =>
    cases y with
    | none => rfl
    | some b =>
      have hzero : (0 : Flags) ||| 0 ||| 0 = 0 := by decide
      show some (_, _) = some (φ (g a b))
      rw [← hop a b, hfl, hfl, hop, hfl, hzero, ← hfl (g a b)]

theorem treeAt_map (E : Nat → Option α) (n j : Nat) : treeAt op (fun j => (E j).map φ) n j = (mergeTree g E n j).map φ := by
  induction n generalizing j with
  | zero => rfl
  | succ n ih => rw [treeAt, ih, ih, join_map g hop hfl, mergeTree]

theorem foldl_join_map {β : Type} (f : β → Option α) (l : List β) (x : Option α) :
    l.foldl (fun acc k => join op acc ((f k).map φ)) (x.map φ) = (l.foldl (fun acc k => Option.merge g acc (f k)) x).map φ := by
  induction l generalizing x with
  | nil => rfl
  | cons k l ih => rw [List.foldl_cons, List.foldl_cons, join_map g hop hfl, ih]

end

section
variable [Std.Associative g]

theorem foldl_merge (x : Option α) (l : List (Option α)) : l.foldl (Option.merge g) x = Option.merge g x (mergeAll g l) := by
  conv_lhs => rw [← Option.merge_none_right (f := g) (a := x)]
  rw [mergeAll, List.foldl_assoc]

theorem mergeAll_append (l m : List (Option α)) : mergeAll g (l ++ m) = Option.merge g (mergeAll g l) (mergeAll g m) := by
  rw [mergeAll, List.foldl_append, foldl_merge]
  rfl

theorem mergeAll_cons (x : Option α) (l : List (Option α)) : mergeAll g (x :: l) = Option.merge g x (mergeAll g l) := by
  rw [mergeAll, List.foldl_cons, Option.merge_none_left, foldl_merge]

theorem mergeAll_map_range_add (E : Nat → Option α) (m n : Nat) :
    mergeAll g ((List.range (m + n)).map E) =
      Option.merge g (mergeAll g ((List.range m).map E)) (mergeAll g ((List.range n).map fun j => E (m + j))) := by
  rw [List.range_add, List.map_append, mergeAll_append, List.map_map]
  rfl

/-- The scanned value of R137 at level L is the merge of the 2^L elements up to j, or of all of them. -/
theorem scanAt_map {op : Nat → Nat → Nat × Flags} {φ : α → FVal} (hop : ∀ a b, op (φ a).1 (φ b).1 = φ (g a b))
    (hfl : ∀ a, (φ a).2 = 0)
    (E : Nat → Option α) (L j : Nat) : scanAt op (fun j => (E j).map φ) L j =
      (mergeAll g ((List.range' (j + 1 - 2 ^ L) (min (2 ^ L) (j + 1))).map E)).map φ := by
  induction L generalizing j with
  | zero =>
    rw [scanAt, pow_zero, Nat.min_eq_left (by omega), Nat.add_sub_cancel, List.range'_one, List.map_singleton, mergeAll_cons, mergeAll_nil,
      Option.merge_none_right]
  | succ L ih =>
    have hpow : 2 ^ (L + 1) = 2 ^ L + 2 ^ L := by rw [Nat.pow_succ]; omega
    have hpos : 0 < 2 ^ L := Nat.two_pow_pos L
    rw [scanAt]
    by_cases hj : 2 ^ L ≤ j
    · have hsplit : List.range' (j + 1 - 2 ^ (L + 1)) (min (2 ^ (L + 1)) (j + 1)) =
          List.range' (j - 2 ^ L + 1 - 2 ^ L) (min (2 ^ L) (j - 2 ^ L + 1)) ++ List.range' (j + 1 - 2 ^ L) (min (2 ^ L) (j + 1)) := by
        rw [show j + 1 - 2 ^ L = j - 2 ^ L + 1 - 2 ^ L + 1 * min (2 ^ L) (j - 2 ^ L + 1) by omega, List.range'_append]
        congr 1 <;> omega
      rw [if_pos hj, ih, ih, join_map g hop hfl, hsplit, List.map_append, mergeAll_append]
    · rw [if_neg hj, ih]
      congr 4 <;> omega

section
variable [Std.Commutative g]

/-- Halving a row of elements keeps what they come to together. -/
theorem mergeAll_halves (E : Nat → Option α) (k : Nat) :
    mergeAll g ((List.range k).map fun j => Option.merge g (E j) (E (j + k))) = mergeAll g ((List.range (k + k)).map E) := by
  have hpairs (F G : Nat → Option α) (n : Nat) : mergeAll g ((List.range n).map fun j => Option.merge g (F j) (G j)) =
      Option.merge g (mergeAll g ((List.range n).map F)) (mergeAll g ((List.range n).map G)) := by
    induction n with
    | zero => rfl
    | succ n ih =>
      simp only [List.range_succ, List.map_append, mergeAll_append, ih, List.map_singleton, mergeAll_cons, mergeAll_nil, Option.merge_none_right]
      ac_rfl
  rw [hpairs, mergeAll_map_range_add]
  simp only [Nat.add_comm]

theorem mergeAll_mergeTree (E : Nat → Option α) {n : Nat} (hn : n ≤ 6) :
    mergeAll g ((List.range (2 ^ (6 - n))).map (mergeTree g E n)) = mergeAll g ((List.range 64).map E) := by
  induction n with
  | zero => rfl
  | succ n ih =>
    rw [← ih (by omega), show 6 - n = 5 - n + 1 by omega, show 6 - (n + 1) = 5 - n by omega, Nat.pow_succ, Nat.mul_two]
    exact mergeAll_halves g (mergeTree g E n) (2 ^ (5 - n))

/-- Where the operation is associative and commutative, a group's tree comes to all of the group's elements (R135). -/
theorem mergeTree_eq (E : Nat → Option α) : mergeTree g E 6 0 = mergeAll g ((List.range 64).map E) := by
  rw [← mergeAll_mergeTree g E (Nat.le_refl 6)]
  exact (Option.merge_none_left (f := g)).symm

end

/-- Group after group, element after element: the same elements in the same order. -/
theorem foldl_groups (E : Nat → Option α) (n : Nat) (x : Option α) :
    (List.range n).foldl (fun acc k => Option.merge g acc (mergeAll g ((List.range 64).map fun j => E (64 * k + j)))) x =
      Option.merge g x (mergeAll g ((List.range (64 * n)).map E)) := by
  induction n with
  | zero => exact Option.merge_none_right.symm
  | succ n ih =>
    rw [List.range_succ (n := n), List.foldl_append, ih, Nat.mul_succ, mergeAll_map_range_add, ← Std.Associative.assoc (op := Option.merge g)]
    rfl

/-- The elements that `p` accepts, merged onto a, are folded in order. -/
theorem merge_filter (p : Nat → Bool) (v : Nat → α) (l : List Nat) (a : α) :
    Option.merge g (some a) (mergeAll g (l.map fun j => if p j then some (v j) else none)) =
      some ((l.filter p).foldl (fun acc j => g acc (v j)) a) := by
  rw [← foldl_merge]
  induction l generalizing a with
  | nil => rfl
  | cons j l ih =>
    rw [List.map_cons, List.foldl_cons, List.filter_cons]
    cases p j
    · exact ih a
    · exact ih (g a (v j))

end

end

/-! ## The active elements (R12) -/

theorem filter_range_active (s : State) {n : Nat} (hn : s.hart.len ≤ n) : (List.range n).filter s.hart.active = activeBelow s := by
  obtain ⟨k, rfl⟩ := Nat.exists_eq_add_of_le hn
  have hlow : ∀ j ∈ List.range s.hart.len, s.hart.active j = s.hart.permits j := fun j hj => by
    rw [Hart.active, decide_eq_true (List.mem_range.mp hj), Bool.true_and]
  have hhigh : ∀ j ∈ (List.range k).map (s.hart.len + ·), ¬ s.hart.active j = true := fun j hj => by
    obtain ⟨i, -, rfl⟩ := List.mem_map.mp hj
    simp [Hart.active]
  rw [List.range_add, List.filter_append, List.filter_congr hlow, List.filter_eq_nil_iff.mpr hhigh, List.append_nil]
  rfl

theorem len_le_groups (n : Nat) : n ≤ 64 * ceilDiv n 64 := by
  rw [ceilDiv]
  omega

end Sys2Proof.Proofs
end

section
/-! O6. Reductions (R135, R136) on a hart that nothing makes wait: any by its tree, an integer one as a fold. -/

namespace Sys2Proof.Proofs
open Sys2Proof Sys2Proof.Machine Sys2Proof.Spec

/-! ## Cross-element instructions (R133, R359) -/

theorem crossElement_eq {i : Instr} {sh : Shape} {late : BitVec 64} {f : State → Hart} {s : State} (hr : Ready s = true) (hs : sh.ok = true)
    (halways : sh.always = false) (hwhole : sh.whole = false) : crossElement i sh late f s =
      .ok (s.setHart (if s.hart.len ≤ s.hart.eidx.toNat then s.hart.retire else (f s).retire)) := by
  have hpast : ((s.hart.len = 0 ∧ sh.always = false) ∨ sh.past s.hart = true) ↔ s.hart.len ≤ s.hart.eidx.toNat := by
    simp only [Shape.past, halways, hwhole, Bool.not_false, Bool.true_and, Bool.and_eq_true, decide_eq_true_eq, and_true]
    omega
  rw [crossElement_ready _ _ _ _ _ hr hs, if_congr hpast rfl rfl, apply_ite s.setHart]

/-- With EIDX not below VL a cross-element instruction retires; else its new hart stands, retired. -/
theorem cross_cases {i : Instr} {sh : Shape} {late : BitVec 64} {f : State → Hart} {s : State} (hr : Ready s = true) (hs : sh.ok = true)
    (halways : sh.always = false) (hwhole : sh.whole = false) :
    (s.hart.len ≤ s.hart.eidx.toNat → (crossElement i sh late f s).out = .next (s.setHart s.hart.retire)) ∧
    (s.hart.eidx.toNat < s.hart.len → (crossElement i sh late f s).out = .next (s.setHart (f s).retire)) := by
  rw [crossElement_eq hr hs halways hwhole]
  exact ⟨fun h => by rw [if_pos h]; rfl, fun h => by rw [if_neg (Nat.not_le.mpr h)]; rfl⟩

theorem readV_ready {s : State} (hr : Ready s = true) (w : Nat) (a : BitVec 6) (j : Nat) :
    readV s ⟨w, a.toNat, false⟩ j = (sliceAt s w a j).toNat := fetch_ready hr w a false j

theorem groupOf_eq {s : State} (hr : Ready s = true) (w : Nat) (a : BitVec 6) (g : Nat) :
    groupOf s ⟨w, a.toNat, false⟩ g = (List.range 64).map (groupElem s w a g) := by
  simp only [groupOf, readV_ready hr]
  rfl

/-! ## Reductions -/

/-- Element j of group g as a reduction takes it: formed by `pre`, where it is active. -/
def reduceElem (s : State) (w : Nat) (a : BitVec 6) (pre : Nat → Nat → Nat) (g j : Nat) : Option FVal :=
  (groupElem s w a g j).map fun v => (pre w v.1, v.2)

section
variable {i : Instr} {x : ArgsR} {pre : Nat → Nat → Nat} {ini : Nat → Nat} {fin : Nat → Nat → Word}
  {op : State → Nat → Nat → Nat → Nat × Flags} {s : State} (hw : i.wellFormed = true) (hr : Ready s = true)
  (ha : overruns (widthOf x.w) x.a.toNat = false)
include hw hr ha

/-- A reduction writes what its groups come to, one after another, each by its tree (R135). -/
theorem reduction_result :
    (s.hart.len ≤ s.hart.eidx.toNat → reduction i x pre ini fin op s = .next (s.setHart s.hart.retire)) ∧
    (s.hart.eidx.toNat < s.hart.len → ∃ t v, reduction i x pre ini fin op s = .next t ∧
      accAfter (op s (widthOf x.w)) (reduceElem s (widthOf x.w) x.a pre) (ini (s.hart.rs x.b).toNat) (ceilDiv s.hart.len 64) = some v ∧
      ScalarOutcome s t x.d (fin (widthOf x.w) v.1) v.2) := by
  have hlists (g : Nat) : (groupOf s ⟨widthOf x.w, x.a.toNat, false⟩ g).map (Option.map fun v => (pre (widthOf x.w) v.1, v.2)) =
      (List.range 64).map (reduceElem s (widthOf x.w) x.a pre g) := by
    rw [groupOf_eq hr, List.map_map]
    rfl
  obtain ⟨hpast, hgo⟩ := cross_cases (i := i) (late := scalarBit x.d) (s := s)
    (sh := { srcs := [⟨widthOf x.w, x.a.toNat, x.p⟩], reads := [(x.b, x.q)], flags := decide (i = .frsum x ∨ i = .frmin x ∨ i = .frmax x) })
    (f := fun s =>
      let h := s.hart
      let e := fun g => (groupOf s ⟨widthOf x.w, x.a.toNat, false⟩ g).map (Option.map (fun v => (pre (widthOf x.w) v.1, v.2)))
      let r := reduceGroups (op s (widthOf x.w)) e 0 (ceilDiv h.len 64) (ini (h.rs x.b).toNat, 0)
      (h.ws x.d (fin (widthOf x.w) r.1)).orFlags r.2) hr (by simp [Shape.ok, ha]) rfl rfl
  rw [reduction, issue_wf _ _ _ hw]
  refine ⟨hpast, fun hlen => ⟨_, _, hgo hlen, ?_, scalarOutcome_flags s x.d _ _⟩⟩
  rw [accAfter, List.range_eq_range']
  exact (reduceGroups_eq (op s (widthOf x.w)) hlists (ceilDiv s.hart.len 64) 0 _).symm

end

/-! ## Operations on words that are associative and commutative -/

/-- Of two values the one with the lower key, the first where they are equal. -/
theorem lower_comm {α β : Type} [LinearOrder β] {key : α → β} (hkey : Function.Injective key) :
    Std.Commutative fun a b => if key b < key a then b else a := ⟨fun a b => by
  rcases lt_trichotomy (key a) (key b) with h | h | h
  · rw [if_neg (not_lt.mpr h.le), if_pos h]
  · rw [hkey h]
  · rw [if_pos h, if_neg (not_lt.mpr h.le)]⟩

theorem lower_assoc {α β : Type} [LinearOrder β] (key : α → β) :
    Std.Associative fun a b => if key b < key a then b else a := ⟨fun a b c => by
  by_cases hab : key b < key a <;> by_cases hbc : key c < key b
  · rw [if_pos hab, if_pos hbc, if_pos (hbc.trans hab)]
  · rw [if_pos hab, if_neg hbc, if_pos hab]
  · rw [if_neg hab, if_pos hbc]
  · rw [if_neg hab, if_neg hbc, if_neg hab, if_neg (not_lt.mpr ((not_lt.mp hab).trans (not_lt.mp hbc)))]⟩

section
variable {m : Nat} {g : BitVec m → BitVec m → BitVec m} [Std.Associative g] [Std.Commutative g] {op : Nat → Nat → Nat × Flags}
  (hop : ∀ a b : BitVec m, op a.toNat b.toNat = ((g a b).toNat, 0))
include hop

/-- The value that a word stands for in a reduction: its number, and no flag. -/
def plain (v : BitVec m) : FVal := (v.toNat, 0)

/-- Whatever the tree, the groups of a reduction come to the fold over the active elements in index order (R136). -/
theorem accAfter_eq_foldl {s : State} {e : Nat → Nat → Option FVal} (v : Nat → BitVec m) (a0 : BitVec m) {n : Nat} (hn : s.hart.len ≤ 64 * n)
    (he : ∀ g j, e g j = if s.hart.active (64 * g + j) then some (plain (v (64 * g + j))) else none) :
    accAfter op e a0.toNat n = some (plain ((activeBelow s).foldl (fun acc j => g acc (v j)) a0)) := by
  have hplain : ∀ a b : BitVec m, op (plain a).1 (plain b).1 = plain (g a b) := hop
  have hel (k : Nat) : e k = fun j => (if s.hart.active (64 * k + j) then some (v (64 * k + j)) else none).map plain := by
    funext j
    rw [he]
    split <;> rfl
  have htree (k : Nat) : treeAt op (e k) 6 0 =
      (mergeAll g ((List.range 64).map fun j => if s.hart.active (64 * k + j) then some (v (64 * k + j)) else none)).map plain := by
    rw [hel, treeAt_map g hplain (fun _ => rfl), mergeTree_eq]
  simp only [accAfter, htree]
  rw [show (some (a0.toNat, 0) : Option FVal) = (some a0).map plain from rfl, foldl_join_map g hplain (fun _ => rfl),
    foldl_groups g (fun j => if s.hart.active j then some (v j) else none), merge_filter, filter_range_active s hn]
  rfl

end

/-! ## The rows of R136 -/

section
variable {i : Instr} {x : ArgsR} {s : State} (hw : i.wellFormed = true) (hr : Ready s = true)
  (ha : overruns (widthOf x.w) x.a.toNat = false)
include hw hr ha

/-- A reduction that folds words of m bits. -/
theorem reduction_fold {m : Nat} {g : BitVec m → BitVec m → BitVec m} (hassoc : Std.Associative g) (hcomm : Std.Commutative g)
    {pre : Nat → Nat → Nat} {ini : Nat → Nat} {fin : Nat → Nat → Word} {op : State → Nat → Nat → Nat → Nat × Flags}
    (hop : ∀ a b : BitVec m, op s (widthOf x.w) a.toNat b.toNat = ((g a b).toNat, 0)) (v : Nat → BitVec m)
    (hv : ∀ j, pre (widthOf x.w) (sliceAt s (widthOf x.w) x.a j).toNat = (v j).toNat) (a0 : BitVec m) (ha0 : ini (s.hart.rs x.b).toNat = a0.toNat)
    {word : Word} (hword : fin (widthOf x.w) ((activeBelow s).foldl (fun acc j => g acc (v j)) a0).toNat = word) :
    (s.hart.len ≤ s.hart.eidx.toNat → reduction i x pre ini fin op s = .next (s.setHart s.hart.retire)) ∧
    (s.hart.eidx.toNat < s.hart.len → ∃ t, reduction i x pre ini fin op s = .next t ∧ ScalarOutcome s t x.d word 0) := by
  obtain ⟨hpast, hgo⟩ := reduction_result (pre := pre) (ini := ini) (fin := fin) (op := op) hw hr ha
  refine ⟨hpast, fun hlen => ?_⟩
  obtain ⟨t, r, ht, hacc, hout⟩ := hgo hlen
  rw [ha0, accAfter_eq_foldl hop v a0 (len_le_groups _) fun k j => ?_] at hacc
  · obtain rfl := Option.some.inj hacc
    rw [plain, hword] at hout
    exact ⟨t, ht, hout⟩
  · rw [reduceElem, groupElem]
    split
    · rw [Option.map_some, hv]
      rfl
    · rfl

theorem intReduction_fold {g : BitVec (widthOf x.w) → BitVec (widthOf x.w) → BitVec (widthOf x.w)} (hassoc : Std.Associative g)
    (hcomm : Std.Commutative g) {signed : Bool} {op : Nat → Nat → Nat → Nat}
    (hop : ∀ a b : BitVec (widthOf x.w), op (widthOf x.w) a.toNat b.toNat = (g a b).toNat) :
    let v := (activeBelow s).foldl (fun acc j => g acc (sliceAt s (widthOf x.w) x.a j)) (BitVec.ofNat (widthOf x.w) (s.hart.rs x.b).toNat)
    (s.hart.len ≤ s.hart.eidx.toNat → intReduction i x signed op s = .next (s.setHart s.hart.retire)) ∧
    (s.hart.eidx.toNat < s.hart.len → ∃ t, intReduction i x signed op s = .next t ∧
      ScalarOutcome s t x.d (if signed then v.signExtend 64 else v.zeroExtend 64) 0) := by
  intro v
  refine reduction_fold hw hr ha hassoc hcomm (fun a b => by rw [hop]) (sliceAt s (widthOf x.w) x.a)
    (fun j => Nat.mod_eq_of_lt (BitVec.isLt _)) (BitVec.ofNat (widthOf x.w) (s.hart.rs x.b).toNat) (BitVec.toNat_ofNat _ _).symm ?_
  show (if signed then word (sx v.toNat (widthOf x.w)) else BitVec.ofNat 64 (v.toNat % 2 ^ widthOf x.w)) = _
  rw [word_sx, Nat.mod_eq_of_lt v.isLt, BitVec.ofNat_toNat, BitVec.ofNat_toNat, BitVec.setWidth_eq]

end

/-- The fold of an operation over the active elements, from s[b] (R136). -/
def activeFold (s : State) (x : ArgsR) (g : BitVec (widthOf x.w) → BitVec (widthOf x.w) → BitVec (widthOf x.w)) : BitVec (widthOf x.w) :=
  (activeBelow s).foldl (fun acc j => g acc (sliceAt s (widthOf x.w) x.a j)) (BitVec.ofNat (widthOf x.w) (s.hart.rs x.b).toNat)

/-- Each row of R136 but RSUM is the shared form `intReduction` of an associative and commutative operation, whose fold the row gives. -/
theorem exec_reduceRow {i : Instr} {x : ArgsR} {val : State → Word} (hrow : reduceRow i = some (x, val)) (hsum : i ≠ .rsum x) :
    ∃ (signed : Bool) (op : Nat → Nat → Nat → Nat) (g : BitVec (widthOf x.w) → BitVec (widthOf x.w) → BitVec (widthOf x.w)),
      (∀ s, exec i s = intReduction i x signed op s) ∧ Std.Associative g ∧ Std.Commutative g ∧
      (∀ a b : BitVec (widthOf x.w), op (widthOf x.w) a.toNat b.toNat = (g a b).toNat) ∧
      ∀ s, val s = if signed then (activeFold s x g).signExtend 64 else (activeFold s x g).zeroExtend 64 := by
  cases i with
  | rsum y =>
    obtain ⟨rfl, -⟩ := Prod.mk.inj (Option.some.inj hrow)
    exact absurd rfl hsum
  | rmin y =>
    obtain ⟨rfl, rfl⟩ := Prod.mk.inj (Option.some.inj hrow)
    refine ⟨true, fun w a b => if sx a w ≤ sx b w then a else b, fun a b => if b.slt a then b else a, fun _ => rfl, ?_, ?_, fun a b => ?_,
      fun _ => rfl⟩
    · simpa only [BitVec.slt_iff_toInt_lt] using lower_assoc BitVec.toInt
    · simpa only [BitVec.slt_iff_toInt_lt] using lower_comm fun _ _ => BitVec.eq_of_toInt_eq
    · simp only [sx_toNat, BitVec.slt_iff_toInt_lt, ← not_lt, ite_not, apply_ite BitVec.toNat]
  | rminu y =>
    obtain ⟨rfl, rfl⟩ := Prod.mk.inj (Option.some.inj hrow)
    refine ⟨false, fun _ a b => min a b, fun a b => if b.ult a then b else a, fun _ => rfl, ?_, ?_, fun a b => ?_, fun _ => rfl⟩
    · simpa only [BitVec.ult_iff_toNat_lt] using lower_assoc BitVec.toNat
    · simpa only [BitVec.ult_iff_toNat_lt] using lower_comm fun _ _ => BitVec.eq_of_toNat_eq
    · simp only [BitVec.ult_iff_toNat_lt, apply_ite BitVec.toNat]
      split <;> omega
  | rmax y =>
    obtain ⟨rfl, rfl⟩ := Prod.mk.inj (Option.some.inj hrow)
    refine ⟨true, fun w a b => if sx a w ≥ sx b w then a else b, fun a b => if a.slt b then b else a, fun _ => rfl, ?_, ?_, fun a b => ?_,
      fun _ => rfl⟩
    · simpa only [BitVec.slt_iff_toInt_lt, Function.comp_apply, OrderDual.toDual_lt_toDual] using lower_assoc (OrderDual.toDual ∘ BitVec.toInt)
    · simpa only [BitVec.slt_iff_toInt_lt, Function.comp_apply, OrderDual.toDual_lt_toDual] using
        lower_comm (key := OrderDual.toDual ∘ BitVec.toInt) fun _ _ => BitVec.eq_of_toInt_eq
    · simp only [sx_toNat, BitVec.slt_iff_toInt_lt, ge_iff_le, ← not_lt, ite_not, apply_ite BitVec.toNat]
  | rmaxu y =>
    obtain ⟨rfl, rfl⟩ := Prod.mk.inj (Option.some.inj hrow)
    refine ⟨false, fun _ a b => max a b, fun a b => if a.ult b then b else a, fun _ => rfl, ?_, ?_, fun a b => ?_, fun _ => rfl⟩
    · simpa only [BitVec.ult_iff_toNat_lt, Function.comp_apply, OrderDual.toDual_lt_toDual] using lower_assoc (OrderDual.toDual ∘ BitVec.toNat)
    · simpa only [BitVec.ult_iff_toNat_lt, Function.comp_apply, OrderDual.toDual_lt_toDual] using
        lower_comm (key := OrderDual.toDual ∘ BitVec.toNat) fun _ _ => BitVec.eq_of_toNat_eq
    · simp only [BitVec.ult_iff_toNat_lt, apply_ite BitVec.toNat]
      split <;> omega
  | rand y =>
    obtain ⟨rfl, rfl⟩ := Prod.mk.inj (Option.some.inj hrow)
    exact ⟨false, fun _ a b => a &&& b, fun a b => a &&& b, fun _ => rfl, ⟨BitVec.and_assoc⟩, ⟨BitVec.and_comm⟩,
      fun a b => (BitVec.toNat_and a b).symm, fun _ => rfl⟩
  | ror y =>
    obtain ⟨rfl, rfl⟩ := Prod.mk.inj (Option.some.inj hrow)
    exact ⟨false, fun _ a b => a ||| b, fun a b => a ||| b, fun _ => rfl, ⟨BitVec.or_assoc⟩, ⟨BitVec.or_comm⟩,
      fun a b => (BitVec.toNat_or a b).symm, fun _ => rfl⟩
  | rxor y =>
    obtain ⟨rfl, rfl⟩ := Prod.mk.inj (Option.some.inj hrow)
    exact ⟨false, fun _ a b => a ^^^ b, fun a b => a ^^^ b, fun _ => rfl, ⟨BitVec.xor_assoc⟩, ⟨BitVec.xor_comm⟩,
      fun a b => (BitVec.toNat_xor a b).symm, fun _ => rfl⟩
  | _ => exact nomatch hrow

/-- RSUM (R136): the elements sign-extended to 64 bits. -/
theorem rsum_result {x : ArgsR} {s : State} (hw : (Instr.rsum x).wellFormed = true) (hr : Ready s = true)
    (ha : overruns (widthOf x.w) x.a.toNat = false) :
    (s.hart.len ≤ s.hart.eidx.toNat → execRsum x s = .next (s.setHart s.hart.retire)) ∧
    (s.hart.eidx.toNat < s.hart.len → ∃ t, execRsum x s = .next t ∧ ScalarOutcome s t x.d
      ((activeBelow s).foldl (fun acc j => acc + (sliceAt s (widthOf x.w) x.a j).signExtend 64) (s.hart.rs x.b)) 0) := by
  rw [execRsum]
  refine reduction_fold hw hr ha (m := 64) (g := fun a b => a + b) ⟨BitVec.add_assoc⟩ ⟨BitVec.add_comm⟩ (fun a b => ?_)
    (fun j => (sliceAt s (widthOf x.w) x.a j).signExtend 64) (fun j => ?_) (s.hart.rs x.b) rfl ?_
  · rw [BitVec.toNat_add]
  · rw [wrap_sx]
  · rw [BitVec.ofNat_toNat, BitVec.setWidth_eq]

/-- Settles O6: RSUM by `rsum_result`, the other rows by `exec_reduceRow` and `intReduction_fold`. -/
theorem reductionResult : Obligations.ReductionResult := by
  intro i x val s hrow hw hr ha
  by_cases hsum : i = .rsum x
  · subst hsum
    obtain ⟨-, rfl⟩ := Prod.mk.inj (Option.some.inj hrow)
    exact rsum_result hw hr ha
  · obtain ⟨signed, op, g, hexec, hassoc, hcomm, hop, hval⟩ := exec_reduceRow hrow hsum
    rw [hexec, hval]
    exact intReduction_fold hw hr ha hassoc hcomm hop

end Sys2Proof.Proofs
end

section
/-! O48. Float reductions, and the scans of R137, on a hart that nothing makes wait. -/

namespace Sys2Proof.Proofs
open Sys2Proof Sys2Proof.Machine Sys2Proof.Spec

/-! ## Float reductions (R135, R136) -/

theorem floatReduction_result {i : Instr} {x : ArgsR} {op : Fmt → RCtl → FV → FV → Nat × Flags} {s : State} (hw : i.wellFormed = true)
    (hr : Ready s = true) (ha : overruns (widthOf x.w) x.a.toNat = false) :
    let c := rctl s.hart.fctl
    let f := fmtOf s.hart.fctl (widthOf x.w)
    (s.hart.len ≤ s.hart.eidx.toNat → floatReduction i x op s = .next (s.setHart s.hart.retire)) ∧
    (s.hart.eidx.toNat < s.hart.len → ∃ t v, floatReduction i x op s = .next t ∧
      accAfter (fun a b => op f c (f.val c a) (f.val c b)) (groupElem s (widthOf x.w) x.a) ((s.hart.rs x.b).toNat % 2 ^ widthOf x.w)
        (ceilDiv s.hart.len 64) = some v ∧
      ScalarOutcome s t x.d (BitVec.ofNat 64 v.1) v.2) := by
  intro c f
  have hel : reduceElem s (widthOf x.w) x.a (fun _ v => v) = groupElem s (widthOf x.w) x.a := by
    funext g j
    exact Option.map_id'
  rw [← hel]
  exact reduction_result hw hr ha

/-! ## What a scan writes (R137) -/

section
variable (op : Nat → Nat → Nat × Flags)

/-- The carry combined with a scanned value. -/
def scanOut (carry : FVal) (p : Option FVal) : FVal := (combine op (some carry) p).getD carry

theorem some_scanOut (carry : FVal) (p : Option FVal) : some (scanOut op carry p) = join op (some carry) p := combine_some_getD op carry p

/-- The carry before group n. -/
def scanCarry (e : Nat → Nat → Option FVal) (init : Nat) : Nat → FVal
  | 0 => (init, 0)
  | n + 1 => scanOut op (scanCarry e init n) (scanAt op (e n) 6 63)

theorem carryAfter_eq (e : Nat → Nat → Option FVal) (init n : Nat) : carryAfter op e init n = some (scanCarry op e init n) := by
  induction n with
  | zero => rfl
  | succ n ih =>
    rw [carryAfter] at ih ⊢
    rw [List.range_succ, List.foldl_append, ih]
    exact (some_scanOut op _ _).symm

theorem scanLevels_eq {e : Nat → Option FVal} {l : List (Option FVal)} (hl : l = (List.range 64).map e) :
    scanLevels op 6 0 l = (List.range' 0 64).map (scanAt op e 6) := by
  subst hl
  obtain ⟨hlen, hget⟩ := getElem?_scanLevels op (p := e) (n := 6) (L := 0) (l := (List.range 64).map e) (by simp) (by decide) fun j hj => by
    rw [List.getElem?_map, List.getElem?_range hj]
    rfl
  refine List.ext_getElem? fun j => ?_
  by_cases hj : j < 64
  · rw [hget j hj, List.getElem?_map, ← List.range_eq_range', List.getElem?_range hj]
    rfl
  · rw [List.getElem?_eq_none (by omega), List.getElem?_eq_none (by simp; omega)]

section
variable {h : Hart} {w d g : Nat} {carry : FVal} {P : Nat → Option FVal}

/-- The flags of a scanned value, where there is one. -/
def flagsOf (p : Option FVal) : Flags := match p with | some v => v.2 | none => 0

theorem getLsbD_flagsOf (p : Option FVal) (b : Nat) : (flagsOf p).getLsbD b = true ↔ ∃ v, p = some v ∧ v.2.getLsbD b = true := by
  cases p <;> simp [flagsOf]

theorem scanWrite_cons (j : Nat) (p : Option FVal) (t : List (Option FVal)) (a : SMap Row × Flags) :
    scanWrite op h w d g carry j (p :: t) a =
      if h.active (64 * g + j) then
        scanWrite op h w d g carry (j + 1) t
          (SMap.set 0 a.1 (64 * g + j) (putElem (SMap.get 0 a.1 (64 * g + j)) w d (scanOut op carry p).1),
            a.2 ||| flagsOf p ||| (scanOut op carry p).2)
      else scanWrite op h w d g carry (j + 1) t (a.1, a.2 ||| flagsOf p) := rfl

theorem row_scanWrite (n j0 : Nat) (a : SMap Row × Flags) (k : Nat) :
    SMap.get 0 (scanWrite op h w d g carry j0 ((List.range' j0 n).map P) a).1 k =
      if 64 * g + j0 ≤ k ∧ k < 64 * g + j0 + n ∧ h.active k = true then
        putElem (SMap.get 0 a.1 k) w d (scanOut op carry (P (k - 64 * g))).1
      else SMap.get 0 a.1 k := by
  induction n generalizing j0 a with
  | zero => rw [if_neg (by omega)]; rfl
  | succ n ih =>
    rw [List.range'_succ, List.map_cons, scanWrite_cons]
    by_cases hact : h.active (64 * g + j0) = true
    · rw [if_pos hact, ih]
      by_cases hk : k = 64 * g + j0
      · subst hk
        rw [if_neg (by omega), if_pos ⟨le_refl _, by omega, hact⟩, SMap.get_set_same, Nat.add_sub_cancel_left]
      · rw [SMap.get_set_other _ _ _ hk]
        exact if_congr (and_congr (by omega) (and_congr (by omega) Iff.rfl)) rfl rfl
    · rw [if_neg hact, ih]
      refine if_congr ⟨fun ⟨h1, h2, h3⟩ => ⟨by omega, by omega, h3⟩, fun ⟨h1, h2, h3⟩ => ⟨?_, by omega, h3⟩⟩ rfl rfl
      have : k ≠ 64 * g + j0 := fun hk => hact (hk ▸ h3)
      omega

theorem flags_scanWrite (n j0 : Nat) (a : SMap Row × Flags) (b : Nat) :
    (scanWrite op h w d g carry j0 ((List.range' j0 n).map P) a).2.getLsbD b = true ↔ a.2.getLsbD b = true ∨
      (∃ j v, j0 ≤ j ∧ j < j0 + n ∧ P j = some v ∧ v.2.getLsbD b = true) ∨
      (∃ j, j0 ≤ j ∧ j < j0 + n ∧ h.active (64 * g + j) = true ∧ (scanOut op carry (P j)).2.getLsbD b = true) := by
  induction n generalizing j0 a with
  | zero =>
    refine ⟨.inl, fun hex => ?_⟩
    obtain h | ⟨j, v, h1, h2, -⟩ | ⟨j, h1, h2, -⟩ := hex
    · exact h
    · omega
    · omega
  | succ n ih =>
    have hsplit (q : Nat → Prop) : (∃ j, j0 ≤ j ∧ j < j0 + (n + 1) ∧ q j) ↔ q j0 ∨ ∃ j, j0 + 1 ≤ j ∧ j < j0 + 1 + n ∧ q j := by
      refine ⟨fun ⟨j, h1, h2, hq⟩ => ?_, fun hex => ?_⟩
      · by_cases hj : j = j0
        · exact .inl (hj ▸ hq)
        · exact .inr ⟨j, by omega, by omega, hq⟩
      · obtain hq | ⟨j, h1, h2, hq⟩ := hex
        · exact ⟨j0, le_refl _, by omega, hq⟩
        · exact ⟨j, by omega, by omega, hq⟩
    have hswap : (∃ j v, j0 ≤ j ∧ j < j0 + (n + 1) ∧ P j = some v ∧ v.2.getLsbD b = true) ↔
        (∃ v, P j0 = some v ∧ v.2.getLsbD b = true) ∨ ∃ j v, j0 + 1 ≤ j ∧ j < j0 + 1 + n ∧ P j = some v ∧ v.2.getLsbD b = true := by
      simpa only [exists_and_left] using hsplit fun j => ∃ v, P j = some v ∧ v.2.getLsbD b = true
    rw [List.range'_succ, List.map_cons, scanWrite_cons, hswap, hsplit]
    by_cases hact : h.active (64 * g + j0) = true
    · rw [if_pos hact, ih]
      simp only [hact, true_and, BitVec.getLsbD_or, Bool.or_eq_true, getLsbD_flagsOf]
      rw [or_or_or_comm]
      simp only [or_assoc]
    · rw [if_neg hact, ih]
      simp only [hact, false_and, false_or, Bool.false_eq_true, BitVec.getLsbD_or, Bool.or_eq_true, getLsbD_flagsOf, or_assoc]

end

/-! ## The groups of a scan -/

section
variable {s : State} {w : Nat} {a : BitVec 6} (hr : Ready s = true) (init : Nat)

/-- The scanned value of element k in its group, combined with the carry before the group. -/
def scanAcross (s : State) (w : Nat) (a : BitVec 6) (init k : Nat) : FVal :=
  scanOut op (scanCarry op (groupElem s w a) init (k / 64)) (scanAt op (groupElem s w a (k / 64)) 6 (k % 64))

/-- What group g of a scan writes and raises. -/
def scanGroup (s : State) (w : Nat) (a : BitVec 6) (d init g : Nat) (acc : ScanAcc) : ScanAcc :=
  let o := scanWrite op s.hart w d g (scanCarry op (groupElem s w a) init g) 0
    ((List.range' 0 64).map (scanAt op (groupElem s w a g) 6)) (acc.z, acc.fl)
  { z := o.1, carry := scanCarry op (groupElem s w a) init (g + 1), fl := o.2 ||| (scanCarry op (groupElem s w a) init (g + 1)).2 }

include hr in
theorem scanGroups_succ (d g n : Nat) {acc : ScanAcc} (hcarry : acc.carry = scanCarry op (groupElem s w a) init g) :
    scanGroups op s ⟨w, a.toNat, false⟩ d g (n + 1) acc =
      scanGroups op s ⟨w, a.toNat, false⟩ d (g + 1) n (scanGroup op s w a d init g acc) := by
  have hlast : (((List.range' 0 64).map (scanAt op (groupElem s w a g) 6)).getLast?).join = scanAt op (groupElem s w a g) 6 63 := rfl
  rw [scanGroups]
  dsimp only
  rw [scanLevels_eq op (groupOf_eq hr w a g), hlast, hcarry]
  rfl

theorem row_scanGroup (d g : Nat) (acc : ScanAcc) (k : Nat) : SMap.get 0 (scanGroup op s w a d init g acc).z k =
    if k / 64 = g ∧ s.hart.active k = true then putElem (SMap.get 0 acc.z k) w d (scanAcross op s w a init k).1 else SMap.get 0 acc.z k := by
  rw [scanGroup, row_scanWrite]
  by_cases hk : k / 64 = g
  · subst hk
    rw [show k - 64 * (k / 64) = k % 64 by omega, scanAcross]
    exact if_congr ⟨fun h => ⟨rfl, h.2.2⟩, fun h => ⟨by omega, by omega, h.2⟩⟩ rfl rfl
  · rw [if_neg (by omega), if_neg (fun h => hk h.1)]

theorem flags_scanGroup (d g : Nat) (acc : ScanAcc) (b : Nat) : (scanGroup op s w a d init g acc).fl.getLsbD b = true ↔
    acc.fl.getLsbD b = true ∨ (scanCarry op (groupElem s w a) init (g + 1)).2.getLsbD b = true ∨
      (∃ j v, j < 64 ∧ scanAt op (groupElem s w a g) 6 j = some v ∧ v.2.getLsbD b = true) ∨
      (∃ k, k / 64 = g ∧ s.hart.active k = true ∧ (scanAcross op s w a init k).2.getLsbD b = true) := by
  have hout : (∃ j, 0 ≤ j ∧ j < 0 + 64 ∧ s.hart.active (64 * g + j) = true ∧ (scanOut op (scanCarry op (groupElem s w a) init g)
      (scanAt op (groupElem s w a g) 6 j)).2.getLsbD b = true) ↔
      ∃ k, k / 64 = g ∧ s.hart.active k = true ∧ (scanAcross op s w a init k).2.getLsbD b = true := by
    refine ⟨fun ⟨j, h1, h2, hact, hb⟩ => ⟨64 * g + j, by omega, hact, ?_⟩, fun ⟨k, hk, hact, hb⟩ => ⟨k % 64, by omega, by omega, ?_, ?_⟩⟩
    · rwa [scanAcross, show (64 * g + j) / 64 = g by omega, show (64 * g + j) % 64 = j by omega]
    · rwa [← hk, Nat.div_add_mod]
    · rwa [← hk]
  have hpre : (∃ j v, 0 ≤ j ∧ j < 0 + 64 ∧ scanAt op (groupElem s w a g) 6 j = some v ∧ v.2.getLsbD b = true) ↔
      ∃ j v, j < 64 ∧ scanAt op (groupElem s w a g) 6 j = some v ∧ v.2.getLsbD b = true := by
    simp only [Nat.zero_le, true_and, Nat.zero_add]
  rw [scanGroup]
  dsimp only
  rw [BitVec.getLsbD_or, Bool.or_eq_true, flags_scanWrite, hout, hpre, or_assoc, or_comm (b := _ = true)]

include hr in
theorem row_scanGroups (d n g : Nat) {acc : ScanAcc} (hcarry : acc.carry = scanCarry op (groupElem s w a) init g) (k : Nat) :
    SMap.get 0 (scanGroups op s ⟨w, a.toNat, false⟩ d g n acc).z k =
      if g ≤ k / 64 ∧ k / 64 < g + n ∧ s.hart.active k = true then
        putElem (SMap.get 0 acc.z k) w d (scanAcross op s w a init k).1
      else SMap.get 0 acc.z k := by
  induction n generalizing g acc with
  | zero => rw [if_neg (by omega)]; rfl
  | succ n ih =>
    rw [scanGroups_succ op hr init d g n hcarry, ih (g + 1) rfl, row_scanGroup]
    by_cases hk : k / 64 = g
    · rw [if_neg (by omega)]
      exact if_congr ⟨fun h => ⟨by omega, by omega, h.2⟩, fun h => ⟨hk, h.2.2⟩⟩ rfl rfl
    · rw [if_neg (fun h : _ ∧ _ => hk h.1)]
      exact if_congr (and_congr (by omega) (and_congr (by omega) Iff.rfl)) rfl rfl

include hr in
theorem flags_scanGroups (d n g : Nat) {acc : ScanAcc} (hcarry : acc.carry = scanCarry op (groupElem s w a) init g) (b : Nat) :
    (scanGroups op s ⟨w, a.toNat, false⟩ d g n acc).fl.getLsbD b = true ↔ acc.fl.getLsbD b = true ∨
      ∃ m, g ≤ m ∧ m < g + n ∧ ((scanCarry op (groupElem s w a) init (m + 1)).2.getLsbD b = true ∨
        (∃ j v, j < 64 ∧ scanAt op (groupElem s w a m) 6 j = some v ∧ v.2.getLsbD b = true) ∨
        (∃ k, k / 64 = m ∧ s.hart.active k = true ∧ (scanAcross op s w a init k).2.getLsbD b = true)) := by
  induction n generalizing g acc with
  | zero => exact ⟨.inl, fun h => h.elim id fun ⟨m, h1, h2, _⟩ => by omega⟩
  | succ n ih =>
    rw [scanGroups_succ op hr init d g n hcarry, ih (g + 1) rfl, flags_scanGroup, or_assoc]
    refine or_congr Iff.rfl ⟨fun hex => ?_, fun ⟨m, h1, h2, hm⟩ => ?_⟩
    · obtain h | ⟨m, h1, h2, hm⟩ := hex
      · exact ⟨g, le_refl _, by omega, h⟩
      · exact ⟨m, by omega, by omega, hm⟩
    · by_cases hg : m = g
      · exact .inl (hg ▸ hm)
      · exact .inr ⟨m, by omega, by omega, hm⟩

end

end

end Sys2Proof.Proofs
end

section
/-! O48. The instructions of R137 to R142 with a slice destination, on a hart that nothing makes wait. -/

namespace Sys2Proof.Proofs
open Sys2Proof Sys2Proof.Machine Sys2Proof.Spec

/-! ## The new hart of a cross-element instruction -/

theorem anyIn_congr {p q : Nat → Bool} {n : Nat} (h : ∀ j, j < n → p j = q j) : anyIn p 0 n = anyIn q 0 n := by
  rw [Bool.eq_iff_iff, anyIn_iff, anyIn_iff]
  refine exists_congr fun j => and_congr_right fun _ => and_congr_right fun hj => ?_
  rw [h j (by omega)]

theorem lt_len_of_active {h : Hart} {j : Nat} (hj : h.active j = true) : j < h.len := by
  rw [Hart.active, Bool.and_eq_true, decide_eq_true_eq] at hj
  exact hj.1

/-- The hart with the rows z, the tags of the destination where an element was written, and the scalar result and count where given. -/
def crossHart (h : Hart) (w d : Nat) (new : Nat → Option Nat) (z : SMap Row) (e : Option (BitVec 6 × Word)) (count : Option Nat) : Hart :=
  let x := if anyIn (fun j => (new j).isSome) 0 h.len = true then h.touch (slicesOf w d) h.len else h
  let g := { x with z := z, vcount := (match count with | some n => BitVec.ofNat 11 n | none => h.vcount) }
  match e with
  | some (r, v) => g.ws r v
  | none => g

/-- The rows of z are those of h with the new elements written. -/
def Written (h : Hart) (w d : Nat) (new : Nat → Option Nat) (z : SMap Row) : Prop :=
  ∀ j, SMap.get 0 z j = match new j with | some v => putElem (h.row j) w d v | none => h.row j

section
variable (h : Hart) (w d : Nat) (new : Nat → Option Nat) (z : SMap Row) (e : Option (BitVec 6 × Word)) (count : Option Nat)

theorem crossHart_frame : crossHart h w d new z e count =
    let x := if anyIn (fun j => (new j).isSome) 0 h.len = true then h.touch (slicesOf w d) h.len else h
    { h with s := (crossHart h w d new z e count).s, z := z, dirty := x.dirty, vlg := x.vlg
             vcount := (match count with | some n => BitVec.ofNat 11 n | none => h.vcount) } := by
  unfold crossHart
  cases e with
  | none => split <;> rfl
  | some p =>
    dsimp only
    unfold Hart.ws
    split <;> split <;> rfl

theorem rs_crossHart (r : BitVec 6) :
    (crossHart h w d new z e count).rs r = match e with | some (d, v) => if r = d ∧ d ≠ 0 then v else h.rs r | none => h.rs r := by
  unfold crossHart
  cases e with
  | none => split <;> rfl
  | some p =>
    refine (Hart.rs_ws _ p.1 r p.2).trans (if_congr Iff.rfl rfl ?_)
    split <;> rfl

end

theorem crossOutcome_of_hart {s t : State} {w d : Nat} {new : Nat → Option Nat} {z : SMap Row} {e : Option (BitVec 6 × Word)} {count : Option Nat}
    (hframe : OnlyHart s t) (ht : t.hart = (crossHart s.hart w d new z e count).retire) (hz : Written s.hart w d new z) :
    CrossOutcome s t w d new e count := by
  refine ⟨hframe, ?_, ?_, ?_⟩
  · rw [ht, crossHart_frame]
    rfl
  · rw [ht]
    exact rs_crossHart s.hart w d new z e count
  · rw [ht, crossHart_frame]
    exact hz

/-- The outcome of a cross-element instruction whose checks pass and whose new hart is as listed. -/
theorem cross_result {i : Instr} {sh : Shape} {late : BitVec 64} {f : State → Hart} {s : State} {w d : Nat} {new : Nat → Option Nat} {z : SMap Row}
    {e : Option (BitVec 6 × Word)} {count : Option Nat} (hr : Ready s = true) (hs : sh.ok = true)
    (halways : sh.always = false) (hwhole : sh.whole = false) (hf : f s = crossHart s.hart w d new z e count) (hz : Written s.hart w d new z) :
    (s.hart.len ≤ s.hart.eidx.toNat → (crossElement i sh late f s).out = .next (s.setHart s.hart.retire)) ∧
    (s.hart.eidx.toNat < s.hart.len → ∃ t, (crossElement i sh late f s).out = .next t ∧ CrossOutcome s t w d new e count) := by
  obtain ⟨hpast, hgo⟩ := cross_cases (i := i) (late := late) (f := f) hr hs halways hwhole
  refine ⟨hpast, fun hlen => ⟨_, hgo hlen, crossOutcome_of_hart (onlyHart_setHart _ _) ?_ hz⟩⟩
  rw [State.hart_setHart, hf]

/-- The checks R25 and R92 of one source and a destination. -/
theorem shape_ok_of_apart {sh : Shape} {wa wd : Nat} {a d : BitVec 6} (hfits : apart wa a wd d = true) {q : Bool}
    (hsrcs : sh.srcs = [⟨wa, a.toNat, q⟩]) (hdsts : sh.dsts = [⟨wd, d.toNat⟩]) (hmasks : sh.mreads = []) : sh.ok = true := by
  simp only [apart, Bool.and_eq_true, Bool.not_eq_true', beq_iff_eq] at hfits
  obtain ⟨⟨ha, hd⟩, hno⟩ := hfits
  have hdst : dstSlices sh.dsts = slicesOf wd d.toNat := by
    rw [hdsts]
    exact BitVec.zero_or
  simp only [Shape.ok, hdst]
  simp [hsrcs, hdsts, hmasks, ha, hd, hno]

/-! ## Scans (R137) -/

section
variable {i : Instr} {x : ArgsR} {op : State → Nat → Nat → Nat → Nat × Flags} {s : State} (hw : i.wellFormed = true) (hr : Ready s = true)
  (hfits : apart (widthOf x.w) x.a (widthOf x.w) x.d = true)

/-- What a scan comes to: the rows, the carry, the flags. -/
def scanned (s : State) (x : ArgsR) (op : Nat → Nat → Nat × Flags) : ScanAcc :=
  scanGroups op s ⟨widthOf x.w, x.a.toNat, false⟩ x.d.toNat 0 (ceilDiv s.hart.len 64)
    { z := s.hart.z, carry := ((s.hart.rs x.b).toNat % 2 ^ widthOf x.w, 0), fl := 0 }

/-- The elements that a scan writes. -/
def scanNew (s : State) (x : ArgsR) (op : Nat → Nat → Nat × Flags) (j : Nat) : Option Nat :=
  if s.hart.active j then some (scanAcross op s (widthOf x.w) x.a ((s.hart.rs x.b).toNat % 2 ^ widthOf x.w) j).1 else none

include hr in
theorem written_scanned (op : Nat → Nat → Nat × Flags) :
    Written s.hart (widthOf x.w) x.d.toNat (scanNew s x op) (scanned s x op).z := by
  intro j
  have hlen := len_le_groups s.hart.len
  rw [scanned, row_scanGroups op hr ((s.hart.rs x.b).toNat % 2 ^ widthOf x.w) _ _ _ rfl, scanNew]
  by_cases hact : s.hart.active j = true
  · have hj := lt_len_of_active hact
    rw [if_pos ⟨by omega, by omega, hact⟩, if_pos hact]
    rfl
  · rw [if_neg (fun h => hact h.2.2), if_neg hact]
    rfl

theorem anyActive_eq (op : Nat → Nat → Nat × Flags) : s.hart.anyActive = anyIn (fun j => (scanNew s x op j).isSome) 0 s.hart.len := by
  refine anyIn_congr fun j hj => ?_
  rw [scanNew, Hart.active, decide_eq_true hj, Bool.true_and]
  cases s.hart.permits j <;> rfl

include hw hr hfits in
theorem scanLanes_result :
    (s.hart.len ≤ s.hart.eidx.toNat → scanLanes i x op s = .next (s.setHart s.hart.retire)) ∧
    (s.hart.eidx.toNat < s.hart.len → scanLanes i x op s = .next (s.setHart ((crossHart s.hart (widthOf x.w) x.d.toNat
      (scanNew s x (op s (widthOf x.w))) (scanned s x (op s (widthOf x.w))).z none none).orFlags
        (scanned s x (op s (widthOf x.w))).fl).retire)) := by
  obtain ⟨hpast, hgo⟩ := cross_cases (i := i) (late := 0) (s := s)
    (sh := { srcs := [⟨widthOf x.w, x.a.toNat, x.p⟩], dsts := [⟨widthOf x.w, x.d.toNat⟩], reads := [(x.b, x.q)], noOverlap := true
             flags := decide (i = .fscan x) })
    (f := fun s =>
      let h := s.hart
      let r := scanGroups (op s (widthOf x.w)) s ⟨widthOf x.w, x.a.toNat, false⟩ x.d.toNat 0 (ceilDiv h.len 64)
        { z := h.z, carry := ((h.rs x.b).toNat % 2 ^ widthOf x.w, 0), fl := 0 }
      let h1 := if h.anyActive then h.touch (slicesOf (widthOf x.w) x.d.toNat) h.len else h
      { h1 with z := r.z }.orFlags r.fl) hr (shape_ok_of_apart hfits rfl rfl rfl) rfl rfl
  rw [scanLanes, issue_wf _ _ _ hw]
  refine ⟨hpast, fun hlen => (hgo hlen).trans ?_⟩
  rw [crossHart, ← anyActive_eq]
  dsimp only
  congr 3
  split <;> rfl

end

/-! ### FSCAN -/

section
variable {x : ArgsR} {s : State} (hr : Ready s = true) (op : Nat → Nat → Nat × Flags)

theorem join_carry_scanAt (init j : Nat) :
    join op (carryAfter op (groupElem s (widthOf x.w) x.a) init (j / 64)) (scanAt op (groupElem s (widthOf x.w) x.a (j / 64)) 6 (j % 64)) =
      some (scanAcross op s (widthOf x.w) x.a init j) := by
  rw [carryAfter_eq, scanAcross, some_scanOut]

include hr in
/-- The flags of a scan: those of every carry, of every scanned value and of every element written (R137). -/
theorem flags_scanned (b : Nat) :
    let e := groupElem s (widthOf x.w) x.a
    let init := (s.hart.rs x.b).toNat % 2 ^ widthOf x.w
    let n := ceilDiv s.hart.len 64
    (scanned s x op).fl.getLsbD b = true ↔
      (∃ g v, g ≤ n ∧ carryAfter op e init g = some v ∧ v.2.getLsbD b = true) ∨
      (∃ g j v, g < n ∧ j < 64 ∧ scanAt op (e g) 6 j = some v ∧ v.2.getLsbD b = true) ∨
      (∃ j v, s.hart.active j = true ∧ join op (carryAfter op e init (j / 64)) (scanAt op (e (j / 64)) 6 (j % 64)) = some v ∧
        v.2.getLsbD b = true) := by
  intro e init n
  have hzero : ¬ (0 : Flags).getLsbD b = true := by rw [show (0 : Flags).getLsbD b = false from BitVec.getLsbD_zero]; exact Bool.false_ne_true
  rw [scanned, flags_scanGroups op hr init _ _ _ rfl]
  simp only [carryAfter_eq, ← some_scanOut, Option.some.injEq]
  constructor
  · rintro (h | ⟨m, -, hm, h | ⟨j, v, hj, hv, h⟩ | ⟨k, -, hk, h⟩⟩)
    · exact absurd h hzero
    · exact .inl ⟨m + 1, _, by omega, rfl, h⟩
    · exact .inr (.inl ⟨m, j, v, by omega, hj, hv, h⟩)
    · exact .inr (.inr ⟨k, _, hk, rfl, h⟩)
  · rintro (⟨g, v, hg, rfl, h⟩ | ⟨g, j, v, hg, hj, hv, h⟩ | ⟨j, v, hj, rfl, h⟩)
    · cases g with
      | zero => exact absurd h hzero
      | succ m => exact .inr ⟨m, Nat.zero_le m, by omega, .inl h⟩
    · exact .inr ⟨g, Nat.zero_le g, by omega, .inr (.inl ⟨j, v, hj, hv, h⟩)⟩
    · have hlen := lt_len_of_active hj
      have hgroups := len_le_groups s.hart.len
      exact .inr ⟨j / 64, Nat.zero_le _, by omega, .inr (.inr ⟨j, rfl, hj, h⟩)⟩

end

theorem fscan_result {x : ArgsR} {s : State} (hw : (Instr.fscan x).wellFormed = true) (hr : Ready s = true)
    (hfits : apart (widthOf x.w) x.a (widthOf x.w) x.d = true) :
    let c := rctl s.hart.fctl
    let f := fmtOf s.hart.fctl (widthOf x.w)
    let op : Nat → Nat → Nat × Flags := fun a b => addV f c (f.val c a) (f.val c b)
    let e := groupElem s (widthOf x.w) x.a
    let n := ceilDiv s.hart.len 64
    let carry := carryAfter op e ((s.hart.rs x.b).toNat % 2 ^ widthOf x.w)
    let out : Nat → Option (Nat × Flags) := fun j => join op (carry (j / 64)) (scanAt op (e (j / 64)) 6 (j % 64))
    (s.hart.len ≤ s.hart.eidx.toNat → exec (.fscan x) s = .next (s.setHart s.hart.retire)) ∧
    (s.hart.eidx.toNat < s.hart.len → ∃ t, exec (.fscan x) s = .next t ∧
      CrossOutcome s (t.setHart { t.hart with fflags := s.hart.fflags }) (widthOf x.w) x.d.toNat
        (fun j => if s.hart.active j then (out j).map (·.1) else none) none none ∧
      (∀ k, t.hart.fflags.getLsbD k = true ↔ (s.hart.fflags.getLsbD k = true ∨
        (∃ g v, g ≤ n ∧ carry g = some v ∧ v.2.getLsbD k = true) ∨
        (∃ g j v, g < n ∧ j < 64 ∧ scanAt op (e g) 6 j = some v ∧ v.2.getLsbD k = true) ∨
        (∃ j v, s.hart.active j = true ∧ out j = some v ∧ v.2.getLsbD k = true)))) := by
  intro c f op e n carry out
  obtain ⟨hpast, hgo⟩ := scanLanes_result (i := .fscan x) (op := fun s w a b =>
    addV (fmtOf s.hart.fctl w) (rctl s.hart.fctl) ((fmtOf s.hart.fctl w).val (rctl s.hart.fctl) a)
      ((fmtOf s.hart.fctl w).val (rctl s.hart.fctl) b)) hw hr hfits
  have hnew : (fun j => if s.hart.active j then (out j).map (·.1) else none) = scanNew s x op := by
    funext j
    rw [scanNew, show out j = _ from join_carry_scanAt op _ j]
    rfl
  refine ⟨hpast, fun hlen => ⟨_, hgo hlen, ?_, fun k => ?_⟩⟩
  · rw [hnew]
    refine crossOutcome_of_hart (onlyHart_trans (onlyHart_setHart _ _) (onlyHart_setHart _ _)) ?_ (written_scanned hr op)
    rw [State.hart_setHart, State.hart_setHart, crossHart_frame]
    rfl
  · rw [State.hart_setHart, crossHart_frame]
    show (s.hart.fflags ||| (scanned s x op).fl).getLsbD k = true ↔ _
    rw [BitVec.getLsbD_or, Bool.or_eq_true]
    exact or_congr Iff.rfl (flags_scanned hr op k)

/-! ### SCAN -/

/-- The active elements below n, for n up to VL. -/
theorem filter_range_lt {s : State} {n : Nat} (hn : n ≤ s.hart.len) :
    (List.range n).filter s.hart.active = (activeBelow s).filter (· < n) := by
  obtain ⟨k, hk⟩ := Nat.exists_eq_add_of_le hn
  have hhigh : ∀ i ∈ (List.range k).map (n + ·), ¬ (decide (i < n) && s.hart.active i) = true := fun i hi => by
    obtain ⟨m, -, rfl⟩ := List.mem_map.mp hi
    simp
  rw [← filter_range_active s (Nat.le_refl _), hk, List.range_add (n := n), List.filter_filter, List.filter_append,
    List.filter_eq_nil_iff.mpr hhigh, List.append_nil]
  refine (List.filter_congr fun i hi => ?_).symm
  rw [decide_eq_true (List.mem_range.mp hi), Bool.true_and]

theorem filter_range_succ_active {s : State} {j : Nat} (hj : s.hart.active j = true) :
    (List.range (j + 1)).filter s.hart.active = (activeBelow s).filter (· ≤ j) := by
  rw [filter_range_lt (lt_len_of_active hj)]
  simp only [Nat.lt_succ_iff]

section
variable {x : ArgsR} {s : State}

/-- The operation of SCAN on patterns (R137). -/
def addWrap (w : Nat) (a b : Nat) : Nat × Flags := ((a + b) % 2 ^ w, 0)

theorem addWrap_plain {w : Nat} (a b : BitVec w) : addWrap w (plain a).1 (plain b).1 = plain (a + b) := by
  rw [addWrap, plain, plain, plain, BitVec.toNat_add]

/-- Element j as SCAN adds it, where it is active. -/
def scanTerm (s : State) (x : ArgsR) (j : Nat) : Option (BitVec (widthOf x.w)) :=
  if s.hart.active j then some (sliceAt s (widthOf x.w) x.a j) else none

theorem groupElem_eq_scanTerm (g : Nat) :
    groupElem s (widthOf x.w) x.a g = fun j => (scanTerm s x (64 * g + j)).map plain := by
  funext j
  rw [groupElem, scanTerm]
  split <;> rfl

theorem carryAfter_addWrap (n : Nat) : carryAfter (addWrap (widthOf x.w)) (groupElem s (widthOf x.w) x.a)
    ((s.hart.rs x.b).toNat % 2 ^ widthOf x.w) n =
      (Option.merge (· + ·) (some (BitVec.ofNat (widthOf x.w) (s.hart.rs x.b).toNat))
        (mergeAll (· + ·) ((List.range (64 * n)).map (scanTerm s x)))).map plain := by
  have hassoc : Std.Associative fun a b : BitVec (widthOf x.w) => a + b := ⟨BitVec.add_assoc⟩
  have hgroup (g : Nat) : scanAt (addWrap (widthOf x.w)) (groupElem s (widthOf x.w) x.a g) 6 63 =
      (mergeAll (· + ·) ((List.range 64).map fun j => scanTerm s x (64 * g + j))).map plain := by
    rw [groupElem_eq_scanTerm, scanAt_map _ addWrap_plain fun _ => rfl, List.range_eq_range']
    rfl
  have hinit : (some ((s.hart.rs x.b).toNat % 2 ^ widthOf x.w, 0) : Option FVal) =
      (some (BitVec.ofNat (widthOf x.w) (s.hart.rs x.b).toNat)).map plain := by
    rw [Option.map_some, plain, BitVec.toNat_ofNat]
  simp only [carryAfter, hgroup]
  rw [hinit, foldl_join_map _ addWrap_plain fun _ => rfl, foldl_groups]

theorem scanAcross_addWrap {j : Nat} (hj : s.hart.active j = true) :
    scanAcross (addWrap (widthOf x.w)) s (widthOf x.w) x.a ((s.hart.rs x.b).toNat % 2 ^ widthOf x.w) j =
      plain (((activeBelow s).filter (· ≤ j)).foldl (fun acc k => acc + sliceAt s (widthOf x.w) x.a k)
        (BitVec.ofNat (widthOf x.w) (s.hart.rs x.b).toNat)) := by
  have hassoc : Std.Associative fun a b : BitVec (widthOf x.w) => a + b := ⟨BitVec.add_assoc⟩
  have hprefix : scanAt (addWrap (widthOf x.w)) (groupElem s (widthOf x.w) x.a (j / 64)) 6 (j % 64) =
      (mergeAll (· + ·) ((List.range (j % 64 + 1)).map fun k => scanTerm s x (64 * (j / 64) + k))).map plain := by
    rw [groupElem_eq_scanTerm, scanAt_map _ addWrap_plain fun _ => rfl, show j % 64 + 1 - 2 ^ 6 = 0 by omega,
      show min (2 ^ 6) (j % 64 + 1) = j % 64 + 1 by omega, List.range_eq_range']
  have h := join_carry_scanAt (x := x) (s := s) (addWrap (widthOf x.w)) ((s.hart.rs x.b).toNat % 2 ^ widthOf x.w) j
  rw [carryAfter_addWrap, hprefix, join_map _ addWrap_plain fun _ => rfl, Std.Associative.assoc (op := Option.merge _), ← mergeAll_map_range_add,
    show 64 * (j / 64) + (j % 64 + 1) = j + 1 by omega,
      show scanTerm s x = fun k => if s.hart.active k then some (sliceAt s (widthOf x.w) x.a k) else none from rfl,
    merge_filter, filter_range_succ_active hj] at h
  exact (Option.some.inj h).symm

theorem flags_of_plain {m : Nat} {p : Option FVal} {y : Option (BitVec m)} (hp : p = y.map plain) {v : FVal} (hv : p = some v) : v.2 = 0 := by
  subst hp
  obtain ⟨u, -, rfl⟩ := Option.map_eq_some_iff.mp hv
  rfl

theorem flags_scanned_addWrap (hr : Ready s = true) : (scanned s x (addWrap (widthOf x.w))).fl = 0 := by
  have hassoc : Std.Associative fun a b : BitVec (widthOf x.w) => a + b := ⟨BitVec.add_assoc⟩
  have hscan (g j : Nat) := (congrArg (fun e => scanAt (addWrap (widthOf x.w)) e 6 j) (groupElem_eq_scanTerm (s := s) (x := x) g)).trans
    (scanAt_map _ addWrap_plain (fun _ => rfl) _ 6 j)
  have hbit {v : FVal} {b : Nat} (h : v.2 = 0) : ¬ v.2.getLsbD b = true := by
    rw [h, show (0 : Flags).getLsbD b = false from BitVec.getLsbD_zero]
    exact Bool.false_ne_true
  refine BitVec.eq_of_getLsbD_eq fun b _ => (Bool.eq_false_iff.mpr fun hb => ?_).trans BitVec.getLsbD_zero.symm
  obtain ⟨g, v, -, hv, h⟩ | ⟨g, j, v, -, -, hv, h⟩ | ⟨j, v, -, hv, h⟩ := (flags_scanned hr (addWrap (widthOf x.w)) b).mp hb
  · exact hbit (flags_of_plain (carryAfter_addWrap g) hv) h
  · exact hbit (flags_of_plain (hscan g j) hv) h
  · rw [carryAfter_addWrap, hscan, join_map _ addWrap_plain fun _ => rfl] at hv
    exact hbit (flags_of_plain rfl hv) h

end

/-- SCAN (R137): each active element holds the sum of s[b] and the active elements up to it. -/
theorem scan_result {x : ArgsR} {s : State} (hw : (Instr.scan x).wellFormed = true) (hr : Ready s = true)
    (hfits : apart (widthOf x.w) x.a (widthOf x.w) x.d = true) :
    (s.hart.len ≤ s.hart.eidx.toNat → exec (.scan x) s = .next (s.setHart s.hart.retire)) ∧
    (s.hart.eidx.toNat < s.hart.len → ∃ t, exec (.scan x) s = .next t ∧ CrossOutcome s t (widthOf x.w) x.d.toNat (fun j =>
      if s.hart.active j then some (((activeBelow s).filter (· ≤ j)).foldl (fun acc k => acc + sliceAt s (widthOf x.w) x.a k)
        (BitVec.ofNat (widthOf x.w) (s.hart.rs x.b).toNat)).toNat else none) none none) := by
  obtain ⟨hpast, hgo⟩ := scanLanes_result (i := .scan x) (op := fun _ w => addWrap w) hw hr hfits
  have hnew : (fun j => if s.hart.active j then some (((activeBelow s).filter (· ≤ j)).foldl
      (fun acc k => acc + sliceAt s (widthOf x.w) x.a k) (BitVec.ofNat (widthOf x.w) (s.hart.rs x.b).toNat)).toNat else none) =
      scanNew s x (addWrap (widthOf x.w)) := by
    funext j
    rw [scanNew]
    split
    · next hj => rw [scanAcross_addWrap hj]; rfl
    · rfl
  refine ⟨hpast, fun hlen => ⟨_, hgo hlen, ?_⟩⟩
  rw [hnew]
  refine crossOutcome_of_hart (onlyHart_setHart _ _) ?_ (written_scanned hr _)
  rw [State.hart_setHart, flags_scanned_addWrap hr, Hart.orFlags, show ∀ f : Flags, f ||| 0 = f from fun f => BitVec.or_zero]

end Sys2Proof.Proofs
end

section
/-! O48. Packing, indices, slides and permutations (R138 to R142), and the statement. -/

namespace Sys2Proof.Proofs
open Sys2Proof Sys2Proof.Machine Sys2Proof.Spec

/-! ## Writing what an option gives -/

/-- A row with an element written, where one is given. -/
def putOption (r : Row) (w d : Nat) (v : Option Nat) : Row := match v with | some v => putElem r w d v | none => r

/-- An element is a number modulo 2^w. -/
theorem putElem_congr (r : Row) {w d a b : Nat} (h : a % 2 ^ w = b % 2 ^ w) : putElem r w d a = putElem r w d b := by
  rw [putElem, putElem, h]

/-! ## Packing (R138, R139) -/

section
variable {w d : Nat} {keep : Nat → Bool} {val : Nat → Nat}

theorem count_packLoop (n i : Nat) (a : SMap Row × Nat) :
    (packLoop w d keep val i n a).2 = a.2 + ((List.range' i n).filter keep).length := by
  induction n generalizing i a with
  | zero => rfl
  | succ n ih =>
    rw [packLoop, ih, List.range'_succ, List.filter_cons]
    cases keep i
    · rfl
    · exact (Nat.add_right_comm _ _ _).trans (Nat.add_assoc _ _ _)

/-- The elements that are kept, packed from the position reached. -/
theorem row_packLoop (n i : Nat) (a : SMap Row × Nat) (k : Nat) : SMap.get 0 (packLoop w d keep val i n a).1 k =
    putOption (SMap.get 0 a.1 k) w d (if a.2 ≤ k then (((List.range' i n).filter keep)[k - a.2]?).map val else none) := by
  induction n generalizing i a with
  | zero => simp [packLoop, putOption]
  | succ n ih =>
    rw [packLoop, ih, List.range'_succ, List.filter_cons]
    by_cases hkeep : keep i = true
    · simp only [hkeep, ↓reduceIte]
      by_cases hk : k = a.2
      · subst hk
        rw [if_neg (by omega), if_pos (le_refl _), Nat.sub_self, SMap.get_set_same]
        rfl
      · rw [SMap.get_set_other _ _ _ hk]
        by_cases hle : a.2 ≤ k
        · rw [if_pos (by omega), if_pos hle, show k - a.2 = k - (a.2 + 1) + 1 by omega, List.getElem?_cons_succ]
        · rw [if_neg (by omega), if_neg hle]
    · simp only [hkeep, Bool.false_eq_true, ↓reduceIte]

theorem count_expandLoop (n i : Nat) (a : SMap Row × Nat) :
    (expandLoop w d keep val i n a).2 = a.2 + ((List.range' i n).filter keep).length := by
  induction n generalizing i a with
  | zero => rfl
  | succ n ih =>
    rw [expandLoop, ih, List.range'_succ, List.filter_cons]
    cases keep i
    · rfl
    · exact (Nat.add_right_comm _ _ _).trans (Nat.add_assoc _ _ _)

/-- Each element that is kept takes the packed one of its place among them. -/
theorem row_expandLoop (n i : Nat) (a : SMap Row × Nat) (k : Nat) : SMap.get 0 (expandLoop w d keep val i n a).1 k =
    putOption (SMap.get 0 a.1 k) w d
      (if i ≤ k ∧ k < i + n ∧ keep k = true then some (val (a.2 + ((List.range' i (k - i)).filter keep).length)) else none) := by
  induction n generalizing i a with
  | zero => rw [if_neg (by omega)]; rfl
  | succ n ih =>
    have hstep (hk : i + 1 ≤ k) : List.range' i (k - i) = i :: List.range' (i + 1) (k - (i + 1)) := by
      rw [show k - i = k - (i + 1) + 1 by omega, List.range'_succ]
    rw [expandLoop, ih]
    by_cases hkeep : keep i = true
    · simp only [hkeep, ↓reduceIte]
      by_cases hk : k = i
      · subst hk
        rw [if_neg (by omega), if_pos ⟨le_refl _, by omega, hkeep⟩, Nat.sub_self, SMap.get_set_same]
        rfl
      · rw [SMap.get_set_other _ _ _ hk]
        by_cases hin : i ≤ k ∧ k < i + (n + 1) ∧ keep k = true
        · rw [if_pos ⟨by omega, by omega, hin.2.2⟩, if_pos hin, hstep (by omega), List.filter_cons, if_pos hkeep, List.length_cons,
            Nat.add_right_comm, Nat.add_assoc]
        · rw [if_neg (fun h => hin ⟨by omega, by omega, h.2.2⟩), if_neg hin]
    · simp only [hkeep, Bool.false_eq_true, ↓reduceIte]
      by_cases hin : i ≤ k ∧ k < i + (n + 1) ∧ keep k = true
      · have hk : k ≠ i := fun h => hkeep (h ▸ hin.2.2)
        rw [if_pos ⟨by omega, by omega, hin.2.2⟩, if_pos hin, hstep (by omega), List.filter_cons, if_neg hkeep]
      · rw [if_neg (fun h => hin ⟨by omega, by omega, h.2.2⟩), if_neg hin]

end

/-- A packed hart: its rows, the tags where an element was packed, and the count. -/
theorem packed_eq_crossHart {h : Hart} {w d : Nat} {r : SMap Row × Nat} {new : Nat → Option Nat}
    (hnew : anyIn (fun j => (new j).isSome) 0 h.len = true ↔ r.2 ≠ 0) : packed h w d r = crossHart h w d new r.1 none (some r.2) := by
  have htags : (if r.2 = 0 then h else h.touch (slicesOf w d) h.len) =
      if anyIn (fun j => (new j).isSome) 0 h.len = true then h.touch (slicesOf w d) h.len else h := by
    rw [if_congr hnew rfl rfl, ite_not]
  rw [packed, htags]
  rfl

theorem length_activeBelow_le (s : State) : (activeBelow s).length ≤ s.hart.len :=
  (List.length_filter_le _ _).trans List.length_range.le

theorem anyIn_getElem?_iff {α : Type} {l : List α} {n : Nat} (hn : l.length ≤ n) :
    anyIn (fun j => (l[j]?).isSome) 0 n = true ↔ l.length ≠ 0 := by
  rw [anyIn_iff]
  constructor
  · rintro ⟨j, -, -, hj⟩ h0
    rw [List.length_eq_zero_iff.mp h0] at hj
    exact absurd hj Bool.false_ne_true
  · intro h0
    refine ⟨0, le_refl _, by omega, ?_⟩
    rw [List.getElem?_eq_getElem (by omega)]
    rfl

theorem filter_range_permits {s : State} {n : Nat} (hn : n ≤ s.hart.len) :
    (List.range n).filter s.hart.permits = (activeBelow s).filter (· < n) := by
  rw [← filter_range_lt hn]
  refine List.filter_congr fun i hi => ?_
  rw [Hart.active, decide_eq_true (Nat.lt_of_lt_of_le (List.mem_range.mp hi) hn), Bool.true_and]

/-- Some element is active where the list of them is not empty. -/
theorem anyIn_active_iff {s : State} {new : Nat → Option Nat} (hnew : ∀ j, (new j).isSome = s.hart.active j) :
    anyIn (fun j => (new j).isSome) 0 s.hart.len = true ↔ (activeBelow s).length ≠ 0 := by
  simp only [hnew, anyIn_iff, ne_eq, List.length_eq_zero_iff, activeBelow, List.filter_eq_nil_iff, not_forall, not_not, List.mem_range]
  refine exists_congr fun j => ?_
  rw [Hart.active, Bool.and_eq_true, decide_eq_true_eq]
  constructor
  · exact fun ⟨_, _, h, hp⟩ => ⟨h, hp⟩
  · exact fun ⟨h, hp⟩ => ⟨Nat.zero_le j, by omega, h, hp⟩

section
variable {s : State} (hr : Ready s = true)
include hr

theorem readV_eq (w : Nat) (a : BitVec 6) : readV s ⟨w, a.toNat, false⟩ = fun j => (sliceAt s w a j).toNat := funext (readV_ready hr w a)

theorem compress_result {x : ArgsP} (hw : (Instr.compress x).wellFormed = true) (hfits : apart (widthOf x.w) x.a (widthOf x.w) x.d = true) :
    (s.hart.len ≤ s.hart.eidx.toNat → execCompress x s = .next (s.setHart s.hart.retire)) ∧
    (s.hart.eidx.toNat < s.hart.len → ∃ t, execCompress x s = .next t ∧ CrossOutcome s t (widthOf x.w) x.d.toNat
      (fun c => ((activeBelow s)[c]?).map fun j => (sliceAt s (widthOf x.w) x.a j).toNat) none (some (activeBelow s).length)) := by
  have hcount := count_packLoop (w := widthOf x.w) (d := x.d.toNat) (keep := s.hart.permits) (val := readV s ⟨widthOf x.w, x.a.toNat, false⟩)
    s.hart.len 0 (s.hart.z, 0)
  rw [← List.range_eq_range', Nat.zero_add, show (List.range s.hart.len).filter s.hart.permits = activeBelow s from rfl] at hcount
  rw [execCompress, issue_wf _ _ _ hw]
  refine cross_result hr (shape_ok_of_apart hfits rfl rfl rfl) rfl rfl ((packed_eq_crossHart ?_).trans (by rw [hcount])) ?_
  · rw [hcount]
    simpa only [Option.isSome_map] using anyIn_getElem?_iff (length_activeBelow_le s)
  · intro k
    rw [row_packLoop, ← List.range_eq_range', if_pos (Nat.zero_le k), Nat.sub_zero, readV_eq hr]
    rfl

theorem nzscan_result {x : ArgsN} (hw : (Instr.nzscan x).wellFormed = true) (hfits : apart (widthOf x.w) x.a 16 x.d = true) :
    let l := (activeBelow s).filter fun j => sliceAt s (widthOf x.w) x.a j != 0
    (s.hart.len ≤ s.hart.eidx.toNat → execNzscan x s = .next (s.setHart s.hart.retire)) ∧
    (s.hart.eidx.toNat < s.hart.len → ∃ t, execNzscan x s = .next t ∧ CrossOutcome s t 16 x.d.toNat
      (fun c => l[c]?) (some (x.b, BitVec.ofNat 64 l.length)) (some l.length)) := by
  intro l
  have hl : (List.range s.hart.len).filter (fun i => s.hart.permits i && readV s ⟨widthOf x.w, x.a.toNat, false⟩ i != 0) = l := by
    rw [show l = _ from List.filter_filter ..]
    refine List.filter_congr fun i _ => ?_
    rw [readV_ready hr, Bool.and_comm, Bool.eq_iff_iff]
    simp [BitVec.toNat_eq]
  have hcount := count_packLoop (w := 16) (d := x.d.toNat) (keep := fun i => s.hart.permits i && readV s ⟨widthOf x.w, x.a.toNat, false⟩ i != 0)
    (val := fun i => i) s.hart.len 0 (s.hart.z, 0)
  rw [← List.range_eq_range', hl, Nat.zero_add] at hcount
  have hle : l.length ≤ s.hart.len := (List.length_filter_le _ _).trans (length_activeBelow_le s)
  rw [execNzscan, issue_wf _ _ _ hw]
  refine cross_result hr (shape_ok_of_apart hfits rfl rfl rfl) rfl rfl (z := (packLoop 16 x.d.toNat
    (fun i => s.hart.permits i && readV s ⟨widthOf x.w, x.a.toNat, false⟩ i != 0) (fun i => i) 0 s.hart.len (s.hart.z, 0)).1) ?_ ?_
  · dsimp only
    rw [packed_eq_crossHart (new := fun c => l[c]?), hcount]
    · rfl
    · rw [hcount]
      exact anyIn_getElem?_iff hle
  · intro k
    rw [row_packLoop, ← List.range_eq_range', hl, if_pos (Nat.zero_le k), Nat.sub_zero, Option.map_id']
    rfl

theorem expand_result {x : ArgsP} (hw : (Instr.expand x).wellFormed = true) (hfits : apart (widthOf x.w) x.a (widthOf x.w) x.d = true) :
    (s.hart.len ≤ s.hart.eidx.toNat → execExpand x s = .next (s.setHart s.hart.retire)) ∧
    (s.hart.eidx.toNat < s.hart.len → ∃ t, execExpand x s = .next t ∧ CrossOutcome s t (widthOf x.w) x.d.toNat
      (fun j => if s.hart.active j then some (sliceAt s (widthOf x.w) x.a ((activeBelow s).filter (· < j)).length).toNat else none)
      none (some (activeBelow s).length)) := by
  have hcount := count_expandLoop (w := widthOf x.w) (d := x.d.toNat) (keep := s.hart.permits) (val := readV s ⟨widthOf x.w, x.a.toNat, false⟩)
    s.hart.len 0 (s.hart.z, 0)
  rw [← List.range_eq_range', Nat.zero_add, show (List.range s.hart.len).filter s.hart.permits = activeBelow s from rfl] at hcount
  rw [execExpand, issue_wf _ _ _ hw]
  refine cross_result hr (shape_ok_of_apart hfits rfl rfl rfl) rfl rfl ((packed_eq_crossHart ?_).trans (by rw [hcount])) ?_
  · rw [hcount]
    refine anyIn_active_iff fun j => ?_
    cases s.hart.active j <;> rfl
  · intro k
    rw [row_expandLoop, readV_eq hr]
    show putOption _ _ _ _ = putOption _ _ _ _
    congr 1
    dsimp only
    by_cases hact : s.hart.active k = true
    · have hk := lt_len_of_active hact
      have hpermits : s.hart.permits k = true := by rwa [Hart.active, decide_eq_true hk, Bool.true_and] at hact
      rw [if_pos ⟨Nat.zero_le k, by omega, hpermits⟩, if_pos hact, Nat.sub_zero, ← List.range_eq_range', filter_range_permits hk.le, Nat.zero_add]
    · rw [if_neg hact, if_neg]
      rintro ⟨-, hk, hp⟩
      rw [Hart.active, decide_eq_true (by omega), hp] at hact
      exact hact rfl

/-! ## Writing every active element that has a value (R140 to R142) -/

theorem fillActive_result {i : Instr} {sh : Shape} {w d : Nat} {val : State → Nat → Option Nat} {new : Nat → Option Nat} (hs : sh.ok = true)
    (halways : sh.always = false) (hwhole : sh.whole = false)
    (hnew : ∀ j, j < s.hart.len → ∀ r, putOption r w d (new j) = if s.hart.permits j then putOption r w d (val s j) else r)
    (hsome : ∀ j, j < s.hart.len → (new j).isSome = (s.hart.permits j && (val s j).isSome)) (hlen : ∀ j, s.hart.len ≤ j → new j = none) :
    (s.hart.len ≤ s.hart.eidx.toNat → (crossElement i sh 0 (fun s => fillActive s.hart w d (val s)) s).out = .next (s.setHart s.hart.retire)) ∧
    (s.hart.eidx.toNat < s.hart.len → ∃ t, (crossElement i sh 0 (fun s => fillActive s.hart w d (val s)) s).out = .next t ∧
      CrossOutcome s t w d new none none) := by
  refine cross_result hr hs halways hwhole (z := SMap.mapRange 0 (fun i r => if s.hart.permits i then putOption r w d (val s i) else r)
    0 s.hart.len s.hart.z) ?_ fun k => ?_
  · rw [crossHart, anyIn_congr hsome, fillActive]
    split <;> rfl
  · rw [get_mapRange]
    show _ = putOption _ _ _ _
    by_cases hk : k < s.hart.len
    · rw [if_pos (by omega), hnew k hk]
      rfl
    · rw [if_neg (by omega), hlen k (by omega)]
      rfl

/-- A listed element that is active has its value, every other has none. -/
theorem fillActive_total {i : Instr} {sh : Shape} {w d : Nat} {val : State → Nat → Nat} {v : Nat → Nat} (hs : sh.ok = true)
    (halways : sh.always = false) (hwhole : sh.whole = false) (hv : ∀ j r, putElem r w d (v j) = putElem r w d (val s j)) :
    (s.hart.len ≤ s.hart.eidx.toNat →
      (crossElement i sh 0 (fun s => fillActive s.hart w d fun j => some (val s j)) s).out = .next (s.setHart s.hart.retire)) ∧
    (s.hart.eidx.toNat < s.hart.len → ∃ t, (crossElement i sh 0 (fun s => fillActive s.hart w d fun j => some (val s j)) s).out = .next t ∧
      CrossOutcome s t w d (fun j => if s.hart.active j then some (v j) else none) none none) := by
  refine fillActive_result hr hs halways hwhole (fun j hj r => ?_) (fun j hj => ?_) fun j hj => ?_
  · rw [Hart.active, decide_eq_true hj, Bool.true_and]
    split
    · exact hv j r
    · rfl
  · rw [Hart.active, decide_eq_true hj, Bool.true_and]
    cases s.hart.permits j <;> rfl
  · rw [Hart.active, decide_eq_false (by omega), Bool.false_and]
    rfl

theorem iota_result {x : ArgsM} (hw : (Instr.iota x).wellFormed = true) (hfits : overruns (widthOf x.w) x.d.toNat = false) :
    (s.hart.len ≤ s.hart.eidx.toNat → execIota x s = .next (s.setHart s.hart.retire)) ∧
    (s.hart.eidx.toNat < s.hart.len → ∃ t, execIota x s = .next t ∧ CrossOutcome s t (widthOf x.w) x.d.toNat
      (fun j => if s.hart.active j then
        some ((if x.f = 1 then s.hart.rs x.b else x.b.signExtend 64) + BitVec.ofNat 64 j).toNat else none) none none) := by
  have hwidth : 2 ^ widthOf x.w ∣ 2 ^ 64 := by
    simp only [Instr.wellFormed, isFloat, Bool.and_eq_true, decide_eq_true_eq] at hw
    exact Nat.pow_dvd_pow 2 (Nat.pow_le_pow_right (n := 2) (by decide) (show x.w.toNat + 1 ≤ 6 by omega))
  rw [execIota, issue_wf _ _ _ hw]
  refine fillActive_total hr (by simp [Shape.ok, hfits]) rfl rfl fun j r => putElem_congr r ?_
  have hb : (if x.f = 1 then s.hart.rs x.b else x.b.signExtend 64).toNat = if x.f = 1 then (s.hart.rs x.b).toNat else wrap (imm6 x.b) 64 := by
    rw [wrap_eq]
    split <;> rfl
  rw [BitVec.toNat_add, BitVec.toNat_ofNat, Nat.add_mod_mod, hb, Nat.mod_mod_of_dvd _ hwidth, Nat.mod_mod]

theorem slideup_result {x : ArgsA} (hw : (Instr.slideup x).wellFormed = true) (hfits : apart (widthOf x.w) x.a (widthOf x.w) x.d = true) :
    (s.hart.len ≤ s.hart.eidx.toNat → execSlideup x s = .next (s.setHart s.hart.retire)) ∧
    (s.hart.eidx.toNat < s.hart.len → ∃ t, execSlideup x s = .next t ∧ CrossOutcome s t (widthOf x.w) x.d.toNat
      (fun j =>
        let k := if x.f = 1 then (s.hart.rs x.b).toNat else x.b.toNat
        if s.hart.active j = true ∧ k ≤ j then some (sliceAt s (widthOf x.w) x.a (j - k)).toNat else none) none none) := by
  rw [execSlideup, slideLanes, issue_wf _ _ _ hw]
  refine fillActive_result hr (shape_ok_of_apart hfits rfl rfl rfl) rfl rfl (fun j hj r => ?_) (fun j hj => ?_) fun j hj => ?_
  · rw [readV_eq hr, Hart.active, decide_eq_true hj, Bool.true_and]
    cases s.hart.permits j with
    | false => rfl
    | true => simp [slideBy]
  · rw [Hart.active, decide_eq_true hj, Bool.true_and]
    cases s.hart.permits j with
    | false => rfl
    | true => simp [slideBy, apply_ite Option.isSome]
  · dsimp only
    rw [Hart.active, decide_eq_false (by omega), Bool.false_and, if_neg (fun h => Bool.false_ne_true h.1)]

theorem slidedn_result {x : ArgsA} (hw : (Instr.slidedn x).wellFormed = true) (hfits : apart (widthOf x.w) x.a (widthOf x.w) x.d = true) :
    (s.hart.len ≤ s.hart.eidx.toNat → execSlidedn x s = .next (s.setHart s.hart.retire)) ∧
    (s.hart.eidx.toNat < s.hart.len → ∃ t, execSlidedn x s = .next t ∧ CrossOutcome s t (widthOf x.w) x.d.toNat
      (fun j =>
        let k := if x.f = 1 then (s.hart.rs x.b).toNat else x.b.toNat
        if s.hart.active j then some (if j + k < s.hart.len then (sliceAt s (widthOf x.w) x.a (j + k)).toNat else 0) else none) none none) := by
  rw [execSlidedn, slideLanes, issue_wf _ _ _ hw]
  refine fillActive_total hr (shape_ok_of_apart hfits rfl rfl rfl) rfl rfl fun j r => ?_
  rw [readV_ready hr]
  rfl

theorem perm_result {x : ArgsR} (hw : (Instr.perm x).wellFormed = true)
    (hfits : (apart (widthOf x.w) x.a (widthOf x.w) x.d && apart (widthOf x.w) x.b (widthOf x.w) x.d) = true) :
    (s.hart.len ≤ s.hart.eidx.toNat → execPerm x s = .next (s.setHart s.hart.retire)) ∧
    (s.hart.eidx.toNat < s.hart.len → ∃ t, execPerm x s = .next t ∧ CrossOutcome s t (widthOf x.w) x.d.toNat
      (fun j =>
        let n := (sliceAt s (widthOf x.w) x.b j).toNat
        if s.hart.active j then some (if n < s.hart.len then (sliceAt s (widthOf x.w) x.a n).toNat else 0) else none) none none) := by
  have hok : ({ srcs := [⟨widthOf x.w, x.a.toNat, x.p⟩, ⟨widthOf x.w, x.b.toNat, x.q⟩], dsts := [⟨widthOf x.w, x.d.toNat⟩], noOverlap := true
                spreads := true, looks := true } : Shape).ok = true := by
    have hdst : dstSlices [⟨widthOf x.w, x.d.toNat⟩] = slicesOf (widthOf x.w) x.d.toNat := BitVec.zero_or
    simp only [apart, Bool.and_eq_true, Bool.not_eq_true', beq_iff_eq] at hfits
    simp [Shape.ok, hdst, hfits]
  rw [execPerm, issue_wf _ _ _ hw]
  refine fillActive_total hr hok rfl rfl fun j r => ?_
  rw [readV_eq hr, readV_eq hr]

end

/-! ## The statement -/

theorem crossElementResult : Spec.CrossElementResult := by
  intro i r s hrow hw hfits hr
  cases i with
  | scan x =>
    obtain rfl := Option.some.inj hrow
    exact scan_result hw hr hfits
  | compress x =>
    obtain rfl := Option.some.inj hrow
    exact compress_result hr hw hfits
  | expand x =>
    obtain rfl := Option.some.inj hrow
    exact expand_result hr hw hfits
  | nzscan x =>
    obtain rfl := Option.some.inj hrow
    exact nzscan_result hr hw hfits
  | iota x =>
    obtain rfl := Option.some.inj hrow
    exact iota_result hr hw (by simpa using hfits)
  | slideup x =>
    obtain rfl := Option.some.inj hrow
    exact slideup_result hr hw hfits
  | slidedn x =>
    obtain rfl := Option.some.inj hrow
    exact slidedn_result hr hw hfits
  | perm x =>
    obtain rfl := Option.some.inj hrow
    exact perm_result hr hw hfits
  | _ => exact nomatch hrow

theorem floatCrossResult : Spec.FloatCrossResult := by
  refine ⟨fun x s i op hi hw hr => ?_, fun x s hw hr => fscan_result hw hr⟩
  obtain ⟨rfl, rfl⟩ | ⟨rfl, rfl⟩ | ⟨rfl, rfl⟩ := hi
  · exact floatReduction_result (i := .frsum x) (op := addV) hw hr
  · exact floatReduction_result (i := .frmin x) (op := fun t c a b => minMaxV t c false a b) hw hr
  · exact floatReduction_result (i := .frmax x) (op := fun t c a b => minMaxV t c true a b) hw hr

/-- Settles O48: the rows by the equation of each instruction, the float reductions by `reduction_result`, FSCAN by `fscan_result`. -/
theorem crossResult : Obligations.CrossResult := ⟨crossElementResult, floatCrossResult⟩

end Sys2Proof.Proofs
end

section
/-! Rounding (R116, R117, R119, R120): what `roundAt` does to a real magnitude, and `rnd` as RND of one. A magnitude is given by m and e, exactly or,
with `sticky`, as a real strictly between m × 2^e and (m + 1) × 2^e. -/

namespace Sys2Proof.Proofs
open Sys2Proof Sys2Proof.Machine Sys2Proof.Spec

/-- r.1 is the real y ≥ 0 rounded to an integer under the mode, and r.2 says that it is inexact. -/
def RoundedInt (rm : BitVec 2) (neg : Bool) (y : ℝ) (r : Nat × Bool) : Prop :=
  ∃ n : Nat, (n : ℝ) ≤ y ∧ y < n + 1 ∧ (r.1 = n ∨ r.1 = n + 1) ∧ (r.2 = true ↔ y ≠ n) ∧ (y = n → r.1 = n) ∧
    (y ≠ n →
      (rm = 0 → (r.1 = n → y - n ≤ 1 / 2) ∧ (r.1 = n + 1 → 1 / 2 ≤ y - n) ∧ (y - n = 1 / 2 → r.1 % 2 = 0)) ∧
      (rm ≠ 0 → (r.1 = n + 1 ↔ away rm neg)))

/-- m, e and `sticky` stand for the real magnitude x. -/
def Denotes (m : Nat) (e : Int) (sticky : Bool) (x : ℝ) : Prop :=
  ∃ θ : ℝ, 0 ≤ θ ∧ θ < 1 ∧ (θ = 0 ↔ sticky = false) ∧ x = (m + θ) * 2 ^ e

/-! ## `roundAt` -/

section
variable {rm : BitVec 2} {neg : Bool} {y : ℝ}

theorem roundedInt_nat (n : Nat) : RoundedInt rm neg n (n, false) :=
  ⟨n, le_rfl, by linarith, .inl rfl, by simp, fun _ => rfl, fun h => absurd rfl h⟩

/-- When a real with floor n goes up (R119). -/
def RoundsUp (rm : BitVec 2) (neg : Bool) (n : Nat) (y : ℝ) : Prop :=
  if rm = 0 then 1 / 2 < y - n ∨ (y - n = 1 / 2 ∧ n % 2 = 1) else away rm neg ∧ y ≠ n

theorem roundedInt_of_up {n : Nat} {up : Prop} [Decidable up] {inexact : Bool} (h0 : (n : ℝ) ≤ y) (h1 : y < n + 1)
    (hup : up ↔ RoundsUp rm neg n y) (hne : inexact = true ↔ y ≠ n) : RoundedInt rm neg y (if up then n + 1 else n, inexact) := by
  refine ⟨n, h0, h1, ?_, hne, fun hy => if_neg ?_, fun hy => ⟨fun hrm => ?_, fun hrm => ?_⟩⟩
  · exact (ite_eq_or_eq up (n + 1) n).symm
  · rw [hup, RoundsUp, hy, sub_self]
    split
    · norm_num
    · exact fun h => h.2 rfl
  · rw [RoundsUp, if_pos hrm] at hup
    split
    case isTrue h =>
      refine ⟨fun h' => absurd h' (Nat.succ_ne_self n), fun _ => (hup.mp h).elim le_of_lt fun h => h.1.ge, fun h' => ?_⟩
      have := (hup.mp h).resolve_left (not_lt.mpr h'.le)
      dsimp only
      omega
    case isFalse h =>
      rw [hup] at h
      refine ⟨fun _ => not_lt.mp fun h' => h (.inl h'), fun h' => absurd h' (Nat.succ_ne_self n).symm, fun h' => ?_⟩
      exact Nat.mod_two_ne_one.mp fun hodd => h (.inr ⟨h', hodd⟩)
  · rw [RoundsUp, if_neg hrm] at hup
    split
    case isTrue h => exact iff_of_true rfl (hup.mp h).1
    case isFalse h => exact iff_of_false (Nat.succ_ne_self n).symm fun h' => h (hup.mpr ⟨h', hy⟩)

/-- A natural against one with a part below 1. -/
theorem compare_lost {h u : Nat} {θ : ℝ} (h0 : 0 ≤ θ) (h1 : θ < 1) :
    ((h : ℝ) < u + θ ↔ h < u ∨ (u = h ∧ θ ≠ 0)) ∧ ((u + θ = h) ↔ u = h ∧ θ = 0) := by
  obtain hlt | rfl | hgt := lt_trichotomy u h
  · have : (u : ℝ) + 1 ≤ h := by exact_mod_cast hlt
    exact ⟨iff_of_false (by linarith) (by omega), iff_of_false (by linarith) (by omega)⟩
  · simp [h0.lt_iff_ne']
  · have : (h : ℝ) + 1 ≤ u := by exact_mod_cast hgt
    exact ⟨iff_of_true (by linarith) (.inl hgt), iff_of_false (by linarith) (by omega)⟩

theorem mode_of_ne_zero : ∀ rm : BitVec 2, rm ≠ 0 → rm = 1 ∨ rm = 2 ∨ rm = 3 := by decide

/-- A step of 2^d splits into halves where d is not 0, so that what is lost below one unit cannot reach the half. -/
theorem roundAt_lost {m : Nat} {e q : Int} {sticky : Bool} (hqe : e < q) {θ : ℝ} (h0 : 0 ≤ θ) (h1 : θ < 1) (hθ : θ = 0 ↔ sticky = false)
    (hy : y * (2 ^ (q - e).toNat : Nat) = m + θ) : RoundedInt rm neg y (roundAt rm neg m e sticky q) := by
  obtain ⟨d, hd⟩ : ∃ d, (q - e).toNat = d + 1 := ⟨(q - e).toNat - 1, by omega⟩
  have hk : 2 ^ (q - e).toNat = 2 * 2 ^ d := by rw [hd, Nat.pow_succ']
  have hd0 : 0 < 2 ^ d := Nat.two_pow_pos d
  have hm := Nat.div_add_mod m (2 * 2 ^ d)
  have ht := Nat.mod_lt m (show 0 < 2 * 2 ^ d by omega)
  rw [roundAt, if_neg (by omega)]
  rw [hk] at hy
  simp only [hk]
  generalize 2 ^ d = h at *
  generalize m / (2 * h) = r at *
  generalize m % (2 * h) = u at *
  have hz : (y - r) * (2 * h) = u + θ := by
    rw [← hm] at hy
    push_cast at hy
    linarith
  have hh : (0 : ℝ) < 2 * h := by exact_mod_cast (by omega : 0 < 2 * h)
  have hu : (u : ℝ) + 1 ≤ 2 * h := by exact_mod_cast ht
  have hu0 : (0 : ℝ) ≤ u := Nat.cast_nonneg u
  have hz' : y - r = (u + θ) / (2 * h) := by rw [← hz, mul_div_cancel_right₀ _ hh.ne']
  have hexact : u ≠ 0 ∨ sticky = true ↔ y ≠ r := by
    rw [← not_iff_not, not_or, not_not, not_not, Bool.not_eq_true, ← hθ, ← sub_eq_zero (a := y), hz', div_eq_zero_iff, or_iff_left hh.ne',
      add_eq_zero_iff_of_nonneg hu0 h0, Nat.cast_eq_zero]
  have hsticky : θ ≠ 0 ↔ sticky = true := by rw [ne_eq, hθ, Bool.not_eq_false]
  have hhalf : 1 / 2 * (2 * (h : ℝ)) = h := by ring
  have hlt : 1 / 2 < y - r ↔ h < u ∨ (u = h ∧ sticky = true) := by
    rw [hz', lt_div_iff₀ hh, hhalf, (compare_lost h0 h1).1, hsticky]
  have heq : y - r = 1 / 2 ↔ u = h ∧ sticky = false := by
    rw [hz', div_eq_iff hh.ne', hhalf, (compare_lost h0 h1).2, hθ]
  refine roundedInt_of_up ?_ ?_ ?_ (decide_eq_true_iff.trans hexact)
  · have : 0 ≤ y - r := by rw [hz']; positivity
    linarith
  · have : y - r < 1 := by rw [hz', div_lt_one hh]; linarith
    linarith
  · rw [RoundsUp, hlt, heq, ← hexact]
    split
    · cases sticky with
      | false => simp
      | true => simp
    case isFalse hrm =>
      obtain rfl | rfl | rfl := mode_of_ne_zero rm hrm
      · simp [away]
      · simp [away]
      · simp [away]

theorem zpow_sub_toNat {e q : Int} (h : e ≤ q) : (2 : ℝ) ^ (q - e).toNat = 2 ^ q / 2 ^ e := by
  rw [← zpow_natCast, Int.toNat_of_nonneg (by omega), zpow_sub₀ two_ne_zero]

theorem roundAt_spec {m : Nat} {e q : Int} {sticky : Bool} {x : ℝ} (hx : Denotes m e sticky x) (hq : sticky = true → e < q) :
    RoundedInt rm neg (x / 2 ^ q) (roundAt rm neg m e sticky q) := by
  obtain ⟨θ, h0, h1, hθ, rfl⟩ := hx
  have he : (2 : ℝ) ^ e ≠ 0 := by positivity
  by_cases hqe : e < q
  · refine roundAt_lost hqe h0 h1 hθ ?_
    rw [Nat.cast_pow, Nat.cast_ofNat, zpow_sub_toNat hqe.le]
    field_simp
  · obtain rfl : sticky = false := Bool.eq_false_iff.mpr (mt hq hqe)
    rw [hθ.mpr rfl, add_zero, mul_div_assoc, ← zpow_sub_toNat (not_lt.mp hqe), roundAt, if_pos (not_lt.mp hqe)]
    exact_mod_cast roundedInt_nat _

end

/-! ## The pattern of a rounded magnitude -/

section
variable {t : Fmt}

theorem magnitude_normal {j v : Nat} (hv : v < 2 ^ t.f) :
    magnitude t ((j + 1) * 2 ^ t.f + v) = (2 ^ t.f + v : Nat) * 2 ^ (1 - (t.bias : ℤ) - t.f + j) := by
  have hdiv : ((j + 1) * 2 ^ t.f + v) / 2 ^ t.f = j + 1 := by
    rw [Nat.mul_comm, Nat.mul_add_div (Nat.two_pow_pos _), Nat.div_eq_of_lt hv, add_zero]
  have hmod : ((j + 1) * 2 ^ t.f + v) % 2 ^ t.f = v := by rw [Nat.mul_comm, Nat.mul_add_mod, Nat.mod_eq_of_lt hv]
  rw [magnitude, hdiv, hmod, if_neg j.succ_ne_zero, Nat.cast_succ]
  congr 2
  ring

/-- Patterns i × 2^f + n are the multiples n of the step 2^(emin − f + i). -/
theorem magnitude_grid {i n : Nat} (hi : i = 0 ∨ 2 ^ t.f ≤ n) (hn : n ≤ 2 ^ (t.f + 1)) :
    magnitude t (i * 2 ^ t.f + n) = n * 2 ^ (1 - (t.bias : ℤ) - t.f + i) := by
  rw [Nat.pow_succ] at hn
  obtain hlt | hle := lt_or_ge n (2 ^ t.f)
  · obtain rfl := hi.resolve_right (not_le.mpr hlt)
    rw [Nat.zero_mul, Nat.zero_add, magnitude, if_pos (Nat.div_eq_of_lt hlt), Nat.cast_zero, add_zero]
  · obtain ⟨v, rfl⟩ := Nat.exists_eq_add_of_le hle
    obtain hv | hv := lt_or_ge v (2 ^ t.f)
    · rw [← magnitude_normal hv, Nat.succ_mul, Nat.add_assoc]
    · obtain rfl : v = 2 ^ t.f := by omega
      rw [show i * 2 ^ t.f + (2 ^ t.f + 2 ^ t.f) = (i + 1 + 1) * 2 ^ t.f + 0 by ring, magnitude_normal (Nat.two_pow_pos _), Nat.cast_succ,
        ← add_assoc, zpow_add_one₀ two_ne_zero]
      push_cast
      ring

variable {rm : BitVec 2} {neg : Bool} {x : ℝ} {r : Nat × Bool}

/-- Rounding to a multiple of a format's step is rounding to one of its patterns. -/
theorem RoundedInt.roundedTo {i : Nat} (hf : 1 ≤ t.f) (h : RoundedInt rm neg (x / 2 ^ (1 - (t.bias : ℤ) - t.f + i)) r)
    (hlo : i = 0 ∨ (2 : ℝ) ^ t.f ≤ x / 2 ^ (1 - (t.bias : ℤ) - t.f + i)) (hhi : x / 2 ^ (1 - (t.bias : ℤ) - t.f + i) < 2 ^ (t.f + 1)) :
    RoundedTo t rm neg x (i * 2 ^ t.f + r.1) ∧ (r.2 = true ↔ x ≠ magnitude t (i * 2 ^ t.f + r.1)) := by
  obtain ⟨n, hn0, hn1, hr, hne, hex, hrnd⟩ := h
  have hs : (0 : ℝ) < 2 ^ (1 - (t.bias : ℤ) - t.f + i) := by positivity
  have hnhi : n < 2 ^ (t.f + 1) := by exact_mod_cast hn0.trans_lt hhi
  have hnlo : i = 0 ∨ 2 ^ t.f ≤ n := hlo.imp_right fun h => Nat.lt_succ_iff.mp (by exact_mod_cast h.trans_lt hn1)
  have hmag := magnitude_grid hnlo hnhi.le
  have hmag1 : magnitude t (i * 2 ^ t.f + n + 1) = _ := magnitude_grid (hnlo.imp_right Nat.le_succ_of_le) (Nat.succ_le_of_lt hnhi)
  obtain ⟨y, rfl⟩ : ∃ y, x = y * 2 ^ (1 - (t.bias : ℤ) - t.f + i) := ⟨_, (div_mul_cancel₀ x hs.ne').symm⟩
  rw [mul_div_cancel_right₀ _ hs.ne'] at *
  generalize (2 : ℝ) ^ (1 - (t.bias : ℤ) - t.f + i) = step at *
  have hxn : y * step = n * step ↔ y = n := mul_left_inj' hs.ne'
  have hpar : (i * 2 ^ t.f + r.1) % 2 = r.1 % 2 := by
    rw [Nat.add_mod, Nat.mul_mod, Nat.pow_mod, Nat.mod_self, Nat.zero_pow hf, Nat.zero_mod, Nat.mul_zero, Nat.zero_mod, Nat.zero_add, Nat.mod_mod]
  rw [Nat.cast_succ] at hmag1
  refine ⟨⟨i * 2 ^ t.f + n, ?_, ?_, ?_, ?_, ?_⟩, ?_⟩
  · rw [hmag]
    gcongr
  · rw [hmag1]
    gcongr
  · omega
  · rw [hmag, hxn]
    exact fun h => by rw [hex h]
  · rw [hmag, hmag1, ne_eq, hxn, hpar, ← sub_mul, ← sub_mul, mul_le_mul_iff_left₀ hs, mul_le_mul_iff_left₀ hs, mul_left_inj' hs.ne']
    intro hyn
    obtain ⟨hnear, hdir⟩ := hrnd hyn
    refine ⟨fun hrm => ?_, fun hrm => ?_⟩
    · obtain ⟨hdown, hup, htie⟩ := hnear hrm
      refine ⟨fun h => ?_, fun h => ?_, fun h => htie (by linarith)⟩
      · linarith [hdown (by omega)]
      · linarith [hup (by omega)]
    · rw [← hdir hrm]
      omega
  · rw [hne]
    obtain h | h := hr
    · rw [h, hmag, ne_eq, ne_eq, hxn]
    · rw [h, ← add_assoc, hmag1]
      have hyn : y ≠ n := fun hy => by
        have := hex hy
        omega
      exact iff_of_true hyn fun h => by
        have := (mul_left_inj' hs.ne').mp h
        linarith

/-- Rounded with no bottom to the exponent range, a magnitude of the binade below the smallest normal one stays below it as R119 says. -/
theorem RoundedInt.tiny_iff (h : RoundedInt rm neg (x / 2 ^ (-(t.bias : ℤ) - t.f)) r)
    (hhi : x / 2 ^ (-(t.bias : ℤ) - t.f) < 2 ^ (t.f + 1)) : r.1 < 2 ^ (t.f + 1) ↔ Tiny t rm neg x := by
  obtain ⟨n, hn0, hn1, hr, -, hex, hrnd⟩ := h
  have hs : (0 : ℝ) < 2 ^ (-(t.bias : ℤ) - t.f) := by positivity
  have hnhi : n + 1 ≤ 2 ^ (t.f + 1) := Nat.succ_le_of_lt (by exact_mod_cast hn0.trans_lt hhi)
  have hb : (2 : ℝ) ^ (1 - (t.bias : ℤ)) = 2 ^ (t.f + 1) * 2 ^ (-(t.bias : ℤ) - t.f) := by
    rw [← zpow_natCast, ← zpow_add₀ two_ne_zero]
    congr 1
    push_cast
    ring
  obtain ⟨y, rfl⟩ : ∃ y, x = y * 2 ^ (-(t.bias : ℤ) - t.f) := ⟨_, (div_mul_cancel₀ x hs.ne').symm⟩
  have hT : (0 : ℝ) < 2 ^ (t.f + 1) := by positivity
  have hodd : 2 ^ (t.f + 1) % 2 = 0 := by rw [Nat.pow_succ, Nat.mul_mod_left]
  have hnT : (n : ℝ) + 1 ≤ 2 ^ (t.f + 1) := by exact_mod_cast hnhi
  have htop : n + 1 ≠ 2 ^ (t.f + 1) → (n : ℝ) + 2 ≤ 2 ^ (t.f + 1) := fun h => by exact_mod_cast (by omega : n + 2 ≤ 2 ^ (t.f + 1))
  rw [mul_div_cancel_right₀ _ hs.ne'] at *
  simp only [Tiny, hb]
  generalize (2 : ℝ) ^ (-(t.bias : ℤ) - t.f) = u at *
  rw [mul_div_cancel_left₀ _ hT.ne', show 2 ^ (t.f + 1) * u - u / 2 = (2 ^ (t.f + 1) - 1 / 2) * u by ring,
    show 2 ^ (t.f + 1) * u - u = (2 ^ (t.f + 1) - 1) * u by ring, mul_lt_mul_iff_left₀ hs, mul_le_mul_iff_left₀ hs, mul_lt_mul_iff_left₀ hs]
  by_cases hn : n + 1 = 2 ^ (t.f + 1)
  · have hnR : (2 : ℝ) ^ (t.f + 1) = n + 1 := by exact_mod_cast hn.symm
    rw [hnR, ← hn]
    by_cases hy : y = n
    · rw [hex hy, hy]
      exact iff_of_true n.lt_succ_self ⟨fun _ => by linarith, fun _ _ => by linarith, fun _ _ => by linarith⟩
    · obtain ⟨hnear, hdir⟩ := hrnd hy
      by_cases hrm : rm = 0
      · obtain ⟨hdown, hup, htie⟩ := hnear hrm
        refine ⟨fun h => ⟨fun _ => ?_, fun h => absurd hrm h, fun h => absurd hrm h⟩, fun h => ?_⟩
        · have hle := hdown (by omega)
          have hne : y - n ≠ 1 / 2 := fun h => by
            have := htie h
            omega
          linarith [lt_of_le_of_ne hle hne]
        · have := h.1 hrm
          exact lt_of_le_of_ne (by omega) fun h => by linarith [hup h]
      · have hlt : (n : ℝ) < y := lt_of_le_of_ne hn0 (Ne.symm hy)
        have hdir := hdir hrm
        refine ⟨fun h => ⟨fun h => absurd h hrm, fun _ ha => absurd (hdir.mpr ha) h.ne, fun _ _ => hn1⟩, fun h => ?_⟩
        exact lt_of_le_of_ne (by omega) fun h' => by linarith [h.2.1 hrm (hdir.mp h')]
  · have := htop hn
    exact iff_of_true (by omega) ⟨fun _ => by linarith, fun _ _ => by linarith, fun _ _ => by linarith⟩

end

/-! ## `rnd` -/

section
variable {t : Fmt} {c : RCtl} {neg : Bool} {m : Nat} {e : Int} {sticky : Bool} {x : ℝ}

/-- The binade of a magnitude is that of its m (R12). -/
theorem Denotes.binade (hx : Denotes m e sticky x) (hm : m ≠ 0) : (2 : ℝ) ^ (m.log2 + e : Int) ≤ x ∧ x < 2 ^ (m.log2 + e + 1 : Int) := by
  obtain ⟨θ, h0, h1, -, rfl⟩ := hx
  have he : (0 : ℝ) < 2 ^ e := by positivity
  have hlo : (2 : ℝ) ^ m.log2 ≤ m := by exact_mod_cast Nat.log2_self_le hm
  have hhi : (m : ℝ) + 1 ≤ 2 ^ (m.log2 + 1) := by exact_mod_cast Nat.lt_log2_self
  rw [show (m.log2 + e + 1 : Int) = (m.log2 + 1 : Nat) + e by push_cast; ring, zpow_add₀ two_ne_zero, zpow_add₀ two_ne_zero, zpow_natCast,
    zpow_natCast, mul_le_mul_iff_left₀ he, mul_lt_mul_iff_left₀ he]
  exact ⟨by linarith, by linarith⟩

theorem div_zpow_bounds {E : Int} (hx : (2 : ℝ) ^ E ≤ x ∧ x < 2 ^ (E + 1)) (f : Nat) (q : Int) :
    (E - f = q → 2 ^ f ≤ x / 2 ^ q) ∧ (E - f ≤ q → x / 2 ^ q < 2 ^ (f + 1)) := by
  have hq : (0 : ℝ) < 2 ^ q := by positivity
  rw [le_div_iff₀ hq, div_lt_iff₀ hq, ← zpow_natCast, ← zpow_natCast, ← zpow_add₀ two_ne_zero, ← zpow_add₀ two_ne_zero]
  refine ⟨fun h => ?_, fun h => hx.2.trans_le (zpow_le_zpow_right₀ one_le_two (by push_cast; omega))⟩
  rw [← h, add_sub_cancel]
  exact hx.1

/-- The model's test for a tiny magnitude is R119's. -/
theorem tiny_iff {E : Int} (hx : (2 : ℝ) ^ E ≤ x ∧ x < 2 ^ (E + 1)) {r : Nat × Bool} (hr : RoundedInt c.rm neg (x / 2 ^ (E - t.f)) r) :
    (E < 1 - (t.bias : Int) - 1 ∨ (E = 1 - (t.bias : Int) - 1 ∧ r.1 < 2 ^ (t.f + 1))) ↔ Tiny t c.rm neg x := by
  have hb : (0 : ℝ) < 2 ^ (1 - (t.bias : ℤ)) := by positivity
  have hu0 : (0 : ℝ) < 2 ^ (1 - (t.bias : ℤ)) / 2 ^ (t.f + 1) := by positivity
  have hu : (2 : ℝ) ^ (1 - (t.bias : ℤ)) / 2 ^ (t.f + 1) ≤ 2 ^ (1 - (t.bias : ℤ)) / 2 := by
    gcongr
    exact le_self_pow₀ one_le_two t.f.succ_ne_zero
  obtain hlt | heq | hgt := lt_trichotomy E (1 - (t.bias : Int) - 1)
  · have hhalf : x < 2 ^ (1 - (t.bias : ℤ)) / 2 := by
      rw [div_eq_mul_inv, ← zpow_sub_one₀ two_ne_zero]
      exact hx.2.trans_le (zpow_le_zpow_right₀ one_le_two (by omega))
    refine iff_of_true (.inl hlt) ⟨fun _ => ?_, fun _ _ => ?_, fun _ _ => ?_⟩
    · linarith
    · linarith
    · linarith
  · rw [or_iff_right (by omega), and_iff_right heq]
    rw [show E - t.f = -(t.bias : ℤ) - t.f by omega] at hr
    exact hr.tiny_iff ((div_zpow_bounds hx t.f _).2 (by omega))
  · have hle : (2 : ℝ) ^ (1 - (t.bias : ℤ)) ≤ x := (zpow_le_zpow_right₀ one_le_two (by omega)).trans hx.1
    refine iff_of_false (by omega) fun ⟨hnear, haway, htoward⟩ => ?_
    by_cases hrm : c.rm = 0
    · linarith [hnear hrm]
    · by_cases ha : away c.rm neg
      · linarith [haway hrm ha]
      · linarith [htoward hrm ha]

/-- The pattern that `rnd` assembles from a significand r: the multiple r of the step 2^(emin − f + i). -/
theorem assembled {emin E : Int} {f r : Nat} (hr : (E - emin).toNat = 0 ∨ 2 ^ f ≤ r) :
    (if max (E - f) (emin - f) = emin - f then r else ((max (E - f) (emin - f) - (emin - f)).toNat + 1) * 2 ^ f + (r - 2 ^ f)) =
      (E - emin).toNat * 2 ^ f + r := by
  by_cases h : E ≤ emin
  · rw [max_eq_right (by omega), if_pos rfl, Int.toNat_of_nonpos (by omega), Nat.zero_mul, Nat.zero_add]
  · rw [max_eq_left (by omega), if_neg (by omega), show E - f - (emin - f) = E - emin by ring, Nat.succ_mul]
    omega

/-- A rounded pattern with the flags of what it lost is RND. -/
theorem rndOf_rounded {k : Nat} {inexact : Bool} {tiny : Prop} [Decidable tiny] (htiny : tiny ↔ Tiny t c.rm neg x) (hk : RoundedTo t c.rm neg x k)
    (hne : inexact = true ↔ x ≠ magnitude t k) :
    RndOf t c neg x (if tiny ∧ c.ftz = true then (t.signed neg 0, fUF ||| fNX)
      else if k > t.maxMag then (t.signed neg (overflow t c.rm neg).1, (overflow t c.rm neg).2)
      else (t.signed neg k, (if inexact = true then fNX else 0) ||| (if tiny ∧ inexact = true then fUF else 0))) := by
  refine ⟨k, hk, fun hftz ht => if_pos ⟨htiny.mpr ht, hftz⟩, fun hnt => ?_⟩
  rw [if_neg fun h => hnt ⟨h.2, htiny.mp h.1⟩]
  refine ⟨fun hle => ?_, fun hgt => ?_⟩
  · rw [if_neg (not_lt.mpr hle)]
    refine ⟨rfl, fun hx => ?_, fun hx ht => ?_, fun hx ht => ?_⟩
    · have h : ¬inexact = true := fun h => hne.mp h hx
      simp [h]
    · simp [hne.mpr hx, htiny.mpr ht]
    · simp [hne.mpr hx, mt htiny.mp ht]
  · rw [if_pos hgt]
    have hinf : (c.rm = 0 ∨ (c.rm = 2 ∧ neg = true) ∨ (c.rm = 3 ∧ neg = false)) ↔ c.rm = 0 ∨ away c.rm neg := Iff.rfl
    refine ⟨rfl, fun htop hup => ?_, fun hdown => ?_⟩
    · simp only [overflow, hinf]
      rw [if_pos ⟨htop, hup⟩]
    · simp only [overflow, hinf]
      rw [if_neg fun h => hdown.elim (fun h' => by simp [h'] at h) (fun h' => h' h.2)]

theorem rnd_rndOf (hf : 1 ≤ t.f) (hx : Denotes m e sticky x) (hm : m ≠ 0) (hs : sticky = true → 2 ^ (t.f + 1) ≤ m) :
    RndOf t c neg x (rnd t c neg m e sticky) := by
  have hbin := hx.binade hm
  have hlost : sticky = true → e < m.log2 + e - t.f := fun h => by
    have := (Nat.le_log2 hm).mpr (hs h)
    omega
  have hround : ∀ q, m.log2 + e - t.f ≤ q → RoundedInt c.rm neg (x / 2 ^ q) (roundAt c.rm neg m e sticky q) :=
    fun q hq => roundAt_spec hx fun h => (hlost h).trans_le hq
  have htiny := tiny_iff (t := t) hbin (hround _ le_rfl)
  rw [rnd, if_neg (fun h => hm h.1)]
  dsimp only
  generalize (m.log2 + e : Int) = E at *
  have hr := hround _ (le_max_left (E - t.f) (1 - (t.bias : Int) - t.f))
  have hbounds := div_zpow_bounds hbin t.f (max (E - t.f) (1 - (t.bias : Int) - t.f))
  have hhi := hbounds.2 (le_max_left _ _)
  have hlo : (E - (1 - (t.bias : Int))).toNat = 0 ∨ (2 : ℝ) ^ t.f ≤ x / 2 ^ max (E - t.f) (1 - (t.bias : Int) - t.f) :=
    or_iff_not_imp_left.mpr fun h => hbounds.1 (by omega)
  rw [assembled (hlo.imp_right fun h => ?_)]
  · rw [show max (E - t.f) (1 - (t.bias : Int) - t.f) = 1 - (t.bias : Int) - t.f + (E - (1 - (t.bias : Int))).toNat by omega] at *
    obtain ⟨hpat, hne⟩ := hr.roundedTo hf hlo hhi
    exact rndOf_rounded htiny hpat hne
  · obtain ⟨n, -, hn1, hrn, -⟩ := hr
    have : 2 ^ t.f ≤ n := Nat.lt_succ_iff.mp (by exact_mod_cast h.trans_lt hn1)
    omega

/-! ## RND of a value of either sign -/

@[simp] theorem rnd_zero : rnd t c neg 0 e false = (t.signed neg 0, 0) := by simp [rnd]

theorem denotes_exact : Denotes m e false (m * 2 ^ e) := ⟨0, le_rfl, one_pos, by simp, by rw [add_zero]⟩

/-- A real strictly inside a unit of m. -/
theorem denotes_lost (hlo : (m : ℝ) * 2 ^ e < x) (hhi : x < (m + 1) * 2 ^ e) : Denotes m e true x := by
  have he : (0 : ℝ) < 2 ^ e := by positivity
  rw [← lt_div_iff₀ he] at hlo
  rw [← div_lt_iff₀ he] at hhi
  refine ⟨x / 2 ^ e - m, by linarith, by linarith, by simp [sub_eq_zero, hlo.ne'], ?_⟩
  rw [add_sub_cancel, div_mul_cancel₀ _ he.ne']

/-- RND of a non-negative value. -/
theorem rnd_rndValue {zero : Bool} (hf : 1 ≤ t.f) (hx : Denotes m e sticky x) (hz : m = 0 → sticky = false ∧ neg = zero)
    (hs : sticky = true → 2 ^ (t.f + 1) ≤ m) : RndValue t c zero (if neg then -x else x) (rnd t c neg m e sticky) := by
  by_cases hm : m = 0
  · obtain ⟨rfl, rfl⟩ := hz hm
    obtain ⟨θ, -, -, hθ, rfl⟩ := hx
    subst hm
    simp [hθ.mpr rfl, RndValue]
  · have h0 : 0 < x := lt_of_lt_of_le (by positivity) (hx.binade hm).1
    have hr := rnd_rndOf (c := c) (neg := neg) hf hx hm hs
    cases neg with
    | false => exact ⟨fun h => absurd h h0.ne', fun _ => hr, fun h => absurd h h0.not_gt⟩
    | true =>
      refine ⟨fun h => absurd h (neg_ne_zero.mpr h0.ne'), fun h => absurd h (neg_neg_of_pos h0).not_gt, fun _ => ?_⟩
      rw [if_pos rfl, neg_neg]
      exact hr

theorem realOf_eq (neg : Bool) (m : Nat) (e : Int) : realOf neg m e = if neg then -((m : ℝ) * 2 ^ e) else m * 2 ^ e := by
  cases neg <;> simp [realOf]

/-- RND of a finite value. -/
theorem rnd_realOf {zero : Bool} (hf : 1 ≤ t.f) (hz : m = 0 → neg = zero) : RndValue t c zero (realOf neg m e) (rnd t c neg m e false) := by
  rw [realOf_eq]
  exact rnd_rndValue hf denotes_exact (fun h => ⟨rfl, hz h⟩) nofun

end

end Sys2Proof.Proofs
end

section
/-! Sums, products, quotients and roots (R126, R127) as RND of their exact values. -/

namespace Sys2Proof.Proofs
open Sys2Proof Sys2Proof.Machine Sys2Proof.Spec

section
variable {t : Fmt} {c : RCtl}

theorem one_le_fraction (h : t ∈ [fp64, fp32, fp16, bf16, e5m2, e4m3]) : 1 ≤ t.f :=
  (by decide : ∀ t ∈ [fp64, fp32, fp16, bf16, e5m2, e4m3], 1 ≤ t.f) t h

theorem rndValue_of_pos {v : ℝ} {zero : Bool} {r : Nat × Flags} (h0 : 0 < v) (h : RndOf t c false v r) : RndValue t c zero v r :=
  ⟨fun h => absurd h h0.ne', fun _ => h, fun h => absurd h h0.not_gt⟩

/-! ## Sums and products -/

theorem realOf_int (v : Int) (e : Int) : realOf (decide (v < 0)) v.natAbs e = v * 2 ^ e := by
  rw [realOf_eq, Nat.cast_natAbs, Int.cast_abs]
  by_cases hv : v < 0
  · rw [decide_eq_true hv, if_pos rfl, abs_of_neg (by exact_mod_cast hv), neg_mul, neg_neg]
  · rw [decide_eq_false hv, if_neg Bool.false_ne_true, abs_of_nonneg (by exact_mod_cast not_lt.mp hv)]

theorem scaled_realOf (neg : Bool) (m : Nat) {e lo : Int} (h : lo ≤ e) : (scaled neg m e lo : ℝ) * 2 ^ lo = realOf neg m e := by
  have hm : ((m * 2 ^ (e - lo).toNat : Nat) : ℝ) * 2 ^ lo = m * 2 ^ e := by
    rw [Nat.cast_mul, Nat.cast_pow, Nat.cast_ofNat, zpow_sub_toNat h, mul_assoc, div_mul_cancel₀ _ (by positivity)]
  rw [realOf_eq, ← hm, scaled]
  cases neg <;> simp

theorem addFin_rndValue (hf : 1 ≤ t.f) (a b : Bool) (m n : Nat) (e k : Int) :
    RndValue t c (if (m == 0 && n == 0) && a == b then a else c.rm == 2) (realOf a m e + realOf b n k) (addFin t c a m e b n k) := by
  rw [addFin, ← scaled_realOf a m (min_le_left e k), ← scaled_realOf b n (min_le_right e k), ← add_mul, ← Int.cast_add]
  by_cases h : scaled a m e (min e k) + scaled b n k (min e k) = 0
  · rw [if_pos h, h, Int.cast_zero, zero_mul, rnd_zero]
    simp only [RndValue, Bool.and_eq_true, beq_iff_eq, and_assoc, lt_self_iff_false, false_implies, and_true, forall_const]
  · rw [if_neg h, ← realOf_int]
    exact rnd_realOf hf fun h' => absurd (Int.natAbs_eq_zero.mp h') h

theorem mul_realOf (a b : Bool) (m n : Nat) (e k : Int) : realOf a m e * realOf b n k = realOf (a != b) (m * n) (e + k) := by
  rw [realOf, realOf, realOf, zpow_add₀ two_ne_zero, Nat.cast_mul]
  cases a <;> cases b <;> simp <;> ring

/-! ## The quotient -/

theorem div_realOf (a b : Bool) (m n : Nat) (e k : Int) :
    realOf a m e / realOf b n k = if (a != b) then -((m : ℝ) / n * 2 ^ (e - k)) else (m : ℝ) / n * 2 ^ (e - k) := by
  rw [realOf_eq, realOf_eq, zpow_sub₀ two_ne_zero]
  cases a <;> cases b <;> simp [div_mul_div_comm, neg_div, div_neg]

theorem denotes_div {A n : Nat} (hn : n ≠ 0) (e : Int) : Denotes (A / n) e (decide (A % n ≠ 0)) ((A : ℝ) / n * 2 ^ e) := by
  have hn0 : (0 : ℝ) < n := by exact_mod_cast Nat.pos_of_ne_zero hn
  have hA : (A : ℝ) = (A / n : Nat) * n + (A % n : Nat) := by exact_mod_cast (Nat.div_add_mod' A n).symm
  refine ⟨(A % n : Nat) / n, by positivity, ?_, ?_, ?_⟩
  · rw [div_lt_one hn0]
    exact_mod_cast Nat.mod_lt A (Nat.pos_of_ne_zero hn)
  · simp [hn0.ne']
  · rw [hA, add_div, mul_div_cancel_right₀ _ hn0.ne']

theorem divV_rndValue (hf : 1 ≤ t.f) (a b : Bool) {m n : Nat} (e k : Int) (hn : n ≠ 0) :
    RndValue t c (a != b) (realOf a m e / realOf b n k) (divV t c (.fin a m e) (.fin b n k)) := by
  rw [divV, if_neg hn, div_realOf]
  dsimp only
  have hlarge : m ≠ 0 → 2 ^ (t.f + 1) ≤ m * 2 ^ (t.f + 4 + n.log2) / n := fun hm => by
    rw [Nat.le_div_iff_mul_le (Nat.pos_of_ne_zero hn)]
    calc 2 ^ (t.f + 1) * n ≤ 2 ^ (t.f + 1) * 2 ^ (n.log2 + 1) := Nat.mul_le_mul_left _ Nat.lt_log2_self.le
      _ = 2 ^ (t.f + 2 + n.log2) := by rw [← Nat.pow_add]; congr 1; ring
      _ ≤ 2 ^ (t.f + 4 + n.log2) := Nat.pow_le_pow_right two_pos (by omega)
      _ ≤ m * 2 ^ (t.f + 4 + n.log2) := Nat.le_mul_of_pos_left _ (Nat.pos_of_ne_zero hm)
  have hx : (m : ℝ) / n * 2 ^ (e - k) = ((m * 2 ^ (t.f + 4 + n.log2) : Nat) : ℝ) / n * 2 ^ (e - k - (t.f + 4 + n.log2 : Nat)) := by
    rw [zpow_sub₀ two_ne_zero _ ((t.f + 4 + n.log2 : Nat) : ℤ), zpow_natCast]
    push_cast
    field_simp
  rw [hx]
  refine rnd_rndValue hf (denotes_div hn _) (fun h => ?_) fun h => hlarge fun hm => ?_
  · have hm : m = 0 := by_contra fun hm => absurd (hlarge hm) (by rw [h]; exact not_le.mpr (Nat.two_pow_pos _))
    simp [hm]
  · simp [hm] at h

/-! ## The integer square root -/

theorem isqrtAux_spec {n : Nat} (k r : Nat) (hlo : r * r ≤ n) (hhi : n < (r + 2 ^ k) * (r + 2 ^ k)) :
    isqrtAux n k r * isqrtAux n k r ≤ n ∧ n < (isqrtAux n k r + 1) * (isqrtAux n k r + 1) := by
  induction k generalizing r with
  | zero => exact ⟨hlo, hhi⟩
  | succ k ih =>
    rw [isqrtAux]
    split
    case isTrue h => exact ih _ h (by rwa [Nat.add_assoc, ← Nat.two_mul, ← Nat.pow_succ'])
    case isFalse h => exact ih _ hlo (not_le.mp h)

theorem isqrt_eq_sqrt (n : Nat) : isqrt n = Nat.sqrt n := by
  have hn : n < 2 ^ (n.log2 / 2 + 1) * 2 ^ (n.log2 / 2 + 1) := by
    rw [← Nat.pow_add]
    exact Nat.lt_log2_self.trans_le (Nat.pow_le_pow_right two_pos (by omega))
  obtain ⟨hlo, hhi⟩ := isqrtAux_spec (n.log2 / 2 + 1) 0 (Nat.zero_le n) (by rwa [Nat.zero_add])
  exact Nat.eq_sqrt.mpr ⟨hlo, hhi⟩

/-! ## Roots -/

theorem denotes_sqrt {r : Nat} {z : ℝ} {sticky : Bool} (e : Int) (hlo : (r : ℝ) * r ≤ z) (hhi : z < (r + 1) * (r + 1))
    (hs : sticky = false ↔ z = r * r) : Denotes r e sticky (√z * 2 ^ e) := by
  have hr : (0 : ℝ) ≤ r := Nat.cast_nonneg r
  have hz : 0 ≤ z := (mul_nonneg hr hr).trans hlo
  refine ⟨√z - r, ?_, ?_, ?_, by rw [add_sub_cancel]⟩
  · rw [sub_nonneg]
    exact Real.le_sqrt_of_sq_le (by rwa [sq])
  · rwa [sub_lt_iff_lt_add', Real.sqrt_lt' (by positivity), sq]
  · rw [hs, sub_eq_zero, Real.sqrt_eq_iff_mul_self_eq hz hr, eq_comm]

theorem sqrt_mul_even (z : ℝ) (h : Int) : √(z * 2 ^ (2 * h)) = √z * 2 ^ h := by
  rw [mul_comm 2 h, zpow_mul, zpow_ofNat, Real.sqrt_mul' _ (sq_nonneg _), Real.sqrt_sq (by positivity)]

theorem pow_le_sqrt {f a : Nat} (h : 2 ^ (2 * f) ≤ a) : 2 ^ f ≤ Nat.sqrt a := by
  rwa [Nat.le_sqrt, ← Nat.pow_add, ← Nat.two_mul]

theorem sqrtV_rndOf (hf : 1 ≤ t.f) {m : Nat} (e : Int) (hm : m ≠ 0) :
    RndOf t c false (√(m * 2 ^ e)) (sqrtV t c (.fin false m e)) := by
  rw [sqrtV, if_neg hm, if_neg Bool.false_ne_true]
  dsimp only
  rw [isqrt_eq_sqrt]
  generalize hs : 2 * (t.f + 4) + (e % 2).toNat = s
  have hx : (m : ℝ) * 2 ^ e = (m * 2 ^ s : Nat) * 2 ^ (2 * ((e - s) / 2)) := by
    rw [show 2 * ((e - s) / 2) = e - s by omega, zpow_sub₀ two_ne_zero, zpow_natCast]
    push_cast
    field_simp
  have hlarge : 2 ^ (t.f + 1) ≤ Nat.sqrt (m * 2 ^ s) :=
    pow_le_sqrt ((Nat.pow_le_pow_right two_pos (by omega)).trans (Nat.le_mul_of_pos_left _ (Nat.pos_of_ne_zero hm)))
  rw [hx, sqrt_mul_even]
  refine rnd_rndOf hf (denotes_sqrt _ ?_ ?_ ?_) ?_ fun _ => hlarge
  · exact_mod_cast Nat.sqrt_le (m * 2 ^ s)
  · exact_mod_cast Nat.lt_succ_sqrt (m * 2 ^ s)
  · rw [decide_eq_false_iff_not, not_not, eq_comm]
    exact_mod_cast Iff.rfl
  · exact (Nat.two_pow_pos _).trans_le hlarge |>.ne'

theorem rsqrtV_rndOf (hf : 1 ≤ t.f) {m : Nat} (e : Int) (hm : m ≠ 0) :
    RndOf t c false (1 / √(m * 2 ^ e)) (rsqrtV t c (.fin false m e)) := by
  rw [rsqrtV, if_neg hm, if_neg Bool.false_ne_true]
  dsimp only
  rw [isqrt_eq_sqrt]
  generalize hm' : (if e % 2 = 0 then m else 2 * m) = m'
  generalize he' : (if e % 2 = 0 then e else e - 1) = e'
  have hval : (m : ℝ) * 2 ^ e = m' * 2 ^ e' ∧ e' % 2 = 0 ∧ m' ≠ 0 := by
    subst hm' he'
    split
    · exact ⟨rfl, by assumption, hm⟩
    · refine ⟨?_, by omega, by omega⟩
      rw [zpow_sub_one₀ two_ne_zero]
      push_cast
      ring
  obtain ⟨hval, heven, hm0⟩ := hval
  generalize hs : t.f + 4 + m'.log2 = s
  have hm1 : (0 : ℝ) < m' := by exact_mod_cast Nat.pos_of_ne_zero hm0
  have hx : 1 / √((m : ℝ) * 2 ^ e) = √((2 ^ (2 * s) : Nat) / m') * 2 ^ (-(s : Int) - e' / 2) := by
    rw [hval, show e' = 2 * (e' / 2) by omega, sqrt_mul_even, Int.mul_ediv_cancel_left _ two_ne_zero, Nat.cast_pow, Nat.cast_ofNat, pow_mul',
      Real.sqrt_div (sq_nonneg _), Real.sqrt_sq (by positivity), zpow_sub₀ two_ne_zero, zpow_neg, zpow_natCast]
    field_simp
  have hlarge : 2 ^ (t.f + 1) ≤ Nat.sqrt (2 ^ (2 * s) / m') := by
    refine pow_le_sqrt ?_
    rw [Nat.le_div_iff_mul_le (Nat.pos_of_ne_zero hm0)]
    calc 2 ^ (2 * (t.f + 1)) * m' ≤ 2 ^ (2 * (t.f + 1)) * 2 ^ (m'.log2 + 1) := Nat.mul_le_mul_left _ Nat.lt_log2_self.le
      _ = 2 ^ (2 * (t.f + 1) + (m'.log2 + 1)) := by rw [← Nat.pow_add]
      _ ≤ 2 ^ (2 * s) := Nat.pow_le_pow_right two_pos (by omega)
  rw [hx]
  refine rnd_rndOf hf (denotes_sqrt _ ?_ ?_ ?_) ?_ fun _ => hlarge
  · rw [le_div_iff₀ hm1]
    exact_mod_cast (Nat.le_div_iff_mul_le (Nat.pos_of_ne_zero hm0)).mp (Nat.sqrt_le (2 ^ (2 * s) / m'))
  · rw [div_lt_iff₀ hm1]
    exact_mod_cast (Nat.div_lt_iff_lt_mul (Nat.pos_of_ne_zero hm0)).mp (Nat.lt_succ_sqrt (2 ^ (2 * s) / m'))
  · rw [decide_eq_false_iff_not, not_not, div_eq_iff hm1.ne', eq_comm]
    exact_mod_cast Iff.rfl
  · exact ((Nat.two_pow_pos _).trans_le hlarge).ne'

end

theorem floatArithmeticRules : FloatArithmeticRules := by
  intro t c a b d m n p e k q ht
  have hf := one_le_fraction ht
  refine ⟨addFin_rndValue hf a b m n e k, ?_, ?_, fun hn => divV_rndValue hf a b e k hn, ?_, ?_, ?_, ?_⟩
  · rw [mul_realOf]
    exact rnd_realOf hf fun _ => rfl
  · rw [mul_realOf]
    have h := addFin_rndValue (c := c) hf (a != b) d (m * n) p (e + k) q
    rwa [show (m * n == 0) = (m == 0 || n == 0) by rw [Bool.eq_iff_iff]; simp] at h
  · rintro rfl
    rw [divV, if_pos rfl]
    split
    · rfl
    · cases htop : t.top <;> simp [infResult, htop]
  · intro h
    by_cases hm : m = 0
    · subst hm
      simp [RndValue, sqrtV, realOf]
    · obtain rfl := h.resolve_right hm
      rw [realOf_eq, if_neg Bool.false_ne_true]
      exact rndValue_of_pos (Real.sqrt_pos.mpr (by positivity)) (sqrtV_rndOf hf e hm)
  · intro ha hm
    subst ha
    simp [sqrtV, rsqrtV, hm, invalid]
  · intro ha hm
    subst ha
    rw [realOf_eq, if_neg Bool.false_ne_true]
    exact rndValue_of_pos (one_div_pos.mpr (Real.sqrt_pos.mpr (by positivity))) (rsqrtV_rndOf hf e hm)

end Sys2Proof.Proofs
end

section
/-! Signs, rounding modes, special values, minimum and maximum, and classes (R116, R117, R119, R121, R126–R128). -/

namespace Sys2Proof.Proofs
open Sys2Proof Sys2Proof.Machine Sys2Proof.Spec

/-- What the fields of the six formats have in common; only E4M3's exponent range has no top (R117). -/
theorem format_cases {t : Fmt} (h : t ∈ [fp64, fp32, fp16, bf16, e5m2, e4m3]) :
    1 ≤ t.w ∧ 1 ≤ t.e ∧ (t ≠ e4m3 → t.top = true) :=
  (by decide : ∀ t ∈ [fp64, fp32, fp16, bf16, e5m2, e4m3], 1 ≤ t.w ∧ 1 ≤ t.e ∧ (t ≠ e4m3 → t.top = true)) t h

/-- The top bit of a number below 2^(k + 1). -/
theorem testBit_top {k p : Nat} (hp : p < 2 ^ (k + 1)) : p.testBit k = decide (p / 2 ^ k = 1) ∧ (p.testBit k = true ↔ 2 ^ k ≤ p) := by
  have hdiv : p / 2 ^ k < 2 := Nat.div_lt_of_lt_mul (by rwa [← Nat.pow_succ])
  rw [Nat.testBit_eq_decide_div_mod_eq, Nat.mod_eq_of_lt hdiv, decide_eq_true_eq]
  refine ⟨rfl, ?_⟩
  rw [← Nat.one_le_div_iff (Nat.two_pow_pos k)]
  omega

theorem floatSignRules : FloatSignRules := by
  intro t c p ht hp
  obtain ⟨hw, -⟩ := format_cases ht
  obtain ⟨w, hw⟩ := Nat.exists_eq_add_of_le' hw
  refine ⟨fun h => ?_, fun h inv => ?_, fun h => ?_⟩
  · have hsign : ∀ inv, signOp t inv p = (t.signed (inv && !t.sign p) (p % 2 ^ (t.w - 1)), 0) := fun inv => by
      rw [signOp]
      cases hraw : t.raw p with
      | nan s => rw [hraw] at h; cases h
      | inf n => rfl
      | fin n m e => rfl
    rw [hsign, hsign]
    refine ⟨by simp [Fmt.signed], ?_⟩
    rw [Fmt.signed, Fmt.sign]
    rw [hw] at hp ⊢
    rw [Nat.add_sub_cancel, Bool.true_and]
    have htop := (testBit_top hp).2
    rw [Nat.pow_succ] at hp ⊢
    cases hb : p.testBit w with
    | true =>
      have := htop.mp hb
      simp only [Bool.not_true, Bool.toNat_false, Nat.zero_mul, Nat.add_zero, Prod.mk.injEq, and_true]
      rw [Nat.mod_eq_sub_mod this, Nat.mod_eq_of_lt (by omega), Nat.mod_eq_sub_mod (by omega), Nat.mod_eq_of_lt (by omega)]
      omega
    | false =>
      have : p < 2 ^ w := not_le.mp fun h => by rw [htop.mpr h] at hb; cases hb
      simp only [Bool.not_false, Bool.toNat_true, Nat.one_mul, Prod.mk.injEq, and_true]
      rw [Nat.mod_eq_of_lt this, Nat.mod_eq_of_lt (by omega)]
  · rw [signOp]
    cases hraw : t.raw p with
    | nan s => cases s <;> rfl
    | inf n => rw [hraw] at h; cases h
    | fin n m e => rw [hraw] at h; cases h
  · cases hraw : t.raw p with
    | nan s => cases s <;> rfl
    | inf n => rw [hraw] at h; cases h
    | fin n m e => rw [hraw] at h; cases h

theorem roundingModes : RoundingModes := by
  intro rm neg m e q hqe k r
  have hk : 0 < k := Nat.two_pow_pos _
  have hr : r = roundAt rm neg m e false q := rfl
  rw [roundAt, if_neg (by omega)] at hr
  simp only [Bool.false_eq_true, or_false, false_or] at hr
  have hm : m / k * k + m % k = m := Nat.div_add_mod' m k
  have hlt : m % k < k := Nat.mod_lt m hk
  have hk' : 2 ^ (q - e).toNat = k := rfl
  rw [hk'] at hr
  generalize m / k = a at *
  generalize m % k = u at *
  have hsucc : (a + 1) * k = a * k + k := Nat.succ_mul a k
  have hsucc' : ((a : Int) + 1) * k = a * k + k := by exact_mod_cast hsucc
  clear_value r k
  subst hr
  have hmode : rm = 0 ∨ rm = 1 ∨ rm = 2 ∨ rm = 3 := or_iff_not_imp_left.mpr (mode_of_ne_zero rm)
  obtain rfl | rfl | rfl | rfl := hmode
  · simp
    split <;> omega
  · simp
    omega
  · cases neg <;> simp
    · omega
    · split <;> omega
  · cases neg <;> simp
    · split <;> omega
    · omega

/-! ## Minimum and maximum (R126) -/

theorem ltV_iff (x y : FV) : ltV true x y = true ↔ Precedes x y := by
  cases x with
  | nan => cases y <;> simp [ltV, Precedes]
  | inf a =>
    cases y with
    | nan => simp [ltV, Precedes]
    | inf b => simp [ltV, Precedes]
    | fin b n k => simp [ltV, Precedes]
  | fin a m e =>
    cases y with
    | nan => simp [ltV, Precedes]
    | inf b => simp [ltV, Precedes]
    | fin b n k =>
      have hlo : (0 : ℝ) < 2 ^ min e k := by positivity
      have hlt : scaled a m e (min e k) < scaled b n k (min e k) ↔ realOf a m e < realOf b n k := by
        rw [← scaled_realOf a m (min_le_left e k), ← scaled_realOf b n (min_le_right e k), mul_lt_mul_iff_left₀ hlo, Int.cast_lt]
      have hzero : ∀ {c m} {e lo : Int}, scaled c m e lo = 0 ↔ m = 0 := by
        intro c m e lo
        cases c <;> simp [scaled]
      simp [ltV, Precedes, hlt, hzero, and_assoc]

theorem precedes_asymm {x y : FV} (h : Precedes x y) : ¬Precedes y x := by
  cases x with
  | nan => exact h.elim
  | inf a =>
    cases y with
    | nan => exact h.elim
    | inf b => exact fun h' => Bool.false_ne_true (h.2.symm.trans h'.1)
    | fin b n k => exact fun h' => Bool.false_ne_true (Eq.trans (Eq.symm h') h)
  | fin a m e =>
    cases y with
    | nan => exact h.elim
    | inf b => exact fun h' => Bool.false_ne_true (Eq.trans (Eq.symm h) h')
    | fin b n k =>
      obtain hlt | ⟨rfl, rfl, rfl, rfl⟩ := h
      · rintro (hgt | ⟨rfl, rfl, -⟩)
        · exact hgt.not_gt hlt
        · simp [realOf] at hlt
      · simp [Precedes, realOf]

theorem not_nan_of_precedes {x y : FV} (h : Precedes x y) : x.isNan = false ∧ y.isNan = false := by
  cases x with
  | nan => exact h.elim
  | inf => cases y with
    | nan => exact h.elim
    | inf | fin => exact ⟨rfl, rfl⟩
  | fin => cases y with
    | nan => exact h.elim
    | inf | fin => exact ⟨rfl, rfl⟩

theorem minMaxV_values (t : Fmt) (c : RCtl) {x y : FV} (hx : x.isNan = false) (hy : y.isNan = false) (hi : Bool) :
    minMaxV t c hi x y = rndV t c (if ltV true x y != hi then x else y) := by
  rw [minMaxV, hx, hy]
  rfl

theorem minMaxV_precedes (t : Fmt) (c : RCtl) {x y : FV} (h : Precedes x y) :
    minMaxV t c false x y = rndV t c x ∧ minMaxV t c true x y = rndV t c y ∧ minMaxV t c false y x = rndV t c x ∧
      minMaxV t c true y x = rndV t c y := by
  obtain ⟨hx, hy⟩ := not_nan_of_precedes h
  have hlt := (ltV_iff x y).mpr h
  have hge : ltV true y x = false := Bool.eq_false_iff.mpr (mt (ltV_iff y x).mp (precedes_asymm h))
  simp only [minMaxV_values t c hx hy, minMaxV_values t c hy hx, hlt, hge]
  exact ⟨rfl, rfl, rfl, rfl⟩

/-! ## Classes (R128) -/

section
variable {t : Fmt} {p : Nat}

theorem raw_zero (he : 1 ≤ t.e) (h : t.expo p = 0) : t.raw p = .fin (t.sign p) (t.frac p) (1 - (t.bias : Int) - t.f) := by
  have := Nat.pow_lt_pow_right (a := 2) (by decide) he
  rw [Fmt.raw, if_neg (by omega), if_neg (by omega), if_pos h]

theorem raw_normal (hx : t.expo p ≠ 0) (h : t.expo p = 2 ^ t.e - 1 → t.top = false ∧ t.frac p ≠ 2 ^ t.f - 1) :
    t.raw p = .fin (t.sign p) (2 ^ t.f + t.frac p) (t.expo p - t.bias - t.f) := by
  have htop : ¬(t.expo p = 2 ^ t.e - 1 ∧ t.top = true) := fun h' => by simp [(h h'.1).1] at h'
  rw [Fmt.raw, if_neg htop, if_neg fun h' => (h h'.1).2 h'.2.1, if_neg hx]

theorem classCode_zero (he : 1 ≤ t.e) (h : t.expo p = 0) :
    classCode t p = if t.frac p = 0 then (if t.sign p then 3 else 4) else (if t.sign p then 2 else 5) := by
  rw [classCode, raw_zero he h]
  dsimp only
  rw [if_pos h]

theorem classCode_normal (hx : t.expo p ≠ 0) (h : t.expo p = 2 ^ t.e - 1 → t.top = false ∧ t.frac p ≠ 2 ^ t.f - 1) :
    classCode t p = if t.sign p then 1 else 6 := by
  have := Nat.two_pow_pos t.f
  rw [classCode, raw_normal hx h]
  dsimp only
  rw [if_neg (by omega), if_neg hx]

theorem classCode_top (h : t.expo p = 2 ^ t.e - 1) (htop : t.top = true) :
    classCode t p = if t.frac p = 0 then (if t.sign p then 0 else 7) else if (t.frac p).testBit (t.f - 1) then 9 else 8 := by
  rw [classCode, Fmt.raw, if_pos ⟨h, htop⟩]
  by_cases hf : t.frac p = 0
  · rw [if_pos hf, if_pos hf]
  · rw [if_neg hf, if_neg hf]
    cases (t.frac p).testBit (t.f - 1) <;> rfl

end

theorem floatSelectRules : FloatSelectRules := by
  intro t c ht
  refine ⟨fun x y => ⟨fun h hi => ?_, minMaxV_precedes t c, fun hx hy _ _ hi => ?_⟩, fun p hp => ?_⟩
  · rw [minMaxV, if_pos ((Bool.or_eq_true _ _).mpr h)]
  · rw [minMaxV_values t c hx hy]
    split
    · exact .inl rfl
    · exact .inr rfl
  · intro neg x f pick
    obtain ⟨hw, he, htop⟩ := format_cases ht
    have hf := one_le_fraction ht
    have hsign : t.sign p = decide neg := (testBit_top (k := t.w - 1) (by rwa [Nat.sub_add_cancel hw])).1
    have hpick : ∀ a b : Nat, (if t.sign p = true then a else b) = if neg then a else b := fun a b => by
      rw [hsign]
      exact if_congr decide_eq_true_iff rfl rfl
    refine ⟨fun hx hf0 => ?_, fun hx hf0 => ?_, fun h0 h1 => ?_, fun hx hne => ⟨fun hf0 => ?_, fun hf0 => ?_⟩,
      fun hx he4 => ⟨fun hf7 => ?_, fun hf7 => ?_⟩⟩
    · exact (classCode_zero he hx).trans ((if_pos hf0).trans (hpick _ _))
    · exact (classCode_zero he hx).trans ((if_neg hf0).trans (hpick _ _))
    · exact (classCode_normal h0.ne' fun h => absurd h h1.ne).trans (hpick _ _)
    · exact (classCode_top hx (htop hne)).trans ((if_pos hf0).trans (hpick _ _))
    · have hfrac : p % 2 ^ t.f < 2 ^ (t.f - 1 + 1) := by
        rw [Nat.sub_add_cancel hf]
        exact Nat.mod_lt p (Nat.two_pow_pos _)
      exact (classCode_top hx (htop hne)).trans ((if_neg hf0).trans (if_congr (testBit_top hfrac).2 rfl rfl))
    · subst he4
      rw [classCode, Fmt.raw, if_neg (by simp [e4m3]), if_pos ⟨hx, hf7, rfl⟩]
      rfl
    · subst he4
      exact (classCode_normal (hx.trans_ne (by decide)) fun _ => ⟨rfl, hf7⟩).trans (hpick _ _)

/-! ## What is not finite (R117, R121, R126, R127) -/

section
variable (t : Fmt) (c : RCtl) {x y z : FV}

theorem addV_nan (h : x.isNan = true ∨ y.isNan = true) : addV t c x y = (t.nan, x.sigFlag ||| y.sigFlag) := by
  cases x with
  | nan => rfl
  | inf | fin =>
    cases y with
    | nan => rfl
    | inf | fin => simp [FV.isNan] at h

theorem mulV_nan (h : x.isNan = true ∨ y.isNan = true) : mulV t c x y = (t.nan, x.sigFlag ||| y.sigFlag) :=
  if_pos ((Bool.or_eq_true _ _).mpr h)

theorem divV_nan (h : x.isNan = true ∨ y.isNan = true) : divV t c x y = (t.nan, x.sigFlag ||| y.sigFlag) := by
  cases x with
  | nan => rfl
  | inf | fin =>
    cases y with
    | nan => rfl
    | inf | fin => simp [FV.isNan] at h

theorem addV_inf_left {p : Bool} (hz : z.isNan = false) :
    (z = .inf (!p) → addV t c (.inf p) z = invalid t) ∧ (z ≠ .inf (!p) → addV t c (.inf p) z = infResult t p) := by
  cases z with
  | nan => cases hz
  | inf q => cases p <;> cases q <;> simp [addV]
  | fin => exact ⟨nofun, fun _ => rfl⟩

theorem mulV_inf_fin (a b : Bool) (m : Nat) (e : Int) : mulV t c (.inf a) (.fin b m e) = if m = 0 then invalid t else infResult t (a != b) := by
  by_cases hm : m = 0 <;> simp [mulV, mulExact, FV.isNan, rndV, hm]

theorem mulV_fin_inf (a b : Bool) (m : Nat) (e : Int) : mulV t c (.fin b m e) (.inf a) = mulV t c (.inf a) (.fin b m e) := by
  by_cases hm : m = 0 <;> simp [mulV, mulExact, FV.isNan, rndV, hm]

theorem fmaV_nan (h : x.isNan = true ∨ y.isNan = true) : fmaV t c x y z = (t.nan, x.sigFlag ||| y.sigFlag ||| z.sigFlag) :=
  if_pos ((Bool.or_eq_true _ _).mpr h)

theorem fmaV_values (hx : x.isNan = false) (hy : y.isNan = false) {p : FV} (hp : mulExact x y = some p) :
    fmaV t c x y z = if z.isNan then (t.nan, x.sigFlag ||| y.sigFlag ||| z.sigFlag) else addV t c p z := by
  rw [fmaV, hx, hy, hp]
  rfl

/-- The sources whose product is 0 × ∞. -/
theorem mulExact_isSome (hx : x.isNan = false) (hy : y.isNan = false)
    (h : ¬∃ a b e, (x = .inf a ∧ y = .fin b 0 e) ∨ (x = .fin b 0 e ∧ y = .inf a)) : ∃ p, mulExact x y = some p := by
  cases x with
  | nan => cases hx
  | inf a =>
    cases y with
    | nan => cases hy
    | inf b => exact ⟨_, rfl⟩
    | fin b m e => exact ⟨_, if_neg fun hm => h ⟨a, b, e, .inl ⟨rfl, by rw [hm]⟩⟩⟩
  | fin b m e =>
    cases y with
    | nan => cases hy
    | inf a => exact ⟨_, if_neg fun hm => h ⟨a, b, e, .inr ⟨by rw [hm], rfl⟩⟩⟩
    | fin => exact ⟨_, rfl⟩

theorem mulExact_inf {a b : Bool} (h : ¬∃ a b e, (x = .inf a ∧ y = .fin b 0 e) ∨ (x = .fin b 0 e ∧ y = .inf a))
    (hxy : (x = .inf a ∧ y = .inf b) ∨ (x = .inf a ∧ ∃ m e, y = .fin b m e) ∨ (y = .inf a ∧ ∃ m e, x = .fin b m e)) :
    mulExact x y = some (.inf (a != b)) := by
  obtain ⟨rfl, rfl⟩ | ⟨rfl, m, e, rfl⟩ | ⟨rfl, m, e, rfl⟩ := hxy
  · rfl
  · exact if_neg fun hm => h ⟨a, b, e, .inl ⟨rfl, by rw [hm]⟩⟩
  · exact if_neg fun hm => h ⟨a, b, e, .inr ⟨by rw [hm], rfl⟩⟩

theorem unary_nan (h : x.isNan = true) : ∀ f ∈ [sqrtV t c, rsqrtV t c, exp2V t c, log2V t c], f x = (t.nan, x.sigFlag) := by
  cases x with
  | nan b => cases b <;> simp [sqrtV, rsqrtV, exp2V, log2V, FV.sigFlag]
  | inf | fin => cases h

end

theorem floatSpecialRules : FloatSpecialRules := by
  intro t c x y ht
  dsimp only
  refine ⟨fun h => ⟨addV_nan t c h, mulV_nan t c h⟩, ?_, ?_, divV_nan t c, ?_, fun z => ⟨fmaV_nan t c, ?_, fun hx hy hvoid => ?_⟩, unary_nan t c,
    rfl, rfl, rfl, rfl, rfl, rfl, rfl, rfl, fun a m e => ⟨rfl, rfl, fun hm => if_neg hm⟩⟩
  · rintro a b rfl rfl
    exact ⟨rfl, rfl⟩
  · rintro a b m e rfl rfl
    exact ⟨rfl, rfl, mulV_inf_fin t c a b m e, mulV_fin_inf t c a b m e, rfl, by rw [divV, bne_comm]⟩
  · rintro a b rfl rfl
    rfl
  · rintro ⟨a, b, e, ⟨rfl, rfl⟩ | ⟨rfl, rfl⟩⟩
    · rfl
    · rfl
  · obtain ⟨p, hp⟩ := mulExact_isSome hx hy hvoid
    refine ⟨fun hz => ?_, fun q hz hq => ?_, ?_, fun a b => mulExact_inf hvoid⟩
    · rw [fmaV_values t c hx hy hp, if_pos hz]
    · rw [fmaV_values t c hx hy hq, hz, if_neg Bool.false_ne_true]
      exact addV_inf_left t c hz
    · rintro a b d m n e k rfl rfl rfl
      rfl

end Sys2Proof.Proofs
end

section
/-! Conversions to and from integers (R132). -/

namespace Sys2Proof.Proofs
open Sys2Proof Sys2Proof.Machine Sys2Proof.Spec

section
variable {rm : BitVec 2} {neg : Bool} {y : ℝ} {r : Nat × Bool}

theorem RoundedInt.nearest (h : RoundedInt 0 neg y r) : |y - r.1| ≤ 1 / 2 ∧ (|y - r.1| = 1 / 2 → r.1 % 2 = 0) := by
  obtain ⟨n, h0, h1, hr, -, hex, hrnd⟩ := h
  by_cases hy : y = n
  · rw [hex hy, hy, sub_self, abs_zero]
    norm_num
  · obtain ⟨hdown, hup, htie⟩ := (hrnd hy).1 rfl
    obtain hr | hr := hr
    · rw [hr, abs_of_nonneg (by linarith), ← hr]
      exact ⟨by rw [hr]; exact hdown hr, fun h => htie (by rw [← hr]; exact h)⟩
    · rw [hr, Nat.cast_succ, abs_of_nonpos (by linarith), ← hr]
      exact ⟨by linarith [hup hr], fun h => htie (by linarith)⟩

theorem RoundedInt.down (h : RoundedInt rm neg y r) (hrm : rm ≠ 0) (ha : ¬away rm neg) : (r.1 : ℝ) ≤ y ∧ y < r.1 + 1 := by
  obtain ⟨n, h0, h1, hr, -, hex, hrnd⟩ := h
  have hrn : r.1 = n := by
    by_cases hy : y = n
    · exact hex hy
    · exact hr.resolve_right (mt ((hrnd hy).2 hrm).mp ha)
  rw [hrn]
  exact ⟨h0, h1⟩

theorem RoundedInt.up (h : RoundedInt rm neg y r) (hrm : rm ≠ 0) (ha : away rm neg) : (r.1 : ℝ) - 1 < y ∧ y ≤ r.1 := by
  obtain ⟨n, h0, h1, hr, -, hex, hrnd⟩ := h
  by_cases hy : y = n
  · rw [hex hy, hy]
    exact ⟨by linarith, le_rfl⟩
  · rw [((hrnd hy).2 hrm).mpr ha, Nat.cast_succ, add_sub_cancel_right]
    exact ⟨lt_of_le_of_ne h0 (Ne.symm hy), h1.le⟩

theorem RoundedInt.inexact_iff (h : RoundedInt rm neg y r) : r.2 = true ↔ (r.1 : ℝ) ≠ y := by
  obtain ⟨n, h0, h1, hr, hne, hex, -⟩ := h
  rw [hne, not_iff_not]
  refine ⟨fun hy => by rw [hex hy, hy], fun hy => ?_⟩
  obtain hr | hr := hr
  · rw [← hy, hr]
  · rw [hr, Nat.cast_succ] at hy
    linarith

end

section
variable {t : Fmt} {c : RCtl}

theorem toIntV_integerOf (rm : BitVec 2) (a : Bool) (m : Nat) (e : Int) :
    IntegerOf rm (realOf a m e) (toIntV rm a m e).1 ∧ ((toIntV rm a m e).2 = true ↔ ((toIntV rm a m e).1 : ℝ) ≠ realOf a m e) := by
  have hy : (0 : ℝ) ≤ m * 2 ^ e := by positivity
  have hr : RoundedInt rm a (m * 2 ^ e) (roundAt rm a m e false 0) := by
    have h := roundAt_spec (rm := rm) (neg := a) (q := 0) (denotes_exact (m := m) (e := e)) nofun
    rwa [zpow_zero, div_one] at h
  rw [realOf_eq, toIntV]
  generalize (m : ℝ) * 2 ^ e = y at *
  generalize roundAt rm a m e false 0 = r at *
  cases a with
  | false =>
    simp only [Bool.false_eq_true, if_false, Int.cast_natCast]
    refine ⟨⟨?_, fun h => ?_, fun h => ?_⟩, hr.inexact_iff⟩
    · rintro rfl
      exact_mod_cast hr.nearest
    · refine hr.down ?_ ?_
      · rintro rfl
        simp at h
      · rintro (⟨-, hneg⟩ | ⟨rfl, -⟩)
        · cases hneg
        · simp at h
    · obtain rfl : rm = 3 := h.resolve_right fun h => h.2.not_ge hy
      exact hr.up (by decide) (.inr ⟨rfl, rfl⟩)
  | true =>
    simp only [IntegerOf, if_true, Int.cast_neg, Int.cast_natCast]
    refine ⟨⟨?_, fun h => ?_, fun h => ?_⟩, ?_⟩
    · rintro rfl
      rw [neg_sub_neg, abs_sub_comm]
      obtain ⟨hle, heven⟩ := hr.nearest
      exact ⟨hle, fun h => by have := heven h; omega⟩
    · obtain rfl | ⟨rfl, h0⟩ := h
      · have h := hr.up (by decide) (.inl ⟨rfl, rfl⟩)
        exact ⟨by linarith, by linarith⟩
      · obtain rfl : y = 0 := by linarith
        have h := hr.down (by decide) (by simp [away])
        have hr0 : r.1 = 0 := by exact_mod_cast le_antisymm h.1 (Nat.cast_nonneg r.1)
        simp [hr0]
    · have h := hr.down (by rintro rfl; simp at h) fun ha =>
        ha.elim (fun ⟨h2, _⟩ => by simp [h2] at h) fun ⟨_, hneg⟩ => Bool.false_ne_true hneg.symm
      exact ⟨by linarith, by linarith⟩
    · rw [hr.inexact_iff, ne_eq, ne_eq, neg_inj]

/-- The clamp of R12, case by case. -/
theorem sats_cases (n : Int) (w : Nat) : (n < -2 ^ (w - 1) → sats n w = (-2 ^ (w - 1), true)) ∧
    (2 ^ (w - 1) - 1 < n → sats n w = (2 ^ (w - 1) - 1, true)) ∧ (-2 ^ (w - 1) ≤ n → n ≤ 2 ^ (w - 1) - 1 → sats n w = (n, false)) := by
  have hpos : (0 : Int) < 2 ^ (w - 1) := by positivity
  refine ⟨fun h => ?_, fun h => if_pos h, fun h0 h1 => ?_⟩
  · exact (if_neg (by omega)).trans (if_pos h)
  · exact (if_neg (by omega)).trans (if_neg (by omega))

theorem cvtInt_fin (a : Bool) (m : Nat) (e : Int) (w : Nat) :
    let lo : Int := -2 ^ (w - 1)
    let hi : Int := 2 ^ (w - 1) - 1
    ∃ n : Int, IntegerOf c.rm (realOf a m e) n ∧ (n < lo → cvtInt c w (.fin a m e) = (lo, fNV, true)) ∧
      (hi < n → cvtInt c w (.fin a m e) = (hi, fNV, true)) ∧
      (lo ≤ n → n ≤ hi → ((n : ℝ) = realOf a m e → cvtInt c w (.fin a m e) = (n, 0, false)) ∧
        ((n : ℝ) ≠ realOf a m e → cvtInt c w (.fin a m e) = (n, fNX, false))) := by
  intro lo hi
  obtain ⟨hint, hne⟩ := toIntV_integerOf c.rm a m e
  obtain ⟨hlo, hhi, hmid⟩ := sats_cases (toIntV c.rm a m e).1 w
  refine ⟨_, hint, fun h => ?_, fun h => ?_, fun h0 h1 => ⟨fun h => ?_, fun h => ?_⟩⟩
  · rw [cvtInt, hlo h]
    rfl
  · rw [cvtInt, hhi h]
    rfl
  · rw [cvtInt, hmid h0 h1]
    simp [Bool.eq_false_iff.mpr fun h' => hne.mp h' h]
  · rw [cvtInt, hmid h0 h1]
    simp [hne.mpr h]

theorem ofInt_rndValue (hf : 1 ≤ t.f) (v : Int) : RndValue t c false (v : ℝ) (ofInt t c v) := by
  have h := realOf_int v 0
  rw [zpow_zero, mul_one] at h
  rw [← h]
  refine rnd_realOf hf fun hv => ?_
  rw [Int.natAbs_eq_zero.mp hv]
  rfl

end

end Sys2Proof.Proofs
end

section
/-! Powers and logarithms of two (R127): RND of the exact result where it is a power or an integer, else RND of a real strictly between the exact
results on both sides (log 11). -/

namespace Sys2Proof.Proofs
open Sys2Proof Sys2Proof.Machine Sys2Proof.Spec

/-! ## Far outside every format -/

/-- What the six formats have in common: a fraction well inside `workBits`, an exponent range well inside ±8192. -/
theorem format_bounds {t : Fmt} (h : t ∈ [fp64, fp32, fp16, bf16, e5m2, e4m3]) :
    t.f ≤ 52 ∧ t.bias + t.f ≤ 8000 ∧ 1 ≤ t.maxMag ∧ t.maxMag < 8000 * 2 ^ t.f :=
  (by decide : ∀ t ∈ [fp64, fp32, fp16, bf16, e5m2, e4m3], t.f ≤ 52 ∧ t.bias + t.f ≤ 8000 ∧ 1 ≤ t.maxMag ∧ t.maxMag < 8000 * 2 ^ t.f) t h

section
variable {t : Fmt} {c : RCtl} {neg : Bool} {m : Nat} {e : Int} {sticky : Bool}

theorem rnd_far_above (ht : t ∈ [fp64, fp32, fp16, bf16, e5m2, e4m3]) (hm : m ≠ 0) (he : 8192 ≤ m.log2 + e) :
    rnd t c neg m e sticky = (t.signed neg (overflow t c.rm neg).1, (overflow t c.rm neg).2) := by
  obtain ⟨-, hbias, -, hmax⟩ := format_bounds ht
  rw [rnd, if_neg fun h => hm h.1]
  dsimp only
  generalize (m.log2 + e : Int) = E at *
  refine (if_neg fun h => ?_).trans (if_pos ?_)
  · obtain ⟨h, -⟩ := h
    omega
  · rw [if_neg (by omega)]
    calc t.maxMag < 8000 * 2 ^ t.f := hmax
      _ ≤ ((max (E - t.f) (1 - (t.bias : Int) - t.f) - (1 - (t.bias : Int) - t.f)).toNat + 1) * 2 ^ t.f := Nat.mul_le_mul_right _ (by omega)
      _ ≤ _ := Nat.le_add_right _ _

theorem roundAt_far_below {rm : BitVec 2} {q : Int} (hm : m ≠ 0) (hq : m.log2 + e + 2 ≤ q) :
    roundAt rm neg m e sticky q = (if rm = 2 ∧ neg = true ∨ rm = 3 ∧ neg = false then 1 else 0, true) := by
  have hlt : 2 * m < 2 ^ (q - e).toNat := by
    calc 2 * m < 2 * 2 ^ (m.log2 + 1) := Nat.mul_lt_mul_of_pos_left Nat.lt_log2_self two_pos
      _ = 2 ^ (m.log2 + 2) := by rw [← Nat.pow_succ']
      _ ≤ 2 ^ (q - e).toNat := Nat.pow_le_pow_right two_pos (by omega)
  rw [roundAt, if_neg (by omega)]
  dsimp only
  rw [Nat.div_eq_of_lt (by omega), Nat.mod_eq_of_lt (by omega), Nat.zero_add]
  obtain rfl | hrm := eq_or_ne rm 0
  · simp [hm, hlt.ne, hlt.not_gt]
  · obtain rfl | rfl | rfl := mode_of_ne_zero rm hrm
    · simp [hm]
    · simp [hm]
    · simp [hm]

theorem rnd_far_below (ht : t ∈ [fp64, fp32, fp16, bf16, e5m2, e4m3]) (hm : m ≠ 0) (he : m.log2 + e ≤ -8192) :
    rnd t c neg m e sticky = if c.ftz then (t.signed neg 0, fUF ||| fNX)
      else (t.signed neg (if c.rm = 2 ∧ neg = true ∨ c.rm = 3 ∧ neg = false then 1 else 0), fNX ||| fUF) := by
  obtain ⟨-, hbias, hmax, -⟩ := format_bounds ht
  rw [rnd, if_neg fun h => hm h.1]
  dsimp only
  rw [max_eq_right (by omega), if_pos rfl, roundAt_far_below (q := 1 - (t.bias : Int) - t.f) hm (by omega)]
  have htiny : m.log2 + e < 1 - (t.bias : Int) - 1 := by omega
  simp only [htiny, true_or, true_and, and_true, if_true]
  split
  · rfl
  · refine if_neg (not_lt.mpr ?_)
    split <;> omega

end

/-! ## 2^x -/

theorem expSum_mono {z z' : Nat} (hz : z ≤ z') (n k : Nat) {p p' : Nat} (hp : p ≤ p') : expSum z n p k ≤ expSum z' n p' k := by
  induction n generalizing p p' k with
  | zero => exact le_rfl
  | succ n ih => exact Nat.add_le_add hp (ih _ (Nat.div_le_div_right (Nat.div_le_div_right (Nat.mul_le_mul hp hz))))

theorem ln2_bounds : 0 < ln2 ∧ ln2 ≤ 2 ^ workBits := by decide +kernel

/-- The series stays below 2 at the largest argument that `exp2V` gives it. -/
theorem expSum_ln2 : expSum (ln2 - 1) 160 (2 ^ workBits) 1 < 2 ^ (workBits + 1) := by decide +kernel

theorem expSum_bounds {fr : Nat} (h : fr < 2 ^ workBits) :
    2 ^ workBits ≤ expSum (fr * ln2 / 2 ^ workBits) 160 (2 ^ workBits) 1 ∧
      expSum (fr * ln2 / 2 ^ workBits) 160 (2 ^ workBits) 1 < 2 ^ (workBits + 1) := by
  refine ⟨Nat.le_add_right _ _, (expSum_mono ?_ 160 1 le_rfl).trans_lt expSum_ln2⟩
  have : fr * ln2 / 2 ^ workBits < ln2 := Nat.div_lt_of_lt_mul (Nat.mul_lt_mul_of_pos_right h ln2_bounds.1)
  omega

section
variable {t : Fmt} {c : RCtl} {a : Bool} {m : Nat} {e : Int}

theorem exp2V_huge (ht : t ∈ [fp64, fp32, fp16, bf16, e5m2, e4m3]) (hm : m ≠ 0) (he : 13 ≤ m.log2 + e) {M : Nat} {k n : Int} (hM : M ≠ 0)
    (hMk : M.log2 + k = n) (hlo : (n : ℝ) ≤ realOf a m e) (hhi : realOf a m e < n + 1) :
    RndOf t c false (M * 2 ^ k) (exp2V t c (.fin a m e)) := by
  have hx : (8192 : ℝ) ≤ m * 2 ^ e := by
    calc (8192 : ℝ) = 2 ^ (13 : ℤ) := by norm_num
      _ ≤ 2 ^ (m.log2 + e : ℤ) := zpow_le_zpow_right₀ one_le_two he
      _ ≤ m * 2 ^ e := ((denotes_exact (m := m) (e := e)).binade hm).1
  have hr : RndOf t c false (M * 2 ^ k) (rnd t c false M k false) := rnd_rndOf (one_le_fraction ht) denotes_exact hM nofun
  rw [exp2V, if_neg hm, if_pos he]
  cases a with
  | false =>
    rw [realOf_eq, if_neg Bool.false_ne_true] at hlo hhi
    have hn : 8191 < n := by exact_mod_cast (by linarith : (8191 : ℝ) < n)
    rw [rnd_far_above ht hM (by omega)] at hr
    rwa [rnd_far_above ht one_ne_zero (by decide)]
  | true =>
    rw [realOf_eq, if_pos rfl] at hlo hhi
    have hn : n ≤ -8192 := by exact_mod_cast (by linarith : (n : ℝ) ≤ -8192)
    rw [rnd_far_below ht hM (by omega)] at hr
    rwa [rnd_far_below ht one_ne_zero (by decide)]

/-- A finite value as a fraction: its scaled integer over 2^d. -/
theorem realOf_scaled (a : Bool) (m : Nat) (e : Int) : realOf a m e * (2 ^ (-(min e 0)).toNat : Nat) = scaled a m e (min e 0) := by
  have h := zpow_sub_toNat (min_le_right e 0)
  rw [zero_sub, zpow_zero] at h
  rw [← scaled_realOf a m (min_le_left e 0), Nat.cast_pow, Nat.cast_ofNat, h]
  field_simp

theorem exp2V_exact (ht : t ∈ [fp64, fp32, fp16, bf16, e5m2, e4m3]) {n : Int} (hx : realOf a m e = n) :
    RndOf t c false ((2 : ℝ) ^ n) (exp2V t c (.fin a m e)) := by
  have hone : ∀ k : Int, RndOf t c false ((1 : Nat) * 2 ^ k) (rnd t c false 1 k false) := fun k =>
    rnd_rndOf (one_le_fraction ht) denotes_exact one_ne_zero nofun
  have hpow : (2 : ℝ) ^ n = (1 : Nat) * 2 ^ n := by rw [Nat.cast_one, one_mul]
  rw [hpow]
  by_cases hm : m = 0
  · have hn : n = 0 := by
      subst hm
      exact_mod_cast (show (n : ℝ) = 0 by rw [← hx]; simp [realOf])
    rw [exp2V, if_pos hm, hn]
    exact hone 0
  by_cases he : 13 ≤ m.log2 + e
  · exact exp2V_huge ht hm he one_ne_zero (by rw [show Nat.log2 1 = 0 by decide, Nat.cast_zero, zero_add]) hx.ge (by linarith)
  · have hscaled := realOf_scaled a m e
    rw [hx] at hscaled
    have hsn : scaled a m e (min e 0) = n * (2 ^ (-(min e 0)).toNat : Nat) := by exact_mod_cast hscaled.symm
    have hd : ((2 ^ (-(min e 0)).toNat : Nat) : Int) ≠ 0 := by exact_mod_cast (Nat.two_pow_pos _).ne'
    rw [exp2V, if_neg hm, if_neg he]
    dsimp only
    rw [hsn, if_pos (Int.mul_emod_left _ _), Int.mul_ediv_cancel _ hd]
    exact hone n

/-- The integer part of the fraction s / D, from s / D to `workBits` bits. -/
theorem integer_part {s D W n : Int} (hD : 0 < D) (hW : 0 < W) (hlo : n * D < s) (hhi : s < (n + 1) * D) : s % D ≠ 0 ∧ s * W / D / W = n := by
  refine ⟨fun h => ?_, ?_⟩
  · obtain ⟨q, rfl⟩ := Int.dvd_of_emod_eq_zero h
    rw [mul_comm D] at hlo hhi
    have := lt_of_mul_lt_mul_right hlo hD.le
    have := lt_of_mul_lt_mul_right hhi hD.le
    omega
  · rw [Int.ediv_ediv_of_nonneg hD.le, Int.mul_ediv_mul_of_pos_left _ _ hW]
    exact (Int.ediv_eq_iff_of_pos hD).mpr ⟨hlo.le, by rwa [← add_one_mul]⟩

/-- A sum of `workBits` fraction bits, cut short, stands for a real strictly between two powers of two. -/
theorem rnd_power {S W : Nat} (hf : 1 ≤ t.f) (hW : t.f + 1 ≤ W) (hlo : 2 ^ W ≤ S) (hhi : S < 2 ^ (W + 1)) (n : Int) :
    ∃ v : ℝ, (2 : ℝ) ^ n < v ∧ v < (2 : ℝ) ^ (n + 1) ∧ RndOf t c false v (rnd t c false S (n - W) true) := by
  have hu : (0 : ℝ) < 2 ^ (n - W) := by positivity
  have hn : (2 : ℝ) ^ n = 2 ^ W * 2 ^ (n - W) := by rw [zpow_sub₀ two_ne_zero, zpow_natCast, mul_div_cancel₀ _ (by positivity)]
  have hlo' : (2 : ℝ) ^ W ≤ S := by exact_mod_cast hlo
  have hhi' : (S : ℝ) + 1 ≤ 2 ^ W * 2 := by exact_mod_cast Nat.succ_le_of_lt hhi
  refine ⟨(S + 1 / 2) * 2 ^ (n - W), ?_, ?_, rnd_rndOf hf (denotes_lost ?_ ?_) ?_ fun _ => ?_⟩
  · rw [hn, mul_lt_mul_iff_left₀ hu]
    linarith
  · rw [zpow_add_one₀ two_ne_zero, hn, mul_right_comm, mul_lt_mul_iff_left₀ hu]
    linarith
  · rw [mul_lt_mul_iff_left₀ hu]
    linarith
  · rw [mul_lt_mul_iff_left₀ hu]
    linarith
  · exact ((Nat.two_pow_pos W).trans_le hlo).ne'
  · exact (Nat.pow_le_pow_right two_pos hW).trans hlo

theorem exp2V_between (ht : t ∈ [fp64, fp32, fp16, bf16, e5m2, e4m3]) {n : Int} (hlo : (n : ℝ) < realOf a m e) (hhi : realOf a m e < n + 1) :
    ∃ v : ℝ, (2 : ℝ) ^ n < v ∧ v < (2 : ℝ) ^ (n + 1) ∧ RndOf t c false v (exp2V t c (.fin a m e)) := by
  have hf := one_le_fraction ht
  obtain ⟨hf52, -⟩ := format_bounds ht
  have hn : (0 : ℝ) < 2 ^ n := by positivity
  have hm : m ≠ 0 := by
    rintro rfl
    have h0 : realOf a 0 e = 0 := by simp [realOf]
    rw [h0] at hlo hhi
    have : n < 0 := by exact_mod_cast hlo
    have : (-1 : Int) < n := by exact_mod_cast (by linarith : (-1 : ℝ) < n)
    omega
  by_cases he : 13 ≤ m.log2 + e
  · refine ⟨(3 : Nat) * 2 ^ (n - 1), ?_, ?_, exp2V_huge ht hm he three_ne_zero ?_ hlo.le hhi⟩
    · rw [zpow_sub_one₀ two_ne_zero]
      push_cast
      linarith
    · rw [zpow_sub_one₀ two_ne_zero, zpow_add_one₀ two_ne_zero]
      push_cast
      linarith
    · rw [show Nat.log2 3 = 1 by decide]
      push_cast
      ring
  · have hscaled := realOf_scaled a m e
    have hD : (0 : ℝ) < (2 ^ (-(min e 0)).toNat : Nat) := by positivity
    have hlo' : n * ((2 ^ (-(min e 0)).toNat : Nat) : Int) < scaled a m e (min e 0) := by
      exact_mod_cast (by rw [← hscaled]; gcongr : (n : ℝ) * (2 ^ (-(min e 0)).toNat : Nat) < scaled a m e (min e 0))
    have hhi' : scaled a m e (min e 0) < (n + 1) * ((2 ^ (-(min e 0)).toNat : Nat) : Int) := by
      exact_mod_cast (by rw [← hscaled]; gcongr : (scaled a m e (min e 0) : ℝ) < (n + 1) * (2 ^ (-(min e 0)).toNat : Nat))
    obtain ⟨hmod, hpart⟩ := integer_part (W := 2 ^ workBits) (by exact_mod_cast Nat.two_pow_pos _) (by positivity) hlo' hhi'
    rw [exp2V, if_neg hm, if_neg he]
    dsimp only
    rw [if_neg hmod, Nat.cast_pow 2 workBits, Nat.cast_ofNat, hpart]
    generalize hfr : (scaled a m e (min e 0) * 2 ^ workBits / ((2 ^ (-(min e 0)).toNat : Nat) : Int) % 2 ^ workBits).toNat = fr
    have hfr' : fr < 2 ^ workBits := by
      have h0 : (0 : Int) < 2 ^ workBits := by positivity
      have h1 := Int.emod_lt_of_pos (scaled a m e (min e 0) * 2 ^ workBits / ((2 ^ (-(min e 0)).toNat : Nat) : Int)) h0
      have h2 := Int.emod_nonneg (scaled a m e (min e 0) * 2 ^ workBits / ((2 ^ (-(min e 0)).toNat : Nat) : Int)) h0.ne'
      zify
      omega
    obtain ⟨hS0, hS1⟩ := expSum_bounds hfr'
    exact rnd_power hf (by unfold workBits; omega) hS0 hS1 n

end

end Sys2Proof.Proofs
end

section
/-! Logarithms of two (R127): the series of artanh against that of ln 2, and the conversion rules put together. -/

namespace Sys2Proof.Proofs
open Sys2Proof Sys2Proof.Machine Sys2Proof.Spec

/-! ## The quotient of the two series -/

theorem artanhSum_mono {x x' : Nat} (hx : x ≤ x') (n k : Nat) {p p' : Nat} (hp : p ≤ p') : artanhSum x n p k ≤ artanhSum x' n p' k := by
  induction n generalizing p p' k with
  | zero => exact le_rfl
  | succ n ih => exact Nat.add_le_add (Nat.div_le_div_right hp) (ih _ (Nat.div_le_div_right (Nat.mul_le_mul hp hx)))

theorem artanhSum_first (x n p : Nat) : artanhSum x (n + 1) p 1 = p + artanhSum x n (p * x / 2 ^ workBits) 3 := by
  rw [artanhSum, Nat.div_one]

/-- The first term alone keeps a distance of the arguments. -/
theorem artanhSum_add_le {u u' g : Nat} (h : u + g ≤ u') :
    artanhSum (u * u / 2 ^ workBits) 210 u 1 + g ≤ artanhSum (u' * u' / 2 ^ workBits) 210 u' 1 := by
  have hle : u ≤ u' := (Nat.le_add_right u g).trans h
  have hx : u * u / 2 ^ workBits ≤ u' * u' / 2 ^ workBits := Nat.div_le_div_right (Nat.mul_le_mul hle hle)
  have hrest := artanhSum_mono hx 209 3 (Nat.div_le_div_right (c := 2 ^ workBits) (Nat.mul_le_mul hle hx))
  rw [artanhSum_first _ 209, artanhSum_first _ 209]
  omega

theorem artanh2_bounds {a b : Nat} (ha : 1 ≤ a) (hab : 3 * a + 2 ≤ b) (hb : b < 2 ^ 54) :
    2 ^ 53 ≤ artanh2 a b ∧ artanh2 a b + 2 ^ 53 ≤ ln2 := by
  have hb0 : 0 < b := by omega
  have hW : 2 ^ 110 ≤ 2 ^ workBits := pow_le_pow_right₀ one_le_two (by decide)
  have hu : 2 ^ 53 ≤ a * 2 ^ workBits / b := by
    rw [Nat.le_div_iff_mul_le hb0]
    nlinarith
  have hgap : a * 2 ^ workBits / b + 2 ^ 53 ≤ 1 * 2 ^ workBits / 3 := by
    have hub : a * 2 ^ workBits / b * b ≤ a * 2 ^ workBits := Nat.div_mul_le_self _ _
    rw [Nat.le_div_iff_mul_le (by decide), Nat.one_mul]
    refine Nat.le_of_mul_le_mul_right ?_ hb0
    calc (a * 2 ^ workBits / b + 2 ^ 53) * 3 * b = 3 * (a * 2 ^ workBits / b * b) + 3 * 2 ^ 53 * b := by ring
      _ ≤ 3 * (a * 2 ^ workBits) + 2 * 2 ^ workBits := by omega
      _ = (3 * a + 2) * 2 ^ workBits := by ring
      _ ≤ 2 ^ workBits * b := by rw [Nat.mul_comm]; exact Nat.mul_le_mul_left _ hab
  have h := artanhSum_add_le hgap
  have hfirst := artanhSum_add_le (u := 0) ((Nat.zero_add _).trans_le hu)
  rw [ln2, artanh2, artanh2]
  omega

/-- The binary logarithm of a significand strictly between 1 and 2, to `workBits` bits, stays well inside (0, 1). -/
theorem log_quotient {a b : Nat} (ha : 1 ≤ a) (hab : 3 * a + 2 ≤ b) (hb : b < 2 ^ 54) :
    2 ^ 53 ≤ artanh2 a b * 2 ^ workBits / ln2 ∧ artanh2 a b * 2 ^ workBits / ln2 + 2 ^ 53 ≤ 2 ^ workBits := by
  obtain ⟨hlo, hhi⟩ := artanh2_bounds ha hab hb
  obtain ⟨hpos, hle⟩ := ln2_bounds
  refine ⟨?_, ?_⟩
  · rw [Nat.le_div_iff_mul_le hpos]
    exact Nat.mul_le_mul hlo hle
  · refine Nat.le_of_mul_le_mul_right ?_ hpos
    calc (artanh2 a b * 2 ^ workBits / ln2 + 2 ^ 53) * ln2 ≤ artanh2 a b * 2 ^ workBits + 2 ^ 53 * ln2 := by
          rw [Nat.add_mul]
          exact Nat.add_le_add_right (Nat.div_mul_le_self _ _) _
      _ ≤ artanh2 a b * 2 ^ workBits + 2 ^ 53 * 2 ^ workBits := Nat.add_le_add_left (Nat.mul_le_mul_left _ hle) _
      _ = (artanh2 a b + 2 ^ 53) * 2 ^ workBits := by ring
      _ ≤ 2 ^ workBits * ln2 := by rw [Nat.mul_comm]; exact Nat.mul_le_mul_left _ hhi

/-! ## log2 x -/

section
variable {t : Fmt} {c : RCtl} {a : Bool} {m : Nat} {e : Int}

theorem positive_of_realOf (h : 0 < realOf a m e) : a = false ∧ m ≠ 0 := by
  have hm : (0 : ℝ) ≤ m * 2 ^ e := by positivity
  rw [realOf_eq] at h
  refine ⟨?_, ?_⟩
  · cases a with
    | false => rfl
    | true =>
      rw [if_pos rfl] at h
      linarith
  · rintro rfl
    simp at h

/-- A binade holds the power of two at its bottom and nothing of the next. -/
theorem binade_unique {x : ℝ} {E n : Int} (hx : (2 : ℝ) ^ E ≤ x ∧ x < 2 ^ (E + 1)) (hlo : (2 : ℝ) ^ n ≤ x) (hhi : x < 2 ^ (n + 1)) : E = n := by
  have h1 := (zpow_lt_zpow_iff_right₀ one_lt_two).mp (hx.1.trans_lt hhi)
  have h2 := (zpow_lt_zpow_iff_right₀ one_lt_two).mp (hlo.trans_lt hx.2)
  omega

theorem significand_eq_pow_iff : m = 2 ^ m.log2 ↔ (m : ℝ) * 2 ^ e = 2 ^ (m.log2 + e : Int) := by
  have he : (2 : ℝ) ^ e ≠ 0 := by positivity
  rw [zpow_add₀ two_ne_zero, mul_left_inj' he, zpow_natCast]
  exact_mod_cast Iff.rfl

theorem log2V_exact (hf : 1 ≤ t.f) {n : Int} (hx : realOf a m e = 2 ^ n) : RndValue t c false (n : ℝ) (log2V t c (.fin a m e)) := by
  obtain ⟨rfl, hm⟩ := positive_of_realOf (a := a) (m := m) (e := e) (by rw [hx]; positivity)
  rw [realOf_eq, if_neg Bool.false_ne_true] at hx
  have hbin := (denotes_exact (m := m) (e := e)).binade hm
  rw [hx] at hbin
  have hE := binade_unique hbin le_rfl (zpow_lt_zpow_right₀ one_lt_two (lt_add_one n))
  rw [log2V, if_neg hm, if_neg Bool.false_ne_true]
  dsimp only
  rw [if_pos ((significand_eq_pow_iff (e := e)).mpr (by rw [hE, hx])), hE]
  exact ofInt_rndValue hf n

/-- A logarithm cut short to `workBits` bits away from the integers stands for a real strictly between two of them. -/
theorem rnd_logarithm {y : Nat} {W : Nat} (hf : 1 ≤ t.f) (hf52 : t.f ≤ 52) (hlo : 2 ^ 53 ≤ y) (hhi : y + 2 ^ 53 ≤ 2 ^ W) (n : Int) :
    let r : Int := n * (2 ^ W : Nat) + y
    ∃ v : ℝ, (n : ℝ) < v ∧ v < n + 1 ∧ RndValue t c false v (rnd t c (decide (r < 0)) r.natAbs (-(W : Int)) true) := by
  intro r
  have hW : (0 : ℝ) < 2 ^ W := by positivity
  have hu : (0 : ℝ) < 2 ^ (-(W : Int)) := by positivity
  have hWu : (2 : ℝ) ^ W * 2 ^ (-(W : Int)) = 1 := by rw [zpow_neg, zpow_natCast, mul_inv_cancel₀ hW.ne']
  have hr : (r : ℝ) = n * 2 ^ W + y := by simp [r]
  have hy0 : (1 : ℝ) ≤ y := by exact_mod_cast (by omega : 1 ≤ y)
  have hy1 : (y : ℝ) + 1 ≤ 2 ^ W := by exact_mod_cast (by omega : y + 1 ≤ 2 ^ W)
  have hlarge : 2 ^ 53 ≤ r.natAbs := by
    obtain hn | hn := lt_or_ge n 0
    · have : n * (2 ^ W : Nat) ≤ -1 * (2 ^ W : Nat) := Int.mul_le_mul_of_nonneg_right (by omega) (Int.natCast_nonneg _)
      omega
    · have : 0 ≤ n * (2 ^ W : Nat) := Int.mul_nonneg hn (Int.natCast_nonneg _)
      omega
  have hval : ∀ s : ℝ, (n : ℝ) * 2 ^ W < s → s < (n + 1) * 2 ^ W →
      (n : ℝ) < s * 2 ^ (-(W : Int)) ∧ s * 2 ^ (-(W : Int)) < n + 1 := fun s h0 h1 => by
    have h0' := mul_lt_mul_of_pos_right h0 hu
    have h1' := mul_lt_mul_of_pos_right h1 hu
    rw [mul_assoc, hWu, mul_one] at h0' h1'
    exact ⟨h0', h1'⟩
  have hrnd := rnd_rndValue (c := c) (neg := decide (r < 0)) (zero := false) hf (denotes_lost (m := r.natAbs) (e := -(W : Int))
    (x := (r.natAbs + 1 / 2) * 2 ^ (-(W : Int))) (by gcongr; linarith) (by gcongr; linarith)) (by omega)
    fun _ => (Nat.pow_le_pow_right two_pos (Nat.succ_le_succ hf52)).trans hlarge
  by_cases hneg : r < 0
  · have habs : (r.natAbs : ℝ) = -r := by rw [Nat.cast_natAbs, Int.cast_abs, abs_of_neg (by exact_mod_cast hneg)]
    rw [decide_eq_true hneg, if_pos rfl, ← neg_mul, habs] at hrnd
    obtain ⟨h0, h1⟩ := hval (-(-r + 1 / 2)) (by linarith) (by linarith)
    rw [decide_eq_true hneg]
    exact ⟨_, h0, h1, hrnd⟩
  · have habs : (r.natAbs : ℝ) = r := by rw [Nat.cast_natAbs, Int.cast_abs, abs_of_nonneg (by exact_mod_cast not_lt.mp hneg)]
    rw [decide_eq_false hneg, if_neg Bool.false_ne_true, habs] at hrnd
    obtain ⟨h0, h1⟩ := hval (r + 1 / 2) (by linarith) (by linarith)
    rw [decide_eq_false hneg]
    exact ⟨_, h0, h1, hrnd⟩

theorem log2V_between (ht : t ∈ [fp64, fp32, fp16, bf16, e5m2, e4m3]) (hm53 : m < 2 ^ 53) {n : Int} (hlo : (2 : ℝ) ^ n < realOf a m e)
    (hhi : realOf a m e < 2 ^ (n + 1)) : ∃ v : ℝ, (n : ℝ) < v ∧ v < n + 1 ∧ RndValue t c false v (log2V t c (.fin a m e)) := by
  obtain ⟨hf52, -⟩ := format_bounds ht
  obtain ⟨rfl, hm⟩ := positive_of_realOf (hlo.trans' (by positivity))
  rw [realOf_eq, if_neg Bool.false_ne_true] at hlo hhi
  have hE := binade_unique ((denotes_exact (m := m) (e := e)).binade hm) hlo.le hhi
  have hpow : m ≠ 2 ^ m.log2 := fun h => hlo.ne' (by rw [significand_eq_pow_iff.mp h, hE])
  have hL0 := Nat.log2_self_le hm
  have hL1 : m < 2 ^ m.log2 * 2 := Nat.lt_log2_self
  obtain ⟨hy0, hy1⟩ := log_quotient (a := m - 2 ^ m.log2) (b := m + 2 ^ m.log2) (by omega) (by omega) (by omega)
  rw [log2V, if_neg hm, if_neg Bool.false_ne_true]
  dsimp only
  rw [if_neg hpow, hE]
  exact rnd_logarithm (one_le_fraction ht) hf52 hy0 hy1 n

/-- The significand of a pattern has one bit more than the fraction. -/
theorem raw_significand {p : Nat} (h : t.raw p = .fin a m e) : m < 2 ^ (t.f + 1) := by
  have hfrac : t.frac p < 2 ^ t.f := Nat.mod_lt _ (Nat.two_pow_pos _)
  rw [Nat.pow_succ]
  rw [Fmt.raw] at h
  split at h
  · split at h
    · cases h
    · cases h
  · split at h
    · cases h
    · split at h
      · cases h
        omega
      · cases h
        omega

end

theorem floatConversionRules : FloatConversionRules := by
  intro t c a m e ht
  have hf := one_le_fraction ht
  refine ⟨rnd_realOf hf fun _ => rfl, fun n => rfl, ofInt_rndValue hf, fun w _ => ⟨fun b => rfl, rfl, rfl, cvtInt_fin a m e w⟩,
    fun n => exp2V_exact ht, fun n => log2V_exact hf, fun p _ hraw n => ⟨exp2V_between ht, log2V_between ht ?_⟩⟩
  obtain ⟨hf52, -⟩ := format_bounds ht
  exact (raw_significand hraw).trans_le (Nat.pow_le_pow_right two_pos (Nat.succ_le_succ hf52))

/-- Settles O38: every operation gives `rnd` a bracket of its exact value, and `rnd_rndOf` says that `rnd` is RND of it. -/
theorem floatRules : Obligations.FloatRules :=
  ⟨floatSignRules, roundingModes, floatArithmeticRules, floatSpecialRules, floatSelectRules, floatConversionRules⟩

end Sys2Proof.Proofs
end

section
/-! O41. Branches, jumps and immediates on a hart that nothing makes wait. -/

namespace Sys2Proof.Proofs
open Sys2Proof Sys2Proof.Machine Sys2Proof.Spec

/-! ## Offsets and waits (R20, R21, R156) -/

theorem ready_inflight {s : State} (h : Ready s = true) : s.hart.inflight = [] := by
  obtain ⟨-, -, hi, -⟩ := (ready_iff s).mp h
  exact hi

/-- With nothing in flight there is nothing that `p` accepts to wait for. -/
theorem drainedOf_ready {s : State} (hr : Ready s = true) (p : Inflight → Bool) (k : State → Res) : drainedOf p s k = k s := by
  rw [drainedOf, ready_inflight hr, List.any_nil, if_neg Bool.false_ne_true]

/-- An offset in instructions, as a distance in bytes. -/
theorem word_four_mul {w : Nat} (v : BitVec w) : word (4 * v.toInt) = v.signExtend 64 * 4 := by
  rw [word, BitVec.ofInt_mul, BitVec.mul_comm]
  rfl

theorem branchTo_eq (taken : Bool) (o : BitVec 10) (s : State) :
    branchTo taken o s = .ok (s.setHart (goTo s.hart (s.hart.pc + (if taken then o.signExtend 64 * 4 else 4)))) := by
  rw [← word_four_mul]
  cases taken <;> rfl

/-! ## The conditions of the branches (R36, R157, R158, R159) -/

theorem anyIn_zero_eq_any (p : Nat → Bool) (n : Nat) : anyIn p 0 n = (List.range n).any p := by
  rw [Bool.eq_iff_iff, anyIn_iff, List.any_eq_true]
  simp

theorem branchRow_br (x : ArgsB) : branchRow (.br x) = some (x.o, brTaken x) := by
  rw [branchRow]
  congr 2
  funext s
  simp only [brTaken, brCond, BitVec.toNat_eq]
  generalize x.c.toNat = n
  match n with
  | 0 | 1 | 2 | 4 => rfl
  | 3 => exact BitVec.sle_eq_not_slt.symm
  | n + 5 => simp [BitVec.ule_eq_not_ult]

theorem branchRow_brm (x : ArgsBrm) : branchRow (.brm x) = some (x.o, brmTaken x) := by
  rw [branchRow]
  congr 2
  funext s
  simp only [brmTaken, BitVec.toNat_eq, anyIn_zero_eq_any, List.all_eq_not_any_not]
  generalize x.c.toNat = n
  match n with
  | 0 | 1 => rfl
  | n + 2 => simp

theorem branchRow_brs (x : ArgsB) : branchRow (.brs x) = some (x.o, brsTaken x) := rfl

theorem handleChan_eq_some_iff (s : State) (b : Nat) (ch : Channel) :
    handleChan s b = some ch ↔ ∃ c, SMap.find? s.hart.handles b = some c ∧ s.chan c = some ch := by
  rw [handleChan]
  split
  · next c hc => simp [hc]
  · next hc => simp [hc]

theorem ownRound_eq_some_iff (s : State) (b : Nat) (r : Round) :
    ownRound s b = some r ↔ SMap.find? s.rounds b = some r ∧ r.ctx = s.ctxid := by
  rw [ownRound]
  split
  · next q hq =>
    have hif : (if q.ctx = s.ctxid then some q else none) = some r ↔ q = r ∧ q.ctx = s.ctxid := by
      rw [Option.ite_none_right_eq_some, Option.some_inj, and_comm]
    rw [hif, hq, Option.some_inj]
    exact and_congr_right fun h => h ▸ Iff.rfl
  · next hq => simp [hq]

theorem brsUnsettled_eq (a b : Nat) (s : State) : brsUnsettled a b s = (s.detm &&
    if a = 1 then (handleChan s b).any fun x => x.state == .queued || x.state == .running || x.state == .blocked
    else if a = 2 then (ownRound s b).any fun r => r.state == .joining || r.state == .opened
    else false) := by
  rw [brsUnsettled]
  cases handleChan s b <;> cases ownRound s b <;> rfl

theorem brsUnsettled_iff (x : ArgsB) (s : State) : brsUnsettled x.a.toNat x.b.toNat s = true ↔ Unsettled x s := by
  have ha1 : x.a.toNat = 1 ↔ x.a = 1 := by rw [BitVec.toNat_eq]; rfl
  have ha2 : x.a.toNat = 2 ↔ x.a = 2 := by rw [BitVec.toNat_eq]; rfl
  have hchan : ((handleChan s x.b.toNat).any fun x => x.state == .queued || x.state == .running || x.state == .blocked) = true ↔
      ∃ c ch, SMap.find? s.hart.handles x.b.toNat = some c ∧ s.chan c = some ch ∧ ch.state ∈ [.queued, .running, .blocked] := by
    simp only [Option.any_eq_true, handleChan_eq_some_iff, Bool.or_eq_true, beq_iff_eq, List.mem_cons, List.not_mem_nil, or_false, or_assoc]
    exact ⟨fun ⟨ch, ⟨c, hc, hch⟩, hst⟩ => ⟨c, ch, hc, hch, hst⟩, fun ⟨c, ch, hc, hch, hst⟩ => ⟨ch, ⟨c, hc, hch⟩, hst⟩⟩
  have hround : ((ownRound s x.b.toNat).any fun r => r.state == .joining || r.state == .opened) = true ↔
      ∃ r, SMap.find? s.rounds x.b.toNat = some r ∧ r.ctx = s.ctxid ∧ r.state ∈ [.joining, .opened] := by
    simp only [Option.any_eq_true, ownRound_eq_some_iff, Bool.or_eq_true, beq_iff_eq, List.mem_cons, List.not_mem_nil, or_false, and_assoc]
  rw [brsUnsettled_eq, Bool.and_eq_true, detm_eq_detmSeen, Unsettled]
  refine and_congr_right fun _ => ?_
  rw [← hchan, ← hround, ← ha1, ← ha2]
  split
  · next h => simp [h]
  · next h1 =>
    split
    · next h2 => simp [h2]
    · next h2 => simp [h1, h2]

/-! ## The branches on a ready hart -/

section
variable {s : State} (hr : Ready s = true)
include hr

theorem exec_br {x : ArgsB} (hw : (Instr.br x).wellFormed = true) : exec (.br x) s = (branchTo (brTaken x s) x.o s).out := by
  show execBr x s = _
  rw [execBr, issue_wf _ _ _ hw, readScalars_full _ _ _ (ready_allFull hr)]

theorem exec_brm {x : ArgsBrm} (hw : (Instr.brm x).wellFormed = true) : exec (.brm x) s = (branchTo (brmTaken x s) x.o s).out := by
  have hmask : x.a.toNat < 8 := of_decide_eq_true (Bool.and_eq_true_iff.mp hw).2
  show execBrm x s = _
  rw [execBrm, issue_wf _ _ _ hw, readMasks_full _ _ _ (ready_allFull hr) (by simpa using hmask), drainedOf_ready hr]

theorem exec_brs {x : ArgsB} (hw : (Instr.brs x).wellFormed = true) :
    exec (.brs x) s = if brsUnsettled x.a.toNat x.b.toNat s = true then .next s else (branchTo (brsTaken x s) x.o s).out := by
  show execBrs x s = _
  rw [execBrs, issue_wf _ _ _ hw, drainedOf_ready hr, drained_ready _ _ (ready_inflight hr), ite_self, ite_self]
  split <;> rfl

end

theorem branchResult : BranchResult := by
  intro i o taken s hrow hw hr
  cases i with
  | br x =>
    obtain ⟨rfl, rfl⟩ := Prod.mk.inj (Option.some.inj ((branchRow_br x).symm.trans hrow))
    exact ⟨fun _ => by rw [exec_br hr hw, branchTo_eq, Res.out_ok], fun x h => nomatch h⟩
  | brm x =>
    obtain ⟨rfl, rfl⟩ := Prod.mk.inj (Option.some.inj ((branchRow_brm x).symm.trans hrow))
    exact ⟨fun _ => by rw [exec_brm hr hw, branchTo_eq, Res.out_ok], fun x h => nomatch h⟩
  | brs x =>
    obtain ⟨rfl, rfl⟩ := Prod.mk.inj (Option.some.inj ((branchRow_brs x).symm.trans hrow))
    rw [exec_brs hr hw]
    refine ⟨fun h => ?_, fun y hy hu => ?_⟩
    · rw [if_neg (mt (brsUnsettled_iff x s).mp (h x rfl)), branchTo_eq, Res.out_ok]
    · obtain rfl := Instr.brs.inj hy
      rw [if_pos ((brsUnsettled_iff x s).mpr hu)]
  | _ => exact nomatch hrow

/-! ## Jumps (R21, R161) -/

/-- A jump to `target`: s[d] holds the address of the next instruction, and nothing else of the hart changes. -/
theorem jump_outcome (s : State) (d : BitVec 6) (target : Word) :
    let t := s.setHart ((s.hart.ws d (s.hart.pc + 4)).retireTo target)
    OnlyHart s t ∧ (∀ r, t.hart.rs r = if r = d ∧ d ≠ 0 then s.hart.pc + 4 else s.hart.rs r) ∧
      t.hart = { goTo s.hart target with s := t.hart.s } := by
  refine ⟨onlyHart_setHart _ _, ?_, ?_⟩
  · rw [State.hart_setHart]
    exact fun r => Hart.rs_ws s.hart d r _
  · rw [State.hart_setHart]
    unfold Hart.ws
    split <;> rfl

section
variable {s : State} (hr : Ready s = true)
include hr

theorem exec_jal (x : ArgsI) :
    exec (.jal x) s = .next (s.setHart ((s.hart.ws x.d (s.hart.pc + 4)).retireTo (s.hart.pc + x.i.signExtend 64 * 4))) := by
  show execJal x s = _
  rw [execJal, issue_wf _ _ _ rfl, destFree_full _ _ _ (ready_allFull hr), word_four_mul]
  rfl

theorem exec_jalr {x : ArgsJ} (hw : (Instr.jalr x).wellFormed = true) {target : Word}
    (ht : target = s.hart.rs x.a + (if x.w then x.b.signExtend 64 * 4 else s.hart.rs x.b)) :
    exec (.jalr x) s = (if target.toNat % 4 = 0 then .ok (s.setHart ((s.hart.ws x.d (s.hart.pc + 4)).retireTo target))
      else Res.trap 0x05 0 target 0 s).out := by
  have htarget : jalrTarget x s = target := by
    rw [ht, ← word_four_mul]
    rfl
  have halign : target.extractLsb' 0 2 ≠ 0 ↔ ¬ target.toNat % 4 = 0 := by
    rw [ne_eq, BitVec.toNat_eq, BitVec.extractLsb'_toNat]
    rfl
  have hfull := ready_allFull hr
  show execJalr x s = _
  rw [execJalr, issue_wf _ _ _ hw, readScalars_full _ _ _ hfull, destFree_full _ _ _ hfull]
  simp only [htarget, halign, ite_not]

end

/-! ## Immediates (R21, R160) -/

/-- The low 19 bits of the shifted register are zero, so adding the immediate fills them. -/
theorem shifted_add_immediate (v : Word) (i : BitVec 19) : v <<< 19 + i.zeroExtend 64 = (v <<< 19) ||| i.zeroExtend 64 := by
  refine BitVec.add_eq_or_of_and_eq_zero _ _ ?_
  ext j hj
  by_cases h : j < 19
  · simp [h]
  · simp [h, BitVec.getLsbD_of_ge i j (by omega)]

section
variable {s : State} (hr : Ready s = true)
include hr

theorem li_result (x : ArgsI) : ∃ t, exec (.li x) s = .next t ∧ ScalarOutcome s t x.d (x.i.signExtend 64) 0 := by
  refine ⟨_, ?_, scalarOutcome_retire s x.d _⟩
  show execLi x s = _
  rw [execLi, issue_wf _ _ _ rfl, destFree_full _ _ _ (ready_allFull hr)]
  rfl

theorem lis_result (x : ArgsI) :
    ∃ t, exec (.lis x) s = .next t ∧ ScalarOutcome s t x.d ((s.hart.rs x.d <<< 19) ||| x.i.zeroExtend 64) 0 := by
  have hfull := ready_allFull hr
  refine ⟨_, ?_, scalarOutcome_retire s x.d _⟩
  show execLis x s = _
  rw [execLis, issue_wf _ _ _ rfl, readScalars_full _ _ _ hfull, destFree_full _ _ _ hfull, shifted_add_immediate]
  rfl

end

theorem jumpAndImmediateResult : JumpAndImmediateResult := by
  refine ⟨fun s hr => ⟨fun x => ⟨_, exec_jal hr x, jump_outcome s x.d _⟩, fun x hw => ?_⟩,
    fun x s hr => ⟨li_result hr x, lis_result hr x⟩⟩
  intro target
  refine ⟨fun h => ?_, fun h hlvl => ?_⟩
  · rw [exec_jalr hr hw rfl, if_pos h]
    exact ⟨_, rfl, jump_outcome s x.d target⟩
  · rw [exec_jalr hr hw rfl, if_neg h]
    exact trapOutcome_of_trap hlvl 0x05 0 target 0

/-- Settles O41: the branches by `branchTo_eq` and their conditions, JAL and JALR by `jump_outcome`, LI and LIS as scalar results. -/
theorem controlFlowResult : Obligations.ControlFlowResult := ⟨branchResult, jumpAndImmediateResult⟩

end Sys2Proof.Proofs
end

section
/-! O42. MFCR and MTCR on a hart that nothing makes wait. -/

namespace Sys2Proof.Proofs
open Sys2Proof Sys2Proof.Machine Sys2Proof.Spec

/-! ## MFCR (R150, R155) -/

/-- Two fields side by side, as a sum. -/
theorem append_eq_add {m n : Nat} (u : BitVec m) (v : BitVec n) :
    u ++ v = v.setWidth (m + n) + u.setWidth (m + n) * BitVec.ofNat (m + n) (2 ^ n) := by
  have hlt := (u ++ v).isLt
  rw [Laws.append_toNat] at hlt
  apply BitVec.eq_of_toNat_eq
  simp only [Laws.append_toNat, BitVec.toNat_add, BitVec.toNat_mul, BitVec.toNat_setWidth, BitVec.toNat_ofNat, Nat.mul_mod_mod, Nat.mod_mul_mod,
    Nat.add_mod_mod, Nat.mod_add_mod]
  rw [Nat.add_comm v.toNat, Nat.mod_eq_of_lt hlt]

theorem tvecWord_eq (h : Hart) : h.tvec.setWidth 64 * 4#64 = h.tvec ++ 0#2 := by
  rw [append_eq_add, BitVec.setWidth_zero, BitVec.zero_add]
  rfl

theorem sliceWord_eq (c : Ctx) : c.slice.setWidth 64 + c.clamps.setWidth 64 * 2#64 ^ 32 = c.clamps ++ c.slice :=
  (append_eq_add c.clamps c.slice).symm

/-- Register by register, `crRead` is the table of the statement. -/
theorem crRead_of_mem {p : Nat × (State → Word)} (hp : p ∈ controlReads) (s : State) : crRead s p.1 = p.2 s := by
  revert p
  simp [controlReads, crRead, bankRead, boolWord, tvecWord_eq, sliceWord_eq]

theorem controlReads_assigned {p : Nat × (State → Word)} (hp : p ∈ controlReads) : assignedCr p.1 = true ∧ p.1 ≠ 0x014 :=
  (by decide : ∀ n ∈ controlReads.map Prod.fst, assignedCr n = true ∧ n ≠ 0x014) p.1 (List.mem_map_of_mem hp)

theorem exec_mfcr {d : BitVec 6} {n : BitVec 12} {s : State} (hn : assignedCr n.toNat = true) (hr : Ready s = true) :
    exec (.mfcr ⟨d, n⟩) s = (if detmSeen s = true ∧ (n.toNat = 0x010 ∨ n.toNat = 0x014) then writeRetire d 0 (s.setHart { s.hart with detf := true })
      else writeRetire d (crRead s n.toNat) (if n.toNat = 0x014 then s.tick else s)).out := by
  have hw : (Instr.mfcr ⟨d, n⟩).wellFormed = true := hn
  show execMfcr ⟨d, n⟩ s = _
  rw [execMfcr, issue_wf _ _ _ hw, destFree_full _ _ _ (ready_allFull hr), ← detm_eq_detmSeen]
  simp only [drainedOf_ready hr, ite_self, Bool.and_eq_true, Bool.or_eq_true, beq_iff_eq]

/-- In deterministic mode the register reads as 0, and DETF.D is set. -/
theorem detf_outcome (s : State) (d : BitVec 6) :
    ∃ t, (writeRetire d 0 (s.setHart { s.hart with detf := true })).out = .next t ∧ OnlyHart s t ∧ t.hart.detf = true ∧
      (∀ r, t.hart.rs r = if r = d then 0 else s.hart.rs r) ∧
      t.hart = { goTo s.hart (s.hart.pc + 4) with s := t.hart.s, detf := true } := by
  obtain ⟨hrs, hrest⟩ := hart_writeRetire { s.hart with detf := true } d 0
  have honly := onlyHart_trans (onlyHart_setHart s { s.hart with detf := true })
    (onlyHart_setHart _ (Hart.ws { s.hart with detf := true } d 0).retire)
  refine ⟨_, by rw [writeRetire, State.hart_setHart, Res.out_ok], honly, ?_, fun r => ?_, ?_⟩
  · rw [State.hart_setHart, hrest]
    rfl
  · rw [State.hart_setHart, hrs]
    rcases eq_or_ne d 0 with rfl | hd
    · rw [if_neg fun h => h.2 rfl]
      split
      · next h => exact h ▸ Hart.rs_zero _
      · rfl
    · exact if_congr (and_iff_left hd) rfl rfl
  · rw [State.hart_setHart]
    exact hrest

theorem controlRegisterRead : ControlRegisterRead := by
  intro d n s hr
  refine ⟨fun f hf hn => ?_, fun hd hn => ?_⟩
  · obtain ⟨hassigned, hcycle⟩ := controlReads_assigned hf
    have hplain : ¬ (detmSeen s = true ∧ (n.toNat = 0x010 ∨ n.toNat = 0x014)) := fun ⟨hd, h⟩ =>
      h.elim (fun h => hn hd (BitVec.eq_of_toNat_eq h)) hcycle
    have hread : crRead s n.toNat = f s := crRead_of_mem hf s
    rw [exec_mfcr hassigned hr, if_neg hplain, if_neg hcycle, hread]
    exact ⟨_, rfl, scalarOutcome_retire s d (f s)⟩
  · have hassigned : assignedCr n.toNat = true := by rcases hn with rfl | rfl <;> rfl
    rw [exec_mfcr hassigned hr, if_pos ⟨hd, hn.imp (congrArg BitVec.toNat) (congrArg BitVec.toNat)⟩]
    exact detf_outcome s d

/-! ## MTCR of a register of the hart (R150, R152, R156) -/

theorem exec_mtcr_hart {x : ArgsMtcr} {s : State} (hw : (Instr.mtcr x).wellFormed = true) (hr : Ready s = true)
    (hd : crDenied s x.c.toNat = false) (hn : x.c.toNat < 0x100) :
    exec (.mtcr x) s = .next (s.setHart (crWriteHart s x.c.toNat (s.hart.rs x.d)).retire) := by
  show execMtcr x s = _
  rw [execMtcr, issue_wf _ _ _ hw]
  simp only [hd, Bool.false_eq_true, ↓reduceIte, readScalars_full _ _ _ (ready_allFull hr), drainedOf_ready hr, ite_self]
  rw [if_neg (by omega), if_neg (by omega), if_neg (by omega), if_neg (by omega), Res.out_ok]

theorem extractLsb'_two_eq_three_iff (v : Word) : v.extractLsb' 0 2 = 3#2 ↔ v.toNat % 4 = 3 := by
  rw [BitVec.toNat_eq, BitVec.extractLsb'_toNat]
  rfl

/-- Register by register, `crWriteHart` is the table of the statement. -/
theorem crWriteHart_of_mem {p : Nat × (State → Word → Hart)} (hp : p ∈ controlWrites) (s : State) (v : Word) :
    (crWriteHart s p.1 v).retire = goTo (p.2 s v) (s.hart.pc + 4) := by
  revert p
  simp [controlWrites, crWriteHart, extractLsb'_two_eq_three_iff, Hart.retire, goTo]

theorem controlWrites_writable {p : Nat × (State → Word → Hart)} (hp : p ∈ controlWrites) :
    writableCr p.1 = true ∧ bankLevel p.1 = 0 ∧ p.1 < 0x100 :=
  (by decide : ∀ n ∈ controlWrites.map Prod.fst, writableCr n = true ∧ bankLevel n = 0 ∧ n < 0x100) p.1 (List.mem_map_of_mem hp)

theorem controlRegisterWrite : ControlRegisterWrite := by
  intro x s f hf hr
  obtain ⟨hw, hlevel, hn⟩ := controlWrites_writable hf
  have hd : crDenied s x.c.toNat = false := by
    have hlevel : bankLevel x.c.toNat = 0 := hlevel
    simp [crDenied, hlevel, hn]
  rw [exec_mtcr_hart hw hr hd hn]
  exact congrArg (fun h => Host.Outcome.next (s.setHart h)) (crWriteHart_of_mem hf s (s.hart.rs x.d))

/-! ## MTCR of a trap bank (R342) -/

/-- TEPC keeps its two low bits at zero. -/
theorem and_not_three_eq (v : Word) : v &&& ~~~ 3 = BitVec.ofNat 64 (v.toNat / 4 * 4) := by
  have hcut : v.extractLsb' 2 62 ++ 0#2 = v &&& ~~~ 3 := by
    have hhigh : (~~~ 3 : Word).extractLsb' 2 62 = BitVec.allOnes 62 := rfl
    have hlow : (~~~ 3 : Word).extractLsb' 0 2 = 0#2 := rfl
    rw [append_eq_iff, BitVec.extractLsb'_and, BitVec.extractLsb'_and, hhigh, hlow, BitVec.and_allOnes, BitVec.and_zero]
    exact ⟨rfl, rfl⟩
  apply BitVec.eq_of_toNat_eq
  rw [← hcut, Laws.append_toNat, BitVec.extractLsb'_toNat, BitVec.toNat_ofNat, BitVec.toNat_ofNat, Nat.shiftRight_eq_div_pow]
  omega

theorem bankWrite_eq_bankAfter (b : Bank) (j : Nat) (v : Word) : bankWrite b j v = bankAfter b j v := by
  have htrunc (n : Nat) : v.truncate n = v.extractLsb' 0 n := by
    apply BitVec.eq_of_toNat_eq
    rw [BitVec.toNat_setWidth, BitVec.extractLsb'_toNat, Nat.shiftRight_zero]
  simp only [bankWrite, htrunc, and_not_three_eq]
  match j with
  | 0 | 1 | 2 | 3 => rfl
  | j + 4 => rfl

/-! ## Privilege (R38, R152, R342) -/

theorem crDenied_iff (s : State) (n : Nat) : crDenied s n = true ↔ (0x100 ≤ n ∧ s.myCtx.sys = false) ∨
    (0x022 ≤ n ∧ n ≤ 0x026 ∧ s.hart.tlvl.toNat < 1) ∨ (0x027 ≤ n ∧ n ≤ 0x02B ∧ s.hart.tlvl.toNat < 2) := by
  rw [crDenied, Bool.or_eq_true, Bool.and_eq_true, decide_eq_true_iff, Bool.not_eq_true', decide_eq_true_iff, bankLevel]
  refine or_congr_right ?_
  split
  · omega
  · split
    · omega
    · omega

section
variable (s : State) (v : Word) {n : Nat}

theorem crWriteHart_bank1 (h : 0x022 ≤ n) (h' : n ≤ 0x026) :
    crWriteHart s n v = { s.hart with bank1 := bankAfter s.hart.bank1 (n - 0x022) v } := by
  rw [← bankWrite_eq_bankAfter]
  interval_cases n <;> rfl

theorem crWriteHart_bank2 (h : 0x027 ≤ n) (h' : n ≤ 0x02B) :
    crWriteHart s n v = { s.hart with bank2 := bankAfter s.hart.bank2 (n - 0x027) v } := by
  rw [← bankWrite_eq_bankAfter]
  interval_cases n <;> rfl

end

section
variable {x : ArgsMtcr} {s : State} (hw : (Instr.mtcr x).wellFormed = true) (hr : Ready s = true)
include hw

theorem mtcr_denied (hd : crDenied s x.c.toNat = true) (hlvl : s.hart.tlvl.toNat < 2) :
    ∃ t, exec (.mtcr x) s = .next t ∧ TrapOutcome s t 0x02 s.hart.eidx.toNat ((wordOf (.mtcr x)).zeroExtend 64) 0 := by
  show ∃ t, execMtcr x s = _ ∧ _
  rw [execMtcr, issue_wf _ _ _ hw]
  simp only [hd, ↓reduceIte]
  exact trapOutcome_of_trap hlvl 0x02 _ _ 0

include hr

theorem mtcr_bank1 (h : 0x022 ≤ x.c.toNat) (h' : x.c.toNat ≤ 0x026) (hlvl : 1 ≤ s.hart.tlvl.toNat) :
    exec (.mtcr x) s = .next (s.setHart { goTo s.hart (s.hart.pc + 4) with
      bank1 := bankAfter s.hart.bank1 (x.c.toNat - 0x022) (s.hart.rs x.d) }) := by
  have hd : crDenied s x.c.toNat = false := by
    rw [Bool.eq_false_iff, ne_eq, crDenied_iff]
    omega
  rw [exec_mtcr_hart hw hr hd (by omega), crWriteHart_bank1 s _ h h']
  rfl

theorem mtcr_bank2 (h : 0x027 ≤ x.c.toNat) (h' : x.c.toNat ≤ 0x02B) (hlvl : 2 ≤ s.hart.tlvl.toNat) :
    exec (.mtcr x) s = .next (s.setHart { goTo s.hart (s.hart.pc + 4) with
      bank2 := bankAfter s.hart.bank2 (x.c.toNat - 0x027) (s.hart.rs x.d) }) := by
  have hd : crDenied s x.c.toNat = false := by
    rw [Bool.eq_false_iff, ne_eq, crDenied_iff]
    omega
  rw [exec_mtcr_hart hw hr hd (by omega), crWriteHart_bank2 s _ h h']
  rfl

end

/-! ## MTCR of DETM and SLICE (R152) -/

/-- The hart retires with its context written. -/
theorem setCtx_retire (s : State) (c : Ctx) : let t := (s.setCtx s.ctxid c).setHart s.hart.retire
    t.hart = goTo s.hart (s.hart.pc + 4) ∧ t.ctx s.ctxid = c ∧ ∀ b, b ≠ s.ctxid → t.ctx b = s.ctx b :=
  ⟨State.hart_setHart _ _, (State.ctx_setCtx s s.ctxid s.ctxid c).trans (if_pos rfl),
    fun b hb => (State.ctx_setCtx s s.ctxid b c).trans (if_neg hb)⟩

/-! ## MTCR of PTBASE (R300) -/

/-- From s to t only the memories, the buffered writes and the read copies change. -/
def OnlyStores (s t : State) : Prop := { t with hbm := s.hbm, cis := s.cis, host := s.host, copies := s.copies, wbuf := s.wbuf } = s

theorem onlyStores_performWrite {s t : State} (h : OnlyStores s t) (k : Nat) (loc : Loc) (n v : Nat) :
    OnlyStores s (t.performWrite k loc n v) := by
  cases loc <;> exact h

theorem onlyStores_drainIf (s : State) (p : BufWrite → Bool) : OnlyStores s (s.drainIf p) := by
  have hfold := foldl_keeps (P := OnlyStores s) (f := fun st (q : BufWrite × Bool) => if q.2 then st.performWrite q.1.slot q.1.loc q.1.n q.1.v else st)
    (fun t q ht => by
      split
      · exact onlyStores_performWrite ht _ _ _ _
      · exact ht) (State.takes p s.wbuf) (b := s) rfl
  exact hfold

section
variable {s t : State} (h : OnlyStores s t)
include h

theorem hart_of_onlyStores : t.hart = s.hart := by
  rw [← h]
  rfl

theorem ctxid_of_onlyStores : t.ctxid = s.ctxid := by
  rw [← h]
  rfl

end

/-- PTBASE is written, and the context's translations are dropped, over the memory that the hart's own stores leave. -/
theorem writePtbase_eq (v : Word) (s : State) : ∃ u, OnlyStores s u ∧
    writePtbase v s = (u.setCtx u.ctxid { u.myCtx with ptValid := v.getLsbD 0, ptRoot := v.extractLsb' 15 37 }).dropTlb u.ctxid :=
  ⟨_, onlyStores_drainIf s _, rfl⟩

theorem writePtbase_retire (v : Word) (s : State) : let t := (writePtbase v s).setHart (writePtbase v s).hart.retire
    t.hart = goTo s.hart (s.hart.pc + 4) ∧ (t.ctx s.ctxid).ptValid = v.getLsbD 0 ∧ (t.ctx s.ctxid).ptRoot = v.extractLsb' 15 37 ∧
      ∀ e ∈ t.tlb, e.ctx ≠ s.ctxid := by
  obtain ⟨u, hu, hwrite⟩ := writePtbase_eq v s
  rw [hwrite, ← ctxid_of_onlyStores hu, ← hart_of_onlyStores hu]
  intro t
  have hctx : t.ctx u.ctxid = { u.myCtx with ptValid := v.getLsbD 0, ptRoot := v.extractLsb' 15 37 } :=
    (State.ctx_setCtx u u.ctxid u.ctxid _).trans (if_pos rfl)
  have htlb : t.tlb = u.tlb.filter fun e => e.ctx != u.ctxid := rfl
  refine ⟨State.hart_setHart _ _, ?_, ?_, fun e he => ?_⟩
  · rw [hctx]
  · rw [hctx]
  · rw [htlb, List.mem_filter] at he
    exact bne_iff_ne.mp he.2

/-! ## MTCR of the context's registers (R152, R300) -/

section
variable {x : ArgsMtcr} {s : State} (hw : (Instr.mtcr x).wellFormed = true) (hr : Ready s = true) (hsys : s.myCtx.sys = true)
include hw hr hsys

/-- With SYS, an MTCR of DETM, SLICE or PTBASE. -/
theorem exec_mtcr_context (hc : x.c.toNat = 0x102 ∨ x.c.toNat = 0x103 ∨ x.c.toNat = 0x104) : exec (.mtcr x) s =
    (if x.c.toNat = 0x102 then retireOnly (s.setCtx s.ctxid { s.myCtx with detm := (s.hart.rs x.d).getLsbD 0 })
      else if x.c.toNat = 0x103 then retireOnly (s.setCtx s.ctxid { s.myCtx with slice := (s.hart.rs x.d).truncate 32 })
      else if s.unackedWrites s.cur = true then .wait s
      else retireOnly (writePtbase (s.hart.rs x.d) s)).out := by
  have hd : crDenied s x.c.toNat = false := by
    rw [Bool.eq_false_iff, ne_eq, crDenied_iff, hsys, Bool.true_eq_false, and_false, false_or]
    omega
  show execMtcr x s = _
  rw [execMtcr, issue_wf _ _ _ hw]
  simp only [hd, Bool.false_eq_true, ↓reduceIte, readScalars_full _ _ _ (ready_allFull hr), ready_late hr]
  rcases hc with hc | hc | hc
  · rw [hc]
    rfl
  · rw [hc]
    rfl
  · rw [hc]
    rfl

theorem mtcr_detm (hc : x.c = 0x102) : ∃ t, exec (.mtcr x) s = .next t ∧ t.hart = goTo s.hart (s.hart.pc + 4) ∧
    t.ctx s.ctxid = { s.myCtx with detm := (s.hart.rs x.d).getLsbD 0 } ∧ ∀ c, c ≠ s.ctxid → t.ctx c = s.ctx c := by
  have hn : x.c.toNat = 0x102 := congrArg BitVec.toNat hc
  rw [exec_mtcr_context hw hr hsys (.inl hn), if_pos hn]
  exact ⟨_, rfl, setCtx_retire s _⟩

theorem mtcr_slice (hc : x.c = 0x103) : ∃ t, exec (.mtcr x) s = .next t ∧ t.hart = goTo s.hart (s.hart.pc + 4) ∧
    t.ctx s.ctxid = { s.myCtx with slice := (s.hart.rs x.d).truncate 32 } ∧ ∀ c, c ≠ s.ctxid → t.ctx c = s.ctx c := by
  have hn : x.c.toNat = 0x103 := congrArg BitVec.toNat hc
  rw [exec_mtcr_context hw hr hsys (.inr (.inl hn)), if_neg (by omega), if_pos hn]
  exact ⟨_, rfl, setCtx_retire s _⟩

theorem exec_mtcr_ptbase (hc : x.c = 0x104) : exec (.mtcr x) s =
    (if s.unackedWrites s.cur = true then .wait s else retireOnly (writePtbase (s.hart.rs x.d) s)).out := by
  have hn : x.c.toNat = 0x104 := congrArg BitVec.toNat hc
  rw [exec_mtcr_context hw hr hsys (.inr (.inr hn)), if_neg (by omega), if_neg (by omega)]

end

theorem privilegedRegisters : PrivilegedRegisters := by
  intro x s hw hr
  refine ⟨fun hd hlvl => mtcr_denied hw ((crDenied_iff s _).mpr hd) hlvl, mtcr_bank1 hw hr, mtcr_bank2 hw hr,
    fun hsys => ⟨mtcr_detm hw hr hsys, mtcr_slice hw hr hsys, fun hc hu => ?_, fun hc hu => ?_⟩⟩
  · rw [exec_mtcr_ptbase hw hr hsys hc, if_pos hu, Res.out_wait]
  · rw [exec_mtcr_ptbase hw hr hsys hc, if_neg (Bool.eq_false_iff.mp hu)]
    exact ⟨_, rfl, writePtbase_retire _ s⟩

/-- Settles O42: reads by `crRead_of_mem`, writes by `crWriteHart_of_mem`, and who may write by `crDenied_iff`. -/
theorem controlRegisters : Obligations.ControlRegisters := ⟨controlRegisterRead, controlRegisterWrite, privilegedRegisters⟩

end Sys2Proof.Proofs
end
